-- ==== Sys2Proof/Word.lean ====
section
/-!
DEFINITION. The word types of the node (R9: bits numbered from the least significant, little-endian fields).
-/
namespace Sys2Proof

/-- One byte. -/
abbrev Byte := BitVec 8
/-- A 16-bit word. -/
abbrev W16 := BitVec 16
/-- A 32-bit word. -/
abbrev W32 := BitVec 32
/-- A 64-bit word. -/
abbrev W64 := BitVec 64
/-- A 128-bit register of SV128 (R277). -/
abbrev W128 := BitVec 128
/-- A node ID in the hall (R43, NODE_IDENT.node_id). -/
abbrev NodeId := BitVec 20

end Sys2Proof
end

