-- ==== Sys2Proof/Syntax.lean ====
section
/-!
DEFINITION. The commands of the node: one constructor of `Instr` for each row of spec/opcode_table.json, and the
operand types they carry. A row that is an event names the unit it happens to, and carries what comes from outside.
-/
namespace Sys2Proof

/-! ### Names of units -/

/-- A logical block (R24): its region and its logical number. -/
structure Blk where
  region : BitVec 2
  block  : BitVec 6
deriving DecidableEq, Repr

/-- The six queues of a block, Table 04.3. -/
inductive Qc where
  | TQ | VQ | XQ | IQ | OQ | CQ
deriving DecidableEq, Repr

/-- The element widths of SV128 integer operations and of its loads and stores, Tables 10.5 and 10.6. -/
inductive SvW where
  | b | h | w | d
deriving DecidableEq, Repr

/-- The element formats of SV128 floating operations, Table 10.5. -/
inductive SvF where
  | fp16 | fp32 | fp64
deriving DecidableEq, Repr

/-- What every SV128 arithmetic row carries: the hart and the three register fields of Table 10.5. -/
structure SvRegs where
  hart : BitVec 6
  vd   : BitVec 5
  vs1  : BitVec 5
  vs2  : BitVec 5
deriving DecidableEq, Repr

/-- An SV128 load or store, Table 10.5: the width, the register, the address register and the mask bit. -/
structure SvMem where
  hart  : BitVec 6
  width : SvW
  v     : BitVec 5
  rs1   : BitVec 5
  m     : Bool
deriving DecidableEq, Repr

/-! ### Frames -/

/-- The Ngaiz header of Table 02.5. -/
structure NgHdr where
  version   : BitVec 4
  type      : BitVec 4
  retry     : Bool
  ackValid  : Bool
  nak       : Bool
  binned    : Bool
  last      : Bool
  opcode    : Byte
  reason    : Byte
  jobId     : W16
  hedgeId   : W16
  src       : NodeId
  dst       : NodeId
  flow      : BitVec 13
  seq       : W32
  ackSeq    : W32
  slot      : BitVec 48
  length    : W16
  offset    : BitVec 56
  fmt       : BitVec 4
  rnd       : BitVec 3
  subop     : Byte
  opArg     : W16
  check     : W32
deriving DecidableEq, Repr

/-- How a frame's ICV came out at its port (R64, R65); whether it is a replay, its packet number says. -/
inductive Macsec where
  | good | absent | badIcv
deriving DecidableEq, Repr

/-- The headers around the Ngaiz frame (Table 02.1, R42, R43, R49, R64): EtherType, 802.1Q tags with the VLAN ID and the
priority code point of the first, SecTAG association and packet number, IPv6 and UDP. -/
structure LinkHdr where
  etherType : W16
  tags      : Nat
  vlan      : BitVec 12
  pcp       : BitVec 3
  an        : BitVec 2
  pn        : W64
  src6      : W128
  dst6      : W128
  flowLabel : BitVec 20
  hopLimit  : Byte
  nextHdr   : Byte
  payload   : W16
  udpSrc    : W16
  udpDst    : W16
  udpSum    : W16
deriving DecidableEq, Repr

/-- A frame as it stands at a line: the line, the hall slot of its arrival or launch, the outcomes of the FCS and of
MACsec, the headers around it, the Ngaiz header, its data in whole lines and one line check a line (*The Ngaiz frame*).
Line 2p is port p, or its half-port H(2p); line 2p + 1 is the half-port H(2p + 1). The header has no field for the format
of a REDUCE's addends, nor for an atomic whose old values are asked for: `addend` and `olds` hold them (log 57). -/
structure Frame where
  port   : BitVec 4
  at_    : BitVec 48
  fcsOk  : Bool
  macsec : Macsec
  link   : LinkHdr
  hdr    : NgHdr
  addend : BitVec 4
  olds   : Bool
  data   : List Byte
  lchk   : List W32
deriving DecidableEq, Repr

/-- A PTP message as the time unit sees it (R47), with what Table 02.3 asks of its transport: untagged, to the
non-forwardable multicast address, versionPTP and minorVersionPTP (0x12 is 2.1), and by the end-to-end delay
mechanism. -/
structure PtpMsg where
  tagged      : Bool
  forwardable : Bool
  version     : Byte
  peerDelay   : Bool
  isSync     : Bool
  isAnnounce : Bool
  port       : BitVec 4
  master     : W64
  domain     : Byte
  malformed  : Bool
  seqOk      : Bool
  corrNs     : Int
  offsetPs   : Int
deriving DecidableEq, Repr

/-! ### Plans -/

/-- One slot entry of a plan bank with its place (Table 02.7); its port is a line as `Frame.port` is. -/
structure PlanEntry where
  port  : BitVec 4
  slot  : Nat
  entry : W32
deriving DecidableEq, Repr

/-- A transmit flow-table entry (*Plan period and banks*). -/
structure TxFlow where
  port    : BitVec 4
  index   : BitVec 13
  dst     : NodeId
  nextHop : Byte
  hedge   : W16
  region  : BitVec 2
  block   : BitVec 6
  /-- 1 for a flow declared for field-core traffic (R248) -/
  core    : Bool
deriving DecidableEq, Repr

/-- A receive flow-table entry (*Plan period and banks*). -/
structure RxFlow where
  port   : BitVec 4
  index  : BitVec 13
  src    : NodeId
  flow   : BitVec 13
  window : BitVec 6
deriving DecidableEq, Repr

/-- A whole espalier: period exponent, slot entries, flow tables, and for each destination the pairs of the plan
that carry scheduled frames between nodes (R305 reads them for the cut depth). -/
structure Plan where
  k       : Nat
  entries : List PlanEntry
  tx      : List TxFlow
  rx      : List RxFlow
  pairs   : List (NodeId × NodeId)
deriving DecidableEq, Repr

/-! ### Operands of other rows -/

/-- A host buffer (R333). -/
structure HostBuf where
  addr : W64
  len  : W64
deriving DecidableEq, Repr

/-- A residue mismatch seen by the tensor engine (R19, R135): tile in walk order, run 1 to 3, cell. -/
structure Mismatch where
  tile : Nat
  run  : Nat
  col  : Nat
  row  : Nat
deriving DecidableEq, Repr

/-- The 128-byte payload of PREPARE, Table 09.6. -/
structure PrepMsg where
  launchId       : W64
  tGo            : W64
  commitDeadline : W64
  expiry         : W64
  root           : NodeId
  arity          : Byte
  purpose        : Byte
  epoch          : W32
  digest         : List Byte
deriving DecidableEq, Repr

/-- Which of the two trees of R251 a CONTROL frame travels. -/
inductive Tree where
  | A | B
deriving DecidableEq, Repr

/-- Who gives a policy order (R337): the host by POLICY_ORDER, or a member by frame. -/
inductive OrderSrc where
  | mbx
  | frame (src : NodeId)
deriving DecidableEq, Repr

/-- The 64-byte hold notice of R337. -/
structure Notice where
  rank     : Nat
  step     : BitVec 48
  worst    : Byte
  orphan   : Bool
  byLimit  : Bool
  silent   : List NodeId
deriving DecidableEq, Repr

/-- One shard of a checkpoint copy: where it belongs, its bytes and its 128-byte trailer (Table 12.3), and whether a line
of it could not be read. -/
structure ShardCopy where
  stack   : Byte
  index   : Byte
  data    : List Byte
  trailer : List Byte
  bad     : Bool := false
deriving DecidableEq, Repr

/-- One copy of a generation: the manifest bytes (Table 12.5) and the shards. -/
structure GenCopy where
  gen      : Bool
  manifest : List Byte
  shards   : List ShardCopy
deriving DecidableEq, Repr

/-- Who makes a register access: the host through the HRW, a hart in a privilege mode, or firmware by NPA. -/
inductive Requester where
  | host
  | hart (h : BitVec 6)
  | firmware
deriving DecidableEq, Repr

/-- The direction of a MACsec association (MACSEC_KEY). -/
inductive Dir where
  | tx | rx
deriving DecidableEq, Repr

/-- The JTAG and DOE payloads are bytes as they came. -/
abbrev Bytes := List Byte

/-- An AMO of the A extension (funct5). -/
inductive AmoOp where
  | swap | add | xor | and | or | min | max | minu | maxu
deriving DecidableEq, Repr

/-- The kind of an aperture access (R247). -/
inductive ApKind where
  | load | store
  | amo (op : AmoOp)
  | lrsc
deriving DecidableEq, Repr

/-- What the controller of a rail, a regulator or a sensor reports (R369 to R379). -/
inductive Rail where
  | vio18 | vddCt | vddFd | vddMs | vddmCd | vddCd (n : BitVec 2) | vdrp | vdram | vdrq | vpll | vsdA | vsdH
deriving DecidableEq, Repr

/-- What the environment gives the start sequence: which stacks fail training, which physical blocks fail their
test, which ports come up, whether hall time locks, whether the flash can be read, the milliseconds to node ready, the
lanes that training finds failing (stack, channel, lane), the coldest die's temperature, and whether fuse burns
succeed. -/
structure StartEnv where
  stackFails  : List Nat
  blockFails  : List (Nat × Nat)
  portsUp     : List Nat
  timeLocks   : Bool
  flashOk     : Bool
  readyMs     : W16
  laneFails   : List (Nat × Nat × Nat)
  columnFails : List (Nat × Nat × Nat × Nat)
  minTempC    : Int
  burnOk      : Bool
deriving DecidableEq, Repr

/-- The kinds of host violation of Table 11.7. -/
inductive CxlKind where
  | malformedTlp | badFunctionOrBar (isRead : Bool) | badHrwAccess (isRead : Bool) | poisonedTlp | unexpectedCompletion
  | cacheMismatch | memWritePoison | memOutside (isRead : Bool) | mbxOpcode | mbxPayload
deriving DecidableEq, Repr

/-- The tamper detectors of Table 14.8. -/
inductive Detector where
  | voltage | clock | temperature
deriving DecidableEq, Repr

/-- What the power core samples each millisecond (R376): the hottest junction of each compute die, the hottest of the
other dies and stacks, and the package power. -/
structure ThermalSample where
  tjCd    : List Nat
  tjOther : Nat
  tjStack : Nat
  powerW  : Nat
deriving DecidableEq, Repr

/-- What the power core samples for a daily record (Table 15.5). -/
structure HealthSample where
  slackPs  : List Nat
  roPpm    : List Int
  eyeMv    : Nat
  cycles   : Nat
deriving DecidableEq, Repr

/-- The commands of the node: one constructor for each row of spec/opcode_table.json, in the table's order. -/
inductive Instr where
  -- queue commands (04, 05, 06, 07, 08, 09)
  | nop (b : Blk) (q : Qc)
  | endCmd (b : Blk) (q : Qc)
  | stepCmd (b : Blk) (q : Qc)
  | loop (b : Blk) (q : Qc)
  | aop (b : Blk) (q : Qc)
  | lda (b : Blk) (q : Qc)
  | tmul (b : Blk) (mm : List Mismatch)
  | tscan (b : Blk)
  | vop (b : Blk)
  | vred (b : Blk)
  | vcomp (b : Blk)
  | vexp (b : Blk)
  | vconv (b : Blk)
  | sfact (b : Blk)
  | spat (b : Blk)
  | delta (b : Blk)
  | sin (b : Blk)
  | sout (b : Blk)
  | gather (b : Blk)
  | scatter (b : Blk)
  | get (b : Blk)
  | put (b : Blk)
  | ratom (b : Blk)
  | rred (b : Blk)
  | mcast (b : Blk)
  | coll (b : Blk)
  | panop (b : Blk)
  | bopen (b : Blk)
  | badd (b : Blk)
  | bcryst (b : Blk)
  | bclose (b : Blk)
  | redinto (b : Blk)
  | copy (b : Blk)
  | digest (b : Blk)
  | signal (b : Blk)
  | waitv (b : Blk)
  | waitvReread (b : Blk)
  | waitvTimeout (b : Blk)
  | waitt (b : Blk)
  | waittStrobe (b : Blk)
  | flags (b : Blk)
  | epochwait (b : Blk)
  | quiesce (b : Blk)
  | read (b : Blk)
  | commandIssue (b : Blk) (q : Qc)
  | commandComplete (b : Blk) (q : Qc)
  | stepBoundary
  | streamGrant (b : Blk)
  | streamDataLanded (b : Blk) (ctx : BitVec 4)
  | writeResponse (b : Blk) (ctx : BitVec 4)
  | streamRequestTimeout (b : Blk) (ctx : BitVec 4)
  -- fabric (02)
  | slotBoundary
  | planPeriodBoundary
  | planActivation
  | arm
  | cancel
  | lossDetected (peer : NodeId)
  | peerSilent (port : BitVec 3) (src : NodeId)
  | filler (f : Frame)
  | putFrame (f : Frame)
  | getReq (f : Frame)
  | getResp (f : Frame)
  | atomic (f : Frame)
  | atomicResp (f : Frame)
  | reduce (f : Frame)
  | mcastFrame (f : Frame)
  | collFrame (f : Frame)
  | bulk (f : Frame) (subs : List Frame)
  | signature (f : Frame)
  | signatureTimeout
  -- hall time (02, 16)
  | ptpMessage (m : PtpMsg)
  | holdover
  | locked
  | timeTakeover
  | ppsIn
  | ppsOut
  -- launch (09)
  | launch (root : W32) (tGo commitDeadline expiry : W64) (arity : Byte)
  | prepare (src : NodeId) (tree : Tree) (p : PrepMsg)
  | prepareResend
  | prepareAck (src : NodeId) (tree : Tree) (launchId : W64) (status : Byte) (count : Nat)
  | commitDeadline
  | commit (src : NodeId) (launchId : W64)
  | expiry
  | tGo
  -- checkpoint (12)
  | cutLevelRaise
  | granuleCopy (stack : BitVec 4)
  | manifestSign
  | mirrorAcknowledged
  -- holds and orders (11, 13)
  | held
  | holdLimit
  | holdNotice (src : NodeId) (n : Notice)
  | settleWindowEnd
  | noticeResend
  | hold (src : OrderSrc)
  | reset (src : OrderSrc)
  | resettingDrained
  | restore (src : OrderSrc) (step : BitVec 48) (failed : List NodeId) (remote : List GenCopy)
  | relaunch (src : OrderSrc) (tGo commitDeadline expiry : W64) (failed : List NodeId)
  | terminate (src : OrderSrc)
  | resume (src : OrderSrc)
  | selfReset
  | coalesceExpiry (code : W16) (unit : Nat)
  | ringRecordWrite (ring : BitVec 2)
  -- field cores (10)
  | hartInstruction (h : BitVec 6) (miss : Bool)
  | hartAmo (h : BitVec 6) (op : AmoOp) (dbl : Bool) (rd rs1 rs2 : BitVec 5)
  | apertureAccess (h : BitVec 6) (k : ApKind) (size : Nat) (addr : W64) (data : W128) (rd : BitVec 5)
  | apertureResponse (h : BitVec 6) (status : Byte) (data : W128)
  | timerInterrupt (h : BitVec 6)
  | msip (h : BitVec 6) (v : Bool)
  | fcoHartTcmp (h : BitVec 6) (v : W64)
  | fcoApt (by_ : Requester) (slot : BitVec 12) (v : W64)
  -- SV128 (10)
  | sv128Load (a : SvMem)
  | sv128Store (a : SvMem)
  | vadd (ew : SvW) (r : SvRegs)
  | vsub (ew : SvW) (r : SvRegs)
  | vmul (ew : SvW) (r : SvRegs)
  | vmin (ew : SvW) (r : SvRegs)
  | vmax (ew : SvW) (r : SvRegs)
  | vminu (ew : SvW) (r : SvRegs)
  | vmaxu (ew : SvW) (r : SvRegs)
  | vsadd (ew : SvW) (r : SvRegs)
  | vsaddu (ew : SvW) (r : SvRegs)
  | vssub (ew : SvW) (r : SvRegs)
  | vssubu (ew : SvW) (r : SvRegs)
  | vcmpeq (ew : SvW) (r : SvRegs)
  | vcmplt (ew : SvW) (r : SvRegs)
  | vcmpltu (ew : SvW) (r : SvRegs)
  | vsll (ew : SvW) (r : SvRegs)
  | vsrl (ew : SvW) (r : SvRegs)
  | vsra (ew : SvW) (r : SvRegs)
  | vwmul (ew : SvW) (r : SvRegs)
  | vwmulh (ew : SvW) (r : SvRegs)
  | vwmulu (ew : SvW) (r : SvRegs)
  | vwmuluh (ew : SvW) (r : SvRegs)
  | vdot (ew : SvW) (r : SvRegs)
  | vdotu (ew : SvW) (r : SvRegs)
  | vdotsu (ew : SvW) (r : SvRegs)
  | vmvVX (ew : SvW) (r : SvRegs)
  | vmvXV (ew : SvW) (r : SvRegs)
  | vins (ew : SvW) (r : SvRegs)
  | vmovmsk (ew : SvW) (r : SvRegs)
  | vziplo (ew : SvW) (r : SvRegs)
  | vziphi (ew : SvW) (r : SvRegs)
  | vunzipe (ew : SvW) (r : SvRegs)
  | vunzipo (ew : SvW) (r : SvRegs)
  | vand (r : SvRegs)
  | vor (r : SvRegs)
  | vxor (r : SvRegs)
  | vandn (r : SvRegs)
  | vmv (r : SvRegs)
  | vsel (r : SvRegs)
  | vpermb (r : SvRegs)
  | vextb (r : SvRegs) (shift : BitVec 4)
  | vfadd (ef : SvF) (r : SvRegs)
  | vfsub (ef : SvF) (r : SvRegs)
  | vfmul (ef : SvF) (r : SvRegs)
  | vfdiv (ef : SvF) (r : SvRegs)
  | vfmin (ef : SvF) (r : SvRegs)
  | vfmax (ef : SvF) (r : SvRegs)
  | vfma (ef : SvF) (r : SvRegs)
  | vfnms (ef : SvF) (r : SvRegs)
  | vfsqrt (ef : SvF) (r : SvRegs)
  | vfcmpeq (ef : SvF) (r : SvRegs)
  | vfcmplt (ef : SvF) (r : SvRegs)
  | vfcmple (ef : SvF) (r : SvRegs)
  | vfcvtfx (ef : SvF) (r : SvRegs)
  | vfcvtxf (ef : SvF) (r : SvRegs)
  | vfwidenlo (ef : SvF) (r : SvRegs)
  | vfwidenhi (ef : SvF) (r : SvRegs)
  | vfnarrow (ef : SvF) (r : SvRegs)
  -- memory and the host link (07, 11, 13)
  | rakeRead (stack : BitVec 4)
  | refresh (stack : BitVec 4) (channel : BitVec 5)
  | cxlMemRead (addr : W64)
  | cxlMemWrite (addr : W64) (data : Bytes) (poison : Bool)
  | cxlProtocol (k : CxlKind) (header : Bytes)
  | configRead (offset : W16)
  | hotReset
  | cxlReset
  | perstN (low : Bool)
  | emWrite (index : Byte) (v : W64)
  | emWriteApplied
  | hrwIntMask (v : W64)
  | hrwIntCause (v : W64)
  | ringCons (ring : BitVec 2) (v : W32)
  | leaseTake (holder : W32)
  | leaseRenew (holder : W32)
  | leaseRelease (holder : W32)
  | leaseExpired
  -- mailbox (13, 15)
  | identify
  | crashRecord
  | fwStage (buf : HostBuf)
  | fwInfo
  | bgResult
  | bgAbort
  | backgroundComplete
  | imageLoad (buf : HostBuf)
  | verifyReport (buf : HostBuf)
  | hostVerdict (digest : Bytes) (accept : Bool)
  | imageUnload
  | placementGet
  | placementSet (mode : W32)
  | planWrite (bank : Bool) (k : Byte) (plan : Plan)
  | planArm (epoch : W64) (bank : Bool)
  | ppsSecond (second : W64)
  | macsecKey (inIde : Bool) (port : Byte) (dir : Dir) (an : Byte) (ssci : W32) (salt key : Bytes) (firstPeriod : W64)
  | holdStatus
  | orphanLog
  | ckptDrain (held : Bool) (g : Bool) (stack : BitVec 4) (buf : HostBuf)
  | ckptLoad (g : Bool) (stack : BitVec 4) (buf : HostBuf)
  | restoreReport
  | readRepairMap (stack : BitVec 4) (buf : HostBuf)
  | readErrorCounts (stack : BitVec 4) (buf : HostBuf)
  | listCandidates (stack : BitVec 4) (buf : HostBuf)
  | markLane (stack : BitVec 4) (channel : BitVec 5) (lane : BitVec 7)
  | repairRow (stack : BitVec 4) (channel : BitVec 5) (bank : BitVec 6) (row : BitVec 15) (hard : Bool)
  | remapLane (stack : BitVec 4) (channel : BitVec 5) (lane : BitVec 7)
  | marginTest (stack : BitVec 4) (channel : BitVec 5) (buf : HostBuf)
  | patternTest (stack : BitVec 4) (channel : BitVec 5) (buf : HostBuf)
  | powerCap (watts : W16)
  | healthReport (buf : HostBuf)
  | healthLoad (buf : HostBuf)
  | maintBegin
  | maintEnd
  -- firmware, start, power (13, 14, 15)
  | watchdogExpiry (p : BitVec 4)
  | powerOn
  | resetN (low : Bool)
  | startSequence (e : StartEnv)
  | tamper (d : Detector) (vddCtHolds : Bool)
  | tamperClear
  | supplyOrder (r : Rail)
  | railDroop (r : Rail)
  | limitTrip (tempC : Nat)
  | limiterHoldEnd (hottestC : Nat)
  | hwThrottle (die : Option (BitVec 2))
  | throttle (t : ThermalSample)
  | avsSettled (die : BitVec 2)
  | avsRetry (die : BitVec 2)
  | dailyRecord (h : HealthSample)
  -- JTAG and I3C (14, 15, 16)
  | idcode
  | bypass
  | samplePreload
  | extest
  | dbgChallenge
  | dbgToken (token : Bytes)
  | dbgStatus
  | i3cPrivateRead
  | entdaa (addr : BitVec 7)
  | setdasa (addr : BitVec 7)
  -- SPDM and IDE (14)
  | getVersion
  | getCapabilities (ver : Byte)
  | negotiateAlgorithms (ed448 sha3 secp384r1 aesGcm : Bool)
  | getDigests
  | getCertificate (slot : Byte) (offset length : W16)
  | challenge (slot : Byte) (nonce : Bytes)
  | getMeasurements (index : Byte) (nonce : Option Bytes)
  | keyExchange (slot : Byte) (reqSession : W16) (exchange : Bytes)
  | finish (session : W32) (verifyOk : Bool)
  | heartbeat (session : W32)
  | keyUpdate (session : W32)
  | endSession (session : W32)
  | ideKm (session : W32) (stream : Byte) (key : Bytes)
  -- registers (00, 01, 02, 03, 07)
  | timNowNs
  | satCounterRead (npa : W64)
  | blkFlags (b : Blk) (v : W64)
  | panFlags (stack : BitVec 4) (v : W64)
  | registerWrite (by_ : Requester) (addr : W64) (size : Nat) (v : W64) (poison : Bool)
  -- events added last (02, 10, 13, 15)
  | portDown (port : BitVec 3)
  | portUp (port : BitVec 3)
  | hostLinkUp
  | announceReceiptTimeout
  | bmcaExclusionEnd (master : W64)
  | commitResend
  | powerDown (vddCtLost : Bool)
  | restartEnd (p : BitVec 4)
  | cxlCacheSnoop (line : W64) (inv : Bool)
  | localCacheMissFill (h : BitVec 6)
  | esmc (port : BitVec 4) (ql : BitVec 4)
deriving DecidableEq, Repr

end Sys2Proof
end

