-- ==== Sys2Proof/Decode.lean ====
section
/-!
DEFINITION. The node is a block and its table gives no row any bits: no word spells a command.
-/
namespace Sys2Proof

/-- The command that a word spells by the table's bits. No row of spec/opcode_table.json gives bits, so none. -/
def decodeTableWord (_nbits _w : Nat) : Option Instr := none

end Sys2Proof
end

