-- ==== Sys2Proof/Machine/Bytes.lean ====
section
/-!
DEFINITION. Bit fields, little-endian bytes and words, two's complement, slices of byte lists (00 R9).
-/
namespace Sys2Proof.Machine

/-- The field of `n` bits from bit `lo` of a number. -/
def nfld (w lo n : Nat) : Nat := (w >>> lo) % 2 ^ n

/-- The field of `n` bits from bit `lo` of a 64-bit word. -/
def fld (w : W64) (lo n : Nat) : Nat := nfld w.toNat lo n

/-- One bit of a 64-bit word. -/
def wbit (w : W64) (i : Nat) : Bool := w.toNat.testBit i

/-- 1 or 0. -/
def bn (b : Bool) : Nat := if b then 1 else 0

/-- The `n` little-endian bytes of a number (R9). -/
def leBytes : Nat → Nat → List Byte
  | 0, _ => []
  | n + 1, v => BitVec.ofNat 8 v :: leBytes n (v >>> 8)

/-- The number of little-endian bytes (R9). -/
def leNat : List Byte → Nat
  | [] => 0
  | b :: bs => b.toNat + 256 * leNat bs

/-- The number of big-endian bytes. -/
def beNat (bs : List Byte) : Nat := bs.foldl (fun a b => a * 256 + b.toNat) 0

/-- The two's-complement value of the low `n` bits. -/
def sx (n v : Nat) : Int := if v % 2 ^ n < 2 ^ (n - 1) then (v % 2 ^ n : Nat) else ((v % 2 ^ n : Nat) : Int) - (2 ^ n : Nat)

/-- The `n`-bit two's-complement encoding of an integer. -/
def tc (n : Nat) (i : Int) : Nat := (i % ((2 ^ n : Nat) : Int)).toNat

/-- `len` bytes of a list from `off`, zero beyond its end. -/
def slice (bs : List Byte) (off len : Nat) : List Byte :=
  let t := (bs.drop off).take len
  t ++ List.replicate (len - t.length) 0

/-- The little-endian field at bytes `off` to `off + len - 1`. -/
def le (bs : List Byte) (off len : Nat) : Nat := leNat (slice bs off len)

/-- Ceiling division. -/
def cdiv (a b : Nat) : Nat := (a + b - 1) / b

/-- A count that stops at its width. -/
def satAdd {n : Nat} (c : BitVec n) (k : Nat) : BitVec n := BitVec.ofNat n (min (c.toNat + k) (2 ^ n - 1))

end Sys2Proof.Machine
end

