-- ==== Sys2Proof/Machine/Crypto.lean ====
section
/-!
DEFINITION. The checks and digests the spec fixes by published standards: CRC-8 of R105, CRC-32C of R293, CRC-64 of
R264, and SHAKE256 and SHA3-512 (Keccak) of the digests of 04, 07, 12 and 14.
-/
namespace Sys2Proof.Machine

/-! ### Cyclic checks -/

/-- One bit of a reflected CRC with reflected polynomial `p`. -/
def crcBit (p c : Nat) : Nat := if c.testBit 0 then (c >>> 1) ^^^ p else c >>> 1

/-- `n` bits of a reflected CRC. -/
def crcBits (p : Nat) : Nat → Nat → Nat
  | 0, c => c
  | n + 1, c => crcBits p n (crcBit p c)

/-- A reflected CRC register after more bytes. -/
def crcRefl (p c : Nat) (bs : List Byte) : Nat := bs.foldl (fun c b => crcBits p 8 (c ^^^ b.toNat)) c

/-- CRC-32C, R293: polynomial 0x1EDC_6F41 reflected, initial value and final XOR all ones. -/
def crc32c (bs : List Byte) : W32 := BitVec.ofNat 32 (crcRefl 0x82F63B78 0xFFFFFFFF bs ^^^ 0xFFFFFFFF)

/-- CRC-64 of ECMA-182 reflected, R264: `c` is the CRC of the bytes before, 0 for an empty sequence. -/
def crc64 (c : W64) (bs : List Byte) : W64 :=
  let ones := 0xFFFFFFFFFFFFFFFF
  BitVec.ofNat 64 (crcRefl 0xC96C5795D7870F42 (c.toNat ^^^ ones) bs ^^^ ones)

/-- One bit of the CRC-8 of R105, not reflected, polynomial 0x07. -/
def crc8Bit (c : Nat) : Nat := if c.testBit 7 then ((c * 2) % 256) ^^^ 0x07 else (c * 2) % 256

/-- Eight bits of the CRC-8. -/
def crc8Bits : Nat → Nat → Nat
  | 0, c => c
  | n + 1, c => crc8Bits n (crc8Bit c)

/-- CRC-8 of R105. -/
def crc8 (bs : List Byte) : Byte := BitVec.ofNat 8 (bs.foldl (fun c b => crc8Bits 8 (c ^^^ b.toNat)) 0)

/-! ### Keccak-f[1600] and its sponges -/

/-- A lane of the Keccak state, `x + 5 y`. -/
def lane (a : List W64) (i : Nat) : W64 := a.getD i 0

/-- The round constants. -/
def keccakRC : List W64 :=
  [0x0000000000000001, 0x0000000000008082, 0x800000000000808A, 0x8000000080008000, 0x000000000000808B,
   0x0000000080000001, 0x8000000080008081, 0x8000000000008009, 0x000000000000008A, 0x0000000000000088,
   0x0000000080008009, 0x000000008000000A] ++
  [0x000000008000808B, 0x800000000000008B, 0x8000000000008089, 0x8000000000008003, 0x8000000000008002,
   0x8000000000000080, 0x000000000000800A, 0x800000008000000A, 0x8000000080008081, 0x8000000000008080,
   0x0000000080000001, 0x8000000080008008]

/-- The rotation of each lane. -/
def keccakRot : List Nat :=
  [0, 1, 62, 28, 27, 36, 44, 6, 55, 20, 3, 10, 43, 25, 39, 41, 45, 15, 21, 8, 18, 2, 61, 56, 14]

/-- One round of Keccak-f. -/
def keccakRound (a : List W64) (rc : W64) : List W64 :=
  let c := (List.range 5).map fun x => lane a x ^^^ lane a (x + 5) ^^^ lane a (x + 10) ^^^ lane a (x + 15) ^^^ lane a (x + 20)
  let d := (List.range 5).map fun x => lane c ((x + 4) % 5) ^^^ (lane c ((x + 1) % 5)).rotateLeft 1
  let t := (List.range 25).map fun i => lane a i ^^^ lane d (i % 5)
  -- ρ and π: lane (x, y) goes to (y, 2x + 3y)
  let b := (List.range 25).map fun j =>
    let y' := j / 5
    let x' := j % 5
    let i := (x' + 3 * y') % 5 + 5 * x'
    (lane t i).rotateLeft (keccakRot.getD i 0)
  (List.range 25).map fun i =>
    let x := i % 5
    let y := i - x
    let v := lane b i ^^^ (~~~(lane b (y + (x + 1) % 5)) &&& lane b (y + (x + 2) % 5))
    if i = 0 then v ^^^ rc else v

/-- Keccak-f[1600]. -/
def keccakF (a : List W64) : List W64 := keccakRC.foldl keccakRound a

/-- A block of `rate` bytes absorbed. -/
def absorb (a : List W64) (blk : List Byte) : List W64 :=
  keccakF ((List.range 25).map fun i => lane a i ^^^ BitVec.ofNat 64 (le blk (8 * i) 8))

/-- Blocks absorbed, at most `n` of them. -/
def absorbAll (rate : Nat) : Nat → List Byte → List W64 → List W64
  | 0, _, a => a
  | n + 1, bs, a => if bs.isEmpty then a else absorbAll rate n (bs.drop rate) (absorb a (bs.take rate))

/-- The padded message of a sponge with domain bits `dom`. -/
def padded (rate : Nat) (dom : Byte) (bs : List Byte) : List Byte :=
  let p := rate - bs.length % rate
  bs ++ (if p = 1 then [dom ||| 0x80] else dom :: (List.replicate (p - 2) 0 ++ [0x80]))

/-- The first 64 bytes a sponge squeezes out. -/
def sponge64 (rate : Nat) (dom : Byte) (bs : List Byte) : List Byte :=
  let m := padded rate dom bs
  let a := absorbAll rate (m.length / rate) m (List.replicate 25 0)
  (List.range 8).flatMap fun i => leBytes 8 (lane a i).toNat

/-- The SHAKE256 digest of 64 bytes. -/
def shake256 (bs : List Byte) : List Byte := sponge64 136 0x1F bs

/-- The SHA3-512 hash. -/
def sha3_512 (bs : List Byte) : List Byte := sponge64 72 0x06 bs

/-- The bytes of an ASCII string. -/
def ascii (t : String) : List Byte := t.toList.map fun c => BitVec.ofNat 8 c.toNat

end Sys2Proof.Machine
end

