-- ==== Sys2Proof/Config.lean ====
section
/-!
DEFINITION. What the spec leaves open and what published standards fix: constants and functions with no body, so that
nothing can be proved of their values (log 3, 10, 16, 23). A free value is drawn by number, from `State.free`.
-/
namespace Sys2Proof

/-- A free 64-bit value, by the number of the draw (log 3). -/
opaque Config.freeWord : Nat → W64

/-- A free byte of an entropy source, by the number of the draw (log 3; 07 R206, 14 R357, R362). -/
opaque Config.freeByte : Nat → Byte

/-- The job ID of a launch (02 Table 02.5; the spec does not say how it is made: log 9). -/
opaque Config.jobIdOf : W64 → W16

/-- The launch_id that a root chooses at its n-th launch (09 Table 09.6: unique per attempt; log 9). -/
opaque Config.launchIdOf : NodeId → Nat → W64

/-- The plan that an EXCHANGE section describes, where it describes one: the section's layout is not given (log 10). -/
opaque Config.planOfExchange : List Byte → Option Plan

/-- The planned count of a step's arrivals in an exchange buffer, by EXCHANGE section, buffer_id and step (log 10). -/
opaque Config.plannedCount : List Byte → Nat → Nat → Nat

/-- The bytes of a verify report's entry that R120 does not fix: region and block where there is none, and the detail
(log 40). -/
opaque Config.reportPlace : Nat → Nat → W16
opaque Config.reportDetail : List Byte → W32

/-- Ahnothen's key hash in the boot ROM, 64 bytes (14 R346; log 16). -/
opaque Config.ahnothenHash : List Byte

/-- The digest of the boot ROM, measurement 1 (14 Table 14.7; log 16). -/
opaque Config.bootRomDigest : List Byte

/-- The PUF response and the fused seed, read by the security core alone (14 Table 14.6; log 16). -/
opaque Config.pufAndSeed : List Byte

/-- Ed448 of RFC 8032: the public key of a private key (14 R345, R357; log 16). -/
opaque Config.ed448Public : List Byte → List Byte

/-- Ed448 of RFC 8032: the signature of a message under a private key (12 R315; log 16). -/
opaque Config.ed448Sign : List Byte → List Byte → List Byte

/-- Ed448 of RFC 8032: whether a signature of a message verifies under a public key (14 R346; log 16). -/
opaque Config.ed448Verify : List Byte → List Byte → List Byte → Bool

/-- The DER certificate chain of slot 0 for an attestation public key (14 R358; log 16). -/
opaque Config.certChain : List Byte → List Byte

/-- Whether a certificate chain verifies to Ahnothen's root, and the key it certifies (12 R316; log 16). -/
opaque Config.chainKey : List Byte → Option (List Byte)

/-- The component table of a bundle's payload (14 *Firmware bundles*; its length is not stated: log 23). -/
opaque Config.componentTable : List Byte → List Byte

/-- The version that a bundle's payload gives itself (13 fw_version; log 23). -/
opaque Config.bundleVersion : List Byte → W64

/-- The SPDM response bytes of a request that the spec fixes no bytes for (14 R360; log 22). -/
opaque Config.spdmBytes : Nat → List Byte → List Byte

/-- What a boundary scan of the contacts shifts out, by the number of the draw (14 R362; log 22). -/
opaque Config.boundaryScan : Nat → List Byte

/-- The extra voltage a clock frequency needs in a die, fused (15 R371): mV for die and MHz. -/
opaque Config.fusedMv : Nat → Nat → Nat

/-- The node-state record, in the model's layout, that a Talulas 2 manifest records (12 R320: the layout of a version
0x0002 manifest beyond Table 12.5 is not stated; log 18). -/
opaque Config.t2Record : List Byte → List Byte

/-- Where the identity DVSEC stands in configuration space (13 R325 gives no offset; log 37). -/
opaque Config.identityAt : Nat

/-- The bytes of configuration space that R325 does not fix (log 37). -/
opaque Config.configByte : Nat → Byte

/-- The TAI day of the node's first start (15 R382 counts days from it; log 39). -/
opaque Config.firstDay : Nat

/-- The number of the hardware's trace point for a kind of event (13 Table 13.6; log 73). -/
opaque Config.tracePoint : Nat → Nat

/-- The result bytes of a margin or pattern test (07 Table 07.6; log 23). -/
opaque Config.testBytes : Nat → Nat → List Byte

end Sys2Proof
end

