-- ==== Sys2Proof/Machine/Line.lean ====
section
/-!
DEFINITION. A stored line of a stack: AES-XTS-256 of its 64 bytes, the masked line check, and the burst codeword over
GF(2^8) with its syndromes (07 R181, R205). AES-256 and XTS are those of FIPS 197 and IEEE 1619 (log 53).
-/
namespace Sys2Proof.Machine

/-! ### The field of the burst code (R181) -/

/-- Product by the root α of x^8 + x^4 + x^3 + x^2 + 1 (R181). -/
def gfX (a : Nat) : Nat := if a < 128 then a * 2 else (a * 2) % 256 ^^^ 0x1D

/-- Product in GF(2^8), by the bits of the second factor from bit `n − 1` down. -/
def gfMulFrom : Nat → Nat → Nat → Nat → Nat
  | 0, _, _, r => r
  | n + 1, a, b, r => gfMulFrom n a b (gfX r ^^^ (if b.testBit n then a else 0))

/-- Product in GF(2^8). -/
def gfMul (a b : Nat) : Nat := gfMulFrom 8 a b 0

/-- α to a power. -/
def gfPow : Nat → Nat
  | 0 => 1
  | n + 1 => gfX (gfPow n)

/-- The coefficients of the generator g(x), from x^0 to x^11, its leading coefficient 1 left out: the product of
x − α^i for i from 0 to 11 (R181). -/
def genPoly : List Nat :=
  ((List.range 12).foldl (fun g i =>
    let c := gfPow i
    (List.zipWith (fun a b => a ^^^ gfMul c b) (0 :: g) (g ++ [0]))) [1]).take 12

/-- The remainder register of the systematic encoder after one more symbol, from the highest position down. -/
def encStep (rem : List Nat) (v : Nat) : List Nat :=
  let f := v ^^^ rem.getD 11 0
  List.zipWith (fun a g => a ^^^ gfMul f g) (0 :: rem.take 11) genPoly

/-- The twelve check symbols of the symbols of positions 12 to 84: the remainder of m(x) x^12 modulo g(x) (R181). -/
def checkSyms (m : List Byte) : List Byte :=
  ((m.reverse.foldl (fun r v => encStep r v.toNat) (List.replicate 12 0))).map (BitVec.ofNat 8)

/-- The twelve syndromes of a received word: its polynomial at α^0 to α^11 (R181). -/
def syndromes (w : List Byte) : List Byte :=
  (List.range 12).map fun j =>
    let x := gfPow j
    BitVec.ofNat 8 (w.reverse.foldl (fun a v => gfMul a x ^^^ v.toNat) 0)

/-! ### AES-256 (FIPS 197) -/

/-- Product by x in the field of AES, x^8 + x^4 + x^3 + x + 1. -/
def aesX (a : Nat) : Nat := if a < 128 then a * 2 else (a * 2) % 256 ^^^ 0x1B

/-- Product in the field of AES, by the bits of the second factor from bit `n − 1` down. -/
def aesMulFrom : Nat → Nat → Nat → Nat → Nat
  | 0, _, _, r => r
  | n + 1, a, b, r => aesMulFrom n a b (aesX r ^^^ (if b.testBit n then a else 0))

/-- Product in the field of AES. -/
def aesMul (a b : Nat) : Nat := aesMulFrom 8 a b 0

/-- The inverse in the field of AES, 0 for 0: the 254th power. -/
def aesInv (a : Nat) : Nat :=
  let a2 := aesMul a a
  let a4 := aesMul a2 a2
  let a8 := aesMul a4 a4
  let a16 := aesMul a8 a8
  let a32 := aesMul a16 a16
  let a64 := aesMul a32 a32
  aesMul (aesMul (aesMul (aesMul a64 a64) a64) (aesMul a32 a16)) (aesMul (aesMul a8 a4) a2)

/-- A byte turned left. -/
def rotl8 (a n : Nat) : Nat := (a <<< n ||| a >>> (8 - n)) % 256

/-- The substitution of a byte. -/
def aesSub (a : Nat) : Nat :=
  let b := aesInv a
  b ^^^ rotl8 b 1 ^^^ rotl8 b 2 ^^^ rotl8 b 3 ^^^ rotl8 b 4 ^^^ 0x63

/-- Bytes added place by place. -/
def xorL (a b : List Nat) : List Nat := List.zipWith (· ^^^ ·) a b

/-- One more word of the key schedule; `w` holds the words made so far, newest first. -/
def keyWord (w : List (List Nat)) : List (List Nat) :=
  let i := w.length
  let t := w.getD 0 []
  let u :=
    if i % 8 = 0 then xorL ((t.drop 1 ++ t.take 1).map aesSub) [(List.range (i / 8 - 1)).foldl (fun a _ => aesX a) 1, 0, 0, 0]
    else if i % 8 = 4 then t.map aesSub
    else t
  xorL (w.getD 7 []) u :: w

/-- The fifteen round keys of a 32-byte key. -/
def roundKeys (key : List Nat) : List (List Nat) :=
  let w := ((List.range 52).foldl (fun w _ => keyWord w)
    (((List.range 8).map fun i => (key.drop (4 * i)).take 4).reverse)).reverse
  (List.range 15).map fun r => ((w.drop (4 * r)).take 4).flatten

/-- The rows of the state turned; the state is 16 bytes, column by column. -/
def shiftRows (s : List Nat) : List Nat := (List.range 16).map fun i => s.getD ((i + 4 * (i % 4)) % 16) 0

/-- The columns mixed. -/
def mixColumns (s : List Nat) : List Nat :=
  (List.range 16).map fun i =>
    let at_ := fun r => s.getD (i / 4 * 4 + r % 4) 0
    aesX (at_ i) ^^^ (aesX (at_ (i + 1)) ^^^ at_ (i + 1)) ^^^ at_ (i + 2) ^^^ at_ (i + 3)

/-- One block of 16 bytes encrypted under fifteen round keys. -/
def aesEnc (rk : List (List Nat)) (pt : List Nat) : List Nat :=
  let body := (List.range 13).foldl (fun s r => xorL (mixColumns (shiftRows (s.map aesSub))) (rk.getD (r + 1) []))
    (xorL pt (rk.getD 0 []))
  xorL (shiftRows (body.map aesSub)) (rk.getD 14 [])

/-! ### XTS and the line (R205) -/

/-- The product by α of XTS in GF(2^128), a number of 128 bits (IEEE 1619). -/
def xtsX (t : Nat) : Nat := (t * 2) % 2 ^ 128 ^^^ (if t.testBit 127 then 0x87 else 0)

/-- Bytes as numbers, and back. -/
def natBytes (n v : Nat) : List Nat := (leBytes n v).map BitVec.toNat

/-- The tweak of a line: (s << 30) or (a >> 6) (R205). -/
def tweakOf (st a : Nat) : Nat := st <<< 30 ||| a >>> 6

/-- The encrypted tweak T of a line under the second key. -/
def xtsT (keys : BitVec 512) (st a : Nat) : Nat :=
  leNat ((aesEnc (roundKeys (natBytes 32 (keys.toNat >>> 256))) (natBytes 16 (tweakOf st a))).map (BitVec.ofNat 8))

/-- The ciphertext of a 64-byte line: four blocks, the tweak multiplied by α for each further one (R205). -/
def cipherLine (keys : BitVec 512) (st a : Nat) (pt : List Byte) : List Byte :=
  let rk := roundKeys (natBytes 32 (keys.toNat % 2 ^ 256))
  let t0 := xtsT keys st a
  (List.range 4).flatMap fun j =>
    let t := natBytes 16 ((List.range j).foldl (fun x _ => xtsX x) t0)
    (xorL (aesEnc rk (xorL ((slice pt (16 * j) 16).map BitVec.toNat) t)) t).map (BitVec.ofNat 8)

/-- The four line-check bytes as stored: XORed with the low 32 bits of T α^4 (R205). -/
def maskedCheck (keys : BitVec 512) (st a : Nat) (check : W32) : List Byte :=
  leBytes 4 (check.toNat ^^^ (((List.range 4).foldl (fun x _ => xtsX x) (xtsT keys st a)) % 2 ^ 32))

/-- The 85 positions of a line's codeword: the check symbols, the ciphertext, the masked check, and the five virtual
symbols of the address (R181, R205). -/
def codeword (keys : BitVec 512) (st a : Nat) (pt : List Byte) (check : W32) : List Byte :=
  let m := cipherLine keys st a pt ++ maskedCheck keys st a check ++ leBytes 5 (tweakOf st a)
  checkSyms m ++ m

/-- A word with symbol errors: the error value of a position XORed into it. -/
def withErrors (w : List Byte) (errs : List (Nat × Byte)) : List Byte :=
  w.zipIdx.map fun x => errs.foldl (fun v e => if e.1 = x.2 then v ^^^ e.2 else v) x.1

end Sys2Proof.Machine
end

