-- ==== Sys2Proof/Machine/State.lean ====
section
/-!
DEFINITION. The state of the node as plain data: every register, table, queue, buffer, counter, mode and pin that
spec/ gives it, in one structure per unit. A field's default is its value at reset; its comment names the field, the
file and rule of spec/, and the log entry where the spec gives no reset value.
-/
namespace Sys2Proof.Machine

/-- A sparse table: entries by rising key; an absent key holds the table's default (log 6). -/
abbrev SMap (V : Type) := List (Nat × V)

/-! ### Small enumerations -/

/-- Status codes, Table 00.5. -/
inductive Status where
  | ok | bounds | align | state | absent | check | uncorr | timeout | deadline | singular | overflow | perturbed
  | noconv | job | seq | aborted | verify | format | notrun | diverge | mixed | quarantine
deriving DecidableEq, Repr, Inhabited

/-- Severities, Table 11.1. -/
inductive Sev where
  | C | D | F1 | F2 | F3
deriving DecidableEq, Repr, Inhabited

/-- The two grades of Table 00.2. -/
inductive Grade where
  | A | B
deriving DecidableEq, Repr, Inhabited

/-- Error codes, Table 11.4. -/
inductive ErrCode where
  | residueRetry | columnRetire | storeCorr | storeUncorr | cmdRefused | cmdFailed | tagMismatch | blockRetire
  | maskedUncorr | creditClamp | memCorr | memUncorr | memAddr | laneMark | chanAtRisk | rakeUncorr | rowRepair
  | meshReplay | meshDown | stackFailed | rstoreCorr | rstoreUncorr | uzlReplay | uzlDown | jobHeld | pleachDiverge
  | peerSilent | peerFail | quarantine | windowReject | timeServiceLost | timeTakeover | launchNocommit | portDown
  | cxlProtocol | leaseExpired | hostPoisonSent | mbxRefused | wdgRestart | fwStepTimeout | throttle | limitTrip
  | tamper | supplyOrder | fcoCache | fcoAccess | fcoCoreHalt
deriving DecidableEq, Repr, Inhabited

/-- BLK_QSTATUS.state (04). -/
inductive QState where
  | idle | run | wait | step | halt | endd
deriving DecidableEq, Repr, Inhabited

/-- TIM_STATUS.state, Table 02.2. -/
inductive TimState where
  | free | acquiring | locked | holdover | out
deriving DecidableEq, Repr, Inhabited

/-- Time roles (02). -/
inductive TimeRole where
  | member | boundary | reference
deriving DecidableEq, Repr, Inhabited

/-- NODE_HOLD.state (11). -/
inductive HoldState where
  | run | holding | held | resetting
deriving DecidableEq, Repr, Inhabited

/-- FCO_HART_STATUS.state (10). -/
inductive HartState where
  | absent | stopped | running | switched | wfi | halted
deriving DecidableEq, Repr, Inhabited

/-- Privilege modes (Table 10.1). -/
inductive Priv where
  | U | S | M
deriving DecidableEq, Repr, Inhabited

/-- PAN_STATUS.state (07). -/
inductive StackState where
  | off | training | ready | failed
deriving DecidableEq, Repr, Inhabited

/-- ESP_STATUS.state (02). -/
inductive EspState where
  | none | armed | running | suspended
deriving DecidableEq, Repr, Inhabited

/-- NODE_CKPT_STATUS.state (12). -/
inductive CkptState where
  | none | cut | copy | sign | mirror | secured | failed | restoring
deriving DecidableEq, Repr, Inhabited

/-- FAB_PORT_STATUS.link (02). -/
inductive Link where
  | down | training | up
deriving DecidableEq, Repr, Inhabited

/-- HRW_STATUS.node_state (13). -/
inductive NodeState where
  | start | ready | recovery | halted
deriving DecidableEq, Repr, Inhabited

/-- The job as the node carries it: no image, an image loaded, or a job running (HRW_STATUS.job with NODE_HOLD). -/
inductive JobPhase where
  | none | awaiting | loaded | running
deriving DecidableEq, Repr, Inhabited

/-- STM_CTX_STATUS.state (08). -/
inductive CtxState where
  | idle | opened | closed | finishing | waiting
deriving DecidableEq, Repr, Inhabited

/-- Mailbox return codes (R332). -/
inductive MbxRet where
  | success | bgStarted | invalidInput | unsupported | internalError | busy
deriving DecidableEq, Repr, Inhabited

/-- The SEC-DED outcome of one 256-bit word of a store line (R22, R27). -/
inductive WordErr where
  | good | single | double
deriving DecidableEq, Repr, Inhabited

/-! ### Faults of parts -/

/-- A fault inside a part of the node, of the world and not of the spec's commands, which the node meets on its own
(log 50). -/
inductive PartFault where
  /-- a hop of a region's mesh whose link check failed on so many replays in a row (01 R27) -/
  | mesh (region : BitVec 2) (failed : Nat)
  /-- a Uzonal link, 0 to 13, whose transfer was replayed, or that has gone down (01 R29, R31) -/
  | uzl (link : BitVec 4) (down : Bool)
  /-- an internal fault of a block that it cannot attribute to one command (01 R22) -/
  | block (b : Blk)
  /-- an error in a cache line of a field core (10 Table 10.4) -/
  | coreCache (core : BitVec 4)
  /-- an uncorrectable error in a field core's registers or logic (10 Table 10.4) -/
  | core (core : BitVec 4)
deriving DecidableEq, Repr

/-! ### Lines, memory stacks -/

/-- What is wrong with a stored line (log 15): the symbol errors of its burst codeword (position, error value), for a
line of a stack; the SEC-DED state of its two words, for a line of a store; and whether its line check mismatches. -/
structure LineFault where
  /-- symbol errors of the codeword, positions 0 to 84 (07 R181, R182) -/
  syms : List (Nat × Byte) := []
  /-- SEC-DED state of the lower 256-bit word (01 R22) -/
  w0 : WordErr := .good
  /-- SEC-DED state of the upper 256-bit word (01 R22) -/
  w1 : WordErr := .good
  /-- 1 when the stored line check does not match the line (11 R295) -/
  badCheck : Bool := false
deriving DecidableEq, Repr, Inhabited

/-- One channel of a stack. -/
structure Chan where
  /-- PAN_LANE.mark0 to mark3 and their valid bits, 4 x 8 bits (07 R183) -/
  marks : List Nat := []
  /-- PAN_LANE.at_risk, 1 bit (07 R183) -/
  atRisk : Bool := false
  /-- PAN_LANE.spare0_for with spare0_used, 8 bits (07); fused, none used: log 5 -/
  spare0 : Option Nat := none
  /-- PAN_LANE.spare1_for with spare1_used, 8 bits (07); fused, none used: log 5 -/
  spare1 : Option Nat := none
  /-- of the lanes that spares replace, those remapped by hard repair (07 R209) -/
  hard : List Nat := []
  /-- the lines corrected among the last 256 decoded on the channel, newest first: the line's number in the channel's
  count of decoded lines, and the lanes corrected (07 R183) -/
  window : List (Nat × List Nat) := []
  /-- corrected, uncorrectable and address-error counts of the channel (07 R210) -/
  corrected : Nat := 0
  uncorr : Nat := 0
  addrErr : Nat := 0
  /-- corrections per lane (07 R210) -/
  perLane : SMap Nat := []
deriving DecidableEq, Repr, Inhabited

/-- A row repair of a stack (07 R209). -/
structure RowRepair where
  channel : Nat
  bank : Nat
  row : Nat
  hard : Bool
deriving DecidableEq, Repr, Inhabited

/-- One memory stack with its memory-side die (07, 12). -/
structure Stack where
  /-- PAN_STATUS.state, 2 bits (07 R212) -/
  state : StackState := .off
  /-- PAN_STATUS.key_valid, 1 bit (07 R206) -/
  keyValid : Bool := false
  /-- the two XTS keys, 2 x 256 bits, read by nothing (07 R206) -/
  keys : Option (BitVec 512) := none
  /-- PAN_STATUS.zeroed, 1 bit (07 R206) -/
  zeroed : Bool := false
  /-- PAN_FLAGS of, uf, nx, nv, 4 bits (07 R194) -/
  flags : BitVec 4 := 0
  /-- PAN_ECC.corrected, 32 bits, RC (07 R182) -/
  corrected : W32 := 0
  /-- PAN_ECC.uncorr, 16 bits, RC (07 R182) -/
  uncorr : W16 := 0
  /-- PAN_ECC.address_err, 8 bits, RC (07 R182) -/
  addrErr : Byte := 0
  /-- corrected lines since the last daily record (15 Table 15.5) -/
  dayCorrected : Nat := 0
  /-- PAN_RAKE.period_h, 8 bits (07 R207) -/
  rakePeriod : Byte := 24
  /-- the period of the present pass (07 PAN_RAKE: a new value applies from the next pass) -/
  rakePeriodNow : Byte := 24
  /-- PAN_RAKE.passes, 32 bits (07 R207) -/
  rakePasses : W32 := 0
  /-- the rake's next line, from which PAN_RAKE.progress comes (07 R207) -/
  rakeLine : Nat := 0
  /-- PAN_REPAIR.spare_rows_free, 16 bits (07); fused, all free: log 5 -/
  spareRows : W16 := 8192
  /-- PAN_REPAIR.hard_rows_used, 16 bits (07); fused: log 5 -/
  hardRows : W16 := 0
  /-- PAN_REPAIR.hard_lanes_used, 7 bits (07); fused: log 5 -/
  hardLanes : BitVec 7 := 0
  /-- soft and hard row repairs in force (07 R209, R210) -/
  repairs : List RowRepair := []
  /-- the channels 0 to 31 -/
  chans : SMap Chan := []
  /-- PAN_CKPT.stalls, 32 bits, RC (12 R310) -/
  ckStalls : W32 := 0
  /-- PAN_CKPT.max_stall_ns, 16 bits, RC (12 R310) -/
  ckMaxStall : W16 := 0
  /-- PAN_CKPT.pending: the 2 MiB granules not yet copied, in copy order (12 R309) -/
  ckPending : List Nat := []
  /-- granules already copied in the present checkpoint (12 R309) -/
  ckDone : List Nat := []
deriving DecidableEq, Repr, Inhabited

/-! ### Blocks -/

/-- One 64-byte command: its header and W1 to W7 (04 R101). -/
structure Cmd where
  hdr : W64
  w1 : W64
  w2 : W64
  w3 : W64
  w4 : W64
  w5 : W64
  w6 : W64
  w7 : W64
deriving DecidableEq, Repr, Inhabited

/-- One active hardware loop level (04 R114, R115). -/
structure LoopLevel where
  start : Nat
  len : Nat
  count : Nat
  running : Nat
deriving DecidableEq, Repr, Inhabited

/-- A command that has issued and not completed (04 R99). -/
structure InFl where
  /-- its number among the commands that its queue has decoded, which tells two iterations of a loop body apart (04 R99,
  R115; log 49) -/
  idx : Nat
  /-- its index in the stream (04 R116) -/
  pos : Nat := 0
  cmd : Cmd
  /-- the address-register addends of W1 to W5's descriptor references, taken at decode (04 R112) -/
  addends : List W64
  /-- L0 to L3 at decode (04 R115) -/
  loops : List Nat
  /-- 1 once its engine or unit has taken it up -/
  started : Bool := false
  /-- its final status once it has finished -/
  done : Option Status := none
  /-- requests, frames or responses still outstanding -/
  waiting : Nat := 0
  /-- the status of the failure lowest in order, once one is known (08 R235) -/
  failed : Option Status := none
  /-- progress of a command that works in phases (collectives) -/
  phase : Nat := 0
  /-- the error code and the NPA of its fault, for its record (11 Table 11.4) -/
  err : Option ErrCode := none
  npa : Option Nat := none
  /-- bytes its output has written to this node's memory and stores, for the CRC of R264 (09) -/
  out : List Byte := []
  /-- its failure retires its block: a second column with the spare in use (01 R19) -/
  retires : Bool := false
deriving DecidableEq, Repr, Inhabited

/-- One of a block's six queues (04). -/
structure Queue where
  /-- the commands of the queue's section, tagged by the loader (04 R98, R105; log 7) -/
  stream : List Cmd := []
  /-- index of the next command to decode (04 R99) -/
  pc : Nat := 0
  /-- the number of the next command decoded: the model's own count, the identity of commands in flight (log 49) -/
  serial : Nat := 0
  /-- active loop levels, innermost first, at most four (04 R114) -/
  loops : List LoopLevel := []
  /-- A0 to A15, 64 bits each (04 R112) -/
  aregs : SMap W64 := []
  /-- commands issued and not completed, oldest first (04 R99) -/
  inflight : List InFl := []
  /-- BLK_QSTATUS.state, 3 bits (04) -/
  state : QState := .idle
  /-- BLK_QSTATUS.halt_status, 8 bits (04) -/
  haltStatus : Status := .ok
  /-- BLK_QSTATUS.cmd_index while halted, 32 bits (04) -/
  haltIdx : Nat := 0
  /-- CRC-64 of the step's output writes (09 R264) -/
  crc : W64 := 0
  /-- per-step log of each command's own CRC (09 R264) -/
  crcLog : List (Nat × W64) := []
deriving DecidableEq, Repr, Inhabited

/-- The tensor engine's fault record (05). -/
structure Tns where
  /-- BLK_TNS_STATUS.spare_in_use, retired_col and retired_row, 1 + 6 + 5 bits (05 R135) -/
  retired : Option (Nat × Nat) := none
  /-- BLK_TNS_STATUS.reruns, 16 bits, RC (05 R135) -/
  reruns : W16 := 0
  /-- cells with a recorded mismatch since reset (physical column, row); BLK_TNS_STATUS.marked_cells counts them (05) -/
  marked : List (Nat × Nat) := []
deriving DecidableEq, Repr, Inhabited

/-- One slot of the solver's pattern table (06 R171, R172). -/
structure Pat where
  n : Nat
  symmetric : Bool
  /-- the structure S, one word a row -/
  s : List W64
  /-- the fill F, one word a row -/
  f : List W64
  /-- the LU candidate rows C[k], one word a step -/
  c : List W64
deriving DecidableEq, Repr, Inhabited

/-- The solver engine (06). -/
structure Slv where
  /-- SLV_STATUS.item, 24 bits (06); its state follows from XQ's command in flight -/
  item : BitVec 24 := 0
  /-- SLV_STATUS.last_status, 8 bits (06) -/
  last : Status := .ok
  /-- pattern slots 0 to 63; SLV_PAT_VALID names the filled ones (06 R171) -/
  pats : SMap Pat := []
deriving DecidableEq, Repr, Inhabited

/-- Where a request or a frame comes from: a command in flight and the number of its request, a hart and the number of its
aperture store (0 for a load or AMO), the mirror of a checkpoint, a coordinator's reading of a restore report, or
nobody. -/
inductive Origin where
  | nobody
  | cmd (b : Blk) (q : Qc) (idx no : Nat)
  | hart (h : BitVec 6) (no : Nat)
  | mirror (n : Nat)
  | report
deriving DecidableEq, Repr, Inhabited

/-- One request of a stream (08 R227): its number in stream order, far-end address or remote offset, store address,
bytes at either end, the first element and the number of elements. -/
structure SReq where
  no : Nat := 0
  far : Nat
  near : Nat
  bytes : Nat
  nb : Nat
  elem : Nat := 0
  /-- the node it goes to, for a transfer to a remote window (09 R244) -/
  node : NodeId := 0
  /-- the frame's opcode, and its subop, format and rounding (09 Table 09.2) -/
  op : Byte := 0
  sub : Nat := 0
  fmt : Nat := 0
  rnd : Nat := 0
  /-- the format of a REDUCE's addends (log 57) -/
  xfmt : Nat := 0
  /-- 1 for the last of its transfer (09 R244) -/
  last : Bool := false
  /-- 1 for a latency-critical read of a near-drained ring (08 R233) -/
  lc : Bool := false
  /-- the bytes an outbound request has read at its source (08 R222) -/
  data : List Byte := []
  /-- the time at which it was sent, for R236 (08) -/
  sent : Nat := 0
deriving DecidableEq, Repr, Inhabited

/-- The stream a context carries (08), log 14. -/
structure Active where
  /-- number of its command in the queue, and its index in the stream -/
  idx : Nat
  pos : Nat := 0
  /-- 1 for IQ's and OQ's remote commands, whose requests are frames (09 R244) -/
  remote : Bool
  /-- 1 for a COLL, which ends with its last phase (09 R256) -/
  coll : Bool := false
  /-- the hedge that the frames carry (09 R241) -/
  hedge : Nat := 0xFFFF
  outbound : Bool
  narrow : Bool
  /-- 1 where every read of the stream is latency-critical by its descriptor (08 R233) -/
  lc : Bool := false
  high : Nat
  low : Nat
  rush : Nat
  rate : Nat
  ringBase : Nat
  ringSize : Nat
  /-- requests not yet sent, in stream order (08 R228) -/
  todo : List SReq
  /-- requests sent and not answered, in stream order -/
  sent : List SReq
  /-- the number of the next request that a COLL adds to those to be sent -/
  nextNo : Nat := 0
  /-- the failure lowest in stream order so far: request, status, code and NPA (08 R235) -/
  fail : Option (Nat × Status × Option (ErrCode × Nat)) := none
deriving DecidableEq, Repr, Inhabited

/-- One of a block's 16 stream contexts (08). -/
structure Ctx where
  /-- STM_CTX_PEER.peer, 64 bits (08 R222) -/
  peer : W64 := 0
  /-- STM_CTX_OWN.own, 64 bits (08 R222) -/
  own : W64 := 0
  /-- STM_CTX_ISSUED.issued, 64 bits (08 R222) -/
  issued : W64 := 0
  /-- STM_CTX_STATUS.state, 3 bits (08) -/
  state : CtxState := .idle
  /-- STM_CTX_STATUS.ring, 1 bit (08) -/
  ring : Bool := false
  /-- STM_CTX_STATUS.aged, 1 bit (08 R232) -/
  aged : Bool := false
  /-- arbitration losses in a row (08 R232) -/
  losses : Nat := 0
  /-- STM_CTX_STATUS.queue, 1 bit: 1 OQ (08) -/
  oq : Bool := false
  /-- STM_CTX_STATUS.rush, 1 bit (08 R233) -/
  rush : Bool := false
  /-- STM_CTX_STATUS.last_status, 8 bits (08) -/
  last : Status := .ok
  /-- STM_CTX_STATUS.credit_err, 16 bits, RC (08 R224) -/
  creditErr : W16 := 0
  /-- STM_CTX_STATUS.label, 10 bits (08) -/
  label : BitVec 10 := 0
  /-- the present stream -/
  active : Option Active := none
deriving DecidableEq, Repr, Inhabited

/-- One block's state, by logical number (01, 03, 04, 05, 06, 08). -/
structure Block where
  /-- the queues TQ to CQ by code (04) -/
  queues : SMap Queue := []
  /-- the thirty event counters (producer p, consumer c) at key 6p + c, 32 bits each (04 R102, R103) -/
  ev : SMap Nat := []
  /-- BLK_FLAGS, 16 bits: tns, vec, red, slv of OF, UF, NX, NV (03 R91, R92) -/
  flags : BitVec 16 := 0
  /-- tensor engine -/
  tns : Tns := {}
  /-- solver engine -/
  slv : Slv := {}
  /-- stream contexts 0 to 15 (08) -/
  ctxs : SMap Ctx := []
  /-- BLK_SAT_BANK, BLK_SAT_STM, BLK_SAT_EVT, 64 bits each, RC (01 R34) -/
  satBank : W64 := 0
  satStm : W64 := 0
  satEvt : W64 := 0
  /-- D events recorded in the present job (01 R22) -/
  dEvents : Nat := 0
deriving DecidableEq, Repr, Inhabited

/-- A substitution of RGN_SUBST (01). -/
structure Subst where
  logical : BitVec 6 := 0
  physical : BitVec 6 := 0
  valid : Bool := false
deriving DecidableEq, Repr, Inhabited

/-- One region (01). -/
structure Region where
  /-- logical blocks out of service; RGN_BLOCKS.live_mask is the grade's mask less these, 32 bits (01) -/
  dead : W32 := 0
  /-- RGN_BLOCKS.coppice_free, 2 bits (01) -/
  coppiceFree : BitVec 2 := 3
  /-- RGN_BLOCKS.coppice_retired, 2 bits (01 R28) -/
  coppiceRetired : BitVec 2 := 0
  /-- RGN_BLOCKS.retired_count, 8 bits (01) -/
  retiredCount : Byte := 0
  /-- RGN_RETIRE.retire_pending, 32 bits (01) -/
  pending : W32 := 0
  /-- RGN_SUBST, two entries of 13 bits (01) -/
  sub0 : Subst := {}
  sub1 : Subst := {}
  /-- RGN_SAT_MESH and RGN_SAT_MC, 64 bits each, RC (01 R34) -/
  satMesh : W64 := 0
  satMc : W64 := 0
  /-- 1 after a region-fatal event (01 R27) -/
  fatal : Bool := false
deriving DecidableEq, Repr, Inhabited

/-- One entry of the brine array table (07 R196); the addend commands in flight are counted from the queues. -/
structure BrineEnt where
  /-- the target descriptor: base, counts and strides -/
  base : Nat
  counts : List Nat
  strides : List Int
  /-- 1 for B256 -/
  b256 : Bool
  /-- 0 or 2 -/
  anchorMode : Nat
  anchor : Int
  /-- the anchor array's NPA and strides, for anchor_mode 2 -/
  anchorAt : Option (Nat × List Int)
  sealed : Bool
  /-- the COLL whose brine area it is, by its block's key and its serial number (09 R255) -/
  coll : Option (Nat × Nat) := none
  /-- pairs (source, hedge) of remote RREDs whose last frame has not come (07 R198) -/
  remote : List (Nat × Nat) := []
deriving DecidableEq, Repr, Inhabited

/-! ### The loaded image and the job -/

/-- A buffer-table entry (04 *Buffers*). -/
structure Buf where
  base : Nat
  size : Nat
  id : Nat
  kind : Nat
  access : Nat
  arrival : Nat
deriving DecidableEq, Repr, Inhabited

/-- A hedge declaration with its member list (09 Table 09.1). -/
structure HedgeDecl where
  id : Nat
  arity : Nat
  access : Nat
  members : List NodeId
  window : Nat
  remote : Nat
  workOff : Nat
  workLen : Nat
deriving DecidableEq, Repr, Inhabited

/-- A state-set entry (12 Table 12.1). -/
structure StateEnt where
  buffer : Nat
  offset : Nat
  length : Nat
deriving DecidableEq, Repr, Inhabited

/-- The state set of an image (12 R301). -/
structure StateSet where
  k : Nat
  buddy : Nat
  compatT2 : Bool
  adopt : Nat
  entries : List StateEnt
  t2digest : List Byte
deriving DecidableEq, Repr, Inhabited

/-- A start-table entry (10 R269). -/
structure StartEnt where
  core : Nat
  thread : Nat
  entry : W64
  arg : W64
deriving DecidableEq, Repr, Inhabited

/-- The loaded Finuth image as the node keeps it (04). -/
structure Image where
  det : Bool
  pleach : Bool
  digest : List Byte
  bufs : List Buf
  descs : List (List Byte)
  hedges : List HedgeDecl
  stateset : Option StateSet
  starts : List StartEnt
  /-- the patterns of the PATTERNS section: block key, slot, pattern (06 R171) -/
  pats : List (Nat × Nat × Pat)
  /-- the plan made from the EXCHANGE section, where it makes a legal one (02; log 10) -/
  plan : Option Plan
deriving DecidableEq, Repr, Inhabited

/-- One offence of the verify report (04 R120). -/
structure Offence where
  reason : Nat
  queue : Nat
  region : Nat
  block : Nat
  idx : Nat
  sect : Nat
deriving DecidableEq, Repr, Inhabited

/-- A hedge-table entry (09 Table 09.4). -/
structure Hedge where
  id : Nat
  /-- HDG_EPOCH.epoch, 32 bits (09) -/
  epoch : W32 := 0
  /-- HDG_EPOCH.ordinal, 32 bits (09) -/
  ordinal : W32 := 0
  /-- HDG_STATE.rank, 20 bits (09) -/
  rank : Nat := 0
  members : List NodeId
  arity : Nat
  access : Nat
  /-- HDG_STATE.state, 2 bits: 0 FREE, 1 ACTIVE, 2 LAYING, 3 NONMEMBER (09) -/
  state : BitVec 2
  /-- window: NPA and bytes (09 R238) -/
  winBase : Nat
  winSize : Nat
  remote : Nat
  workOff : Nat
  workLen : Nat
  /-- clear tokens received: (member, ordinal mod 256) (09 R256) -/
  clears : List (NodeId × Nat) := []
  /-- transfers of the present ordinal that have landed whole: sender and region of the window (09 R254) -/
  landed : List (NodeId × Nat) := []
deriving DecidableEq, Repr, Inhabited

/-- A PREPARE held by the node (09 R260). -/
structure Held where
  msg : PrepMsg
  /-- parents by tree: the member it came from -/
  parentA : Option NodeId := none
  parentB : Option NodeId := none
  /-- acknowledgements received: (tree A?, child, status, count) -/
  acks : List (Bool × NodeId × Byte × Nat) := []
  /-- trees in which this node has acknowledged -/
  ackedA : Bool := false
  ackedB : Bool := false
  /-- 1 once COMMIT has come (09 R261) -/
  committed : Bool := false
  /-- copies of COMMIT the root has sent, and when the last went (09 R261) -/
  copies : Nat := 0
  lastCopy : Nat := 0
  /-- when PREPARE was last sent to the children (09 R260) -/
  lastSend : Nat := 0
deriving DecidableEq, Repr

/-- The job and the loaded image (04, 09, 12). -/
structure Job where
  phase : JobPhase := .none
  image : Option Image := none
  /-- offences of the last load's verify report (04 R120) -/
  report : List Offence := []
  /-- digest named by the report: the last image offered (04 R120) -/
  reportDigest : List Byte := []
  /-- NODE_STEP.step, 48 bits (04 R116) -/
  step : BitVec 48 := 0
  /-- NODE_STEP.load_gen, 8 bits; the generation counter outlives an unload (04 R105) -/
  loadGen : Byte := 0
  lastGen : Byte := 0
  /-- NODE_STEP.det_mode, 1 bit (04) -/
  det : Bool := false
  /-- NODE_STEP.host_verified, 1 bit (04) -/
  hostVerified : Bool := false
  /-- job ID, 16 bits (02 Table 02.5; how it is made is not stated: log 9) -/
  jobId : W16 := 0
  /-- the hedge table, at most 4 096 entries (09) -/
  hedges : List Hedge := []
  /-- node IDs laid out of hedge 0 since launch (12 R302) -/
  failedSet : List NodeId := []
  /-- the PREPARE held, if any (09 R260) -/
  prep : Option Held := none
  /-- the root of the launch that the node last started under, none before a launch (09 R262, 13 R337) -/
  root : Option NodeId := none
  /-- launch_id counter of the root (09 R259; log 9) -/
  launches : Nat := 0
  /-- the boundary waits for the twin's signatures: those received (09 R265) -/
  sigs : List (Nat × W64) := []
  sigLast : Bool := false
  /-- hall slot of the boundary at which signatures were sent (09 R265) -/
  sigAt : Option Nat := none
  /-- the step counter has risen for the boundary at which the queues stand (04 R116) -/
  risen : Bool := false
  /-- queues of this node are past T_go (11 promise 6) -/
  started : Bool := false
deriving DecidableEq, Repr, Inhabited

/-! ### Fabric -/

/-- A frame on its way out: its origin, priority and retransmissions (02 R56, R58, R60, R61). -/
structure OutFrame where
  frame : Frame
  org : Origin := .nobody
  /-- 6 for scheduled frames, 0 to 3 for best effort (02 R42) -/
  pri : Nat := 6
  /-- retransmissions made -/
  tries : Nat := 0
  /-- known lost and waiting for a retransmission (02 R60) -/
  lost : Bool := false
  /-- return slots passed since it last left without an acknowledgement that covers it (02 R60) -/
  quiet : Nat := 0
  /-- its one retransmission for a line check has been asked for (02 R67) -/
  lineTry : Bool := false
deriving DecidableEq, Repr

/-- A response this node awaits: the peer, the request's sequence number and origin (09 R244). -/
structure Await where
  peer : NodeId
  seq : W32
  org : Origin
  hedge : Nat
deriving DecidableEq, Repr

/-- The state of one pair (this node, peer) (02 R58 to R69). -/
structure Pair where
  /-- next sequence number to send, 32 bits (02 R58) -/
  txNext : W32 := 0
  /-- frames sent and not acknowledged, oldest first (02 R58, R61) -/
  unacked : List OutFrame := []
  /-- next sequence number expected, 32 bits (02 R59) -/
  rxNext : W32 := 0
  /-- frames held behind a gap (02 R58) -/
  held : List Frame := []
  /-- sequence numbers consumed without effect behind a gap (02 R67) -/
  void : List W32 := []
  /-- sequence numbers whose LINECHECK NAK has asked for the one retransmission (02 R67) -/
  lineNak : List W32 := []
  /-- NAKs to send, one a return slot, the earliest sequence first: sequence and reason (02 R59, R66, R69) -/
  naks : List (W32 × Byte) := []
  /-- violations counted in this plan period, by reason, and the port at which the last came (02 R68) -/
  viol : SMap Nat := []
  violPort : Option Nat := none
  /-- 1 while this node quarantines the peer (02 R68) -/
  quarantined : Bool := false
  /-- this node is quarantined by the peer until the next period; and was in the period before (02 R69) -/
  held69 : Bool := false
  prev69 : Bool := false
  /-- consecutive expected slots in which nothing came (02 R57) -/
  empty : Nat := 0
  /-- the peer-silent event stands (02 R57) -/
  silent : Bool := false
  /-- step and cut level last seen in the peer's FILLERs (12 R305) -/
  peerStep : BitVec 48 := 0
  peerLevel : Nat := 0
deriving DecidableEq, Repr, Inhabited

/-- A MACsec association (02 R64). -/
structure MacAssoc where
  /-- its line: 2p for port p and for its half-port H(2p), 2p + 1 for H(2p + 1) -/
  line : Nat
  tx : Bool
  an : Nat
  ssci : W32
  salt : List Byte
  key : List Byte
  firstPeriod : Nat
  /-- the next packet number to send, or one above the highest received good (02 R64) -/
  pn : Nat := 1
deriving DecidableEq, Repr, Inhabited

/-- One Ethernet port (02). -/
structure Port where
  /-- FAB_PORT_STATUS.link, 2 bits (02) -/
  link : Link := .down
  /-- FAB_PORT_STATUS.scheduled, 1 bit (02) -/
  scheduled : Bool := false
  /-- FAB_PORT_STATUS.quarantined_src, 20 bits (02) -/
  quarSrc : NodeId := 0
  /-- FAB_PORT_STATUS.eye_margin_mv, 16 bits (02) -/
  eye : W16 := 0
  /-- FAB_VIOL: malformed, slot, seq, job, dest_opcode, linecheck, hedge, quarantine_drop, 8 bits each, RC (02) -/
  viol : SMap Nat := []
  /-- MACsec drops of the port (02 R65) -/
  macDrops : Nat := 0
  /-- frames of standards not supported, discarded and counted (02 R42) -/
  otherDrops : Nat := 0
  /-- MACsec associations (02 R64) -/
  assocs : List MacAssoc := []
  /-- ESMC quality level last received (02 R42, Table 02.1) -/
  esmc : Option (BitVec 4) := none
deriving DecidableEq, Repr, Inhabited

/-- A plan bank (02 R51). -/
structure Bank where
  plan : Option Plan := none
  valid : Bool := false
deriving DecidableEq, Repr, Inhabited

/-- The fabric dies (02, 12). -/
structure Fabric where
  /-- the two plan banks (02) -/
  bank0 : Bank := {}
  bank1 : Bank := {}
  /-- ESP_CTRL.epoch_slot, 48 bits, and bank, 1 bit (02) -/
  epochSlot : BitVec 48 := 0
  ctrlBank : Bool := false
  /-- ESP_CTRL.arm and cancel, 1 bit each, W1S (02; log 51) -/
  ctrlArm : Bool := false
  ctrlCancel : Bool := false
  /-- ESP_STATUS.active_bank, state, k, refusal, periods (02) -/
  activeBank : Bool := false
  espState : EspState := .none
  k : BitVec 5 := 0
  refusal : BitVec 4 := 0
  periods : W32 := 0
  /-- hall slot at which the active plan took effect, from which its periods are counted (02 R55) -/
  since : Nat := 0
  /-- an armed activation (bank, epoch slot) (02 R54) -/
  armed : Option (Bool × Nat) := none
  /-- the espalier stops at its next period boundary (13 R337 TERMINATE) -/
  stopping : Bool := false
  /-- ports 0 to 7 (02) -/
  ports : SMap Port := []
  /-- pair states by peer (02 R58) -/
  pairs : SMap Pair := []
  /-- frames waiting for a slot: scheduled, best-effort and CONTROL, oldest first (02 R52, R56) -/
  ready : List OutFrame := []
  /-- gateway bins by domain, oldest first (02 R63) -/
  bins : SMap (List Frame) := []
  /-- frames of each bin that the present plan period carries (02 R63) -/
  binLeft : SMap Nat := []
  /-- frames that a full bin holds back, by domain, oldest first (02 R63) -/
  feed : SMap (List Frame) := []
  /-- the frames launched in the present slot (02 R52) -/
  wire : List Frame := []
  /-- the next hall slot whose boundary has not been taken (02 R52) -/
  nextSlot : Nat := 0
  /-- receive entries in which something came and whose window is still open: 16 x hall slot + line (02 R57) -/
  heard : List Nat := []
  /-- responses this node awaits (09 R244) -/
  awaiting : List Await := []
  /-- notices and orders received and not yet taken: sender and bytes, oldest first, at most 4 096 (12 R312) -/
  control : List (NodeId × List Byte) := []
deriving DecidableEq, Repr, Inhabited

/-- The time units (02, 16). -/
structure Timing where
  /-- time since reset release, in ns: the model's own clock for bounds that are not hall time (log 1) -/
  now : Nat := 0
  /-- hall time, 64 bits of ns (02) -/
  hall : Nat := 0
  /-- hall-time fraction, 16 bits (02) -/
  frac : W16 := 0
  /-- TIM_NOW_FRAC.frac, 16 bits (02) -/
  fracLatch : W16 := 0
  /-- TIM_STATUS.state, 3 bits (02 R45) -/
  state : TimState := .free
  /-- TIM_STATUS.active_unit, 1 bit (02) -/
  unit : Bool := false
  /-- the time error in ps; TIM_STATUS.time_err_ps shows it saturated to 16 bits (02 R45) -/
  errPs : Int := 0
  /-- TIM_STATUS.master_port and synce_port, 4 bits each (02) -/
  masterPort : BitVec 4 := 15
  syncePort : BitVec 4 := 15
  /-- identity of the selected master (02 R47) -/
  master : Option W64 := none
  /-- masters heard: (identity, port) (02) -/
  masters : List (Nat × Nat) := []
  /-- TIM_STATUS.ptp_bad, 8 bits, RC (02 R47) -/
  ptpBad : Byte := 0
  /-- discarded Syncs in a row from the selected master (02 R47) -/
  badSyncs : Nat := 0
  /-- masters excluded until a time (02 R47) -/
  excluded : List (Nat × Nat) := []
  /-- when time_err last came within 2 ns (02 R45) -/
  goodSince : Option Nat := none
  /-- the hall time at which HOLDOVER began, and time_err then (02 R45) -/
  holdFrom : Option (Nat × Int) := none
  /-- when the last valid Sync and the last Announce came (02 R45, R46) -/
  lastSync : Nat := 0
  lastAnnounce : Nat := 0
  /-- when PPS_IN and TIME_REF became stable (02, 14 R355) -/
  refSince : Option Nat := none
  /-- TAI second given by PPS_SECOND for the next PPS_IN edge (02, 14 R355) -/
  ppsSecond : Option Nat := none
  /-- 1 while the node is in scheduled service (02 R45, R46) -/
  service : Bool := false
  /-- scheduled service was lost and returns at a period boundary after LOCKED (02 R45) -/
  lockedSince : Option Nat := none
  /-- scheduled service has been lost since reset (02 R45) -/
  lost : Bool := false
deriving DecidableEq, Repr, Inhabited

/-! ### Field cores -/

/-- The machine and supervisor CSRs of a hart, Table 10.1. -/
structure Csrs where
  mstatus : W64 := 0
  medeleg : W64 := 0
  mideleg : W64 := 0
  mie : W64 := 0
  mip : W64 := 0
  mtvec : W64 := 0
  mscratch : W64 := 0
  mepc : W64 := 0
  mcause : W64 := 0
  mtval : W64 := 0
  mcounteren : W64 := 0
  menvcfg : W64 := 0
  mcountinhibit : W64 := 0
  mcycle : W64 := 0
  minstret : W64 := 0
  stvec : W64 := 0
  sscratch : W64 := 0
  sepc : W64 := 0
  scause : W64 := 0
  stval : W64 := 0
  scounteren : W64 := 0
  senvcfg : W64 := 0
  satp : W64 := 0
  fcsr : W64 := 0
  /-- pmpcfg bytes and pmpaddr words, 16 entries (Table 10.1) -/
  pmpcfg : SMap Byte := []
  pmpaddr : SMap W64 := []
  /-- mhpmcounter3 to 10 and their event selectors (Table 10.1) -/
  hpm : SMap W64 := []
  hpmevent : SMap W64 := []
deriving DecidableEq, Repr, Inhabited

/-- A remote-aperture access waiting for its answer (09 R249). -/
structure ApWait where
  kind : ApKind
  size : Nat
  addr : W64
  rd : BitVec 5
  node : NodeId
  /-- 1 for an SV128 access, which writes a vector register -/
  vec : Bool
  fp : Bool
  /-- 1 for a load that zero-extends -/
  uns : Bool
  /-- bytes of the instruction -/
  len : Nat
deriving DecidableEq, Repr

/-- One hart (10, 09). -/
structure Hart where
  /-- FCO_HART_STATUS.state, 3 bits (10); STOPPED before a job (10 R270; log 12) -/
  state : HartState := .stopped
  /-- FCO_HART_STATUS.priv, 2 bits (10) -/
  priv : Priv := .M
  pc : W64 := 0
  /-- x1 to x31 (10 R270) -/
  x : SMap W64 := []
  /-- f0 to f31, 64 bits (10 R270) -/
  f : SMap W64 := []
  /-- v0 to v31, 128 bits (10 R277) -/
  v : SMap W128 := []
  /-- svcsr, 9 bits (10 R277) -/
  svcsr : BitVec 9 := 0
  /-- svindex, 4 bits (10 R277) -/
  svindex : BitVec 4 := 0
  csr : Csrs := {}
  /-- LR reservation: the line (10 R274) -/
  resv : Option Nat := none
  /-- FCO_HART_STATUS.msip, 1 bit (10 R276) -/
  msip : Bool := false
  /-- FCO_HART_STATUS.last_code and last_intr, 7 + 1 bits (10) -/
  lastCode : BitVec 7 := 0
  lastIntr : Bool := false
  /-- FCO_HART_TCMP, 64 bits (10 R276) -/
  tcmp : W64 := 0xFFFF_FFFF_FFFF_FFFF
  /-- the access the hart waits on (09 R249) -/
  ap : Option ApWait := none
  /-- aperture stores not yet acknowledged, oldest first: their number, address and node (09 R249, R250) -/
  apStores : List (Nat × W64 × NodeId) := []
  /-- the number of the next aperture store (09 R250) -/
  apNext : Nat := 1
  /-- a failed aperture store to report (09 R250) -/
  apFault : Option W64 := none
  /-- a failed buffered store to report at the next FENCE or load (10 R275) -/
  stFault : Option W64 := none
  /-- the next instruction waits on a local cache miss (10 R268) -/
  missWait : Bool := false
  /-- FCO_RSTATUS: status, opcode, node, 8 + 8 + 20 bits, RC (09 R250) -/
  rstat : W64 := 0
deriving DecidableEq, Repr, Inhabited

/-- A line in a core's write-combining buffer (10 R272): the line's key, its 64 bytes as far as they have been stored, and
the hart and address of the store that began it. -/
structure WcLine where
  line : Nat
  bytes : List (Option Byte)
  hart : BitVec 6
  va : W64
deriving DecidableEq, Repr, Inhabited

/-! ### Errors and holds -/

/-- An error record (11 Table 11.2). -/
structure ErrRec where
  sev : Sev
  level : Nat
  unitKind : Nat
  unit : Nat
  code : ErrCode
  status : Status
  lost : Bool
  npa : Option Nat
  hall : Nat
  count : Nat
  seq : Nat
  detail : List Byte
deriving DecidableEq, Repr, Inhabited

/-- A coalescing window of C events (11 R288). -/
structure Coal where
  code : ErrCode
  unitKind : Nat
  unit : Nat
  ends : Nat
  count : Nat
  last : ErrRec
deriving DecidableEq, Repr, Inhabited

/-- The node log and the crash record (11 R288). -/
structure Errs where
  /-- the node log: records and whether each has been delivered, oldest first, at most 4 096 (11 R288) -/
  log : List (ErrRec × Bool) := []
  /-- record_seq of the next record, 32 bits (11 R286) -/
  seq : Nat := 0
  /-- the next record carries lost (11 R288) -/
  lostNext : Bool := false
  /-- open coalescing windows (11 R288) -/
  coal : List Coal := []
  /-- NODE_ERR_CNT: c 24, d 16, f1 8, f2 8, lost 8 bits, RC (11) -/
  cntC : Nat := 0
  cntD : Nat := 0
  cntF1 : Nat := 0
  cntF2 : Nat := 0
  cntLost : Nat := 0
deriving DecidableEq, Repr, Inhabited

/-- The hold and the recovery policy (11, 13). -/
structure Hold where
  /-- NODE_HOLD.state, 2 bits (11 R289) -/
  state : HoldState := .run
  /-- NODE_HOLD.by_limit, 1 bit (11) -/
  byLimit : Bool := false
  /-- NODE_HOLD.worst, 3 bits (11) -/
  worst : Sev := .C
  /-- NODE_HOLD.first_seq, 32 bits (11) -/
  firstSeq : Nat := 0
  /-- the first cause record, for HOLD_STATUS (13) -/
  firstCause : Option ErrRec := none
  /-- NODE_HOLD_TIME.first_halt, 64 bits (11) -/
  firstHalt : Nat := 0
  /-- the hold was entered by an order, or by R23, R27 or R57, at the next step boundary (13 R337) -/
  atBoundary : Bool := false
  /-- held before the step counter was raised (13 R337 HOLD) -/
  stepPending : Bool := false
  /-- an F1 or F2 event since the hold began (13 R337 RESUME) -/
  fatal : Bool := false
  /-- the queue reset has been performed (13 R337 TERMINATE) -/
  wasReset : Bool := false
  /-- a restore stands and waits for RELAUNCH (12 R319) -/
  restored : Bool := false
  /-- when this node's notice went, and the member it went to (13 R339) -/
  noticeAt : Option Nat := none
  coordinator : Option NodeId := none
  tried : List NodeId := []
  /-- coordinator: the open settle window's end, and the notices in it (13 R338) -/
  settleEnds : Option Nat := none
  notices : List (NodeId × Notice) := []
  /-- orders sent by this node as coordinator in the last decision (13 R338): op code and failed nodes -/
  orders : List (Nat × List NodeId) := []
  /-- silent peers reported by R57 -/
  silentPeers : List NodeId := []
  /-- the queue reset under way ends the job (13 R337 TERMINATE) -/
  ending : Bool := false
  /-- commands in flight that had faulted when the queue reset began: block key, queue, index (11 R290) -/
  faulted : List (Nat × Nat × Nat) := []
  /-- coordinator: the failed set of a decision whose restore waits for the members' reports, and the reports that have
  come (12 R318, 13 R338) -/
  want : Option (List NodeId) := none
  reports : List (NodeId × List Byte) := []
deriving DecidableEq, Repr, Inhabited

/-- The checkpoint machinery (12). -/
structure Ckpt where
  /-- NODE_CKPT_STATUS.state, gen, level, skipped, step (12) -/
  state : CkptState := .none
  gen : Bool := false
  level : Nat := 0
  skipped : Byte := 0
  step : BitVec 48 := 0
  /-- NODE_CKPT_STEPS.mirrored_step, 48 bits (12) -/
  mirroredStep : BitVec 48 := 0
  /-- cut depth of the active plan for the members at the present cut (12 R305) -/
  depth : Nat := 0
  /-- number n of the present or last checkpoint (12 R303) -/
  n : Nat := 0
  /-- newest checkpoint complete locally, and newest mirrored (12 R308) -/
  doneN : Nat := 0
  mirroredN : Nat := 0
  /-- a drain or host load uses own[0], own[1] (12 R308) -/
  busy0 : Bool := false
  busy1 : Bool := false
  /-- the node-state record captured at the cut, and the digest of the espalier then in force (12 R302, R315) -/
  record : List Byte := []
  plan : List Byte := []
  /-- shard-list entries of the checkpoint being secured: stack, index, length, digest (12 R315) -/
  shards : List (Nat × Nat × Nat × List Byte) := []
  /-- restore report: per generation step, verdict, source, flagged (12 Table 12.7) -/
  report : List (Nat × Nat × Nat × Nat) := []
  /-- checkpoints being mirrored, oldest first: number and frames not yet acknowledged (12 Table 12.4 step 6) -/
  mirrors : List (Nat × Nat) := []
  /-- the cut under way, or the last: whether it has not yet fallen, its checkpoint's number and step (12 R306) -/
  cutting : Bool := false
  cutN : Nat := 0
  cutStep : BitVec 48 := 0
deriving DecidableEq, Repr, Inhabited

/-! ### Host interface -/

/-- A ring's registers (13 R329). -/
structure Ring where
  /-- base [51:12] in 4 KiB units (13) -/
  base : Nat := 0
  /-- enable, 1 bit (13) -/
  enable : Bool := false
  /-- log2 of the entry count, 6 bits (13) -/
  log2 : Nat := 0
  /-- prod and cons, 32 bits each (13) -/
  prod : W32 := 0
  cons : W32 := 0
deriving DecidableEq, Repr, Inhabited

/-- A completion record (13 Table 13.4). -/
structure ComplRec where
  status : Status
  queue : Nat
  region : Nat
  block : Nat
  idx : Nat
  label : Nat
  loadGen : Nat
  step : Nat
  hall : Nat
deriving DecidableEq, Repr, Inhabited

/-- A log-ring entry (13 Table 13.5). -/
structure LogEnt where
  source : Nat
  kind : Nat
  code : Nat
  seq : Nat
  hall : Nat
  data : List Byte
deriving DecidableEq, Repr, Inhabited

/-- What the mailbox last answered (13 R332). -/
structure MbxOut where
  ret : MbxRet := .success
  status : Status := .ok
  detail : Nat := 0
  out : List Byte := []
deriving DecidableEq, Repr, Inhabited

/-- A background mailbox command: its opcode and its result (13 R332). -/
structure Bg where
  opcode : Nat
  out : MbxOut
deriving DecidableEq, Repr, Inhabited

/-- The host interface (13). -/
structure HostIf where
  /-- HRW_STATUS.node_state, 3 bits (13) -/
  node : NodeState := .start
  /-- HRW_STATUS.em_overflow, 1 bit, W1C (13 R327) -/
  emOverflow : Bool := false
  /-- HRW_INT_CAUSE, 8 bits, W1C (13) -/
  cause : Byte := 0
  /-- HRW_INT_MASK, 8 bits (13) -/
  mask : Byte := 0xFF
  /-- MSI-X vectors sent, oldest first (13 R328; log 20) -/
  msix : List Nat := []
  /-- MSI-X pending bits: causes that rose while masked and whose vector has not been sent, 8 bits (13 R328) -/
  msixPend : Byte := 0
  /-- emulated writes queued: register, value, and a mask of the bits written; oldest first, at most 64 (13 R327) -/
  emQueue : List (Nat × W64 × W64) := []
  /-- emulated registers as last applied: HRW_TRACE_MASK0 to 3 (13) -/
  trace : SMap W64 := []
  /-- HRW_CRING, HRW_ERING, HRW_LRING base and index (13 R329) -/
  cring : Ring := {}
  ering : Ring := {}
  lring : Ring := {}
  /-- the completion buffer, oldest first, at most 4 096 (13 R330) -/
  cbuf : List ComplRec := []
  /-- HRW_STATUS.cbuf_stall, 1 bit (13 R330) -/
  cbufStall : Bool := false
  /-- log entries waiting, at most 4 096; the lost mark; the sequence (13 R331) -/
  logq : List LogEnt := []
  logLost : Bool := false
  logSeq : Nat := 0
  /-- the last mailbox answer (13 R332) -/
  mbx : MbxOut := {}
  /-- the running background command (13 R332) -/
  bg : Option Bg := none
  /-- the last background command's result (13 BG_RESULT) -/
  bgLast : Option Bg := none
  /-- HRW_LEASE holder 32, held, orphan, late 1 bit each (13) -/
  holder : W32 := 0
  leaseHeld : Bool := false
  orphan : Bool := false
  late : Bool := false
  /-- when the lease period ends (13 R340) -/
  leaseEnds : Nat := 0
  /-- orphan log: expiry hall time, mode bits that fell back, held, first and last record_seq (13 ORPHAN_LOG) -/
  orphanHall : Nat := 0
  fellBack : W32 := 0
  orphanHeld : Bool := false
  orphanFirst : Nat := 0
  orphanLast : Nat := 0
  /-- the mode word in force (13 R336) -/
  mode : W32 := 0x1FF
  /-- functions in hardware mode by orphan fall-back (13 R341) -/
  fallback : W32 := 0
  /-- functions that return to host-assisted mode at the next step boundary (13 R342) -/
  returning : W32 := 0
  /-- the CXL link is up (13 R324) -/
  linkUp : Bool := false
  /-- the HDM decoder: base and size of its programmed range (13 R323; log 21) -/
  hdmBase : Nat := 0
  hdmSize : Nat := 0
  /-- the answer to the last CXL.mem, configuration, HRW, JTAG, I3C or DOE read: bytes and the poison mark (log 20) -/
  answer : List Byte := []
  poison : Bool := false
  /-- the completion status of the last host request: 0 success, 1 Unsupported Request, 2 configuration retry (11 R298) -/
  ur : Nat := 0
  /-- AER entries logged (11 R298): the bit of PCIe's uncorrectable error status, or 64 and that of its correctable one
  (log 21) -/
  aer : List Nat := []
  /-- host memory: the world outside, read and written through the host aperture (log 11) -/
  mem : List Host.Cell := []
  /-- I3C in-band interrupts sent, oldest first (15 R387) -/
  ibi : List Byte := []
  /-- lines of the 4 MiB CXL.cache device cache (13 Table 13.1) -/
  cache : List Nat := []
deriving DecidableEq, Repr, Inhabited

/-! ### Start, security, power -/

/-- What is fused (00, 07, 14, 15; log 5). -/
structure Fuses where
  grade : Grade := .A
  serial : W64 := 0
  /-- owner key hash, 64 bytes, none from the factory (14 R351) -/
  ownerHash : Option (List Byte) := none
  /-- fused bundle and NCR versions, 0 to 32 (14 R348) -/
  bundleSvn : Nat := 0
  ncrSvn : Nat := 0
  /-- fused limits (15 R374) -/
  powerW : Nat := 2400
  throttleC : Nat := 95
  tripC : Nat := 105
  vddMv : Nat := 900
  /-- HLT_AGEING.slack0_ps by die, 16 bits (15) -/
  slack0 : SMap W16 := []
deriving DecidableEq, Repr, Inhabited

/-- A port's entry of the NCR (14 Table 14.3). -/
structure NcrPort where
  enabled : Bool := false
  role : BitVec 2 := 0
  split : Bool := false
  replay : BitVec 6 := 0
  vlan : BitVec 12 := 0
deriving DecidableEq, Repr, Inhabited

/-- The node configuration record in force (14 Table 14.3), at its defaults before step 2. -/
structure Ncr where
  nodeId : NodeId := 0
  udpPort : W16 := 0
  timeRole : TimeRole := .member
  ptpDomain : Byte := 0
  hallPrefix : W64 := 0
  modeWord : W32 := 0x1FF
  fallback : W32 := 0
  cellarGib : Nat := 0
  leaseMs : Nat := 100
  holdLimitMs : Nat := 10
  settleMs : Nat := 20
  launchRoot : Option NodeId := none
  holdoverPs : Nat := 1000
  ports : List NcrPort := []
  domains : List (Nat × Nat) := []
  /-- limits after R350 -/
  powerW : Nat := 2400
  throttleC : Nat := 95
  tripC : Nat := 105
  vddMv : Nat := 900
  clockMhz : Nat := 2400
  /-- eol_coeff c0 to c7, FP64 (15 Table 15.6) -/
  eol : List W64 := [0x3FD0000000000000, 0x404E000000000000, 0x4079A00000000000, 0x4028000000000000,
    0x40F86A0000000000, 0x40E86A0000000000, 0x3FE3333333333333, 0x3FF8000000000000]
deriving DecidableEq, Repr, Inhabited

/-- An SPDM session (14 R360). -/
structure Spdm where
  id : W32
  /-- 1 once FINISH has completed the handshake -/
  up : Bool
  keyGen : Nat
deriving DecidableEq, Repr, Inhabited

/-- The security core, flash, debug and attestation (14). -/
structure Sec where
  /-- SEC_STATUS.boot_state, 2 bits (14) -/
  boot : BitVec 2 := 0
  /-- SEC_STATUS.bundle_slot, ncr_slot, 1 bit each (14) -/
  bundleSlot : Bool := false
  ncrSlot : Bool := false
  /-- NODE_IDENT.ncr_valid, 1 bit (01) -/
  ncrValid : Bool := false
  /-- SEC_STATUS.debug_unlocked, debug_armed, 1 bit each (14) -/
  unlocked : Bool := false
  armed : Bool := false
  /-- level masks of the armed and the present unlock (14 R363) -/
  armMask : W32 := 0
  mask : W32 := 0
  /-- SEC_STATUS.recovery_cause, 4 bits (14 R347) -/
  recovery : BitVec 4 := 0
  /-- SEC_STATUS.tamper_count, 8 bits, since power-on (14 R365) -/
  tamperCount : Byte := 0
  /-- SEC_BOOT ready_ms, last_step, locked_at_ready, port_short, stack_failed (14) -/
  readyMs : W16 := 0
  lastStep : BitVec 4 := 0
  lockedAtReady : Bool := false
  portShort : Bool := false
  stackFailed : Bool := false
  /-- flash slots: NCR 0 and 1, enrolment, bundle 0 and 1 (14 Table 14.1; contents before any staging: log 5) -/
  ncr0 : List Byte := []
  ncr1 : List Byte := []
  enrol : List Byte := []
  bundle0 : List Byte := []
  bundle1 : List Byte := []
  /-- the running bundle's svn and version (14 R348, 13 fw_version) -/
  runSvn : Nat := 0
  fwVersion : W64 := 0
  stagedVersion : W64 := 0
  /-- svn of the NCR in use (14 R348) -/
  runNcrSvn : Nat := 0
  /-- the AK of this start, 57 bytes (14 R357) -/
  ak : List Byte := []
  /-- measurements 1 to 7, 64 bytes each (14 Table 14.7) -/
  meas : SMap (List Byte) := []
  /-- SPDM: version negotiated, algorithms agreed, sessions, at most four (14 R360) -/
  spdmVersion : Bool := false
  spdmCaps : Bool := false
  spdmAlgs : Bool := false
  sessions : List Spdm := []
  nextSession : Nat := 1
  /-- CXL and PCIe IDE keys by stream (14 R357) -/
  ide : List (Nat × List Byte) := []
  /-- JTAG: the nonce of the present challenge, drawn by number, and DBG_STATUS (14 R362) -/
  nonce : List Byte := []
  dbgStatus : Nat := 0
  /-- retained store: repair candidates, soft repairs awaiting a burn (stack, repair), lost with VDD_CT (07 R209) -/
  candidates : List (Nat × RowRepair) := []
  awaitBurn : List (Nat × RowRepair) := []
  /-- lanes remapped softly that await a burn (stack, channel, lane) (07 R209) -/
  awaitLanes : List (Nat × Nat × Nat) := []
  /-- rake history: corrected passes per row (stack, channel, bank, row) with the passes seen (07 R209) -/
  rakeHist : List ((Nat × Nat × Nat × Nat) × List Nat) := []
  /-- rake passes begun since VDD_CT came, which number the passes of the history across resets (07 R209; log 52) -/
  rakePasses : Nat := 0
  /-- the crash record and HRW_STATUS.crash_valid (11 R288, 13) -/
  crash : Option ErrRec := none
  crashValid : Bool := false
  /-- the open maintenance stop, kept with the crash record (15 R384), and whether a container was staged in it -/
  maint : Bool := false
  staged : Bool := false
  /-- a whole-node reset fell inside the open stop (15 R384) -/
  maintReset : Bool := false
  /-- erases by FW_STAGE per slot, cumulative (15 Table 15.5) -/
  erases : SMap Nat := []
  /-- the slot that the background FW_STAGE writes, by its number: a reset meanwhile leaves it invalid (14 R352) -/
  writing : Option Nat := none
  /-- a fault of the flash: what is next written to a slot reads back wrong (14 R352; log 23) -/
  flashBad : Bool := false
deriving DecidableEq, Repr, Inhabited

/-- One compute die's clock and voltage (15). -/
structure Die where
  /-- PWR_DIE.clock_mhz, 16 bits (15) -/
  clockMhz : Nat := 0
  /-- PWR_DIE.vdd_mv, 12 bits (15) -/
  vddMv : Nat := 750
  /-- PWR_DIE.tj_c, 8 bits (15) -/
  tjC : Nat := 0
  /-- PWR_DIE.cause, 4 bits (15) -/
  cause : BitVec 4 := 0
  /-- PWR_DIE.throttled_ms, 24 bits (15) -/
  throttledMs : Nat := 0
  /-- the voltage change under way: the clock to change to once it has settled, its own for a lowering (15 R371) -/
  target : Option Nat := none
  /-- the level that temperature allows, 0 for any (15 R376) -/
  tempMhz : Nat := 0
  /-- milliseconds in a row at or below throttle_c - 3 (15 R376) -/
  coolMs : Nat := 0
  /-- the limiter holds the die at half clock until it cools to throttle_c (15 R378) -/
  halved : Bool := false
  /-- regulator fault, cause 7 (15 R371) -/
  regFault : Bool := false
deriving DecidableEq, Repr, Inhabited

/-- A daily health record (15 R382). -/
structure Daily where
  day : Nat
  slackPs : Nat
  roPpm : Int
  hbmCorr : Nat
  spares : Nat
  eyeMv : Nat
  erases : Nat
  cycles : Nat
  activity : Nat
deriving DecidableEq, Repr, Inhabited

/-- Power, clocks and health (15), and the pins of 16. -/
structure Power where
  /-- rails that stand at or above 90 % (15 R368): all up after reset release, log 4 -/
  railsUp : Bool := true
  /-- PD00 to PD19 that are on, 20 bits (15 R372); PD14 from VDD_CT on -/
  domains : BitVec 20 := 0x04000
  /-- PWR_STATUS.power_w, 16 bits (15) -/
  powerW : Nat := 0
  /-- PWR_STATUS.hot_c, 8 bits (15) -/
  hotC : Nat := 0
  /-- PWR_STATUS.hw_throttle, 1 bit, W1C (15 R378) -/
  hwThrottle : Bool := false
  /-- the host's cap; PWR_STATUS.cap_host is 1 while it is in force (15 R386) -/
  capHost : Option Nat := none
  /-- compute dies 0 to 3 (15) -/
  dies : SMap Die := []
  /-- the levels that the cap and the other dies allow, 0 for any (15 R376) -/
  capMhz : Nat := 0
  otherMhz : Nat := 0
  /-- milliseconds in a row below 95 % of the cap; and with the other dies at or below throttle_c - 3 (15 R376) -/
  capCoolMs : Nat := 0
  otherCoolMs : Nat := 0
  /-- the tamper, supply and limiter holds of R399 (16) -/
  tamperHold : Bool := false
  supplyHold : Bool := false
  limiterHold : Bool := false
  /-- the limiter's hold ends below this temperature in °C: throttle_c - 10 as it was in force (15 R379) -/
  limiterBelow : Nat := 0
  /-- a self-reset is wanted after the limiter's trip, as error-recovery policy stood (01 R31, 15 R379) -/
  selfWanted : Bool := false
  /-- compute clocks stopped by the limiter (15 R379) -/
  clocksStopped : Bool := false
  /-- HLT_EOL p50, p10, p90, mech, valid, window (15) -/
  p50 : W16 := 0xFFFF
  p10 : W16 := 0xFFFF
  p90 : W16 := 0xFFFF
  mech : BitVec 3 := 0
  eolValid : Bool := false
  /-- daily records made since reset, newest last, at most 90; and those loaded (15 R382) -/
  daily : List Daily := []
  loaded : List Daily := []
  /-- HLT_AGEING slack_ps, ro_shift_ppm, guard_mv by die 0 to 18 (15) -/
  slack : SMap W16 := []
  ro : SMap W16 := []
  guard : SMap Byte := []
  /-- HLT_AVAIL.last_outage_ms, 32 bits; oos_ms, 24 bits (15 R384) -/
  lastOutage : W32 := 0
  oosNs : Nat := 0
  /-- the hall time of the node-fatal event, from which a self-reset counts (01 R31) -/
  fatalAt : Option Nat := none
  /-- the hall time from which the present outage or out-of-service interval counts (15 R384, R385) -/
  outageFrom : Option Nat := none
  oosFrom : Option Nat := none
  /-- RESET_N, PERST_N as driven; RDY_N, TRIP_N, PPS_OUT as the node drives them (16) -/
  resetN : Bool := true
  perstN : Bool := false
  rdyN : Bool := true
  tripN : Bool := true
  ppsOut : Bool := false
  /-- when PPS_OUT falls (16 R396) -/
  ppsFalls : Nat := 0
  /-- I3C dynamic address, 7 bits, none before ENTDAA or SETDASA (16 R397) -/
  i3cAddr : Option (BitVec 7) := none
  /-- the present JTAG instruction, by its row's number in R362 (14); BYPASS after reset as IEEE 1149.1 (log 22) -/
  jtag : Nat := 1
  /-- the last I3C read image held (15 R387) -/
  i3cImage : List Byte := []
  /-- firmware processors restarting (13 R334) -/
  restarting : List Nat := []
  /-- a whole-node reset has begun and the start sequence has not (14 R354, 16 R399) -/
  startPending : Bool := true
deriving DecidableEq, Repr, Inhabited

/-! ### The whole node -/

/-- The node. -/
structure State where
  /-- commands waiting, first in, first out (the model's queue) -/
  pending : List Instr := []
  /-- the model's own count of free values drawn (log 3) -/
  free : Nat := 0
  /-- node memory and the block and region stores, by physical byte key, unlisted bytes zero (01 R35, 07 R179; log 6) -/
  mem : List Host.Cell := []
  /-- line faults by line key (07 R182, 01 R22; log 15) -/
  lineFault : SMap LineFault := []
  /-- lines decoded so far on each channel, at key 32 x stack + channel (07 R183) -/
  decoded : SMap Nat := []
  /-- faults of parts that the node has not met yet, in order (01 R22, R27, R31; 10 Table 10.4; log 50) -/
  partFaults : List PartFault := []
  /-- the stacks 0 to 11 (07) -/
  stk : SMap Stack := []
  /-- the brine array table, at most 64 entries (07 R196) -/
  brine : List BrineEnt := []
  /-- the blocks by 64 x region + logical number (01 R24) -/
  blocks : SMap Block := []
  /-- the regions 0 to 3 (01 R17) -/
  regions : SMap Region := []
  /-- NODE_SAT_UZL and NODE_SAT_CXL, 64 bits each, RC (01 R34) -/
  satUzl : W64 := 0
  satCxl : W64 := 0
  job : Job := {}
  fab : Fabric := {}
  tim : Timing := {}
  /-- the harts 0 to 63 (10 R267) -/
  harts : SMap Hart := []
  /-- the write-combining buffers of the cores 0 to 15, at most 32 lines each, oldest first (10 R272) -/
  wcb : SMap (List WcLine) := []
  /-- FCO_APT, 4 096 entries of 58 bits (09) -/
  apt : SMap W64 := []
  err : Errs := {}
  hold : Hold := {}
  ckpt : Ckpt := {}
  host : HostIf := {}
  fuses : Fuses := {}
  ncr : Ncr := {}
  sec : Sec := {}
  pwr : Power := {}
deriving DecidableEq, Repr, Inhabited

/-- Reasons a step stops with a fault. No step of this model stops with one: a node event is the node's own, carried
in its state (a halted queue, a held job, a held node), and the model goes on. The type has one constructor so that a
fault could be named. -/
inductive Fault where
  /-- Raised by nobody: every event of the spec leaves a state in which the node goes on. Safe. -/
  | stuck
deriving DecidableEq, Repr

/-- Reasons a step is refused. -/
inductive Refusal where
  /-- Answered by an arm of exec whose row has no meaning yet. Safe: nothing is proved of it. -/
  | notModelled (mnemonic : String)
deriving DecidableEq, Repr

/-- The node right after reset release, its rails in tolerance, before the start sequence (14 R354; log 4). -/
def State.reset : State := {}

end Sys2Proof.Machine
end

