-- ==== Sys2Proof/Machine/Ops.lean ====
section
/-!
DEFINITION. The named operations every meaning uses: sparse tables, the units of the state, the
NPA map and memory with its line faults, error records, halting and holding, events, completion, node-fatal events.
-/
namespace Sys2Proof

/-! ### Names of units -/

/-- The key of a block. -/
def Blk.key (b : Blk) : Nat := b.region.toNat * 64 + b.block.toNat

/-- The code of a queue, Table 04.3. -/
def Qc.code : Qc → Nat
  | .TQ => 0 | .VQ => 1 | .XQ => 2 | .IQ => 3 | .OQ => 4 | .CQ => 5

/-- The queue of a code. -/
def Qc.ofCode : Nat → Option Qc
  | 0 => some .TQ | 1 => some .VQ | 2 => some .XQ | 3 => some .IQ | 4 => some .OQ | 5 => some .CQ
  | _ => none

/-- The six queues. -/
def Qc.all : List Qc := [.TQ, .VQ, .XQ, .IQ, .OQ, .CQ]

end Sys2Proof

namespace Sys2Proof.Machine

/-! ### Sparse tables -/

/-- The entry of a key, or the default. -/
def SMap.get {V : Type} (d : V) : SMap V → Nat → V
  | [], _ => d
  | (a, v) :: m, k => if a = k then v else SMap.get d m k

/-- The table without a key. -/
def SMap.erase {V : Type} : SMap V → Nat → SMap V
  | [], _ => []
  | (a, v) :: m, k => if a = k then SMap.erase m k else (a, v) :: SMap.erase m k

/-- The table with an entry put at its place among rising keys. -/
def SMap.ins {V : Type} : SMap V → Nat → V → SMap V
  | [], k, v => [(k, v)]
  | (a, w) :: m, k, v => if k < a then (k, v) :: (a, w) :: m else (a, w) :: SMap.ins m k v

/-- The table with a key set: an entry equal to the default is not listed. -/
def SMap.set {V : Type} [DecidableEq V] (d : V) (m : SMap V) (k : Nat) (v : V) : SMap V :=
  if v = d then SMap.erase m k else SMap.ins (SMap.erase m k) k v

/-- Every entry changed by a function, entries that become the default left out. -/
def SMap.mapV {V : Type} [DecidableEq V] (d : V) (f : Nat → V → V) : SMap V → SMap V
  | [] => []
  | (k, v) :: m => SMap.set d (SMap.mapV d f m) k (f k v)

/-- Keys strictly rising and no entry at the default. -/
def SMap.wf {V : Type} [DecidableEq V] (d : V) : SMap V → Bool
  | [] => true
  | [(_, v)] => v != d
  | (a, v) :: (b, w) :: m => a < b && v != d && SMap.wf d ((b, w) :: m)

/-- The canonical form of a memory: addresses strictly rise, and no byte of value zero is listed (log 6, 11). -/
def Memory.wf (m : List Host.Cell) : Bool := SMap.wf 0 m

/-- Keys at or above a bound, strictly rising. -/
def SMap.rising {V : Type} : SMap V → Nat → Bool
  | [], _ => true
  | (a, _) :: m, lo => lo ≤ a && SMap.rising m (a + 1)

/-! ### Statuses -/

/-- The code of a status, Table 00.5. -/
def Status.code : Status → Nat
  | .ok => 0x00 | .bounds => 0x01 | .align => 0x02 | .state => 0x03 | .absent => 0x04 | .check => 0x05
  | .uncorr => 0x06 | .timeout => 0x07 | .deadline => 0x08 | .singular => 0x09 | .overflow => 0x0A
  | .perturbed => 0x0B | .noconv => 0x0C | .job => 0x0D | .seq => 0x0E | .aborted => 0x0F | .verify => 0x10
  | .format => 0x11 | .notrun => 0x12 | .diverge => 0x13 | .mixed => 0x14 | .quarantine => 0x15

/-- The status of a code; a reserved code is of class failed (R12). -/
def Status.ofCode : Nat → Status
  | 0x00 => .ok | 0x01 => .bounds | 0x02 => .align | 0x03 => .state | 0x04 => .absent | 0x05 => .check
  | 0x06 => .uncorr | 0x07 => .timeout | 0x08 => .deadline | 0x09 => .singular | 0x0A => .overflow
  | 0x0B => .perturbed | 0x0C => .noconv | 0x0D => .job | 0x0E => .seq | 0x0F => .aborted | 0x10 => .verify
  | 0x11 => .format | 0x12 => .notrun | 0x13 => .diverge | 0x14 => .mixed | 0x15 => .quarantine
  | _ => .check

/-- Class done or qualified: the command's effects are present and it posts (Table 00.5, R102). -/
def Status.good : Status → Bool
  | .ok | .deadline | .singular | .overflow | .perturbed | .noconv | .notrun => true
  | _ => false

/-- Class refused (Table 00.5). -/
def Status.refused : Status → Bool
  | .bounds | .align | .state | .absent | .job | .verify | .format | .diverge | .quarantine => true
  | _ => false

/-- The refusal reported first among several, R13. -/
def Status.first (l : List Status) : Option Status :=
  [Status.verify, .absent, .state, .format, .align, .bounds].find? fun x => x ∈ l

/-! ### Units of the state -/

/-- A block's state. -/
def State.blk (s : State) (b : Blk) : Block := s.blocks.get {} b.key

/-- The state with a block's state set. -/
def State.setBlk (s : State) (b : Blk) (v : Block) : State := { s with blocks := s.blocks.set {} b.key v }

/-- The state with a block's state changed. -/
def State.updBlk (s : State) (b : Blk) (f : Block → Block) : State := s.setBlk b (f (s.blk b))

/-- A queue of a block. -/
def Block.queue (k : Block) (q : Qc) : Queue := k.queues.get {} q.code

/-- A block with a queue set. -/
def Block.setQueue (k : Block) (q : Qc) (v : Queue) : Block := { k with queues := k.queues.set {} q.code v }

/-- A queue of the node. -/
def State.q (s : State) (b : Blk) (q : Qc) : Queue := (s.blk b).queue q

/-- The state with a queue set. -/
def State.setQ (s : State) (b : Blk) (q : Qc) (v : Queue) : State := s.updBlk b fun k => k.setQueue q v

/-- The state with a queue changed. -/
def State.updQ (s : State) (b : Blk) (q : Qc) (f : Queue → Queue) : State := s.setQ b q (f (s.q b q))

/-- A stream context of a block. -/
def Block.ctx (k : Block) (c : Nat) : Ctx := k.ctxs.get {} c

/-- A stream context of the node. -/
def State.ctx (s : State) (b : Blk) (c : Nat) : Ctx := (s.blk b).ctx c

/-- The state with a stream context set. -/
def State.setCtx (s : State) (b : Blk) (c : Nat) (v : Ctx) : State :=
  s.updBlk b fun k => { k with ctxs := k.ctxs.set {} c v }

/-- A region. -/
def State.region (s : State) (n : Nat) : Region := s.regions.get {} n

/-- The state with a region set. -/
def State.setRegion (s : State) (n : Nat) (r : Region) : State := { s with regions := s.regions.set {} n r }

/-- A stack. -/
def State.stack (s : State) (n : Nat) : Stack := s.stk.get {} n

/-- The state with a stack set. -/
def State.setStack (s : State) (n : Nat) (v : Stack) : State := { s with stk := s.stk.set {} n v }

/-- A channel of a stack. -/
def Stack.chan (k : Stack) (c : Nat) : Chan := k.chans.get {} c

/-- A stack with a channel set. -/
def Stack.setChan (k : Stack) (c : Nat) (v : Chan) : Stack := { k with chans := k.chans.set {} c v }

/-- A port. -/
def State.port (s : State) (p : Nat) : Port := s.fab.ports.get {} p

/-- The state with a port set. -/
def State.setPort (s : State) (p : Nat) (v : Port) : State :=
  { s with fab := { s.fab with ports := s.fab.ports.set {} p v } }

/-- The pair state toward a peer. -/
def State.pair (s : State) (n : NodeId) : Pair := s.fab.pairs.get {} n.toNat

/-- The state with a pair state set. -/
def State.setPair (s : State) (n : NodeId) (v : Pair) : State :=
  { s with fab := { s.fab with pairs := s.fab.pairs.set {} n.toNat v } }

/-- A hart. -/
def State.hart (s : State) (h : BitVec 6) : Hart := s.harts.get {} h.toNat

/-- The state with a hart set. -/
def State.setHart (s : State) (h : BitVec 6) (v : Hart) : State := { s with harts := s.harts.set {} h.toNat v }

/-- The state with a hart changed. -/
def State.updHart (s : State) (h : BitVec 6) (f : Hart → Hart) : State := s.setHart h (f (s.hart h))

/-- A compute die's clock and voltage. -/
def State.die (s : State) (n : Nat) : Die := s.pwr.dies.get {} n

/-- The state with a compute die's clock and voltage set. -/
def State.setDie (s : State) (n : Nat) (v : Die) : State :=
  { s with pwr := { s.pwr with dies := s.pwr.dies.set {} n v } }

/-! ### Grades, live blocks -/

/-- Blocks per region, Table 00.2. -/
def Grade.blocksPerRegion : Grade → Nat
  | .A => 32 | .B => 24

/-- Field cores, Table 00.2. -/
def Grade.cores : Grade → Nat
  | .A => 16 | .B => 12

/-- Arithmetic clock in MHz, Table 00.2. -/
def Grade.clockMhz : Grade → Nat
  | .A => 2400 | .B => 2200

/-- RGN_BLOCKS.live_mask (01): the grade's active blocks less those out of service. -/
def liveMask (s : State) (n : Nat) : W32 :=
  BitVec.ofNat 32 (2 ^ s.fuses.grade.blocksPerRegion - 1) &&& ~~~(s.region n).dead

/-- A block is live: not fused off, not out of service, its region not fatal (R3, R27, R28). -/
def blockLive (s : State) (b : Blk) : Bool := (liveMask s b.region.toNat).toNat.testBit b.block.toNat

/-- The blocks of the grade, region by region. -/
def gradeBlocks (s : State) : List Blk :=
  (List.range 4).flatMap fun r => (List.range s.fuses.grade.blocksPerRegion).map fun i =>
    ⟨BitVec.ofNat 2 r, BitVec.ofNat 6 i⟩

/-- The live blocks. -/
def liveBlocks (s : State) : List Blk := (gradeBlocks s).filter (blockLive s)

/-- A hart's core is fused in (R267). -/
def hartPresent (s : State) (h : BitVec 6) : Bool := h.toNat / 4 < s.fuses.grade.cores

/-! ### Time and free values -/

/-- Hall time as a unit across a clock crossing reads it: never ahead, at most 32 ns behind (R40); the lag is free. -/
def stamp (s : State) : Nat := s.tim.hall - (Config.freeWord s.free).toNat % 33

/-- The state after one free value has been drawn. -/
def drew (s : State) : State := { s with free := s.free + 1 }

/-- `n` bytes of an entropy source from draw `i` on. -/
def entropy (i n : Nat) : List Byte := (List.range n).map fun j => Config.freeByte (i + j)

/-- The hall slot of the present hall time (02). -/
def hallSlot (s : State) : Nat := s.tim.hall / 64

/-- Hall time and the model's own clock advance by some nanoseconds, and PPS_OUT falls when its pulse is over (log 1; 16
R396). -/
def tick (s : State) (d : Nat) : State :=
  { s with
    tim := { s.tim with now := s.tim.now + d, hall := s.tim.hall + d }
    pwr := { s.pwr with ppsOut := s.pwr.ppsOut && s.tim.hall + d < s.pwr.ppsFalls } }

/-- The node idles for one nanosecond (log 1). -/
def idle (s : State) : State := tick s 1

/-! ### The NPA map -/

/-- Where an NPA lies, Table 01.4. -/
inductive Place where
  | mem (stack addr : Nat)
  | cellar (stack addr : Nat)
  | block (region block off : Nat)
  | rstore (region off : Nat)
  | reg (off : Nat)
  | host (off : Nat)
  | remote (off : Nat)
  | blockHole (region block : Nat)
  | unmapped
deriving DecidableEq, Repr

/-- The cellar size of R213 in bytes per stack. -/
def cellarBytes (s : State) : Nat := s.ncr.cellarGib * 2 ^ 30

/-- The bytes of a stack below the cellar (R180). -/
def stackBytes (s : State) : Nat := (64 - s.ncr.cellarGib) * 2 ^ 30

/-- The region window's map, R179: region `n`, offset `o`. -/
def windowMap (n o : Nat) : Nat × Nat :=
  let u := o >>> 16
  (3 * n + u % 3, (u / 3) <<< 16 + o % 65536)

/-- The alias's map, R179: offset `o`. -/
def aliasMap (o : Nat) : Nat × Nat :=
  let g := o >>> 12
  let q := g / 12
  ((g % 12 + q % 12) % 12, q <<< 12 + o % 4096)

/-- Where an NPA lies, Table 01.4 with the cellar size `c` in GiB and R36's holes. -/
def placeOf (c npa : Nat) : Place :=
  let win := 3 * (64 - c) * 2 ^ 30
  if npa < 0x100_0000_0000 then
    let n := npa >>> 38
    let o := npa % 2 ^ 38
    if o < win then .mem (windowMap n o).1 (windowMap n o).2 else .unmapped
  else if npa < 0x1C0_0000_0000 then
    let o := npa - 0x100_0000_0000
    if o < 4 * win then .mem (aliasMap o).1 (aliasMap o).2 else .unmapped
  else if npa < 0x200_0000_0000 then .unmapped
  else if npa < 0x201_0000_0000 then
    let k := (npa - 0x200_0000_0000) >>> 24
    let o := npa % 2 ^ 24
    -- slots 32 to 63 of a region name no logical block (R24)
    if 32 ≤ k % 64 then .unmapped
    else if o < 2 ^ 22 then .block (k / 64) (k % 64) o else .blockHole (k / 64) (k % 64)
  else if npa < 0x201_1000_0000 then
    .rstore ((npa - 0x201_0000_0000) >>> 26) (npa % 2 ^ 26)
  else if npa < 0x280_0000_0000 then .unmapped
  else if npa < 0x2E0_0000_0000 then
    let st := (npa - 0x280_0000_0000) >>> 35
    let o := npa % 2 ^ 35
    if o < c * 2 ^ 30 then .cellar st ((64 - c) * 2 ^ 30 + o) else .unmapped
  else if npa < 0x300_0000_0000 then .unmapped
  else if npa < 0x300_0200_0000 then .reg (npa - 0x300_0000_0000)
  else if npa < 0x400_0000_0000 then .unmapped
  else if npa < 0x800_0000_0000 then .host (npa - 0x400_0000_0000)
  else if npa < 0x80_0000_0000_0000 then .unmapped
  else if npa < 0x81_0000_0000_0000 then .remote (npa - 0x80_0000_0000_0000)
  else .unmapped

/-- Where an NPA lies in this node. -/
def place (s : State) (npa : Nat) : Place := placeOf s.ncr.cellarGib npa

/-- The physical byte key of a place that is memory or a store. -/
def Place.key : Place → Option Nat
  | .mem st a | .cellar st a => some (st <<< 36 + a)
  | .block r b o => some (0x200_0000_0000 + (r * 64 + b) <<< 24 + o)
  | .rstore r o => some (0x201_0000_0000 + r <<< 26 + o)
  | _ => none

/-- The base NPA of a block's store, Table 01.4. -/
def storeBase (b : Blk) : Nat := 0x200_0000_0000 + b.key <<< 24

/-- The region-window NPA of a stack address (the inverse of R179). -/
def windowNpa (st a : Nat) : Nat :=
  let u := 3 * (a >>> 16) + st % 3
  (st / 3) <<< 38 + u <<< 16 + a % 65536

/-- The alias NPA of a stack address (the inverse of R179). -/
def aliasNpa (st a : Nat) : Nat :=
  let q := a >>> 12
  let r := (st + 12 - q % 12) % 12
  0x100_0000_0000 + (12 * q + r) <<< 12 + a % 4096

/-- The cellar NPA of a stack address at or above the cellar's base (R180). -/
def cellarNpa (c st a : Nat) : Nat := 0x280_0000_0000 + st <<< 35 + (a - (64 - c) * 2 ^ 30)

/-- The NPAs that name a physical key. -/
def npasOf (c key : Nat) : List Nat :=
  if key < 12 <<< 36 then
    let st := key >>> 36
    let a := key % 2 ^ 36
    if a < (64 - c) * 2 ^ 30 then [windowNpa st a, aliasNpa st a] else [cellarNpa c st a]
  else [key]

/-! ### Stack addresses (R178) -/

/-- The channel of a stack address. -/
def chanOf (a : Nat) : Nat := nfld a 8 5 ^^^ nfld a 21 5

/-- The bank of a stack address. -/
def bankOf (a : Nat) : Nat := nfld a 15 6 ^^^ nfld a 26 6

/-- The row of a stack address. -/
def rowOf (a : Nat) : Nat := nfld a 21 15

/-- The line of the 1 KiB row. -/
def lineInRow (a : Nat) : Nat := nfld a 13 2 * 4 + nfld a 6 2

/-! ### Bytes of memory, stores and the host aperture -/

/-- The byte at a physical key; an unlisted byte reads zero (log 6). -/
def rdKey (s : State) (k : Nat) : Byte := SMap.get 0 s.mem k

/-- The state with the byte at a physical key set. -/
def wrKey (s : State) (k : Nat) (v : Byte) : State := { s with mem := SMap.set 0 s.mem k v }

/-- The byte of host memory at a host physical address (log 11). -/
def rdHost (s : State) (a : Nat) : Byte := SMap.get 0 s.host.mem a

/-- The state with a byte of host memory set. -/
def wrHost (s : State) (a : Nat) (v : Byte) : State :=
  { s with host := { s.host with mem := SMap.set 0 s.host.mem a v } }

/-- `n` bytes of host memory. -/
def rdHostN (s : State) (a n : Nat) : List Byte := (List.range n).map fun i => rdHost s (a + i)

/-- The state with bytes of host memory written. -/
def wrHostN (s : State) (a : Nat) : List Byte → State
  | [] => s
  | b :: bs => wrHostN (wrHost s a b) (a + 1) bs

/-- The lines that the 4 MiB device cache of CXL holds (13 Table 13.1). -/
def cacheLines : Nat := 65536

/-- The device cache of CXL holds a line of host memory from now on; when it is full, the line that came first makes room
(13 Table 13.1; log 58). -/
def cacheLine (s : State) (hpa : Nat) : State :=
  let l := hpa / 64
  if l ∈ s.host.cache then s
  else
    let kept := if s.host.cache.length < cacheLines then s.host.cache else s.host.cache.drop 1
    { s with host := { s.host with cache := kept ++ [l] } }

/-- An NPA lies in the host aperture. -/
def inHost (s : State) (npa : Nat) : Bool :=
  match place s npa with
  | .host _ => true
  | _ => false

/-- The device cache takes in the lines of a run that lies in the host aperture (08 R216, 13 R322). -/
def cacheRun (s : State) (npa n : Nat) : State :=
  match place s npa with
  | .host o => (List.range ((o + n + 63) / 64 - o / 64)).foldl (fun t i => cacheLine t (o + 64 * i)) s
  | _ => s

/-- The byte at an NPA of memory, a store or the host aperture; zero elsewhere. -/
def rd (s : State) (npa : Nat) : Byte :=
  match place s npa with
  | .host o => rdHost s o
  | p => match p.key with
    | some k => rdKey s k
    | none => 0

/-- `n` bytes from an NPA on. -/
def rdN (s : State) (npa n : Nat) : List Byte := (List.range n).map fun i => rd s (npa + i)

/-- The little-endian word of `n` bytes at an NPA. -/
def rdW (s : State) (npa n : Nat) : Nat := leNat (rdN s npa n)

/-- One byte written at an NPA, with nothing else. -/
def wrRaw (s : State) (npa : Nat) (v : Byte) : State :=
  match place s npa with
  | .host o => wrHost s o v
  | p => match p.key with
    | some k => wrKey s k v
    | none => s

/-- Bytes written from an NPA on, with nothing else. -/
def wrRawN (s : State) (npa : Nat) : List Byte → State
  | [] => s
  | b :: bs => wrRawN (wrRaw s npa b) (npa + 1) bs

/-- The line keys of `n` bytes from an NPA on. -/
def linesOf (s : State) (npa n : Nat) : List Nat :=
  ((List.range (cdiv (npa % 64 + n) 64)).filterMap fun i =>
    (place s (npa - npa % 64 + 64 * i)).key.map (· / 64))

/-- LR reservations on lines are lost to a write by any other requester (R274). -/
def dropResv (s : State) (lines : List Nat) (writer : Option (BitVec 6)) : State :=
  { s with harts := s.harts.mapV {} fun h t =>
      match t.resv with
      | some l => if l ∈ lines ∧ writer.map BitVec.toNat ≠ some h then { t with resv := none } else t
      | none => t }

/-- The line faults of lines that have been written are gone: the line is encoded afresh (R187, R406). -/
def clearFaults (s : State) (lines : List Nat) : State :=
  { s with lineFault := s.lineFault.filter fun e => e.1 ∉ lines }

/-! ### Decoding lines (R181 to R183, R22, R27, R295) -/

/-- What a reader of a line gets. A line whose check mismatches has first been decoded: `lanes` names what was
corrected in it. -/
inductive LineRead where
  | good
  | corrected (lanes : List Nat)
  | uncorr
  | addrErr
  | badCheck (lanes : Option (List Nat))
deriving DecidableEq, Repr

/-- The lane of a codeword position 0 to 79 (R181). -/
def laneOfPos (p : Nat) : Nat := if p < 12 then p + 68 else p - 12

/-- The 64 plain bytes of a stack line, as the memory-side die's units see them (R205). -/
def plainLine (s : State) (line : Nat) : List Byte := (List.range 64).map fun i => rdKey s (line * 64 + i)

/-- The word that a stack holds for a line, by codeword position: the codeword of its ciphertext, masked check and
address (R181, R205), with the line's symbol errors; a stored check that mismatches is another than the line's, here its
complement (log 15). A die that has not drawn its keys has none to encrypt under: both zero (log 53). -/
def storedWord (s : State) (line : Nat) : List Byte :=
  let st := line >>> 30
  let f := SMap.get {} s.lineFault line
  let pt := plainLine s line
  let check := if f.badCheck then ~~~ crc32c pt else crc32c pt
  withErrors (codeword ((s.stack st).keys.getD 0) st (line * 64 % 2 ^ 36) pt check) f.syms

/-- The decode of a stack line with `marks` lanes erased: Table 07.3. Corrects ⌊(12 − e) / 2⌋ errors besides e
erasures. A codeword has no syndrome of its own, so what the decoder locates are the stored word's errors. -/
def decodeSyms (marks : List Nat) (syms : List (Nat × Byte)) : LineRead :=
  let errs := syms.filter fun e => e.2 != 0 && !(e.1 < 80 && laneOfPos e.1 ∈ marks)
  let erased := syms.filter fun e => e.2 != 0 && e.1 < 80 && laneOfPos e.1 ∈ marks
  if errs.length > (12 - marks.length) / 2 then .uncorr
  else if errs.any fun e => 80 ≤ e.1 then .addrErr
  else if errs.isEmpty && erased.isEmpty then .good
  else .corrected (errs.map fun e => laneOfPos e.1)

/-- The decode of a line by its key, for a reader of its lower, its upper or both 256-bit words: a stack decodes whole
lines; a store decodes the words that are read (R22). -/
def decodeLine (s : State) (line : Nat) (n0 n1 : Bool) : LineRead :=
  let f := SMap.get {} s.lineFault line
  let key := line * 64
  let r :=
    if key < 12 <<< 36 then
      decodeSyms ((s.stack (key >>> 36)).chan (chanOf (key % 2 ^ 36))).marks f.syms
    else if (n0 && f.w0 == .double) || (n1 && f.w1 == .double) then .uncorr
    else if (n0 && f.w0 == .single) || (n1 && f.w1 == .single) then .corrected []
    else .good
  match r with
  | .good => if f.badCheck then .badCheck none else .good
  | .corrected l => if f.badCheck then .badCheck (some l) else .corrected l
  | x => x

/-! ### Interrupts to the host (R328) -/

/-- A cause bit is set; unmasked and newly set, its MSI-X vector is sent (R328). -/
def raise (s : State) (i : Nat) : State :=
  let h := s.host
  let was := h.cause.toNat.testBit i
  let masked := h.mask.toNat.testBit i
  let bit := BitVec.ofNat 8 (2 ^ i)
  { s with host := { h with cause := h.cause ||| bit,
                            msix := if !was && !masked then h.msix ++ [i] else h.msix,
                            msixPend := if !was && masked then h.msixPend ||| bit else h.msixPend } }

/-! ### Error records (R285 to R288) -/

/-- The number, level, severity and record status of a code, Table 11.4. -/
def ErrCode.info : ErrCode → Nat × Nat × Sev
  | .residueRetry => (0x0101, 0, .C) | .columnRetire => (0x0102, 0, .C) | .storeCorr => (0x0103, 1, .C)
  | .storeUncorr => (0x0104, 1, .D) | .cmdRefused => (0x0105, 1, .D) | .cmdFailed => (0x0106, 1, .D)
  | .tagMismatch => (0x0107, 1, .D) | .blockRetire => (0x0108, 1, .F1) | .maskedUncorr => (0x0109, 1, .C)
  | .creditClamp => (0x010A, 1, .C) | .memCorr => (0x0201, 2, .C) | .memUncorr => (0x0202, 2, .D)
  | .memAddr => (0x0203, 2, .D) | .laneMark => (0x0204, 2, .C) | .chanAtRisk => (0x0205, 2, .C)
  | .rakeUncorr => (0x0206, 2, .C) | .rowRepair => (0x0207, 2, .C) | .meshReplay => (0x0208, 2, .C)
  | .meshDown => (0x0209, 2, .F2) | .stackFailed => (0x020A, 2, .F2) | .rstoreCorr => (0x020B, 2, .C)
  | .rstoreUncorr => (0x020C, 2, .D) | .uzlReplay => (0x0301, 3, .C) | .uzlDown => (0x0302, 3, .F3)
  | .jobHeld => (0x0303, 3, .D) | .pleachDiverge => (0x0304, 3, .F3) | .peerSilent => (0x0401, 3, .D)
  | .peerFail => (0x0402, 3, .D) | .quarantine => (0x0403, 3, .C) | .windowReject => (0x0404, 3, .C)
  | .timeServiceLost => (0x0405, 3, .C) | .timeTakeover => (0x0406, 3, .C) | .launchNocommit => (0x0407, 3, .D)
  | .portDown => (0x0408, 3, .C) | .cxlProtocol => (0x0501, 3, .C) | .leaseExpired => (0x0502, 3, .C)
  | .hostPoisonSent => (0x0503, 3, .C) | .mbxRefused => (0x0504, 3, .C) | .wdgRestart => (0x0601, 3, .C)
  | .fwStepTimeout => (0x0602, 3, .D) | .throttle => (0x0603, 3, .C) | .limitTrip => (0x0604, 3, .F3)
  | .tamper => (0x0605, 3, .F3) | .supplyOrder => (0x0606, 3, .F3) | .fcoCache => (0x0701, 1, .C)
  | .fcoAccess => (0x0702, 1, .D) | .fcoCoreHalt => (0x0703, 1, .F1)

/-- The number of a severity, Table 11.1. -/
def Sev.num : Sev → Nat
  | .C => 0 | .D => 1 | .F1 => 2 | .F2 => 3 | .F3 => 4

/-- The worse of two severities. -/
def Sev.worse (a b : Sev) : Sev := if a.num < b.num then b else a

/-- The 64 bytes of an error record, Table 11.2. -/
def ErrRec.bytes (r : ErrRec) : List Byte :=
  leBytes 1 r.sev.num ++ leBytes 1 r.level ++ leBytes 2 (r.unitKind % 64 + (r.unit % 1024) <<< 6) ++
  leBytes 2 r.code.info.1 ++ leBytes 1 r.status.code ++ leBytes 1 (bn r.lost) ++
  leBytes 8 (match r.npa with | some n => n % 2 ^ 56 + 2 ^ 63 | none => 0) ++
  leBytes 8 r.hall ++ leBytes 4 r.count ++ leBytes 4 r.seq ++ slice r.detail 0 32

/-- The log's capacity and the entries kept for D and above (R288). -/
def logCap : Nat := 4096

/-- The first record of a list that meets a test, taken out. -/
def dropFirst {α : Type} (p : α → Bool) : List α → List α
  | [] => []
  | a :: l => if p a then l else a :: dropFirst p l

/-- The oldest C record dropped: a delivered one first (R288). -/
def dropC (l : List (ErrRec × Bool)) : List (ErrRec × Bool) :=
  if l.any fun e => e.1.sev == .C && e.2 then dropFirst (fun e => e.1.sev == .C && e.2) l
  else dropFirst (fun e => e.1.sev == .C) l

/-- Room made in a full log, and the drops that this took: a C record, then a record of D or above; one of those that
the host has had gives up its entry and is no drop, since R288 drops only undelivered ones. -/
def makeRoom (l : List (ErrRec × Bool)) : List (ErrRec × Bool) × Nat :=
  if l.length < logCap then (l, 0)
  else if l.any fun e => e.1.sev == .C then (dropC l, 1)
  else if l.any fun e => e.2 then (dropFirst (fun e => e.2) l, 0)
  else (l.drop 1, 1)

/-- C records beyond the entries that are not reserved for D and above: one of them goes (R288). -/
def trimC (l : List (ErrRec × Bool)) (r : ErrRec) : List (ErrRec × Bool) × Nat :=
  if r.sev == .C && logCap - 512 ≤ (l.filter fun e => e.1.sev == .C).length then (dropC l, 1) else makeRoom l

/-- A record enters the node log with the next record_seq (R286, R288). -/
def pushRec (s : State) (r : ErrRec) : State :=
  let e := s.err
  let (l, n) := trimC e.log r
  let r' := { r with seq := e.seq, lost := e.lostNext }
  { s with err := { e with log := l ++ [(r', false)], seq := e.seq + 1, lostNext := n != 0,
                           cntLost := min 255 (e.cntLost + n) } }

/-- Everything a record says that its code does not fix. -/
structure EvArgs where
  unitKind : Nat := 1
  unit : Nat := 0
  status : Status := .ok
  npa : Option Nat := none
  detail : List Byte := []
deriving DecidableEq, Repr

/-- The record of an event now. -/
def mkRec (s : State) (c : ErrCode) (sev : Sev) (a : EvArgs) : ErrRec :=
  { sev := sev, level := c.info.2.1, unitKind := a.unitKind, unit := a.unit, code := c, status := a.status,
    lost := false, npa := a.npa, hall := stamp s, count := 1, seq := s.err.seq, detail := slice a.detail 0 32 }

/-- NODE_ERR_CNT counts an event of a severity, saturating (11). -/
def countSev (e : Errs) : Sev → Errs
  | .C => { e with cntC := min (2 ^ 24 - 1) (e.cntC + 1) }
  | .D => { e with cntD := min (2 ^ 16 - 1) (e.cntD + 1) }
  | .F1 => { e with cntF1 := min 255 (e.cntF1 + 1) }
  | .F2 => { e with cntF2 := min 255 (e.cntF2 + 1) }
  | .F3 => e

/-- The hold's worst severity takes in an event (NODE_HOLD.worst). -/
def worsen (s : State) (v : Sev) : State :=
  if s.hold.state = .run then s
  else { s with hold := { s.hold with worst := s.hold.worst.worse v, fatal := s.hold.fatal || v == .F1 || v == .F2 } }

/-- An event is counted and recorded, C events coalesced for one second by code and unit (R288). -/
def recordSev (s : State) (c : ErrCode) (sev : Sev) (a : EvArgs) : State :=
  let r := mkRec s c sev a
  let s0 := worsen (drew { s with err := countSev s.err sev }) sev
  if sev = .C then
    match s.err.coal.find? fun w => w.code == c && w.unitKind == a.unitKind && w.unit == a.unit with
    | some w =>
      { s0 with err := { s0.err with coal := s0.err.coal.map fun x =>
          if x == w then { x with count := x.count + 1, last := r } else x } }
    | none =>
      let s1 := pushRec s0 r
      { s1 with err := { s1.err with coal := s1.err.coal ++
          [{ code := c, unitKind := a.unitKind, unit := a.unit, ends := s.tim.now + 1000000000, count := 0,
             last := r }] } }
  else pushRec s0 r

/-- An event with its code's severity. -/
def record (s : State) (c : ErrCode) (a : EvArgs) : State := recordSev s c c.info.2.2 a

/-- Detail layout A (Table 11.3). -/
def detailA (b : Blk) (q : Qc) (st : Status) (idx label gen : Nat) (loops : List Nat) (stack ch : Nat) : List Byte :=
  leBytes 1 q.code ++ leBytes 1 b.region.toNat ++ leBytes 1 b.block.toNat ++ leBytes 1 st.code ++ leBytes 4 idx ++
  leBytes 2 (label % 1024) ++ leBytes 1 gen ++ leBytes 1 0 ++
  (List.range 4).flatMap (fun i => leBytes 4 (loops.getD i 0)) ++ leBytes 1 stack ++ leBytes 1 ch ++ [0, 0]

/-- The physical block that serves a logical block (R24, RGN_SUBST). -/
def physOf (s : State) (n b : Nat) : Nat :=
  let r := s.region n
  if r.sub0.valid && r.sub0.logical.toNat == b then r.sub0.physical.toNat
  else if r.sub1.valid && r.sub1.logical.toNat == b then r.sub1.physical.toNat
  else b

/-- Detail layout B (Table 11.3): bank and word index as the number of the 32-byte word in the store. -/
def detailB (region phys col row word : Nat) : List Byte :=
  leBytes 1 region ++ leBytes 1 phys ++ leBytes 1 col ++ leBytes 1 row ++ leBytes 4 word

/-- Detail layout B for a store line by its key. -/
def detailStore (s : State) (key : Nat) : List Byte :=
  if key < 0x201_0000_0000 then
    let k := (key - 0x200_0000_0000) >>> 24
    detailB (k / 64) (physOf s (k / 64) (k % 64)) 0 0 (key % 2 ^ 24 / 32)
  else detailB ((key - 0x201_0000_0000) >>> 26) 0xFF 0 0 (key % 2 ^ 26 / 32)

/-- Detail layout C (Table 11.3) for a stack line: its lane, the syndromes of the word that was read, and the
corrections in its channel's window. -/
def detailC (st a lane : Nat) (word : List Byte) (corrections : Nat) : List Byte :=
  leBytes 1 st ++ leBytes 1 (chanOf a) ++ leBytes 1 (bankOf a) ++ leBytes 1 lane ++ leBytes 4 (rowOf a) ++
  syndromes word ++ leBytes 4 corrections

/-- The lines decoded so far on a channel (R183). -/
def decodedOn (s : State) (st ch : Nat) : Nat := s.decoded.get 0 (32 * st + ch)

/-- A line of a stack is counted among those decoded on its channel (R183). -/
def bumpDecoded (m : SMap Nat) (line : Nat) : SMap Nat :=
  if line < 12 <<< 30 then
    let k := 32 * (line >>> 30) + chanOf (line * 64 % 2 ^ 36)
    m.set 0 k (m.get 0 k + 1)
  else m

/-- The entries of a channel's window that lie among the last 256 lines of its count (R183). -/
def inWindow (n : Nat) (w : List (Nat × List Nat)) : List (Nat × List Nat) := w.filter fun e => n < e.1 + 256

/-- Detail layout D (Table 11.3). -/
def detailD (port reason hedge src dst seq : Nat) (counts : List Nat) : List Byte :=
  leBytes 1 port ++ leBytes 1 reason ++ leBytes 2 hedge ++ leBytes 4 src ++ leBytes 4 dst ++ leBytes 4 seq ++
  (List.range 8).flatMap fun i => leBytes 2 (counts.getD i 0)

/-- Detail layout E (Table 11.3). -/
def detailE (hdr : List Byte) (aer kind : Nat) : List Byte := slice hdr 0 16 ++ leBytes 1 aer ++ leBytes 1 kind

/-- Detail layout F (Table 11.3). -/
def detailF (proc cause value : Nat) : List Byte :=
  leBytes 1 proc ++ leBytes 1 cause ++ leBytes 2 0 ++ leBytes 8 value

/-! ### In-band interrupts (R387) and log entries (R331) -/

/-- An I3C in-band interrupt with one data byte. -/
def ibi (s : State) (v : Byte) : State := { s with host := { s.host with ibi := s.host.ibi ++ [v] } }

/-- A log entry waits for the log ring; beyond 4 096 the newest is dropped and lost is set in the next (R331). -/
def logEntry (s : State) (source kind code : Nat) (data : List Byte) : State :=
  let h := s.host
  if 4096 ≤ h.logq.length then { s with host := { h with logLost := true } }
  else
    drew { s with host := { h with logLost := false, logSeq := h.logSeq + 1, logq := h.logq ++
      [{ source := source, kind := kind + (if h.logLost then 128 else 0), code := code, seq := h.logSeq,
         hall := stamp s, data := slice data 0 16 }] } }

/-- A trace point makes an entry only while its mask bit is 1 (R331). -/
def tracePoint (s : State) (t source : Nat) (data : List Byte) : State :=
  if (s.host.trace.get 0 (t / 64)).toNat.testBit (t % 64) then logEntry s source 1 t data else s

/-- The trace point of the hardware for a kind of event: 0 a time-unit state, 1 a plan switch, 2 a quarantine, 3 a hold
transition. Which point of 192 to 255 it is, and what its entry holds, are the firmware's release notes' to say (Tables
13.5 and 13.6): uninterpreted, and free (log 73). -/
def traceHw (s : State) (kind : Nat) : State :=
  if s.host.trace.isEmpty then s else tracePoint s (192 + Config.tracePoint kind % 64) 0xFF (entropy s.free 16)

/-! ### Reading lines: counts, records, marks, and the first fault -/

/-- A lane of a channel is marked dead; a fifth sets at_risk (R183). -/
def markLane (s : State) (st ch lane : Nat) : State :=
  let k := s.stack st
  let c := k.chan ch
  if lane ∈ c.marks then s
  else if c.marks.length < 4 then
    record (s.setStack st (k.setChan ch { c with marks := c.marks ++ [lane] })) .laneMark
      { unitKind := 4, unit := st, detail := leBytes 1 st ++ leBytes 1 ch ++ leBytes 1 0 ++ leBytes 1 lane }
  else if c.atRisk then s
  else
    record (s.setStack st (k.setChan ch { c with atRisk := true })) .chanAtRisk
      { unitKind := 4, unit := st, detail := leBytes 1 st ++ leBytes 1 ch ++ leBytes 1 0 ++ leBytes 1 lane }

/-- A corrected line, the last counted on its channel, enters the channel's window of 256 decoded lines; a lane corrected
in 8 of them is marked (R183). -/
def noteLanes (s : State) (st ch : Nat) (lanes : List Nat) : State :=
  let k := s.stack st
  let c := k.chan ch
  let n := decodedOn s st ch
  let w := (n, lanes) :: inWindow n c.window
  let c' := { c with window := w, perLane := lanes.foldl (fun m l => m.set 0 l (m.get 0 l + 1)) c.perLane }
  lanes.foldl (fun t l => if 8 ≤ (w.filter fun x => x.2.contains l).length then markLane t st ch l else t)
    (s.setStack st (k.setChan ch c'))

/-! ### Repair candidates (R209) -/

/-- Entries of the retained store in use, of 1 024. -/
def storeUsed (s : State) : Nat :=
  s.sec.candidates.length + s.sec.awaitBurn.length + s.sec.awaitLanes.length + s.sec.rakeHist.length

/-- A row becomes a candidate; one that finds the store full is logged with ROW_REPAIR and not listed. -/
def addCandidate (s : State) (st : Nat) (r : RowRepair) : State :=
  if s.sec.candidates.any fun e => e == (st, r) then s
  else if 1024 ≤ storeUsed s then
    record s .rowRepair { unitKind := 4, unit := st, detail := leBytes 1 st ++ leBytes 1 r.channel ++ leBytes 1 r.bank ++ leBytes 1 0xFF ++ leBytes 4 r.row }
  else { s with sec := { s.sec with candidates := s.sec.candidates ++ [(st, r)] } }

/-- The row of a stack address, as a repair names it. -/
def rowAt (a : Nat) : RowRepair := { channel := chanOf a, bank := bankOf a, row := rowOf a, hard := false }

/-! ### Lines read -/

/-- A correction of a stack line is counted, noted and recorded (R182, R183). -/
def corrected (s : State) (line : Nat) (lanes : List Nat) : State :=
  let st := line >>> 30
  let a := line * 64 % 2 ^ 36
  let ch := chanOf a
  let k := s.stack st
  let c := k.chan ch
  let k1 := { (k.setChan ch { c with corrected := c.corrected + 1 }) with
              corrected := satAdd k.corrected 1, dayCorrected := k.dayCorrected + 1 }
  record (noteLanes (s.setStack st k1) st ch lanes) .memCorr
    { unitKind := 4, unit := st, npa := some ((npasOf s.ncr.cellarGib (line * 64)).headD (line * 64))
      detail := detailC st a (lanes.headD 0xFF) (storedWord s line) (inWindow (decodedOn s st ch) c.window).length }

/-- A store corrects words of a line in place and records it (R22, R27). -/
def storeCorrected (s : State) (line : Nat) (n0 n1 : Bool) : State :=
  let key := line * 64
  let store := key < 0x201_0000_0000
  let f := SMap.get {} s.lineFault line
  let g : LineFault := { f with w0 := if n0 && f.w0 == .single then .good else f.w0,
                                w1 := if n1 && f.w1 == .single then .good else f.w1 }
  let s1 := { s with lineFault := SMap.set {} s.lineFault line g }
  record s1 (if store then .storeCorr else .rstoreCorr)
    { unitKind := 2, unit := if store then nfld key 24 8 else nfld key 26 2
      npa := some ((npasOf s.ncr.cellarGib key).headD key), detail := detailStore s key }

/-- What reading one line, or one word of a store line, does to counters and records, and the status it gives; a line
that is corrected and then fails its check counts as both (R182, R22, R27, R209, R295). -/
def touchLine (s : State) (line : Nat) (n0 n1 : Bool) : State × Option (Status × ErrCode × Nat) :=
  let key := line * 64
  let npa := (npasOf s.ncr.cellarGib key).headD key
  if key < 12 <<< 36 then
    let st := key >>> 36
    let a := key % 2 ^ 36
    let ch := chanOf a
    let k := s.stack st
    match decodeLine s line n0 n1 with
    | .good => (s, none)
    | .corrected lanes => (corrected s line lanes, none)
    | .uncorr =>
      let c := k.chan ch
      (addCandidate (s.setStack st { (k.setChan ch { c with uncorr := c.uncorr + 1 }) with uncorr := satAdd k.uncorr 1 })
        st (rowAt a), some (.uncorr, .memUncorr, npa))
    | .addrErr =>
      let c := k.chan ch
      (addCandidate (s.setStack st { (k.setChan ch { c with addrErr := c.addrErr + 1 }) with addrErr := satAdd k.addrErr 1 })
        st (rowAt a), some (.uncorr, .memAddr, npa))
    | .badCheck none => (s, some (.check, .cmdFailed, npa))
    | .badCheck (some lanes) => (corrected s line lanes, some (.check, .cmdFailed, npa))
  else
    let store := key < 0x201_0000_0000
    match decodeLine s line n0 n1 with
    | .good => (s, none)
    | .corrected _ => (storeCorrected s line n0 n1, none)
    | .badCheck none => (s, some (.check, .cmdFailed, npa))
    | .badCheck (some _) => (storeCorrected s line n0 n1, some (.check, .cmdFailed, npa))
    | _ => (s, some (.uncorr, if store then .storeUncorr else .rstoreUncorr, npa))

/-- A run of bytes by NPA. -/
structure Run where
  npa : Nat
  len : Nat
deriving DecidableEq, Repr

/-- Whether `n` bytes of a line from its byte `o`, by any of its NPAs, meet one of the runs. -/
def runsMeet (c : Nat) (runs : List Run) (line o n : Nat) : Bool :=
  (npasOf c (line * 64)).any fun a => runs.any fun r => r.len != 0 && a + o < r.npa + r.len && r.npa < a + o + n

/-- A list without the entries that equal the one before them. -/
def dedupNext : List Nat → List Nat
  | a :: b :: l => if a = b then dedupNext (b :: l) else a :: dedupNext (b :: l)
  | l => l

/-- The lines that reading runs of bytes decodes, in order: the neighbours within one line are read together. -/
def runLines (s : State) (runs : List Run) : List Nat := dedupNext (runs.flatMap fun r => linesOf s r.npa r.len)

/-- The state after lines of runs have been decoded, every one without error (R183). -/
def countReads (s : State) (runs : List Run) : State :=
  { s with decoded := (runLines s runs).foldl bumpDecoded s.decoded }

/-- One more line of a reading: it is counted, and, faulty and not met before in this reading, met. -/
def touchStep (runs : List Run) (acc : State × List Nat × Option (Status × ErrCode × Nat)) (line : Nat) :
    State × List Nat × Option (Status × ErrCode × Nat) :=
  match acc with
  | (s, seen, some e) => (s, seen, some e)
  | (s, seen, none) =>
    let s1 := { s with decoded := bumpDecoded s.decoded line }
    if seen.contains line || (SMap.get {} s.lineFault line == {}) then (s1, seen, none)
    else
      let c := s.ncr.cellarGib
      let (s2, e) := touchLine s1 line (runsMeet c runs line 0 32) (runsMeet c runs line 32 32)
      (s2, line :: seen, e)

/-- Reading runs of bytes: their lines are decoded in order, a faulty line or word among them is met once; the first
fault is the reader's, and ends the reading. -/
def touch (s : State) (runs : List Run) : State × Option (Status × ErrCode × Nat) :=
  if s.lineFault.isEmpty then (countReads s runs, none)
  else
    let (t, _, e) := (runLines s runs).foldl (touchStep runs) (s, [], none)
    (t, e)

/-- The runs of a write that do not cover their first or last line whole: the lines that must be read and merged
(R187, R406). -/
def partialRuns (runs : List Run) : List Run :=
  runs.flatMap fun r =>
    if r.len = 0 then []
    else
      let first := r.npa - r.npa % 64
      let e := r.npa + r.len
      let last := e - e % 64
      (if r.npa % 64 != 0 || e < first + 64 then [⟨first, 64⟩] else []) ++
      (if e % 64 != 0 && last != first then [⟨last, 64⟩] else [])

/-! ### The background copy of a checkpoint (R303, R309) -/

/-- The lines of node memory that the state set covers, by stack: stack addresses of 64-byte lines in entry order, and
in rising address within each entry, packed under R303. -/
def packedLines (s : State) (st : Nat) : List Nat :=
  match s.job.image.bind Image.stateset with
  | none => []
  | some ss => ss.entries.flatMap fun e =>
      match (s.job.image.map Image.bufs |>.getD []).find? fun b => b.id == e.buffer with
      | none => []
      | some b =>
        let addrs := (List.range (e.length / 64)).filterMap fun i =>
          match place s (b.base + e.offset + 64 * i) with
          | .mem t a => if t = st then some a else none
          | _ => none
        addrs.mergeSort

/-- The bytes of a cellar quarter, R303. -/
def quarterBytes (s : State) : Nat := cellarBytes s / 4

/-- Where shard data begins in a quarter of a stack: after the 64 MiB node-state area of stack 0 (R303). -/
def dataBase (st : Nat) : Nat := if st = 0 then 64 * 2 ^ 20 else 0

/-- The physical key of byte `o` of quarter `i` (0, 1 own; 2, 3 held) of a stack's cellar (Table 12.2). -/
def quarterKey (s : State) (st i o : Nat) : Nat := st <<< 36 + stackBytes s + i * quarterBytes s + o

/-- One 64-byte line copied between physical keys. -/
def copyLine (s : State) (src dst : Nat) : State :=
  (List.range 64).foldl (fun t i => wrKey t (dst + i) (rdKey s (src + i))) s

/-- The node's checkpoint fails (R311): every granule still pending is released without copying, and for R308 the
checkpoint counts as complete and mirrored; the host hears of it (13 HRW_INT_CAUSE). -/
def failCkpt (s : State) : State :=
  let n := s.ckpt.n
  raise { s with
    stk := s.stk.mapV {} fun _ k => { k with ckPending := [] }
    ckpt := { s.ckpt with state := .failed, doneN := max s.ckpt.doneN n, mirroredN := max s.ckpt.mirroredN n } } 6

/-- A granule of a stack copied into own[g], and its mark moved from pending to done (R309). Its lines are decoded as
any reader's are (R182); a line that is uncorrectable or whose check mismatches fails the checkpoint (R311). -/
def copyGranule (s : State) (st gran : Nat) : State :=
  let g := bn s.ckpt.gen
  let ls := (packedLines s st).zipIdx.filter fun e => e.1 >>> 21 == gran
  match touch s (ls.map fun e => ⟨windowNpa st e.1, 64⟩) with
  | (s0, some _) => failCkpt s0
  | (s0, none) =>
    let dst := fun (e : Nat × Nat) => quarterKey s0 st g (dataBase st + 64 * e.2)
    let s1 := ls.foldl (fun t e => copyLine t (st <<< 36 + e.1) (dst e)) (clearFaults s0 (ls.map fun e => dst e / 64))
    let k := s1.stack st
    s1.setStack st { k with ckPending := k.ckPending.filter (· != gran), ckDone := gran :: k.ckDone }

/-- A write to a granule not yet copied waits until that granule is copied first (R309); the stall is counted, its
length within R310's bound is free. -/
def stallCopy (s : State) (lines : List Nat) : State :=
  lines.foldl (fun t l =>
    let st := (l * 64) >>> 36
    let gran := (l * 64 % 2 ^ 36) >>> 21
    if l * 64 < 12 <<< 36 && gran ∈ (t.stack st).ckPending then
      let t1 := copyGranule t st gran
      let k := t1.stack st
      let ns := (Config.freeWord t1.free).toNat % 50801
      drew (t1.setStack st { k with ckStalls := satAdd k.ckStalls 1,
                                    ckMaxStall := BitVec.ofNat 16 (max k.ckMaxStall.toNat ns) })
    else t) s

/-- Bytes written at an NPA by a requester: stalled granules first, then the bytes; the lines are encoded afresh and
reservations on them are lost. -/
def wrN (s : State) (npa : Nat) (bs : List Byte) (writer : Option (BitVec 6) := none) : State :=
  let ls := linesOf s npa bs.length
  dropResv (clearFaults (wrRawN (stallCopy s ls) npa bs) ls) ls writer

/-- A little-endian word of `n` bytes written at an NPA. -/
def wrW (s : State) (npa n v : Nat) (writer : Option (BitVec 6) := none) : State := wrN s npa (leBytes n v) writer

/-- Every byte of a range of physical keys at its unlisted value again. -/
def eraseKeys (s : State) (lo hi : Nat) : State :=
  { s with mem := s.mem.filter fun e => !(lo ≤ e.1 && e.1 < hi),
           lineFault := s.lineFault.filter fun e => !(lo ≤ e.1 * 64 && e.1 * 64 < hi) }

/-! ### Halting and holding (R22, R289) -/

/-- The node moves from RUN to HOLDING at the first halt, F1 or F2 event of a running job, and notes its first cause
(R289). -/
def enterHolding (s : State) (sev : Sev) (cause : Option ErrRec) : State :=
  if s.job.phase = .running ∧ s.hold.state = .run then
    let h := { s.hold with state := .holding, byLimit := false, worst := sev, fatal := sev == .F1 || sev == .F2,
                           firstSeq := (cause.map ErrRec.seq).getD s.err.seq, firstCause := cause,
                           firstHalt := stamp s, wasReset := false }
    traceHw (raise (drew { s with hold := h }) 3) 3
  else s

/-- The newest record of the log. -/
def lastRec (s : State) : Option ErrRec := s.err.log.getLast?.map Prod.fst

/-- A queue halts with a status at a command, by its index (R22); the first halt moves the node to HOLDING (R289). -/
def haltQueue (s : State) (b : Blk) (q : Qc) (st : Status) (idx : Nat) : State :=
  enterHolding (s.updQ b q fun u => { u with state := .halt, haltStatus := st, haltIdx := idx }) .D (lastRec s)

/-- The index of a queue's oldest command not completed (R116). -/
def oldestIdx (u : Queue) : Nat := (u.inflight.head?.map InFl.pos).getD u.pc

/-- A queue halted with a status at its oldest command; one that has halted already stays as it is. -/
def Queue.halted (u : Queue) (st : Status) : Queue :=
  if u.state == .halt then u else { u with state := .halt, haltStatus := st, haltIdx := oldestIdx u }

/-- All six queues of a block halt, at END or without a program as well (R22, R27, R31). The status of a queue that no
command of its own halts is not given: the caller's (DESIGN CHOICE, log 54). -/
def haltBlock (s : State) (b : Blk) (st : Status) : State :=
  s.updBlk b fun k => Qc.all.foldl (fun k q => k.setQueue q ((k.queue q).halted st)) k

/-- A job that holds does so at its next step boundary (R23, R27). -/
def holdAtBoundary (s : State) : State :=
  if s.hold.state = .run then s else { s with hold := { s.hold with atBoundary := true } }

/-- A block is retired with severity F1: out of service at once, all its queues halted, its substitution awaited
(R22, R23, R28). The record's status is that of Table 11.4, CHECK or 0; `st` is what its other queues show, the status of
the command that brought the retirement about, which R22 does not give them (DESIGN CHOICE, log 54). -/
def retireBlock (s : State) (b : Blk) (st rec_ : Status) (a : EvArgs) : State :=
  let n := b.region.toNat
  let r := s.region n
  let bit := BitVec.ofNat 32 (2 ^ b.block.toNat)
  let s1 := s.setRegion n { r with dead := r.dead ||| bit, pending := r.pending ||| bit,
                                   retiredCount := satAdd r.retiredCount 1 }
  let s2 := record (haltBlock s1 b st) .blockRetire { a with unitKind := 2, unit := b.key, status := rec_ }
  holdAtBoundary (enterHolding s2 .F1 (lastRec s2))

/-- A D event of a block's command is counted; the fourth in one job retires the block (R22). -/
def countD (s : State) (b : Blk) (st : Status) (a : EvArgs) : State :=
  let s1 := s.updBlk b fun k => { k with dEvents := k.dEvents + 1 }
  if (s1.blk b).dEvents = 4 ∧ blockLive s1 b then retireBlock s1 b st .ok a else s1

/-- A node-fatal event (R31): every queue of the node halts, with ABORTED, which R31 does not give (DESIGN CHOICE, log
54); the ports stop sending, the crash record is written, the node is halted. In hardware mode of error-recovery policy
a self-reset follows 1 s after (SELF_RESET). -/
def nodeFatal (s : State) (c : ErrCode) (a : EvArgs) : State :=
  let s1 := record s c a
  let r := lastRec s1
  let s2 := (gradeBlocks s1).foldl (fun t b => haltBlock t b .aborted) s1
  { s2 with
    host := { s2.host with node := .halted }
    fab := { s2.fab with wire := [] }
    tim := { s2.tim with service := false }
    sec := { s2.sec with crash := r, crashValid := true }
    pwr := { s2.pwr with fatalAt := some s2.tim.hall, outageFrom := some (s2.pwr.outageFrom.getD s2.tim.hall) } }

/-- A region-fatal event (R27): every queue of the region halts, with ABORTED, which R27 does not give (DESIGN CHOICE,
log 54), and the job holds at its next step boundary. -/
def regionFatal (s : State) (n : Nat) (c : ErrCode) (a : EvArgs) : State :=
  let s1 := record (s.setRegion n { s.region n with fatal := true }) c a
  let s2 := ((gradeBlocks s1).filter fun b => b.region.toNat == n).foldl (fun t b => haltBlock t b .aborted) s1
  holdAtBoundary (enterHolding s2 .F2 (lastRec s2))

/-! ### Commands (R101) -/

/-- Header fields of a command, Table 04.4. -/
def Cmd.opcode (c : Cmd) : Nat := fld c.hdr 0 8
def Cmd.queueField (c : Cmd) : Nat := fld c.hdr 8 4
def Cmd.mark (c : Cmd) : Bool := wbit c.hdr 12
def Cmd.notify (c : Cmd) : Bool := wbit c.hdr 13
def Cmd.waitQueues (c : Cmd) : Nat := fld c.hdr 16 6
def Cmd.waitCount (c : Cmd) : Nat := fld c.hdr 22 4
def Cmd.postQueues (c : Cmd) : Nat := fld c.hdr 32 6
def Cmd.label (c : Cmd) : Nat := fld c.hdr 38 10
def Cmd.loadGen (c : Cmd) : Nat := fld c.hdr 48 8
def Cmd.tagCrc (c : Cmd) : Nat := fld c.hdr 56 8

/-- Operand word `i`, 1 to 7. -/
def Cmd.w (c : Cmd) : Nat → W64
  | 1 => c.w1 | 2 => c.w2 | 3 => c.w3 | 4 => c.w4 | 5 => c.w5 | 6 => c.w6 | 7 => c.w7
  | _ => 0

/-- The 64 bytes of a command. -/
def Cmd.bytes (c : Cmd) : List Byte :=
  leBytes 8 c.hdr.toNat ++ (List.range 7).flatMap fun i => leBytes 8 (c.w (i + 1)).toNat

/-- The tag that the loader writes (R105). -/
def Cmd.tag (c : Cmd) : Byte := crc8 (c.bytes.take 7 ++ c.bytes.drop 8)

/-- A command carries the node's load generation and its tag (R105). -/
def tagOk (s : State) (c : Cmd) : Bool := c.loadGen == s.job.loadGen.toNat && c.tagCrc == c.tag.toNat

/-- A command from 64 bytes. -/
def Cmd.ofBytes (bs : List Byte) : Cmd :=
  let w := fun i => BitVec.ofNat 64 (le bs (8 * i) 8)
  ⟨w 0, w 1, w 2, w 3, w 4, w 5, w 6, w 7⟩

/-- The stream context a command uses (08 R214). -/
def Cmd.ctx (c : Cmd) : Option Nat :=
  match c.opcode with
  | 0x40 | 0x50 => some (fld c.w4 0 4)
  | 0x41 | 0x42 | 0x43 => some 14
  | 0x51 | 0x52 | 0x54 | 0x55 | 0x56 => some 15
  | _ => none

/-- The address-register addends of a command in flight, by operand word. -/
def InFl.addend (f : InFl) (i : Nat) : W64 := f.addends.getD (i - 1) 0

/-! ### Events and completion (R99, R102, R103, R330) -/

/-- The event counter from producer p to consumer c (R102). -/
def evGet (k : Block) (p c : Nat) : Nat := k.ev.get 0 (6 * p + c)

/-- The producers whose counters a command waits on: the queues it names but its own, for which no counter exists; a
command that names its own is refused (R102, R407). -/
def waitsOn (q : Qc) (c : Cmd) : List Nat := (List.range 6).filter fun p => c.waitQueues.testBit p && p != q.code

/-- Every wait of a command is met: each named counter holds its count (R102). -/
def waitMet (k : Block) (q : Qc) (c : Cmd) : Bool :=
  c.waitCount == 0 || (waitsOn q c).all fun p => c.waitCount ≤ evGet k p q.code

/-- The wait's events are consumed, all at once (R102). -/
def consume (k : Block) (q : Qc) (c : Cmd) : Block :=
  if c.waitCount = 0 then k
  else { k with ev := (waitsOn q c).foldl (fun m p =>
      m.set 0 (6 * p + q.code) (m.get 0 (6 * p + q.code) - c.waitCount)) k.ev }

/-- A command's posts would take a counter beyond 32 bits (R103). -/
def postOver (k : Block) (q : Qc) (c : Cmd) : Bool :=
  (List.range 6).any fun i => c.postQueues.testBit i && 0xFFFF_FFFF ≤ evGet k q.code i

/-- One event posted to each named queue (R102). -/
def post (k : Block) (q : Qc) (c : Cmd) : Block :=
  { k with ev := (List.range 6).foldl (fun m i =>
      if c.postQueues.testBit i then m.set 0 (6 * q.code + i) (m.get 0 (6 * q.code + i) + 1) else m) k.ev }

/-- The oldest command in flight. -/
def headCmd (s : State) (b : Blk) (q : Qc) : Option InFl := (s.q b q).inflight.head?

/-- What an event record of a command in flight says. -/
def cmdArgs (s : State) (b : Blk) (q : Qc) (f : InFl) (st : Status) : EvArgs :=
  let (k, ch) : Nat × Nat :=
    match f.npa.map (place s) with
    | some (.mem n a) | some (.cellar n a) => (n, chanOf a)
    | _ => (0xFF, 0)
  { unitKind := 1, unit := b.key, status := st, npa := f.npa,
    detail := detailA b q st f.pos f.cmd.label f.cmd.loadGen f.loops k ch }

/-- A notify command's completion record enters the completion buffer (R330). -/
def notifyRec (s : State) (b : Blk) (q : Qc) (c : Cmd) (idx : Nat) (st : Status) : State :=
  if c.notify then
    drew { s with host := { s.host with cbuf := s.host.cbuf ++
      [{ status := st, queue := q.code, region := b.region.toNat, block := b.block.toNat, idx := idx,
         label := c.label, loadGen := c.loadGen, step := s.job.step.toNat, hall := stamp s }] } }
  else s

/-- Twin mode: a command's output enters its queue's CRC-64 and the per-step log (09 R264). -/
def signOut (s : State) (b : Blk) (q : Qc) (f : InFl) : State :=
  if f.out.isEmpty || !((s.job.image.map Image.pleach).getD false) then s
  else
    let bs := leBytes 4 f.pos ++ f.out
    s.updQ b q fun u => { u with crc := crc64 u.crc bs, crcLog := u.crcLog ++ [(f.pos, crc64 0 bs)] }

/-- The status of a stream command that completes is its context's last (08 STM_CTX_STATUS). -/
def ctxLast (s : State) (b : Blk) (c : Cmd) (st : Status) : State :=
  match c.ctx with
  | some n => s.setCtx b n { s.ctx b n with last := st }
  | none => s

/-- The oldest command of a queue, finished, completes (R99): it posts if its class is done or qualified; a command of
class refused or failed posts nothing and halts its queue (R22, R102), and a second column to retire retires its block
(R19). With its post at the counter's limit, or a full completion buffer, it waits and the queue stalls (R103, R330). A
halted queue completes nothing more. -/
def completeHead (s : State) (b : Blk) (q : Qc) : State :=
  match headCmd s b q with
  | none => s
  | some f =>
    match f.done with
    | none => s
    | some st =>
      if (s.q b q).state = .halt then s
      else if st.good && postOver (s.blk b) q f.cmd then
        s.updBlk b fun k => { k with satEvt := satAdd k.satEvt 1 }
      else if f.cmd.notify && 4096 ≤ s.host.cbuf.length then
        { s with host := { s.host with cbufStall := true } }
      else
        let s1 := ctxLast (s.updQ b q fun u => { u with inflight := u.inflight.drop 1 }) b f.cmd st
        if st.good then notifyRec (signOut (s1.updBlk b fun k => post k q f.cmd) b q f) b q f.cmd f.pos st
        else
          let code := f.err.getD (if st.refused then .cmdRefused else .cmdFailed)
          let s2 := record (notifyRec (signOut s1 b q f) b q f.cmd f.pos st) code (cmdArgs s b q f st)
          let s3 := countD (haltQueue s2 b q st f.pos) b st (cmdArgs s b q f st)
          if f.retires && blockLive s3 b then retireBlock s3 b st .check (cmdArgs s b q f st) else s3

/-- The first command in flight of a queue that has not been taken up. -/
def nextStart (s : State) (b : Blk) (q : Qc) : Option InFl := (s.q b q).inflight.find? fun f => !f.started

/-- The command in flight with a number and not yet done, changed. -/
def updInFl (s : State) (b : Blk) (q : Qc) (idx : Nat) (g : InFl → InFl) : State :=
  s.updQ b q fun u => { u with inflight := u.inflight.map fun f => if f.idx = idx ∧ f.done = none then g f else f }

/-- A command in flight finishes with a status. -/
def finish (s : State) (b : Blk) (q : Qc) (idx : Nat) (st : Status) : State :=
  updInFl s b q idx fun f => { f with started := true, done := some st }

/-- A command in flight finishes with a fault: its status, code and NPA (R22, R182). -/
def finishFault (s : State) (b : Blk) (q : Qc) (idx : Nat) (e : Status × ErrCode × Nat) : State :=
  updInFl s b q idx fun f => { f with started := true, done := some e.1, err := some e.2.1, npa := some e.2.2 }

/-- The entries of the brine array table that a COLL of OQ holds leave it (09 R255). -/
def dropEntries (s : State) (b : Blk) (idx : Nat) : State :=
  { s with brine := s.brine.filter fun e => e.coll != some (b.key, idx) }

/-- A queue has a command in flight that ended refused or failed: nothing more of it issues. -/
def queueBad (u : Queue) : Bool := u.inflight.any fun f => match f.done with | some st => !st.good | none => false

/-! ### Placement of functions (R336, R341) -/

/-- Function `i` of Table 13.9 is host-assisted now. -/
def hostAssisted (s : State) (i : Nat) : Bool :=
  s.host.mode.toNat.testBit i && !s.host.fallback.toNat.testBit i

/-- The node's own ID. -/
def nodeId (s : State) : NodeId := s.ncr.nodeId

/-- The hedge-table entry of an ID. -/
def hedgeOf (s : State) (id : Nat) : Option Hedge := s.job.hedges.find? fun h => h.id == id

/-- The state with a hedge-table entry changed. -/
def updHedge (s : State) (id : Nat) (f : Hedge → Hedge) : State :=
  { s with job := { s.job with hedges := s.job.hedges.map fun h => if h.id == id then f h else h } }

/-- The buffer of an ID in the loaded image. -/
def bufOf (s : State) (id : Nat) : Option Buf := (s.job.image.map Image.bufs |>.getD []).find? fun b => b.id == id

/-- A mailbox command refused for the node's state is recorded (R300). -/
def mbxRefused (s : State) (st : Status) : State :=
  if st = .state then record s .mbxRefused { unitKind := 12, unit := 0, status := st, detail := detailE [] 0xFF 0 } else s

/-- A mailbox command is answered; the interrupt says that one has completed (13 HRW_INT_CAUSE). -/
def answer (s : State) (ret : MbxRet) (st : Status) (detail : Nat) (out : List Byte) : State :=
  let s1 := { s with host := { s.host with mbx := ⟨ret, st, detail, out⟩ } }
  let s2 := if ret = .bgStarted then s1 else raise s1 7
  if ret = .success then mbxRefused s2 st else s2

end Sys2Proof.Machine
end

