-- ==== Sys2Proof/Machine/Flags.lean ====
section
/-!
DEFINITION. Sticky flags (03 R91, R92; 07 R194): their order, and how an operation's flags enter BLK_FLAGS and PAN_FLAGS.
The rounding and arithmetic that computes them is in Num.lean.
-/
namespace Sys2Proof.Machine

/-- Sticky flags in the order of BLK_FLAGS: OF, UF, NX, NV. -/
abbrev Fl := BitVec 4
/-- OF. -/
def Fl.of : Fl := 1
/-- UF. -/
def Fl.uf : Fl := 2
/-- NX. -/
def Fl.nx : Fl := 4
/-- NV. -/
def Fl.nv : Fl := 8
/-- A flag under a condition. -/
def Fl.when (c : Bool) (f : Fl) : Fl := if c then f else 0

/-- Sticky flags of an engine set in BLK_FLAGS: bits [3:0] of `f` are OF, UF, NX, NV, at engine `e` (R91). -/
def setFlags (s : State) (b : Blk) (e : Nat) (f : BitVec 4) : State :=
  s.updBlk b fun k => { k with flags := k.flags ||| (f.setWidth 16 <<< (4 * e)) }

/-- Sticky flags of a pan engine set in PAN_FLAGS (R194). -/
def setPanFlags (s : State) (st : Nat) (f : BitVec 4) : State :=
  s.setStack st { s.stack st with flags := (s.stack st).flags ||| f }

end Sys2Proof.Machine
end

