-- ==== Sys2Proof/Machine/Num.lean ====
section
/-!
DEFINITION. Numbers (03): the formats of Table 03.1 as exact values, the one rounding of each path, the IEEE
operations on exact values, brine and the exact accumulator, crystallisation, and the seeded draw of R89.
-/
namespace Sys2Proof.Machine

/-! ### Exact values -/

/-- The value of an element: a NaN, an infinity, or the exact dyadic number (−1)^neg × m × 2^e, zeros with their sign. -/
inductive Val where
  | nan
  | inf (neg : Bool)
  | fin (neg : Bool) (m : Nat) (e : Int)
deriving DecidableEq, Repr, Inhabited

/-- Positive zero. -/
def Val.zero : Val := .fin false 0 0

/-- The number of an integer. -/
def Val.ofInt (i : Int) : Val := .fin (i < 0) i.natAbs 0

/-- Two to a power. -/
def Val.two (k : Int) : Val := .fin false 1 k

/-- The value is a zero. -/
def Val.isZero : Val → Bool
  | .fin _ m _ => m == 0
  | _ => false

/-- The value is a NaN. -/
def Val.isNan : Val → Bool
  | .nan => true
  | _ => false

/-- The sign bit, false for a NaN. -/
def Val.neg? : Val → Bool
  | .nan => false
  | .inf n => n
  | .fin n _ _ => n

/-- The value with its sign changed. -/
def Val.negate : Val → Val
  | .nan => .nan
  | .inf n => .inf !n
  | .fin n m e => .fin (!n) m e

/-- The magnitude. -/
def Val.abs : Val → Val
  | .nan => .nan
  | .inf _ => .inf false
  | .fin _ m e => .fin false m e

/-- The mantissa of `m × 2^e` at exponent `q ≤ e`. -/
def scaleTo (m : Nat) (e q : Int) : Nat := m * 2 ^ (e - q).toNat

/-- The signed mantissa of a finite value at exponent `q`. -/
def sgnTo (neg : Bool) (m : Nat) (e q : Int) : Int := if neg then -(scaleTo m e q : Int) else scaleTo m e q

/-- Product with the sign of R85, and whether it was 0 × ∞. -/
def Val.mul : Val → Val → Val × Bool
  | .nan, _ => (.nan, false)
  | _, .nan => (.nan, false)
  | .inf a, .inf b => (.inf (a != b), false)
  | .inf a, .fin b m _ => if m = 0 then (.nan, true) else (.inf (a != b), false)
  | .fin a m _, .inf b => if m = 0 then (.nan, true) else (.inf (a != b), false)
  | .fin a m e, .fin b k f => (.fin (a != b) (m * k) (e + f), false)

/-- Exact sum and whether it was ∞ − ∞; `down` is the mode RDN, in which an exact zero sum is −0 (R85). -/
def Val.add (down : Bool) : Val → Val → Val × Bool
  | .nan, _ => (.nan, false)
  | _, .nan => (.nan, false)
  | .inf a, .inf b => if a = b then (.inf a, false) else (.nan, true)
  | .inf a, .fin _ _ _ => (.inf a, false)
  | .fin _ _ _, .inf b => (.inf b, false)
  | .fin a m e, .fin b k f =>
    if m = 0 ∧ k = 0 then (.fin (if a = b then a else down) 0 0, false)
    else
      let q := min e f
      let s := sgnTo a m e q + sgnTo b k f q
      if s = 0 then (.fin down 0 0, false) else (.fin (s < 0) s.natAbs q, false)

/-- The order of two numbers, zeros equal: none when either is a NaN. -/
def Val.cmp : Val → Val → Option Ordering
  | .nan, _ => none
  | _, .nan => none
  | .inf a, .inf b => some (if a = b then .eq else if a then .lt else .gt)
  | .inf a, .fin _ _ _ => some (if a then .lt else .gt)
  | .fin _ _ _, .inf b => some (if b then .gt else .lt)
  | .fin a m e, .fin b k f =>
    let q := min e f
    some (compare (sgnTo a m e q) (sgnTo b k f q))

/-- ⌊log2 |x|⌋ of a nonzero finite value (R94). -/
def Val.e (x : Val) : Option Int :=
  match x with
  | .fin _ m e => if m = 0 then none else some (m.log2 + e)
  | _ => none

/-- ⌊√n⌋ by bits, from bit `i` down. -/
def isqrtFrom : Nat → Nat → Nat → Nat
  | 0, n, r => if (r + 1) * (r + 1) ≤ n then r + 1 else r
  | i + 1, n, r =>
    let t := r + 2 ^ (i + 1)
    isqrtFrom i n (if t * t ≤ n then t else r)

/-- ⌊√n⌋. -/
def isqrt (n : Nat) : Nat := isqrtFrom (n.log2 / 2 + 1) n 0

/-- Bits kept of a quotient or a root beyond which one sticky bit stands: more than any format and any draw needs. -/
def guardBits : Nat := 192

/-- Quotient of two nonzero magnitudes, with a sticky last bit. -/
def divMag (m : Nat) (e : Int) (k : Nat) (f : Int) : Nat × Int :=
  let sh := guardBits + k.log2
  let n := m * 2 ^ sh
  (2 * (n / k) + (if n % k = 0 then 0 else 1), e - f - sh - 1)

/-- Square root of a nonzero magnitude, with a sticky last bit. -/
def sqrtMag (m : Nat) (e : Int) : Nat × Int :=
  let m1 := if e % 2 = 0 then m else 2 * m
  let e1 := if e % 2 = 0 then e else e - 1
  let n := m1 * 2 ^ (2 * guardBits)
  let r := isqrt n
  (2 * r + (if r * r = n then 0 else 1), e1 / 2 - guardBits - 1)

/-- Quotient; whether it was invalid; whether a finite nonzero value was divided by zero. -/
def Val.div : Val → Val → Val × Bool × Bool
  | .nan, _ => (.nan, false, false)
  | _, .nan => (.nan, false, false)
  | .inf _, .inf _ => (.nan, true, false)
  | .inf a, .fin b _ _ => (.inf (a != b), false, false)
  | .fin a _ _, .inf b => (.fin (a != b) 0 0, false, false)
  | .fin a m e, .fin b k f =>
    if k = 0 then if m = 0 then (.nan, true, false) else (.inf (a != b), false, true)
    else if m = 0 then (.fin (a != b) 0 0, false, false)
    else (.fin (a != b) (divMag m e k f).1 (divMag m e k f).2, false, false)

/-- Square root, and whether it was invalid. -/
def Val.sqrt : Val → Val × Bool
  | .nan => (.nan, false)
  | .inf n => if n then (.nan, true) else (.inf false, false)
  | .fin n m e =>
    if m = 0 then (.fin n 0 0, false)
    else if n then (.nan, true)
    else (.fin false (sqrtMag m e).1 (sqrtMag m e).2, false)

/-! ### Formats (Table 03.1) -/

/-- Number formats. -/
inductive Fmt where
  | fp64 | fp32 | bf16 | fp16 | e4m3 | e5m2 | e3m2 | e2m3 | e2m1 | int8 | int4 | int32 | int64 | uint8 | b128 | b256
deriving DecidableEq, Repr, Inhabited

/-- The format of a code. -/
def Fmt.ofCode (c : Nat) : Fmt :=
  [Fmt.fp64, .fp32, .bf16, .fp16, .e4m3, .e5m2, .e3m2, .e2m3, .e2m1, .int8, .int4, .int32, .int64, .uint8, .b128,
    .b256].getD (c % 16) .fp64

/-- Bits of an element. -/
def Fmt.bits : Fmt → Nat
  | .fp64 | .int64 => 64
  | .fp32 | .int32 => 32
  | .bf16 | .fp16 => 16
  | .e4m3 | .e5m2 | .int8 | .uint8 => 8
  | .e3m2 | .e2m3 => 6
  | .e2m1 | .int4 => 4
  | .b128 => 128
  | .b256 => 256

/-- Fraction bits and bias of a float format, exponent bits: (eb, f, bias). -/
def Fmt.layout : Fmt → Option (Nat × Nat × Nat)
  | .fp64 => some (11, 52, 1023)
  | .fp32 => some (8, 23, 127)
  | .bf16 => some (8, 7, 127)
  | .fp16 => some (5, 10, 15)
  | .e4m3 => some (4, 3, 7)
  | .e5m2 => some (5, 2, 15)
  | .e3m2 => some (3, 2, 3)
  | .e2m3 => some (2, 3, 1)
  | .e2m1 => some (2, 1, 1)
  | _ => none

/-- A float format. -/
def Fmt.isFloat (f : Fmt) : Bool := f.layout.isSome

/-- A brine format. -/
def Fmt.isBrine : Fmt → Bool
  | .b128 | .b256 => true
  | _ => false

/-- An integer format. -/
def Fmt.isInt (f : Fmt) : Bool := !f.isFloat && !f.isBrine

/-- Formats with an infinity. -/
def Fmt.hasInf : Fmt → Bool
  | .fp64 | .fp32 | .bf16 | .fp16 | .e5m2 => true
  | _ => false

/-- Formats of the exact class (Table 03.1). -/
def Fmt.exact : Fmt → Bool
  | .fp16 | .e4m3 | .e5m2 | .e3m2 | .e2m3 | .e2m1 | .int8 | .int4 | .uint8 => true
  | _ => false

/-- The least and the largest number of an integer format. -/
def Fmt.range : Fmt → Int × Int
  | .int8 => (-128, 127)
  | .int4 => (-8, 7)
  | .int32 => (-2147483648, 2147483647)
  | .int64 => (-9223372036854775808, 9223372036854775807)
  | .uint8 => (0, 255)
  | _ => (0, 0)

/-- The canonical NaN, Table 03.2; formats without one write +0. -/
def Fmt.nan : Fmt → Nat
  | .fp64 => 0x7FF8000000000000
  | .fp32 => 0x7FC00000
  | .bf16 => 0x7FC0
  | .fp16 => 0x7E00
  | .e4m3 => 0x7F
  | .e5m2 => 0x7E
  | _ => 0

/-- A format can show a NaN. -/
def Fmt.hasNan (f : Fmt) : Bool := f.nan != 0

/-- The largest finite magnitude of a float format as mantissa and exponent. -/
def Fmt.maxFin (f : Fmt) : Nat × Int :=
  match f.layout with
  | none => (0, 0)
  | some (eb, fb, bias) =>
    match f with
    | .e4m3 => (14, 5)
    | .e3m2 | .e2m3 | .e2m1 => (2 ^ (fb + 1) - 1, (2 ^ eb - 1 : Nat) - (bias : Int) - fb)
    | _ => (2 ^ (fb + 1) - 1, (2 ^ eb - 2 : Nat) - (bias : Int) - fb)

/-- The value of an element's bits. A brine element has no value of its own: its anchor is elsewhere. -/
def Fmt.decode (f : Fmt) (raw : Nat) : Val :=
  match f.layout with
  | some (eb, fb, bias) =>
    let s := raw.testBit (eb + fb)
    let ex := (raw >>> fb) % 2 ^ eb
    let fr := raw % 2 ^ fb
    if f.hasInf && ex == 2 ^ eb - 1 then if fr = 0 then .inf s else .nan
    else if f == .e4m3 && ex == 15 && fr == 7 then .nan
    else if ex = 0 then .fin s fr (1 - (bias : Int) - fb)
    else .fin s (2 ^ fb + fr) ((ex : Int) - bias - fb)
  | none =>
    match f with
    | .uint8 => .fin false (raw % 256) 0
    | _ =>
      let n := f.bits
      let r := raw % 2 ^ n
      if r < 2 ^ (n - 1) then .fin false r 0 else .fin true (2 ^ n - r) 0

/-- The bits of a signed infinity. -/
def Fmt.infBits (f : Fmt) (neg : Bool) : Nat :=
  match f.layout with
  | some (eb, fb, _) => (if neg then 2 ^ (eb + fb) else 0) + (2 ^ eb - 1) * 2 ^ fb
  | none => 0

/-- The bits of the float `(−1)^neg × k × 2^q` that lies on the format's grid, `k < 2^(f+1)`. -/
def Fmt.packFin (f : Fmt) (neg : Bool) (k : Nat) (q : Int) : Nat :=
  match f.layout with
  | some (eb, fb, bias) =>
    (if neg then 2 ^ (eb + fb) else 0) +
      (if k < 2 ^ fb then k else (q + fb + bias).toNat * 2 ^ fb + (k - 2 ^ fb))
  | none => 0

/-- The bits of the largest finite magnitude. -/
def Fmt.maxBits (f : Fmt) (neg : Bool) : Nat := f.packFin neg f.maxFin.1 f.maxFin.2

/-! ### Rounding (R86 to R91) -/

/-- Rounding modes: those of Table 03.7, with the fifth mode of RISC-V. -/
inductive Rnd where
  | rne | rtz | rup | rdn | rsd | rmm
deriving DecidableEq, Repr, Inhabited

/-- The mode of a code of Table 03.7; other codes are refused before use. -/
def Rnd.ofCode : Nat → Rnd
  | 1 => .rtz | 2 => .rup | 3 => .rdn | 4 => .rsd | _ => .rne

/-- The integer to which `m × 2^e / 2^q` rounds, and whether it was inexact; `u` is the draw of R89. -/
def roundMag (r : Rnd) (u : Nat) (neg : Bool) (m : Nat) (e q : Int) : Nat × Bool :=
  if q ≤ e then (scaleTo m e q, false)
  else
    let d := 2 ^ (q - e).toNat
    let lo := m / d
    let rem := m % d
    if rem = 0 then (lo, false)
    else
      let up := match r with
        | .rne => 2 * rem > d || (2 * rem == d && lo % 2 == 1)
        | .rtz => false
        | .rup => !neg
        | .rdn => neg
        | .rsd => u < rem * 2 ^ 32 / d
        | .rmm => 2 * rem ≥ d
      (if up then lo + 1 else lo, true)

/-- Whether `m × 2^e` is beyond `k × 2^q`. -/
def magGt (m : Nat) (e : Int) (k : Nat) (q : Int) : Bool := scaleTo k q (min e q) < scaleTo m e (min e q)

/-- The result of an overflow under IEEE 754. -/
def Fmt.overflowBits (f : Fmt) (r : Rnd) (neg : Bool) : Nat :=
  if !f.hasInf then f.maxBits neg
  else
    match r with
    | .rtz => f.maxBits neg
    | .rup => if neg then f.maxBits neg else f.infBits neg
    | .rdn => if neg then f.infBits neg else f.maxBits neg
    | _ => f.infBits neg

/-- A nonzero or zero finite value rounded into a float format (R86, R89, R91). -/
def Fmt.roundFin (f : Fmt) (r : Rnd) (u : Nat) (neg : Bool) (m : Nat) (e : Int) : Nat × Fl :=
  match f.layout with
  | none => (0, 0)
  | some (_, fb, bias) =>
    if m = 0 then (f.packFin neg 0 0, 0)
    else
      let big := magGt m e f.maxFin.1 f.maxFin.2
      let r1 := if big && r == .rsd then .rne else r
      let qmin : Int := 1 - (bias : Int) - fb
      let q := max ((m.log2 : Int) + e - fb) qmin
      let (k0, ix) := roundMag r1 u neg m e q
      let k := if k0 = 2 ^ (fb + 1) then 2 ^ fb else k0
      let q1 := if k0 = 2 ^ (fb + 1) then q + 1 else q
      if magGt k q1 f.maxFin.1 f.maxFin.2 then (f.overflowBits r1 neg, Fl.of ||| Fl.nx)
      else (f.packFin neg k q1, Fl.when ix Fl.nx ||| Fl.when (ix && k < 2 ^ fb) Fl.uf)

/-- A value rounded once into a format that is not brine (R86, R87, R90). A NaN is taken as carried through from an
input: the caller adds NV where it was made by an invalid operation. -/
def Fmt.round (f : Fmt) (r : Rnd) (u : Nat) (v : Val) : Nat × Fl :=
  if f.isFloat then
    match v with
    | .nan => (f.nan, Fl.when (!f.hasNan) Fl.nv)
    | .inf n => if f.hasInf then (f.infBits n, 0) else (f.maxBits n, Fl.of)
    | .fin n m e => f.roundFin r u n m e
  else
    let (lo, hi) := f.range
    let enc := fun (i : Int) => (i % ((2 ^ f.bits : Nat) : Int)).toNat
    match v with
    | .nan => (0, Fl.nv)
    | .inf n => (enc (if n then lo else hi), Fl.nv)
    | .fin n m e =>
      let big := r == .rsd && magGt m e (if n then lo.natAbs else hi.natAbs) 0
      let (k, ix) := roundMag (if big then .rne else r) u n m e 0
      let i : Int := if n then -(k : Int) else k
      if i < lo then (enc lo, Fl.nv) else if hi < i then (enc hi, Fl.nv)
      else (enc i, Fl.when ix Fl.nx ||| Fl.when (ix && k == 0) Fl.uf)

/-- A value that came of an operation, NV added where the operation was invalid (R91). -/
def Fmt.roundOp (f : Fmt) (r : Rnd) (u : Nat) (v : Val × Bool) : Nat × Fl :=
  ((f.round r u v.1).1, (f.round r u v.1).2 ||| Fl.when v.2 Fl.nv)

/-! ### The seeded draw (R89) -/

/-- The mixing function of R89. -/
def mix64 (z : W64) : W64 :=
  let a := (z ^^^ (z >>> 30)) * 0xBF58476D1CE4E5B9
  let b := (a ^^^ (a >>> 27)) * 0x94D049BB133111EB
  b ^^^ (b >>> 31)

/-- The draw of an element (R89). -/
def rsdDraw (jobId : W16) (step : BitVec 48) (tensorId : W32) (idx : Nat) : Nat :=
  let key : W64 := (jobId.setWidth 64 <<< 48) ||| step.setWidth 64
  let t := mix64 ((tensorId.setWidth 64 + 1) * 0x9E3779B97F4A7C15)
  let s := mix64 (key + t)
  ((mix64 (s + BitVec.ofNat 64 idx)) >>> 32).toNat

/-! ### Brine (R78 to R83) -/

/-- W and G of a brine format: positions below and above the anchor. -/
def Fmt.brineWG : Fmt → Nat × Nat
  | .b128 => (88, 31)
  | _ => (200, 47)

/-- Bits of the integer of a brine format. -/
def Fmt.brineBits (f : Fmt) : Nat := f.brineWG.1 + f.brineWG.2 + 1

/-- Flags of the brine flag byte, Table 03.6. -/
def bNX : Byte := 1
def bOF : Byte := 2
def bNV : Byte := 4
def bPI : Byte := 8
def bNI : Byte := 16
def bUF : Byte := 32

/-- An addend converted into the window under anchor `a` (R80): the integer and the flags. -/
def Fmt.toBrine (f : Fmt) (a : Int) (x : Val) : Int × Byte :=
  let (w, g) := f.brineWG
  match x with
  | .nan => (0, bNV)
  | .inf n => (0, if n then bNI else bPI)
  | .fin n m e =>
    if m = 0 then (0, 0)
    else if (m.log2 : Int) + e ≥ a + g then (0, bOF ||| (if n then bNI else bPI))
    else
      let sh := e + w - a
      let (i, ix) :=
        if 0 ≤ sh then (sgnTo n m sh 0, false)
        else
          let d := 2 ^ (-sh).toNat
          (Int.fdiv (if n then -(m : Int) else m) d, m % d != 0)
      (i, (if ix then bNX else 0) ||| (if (m.log2 : Int) + e < a - w then bUF else 0))

/-- A brine accumulation: the integer before its wrap, and the flags. -/
structure Brine where
  i : Int := 0
  fl : Byte := 0
deriving DecidableEq, Repr, Inhabited

/-- The sum of two brine values of one format and anchor (R81); the wrap is taken when the value is stored. -/
def Brine.add (a b : Brine) : Brine := ⟨a.i + b.i, a.fl ||| b.fl⟩

/-- An addend added under an anchor. -/
def Brine.addVal (f : Fmt) (a : Int) (b : Brine) (x : Val) : Brine :=
  ⟨b.i + (f.toBrine a x).1, b.fl ||| (f.toBrine a x).2⟩

/-- The bits of a brine element, its integer modulo the width (R78, R81). -/
def Fmt.packBrine (f : Fmt) (b : Brine) : Nat :=
  (b.i % ((2 ^ f.brineBits : Nat) : Int)).toNat + b.fl.toNat * 2 ^ f.brineBits

/-- The brine value of an element's bits; reserved flag bits are zero. -/
def Fmt.unpackBrine (f : Fmt) (raw : Nat) : Brine :=
  let n := f.brineBits
  let r := raw % 2 ^ n
  ⟨if r < 2 ^ (n - 1) then r else (r : Int) - (2 ^ n : Nat), BitVec.ofNat 8 (raw / 2 ^ n % 64)⟩

/-- The sum a brine value stands for: the integer, wrapped, at its weight. -/
def Fmt.brineVal (f : Fmt) (a : Int) (b : Brine) : Val :=
  let w := f.unpackBrine (f.packBrine b)
  .fin (w.i < 0) w.i.natAbs (a - f.brineWG.1)

/-- An anchor is legal from −4 096 to 4 095 (R83). -/
def anchorOk (a : Int) : Bool := -4096 ≤ a && a ≤ 4095

/-- The anchor within the legal range (R83). -/
def anchorClamp (a : Int) : Int := max (-4096) (min 4095 a)

/-! ### Crystallisation (R84 to R86) -/

/-- S × s + β of R84 step 3 with its invalid flag. -/
def affine (r : Rnd) (sum s beta : Val) : Val × Bool :=
  let p := sum.mul s
  let t := Val.add (r == .rdn) p.1 beta
  (t.1, p.2 || t.2)

/-- A sum with its brine flags crystallised into a format (R84 to R87, R91). -/
def crystallise (f : Fmt) (r : Rnd) (u : Nat) (sum : Val) (fl : Byte) (s beta : Val) : Nat × Fl :=
  let nv := fl &&& bNV != 0 || (fl &&& bPI != 0 && fl &&& bNI != 0)
  let carried := Fl.when (fl &&& bOF != 0) Fl.of ||| Fl.when (fl &&& bUF != 0) Fl.uf ||| Fl.when (fl &&& bNX != 0) Fl.nx
  let v : Val × Bool :=
    if nv then (.nan, true)
    else if fl &&& bPI != 0 then (.inf false, false)
    else if fl &&& bNI != 0 then (.inf true, false)
    else affine r (if sum.isZero then .zero else sum) s beta
  let x := f.roundOp r u v
  (x.1, x.2 ||| carried)

/-- The exact accumulator: an integer modulo 2^128 in units of 2^−48 (R77), wrapped when read. -/
def exactWrap (i : Int) : Int :=
  let r := (i % ((2 ^ 128 : Nat) : Int)).toNat
  if r < 2 ^ 127 then r else (r : Int) - (2 ^ 128 : Nat)

/-- The value of the exact accumulator. -/
def exactVal (i : Int) : Val := .fin (exactWrap i < 0) (exactWrap i).natAbs (-48)

/-- The flags that a product brings into the exact accumulator: those of a NaN and of an infinity alone (R77, R79). -/
def exactFlags : Val → Byte
  | .nan => bNV
  | .inf n => if n then bNI else bPI
  | .fin _ _ _ => 0

/-- No flag keeps a sum from step 3 of R84. -/
def sumFinite (fl : Byte) : Bool := fl &&& (bNV ||| bPI ||| bNI) == 0

/-- A finite value in units of 2^−48, for products of exact-class values (R77). -/
def toExact : Val → Int
  | .fin n m e => sgnTo n m e (-48)
  | _ => 0

/-! ### The IEEE operations -/

/-- Fused multiply-add with R90's rule: 0 × ∞ is invalid whatever the addend. -/
def Val.fma (r : Rnd) (a b c : Val) : Val × Bool :=
  let p := a.mul b
  if p.2 then (.nan, true) else Val.add (r == .rdn) p.1 c

/-- The bits of a signalling NaN of an IEEE format. -/
def Fmt.isSnan (f : Fmt) (raw : Nat) : Bool :=
  match f.layout with
  | some (eb, fb, _) =>
    f.hasInf && (raw >>> fb) % 2 ^ eb == 2 ^ eb - 1 && raw % 2 ^ fb != 0 && !raw.testBit (fb - 1)
  | none => false

/-- Whether a rounded result was tiny as IEEE 754 judges after rounding with an unbounded exponent, and inexact. -/
def Fmt.tinyAfter (f : Fmt) (r : Rnd) (u : Nat) (v : Val) : Bool :=
  match f.layout, v with
  | some (_, fb, bias), .fin n m e =>
    m != 0 &&
      (let q := (m.log2 : Int) + e - fb
       let (k, _) := roundMag r u n m e q
       let top : Int := (k.log2 : Int) + q
       top < 1 - (bias : Int)) &&
      (roundMag r u n m e (max ((m.log2 : Int) + e - fb) (1 - (bias : Int) - fb))).2
  | _, _ => false

end Sys2Proof.Machine
end

