-- ==== Sys2Proof/Machine/Operands.lean ====
section
/-!
DEFINITION. Operands (04, 03): number control words, tensor descriptors and their references, extents, element
addresses, reading and writing tensors with their lines, shared scales, anchors, masks and draws, and the checks of
Table 04.11 that are common to all engines.
-/
namespace Sys2Proof.Machine

/-! ### The number control word, Table 03.3 -/

/-- A number control word. -/
structure Ncw where
  fmt : Fmt
  rnd : Nat
  seedValid : Bool
  scaleMode : Nat
  blockCode : Nat
  shareDir : Bool
  acc : Bool
  anchorMode : Nat
  anchor : Int
  tensorId : W32
deriving DecidableEq, Repr, Inhabited

/-- The fields of a number control word. -/
def Ncw.of (w : Nat) : Ncw :=
  { fmt := Fmt.ofCode (nfld w 0 4), rnd := nfld w 4 3, seedValid := w.testBit 7, scaleMode := nfld w 8 2,
    blockCode := nfld w 10 2, shareDir := w.testBit 12, acc := w.testBit 13, anchorMode := nfld w 14 2,
    anchor := sx 16 (nfld w 16 16), tensorId := BitVec.ofNat 32 (nfld w 32 32) }

/-- Elements of a scale block. -/
def Ncw.bs (n : Ncw) : Nat := 16 * 2 ^ n.blockCode

/-- The rounding mode. -/
def Ncw.mode (n : Ncw) : Rnd := Rnd.ofCode n.rnd

/-- The accumulator of the anchored class (acc). -/
def Ncw.brine (n : Ncw) : Fmt := if n.acc then .b256 else .b128

/-! ### The tensor descriptor, Table 04.6 -/

/-- A tensor descriptor, its base with the address register added, and whether one was. -/
structure Desc where
  base : Nat
  ncw : Ncw
  counts : List Nat
  buffer : Nat
  rank : Nat
  remote : Bool
  lc : Bool
  strides : List Int
  scale : Option Nat
  anchorD : Option Nat
  mask : Option Nat
  bias : Option Nat
  node : NodeId
  /-- reserved fields are zero, the rank is 1 to 5, and counts above it are 1 -/
  ok : Bool
  viaReg : Bool
deriving DecidableEq, Repr, Inhabited

/-- An index field whose all-ones value means none. -/
def noneIdx (v : Nat) : Option Nat := if v = 0xFFFF_FFFF then none else some v

/-- The fields of a tensor descriptor's 128 bytes. Table 04.6 leaves bits [7:3] of byte 38 and bits [31:20] of bytes 88 to
91 neither assigned nor reserved: they must be zero as its reserved fields (DESIGN CHOICE, log 55). -/
def Desc.of (bs : List Byte) : Desc :=
  let counts := (List.range 5).map fun i => le bs (16 + 4 * i) 4
  let rank := nfld (le bs 38 1) 0 3
  { base := le bs 0 8 % 2 ^ 56, ncw := Ncw.of (le bs 8 8), counts := counts, buffer := le bs 36 2, rank := rank,
    remote := (le bs 39 1).testBit 0, lc := (le bs 39 1).testBit 1,
    strides := (List.range 4).map fun i => sx 64 (le bs (40 + 8 * i) 8),
    scale := noneIdx (le bs 72 4), anchorD := noneIdx (le bs 76 4), mask := noneIdx (le bs 80 4),
    bias := noneIdx (le bs 84 4), node := BitVec.ofNat 20 (le bs 88 4 % 2 ^ 20),
    ok := le bs 7 1 == 0 && le bs 38 1 >>> 3 == 0 && le bs 39 1 >>> 2 == 0 && le bs 88 4 >>> 20 == 0 &&
      (slice bs 92 36).all (· == 0) && 1 ≤ rank && rank ≤ 5 && (counts.drop rank).all (· == 1),
    viaReg := false }

/-- The descriptor pool of the loaded image. -/
def pool (s : State) : List (List Byte) := (s.job.image.map Image.descs).getD []

/-- The 128 bytes of a descriptor of the pool. -/
def descBytes (s : State) (i : Nat) : Option (List Byte) := (pool s)[i]?

/-- A tensor descriptor of the pool. -/
def descAt (s : State) (i : Nat) : Option Desc := (descBytes s i).map Desc.of

/-- A descriptor reference word, Table 04.5: the index, none for 0xF_FFFF, the address register, add. -/
def refIdx (w : W64) : Option Nat := if fld w 0 20 = 0xFFFFF then none else some (fld w 0 20)
/-- The address register of a reference. -/
def refReg (w : W64) : Nat := fld w 20 4
/-- The add bit of a reference. -/
def refAdd (w : W64) : Bool := wbit w 24
/-- Reserved bits of a reference are zero. -/
def refOk (w : W64) : Bool := fld w 25 39 == 0

/-- The descriptor that operand word `i` names, with its addend (R106, R112; the sum is modulo 2^64, log 25). -/
def opnd (s : State) (f : InFl) (i : Nat) : Option Desc :=
  let w := f.cmd.w i
  match refIdx w with
  | none => none
  | some k => (descAt s k).map fun d =>
      if refAdd w then { d with base := (d.base + (f.addend i).toNat) % 2 ^ 64, viaReg := true } else d

/-- The operand, or an empty tensor where none is named. -/
def opnd! (s : State) (f : InFl) (i : Nat) : Desc := (opnd s f i).getD (Desc.of [])

/-- A count of a dimension. -/
def Desc.c (d : Desc) (i : Nat) : Nat := d.counts.getD i 1

/-- The number format. -/
def Desc.fmt (d : Desc) : Fmt := d.ncw.fmt

/-- Elements of the tensor. -/
def Desc.size (d : Desc) : Nat := d.counts.foldl (· * ·) 1

/-- Rows of count0 elements. -/
def Desc.rows (d : Desc) : Nat := (d.counts.drop 1).foldl (· * ·) 1

/-- Bytes of `n` packed elements (R71, R108). -/
def Fmt.bytesOf (f : Fmt) (n : Nat) : Nat :=
  match f with
  | .e3m2 | .e2m3 => cdiv n 4 * 3
  | _ => cdiv (n * f.bits) 8

/-- Bytes of an innermost row. -/
def Desc.rowBytes (d : Desc) : Nat := d.fmt.bytesOf (d.c 0)

/-- Packed formats: elements narrower than a byte. -/
def Fmt.packed (f : Fmt) : Bool := f.bits < 8

/-- The offset of dimension indices 1 to 4. -/
def Desc.off (d : Desc) (ix : List Nat) : Int :=
  (List.range 4).foldl (fun a i => a + (ix.getD i 0 : Int) * d.strides.getD i 0) 0

/-- The lowest and highest byte of the extent, exactly (R108). -/
def Desc.extent (d : Desc) : Int × Int :=
  let t := (List.range 4).map fun i => ((d.c (i + 1) : Int) - 1) * d.strides.getD i 0
  (t.foldl (fun a x => a + min 0 x) (d.base : Int), t.foldl (fun a x => a + max 0 x) (d.base : Int) + d.rowBytes - 1)

/-- The tensor touches no bytes: some count is 0 (R108). -/
def Desc.empty (d : Desc) : Bool := d.counts.any (· == 0)

/-- An extent or one of its partial sums leaves 0 to 2^64 − 1 (R108). -/
def Desc.overflows (d : Desc) : Bool :=
  let t := (List.range 4).map fun i => ((d.c (i + 1) : Int) - 1) * d.strides.getD i 0
  let lows := t.foldl (fun a x => (a.1 + min 0 x, a.2 || a.1 + min 0 x < 0)) ((d.base : Int), false)
  let highs := t.foldl (fun a x => (a.1 + max 0 x, a.2 || 2 ^ 64 ≤ a.1 + max 0 x)) ((d.base : Int), false)
  lows.2 || highs.2 || 2 ^ 64 ≤ highs.1 + d.rowBytes - 1

/-- The indices of dimensions 1 to 4 of a row, dimension 1 fastest. -/
def Desc.rowIx (d : Desc) (r : Nat) : List Nat :=
  [r % d.c 1, r / d.c 1 % d.c 2, r / (d.c 1 * d.c 2) % d.c 3, r / (d.c 1 * d.c 2 * d.c 3)]

/-- The NPA of a row's first byte, by its indices. -/
def Desc.rowAt (d : Desc) (ix : List Nat) : Nat := (d.base + d.off ix).toNat

/-- The NPA of a row's first byte, by its number. -/
def Desc.rowNpa (d : Desc) (r : Nat) : Nat := d.rowAt (d.rowIx r)

/-- The bytes that hold `n` elements from element `i` of a row on. -/
def Desc.runAt (d : Desc) (ix : List Nat) (i n : Nat) : Run :=
  let b := d.rowAt ix
  match d.fmt with
  | .e3m2 | .e2m3 => ⟨b + i / 4 * 3, if n = 0 then 0 else ((i + n - 1) / 4 - i / 4 + 1) * 3⟩
  | .e2m1 | .int4 => ⟨b + i / 2, if n = 0 then 0 else (i + n - 1) / 2 - i / 2 + 1⟩
  | f => ⟨b + i * (f.bits / 8), n * (f.bits / 8)⟩

/-- The runs of the whole tensor, one a row. -/
def Desc.runs (d : Desc) : List Run :=
  if d.empty then [] else (List.range d.rows).map fun r => ⟨d.rowNpa r, d.rowBytes⟩

/-- The bits of an element of a row that starts at an NPA. -/
def rawAt (s : State) (f : Fmt) (row i : Nat) : Nat :=
  match f with
  | .e3m2 | .e2m3 => nfld (rdW s (row + i / 4 * 3) 3) (6 * (i % 4)) 6
  | .e2m1 | .int4 => nfld (rd s (row + i / 2)).toNat (4 * (i % 2)) 4
  | _ => rdW s (row + i * (f.bits / 8)) (f.bits / 8)

/-- The bits of the element at indices 0 and 1 to 4. -/
def Desc.rawIx (d : Desc) (s : State) (i : Nat) (ix : List Nat) : Nat := rawAt s d.fmt (d.rowAt ix) i

/-- The bits of the element with a row-major index. -/
def Desc.raw (d : Desc) (s : State) (e : Nat) : Nat := rawAt s d.fmt (d.rowNpa (e / d.c 0)) (e % d.c 0)

/-- The bits of every element, row-major. -/
def Desc.raws (d : Desc) (s : State) : List Nat := (List.range d.size).map fun e => d.raw s e

/-- The value of the element with a row-major index. -/
def Desc.val (d : Desc) (s : State) (e : Nat) : Val := d.fmt.decode (d.raw s e)

/-- The bytes of a packed or unpacked run of elements, its unused bits zero (R71). -/
def packRow (f : Fmt) (raws : List Nat) : List Byte :=
  match f with
  | .e3m2 | .e2m3 =>
    (List.range (cdiv raws.length 4)).flatMap fun g =>
      leBytes 3 ((List.range 4).foldl (fun a i => a + (raws.getD (4 * g + i) 0) * 2 ^ (6 * i)) 0)
  | .e2m1 | .int4 =>
    (List.range (cdiv raws.length 2)).map fun g =>
      BitVec.ofNat 8 (raws.getD (2 * g) 0 + raws.getD (2 * g + 1) 0 * 16)
  | _ => raws.flatMap fun r => leBytes (f.bits / 8) r

/-- Elements and bytes of the smallest group of a packed format that fills whole bytes (R71). -/
def Fmt.group (f : Fmt) : Nat × Nat :=
  match f with
  | .e3m2 | .e2m3 => (4, 3)
  | _ => (2, 1)

/-- Elements of a row written: `none` keeps the old element. A packed row is written by the groups in which some element
is written, or whole. -/
def wrRow (s : State) (f : Fmt) (row : Nat) (raws : List (Option Nat)) : State × List Byte :=
  if f.packed then
    if raws.all Option.isSome then
      let bs := packRow f (raws.map fun e => e.getD 0)
      (wrN s row bs, bs)
    else
      let (n, w) := f.group
      (List.range (cdiv raws.length n)).foldl (fun acc g =>
        let l := (raws.drop (n * g)).take n
        if l.any Option.isSome then
          let bs := packRow f (l.zipIdx.map fun e => e.1.getD (rawAt acc.1 f row (n * g + e.2)))
          (wrN acc.1 (row + w * g) bs, acc.2 ++ bs)
        else acc) (s, [])
  else
    raws.zipIdx.foldl (fun acc e =>
      match e.1 with
      | none => acc
      | some r => (wrW acc.1 (row + e.2 * (f.bits / 8)) (f.bits / 8) r, acc.2 ++ leBytes (f.bits / 8) r)) (s, [])

/-- A tensor written row by row: `f e` is the element with row-major index `e`, `none` where the old one stays. The
bytes written are answered with the state. -/
def wrT (s : State) (d : Desc) (f : Nat → Option Nat) : State × List Byte :=
  (List.range d.rows).foldl (fun acc r =>
    let x := wrRow acc.1 d.fmt (d.rowNpa r) ((List.range (d.c 0)).map fun i => f (r * d.c 0 + i))
    (x.1, acc.2 ++ x.2)) (s, [])

/-! ### Places and bounds (R36, R108, R121) -/

/-- The end of the populated range that an NPA lies in (Table 01.4). -/
def rangeEnd (c npa : Nat) : Option Nat :=
  let win := 3 * (64 - c) * 2 ^ 30
  match placeOf c npa with
  | .mem _ _ => some (if npa < 0x100_0000_0000 then (npa >>> 38) <<< 38 + win else 0x100_0000_0000 + 4 * win)
  | .cellar _ _ => some (npa - npa % 2 ^ 35 + c * 2 ^ 30)
  | .block _ _ _ => some (npa - npa % 2 ^ 24 + 2 ^ 22)
  | .rstore _ _ => some (npa - npa % 2 ^ 26 + 2 ^ 26)
  | .host _ => some 0x800_0000_0000
  | .reg _ => some 0x300_0200_0000
  | .remote _ => some 0x81_0000_0000_0000
  | _ => none

/-- What R36 says of a range of bytes: nothing, BOUNDS, or ABSENT for a block fused off or out of service. -/
def mapCheck (s : State) (lo hi : Int) : List Status :=
  if lo < 0 ∨ hi < lo then [.bounds]
  else
    match place s lo.toNat with
    | .block r b _ =>
      (if blockLive s ⟨BitVec.ofNat 2 r, BitVec.ofNat 6 b⟩ then [] else [.absent]) ++
      (if hi < (rangeEnd s.ncr.cellarGib lo.toNat).getD 0 then [] else [.bounds])
    | .blockHole r b =>
      (if blockLive s ⟨BitVec.ofNat 2 r, BitVec.ofNat 6 b⟩ then [] else [.absent]) ++ [.bounds]
    | _ =>
      match rangeEnd s.ncr.cellarGib lo.toNat with
      | some e => if hi < (e : Int) then [] else [.bounds]
      | none => [.bounds]

/-- The extent of a tensor that touches bytes stays in the buffer that the descriptor names (R108). -/
def bufCheck (s : State) (d : Desc) : List Status :=
  if d.empty then []
  else
    let (lo, hi) := d.extent
    match bufOf s d.buffer with
    | some b => if (b.base : Int) ≤ lo ∧ hi < (b.base : Int) + b.size then [] else [.bounds]
    | none => [.bounds]

/-- The issue checks of an extent that lies in this node (R36, R108, R121): where it lies, and, where an address
register took part, that it stays in its buffer. -/
def extentCheck (s : State) (d : Desc) : List Status :=
  if d.empty then []
  else if d.overflows then [.bounds]
  else
    let (lo, hi) := d.extent
    mapCheck s lo hi ++ (if d.viaReg then bufCheck s d else [])

/-- The extent lies in the block's own store (R123). -/
def inStore (b : Blk) (d : Desc) : Bool :=
  d.empty || (let (lo, hi) := d.extent; !d.remote && (storeBase b : Int) ≤ lo && hi < (storeBase b : Int) + 2 ^ 22)

/-- The stride of dimension `i` + 1 (R107). -/
def Desc.stride (d : Desc) (i : Nat) : Int := d.strides.getD i 0

/-- Every stride of dimensions 1 to 4 is a multiple of `a` (R124). -/
def Desc.stridesOk (d : Desc) (a : Nat) : Bool := (List.range 4).all fun i => d.stride i % a == 0

/-- The alignment of R124: base and strides multiples of 32 bytes. -/
def aligned32 (d : Desc) : Bool := d.base % 32 == 0 && d.stridesOk 32

/-- The issue checks of a tensor of the tensor and vector engines (R36, R121, R123, R124). -/
def storeCheck (s : State) (b : Blk) (d : Desc) : List Status :=
  extentCheck s d ++
  (if d.viaReg && !inStore b d then [.bounds] else []) ++
  (if d.viaReg && !d.empty && !aligned32 d then [.align] else [])

/-- Two tensors touch a common byte, by their extents. -/
def extentsMeet (a b : Desc) : Bool :=
  !a.empty && !b.empty && (let (l1, h1) := a.extent; let (l2, h2) := b.extent; l1 ≤ h2 && l2 ≤ h1)

/-- Two descriptors name the same elements: base, counts, strides and format (R125). -/
def coincide (a b : Desc) : Bool :=
  a.base == b.base && a.counts == b.counts && a.strides == b.strides && a.fmt == b.fmt

/-- A result overlaps a tensor that the command reads and does not coincide with it (R125). -/
def badOverlap (res src : Desc) : Bool := extentsMeet res src && !coincide res src

/-! ### Scales, anchors, masks, draws -/

/-- The multi-index of a batch element, counts 2 to 4, row-major; a count of 1 is shared (R126). -/
def batchIx (counts : List Nat) (n : Nat) : List Nat :=
  let c := fun i => counts.getD i 1
  [n % c 2, n / c 2 % c 3, n / (c 2 * c 3)]

/-- Batch indices taken to a tensor whose batch counts may be 1. -/
def Desc.share (d : Desc) (ix : List Nat) : List Nat :=
  (List.range 3).map fun i => if d.c (i + 2) = 1 then 0 else ix.getD i 0

/-- The value of a block scale byte, 2^(e − 127), 255 a NaN (R75). -/
def e8m0 (raw : Nat) : Val := if raw = 255 then .nan else Val.two ((raw : Int) - 127)

/-- The E8M0 scale at row `r` of the shared dimension and position `k` of the innermost: share_dir 0 blocks along the
innermost index `k`, 1 along `r` (R75, R404). -/
def blockScale (s : State) (d : Desc) (r k : Nat) (batch : List Nat) : Val :=
  if d.ncw.scaleMode = 2 then
    match d.scale.bind (descAt s) with
    | some sc =>
      let (i, j) := if d.ncw.shareDir then (k, r / d.ncw.bs) else (k / d.ncw.bs, r)
      e8m0 (sc.rawIx s i (j :: sc.share batch))
    | none => Val.two 0
  else Val.two 0

/-- An FP32 scale of scale_mode 1 (R74), or 1. -/
def rowScale (s : State) (d : Desc) (i : Nat) : Val :=
  if d.ncw.scaleMode = 1 then
    match d.scale.bind (descAt s) with
    | some sc => sc.fmt.decode (sc.rawIx s i [])
    | none => Val.two 0
  else Val.two 0

/-- An entry of an anchor array, a count of 1 serving its whole dimension (R131). -/
def anchorEntry (s : State) (a : Desc) (i j : Nat) (batch : List Nat) : Int :=
  sx 32 (a.rawIx s (if a.c 0 = 1 then 0 else j) ((if a.c 1 = 1 then 0 else i) :: a.share batch))

/-- The anchor of element (row i, column j, batch) under a control word of anchor_mode 0 or 2. -/
def anchorOf (s : State) (d : Desc) (i j : Nat) (batch : List Nat) : Int :=
  if d.ncw.anchorMode = 2 then
    match d.anchorD.bind (descAt s) with
    | some a => anchorEntry s a i j batch
    | none => 0
  else d.ncw.anchor

/-- The anchor of the element with a row-major index, for tensors taken element by element. -/
def anchorAt (s : State) (d : Desc) (e : Nat) : Int :=
  let ix := d.rowIx (e / d.c 0)
  anchorOf s d (ix.getD 0 0) (e % d.c 0) (ix.drop 1)

/-- Every entry of the anchor array of a control word is legal, and the array is INT32 (R83, R131); true without
anchor_mode 2. A static anchor is legal too. -/
def anchorsOk (s : State) (d : Desc) : Bool :=
  if d.ncw.anchorMode = 0 then anchorOk d.ncw.anchor
  else if d.ncw.anchorMode = 2 then
    match d.anchorD.bind (descAt s) with
    | some a => a.fmt == .int32 && (a.raws s).all fun r => anchorOk (sx 32 r)
    | none => false
  else d.ncw.anchorMode == 1

/-- Two tensors stand under the same anchors, compared element by element: element `e` of the first goes with element
`ix e` of the second (R81, R127, R139, R148). -/
def sameAnchorsBy (s : State) (ix : Nat → Nat) (a b : Desc) : Bool :=
  a.ncw.anchorMode == b.ncw.anchorMode &&
  (if a.ncw.anchorMode = 0 then a.ncw.anchor == b.ncw.anchor
   else if a.ncw.anchorMode = 2 then (List.range a.size).all fun e => anchorAt s a e == anchorAt s b (ix e)
   else false)

/-- Two tensors of the same counts stand under the same anchors. -/
def sameAnchors (s : State) (a b : Desc) : Bool := sameAnchorsBy s (fun e => e) a b

/-- A format to which R75 gives block scales. -/
def Fmt.blockScaled (f : Fmt) : Bool := f.isFloat || f == .int8 || f == .int4 || f == .uint8

/-- Block scales on a format to which R75 gives none. -/
def blockBad (d : Desc) : Bool := d.ncw.scaleMode == 2 && !d.fmt.blockScaled

/-- The runs of the tensor that a descriptor index names. -/
def auxRuns (s : State) (i : Option Nat) : List Run := ((i.bind (descAt s)).map Desc.runs).getD []

/-- A mask element is on (R139); without a mask every element is. -/
def maskOn (s : State) (m : Option Desc) (e : Nat) : Bool :=
  match m with
  | some d => (d.raw s e).testBit 0
  | none => true

/-- The draw of RSD for the element with a row-major index of a result (R89): seeded, or free (log 3). -/
def drawOf (s : State) (n : Ncw) (idx : Nat) : Nat :=
  if n.seedValid then rsdDraw s.job.jobId s.job.step n.tensorId idx
  else (Config.freeWord (s.free + idx)).toNat % 2 ^ 32

/-- The state after `k` elements of a result have been rounded: unseeded draws are used up. -/
def drewN (s : State) (n : Ncw) (k : Nat) : State :=
  if n.rnd = 4 ∧ n.seedValid = false then { s with free := s.free + k } else s

/-- The value of a result element where R125 leaves the result unspecified: free bits. -/
def freeRaw (s : State) (f : Fmt) (e : Nat) : Nat :=
  leNat ((List.range 4).flatMap fun i => leBytes 8 (Config.freeWord (s.free + 4 * e + i)).toNat) % 2 ^ f.bits

/-! ### Finishing a command -/

/-- A command in flight finishes with a status, its output bytes noted for R264. -/
def finishOut (s : State) (b : Blk) (q : Qc) (idx : Nat) (st : Status) (out : List Byte) : State :=
  updInFl s b q idx fun f => { f with started := true, done := some st, out := f.out ++ out }

/-- A command whose reads and merges are clean goes on; a fault among them ends it (R22). -/
def withTouch (s : State) (runs : List Run) (b : Blk) (q : Qc) (idx : Nat) (k : State → State) : State :=
  let (t, e) := touch s runs
  match e with
  | some x => finishFault t b q idx x
  | none => k t

/-- The engine row of a queue takes up its first command in flight not yet taken up, when its opcode is the row's. -/
def engine (s : State) (b : Blk) (q : Qc) (op : Nat) (run : State → InFl → State) : State :=
  match nextStart s b q with
  | some f => if f.cmd.opcode = op then run s f else s
  | none => s

/-- The masks and faults of R141 and R406: words that hold only masked-off elements and are uncorrectable are recorded
with severity C and neither fault the command nor are healed. Gives the lines kept bad: line, lower word, upper word. -/
def maskedBad (s : State) (active masked : List Run) : List (Nat × Bool × Bool) :=
  let c := s.ncr.cellarGib
  s.lineFault.filterMap fun e =>
    let b0 := e.2.w0 == .double && runsMeet c masked e.1 0 32 && !runsMeet c active e.1 0 32
    let b1 := e.2.w1 == .double && runsMeet c masked e.1 32 32 && !runsMeet c active e.1 32 32
    if b0 || b1 then some (e.1, b0, b1) else none

/-- Each masked-off bad word is recorded as MASKED_UNCORR (R141). -/
def recordMasked (s : State) (b : Blk) (bad : List (Nat × Bool × Bool)) : State :=
  bad.foldl (fun t e => record t .maskedUncorr
    { unitKind := 2, unit := b.key, npa := some (e.1 * 64), detail := detailStore t (e.1 * 64) }) s

/-- The masked-off bad words and the old line checks of their lines set aside while a merge is made around them (R406);
`keepBad` puts the words back. -/
def setAside (s : State) (bad : List (Nat × Bool × Bool)) : State :=
  bad.foldl (fun t e =>
    let f := SMap.get ({} : LineFault) t.lineFault e.1
    let g : LineFault := { f with w0 := if e.2.1 then .good else f.w0, w1 := if e.2.2 then .good else f.w1,
                                  badCheck := false }
    { t with lineFault := SMap.set ({} : LineFault) t.lineFault e.1 g }) s

/-- The bad words stay bad after the write around them (R406). -/
def keepBad (s : State) (bad : List (Nat × Bool × Bool)) : State :=
  bad.foldl (fun t e =>
    let f := SMap.get ({} : LineFault) t.lineFault e.1
    let g : LineFault := { f with w0 := if e.2.1 then .double else f.w0, w1 := if e.2.2 then .double else f.w1 }
    { t with lineFault := SMap.set ({} : LineFault) t.lineFault e.1 g }) s

end Sys2Proof.Machine
end

