-- ==== Sys2Proof/Machine/Frames.lean ====
section
/-!
DEFINITION. Ngaiz frames (02): the 48-byte header, line checks, frames as this node makes them, and the queue of frames
that wait for a slot.
-/
namespace Sys2Proof.Machine

/-- Bytes 0 to 43 of the Ngaiz header (Table 02.5). -/
def headBytes (h : NgHdr) : List Byte :=
  leBytes 1 (h.version.toNat + h.type.toNat * 16) ++
  leBytes 1 (bn h.retry + bn h.ackValid * 2 + bn h.nak * 4 + bn h.binned * 8 + bn h.last * 16) ++
  leBytes 1 h.opcode.toNat ++ leBytes 1 h.reason.toNat ++ leBytes 2 h.jobId.toNat ++ leBytes 2 h.hedgeId.toNat ++
  leBytes 8 (h.src.toNat + h.dst.toNat * 2 ^ 20 + h.flow.toNat * 2 ^ 40) ++ leBytes 4 h.seq.toNat ++
  leBytes 4 h.ackSeq.toNat ++ leBytes 6 h.slot.toNat ++ leBytes 2 h.length.toNat ++ leBytes 8 h.offset.toNat ++
  leBytes 4 (h.fmt.toNat + h.rnd.toNat * 16 + h.subop.toNat * 256 + h.opArg.toNat * 65536)

/-- The Ngaiz header that 48 bytes spell. -/
def headOf (b : List Byte) : NgHdr :=
  let ids := le b 8 8
  { version := BitVec.ofNat 4 (le b 0 1), type := BitVec.ofNat 4 (le b 0 1 / 16), retry := (le b 1 1).testBit 0,
    ackValid := (le b 1 1).testBit 1, nak := (le b 1 1).testBit 2, binned := (le b 1 1).testBit 3,
    last := (le b 1 1).testBit 4, opcode := BitVec.ofNat 8 (le b 2 1), reason := BitVec.ofNat 8 (le b 3 1),
    jobId := BitVec.ofNat 16 (le b 4 2), hedgeId := BitVec.ofNat 16 (le b 6 2), src := BitVec.ofNat 20 ids,
    dst := BitVec.ofNat 20 (ids / 2 ^ 20), flow := BitVec.ofNat 13 (ids / 2 ^ 40), seq := BitVec.ofNat 32 (le b 16 4),
    ackSeq := BitVec.ofNat 32 (le b 20 4), slot := BitVec.ofNat 48 (le b 24 6), length := BitVec.ofNat 16 (le b 30 2),
    offset := BitVec.ofNat 56 (le b 32 8), fmt := BitVec.ofNat 4 (le b 40 1), rnd := BitVec.ofNat 3 (le b 40 1 / 16),
    subop := BitVec.ofNat 8 (le b 41 1), opArg := BitVec.ofNat 16 (le b 42 2), check := BitVec.ofNat 32 (le b 44 4) }

/-- The header check: CRC-32C of bytes 0 to 43 (R50). -/
def headCheck (h : NgHdr) : W32 := crc32c (headBytes h)

/-- A header with its check. -/
def sealHdr (h : NgHdr) : NgHdr := { h with check := headCheck h }

/-- Frame types, Table 02.6. -/
def tData : BitVec 4 := 0
def tFiller : BitVec 4 := 1
def tBulk : BitVec 4 := 2
def tControl : BitVec 4 := 3
def tSignature : BitVec 4 := 4

/-- Frame opcodes, Table 02.6. -/
def oPut : Byte := 0x01
def oGetReq : Byte := 0x02
def oGetResp : Byte := 0x03
def oAtomic : Byte := 0x04
def oAtomicResp : Byte := 0x05
def oReduce : Byte := 0x06
def oMcast : Byte := 0x07
def oColl : Byte := 0x08
def oPrepare : Byte := 0x10
def oPrepareAck : Byte := 0x11
def oCommit : Byte := 0x12

/-- Data in whole lines, the last zero-filled (*The Ngaiz frame*). -/
def padLines (bs : List Byte) : List Byte := bs ++ List.replicate ((64 - bs.length % 64) % 64) 0

/-- The line checks of data in whole lines (11 R295). -/
def lineChecks (bs : List Byte) : List W32 :=
  (List.range (bs.length / 64)).map fun i => crc32c (slice bs (64 * i) 64)

/-! ### The headers around the Ngaiz frame (Table 02.1, R42, R43, R49; log 59) -/

/-- The IPv6 address of a node: the hall prefix, and the node ID in bits 19:0 of the interface identifier (R43). -/
def nodeAddr (s : State) (n : NodeId) : W128 := BitVec.ofNat 128 (s.ncr.hallPrefix.toNat * 2 ^ 64 + n.toNat)

/-- The NCR's entry of a port. -/
def ncrPort (s : State) (p : Nat) : NcrPort := (s.ncr.ports[p]?).getD {}

/-- The IPv6 payload: the UDP header, the Ngaiz header, the data and the line checks (R49). -/
def payloadLen (f : Frame) : Nat := 8 + 48 + f.data.length + 4 * f.lchk.length

/-- The big-endian 16-bit words of a list of bytes added up. -/
def sum16 : List Byte → Nat
  | a :: b :: l => a.toNat * 256 + b.toNat + sum16 l
  | [a] => a.toNat * 256
  | [] => 0

/-- The bytes of a number, the most significant first. -/
def beBytes (n v : Nat) : List Byte := (leBytes n v).reverse

/-- The UDP checksum over the IPv6 pseudo-header, the UDP header, the Ngaiz header, the data and the line checks. -/
def udpCheck (f : Frame) : W16 :=
  let n := payloadLen f
  let l := f.link
  let t := sum16 (beBytes 16 l.src6.toNat) + sum16 (beBytes 16 l.dst6.toNat) + n + 17 + l.udpSrc.toNat + l.udpDst.toNat + n +
    sum16 (headBytes f.hdr ++ leBytes 4 f.hdr.check.toNat ++ f.data) + ((f.lchk.map fun c => sum16 (leBytes 4 c.toNat)).foldl (· + ·) 0)
  BitVec.ofNat 16 (65535 - t % 65535)

/-- Headers not yet filled in. -/
def linkBlank : LinkHdr :=
  { etherType := 0, tags := 0, vlan := 0, pcp := 0, an := 0, pn := 0, src6 := 0, dst6 := 0, flowLabel := 0, hopLimit := 0,
    nextHdr := 0, payload := 0, udpSrc := 0, udpDst := 0, udpSum := 0 }

/-- The headers of a frame that leaves on its line at a priority, under a MACsec association and packet number; the flow
label is the flow index. -/
def linkFor (s : State) (pri an pn : Nat) (f : Frame) : Frame :=
  let l : LinkHdr :=
    { etherType := 0x86DD, tags := 1, vlan := (ncrPort s (f.port.toNat / 2)).vlan, pcp := BitVec.ofNat 3 pri
      an := BitVec.ofNat 2 an, pn := BitVec.ofNat 64 pn, src6 := nodeAddr s (nodeId s), dst6 := nodeAddr s f.hdr.dst
      flowLabel := f.hdr.flow.setWidth 20, hopLimit := 64, nextHdr := 17, payload := BitVec.ofNat 16 (payloadLen f)
      udpSrc := s.ncr.udpPort, udpDst := s.ncr.udpPort, udpSum := 0 }
  let g := { f with link := l }
  { g with link := { l with udpSum := udpCheck g } }

/-- The headers of a frame that arrives use no option outside Table 02.1, and the length and checksum that R49 and Table
02.1 ask to check are right. -/
def linkOk (s : State) (f : Frame) : Bool :=
  let l := f.link
  l.etherType == 0x86DD && l.tags == 1 && l.vlan == (ncrPort s (f.port.toNat / 2)).vlan && l.nextHdr == 17 &&
  l.udpDst == s.ncr.udpPort && l.payload.toNat == payloadLen f && l.udpSum == udpCheck f

/-- What a new frame says besides its place in the pair. -/
structure FrameArgs where
  type : BitVec 4 := 0
  opcode : Byte
  dst : NodeId
  hedge : Nat := 0xFFFF
  offset : Nat := 0
  fmt : Nat := 0
  rnd : Nat := 0
  subop : Nat := 0
  opArg : Nat := 0
  last : Bool := false
  length : Option Nat := none
  addend : Nat := 0
  olds : Bool := false
  data : List Byte := []
deriving DecidableEq, Repr

/-- A frame of this node; its sequence number, slot, flow, acknowledgement and outer headers are filled in as it leaves
(R58). -/
def mkFrame (s : State) (a : FrameArgs) : Frame :=
  let d := padLines a.data
  { port := 0, at_ := 0, fcsOk := true, macsec := .good, link := linkBlank, data := d, lchk := lineChecks d,
    addend := BitVec.ofNat 4 a.addend, olds := a.olds,
    hdr := { version := 3, type := a.type, retry := false, ackValid := false, nak := false, binned := false,
             last := a.last, opcode := a.opcode, reason := 0, jobId := s.job.jobId, hedgeId := BitVec.ofNat 16 a.hedge,
             src := nodeId s, dst := a.dst, flow := 0, seq := 0, ackSeq := 0, slot := 0,
             length := BitVec.ofNat 16 (a.length.getD a.data.length), offset := BitVec.ofNat 56 a.offset,
             fmt := BitVec.ofNat 4 a.fmt, rnd := BitVec.ofNat 3 a.rnd, subop := BitVec.ofNat 8 a.subop,
             opArg := BitVec.ofNat 16 a.opArg, check := 0 } }

/-- A frame waits for its slot. -/
def enqueue (s : State) (o : OutFrame) : State := { s with fab := { s.fab with ready := s.fab.ready ++ [o] } }

/-- The low 16 bits of a hedge's epoch, which op_arg carries in DATA frames (Table 09.2). -/
def epochArg (s : State) (hedge : Nat) : Nat := ((hedgeOf s hedge).map fun h => h.epoch.toNat % 65536).getD 0

/-- A DATA frame waits for its slot, its epoch filled in. -/
def sendData (s : State) (org : Origin) (pri : Nat) (a : FrameArgs) : State :=
  enqueue s { frame := mkFrame s { a with opArg := epochArg s a.hedge }, org := org, pri := pri }

/-- A port is split into half-ports (NCR). -/
def portSplit (s : State) (p : Nat) : Bool := (ncrPort s p).split

/-- The port of a line. -/
def portOf (line : BitVec 4) : Nat := line.toNat / 2

/-- The active plan. -/
def activePlan (s : State) : Option Plan :=
  if s.fab.espState = .running ∨ s.fab.espState = .suspended then
    (if s.fab.activeBank then s.fab.bank1 else s.fab.bank0).plan
  else none

/-- Data bytes that a frame toward a node holds at most (R49): a flow of the plan to it on a half-port holds 4 KiB. -/
def frameMax (s : State) (dst : NodeId) : Nat :=
  match activePlan s with
  | some p => if p.tx.any fun t => t.dst == dst && portSplit s (portOf t.port) then 4096 else 8192
  | none => if (List.range 8).any (portSplit s) then 4096 else 8192

end Sys2Proof.Machine
end

