-- ==== Sys2Proof/Machine/Tensor.lean ====
section
/-!
DEFINITION. The tensor engine (05): the checks of TMUL and TSCAN, the classes of accumulation, the pre-scan, the tile
walk with its residue checks, and the rows TMUL and TSCAN.
-/
namespace Sys2Proof.Machine

/-! ### Checks common to the engines (R106, R407) -/

/-- A descriptor reference word breaks R106, or its descriptor's own fields do. -/
def refBad (s : State) (w : W64) (optional : Bool) : Bool :=
  !refOk w ||
  match refIdx w with
  | none => !optional
  | some k => match descAt s k with
    | none => true
    | some d => !d.ok

/-- A descriptor that another names is beyond the pool or breaks Table 04.6. -/
def auxBad (s : State) (i : Option Nat) : Bool :=
  match i with
  | none => false
  | some k => match descAt s k with
    | none => true
    | some d => !d.ok

/-- Every descriptor a descriptor names is in the pool. -/
def auxesBad (s : State) (d : Desc) : Bool := auxBad s d.scale || auxBad s d.anchorD || auxBad s d.mask || auxBad s d.bias

/-- Operand words from `i` on are not all zero (R106). -/
def unusedBad (c : Cmd) (ws : List Nat) : Bool := ws.any fun i => c.w i != 0

/-- A word has bits outside a mask. -/
def bitsBad (w : W64) (mask : Nat) : Bool := w.toNat % 2 ^ 64 &&& (2 ^ 64 - 1 - mask) != 0

/-- A rounding code is legal (R88). -/
def rndOk (n : Ncw) : Bool := n.rnd ≤ 4

/-! ### The macro-operation (R126 to R131) -/

/-- What a TMUL or a TSCAN works on. -/
structure TP where
  a : Desc
  b : Desc
  c : Option Desc
  r : Desc
  ta : Bool
  tb : Bool
  bias : Nat
  m : Nat
  n : Nat
  k : Nat
deriving DecidableEq, Repr

/-- The operands of a TMUL or TSCAN command. -/
def tpOf (s : State) (f : InFl) : TP :=
  let w5 := f.cmd.w5
  let a := opnd! s f 1
  let r := opnd! s f 4
  let ta := wbit w5 0
  { a := a, b := opnd! s f 2, c := opnd s f 3, r := r, ta := ta, tb := wbit w5 1, bias := fld w5 3 2,
    m := r.c 1, n := r.c 0, k := if ta then a.c 1 else a.c 0 }

/-- The operation is of the exact class (R76). -/
def TP.exact (p : TP) : Bool :=
  p.a.fmt.exact && p.b.fmt.exact && p.a.ncw.scaleMode != 2 && p.b.ncw.scaleMode != 2

/-- A batch count of an operand is the result's or 1 (R126). -/
def batchOk (p r : Desc) : Bool := (List.range 3).all fun i => p.c (i + 2) == r.c (i + 2) || p.c (i + 2) == 1

/-- The counts of a TMUL operand's scale tensor do not follow R404. -/
def opScaleBad (s : State) (d : Desc) (outer k : Nat) : Bool :=
  match d.ncw.scaleMode with
  | 0 => false
  | 1 =>
    match d.scale.bind (descAt s) with
    | some sc => !(sc.rank == 1 && sc.c 0 == outer)
    | none => true
  | 2 =>
    match d.scale.bind (descAt s) with
    | some sc =>
      let (c0, c1) := if d.ncw.shareDir then (k, cdiv outer d.ncw.bs) else (cdiv k d.ncw.bs, outer)
      !(sc.c 0 == c0 && sc.c 1 == c1 && (List.range 3).all fun i => sc.c (i + 2) == d.c (i + 2))
    | none => true
  | _ => false

/-- A scale tensor's format breaks R404. -/
def scaleFmtBad (s : State) (d : Desc) : Bool :=
  match d.ncw.scaleMode with
  | 0 => false
  | 1 =>
    match d.scale.bind (descAt s) with
    | some sc => !(sc.fmt == .fp32 && sc.ncw.scaleMode == 0)
    | none => false
  | 2 =>
    match d.scale.bind (descAt s) with
    | some sc => !(sc.fmt == .uint8 && sc.ncw.scaleMode == 0)
    | none => false
  | _ => true

/-- The shapes of Table 05.1 disagree. -/
def tshapeBad (p : TP) : Bool :=
  let two := fun (d : Desc) => 2 ≤ d.rank
  !(two p.a && two p.b && two p.r) ||
  !(if p.ta then p.a.c 0 == p.m else p.a.c 1 == p.m) ||
  !(if p.tb then p.b.c 0 == p.k && p.b.c 1 == p.n else p.b.c 0 == p.n && p.b.c 1 == p.k) ||
  !(batchOk p.a p.r && batchOk p.b p.r) ||
  (match p.c with
   | some c => !(two c && c.counts == p.r.counts)
   | none => false)

/-- The anchor array's counts follow Table 05.1. -/
def anchorShapeBad (s : State) (d : Desc) (p : TP) : Bool :=
  d.ncw.anchorMode == 2 &&
  match d.anchorD.bind (descAt s) with
  | none => true
  | some a => !((a.c 0 == p.n || a.c 0 == 1) && (a.c 1 == p.m || a.c 1 == 1) && batchOk a p.r)

/-- A C that is a number, not brine (R127). -/
def TP.floatC (p : TP) : Bool := match p.c with | some c => !c.fmt.isBrine | none => false

/-- A C that is brine. -/
def TP.brineC (p : TP) : Bool := match p.c with | some c => c.fmt.isBrine | none => false

/-- The operation needs an anchor (R128 to R130). -/
def TP.needsAnchor (p : TP) : Bool := !p.exact || p.r.fmt.isBrine || p.brineC

/-- What R407 checks of a TMUL at decode, beyond its header. -/
def tmulBad (s : State) (f : InFl) : Bool :=
  let c := f.cmd
  let p := tpOf s f
  let acc := wbit c.w5 2
  refBad s c.w1 false || refBad s c.w2 false || refBad s c.w3 true || refBad s c.w4 false ||
  bitsBad c.w5 0x1F || unusedBad c [6, 7] ||
  [some p.a, some p.b, p.c, some p.r].any (fun o => (o.map fun d => auxesBad s d || d.mask.isSome).getD false) ||
  acc != p.c.isSome || tshapeBad p ||
  (p.bias == 0) != p.r.bias.isNone ||
  (match p.bias, p.r.bias.bind (descAt s) with
   | 1, some d => !(d.rank == 1 && d.c 0 == p.m)
   | 2, some d => !(d.rank == 1 && d.c 0 == p.n)
   | 3, some d => d.counts != p.r.counts || d.rank != p.r.rank
   | _, _ => false) ||
  opScaleBad s p.a p.m p.k || opScaleBad s p.b p.n p.k ||
  (p.r.ncw.scaleMode == 1 && opScaleBad s p.r p.n p.k) ||
  (match p.c with
   | some c => c.fmt.isBrine && anchorShapeBad s c p
   | none => false) ||
  (p.needsAnchor && anchorShapeBad s p.r p)

/-- A format allowed for an operand of TMUL (R127). -/
def opFmtOk (f : Fmt) : Bool :=
  match f with
  | .int32 | .int64 | .b128 | .b256 => false
  | _ => true

/-- A format allowed for a result or a C of TMUL (R127, R130). -/
def resFmtOk (f : Fmt) : Bool := !f.packed

/-- A format allowed for a bias (R131). -/
def biasFmtOk (f : Fmt) : Bool :=
  match f with
  | .fp64 | .fp32 | .bf16 | .fp16 | .e4m3 | .e5m2 | .int8 | .int32 | .int64 | .uint8 => true
  | _ => false

/-- A TMUL breaks a format rule (R76, R83, R88, R127 to R131, R404). -/
def tmulFormat (s : State) (p : TP) : Bool :=
  let rn := p.r.ncw
  let scaled := p.a.ncw.scaleMode == 1 || p.b.ncw.scaleMode == 1 || rn.scaleMode == 1
  !opFmtOk p.a.fmt || !opFmtOk p.b.fmt || p.a.ncw.scaleMode == 3 || p.b.ncw.scaleMode == 3 ||
  scaleFmtBad s p.a || scaleFmtBad s p.b || scaleFmtBad s p.r ||
  !resFmtOk p.r.fmt || !rndOk rn || 2 ≤ rn.scaleMode ||
  (!p.exact && (p.a.fmt == .fp64 || p.b.fmt == .fp64) && !rn.acc) ||
  (p.r.fmt.isBrine && (p.r.fmt != rn.brine || scaled || p.bias != 0)) ||
  (p.needsAnchor && !anchorsOk s p.r) ||
  (p.floatC && !p.exact && scaled) ||
  (p.bias != 0 && !((p.r.bias.bind (descAt s)).map (fun d => biasFmtOk d.fmt)).getD true) ||
  (match p.c with
   | some c => !resFmtOk c.fmt ||
     (c.fmt.isBrine && (c.fmt != rn.brine || 1 == c.ncw.anchorMode || 1 == rn.anchorMode || !anchorsOk s c ||
       !sameAnchors s c p.r))
   | none => false)

/-- The scale tensor that a TMUL reads with an operand or the result, if it reads one (R127). -/
def scaleRead (d : Desc) : Option Nat := if d.ncw.scaleMode == 0 then none else d.scale

/-- The anchor array that a TMUL reads with its result: none where no anchor is needed (R127, R130). -/
def TP.anchorRead (p : TP) : Option Nat :=
  if p.needsAnchor && p.r.ncw.anchorMode == 2 then p.r.anchorD else none

/-- The anchor array of a brine C (R127). -/
def TP.cAnchorRead (p : TP) : Option Nat :=
  if p.brineC then p.c.bind fun c => if c.ncw.anchorMode == 2 then c.anchorD else none else none

/-- The tensors that a TMUL reads besides its operands; a tensor whose field the operation ignores is not among them
(R127, R130). -/
def tpAux (s : State) (p : TP) : List Desc :=
  ([scaleRead p.a, scaleRead p.b, scaleRead p.r, if p.bias == 0 then none else p.r.bias, p.anchorRead,
    p.cAnchorRead].filterMap id).filterMap (descAt s)

/-- The issue checks of a TMUL (Table 04.11). -/
def tmulIssue (s : State) (b : Blk) (f : InFl) : List Status :=
  let p := tpOf s f
  ([p.a, p.b, p.r] ++ p.c.toList ++ tpAux s p).flatMap (storeCheck s b) ++
  (if tmulFormat s p then [.format] else [])

/-- The runs of `n` elements of row `i` of op(A) from column `k`, for a tile. -/
def aRuns (p : TP) (bt : List Nat) (i ni : Nat) : List Run :=
  if p.ta then (List.range p.k).map fun k => p.a.runAt (k :: p.a.share bt) i ni
  else (List.range ni).map fun d => p.a.runAt ((i + d) :: p.a.share bt) 0 p.k

/-- The runs of `nj` columns of op(B) from column `j`, for a tile. -/
def bRuns (p : TP) (bt : List Nat) (j nj : Nat) : List Run :=
  if p.tb then (List.range nj).map fun d => p.b.runAt ((j + d) :: p.b.share bt) 0 p.k
  else (List.range p.k).map fun k => p.b.runAt (k :: p.b.share bt) j nj

/-- The runs of an operand's scales that `n` rows of a tile from row `i` read; its scales' rows follow the operand's rows
or blocks of them, its innermost index the K range (R75, R404); for scale_mode 1, its entries of those rows. -/
def scaleRuns (s : State) (d : Desc) (bt : List Nat) (k i n : Nat) : List Run :=
  match (scaleRead d).bind (descAt s) with
  | none => []
  | some sc =>
    if n = 0 then []
    else if d.ncw.scaleMode = 1 then [sc.runAt [] i n]
    else if d.ncw.shareDir then
      (List.range ((i + n - 1) / d.ncw.bs - i / d.ncw.bs + 1)).map fun j =>
        sc.runAt ((i / d.ncw.bs + j) :: sc.share (d.share bt)) 0 k
    else (List.range n).map fun j => sc.runAt ((i + j) :: sc.share (d.share bt)) 0 (cdiv k d.ncw.bs)

/-- The runs of the bias that a tile reads (R131). -/
def biasRuns (s : State) (p : TP) (bt : List Nat) (i ni j nj : Nat) : List Run :=
  match p.bias, p.r.bias.bind (descAt s) with
  | 1, some d => [d.runAt [] i ni]
  | 2, some d => [d.runAt [] j nj]
  | 3, some d => (List.range ni).map fun x => d.runAt ((i + x) :: bt) j nj
  | _, _ => []

/-- The value of op(A)[i,k] with its block scale (R75). -/
def aVal (s : State) (p : TP) (bt : List Nat) (i k : Nat) : Val :=
  let raw := if p.ta then p.a.rawIx s i (k :: p.a.share bt) else p.a.rawIx s k (i :: p.a.share bt)
  ((p.a.fmt.decode raw).mul (blockScale s p.a i k (p.a.share bt))).1

/-- The value of op(B)[k,j] with its block scale (R75). -/
def bVal (s : State) (p : TP) (bt : List Nat) (k j : Nat) : Val :=
  let raw := if p.tb then p.b.rawIx s k (j :: p.b.share bt) else p.b.rawIx s j (k :: p.b.share bt)
  ((p.b.fmt.decode raw).mul (blockScale s p.b j k (p.b.share bt))).1

/-- The larger of two optional exponents. -/
def maxE (a b : Option Int) : Option Int :=
  match a, b with
  | some x, some y => some (max x y)
  | some x, none => some x
  | none, y => y

/-- The pre-scan anchor of an output element (R94, R83). -/
def prescan (s : State) (p : TP) (bt : List Nat) (i j : Nat) : Int :=
  let ea := (List.range p.k).foldl (fun m k => maxE m (aVal s p bt i k).e) none
  let eb := (List.range p.k).foldl (fun m k => maxE m (bVal s p bt k j).e) none
  let ec := match p.c with
    | some c => if c.fmt.isBrine then none else (c.fmt.decode (c.rawIx s j (i :: bt))).e
    | none => none
  let pr := match ea, eb with | some x, some y => some (x + y + 1) | _, _ => none
  match maxE pr ec with
  | some x => anchorClamp x
  | none => -4096

/-- The anchor of an output element under the result's control word (R127, Table 03.8). -/
def tAnchor (s : State) (p : TP) (bt : List Nat) (i j : Nat) : Int :=
  if p.r.ncw.anchorMode = 1 then prescan s p bt i j else anchorOf s p.r i j bt

/-- One output element of a TMUL: the result's bits and the flags (R128, R129, R84). Where a scale product or the sum of
bias and C is an invalid operation, step 3 of R84 sets NV. A float C of an exact-class operation with a brine result,
which has no β, enters as one further addend under the result's anchor (DESIGN CHOICE, log 56). -/
def tmulElem (s : State) (p : TP) (bt : List Nat) (bn i j : Nat) : Nat × Fl :=
  let rn := p.r.ncw
  let prods := (List.range p.k).map fun k => (aVal s p bt i k).mul (bVal s p bt k j)
  let cRaw := (p.c.map fun c => c.rawIx s j (i :: bt)).getD 0
  let cVal : Option Val := if p.floatC then (p.c.map fun c => c.fmt.decode cRaw) else none
  let bias : Option Val :=
    match p.bias, p.r.bias.bind (descAt s) with
    | 1, some d => some (d.fmt.decode (d.rawIx s i []))
    | 2, some d => some (d.fmt.decode (d.rawIx s j []))
    | 3, some d => some (d.fmt.decode (d.rawIx s j (i :: bt)))
    | _, _ => none
  let sc1 := Val.mul (rowScale s p.a i) (rowScale s p.b j)
  let sc2 := Val.mul sc1.1 (rowScale s p.r j)
  let sc : Val × Bool := (sc2.1, sc1.2 || sc2.2)
  let anchor := if p.needsAnchor then tAnchor s p bt i j else 0
  let idx := bn * (p.m * p.n) + i * p.n + j
  let u := drawOf s rn idx
  let cBrine : Brine := match p.c with
    | some c => if c.fmt.isBrine then c.fmt.unpackBrine cRaw else {}
    | none => {}
  let zero := Val.zero
  if p.exact then
    let e := prods.foldl (fun a x => a + toExact x.1) 0
    let fl := prods.foldl (fun (a : Byte) x => a ||| exactFlags x.1) 0
    if p.r.fmt.isBrine || p.brineC then
      let s1 := Brine.add (Brine.addVal rn.brine anchor ⟨0, fl⟩ (exactVal e)) cBrine
      if p.r.fmt.isBrine then
        (p.r.fmt.packBrine (match cVal with | some v => Brine.addVal rn.brine anchor s1 v | none => s1), 0)
      else
        let x := crystallise p.r.fmt rn.mode u (rn.brine.brineVal anchor s1) s1.fl sc.1 (bias.getD zero)
        (x.1, x.2 ||| Fl.when (sc.2 && sumFinite s1.fl) Fl.nv)
    else
      let beta : Val × Bool := match bias, cVal with
        | some x, some y => Val.add (rn.mode == .rdn) x y
        | some x, none => (x, false)
        | none, some y => (y, false)
        | none, none => (zero, false)
      let x := crystallise p.r.fmt rn.mode u (exactVal e) fl sc.1 beta.1
      (x.1, x.2 ||| Fl.when ((beta.2 || sc.2) && sumFinite fl) Fl.nv)
  else
    let s0 := prods.foldl (fun a x => Brine.addVal rn.brine anchor a x.1) {}
    let s1 := Brine.add (match cVal with | some v => Brine.addVal rn.brine anchor s0 v | none => s0) cBrine
    if p.r.fmt.isBrine then (p.r.fmt.packBrine s1, 0)
    else
      let x := crystallise p.r.fmt rn.mode u (rn.brine.brineVal anchor s1) s1.fl sc.1 (bias.getD zero)
      (x.1, x.2 ||| Fl.when (sc.2 && sumFinite s1.fl) Fl.nv)

/-- The tiles of one batch element in walk order: supertiles of 4 × 4 row-major, tiles row-major in each. -/
def tileWalk (m n : Nat) : List (Nat × Nat) :=
  let tm := cdiv m 32
  let tn := cdiv n 32
  (List.range (cdiv tm 4)).flatMap fun si => (List.range (cdiv tn 4)).flatMap fun sj =>
    (List.range (min 4 (tm - 4 * si))).flatMap fun i => (List.range (min 4 (tn - 4 * sj))).map fun j =>
      (4 * si + i, 4 * sj + j)

/-- One tile run of Table 05.3: pass, run again, or CHECK. -/
inductive TileRun where
  | pass | again | check
deriving DecidableEq, Repr

/-- The action after a tile run (Table 05.3) on the array's record; retired columns answer the column record. -/
def tileRun (s : State) (b : Blk) (run : Nat) (ms : List Mismatch) : State × TileRun :=
  let k := s.blk b
  let t := k.tns
  let cells := ms.map fun m => (m.col, m.row)
  if cells.isEmpty then (s, .pass)
  else
    let early := cells.filter fun c => c ∈ t.marked
    let marked := t.marked ++ (cells.filter fun c => c ∉ t.marked).eraseDups
    let s1 := s.updBlk b fun k => { k with tns := { k.tns with marked := marked } }
    let again := fun (x : State) => x.updBlk b fun k => { k with tns := { k.tns with reruns := satAdd k.tns.reruns 1 } }
    if run ≥ 3 then (s1, .check)
    else if early.isEmpty then (again s1, .again)
    else
      let cols := (early.map Prod.fst).eraseDups
      match cols, t.retired with
      | [c], none =>
        if c < 32 then
          let row := (early.headD (0, 0)).2
          let s2 := s1.updBlk b fun k => { k with tns := { k.tns with retired := some (c, row) } }
          let s3 := record s2 .columnRetire
            { unitKind := 0, unit := b.key,
              detail := detailB b.region.toNat (physOf s b.region.toNat b.block.toNat) c row 0 }
          (again s3, .again)
        else (s1, .check)
      | _, _ => (s1, .check)

/-- How far a TMUL has come: the state, the flags so far, and its end if it has ended. -/
structure TWalk where
  s : State
  fl : Fl := 0
  stop : Option (Status × Option (ErrCode × Nat)) := none

/-- The state after a tile's results are written (R136): the elements are those that the operands give as the command
found them in `v`; a result that overlaps what it reads is unspecified, its flags are not (R125). -/
def tileWrite (v : State) (w : TWalk) (p : TP) (bt : List Nat) (bn ti tj : Nat) (overlap : Bool) : TWalk :=
  let ni := min 32 (p.m - 32 * ti)
  let nj := min 32 (p.n - 32 * tj)
  let cells := (List.range ni).map fun i => (List.range nj).map fun j =>
    let x := tmulElem v p bt bn (32 * ti + i) (32 * tj + j)
    if overlap then
      (freeRaw (drewN v p.r.ncw p.r.size) p.r.fmt (bn * p.m * p.n + (32 * ti + i) * p.n + 32 * tj + j), x.2)
    else x
  let runs := (List.range ni).map fun i => p.r.runAt ((32 * ti + i) :: bt) (32 * tj) nj
  let (s1, e) := touch w.s (partialRuns runs)
  match e with
  | some x => { w with s := s1, stop := some (x.1, some x.2) }
  | none =>
    let s2 := (cells.zip runs).foldl (fun t x =>
      (wrRow t p.r.fmt x.2.npa (x.1.map fun v => some v.1)).1) s1
    { w with s := s2, fl := cells.foldl (fun a row => row.foldl (fun a v => a ||| v.2) a) w.fl }

/-- One tile: its runs, at most three, each reading the operands, and its write after a run passes (R135, R136). -/
def tileGo (v : State) (p : TP) (b : Blk) (mm : List Mismatch) (overlap : Bool) (bt : List Nat) (bn tile ti tj : Nat) :
    Nat → Nat → TWalk → TWalk
  | 0, _, w => w
  | n + 1, run, w =>
    let ni := min 32 (p.m - 32 * ti)
    let nj := min 32 (p.n - 32 * tj)
    let cR := match p.c with
      | some c => (List.range ni).map fun i => c.runAt ((32 * ti + i) :: bt) (32 * tj) nj
      | none => []
    let reads := aRuns p bt (32 * ti) ni ++ bRuns p bt (32 * tj) nj ++ cR ++
      scaleRuns w.s p.a bt p.k (32 * ti) ni ++ scaleRuns w.s p.b bt p.k (32 * tj) nj ++
      (if p.r.ncw.scaleMode = 1 then scaleRuns w.s p.r bt 0 (32 * tj) nj else []) ++
      biasRuns w.s p bt (32 * ti) ni (32 * tj) nj
    let (s1, e) := touch w.s reads
    let ms := mm.filter fun m => m.tile == tile && m.run == run
    match e with
    | some x =>
      let s2 := s1.updBlk b fun k => { k with tns := { k.tns with marked := k.tns.marked ++
        ((ms.map fun m => (m.col, m.row)).filter fun c => c ∉ k.tns.marked).eraseDups } }
      { w with s := s2, stop := some (x.1, some x.2) }
    | none =>
      match tileRun s1 b run ms with
      | (s2, .pass) =>
        let s3 := if run = 1 then s2 else record s2 .residueRetry
          { unitKind := 0, unit := b.key, detail := detailB b.region.toNat (physOf s2 b.region.toNat b.block.toNat)
              (((mm.filter fun m => m.tile == tile).head?.map Mismatch.col).getD 0)
              (((mm.filter fun m => m.tile == tile).head?.map Mismatch.row).getD 0) 0 }
        tileWrite v { w with s := s3 } p bt bn ti tj overlap
      | (s2, .again) => tileGo v p b mm overlap bt bn tile ti tj n (run + 1) { w with s := s2 }
      | (s2, .check) => { w with s := s2, stop := some (.check, none) }

/-- The number of batch elements of a result. -/
def batches (d : Desc) : Nat := d.c 2 * d.c 3 * d.c 4

/-- The block scales of an operand, whole. -/
def blockScaleRuns (s : State) (d : Desc) : List Run := if d.ncw.scaleMode == 2 then auxRuns s d.scale else []

/-- What a pre-scan reads: the operands with their block scales, and a float C (R94). -/
def prescanRuns (s : State) (p : TP) : List Run :=
  p.a.runs ++ p.b.runs ++ blockScaleRuns s p.a ++ blockScaleRuns s p.b ++
    (if p.floatC then (p.c.map Desc.runs).getD [] else [])

/-- What a TMUL reads before its first product: the anchor arrays, and the operands of a pre-scan (R94, R131). -/
def tmulPre (s : State) (p : TP) : List Run :=
  auxRuns s p.anchorRead ++ auxRuns s p.cAnchorRead ++
    (if p.needsAnchor && p.r.ncw.anchorMode == 1 then prescanRuns s p else [])

/-- The result of a TMUL overlaps a tensor that it reads, and is not C itself (R125). -/
def tmulOverlap (s : State) (p : TP) : Bool :=
  p.c.toList.any (badOverlap p.r) || ([p.a, p.b] ++ tpAux s p).any (extentsMeet p.r)

/-- The tiles of every batch element of a TMUL, from the state that its reading left: the draws of its result are set
apart first, the elements are those of the state it was read in. -/
def tmulTiles (v : State) (b : Blk) (p : TP) (mm : List Mismatch) (overlap : Bool) : TWalk :=
  let d := drewN v p.r.ncw p.r.size
  let s := if overlap then { d with free := d.free + 4 * p.r.size } else d
  let tiles := (List.range (batches p.r)).flatMap fun bn => (tileWalk p.m p.n).map fun t => (bn, t)
  tiles.zipIdx.foldl (fun (w : TWalk) x =>
    match w.stop with
    | some _ => w
    | none => tileGo v p b mm overlap (batchIx p.r.counts x.1.1) x.1.1 x.2 x.1.2.1 x.1.2.2 3 1 w) { s := s }

/-- A TMUL carried out. A second column to retire ends it with CHECK, and its block is retired when it completes (R19). -/
def tmulRun (s : State) (b : Blk) (f : InFl) (mm : List Mismatch) : State :=
  let p := tpOf s f
  let s0 := updInFl s b .TQ f.idx fun x => { x with started := true }
  withTouch s0 (tmulPre s p) b .TQ f.idx fun s1 =>
    let w := tmulTiles s1 b p mm (tmulOverlap s p)
    let s2 := setFlags w.s b 0 w.fl
    match w.stop with
    | none => finishOut s2 b .TQ f.idx .ok (p.r.runs.flatMap fun r => rdN s2 r.npa r.len)
    | some (st, some x) => finishFault s2 b .TQ f.idx (st, x)
    | some (st, none) => updInFl s2 b .TQ f.idx fun x => { x with done := some st, retires := true }

/-! ### TSCAN (R132) -/

/-- What R407 checks of a TSCAN at decode. -/
def tscanBad (s : State) (f : InFl) : Bool :=
  let c := f.cmd
  let p := tpOf s f
  refBad s c.w1 false || refBad s c.w2 false || refBad s c.w3 true || refBad s c.w4 false ||
  bitsBad c.w5 0x3 || unusedBad c [6, 7] ||
  [some p.a, some p.b, p.c, some p.r].any (fun o => (o.map fun d => auxesBad s d || d.mask.isSome).getD false) ||
  tshapeBad p || opScaleBad s p.a p.m p.k || opScaleBad s p.b p.n p.k

/-- The block scales that a TSCAN reads; a per-row scale does not enter it (R94). -/
def scanAux (s : State) (p : TP) : List Desc :=
  ([p.a, p.b].filterMap fun d => if d.ncw.scaleMode == 2 then d.scale else none).filterMap (descAt s)

/-- The issue checks of a TSCAN. -/
def tscanIssue (s : State) (b : Blk) (f : InFl) : List Status :=
  let p := tpOf s f
  ([p.a, p.b, p.r] ++ p.c.toList ++ scanAux s p).flatMap (storeCheck s b) ++
  (if !opFmtOk p.a.fmt || !opFmtOk p.b.fmt || p.a.ncw.scaleMode == 3 || p.b.ncw.scaleMode == 3 ||
      scaleFmtBad s p.a || scaleFmtBad s p.b || p.r.fmt != .int32 ||
      !((p.c.map fun c => resFmtOk c.fmt).getD true) then [.format] else [])

/-- A TSCAN carried out: the anchors of R94 as an INT32 array. -/
def tscanRun (s : State) (b : Blk) (f : InFl) : State :=
  let p := tpOf s f
  withTouch s (prescanRuns s p ++ partialRuns p.r.runs) b .TQ f.idx fun s1 =>
    let overlap := ([p.a, p.b] ++ (if p.floatC then p.c.toList else []) ++ scanAux s p).any (extentsMeet p.r)
    let (s2, out) := wrT s1 p.r fun e => some <|
      if overlap then freeRaw s1 .int32 e
      else tc 32 (prescan s1 p (batchIx p.r.counts (e / (p.m * p.n))) (e % (p.m * p.n) / p.n) (e % p.n))
    let s3 := if overlap then { s2 with free := s2.free + 4 * p.r.size } else s2
    finishOut s3 b .TQ f.idx .ok out

/-- TMUL: the tensor engine carries out the block's first TMUL that has issued, with the residue mismatches it meets
(R126 to R136). -/
def execTmul (b : Blk) (mm : List Mismatch) (s : State) : Host.Outcome State Fault Refusal :=
  .next (engine s b .TQ 0x10 fun s f => tmulRun s b f mm)

/-- TSCAN: the tensor engine carries out the block's first TSCAN that has issued (R132). -/
def execTscan (b : Blk) (s : State) : Host.Outcome State Fault Refusal :=
  .next (engine s b .TQ 0x11 fun s f => tscanRun s b f)

end Sys2Proof.Machine
end

