-- ==== Sys2Proof/Machine/Stream.lean ====
section
/-!
DEFINITION. The stream unit (08): stream control, the checks of SIN and SOUT, requests and merging, rings, the sluice,
arbitration, landing, write responses and timeouts; the rows SIN, SOUT, STREAM_DATA_LANDED, WRITE_RESPONSE and
STREAM_REQUEST_TIMEOUT.
-/
namespace Sys2Proof.Machine

/-! ### The stream control descriptor, Table 08.1 -/

/-- A stream control descriptor. -/
structure StCtl where
  ring : Bool := false
  narrow : Bool := false
  high : Nat := 0
  low : Nat := 0
  rush : Nat := 0
  rate : Nat := 0
  /-- reserved fields are zero -/
  ok : Bool := true
deriving DecidableEq, Repr, Inhabited

/-- The fields of its 128 bytes. -/
def StCtl.of (bs : List Byte) : StCtl :=
  { ring := (le bs 0 1).testBit 0, narrow := (le bs 0 1).testBit 1, high := le bs 4 4, low := le bs 8 4,
    rush := le bs 12 4, rate := le bs 16 4,
    ok := le bs 0 4 >>> 2 == 0 && (slice bs 20 108).all (· == 0) }

/-- The control that a reference word selects: none selects the defaults (R215). -/
def stCtl (s : State) (w : W64) : Option StCtl :=
  match refIdx w with
  | none => some {}
  | some k => (descBytes s k).map StCtl.of

/-- What R220 and R221 ask of the control fields alone, for an inbound or outbound stream. -/
def StCtl.good (k : StCtl) (inbound : Bool) : Bool :=
  k.ok && (if k.ring then k.high % 64 == 0 && k.low % 64 == 0 && k.low ≤ k.high
           else k.high == 0 && k.low == 0 && k.rush == 0) && (inbound || k.rush == 0)

/-- The block-store end of a ring (R221, *Rings*). -/
def ringOk (k : StCtl) (near : Desc) : Bool :=
  near.rank == 1 && near.fmt == .uint8 && near.c 0 % 4096 == 0 && 8192 ≤ near.c 0 && k.high < near.c 0 && k.low < near.c 0

/-! ### SIN and SOUT: ends and checks (R214 to R221) -/

/-- The queue of an inbound or outbound stream. -/
def dirQ (inbound : Bool) : Qc := if inbound then .IQ else .OQ

/-- The far and the near descriptor of a SIN or a SOUT. -/
def streamEnds (s : State) (f : InFl) (inbound : Bool) : Desc × Desc :=
  if inbound then (opnd! s f 1, opnd! s f 2) else (opnd! s f 2, opnd! s f 1)

/-- What R407 checks of a SIN or SOUT. -/
def streamBad (s : State) (f : InFl) (inbound : Bool) : Bool :=
  let c := f.cmd
  let (far, near) := streamEnds s f inbound
  refBad s c.w1 false || refBad s c.w2 false || !refOk c.w3 || bitsBad c.w4 0xF || 13 < fld c.w4 0 4 ||
  unusedBad c [5, 6, 7] ||
  match stCtl s c.w3 with
  | none => true
  | some k => !k.good inbound || (if k.ring then !ringOk k near else far.counts != near.counts)

/-- A far end lies where R216 allows it. -/
def farOk (s : State) (b : Blk) (d : Desc) : Bool :=
  d.empty ||
  (!d.remote && match place s d.extent.1.toNat with
    | .mem _ _ | .rstore _ _ | .host _ => true
    | .block r k _ => r * 64 + k != b.key
    | _ => false)

/-- Alignment of a bulk end (R218). -/
def bulkAligned (d : Desc) : Bool :=
  d.empty || (d.base % 64 == 0 && d.stridesOk 64 && d.rowBytes % 64 == 0)

/-- Alignment of a narrow far end, which lies in node memory (R218). -/
def narrowFar (s : State) (d : Desc) : Bool :=
  d.empty || (d.base % 8 == 0 && d.stridesOk 8 && d.rowBytes % 8 == 0 &&
    match place s d.extent.1.toNat with
    | .mem _ _ => true
    | _ => false)

/-- Alignment of a narrow block-store end (R218). -/
def narrowNear (d : Desc) : Bool := d.empty || (d.rank == 1 && d.base % 64 == 0 && d.rowBytes % 64 == 0)

/-- A format that a stream does not convert to or from (R217). -/
def noStreamConv (f : Fmt) : Bool := f.packed || f.isBrine

/-- The stream converts its elements. -/
def streamConv (k : StCtl) (src tgt : Desc) : Bool := !k.ring && src.fmt != tgt.fmt

/-- The issue checks of a SIN or SOUT, whether or not an address register is added (R217 to R219). -/
def streamIssue (s : State) (b : Blk) (f : InFl) (inbound : Bool) : List Status :=
  let (far, near) := streamEnds s f inbound
  let (src, tgt) := if inbound then (far, near) else (near, far)
  let k := (stCtl s f.cmd.w3).getD {}
  (if src.ncw.scaleMode != 0 || tgt.ncw.scaleMode != 0 ||
      (streamConv k src tgt && (noStreamConv src.fmt || noStreamConv tgt.fmt || !rndOk tgt.ncw)) then [.format] else []) ++
  extentCheck s far ++ bufCheck s far ++ extentCheck s near ++ bufCheck s near ++
  (if farOk s b far && inStore b near then [] else [.bounds]) ++
  (if k.narrow then (if narrowFar s far && narrowNear near then [] else [.align])
   else (if bulkAligned far && bulkAligned near then [] else [.align]))

/-! ### Requests (R227) -/

/-- Runs of a far and a near end of equal counts, row by row, joined where they are consecutive at both ends. -/
def joinRows (l : List SReq) : List SReq :=
  (l.foldl (fun acc r =>
    match acc with
    | a :: rest => if a.far + a.bytes = r.far ∧ a.near + a.nb = r.near
                   then { a with bytes := a.bytes + r.bytes, nb := a.nb + r.nb } :: rest else r :: acc
    | [] => [r]) []).reverse

/-- A run cut into requests of at most `lim` far-end bytes that cross no multiple of `page` at the far end; `fs` and
`ns` are the bytes of an element at either end. -/
def cutRun (lim page fs ns : Nat) : Nat → SReq → List SReq
  | 0, _ => []
  | n + 1, r =>
    if r.bytes = 0 then []
    else
      let t := min (min r.bytes lim) (page - r.far % page)
      let u := t / fs * ns
      { r with bytes := t, nb := u } ::
        cutRun lim page fs ns n { r with far := r.far + t, bytes := r.bytes - t, near := r.near + u, nb := r.nb - u,
                                         elem := r.elem + t / fs }

/-- Requests numbered in stream order. -/
def number (l : List SReq) : List SReq := l.zipIdx.map fun e => { e.1 with no := e.2 }

/-- The far-end rows of a stream with the near-end place of each; a ring's near end is settled as requests leave. -/
def streamRows (ring : Bool) (far near : Desc) : List SReq :=
  if far.empty || (!ring && near.empty) then []
  else (List.range far.rows).map fun r =>
    { far := far.rowNpa r, near := if ring then far.rowBytes * r else near.rowNpa r, bytes := far.rowBytes,
      nb := if ring then far.rowBytes else near.rowBytes, elem := r * far.c 0 }

/-- The bytes of an element for cutting requests: 1 where bytes move as they are. -/
def elemBytes (conv : Bool) (d : Desc) : Nat := if conv then d.fmt.bits / 8 else 1

/-- The requests of a SIN or SOUT, before ring ends and the sluice cut them further. -/
def streamReqs (k : StCtl) (conv : Bool) (far near : Desc) : List SReq :=
  let lim := if k.narrow then 512 else 4096
  number ((joinRows (streamRows k.ring far near)).flatMap fun r =>
    cutRun lim 4096 (elemBytes conv far) (elemBytes conv near) (r.bytes / 8 + 2) r)

/-! ### Counts, clamps and the sluice (R222 to R226) -/

/-- PEER′ (R224). -/
def peerClamp (c : Ctx) (a : Active) : Nat :=
  if a.outbound then min c.peer.toNat (c.own.toNat + a.ringSize) else min c.peer.toNat c.own.toNat

/-- Free space F of an inbound ring (R225), or available bytes V of an outbound one (R226). -/
def ringRoom (c : Ctx) (a : Active) : Int :=
  if a.outbound then (peerClamp c a : Int) - c.issued.toNat
  else (a.ringSize : Int) - (c.issued.toNat - (peerClamp c a : Int))

/-- Bytes of the stream not yet requested, Q of R226. -/
def bytesLeft (a : Active) : Nat := (a.todo.map SReq.nb).foldl (· + ·) 0

/-- The bytes landed and not released of an inbound ring are fewer than its rush mark (R233). -/
def rushes (c : Ctx) (a : Active) : Bool :=
  c.ring && !a.outbound && a.rush != 0 && decide (c.own.toNat - peerClamp c a < a.rush)

/-- What the sluice does at a decision: open, closed, or as it was (R225, R226); and whether the stream's reads are
latency-critical by its rush mark (R233). -/
def sluice (c : Ctx) : Ctx :=
  match c.active with
  | none => c
  | some a =>
    let c1 := { c with rush := rushes c a }
    if !c.ring || !(c.state == .opened || c.state == .closed) then c1
    else
      let room := ringRoom c a
      let lastDrain := a.outbound && room == (bytesLeft a : Int) && bytesLeft a != 0
      if (a.high : Int) < room || lastDrain then { c1 with state := .opened }
      else if room < a.low then { c1 with state := .closed }
      else c1

/-- PEER stands above its clamp while a ring stream is on the context: counted and recorded with severity C (R224). -/
def clampCheck (s : State) (b : Blk) (n : Nat) : State :=
  let c := s.ctx b n
  match c.active with
  | some a =>
    if c.ring && peerClamp c a < c.peer.toNat then
      record (s.setCtx b n { c with creditErr := satAdd c.creditErr 1 }) .creditClamp
        { unitKind := 1, unit := b.key,
          detail := detailA b (if c.oq then .OQ else .IQ) .ok a.pos c.label.toNat s.job.loadGen.toNat [] 0xFF n }
    else s
  | none => s

/-- SIGNAL's atomic add to STM_CTX_PEER (R222, R224). -/
def addPeer (s : State) (b : Blk) (n : Nat) (v : W64) : State :=
  let c := s.ctx b n
  clampCheck (s.setCtx b n { c with peer := c.peer + v }) b n

/-- Every context's counts at zero (R223). -/
def zeroCounts (k : Block) : Block :=
  { k with ctxs := k.ctxs.mapV {} fun _ c => { c with peer := 0, own := 0, issued := 0 } }

/-! ### The life of a stream -/

/-- The queue that a context serves. -/
def ctxQ (c : Ctx) : Qc := if c.oq then .OQ else .IQ

/-- The command that a context carries. -/
def ctxCmd (s : State) (b : Blk) (c : Ctx) (a : Active) : Option InFl :=
  (s.q b (ctxQ c)).inflight.find? fun f => f.idx == a.idx && f.started && f.done.isNone

/-- The stream ends once nothing is left to send and every request sent is answered: its command finishes, with the
failure lowest in stream order if there was one (R234, R235). -/
def settle (s : State) (b : Blk) (n : Nat) : State :=
  let c := s.ctx b n
  match c.active with
  | none => s
  | some a =>
    if !a.todo.isEmpty || !a.sent.isEmpty || (a.coll && a.fail.isNone) then s
    else
      let s0 := if a.coll then dropEntries s b a.idx else s
      let s1 := s0.setCtx b n { c with active := none, state := .idle, aged := false, losses := 0,
                                       rush := false, ring := false }
      match a.fail with
      | none => finish s1 b (ctxQ c) a.idx .ok
      | some (_, st, none) => finish s1 b (ctxQ c) a.idx st
      | some (_, st, some (code, npa)) => finishFault s1 b (ctxQ c) a.idx (st, code, npa)

/-- A request of the stream has failed: nothing more is sent, and the failure lowest in order stands (R235). -/
def failReq (s : State) (b : Blk) (n : Nat) (no : Nat) (st : Status) (e : Option (ErrCode × Nat)) : State :=
  let c := s.ctx b n
  match c.active with
  | none => s
  | some a =>
    let lower : Bool := match a.fail with | some (m, _, _) => decide (no < m) | none => true
    let a1 : Active := { a with todo := [], fail := if lower then some (no, st, e) else a.fail }
    s.setCtx b n { c with state := .waiting, active := some a1 }

/-- A stream starts on its context; the sluice tests at issue (R214, R225), and PEER may already stand above its
clamp (R224). -/
def startStream (s : State) (b : Blk) (n : Nat) (q : Qc) (f : InFl) (ring : Bool) (a : Active) : State :=
  let c := s.ctx b n
  let st : CtxState := if a.todo.isEmpty then .finishing else if ring then .closed else .opened
  let c1 : Ctx := { c with state := st, ring := ring, aged := false, losses := 0, oq := q == .OQ, rush := false,
                           label := BitVec.ofNat 10 f.cmd.label, active := some { a with pos := f.pos } }
  let s1 := updInFl (s.setCtx b n c1) b q f.idx fun x => { x with started := true }
  let s2 := clampCheck s1 b n
  settle (s2.setCtx b n (sluice (s2.ctx b n))) b n

/-- A SIN or SOUT carried to its context. -/
def streamRun (s : State) (b : Blk) (f : InFl) (inbound : Bool) : State :=
  let (far, near) := streamEnds s f inbound
  let k := (stCtl s f.cmd.w3).getD {}
  let (src, tgt) := if inbound then (far, near) else (near, far)
  startStream s b (fld f.cmd.w4 0 4) (dirQ inbound) f k.ring
    { idx := f.idx, remote := false, outbound := !inbound, narrow := k.narrow, lc := inbound && far.lc, high := k.high, low := k.low,
      rush := k.rush, rate := k.rate, ringBase := near.base, ringSize := if k.ring then near.c 0 else 0,
      todo := streamReqs k (streamConv k src tgt) far near, sent := [] }

/-! ### Conversion of a request's elements (R217) -/

/-- The near-end or far-end bytes of a request, converted from the source's format to the target's, and the flags. -/
def convBytes (s : State) (src tgt : Desc) (elem : Nat) (bs : List Byte) : List Byte × Fl :=
  let sb := src.fmt.bits / 8
  let tb := tgt.fmt.bits / 8
  (List.range (bs.length / sb)).foldl (fun acc i =>
    let (raw, fl) := tgt.fmt.round tgt.ncw.mode (drawOf s tgt.ncw (elem + i)) (src.fmt.decode (le bs (sb * i) sb))
    (acc.1 ++ leBytes tb raw, acc.2 ||| fl)) ([], 0)

/-- A request's data as its target holds them, with the state after flags and draws: a SIN or a SOUT converts them, the
other streams move them as they are. -/
def reqData (s : State) (b : Blk) (f : InFl) (ring : Bool) (r : SReq) (bs : List Byte) : State × List Byte :=
  let src := opnd! s f 1
  let tgt := opnd! s f 2
  if ring || src.fmt == tgt.fmt || !(f.cmd.opcode == 0x40 || f.cmd.opcode == 0x50) then (s, bs)
  else
    let (out, fl) := convBytes s src tgt r.elem bs
    (drewN (setFlags s b 1 fl) tgt.ncw (bs.length / (src.fmt.bits / 8)), out)

/-- The output bytes of a command noted for R264. -/
def noteOut (s : State) (b : Blk) (q : Qc) (idx : Nat) (bs : List Byte) : State :=
  updInFl s b q idx fun f => { f with out := f.out ++ bs }

/-! ### Arbitration (R231, R232) -/

/-- The next request of a context and what stays to be sent, cut at the ring's end and, outbound, within V. -/
def nextReq (c : Ctx) (a : Active) : Option (SReq × List SReq) :=
  match a.todo with
  | [] => none
  | r :: rest =>
    if !c.ring then some (r, rest)
    else
      let off := c.issued.toNat % a.ringSize
      let room := ringRoom c a
      let t0 := min r.bytes (a.ringSize - off)
      let unit := if a.narrow then 8 else 64
      let t := if a.outbound && room < (t0 : Int) then room.toNat / unit * unit else t0
      if t = 0 ∨ (!a.outbound && room < (t : Int)) then none
      else
        let head := { r with near := a.ringBase + off, bytes := t, nb := t, last := r.last && t == r.bytes }
        let tail := { r with far := r.far + t, near := r.near + t, bytes := r.bytes - t, nb := r.nb - t }
        some (head, if t = r.bytes then rest else (tail :: rest).map fun x => { x with no := x.no + 1 })

/-- A context is ready: its sluice is open and it has a request that may leave. -/
def ctxReady (c : Ctx) : Bool :=
  c.state == .opened && (c.active.bind (nextReq c)).isSome

/-- Slack in cycles (R231); none is infinite. -/
def slackOf (c : Ctx) (a : Active) : Option Nat :=
  if !c.ring || a.rate == 0 then none
  else if a.outbound then some ((a.ringSize - (peerClamp c a - c.own.toNat)) * 1024 / a.rate)
  else some ((c.own.toNat - peerClamp c a) * 1024 / a.rate)

/-- One slack is strictly less than another. -/
def slackLt : Option Nat → Option Nat → Bool
  | some a, some b => a < b
  | some _, none => true
  | none, _ => false

/-- The context that wins: an aged one of the lowest number, else the least slack, ties to the lower number. -/
def winner (k : Block) : Option Nat :=
  let ready := (List.range 16).filter fun n => ctxReady (k.ctx n)
  match ready.find? fun n => (k.ctx n).aged with
  | some n => some n
  | none => ready.foldl (fun best n =>
      match best with
      | none => some n
      | some m =>
        let sl := fun i => ((k.ctx i).active.bind (slackOf (k.ctx i)))
        if slackLt (sl n) (sl m) then some n else best) none

/-- The losers of a grant lose once more; at 64 they are aged (R232). -/
def lose (k : Block) (win : Nat) : Block :=
  { k with ctxs := k.ctxs.mapV {} fun n c =>
      if n = win then { c with losses := 0, aged := false }
      else if ctxReady c then { c with losses := c.losses + 1, aged := 64 ≤ c.losses + 1 }
      else c }

/-- A request leaves: ISSUED counts it (R222). -/
def sentCtx (s : State) (c : Ctx) (a : Active) (r : SReq) (rest : List SReq) : Ctx :=
  sluice { c with issued := c.issued + BitVec.ofNat 64 r.nb,
                  state := if rest.isEmpty then .finishing else c.state,
                  active := some { a with todo := rest,
                                          sent := a.sent ++ [{ r with sent := s.tim.now, lc := a.lc || rushes c a }] } }

/-- A local request leaves. An inbound one reads its source when its data land; an outbound one reads the block store
now, and OWN counts the read (R222, R228). -/
def sendLocal (s : State) (b : Blk) (n : Nat) (c : Ctx) (a : Active) (r : SReq) (rest : List SReq) : State :=
  if !a.outbound then s.setCtx b n (sentCtx s c a r rest)
  else
    match touch s [⟨r.near, r.nb⟩] with
    | (t, some (st, code, npa)) => settle (failReq t b n r.no st (some (code, npa))) b n
    | (t, none) =>
      let bs := rdN t r.near r.nb
      let c1 := sentCtx t c a { r with data := bs } rest
      t.setCtx b n { c1 with own := c1.own + BitVec.ofNat 64 r.nb }

/-! ### Landing, responses, timeouts (R234 to R236) -/

/-- The oldest request sent on a context is answered and taken off. -/
def popSent (s : State) (b : Blk) (n : Nat) : State :=
  let c := s.ctx b n
  s.setCtx b n { c with active := c.active.map fun a => { a with sent := a.sent.drop 1 } }

/-- The data of an inbound local request land: the far end is read, converted and written in the block store, and OWN
counts it (R222, R235). -/
def landed (s : State) (b : Blk) (n : Nat) : State :=
  let c := s.ctx b n
  match c.active with
  | none => s
  | some a =>
    if a.remote || a.outbound then s
    else
      match a.sent, ctxCmd s b c a with
      | r :: _, some f =>
        let s0 := cacheRun (popSent s b n) r.far r.bytes
        match touch s0 ([⟨r.far, r.bytes⟩] ++ partialRuns [⟨r.near, r.nb⟩]) with
        | (t, some (st, code, npa)) => settle (failReq t b n r.no st (some (code, npa))) b n
        | (t, none) =>
          let (t1, bs) := reqData t b f c.ring r (rdN t r.far r.bytes)
          let t2 := noteOut (wrN t1 r.near bs) b (ctxQ c) a.idx bs
          let c2 := t2.ctx b n
          let c3 := if a.fail.isSome then c2 else { c2 with own := c2.own + BitVec.ofNat 64 r.nb }
          settle (t2.setCtx b n (sluice c3)) b n
      | _, _ => s

/-- The response of the oldest outbound local write returns: the write has been made (R234). -/
def wrote (s : State) (b : Blk) (n : Nat) : State :=
  let c := s.ctx b n
  match c.active with
  | none => s
  | some a =>
    if a.remote || !a.outbound then s
    else
      match a.sent, ctxCmd s b c a with
      | r :: _, some f =>
        let s0 := cacheRun (popSent s b n) r.far r.bytes
        match touch s0 (partialRuns [⟨r.far, r.bytes⟩]) with
        | (t, some (st, code, npa)) => settle (failReq t b n r.no st (some (code, npa))) b n
        | (t, none) =>
          let (t1, bs) := reqData t b f c.ring r r.data
          settle (noteOut (wrN t1 r.far bs) b (ctxQ c) a.idx (if inHost s r.far then [] else bs)) b n
      | _, _ => s

/-- 1 ms in ns (R236). -/
def reqLimit : Nat := 1000000

/-- A request toward the host that meets a completion timeout logs AER's Completion Timeout, bit 14 (11 R298; log 21). -/
def timeoutAer (s : State) (npa : Nat) : State :=
  if inHost s npa then { s with host := { s.host with aer := s.host.aer ++ [14] } } else s

/-- A local request has gone unanswered for 1 ms: it ends with TIMEOUT, and a later answer is discarded (R236). -/
def reqTimeout (s : State) (b : Blk) (n : Nat) : State :=
  let c := s.ctx b n
  match c.active with
  | none => s
  | some a =>
    match a.sent with
    | r :: _ =>
      if !a.remote && r.sent + reqLimit ≤ s.tim.now then
        settle (failReq (popSent (timeoutAer s r.far) b n) b n r.no .timeout none) b n
      else s
    | [] => s

/-- SIN: the stream unit takes up the block's first SIN that has issued (R214 to R221). -/
def execSin (b : Blk) (s : State) : Host.Outcome State Fault Refusal :=
  .next (engine s b .IQ 0x40 fun s f => streamRun s b f true)

/-- SOUT (R214 to R221). -/
def execSout (b : Blk) (s : State) : Host.Outcome State Fault Refusal :=
  .next (engine s b .OQ 0x50 fun s f => streamRun s b f false)

/-- STREAM_DATA_LANDED: the data of the oldest outstanding read of a context land (R222, R234). -/
def execStreamDataLanded (b : Blk) (ctx : BitVec 4) (s : State) : Host.Outcome State Fault Refusal :=
  .next (landed s b ctx.toNat)

/-- WRITE_RESPONSE: the response of the oldest outstanding write of a context returns (R234). -/
def execWriteResponse (b : Blk) (ctx : BitVec 4) (s : State) : Host.Outcome State Fault Refusal :=
  .next (wrote s b ctx.toNat)

/-- STREAM_REQUEST_TIMEOUT (R236). -/
def execStreamRequestTimeout (b : Blk) (ctx : BitVec 4) (s : State) : Host.Outcome State Fault Refusal :=
  .next (reqTimeout s b ctx.toNat)

end Sys2Proof.Machine
end

