-- ==== Sys2Proof/Machine/Funcs.lean ====
section
/-!
DEFINITION. The functions defined by their bits (05 R143, R144): EXP, LOG, RCP, RSQRT, TANH and ERF as procedures of
binary64 operations, each rounded RNE, and their special values.
-/
namespace Sys2Proof.Machine

/-- A value rounded RNE to binary64. -/
def d64 (v : Val) : Val := Fmt.fp64.decode (Fmt.fp64.round .rne 0 v).1

/-- The binary64 value nearest to a rational number. -/
def dRat (n d : Nat) : Val := d64 (Val.div (.fin false n 0) (.fin false d 0)).1

/-- Binary64 sum. -/
def dAdd (a b : Val) : Val := d64 (Val.add false a b).1
/-- Binary64 difference. -/
def dSub (a b : Val) : Val := d64 (Val.add false a b.negate).1
/-- Binary64 product. -/
def dMul (a b : Val) : Val := d64 (a.mul b).1
/-- Binary64 quotient. -/
def dDiv (a b : Val) : Val := d64 (Val.div a b).1
/-- Binary64 square root. -/
def dSqrt (a : Val) : Val := d64 a.sqrt.1
/-- Binary64 constant by its bits. -/
def dBits (w : Nat) : Val := Fmt.fp64.decode w

/-- c(1 / ln 2). -/
def cL2E : Val := dBits 0x3FF71547652B82FE
/-- c(ln 2). -/
def cLN2H : Val := dBits 0x3FE62E42FEFA39EF
/-- c(ln 2 − LN2H). -/
def cLN2L : Val := dBits 0x3C7ABC9E3B39803F
/-- c(sqrt 2). -/
def cSqrt2 : Val := dBits 0x3FF6A09E667F3BCD
/-- c(2 / sqrt(pi)). -/
def cTwoSqrtPi : Val := dBits 0x3FF20DD750429B6D

/-- n!. -/
def factorial : Nat → Nat
  | 0 => 1
  | n + 1 => (n + 1) * factorial n

/-- a < b for two numbers. -/
def vlt (a b : Val) : Bool := a.cmp b == some .lt

/-- A value times a power of two, exactly. -/
def Val.scale2 (v : Val) (n : Int) : Val :=
  match v with
  | .fin s m e => .fin s m (e + n)
  | x => x

/-- The nearest integer, ties to even. -/
def roundEven (v : Val) : Int :=
  match v with
  | .fin s m e => let k := (roundMag .rne 0 s m e 0).1; if s then -(k : Int) else k
  | _ => 0

/-- exp64 of R143. -/
def exp64 (x0 : Val) : Val :=
  let lim := Val.ofInt 128
  let x := if vlt x0 lim.negate then lim.negate else if vlt lim x0 then lim else x0
  let n := roundEven (dMul x cL2E)
  let nv := Val.ofInt n
  let r := dSub (dSub x (dMul nv cLN2H)) (dMul nv cLN2L)
  let p := (List.range 10).foldl (fun p j => dAdd (dMul p r) (dRat 1 (factorial (9 - j)))) (dRat 1 (factorial 10))
  p.scale2 n

/-- log64 of R143, for a positive finite value. -/
def log64 (x : Val) : Val :=
  match x with
  | .fin _ m0 e0 =>
    let l := m0.log2
    let m1 : Val := .fin false m0 (-(l : Int))
    let big := vlt cSqrt2 m1
    let m := if big then m1.scale2 (-1) else m1
    let e := Val.ofInt (e0 + l + (if big then 1 else 0))
    let one := Val.ofInt 1
    let s := dDiv (dSub m one) (dAdd m one)
    let t := dMul s s
    let q := (List.range 10).foldl (fun q j => dAdd (dMul q t) (dRat 2 (2 * (9 - j) + 1))) (dRat 2 21)
    dAdd (dAdd (dMul e cLN2H) (dMul s q)) (dMul e cLN2L)
  | v => v

/-- rcp64 of R143. -/
def rcp64 (x : Val) : Val := dDiv (Val.ofInt 1) x

/-- rsqrt64 of R143. -/
def rsqrt64 (x : Val) : Val := dDiv (Val.ofInt 1) (dSqrt x)

/-- A magnitude with a value's sign. -/
def withSign (x v : Val) : Val := if x.neg? then v.negate else v

/-- tanh64 of R143. -/
def tanh64 (x : Val) : Val :=
  let a := x.abs
  if vlt a (Val.two (-13)) then dSub x (dMul (dMul (dMul x x) x) (dRat 1 3))
  else if vlt (Val.ofInt 10) a then withSign x (Val.ofInt 1)
  else
    let one := Val.ofInt 1
    withSign x (dSub one (dDiv (Val.ofInt 2) (dAdd (exp64 (dMul (Val.ofInt 2) a)) one)))

/-- erf64 of R143. -/
def erf64 (x : Val) : Val :=
  let a := x.abs
  if !vlt a (Val.ofInt 4) then withSign x (Val.ofInt 1)
  else
    let a2 := dMul a a
    let (_, s) := (List.range 63).foldl (fun (ts : Val × Val) j =>
      let n := j + 1
      let t := dMul (dMul ts.1 a2) (dRat 2 (2 * n + 1))
      (t, dAdd ts.2 t)) (a, a)
    withSign x (dMul (dMul s cTwoSqrtPi) (exp64 a2.negate))

/-- The six functions. -/
inductive Fn where
  | exp | log | rcp | rsqrt | tanh | erf
deriving DecidableEq, Repr

/-- The function of a code of Table 05.5. -/
def Fn.ofCode : Nat → Option Fn
  | 0x30 => some .exp | 0x31 => some .log | 0x32 => some .rcp | 0x33 => some .rsqrt | 0x34 => some .tanh
  | 0x35 => some .erf | _ => none

/-- The special values of Table 05.7, with their NV; none where the procedure runs. -/
def Fn.special (f : Fn) (x : Val) : Option (Val × Bool) :=
  match x with
  | .nan => some (.nan, false)
  | .inf n =>
    some <| match f with
    | .exp => (if n then .zero else .inf false, false)
    | .log => if n then (.nan, true) else (.inf false, false)
    | .rcp => (.fin n 0 0, false)
    | .rsqrt => if n then (.nan, true) else (.zero, false)
    | .tanh | .erf => (withSign x (Val.ofInt 1), false)
  | .fin n m _ =>
    if m = 0 then
      some <| match f with
      | .exp => (Val.ofInt 1, false)
      | .log => (.inf true, false)
      | .rcp | .rsqrt => (.inf n, false)
      | .tanh | .erf => (.fin n 0 0, false)
    else
      match f, n with
      | .log, true | .rsqrt, true => some (.nan, true)
      | _, _ => none

/-- The binary64 result of a function on a value that is not special. -/
def Fn.proc (f : Fn) (x : Val) : Val :=
  match f with
  | .exp => exp64 x
  | .log => log64 x
  | .rcp => rcp64 x
  | .rsqrt => rsqrt64 x
  | .tanh => tanh64 x
  | .erf => erf64 x

/-- A function's result in a format, and its flags: the final rounding alone sets them, but for the NV of Table 05.7. -/
def Fn.run (f : Fn) (dst : Fmt) (x : Val) : Nat × Fl :=
  match f.special x with
  | some (v, nv) => ((dst.round .rne 0 v).1, Fl.when nv Fl.nv)
  | none => dst.round .rne 0 (f.proc x)

end Sys2Proof.Machine
end

