-- ==== Sys2Proof/Machine/Vector.lean ====
section
/-!
DEFINITION. The vector engine and the reduction unit (05): VOP, VRED, VCOMP, VEXP and VCONV, their checks, their
element operations, masks and flags.
-/
namespace Sys2Proof.Machine

/-! ### Format classes of Table 05.5 -/

/-- FP64, FP32, BF16 and FP16. -/
def Fmt.vFloat : Fmt → Bool
  | .fp64 | .fp32 | .bf16 | .fp16 => true
  | _ => false

/-- INT8, UINT8, INT32 and INT64. -/
def Fmt.vInt : Fmt → Bool
  | .int8 | .uint8 | .int32 | .int64 => true
  | _ => false

/-- INT8, INT32 and INT64. -/
def Fmt.vSigned : Fmt → Bool
  | .int8 | .int32 | .int64 => true
  | _ => false

/-- The sources an operation of Table 05.5 takes; 0 for a code not in the table. -/
def vopArity (op : Nat) : Nat :=
  if op ∈ [0x00, 0x07, 0x08, 0x23] || (0x30 ≤ op && op ≤ 0x35) then 1
  else if op ∈ [0x04, 0x13] then 3
  else if (0x01 ≤ op && op ≤ 0x0B) || (0x10 ≤ op && op ≤ 0x12) || (0x20 ≤ op && op ≤ 0x26) then 2
  else 0

/-- The formats an operation of Table 05.5 allows. -/
def vopFmtOk (op : Nat) (f : Fmt) : Bool :=
  if op = 0x00 then true
  else if op = 0x01 then f.vFloat || f.vInt || f.isBrine
  else if op ∈ [0x02, 0x03, 0x05, 0x06, 0x10, 0x11, 0x12] then f.vFloat || f.vInt
  else if op = 0x04 then f.vFloat
  else if op ∈ [0x07, 0x08] then f.vFloat || f.vSigned
  else if op = 0x13 then !f.packed && !f.isBrine
  else if 0x30 ≤ op then f == .fp32 || f == .bf16 || f == .fp16
  else f.vInt

/-- A compare. -/
def isCompare (op : Nat) : Bool := 0x10 ≤ op && op ≤ 0x12
/-- A shift. -/
def isShift (op : Nat) : Bool := 0x24 ≤ op && op ≤ 0x26

/-! ### Element operations (R139, R144) -/

/-- The order of MIN, MAX and the reductions: −0 below +0 (R139, R149). -/
def orderLess (a b : Val) : Bool :=
  if a.isZero && b.isZero then a.neg? && !b.neg? else vlt a b

/-- The signed or unsigned integer of an element. -/
def Fmt.intOf (f : Fmt) (raw : Nat) : Int := if f == .uint8 then (raw % 256 : Nat) else sx f.bits raw

/-- An integer wrapped to a format's width. -/
def Fmt.wrap (f : Fmt) (i : Int) : Nat := tc f.bits i

/-- An integer saturated to a format, setting OF when it saturates (R139). -/
def Fmt.sat (f : Fmt) (i : Int) : Nat × Fl :=
  let (lo, hi) := f.range
  if i < lo then (f.wrap lo, Fl.of) else if hi < i then (f.wrap hi, Fl.of) else (f.wrap i, 0)

/-- An integer operation of Table 05.5; `amt` is the shift amount. -/
def vopInt (op : Nat) (f : Fmt) (a b amt : Nat) : Nat × Fl :=
  let x := f.intOf a
  let y := f.intOf b
  let n := f.bits
  let au := a % 2 ^ n
  let bu := b % 2 ^ n
  match op with
  | 0x01 => (f.wrap (x + y), 0)
  | 0x02 => (f.wrap (x - y), 0)
  | 0x03 => (f.wrap (x * y), 0)
  | 0x05 => (f.wrap (min x y), 0)
  | 0x06 => (f.wrap (max x y), 0)
  | 0x07 => (f.wrap (if x < 0 then -x else x), 0)
  | 0x08 => (f.wrap (-x), 0)
  | 0x09 => f.sat (x + y)
  | 0x0A => f.sat (x - y)
  | 0x0B => f.sat (x * y)
  | 0x10 => (bn (x == y), 0)
  | 0x11 => (bn (decide (x < y)), 0)
  | 0x12 => (bn (decide (x ≤ y)), 0)
  | 0x20 => (au &&& bu, 0)
  | 0x21 => (au ||| bu, 0)
  | 0x22 => (au ^^^ bu, 0)
  | 0x23 => (2 ^ n - 1 - au, 0)
  | 0x24 => (if amt ≥ n then 0 else (au <<< amt) % 2 ^ n, 0)
  | 0x25 => (if amt ≥ n then 0 else au >>> amt, 0)
  | 0x26 => (if f == .uint8 then (if amt ≥ n then 0 else au >>> amt) else f.wrap (Int.fdiv x (2 ^ amt)), 0)
  | _ => (au, 0)

/-- A float operation of Table 05.5 (R139): one IEEE operation, rounded once. -/
def vopFloat (op : Nat) (f : Fmt) (r : Rnd) (u a b c : Nat) : Nat × Fl :=
  let x := f.decode a
  let y := f.decode b
  let z := f.decode c
  let sign := 2 ^ (f.bits - 1)
  let either := x.isNan || y.isNan
  match op with
  | 0x01 => f.roundOp r u (Val.add (r == .rdn) x y)
  | 0x02 => f.roundOp r u (Val.add (r == .rdn) x y.negate)
  | 0x03 => f.roundOp r u (x.mul y)
  | 0x04 => f.roundOp r u (Val.fma r x y z)
  | 0x05 => (if either then f.nan else if orderLess y x then b else a, 0)
  | 0x06 => (if either then f.nan else if orderLess x y then b else a, 0)
  | 0x07 => (a % sign, 0)
  | 0x08 => (a ^^^ sign, 0)
  | 0x10 => (bn (x.cmp y == some .eq), 0)
  | 0x11 => (bn (x.cmp y == some .lt), Fl.when either Fl.nv)
  | 0x12 => (bn (x.cmp y == some .lt || x.cmp y == some .eq), Fl.when either Fl.nv)
  | _ =>
    match Fn.ofCode op with
    | some fn => fn.run f x
    | none => (a, 0)

/-- An element of a VOP: source bits, and the bits of src2's mask for SEL (R139). -/
def vopElem (op : Nat) (f : Fmt) (r : Rnd) (u a b c : Nat) : Nat × Fl :=
  if op = 0x00 then (a, 0)
  else if op = 0x13 then (if c.testBit 0 then a else b, 0)
  else if f.isBrine then (f.packBrine (Brine.add (f.unpackBrine a) (f.unpackBrine b)), 0)
  else if f.vFloat then vopFloat op f r u a b c
  else vopInt op f a b (b % 128)

/-! ### VOP (R137 to R141) -/

/-- The operation code of a VOP. -/
def vopOp (c : Cmd) : Nat := fld c.w5 0 8
/-- The broadcast of a VOP. -/
def vopBc (c : Cmd) : Nat := fld c.w5 8 2

/-- A mask's counts are not a tensor's. -/
def maskShapeBad (s : State) (m : Option Nat) (counts : List Nat) : Bool :=
  match m with
  | none => false
  | some i => match descAt s i with
    | some d => d.counts != counts
    | none => true

/-- A mask's format is not UINT8 (R137, R141). -/
def maskFmtBad (s : State) (m : Option Nat) : Bool :=
  ((m.bind (descAt s)).map fun d => d.fmt != .uint8).getD false

/-- What R407 checks of a VOP at decode. -/
def vopBad (s : State) (f : InFl) : Bool :=
  let c := f.cmd
  let op := vopOp c
  let bc := vopBc c
  let n := vopArity op
  let s0 := opnd! s f 1
  let s1 := opnd s f 2
  let s2 := opnd s f 3
  let d := opnd! s f 4
  refBad s c.w1 false || refBad s c.w2 true || refBad s c.w3 true || refBad s c.w4 false ||
  bitsBad c.w5 0x3FF || unusedBad c [7] || (bc != 3 && c.w6 != 0) || n == 0 ||
  ([some s0, s1, s2].any fun o => (o.map fun x => auxesBad s x || x.mask.isSome).getD false) || auxesBad s d ||
  s0.counts != d.counts ||
  (s1.isSome != (2 ≤ n && bc != 3)) || s2.isSome != (n == 3) ||
  ((s2.map fun x => x.counts != d.counts).getD false) ||
  ((s1.map fun x =>
      if bc = 1 then !(x.c 0 == d.c 0 && (x.counts.drop 1).all (· == 1))
      else if bc = 2 then !(x.c 0 == 1 && x.counts.drop 1 == d.counts.drop 1)
      else x.counts != d.counts).getD false) ||
  maskShapeBad s d.mask d.counts

/-- The element of src1 that serves the element `e` of the dst, by the broadcast (R140). -/
def src1Ix (c : Cmd) (d : Desc) (e : Nat) : Nat :=
  match vopBc c with
  | 1 => e % d.c 0
  | 2 => e / d.c 0
  | _ => e

/-- A VOP breaks a format rule (R88, R137, R139, R143). -/
def vopFormat (s : State) (f : InFl) : Bool :=
  let op := vopOp f.cmd
  let s0 := opnd! s f 1
  let d := opnd! s f 4
  let srcs := s0 :: ((opnd s f 2).toList ++ (opnd s f 3).toList)
  let fm := s0.fmt
  !vopFmtOk op fm || (srcs ++ [d]).any (fun x => x.ncw.scaleMode != 0) || !rndOk d.ncw ||
  (match opnd s f 2 with
   | some x => if isShift op then !x.fmt.isInt else x.fmt != fm
   | none => false) ||
  (match opnd s f 3 with
   | some x => if op = 0x13 then x.fmt != .uint8 else x.fmt != fm
   | none => false) ||
  (if isCompare op then d.fmt != .uint8 else d.fmt != fm) ||
  (0x30 ≤ op && d.ncw.rnd != 0) || maskFmtBad s d.mask ||
  (fm.isBrine && ((srcs ++ [d]).any (fun x => x.ncw.anchorMode == 1 || !anchorsOk s x) || !sameAnchors s d s0 ||
    (opnd s f 2).toList.any fun x => !sameAnchorsBy s (src1Ix f.cmd d) d x))

/-- The auxiliary tensors of a vector command: masks and anchor arrays. -/
def vAux (s : State) (l : List (Option Nat)) : List Desc := (l.filterMap id).filterMap (descAt s)

/-- The anchor array that a brine tensor reads. -/
def brineAnchor (d : Desc) : Option Nat := if d.fmt.isBrine && d.ncw.anchorMode == 2 then d.anchorD else none

/-- The anchor arrays that a VOP reads. -/
def vopAnchors (s0 : Desc) (s1 : Option Desc) (d : Desc) : List (Option Nat) :=
  (s0 :: d :: s1.toList).map brineAnchor

/-- The issue checks of a VOP. -/
def vopIssue (s : State) (b : Blk) (f : InFl) : List Status :=
  let s0 := opnd! s f 1
  let d := opnd! s f 4
  let ts := [s0, d] ++ (opnd s f 2).toList ++ (opnd s f 3).toList
  (ts ++ vAux s (d.mask :: vopAnchors s0 (opnd s f 2) d)).flatMap (storeCheck s b) ++
  (if vopFormat s f then [.format] else [])

/-- The runs of a tensor's elements that `p` picks, the neighbours of a row joined. -/
def runsWhere (d : Desc) (p : Nat → Bool) : List Run :=
  if d.empty then []
  else
    (List.range d.rows).flatMap fun r =>
      (List.range (d.c 0)).foldl (fun (acc : List Run) i =>
        if p (r * d.c 0 + i) then
          let x := d.runAt (d.rowIx r) i 1
          match acc with
          | y :: ys => if y.npa + y.len = x.npa then ⟨y.npa, y.len + x.len⟩ :: ys else x :: acc
          | [] => [x]
        else acc) []

/-- Runs of active elements of a tensor: whole rows without a mask, else joined elements of each row. -/
def activeRuns (s : State) (d : Desc) (m : Option Desc) (on : Bool) : List Run :=
  match m with
  | none => if on then d.runs else []
  | some k => runsWhere d fun e => maskOn s (some k) e == on

/-- Runs of the elements of a broadcast src1 that serve an active lane of the dst, or that serve none (R140, R141). -/
def broadcastRuns (s : State) (c : Cmd) (x d : Desc) (m : Option Desc) (on : Bool) : List Run :=
  match m with
  | none => if on then x.runs else []
  | some k => runsWhere x fun i =>
      ((List.range d.size).any fun e => src1Ix c d e == i && maskOn s (some k) e) == on

/-- The raw element of src1 for the element `e` of the dst, by the broadcast (R140). -/
def src1Raw (s : State) (c : Cmd) (f0 : Fmt) (s1 : Option Desc) (d : Desc) (e : Nat) : Nat :=
  if vopBc c = 3 then c.w6.toNat % 2 ^ f0.bits
  else
    match s1 with
    | some x => x.raw s (src1Ix c d e)
    | none => 0

/-- Results written over a mask, with the faults and records of R141 and R406; `vals e` is the element and its flags. -/
def maskedWrite (s : State) (b : Blk) (idx : Nat) (eng : Nat) (reads : List Run) (maskedReads : List Run)
    (outs : List (Desc × Option Desc × (Nat → Nat × Fl))) (free : Nat) : State :=
  let act := outs.flatMap fun o => activeRuns s o.1 o.2.1 true
  let msk := outs.flatMap fun o => activeRuns s o.1 o.2.1 false
  let bad := maskedBad s (reads ++ act) (maskedReads ++ msk)
  let s0 := updInFl (recordMasked s b bad) b .VQ idx fun x => { x with started := true }
  withTouch s0 reads b .VQ idx fun s1 =>
    let mergeBad := bad.filter fun e => runsMeet s.ncr.cellarGib act e.1 0 64
    withTouch (setAside s1 mergeBad) (partialRuns act) b .VQ idx fun s2 =>
      let w := outs.foldl (fun (acc : State × List Byte × Fl) o =>
        let (d, m, vals) := o
        let es := List.range d.size
        let rs := es.map fun e => if maskOn s m e then some (vals e) else none
        let (t, bs) := wrT acc.1 d fun e => ((rs.getD e none).map Prod.fst)
        (t, acc.2.1 ++ bs, rs.foldl (fun a v => a ||| ((v.map Prod.snd).getD 0)) acc.2.2)) (s2, [], 0)
      let s3 := setFlags (keepBad w.1 mergeBad) b eng w.2.2
      finishOut { s3 with free := s3.free + free } b .VQ idx .ok w.2.1

/-- Free values a result uses: unseeded draws, and the unspecified bits of an overlap (R89, R125). -/
def freeUse (n : Ncw) (size : Nat) (overlap : Bool) : Nat :=
  (if n.rnd = 4 ∧ n.seedValid = false then size else 0) + (if overlap then 4 * size else 0)

/-- A VOP carried out. -/
def vopRun (s : State) (b : Blk) (f : InFl) : State :=
  let c := f.cmd
  let op := vopOp c
  let s0 := opnd! s f 1
  let s1 := opnd s f 2
  let s2 := opnd s f 3
  let d := opnd! s f 4
  let m := d.mask.bind (descAt s)
  let lanes := fun on => (s0 :: s2.toList).flatMap (fun x => activeRuns s x m on) ++
    s1.toList.flatMap fun x => broadcastRuns s c x d m on
  let aux := d.mask :: vopAnchors s0 s1 d
  let lap := (s0 :: s1.toList ++ s2.toList).any (badOverlap d) || (vAux s aux).any (extentsMeet d)
  maskedWrite s b f.idx 1 (lanes true ++ aux.flatMap (auxRuns s)) (lanes false)
    [(d, m, fun e =>
      let r := vopElem op s0.fmt d.ncw.mode (drawOf s d.ncw e) (s0.raw s e) (src1Raw s c s0.fmt s1 d e)
        ((s2.map fun x => x.raw s e).getD 0)
      if lap then (freeRaw s d.fmt e, r.2) else r)] (freeUse d.ncw d.size lap)

/-! ### VRED (R147 to R150) -/

/-- The element-wise operation of a VRED. -/
def vredOp (c : Cmd) : Nat := fld c.w4 0 8
/-- The reduction of a VRED. -/
def vredRed (c : Cmd) : Nat := fld c.w4 8 8
/-- The axis of a VRED. -/
def vredAxis (c : Cmd) : Nat := fld c.w4 16 2

/-- The result counts of an axis (R147). -/
def axisCounts (axis : Nat) (c : List Nat) : List Nat :=
  match axis with
  | 0 => [1, 1, 1, 1, 1]
  | 1 => [c.getD 1 1, c.getD 2 1, c.getD 3 1, c.getD 4 1, 1]
  | _ => [c.getD 0 1, c.getD 2 1, c.getD 3 1, c.getD 4 1, 1]

/-- What R407 checks of a VRED at decode. -/
def vredBad (s : State) (f : InFl) : Bool :=
  let c := f.cmd
  let x := opnd! s f 1
  let w := opnd s f 2
  let r := opnd! s f 3
  refBad s c.w1 false || refBad s c.w2 true || refBad s c.w3 false || bitsBad c.w4 0x3FFFF || unusedBad c [5, 6, 7] ||
  vopArity (vredOp c) != 1 || 9 < vredRed c || vredAxis c == 3 ||
  auxesBad s x || auxesBad s r || r.mask.isSome || ((w.map fun d => auxesBad s d || d.mask.isSome || d.counts != x.counts).getD false) ||
  r.counts != axisCounts (vredAxis c) x.counts || maskShapeBad s x.mask x.counts

/-- The source formats of a reduction (Table 05.8). -/
def redSrcOk (red : Nat) (f : Fmt) : Bool :=
  match red with
  | 0x00 => f.vFloat || f.vInt || f.isBrine
  | 0x01 | 0x02 | 0x03 | 0x04 => f.vFloat || f.vInt
  | 0x05 => !f.packed
  | 0x06 | 0x07 | 0x08 => f.vInt
  | _ => f.vFloat

/-- The result format of a reduction (Table 05.8, R148). -/
def redResOk (red : Nat) (src : Fmt) (r : Ncw) : Bool :=
  match red with
  | 0x00 => !r.fmt.packed && (!r.fmt.isBrine || r.fmt == r.brine) && (!src.isBrine || (src == r.brine)) &&
      !(src == .fp64 && !r.acc)
  | 0x03 | 0x04 => r.fmt == .int32 || r.fmt == .int64
  | 0x05 => r.fmt == .int64
  | 0x09 => r.fmt == .int32
  | _ => r.fmt == src

/-- The result element that an element of src falls to. -/
def sliceOf (axis : Nat) (c : List Nat) (e : Nat) : Nat :=
  let c0 := c.getD 0 1
  let c1 := c.getD 1 1
  match axis with
  | 0 => 0
  | 1 => e / c0
  | _ => e / (c0 * c1) * c0 + e % c0

/-- The index that ARGMAX and ARGMIN give an element of src (R149). -/
def sliceIndex (axis : Nat) (c : List Nat) (e : Nat) : Nat :=
  match axis with
  | 0 => e
  | 1 => e % c.getD 0 1
  | _ => e / c.getD 0 1 % c.getD 1 1

/-- A SUM needs an anchor under the result's control word (R148). -/
def redNeedsAnchor (src : Fmt) (r : Ncw) : Bool :=
  src.isBrine || r.fmt.isBrine || (src.vFloat && src != .fp16)

/-- A VRED breaks a format rule (R88, R143, R147, R148). -/
def vredFormat (s : State) (f : InFl) : Bool :=
  let c := f.cmd
  let x := opnd! s f 1
  let w := opnd s f 2
  let r := opnd! s f 3
  let op := vredOp c
  let vf := (w.map Desc.fmt).getD x.fmt
  !vopFmtOk op x.fmt || maskFmtBad s x.mask || (x :: r :: w.toList).any blockBad || !rndOk r.ncw ||
  (match w with
   | some d => !rndOk d.ncw ||
      (d.fmt != x.fmt && (d.fmt.isBrine || x.fmt.isBrine || d.fmt.packed || x.fmt.packed)) ||
      (0x30 ≤ op && (!vopFmtOk op d.fmt || d.ncw.rnd != 0)) ||
      (d.fmt.isBrine && (d.ncw.anchorMode == 1 || !anchorsOk s d || !sameAnchors s d x))
   | none => false) ||
  !redSrcOk (vredRed c) vf || !redResOk (vredRed c) vf r.ncw ||
  (vredRed c == 0 && (r.ncw.anchorMode == 1 || redNeedsAnchor vf r.ncw && !anchorsOk s r)) ||
  (vredRed c == 0 && vf.isBrine && (!anchorsOk s x || !sameAnchorsBy s (sliceOf (vredAxis c) x.counts) x r))

/-- The anchor arrays that a VRED reads: those of a brine src and of its element-wise result, and the result's where a
SUM needs one. -/
def vredAnchors (c : Cmd) (x : Desc) (w : Option Desc) (vf : Fmt) (r : Desc) : List (Option Nat) :=
  (x :: w.toList).map brineAnchor ++
    [if vredRed c == 0 && redNeedsAnchor vf r.ncw && r.ncw.anchorMode == 2 then r.anchorD else none]

/-- The issue checks of a VRED. -/
def vredIssue (s : State) (b : Blk) (f : InFl) : List Status :=
  let c := f.cmd
  let x := opnd! s f 1
  let r := opnd! s f 3
  let vf := ((opnd s f 2).map Desc.fmt).getD x.fmt
  ([x, r] ++ (opnd s f 2).toList ++ vAux s (x.mask :: vredAnchors c x (opnd s f 2) vf r)).flatMap (storeCheck s b) ++
  (if vredFormat s f then [.format] else [])

/-- The element-wise value of a VRED: bits in the format of W2, or of src (R147). -/
def vredElem (op : Nat) (src dst : Fmt) (r : Rnd) (u a : Nat) : Nat × Fl :=
  if 0x30 ≤ op then
    match Fn.ofCode op with
    | some fn => fn.run dst (src.decode a)
    | none => (a, 0)
  else
    let v := (vopElem op src r u a 0 0).1
    if src == dst then (v, 0) else dst.round r u (src.decode v)

/-- The extreme of a slice with its index: `better` says that the second value replaces the first (R149). -/
def extreme (better : Val → Val → Bool) (l : List (Nat × Val)) : Option (Nat × Val) :=
  match l.find? fun x => x.2.isNan with
  | some x => some x
  | none => l.foldl (fun m x =>
      match m with
      | none => some x
      | some y => if better y.2 x.2 then some x else some y) none

/-- A value that is already in a format, as bits. -/
def Fmt.bitsOf (f : Fmt) (v : Val) : Nat := (f.round .rne 0 v).1

/-- The reduction of one slice: its active elements as (index, bits) in order, to the result's bits and flags. -/
def redSlice (red : Nat) (vf : Fmt) (r : Ncw) (anchor : Int) (u : Nat) (l : List (Nat × Nat)) : Nat × Fl :=
  let vals := l.map fun x => (x.1, vf.decode x.2)
  match red with
  | 0x00 =>
    if l.isEmpty then (0, 0)
    else if vf.isBrine then
      let t := l.foldl (fun a x => Brine.add a (vf.unpackBrine x.2)) {}
      if r.fmt.isBrine then (r.fmt.packBrine t, 0)
      else crystallise r.fmt r.mode u (vf.brineVal anchor t) t.fl (Val.two 0) .zero
    else if vf.vInt || vf == .fp16 then
      let (v, fl) : Val × Byte :=
        if vf.vInt then (Val.ofInt (exactWrap (l.foldl (fun a x => a + vf.intOf x.2) 0)), 0)
        else (exactVal (vals.foldl (fun a x => a + toExact x.2) 0),
          vals.foldl (fun (a : Byte) x => a ||| exactFlags x.2) 0)
      if r.fmt.isBrine then (r.fmt.packBrine (Brine.addVal r.fmt anchor ⟨0, fl⟩ v), 0)
      else crystallise r.fmt r.mode u v fl (Val.two 0) .zero
    else
      let t := vals.foldl (fun a x => Brine.addVal r.brine anchor a x.2) {}
      if r.fmt.isBrine then (r.fmt.packBrine t, 0)
      else crystallise r.fmt r.mode u (r.brine.brineVal anchor t) t.fl (Val.two 0) .zero
  | 0x01 =>
    match extreme orderLess vals with
    | some x => (vf.bitsOf x.2, 0)
    | none => (if vf.isFloat then vf.infBits true else vf.wrap vf.range.1, 0)
  | 0x02 =>
    match extreme (fun a b => orderLess b a) vals with
    | some x => (vf.bitsOf x.2, 0)
    | none => (if vf.isFloat then vf.infBits false else vf.wrap vf.range.2, 0)
  | 0x03 => (tc r.fmt.bits (match extreme orderLess vals with | some x => (x.1 : Int) | none => -1), 0)
  | 0x04 => (tc r.fmt.bits (match extreme (fun a b => orderLess b a) vals with | some x => (x.1 : Int) | none => -1), 0)
  | 0x05 =>
    ((l.filter fun x =>
      if vf.isBrine then
        let t := vf.unpackBrine x.2
        t.i != 0 || t.fl &&& (bNV ||| bPI ||| bNI) != 0
      else !(vf.decode x.2).isZero).length, 0)
  | 0x06 => (l.foldl (fun a x => a &&& x.2) (2 ^ vf.bits - 1), 0)
  | 0x07 => (l.foldl (fun a x => a ||| x.2) 0, 0)
  | 0x08 => (l.foldl (fun a x => a ^^^ x.2) 0, 0)
  | _ =>
    match vals.foldl (fun m x => maxE m x.2.e) none with
    | some e => (tc 32 e, 0)
    | none => (tc 32 (-4096), 0)

/-- A VRED carried out. -/
def vredRun (s : State) (b : Blk) (f : InFl) : State :=
  let c := f.cmd
  let x := opnd! s f 1
  let w := opnd s f 2
  let r := opnd! s f 3
  let m := x.mask.bind (descAt s)
  let vf := (w.map Desc.fmt).getD x.fmt
  let wn := (w.map Desc.ncw).getD x.ncw
  let mode := if w.isSome then wn.mode else .rne
  let elem := fun e => vredElem (vredOp c) x.fmt vf mode (if w.isSome then drawOf s wn e else 0) (x.raw s e)
  let elems := (List.range x.size).map fun e => if maskOn s m e then some (elem e) else none
  let aux := x.mask :: vredAnchors c x w vf r
  let reads := activeRuns s x m true ++ aux.flatMap (auxRuns s)
  let lap := (w.toList ++ [r]).any fun d => extentsMeet d x || (vAux s aux).any (extentsMeet d)
  let useW := (w.map fun d => freeUse d.ncw d.size lap).getD 0
  let red := fun k =>
    redSlice (vredRed c) vf r.ncw (anchorAt s r k) (drawOf { s with free := s.free + useW } r.ncw k)
      (elems.zipIdx.filterMap fun p => match p.1 with
        | some v => if sliceOf (vredAxis c) x.counts p.2 = k then some (sliceIndex (vredAxis c) x.counts p.2, v.1) else none
        | none => none)
  let fl := elems.foldl (fun a v => a ||| ((v.map Prod.snd).getD 0)) (0 : Fl)
  let outW : List (Desc × Option Desc × (Nat → Nat × Fl)) := match w with
    | some d => [(d, m, fun e => ((if lap then freeRaw s d.fmt e else ((elems.getD e none).map Prod.fst).getD 0), fl))]
    | none => []
  maskedWrite s b f.idx 2 reads (activeRuns s x m false)
    (outW ++ [(r, none, fun k =>
      (if lap then freeRaw { s with free := s.free + useW } r.fmt k else (red k).1, (red k).2 ||| fl))])
    (useW + freeUse r.ncw r.size lap)

/-! ### VCOMP and VEXP (R145, R146) -/

/-- What R407 checks of a VCOMP at decode. -/
def vcompBad (s : State) (f : InFl) : Bool :=
  let c := f.cmd
  let l := [1, 2, 3, 4].map (opnd! s f)
  refBad s c.w1 false || refBad s c.w2 false || refBad s c.w3 false || refBad s c.w4 false || unusedBad c [5, 6, 7] ||
  l.any (fun d => auxesBad s d || d.mask.isSome) ||
  (opnd! s f 2).counts != (opnd! s f 1).counts || (opnd! s f 3).rank != 1 ||
  !((opnd! s f 4).rank == 1 && (opnd! s f 4).c 0 == 1)

/-- The issue checks of a VCOMP. -/
def vcompIssue (s : State) (b : Blk) (f : InFl) : List Status :=
  let x := opnd! s f 1
  let m := opnd! s f 2
  let d := opnd! s f 3
  let n := opnd! s f 4
  [x, m, d, n].flatMap (storeCheck s b) ++
  (if x.fmt.packed || d.fmt != x.fmt || m.fmt != .uint8 || n.fmt != .int64 || [x, m, d, n].any blockBad ||
      !rndOk d.ncw || !rndOk n.ncw then [.format] else [])

/-- A VCOMP carried out. -/
def vcompRun (s : State) (b : Blk) (f : InFl) : State :=
  let x := opnd! s f 1
  let m := opnd! s f 2
  let d := opnd! s f 3
  let n := opnd! s f 4
  let on := (List.range x.size).filter fun e => maskOn s (some m) e
  let lap := [d, n].any fun r => extentsMeet r x || extentsMeet r m
  -- the dense dst as far as it is written
  let dn := { d with counts := [on.length, 1, 1, 1, 1] }
  maskedWrite s b f.idx 1 (activeRuns s x (some m) true ++ m.runs) (activeRuns s x (some m) false)
    [(dn, none, fun j => (if lap then freeRaw s x.fmt j else x.raw s (on.getD j 0), 0)),
     (n, none, fun _ => (if lap then freeRaw s .int64 on.length else on.length, 0))]
    (if lap then 4 * (on.length + 1) else 0)

/-- What R407 checks of a VEXP at decode. -/
def vexpBad (s : State) (f : InFl) : Bool :=
  let c := f.cmd
  let l := [1, 2, 3].map (opnd! s f)
  refBad s c.w1 false || refBad s c.w2 false || refBad s c.w3 false || unusedBad c [5, 6, 7] ||
  l.any (fun d => auxesBad s d || d.mask.isSome) ||
  (opnd! s f 2).counts != (opnd! s f 3).counts || (opnd! s f 1).rank != 1

/-- The issue checks of a VEXP. -/
def vexpIssue (s : State) (b : Blk) (f : InFl) : List Status :=
  let x := opnd! s f 1
  let m := opnd! s f 2
  let d := opnd! s f 3
  [x, m, d].flatMap (storeCheck s b) ++
  (if d.fmt.packed || d.fmt != x.fmt || m.fmt != .uint8 || [x, m, d].any blockBad || !rndOk d.ncw then [.format] else [])

/-- The fill value of a VEXP in the dst's format (R146). -/
def fillRaw (f : Fmt) (w : W64) : Nat :=
  if f.isBrine then f.packBrine ⟨w.toInt, 0⟩ else w.toNat % 2 ^ f.bits

/-- A VEXP carried out. -/
def vexpRun (s : State) (b : Blk) (f : InFl) : State :=
  let x := opnd! s f 1
  let m := opnd! s f 2
  let d := opnd! s f 3
  let on := (List.range d.size).map fun e => maskOn s (some m) e
  let used := (on.filter id).length
  let lap := extentsMeet d x || extentsMeet d m
  maskedWrite s b f.idx 1 (m.runs ++ ({ x with counts := [used, 1, 1, 1, 1] } : Desc).runs) []
    [(d, none, fun e =>
      (if lap then freeRaw s d.fmt e
       else if on.getD e false then x.raw s ((on.take e).filter id).length else fillRaw d.fmt f.cmd.w4, 0))]
    (if lap then 4 * d.size else 0)

/-! ### VCONV (R142) -/

/-- The largest power of two of a block-scaled output format (R142). -/
def Fmt.emax : Fmt → Int
  | .e4m3 => 8 | .e5m2 => 15 | .e3m2 => 4 | _ => 2

/-- A format of block-scaled output (Table 05.6, last row). -/
def Fmt.blockOut : Fmt → Bool
  | .e4m3 | .e5m2 | .e3m2 | .e2m3 | .e2m1 => true
  | _ => false

/-- What R407 checks of a VCONV at decode; it takes no mask (log 42). -/
def vconvBad (s : State) (f : InFl) : Bool :=
  let c := f.cmd
  let x := opnd! s f 1
  let d := opnd! s f 2
  refBad s c.w1 false || refBad s c.w2 false || unusedBad c [3, 4, 5, 6, 7] || auxesBad s x || auxesBad s d ||
  x.mask.isSome || d.mask.isSome ||
  x.counts != d.counts || (x.ncw.scaleMode == 2 && opScaleBad s x (x.c 1) (x.c 0)) ||
  (d.ncw.scaleMode == 1 && (match d.scale.bind (descAt s) with
    | some sc => !(sc.rank == 1 && sc.c 0 == d.rows)
    | none => true)) ||
  (d.ncw.scaleMode == 2 && (match d.scale.bind (descAt s) with
    | some sc => sc.counts != cdiv (d.c 0) d.ncw.bs :: d.counts.drop 1
    | none => true))

/-- A VCONV breaks a format rule (R142, R404). -/
def vconvFormat (s : State) (f : InFl) : Bool :=
  let x := opnd! s f 1
  let d := opnd! s f 2
  let sm := d.ncw.scaleMode
  !rndOk d.ncw || x.ncw.scaleMode == 1 || x.ncw.scaleMode == 3 || sm == 3 ||
  blockBad x || scaleFmtBad s x || scaleFmtBad s d ||
  (d.fmt.isBrine && sm != 0) ||
  (sm == 2 && (d.ncw.shareDir || !d.fmt.blockOut || x.fmt.isBrine)) ||
  x.ncw.anchorMode == 1 || d.ncw.anchorMode == 1 ||
  (x.fmt.isBrine && !anchorsOk s x) || (d.fmt.isBrine && !anchorsOk s d) ||
  (x.fmt.isBrine && d.fmt.isBrine && (x.fmt != d.fmt || !sameAnchors s d x))

/-- The auxiliary tensors that a VCONV reads. -/
def vconvAux (x d : Desc) : List (Option Nat) :=
  [if x.ncw.scaleMode = 2 then x.scale else none, if d.ncw.scaleMode = 1 then d.scale else none,
    brineAnchor x, brineAnchor d]

/-- The block-scale tensor that a VCONV writes (R142). -/
def vconvScaleOut (s : State) (d : Desc) : Option Desc :=
  if d.ncw.scaleMode = 2 then d.scale.bind (descAt s) else none

/-- The issue checks of a VCONV. -/
def vconvIssue (s : State) (b : Blk) (f : InFl) : List Status :=
  let x := opnd! s f 1
  let d := opnd! s f 2
  ([x, d] ++ vAux s (vconvAux x d) ++ (vconvScaleOut s d).toList).flatMap (storeCheck s b) ++
  (if vconvFormat s f then [.format] else [])

/-- The value of an element of src with its block scale (R75, R142). -/
def vconvSrc (s : State) (x : Desc) (e : Nat) : Val :=
  let ix := x.rowIx (e / x.c 0)
  ((x.val s e).mul (blockScale s x (ix.getD 0 0) (e % x.c 0) (ix.drop 1))).1

/-- One element converted or crystallised (Table 05.6, without block-scaled output). A row scale ends as in step 3 of R84
with β = 0, so that −0 becomes +0 outside RDN. -/
def vconvElem (s : State) (x d : Desc) (e : Nat) : Nat × Fl :=
  let u := drawOf s d.ncw e
  let rs := if d.ncw.scaleMode = 1 then rowScale s d (e / d.c 0) else Val.two 0
  if x.fmt.isBrine then
    if d.fmt.isBrine then (x.raw s e, 0)
    else
      let t := x.fmt.unpackBrine (x.raw s e)
      crystallise d.fmt d.ncw.mode u (x.fmt.brineVal (anchorAt s x e) t) t.fl rs .zero
  else if d.fmt.isBrine then
    (d.fmt.packBrine (Brine.addVal d.fmt (anchorAt s d e) {} (vconvSrc s x e)), 0)
  else if x.fmt == d.fmt && x.ncw.scaleMode == 0 && d.ncw.scaleMode == 0 then (x.raw s e, 0)
  else if d.ncw.scaleMode = 1 then d.fmt.roundOp d.ncw.mode u (affine d.ncw.mode (vconvSrc s x e) rs .zero)
  else d.fmt.round d.ncw.mode u (vconvSrc s x e)

/-- The E8M0 scale of a block of values, none when it holds a NaN or an infinity (R142). -/
def outScale (f : Fmt) (vs : List Val) : Option Nat :=
  if vs.any fun v => match v with | .fin _ _ _ => false | _ => true then none
  else
    match vs.foldl (fun m v => maxE m v.e) none with
    | none => some 0
    | some mx => some (max 0 (min 254 (mx - f.emax + 127))).toNat

/-- The block of dimension 0 that an element lies in: its values. -/
def blockVals (s : State) (x d : Desc) (row blk : Nat) : List Val :=
  let n := min d.ncw.bs (d.c 0 - blk * d.ncw.bs)
  (List.range n).map fun i => vconvSrc s x (row * d.c 0 + blk * d.ncw.bs + i)

/-- A finite value rounded into a format, one that overflows saturating to the largest finite value as R86 says of the
formats without infinity (R142). -/
def Fmt.roundSat (f : Fmt) (r : Rnd) (u : Nat) (v : Val) : Nat × Fl :=
  let x := f.round r u v
  match v with
  | .fin n _ _ => if x.2 &&& Fl.of != 0 then (f.maxBits n, x.2) else x
  | _ => x

/-- One element of block-scaled output (R142). -/
def blockOutElem (s : State) (x d : Desc) (e : Nat) : Nat × Fl :=
  let row := e / d.c 0
  match outScale d.fmt (blockVals s x d row (e % d.c 0 / d.ncw.bs)) with
  | none => (0, Fl.nv)
  | some sc => d.fmt.roundSat d.ncw.mode (drawOf s d.ncw e) ((vconvSrc s x e).scale2 (127 - (sc : Int)))

/-- A VCONV carried out. -/
def vconvRun (s : State) (b : Blk) (f : InFl) : State :=
  let x := opnd! s f 1
  let d := opnd! s f 2
  let so := vconvScaleOut s d
  let lap := badOverlap d x || so.toList.any (extentsMeet x) ||
    (vAux s (vconvAux x d)).any fun a => (d :: so.toList).any (extentsMeet a)
  let main := fun e =>
    let r := if d.ncw.scaleMode = 2 then blockOutElem s x d e else vconvElem s x d e
    if lap then (freeRaw s d.fmt e, r.2) else r
  let sc : List (Desc × Option Desc × (Nat → Nat × Fl)) := so.toList.map fun sd => (sd, none, fun k =>
    let nb := cdiv (d.c 0) d.ncw.bs
    (if lap then freeRaw s .uint8 (d.size + k) else (outScale d.fmt (blockVals s x d (k / nb) (k % nb))).getD 255, 0))
  maskedWrite s b f.idx 1 (x.runs ++ (vconvAux x d).flatMap (auxRuns s)) [] ((d, none, main) :: sc)
    (freeUse d.ncw (d.size + ((so.map Desc.size).getD 0)) lap)

/-- VOP: the vector engine carries out the block's first VOP that has issued (R137 to R141). -/
def execVop (b : Blk) (s : State) : Host.Outcome State Fault Refusal :=
  .next (engine s b .VQ 0x20 fun s f => vopRun s b f)

/-- VRED (R147 to R150). -/
def execVred (b : Blk) (s : State) : Host.Outcome State Fault Refusal :=
  .next (engine s b .VQ 0x21 fun s f => vredRun s b f)

/-- VCOMP (R145). -/
def execVcomp (b : Blk) (s : State) : Host.Outcome State Fault Refusal :=
  .next (engine s b .VQ 0x22 fun s f => vcompRun s b f)

/-- VEXP (R146). -/
def execVexp (b : Blk) (s : State) : Host.Outcome State Fault Refusal :=
  .next (engine s b .VQ 0x23 fun s f => vexpRun s b f)

/-- VCONV (R142). -/
def execVconv (b : Blk) (s : State) : Host.Outcome State Fault Refusal :=
  .next (engine s b .VQ 0x24 fun s f => vconvRun s b f)

end Sys2Proof.Machine
end

