-- ==== Sys2Proof/Machine/Pan.lean ====
section
/-!
DEFINITION. The pan engines (07): element operations, brine arrays, reduce-into, copy and digest, their checks, GATHER
and SCATTER; the rows PANOP, BOPEN, BADD, BCRYST, BCLOSE, REDINTO, COPY, DIGEST, GATHER and SCATTER.
-/
namespace Sys2Proof.Machine

/-! ### Element operations (R193, R194) -/

/-- An integer operation of R193 on the target's bits `t`: operand `x`, and `y` the new value of CAS. -/
def panInt (op : Nat) (f : Fmt) (t x y : Nat) : Nat :=
  match op with
  | 0x01 => f.wrap (f.intOf t + f.intOf x)
  | 0x02 => f.wrap (min (f.intOf t) (f.intOf x))
  | 0x03 => f.wrap (max (f.intOf t) (f.intOf x))
  | 0x04 => t &&& x
  | 0x05 => t ||| x
  | 0x06 => t ^^^ x
  | 0x07 => x
  | 0x08 => if t = x then y else t
  | _ => t

/-- An element operation ADD to CAS or FADD, or REDINTO into an integer or float target. -/
def panElem (op : Nat) (f : Fmt) (r : Rnd) (t x y : Nat) : Nat × Fl :=
  if f.isFloat then vopFloat 0x01 f r 0 t x 0
  else (panInt (if op = 0x30 then 0x01 else op) f t x y, 0)

/-- The stack that holds an NPA. -/
def stackOf (s : State) (npa : Nat) : Nat :=
  match place s npa with
  | .mem k _ | .cellar k _ => k
  | _ => 0

/-- The bytes of an element. -/
def Fmt.bytes (f : Fmt) : Nat := f.bits / 8

/-- One element operation at an NPA: the state, the old bits, and the fault of its line, which is read and merged whole
(R195, R204, 01 R406). -/
def panAt (s : State) (op : Nat) (f : Fmt) (r : Rnd) (npa x y : Nat) :
    State × Nat × Option (Status × ErrCode × Nat) :=
  match touch s (partialRuns [⟨npa, f.bytes⟩]) with
  | (t, some e) => (t, 0, some e)
  | (t, none) =>
    let old := rdW t npa f.bytes
    let (new, fl) := panElem op f r old x y
    let t1 := wrW t npa f.bytes new
    (if f.isFloat then setPanFlags t1 (stackOf s npa) fl else t1, old, none)

/-! ### The brine array table (R196 to R199) -/

/-- The format of an entry. -/
def BrineEnt.fmt (e : BrineEnt) : Fmt := if e.b256 then .b256 else .b128

/-- The tensor an entry registers. -/
def BrineEnt.desc (e : BrineEnt) : Desc :=
  { Desc.of [] with base := e.base, counts := e.counts, strides := e.strides, rank := 5,
                    ncw := { Ncw.of 0 with fmt := e.fmt, anchorMode := e.anchorMode, anchor := e.anchor } }

/-- A descriptor has exactly an entry's extent. -/
def BrineEnt.same (e : BrineEnt) (d : Desc) : Bool := e.desc.extent == d.extent

/-- The entry of exactly a descriptor's extent. -/
def entOf (s : State) (d : Desc) : Option BrineEnt := s.brine.find? fun e => e.same d

/-- The NPA of the element of a tensor with a row-major index. -/
def Desc.elemNpa (d : Desc) (e : Nat) : Nat := d.rowNpa (e / d.c 0) + e % d.c 0 * d.fmt.bytes

/-- The index of the element of an entry that begins at an NPA. -/
def BrineEnt.index (e : BrineEnt) (npa : Nat) : Option Nat :=
  (List.range e.desc.size).find? fun i => e.desc.elemNpa i == npa

/-- The entry that an NPA begins an element of. -/
def entAt (s : State) (npa : Nat) : Option BrineEnt :=
  s.brine.find? fun e => e.desc.extent.1 ≤ npa && (npa : Int) ≤ e.desc.extent.2 && (e.index npa).isSome

/-- The entry that a target lies within, on element boundaries (R198). A target of the other brine format can share only
its first boundary; its format is refused after. -/
def entHolding (s : State) (d : Desc) : Option BrineEnt :=
  if d.empty then none
  else s.brine.find? fun e => e.desc.extent.1 ≤ d.extent.1 && d.extent.2 ≤ e.desc.extent.2 &&
    (List.range (if d.fmt = e.fmt then d.size else 1)).all fun i => (e.index (d.elemNpa i)).isSome

/-- The anchor array of an entry of anchor_mode 2 (R196). -/
def BrineEnt.anchorDesc (e : BrineEnt) : Option Desc :=
  e.anchorAt.map fun (base, strides) =>
    { Desc.of [] with base := base, counts := e.counts, strides := strides, rank := 5,
                      ncw := { Ncw.of 0 with fmt := .int32 } }

/-- The anchor of an entry's element. -/
def BrineEnt.anchorOfElem (s : State) (e : BrineEnt) (i : Nat) : Int :=
  match e.anchorDesc with
  | some a => sx 32 (a.raw s i)
  | none => e.anchor

/-- The bytes of the anchor that the pan engine reads for an addend to an entry's element: none for a brine addend. -/
def BrineEnt.anchorRun (e : BrineEnt) (xf : Fmt) (i : Nat) : List Run :=
  if xf.isBrine then [] else (e.anchorDesc.map fun a => [⟨a.elemNpa i, 4⟩]).getD []

/-- One addend into an entry's element at an NPA: the addend's format and bits (R80, R81, R198). -/
def brineAt (s : State) (e : BrineEnt) (npa : Nat) (xf : Fmt) (x : Nat) :
    State × Option (Status × ErrCode × Nat) :=
  let n := e.fmt.bytes
  let i := (e.index npa).getD 0
  match touch s (⟨npa, n⟩ :: e.anchorRun xf i) with
  | (t, some err) => (t, some err)
  | (t, none) =>
    let old := e.fmt.unpackBrine (rdW t npa n)
    let new := if xf.isBrine then Brine.add old (e.fmt.unpackBrine x)
               else Brine.addVal e.fmt (e.anchorOfElem t i) old (xf.decode x)
    (wrW t npa n (e.fmt.packBrine new), none)

/-- An addend command of PANOP: BADD, or REDINTO with a brine target (R198). -/
def isAddend (s : State) (f : InFl) : Bool :=
  f.cmd.opcode == 0x57 && (fld f.cmd.w4 0 8 == 0x21 || (fld f.cmd.w4 0 8 == 0x30 && (opnd! s f 1).fmt.isBrine)) &&
  (match f.done with | some st => !st.refused | none => true)

/-- Addend commands are in flight against an entry: local ones from issue to completion, remote ones from their first
frame to their last (R198). -/
def addends (s : State) (e : BrineEnt) : Bool :=
  !e.remote.isEmpty || (gradeBlocks s).any fun b => (s.q b .OQ).inflight.any fun f =>
    isAddend s f && (let t := opnd! s f 1; !t.empty && e.desc.extent.1 ≤ t.extent.1 && t.extent.2 ≤ e.desc.extent.2)

/-- The state with an entry changed. -/
def updEnt (s : State) (e e' : BrineEnt) : State :=
  { s with brine := s.brine.map fun x => if x = e then e' else x }

/-- The entry that BOPEN makes of its target. -/
def entFor (s : State) (d : Desc) (coll : Option (Nat × Nat)) : BrineEnt :=
  { base := d.base, counts := d.counts, strides := d.strides, b256 := d.fmt == .b256, anchorMode := d.ncw.anchorMode,
    anchor := d.ncw.anchor, sealed := false, coll := coll,
    anchorAt := if d.ncw.anchorMode = 2 then (d.anchorD.bind (descAt s)).map fun a => (a.base, a.strides) else none }

/-- Zeroes a tensor's elements run by run, up to the first fault of a line that it must merge, which is left unchanged
(R187, R204). -/
def zeroTensor (s : State) (d : Desc) : State × Option (Status × ErrCode × Nat) :=
  d.runs.foldl (fun acc r =>
    match acc.2 with
    | some _ => acc
    | none =>
      match touch acc.1 (partialRuns [r]) with
      | (u, some e) => (u, some e)
      | (u, none) => (wrN u r.npa (List.replicate r.len 0), none)) (s, none)

/-- BOPEN reads its anchor array, registers its target and zeroes it at issue, so that no addend precedes the zeroing
(R197). A target with a count of 0 registers nothing (R8). -/
def openArray (s : State) (d : Desc) (coll : Option (Nat × Nat)) : State × Option (Status × ErrCode × Nat) :=
  if d.empty then (s, none)
  else
    let ent := entFor s d coll
    match touch { s with brine := (s.brine.filter fun e => !e.same d) ++ [ent] } ((ent.anchorDesc.map Desc.runs).getD []) with
    | (t, some e) => (t, some e)
    | (t, none) => zeroTensor t d

/-! ### Checks of PANOP (R191, R192, R197 to R202, R407) -/

/-- The operation code of PANOP. -/
def panCode (c : Cmd) : Nat := fld c.w4 0 8

/-- Codes ADD to CAS and FADD, which RATOM may carry too. -/
def panAtomic (op : Nat) : Bool := (0x01 ≤ op && op ≤ 0x08) || op == 0x10

/-- The counts of W2 agree with the target's (Table 07.4). -/
def panCounts (op : Nat) (t x : Desc) : Bool :=
  if op = 0x08 then x.c 0 == 2 * t.c 0 && x.counts.drop 1 == t.counts.drop 1 else x.counts == t.counts

/-- What R407 checks of a PANOP. -/
def panBad (s : State) (f : InFl) : Bool :=
  let c := f.cmd
  let op := panCode c
  let t := opnd! s f 1
  let has := fun i => (refIdx (c.w i)).isSome
  refBad s c.w1 false || refBad s c.w2 true || refBad s c.w3 true || bitsBad c.w4 0xFF || unusedBad c [5, 6, 7] ||
  auxesBad s t ||
  (if panAtomic op then
     !has 2 || !panCounts op t (opnd! s f 2) || (has 3 && (opnd! s f 3).counts != t.counts)
   else if op = 0x20 ∨ op = 0x23 then has 2 || has 3
   else if op = 0x21 ∨ op = 0x30 ∨ op = 0x22 then !has 2 || has 3 || (opnd! s f 2).counts != t.counts
   else if op = 0x40 then
     !has 2 || has 3 || (opnd! s f 2).counts != t.counts || extentsMeet t (opnd! s f 2)
   else if op = 0x41 then !has 2 || has 3 || t.c 0 != 64 || t.size != 64
   else true)

/-- The target format is one of Table 07.4. -/
def panTarget (op : Nat) (f : Fmt) : Bool :=
  let ints := f == .int32 || f == .int64
  let floats := f == .fp64 || f == .fp32 || f == .bf16 || f == .fp16
  if 0x01 ≤ op ∧ op ≤ 0x08 then ints
  else if op = 0x10 then floats
  else if op = 0x20 ∨ op = 0x21 ∨ op = 0x23 then f.isBrine
  else if op = 0x22 then floats || ints || f == .e4m3 || f == .e5m2
  else if op = 0x30 then floats || ints || f.isBrine
  else if op = 0x41 then f == .uint8
  else true

/-- An operand format that brine takes (Table 07.4). -/
def brineOperand (t x : Fmt) : Bool := x == .fp64 || x == .fp32 || x == .bf16 || x == .fp16 || x == t

/-- An element of a tensor is aligned to its size and lies in one line (R191). -/
def elemAligned (d : Desc) : Bool :=
  d.empty || (d.base % d.fmt.bytes == 0 && d.stridesOk d.fmt.bytes)

/-- Every line of a tensor lies in one stack. -/
def oneStack (s : State) (d : Desc) : Bool :=
  let ks := d.runs.flatMap fun r => (List.range (cdiv (r.npa % 64 + r.len) 64)).map fun i => stackOf s (r.npa + 64 * i)
  ks.all fun k => some k == ks.head?

/-- Every line of a source and its line of the target lie in one stack (R201). -/
def linesPaired (s : State) (t x : Desc) : Bool :=
  (x.runs.zip t.runs).all fun e => (List.range (cdiv e.1.len 64)).all fun i =>
    stackOf s (e.1.npa + 64 * i) == stackOf s (e.2.npa + 64 * i)

/-- The place rules of R191 for an operand in the block store, or for node memory with or without the cellar. -/
def inMem (s : State) (cellar : Bool) (d : Desc) : Bool :=
  d.empty || (!d.remote && match place s d.extent.1.toNat with
    | .mem _ _ => true
    | .cellar _ _ => cellar
    | _ => false)

/-- The formats of a PANOP break a rule. -/
def panFormat (s : State) (f : InFl) : Bool :=
  let op := panCode f.cmd
  let t := opnd! s f 1
  let x := opnd! s f 2
  let scaled := t.ncw.scaleMode != 0 || ((opnd s f 2).any fun d => d.ncw.scaleMode != 0)
  !panTarget op t.fmt || blockBad t || ((opnd s f 2).any blockBad) || ((opnd s f 3).any blockBad) ||
  (if panAtomic op then
     x.fmt != t.fmt || ((opnd s f 3).any fun d => d.fmt != t.fmt) || (op == 0x10 && 3 < t.ncw.rnd) || scaled
   else if op = 0x20 then
     t.ncw.acc != (t.fmt == .b256) ||
     (if t.ncw.anchorMode = 0 then !anchorOk t.ncw.anchor
      else if t.ncw.anchorMode = 2 then
        match t.anchorD.bind (descAt s) with
        | some a => a.counts != t.counts || a.fmt != .int32 || (a.raws s).any fun r => !anchorOk (sx 32 r)
        | none => true
      else true)
   else if op = 0x21 then !brineOperand t.fmt x.fmt || scaled
   else if op = 0x30 then
     (if t.fmt.isBrine then !brineOperand t.fmt x.fmt else x.fmt != t.fmt || (t.fmt.isFloat && 3 < t.ncw.rnd)) || scaled
   else if op = 0x22 then !x.fmt.isBrine || !rndOk t.ncw || scaled
   else if op = 0x40 then x.fmt != t.fmt
   else false)

/-- An addend's target and operand under the entry they meet: the statuses R198 gives. -/
def addendCheck (e : Option BrineEnt) (t : Desc) (x : Option Desc) : List Status :=
  match e with
  | none => [.state]
  | some e =>
    (if e.sealed then [.state] else []) ++
    (if t.fmt != e.fmt || (e.anchorMode == 0 && (t.ncw.anchorMode != 0 || t.ncw.anchor != e.anchor)) ||
        (match x with
         | some x => x.fmt.isBrine && (x.fmt != e.fmt || x.ncw.anchorMode != e.anchorMode ||
             (e.anchorMode == 0 && x.ncw.anchor != e.anchor))
         | none => false) then [.format] else [])

/-- An operand word of a PANOP lies where R191 to R202 allow it. -/
def panWordOk (s : State) (b : Blk) (op i : Nat) (d : Desc) : Bool :=
  match i with
  | 1 => if op = 0x40 then inMem s true d else if op = 0x41 then inMem s true d || inStore b d else inMem s false d
  | 2 => if op = 0x22 then inMem s false d else if op = 0x40 ∨ op = 0x41 then inMem s true d else inStore b d
  | _ => inStore b d

/-- The place checks of a PANOP where an address register took part (R121, R191). -/
def panPlace (s : State) (b : Blk) (f : InFl) : List Status :=
  [1, 2, 3].flatMap fun i => (opnd s f i).toList.flatMap fun d =>
    if d.viaReg && !panWordOk s b (panCode f.cmd) i d then [Status.bounds] else []

/-- The issue checks of a PANOP. -/
def panIssue (s : State) (b : Blk) (f : InFl) : List Status :=
  let op := panCode f.cmd
  let t := opnd! s f 1
  let x := opnd! s f 2
  let all := t :: ((opnd s f 2).toList ++ (opnd s f 3).toList)
  all.flatMap (extentCheck s) ++ panPlace s b f ++
  (if panFormat s f then [.format] else []) ++
  (if op = 0x40 then
     (if t.empty || (bulkAligned t && bulkAligned x && linesPaired s t x)
      then [] else [.align])
   else if op = 0x41 then (if t.base % 64 == 0 && (x.empty || oneStack s x) then [] else [.align])
   else if all.all elemAligned then [] else [.align]) ++
  (if op = 0x20 then
     if t.empty then [] else
     (match entOf s t with
      | some e => if addends s e then [.state] else []
      | none => if 64 ≤ s.brine.length then [.state] else []) ++
     (if s.brine.any fun e => !e.same t && extentsMeet e.desc t then [.state] else [])
   else if op = 0x21 ∨ (op = 0x30 ∧ t.fmt.isBrine) then
     if t.empty then [] else addendCheck (entHolding s t) t (some x)
   else if op = 0x22 then
     if x.empty then [] else
     (match entOf s x with
      | some e => (if addends s e || t.counts != e.counts then [.state] else []) ++
          (if x.fmt != e.fmt || (e.anchorMode == 0 && (x.ncw.anchorMode != 0 || x.ncw.anchor != e.anchor)) then [.format] else [])
      | none => [.state]) ++
     (if s.brine.any fun e => extentsMeet e.desc t then [.state] else [])
   else if op = 0x23 then
     if t.empty then [] else
     (match entOf s t with
      | some e => if addends s e then [.state] else []
      | none => [.state])
   else [])

/-- What PANOP does at issue: BOPEN registers and zeroes, BCRYST seals (R197, R199). The fault of a line that BOPEN had
to merge waits in the command. -/
def panAtIssue (s : State) (f : InFl) : State × InFl :=
  let op := panCode f.cmd
  if op = 0x20 then
    match openArray s (opnd! s f 1) none with
    | (t, none) => (t, f)
    | (t, some (st, code, npa)) => (t, { f with failed := some st, err := some code, npa := some npa })
  else if op = 0x22 then
    match (if (opnd! s f 2).empty then none else entOf s (opnd! s f 2)) with
    | some e => (updEnt s e { e with sealed := true }, f)
    | none => (s, f)
  else (s, f)

/-! ### Carrying out PANOP -/

/-- A command ends with a fault or OK, the bytes written noted. -/
def panEnd (s : State) (b : Blk) (f : InFl) (out : List Byte) (e : Option (Status × ErrCode × Nat)) : State :=
  match e with
  | some x => finishFault (noteOut s b .OQ f.idx out) b .OQ f.idx x
  | none => finishOut s b .OQ f.idx .ok out

/-- Element operations in the row-major order of the operand, up to the first fault; the old values are answered
(R193 to R195, R204). -/
def panWalk (s : State) (op : Nat) (t : Desc) (x : Nat → Nat) (y : Nat → Nat) :
    State × List Nat × Option (Status × ErrCode × Nat) :=
  (List.range t.size).foldl (fun acc e =>
    match acc.2.2 with
    | some _ => acc
    | none =>
      let (u, old, err) := panAt acc.1 op t.fmt t.ncw.mode (t.elemNpa e) (x e) (y e)
      match err with
      | some _ => (u, acc.2.1, err)
      | none => (u, acc.2.1 ++ [old], none)) (s, [], none)

/-- ADD to CAS and FADD, or REDINTO into an integer or float target. -/
def panAtomicRun (s : State) (b : Blk) (f : InFl) : State :=
  let op := panCode f.cmd
  let t := opnd! s f 1
  let x := opnd! s f 2
  withTouch s (x.runs ++ ((opnd s f 3).map fun d => partialRuns d.runs).getD []) b .OQ f.idx fun s1 =>
    let raws := x.raws s1
    let xi := fun e => if op = 0x08 then raws.getD (2 * e) 0 else raws.getD e 0
    let yi := fun e => if op = 0x08 then raws.getD (2 * e + 1) 0 else 0
    let (s2, olds, err) := panWalk s1 op t xi yi
    match err, opnd s f 3 with
    | none, some d =>
      let (s3, _) := wrT s2 d fun e => olds[e]?
      panEnd s3 b f (packRow t.fmt (t.raws s2) ++ packRow d.fmt olds) none
    | none, none => panEnd s2 b f (packRow t.fmt (t.raws s2)) none
    | some e, _ => panEnd s2 b f [] (some e)

/-- Addends into a brine array (R198). -/
def brineWalk (s : State) (e : BrineEnt) (t : Desc) (xf : Fmt) (x : Nat → Nat) :
    State × Option (Status × ErrCode × Nat) :=
  (List.range t.size).foldl (fun acc i =>
    match acc.2 with
    | some _ => acc
    | none => brineAt acc.1 e (t.elemNpa i) xf (x i)) (s, none)

/-- BADD, or REDINTO with a brine target. -/
def baddRun (s : State) (b : Blk) (f : InFl) : State :=
  let t := opnd! s f 1
  let x := opnd! s f 2
  withTouch s x.runs b .OQ f.idx fun s1 =>
    let raws := x.raws s1
    match entHolding s1 t with
    | none => panEnd s1 b f [] none
    | some e =>
      let (s2, err) := brineWalk s1 e t x.fmt fun i => raws.getD i 0
      panEnd s2 b f (if err.isSome then [] else packRow t.fmt (t.raws s2)) err

/-- BCRYST: every element of the registered array crystallised under the entry's anchors, its flags to the stack of its
brine element (R199; log 60). -/
def bcrystRun (s : State) (b : Blk) (f : InFl) : State :=
  let d := opnd! s f 1
  let w := opnd! s f 2
  match (if w.empty then none else entOf s w) with
  | none => panEnd s b f [] none
  | some e =>
    let x := e.desc
    withTouch s (x.runs ++ (e.anchorDesc.map Desc.runs).getD [] ++ partialRuns d.runs) b .OQ f.idx fun s1 =>
      let rs := (List.range x.size).map fun i =>
        let br := x.fmt.unpackBrine (x.raw s1 i)
        crystallise d.fmt d.ncw.mode (drawOf s1 d.ncw i) (x.fmt.brineVal (e.anchorOfElem s1 i) br) br.fl (Val.two 0) .zero
      let (s2, out) := wrT s1 d fun i => (rs[i]?).map Prod.fst
      let s3 := (List.range x.size).foldl (fun t i => setPanFlags t (stackOf s (x.elemNpa i)) ((rs.getD i (0, 0)).2)) s2
      panEnd (drewN s3 d.ncw d.size) b f out none

/-- COPY: lines with their line checks, inside the memory-side die (R201). -/
def copyRun (s : State) (b : Blk) (f : InFl) : State :=
  let t := opnd! s f 1
  let x := opnd! s f 2
  let pairs := (List.range t.rows).map fun r => (x.rowNpa r, t.rowNpa r)
  let (s1, out, err) := (if t.empty then [] else pairs).foldl
    (fun (acc : State × List Byte × Option (Status × ErrCode × Nat)) p =>
      match acc.2.2 with
      | some _ => acc
      | none =>
        match touch acc.1 [⟨p.1, t.rowBytes⟩] with
        | (u, some e) => (u, acc.2.1, some e)
        | (u, none) =>
          let bs := rdN u p.1 t.rowBytes
          (wrN u p.2 bs, acc.2.1 ++ bs, none)) (s, [], none)
  panEnd s1 b f out err

/-- DIGEST: SHAKE256 of the extent in row-major order (R202). -/
def digestRun (s : State) (b : Blk) (f : InFl) : State :=
  let t := opnd! s f 1
  let x := opnd! s f 2
  withTouch s x.runs b .OQ f.idx fun s1 =>
    let bs := shake256 (x.runs.flatMap fun r => rdN s1 r.npa r.len)
    let (s2, out) := wrT s1 t fun e => (bs[e]?).map BitVec.toNat
    panEnd s2 b f out none

/-- The row of a PANOP takes up the first command in flight not yet taken up, when it carries the row's codes. -/
def panEngine (s : State) (b : Blk) (codes : Nat → Bool) (run : State → InFl → State) : State :=
  engine s b .OQ 0x57 fun s f => if codes (panCode f.cmd) then run s f else s

/-! ### GATHER and SCATTER (R188 to R190) -/

/-- The index list, the table and the dense side. -/
def rowsOf (s : State) (f : InFl) (gather : Bool) : Desc × Desc × Desc :=
  if gather then (opnd! s f 1, opnd! s f 2, opnd! s f 3) else (opnd! s f 1, opnd! s f 3, opnd! s f 2)

/-- Row `j` of the dense side begins `j` rows after its base. -/
def contiguous (d : Desc) : Bool :=
  (List.range 4).all fun i => d.c (i + 1) ≤ 1 ||
    d.strides.getD i 0 == (((d.counts.drop 1).take i).foldl (· * ·) 1 * d.rowBytes : Nat)

/-- What R407 checks of a GATHER or SCATTER. -/
def rowsBad (s : State) (f : InFl) (gather : Bool) : Bool :=
  let c := f.cmd
  let (ix, tab, den) := rowsOf s f gather
  refBad s c.w1 false || refBad s c.w2 false || refBad s c.w3 false || !refOk c.w4 || unusedBad c [5, 6, 7] ||
  ix.rank != 1 || tab.rank != 2 || den.size != ix.size * tab.c 0 || !contiguous den ||
  match stCtl s c.w4 with
  | none => true
  | some k => !k.ok || k.ring || k.high != 0 || k.low != 0 || k.rush != 0 || ((refIdx c.w4).isSome && !k.narrow)

/-- The issue checks of a GATHER or SCATTER. -/
def rowsIssue (s : State) (b : Blk) (f : InFl) (gather : Bool) : List Status :=
  let (ix, tab, den) := rowsOf s f gather
  let none0 := ix.empty || tab.c 0 == 0
  [ix, tab, den].flatMap (fun d => extentCheck s d ++ bufCheck s d) ++
  (if inMem s false tab && inStore b den then [] else [.bounds]) ++
  (if none0 || (tab.base % 8 == 0 && tab.rowBytes % 8 == 0 && tab.stride 0 % 8 == 0 && den.base % 64 == 0 &&
      ix.size * tab.rowBytes % 64 == 0) then [] else [.align]) ++
  (if (ix.fmt == .int32 || ix.fmt == .int64) && tab.fmt == den.fmt && !tab.fmt.packed && tab.ncw.scaleMode == 0 &&
      den.ncw.scaleMode == 0 && !blockBad ix then [] else [.format])

/-- The requests of a GATHER or SCATTER: the rows that the list names, in list order, by the narrow path (R190, 08
R227). -/
def rowsReqs (is : List Nat) (tab den : Desc) : List SReq :=
  let n := tab.rowBytes
  number ((joinRows (is.zipIdx.map fun p =>
      { far := tab.rowNpa p.1, near := den.base + p.2 * n, bytes := n, nb := n })).flatMap fun r =>
    cutRun 512 4096 1 1 (r.bytes / 8 + 2) r)

/-- A GATHER or SCATTER carried to context 14 or 15: the whole list is checked before any row moves (R189, 08 R214). -/
def rowsRun (s : State) (b : Blk) (f : InFl) (gather : Bool) : State :=
  let q := dirQ gather
  let (ix, tab, den) := rowsOf s f gather
  withTouch s ix.runs b q f.idx fun s1 =>
    let is := ix.raws s1
    if is.any fun i => tab.c 1 ≤ i then finish s1 b q f.idx .bounds
    else
      startStream s1 b (if gather then 14 else 15) q f false
        { idx := f.idx, remote := false, outbound := !gather, narrow := true, lc := gather && tab.lc, high := 0, low := 0,
          rush := 0, rate := ((stCtl s f.cmd.w4).getD {}).rate, ringBase := 0, ringSize := 0,
          todo := rowsReqs is tab den, sent := [] }

/-! ### The rows -/

/-- PANOP: codes ADD to CAS and FADD (R193 to R195). -/
def execPanop (b : Blk) (s : State) : Host.Outcome State Fault Refusal :=
  .next (panEngine s b panAtomic fun s f => panAtomicRun s b f)

/-- BOPEN: registered and zeroed at issue, it finishes (R197). -/
def execBopen (b : Blk) (s : State) : Host.Outcome State Fault Refusal :=
  .next (panEngine s b (· == 0x20) fun s f =>
    finishOut s b .OQ f.idx (f.failed.getD .ok) (packRow (opnd! s f 1).fmt ((opnd! s f 1).raws s)))

/-- BADD (R198). -/
def execBadd (b : Blk) (s : State) : Host.Outcome State Fault Refusal :=
  .next (panEngine s b (· == 0x21) fun s f => baddRun s b f)

/-- BCRYST (R199). -/
def execBcryst (b : Blk) (s : State) : Host.Outcome State Fault Refusal :=
  .next (panEngine s b (· == 0x22) fun s f => bcrystRun s b f)

/-- BCLOSE: empties the entry and leaves the memory as it is (R199). -/
def execBclose (b : Blk) (s : State) : Host.Outcome State Fault Refusal :=
  .next (panEngine s b (· == 0x23) fun s f =>
    let d := opnd! s f 1
    finish { s with brine := s.brine.filter fun e => d.empty || !e.same d } b .OQ f.idx .ok)

/-- REDINTO (R200). -/
def execRedinto (b : Blk) (s : State) : Host.Outcome State Fault Refusal :=
  .next (panEngine s b (· == 0x30) fun s f =>
    if (opnd! s f 1).fmt.isBrine then baddRun s b f else panAtomicRun s b f)

/-- COPY (R201). -/
def execCopy (b : Blk) (s : State) : Host.Outcome State Fault Refusal :=
  .next (panEngine s b (· == 0x40) fun s f => copyRun s b f)

/-- DIGEST (R202). -/
def execDigest (b : Blk) (s : State) : Host.Outcome State Fault Refusal :=
  .next (panEngine s b (· == 0x41) fun s f => digestRun s b f)

/-- GATHER (R188 to R190). -/
def execGather (b : Blk) (s : State) : Host.Outcome State Fault Refusal :=
  .next (engine s b .IQ 0x41 fun s f => rowsRun s b f true)

/-- SCATTER (R188 to R190). -/
def execScatter (b : Blk) (s : State) : Host.Outcome State Fault Refusal :=
  .next (engine s b .OQ 0x51 fun s f => rowsRun s b f false)

end Sys2Proof.Machine
end

