-- ==== Sys2Proof/Machine/Cq.lean ====
section
/-!
DEFINITION. The commands of CQ (04, 09): signals, waits on memory values and on hall time, flag reads and the HEDGE
operations; the rows SIGNAL, WAITV, WAITV_REREAD, WAITV_TIMEOUT, WAITT, WAITT_STROBE, FLAGS, EPOCHWAIT, QUIESCE and READ.
-/
namespace Sys2Proof.Machine

/-! ### Places a SIGNAL or WAITV may name (R408) -/

/-- The base of a block's registers (Table 01.5). -/
def blockRegs : Nat := 0x100_0000

/-- The block, and the offset in its registers, of an offset in the internal register space. -/
def blockReg (o : Nat) : Option (Blk × Nat) :=
  if blockRegs ≤ o ∧ o < blockRegs + 0x10_0000 then
    let k := (o - blockRegs) >>> 12
    some (⟨BitVec.ofNat 2 (k / 64), BitVec.ofNat 6 (k % 64)⟩, o % 4096)
  else none

/-- The stream-context register that an NPA names: the block, the context and 0 PEER, 1 OWN, 2 ISSUED, 3 STATUS. -/
def ctxReg (s : State) (npa : Nat) : Option (Blk × Nat × Nat) :=
  match place s npa with
  | .reg o => (blockReg o).bind fun p =>
      if 0x500 ≤ p.2 ∧ p.2 < 0x700 ∧ p.2 % 8 = 0 then some (p.1, (p.2 - 0x500) / 32, p.2 % 32 / 8) else none
  | _ => none

/-- An NPA lies where R408 allows a SIGNAL (register 0, PEER) or a WAITV (register 1, OWN). -/
def cqPlace (s : State) (npa reg : Nat) : Bool :=
  match place s npa with
  | .mem _ _ | .rstore _ _ => true
  | .block r k _ => blockLive s ⟨BitVec.ofNat 2 r, BitVec.ofNat 6 k⟩
  | .reg _ => match ctxReg s npa with
    | some (b, _, n) => n == reg && blockLive s b
    | none => false
  | _ => false

/-- The issue checks of a SIGNAL's or WAITV's NPA. -/
def cqNpa (s : State) (w : W64) (reg : Nat) : List Status :=
  (if w.toNat % 8 = 0 then [] else [.align]) ++ (if cqPlace s (fld w 0 56) reg then [] else [.bounds])

/-! ### R407's checks -/

/-- The HEDGE operation of a command. -/
def hedgeOp (c : Cmd) : Nat := fld c.w1 16 8

/-- A hedge that a command may use: it is in the table and this node is a member (R239, R407). -/
def hedgeOk (s : State) (id : Nat) : Bool :=
  match hedgeOf s id with
  | some h => h.state != 3 && h.state != 0
  | none => false

/-- What R407 checks of a CQ command. -/
def cqBad (s : State) (f : InFl) : Bool :=
  let c := f.cmd
  match c.opcode with
  | 0x60 => bitsBad c.w1 (2 ^ 56 - 1) || unusedBad c [3, 4, 5, 6, 7]
  | 0x61 => bitsBad c.w1 (2 ^ 56 - 1) || 2 < c.w3.toNat || unusedBad c [5, 6, 7]
  | 0x62 => unusedBad c [2, 3, 4, 5, 6, 7]
  | 0x63 => refBad s c.w1 true || bitsBad c.w2 0xFFFF || unusedBad c [3, 4, 5, 6, 7] ||
      ((refIdx c.w1).isSome && ((opnd! s f 1).rows != 1 || (opnd! s f 1).rowBytes != 8))
  | 0x64 => bitsBad c.w1 0xFFFFFF || unusedBad c [3, 4, 5, 6, 7] || !(1 ≤ hedgeOp c && hedgeOp c ≤ 3) ||
      (hedgeOp c == 2 && c.w2 != 0) || !hedgeOk s (fld c.w1 0 16)
  | _ => true

/-- The issue checks of a CQ command (R121, R252, R408). -/
def cqIssue (s : State) (b : Blk) (f : InFl) : List Status :=
  let c := f.cmd
  match c.opcode with
  | 0x60 => cqNpa s c.w1 0
  | 0x61 => cqNpa s c.w1 1
  | 0x63 => match opnd s f 1 with
    | some d => extentCheck s d
    | none => []
  | 0x64 =>
    if hedgeOp c = 3 then
      let a := c.w2.toNat
      (if a % 8 = 0 then [] else [.align]) ++
      (if storeBase b ≤ a ∧ a + 24 ≤ storeBase b + 2 ^ 22 then [] else [.bounds])
    else []
  | _ => []

/-! ### SIGNAL and WAITV -/

/-- SIGNAL carried out: the ADD of R193 at memory or a store, or the add of R222. -/
def signalRun (s : State) (b : Blk) (f : InFl) : State :=
  let npa := fld f.cmd.w1 0 56
  match ctxReg s npa with
  | some (k, n, _) => finish (addPeer s k n f.cmd.w2) b .CQ f.idx .ok
  | none =>
    match panAt s 0x01 .int64 .rne npa f.cmd.w2.toNat 0 with
    | (t, _, none) => finishOut t b .CQ f.idx .ok (rdN t npa 8)
    | (t, _, some e) => finishFault t b .CQ f.idx e

/-- The word that a WAITV reads, with the fault of its line. -/
def waitWord (s : State) (npa : Nat) : State × Nat × Option (Status × ErrCode × Nat) :=
  match ctxReg s npa with
  | some (k, n, _) => (s, (s.ctx k n).own.toNat, none)
  | none =>
    let (t, e) := touch s [⟨npa, 8⟩]
    (t, rdW t npa 8, e)

/-- The test of a WAITV: 0 ≥ unsigned, 1 equal, 2 not equal (Table 04.7). -/
def waitTest (c : Cmd) (v : Nat) : Bool :=
  match c.w3.toNat with
  | 0 => c.w2.toNat ≤ v
  | 1 => v == c.w2.toNat
  | _ => v != c.w2.toNat

/-- Hall time has reached a WAITV's timeout, if it has one (R111). -/
def waitvLate (s : State) (f : InFl) : Bool := f.cmd.w4 != 0 && decide (f.cmd.w4.toNat ≤ s.tim.hall)

/-- A WAITV reads its word and completes when its test holds; once hall time has reached its timeout it reads no more, and
completes with TIMEOUT (R111; log 61). -/
def waitvRead (s : State) (b : Blk) (f : InFl) : State :=
  if waitvLate s f then finish s b .CQ f.idx .timeout
  else match waitWord s (fld f.cmd.w1 0 56) with
  | (t, _, some e) => finishFault t b .CQ f.idx e
  | (t, v, none) => if waitTest f.cmd v then finish t b .CQ f.idx .ok
                    else updInFl t b .CQ f.idx fun x => { x with started := true }

/-- The command of CQ in flight that waits: an opcode, taken up, not done. -/
def waitingCmd (s : State) (b : Blk) (op : Nat) : Option InFl :=
  (s.q b .CQ).inflight.find? fun f => f.cmd.opcode == op && f.started && f.done.isNone

/-- A waiting WAITV re-reads its word. -/
def waitvAgain (s : State) (b : Blk) : State :=
  match waitingCmd s b 0x61 with
  | some f => waitvRead s b f
  | none => s

/-- Hall time has reached a waiting WAITV's timeout: it completes with TIMEOUT (R111). -/
def waitvExpire (s : State) (b : Blk) : State :=
  match waitingCmd s b 0x61 with
  | some f => if waitvLate s f then finish s b .CQ f.idx .timeout else s
  | none => s

/-! ### WAITT -/

/-- The bound of R48 in ns: 2 while LOCKED, the time error plus half a nanosecond in HOLDOVER. -/
def eventBound (s : State) : Nat :=
  if s.tim.state = .locked then 2 else cdiv (s.tim.errPs.natAbs * 2 + 1000) 2000

/-- A WAITT completes at once when its hall time has passed; otherwise it waits for the strobe (R111). -/
def waittRun (s : State) (b : Blk) (f : InFl) : State :=
  if f.cmd.w1.toNat ≤ s.tim.hall then finish s b .CQ f.idx .ok
  else updInFl s b .CQ f.idx fun x => { x with started := true }

/-- The strobe of a waiting WAITT reaches its queue, never before its hall time less the bound of R48 (R111). -/
def waittStrobe (s : State) (b : Blk) : State :=
  match waitingCmd s b 0x62 with
  | some f => if f.cmd.w1.toNat ≤ s.tim.hall + eventBound s then finish s b .CQ f.idx .ok else s
  | none => s

/-! ### FLAGS (R92) -/

/-- FLAGS: the flags are read, written as 8 bytes, and those of the mask cleared. -/
def flagsRun (s : State) (b : Blk) (f : InFl) : State :=
  let fl := (s.blk b).flags
  let clear := fun (t : State) => t.updBlk b fun k => { k with flags := k.flags &&& ~~~(BitVec.ofNat 16 f.cmd.w2.toNat) }
  match opnd s f 1 with
  | none => finish (clear s) b .CQ f.idx .ok
  | some d =>
    let bs := leBytes 8 fl.toNat
    if d.empty then finish (clear s) b .CQ f.idx .ok
    else withTouch s (partialRuns d.runs) b .CQ f.idx fun t =>
      finishOut (clear (wrN t d.base bs)) b .CQ f.idx .ok bs

/-! ### HEDGE (R252) -/

/-- Frames that this node has sent on a hedge and that are neither acknowledged nor answered. -/
def hedgeBusy (s : State) (id : Nat) : Bool :=
  s.fab.pairs.any (fun p => p.2.unacked.any fun o => o.frame.hdr.hedgeId.toNat == id) ||
  s.fab.awaiting.any fun a => a.hedge == id

/-- EPOCHWAIT: completes when the hedge's epoch is at least W2. -/
def epochRun (s : State) (b : Blk) (f : InFl) : State :=
  let e := ((hedgeOf s (fld f.cmd.w1 0 16)).map fun h => h.epoch.toNat).getD 0
  if f.cmd.w2.toNat ≤ e then finish s b .CQ f.idx .ok
  else updInFl s b .CQ f.idx fun x => { x with started := true }

/-- QUIESCE: completes when every frame sent on the hedge has been acknowledged or answered. -/
def quiesceRun (s : State) (b : Blk) (f : InFl) : State :=
  if hedgeBusy s (fld f.cmd.w1 0 16) then updInFl s b .CQ f.idx fun x => { x with started := true }
  else finish s b .CQ f.idx .ok

/-- READ: rank, size and epoch as three 8-byte values at W2. -/
def hedgeRead (s : State) (b : Blk) (f : InFl) : State :=
  match hedgeOf s (fld f.cmd.w1 0 16) with
  | none => finish s b .CQ f.idx .verify
  | some h =>
    let bs := leBytes 8 h.rank ++ leBytes 8 h.members.length ++ leBytes 8 h.epoch.toNat
    let a := f.cmd.w2.toNat
    withTouch s (partialRuns [⟨a, 24⟩]) b .CQ f.idx fun t => finishOut (wrN t a bs) b .CQ f.idx .ok bs

/-- The row of a HEDGE operation: the first command not yet taken up, or one already waiting, when it carries the
row's operation. -/
def hedgeEngine (s : State) (b : Blk) (op : Nat) (run : State → InFl → State) : State :=
  match waitingCmd s b 0x64 with
  | some f => if hedgeOp f.cmd = op then run s f else s
  | none => engine s b .CQ 0x64 fun s f => if hedgeOp f.cmd = op then run s f else s

/-! ### The rows -/

/-- SIGNAL (R222, R408). -/
def execSignal (b : Blk) (s : State) : Host.Outcome State Fault Refusal :=
  .next (engine s b .CQ 0x60 fun s f => signalRun s b f)

/-- WAITV: the command is taken up and reads its word (R111). -/
def execWaitv (b : Blk) (s : State) : Host.Outcome State Fault Refusal :=
  .next (engine s b .CQ 0x61 fun s f => waitvRead s b f)

/-- WAITV_REREAD (R111). -/
def execWaitvReread (b : Blk) (s : State) : Host.Outcome State Fault Refusal := .next (waitvAgain s b)

/-- WAITV_TIMEOUT (R111). -/
def execWaitvTimeout (b : Blk) (s : State) : Host.Outcome State Fault Refusal := .next (waitvExpire s b)

/-- WAITT (R111). -/
def execWaitt (b : Blk) (s : State) : Host.Outcome State Fault Refusal :=
  .next (engine s b .CQ 0x62 fun s f => waittRun s b f)

/-- WAITT_STROBE (R111). -/
def execWaittStrobe (b : Blk) (s : State) : Host.Outcome State Fault Refusal := .next (waittStrobe s b)

/-- FLAGS (R92). -/
def execFlags (b : Blk) (s : State) : Host.Outcome State Fault Refusal :=
  .next (engine s b .CQ 0x63 fun s f => flagsRun s b f)

/-- EPOCHWAIT (R252). -/
def execEpochwait (b : Blk) (s : State) : Host.Outcome State Fault Refusal :=
  .next (hedgeEngine s b 1 fun s f => epochRun s b f)

/-- QUIESCE (R252). -/
def execQuiesce (b : Blk) (s : State) : Host.Outcome State Fault Refusal :=
  .next (hedgeEngine s b 2 fun s f => quiesceRun s b f)

/-- READ (R252). -/
def execRead (b : Blk) (s : State) : Host.Outcome State Fault Refusal :=
  .next (hedgeEngine s b 3 fun s f => hedgeRead s b f)

end Sys2Proof.Machine
end

