-- ==== Sys2Proof/Machine/Regs.lean ====
section
/-!
DEFINITION. The internal registers (01 Table 01.5 and the registers that each chapter defines): the value a read of each
returns and what the read changes (RC fields, latches).
-/
namespace Sys2Proof.Machine

/-- A register word from fields: lowest bit, width, value. -/
def pk (l : List (Nat × Nat × Nat)) : Nat := l.foldl (fun a e => a + (e.2.2 % 2 ^ e.2.1) <<< e.1) 0

/-! ### Node and region registers (01) -/

/-- NODE_PARAM0 (01). -/
def nodeParam0 (s : State) : Nat :=
  let g := s.fuses.grade
  pk [(0, 8, 3), (8, 4, 3), (12, 4, if g = .A then 0 else 1), (16, 4, 4), (24, 8, 4 * g.blocksPerRegion),
    (32, 8, g.blocksPerRegion), (40, 4, 2), (48, 8, 12), (56, 8, g.cores)]

/-- NODE_PARAM1 (01). -/
def nodeParam1 (s : State) : Nat := pk [(0, 8, 8), (8, 8, 16), (16, 8, 64), (24, 16, s.fuses.grade.clockMhz), (40, 4, 4)]

/-- NODE_IDENT (01). -/
def nodeIdent (s : State) : Nat := pk [(0, 20, s.ncr.nodeId.toNat), (20, 1, bn s.sec.ncrValid)]

/-- NODE_STEP (04). -/
def nodeStep (s : State) : Nat :=
  pk [(0, 48, s.job.step.toNat), (48, 8, s.job.loadGen.toNat), (56, 1, bn s.job.det), (57, 1, bn s.job.hostVerified)]

/-- NODE_HOLD.state's code (11). -/
def HoldState.code : HoldState → Nat
  | .run => 0 | .holding => 1 | .held => 2 | .resetting => 3

/-- NODE_HOLD (11). -/
def nodeHold (s : State) : Nat :=
  pk [(0, 2, s.hold.state.code), (2, 1, bn s.hold.byLimit), (8, 3, s.hold.worst.num), (16, 32, s.hold.firstSeq)]

/-- NODE_CKPT_STATUS.state's code (12). -/
def CkptState.code : CkptState → Nat
  | .none => 0 | .cut => 1 | .copy => 2 | .sign => 3 | .mirror => 4 | .secured => 5 | .failed => 6 | .restoring => 7

/-- RGN_BLOCKS (01). -/
def rgnBlocks (s : State) (n : Nat) : Nat :=
  let r := s.region n
  pk [(0, 32, (liveMask s n).toNat), (32, 2, r.coppiceFree.toNat), (34, 2, r.coppiceRetired.toNat),
    (40, 8, r.retiredCount.toNat)]

/-- RGN_SUBST (01). -/
def rgnSubst (r : Region) : Nat :=
  pk [(0, 6, r.sub0.logical.toNat), (6, 6, r.sub0.physical.toNat), (12, 1, bn r.sub0.valid),
    (16, 6, r.sub1.logical.toNat), (22, 6, r.sub1.physical.toNat), (28, 1, bn r.sub1.valid)]

/-! ### Time, espalier, ports (02) -/

/-- TIM_STATUS.state's code (02). -/
def TimState.code : TimState → Nat
  | .free => 0 | .acquiring => 1 | .locked => 2 | .holdover => 3 | .out => 4

/-- A time role's code (02). -/
def TimeRole.code : TimeRole → Nat
  | .member => 0 | .boundary => 1 | .reference => 2

/-- TIM_STATUS (02): the error saturates at ±32 767. -/
def timStatus (s : State) : Nat :=
  let t := s.tim
  pk [(0, 3, t.state.code), (3, 1, bn t.unit), (4, 2, s.ncr.timeRole.code), (8, 16, tc 16 (max (-32767) (min 32767 t.errPs))),
    (24, 4, t.masterPort.toNat), (28, 4, t.syncePort.toNat), (32, 8, t.ptpBad.toNat)]

/-- ESP_STATUS.state's code (02). -/
def EspState.code : EspState → Nat
  | .none => 0 | .armed => 1 | .running => 2 | .suspended => 3

/-- ESP_STATUS (02). -/
def espStatus (s : State) : Nat :=
  let f := s.fab
  let active := f.espState == .running || f.espState == .suspended
  pk [(0, 1, bn f.activeBank), (1, 2, f.espState.code), (3, 5, if active then f.k.toNat else 0),
    (8, 20, if active then hallSlot s % 2 ^ f.k.toNat else 0), (28, 4, f.refusal.toNat), (32, 32, f.periods.toNat)]

/-- FAB_PORT_STATUS.link's code (02). -/
def Link.code : Link → Nat
  | .down => 0 | .training => 1 | .up => 2

/-- A quarantined source is received on a port. -/
def portQuarantine (s : State) (p : Nat) : Bool :=
  s.fab.pairs.any fun e => e.2.quarantined &&
    ((activePlan s).map Plan.rx |>.getD []).any fun r => r.src.toNat == e.1 && portOf r.port == p

/-- FAB_PORT_STATUS (02). -/
def portStatus (s : State) (p : Nat) : Nat :=
  let k := s.port p
  let n := s.ncr.ports.getD p {}
  pk [(0, 2, k.link.code), (2, 1, bn n.split), (3, 2, n.role.toNat), (5, 1, bn k.scheduled),
    (6, 1, bn (s.ncr.udpPort == 0)), (7, 1, bn (portQuarantine s p)), (8, 20, k.quarSrc.toNat), (28, 16, k.eye.toNat)]

/-- FAB_VIOL (02): eight counts by field. -/
def fabViol (k : Port) : Nat := pk ((List.range 8).map fun i => (8 * i, 8, k.viol.get 0 i))

/-! ### Stacks (07, 12) -/

/-- PAN_STATUS.state's code (07). -/
def StackState.code : StackState → Nat
  | .off => 0 | .training => 1 | .ready => 2 | .failed => 3

/-- PAN_STATUS (07). -/
def panStatus (s : State) (n : Nat) : Nat :=
  let k := s.stack n
  let marks := ((List.range 32).map fun c => (k.chan c).marks.length).foldl (· + ·) 0
  let risk := ((List.range 32).filter fun c => (k.chan c).atRisk).length
  pk [(0, 2, k.state.code), (2, 1, bn k.keyValid), (3, 1, bn k.zeroed), (4, 6, s.ncr.cellarGib), (16, 8, marks),
    (24, 6, min 63 risk), (32, 16, min 0xFFFF ((s.sec.candidates.filter fun e => e.1 == n).length + marks))]

/-- Spare lanes in use in a stack. -/
def sparesUsed (k : Stack) : Nat :=
  ((List.range 32).map fun c => bn (k.chan c).spare0.isSome + bn (k.chan c).spare1.isSome).foldl (· + ·) 0

/-- PAN_LANE (07). -/
def panLane (c : Chan) : Nat :=
  pk ((List.range 4).flatMap fun i => match c.marks[i]? with
      | some l => [(8 * i, 7, l), (8 * i + 7, 1, 1)]
      | none => []) +
  pk [(32, 7, c.spare0.getD 0), (39, 1, bn c.spare0.isSome), (40, 7, c.spare1.getD 0), (47, 1, bn c.spare1.isSome),
    (48, 1, bn c.atRisk)]

/-- A stack register at an offset of its block, and the stack after the read (RC fields cleared). -/
def stackReg (s : State) (n o : Nat) : Nat × State :=
  let k := s.stack n
  if o = 0x000 then (panStatus s n, s)
  else if o = 0x008 then (k.flags.toNat, s)
  else if o = 0x010 then
    (pk [(0, 32, k.corrected.toNat), (32, 16, k.uncorr.toNat), (48, 8, k.addrErr.toNat)],
      s.setStack n { k with corrected := 0, uncorr := 0, addrErr := 0 })
  else if o = 0x018 then
    (pk [(0, 8, k.rakePeriod.toNat), (8, 32, k.rakePasses.toNat), (40, 16, k.rakeLine >>> 14)], s)
  else if o = 0x020 then
    (pk [(0, 16, k.spareRows.toNat), (16, 7, 64 - sparesUsed k), (24, 16, k.hardRows.toNat), (40, 7, k.hardLanes.toNat)], s)
  else if o = 0x028 then
    (pk [(0, 32, k.ckStalls.toNat), (32, 16, k.ckMaxStall.toNat), (48, 16, k.ckPending.length)],
      s.setStack n { k with ckStalls := 0, ckMaxStall := 0 })
  else if 0x100 ≤ o ∧ o < 0x200 ∧ o % 8 = 0 then (panLane (k.chan ((o - 0x100) / 8)), s)
  else (0, s)

/-! ### Field cores (09, 10) -/

/-- FCO_HART_STATUS.state's code (10). -/
def HartState.code : HartState → Nat
  | .absent => 0 | .stopped => 1 | .running => 2 | .switched => 3 | .wfi => 4 | .halted => 5

/-- A privilege mode's code (10). -/
def Priv.code : Priv → Nat
  | .U => 0 | .S => 1 | .M => 3

/-- FCO_HART_STATUS (10); registers of fused-off cores read zero (R267). -/
def hartStatus (s : State) (h : Nat) : Nat :=
  let t := s.hart (BitVec.ofNat 6 h)
  if hartPresent s (BitVec.ofNat 6 h) then
    pk [(0, 3, t.state.code), (3, 2, t.priv.code), (6, 1, bn t.msip), (8, 7, t.lastCode.toNat), (15, 1, bn t.lastIntr)]
  else 0

/-! ### Blocks (03, 04, 05, 06, 08) -/

/-- A queue waits on events, WAITV, WAITT or a HEDGE operation (04 BLK_QSTATUS). -/
def queueWaits (k : Block) (q : Qc) : Bool :=
  let u := k.queue q
  u.inflight.any (fun f => f.started && f.done.isNone && (f.cmd.opcode == 0x61 || f.cmd.opcode == 0x62 || f.cmd.opcode == 0x64)) ||
  ((u.stream[u.pc]?).map fun c => !waitMet k q c).getD false

/-- BLK_QSTATUS (04); while a job runs, a queue without commands stands at END from the start (04 R98). -/
def qStatus (k : Block) (q : Qc) (running : Bool) : Nat :=
  let u := k.queue q
  let st : Nat := match u.state with
    | .idle => if running && u.stream.isEmpty then 5 else 0 | .run => if queueWaits k q then 2 else 1 | .wait => 2 | .step => 3 | .halt => 4 | .endd => 5
  let idx := if u.state = .halt then u.haltIdx else oldestIdx u
  pk [(0, 3, st), (8, 8, if u.state = .halt then u.haltStatus.code else 0), (16, 32, idx)]

/-- STM_CTX_STATUS.state's code (08). -/
def CtxState.code : CtxState → Nat
  | .idle => 0 | .opened => 1 | .closed => 2 | .finishing => 3 | .waiting => 4

/-- STM_CTX_STATUS (08). -/
def ctxStatus (c : Ctx) : Nat :=
  pk [(0, 3, c.state.code), (3, 1, bn c.ring), (4, 1, bn c.aged), (5, 1, bn c.oq), (6, 1, bn c.rush), (8, 8, c.last.code),
    (16, 16, c.creditErr.toNat), (32, 10, c.label.toNat)]

/-- SLV_STATUS.state (06): LOAD while an SFACT waits for its step, PATTERN while an SPAT does, else IDLE. The model works
an SFACT's items in one step, inside which FACTOR and SOLVE begin and end (log 2). -/
def slvState (k : Block) : Nat :=
  (((k.queue .XQ).inflight.find? fun f => f.done.isNone).map fun f => match f.cmd.opcode with
    | 0x30 => 1
    | 0x31 => 4
    | _ => 0).getD 0

/-- A block register at an offset, and the state after the read. -/
def blockRegRead (s : State) (b : Blk) (o : Nat) : Nat × State :=
  let k := s.blk b
  if o = 0x040 then (k.flags.toNat, s)
  else if o = 0x100 then (k.satBank.toNat, s.setBlk b { k with satBank := 0 })
  else if o = 0x108 then (k.satStm.toNat, s.setBlk b { k with satStm := 0 })
  else if o = 0x110 then (k.satEvt.toNat, s.setBlk b { k with satEvt := 0 })
  else if 0x200 ≤ o ∧ o < 0x230 ∧ o % 8 = 0 then
    (match Qc.ofCode ((o - 0x200) / 8) with | some q => qStatus k q (s.job.phase == .running && s.job.started) | none => 0, s)
  else if o = 0x300 then
    let t := k.tns
    (pk [(0, 1, bn t.retired.isSome), (1, 6, (t.retired.map Prod.fst).getD 0), (7, 5, (t.retired.map Prod.snd).getD 0),
        (16, 16, t.reruns.toNat), (32, 16, t.marked.length)],
      s.setBlk b { k with tns := { t with reruns := 0 } })
  else if o = 0x400 then (pk [(0, 3, slvState k), (8, 24, k.slv.item.toNat), (32, 8, k.slv.last.code)], s)
  else if o = 0x408 then (k.slv.pats.foldl (fun a e => a + 2 ^ e.1) 0, s)
  else if 0x500 ≤ o ∧ o < 0x700 ∧ o % 8 = 0 then
    let n := (o - 0x500) / 32
    let c := k.ctx n
    match o % 32 / 8 with
    | 0 => (c.peer.toNat, s)
    | 1 => (c.own.toNat, s)
    | 2 => (c.issued.toNat, s)
    | _ => (ctxStatus c, s.setCtx b n { c with creditErr := 0 })
  else (0, s)

/-! ### Power and health (15), security (14) -/

/-- The host's cap, while power and thermal policy is host-assisted (15 R376, R386). -/
def hostCap (s : State) : Option Nat := if hostAssisted s 5 then s.pwr.capHost else none

/-- The power cap in force in W (15 R374, R376). -/
def capW (s : State) : Nat := (hostCap s).getD s.ncr.powerW

/-- The top clock of a die: the NCR's limit and the grade's (15 R374). -/
def topMhz (s : State) : Nat := min s.fuses.grade.clockMhz s.ncr.clockMhz

/-- PWR_STATUS (15). -/
def pwrStatus (s : State) : Nat :=
  let p := s.pwr
  let thr := (List.range 4).foldl (fun a n => a + (if (s.die n).clockMhz < topMhz s && (s.die n).clockMhz != 0 then 2 ^ n else 0)) 0
  pk [(0, 16, p.powerW), (16, 16, capW s), (32, 8, p.hotC), (40, 4, thr), (44, 1, bn p.hwThrottle), (45, 1, bn (hostCap s).isSome)]

/-- PWR_DIE (15). -/
def pwrDie (d : Die) : Nat :=
  pk [(0, 16, d.clockMhz), (16, 12, d.vddMv), (28, 8, d.tjC), (36, 4, d.cause.toNat), (40, 24, min (2 ^ 24 - 1) d.throttledMs)]

/-- SEC_STATUS (14). -/
def secStatus (s : State) : Nat :=
  let c := s.sec
  pk [(0, 2, c.boot.toNat), (2, 1, bn s.fuses.ownerHash.isSome), (3, 1, bn c.bundleSlot), (4, 1, bn c.ncrSlot),
    (5, 1, bn c.unlocked), (6, 1, bn c.armed), (8, 6, s.fuses.bundleSvn), (16, 6, s.fuses.ncrSvn),
    (24, 4, c.recovery.toNat), (32, 8, c.tamperCount.toNat)]

/-- SEC_BOOT (14). -/
def secBoot (s : State) : Nat :=
  let c := s.sec
  pk [(0, 16, c.readyMs.toNat), (16, 4, c.lastStep.toNat), (20, 1, bn c.lockedAtReady), (21, 1, bn c.portShort),
    (22, 1, bn c.stackFailed)]

/-- HLT_EOL (15). -/
def hltEol (s : State) : Nat :=
  let p := s.pwr
  pk [(0, 16, p.p50.toNat), (16, 16, p.p10.toNat), (32, 16, p.p90.toNat), (48, 3, p.mech.toNat), (51, 1, bn p.eolValid),
    (52, 7, min 90 (p.daily.length + p.loaded.length))]

/-- HLT_AVAIL (15). -/
def hltAvail (s : State) : Nat :=
  pk [(0, 32, s.pwr.lastOutage.toNat), (32, 24, min (2 ^ 24 - 1) (s.pwr.oosNs / 1000000)), (56, 1, bn s.sec.maint)]

/-- The 32 bytes of the I3C private read: PWR_STATUS, HLT_EOL, HLT_AVAIL and SEC_STATUS; in reset the last values are
held (15 R387). -/
def i3cHeld (s : State) : List Byte :=
  if s.host.node = .start then slice s.pwr.i3cImage 0 32
  else leBytes 8 (pwrStatus s) ++ leBytes 8 (hltEol s) ++ leBytes 8 (hltAvail s) ++ leBytes 8 (secStatus s)

/-! ### The read of any internal register -/

/-- The value of the register at an offset of the internal register space, 0 where none is assigned (log 29), and the
state after the read. The eye margin of a port that is up is a measurement, free at each read (log 3). TIM_NOW_NS is
served by the time unit itself and shows hall time without the lag of 0 to 32 ns that R40 allows a reader across a clock
crossing (DESIGN CHOICE, log 3). -/
def regRead (s : State) (o : Nat) : Nat × State :=
  let e := s.err
  if o = 0x000 then (nodeParam0 s, s)
  else if o = 0x008 then (nodeParam1 s, s)
  else if o = 0x010 then (nodeIdent s, s)
  else if o = 0x100 then (s.satUzl.toNat, { s with satUzl := 0 })
  else if o = 0x108 then (s.satCxl.toNat, { s with satCxl := 0 })
  else if o = 0x200 then (nodeStep s, s)
  else if o = 0x300 then (nodeHold s, s)
  else if o = 0x308 then (s.hold.firstHalt, s)
  else if o = 0x310 then
    (pk [(0, 24, e.cntC), (24, 16, e.cntD), (40, 8, e.cntF1), (48, 8, e.cntF2), (56, 8, e.cntLost)],
      { s with err := { e with cntC := 0, cntD := 0, cntF1 := 0, cntF2 := 0, cntLost := 0 } })
  else if o = 0x400 then
    let c := s.ckpt
    let st := if c.cutting then CkptState.cut else c.state
    let g := if c.cutting then c.cutN % 2 else bn c.gen
    (pk [(0, 3, st.code), (3, 1, g), (4, 4, c.level), (8, 8, c.skipped.toNat),
         (16, 48, (if c.cutting then c.cutStep else c.step).toNat)],
      { s with ckpt := { c with skipped := 0 } })
  else if o = 0x408 then (s.ckpt.mirroredStep.toNat, s)
  else if o = 0x1_0000 then (s.tim.hall, { s with tim := { s.tim with fracLatch := s.tim.frac } })
  else if o = 0x1_0008 then (s.tim.fracLatch.toNat, s)
  else if o = 0x1_0010 then (timStatus s, { s with tim := { s.tim with ptpBad := 0 } })
  else if o = 0x2_0000 then
    (pk [(0, 48, s.fab.epochSlot.toNat), (48, 1, bn s.fab.ctrlBank), (49, 1, bn s.fab.ctrlArm),
      (50, 1, bn s.fab.ctrlCancel)], s)
  else if o = 0x2_0008 then (espStatus s, s)
  else if 0x3_0000 ≤ o ∧ o < 0x3_0800 then
    let p := (o - 0x3_0000) / 0x100
    if o % 0x100 = 0 then
      if (s.port p).link = .up then
        let s1 := drew (s.setPort p { s.port p with eye := (Config.freeWord s.free).setWidth 16 })
        (portStatus s1 p, s1)
      else (portStatus s p, s)
    else if o % 0x100 = 0x10 then (fabViol (s.port p), s.setPort p { s.port p with viol := [] })
    else (0, s)
  else if 0x4_0000 ≤ o ∧ o < 0x4_C000 then stackReg s ((o - 0x4_0000) / 0x1000) (o % 0x1000)
  else if 0x5_0000 ≤ o ∧ o < 0x5_8000 then (if o % 8 = 0 then (s.apt.get 0 ((o - 0x5_0000) / 8)).toNat else 0, s)
  else if 0x5_8000 ≤ o ∧ o < 0x5_8200 ∧ o % 8 = 0 then
    let h : BitVec 6 := BitVec.ofNat 6 ((o - 0x5_8000) / 8)
    if hartPresent s h then ((s.hart h).rstat.toNat, s.updHart h fun t => { t with rstat := 0 }) else (0, s)
  else if 0x5_9000 ≤ o ∧ o < 0x5_9400 ∧ o % 8 = 0 then
    let h := (o - 0x5_9000) / 16
    if o % 16 = 0 then (hartStatus s h, s)
    else (if hartPresent s (BitVec.ofNat 6 h) then (s.hart (BitVec.ofNat 6 h)).tcmp.toNat else 0, s)
  else if 0x6_0000 ≤ o ∧ o < 0x6_8000 ∧ o % 8 = 0 then
    (match s.job.hedges[(o - 0x6_0000) / 8]? with
     | some h => pk [(0, 16, h.id), (16, 2, h.state.toNat), (18, 20, h.rank), (38, 21, h.members.length)]
     | none => 0, s)
  else if 0x7_0000 ≤ o ∧ o < 0x7_8000 ∧ o % 8 = 0 then
    (match s.job.hedges[(o - 0x7_0000) / 8]? with
     | some h => pk [(0, 32, h.epoch.toNat), (32, 32, h.ordinal.toNat)]
     | none => 0, s)
  else if o = 0x8_0000 then (secStatus s, s)
  else if o = 0x8_0008 then (secBoot s, s)
  else if o = 0x9_0000 then (pwrStatus s, s)
  else if 0x9_0100 ≤ o ∧ o < 0x9_0120 ∧ o % 8 = 0 then (pwrDie (s.die ((o - 0x9_0100) / 8)), s)
  else if o = 0xA_0000 then (hltEol s, s)
  else if o = 0xA_0008 then (hltAvail s, s)
  else if 0xA_0100 ≤ o ∧ o < 0xA_0198 ∧ o % 8 = 0 then
    let d := (o - 0xA_0100) / 8
    (pk [(0, 16, (s.pwr.slack.get 0 d).toNat), (16, 16, (s.fuses.slack0.get 0 d).toNat), (32, 16, (s.pwr.ro.get 0 d).toNat),
      (48, 8, (s.pwr.guard.get 0 d).toNat)], s)
  else if 0x10_0000 ≤ o ∧ o < 0x14_0000 then
    let n := (o - 0x10_0000) / 0x1_0000
    let r := s.region n
    let k := o % 0x1_0000
    if k = 0x000 then (rgnBlocks s n, s)
    else if k = 0x008 then (rgnSubst r, s)
    else if k = 0x010 then (r.pending.toNat, s)
    else if k = 0x100 then (r.satMesh.toNat, s.setRegion n { r with satMesh := 0 })
    else if k = 0x108 then (r.satMc.toNat, s.setRegion n { r with satMc := 0 })
    else (0, s)
  else
    match blockReg o with
    | some (b, k) => if b.block.toNat < s.fuses.grade.blocksPerRegion then blockRegRead s b k else (0, s)
    | none => (0, s)

end Sys2Proof.Machine
end

