-- ==== Sys2Proof/Machine/Avs.lean ====
section
/-!
DEFINITION. Compute clocks and adaptive voltage (15 R371, R375 to R380): levels, the voltages they need, and the rows
AVS_SETTLED, AVS_RETRY, HW_THROTTLE and THROTTLE.
-/
namespace Sys2Proof.Machine

/-- The ageing guard of a die: 5 mV for each 10 ps that its smallest slack has fallen since the first start; nothing
before the first sample (R380). -/
def rawGuard (s : State) (d : Nat) : Nat :=
  let now := s.pwr.slack.get 0 d
  if now = 0 then 0 else 5 * (((s.fuses.slack0.get 0 d).toNat - now.toNat) / 10)

/-- The voltage a level needs: the fused voltage of its frequency and the guard, which is capped at the highest voltage,
in 5 mV steps, not below 0.60 V (R371, R380). -/
def levelMv (s : State) (d mhz : Nat) : Nat :=
  let top := min s.ncr.vddMv s.fuses.vddMv
  max 600 (min (top / 5 * 5) (cdiv (Config.fusedMv d mhz + rawGuard s d) 5 * 5))

/-- A level can be reached: its fused voltage alone is within the highest (R371, R380). -/
def levelOk (s : State) (d mhz : Nat) : Bool := decide (Config.fusedMv d mhz ≤ min s.ncr.vddMv s.fuses.vddMv)

/-- The highest level of a die: 100 MHz steps from the highest arithmetic clock down to 1.2 GHz, the highest that can be
reached (R375, R380). -/
def topLevel (s : State) (d : Nat) : Nat :=
  (((List.range 13).map fun i => topMhz s - 100 * i).find? fun m => decide (1200 ≤ m) && levelOk s d m).getD 1200

/-- A die is asked to run at a level: a lower clock is changed to at once and the voltage then lowered; a higher one waits
for its voltage to settle; a faulty regulator holds the die (R371). -/
def setLevel (s : State) (d mhz : Nat) : State :=
  let k := s.die d
  if k.regFault || k.clockMhz == 0 || mhz == k.clockMhz && k.target.isNone then s
  else if mhz ≤ k.clockMhz then s.setDie d { k with clockMhz := mhz, vddMv := levelMv s d mhz, target := some mhz }
  else s.setDie d { k with vddMv := levelMv s d mhz, target := some mhz }

/-- AVS_SETTLED: the voltage change is complete; the clock that waited for it is changed to, and a regulator fault is
over (R371). -/
def execAvsSettled (die : BitVec 2) (s : State) : Host.Outcome State Fault Refusal :=
  .next (
    let d := die.toNat
    let k := s.die d
    match k.target with
    | none => s
    | some m =>
      s.setDie d { k with clockMhz := m, vddMv := levelMv s d m, target := none, regFault := false
                          cause := if k.cause = 7 then 0 else k.cause })

/-- The record of a change of level, or of a regulator's fault (R371, R376). -/
def throttleRec (s : State) (d cause value : Nat) : State :=
  record s .throttle { unitKind := 11, unit := d, detail := detailF 5 cause value }

/-- AVS_RETRY: a regulator has failed to answer, or to settle in 500 µs; its die stays at its present clock and voltage,
THROTTLE is recorded with cause 7, and the change is tried again (R371). -/
def execAvsRetry (die : BitVec 2) (s : State) : Host.Outcome State Fault Refusal :=
  .next (
    let d := die.toNat
    let k := s.die d
    if k.target.isNone then s
    else throttleRec (s.setDie d { k with regFault := true, cause := 7, vddMv := levelMv s d k.clockMhz }) d 7 k.vddMv)

/-- HW_THROTTLE: the limiter halves a die's clock, or all four for package power, not below 1.2 GHz; it needs no power
core and waits for no voltage (R378). -/
def execHwThrottle (die : Option (BitVec 2)) (s : State) : Host.Outcome State Fault Refusal :=
  .next (
    let half := fun (t : State) (d : Nat) (hot : Bool) =>
      let k := t.die d
      if k.clockMhz = 0 then t
      else
        let m := max 1200 (k.clockMhz / 2)
        t.setDie d { k with clockMhz := m, vddMv := levelMv t d m, target := none, cause := 4, tempMhz := if hot then m else k.tempMhz
                            halved := hot || k.halved, coolMs := 0 }
    let s1 := { s with pwr := { s.pwr with hwThrottle := true } }
    match die with
    | some d => half s1 d.toNat true
    | none =>
      let s2 := (List.range 4).foldl (fun t d => half t d false) s1
      { s2 with pwr := { s2.pwr with capMhz := 1200, capCoolMs := 0 } })

/-- The next level of a rule: one lower while its condition holds, one higher after 10 ms of its cool condition; 0 is no
limit (R376). Answers the level and the milliseconds counted. -/
def ruleStep (top present level cool : Nat) (hot calm : Bool) : Nat × Nat :=
  let l := if level = 0 then top else level
  if hot then (max 1200 (min l present - 100), 0)
  else if !calm then (level, 0)
  else if level = 0 then (0, 0)
  else if 10 ≤ cool + 1 then (if top ≤ l + 100 then 0 else l + 100, 0)
  else (level, cool + 1)

/-- A level with 0 as no limit. -/
def under (top level : Nat) : Nat := if level = 0 then top else min top level

/-- The reason for a die's level (PWR_DIE.cause). -/
def levelCause (s : State) (d : Die) (top m : Nat) : BitVec 4 :=
  if d.regFault then 7
  else if d.halved then 4
  else if m = top then 0
  else if under top d.tempMhz = m then 1
  else if under top s.pwr.capMhz = m then 2
  else 3

/-- One millisecond of the power core (R376, R378): the three rules step, each die takes the lowest level, a die that the
limiter halved stays there until it cools to throttle_c. -/
def throttle (s : State) (t : ThermalSample) : State :=
  let thr := s.ncr.throttleC
  let p := s.pwr
  let top := topMhz s
  let present := ((List.range 4).map fun d => (s.die d).clockMhz).foldl max 0
  let (capL, capC) := ruleStep top present p.capMhz p.capCoolMs (decide (capW s < t.powerW)) (decide (t.powerW * 100 < capW s * 95))
  let (othL, othC) := ruleStep top present p.otherMhz p.otherCoolMs (decide (thr ≤ t.tjOther ∨ 92 ≤ t.tjStack))
    (decide (t.tjOther + 3 ≤ thr ∧ t.tjStack + 3 ≤ 92))
  let hot := t.tjCd.foldl max (max t.tjOther t.tjStack)
  let s1 := { s with pwr := { p with powerW := t.powerW, hotC := hot, capMhz := capL, capCoolMs := capC
                                     otherMhz := othL, otherCoolMs := othC } }
  let was := (List.range 4).any fun d => (s.die d).clockMhz != 0 && decide ((s.die d).clockMhz < topLevel s d)
  let s2 := (List.range 4).foldl (fun u d =>
    let k := u.die d
    let tj := t.tjCd.getD d 0
    let tl := topLevel u d
    let (lv, cool) := ruleStep tl k.clockMhz k.tempMhz k.coolMs (decide (thr ≤ tj)) (decide (tj + 3 ≤ thr))
    let still := k.halved && decide (thr < tj)
    let k1 := { k with tjC := tj, tempMhz := if still then k.tempMhz else lv, coolMs := cool, halved := still
                       throttledMs := if k.clockMhz != 0 ∧ k.clockMhz < tl then k.throttledMs + 1 else k.throttledMs }
    let m := if still then k.clockMhz else min (under tl k1.tempMhz) (min (under tl u.pwr.capMhz) (under tl u.pwr.otherMhz))
    let v := setLevel (u.setDie d k1) d m
    let v1 := v.setDie d { v.die d with cause := levelCause v (v.die d) tl m }
    if k.clockMhz != 0 && m != k.clockMhz && !k.regFault && k.target.isNone then throttleRec v1 d (levelCause v (v.die d) tl m).toNat (tj * 100)
    else v1) s1
  let is := (List.range 4).any fun d => (s2.die d).clockMhz != 0 && decide ((s2.die d).clockMhz < topLevel s2 d)
  if is && !was then ibi s2 0x04 else s2

/-- THROTTLE: every 1 ms, while the power core does not restart (R376, R378). -/
def execThrottle (t : ThermalSample) (s : State) : Host.Outcome State Fault Refusal :=
  .next (if s.pwr.restarting.contains 5 ∨ s.pwr.clocksStopped ∨ (s.pwr.domains.toNat.testBit 0 = false) then s else throttle s t)

end Sys2Proof.Machine
end

