-- ==== Sys2Proof/Machine/Plan.lean ====
section
/-!
DEFINITION. Plans (02): slot entries and flows by line and slot, the rules of a legal plan, the cut depth, the digest of
a plan (12), and the node's way into and out of scheduled service (02 R45, R46; 15 R384, R385).
-/
namespace Sys2Proof.Machine

/-! ### Entries and flows -/

/-- The transmit action and flow of a slot entry, Table 02.7: 0 IDLE, 1 SEND, 2 RETRY, 3 BEST, 4 GATEWAY. -/
def txOf (e : PlanEntry) : Nat × Nat := (nfld e.entry.toNat 0 3, nfld e.entry.toNat 3 13)

/-- The receive action and flow of a slot entry: 0 IDLE, 1 EXPECT, 2 RETRY, 3 BEST, 4 GATEWAY. -/
def rxOf (e : PlanEntry) : Nat × Nat := (nfld e.entry.toNat 16 3, nfld e.entry.toNat 19 13)

/-- The transmit flow of a line. -/
def txFlow (p : Plan) (line : BitVec 4) (i : Nat) : Option TxFlow :=
  p.tx.find? fun t => t.port == line && t.index.toNat == i

/-- The receive flow of a line. -/
def rxFlow (p : Plan) (line : BitVec 4) (i : Nat) : Option RxFlow :=
  p.rx.find? fun t => t.port == line && t.index.toNat == i

/-- The entries of a plan slot, by rising line. -/
def slotEntries (p : Plan) (i : Nat) : List PlanEntry :=
  (List.range 16).filterMap fun l => p.entries.find? fun e => e.slot == i && e.port.toNat == l

/-- The entry of a line in a hall slot. -/
def entryIn (p : Plan) (line : BitVec 4) (slot : Nat) : Option PlanEntry :=
  p.entries.find? fun e => e.slot == slot % 2 ^ p.k && e.port == line

/-! ### A legal plan (R51, R53) -/

/-- The lines of a plan. -/
def planLines (p : Plan) : List Nat := (List.range 16).filter fun l => p.entries.any fun e => e.port.toNat == l

/-- The slots of a line whose transmit entry meets a test, within the period. -/
def txSlots (p : Plan) (l : Nat) (f : PlanEntry → Bool) : List Nat :=
  (p.entries.filter fun e => e.port.toNat == l && f e).map fun e => e.slot

/-- From every slot of a list the next slot of another list follows within `n` slots, the period wrapping round. -/
def followed (k n : Nat) (from_ next : List Nat) : Bool :=
  from_.all fun i => next.any fun j => 1 ≤ (j + 2 ^ k - i) % 2 ^ k && (j + 2 ^ k - i) % 2 ^ k ≤ n || (i == j && 2 ^ k ≤ n)

/-- At least one slot of a list stands in every `n` consecutive slots of the period. -/
def within (k n : Nat) (l : List Nat) : Bool := !l.isEmpty && followed k n l l

/-- The destination of a transmit entry of kind SEND or RETRY. -/
def sendsTo (p : Plan) (e : PlanEntry) : Option NodeId :=
  let (a, f) := txOf e
  if a = 1 ∨ a = 2 then (txFlow p e.port f).map TxFlow.dst else none

/-- The source that a receive entry of kind EXPECT or RETRY names. -/
def expects (p : Plan) (e : PlanEntry) : Option NodeId :=
  let (a, f) := rxOf e
  if a = 1 ∨ a = 2 then (rxFlow p e.port f).map RxFlow.src else none

/-- The source whose scheduled frames a receive entry names: those of EXPECT, RETRY and GATEWAY (R53). -/
def hearsFrom (p : Plan) (e : PlanEntry) : Option NodeId :=
  let (a, f) := rxOf e
  if a = 1 ∨ a = 2 ∨ a = 4 then (rxFlow p e.port f).map RxFlow.src else none

/-- The arrival slots of a receive entry for the overlap of windows: those after its slot, up to its window, since no frame
arrives in the slot in which it is launched (DESIGN CHOICE, log 63: the spec does not say whether the window takes in the
entry's own slot; a frame that does come in it is accepted, `expectAt` and `slotOk`). -/
def arrivalSlots (p : Plan) (e : PlanEntry) : List Nat :=
  match rxFlow p e.port (rxOf e).2 with
  | some r => (List.range r.window.toNat).map fun i => (e.slot + 1 + i) % 2 ^ p.k
  | none => []

/-- The bank bound of R51: the lines of each die times the slots of the period. -/
def bankFits (p : Plan) : Bool :=
  6 ≤ p.k && p.k ≤ 20 &&
  ((planLines p).filter (· < 8)).length * 2 ^ p.k ≤ 2 ^ 22 && ((planLines p).filter (8 ≤ ·)).length * 2 ^ p.k ≤ 2 ^ 22

/-- Every entry lies in the period, names no reserved action, and names flows that the plan has. -/
def entriesOk (p : Plan) : Bool :=
  p.entries.all fun e =>
    e.slot < 2 ^ p.k && (txOf e).1 ≤ 4 && (rxOf e).1 ≤ 4 &&
    ((txOf e).1 ∈ [0, 3] || (txFlow p e.port (txOf e).2).isSome) &&
    ((rxOf e).1 ∈ [0, 3] || (rxFlow p e.port (rxOf e).2).isSome)

/-- R53: a RETRY in every 32 slots of each line. -/
def retryReserve (p : Plan) : Bool := (planLines p).all fun l => within p.k 32 (txSlots p l fun e => (txOf e).1 == 2)

/-- R53: after every SEND toward a destination, a SEND or RETRY toward it follows on the line within 32 slots. -/
def sendFollowed (p : Plan) : Bool :=
  p.entries.all fun e =>
    match (if (txOf e).1 = 1 then sendsTo p e else none) with
    | some d => followed p.k 32 [e.slot] (txSlots p e.port.toNat fun x => sendsTo p x == some d)
    | none => true

/-- R53: toward every source of scheduled frames, BULK frames among them, the node has a SEND or RETRY slot in every
16. -/
def returnPath (p : Plan) : Bool :=
  p.entries.all fun e =>
    match hearsFrom p e with
    | some d => within p.k 16 ((List.range 16).flatMap fun l => txSlots p l fun x => sendsTo p x == some d)
    | none => true

/-- R53: the arrival windows of two sources never overlap on one line. -/
def windowsApart (p : Plan) : Bool :=
  let es := p.entries.filter fun e => (rxOf e).1 ∈ [1, 2, 4]
  es.all fun a => es.all fun b =>
    a.port != b.port || (rxFlow p a.port (rxOf a).2).map RxFlow.src == (rxFlow p b.port (rxOf b).2).map RxFlow.src ||
    !(arrivalSlots p a).any fun i => (arrivalSlots p b).contains i

/-- A plan is legal (R51, R53). -/
def planOk (p : Plan) : Bool :=
  bankFits p && entriesOk p && retryReserve p && sendFollowed p && returnPath p && windowsApart p

/-- The bank that ESP_CTRL names. -/
def State.bank (s : State) (b : Bool) : Bank := if b then s.fab.bank1 else s.fab.bank0

/-! ### The cut depth (12 R305) -/

/-- The nodes within one hop of a list. -/
def hop (pairs : List (NodeId × NodeId)) (l : List NodeId) : List NodeId :=
  (l ++ pairs.flatMap fun e => (if e.1 ∈ l then [e.2] else []) ++ (if e.2 ∈ l then [e.1] else [])).eraseDups

/-- Hops from a node until every member is reached; none beyond the fuel. -/
def reach (pairs : List (NodeId × NodeId)) (members : List NodeId) : Nat → Nat → List NodeId → Option Nat
  | 0, n, l => if members.all (l.contains ·) then some n else none
  | k + 1, n, l => if members.all (l.contains ·) then some n else reach pairs members k (n + 1) (hop pairs l)

/-- The cut depth of a plan for the members of hedge 0: none when it is above 14 or some member is not connected. -/
def cutDepth (p : Plan) (members : List NodeId) : Option Nat :=
  (members.map fun m => reach p.pairs members 14 0 [m]).foldl
    (fun a b => match a, b with | some x, some y => some (max x y) | _, _ => none) (some 0)

/-- The members of hedge 0: of the job, else as the loaded image declares them. -/
def planMembers (s : State) : List NodeId :=
  match hedgeOf s 0 with
  | some h => h.members
  | none => ((((s.job.image.map Image.hedges).getD []).find? fun d => d.id == 0).map HedgeDecl.members).getD []

/-- A plan serves an image that takes checkpoints: its pairs connect the members within 14 hops (12 R305). -/
def planCuts (s : State) (p : Plan) : Bool :=
  ((s.job.image.bind Image.stateset).all fun x => x.k == 0) || (cutDepth p (planMembers s)).isSome

/-- A plan in a bank, with the outcome of its checks (R51, R53; 12 R305). -/
def putPlan (s : State) (b : Bool) (p : Plan) : State :=
  let v : Bank := { plan := some p, valid := planOk p && planCuts s p }
  { s with fab := if b then { s.fab with bank1 := v } else { s.fab with bank0 := v } }

/-! ### The digest of a plan (12 Table 12.5; log 10) -/

/-- The bytes of a plan. -/
def planBytes (p : Plan) : List Byte :=
  leBytes 1 p.k ++
  p.entries.flatMap (fun e => leBytes 1 e.port.toNat ++ leBytes 4 e.slot ++ leBytes 4 e.entry.toNat) ++
  p.tx.flatMap (fun t => leBytes 1 t.port.toNat ++ leBytes 2 t.index.toNat ++ leBytes 3 t.dst.toNat ++
    [t.nextHop] ++ leBytes 2 t.hedge.toNat ++ leBytes 1 (t.region.toNat + 4 * t.block.toNat) ++ leBytes 1 (bn t.core)) ++
  p.rx.flatMap fun r => leBytes 1 r.port.toNat ++ leBytes 2 r.index.toNat ++ leBytes 3 r.src.toNat ++
    leBytes 2 r.flow.toNat ++ leBytes 1 r.window.toNat

/-- The digest of the active espalier. -/
def planDigest (s : State) : List Byte :=
  match activePlan s with
  | some p => shake256 (planBytes p)
  | none => List.replicate 64 0

/-! ### Scheduled service (R45, R46; 15 R384, R385) -/

/-- The ports' scheduled bits: up, with a UDP port and in service (R43, FAB_PORT_STATUS). -/
def showService (s : State) : State :=
  { s with fab := { s.fab with ports := (List.range 8).foldl (fun m p =>
      let k := SMap.get ({} : Port) m p
      SMap.set ({} : Port) m p { k with scheduled := s.tim.service && k.link == .up && s.ncr.udpPort != 0 }) s.fab.ports } }

/-- The node leaves scheduled service: the plan is suspended, pending NAKs are discarded, the loss is recorded, and the
time out of service begins to count (R45, R46, R69). -/
def leaveService (s : State) : State :=
  if s.tim.service then
    let s1 := { s with
      tim := { s.tim with service := false, lockedSince := none, lost := true }
      fab := { s.fab with
        espState := if s.fab.espState = .running then .suspended else s.fab.espState
        pairs := s.fab.pairs.mapV {} fun _ k => { k with naks := [] } }
      pwr := { s.pwr with oosFrom :=
        if s.fab.espState = .running ∧ s.pwr.outageFrom = none then some s.tim.hall else s.pwr.oosFrom } }
    record (showService s1) .timeServiceLost
      { unitKind := 7, unit := bn s.tim.unit, detail := detailF (bn s.tim.unit) 0 s.tim.errPs.natAbs }
  else s

/-- The node enters scheduled service: an outage or an interval out of service ends and is reported, and a maintenance
stop with a reset inside it ends (R45; 15 R384, R385). A node without a Ngaiz UDP port does not enter it (R43). -/
def enterService (s : State) : State :=
  if s.tim.service || s.ncr.udpPort == 0 then s
  else
    let p := s.pwr
    let stop := s.sec.maint
    let ended := s.sec.maint && s.sec.maintReset
    let p1 : Power := match p.outageFrom with
      | some t => { p with outageFrom := none, oosFrom := none,
                           lastOutage := BitVec.ofNat 32 (if stop then 0 else min ((s.tim.hall - t) / 1000000) 0xFFFF_FFFE) }
      | none => match p.oosFrom with
        | some t => { p with oosFrom := none, oosNs := if stop then p.oosNs else p.oosNs + (s.tim.hall - t) }
        | none => p
    showService { s with
      tim := { s.tim with service := true }
      fab := { s.fab with espState := if s.fab.espState = .suspended then .running else s.fab.espState }
      pwr := p1
      sec := if ended then { s.sec with maint := false, maintReset := false } else s.sec }

end Sys2Proof.Machine
end

