-- ==== Sys2Proof/Machine/Policy.lean ====
section
/-!
DEFINITION. Membership and the places that follow from it (09, 12, 13): the members of hedge 0, the launch root, the
present coordinator, the buddy, the control space of R312, and the bytes of reports, notices and orders.
-/
namespace Sys2Proof.Machine

/-! ### Members -/

/-- The present members of hedge 0, by rank. -/
def members0 (s : State) : List NodeId := ((hedgeOf s 0).map Hedge.members).getD []

/-- This node's rank in hedge 0. -/
def rank0 (s : State) : Nat := ((hedgeOf s 0).map Hedge.rank).getD 0

/-- The launch root: of the launch the node started under, else the NCR's, else the node itself (09 R260; log 33). -/
def launchRoot (s : State) : NodeId := (s.job.root.or s.ncr.launchRoot).getD (nodeId s)

/-- The order in which members become coordinator (13 R339): the launch root, then hedge 0 by rank. -/
def coordOrder (s : State) : List NodeId := launchRoot s :: (members0 s).filter (· != launchRoot s)

/-- The node's present coordinator (13 R337). -/
def coordinatorOf (s : State) : NodeId := s.hold.coordinator.getD (launchRoot s)

/-- A member from which the node accepts an order: its present coordinator, or one that comes after it (13 R337). -/
def mayOrder (s : State) (n : NodeId) : Bool :=
  let l := coordOrder s
  match l.findIdx? (· == n), l.findIdx? (· == coordinatorOf s) with
  | some i, some j => j ≤ i
  | _, _ => n == coordinatorOf s

/-- The state set of the loaded image, where it takes checkpoints. -/
def stateSet (s : State) : Option StateSet := (s.job.image.bind Image.stateset).filter fun x => 0 < x.k

/-- The buddy of this node under the present membership (12 Table 12.1). -/
def buddy (s : State) : Option NodeId :=
  (stateSet s).bind fun x => (members0 s)[(rank0 s + x.buddy) % max 1 (members0 s).length]?

/-- The node whose buddy this node is. -/
def buddyOf (s : State) : Option NodeId :=
  (stateSet s).bind fun x =>
    let n := max 1 (members0 s).length
    (members0 s)[(rank0 s + n - x.buddy % n) % n]?

/-! ### The control space (12 R312) -/

/-- What a control offset addresses. -/
inductive Ctrl where
  | mirror (g st o : Nat)
  | report (o : Nat)
  | order
  | notice (rank : Nat)
  | nothing
deriving DecidableEq, Repr

/-- A frame's offset addresses the control space: hedge 0 with bit 55 set. -/
def isCtrl (h : NgHdr) : Bool := h.hedgeId == 0 && h.offset.toNat.testBit 55

/-- The range that a control offset lies in. -/
def ctrlOf (off : Nat) : Ctrl :=
  if 0x80_0000_0000_0000 ≤ off ∧ off < 0x80_0000_0000_0000 + 2 ^ 41 then
    let r := off - 0x80_0000_0000_0000
    if r / 2 ^ 36 % 16 < 12 then .mirror (r / 2 ^ 40) (r / 2 ^ 36 % 16) (r % 2 ^ 36) else .nothing
  else if 0xC0_0000_0000_0000 ≤ off ∧ off < 0xC0_0000_0000_1000 then .report (off - 0xC0_0000_0000_0000)
  else if off = 0xC0_0000_0008_0000 then .order
  else if 0xC0_0000_0010_0000 ≤ off ∧ off % 64 = 0 then .notice ((off - 0xC0_0000_0010_0000) / 64)
  else .nothing

/-- Check 8 for the control space: the range, its opcode and its sender (12 R312). -/
def ctrlAllows (s : State) (h : NgHdr) : Bool :=
  let n := h.length.toNat
  match ctrlOf h.offset.toNat with
  | .mirror _ _ o => h.opcode == 0x01 && o + n ≤ quarterBytes s && buddyOf s == some h.src
  | .report o => h.opcode == 0x02 && o + n ≤ 0x1000 && (members0 s).contains h.src
  | .order => h.opcode == 0x01 && n == 128 && h.last && mayOrder s h.src
  | .notice r => h.opcode == 0x01 && n == 64 && h.last && (members0 s)[r]? == some h.src
  | .nothing => false

/-! ### Reports, notices and orders as bytes -/

/-- The restore report, Table 12.7. -/
def reportBytes (s : State) : List Byte :=
  leBytes 4 (nodeId s).toNat ++ leBytes 4 0 ++
  (List.range 2).flatMap fun g =>
    let (step, verdict, source, flagged) := s.ckpt.report.getD g (0, 0, 0, 0)
    leBytes 8 step ++ leBytes 1 verdict ++ leBytes 1 source ++ leBytes 2 flagged ++ leBytes 4 0

/-- The 64 bytes of a hold notice (13 R337). -/
def noticeBytes (n : Notice) : List Byte :=
  slice (leBytes 8 n.step.toNat ++ [n.worst] ++ leBytes 1 (bn n.orphan + 2 * bn n.byLimit) ++
    leBytes 1 (min 12 n.silent.length) ++ [0] ++ (n.silent.take 12).flatMap fun d => leBytes 4 d.toNat) 0 64

/-- The 128 bytes of a policy order (13 Table 13.10). -/
def orderBytes (op : Nat) (tGo deadline expiry : W64) (step : Nat) (failed : List NodeId) : List Byte :=
  slice (leBytes 1 op ++ leBytes 1 failed.length ++ leBytes 6 0 ++ leBytes 8 tGo.toNat ++ leBytes 8 deadline.toNat ++
    leBytes 8 expiry.toNat ++ leBytes 8 step ++ leBytes 24 0 ++ (failed.take 16).flatMap fun d => leBytes 4 d.toNat) 0 128

/-- The entry of the receive queue that a row consumes: it stands at the queue's front (12 R312). -/
def takeControl (s : State) (src : NodeId) (bs : List Byte) : Option State :=
  match s.fab.control with
  | (n, b) :: rest => if n = src ∧ b = bs then some { s with fab := { s.fab with control := rest } } else none
  | [] => none

/-- A PUT to another member's control space waits for its slot: a policy flow has no mark of its own in a plan, so it
travels at priority 3 (12 R312; log 10). -/
def sendControlPut (s : State) (org : Origin) (pri : Nat) (dst : NodeId) (off : Nat) (bs : List Byte) : State :=
  sendData s org pri { opcode := oPut, dst := dst, hedge := 0, offset := off, last := true, data := bs }

/-! ### The coordinator's orders (12 R318, 13 R337, R338) -/

/-- An order to one member; the coordinator's order to itself enters its own receive queue. -/
def orderTo (s : State) (bs : List Byte) (n : NodeId) : State :=
  if n = nodeId s then
    if s.fab.control.length < 4096 then { s with fab := { s.fab with control := s.fab.control ++ [(n, bs)] } } else s
  else sendControlPut s .nobody 3 n 0xC0_0000_0008_0000 bs

/-- An order to every one of some members. -/
def orderAll (s : State) (l : List NodeId) (op step : Nat) (failed : List NodeId) : State :=
  l.foldl (fun t n => orderTo t (orderBytes op 0 0 0 step failed) n) s

/-- Step and verdict of each generation that a restore report gives (Table 12.7). -/
def reportSets (bs : List Byte) : List (Nat × Nat) := (List.range 2).map fun g => (le bs (8 + 16 * g) 8, le bs (16 + 16 * g) 1)

/-- The newest step for which every report has a USABLE set (R318). -/
def restoreStep (rs : List (List Byte)) : Option Nat :=
  let steps := (rs.flatMap fun b => (reportSets b).filterMap fun e => if e.2 = 1 then some e.1 else none).filter fun n =>
    rs.all fun b => (reportSets b).contains (n, 1)
  steps.foldl (fun a n => match a with | some m => some (max m n) | none => some n) none

/-- A report has come. With those of every member to be restored, the coordinator orders the restore, to be followed by
its own RELAUNCH, or, where no step will do, the end of the job (R318, R338). -/
def reportCame (s : State) (src : NodeId) (bs : List Byte) : State :=
  match s.hold.want with
  | none => s
  | some failed =>
    let rs := (s.hold.reports.filter fun e => e.1 != src) ++ [(src, bs)]
    let s1 := { s with hold := { s.hold with reports := rs } }
    let left := (members0 s).filter fun n => !failed.contains n
    if left.all fun n => rs.any fun e => e.1 == n then
      let s2 := { s1 with hold := { s1.hold with want := none, reports := [] } }
      match restoreStep ((rs.filter fun e => left.contains e.1).map Prod.snd) with
      | some n => orderAll { s2 with hold := { s2.hold with orders := [(4, failed)] } } left 3 n failed
      | none => orderAll s2 left 5 0 []
    else s1

end Sys2Proof.Machine
end

