-- ==== Sys2Proof/Machine/Trap.lean ====
section
/-!
DEFINITION. Harts: their registers, the status word, traps and interrupts (10; RISC-V privileged architecture 1.12), and
the answers to their aperture accesses (09 R249, R250).
-/
namespace Sys2Proof.Machine

/-! ### Registers -/

/-- An integer register; x0 reads zero. -/
def Hart.xr (t : Hart) (r : Nat) : W64 := if r = 0 then 0 else t.x.get 0 r

/-- An integer register written; a write of x0 is discarded. -/
def Hart.setX (t : Hart) (r : Nat) (v : W64) : Hart := if r = 0 then t else { t with x := t.x.set 0 r v }

/-- A floating-point register. -/
def Hart.fr (t : Hart) (r : Nat) : W64 := t.f.get 0 r

/-- A vector register (R277). -/
def Hart.vr (t : Hart) (r : Nat) : W128 := t.v.get 0 r

/-- A field of a 64-bit word replaced. -/
def setFld (w : W64) (lo n v : Nat) : W64 :=
  (w &&& ~~~(BitVec.ofNat 64 ((2 ^ n - 1) <<< lo))) ||| BitVec.ofNat 64 ((v % 2 ^ n) <<< lo)

/-- A change of floating-point state sets mstatus.FS to Dirty. -/
def Hart.dirtyF (t : Hart) : Hart := { t with csr := { t.csr with mstatus := setFld t.csr.mstatus 13 2 3 } }

/-- A change of SV128 state sets mstatus.XS to Dirty (R277). -/
def Hart.dirtyV (t : Hart) : Hart := { t with csr := { t.csr with mstatus := setFld t.csr.mstatus 15 2 3 } }

/-- A floating-point register written. -/
def Hart.setF (t : Hart) (r : Nat) (v : W64) : Hart := ({ t with f := t.f.set 0 r v }).dirtyF

/-- A vector register written. -/
def Hart.setV (t : Hart) (r : Nat) (v : W128) : Hart := ({ t with v := t.v.set 0 r v }).dirtyV

/-- svindex written: XS is Dirty where that changes it (R277). -/
def Hart.setIndex (t : Hart) (i : BitVec 4) : Hart := if t.svindex = i then t else ({ t with svindex := i }).dirtyV

/-- An SV128 access is over: svindex reads 0 again (R282, R284). -/
def Hart.svEnd (t : Hart) (vec : Bool) : Hart := if vec then t.setIndex 0 else t

/-- Privilege modes by code. -/
def Priv.num : Priv → Nat
  | .U => 0 | .S => 1 | .M => 3

/-- The mode of an MPP or SPP code; the reserved code is written as U. -/
def Priv.ofNum : Nat → Priv
  | 1 => .S | 3 => .M | _ => .U

/-! ### Interrupts (R276) -/

/-- mip: the supervisor bits as written, MSIP and MTIP as they stand; MEIP reads 0 (R276). -/
def mipOf (s : State) (h : BitVec 6) : W64 :=
  let t := s.hart h
  let soft := BitVec.ofNat 64 (bn t.msip <<< 3)
  let timer := BitVec.ofNat 64 (bn (decide (t.tcmp.toNat ≤ stamp s)) <<< 7)
  (t.csr.mip &&& 0x222) ||| soft ||| timer

/-- The interrupt that a hart takes next, by the priorities of the privileged architecture: none while it is masked. -/
def pendingIntr (s : State) (h : BitVec 6) : Option Nat :=
  let t := s.hart h
  let p := mipOf s h &&& t.csr.mie
  let mOn := t.priv != .M || wbit t.csr.mstatus 3
  let sOn := t.priv == .U || (t.priv == .S && wbit t.csr.mstatus 1)
  let order := [11, 3, 7, 9, 1, 5]
  match order.find? fun i => wbit p i && !wbit t.csr.mideleg i && mOn with
  | some i => some i
  | none => order.find? fun i => wbit p i && wbit t.csr.mideleg i && sOn

/-- An interrupt that mie enables is pending, whatever the global enables say: it ends a WFI. -/
def wakes (s : State) (h : BitVec 6) : Bool := mipOf s h &&& (s.hart h).csr.mie != 0

/-! ### Traps -/

/-- Where a trap goes: the base of the vector, and four times the cause more for an interrupt in vectored mode. -/
def vector (tvec : W64) (intr : Bool) (code : Nat) : W64 :=
  (tvec &&& ~~~3#64) + (if intr && tvec &&& 3 == 1 then BitVec.ofNat 64 (4 * code) else 0)

/-- The cause word. -/
def causeWord (intr : Bool) (code : Nat) : W64 := BitVec.ofNat 64 (code + (if intr then 2 ^ 63 else 0))

/-- The hart after a trap: the cause, the address and the status are saved in supervisor mode where delegated, else in
machine mode, and the pc goes to the vector (privileged architecture 1.12). -/
def Hart.trap (t : Hart) (intr : Bool) (code : Nat) (tval : W64) : Hart :=
  let c := t.csr
  let deleg := if intr then c.mideleg else c.medeleg
  let t1 := { t with lastCode := BitVec.ofNat 7 code, lastIntr := intr, state := .running }
  if t.priv != .M && wbit deleg code then
    let st := setFld (setFld (setFld c.mstatus 5 1 (fld c.mstatus 1 1)) 1 1 0) 8 1 t.priv.num
    { t1 with priv := .S, pc := vector c.stvec intr code,
              csr := { c with sepc := t.pc, scause := causeWord intr code, stval := tval, mstatus := st } }
  else
    let st := setFld (setFld (setFld c.mstatus 7 1 (fld c.mstatus 3 1)) 3 1 0) 11 2 t.priv.num
    { t1 with priv := .M, pc := vector c.mtvec intr code,
              csr := { c with mepc := t.pc, mcause := causeWord intr code, mtval := tval, mstatus := st } }

/-- A hart takes a trap. -/
def takeTrap (s : State) (h : BitVec 6) (intr : Bool) (code : Nat) (tval : W64) : State :=
  s.updHart h fun t => t.trap intr code tval

/-- A hart in WFI with an enabled interrupt pending leaves it; a hart that runs takes a pending interrupt (R276). -/
def serveIntr (s : State) (h : BitVec 6) : State :=
  let s1 := if (s.hart h).state = .wfi ∧ wakes s h then s.updHart h fun t => { t with state := .running } else s
  if (s1.hart h).state = .running ∧ !(s1.hart h).missWait then
    match pendingIntr s1 h with
    | some i => takeTrap s1 h true i 0
    | none => s1
  else s1

/-- The result of one instruction. -/
inductive HRes where
  /-- it retires: the state with the pc moved -/
  | done (s : State)
  /-- it raises an exception -/
  | trap (s : State) (code : Nat) (tval : W64)
  /-- it waits: the pc stays -/
  | wait (s : State)
deriving DecidableEq, Repr

/-- An instruction of `len` bytes retires with the hart changed. -/
def retire (s : State) (h : BitVec 6) (len : Nat) (f : Hart → Hart) : HRes :=
  .done (s.updHart h fun t => let u := f t; { u with pc := u.pc + BitVec.ofNat 64 len })

/-- Illegal instruction; mtval holds its bits. -/
def illegal (s : State) (w : Nat) : HRes := .trap s 2 (BitVec.ofNat 64 w)

/-- The retired instructions are counted (unless inhibited). -/
def countRetired (s : State) (h : BitVec 6) : State :=
  s.updHart h fun t =>
    if wbit t.csr.mcountinhibit 2 then t else { t with csr := { t.csr with minstret := t.csr.minstret + 1 } }

/-- The state after an instruction: it has retired, or its trap is taken, or it waits. -/
def HRes.settle (r : HRes) (h : BitVec 6) : State :=
  match r with
  | .done s => countRetired s h
  | .trap s c v => takeTrap s h false c v
  | .wait s => s

/-! ### Events of a hart (R275) -/

/-- The record of a failed access of a hart: its exception code and address (Table 10.4, R250). -/
def hartRecord (s : State) (h : BitVec 6) (st : Status) (code : Nat) (va : W64) : State :=
  record s .fcoAccess { unitKind := 10, unit := h.toNat, status := st, detail := detailF h.toNat code va.toNat }

/-! ### Answers to aperture accesses (09 R249, R250) -/

/-- A loaded value extended to 64 bits, or NaN-boxed for a floating-point register. -/
def extend (size : Nat) (fp uns : Bool) (v : Nat) : W64 :=
  if fp then BitVec.ofNat 64 (if size = 8 then v else v + 0xFFFF_FFFF_0000_0000)
  else if uns then BitVec.ofNat 64 v
  else BitVec.ofInt 64 (sx (8 * size) v)

/-- A loaded value in its destination register. -/
def Hart.putLoad (t : Hart) (size : Nat) (rd : Nat) (fp uns : Bool) (v : Nat) : Hart :=
  if fp then t.setF rd (extend size fp uns v) else t.setX rd (extend size fp uns v)

/-- FCO_RSTATUS notes a failed aperture access (R250). -/
def rstatus (st : Status) (op : Byte) (node : NodeId) : W64 :=
  BitVec.ofNat 64 (st.code + op.toNat * 256 + node.toNat * 65536)

/-- The exception of a failed aperture load or AMO. -/
def apCode (k : ApKind) : Nat :=
  match k with
  | .load => 5
  | _ => 7

/-- The Ngaiz opcode of an aperture access (R247). -/
def apOpcode (k : ApKind) : Byte :=
  match k with
  | .load => oGetReq
  | .store => oPut
  | _ => oAtomic

/-- The response to the access a hart waits on: its value is written and the hart goes on past the instruction, or the
access fault is taken at it (R249, R250). -/
def hartAnswer (s : State) (h : BitVec 6) (st : Status) (v : W128) : State :=
  let t := s.hart h
  match t.ap with
  | none => s
  | some w =>
    let t0 := { t with ap := none, state := .running }
    if st = .ok then
      let t1 := if w.vec then (t0.setV w.rd.toNat v).setIndex 0
        else t0.putLoad w.size w.rd.toNat w.fp w.uns (v.toNat % 2 ^ (8 * w.size))
      countRetired (s.setHart h { t1 with pc := t1.pc + BitVec.ofNat 64 w.len }) h
    else
      let t1 := { t0.svEnd w.vec with rstat := rstatus st (apOpcode w.kind) w.node }
      takeTrap (hartRecord (s.setHart h t1) h st (apCode w.kind) w.addr) h false (apCode w.kind) w.addr

/-- An aperture store of a hart leaves its list, and a thread that waits for stores is ready again (R249). -/
def dropStore (t : Hart) (no : Nat) : Hart :=
  { t with apStores := t.apStores.filter fun e => e.1 != no,
           state := if t.state = .switched ∧ t.ap = none then .running else t.state }

/-- An aperture store of a hart is acknowledged (R249). -/
def hartAcked (s : State) (h : BitVec 6) (no : Nat) : State := s.updHart h fun t => dropStore t no

/-- An aperture access of a hart ends with a status other than OK: a store waits to be reported at the hart's next FENCE
or aperture access with its own address, a load or AMO is reported at once (R250). -/
def hartFail (s : State) (h : BitVec 6) (no : Nat) (st : Status) (op : Byte) (node : NodeId) : State :=
  if op = oPut then
    let t := s.hart h
    let a := (t.apStores.find? fun e => e.1 == no).map fun e => e.2.1
    let t1 := { dropStore t no with rstat := rstatus st op node, apFault := t.apFault.or a }
    hartRecord (s.setHart h t1) h st 7 (a.getD 0)
  else hartAnswer s h st 0

end Sys2Proof.Machine
end

