-- ==== Sys2Proof/Machine/Remote.lean ====
section
/-!
DEFINITION. Remote commands (09): their checks, the cutting of transfers into frames, the frames they send as their
context is granted, and what acknowledgements, responses and failures do to the commands; the rows GET, PUT, RATOM,
RRED and MCAST.
-/
namespace Sys2Proof.Machine

/-! ### Hedges and windows (R239, R240) -/

/-- The hedge whose remote window a buffer is. -/
def hedgeOfRemote (s : State) (buf : Nat) : Option Hedge :=
  s.job.hedges.find? fun h => h.remote == buf && h.state != 0

/-- A remote descriptor of R240 that breaks what R407 can see: it must say remote. -/
def remoteBad (s : State) (w : W64) : Bool :=
  refBad s w false || !(((refIdx w).bind (descAt s)).map Desc.remote).getD false

/-- A local descriptor must not be remote. -/
def localBad (s : State) (w : W64) (optional : Bool) : Bool :=
  refBad s w optional || (((refIdx w).bind (descAt s)).map Desc.remote).getD false

/-- The issue checks of a remote extent: its node is a member of the hedge, and the extent lies in the window (R240). -/
def remoteCheck (s : State) (d : Desc) : List Status :=
  match hedgeOfRemote s d.buffer with
  | none => [.bounds]
  | some h =>
    (if d.node ∈ h.members then [] else [.bounds]) ++
    (if d.empty then [] else if d.overflows then [.bounds]
     else if d.extent.1 < 0 ∨ (h.winSize : Int) ≤ d.extent.2 then [.bounds] else [])

/-- The extent of a local end that is not a register or another node's memory (08 R219). -/
def localCheck (s : State) (d : Desc) : List Status :=
  extentCheck s d ++ bufCheck s d ++
  (if d.empty then [] else match place s d.extent.1.toNat with
    | .reg _ | .remote _ => [.bounds]
    | _ => [])

/-- The hedge ID of a remote descriptor. -/
def remoteHedge (s : State) (d : Desc) : Nat := ((hedgeOfRemote s d.buffer).map Hedge.id).getD 0xFFFF

/-- A pleach image sends no data between its nodes (R263). -/
def pleachJob (s : State) : Bool := (s.job.image.map Image.pleach).getD false

/-! ### Checks (R215 to R221, R244, R407) -/

/-- The stream control of GET, PUT and RRED breaks R220 or R221. -/
def remoteCtlBad (s : State) (w : W64) (inbound ringAllowed : Bool) (near : Desc) (far : Desc) : Bool :=
  !refOk w ||
  match stCtl s w with
  | none => true
  | some k => !k.good inbound || k.narrow || (k.ring && !ringAllowed) ||
      (if k.ring then !ringOk k near else far.counts != near.counts)

/-- What R407 checks of a remote command. -/
def rmtBad (s : State) (f : InFl) : Bool :=
  let c := f.cmd
  pleachJob s ||
  match c.opcode with
  | 0x43 => remoteBad s c.w1 || localBad s c.w2 false || remoteCtlBad s c.w3 true true (opnd! s f 2) (opnd! s f 1) ||
      unusedBad c [4, 5, 6, 7]
  | 0x52 => localBad s c.w1 false || remoteBad s c.w2 || remoteCtlBad s c.w3 false true (opnd! s f 1) (opnd! s f 2) ||
      bitsBad c.w4 1 || unusedBad c [5, 6, 7] ||
      (wbit c.w4 0 && 256 < (opnd! s f 1).rows * (opnd! s f 1).rowBytes)
  | 0x53 => remoteBad s c.w1 || localBad s c.w2 false || localBad s c.w3 true || bitsBad c.w4 0xFF ||
      unusedBad c [5, 6, 7] || !panAtomic (fld c.w4 0 8) || !panCounts (fld c.w4 0 8) (opnd! s f 1) (opnd! s f 2) ||
      ((refIdx c.w3).isSome && (opnd! s f 3).counts != (opnd! s f 1).counts)
  | 0x54 => localBad s c.w1 false || remoteBad s c.w2 || remoteCtlBad s c.w3 false false (opnd! s f 1) (opnd! s f 2) ||
      bitsBad c.w4 0xFF || unusedBad c [5, 6, 7] || fld c.w4 0 8 != 0x30
  | 0x55 => localBad s c.w1 false || refBad s c.w2 false || bitsBad c.w3 0xFFFF || unusedBad c [4, 5, 6, 7] ||
      !hedgeOk s (fld c.w3 0 16) || (opnd! s f 1).counts != (opnd! s f 2).counts
  | _ => true

/-- The format rules of a remote command; a brine target of RRED, and a brine source beside it, are held to R81 and R83 as
their descriptors say (R198). -/
def rmtFormat (s : State) (f : InFl) : Bool :=
  let c := f.cmd
  let a := opnd! s f 1
  let b := opnd! s f 2
  let scaled := a.ncw.scaleMode != 0 || b.ncw.scaleMode != 0
  match c.opcode with
  | 0x43 => scaled || (!((stCtl s c.w3).getD {}).ring && a.fmt != b.fmt)
  | 0x52 => scaled || (!((stCtl s c.w3).getD {}).ring && a.fmt != b.fmt)
  | 0x53 =>
    let op := fld c.w4 0 8
    scaled || !panTarget op a.fmt || b.fmt != a.fmt || (op == 0x10 && 3 < a.ncw.rnd) ||
      ((opnd s f 3).any fun d => d.fmt != a.fmt)
  | 0x54 => scaled || !panTarget 0x30 b.fmt || (b.fmt.isFloat && 3 < b.ncw.rnd) ||
      (if b.fmt.isBrine then
         !brineOperand b.fmt a.fmt || b.ncw.anchorMode == 1 || b.ncw.anchorMode == 3 ||
         (b.ncw.anchorMode == 0 && !anchorOk b.ncw.anchor) ||
         (a.fmt.isBrine && (a.ncw.anchorMode != b.ncw.anchorMode ||
            (b.ncw.anchorMode == 0 && a.ncw.anchor != b.ncw.anchor)))
       else a.fmt != b.fmt)
  | _ => scaled || a.fmt != b.fmt

/-- Alignment of the ends: bulk for the stream commands (R218), by element for RATOM (R191). -/
def rmtAligned (s : State) (f : InFl) : Bool :=
  let a := opnd! s f 1
  let b := opnd! s f 2
  if f.cmd.opcode = 0x53 then elemAligned a && elemAligned b && ((opnd s f 3).all elemAligned)
  else bulkAligned a && bulkAligned b

/-- The issue checks of a remote command (R121, R219, R240). -/
def rmtIssue (s : State) (b : Blk) (f : InFl) : List Status :=
  let c := f.cmd
  let d1 := opnd! s f 1
  let d2 := opnd! s f 2
  (match c.opcode with
   | 0x43 => remoteCheck s d1 ++ localCheck s d2 ++
       (if ((stCtl s c.w3).getD {}).ring && !inStore b d2 then [.bounds] else [])
   | 0x52 => localCheck s d1 ++ remoteCheck s d2 ++
       (if ((stCtl s c.w3).getD {}).ring && !inStore b d1 then [.bounds] else [])
   | 0x53 => remoteCheck s d1 ++ localCheck s d2 ++ ((opnd s f 3).toList.flatMap (localCheck s))
   | 0x54 => localCheck s d1 ++ remoteCheck s d2
   | _ => localCheck s d1 ++
     (match hedgeOf s (fld c.w3 0 16) with
      | some h => if d2.empty then [] else if d2.overflows ∨ d2.extent.1 < 0 ∨ (h.winSize : Int) ≤ d2.extent.2 then [.bounds] else []
      | none => [.bounds])) ++
  (if rmtAligned s f then [] else [.align]) ++ (if rmtFormat s f then [.format] else [])

/-! ### Transfers (R244) -/

/-- A transfer's pieces, its last one marked. -/
def markLast (l : List SReq) : List SReq :=
  match l.reverse with
  | [] => []
  | r :: rest => ({ r with last := true } :: rest).reverse

/-- The rows of a remote end with the near-end place of each, in row-major order. -/
def transferRows (ring : Bool) (far near : Desc) : List SReq := joinRows (streamRows ring far near)

/-- A transfer toward a node: rows cut into requests under R227, each of at most one frame of R49; `fs` and `ns` are the
bytes of an element at the far and the near end. -/
def transfer (s : State) (ring : Bool) (far near : Desc) (fs ns : Nat) (node : NodeId) (op : Byte)
    (sub fmt rnd xfmt : Nat) : List SReq :=
  let lim := min 4096 (frameMax s node / ns * fs)
  markLast ((transferRows ring far near).flatMap fun r =>
    (cutRun lim 4096 fs ns (r.bytes / 8 + 2) r).map fun p =>
      { p with node := node, op := op, sub := sub, fmt := fmt, rnd := rnd, xfmt := xfmt })

/-- The format code of the descriptor that an operand word names. -/
def fmtCode (s : State) (w : W64) : Nat := nfld (le (((refIdx w).bind (descBytes s)).getD []) 8 8) 0 4

/-- The other members of a hedge in rank order, from the rank after this node's on (R244). -/
def othersFrom (h : Hedge) : List NodeId :=
  (h.members.drop (h.rank + 1) ++ h.members.take h.rank)

/-- The requests of a GET, PUT, RRED or MCAST. -/
def rmtReqs (s : State) (f : InFl) : List SReq :=
  let c := f.cmd
  let d1 := opnd! s f 1
  let d2 := opnd! s f 2
  let ring := ((stCtl s c.w3).getD {}).ring
  number <| match c.opcode with
    | 0x43 => transfer s ring d1 d2 1 1 d1.node oGetReq 0 0 0 0
    | 0x52 => transfer s ring d2 d1 1 1 d2.node oPut 0 0 0 0
    | 0x54 => transfer s false d2 d1 d2.fmt.bytes d1.fmt.bytes d2.node oReduce 0x30 (fmtCode s c.w2) d2.ncw.rnd
        (fmtCode s c.w1)
    | _ => match hedgeOf s (fld c.w3 0 16) with
      | some h => (othersFrom h).flatMap fun n => transfer s false d2 d1 1 1 n oMcast 0 0 0 0
      | none => []

/-- A GET, PUT, RRED or MCAST carried to its context. -/
def rmtRun (s : State) (b : Blk) (f : InFl) : State :=
  let c := f.cmd
  let inbound := c.opcode == 0x43
  let near := if inbound then opnd! s f 2 else opnd! s f 1
  let k := if c.opcode = 0x55 then {} else (stCtl s c.w3).getD {}
  let hedge := if c.opcode = 0x55 then fld c.w3 0 16 else remoteHedge s (if inbound ∨ c.opcode = 0x53 then opnd! s f 1 else opnd! s f 2)
  startStream s b ((c.ctx).getD 0) (dirQ inbound) f k.ring
    { idx := f.idx, remote := true, hedge := hedge, outbound := !inbound, narrow := false,
      lc := (inbound && (opnd! s f 1).lc) || (c.opcode == 0x52 && wbit c.w4 0), high := k.high, low := k.low,
      rush := k.rush, rate := k.rate, ringBase := near.base, ringSize := if k.ring then near.c 0 else 0,
      todo := rmtReqs s f, sent := [] }

/-! ### A granted request becomes a frame -/

/-- A remote request leaves its context as a frame. An outbound one reads its source now; a line whose check fails is
not framed (11 R296). A latency-bound put goes to the front. -/
def sendRemote (s : State) (b : Blk) (n : Nat) (c : Ctx) (a : Active) (r : SReq) (rest : List SReq) : State :=
  let org := Origin.cmd b (ctxQ c) a.idx r.no
  if !a.outbound then
    sendData (s.setCtx b n (sentCtx s c a r rest)) org 6
      { opcode := r.op, dst := r.node, hedge := a.hedge, offset := r.far, length := some r.bytes, last := r.last }
  else
    match (if r.data.isEmpty then touch s [⟨r.near, r.nb⟩] else (s, none)) with
    | (t, some (st, code, npa)) => settle (failReq t b n r.no st (some (code, npa))) b n
    | (t, none) =>
      let bs := if r.data.isEmpty then rdN t r.near r.nb else r.data
      let c1 := sentCtx t c a r rest
      let c2 := { c1 with own := c1.own + BitVec.ofNat 64 r.nb }
      let t1 := t.setCtx b n c2
      let fa : FrameArgs :=
        { opcode := r.op, dst := r.node, hedge := a.hedge, offset := r.far, subop := r.sub, fmt := r.fmt, rnd := r.rnd,
          opArg := epochArg t1 a.hedge, last := r.last, addend := r.xfmt, data := bs }
      let o : OutFrame := { org := org, frame := mkFrame t1 fa }
      let urgent := match ctxCmd s b c a with
        | some f => f.cmd.opcode == 0x52 && wbit f.cmd.w4 0
        | none => false
      if urgent then { t1 with fab := { t1.fab with ready := o :: t1.fab.ready } } else enqueue t1 o

/-! ### RATOM (R244) -/

/-- The requests of a RATOM: runs of target elements, with the operand bytes of each. -/
def ratomReqs (s : State) (f : InFl) (raws : List Nat) : List SReq :=
  let t := opnd! s f 1
  let op := fld f.cmd.w4 0 8
  let n := t.fmt.bytes
  let per := if op = 0x08 then 2 else 1
  let lim := frameMax s t.node / (n * per) * n
  markLast ((joinRows (streamRows true t t)).flatMap fun r =>
    (cutRun lim (2 ^ 70) n n (r.bytes / 32 + 2) r).map fun p =>
      { p with no := p.elem, node := t.node,
               data := ((raws.drop (p.elem * per)).take (p.bytes / n * per)).flatMap fun x => leBytes n x })

/-- RATOM carried out: its frames wait for their slots, and ask for the old values where W3 is present; it completes as
the responses come. -/
def ratomRun (s : State) (b : Blk) (f : InFl) : State :=
  let t := opnd! s f 1
  let x := opnd! s f 2
  withTouch s x.runs b .OQ f.idx fun s1 =>
    let reqs := if t.empty then [] else ratomReqs s1 f (x.raws s1)
    let s2 := reqs.foldl (fun u r => sendData u (.cmd b .OQ f.idx r.no) 6
      { opcode := oAtomic, dst := r.node, hedge := remoteHedge s1 t, offset := r.far, subop := fld f.cmd.w4 0 8,
        fmt := fmtCode s f.cmd.w1, rnd := t.ncw.rnd, last := r.last, olds := (refIdx f.cmd.w3).isSome, data := r.data }) s1
    if reqs.isEmpty then finish s2 b .OQ f.idx .ok
    else updInFl s2 b .OQ f.idx fun y => { y with started := true, waiting := reqs.length }

/-- One of a RATOM's responses has come, with a status: with the last, the command finishes. -/
def ratomAnswer (s : State) (b : Blk) (idx : Nat) (st : Status) (e : Option (ErrCode × Nat)) : State :=
  let s1 := updInFl s b .OQ idx fun f =>
    let f1 := if st = .ok ∨ f.failed.isSome then f else { f with failed := some st, err := e.map Prod.fst, npa := e.map Prod.snd }
    { f1 with waiting := f1.waiting - 1,
              done := if f1.waiting ≤ 1 then some (f1.failed.getD .ok) else none }
  s1

/-- The old values of a RATOM's response are written to W3, from element `no` on. -/
def ratomOlds (s : State) (b : Blk) (f : InFl) (no : Nat) (bs : List Byte) : State :=
  match opnd s f 3 with
  | none => ratomAnswer s b f.idx .ok none
  | some d =>
    let n := d.fmt.bytes
    let k := bs.length / n
    let runs := (List.range k).map fun i => Run.mk (d.elemNpa (no + i)) n
    match touch s (partialRuns runs) with
    | (t, some (st, code, npa)) => ratomAnswer t b f.idx st (some (code, npa))
    | (t, none) =>
      let t1 := (List.range k).foldl (fun u i => wrN u (d.elemNpa (no + i)) (slice bs (n * i) n)) t
      ratomAnswer (noteOut t1 b .OQ f.idx bs) b f.idx .ok none

/-! ### Acknowledgements, responses and failures come back -/

/-- A request of a context is taken off those outstanding. -/
def dropReq (s : State) (b : Blk) (n no : Nat) : State :=
  let c := s.ctx b n
  s.setCtx b n { c with active := c.active.map fun a => { a with sent := a.sent.filter fun r => r.no != no } }

/-- The command in flight of an origin. -/
def orgCmd (s : State) (b : Blk) (q : Qc) (idx : Nat) : Option InFl :=
  (s.q b q).inflight.find? fun f => f.idx == idx && f.started && f.done.isNone

/-- The context that still carries a command. -/
def orgCtx (s : State) (b : Blk) (f : InFl) : Option Nat :=
  f.cmd.ctx.bind fun n => ((s.ctx b n).active.filter fun a => a.idx == f.idx).map fun _ => n

/-- The acknowledgement of a frame of a command or a hart reaches its origin: it is the write response of every byte
the frame carried (R243). Requests and atomics wait for their responses. -/
def ackOrigin (s : State) (org : Origin) (op : Byte) : State :=
  match org with
  | .cmd b q idx no =>
    if op = oGetReq ∨ op = oAtomic then s
    else match orgCmd s b q idx with
      | some f => match orgCtx s b f with
        | some n => settle (dropReq s b n no) b n
        | none => s
      | none => s
  | .hart h no =>
    if op = oPut then hartAcked s h no else s
  | .mirror n => { s with ckpt := { s.ckpt with mirrors := s.ckpt.mirrors.map fun e => if e.1 = n then (n, e.2 - 1) else e } }
  | .report | .nobody => s

/-- A frame of an origin ends with a status other than OK (R61, R67, R242). A mirror frame that ends so is never acknowledged: its
checkpoint is not mirrored (12 R314). -/
def failOrigin (s : State) (org : Origin) (op : Byte) (node : NodeId) (st : Status) (code : Option ErrCode) : State :=
  match org with
  | .cmd b q idx no =>
    match orgCmd s b q idx with
    | none => s
    | some f =>
      if f.cmd.opcode = 0x53 then
        ratomAnswer (updInFl s b q idx fun y => { y with err := y.err.or code }) b idx st none
      else match orgCtx s b f with
        | some n =>
          let s1 := failReq (dropReq s b n no) b n no st none
          settle (updInFl s1 b q idx fun y => { y with err := y.err.or code }) b n
        | none => s
  | .hart h no => hartFail s h no st op node
  | .mirror _ => s
  | .report | .nobody => s

/-- A GET response's data land at the local target, and OWN counts them (R222, R244). -/
def getLanded (s : State) (b : Blk) (f : InFl) (n no : Nat) (bs : List Byte) : State :=
  let c := s.ctx b n
  match c.active.bind fun a => a.sent.find? fun r => r.no == no with
  | none => s
  | some r =>
    let s0 := dropReq s b n no
    match touch s0 (partialRuns [⟨r.near, r.nb⟩]) with
    | (t, some (st, code, npa)) => settle (failReq t b n no st (some (code, npa))) b n
    | (t, none) =>
      let bs1 := bs.take r.nb
      let t1 := noteOut (wrN t r.near bs1) b .IQ f.idx bs1
      let c2 := t1.ctx b n
      let failed := (c2.active.bind Active.fail).isSome
      settle (t1.setCtx b n (sluice (if failed then c2 else { c2 with own := c2.own + BitVec.ofNat 64 r.nb }))) b n

/-! ### The rows -/

/-- GET (R244). -/
def execGet (b : Blk) (s : State) : Host.Outcome State Fault Refusal :=
  .next (engine s b .IQ 0x43 fun s f => rmtRun s b f)

/-- PUT (R244). -/
def execPut (b : Blk) (s : State) : Host.Outcome State Fault Refusal :=
  .next (engine s b .OQ 0x52 fun s f => rmtRun s b f)

/-- RATOM (R244). -/
def execRatom (b : Blk) (s : State) : Host.Outcome State Fault Refusal :=
  .next (engine s b .OQ 0x53 fun s f => ratomRun s b f)

/-- RRED (R244). -/
def execRred (b : Blk) (s : State) : Host.Outcome State Fault Refusal :=
  .next (engine s b .OQ 0x54 fun s f => rmtRun s b f)

/-- MCAST (R244). -/
def execMcast (b : Blk) (s : State) : Host.Outcome State Fault Refusal :=
  .next (engine s b .OQ 0x55 fun s f => rmtRun s b f)

end Sys2Proof.Machine
end

