-- ==== Sys2Proof/Machine/Coll.lean ====
section
/-!
DEFINITION. Collectives (09 R251 to R256): the trees, the work area, the phases of each collective of Table 09.5, clear
tokens, and the row COLL. The frames that carry each phase are logged where the spec does not fix them (log 27).
-/
namespace Sys2Proof.Machine

/-! ### Trees (R251) -/

/-- The rank at position `p` of tree A rooted at rank `root` of a hedge of `n` members. -/
def rankA (n root p : Nat) : Nat := (root + p) % n

/-- The rank at position `p` of tree B: the root at 0, else q of m + 1 − p. -/
def rankB (n root p : Nat) : Nat := if p = 0 then root else (root + (n - p)) % n

/-- The position of a rank in tree A. -/
def posA (n root r : Nat) : Nat := (r + n - root) % n

/-- The position of a rank in tree B. -/
def posB (n root r : Nat) : Nat := if r = root then 0 else n - (r + n - root) % n

/-- The parent's position (R251). -/
def parentPos (d p : Nat) : Nat := (p - 1) / d

/-- The positions of the children of a position, in a tree of `n` members. -/
def childPos (d n p : Nat) : List Nat := ((List.range d).map fun i => p * d + 1 + i).filter (· < n)

/-- The children of a rank in tree A. -/
def childrenA (d n root r : Nat) : List Nat := (childPos d n (posA n root r)).map (rankA n root)

/-- The parent of a rank in tree A. -/
def parentA (d n root r : Nat) : Option Nat :=
  if posA n root r = 0 then none else some (rankA n root (parentPos d (posA n root r)))

/-! ### A COLL and its places -/

/-- What a COLL works on. -/
structure Coll where
  hedge : Hedge
  code : Nat
  red : Nat
  root : Nat
  send : Desc
  recv : Desc
  counts : Option Desc
  anchors : Option Desc
deriving DecidableEq, Repr

/-- The operands of a COLL command. -/
def collOf (s : State) (f : InFl) : Option Coll :=
  (hedgeOf s (fld f.cmd.w3 0 16)).map fun h =>
    { hedge := h, code := fld f.cmd.w3 16 8, red := fld f.cmd.w3 24 8, root := fld f.cmd.w3 32 20, send := opnd! s f 1,
      recv := opnd! s f 2, counts := opnd s f 4, anchors := opnd s f 5 }

/-- Members of the hedge. -/
def Coll.n (k : Coll) : Nat := k.hedge.members.length

/-- A member's node ID by rank. -/
def Coll.node (k : Coll) (r : Nat) : NodeId := k.hedge.members.getD r 0

/-- The collective makes a floating sum, in brine (R254). -/
def Coll.floatSum (k : Coll) : Bool := k.red == 0 && k.send.fmt.isFloat && (k.code == 2 || k.code == 3 || k.code == 4 || k.code == 9)

/-- The collective reduces. -/
def Coll.reduces (k : Coll) : Bool := k.code == 2 || k.code == 3 || k.code == 4 || k.code == 9

/-- The root of its tree: rank 0 but for BCAST and REDUCE (Table 09.5). -/
def Coll.treeRoot (k : Coll) : Nat := if k.code = 1 ∨ k.code = 2 then k.root else 0

/-- Bytes rounded up to whole lines. -/
def lines64 (n : Nat) : Nat := cdiv n 64 * 64

/-- Bytes of the anchor array in the work area: INT32 entries, whole lines. -/
def Coll.anchorBytes (k : Coll) : Nat := if k.floatSum then lines64 (4 * k.send.size) else 0

/-- The format of the work area's areas (R255). -/
def Coll.areaFmt (k : Coll) : Fmt := if k.floatSum then k.recv.ncw.brine else k.send.fmt

/-- Bytes of one area of count elements. -/
def Coll.areaBytes (k : Coll) : Nat := lines64 (k.areaFmt.bytesOf k.send.size)

/-- Rounds of SCAN: the least j with 2^j ≥ size. -/
def Coll.rounds (k : Coll) : Nat := ((List.range 21).find? fun j => k.n ≤ 2 ^ j).getD 21

/-- Areas that the collective needs (R255). -/
def Coll.areas (k : Coll) : Nat :=
  if k.code = 9 then k.rounds + 1 else if k.reduces then 1 else 0

/-- Bytes of the work area that the collective needs (R255); displacements and BARRIER's line stand at its start. -/
def Coll.need (k : Coll) : Nat :=
  if k.code = 7 then lines64 (8 * k.n)
  else if k.code = 8 then 64
  else k.anchorBytes + k.areas * k.areaBytes

/-- The window offset of a region: 0 the anchor array, 1 + j area j, 100 the receive buffer, 101 the displacements, 102
BARRIER's line. -/
def Coll.off (k : Coll) (region : Nat) : Nat :=
  if region = 0 ∨ region = 101 ∨ region = 102 then k.hedge.workOff
  else if region = 100 then k.recv.base - k.hedge.winBase
  else k.hedge.workOff + k.anchorBytes + (region - 1) * k.areaBytes

/-- The region of a window offset. -/
def Coll.regionOf (k : Coll) (off : Nat) : Nat :=
  let w := k.hedge.workOff
  if w ≤ off ∧ off < w + k.hedge.workLen then
    if k.code = 7 then 101
    else if k.code = 8 then 102
    else if off < w + k.anchorBytes then 0
    else 1 + (off - w - k.anchorBytes) / (max 1 k.areaBytes)
  else 100

/-- The NPA of a region in this node. -/
def Coll.npa (k : Coll) (region : Nat) : Nat := k.hedge.winBase + k.off region

/-- The tensor of `count` elements that an area holds in this node. -/
def Coll.area (k : Coll) (region : Nat) : Desc :=
  let f := if region = 0 then Fmt.int32 else k.areaFmt
  { Desc.of [] with base := k.npa region, counts := [k.send.size, 1, 1, 1, 1], rank := 1, ncw := { Ncw.of 0 with fmt := f } }

/-! ### Checks (R253 to R255, R407) -/

/-- A COLL's receive buffer lies outside the hedge's window (R253). -/
def recvOut (k : Coll) : Bool :=
  k.code != 8 && !k.recv.empty &&
  (k.recv.extent.1 < k.hedge.winBase || (k.hedge.winBase : Int) + k.hedge.winSize ≤ k.recv.extent.2)

/-- What R407 checks of a COLL. -/
def collBad (s : State) (f : InFl) : Bool :=
  let c := f.cmd
  pleachJob s || localBad s c.w1 false || localBad s c.w2 false || localBad s c.w4 true || localBad s c.w5 true ||
  bitsBad c.w3 (2 ^ 52 - 1) || unusedBad c [6, 7] || !hedgeOk s (fld c.w3 0 16) ||
  match collOf s f with
  | none => true
  | some k =>
    let n := max 1 k.n
    let whole := k.send.counts == k.recv.counts
    !(1 ≤ k.code && k.code ≤ 9) || k.n ≤ k.root || (k.treeRoot != k.root && k.root != 0) ||
    (if k.reduces then !(k.red == 0 || k.red == 1 || k.red == 2 || k.red == 6 || k.red == 7 || k.red == 8) else k.red != 0) ||
    (k.counts.isSome != (k.code == 7)) || (k.anchors.isSome && !k.floatSum) ||
    ((k.anchors.map fun a => a.counts != k.send.counts).getD false) ||
    ((k.counts.map fun d => d.rank != 2 || d.c 0 != k.n || d.c 1 != 2).getD false) ||
    recvOut k ||
    (match k.code with
     | 1 | 2 | 3 | 9 => !whole
     | 4 => k.send.size % n != 0 || k.recv.size != k.send.size / n
     | 5 => k.recv.size != k.send.size * n
     | 6 => !whole || k.send.size % n != 0
     | _ => false)

/-- A COLL breaks a format rule (R254, Table 09.5, 08 R217). -/
def collFormat (k : Coll) : Bool :=
  let sf := k.send.fmt
  k.send.ncw.scaleMode != 0 || k.recv.ncw.scaleMode != 0 ||
  (if k.floatSum then
     !k.recv.fmt.isFloat || !rndOk k.recv.ncw || (sf == .fp64 && !k.recv.ncw.acc) ||
     ((k.anchors.map fun a => a.fmt != .int32 || blockBad a).getD false)
   else if k.code = 8 then false
   else sf != k.recv.fmt ||
     (k.reduces && (if k.red = 0 ∨ 6 ≤ k.red then !sf.isInt else !(sf.isFloat || sf.isInt)))) ||
  ((k.counts.map fun d => d.fmt != .int64 || blockBad d).getD false)

/-- The issue checks of a COLL (R121, R218, R254, R255). -/
def collIssue (s : State) (_b : Blk) (f : InFl) : List Status :=
  match collOf s f with
  | none => [.verify]
  | some k =>
    (if k.code = 8 then [] else localCheck s k.send ++ localCheck s k.recv) ++
    (k.counts.toList.flatMap (localCheck s)) ++ (k.anchors.toList.flatMap (localCheck s)) ++
    (if k.hedge.workLen < k.need then [.bounds] else []) ++ (if collFormat k then [.format] else []) ++
    (if k.floatSum then
       match k.anchors with
       | some a => if (a.raws s).any fun r => !anchorOk (sx 32 r) then [.format] else []
       | none => []
     else [])

/-- Brine entries that the COLL will hold; with too few free it waits at issue (R255). -/
def collEntries (k : Coll) : Nat := if k.floatSum && k.send.size != 0 then k.areas else 0

/-- A COLL waits at issue until the brine table has room for its areas (R255). -/
def collWaits (s : State) (f : InFl) : Bool :=
  match collOf s f with
  | some k => 64 < s.brine.length + collEntries k
  | none => false

/-! ### Phases -/

/-- A phase of a collective. -/
inductive CPhase where
  /-- wait for the children's transfers to a region, then send it to the parent in tree A of the root -/
  | up (region root : Nat)
  /-- the root sends a region down tree A; the others wait for their parent's transfer, which they forward -/
  | down (region root : Nat)
  /-- this member's elements enter its brine area under the anchors (R254) -/
  | conv
  /-- round j of recursive doubling -/
  | scan (j : Nat)
  /-- REDSCAT: rank 0 puts part r to member r -/
  | scatter
  /-- ALLGATHER: part r goes to rank 0 -/
  | collect
  /-- ALLTOALLV: displacements are exchanged -/
  | displ
  /-- ALLTOALL and ALLTOALLV: parts are exchanged -/
  | exchange
  /-- the holder of the final value writes the receive buffer -/
  | fin
deriving DecidableEq, Repr

/-- The phases of a collective, Table 09.5 and R254. -/
def Coll.phases (k : Coll) : List CPhase :=
  let pre := if k.floatSum then (if k.anchors.isSome then [] else [CPhase.up 0 0, .down 0 0]) ++ [.conv] else []
  if k.send.size = 0 ∧ k.code ≠ 7 ∧ k.code ≠ 8 then []
  else match k.code with
  | 1 => [.down 100 k.root]
  | 2 => pre ++ [.up 1 k.root, .fin]
  | 3 => pre ++ [.up 1 0, .fin, .down 100 0]
  | 4 => pre ++ [.up 1 0, .scatter]
  | 5 => [.collect, .down 100 0]
  | 6 => [.exchange]
  | 7 => [.displ, .exchange]
  | 8 => [.up 102 0, .down 102 0]
  | _ => pre ++ ((List.range k.rounds).map .scan) ++ [.fin]

/-- Two elements combined by a reduction (R254): integer SUM modulo 2^width, the others as Table 05.8 orders them. -/
def combine (red : Nat) (f : Fmt) (a b : Nat) : Nat :=
  if red = 0 then f.wrap (f.intOf a + f.intOf b)
  else (redSlice red f { Ncw.of 0 with fmt := f } 0 0 [(0, a), (1, b)]).1

/-- A group of a format: its elements and bytes (R71). -/
def Fmt.unit (f : Fmt) : Nat × Nat := if f.packed then f.group else (1, f.bits / 8)

/-- Bytes for a place of a member's window, cut into requests under 08 R227, each of whole groups of `g` bytes. -/
def collCut (g : Nat) : Nat → Nat → List Byte → List SReq
  | 0, _, _ => []
  | n + 1, off, bs =>
    if bs.isEmpty then []
    else
      let t := max g ((4096 - off % 4096) / g * g)
      let d := bs.take t
      { far := off, near := 0, bytes := d.length, nb := d.length, data := d } :: collCut g n (off + t) (bs.drop t)

/-- One transfer of a collective to a member: its pieces, each for its place in the member's window, as they stand now;
its last frame is marked (R246). -/
def collSend (k : Coll) (rank : Nat) (pieces : List (Nat × List Byte)) (op : Byte) : List SReq :=
  let fmt := if op = oReduce then k.areaFmt else k.send.fmt
  let code := ((List.range 16).find? fun c => Fmt.ofCode c == fmt).getD 0
  markLast ((pieces.flatMap fun p => collCut k.areaFmt.unit.2 (p.2.length / 64 + 4) p.1 p.2).map fun p =>
    { p with node := k.node rank, op := op, sub := if op = oReduce then 0x30 else k.hedge.ordinal.toNat % 256,
             fmt := code, xfmt := code, rnd := k.recv.ncw.rnd })

/-- Bytes of a region: `n` from its start in this node. -/
def Coll.bytesAt (k : Coll) (s : State) (region n : Nat) : List Byte := rdN s (k.npa region) n

/-- The receive buffer as bytes in row-major order, each row with its window offset. -/
def rowsAt (k : Coll) (s : State) (d : Desc) : List (Nat × List Byte) :=
  (transferRows false d d).map fun r => (r.far - k.hedge.winBase, rdN s r.far r.bytes)

/-- The bits of elements `lo` to `lo + n − 1` of a tensor. -/
def rawsFrom (s : State) (d : Desc) (lo n : Nat) : List Nat := (List.range n).map fun i => d.raw s (lo + i)

/-- Elements written to a tensor from element `lo` on. -/
def putRaws (s : State) (d : Desc) (lo : Nat) (raws : List Nat) : State :=
  (wrT s d fun e => if e < lo then none else raws[e - lo]?).1

/-- The rows of a tensor that hold elements `lo` to `lo + n − 1`: for each the NPA of the first group that holds one of
them, the first element's place in it, and the elements' range. -/
def elemRows (d : Desc) (lo n : Nat) : List (Nat × Nat × Nat × Nat) :=
  let c0 := max 1 (d.c 0)
  let g := d.fmt.unit
  if n = 0 then []
  else (List.range ((lo + n - 1) / c0 - lo / c0 + 1)).map fun i =>
    let r := lo / c0 + i
    let a := max lo (r * c0) - r * c0
    let e := min (lo + n) (r * c0 + c0) - r * c0
    (d.rowNpa r + a / g.1 * g.2, a % g.1, r * c0 + a - lo, e - a)

/-- Elements for a tensor of a member's window from element `lo` on, row by row, each piece with its window offset. A
packed piece holds whole groups, zero where they hold no element of the part (log 62). -/
def elemPieces (k : Coll) (d : Desc) (lo : Nat) (raws : List Nat) : List (Nat × List Byte) :=
  (elemRows d lo raws.length).map fun (npa, pad, at_, n) =>
    (npa - k.hedge.winBase, packRow d.fmt (List.replicate pad 0 ++ (raws.drop at_).take n))

/-- The region that goes up or down as a transfer to a member. -/
def collRegion (s : State) (k : Coll) (region rank : Nat) (up : Bool) : List SReq :=
  if region = 100 then collSend k rank (rowsAt k s k.recv) oColl
  else if region = 102 then collSend k rank [(k.off 102, List.replicate 64 0)] oColl
  else if region = 0 then collSend k rank [(k.off 0, k.bytesAt s 0 (4 * k.send.size))] oColl
  else collSend k rank [(k.off region, k.bytesAt s region (k.areaFmt.bytesOf k.send.size))]
    (if k.floatSum && up then oReduce else oColl)

/-- Elements of the receive buffer of a member: a part for REDSCAT, else as many as are sent. -/
def Coll.part (k : Coll) : Nat := if k.code = 4 then k.send.size / max 1 k.n else k.send.size

/-- The final values of an area, crystallised into the receive format or as they are: bits by element, and flags. A seeded
draw takes the element's place in the receive buffer that it goes to (R89). -/
def collFinal (s : State) (k : Coll) : List (Nat × Fl) :=
  let a := k.area 1
  (List.range k.send.size).map fun i =>
    if k.floatSum then
      let br := a.fmt.unpackBrine (a.raw s i)
      let anchor := match k.anchors with
        | some d => sx 32 (d.raw s i)
        | none => sx 32 ((k.area 0).raw s i)
      let u := drawOf s k.recv.ncw (if k.recv.ncw.seedValid then i % max 1 k.part else i)
      crystallise k.recv.fmt k.recv.ncw.mode u (a.fmt.brineVal anchor br) br.fl (Val.two 0) .zero
    else (a.raw s i, 0)

/-- Flags of crystallisation go to the stack of each element's area. -/
def collFlags (s : State) (k : Coll) (l : List (Nat × Fl)) : State :=
  l.zipIdx.foldl (fun t e => setPanFlags t (stackOf t ((k.area 1).elemNpa e.2)) e.1.2) s

/-- The brine entries of a COLL's areas, which the node registers as the COLL issues (R255); they leave the table as it
ends (`dropEntries`). -/
def collRegister (s : State) (b : Blk) (f : InFl) : State :=
  match collOf s f with
  | none => s
  | some k =>
    { s with brine := s.brine ++ (List.range (collEntries k)).map fun j =>
        let a := k.area (1 + j)
        { base := a.base, counts := a.counts, strides := a.strides, b256 := k.recv.ncw.acc, anchorMode := 2, anchor := 0,
          anchorAt := some (match k.anchors with | some d => (d.base, d.strides) | none => (k.npa 0, [0, 0, 0, 0])),
          sealed := false, coll := some (b.key, f.idx) } }

/-- This member's elements at the start: the exponents of phase 1, or an area of a reduction that is not brine. -/
def collOwn (s : State) (k : Coll) : State :=
  if k.floatSum then
    if k.anchors.isSome then s
    else (List.range k.send.size).foldl (fun t i =>
      let e := ((k.send.val t i).e.map anchorClamp).getD (-4096)
      wrW t (k.npa 0 + 4 * i) 4 (tc 32 e)) s
  else if k.reduces then putRaws s (k.area 1) 0 (k.send.raws s)
  else s

/-- The members that send to this one in the collective: who must have its clear token (R256). -/
def collSenders (k : Coll) : List Nat :=
  let r := k.hedge.rank
  let d := k.hedge.arity
  let tree := fun root => childrenA d k.n root r ++ (parentA d k.n root r).toList
  let pre := if k.floatSum && k.anchors.isNone then tree 0 else []
  let all := (List.range k.n).filter (· != r)
  let l := match k.code with
    | 1 => (parentA d k.n k.root r).toList
    | 2 => childrenA d k.n k.root r ++ pre
    | 3 | 8 => tree 0
    | 4 => childrenA d k.n 0 r ++ pre ++ [0]
    | 5 => (if r = 0 then all else []) ++ (parentA d k.n 0 r).toList
    | 6 | 7 => all
    | _ => ((List.range k.rounds).filterMap fun j => if 2 ^ j ≤ r then some (r - 2 ^ j) else none) ++ pre
  if k.phases.isEmpty then [] else l.eraseDups.filter (· != r)

/-- A member whose transfer to a region has landed whole. -/
def hasLanded (k : Coll) (region rank : Nat) : Bool := k.hedge.landed.any fun e => e.1 == k.node rank && e.2 == region

/-- Transfers added to what the context still has to send. -/
def collTodo (s : State) (b : Blk) (l : List SReq) : State :=
  let c := s.ctx b 15
  match c.active with
  | none => s
  | some a =>
    let st : CtxState := if a.todo.isEmpty && l.isEmpty then c.state else .opened
    let a1 : Active := { a with nextNo := a.nextNo + l.length
                                todo := a.todo ++ l.zipIdx.map fun e => { e.1 with no := a.nextNo + e.2 } }
    s.setCtx b 15 { c with state := st, active := some a1 }

/-- The clear tokens of an ordinal above 0, sent once the work area is zeroed (R256). -/
def sendClears (s : State) (b : Blk) (k : Coll) : State :=
  if k.hedge.ordinal = 0 then s
  else collTodo s b ((collSenders k).map fun r =>
    { far := 0, near := 0, bytes := 0, nb := 0, node := k.node r, op := oColl, sub := k.hedge.ordinal.toNat % 256,
      last := true })

/-- The displacement that a receiver gives a sender in ALLTOALLV: elements of row 1 before it. -/
def displOf (s : State) (d : Desc) (r : Nat) : Nat :=
  ((List.range r).map fun i => d.raw s (d.c 0 + i)).foldl (· + ·) 0

/-- The ranks of the other members from the next one on, wrapping (Table 09.5). -/
def othersIn (k : Coll) : List Nat :=
  (List.range k.n).drop (k.hedge.rank + 1) ++ (List.range k.n).take k.hedge.rank

/-- What one phase does when it can go on: none while it waits. -/
def phaseStep (s : State) (b : Blk) (k : Coll) : CPhase → Option State
  | .up region root =>
    let r := k.hedge.rank
    let d := k.hedge.arity
    if (childrenA d k.n root r).all (hasLanded k region) then
      match parentA d k.n root r with
      | none => some s
      | some p => some (collTodo s b (collRegion s k region p true))
    else none
  | .down region root =>
    let r := k.hedge.rank
    let d := k.hedge.arity
    match parentA d k.n root r with
    | none =>
      let s1 := if k.code = 1 then putRaws s k.recv 0 (k.send.raws s) else s
      some (collTodo s1 b ((childrenA d k.n root r).flatMap fun c => collRegion s1 k region c false))
    | some p => if hasLanded k region p then some s else none
  | .conv =>
    some <| (List.range k.send.size).foldl (fun t i =>
      match entAt t ((k.area 1).elemNpa i) with
      | some e => (brineAt t e ((k.area 1).elemNpa i) k.send.fmt (k.send.raw t i)).1
      | none => t) s
  | .scan j =>
    let r := k.hedge.rank
    let out := if r + 2 ^ j < k.n then
        collSend k (r + 2 ^ j) [(k.off (2 + j), k.bytesAt s 1 (k.areaFmt.bytesOf k.send.size))]
          (if k.floatSum then oReduce else oColl)
      else []
    if 2 ^ j ≤ r then
      if hasLanded k (2 + j) (r - 2 ^ j) then
        let f := k.areaFmt
        let two := fun (a x : Nat) =>
          if k.floatSum then f.packBrine (Brine.add (f.unpackBrine a) (f.unpackBrine x)) else combine k.red f x a
        some (putRaws (collTodo s b out) (k.area 1) 0 (List.zipWith two ((k.area 1).raws s) ((k.area (2 + j)).raws s)))
      else none
    else some (collTodo s b out)
  | .scatter =>
    if k.hedge.rank = 0 then
      let fin := collFinal s k
      let raws := fun r => ((fin.drop (r * k.part)).take k.part).map Prod.fst
      let s1 := putRaws (collFlags s k fin) k.recv 0 (raws 0)
      let s2 := if k.floatSum then drewN s1 k.recv.ncw k.send.size else s1
      some (collTodo s2 b ((List.range k.n).tail.flatMap fun r => collSend k r (elemPieces k k.recv 0 (raws r)) oColl))
    else if hasLanded k 100 0 then some s else none
  | .collect =>
    let part := k.send.size
    if k.hedge.rank = 0 then
      if ((List.range k.n).filter (· != 0)).all (hasLanded k 100) then some (putRaws s k.recv 0 (k.send.raws s))
      else none
    else some (collTodo s b (collSend k 0 (elemPieces k k.recv (k.hedge.rank * part) (k.send.raws s)) oColl))
  | .displ =>
    match k.counts with
    | none => some s
    | some d =>
      some (collTodo s b ((othersIn k).flatMap fun r =>
        collSend k r [(k.off 101 + 8 * k.hedge.rank, leBytes 8 (displOf s d r))] oColl))
  | .exchange =>
    let r := k.hedge.rank
    match k.counts with
    | none =>
      let part := k.send.size / max 1 k.n
      some (collTodo (putRaws s k.recv (r * part) (rawsFrom s k.send (r * part) part)) b ((othersIn k).flatMap fun j =>
        collSend k j (elemPieces k k.recv (r * part) (rawsFrom s k.send (j * part) part)) oColl))
    | some d =>
      if (othersIn k).all (hasLanded k 101) then
        let at0 := fun j => ((List.range j).map fun i => d.raw s i).foldl (· + ·) 0
        let s1 := putRaws s k.recv (displOf s d r) (rawsFrom s k.send (at0 r) (d.raw s r))
        some (collTodo s1 b ((othersIn k).flatMap fun j =>
          collSend k j (elemPieces k k.recv (rdW s (k.npa 101 + 8 * j) 8) (rawsFrom s k.send (at0 j) (d.raw s j))) oColl))
      else none
  | .fin =>
    let mine := k.code == 9 || k.hedge.rank == k.treeRoot
    if mine then
      let fin := collFinal s k
      let s1 := putRaws (collFlags s k fin) k.recv 0 (fin.map Prod.fst)
      some (if k.floatSum then drewN s1 k.recv.ncw k.send.size else s1)
    else some s

/-- Whether everything this member waits for at the end has landed: the parts of an exchange. -/
def exchanged (k : Coll) (s : State) : Bool :=
  match k.code with
  | 6 => ((List.range k.n).filter (· != k.hedge.rank)).all (hasLanded k 100)
  | 7 => match k.counts with
    | some d => ((List.range k.n).filter (· != k.hedge.rank)).all fun r => d.raw s (d.c 0 + r) == 0 || hasLanded k 100 r
    | none => true
  | _ => true

/-- The COLL that a hedge has under way: its block and command. -/
def collUnderWay (s : State) (hedge : Nat) : Option (Blk × InFl) :=
  (gradeBlocks s).findSome? fun b =>
    ((s.q b .OQ).inflight.find? fun f =>
      f.cmd.opcode == 0x56 && fld f.cmd.w3 0 16 == hedge && f.started && f.done.isNone).map fun f => (b, f)

/-- Phases are taken one after another as far as they can go; after the last, with every frame acknowledged, the COLL
completes and the hedge's ordinal rises (R256). -/
def collAdvance : Nat → State → Nat → State
  | 0, s, _ => s
  | fuel + 1, s, hedge =>
    match collUnderWay s hedge with
    | none => s
    | some (b, f) =>
      match collOf s f with
      | none => s
      | some k =>
        match k.phases[f.phase]? with
        | some p =>
          match phaseStep s b k p with
          | none => s
          | some t => collAdvance fuel (updInFl t b .OQ f.idx fun x => { x with phase := x.phase + 1 }) hedge
        | none =>
          let c := s.ctx b 15
          let busy := (c.active.map fun a => !a.todo.isEmpty || !a.sent.isEmpty).getD false
          if busy || !exchanged k s then s
          else
            let s1 := dropEntries s b f.idx
            let s2 := updHedge s1 hedge fun h => { h with ordinal := h.ordinal + 1, landed := []
                                                          clears := h.clears.filter fun e => e.2 != h.ordinal.toNat % 256 }
            let s3 := s2.setCtx b 15 { s2.ctx b 15 with active := none, state := .idle, aged := false, losses := 0 }
            let wrote := k.code != 8 && (k.code != 2 || k.hedge.rank == k.root)
            finishOut s3 b .OQ f.idx .ok (if wrote then packRow k.recv.fmt (k.recv.raws s3) else [])

/-- Enough steps for every phase of a collective, its hedge's size being at most 2^20. -/
def collFuel : Nat := 64

/-! ### Frames of a collective arrive (R254, R256) -/

/-- The bits of element `i` of bytes that hold packed or unpacked elements (R71). -/
def rawOf (f : Fmt) (bs : List Byte) (i : Nat) : Nat :=
  match f with
  | .e3m2 | .e2m3 => nfld (le bs (i / 4 * 3) 3) (6 * (i % 4)) 6
  | .e2m1 | .int4 => nfld (le bs (i / 2) 1) (4 * (i % 2)) 4
  | _ => le bs (i * (f.bits / 8)) (f.bits / 8)

/-- Elements that arrive combined, each with the one that stands in its place from an NPA on (R254). -/
def combineAt (s : State) (red : Nat) (f : Fmt) (npa : Nat) (data : List Byte) : State :=
  (wrRow s f npa ((List.range (data.length / f.unit.2 * f.unit.1)).map fun i =>
    some (combine red f (rawAt s f npa i) (rawOf f data i)))).1

/-- The bytes of the receive buffer that an ALLTOALLV's sender may write: those of the elements that row 1 gives it
(R253). -/
def mayWrite (s : State) (k : Coll) (src : NodeId) (npa len : Nat) : Bool :=
  match k.counts with
  | some c =>
    let j := (k.hedge.members.findIdx? (· == src)).getD 0
    (elemRows k.recv (displOf s c j) (c.raw s (c.c 0 + j))).any fun (a, pad, _, n) =>
      a ≤ npa && npa + len ≤ a + k.recv.fmt.bytesOf (pad + n)
  | none => true

/-- How a frame's data enter the node: added into a brine area, combined into an area or the anchor array, or
written. -/
inductive CollWay where
  | brine | combine (red : Nat) (f : Fmt) | write
deriving DecidableEq, Repr

/-- How the data of a frame from a member enter a region (R254). -/
def collWay (k : Coll) (op : Byte) (region : Nat) (parent0 : Bool) : CollWay :=
  if op = oReduce then .brine
  else if region = 0 then (if parent0 then .write else .combine 1 .int32)
  else if region = 1 then .combine k.red k.areaFmt
  else .write

/-- A frame of a collective takes effect: its lines are read where they are merged or combined, its data enter the node,
and what is to go on down a tree is sent on (R242, R254). With a status other than OK nothing of it is applied: BOUNDS
where an ALLTOALLV transfer exceeds the receiver's count (R253). -/
def collLand (s : State) (b : Blk) (k : Coll) (src : NodeId) (op : Byte) (off : Nat) (bs : List Byte) (last : Bool)
    (len : Nat) : State × Status :=
  let region := k.regionOf off
  let r := k.hedge.rank
  let d := k.hedge.arity
  let fromParent := fun root => (parentA d k.n root r).map k.node == some src
  let data := bs.take len
  let npa := k.hedge.winBase + off
  let way := collWay k op region (fromParent 0)
  let run : Run := ⟨npa, data.length⟩
  if region = 100 ∧ k.code = 7 ∧ !mayWrite s k src npa len then (s, .bounds)
  else
    match touch s (match way with | .write => partialRuns [run] | _ => [run]) with
    | (t, some (st, _, _)) => (t, st)
    | (t, none) =>
      let t1 := match way with
        | .write => wrN t npa data
        | .combine red f => combineAt t red f npa data
        | .brine =>
          let n := k.areaFmt.bytes
          (List.range (data.length / n)).foldl (fun u i =>
            match entAt u (npa + n * i) with
            | some e => (brineAt u e (npa + n * i) k.areaFmt (le data (n * i) n)).1
            | none => u) t
      let t2 := if last then updHedge t1 k.hedge.id fun h => { h with landed := h.landed ++ [(src, region)] } else t1
      let forward := fun (root : Nat) => collTodo t2 b ((childrenA d k.n root r).flatMap fun c =>
        (collSend k c [(off, data)] oColl).map fun p => { p with last := p.last && last })
      (if region = 100 ∧ (k.code = 1 ∨ k.code = 3 ∨ k.code = 5) ∧ fromParent k.treeRoot then forward k.treeRoot
       else if (region = 102 ∨ (region = 0 ∧ op = oColl)) ∧ fromParent 0 then forward 0
       else t2, .ok)

/-- The work area of a hedge holds a window offset. -/
def inWork (g : Hedge) (off : Nat) : Bool := g.workOff ≤ off && off < g.workOff + g.workLen

/-- A frame carries data of a collective: a COLL frame that is no clear token, or a REDUCE into the work area. -/
def collData (s : State) (h : NgHdr) : Bool :=
  h.type == tData && h.length != 0 &&
  match hedgeOf s h.hedgeId.toNat with
  | some g => h.opcode == oColl || (h.opcode == oReduce && inWork g h.offset.toNat)
  | none => false

/-- A collective's frame may not take effect yet: this node has not begun the COLL of its ordinal. It, and what follows it
in its pair, waits undelivered (R243, R245; log 27). -/
def collEarly (s : State) (h : NgHdr) : Bool :=
  collData s h &&
  match collUnderWay s h.hedgeId.toNat with
  | some (_, f) => match collOf s f with
    | some k => h.opcode == oColl && h.subop.toNat != k.hedge.ordinal.toNat % 256
    | none => false
  | none => true

/-- A frame of a collective that this node has begun takes effect. -/
def collFrame (s : State) (hedge : Nat) (f : Frame) : State × Status :=
  match collUnderWay s hedge with
  | some (b, x) =>
    match collOf s x with
    | some k =>
      let (t, st) := collLand s b k f.hdr.src f.hdr.opcode f.hdr.offset.toNat f.data f.hdr.last f.hdr.length.toNat
      (collAdvance collFuel t hedge, st)
    | none => (s, .ok)
  | none => (s, .ok)

/-- The work area zeroed (R256, R258). -/
def zeroWork (s : State) (h : Hedge) : State :=
  if h.workLen = 0 then s else wrN s (h.winBase + h.workOff) (List.replicate h.workLen 0)

/-- A COLL taken up: its work area zeroed, its own elements placed, clear tokens sent, then its phases. -/
def collRun (s : State) (b : Blk) (f : InFl) : State :=
  match collOf s f with
  | none => finish s b .OQ f.idx .verify
  | some k =>
    match touch s (k.send.runs ++ (k.counts.map Desc.runs).getD [] ++ (k.anchors.map Desc.runs).getD []) with
    | (t, some e) => finishFault (dropEntries t b f.idx) b .OQ f.idx e
    | (t, none) =>
      let c := t.ctx b 15
      let a : Active :=
        { idx := f.idx, remote := true, coll := true, hedge := k.hedge.id, outbound := true, narrow := false, high := 0,
          low := 0, rush := 0, rate := 0, ringBase := 0, ringSize := 0, todo := [], sent := [] }
      let t1 := t.setCtx b 15 { c with state := .finishing, ring := false, oq := true, aged := false, losses := 0,
                                       label := BitVec.ofNat 10 f.cmd.label, active := some a }
      let t2 := updInFl t1 b .OQ f.idx fun x => { x with started := true }
      collAdvance collFuel (sendClears (collOwn (zeroWork t2 k.hedge) k) b k) k.hedge.id

/-! ### STREAM_GRANT (R231) -/

/-- A COLL's next request may leave: its receiver's clear token for the ordinal has come, or the ordinal is 0 (R256). -/
def clearOk (s : State) (a : Active) : Bool :=
  match a.todo, hedgeOf s a.hedge with
  | r :: _, some h => h.ordinal == 0 || r.bytes == 0 || h.clears.contains (r.node, h.ordinal.toNat % 256)
  | _, _ => true

/-- Contexts whose COLL must wait for a clear token are not ready: their state shows closed while they wait. -/
def gateColl (s : State) (k : Block) : Block :=
  { k with ctxs := k.ctxs.mapV {} fun _ c =>
      match c.active with
      | some a =>
        if a.coll && (c.state == .opened || c.state == .closed) then
          { c with state := if clearOk s a then .opened else .closed }
        else sluice c
      | none => c }

/-- STREAM_GRANT: the sluices decide, and the ready context of least slack sends one request (R225, R226, R231, R232). No
context sends while the node is RESETTING (R290). -/
def grant (s : State) (b : Blk) : State :=
  if s.hold.state = .resetting then s
  else
    let s1 := s.setBlk b (gateColl s (s.blk b))
    match winner (s1.blk b) with
    | none => s1
    | some n =>
      let s2 := s1.setBlk b (lose (s1.blk b) n)
      let c := s2.ctx b n
      match c.active with
      | none => s2
      | some a =>
        match nextReq c a with
        | none => s2
        | some (r, rest) => if a.remote then sendRemote s2 b n c a r rest else sendLocal s2 b n c a r rest

/-- STREAM_GRANT. -/
def execStreamGrant (b : Blk) (s : State) : Host.Outcome State Fault Refusal := .next (grant s b)

end Sys2Proof.Machine
end

