-- ==== Sys2Proof/Machine/Send.lean ====
section
/-!
DEFINITION. How frames leave (02): acknowledgement fields, what a SEND, RETRY, BEST, GATEWAY or IDLE slot carries, the
cut's hold on frames (12 R306), losses and giving up; the rows LOSS_DETECTED and PEER_SILENT.
-/
namespace Sys2Proof.Machine

/-! ### Sequence numbers -/

/-- A sequence number lies before another, modulo 2^32. -/
def seqLt (a b : W32) : Bool := (b - a).toNat != 0 && (b - a).toNat < 2 ^ 31

/-- What a node may acknowledge to a peer: its next expected number, but no request whose answer with a status still
waits for its slot (R59, R242, R243). -/
def ackUpTo (s : State) (n : NodeId) : W32 :=
  s.fab.ready.foldl (fun (a : W32) o =>
    let h := o.frame.hdr
    let r : W32 := h.offset.setWidth 32
    if (h.opcode == oAtomicResp || h.opcode == oGetResp) && h.dst == n && h.subop != 0 && h.src == nodeId s && seqLt r a
    then r else a) (s.pair n).rxNext

/-- A frame with its acknowledgement fields and its place; in a SEND or RETRY slot a pending NAK goes out in the
acknowledgement's stead (R59, R66). -/
def address (s : State) (nakOk : Bool) (line : BitVec 4) (slot : Nat) (flow : Nat) (f : Frame) : Frame :=
  let k := s.pair f.hdr.dst
  let h := { f.hdr with flow := BitVec.ofNat 13 flow, slot := BitVec.ofNat 48 slot }
  let h1 := match (if nakOk then k.naks.head? else none) with
    | some (q, r) => { h with nak := true, ackValid := false, ackSeq := q, reason := r }
    | none => { h with nak := false, ackValid := true, ackSeq := ackUpTo s f.hdr.dst, reason := 0 }
  { f with port := line, at_ := BitVec.ofNat 48 slot, hdr := sealHdr h1 }

/-! ### MACsec (R64) -/

/-- The plan period of a hall slot: the number by which MACSEC_KEY names the boundary at which a sending association takes
effect (R64; log 32). -/
def periodNo (s : State) (slot : Nat) : Nat := slot / 2 ^ s.fab.k.toNat

/-- The association under which a line sends in a slot: the one installed last of those that have taken effect (R64). -/
def txAssoc (s : State) (line slot : Nat) : Option MacAssoc :=
  ((s.port (line / 2)).assocs.filter fun a => a.tx && a.line == line && decide (a.firstPeriod ≤ periodNo s slot)).getLast?

/-- A line holds an association for sending that has taken effect; with none it sends no Ngaiz frame (R64; 14 R361). -/
def mayEncrypt (s : State) (line slot : Nat) : Bool := (txAssoc s line slot).isSome

/-- A line holds an association for receiving (R64, R65). -/
def mayDecrypt (s : State) (line : Nat) : Bool := (s.port (line / 2)).assocs.any fun a => !a.tx && a.line == line

/-- The replay window of a port: 0 on a direct link, the NCR's on the others (R64). -/
def replayWindow (s : State) (p : Nat) : Nat := if (ncrPort s p).role = 0 then 0 else (ncrPort s p).replay.toNat

/-- The receiving association that a frame names, if its packet number is no replay (R64, R65). -/
def rxAssoc (s : State) (f : Frame) : Option MacAssoc :=
  let p := f.port.toNat / 2
  (s.port p).assocs.find? fun a => !a.tx && a.line == f.port.toNat && a.an == f.link.an.toNat &&
    decide (a.pn ≤ f.link.pn.toNat + replayWindow s p)

/-- The next packet number of an association of a port. -/
def setPn (s : State) (p : Nat) (a : MacAssoc) (pn : Nat) : State :=
  let k := s.port p
  s.setPort p { k with assocs := k.assocs.map fun x => if x = a then { a with pn := pn } else x }

/-- A frame on the wire, with its outer headers and under its line's association; the NAK it carries is no longer
pending. -/
def onWire (s : State) (pri : Nat) (f : Frame) : State :=
  let k := s.pair f.hdr.dst
  let s1 := if f.hdr.nak then s.setPair f.hdr.dst { k with naks := k.naks.tail } else s
  let line := f.port.toNat
  let (g, s2) := match txAssoc s1 line f.at_.toNat with
    | some a => (linkFor s1 pri a.an a.pn f, setPn s1 (line / 2) a (a.pn + 1))
    | none => (linkFor s1 pri 0 0 f, s1)
  { s2 with fab := { s2.fab with wire := s2.fab.wire ++ [g] } }

/-! ### FILLER (R52, R59; 12 R305) -/

/-- A FILLER toward a node: the step counter and the cut level in remote_offset. -/
def fillerTo (s : State) (dst : NodeId) : Frame :=
  mkFrame s { type := tFiller, opcode := 0, dst := dst,
              offset := s.job.step.toNat + (s.ckpt.level % 16) <<< 48 }

/-- A SEND or RETRY slot carries a FILLER. -/
def sendFiller (s : State) (line : BitVec 4) (slot flow : Nat) (dst : NodeId) : State :=
  onWire s 6 (address s true line slot flow (fillerTo s dst))

/-! ### The cut's hold on frames (12 R306) -/

/-- The interval in steps of the image's checkpoints, 0 for none. -/
def ckptEvery (s : State) : Nat := ((s.job.image.bind Image.stateset).map StateSet.k).getD 0

/-- A peer sends this node scheduled frames. -/
def directPeer (s : State) (n : NodeId) : Bool :=
  match activePlan s with
  | some p => p.rx.any fun r => r.src == n
  | none => false

/-- Data may leave toward a peer: no cut is under way, or both ends have reached its level. -/
def cutOpen (s : State) (n : NodeId) : Bool :=
  let c := s.ckpt
  let k := s.pair n
  if ckptEvery s = 0 ∨ c.cutN = 0 then true
  else if c.cutting then false
  else !directPeer s n || c.cutStep < k.peerStep || (c.cutStep == k.peerStep && c.depth ≤ k.peerLevel)

/-! ### A frame leaves for the first time, or again -/

/-- The frame awaits a response: a GET_REQ or an ATOMIC of this node. -/
def awaits (f : Frame) : Bool := f.hdr.type == tData && (f.hdr.opcode == oGetReq || f.hdr.opcode == oAtomic)

/-- A frame takes its pair's next sequence number, is kept until it is acknowledged, and its response awaited (R58). -/
def keepFrame (s : State) (o : OutFrame) (g : Frame) : State :=
  let k := s.pair g.hdr.dst
  let s1 := s.setPair g.hdr.dst { k with txNext := k.txNext + 1, unacked := k.unacked ++ [{ o with frame := g }] }
  if awaits g then
    { s1 with fab := { s1.fab with awaiting := s1.fab.awaiting ++
      [{ peer := g.hdr.dst, seq := g.hdr.seq, org := o.org, hedge := g.hdr.hedgeId.toNat }] } }
  else s1

/-- A ready frame leaves for the first time, and is kept. A sub-record that a gateway forwards keeps its own sequence
number (R63). -/
def launchFrame (s : State) (nakOk : Bool) (line : BitVec 4) (slot flow : Nat) (o : OutFrame) : State :=
  let f := o.frame
  if f.hdr.src != nodeId s then
    onWire s o.pri { f with port := line, at_ := BitVec.ofNat 48 slot,
                            hdr := sealHdr { f.hdr with nak := false, flow := BitVec.ofNat 13 flow, slot := BitVec.ofNat 48 slot } }
  else
    let g := address s nakOk line slot flow { f with hdr := { f.hdr with seq := (s.pair f.hdr.dst).txNext } }
    keepFrame (onWire s o.pri g) o g

/-- A lost frame leaves again with retry = 1 and priority 5, in a SEND or RETRY slot (R60). -/
def resendFrame (s : State) (line : BitVec 4) (slot flow : Nat) (o : OutFrame) : State :=
  let d := o.frame.hdr.dst
  let g := address s true line slot flow { o.frame with hdr := { o.frame.hdr with retry := true } }
  let s1 := onWire s 5 g
  let k1 := s1.pair d
  s1.setPair d { k1 with unacked := k1.unacked.map fun x =>
    if x.frame.hdr.seq == o.frame.hdr.seq then { x with frame := g, tries := x.tries + 1, lost := false, quiet := 0 } else x }

/-- The data bytes that a frame on a line may hold (R49). -/
def lineMax (s : State) (line : BitVec 4) : Nat := if portSplit s (portOf line) then 4096 else 8192

/-- The oldest frame toward a node that waits for a retransmission and fits a line; none while that node quarantines this
one (R69). -/
def lostFrame (s : State) (line : BitVec 4) (d : NodeId) : Option OutFrame :=
  let k := s.pair d
  if k.held69 then none else k.unacked.find? fun o => o.lost && decide (o.frame.data.length ≤ lineMax s line)

/-- The first ready frame that meets a test, taken out. -/
def takeReady (s : State) (p : OutFrame → Bool) : Option (OutFrame × State) :=
  (s.fab.ready.find? p).map fun o => (o, { s with fab := { s.fab with ready := dropFirst p s.fab.ready } })

/-- A new frame may take a sequence number toward a node: the window is open, no quarantine stands, no cut holds it back
and no reset has stopped new numbers (R58, R69; 11 R290, 12 R306). A SIGNATURE is no data of the cut. -/
def mayLaunch (s : State) (o : OutFrame) : Bool :=
  let d := o.frame.hdr.dst
  let k := s.pair d
  o.frame.hdr.src != nodeId s ||
    (k.unacked.length < 64 && !k.held69 && (cutOpen s d || o.frame.hdr.type == tSignature) &&
     s.hold.state != .resetting)

/-- A flow carries a frame: its destination; for a command's frame also its hedge and its feeding block; for a hart's
the flow declared for field cores (R51, R248). -/
def flowTakes (t : TxFlow) (o : OutFrame) : Bool :=
  (o.frame.hdr.type != tBulk) &&
  o.pri == 6 && o.frame.hdr.dst == t.dst &&
  (match o.org with
   | .cmd b _ _ _ => !t.core && t.region == b.region && t.block == b.block && t.hedge == o.frame.hdr.hedgeId
   | .hart _ _ => t.core
   | _ => !t.core)

/-- A SEND slot: a lost frame toward the flow's destination, else the flow's next ready frame, else a FILLER (R52, R56,
R60). -/
def slotSend (s : State) (line : BitVec 4) (slot : Nat) (t : TxFlow) : State :=
  let i := t.index.toNat
  match lostFrame s line t.dst with
  | some o => resendFrame s line slot i o
  | none => match takeReady s (fun o => flowTakes t o && decide (o.frame.data.length ≤ lineMax s line) && mayLaunch s o) with
    | some (o, s1) => launchFrame s1 true line slot i o
    | none => sendFiller s line slot i t.dst

/-- A RETRY slot: a lost frame toward the flow's destination, else a FILLER. -/
def slotRetry (s : State) (line : BitVec 4) (slot : Nat) (t : TxFlow) : State :=
  match lostFrame s line t.dst with
  | some o => resendFrame s line slot t.index.toNat o
  | none => sendFiller s line slot t.index.toNat t.dst

/-- The line that best-effort and CONTROL frames toward a node use: the first with a flow to it, else the first that is
up (log 32). -/
def lineTo (s : State) (d : NodeId) : Nat :=
  let up := fun (l : Nat) => (s.port (l / 2)).link == .up && (l % 2 == 0 || portSplit s (l / 2))
  let flows := ((activePlan s).map Plan.tx).getD []
  match (List.range 16).find? fun l => up l && flows.any fun t => t.port.toNat == l && t.dst == d with
  | some l => l
  | none => ((List.range 16).find? up).getD 0

/-- A CONTROL frame that may leave on a line: in scheduled service only (R46, 09 *Launch*). -/
def controlOn (s : State) (line : BitVec 4) (o : OutFrame) : Bool :=
  s.tim.service && o.frame.hdr.type == tControl && lineTo s o.frame.hdr.dst == line.toNat

/-- A CONTROL frame leaves, with an acknowledgement (R59); it stands outside the pair sequences. -/
def launchControl (s : State) (line : BitVec 4) (slot : Nat) (o : OutFrame) : State :=
  onWire s 5 (address s false line slot 0 o.frame)

/-- A BEST slot: a CONTROL frame, else the ready best-effort frame of highest priority, else nothing (R52). It carries one
frame at most (DESIGN CHOICE, log 63: the rule says frames and no number). -/
def slotBest (s : State) (line : BitVec 4) (slot flow : Nat) : State :=
  match takeReady s (controlOn s line) with
  | some (o, s1) => launchControl s1 line slot o
  | none =>
    let fits := fun (p : Nat) (o : OutFrame) =>
      o.pri == p && o.frame.hdr.type != tControl && lineTo s o.frame.hdr.dst == line.toNat &&
      decide (o.frame.data.length ≤ lineMax s line) && mayLaunch s o
    match [3, 2, 1, 0].findSome? fun p => takeReady s (fits p) with
    | some (o, s1) => launchFrame s1 false line slot flow o
    | none => s

/-- An IDLE slot sends nothing but a CONTROL frame (09 *Launch*). -/
def slotIdle (s : State) (line : BitVec 4) (slot : Nat) : State :=
  match takeReady s (controlOn s line) with
  | some (o, s1) => launchControl s1 line slot o
  | none => s

/-! ### Gateways (R63) -/

/-- The domain of a node ID. -/
def domainOf (s : State) (n : NodeId) : Option Nat :=
  s.ncr.domains.findIdx? fun d => d.1 ≤ n.toNat && n.toNat ≤ d.2

/-- The bytes of a sub-record: its header and its data. -/
def subRecord (f : Frame) : List Byte :=
  let h := { f.hdr with binned := true }
  headBytes h ++ leBytes 4 (headCheck h).toNat ++ f.data

/-- Bytes of the sub-records of frames. -/
def subBytes (l : List Frame) : Nat := (l.map fun f => (subRecord f).length).foldl (· + ·) 0

/-- The frames of a list, from its front, whose sub-records fit some bytes, at most `n`. -/
def binTake : Nat → Nat → List Frame → List Frame
  | 0, _, _ => []
  | _, _, [] => []
  | n + 1, room, f :: fs =>
    let b := (subRecord f).length
    if b ≤ room then f :: binTake n (room - b) fs else []

/-- Bytes of a bin. -/
def binSize : Nat := 0x4_0000

/-- The key of the bin of a gateway port for a domain. -/
def binKey (p d : Nat) : Nat := 64 * p + d

/-- The gateway port that serves a domain: that of the plan's first GATEWAY slot toward it. -/
def binPort (s : State) (d : Nat) : Nat :=
  ((activePlan s).bind fun p => p.entries.findSome? fun e =>
    match txOf e with
    | (4, i) => (txFlow p e.port i).bind fun t => if domainOf s t.dst = some d then some (portOf e.port) else none
    | _ => none).getD 0

/-- Frames that a full bin held back enter it as far as it has room, in order (R63). -/
def refillBin (s : State) (key : Nat) : State :=
  let bin := s.fab.bins.get [] key
  let wait := s.fab.feed.get [] key
  let part := binTake wait.length (binSize - subBytes bin) wait
  { s with fab := { s.fab with bins := SMap.set [] s.fab.bins key (bin ++ part)
                               feed := SMap.set [] s.fab.feed key (wait.drop part.length) } }

/-- A frame enters the bin of its domain behind those that wait for it; a full bin holds it back (R63). -/
def binIn (s : State) (d : Nat) (f : Frame) : State :=
  let key := binKey (binPort s d) d
  refillBin { s with fab := { s.fab with feed := SMap.set [] s.fab.feed key (s.fab.feed.get [] key ++ [f]) } } key

/-- This gateway's own ready frames for other domains take their sequence numbers and enter the bins. -/
def feedOwn (s : State) : State :=
  s.fab.ready.foldl (fun t o =>
    let h := o.frame.hdr
    match domainOf t h.dst with
    | some d =>
      if some d ≠ domainOf t (nodeId t) ∧ h.src = nodeId t ∧ (h.type = tData ∨ h.type = tSignature) ∧ mayLaunch t o = true then
        let g := address t false 0 0 0 { o.frame with hdr := { h with seq := (t.pair h.dst).txNext } }
        binIn (keepFrame { t with fab := { t.fab with ready := dropFirst (· == o) t.fab.ready } } o g) d g
      else t
    | none => t) s

/-- A GATEWAY slot carries the next part of its bin as a BULK frame, of what the bin held at the period's first such
slot. -/
def slotGateway (s : State) (line : BitVec 4) (slot : Nat) (t : TxFlow) : State :=
  match domainOf s t.dst with
  | none => s
  | some d =>
    let key := binKey (portOf line) d
    let sf := feedOwn s
    let bin := sf.fab.bins.get [] key
    let left := if sf.fab.binLeft.any (·.1 == key) then sf.fab.binLeft.get 0 key - 1 else bin.length
    let part := binTake left (lineMax sf line) bin
    let s0 := { sf with fab := { sf.fab with binLeft := sf.fab.binLeft.set 0 key (left + 1) } }
    let o : OutFrame := { frame := mkFrame s0 { type := tBulk, opcode := 0, dst := t.dst, last := true,
                                                data := part.flatMap subRecord } }
    if part.isEmpty || !mayLaunch s0 o then s0
    else
      let s1 := { s0 with fab := { s0.fab with
        bins := s0.fab.bins.set [] key (bin.drop part.length)
        binLeft := s0.fab.binLeft.set 0 key (left - part.length + 1) } }
      launchFrame (refillBin s1 key) false line slot t.index.toNat o

/-! ### Receive bookkeeping at a slot's end (R57, R59, R60) -/

/-- A NAK put among those to send, the earliest sequence first; a sequence is named once (R66, R69). -/
def insNak (q : W32) (r : Byte) : List (W32 × Byte) → List (W32 × Byte)
  | [] => [(q, r)]
  | (p, c) :: l => if p = q then (p, c) :: l else if seqLt q p then (q, r) :: (p, c) :: l else (p, c) :: insNak q r l

/-- A NAK to send. -/
def setNak (k : Pair) (q : W32) (r : Byte) : Pair := { k with naks := insNak q r k.naks }

/-- A return slot toward this node has passed: frames not acknowledged have seen one more (R60). -/
def returnPassed (k : Pair) : Pair :=
  { k with unacked := k.unacked.map fun o => if o.lost then o else { o with quiet := o.quiet + 1 } }

/-- The key of a receive entry's slot in the list of those in which something came. -/
def heardKey (slot : Nat) (line : BitVec 4) : Nat := 16 * slot + line.toNat

/-- One receive entry whose window closes with hall slot `n`: a source that was not heard in it at all is counted and
its loss noted. -/
def entryEnds (n : Nat) (s : State) (p : Plan) (e : PlanEntry) : State :=
  match expects p e, rxFlow p e.port (rxOf e).2 with
  | some d, some r =>
    let w := r.window.toNat
    if n < w + s.fab.since ∨ (n - w) % 2 ^ p.k ≠ e.slot then s
    else
      let k := returnPassed (s.pair d)
      let key := heardKey (n - w) e.port
      if key ∈ s.fab.heard then
        let t := s.setPair d { k with empty := 0, silent := false }
        { t with fab := { t.fab with heard := t.fab.heard.filter (· != key) } }
      else s.setPair d (setNak { k with empty := k.empty + 1 } k.rxNext 0x00)
  | _, _ => s

/-- The receive entries whose windows close with the slot that ends. -/
def slotEnds (s : State) (n : Nat) : State :=
  if !s.tim.service then s
  else match activePlan s with
    | none => s
    | some p => p.entries.foldl (fun t e => entryEnds n t p e) s

/-- A source's violations of the present period. -/
def violations (k : Pair) : Nat := k.viol.foldl (fun a e => if e.1 < 7 then a + e.2 else a) 0

/-- The ports on which a source's flows arrive. -/
def portsOf (s : State) (n : NodeId) : List Nat :=
  match activePlan s with
  | some p => ((p.rx.filter fun r => r.src == n).map fun r => portOf r.port).eraseDups
  | none => []

/-- Sources with sixteen violations are quarantined from this slot boundary on (R68, R69). -/
def quarantineDue (s : State) : State :=
  s.fab.pairs.foldl (fun t e =>
    let n : NodeId := BitVec.ofNat 20 e.1
    let k := t.pair n
    if 16 ≤ violations k && !k.quarantined then
      let ports := if (portsOf t n).isEmpty then k.violPort.toList else portsOf t n
      let t1 := t.setPair n { k with quarantined := true }
      let ps := ports.foldl (fun (m : SMap Port) (p : Nat) =>
        SMap.set ({} : Port) m p { SMap.get ({} : Port) m p with quarSrc := n }) t1.fab.ports
      let t2 := { t1 with fab := { t1.fab with ports := ps } }
      record (traceHw t2 2) .quarantine
        { unitKind := 6, unit := ports.headD 0
          detail := detailD (ports.headD 0) 0x09 0xFFFF n.toNat (nodeId s).toNat 0
            ((List.range 8).map fun i => k.viol.get 0 i) }
    else t) s

/-! ### What the lines do in a slot -/

/-- One line acts on its entry in a slot. -/
def lineActs (s : State) (p : Plan) (slot : Nat) (e : PlanEntry) : State :=
  if (s.port (portOf e.port)).link != .up || !mayEncrypt s e.port.toNat slot then s
  else
    let (a, f) := txOf e
    let flow := txFlow p e.port f
    match a, flow with
    | 1, some t => if s.tim.service then slotSend s e.port slot t else s
    | 2, some t => if s.tim.service then slotRetry s e.port slot t else s
    | 3, _ => slotBest s e.port slot f
    | 4, some t => if s.tim.service then slotGateway s e.port slot t else s
    | _, _ => slotIdle s e.port slot

/-- Lines act with no plan in force: CONTROL frames leave where no plan is active (09 *Launch*). -/
def planless (s : State) (slot : Nat) : State :=
  (List.range 16).foldl (fun t l =>
    if (t.port (l / 2)).link == .up && (l % 2 == 0 || portSplit t (l / 2)) && mayEncrypt t l slot then slotIdle t (BitVec.ofNat 4 l) slot else t) s

/-! ### Losses and giving up (R60, R61) -/

/-- The sender gives up on every unacknowledged frame of a pair: their commands end with the status, and the failure is
reported. The pair's sequence state is kept (R61, R69). -/
def giveUp (s : State) (n : NodeId) (st : Status) : State :=
  let k := s.pair n
  let gone := k.unacked
  let s1 := s.setPair n { k with unacked := [] }
  let left := s1.fab.awaiting.filter fun a => !(a.peer == n && gone.any fun o => o.frame.hdr.seq == a.seq)
  let s2 := { s1 with fab := { s1.fab with awaiting := left } }
  let s3 := gone.foldl (fun t o => failOrigin t o.org o.frame.hdr.opcode n st none) s2
  let ports := portsOf s3 n
  record s3 .peerFail
    { unitKind := 6, unit := ports.headD 0, status := st
      detail := detailD (ports.headD 0) 0 0xFFFF (nodeId s).toNat n.toNat
        ((gone.head?.map fun o => o.frame.hdr.seq.toNat).getD 0) ((List.range 8).map fun i => k.viol.get 0 i) }

/-- A frame is known lost: it is sent again, or, after its eighth retransmission, the sender gives up (R60, R61). -/
def frameLost (s : State) (n : NodeId) (q : W32) : State :=
  let k := s.pair n
  match k.unacked.find? fun o => o.frame.hdr.seq == q with
  | none => s
  | some o =>
    if 8 ≤ o.tries then giveUp s n .timeout
    else s.setPair n { k with unacked := k.unacked.map fun x =>
      if x.frame.hdr.seq == q then { x with lost := true, quiet := 0 } else x }

/-- LOSS_DETECTED: two return slots have passed without an acknowledgement that covers a frame (R60, R61). -/
def execLossDetected (peer : NodeId) (s : State) : Host.Outcome State Fault Refusal :=
  let due := (s.pair peer).unacked.filter fun o => 2 ≤ o.quiet && !o.lost
  .next (due.foldl (fun t o => frameLost t peer o.frame.hdr.seq) s)

/-- PEER_SILENT: eight consecutive expected slots brought nothing from a source; the job is to hold at its next step
boundary (R57, 09 R257). -/
def peerSilent (s : State) (port : Nat) (src : NodeId) : State :=
  let k := s.pair src
  let s1 := s.setPair src { k with silent := true }
  let s2 := record s1 .peerSilent
    { unitKind := 6, unit := port
      detail := detailD port 0 0xFFFF src.toNat (nodeId s).toNat k.rxNext.toNat ((List.range 8).map fun i => k.viol.get 0 i) }
  let s3 := enterHolding s2 .D (lastRec s2)
  if s3.hold.state = .run then s3
  else
    let l := s3.hold.silentPeers
    let l1 := if l.contains src then l else l ++ [src]
    { s3 with hold := { s3.hold with atBoundary := true, silentPeers := l1 } }

/-- PEER_SILENT. -/
def execPeerSilent (port : BitVec 3) (src : NodeId) (s : State) : Host.Outcome State Fault Refusal :=
  .next (if 8 ≤ (s.pair src).empty && !(s.pair src).silent then peerSilent s port.toNat src else s)

end Sys2Proof.Machine
end

