-- ==== Sys2Proof/Machine/Fabric.lean ====
section
/-!
DEFINITION. How frames arrive (02, 09): loss, the checks of Table 09.3, violations and quarantine, delivery in sequence,
acknowledgements and NAKs, and what each frame does; one row for each kind of frame.
-/
namespace Sys2Proof.Machine

/-! ### Where and when a frame is expected -/

/-- The receive action of a line in a hall slot, and its flow. -/
def rxAt (s : State) (line : BitVec 4) (slot : Nat) : Option (Nat × Option RxFlow) :=
  (activePlan s).bind fun p => (entryIn p line slot).map fun e => ((rxOf e).1, rxFlow p line (rxOf e).2)

/-- The receive entry whose window holds a hall slot: its own slot, its action and its flow. -/
def expectAt (s : State) (line : BitVec 4) (slot : Nat) : Option (Nat × Nat × RxFlow) :=
  (List.range 64).findSome? fun d =>
    if slot < d then none
    else match rxAt s line (slot - d) with
      | some (a, some r) => if (a = 1 ∨ a = 2 ∨ a = 4) ∧ d ≤ r.window.toNat then some (slot - d, a, r) else none
      | _ => none

/-- Something came in a receive entry's slot (R57). -/
def hear (s : State) (slot : Nat) (line : BitVec 4) : State :=
  if heardKey slot line ∈ s.fab.heard then s
  else { s with fab := { s.fab with heard := s.fab.heard ++ [heardKey slot line] } }

/-- The frame's slot is one that expects it (Table 09.3 order 4; log 32): the entry's kind, source, flow and window; a BEST
entry that names no flow takes DATA frames of every source. A sub-record that a gateway forwards keeps its original
source. -/
def slotOk (s : State) (f : Frame) : Bool :=
  let h := f.hdr
  let from_ := fun (r : RxFlow) =>
    (r.src == h.src || h.binned) && r.flow == h.flow && h.slot.toNat ≤ f.at_.toNat &&
    f.at_.toNat ≤ h.slot.toNat + r.window.toNat
  match rxAt s f.port h.slot.toNat with
  | some (1, some r) => from_ r && (h.type != tBulk || h.retry)
  | some (2, some r) => from_ r && (h.type == tFiller || h.retry)
  | some (4, some r) => from_ r && h.type == tBulk
  | some (3, some r) => from_ r && h.type == tData
  | some (3, none) => h.type == tData
  | _ => false

/-- A frame came in a BEST entry. -/
def inBest (s : State) (f : Frame) : Bool :=
  match rxAt s f.port f.hdr.slot.toNat with
  | some (3, _) => true
  | _ => false

/-! ### The checks of Table 09.3 -/

/-- The opcodes legal for a type (Table 02.6). -/
def opcodeOk (h : NgHdr) : Bool :=
  if h.type = tData then 1 ≤ h.opcode.toNat && h.opcode.toNat ≤ 8
  else if h.type = tControl then 0x10 ≤ h.opcode.toNat && h.opcode.toNat ≤ 0x12
  else h.opcode == 0

/-- A frame is malformed: its check, version, type or length, which its line limits (Table 02.10, R49). -/
def malformed (s : State) (f : Frame) : Bool :=
  let h := f.hdr
  h.check != headCheck h || h.version != 3 || 4 < h.type.toNat || lineMax s f.port < h.length.toNat ||
  (!(h.type == tData && h.opcode == oGetReq) && f.data.length < h.length.toNat)

/-- A sequence number lies in the receive window: at or up to 63 beyond the next expected. -/
def seqIn (k : Pair) (q : W32) : Bool := (q - k.rxNext).toNat < 64

/-- A sequence number lies below the next expected: a duplicate. -/
def seqOld (k : Pair) (q : W32) : Bool := seqLt q k.rxNext

/-- Responses name their request in remote_offset and have no window check. -/
def isResponse (h : NgHdr) : Bool := h.opcode == oGetResp || h.opcode == oAtomicResp

/-- The access bit of a hedge's window that an opcode needs (Table 09.1). -/
def accessBit (h : NgHdr) : Nat :=
  if h.opcode = oGetReq then 0 else if h.opcode = oAtomic then 2 else if h.opcode = oReduce then 3 else 1

/-- Check 8: the window and its access, or the control space (R241, 12 R312). -/
def windowOk (s : State) (h : NgHdr) : Bool :=
  isResponse h ||
  (if isCtrl h then ctrlAllows s h
   else match hedgeOf s h.hedgeId.toNat with
    | some g => g.state != 3 && h.offset.toNat + h.length.toNat ≤ g.winSize && g.access.testBit (accessBit h)
    | none => false)

/-- Check 7: the hedge, the sender's membership and the epoch. -/
def hedgeKnown (s : State) (h : NgHdr) : Bool :=
  match hedgeOf s h.hedgeId.toNat with
  | some g => g.members.contains h.src && h.opArg.toNat == g.epoch.toNat % 65536
  | none => false

/-- A collective frame is of the hedge's present ordinal or the next (R256). -/
def ordinalOk (s : State) (h : NgHdr) : Bool :=
  h.opcode != oColl || match hedgeOf s h.hedgeId.toNat with
    | some g => h.subop.toNat == g.ordinal.toNat % 256 || h.subop.toNat == (g.ordinal.toNat + 1) % 256
    | none => true

/-- Every line check matches its line. -/
def linesOk (f : Frame) : Bool := f.lchk == lineChecks f.data

/-- Checks 6 to 9 of a DATA frame; a SIGNATURE makes check 6 alone. -/
def jobChecks (s : State) (f : Frame) : Option Byte :=
  let h := f.hdr
  if s.job.phase ≠ .running ∨ h.jobId ≠ s.job.jobId then some 0x04
  else if h.type = tSignature then none
  else if !hedgeKnown s h then some 0x08
  else if !ordinalOk s h then some 0x02
  else if !windowOk s h then some 0x04
  else if !linesOk f then some 0x07
  else none

/-- The first check of orders 1 to 4 that fails, as its NAK reason. -/
def frontChecks (s : State) (f : Frame) : Option Byte :=
  if malformed s f then some 0x01
  else if !opcodeOk f.hdr then some 0x06
  else if f.hdr.dst ≠ nodeId s then some 0x05
  else if !slotOk s f then some 0x02
  else none

/-! ### Violations (R66 to R68) -/

/-- The FAB_VIOL field of a reason. -/
def violKey (r : Byte) : Nat :=
  match r.toNat with
  | 1 => 0 | 2 => 1 | 3 => 2 | 4 => 3 | 5 | 6 => 4 | 7 => 5 | 8 => 6
  | _ => 7

/-- A port's counter of FAB_VIOL rises, saturating at 255. -/
def portViol (s : State) (p key : Nat) : State :=
  let k := s.port p
  s.setPort p { k with viol := SMap.set 0 k.viol key (min 255 (k.viol.get 0 key + 1)) }

/-- A violation is counted at the port and against its source, and its NAK is to be sent. Without a source it is counted
at the port alone. -/
def violate (s : State) (p : Nat) (src : Option NodeId) (q : W32) (r : Byte) : State :=
  let s1 := portViol s p (violKey r)
  match src with
  | none => s1
  | some n =>
    let k := s1.pair n
    let k1 := { k with viol := SMap.set 0 k.viol (violKey r) (k.viol.get 0 (violKey r) + 1), violPort := some p }
    s1.setPair n (setNak k1 q r)

/-- The record of a failed check 6 or 8 (R241). -/
def windowReject (s : State) (f : Frame) : State :=
  record s .windowReject
    { unitKind := 6, unit := portOf f.port, npa := some f.hdr.offset.toNat
      detail := detailD (portOf f.port) 0x04 f.hdr.hedgeId.toNat f.hdr.src.toNat f.hdr.dst.toNat f.hdr.seq.toNat
        ((List.range 8).map fun i => (s.pair f.hdr.src).viol.get 0 i) }

/-! ### What frames do (R242 to R246) -/

/-- A response travels in the plan's flow toward its requester, else at priority 3 (R244, R248). -/
def respPri (s : State) (n : NodeId) : Nat :=
  if ((activePlan s).map Plan.tx).getD [] |>.any fun t => t.dst == n && !t.core then 6 else 3

/-- A response to a request: its data, or a status. -/
def respond (s : State) (h : NgHdr) (st : Status) (bs : List Byte) : State :=
  sendData s .nobody (respPri s h.src)
    { opcode := if h.opcode = oGetReq then oGetResp else oAtomicResp
      dst := h.src, hedge := h.hedgeId.toNat, offset := h.seq.toNat, subop := st.code, last := h.last,
      fmt := if h.opcode = oGetReq then 0 else h.fmt.toNat, data := bs }

/-- The last frame of a transfer has landed in an exchange buffer: its arrival counter rises by 1, as a pan ADD (R246). -/
def arrived (s : State) (npa : Nat) : State :=
  match ((s.job.image.map Image.bufs).getD []).find? fun b =>
      b.kind == 0 && b.access.testBit 2 && b.base ≤ npa && npa < b.base + b.size with
  | some b => (panAt s 0x01 .int64 .rne b.arrival 1 0).1
  | none => s

/-- A frame's data are written at an NPA, lines merged where they are written in part (R242, 07 R187). -/
def landBytes (s : State) (h : NgHdr) (npa : Nat) (bs : List Byte) : State :=
  match touch s (partialRuns [⟨npa, bs.length⟩]) with
  | (t, some (st, _, _)) => respond t h st []
  | (t, none) =>
    let t1 := wrN t npa bs
    if h.last then arrived t1 npa else t1

/-- A PUT to the control space (12 R312); a line of the mirror written in part is merged (07 R187). -/
def putCtrl (s : State) (h : NgHdr) (bs : List Byte) : State :=
  match ctrlOf h.offset.toNat with
  | .mirror g st o => landBytes s h (cellarNpa s.ncr.cellarGib st (stackBytes s + (2 + g) * quarterBytes s + o)) bs
  | .order | .notice _ =>
    if 4096 ≤ s.fab.control.length then respond s h .state []
    else { s with fab := { s.fab with control := s.fab.control ++ [(h.src, bs)] } }
  | _ => s

/-- A GET_REQ reads its window, or the restore report (R244). -/
def getApply (s : State) (h : NgHdr) (base : Nat) : State :=
  if isCtrl h then
    match ctrlOf h.offset.toNat with
    | .report o => respond s h .ok (slice (reportBytes s) o h.length.toNat)
    | _ => s
  else
    let a := base + h.offset.toNat
    match touch s [⟨a, h.length.toNat⟩] with
    | (t, some (st, _, _)) => respond t h st []
    | (t, none) => respond t h .ok (rdN t a h.length.toNat)

/-- An ATOMIC applies its operation to each element in order, and answers with the old values where they are asked for
(R193 to R195, R244; log 28). -/
def atomicApply (s : State) (h : NgHdr) (want : Bool) (base : Nat) (bs : List Byte) : State :=
  let f := Fmt.ofCode h.fmt.toNat
  let op := h.subop.toNat
  if !panAtomic op || !panTarget op f || (op == 0x10 && 3 < h.rnd.toNat) then respond s h .format []
  else
    let n := f.bytes
    let per := if op = 0x08 then 2 else 1
    let cnt := bs.length / (n * per)
    let a := base + h.offset.toNat
    match touch s [⟨a, n * cnt⟩] with
    | (t, some (st, _, _)) => respond t h st []
    | (t, none) =>
      let mode := ({ Ncw.of 0 with rnd := h.rnd.toNat } : Ncw).mode
      let (t1, olds) := (List.range cnt).foldl (fun (acc : State × List Byte) i =>
        let (u, old, _) := panAt acc.1 op f mode (a + n * i) (le bs (n * per * i) n) (le bs (n * per * i + n) n)
        (u, acc.2 ++ leBytes n old)) (t, [])
      respond t1 h .ok (if want then olds else [])

/-- Addends of a REDUCE for a brine target: they lie whole within one registered array, on its element boundaries, and
meet its entry as R198 says, or none is added. -/
def reduceBrine (s : State) (h : NgHdr) (tf xf : Fmt) (a : Nat) (bs : List Byte) : State :=
  let n := xf.bytes
  let cnt := bs.length / max 1 n
  let at_ := fun i => a + tf.bytes * i
  let ent := s.brine.find? fun e => e.desc.extent.1 ≤ (a : Int) && (at_ cnt : Int) - 1 ≤ e.desc.extent.2 &&
    (List.range (if tf = e.fmt then cnt else 1)).all fun i => (e.index (at_ i)).isSome
  match ent with
  | none => respond s h .state []
  | some e =>
    if e.sealed then respond s h .state []
    else if tf ≠ e.fmt ∨ brineOperand e.fmt xf = false then respond s h .format []
    else
      let anchors := (List.range cnt).flatMap fun i => e.anchorRun xf ((e.index (at_ i)).getD 0)
      match touch s (⟨a, tf.bytes * cnt⟩ :: anchors) with
      | (t, some (st, _, _)) => respond t h st []
      | (t, none) =>
        let t1 := (List.range cnt).foldl (fun (u : State) i => (brineAt u e (at_ i) xf (le bs (n * i) n)).1) t
        let key := (h.src.toNat, h.hedgeId.toNat)
        let left := e.remote.filter (· != key)
        updEnt t1 e { e with remote := if h.last then left else left ++ [key] }

/-- A REDUCE adds into an integer or float window, or into a registered brine array, as its target format says (R198,
R200, R244; log 28). -/
def reduceApply (s : State) (h : NgHdr) (xf : Fmt) (base : Nat) (bs : List Byte) : State :=
  let tf := Fmt.ofCode h.fmt.toNat
  let n := tf.bytes
  let a := base + h.offset.toNat
  if tf.isBrine then reduceBrine s h tf xf a bs
  else if xf ≠ tf ∨ panTarget 0x30 tf = false ∨ (tf.isFloat && 3 < h.rnd.toNat) = true then respond s h .format []
  else
    let cnt := bs.length / max 1 n
    match touch s [⟨a, n * cnt⟩] with
    | (t, some (st, _, _)) => respond t h st []
    | (t, none) =>
      let mode := ({ Ncw.of 0 with rnd := h.rnd.toNat } : Ncw).mode
      (List.range cnt).foldl (fun (u : State) i => (panAt u 0x30 tf mode (a + n * i) (le bs (n * i) n) 0).1) t

/-- A collective's frame: a clear token, or data (R246, R256). -/
def collApply (s : State) (h : NgHdr) (base : Nat) (f : Frame) : State :=
  let id := h.hedgeId.toNat
  if h.length = 0 ∧ h.opcode = oColl then
    updHedge s id fun g => { g with clears := g.clears ++ [(h.src, h.subop.toNat)] }
  else
    match collFrame s id f with
    | (t, .ok) => if h.last then arrived t (base + h.offset.toNat) else t
    | (t, st) => respond t h st []

/-- The response that a request of this node awaited, taken from those awaited. -/
def takeAwait (s : State) (n : NodeId) (q : W32) : Option (Await × State) :=
  let p := fun (a : Await) => a.peer == n && a.seq == q
  (s.fab.awaiting.find? p).map fun a => (a, { s with fab := { s.fab with awaiting := dropFirst p s.fab.awaiting } })

/-- A frame of this node ends with a status: it leaves the unacknowledged, and its origin hears (R67, R242). -/
def failFrame (s : State) (n : NodeId) (q : W32) (st : Status) : State :=
  let k := s.pair n
  match k.unacked.find? fun o => o.frame.hdr.seq == q with
  | none => s
  | some o =>
    let s1 := s.setPair n { k with unacked := k.unacked.filter fun x => x.frame.hdr.seq != q }
    let s2 := match takeAwait s1 n q with | some (_, t) => t | none => s1
    failOrigin s2 o.org o.frame.hdr.opcode n st none

/-- A response reaches its request (R242, R244, R249). -/
def respApply (s : State) (h : NgHdr) (bs : List Byte) : State :=
  let st := Status.ofCode h.subop.toNat
  let q : W32 := h.offset.setWidth 32
  match takeAwait s h.src q with
  | none => if st = .ok then s else failFrame s h.src q st
  | some (a, t) =>
    match a.org with
    | .cmd b qc idx no =>
      if st = .ok then
        match orgCmd t b qc idx with
        | none => t
        | some f =>
          if h.opcode = oGetResp then
            match orgCtx t b f with
            | some n => getLanded t b f n no bs
            | none => t
          else ratomOlds t b f no bs
      else failOrigin t a.org (if h.opcode = oGetResp then oGetReq else oAtomic) h.src st none
    | .hart x _ => hartAnswer t x st (BitVec.ofNat 128 (leNat bs))
    | .report => if st = .ok then reportCame t h.src bs else t
    | _ => t

/-- The values of a SIGNATURE, each with its number (R265). -/
def sigApply (s : State) (h : NgHdr) (bs : List Byte) : State :=
  let vs := (List.range (bs.length / 8)).map fun i => (h.offset.toNat + i, BitVec.ofNat 64 (le bs (8 * i) 8))
  { s with job := { s.job with sigs := s.job.sigs ++ vs, sigLast := s.job.sigLast || h.last } }

/-- Collectives that wait go on as far as what has landed lets them (R254). -/
def collsAdvance (s : State) : State := s.job.hedges.foldl (fun t g => collAdvance collFuel t g.id) s

/-- A DATA or SIGNATURE frame takes effect (R243). -/
def applyFrame (s : State) (f : Frame) : State :=
  let h := f.hdr
  let bs := f.data.take h.length.toNat
  let g := hedgeOf s h.hedgeId.toNat
  let base := (g.map Hedge.winBase).getD 0
  if h.type = tSignature then sigApply s h bs
  else if h.opcode = oPut ∨ h.opcode = oMcast then
    if isCtrl h then putCtrl s h bs else landBytes s h (base + h.offset.toNat) bs
  else if h.opcode = oGetReq then getApply s h base
  else if h.opcode = oAtomic then atomicApply s h f.olds base bs
  else if h.opcode = oReduce then
    if collData s h then collApply s h base f else reduceApply s h (Fmt.ofCode f.addend.toNat) base bs
  else if h.opcode = oColl then collApply s h base f
  else respApply s h bs

/-! ### Delivery in sequence (R58, R59, R67) -/

/-- Frames held behind a gap that has closed are delivered, and consumed numbers passed over, in order, up to a frame of a
collective that this node has not begun (R243, R245). -/
def drain (apply : State → Frame → State) : Nat → State → NodeId → State
  | 0, s, _ => s
  | n + 1, s, src =>
    let k := s.pair src
    let q := k.rxNext
    if q ∈ k.void then drain apply n (s.setPair src { k with rxNext := q + 1, void := k.void.filter (· != q) }) src
    else match k.held.find? fun f => f.hdr.seq == q with
      | some f =>
        if collEarly s f.hdr then s
        else
          let k1 := { k with rxNext := q + 1, held := k.held.filter fun x => x.hdr.seq != q }
          drain apply n (apply (s.setPair src k1) f) src
      | none => s

/-- NAKs of a loss that has since been made good are dropped. -/
def dropStale (k : Pair) : Pair := { k with naks := k.naks.filter fun e => !(e.2 == 0x00 && seqLt e.1 k.rxNext) }

/-- After a frame of a pair, what now follows without a gap. -/
def settlePair (apply : State → Frame → State) (s : State) (src : NodeId) : State :=
  let k := s.pair src
  let s1 := drain apply (k.held.length + k.void.length + 1) s src
  s1.setPair src (dropStale (s1.pair src))

/-- A sequence number is consumed as if its frame had been delivered (R67). -/
def consumeSeq (apply : State → Frame → State) (s : State) (src : NodeId) (q : W32) : State :=
  let k := s.pair src
  if seqOld k q || k.void.contains q then s
  else settlePair apply (s.setPair src { k with void := k.void ++ [q] }) src

/-- A correct frame: delivered, held behind a gap, or a duplicate (R59). -/
def deliver (apply : State → Frame → State) (s : State) (f : Frame) : State :=
  let src := f.hdr.src
  let q := f.hdr.seq
  let k := s.pair src
  if seqOld k q || k.void.contains q || (k.held.any fun x => x.hdr.seq == q) then s
  else settlePair apply (s.setPair src { k with held := k.held ++ [f] }) src

/-- A violating DATA or SIGNATURE frame: its reason is answered, and its number consumed where the sender does not send
it again (R66, R67). -/
def reject (apply : State → Frame → State) (s : State) (f : Frame) (r : Byte) : State :=
  let src := f.hdr.src
  let q := f.hdr.seq
  let s1 := violate s (portOf f.port) (some src) q r
  if r = 0x07 then
    let k := s1.pair src
    if k.lineNak.contains q then
      consumeSeq apply (s1.setPair src { k with lineNak := k.lineNak.filter (· != q) }) src q
    else s1.setPair src { k with lineNak := k.lineNak ++ [q] }
  else if r = 0x03 ∨ r = 0x04 ∨ r = 0x05 ∨ r = 0x06 ∨ r = 0x08 then
    consumeSeq apply (if r = 0x04 then windowReject s1 f else s1) src q
  else s1

/-- Orders 5 to 9 and delivery of a DATA or SIGNATURE frame. -/
def sequenced (apply : State → Frame → State) (s : State) (f : Frame) : State :=
  let k := s.pair f.hdr.src
  if seqOld k f.hdr.seq then s
  else if !seqIn k f.hdr.seq then reject apply s f 0x03
  else match jobChecks s f with
    | some r => reject apply s f r
    | none => deliver apply s f

/-! ### Acknowledgements (R59 to R61, R66 to R69) -/

/-- Every unacknowledged frame below a sequence number is acknowledged. -/
def acked (s : State) (n : NodeId) (q : W32) : State :=
  let k := s.pair n
  let (gone, left) := k.unacked.partition fun o => seqLt o.frame.hdr.seq q
  gone.foldl (fun t o => ackOrigin t o.org o.frame.hdr.opcode) (s.setPair n { k with unacked := left })

/-- A NAK is acted on (Table 02.10). -/
def naked (s : State) (n : NodeId) (q : W32) (r : Byte) : State :=
  let k := s.pair n
  match r.toNat with
  | 0 | 1 | 2 => frameLost s n q
  | 3 => failFrame s n q .seq
  | 4 => failFrame s n q .job
  | 5 | 6 => failFrame s n q .check
  | 7 =>
    if k.unacked.any fun o => o.frame.hdr.seq == q && o.lineTry then failFrame s n q .check
    else
      let l := k.unacked.map fun o => if o.frame.hdr.seq == q then { o with lineTry := true } else o
      frameLost (s.setPair n { k with unacked := l }) n q
  | 8 => failFrame s n q .aborted
  | 9 =>
    let s1 := s.setPair n { k with held69 := true }
    if k.prev69 then giveUp s1 n .quarantine else s1
  | _ => s

/-- The acknowledgement fields of a frame (Table 02.5). -/
def takeAck (s : State) (h : NgHdr) : State :=
  if h.nak then naked s h.src h.ackSeq h.reason
  else if h.ackValid then acked s h.src h.ackSeq
  else s

/-! ### Gateways (R63) -/

/-- A gateway port of the node. -/
def gatewayRole (s : State) (p : Nat) : Bool := (ncrPort s p).role == 2

/-- A request for another domain that this node, its domain's gateway, puts into a bin: the domain. -/
def forBin (s : State) (f : Frame) : Option Nat :=
  if (f.hdr.type = tData ∨ f.hdr.type = tSignature) ∧ f.hdr.dst ≠ nodeId s ∧ (List.range 8).any (gatewayRole s) = true then
    (domainOf s f.hdr.dst).filter fun d => some d != domainOf s (nodeId s)
  else none

/-- The sub-records that the data of a BULK frame spell: a header and its data in whole lines, one after another, up to
the zeros that fill the last line. Their line checks are those of the data as they came. -/
def subsOf (f : Frame) : Nat → List Byte → List Frame
  | 0, _ => []
  | n + 1, b =>
    let h := headOf b
    let len := if h.type = tData ∧ h.opcode = oGetReq then 0 else cdiv h.length.toNat 64 * 64
    if h.version = 3 ∧ 48 + len ≤ b.length then
      let d := (b.drop 48).take len
      { f with hdr := h, data := d, lchk := lineChecks d } :: subsOf f n (b.drop (48 + len))
    else []

/-- The sub-records of a BULK frame: those for this node take effect in their original pair, the others go on in this
node's SEND slots (R63). -/
def bulkApply (apply : State → Frame → State) (s : State) (f : Frame) : State :=
  (subsOf f (f.data.length / 48) f.data).foldl (fun (t : State) (g : Frame) =>
    if malformed t g then t
    else if g.hdr.dst = nodeId t then takeAck (sequenced apply t g) g.hdr
    else enqueue t { frame := g }) s

/-- A frame of any sequenced type takes effect; a BULK frame inside a BULK frame is none. -/
def applyN : Nat → State → Frame → State
  | 0, s, f => if f.hdr.type = tBulk then s else applyFrame s f
  | n + 1, s, f => if f.hdr.type = tBulk then bulkApply (applyN n) s f else applyFrame s f

/-- A frame of any sequenced type takes effect. -/
def applyAny : State → Frame → State := applyN 2

/-! ### A frame arrives -/

/-- The source that a frame is counted against: its header's, or the one its slot expects (R66). -/
def blameOf (s : State) (f : Frame) : Option NodeId :=
  if f.hdr.check = headCheck f.hdr then some f.hdr.src
  else (expectAt s f.port f.at_.toNat).map fun e => e.2.2.src

/-- Nothing of a frame is taken: loss of what the slot it came in expected (R59). -/
def noteLoss (s : State) (f : Frame) : State :=
  match expectAt s f.port f.at_.toNat with
  | some (_, _, r) => s.setPair r.src (setNak (s.pair r.src) (s.pair r.src).rxNext 0x00)
  | none => s

/-- A frame that fails FCS, or comes without good MACsec, is dropped: loss of what its slot expected (R59, R65). -/
def dropLoss (s : State) (f : Frame) : State :=
  let p := portOf f.port
  noteLoss (if f.fcsOk then
      let k := s.port p
      s.setPort p { k with macDrops := k.macDrops + 1 }
    else s) f

/-- A frame that uses an option outside Table 02.1 is discarded and counted (R42). -/
def dropOther (s : State) (p : Nat) : State :=
  let k := s.port p
  s.setPort p { k with otherDrops := k.otherDrops + 1 }

/-- MACsec vouches for a frame: its ICV is good, and a receiving association takes it as no replay (R64, R65). -/
def macGood (s : State) (f : Frame) : Bool := f.macsec == .good && (rxAssoc s f).isSome

/-- The association that took a frame expects a later packet number from now on (R64). -/
def notePn (s : State) (f : Frame) : State :=
  match rxAssoc s f with
  | some a => setPn s (portOf f.port) a (max a.pn (f.link.pn.toNat + 1))
  | none => s

/-- A frame came in a slot: the receive entry that it names, if it can be trusted and that entry expects it, else the entry
whose window it came in, has been heard; and its source has not been silent (R57). -/
def hearFrame (s : State) (f : Frame) : State :=
  let trusted := f.fcsOk && macGood s f && linkOk s f && f.hdr.check == headCheck f.hdr
  let s1 := if trusted && slotOk s f then hear s f.hdr.slot.toNat f.port
    else match expectAt s f.port f.at_.toNat with
      | some (i, _, _) => hear s i f.port
      | none => s
  if trusted then s1.setPair f.hdr.src { s1.pair f.hdr.src with empty := 0 } else s1

/-- What a frame of a given type does once it has passed orders 1 to 4. -/
def passOn (s : State) (f : Frame) : State :=
  let h := f.hdr
  if h.type = tFiller then
    let k := s.pair h.src
    s.setPair h.src { k with peerStep := h.offset.setWidth 48, peerLevel := nfld h.offset.toNat 48 4 }
  else if h.type = tBulk then
    let k := s.pair h.src
    if seqOld k h.seq then s
    else if !seqIn k h.seq then reject applyAny s f 0x03
    else if !linesOk f then reject applyAny s f 0x07
    else deliver applyAny s f
  else sequenced applyAny s f

/-- A frame of a source in quarantine is dropped and counted, and one NAK a return slot answers it (R68). -/
def dropQuarantined (s : State) (p : Nat) (n : NodeId) : State :=
  (portViol s p 7).setPair n (setNak (s.pair n) (s.pair n).rxNext 0x09)

/-- A frame that has passed FCS, MACsec and the outer headers (Table 09.3). -/
def judgeFrame (s0 : State) (f : Frame) : State :=
  let src := blameOf s0 f
  let p := portOf f.port
  match (src.filter fun n => (s0.pair n).quarantined), forBin s0 f with
  | some n, _ => dropQuarantined s0 p n
  | none, some d =>
    if !malformed s0 f && opcodeOk f.hdr && slotOk s0 f then binIn s0 d f
    else violate s0 p src f.hdr.seq ((frontChecks s0 { f with hdr := { f.hdr with dst := nodeId s0 } }).getD 0x02)
  | none, none =>
    match frontChecks s0 f with
    | some r =>
      let whole := f.hdr.check == headCheck f.hdr
      if !whole && inBest s0 { f with hdr := { f.hdr with slot := f.at_ } } && (expectAt s0 f.port f.at_.toNat).isNone then
        violate s0 p none 0 r
      else
        let q := if whole then f.hdr.seq else ((src.map fun n => (s0.pair n).rxNext).getD 0)
        let t := violate s0 p src q r
        if r = 0x05 ∨ r = 0x06 then consumeSeq applyAny t f.hdr.src f.hdr.seq else t
    | none => collsAdvance (takeAck (passOn s0 f) f.hdr)

/-- A frame arrives (R42, R46, R57 to R69, R241 to R246). MAC control and other frames that are no IPv6 are counted and
ignored. -/
def receive (s : State) (f : Frame) : State :=
  let p := portOf f.port
  if f.fcsOk && f.link.etherType != 0x86DD then dropOther s p
  else
    let s0 := hearFrame s f
    if !s.tim.service && !inBest s f then s0
    else if !f.fcsOk || !macGood s0 f then dropLoss s0 f
    else
      let s1 := notePn s0 f
      if !linkOk s1 f then noteLoss (dropOther s1 p) f else judgeFrame s1 f

/-- Whether a frame is an event of the row of a type and opcode: it is of that kind, or so broken that it is of none. -/
def ofRow (s : State) (f : Frame) (type : BitVec 4) (op : Byte) : Bool :=
  let h := f.hdr
  (h.type == type && h.opcode == op) || !f.fcsOk || f.macsec != .good || !linkOk s f || malformed s f || !opcodeOk h

/-- The row of a kind of frame. -/
def frameRow (type : BitVec 4) (op : Byte) (f : Frame) (s : State) : Host.Outcome State Fault Refusal :=
  .next (if ofRow s f type op && s.host.node != .halted then receive s f else s)

/-- FILLER. -/
def execFiller (f : Frame) (s : State) : Host.Outcome State Fault Refusal := frameRow tFiller 0 f s

/-- PUT_FRAME. -/
def execPutFrame (f : Frame) (s : State) : Host.Outcome State Fault Refusal := frameRow tData oPut f s

/-- GET_REQ. -/
def execGetReq (f : Frame) (s : State) : Host.Outcome State Fault Refusal := frameRow tData oGetReq f s

/-- GET_RESP. -/
def execGetResp (f : Frame) (s : State) : Host.Outcome State Fault Refusal := frameRow tData oGetResp f s

/-- ATOMIC. -/
def execAtomic (f : Frame) (s : State) : Host.Outcome State Fault Refusal := frameRow tData oAtomic f s

/-- ATOMIC_RESP. -/
def execAtomicResp (f : Frame) (s : State) : Host.Outcome State Fault Refusal := frameRow tData oAtomicResp f s

/-- REDUCE. -/
def execReduce (f : Frame) (s : State) : Host.Outcome State Fault Refusal := frameRow tData oReduce f s

/-- MCAST_FRAME. -/
def execMcastFrame (f : Frame) (s : State) : Host.Outcome State Fault Refusal := frameRow tData oMcast f s

/-- COLL_FRAME. -/
def execCollFrame (f : Frame) (s : State) : Host.Outcome State Fault Refusal := frameRow tData oColl f s

/-- SIGNATURE. -/
def execSignature (f : Frame) (s : State) : Host.Outcome State Fault Refusal := frameRow tSignature 0 f s

/-- BULK: the sub-records are those that its data spell; data that spell no such records make it malformed (R63). -/
def execBulk (f : Frame) (subs : List Frame) (s : State) : Host.Outcome State Fault Refusal :=
  let spelt := padLines (subs.flatMap subRecord) == f.data
  let g := if spelt then f else { f with hdr := { f.hdr with version := 0 } }
  .next (if ofRow s g tBulk 0 && s.host.node != .halted then receive s g else s)

/-! ### Frames toward the node itself (R240) -/

/-- A frame toward this node goes through the local fabric die as if it came from another: it takes its sequence number
and its effect, and is acknowledged or answered. -/
def selfFrame (s : State) (o : OutFrame) : State :=
  let me := nodeId s
  let g := { o.frame with hdr := sealHdr { o.frame.hdr with seq := (s.pair me).txNext } }
  let s1 := collsAdvance (sequenced applyAny (keepFrame s o g) g)
  let k := s1.pair me
  let s2 := match k.naks with
    | (q, r) :: _ => naked (s1.setPair me { k with naks := [] }) me q r
    | [] => s1
  acked s2 me (ackUpTo s2 me)

/-- The ready frames toward this node that may take a sequence number, in order. -/
def selfFrames (s : State) : State :=
  s.fab.ready.foldl (fun t o =>
    if o.frame.hdr.dst = nodeId t ∧ o.frame.hdr.src = nodeId t ∧ o.frame.hdr.type ≠ tControl ∧ mayLaunch t o = true then
      selfFrame { t with fab := { t.fab with ready := dropFirst (· == o) t.fab.ready } } o
    else t) s

/-! ### COLL (R253 to R256) -/

/-- Every pair goes on as far as what it holds lets it. -/
def settleAll (s : State) : State := s.fab.pairs.foldl (fun t e => settlePair applyAny t (BitVec.ofNat 20 e.1)) s

/-- COLL: taken up once no other COLL of its hedge is under way; frames that waited for it then take effect (R253 to
R256). -/
def execColl (b : Blk) (s : State) : Host.Outcome State Fault Refusal :=
  .next (settleAll (engine s b .OQ 0x56 fun s f =>
    if (collUnderWay s (fld f.cmd.w3 0 16)).isSome then s else collRun s b f))

end Sys2Proof.Machine
end

