-- ==== Sys2Proof/Machine/Espalier.lean ====
section
/-!
DEFINITION. The espalier in time (02): plan periods, activation, arming, and the rows SLOT_BOUNDARY,
PLAN_PERIOD_BOUNDARY, PLAN_ACTIVATION, ARM, CANCEL and SIGNATURE_TIMEOUT.
-/
namespace Sys2Proof.Machine

/-! ### Plan periods (R45, R63, R68, R69) -/

/-- What a plan-period boundary does to every pair: violations are counted anew, quarantines end, and a sender held by
one may retry (R68, R69). -/
def pairPeriod (k : Pair) : Pair := { k with viol := [], quarantined := false, prev69 := k.held69, held69 := false }

/-- The node may return to scheduled service: LOCKED has held for 1 s (R45). -/
def mayReturn (s : State) : Bool :=
  !s.tim.service && s.tim.state == .locked && (match s.tim.lockedSince with
    | some t => t + 1_000_000_000 ≤ s.tim.now
    | none => false)

/-- A plan period ends. -/
def periodEnds (s : State) : State :=
  let stop := s.fab.stopping
  let s1 := { s with fab := { s.fab with
    pairs := s.fab.pairs.mapV {} fun _ k => pairPeriod k
    binLeft := []
    espState := if stop then (if s.fab.armed.isSome then .armed else .none) else s.fab.espState
    stopping := false } }
  if mayReturn s1 then enterService s1 else s1

/-- The slots' count of whole periods of the active plan by now. -/
def periodsBy (s : State) : Nat := (hallSlot s - s.fab.since) / 2 ^ s.fab.k.toNat

/-- A plan-period boundary has come that has not been taken. -/
def periodDue (s : State) : Bool := (activePlan s).isSome && periodsBy s % 2 ^ 32 != s.fab.periods.toNat

/-- A plan-period boundary of the active plan. -/
def periodBoundary (s : State) : State :=
  if periodDue s then
    periodEnds { s with fab := { s.fab with periods := BitVec.ofNat 32 (periodsBy s) } }
  else s

/-! ### Activation (R54, R55) -/

/-- At its epoch an armed bank becomes active on every port of both dies. Sequence windows, retransmissions and bins
carry across; the epoch is a period boundary (R55, R69). Measurement 6 is taken (14 R359). What became active is the plan
that the bank holds then: a PLAN_WRITE after the arm leaves the arm standing, even where the new plan was answered VERIFY
(DESIGN CHOICE, log 64). -/
def activate (s : State) : State :=
  match s.fab.armed with
  | some (b, slot) =>
    if hallSlot s < slot then s
    else
      let p := (s.bank b).plan
      let s1 := periodEnds { s with fab := { s.fab with stopping := false } }
      let s2 := { s1 with
        fab := { s1.fab with
          activeBank := b, espState := if s1.tim.service then .running else .suspended
          k := BitVec.ofNat 5 ((p.map Plan.k).getD 0), periods := 0, since := slot, armed := none } }
      traceHw { s2 with sec := { s2.sec with meas := SMap.set [] s2.sec.meas 6 (planDigest s2) } } 1
  | none => s

/-- The cause for which an arm is refused (R54), 0 for none: of several that hold at once, the first in R54's list
(DESIGN CHOICE, log 64). -/
def armCause (s : State) (slot : Nat) (b : Bool) : Nat :=
  let active := (activePlan s).isSome
  let whole := fun (k : Nat) => slot % 2 ^ k == 0
  if s.tim.state ≠ .locked ∧ s.tim.state ≠ .holdover then 1
  else if slot < hallSlot s + 15625 then 2
  else if !((((s.bank b).plan).map fun p => whole p.k).getD true) || (active && !whole s.fab.k.toNat) then 3
  else if active ∧ b = s.fab.activeBank then 4
  else if !(s.bank b).valid then 5
  else 0

/-- ESP_CTRL.arm: arms the activation that ESP_CTRL names, its bit set, or records why not, with no other effect (R54;
log 51). -/
def arm (s : State) : State :=
  let f := s.fab
  let c := armCause s f.epochSlot.toNat f.ctrlBank
  if c = 0 then
    { s with fab := { f with
      ctrlArm := true, armed := some (f.ctrlBank, f.epochSlot.toNat)
      espState := if f.espState = .none then .armed else f.espState } }
  else { s with fab := { f with refusal := BitVec.ofNat 4 c } }

/-- ESP_CTRL.cancel: cancels an armed activation that has not yet taken effect, its bit set (log 51). -/
def cancelArm (s : State) : State :=
  { s with fab := { s.fab with
    ctrlCancel := true, armed := none, espState := if s.fab.espState = .armed then .none else s.fab.espState } }

/-! ### The time error in time (R45) -/

/-- The states that give service, Table 02.2. -/
def givesService : TimState → Bool
  | .locked | .holdover => true
  | _ => false

/-- In HOLDOVER time_err grows from its value at the beginning by the drift bound of the NCR (R45). -/
def drift (t : Timing) (psPerS : Nat) : Timing :=
  match t.state, t.holdFrom with
  | .holdover, some (h, e) =>
    let d : Int := ((t.hall - h) * psPerS / 1_000_000_000 : Nat)
    { t with errPs := if e < 0 then e - d else e + d }
  | _, _ => t

/-- time_err is beyond 8 ns: the unit is OUT, scheduled service is left, and PPS_OUT stays low (R45; 16 R396). -/
def timeOut (s : State) : State :=
  let s1 := leaveService { s with tim := { s.tim with state := .out, lockedSince := none, holdFrom := none, goodSince := none } }
  { s1 with pwr := { s1.pwr with ppsOut := false } }

/-! ### The rows -/

/-- SLOT_BOUNDARY: hall time comes to the next slot's boundary; the slot that ends is accounted for, an armed bank takes
effect at its epoch, a period ends, service ends where time_err is beyond 8 ns, and every line acts on its entry (R45,
R52, R55, R57, R68; log 1), with frames toward the node itself taken through (R240). With no plan active there is no
plan-period boundary at which service could return: it returns at the slot boundary (DESIGN CHOICE, log 65). A node-fatal
node sends nothing (01 R31). -/
def slotBoundary (s : State) : State :=
  let n := hallSlot s + 1
  let d := n * 64 - s.tim.hall
  let s1 := quarantineDue (slotEnds s (hallSlot s))
  let s2 := tick { s1 with fab := { s1.fab with wire := [], nextSlot := n + 1 } } d
  let s2 := { s2 with tim := drift s2.tim s2.ncr.holdoverPs }
  let s2 := periodBoundary (activate s2)
  let s2 := if (activePlan s2).isNone ∧ mayReturn s2 = true then enterService s2 else s2
  let s3 := if givesService s2.tim.state ∧ 8000 < s2.tim.errPs.natAbs then timeOut s2 else s2
  if s3.host.node = .halted then s3
  else
    let s4 := selfFrames s3
    match activePlan s4 with
    | some p => (slotEntries p (n % 2 ^ p.k)).foldl (fun t e => lineActs t p n e) s4
    | none => planless s4 n

/-- SLOT_BOUNDARY. -/
def execSlotBoundary (s : State) : Host.Outcome State Fault Refusal := .next (slotBoundary s)

/-- PLAN_PERIOD_BOUNDARY (R45, R68). -/
def execPlanPeriodBoundary (s : State) : Host.Outcome State Fault Refusal := .next (periodBoundary s)

/-- PLAN_ACTIVATION (R55). -/
def execPlanActivation (s : State) : Host.Outcome State Fault Refusal := .next (activate s)

/-- ARM: ESP_CTRL.arm (R54). -/
def execArm (s : State) : Host.Outcome State Fault Refusal := .next (arm s)

/-- CANCEL: ESP_CTRL.cancel (R54). -/
def execCancel (s : State) : Host.Outcome State Fault Refusal := .next (cancelArm s)

/-- The twin of this node in a pleach: the other member of hedge 0 (09 R263). -/
def twin (s : State) : Option NodeId := if pleachJob s then (members0 s).find? (· != nodeId s) else none

/-- SIGNATURE_TIMEOUT: 128 slots after the boundary the twin's signatures have not all come; it is handled as a silent
peer (09 R265). -/
def execSignatureTimeout (s : State) : Host.Outcome State Fault Refusal :=
  .next (match s.job.sigAt, twin s with
    | some slot, some n =>
      if slot + 128 ≤ hallSlot s ∧ s.job.sigLast = false ∧ (s.pair n).silent = false then
        peerSilent s ((portsOf s n).headD 0) n
      else s
    | _, _ => s)

end Sys2Proof.Machine
end

