-- ==== Sys2Proof/Machine/Record.lean ====
section
/-!
DEFINITION. The node-state record (12 R302) as bytes and back. The spec names what it holds; its layout is the model's
(log 18).
-/
namespace Sys2Proof.Machine

/-- What the record keeps of a queue: whether its block was live, its resume index, A0 to A15 and its loop levels. -/
structure QueueRec where
  live : Bool
  pc : Nat
  aregs : List W64
  loops : List LoopLevel
deriving DecidableEq, Repr, Inhabited

/-- What the record keeps of a block. -/
structure BlockRec where
  queues : List QueueRec
  flags : BitVec 16
  ev : List Nat
  pats : List (Option Pat)
deriving DecidableEq, Repr, Inhabited

/-- The node-state record. -/
structure NodeRec where
  step : Nat
  blocks : List BlockRec
  panFlags : List (BitVec 4)
  brine : List BrineEnt
  hedges : List (Nat × Nat × Nat)
  failed : List NodeId
  pairs : List (Nat × W32 × W32)
  digest : List Byte
  k : Nat
deriving DecidableEq, Repr, Inhabited

/-! ### What is recorded -/

/-- A queue as the record keeps it. -/
def queueRec (live : Bool) (u : Queue) : QueueRec :=
  { live := live, pc := u.pc, aregs := (List.range 16).map fun i => u.aregs.get 0 i, loops := u.loops.take 4 }

/-- A block as the record keeps it. -/
def blockRec (s : State) (b : Blk) : BlockRec :=
  let k := s.blk b
  { queues := Qc.all.map fun q => queueRec (blockLive s b) (k.queue q), flags := k.flags,
    ev := (List.range 30).map fun i => k.ev.get 0 i,
    pats := (List.range 64).map fun i => (k.slv.pats.find? fun e => e.1 == i).map Prod.snd }

/-- The node-state record of R302, now. -/
def nodeRec (s : State) : NodeRec :=
  { step := s.job.step.toNat, blocks := (gradeBlocks s).map (blockRec s),
    panFlags := (List.range 12).map fun i => (s.stack i).flags, brine := s.brine,
    hedges := s.job.hedges.map fun h => (h.id, h.epoch.toNat, h.ordinal.toNat), failed := s.job.failedSet,
    pairs := s.fab.pairs.map fun e => (e.1, e.2.txNext, e.2.rxNext), digest := planDigest s, k := s.fab.k.toNat }

/-! ### Bytes -/

/-- A list in `n` places of fixed size, the missing ones zero. -/
def places {α : Type} (n size : Nat) (f : α → List Byte) (l : List α) : List Byte :=
  (List.range n).flatMap fun i => slice ((l[i]?.map f).getD []) 0 size

/-- Places read back. -/
def readPlaces {α : Type} (n size : Nat) (f : List Byte → α) (bs : List Byte) : List α :=
  (List.range n).map fun i => f (slice bs (i * size) size)

/-- A word. -/
def wordAt (bs : List Byte) : W64 := BitVec.ofNat 64 (leNat bs)

/-- A loop level, 16 bytes. -/
def loopBytes (l : LoopLevel) : List Byte := leBytes 4 l.start ++ leBytes 4 l.len ++ leBytes 4 l.count ++ leBytes 4 l.running

/-- A loop level read back. -/
def loopOf (b : List Byte) : LoopLevel := ⟨le b 0 4, le b 4 4, le b 8 4, le b 12 4⟩

/-- A queue, 198 bytes. -/
def QueueRec.bytes (u : QueueRec) : List Byte :=
  leBytes 1 (bn u.live) ++ leBytes 4 u.pc ++ places 16 8 (fun w => leBytes 8 w.toNat) u.aregs ++
  leBytes 1 u.loops.length ++ places 4 16 loopBytes u.loops

/-- A queue read back. -/
def queueOf (b : List Byte) : QueueRec :=
  { live := le b 0 1 == 1, pc := le b 1 4, aregs := readPlaces 16 8 wordAt (b.drop 5),
    loops := readPlaces (le b 133 1) 16 loopOf (b.drop 134) }

/-- A pattern slot, 1 539 bytes. -/
def patBytes (p : Option Pat) : List Byte :=
  let ws := fun (l : List W64) => places 64 8 (fun w => leBytes 8 w.toNat) l
  match p with
  | some x => [1] ++ leBytes 1 x.n ++ leBytes 1 (bn x.symmetric) ++ ws x.s ++ ws x.f ++ ws x.c
  | none => []

/-- A pattern slot read back. -/
def patRead (b : List Byte) : Option Pat :=
  let n := le b 1 1
  let ws := fun (o : Nat) => readPlaces n 8 wordAt (b.drop o)
  if le b 0 1 = 1 then some { n := n, symmetric := le b 2 1 == 1, s := ws 3, f := ws 515, c := ws 1027 } else none

/-- A block, 99 806 bytes. -/
def BlockRec.bytes (k : BlockRec) : List Byte :=
  places 6 198 QueueRec.bytes k.queues ++ leBytes 2 k.flags.toNat ++ places 30 4 (leBytes 4) k.ev ++
  places 64 1539 patBytes k.pats

/-- A block read back. -/
def blockOf (b : List Byte) : BlockRec :=
  { queues := readPlaces 6 198 queueOf b, flags := BitVec.ofNat 16 (le b 1188 2),
    ev := readPlaces 30 4 leNat (b.drop 1190), pats := readPlaces 64 1539 patRead (b.drop 1310) }

/-- A brine entry, 128 bytes. -/
def brineBytes (e : BrineEnt) : List Byte :=
  leBytes 8 e.base ++ places 5 8 (leBytes 8) e.counts ++ places 4 8 (fun i => leBytes 8 (tc 64 i)) e.strides ++
  leBytes 1 (bn e.b256) ++ leBytes 1 e.anchorMode ++ leBytes 4 (tc 32 e.anchor) ++
  (match e.anchorAt with
   | some (base, st) => [1] ++ leBytes 8 base ++ places 4 8 (fun i => leBytes 8 (tc 64 i)) st
   | none => List.replicate 41 0) ++ leBytes 1 (bn e.sealed)

/-- A brine entry read back. -/
def brineOf (b : List Byte) : BrineEnt :=
  let ints := fun (o : Nat) => readPlaces 4 8 (fun x => sx 64 (leNat x)) (b.drop o)
  { base := le b 0 8, counts := readPlaces 5 8 leNat (b.drop 8), strides := ints 48, b256 := le b 80 1 == 1,
    anchorMode := le b 81 1, anchor := sx 32 (le b 82 4),
    anchorAt := if le b 86 1 = 1 then some (le b 87 8, ints 95) else none, sealed := le b 127 1 == 1 }

/-- A counted list of things of fixed size. -/
def counted {α : Type} (size : Nat) (f : α → List Byte) (l : List α) : List Byte :=
  leBytes 4 l.length ++ places l.length size f l

/-- A counted list read back, with the bytes that follow it. -/
def readCounted {α : Type} (size : Nat) (f : List Byte → α) (bs : List Byte) : List α × List Byte :=
  let n := le bs 0 4
  (readPlaces n size f (bs.drop 4), bs.drop (4 + n * size))

/-- The record's bytes. -/
def NodeRec.bytes (r : NodeRec) : List Byte :=
  leBytes 8 r.step ++ counted 99806 BlockRec.bytes r.blocks ++
  places 12 1 (fun (f : BitVec 4) => leBytes 1 f.toNat) r.panFlags ++ counted 128 brineBytes r.brine ++
  counted 10 (fun (h : Nat × Nat × Nat) => leBytes 2 h.1 ++ leBytes 4 h.2.1 ++ leBytes 4 h.2.2) r.hedges ++
  counted 4 (fun (n : NodeId) => leBytes 4 n.toNat) r.failed ++
  counted 12 (fun (p : Nat × W32 × W32) => leBytes 4 p.1 ++ leBytes 4 p.2.1.toNat ++ leBytes 4 p.2.2.toNat) r.pairs ++
  slice r.digest 0 64 ++ leBytes 1 r.k

/-- The record that bytes spell. -/
def nodeRecOf (bs : List Byte) : NodeRec :=
  let (blocks, b1) := readCounted 99806 blockOf (bs.drop 8)
  let (brine, b2) := readCounted 128 brineOf (b1.drop 12)
  let (hedges, b3) := readCounted 10 (fun b => (le b 0 2, le b 2 4, le b 6 4)) b2
  let (failed, b4) := readCounted 4 (fun b => (BitVec.ofNat 20 (leNat b) : NodeId)) b3
  let (pairs, b5) := readCounted 12
    (fun b => (le b 0 4, (BitVec.ofNat 32 (le b 4 4) : W32), (BitVec.ofNat 32 (le b 8 4) : W32))) b4
  { step := le bs 0 8, blocks := blocks, panFlags := readPlaces 12 1 (fun b => BitVec.ofNat 4 (leNat b)) b1,
    brine := brine, hedges := hedges, failed := failed, pairs := pairs, digest := slice b5 0 64, k := le b5 64 1 }

/-- A recorded queue put back: it stands at its resume index with its loop levels re-entered (12 R319). -/
def putQueue (u : Queue) (r : QueueRec) : Queue :=
  { u with pc := r.pc, loops := r.loops, inflight := [], state := .step, haltStatus := .ok, haltIdx := 0, crc := 0,
           crcLog := [], aregs := r.aregs.zipIdx.foldl (fun (m : SMap W64) e => SMap.set 0 m e.2 e.1) [] }

/-- A recorded block put back; its stores are zeroed apart from this (12 R302, R319). -/
def putBlock (k : Block) (r : BlockRec) : Block :=
  let pats := r.pats.zipIdx.foldl (fun (m : SMap Pat) e => match e.1 with | some p => m ++ [(e.2, p)] | none => m) []
  { k with
    queues := (Qc.all.zip r.queues).foldl (fun (m : SMap Queue) e =>
      let u := SMap.get ({} : Queue) m e.1.code
      if e.2.live && u.stream ≠ [] then SMap.set ({} : Queue) m e.1.code (putQueue u e.2) else m) k.queues
    flags := r.flags
    ev := r.ev.zipIdx.foldl (fun (m : SMap Nat) e => SMap.set 0 m e.2 e.1) []
    slv := { k.slv with pats := pats }
    ctxs := k.ctxs.mapV {} fun _ c => { c with peer := 0, own := 0, issued := 0, state := .idle, active := none } }

end Sys2Proof.Machine
end

