-- ==== Sys2Proof/Machine/Boundary.lean ====
section
/-!
DEFINITION. Step boundaries, entry into HELD, and the checkpoint from its cut to its mirror (04 R116, 09 R265, 11 R289,
12 R303 to R315); the rows STEP_BOUNDARY, CUT_LEVEL_RAISE, GRANULE_COPY, MANIFEST_SIGN and MIRROR_ACKNOWLEDGED.
-/
namespace Sys2Proof.Machine

/-! ### HELD (11 R289, 13 R337) -/

/-- The notice of this node's hold (13 R337). -/
def noticeOf (s : State) : Notice :=
  { rank := rank0 s, step := s.job.step, worst := BitVec.ofNat 8 s.hold.worst.num, orphan := s.host.orphan,
    byLimit := s.hold.byLimit, silent := s.hold.silentPeers.take 12 }

/-- A notice goes to a coordinator; a node that is its own keeps it in its receive queue. -/
def sendNotice (s : State) (c : NodeId) : State :=
  let bs := noticeBytes (noticeOf s)
  let s1 := { s with hold := { s.hold with
    noticeAt := some s.tim.now, coordinator := some c
    tried := if s.hold.tried.contains c then s.hold.tried else s.hold.tried ++ [c] } }
  if c = nodeId s then
    if s1.fab.control.length < 4096 then { s1 with fab := { s1.fab with control := s1.fab.control ++ [(c, bs)] } } else s1
  else sendControlPut s1 .nobody 3 c (0xC0_0000_0010_0000 + rank0 s * 64) bs

/-- The node enters HELD: one JOB_HELD record with the worst severity, the interrupt cause, and the hold notice
(R289, R337). With the policy host-assisted only an orphaned node sends the frame. -/
def enterHeld (s : State) (byLimit : Bool) : State :=
  let s1 := { s with hold := { s.hold with state := .held, byLimit := byLimit } }
  let s2 := recordSev s1 .jobHeld s.hold.worst
    { unitKind := 2, unit := 0, detail := (s.hold.firstCause.map ErrRec.detail).getD []
      npa := s.hold.firstCause.bind ErrRec.npa }
  let s3 := traceHw (raise s2 3) 3
  if !hostAssisted s3 4 || s3.host.orphan then sendNotice s3 (coordinatorOf s3) else s3

/-! ### The step boundary (04 R116) -/

/-- A queue has reached STEP or END, or has no commands, and has completed every earlier command. -/
def queueAtStep (u : Queue) : Bool := u.inflight.isEmpty && (u.state == .step || u.state == .endd || u.stream.isEmpty)

/-- Every queue of every live block is at STEP or END. -/
def allAtStep (s : State) : Bool := (liveBlocks s).all fun b => Qc.all.all fun q => queueAtStep (s.q b q)

/-- Every event counter of every block is zero. -/
def countersZero (s : State) : Bool := s.blocks.all fun e => e.2.ev.all fun c => c.2 == 0

/-- The next boundary is a checkpoint's: its number. -/
def ckptDue (s : State) : Option Nat :=
  (stateSet s).bind fun x =>
    let n := s.job.step.toNat + 1
    if n % x.k = 0 then some (n / x.k) else none

/-- Every aperture access already sent has been answered or acknowledged (12 R306). -/
def harts0 (s : State) : Bool := s.harts.all fun h => h.2.ap.isNone && h.2.apStores.isEmpty

/-- The boundary of R116 is reached: the queues, the counters, and, at a checkpoint step, the aperture accesses. -/
def boundaryReached (s : State) : Bool :=
  s.job.phase == .running && s.job.started && !s.ckpt.cutting && !s.job.risen && allAtStep s && countersZero s &&
  ((ckptDue s).isNone || harts0 s)

/-- Queues issue past their STEP. -/
def releaseQueues (s : State) : State :=
  { s with job := { s.job with risen := false }, blocks := s.blocks.mapV {} fun _ k => { k with queues := k.queues.mapV {} fun _ u =>
      if u.state = .step then { u with state := .run } else u } }

/-- What every boundary clears: stream counts (08 R223) and the step's signatures (09 R264). -/
def clearStep (s : State) : State :=
  { s with
    blocks := s.blocks.mapV {} fun _ k => { k with
      ctxs := k.ctxs.mapV {} fun _ c => { c with peer := 0, own := 0, issued := 0 }
      queues := k.queues.mapV {} fun _ u => { u with crc := 0, crcLog := [] } }
    job := { s.job with sigs := [], sigLast := false, sigAt := none } }

/-! ### The cut (12 R305, R306) and the start of the copy (R308, Table 12.4) -/

/-- Nodes that send this one scheduled frames. -/
def directPeers (s : State) : List NodeId :=
  ((activePlan s).map fun p => (p.rx.map RxFlow.src).eraseDups.filter (· != nodeId s)).getD []

/-- A peer shows the cut's step with a level of at least `l`, or a later step. -/
def peerAt (s : State) (l : Nat) (n : NodeId) : Bool :=
  let k := s.pair n
  s.ckpt.cutStep < k.peerStep || (k.peerStep == s.ckpt.cutStep && l ≤ k.peerLevel)

/-- The trailer of a shard, Table 12.3. -/
def trailerOf (s : State) (st index step : Nat) (bs : List Byte) : List Byte :=
  let head := slice (leBytes 2 s.job.jobId.toNat ++ leBytes 1 st ++ leBytes 1 index ++ leBytes 4 (nodeId s).toNat ++
    leBytes 8 step ++ leBytes 4 bs.length) 0 64
  head ++ shake256 (bs ++ head)

/-- Where the trailer of a shard stands in its quarter: the last 64 KiB, by index (log 18). -/
def trailerAt (s : State) (index : Nat) : Nat := quarterBytes s - 65536 + 128 * index

/-- The NPA of byte `o` of quarter `i` of a stack. -/
def quarterNpa (s : State) (st i o : Nat) : Nat := cellarNpa s.ncr.cellarGib st (stackBytes s + i * quarterBytes s + o)

/-- `n` bytes of quarter `i` of a stack from offset `o`, read: their lines are decoded as any reader's are (07 R182), and
the bytes are none where one is bad. -/
def readQuarter (s : State) (st i o n : Nat) : State × Option (List Byte) :=
  match touch s [⟨quarterNpa s st i o, n⟩] with
  | (t, none) => (t, some ((List.range n).map fun j => rdKey s (quarterKey s st i o + j)))
  | (t, some _) => (t, none)

/-- Bytes of quarter `i` of a stack written from offset `o`, a line's first byte, in whole lines; the last is filled up
with zeros (07 R187; log 18). -/
def wrQuarter (s : State) (st i o : Nat) (bs : List Byte) : State :=
  let a := quarterKey s st i o
  let whole := padLines bs
  let ls := (List.range (whole.length / 64)).map fun j => a / 64 + j
  dropResv (whole.zipIdx.foldl (fun t e => wrKey t (a + e.2) e.1) (clearFaults s ls)) ls none

/-- Where shard 0 begins in the node-state area: after the manifest's 16 KiB (R303). -/
def recordAt : Nat := 16384

/-- A shard's bytes and trailer enter own[g] and the shard list. -/
def putTrailer (s : State) (st index : Nat) (bs : List Byte) : State :=
  let t := trailerOf s st index s.ckpt.step.toNat bs
  let s1 := wrQuarter s st (bn s.ckpt.gen) (trailerAt s index) t
  { s1 with ckpt := { s1.ckpt with shards := s1.ckpt.shards ++ [(st, index, bs.length, t.drop 64)] } }

/-- The data shards of a stack: its packed lines cut into 1 GiB, numbered from 1 (R303). A bad line among those read for
the digests fails the checkpoint (R311). -/
def sealStack (s : State) (st : Nat) : State :=
  let n := 64 * (packedLines s st).length
  (List.range (cdiv n (2 ^ 30))).foldl (fun t i =>
    if t.ckpt.state = .failed then t
    else match readQuarter t st (bn t.ckpt.gen) (dataBase st + i * 2 ^ 30) (min (2 ^ 30) (n - i * 2 ^ 30)) with
      | (u, some bs) => putTrailer u st (i + 1) bs
      | (u, none) => failCkpt u) s

/-- A stack's part of the copy is over: its data shards have their trailers, or it holds no state-set line. -/
def stackSealed (s : State) (st : Nat) : Bool :=
  (packedLines s st).isEmpty || s.ckpt.shards.any fun e => e.1 == st && e.2.1 != 0

/-- The copy is over once that is so of every stack. -/
def copyOver (s : State) : Bool := (List.range 12).all (stackSealed s)

/-- The granules of a stack that hold state-set lines, in rising stack address. -/
def setGranules (s : State) (st : Nat) : List Nat := (((packedLines s st).map fun a => a >>> 21).eraseDups).mergeSort

/-- Checkpoint n's copy may start (R308): the last one copied is complete locally, no checkpoint in n's quarter is still
being mirrored, and no drain or host load uses it. One that was skipped copied nothing, and none of its stages is waited
for (log 72). -/
def copyMayStart (s : State) : Bool :=
  let c := s.ckpt
  c.n ≤ c.doneN && !(c.mirrors.any fun m => m.1 % 2 == c.cutN % 2) && !(if c.cutN % 2 = 1 then c.busy1 else c.busy0)

/-- Stages 1 and 2 of Table 12.4: the manifest slot void, the granules pending, the node-state record in shard 0. -/
def startCopy (s : State) : State :=
  let c := s.ckpt
  let g := c.cutN % 2
  let rec_ := (nodeRec s).bytes
  let s1 := { s with ckpt := { c with
    state := .copy, gen := g == 1, n := c.cutN, step := c.cutStep, record := rec_, plan := planDigest s, shards := [] } }
  let s2 := wrQuarter s1 0 g 0 (List.replicate recordAt 0)
  let s3 := putTrailer (wrQuarter s2 0 g recordAt rec_) 0 0 rec_
  let s4 := (List.range 12).foldl (fun t i =>
    t.setStack i { t.stack i with ckPending := setGranules t i, ckDone := [] }) s3
  if copyOver s4 then { s4 with ckpt := { s4.ckpt with state := .sign } } else s4

/-- The cut falls: the copy starts or is skipped, and the queues issue past STEP unless the job holds (R306, R308). -/
def cutFalls (s : State) : State :=
  let s1 := { s with ckpt := { s.ckpt with cutting := false } }
  let s2 := if copyMayStart s1 then startCopy s1
    else { s1 with ckpt := { s1.ckpt with skipped := satAdd s1.ckpt.skipped 1 } }
  if s2.hold.state = .run then releaseQueues s2 else s2

/-- The boundary is taken: the step counter rises, functions that fell back return (13 R342), and the cut of a
checkpoint begins, or the queues issue on (R116, R306). -/
def takeBoundary (s : State) : State :=
  let due := ckptDue s
  let s1 := clearStep { s with
    job := { s.job with step := s.job.step + 1, risen := true }
    host := { s.host with fallback := s.host.fallback &&& ~~~ s.host.returning, returning := 0 } }
  match due with
  | some n =>
    let d := ((activePlan s1).bind fun p => cutDepth p (members0 s1)).getD 0
    let s2 := { s1 with ckpt := { s1.ckpt with cutting := true, cutN := n, cutStep := s1.job.step, level := 0, depth := d } }
    if s2.ckpt.depth = 0 then cutFalls s2 else s2
  | none => if s1.hold.state = .run then releaseQueues s1 else s1

/-! ### Twin mode at the boundary (09 R264, R265) -/

/-- The node's signatures, by region, logical block and queue. -/
def ownSigs (s : State) : List W64 :=
  (gradeBlocks s).flatMap fun b => Qc.all.map fun q => if blockLive s b then (s.q b q).crc else 0

/-- Signatures go out in frames of at most what a frame toward the twin holds, ahead of other frames. -/
def sendSigs (s : State) (n : NodeId) : State :=
  let vs := ownSigs s
  let per := max 1 (frameMax s n / 8)
  let cnt := cdiv vs.length per
  let fs : List OutFrame := (List.range cnt).map fun i =>
    let part := (vs.drop (i * per)).take per
    { frame := mkFrame s { type := tSignature, opcode := 0, dst := n, offset := i * per, last := i + 1 == cnt
                           data := part.flatMap fun v => leBytes 8 v.toNat } }
  { s with
    fab := { s.fab with ready := fs ++ s.fab.ready }
    job := { s.job with sigAt := some (hallSlot s) } }

/-- The number of the first value in which the twin's signatures differ; with a different count, a difference that names
no queue. -/
def sigDiff (s : State) : Option (Option Nat) :=
  let mine := ownSigs s
  if s.job.sigs.length ≠ mine.length ∨ s.job.sigs.any (fun e => mine.length ≤ e.1) then some none
  else
    ((List.range mine.length).find? fun i =>
      (s.job.sigs.find? fun e => e.1 == i).map Prod.snd != mine[i]?).map some

/-- The first difference halts the node, with an F3 record of its queue and its step, in the places of L0 and L1, which no
command's record uses here (log 34). The command index comes from the exchange of logs with the twin, whose log is not in
this node: it is a free value (R265; log 34). -/
def diverge (s : State) (at_ : Option Nat) : State :=
  let idx := (Config.freeWord s.free).toNat % 2 ^ 32
  let (unit, where_) := match at_.bind fun i => (gradeBlocks s)[i / 6]?.map fun b => (b, i % 6) with
    | some (b, q) => (b.key, leBytes 1 q ++ leBytes 1 b.region.toNat ++ leBytes 1 b.block.toNat)
    | none => (0, [0xFF, 0xFF, 0xFF])
  nodeFatal (drew s) .pleachDiverge
    { unitKind := 1, unit := unit
      detail := where_ ++ [0] ++ leBytes 4 idx ++ leBytes 4 0 ++ leBytes 8 s.job.step.toNat ++ leBytes 8 0 ++ [0xFF] }

/-- STEP_BOUNDARY (R116): with the twin's signatures compared first in a pleach (R265). A hold that waits for the
boundary takes effect after it (01 R23), but an ordered one before it (13 R337): HELD is then entered by its own row. -/
def stepBoundary (s : State) : State :=
  if !boundaryReached s || !(s.hold.state == .run || (s.hold.state == .holding && s.hold.atBoundary && !s.hold.stepPending))
  then s
  else
    let go := fun (t : State) => let u := takeBoundary t
      if t.hold.state = .holding then enterHeld u false else u
    match twin s with
    | none => go s
    | some n =>
      if s.job.sigAt.isNone then sendSigs s n
      else if !s.job.sigLast then s
      else match sigDiff s with
        | none => go s
        | some d => diverge s d

/-- STEP_BOUNDARY. -/
def execStepBoundary (s : State) : Host.Outcome State Fault Refusal := .next (stepBoundary s)

/-- CUT_LEVEL_RAISE (12 R306). -/
def execCutLevelRaise (s : State) : Host.Outcome State Fault Refusal :=
  .next (
    let c := s.ckpt
    if c.cutting ∧ c.level < c.depth ∧ (directPeers s).all (peerAt s c.level) = true then
      let s1 := { s with ckpt := { c with level := c.level + 1 } }
      if c.depth ≤ c.level + 1 then cutFalls s1 else s1
    else s)

/-! ### Copy, manifest and mirror (12 R309 to R315) -/

/-- What the end of a stack's copy does: its shards get their trailers; with the last stack the manifest is due. -/
def stackCopied (s : State) (st : Nat) : State :=
  if s.ckpt.state = .copy ∧ (s.stack st).ckPending.isEmpty ∧ stackSealed s st = false then
    let s1 := sealStack s st
    if s1.ckpt.state = .copy ∧ copyOver s1 then { s1 with ckpt := { s1.ckpt with state := .sign } } else s1
  else s

/-- GRANULE_COPY: a pan engine copies its next pending granule, in rising stack address (R309); where stalled writes have
had it copy the last one already, its part of the copy ends. -/
def execGranuleCopy (stack : BitVec 4) (s : State) : Host.Outcome State Fault Refusal :=
  .next (
    let i := stack.toNat
    match (s.stack i).ckPending with
    | [] => stackCopied s i
    | g :: _ =>
      let s1 := copyGranule s i g
      if s1.ckpt.state = .failed then s1 else stackCopied s1 i)

/-- The manifest up to its signature, Table 12.5. -/
def manifestHead (s : State) : List Byte :=
  let c := s.ckpt
  let epoch := ((hedgeOf s 0).map fun h => h.epoch.toNat).getD 0
  slice (leBytes 4 0x4B434C54 ++ leBytes 2 3 ++ leBytes 2 s.job.jobId.toNat ++ leBytes 4 (nodeId s).toNat ++
    leBytes 4 ((buddy s).map BitVec.toNat |>.getD 0) ++ leBytes 8 c.step.toNat ++ leBytes 4 c.n ++ leBytes 4 epoch ++
    leBytes 4 ((stateSet s).map StateSet.k |>.getD 0) ++ leBytes 4 c.shards.length ++ leBytes 8 0 ++
    slice ((s.job.image.map Image.digest).getD []) 0 64 ++ slice c.plan 0 64 ++
    shake256 (s.job.failedSet.flatMap fun n => leBytes 4 n.toNat)) 0 240 ++
  c.shards.flatMap fun e => leBytes 1 e.1 ++ leBytes 1 e.2.1 ++ leBytes 2 0 ++ leBytes 4 e.2.2.1 ++ slice e.2.2.2 0 64

/-- The manifest with its signature by the attestation key, and the certificate chain kept after it (R315, R316; log 18). -/
def manifestBytes (s : State) : List Byte :=
  let h := manifestHead s
  h ++ slice (Config.ed448Sign s.sec.ak (shake256 h)) 0 114 ++ Config.certChain (Config.ed448Public s.sec.ak)

/-- The parts of own[g] that a checkpoint has written: stack, offset and length (R303). -/
def quarterParts (s : State) : List (Nat × Nat × Nat) :=
  (0, 0, recordAt) :: s.ckpt.shards.flatMap fun e =>
    let (st, i, len, _) := e
    [(st, if i = 0 then recordAt else dataBase st + (i - 1) * 2 ^ 30, len), (st, trailerAt s i, 128)]

/-- The mirror: the quarter goes to the buddy's held[g] in PUT frames at priority 0 (R312; log 10). A bad line among what
is read fails the checkpoint, as one that the copy meets does (R311; log 18). -/
def startMirror (s : State) : State :=
  let c := s.ckpt
  let g := bn c.gen
  match buddy s with
  | none => { s with ckpt := { c with state := .mirror, mirrors := c.mirrors ++ [(c.n, 0)] } }
  | some n =>
    let lim := max 64 (frameMax s n)
    let pieces := (quarterParts s).flatMap fun p =>
      (List.range (cdiv p.2.2 lim)).map fun i => (p.1, p.2.1 + i * lim, min lim (p.2.2 - i * lim))
    let s1 := pieces.foldl (fun t p =>
      if t.ckpt.state = .failed then t
      else match readQuarter t p.1 g p.2.1 p.2.2 with
        | (u, some bs) => sendControlPut u (.mirror c.n) 0 n (0x80_0000_0000_0000 + g * 2 ^ 40 + p.1 * 2 ^ 36 + p.2.1) bs
        | (u, none) => failCkpt u) s
    if s1.ckpt.state = .failed then s1
    else { s1 with ckpt := { s1.ckpt with state := .mirror, mirrors := s1.ckpt.mirrors ++ [(c.n, pieces.length)] } }

/-- MANIFEST_SIGN: the manifest is built, signed and written; the checkpoint is complete locally, and its mirror starts
(Table 12.4 steps 5 and 6). -/
def execManifestSign (s : State) : Host.Outcome State Fault Refusal :=
  .next (
    if s.ckpt.state = .sign ∧ 4 ∉ s.pwr.restarting then
      let s1 := wrQuarter s 0 (bn s.ckpt.gen) 0 (slice (manifestBytes s) 0 recordAt)
      startMirror { s1 with ckpt := { s1.ckpt with doneN := max s1.ckpt.doneN s1.ckpt.n } }
    else s)

/-- MIRROR_ACKNOWLEDGED: every frame of the oldest mirror is acknowledged; that checkpoint is secured here (R314). -/
def execMirrorAcknowledged (s : State) : Host.Outcome State Fault Refusal :=
  .next (
    let c := s.ckpt
    match c.mirrors with
    | (n, 0) :: rest =>
      let k := ((stateSet s).map StateSet.k).getD 0
      raise { s with ckpt := { c with
        mirrors := rest, mirroredN := max c.mirroredN n, mirroredStep := BitVec.ofNat 48 (n * k)
        state := if n = c.n ∧ c.state = .mirror then .secured else c.state } } 6
    | _ => s)

end Sys2Proof.Machine
end

