-- ==== Sys2Proof/Machine/Mbx.lean ====
section
/-!
DEFINITION. The mailbox's transport (13 R332, R333): when a command is taken, background commands, and host buffers.
-/
namespace Sys2Proof.Machine

/-- Firmware processor `n` is restarting (13 R334). -/
def restarting (s : State) (n : Nat) : Bool := s.pwr.restarting.contains n

/-- A mailbox command arrives: before node ready and with the link down the host reaches no mailbox; in recovery only
the commands marked so are supported; beside a background command only those marked A are accepted; and one that falls
into a restart of the warden complex returns Internal Error, with no effect (R325, R332). -/
def mbx (s : State) (a recov : Bool) (run : State → State) : State :=
  if s.host.node = .start ∨ s.host.linkUp = false then s
  else if [0, 1, 2, 3].any (restarting s) then answer s .internalError .ok 0 []
  else if s.host.node = .recovery ∧ recov = false then answer s .unsupported .ok 0 []
  else if s.host.bg.isSome ∧ a = false then answer s .busy .ok 0 []
  else run s

/-- A command that was understood: its status, detail and output (R332). -/
def done (s : State) (st : Status) (out : List Byte := []) (detail : Nat := 0) : State := answer s .success st detail out

/-- A background command is under way: it has done its work, and its result is held until it ends (log 19). -/
def background (s : State) (op : Nat) (st : Status) (out : List Byte) (detail : Nat := 0) : State :=
  let s1 := mbxRefused (answer s .bgStarted .ok 0 []) st
  { s1 with host := { s1.host with bg := some { opcode := op, out := ⟨.success, st, detail, out⟩ } } }

/-- A host buffer that R333 accepts. -/
def hostBufOk (b : HostBuf) : Bool := b.addr.toNat % 64 == 0 && b.addr.toNat + b.len.toNat ≤ 2 ^ 42

/-- What comes of an invalid field of a mailbox payload (11 Table 11.7 kind 10). -/
def invalid (s : State) : State :=
  record (answer s .invalidInput .ok 0 []) .cxlProtocol { unitKind := 8, unit := 0, detail := detailE [] 0xFF 10 }

/-- A command with a host buffer: a misaligned one, or one across the aperture, is Invalid Input (R333). -/
def withBuf (s : State) (b : HostBuf) (run : State → State) : State := if hostBufOk b then run s else invalid s

end Sys2Proof.Machine
end

