-- ==== Sys2Proof/Machine/Repair.lean ====
section
/-!
DEFINITION. The rake, repair and the memory tests (07 R207 to R210): the rows RAKE_READ, REFRESH, READ_REPAIR_MAP,
READ_ERROR_COUNTS, LIST_CANDIDATES, MARK_LANE, REPAIR_ROW, REMAP_LANE, MARGIN_TEST and PATTERN_TEST.
-/
namespace Sys2Proof.Machine

/-! ### Rows (R178) -/

/-- The sixteen lines of a row, by line key. -/
def rowLines (st ch bank row : Nat) : List Nat :=
  let base := row <<< 21 + (bank ^^^ nfld row 5 6) <<< 15 + (ch ^^^ nfld row 0 5) <<< 8
  (List.range 4).flatMap fun i => (List.range 4).map fun j => (st <<< 36 + base + i <<< 13 + j <<< 6) / 64

/-- The row repairs of a bank. -/
def bankRepairs (k : Stack) (ch bank : Nat) : List RowRepair := k.repairs.filter fun r => r.channel == ch && r.bank == bank

/-! ### The retained store (R209) -/

/-- A row gave a corrected error in a rake pass; in the third distinct pass it becomes a candidate. -/
def rakeCorrected (s : State) (st : Nat) (r : RowRepair) (pass : Nat) : State :=
  let key := (st, r.channel, r.bank, r.row)
  match s.sec.rakeHist.find? fun e => e.1 == key with
  | some e =>
    if e.2.contains pass then s
    else if 2 ≤ e.2.length then
      addCandidate { s with sec := { s.sec with rakeHist := s.sec.rakeHist.filter fun x => x.1 != key } } st r
    else { s with sec := { s.sec with rakeHist := s.sec.rakeHist.map fun x => if x.1 == key then (key, x.2 ++ [pass]) else x } }
  | none =>
    if 1024 ≤ storeUsed s then s else { s with sec := { s.sec with rakeHist := s.sec.rakeHist ++ [(key, [pass])] } }

/-! ### Repairs -/

/-- A line's contents as a repair carries them over: what corrects is clean again. -/
def carryLine (s : State) (line : Nat) : State :=
  let f := SMap.get {} s.lineFault line
  { s with lineFault := SMap.set {} s.lineFault line { f with syms := [] } }

/-- A line read inside its memory-side die: it is counted among those decoded, and met as any reader meets it (R182,
R183). -/
def readLine (s : State) (line : Nat) : State × Option (Status × ErrCode × Nat) :=
  touchLine { s with decoded := bumpDecoded s.decoded line } line true true

/-- A row is repaired: its lines are read and their correctable contents copied, or, with an uncorrectable line, the row is
zeroed and the repair logged with its NPA; it is a candidate no longer (R209). -/
def repairRow (s : State) (st : Nat) (r : RowRepair) : State :=
  let lines := rowLines st r.channel r.bank r.row
  let bad := lines.any fun l => decodeLine s l true true == .uncorr || decodeLine s l true true == .addrErr
  let s0 := lines.foldl (fun t l => (readLine t l).1) s
  let s1 :=
    if bad then
      let z := lines.foldl (fun t l => eraseKeys t (l * 64) (l * 64 + 64)) s0
      let key := (lines.headD 0) * 64
      record z .rowRepair { unitKind := 4, unit := st, npa := some ((npasOf s.ncr.cellarGib key).headD key)
                            detail := leBytes 1 st ++ leBytes 1 r.channel ++ leBytes 1 r.bank ++ leBytes 1 0xFF ++ leBytes 4 r.row }
    else lines.foldl carryLine s0
  let k := s1.stack st
  let others := k.repairs.filter fun x => !(x.channel == r.channel && x.bank == r.bank && x.row == r.row)
  let fresh := others.length == k.repairs.length
  let s2 := s1.setStack st { k with
    repairs := others ++ [r]
    spareRows := if fresh then k.spareRows - 1 else k.spareRows
    hardRows := if r.hard then k.hardRows + 1 else k.hardRows }
  { s2 with sec := { s2.sec with candidates := s2.sec.candidates.filter fun e =>
      !(e.1 == st && e.2.channel == r.channel && e.2.bank == r.bank && e.2.row == r.row) } }

/-- A bank has a spare row for a row: one unused, or the one that already repairs it. -/
def rowFree (s : State) (st : Nat) (r : RowRepair) : Bool :=
  let l := bankRepairs (s.stack st) r.channel r.bank
  decide (l.length < 4) || l.any fun x => x.row == r.row && !x.hard

/-- A marked lane moves to a free spare lane of its channel, and its mark is removed (R209). -/
def remap (s : State) (st ch lane : Nat) (hard : Bool) : Option State :=
  let k := s.stack st
  let c := k.chan ch
  if !c.marks.contains lane || (c.spare0.isSome && c.spare1.isSome) then none
  else
    let c1 := { c with marks := c.marks.filter (· != lane), hard := if hard then c.hard ++ [lane] else c.hard }
    let c2 := if c1.spare0.isNone then { c1 with spare0 := some lane } else { c1 with spare1 := some lane }
    let k1 := k.setChan ch c2
    some (s.setStack st { k1 with hardLanes := if hard then k1.hardLanes + 1 else k1.hardLanes })

/-- In hardware mode of repair decisions, every candidate row that has a spare is repaired softly and every marked lane
that has one is remapped; both await a hard burn at the next start (R209). -/
def repairAll (s : State) : State :=
  if hostAssisted s 6 then s
  else
    let s1 := s.sec.candidates.foldl (fun t e =>
      if rowFree t e.1 e.2 then
        let u := repairRow t e.1 e.2
        { u with sec := { u.sec with awaitBurn := u.sec.awaitBurn ++ [e] } }
      else t) s
    (List.range 12).foldl (fun t st => (List.range 32).foldl (fun t ch =>
      ((t.stack st).chan ch).marks.foldl (fun t lane =>
        match remap t st ch lane false with
        | some u => { u with sec := { u.sec with awaitLanes := u.sec.awaitLanes ++ [(st, ch, lane)] } }
        | none => t) t) t) s1

/-! ### The rake (R207, R208) -/

/-- The number of a stack's present rake pass, no two passes of a stack alike across resets (log 52). -/
def passNo (s : State) (st : Nat) : Nat := s.sec.rakePasses + (s.stack st).rakePasses.toNat

/-- The rake's next line of a stack: it is decoded as any line is, a correction written back, an uncorrectable line
recorded and left; after the last the next pass begins. The line's check is not the rake's concern. -/
def rake (s : State) (st : Nat) : State :=
  let k := s.stack st
  if k.state ≠ .ready then s
  else
    let line := st <<< 30 + k.rakeLine
    let a := k.rakeLine * 64
    let (s1, e) := readLine s line
    let corrections := (inWindow (decodedOn s1 st (chanOf a)) ((s1.stack st).chan (chanOf a)).window).length
    let written := rakeCorrected (carryLine s1 line) st (rowAt a) (passNo s st)
    let s2 := match decodeLine s line true true, e with
      | .corrected _, _ | .badCheck (some _), _ => written
      | _, some (.uncorr, _, npa) =>
        record s1 .rakeUncorr
          { unitKind := 4, unit := st, npa := some npa, detail := detailC st a 0xFF (storedWord s line) corrections }
      | _, _ => s1
    let k1 := s2.stack st
    let n := k.rakeLine + 1
    s2.setStack st (if n = 2 ^ 30 then
      { k1 with rakeLine := 0, rakePasses := k1.rakePasses + 1, rakePeriodNow := k1.rakePeriod }
    else { k1 with rakeLine := n })

/-- RAKE_READ (R207). -/
def execRakeRead (stack : BitVec 4) (s : State) : Host.Outcome State Fault Refusal :=
  .next (if stack.toNat < 12 then rake s stack.toNat else s)

/-- REFRESH: it changes no value that any request reads or writes (R184, R185). -/
def execRefresh (_stack : BitVec 4) (_channel : BitVec 5) (s : State) : Host.Outcome State Fault Refusal := .next s

/-! ### The memory tests (Table 07.6) -/

/-- JTAG reaches the repair resources: the node is unlocked at a level with mask bit 1 (R211; 14 R363). -/
def jtagRepair (s : State) : Bool := s.pwr.railsUp && s.sec.unlocked && s.sec.mask.toNat.testBit 1

/-- A memory test command, in the background: on a stack that exists, with a good host buffer where it writes one (13
R333). While the host's link is down, and JTAG is unlocked for the repair resources, it comes through JTAG, which shifts out
its status and output (R211; log 71). -/
def memTest (s : State) (op : Nat) (st : BitVec 4) (run : State → State × Status × List Byte)
    (buf : HostBuf := ⟨0, 0⟩) : State :=
  if !s.host.linkUp && jtagRepair s then
    if 12 ≤ st.toNat then s
    else
      let (u, r, out) := run s
      { u with host := { u.host with answer := leBytes 1 r.code ++ out, poison := false } }
  else mbx s false false fun t =>
    if 12 ≤ st.toNat ∨ hostBufOk buf = false then invalid t
    else
      let (u, r, out) := run t
      background u op r out

/-- A test's output into its host buffer, cut to its length, which is the answer (log 38); by JTAG it follows its
length. -/
def toBuffer (s : State) (buf : HostBuf) (bs : List Byte) : State × Status × List Byte :=
  let l := bs.take buf.len.toNat
  if s.host.linkUp then (wrHostN s buf.addr.toNat l, .ok, leBytes 4 l.length) else (s, .ok, leBytes 4 l.length ++ l)

/-- Eight bytes of a row repair: channel, bank, hard, zero, row (log 38). -/
def RowRepair.bytes (r : RowRepair) : List Byte :=
  leBytes 1 r.channel ++ leBytes 1 r.bank ++ leBytes 1 (bn r.hard) ++ [0] ++ leBytes 4 r.row

/-- The marks of a stack: channel and lane, two bytes each mark (log 38). -/
def markBytes (k : Stack) : List Byte :=
  (List.range 32).flatMap fun c => (k.chan c).marks.flatMap fun l => leBytes 1 c ++ leBytes 1 l

/-- The lane remaps of a stack: channel, lane, its spare and whether hard, four bytes each (log 38). -/
def remapBytes (k : Stack) : List Byte :=
  (List.range 32).flatMap fun c =>
    let x := k.chan c
    [x.spare0, x.spare1].zipIdx.flatMap fun e => match e.1 with
      | some l => leBytes 1 c ++ leBytes 1 l ++ leBytes 1 e.2 ++ leBytes 1 (bn (x.hard.contains l))
      | none => []

/-- READ_REPAIR_MAP: the row repairs, the lane remaps, and the marks. -/
def execReadRepairMap (stack : BitVec 4) (buf : HostBuf) (s : State) : Host.Outcome State Fault Refusal :=
  .next (memTest s 0xC060 stack (buf := buf) fun s =>
    let k := s.stack stack.toNat
    let maps := remapBytes k
    toBuffer s buf (leBytes 4 k.repairs.length ++ k.repairs.flatMap RowRepair.bytes ++
      leBytes 4 (maps.length / 4) ++ maps ++ markBytes k))

/-- READ_ERROR_COUNTS: per channel corrected, uncorrectable and address errors, 4 bytes each, then 80 lanes' corrections
of 4 bytes each (log 38). -/
def execReadErrorCounts (stack : BitVec 4) (buf : HostBuf) (s : State) : Host.Outcome State Fault Refusal :=
  .next (memTest s 0xC061 stack (buf := buf) fun s =>
    let k := s.stack stack.toNat
    toBuffer s buf ((List.range 32).flatMap fun c =>
      let x := k.chan c
      leBytes 4 x.corrected ++ leBytes 4 x.uncorr ++ leBytes 4 x.addrErr ++
      (List.range 80).flatMap fun l => leBytes 4 (x.perLane.get 0 l)))

/-- LIST_CANDIDATES: the candidate rows, then the marked lanes. -/
def execListCandidates (stack : BitVec 4) (buf : HostBuf) (s : State) : Host.Outcome State Fault Refusal :=
  .next (memTest s 0xC062 stack (buf := buf) fun s =>
    let l := (s.sec.candidates.filter fun e => e.1 == stack.toNat).map Prod.snd
    toBuffer s buf (leBytes 4 l.length ++ l.flatMap RowRepair.bytes ++ markBytes (s.stack stack.toNat)))

/-- MARK_LANE. -/
def execMarkLane (stack : BitVec 4) (channel : BitVec 5) (lane : BitVec 7) (s : State) : Host.Outcome State Fault Refusal :=
  .next (if 80 ≤ lane.toNat then mbx s false false invalid
    else memTest s 0xC063 stack fun s => (markLane s stack.toNat channel.toNat lane.toNat, .ok, []))

/-- A memory test refused with STATE; its record is made with the answer (07 R210, 11 R300). -/
def testRefused (s : State) : State × Status × List Byte := (s, .state, [])

/-- REPAIR_ROW, while no job runs; with no spare row left in the bank it is refused (log 38). -/
def execRepairRow (stack : BitVec 4) (channel : BitVec 5) (bank : BitVec 6) (row : BitVec 15) (hard : Bool) (s : State) :
    Host.Outcome State Fault Refusal :=
  .next (memTest s 0xC064 stack fun s =>
    let r : RowRepair := { channel := channel.toNat, bank := bank.toNat, row := row.toNat, hard := hard }
    if s.job.phase = .running ∨ rowFree s stack.toNat r = false then testRefused s
    else
      let u := repairRow s stack.toNat r
      let await := !hard && !hostAssisted s 6
      (if await then { u with sec := { u.sec with awaitBurn := u.sec.awaitBurn ++ [(stack.toNat, r)] } } else u, .ok, []))

/-- REMAP_LANE, while no job runs, for a marked lane with a free spare. -/
def execRemapLane (stack : BitVec 4) (channel : BitVec 5) (lane : BitVec 7) (s : State) : Host.Outcome State Fault Refusal :=
  .next (memTest s 0xC065 stack fun s =>
    if s.job.phase = .running then testRefused s
    else match remap s stack.toNat channel.toNat lane.toNat false with
      | none => testRefused s
      | some u =>
        (if hostAssisted s 6 then u
         else { u with sec := { u.sec with awaitLanes := u.sec.awaitLanes ++ [(stack.toNat, channel.toNat, lane.toNat)] } },
         .ok, []))

/-- Every line of a channel is zeroed (Table 07.6). -/
def zeroChannel (s : State) (st ch : Nat) : State :=
  let of := fun (k : Nat) => k >>> 36 == st && chanOf (k % 2 ^ 36) == ch
  { s with mem := s.mem.filter fun e => !of e.1, lineFault := s.lineFault.filter fun e => !of (e.1 * 64) }

/-- A test that destroys and zeroes a channel, while no image is loaded; what it measures is the hardware's (log 23). -/
def channelTest (s : State) (op : Nat) (st : BitVec 4) (ch : BitVec 5) (buf : HostBuf) : State :=
  memTest s op st (buf := buf) fun s =>
    if s.job.image.isSome then testRefused s
    else toBuffer (drew (zeroChannel s st.toNat ch.toNat)) buf (Config.testBytes op s.free)

/-- MARGIN_TEST. -/
def execMarginTest (stack : BitVec 4) (channel : BitVec 5) (buf : HostBuf) (s : State) : Host.Outcome State Fault Refusal :=
  .next (channelTest s 0xC066 stack channel buf)

/-- PATTERN_TEST. -/
def execPatternTest (stack : BitVec 4) (channel : BitVec 5) (buf : HostBuf) (s : State) : Host.Outcome State Fault Refusal :=
  .next (channelTest s 0xC067 stack channel buf)

end Sys2Proof.Machine
end

