-- ==== Sys2Proof/Machine/Wcb.lean ====
section
/-!
DEFINITION. The write-combining buffers of the field cores (10 R272): what a hart stores to node memory stands there until
its line is written, whole or merged.
-/
namespace Sys2Proof.Machine

/-- The lines that a core's buffer holds (R272). -/
def wcMax : Nat := 32

/-- The core of a hart (R267). -/
def coreOf (h : BitVec 6) : Nat := h.toNat / 4

/-- The state with a core's buffer set. -/
def setWc (s : State) (core : Nat) (l : List WcLine) : State := { s with wcb := s.wcb.set [] core l }

/-- Bytes laid over a line from its byte `o` on. -/
def overlay (l : List (Option Byte)) (o : Nat) (bs : List Byte) : List (Option Byte) :=
  (List.range 64).map fun i => if o ≤ i ∧ i < o + bs.length then some (bs.getD (i - o) 0) else (l.getD i none)

/-- Every byte of a buffered line has been stored. -/
def WcLine.whole (e : WcLine) : Bool := e.bytes.length == 64 && e.bytes.all Option.isSome

/-- A store of a hart is performed at memory or a store: a merge that meets a fault leaves the line as it is, is recorded,
and waits to be reported at the hart's next FENCE or load, with the store's address (R275). -/
def performStore (s : State) (h : BitVec 6) (va : W64) (npa : Nat) (bs : List Byte) : State :=
  match touch s (partialRuns [⟨npa, bs.length⟩]) with
  | (t, some (st, _, _)) => hartRecord (t.updHart h fun x => { x with stFault := x.stFault.or (some va) }) h st 7 va
  | (t, none) => wrN t npa bs (some h)

/-- A buffered line goes to memory: whole, with a fresh line check, or its bytes merged into the line, which is then read
first (R272; 07 R187). A merge that meets a fault is reported with the address of the store that began the line (log
67). -/
def drainLine (s : State) (e : WcLine) : State :=
  let npa := (npasOf s.ncr.cellarGib (e.line * 64)).headD (e.line * 64)
  if e.whole then wrN s npa (e.bytes.map fun b => b.getD 0) (some e.hart)
  else match touch s [⟨npa, 64⟩] with
    | (t, some (st, _, _)) =>
      hartRecord (t.updHart e.hart fun x => { x with stFault := x.stFault.or (some e.va) }) e.hart st 7 e.va
    | (t, none) => wrN t npa ((rdN t npa 64).zipIdx.map fun x => (e.bytes.getD x.2 none).getD x.1) (some e.hart)

/-- The lines of a core's buffer that meet a test go to memory, oldest first. -/
def drainIf (s : State) (core : Nat) (p : WcLine → Bool) : State :=
  let l := s.wcb.get [] core
  if l.any p then (l.filter p).foldl drainLine (setWc s core (l.filter fun e => !p e)) else s

/-- A core's buffer empties. -/
def drainCore (s : State) (core : Nat) : State := drainIf s core fun _ => true

/-- Every core's buffer empties. -/
def drainAll (s : State) : State := s.wcb.foldl (fun t e => drainCore t e.1) s

/-- A hart's store to node memory enters its core's buffer. It joins the line if that hart began it; a line that another
hart began goes to memory first, as does the oldest when a 33rd needs room; a line that is now whole goes at once (R272;
log 67). -/
def bufferStore (s : State) (h : BitVec 6) (va : W64) (line o : Nat) (bs : List Byte) : State :=
  let c := coreOf h
  let s1 := drainIf s c fun e => e.line == line && e.hart != h
  let l := s1.wcb.get [] c
  match l.find? fun e => e.line == line with
  | some e =>
    let s2 := setWc s1 c (l.map fun x => if x = e then { e with bytes := overlay e.bytes o bs } else x)
    drainIf s2 c fun x => x.line == line && x.whole
  | none =>
    let s2 := match l with
      | e :: rest => if wcMax ≤ l.length then drainLine (setWc s1 c rest) e else s1
      | [] => s1
    setWc s2 c (s2.wcb.get [] c ++ [{ line := line, bytes := overlay [] o bs, hart := h, va := va }])

end Sys2Proof.Machine
end

