-- ==== Sys2Proof/Machine/Restore.lean ====
section
/-!
DEFINITION. Restore (12 R316 to R320): copies of a generation, manifests, the judging of sets and shards, the
substitution of retired blocks (01 R28), adoption, and the restore itself.
-/
namespace Sys2Proof.Machine

/-! ### Substitution (01 R28) -/

/-- The coppice block, 0 or 1, that serves a logical block. -/
def servedBy (r : Region) (b : Nat) : Option Nat :=
  if r.sub0.valid && r.sub0.logical.toNat == b then some (r.sub0.physical.toNat - 32)
  else if r.sub1.valid && r.sub1.logical.toNat == b then some (r.sub1.physical.toNat - 32)
  else none

/-- The substitution entry of a logical block made invalid. -/
def dropSub (r : Region) (b : Nat) : Region :=
  let off := fun (e : Subst) => if e.valid && e.logical.toNat == b then { e with valid := false } else e
  { r with sub0 := off r.sub0, sub1 := off r.sub1 }

/-- A logical block assigned the coppice block `c`: in the first entry that is free. -/
def addSub (r : Region) (b c : Nat) : Region :=
  let e : Subst := { logical := BitVec.ofNat 6 b, physical := BitVec.ofNat 6 (32 + c), valid := true }
  if r.sub0.valid then { r with sub1 := e } else { r with sub0 := e }

/-- What is the physical block's of a logical block's state becomes the coppice block's (R24): its array, as the test at
start left it, its registers, its count of D events and its store, which nothing has written: R28 does not say what the
store of a new substitute holds (DESIGN CHOICE, log 66). The queues are the loader's and keep what it loaded. -/
def swapBlock (s : State) (n b c : Nat) : State :=
  let at_ := fun (i : Nat) => (⟨BitVec.ofNat 2 n, BitVec.ofNat 6 i⟩ : Blk)
  let s1 := s.setBlk (at_ b) { queues := (s.blk (at_ b)).queues, tns := (s.blk (at_ (32 + c))).tns }
  eraseKeys s1 (storeBase (at_ b)) (storeBase (at_ b) + 2 ^ 24)

/-- One retired logical block of region `n` gets the lowest-numbered free coppice block, or stays out of service. -/
def substOne (n : Nat) (s : State) (b : Nat) : State :=
  let r := s.region n
  let bit := BitVec.ofNat 32 (2 ^ b)
  let r1 := match servedBy r b with
    | some c => dropSub { r with coppiceRetired := r.coppiceRetired ||| BitVec.ofNat 2 (2 ^ c) } b
    | none => r
  let r2 := { r1 with pending := r1.pending &&& ~~~ bit }
  match [0, 1].find? fun c => r2.coppiceFree.toNat.testBit c with
  | some c =>
    swapBlock (s.setRegion n { addSub r2 b c with
      dead := r2.dead &&& ~~~ bit, coppiceFree := r2.coppiceFree &&& ~~~ BitVec.ofNat 2 (2 ^ c) }) n b c
  | none => s.setRegion n r2

/-- Every region's retired blocks are handled, in rising logical order. -/
def substitute (s : State) : State :=
  (List.range 4).foldl (fun t n =>
    ((List.range 32).filter fun b => (t.region n).pending.toNat.testBit b).foldl (substOne n) t) s

/-! ### Copies and manifests (R316) -/

/-- A manifest as its bytes give it. -/
structure Man where
  version : Nat
  jobId : Nat
  step : Nat
  n : Nat
  image : List Byte
  plan : List Byte
  /-- the list of shards: stack, index, length, digest -/
  shards : List (Nat × Nat × Nat × List Byte)
  /-- bytes before the signature, and the signature -/
  head : List Byte
  sig : List Byte
  valid : Bool
deriving DecidableEq, Repr

/-- A manifest read; none where its magic is missing (Table 12.5). It is valid when its signature verifies under the key
that the chain kept after it certifies. -/
def manOf (b : List Byte) : Option Man :=
  if le b 0 4 ≠ 0x4B434C54 then none
  else
    let cnt := le b 36 4
    let h := slice b 0 (240 + 72 * cnt)
    let sig := slice b (240 + 72 * cnt) 114
    let ok := match Config.chainKey (b.drop (354 + 72 * cnt)) with
      | some key => Config.ed448Verify key (shake256 h) sig
      | none => false
    some { version := le b 4 2, jobId := le b 6 2, step := le b 16 8, n := le b 24 4, image := slice b 48 64,
           plan := slice b 112 64, head := h, sig := sig, valid := ok,
           shards := (List.range cnt).map fun i =>
             let o := 240 + 72 * i
             (le b o 1, le b (o + 1) 1, le b (o + 4) 4, slice b (o + 8) 64) }

/-- The step that a shard's trailer names. -/
def shardStep (c : ShardCopy) : Nat := le c.trailer 8 8

/-- A shard copy passes its digest (R304): every line of it was read, and it hashes to its trailer's digest. -/
def shardOk (c : ShardCopy) : Bool := !c.bad && slice c.trailer 64 64 == shake256 (c.data ++ slice c.trailer 0 64)

/-- One shard of a quarter of this node's cellar, read: none where its trailer was never written or cannot be read. -/
def quarterShard (s : State) (i st x : Nat) : State × Option ShardCopy :=
  match readQuarter s st i (trailerAt s x) 128 with
  | (t, none) => (t, none)
  | (t, some tr) =>
    if tr.all (· == 0) then (t, none)
    else
      let (u, d) := readQuarter t st i (if x = 0 then recordAt else dataBase st + (x - 1) * 2 ^ 30) (le tr 16 4)
      (u, some { stack := BitVec.ofNat 8 st, index := BitVec.ofNat 8 x, trailer := tr, data := d.getD [], bad := d.isNone })

/-- A quarter of this node's cellar as a copy, read: `i` 0 and 1 own, 2 and 3 held. A manifest that cannot be read is
none. -/
def quarterCopy (s : State) (i : Nat) : State × GenCopy :=
  let m := readQuarter s 0 i 0 recordAt
  let ids := (List.range 12).flatMap fun st => (List.range (min 512 (s.ncr.cellarGib / 4 + 2))).map fun x => (st, x)
  let l := ids.foldl (fun (acc : State × List ShardCopy) e =>
    let c := quarterShard acc.1 i e.1 e.2
    (c.1, acc.2 ++ c.2.toList)) (m.1, [])
  (l.1, { gen := i % 2 == 1, manifest := m.2.getD [], shards := l.2 })

/-- A copy holds anything at all. -/
def copyPresent (c : GenCopy) : Bool := (manOf c.manifest).isSome || !c.shards.isEmpty

/-- A copy is mixed (R316). -/
def copyMixed (c : GenCopy) : Bool :=
  let steps := (c.shards.map shardStep).eraseDups
  1 < steps.length || match manOf c.manifest with
    | some m => steps.any (· != m.step)
    | none => false

/-- The step that a copy names. -/
def copyStep (c : GenCopy) : Nat := ((manOf c.manifest).map Man.step).getD ((c.shards.head?.map shardStep).getD 0)

/-- The valid manifest of a copy. -/
def copyMan (c : GenCopy) : Option Man := (manOf c.manifest).filter Man.valid

/-- The shard of a copy at a place, of a step. -/
def copyShard (c : GenCopy) (step : Nat) (id : Nat × Nat) : Option ShardCopy :=
  c.shards.find? fun x => x.stack.toNat == id.1 && x.index.toNat == id.2 && shardStep x == step

/-! ### Deciding shards (Table 12.6) -/

/-- What a shard comes to. -/
inductive Decided where
  | use (c : ShardCopy) (fromP fromR flagged : Bool)
  | incomplete
  | diverge
deriving DecidableEq, Repr

/-- One shard, from at most two copies of the step judged, against the step's valid manifest. -/
def decideShard (man : Option Man) (id : Nat × Nat) (p r : Option ShardCopy) : Decided :=
  let fits := fun (c : ShardCopy) => match man with
    | some m => m.shards.any fun e => e.1 == id.1 && e.2.1 == id.2 && e.2.2.2 == slice c.trailer 64 64
    | none => false
  match p, r with
  | none, none => .incomplete
  | some c, none => if shardOk c && fits c then .use c true false false else .incomplete
  | none, some c => if shardOk c && fits c then .use c false true false else .incomplete
  | some a, some b =>
    match shardOk a, shardOk b with
    | false, false => .incomplete
    | true, false => if fits a then .use a true false false else .incomplete
    | false, true => if fits b then .use b false true false else .incomplete
    | true, true =>
      if a.data = b.data ∧ a.trailer = b.trailer then (if fits a then .use a true true false else .incomplete)
      else if fits a then .use a true false true
      else if fits b then .use b false true true
      else .diverge

/-- A judged generation: its row of the restore report and the shards to use. -/
structure Judged where
  step : Nat
  /-- 0 ABSENT, 1 USABLE, 2 INCOMPLETE, 3 DIVERGE, 4 MIXED -/
  verdict : Nat
  source : Nat
  flagged : Nat
  man : Option Man
  shards : List ((Nat × Nat) × List Byte)
deriving DecidableEq, Repr

/-- One step judged from at most two copies (R317). -/
def judgeStep (step : Nat) (p r : Option GenCopy) (lost : Bool) (flags : Nat) : Judged :=
  let man := ((p.bind copyMan).filter fun m => m.step == step).or ((r.bind copyMan).filter fun m => m.step == step)
  let ids : List (Nat × Nat) := match man with
    | some m => m.shards.map fun e => (e.1, e.2.1)
    | none => (((p.map GenCopy.shards).getD [] ++ (r.map GenCopy.shards).getD []).map fun (c : ShardCopy) =>
        (c.stack.toNat, c.index.toNat)).eraseDups
  let ds : List ((Nat × Nat) × Decided) := ids.map fun id => (id, decideShard man id (p.bind fun c => copyShard c step id) (r.bind fun c => copyShard c step id))
  let used := ds.filterMap fun e => match e.2 with | .use c _ _ _ => some (e.1, c.data) | _ => none
  let usable := man.isSome && ds.all fun e => match e.2 with | .use _ _ _ _ => true | _ => false
  let div := ds.any fun e => e.2 == .diverge
  let byP := ds.any fun e => match e.2 with | .use _ a _ _ => a | _ => false
  let byR := ds.any fun e => match e.2 with | .use _ _ b _ => b | _ => false
  { step := step, verdict := if usable then 1 else if div then 3 else if lost then 4 else 2
    source := if byP && byR then 2 else if byR then 1 else 0
    flagged := flags + (ds.filter fun e => match e.2 with | .use _ _ _ f => f | _ => false).length
    man := man, shards := used }

/-- A generation judged from this node's copy and its buddy's (R316). A mixed copy is set aside and flagged: each of its
shards counts as flagged. -/
def judge (p r : Option GenCopy) : Judged :=
  let here := fun (c : Option GenCopy) => c.filter copyPresent
  let aside := fun (c : Option GenCopy) => match here c with
    | some x => if copyMixed x then (none, x.shards.length) else (some x, 0)
    | none => (none, 0)
  let (p1, fp) := aside p
  let (r1, fr) := aside r
  let flags := fp + fr
  let lost := (here p).isSome && p1.isNone || (here r).isSome && r1.isNone
  match p1, r1 with
  | none, none => ⟨0, if lost then 4 else 0, 0, flags, none, []⟩
  | some a, some b =>
    match copyMan a, copyMan b with
    | some m, some n =>
      if m.step = n.step then
        if m.head = n.head ∧ m.sig = n.sig then judgeStep m.step p1 r1 lost flags else ⟨m.step, 3, 0, flags, none, []⟩
      else
        let jp := judgeStep m.step p1 none lost flags
        let jr := judgeStep n.step none r1 lost flags
        let (new, old) := if m.step < n.step then (jr, jp) else (jp, jr)
        if new.verdict = 1 then new else if old.verdict = 1 then old else new
    | some m, none => judgeStep m.step p1 r1 lost flags
    | none, some n => judgeStep n.step p1 r1 lost flags
    | none, none => judgeStep (copyStep a) p1 r1 lost flags
  | some a, none => judgeStep (copyStep a) p1 none lost flags
  | none, some b => judgeStep (copyStep b) none r1 lost flags

/-- Both generations judged, from own[g] and the copies read from the buddy. -/
def judgeBoth (s : State) (remote : List GenCopy) : State × List Judged :=
  let r := fun (g : Nat) => remote.find? fun (c : GenCopy) => c.gen == (g == 1)
  if s.ncr.cellarGib = 0 then (s, [judge none (r 0), judge none (r 1)])
  else
    let p0 := quarterCopy s 0
    let p1 := quarterCopy p0.1 1
    (p1.1, [judge (some p0.2) (r 0), judge (some p1.2) (r 1)])

/-- The restore report is written (R318, Table 12.7). -/
def writeReport (s : State) (js : List Judged) : State :=
  { s with ckpt := { s.ckpt with report := js.map fun j => (j.step, j.verdict, j.source, j.flagged) } }

/-! ### Adoption (R319) -/

/-- The line of a place among a stack's packed lines, from decided shards. -/
def lineOfShards (shards : List ((Nat × Nat) × List Byte)) (st j : Nat) : List Byte :=
  let o := 64 * j
  slice (((shards.find? fun x => x.1 == (st, o / 2 ^ 30 + 1)).map Prod.snd).getD []) (o % 2 ^ 30) 64

/-- The places of the state set in entry order: stack, place among the stack's packed lines. -/
def setLines (s : State) : List (Nat × Nat) :=
  match s.job.image.bind Image.stateset with
  | none => []
  | some ss => ss.entries.flatMap fun e =>
    match bufOf s e.buffer with
    | none => []
    | some b => (List.range (e.length / 64)).filterMap fun i =>
      match place s (b.base + e.offset + 64 * i) with
      | .mem st a => ((packedLines s st).findIdx? (· == a)).map fun j => (st, j)
      | _ => none

/-- A laid-out node's USABLE set of a step, held here, is written to the adopt buffer, its lines in entry order. -/
def adopt (s : State) (step : Nat) : State :=
  match (stateSet s).bind fun x => bufOf s x.adopt with
  | none => s
  | some buf =>
    let p2 := quarterCopy s 2
    let p3 := quarterCopy p2.1 3
    match ([p2.2, p3.2].map fun p => judge none (some p)).find? fun j => j.verdict == 1 && j.step == step with
    | none => p3.1
    | some j => (setLines s).zipIdx.foldl (fun t e => wrN t (buf.base + 64 * e.2) (lineOfShards j.shards e.1.1 e.1.2)) p3.1

/-! ### The restore (R319, R320) -/

/-- Every state-set line of a stack is written back from the chosen shards, whole, as any writer's are: reservations on it
are lost (10 R274). -/
def putLines (s : State) (shards : List ((Nat × Nat) × List Byte)) (st : Nat) : State :=
  (packedLines s st).zipIdx.foldl (fun t e =>
    if shards.any fun x => x.1 == (st, 64 * e.2 / 2 ^ 30 + 1) then
      wrN t (windowNpa st e.1) (lineOfShards shards st e.2)
    else t) s

/-- The declared hedges of the image with the nodes of a failed set left out (R302, 09 R258). -/
def layHedges (s : State) (failed : List NodeId) : List Hedge :=
  ((s.job.image.map Image.hedges).getD []).map fun d =>
    let ms := d.members.filter fun n => !failed.contains n
    let b := (bufOf s d.window).getD default
    { id := d.id, rank := (ms.findIdx? (· == nodeId s)).getD 0, members := ms, arity := d.arity, access := d.access,
      state := if ms.contains (nodeId s) then 1 else 3, winBase := b.base, winSize := b.size, remote := d.remote,
      workOff := d.workOff, workLen := d.workLen }

/-- The hedges of a restore: membership, and each epoch recorded plus 1 with ordinal 0 (R319 step 4). -/
def restoredHedges (s : State) (r : NodeRec) (failed : List NodeId) : List Hedge :=
  (layHedges s failed).map fun h =>
    let e := ((r.hedges.find? fun x => x.1 == h.id).map fun x => x.2.1).getD 0
    { h with epoch := BitVec.ofNat 32 (e + 1) }

/-- The espalier that the node remakes for the present membership: the active plan, else the image's. -/
def remadeDigest (s : State) : List Byte :=
  match (activePlan s).or (s.job.image.bind Image.plan) with
  | some p => shake256 (planBytes p)
  | none => List.replicate 64 0

/-- The record that a chosen set holds: shard 0, or, for a Talulas 2 manifest, what the manifest records (R320; log 18). -/
def chosenRecord (j : Judged) : List Byte :=
  if (j.man.map Man.version) = some 2 then Config.t2Record ((j.man.map Man.head).getD [])
  else ((j.shards.find? fun x => x.1 == (0, 0)).map Prod.snd).getD []

/-- What stops a restore from a judged set, before anything changes: VERIFY for a Talulas 2 manifest that the image does
not allow or an espalier whose digest differs under an unchanged membership, ABSENT for a recorded block that is out of
service (R319, R320). -/
def restoreBad (s : State) (j : Judged) (failed : List NodeId) : Option Status :=
  let r := nodeRecOf (chosenRecord j)
  let t2 := (j.man.map Man.version) == some 2
  let img := s.job.image.bind Image.stateset
  let t2ok := (img.map fun x => x.compatT2 && x.t2digest == ((j.man.map Man.image).getD [])).getD false && hostAssisted s 3
  if t2 && !t2ok then some .verify
  else if ((gradeBlocks s).zip r.blocks).any fun e => (e.2.queues.any QueueRec.live) && !blockLive s e.1 then some .absent
  else if !t2 && failed.all (r.failed.contains ·) && remadeDigest s != ((j.man.map Man.plan).getD []) then some .verify
  else none

/-- The state after a restore of a judged set. -/
def putRestore (s : State) (j : Judged) (failed : List NodeId) : State :=
  let r := nodeRecOf (chosenRecord j)
  let gone := (r.failed ++ failed).eraseDups
  let s1 := (List.range 12).foldl (fun t st => putLines t j.shards st) (drainAll s)
  let s2 := eraseKeys s1 0x200_0000_0000 0x201_1000_0000
  let s3 := ((gradeBlocks s2).zip r.blocks).foldl (fun t e => t.setBlk e.1 (putBlock (t.blk e.1) e.2)) s2
  let s4 := r.panFlags.zipIdx.foldl (fun t e => t.setStack e.2 { t.stack e.2 with flags := e.1 }) s3
  let s5 := r.pairs.foldl (fun (t : State) p =>
    let n : NodeId := BitVec.ofNat 20 p.1
    t.setPair n { t.pair n with txNext := p.2.1, rxNext := p.2.2, held := [], void := [], lineNak := [], naks := [] }) s4
  let num := (j.man.map Man.n).getD 0
  { s5 with
    brine := r.brine
    job := { s5.job with
      phase := .running, started := false, risen := true, step := BitVec.ofNat 48 j.step, failedSet := gone
      hedges := restoredHedges s5 r gone
      jobId := BitVec.ofNat 16 ((j.man.map Man.jobId).getD 0) }
    hold := { s5.hold with state := .held, restored := true, stepPending := false, wasReset := true, fatal := false }
    ckpt := { s5.ckpt with
      state := .restoring, gen := num % 2 == 1, n := num, step := BitVec.ofNat 48 j.step, doneN := num, mirroredN := num
      cutting := false, cutN := 0, cutStep := 0, mirrors := [], shards := [] } }

/-- RESTORE of step S* (R316 to R319): the outcome's status and the state. One that fails leaves its report and substitutes
no block (R318; 01 R28). -/
def restore (s : State) (step : Nat) (failed : List NodeId) (remote : List GenCopy) : State × Status :=
  let may := (s.hold.state == .held && s.hold.wasReset) || (s.job.phase == .loaded && s.hold.state == .run)
  if !may then (s, .state)
  else
    let (s0, js) := judgeBoth s remote
    match js.find? fun j => j.verdict == 1 && j.step == step with
    | none => (writeReport s0 js, if js.any fun j => j.verdict == 3 then .diverge else .mixed)
    | some j =>
      let s1 := writeReport (substitute s0) js
      match restoreBad s1 j failed with
      | some st => (writeReport s0 js, st)
      | none =>
        let s2 := if failed.any fun n => buddyOf s == some n then adopt s1 step else s1
        (putRestore s2 j failed, .ok)

end Sys2Proof.Machine
end

