-- ==== Sys2Proof/Machine/Launch.lean ====
section
/-!
DEFINITION. The two-phase launch and laying (09 R257 to R262), the start and the end of a job; the rows LAUNCH, PREPARE,
PREPARE_RESEND, PREPARE_ACK, COMMIT_DEADLINE, COMMIT, COMMIT_RESEND, EXPIRY, T_GO and RELAUNCH.
-/
namespace Sys2Proof.Machine

/-! ### The trees of a launch (R251, R259) -/

/-- The 128 bytes of a PREPARE, Table 09.6. -/
def prepBytes (m : PrepMsg) : List Byte :=
  leBytes 8 m.launchId.toNat ++ leBytes 8 m.tGo.toNat ++ leBytes 8 m.commitDeadline.toNat ++ leBytes 8 m.expiry.toNat ++
  leBytes 4 m.root.toNat ++ [m.arity, m.purpose] ++ leBytes 2 0 ++ leBytes 4 m.epoch.toNat ++ leBytes 20 0 ++
  slice m.digest 0 64

/-- The failed nodes that a PREPARE of purpose 1 names; zero entries fill (Table 09.6). -/
def failedOf (m : PrepMsg) : List NodeId :=
  if m.purpose = 1 then ((List.range 16).map fun i => (BitVec.ofNat 20 (le m.digest (4 * i) 4) : NodeId)).filter (· != 0) else []

/-- The declared members of hedge 0 in the loaded image. -/
def declared0 (s : State) : List NodeId :=
  (((s.job.image.map Image.hedges).getD []).find? fun d => d.id == 0).map HedgeDecl.members |>.getD []

/-- The members over which a PREPARE travels: hedge 0 as declared for a launch, its survivors for a lay. -/
def launchMembers (s : State) (m : PrepMsg) : List NodeId :=
  if m.purpose = 0 then declared0 s else (members0 s).filter fun n => !(failedOf m).contains n

/-- The children of a rank in tree B. -/
def childrenB (d n root r : Nat) : List Nat := (childPos d n (posB n root r)).map (rankB n root)

/-- This node's children in a tree of a launch. -/
def kids (s : State) (m : PrepMsg) (tree : Tree) : List NodeId :=
  let l := launchMembers s m
  match l.findIdx? (· == nodeId s), l.findIdx? (· == m.root) with
  | some r, some root =>
    let d := max 1 m.arity.toNat
    (match tree with
     | .A => childrenA d l.length root r
     | .B => childrenB d l.length root r).map fun i => l.getD i 0
  | _, _ => []

/-! ### CONTROL frames -/

/-- A CONTROL frame waits for a slot, at priority 5. -/
def sendCtl (s : State) (dst : NodeId) (op : Byte) (subop arg off : Nat) (bs : List Byte) : State :=
  enqueue s { frame := mkFrame s { type := tControl, opcode := op, dst := dst, subop := subop, opArg := arg, offset := off,
                                   last := true, data := bs }
              pri := 5 }

/-- The number of a tree in subop. -/
def treeBit : Tree → Nat
  | .A => 0
  | .B => 1

/-- PREPARE to some nodes in a tree. -/
def sendPrepare (s : State) (m : PrepMsg) (tree : Tree) (l : List NodeId) : State :=
  l.foldl (fun t n => sendCtl t n oPrepare (treeBit tree) 0 0 (prepBytes m)) s

/-- COMMIT to this node's children in both trees. -/
def sendCommit (s : State) (m : PrepMsg) : State :=
  (kids s m .A ++ kids s m .B).foldl (fun t n => sendCtl t n oCommit 0 0 0 (leBytes 8 m.launchId.toNat)) s

/-- A parent in a tree. -/
def Held.parent (h : Held) : Tree → Option NodeId
  | .A => h.parentA
  | .B => h.parentB

/-- This node has acknowledged in a tree. -/
def Held.acked (h : Held) : Tree → Bool
  | .A => h.ackedA
  | .B => h.ackedB

/-- The acknowledgement that a child gave in a tree: its status and count. -/
def Held.ackOf (h : Held) (tree : Tree) (n : NodeId) : Option (Byte × Nat) :=
  (h.acks.find? fun a => a.1 == (treeBit tree == 0) && a.2.1 == n).map fun a => a.2.2

/-- The held PREPARE changed. -/
def updPrep (s : State) (f : Held → Held) : State := { s with job := { s.job with prep := s.job.prep.map f } }

/-! ### Readiness and acknowledgement (R260) -/

/-- The bank whose plan is in force at a time of hall time: the armed one from its epoch on, else the active one (R55). -/
def bankAt (s : State) (t : Nat) : Option Bank :=
  match s.fab.armed.filter fun a => a.2 * 64 ≤ t with
  | some (b, _) => some (s.bank b)
  | none => (activePlan s).map fun _ => s.bank s.fab.activeBank

/-- A plan names a node in one of its flows. -/
def planNames (p : Plan) (n : NodeId) : Bool := (p.tx.any fun t => t.dst == n) || p.rx.any fun r => r.src == n

/-- A time lies on a plan-period boundary of the active plan, where there is one (R258). -/
def onPeriod (s : State) (t : Nat) : Bool := (activePlan s).isNone || t % (64 * 2 ^ s.fab.k.toNat) == 0

/-- The espalier for the job takes effect no later than t_go: a valid plan that connects the members where the image takes
checkpoints. A lay has one made for its survivors, which is activated at t_go, a plan-period boundary (R258, R260; 12
R305). -/
def espalierReady (s : State) (m : PrepMsg) : Bool :=
  let ms := launchMembers s m
  let lost := (members0 s).filter fun n => (failedOf m).contains n
  match bankAt s m.tGo.toNat with
  | some b =>
    b.valid &&
    (match b.plan with
     | some p =>
       (((s.job.image.bind Image.stateset).all fun x => x.k == 0) || (cutDepth p ms).isSome) &&
       (lost.isEmpty || (s.fab.armed.any fun a => a.2 * 64 == m.tGo.toNat) && onPeriod s m.tGo.toNat && !lost.any (planNames p))
     | none => false)
  | none => false

/-- The node is ready for a launch (R260). -/
def launchReady (s : State) (m : PrepMsg) : Bool :=
  s.tim.state == .locked &&
  (if m.purpose = 0 then
     s.job.phase == .loaded && s.hold.state == .run && ((s.job.image.map Image.digest) == some m.digest) &&
     (List.range 12).all fun i => (s.stack i).state != .failed
   else s.hold.state == .held) &&
  espalierReady s m

/-- What this node itself acknowledges: TIMEOUT once a restart of its scheduler core has broken off the launch (13 R335),
STATE while it is not ready. -/
def ownAck (s : State) (h : Held) : Status :=
  if 3 ≤ h.copies && !h.committed then .timeout else if launchReady s h.msg then .ok else .state

/-- Every child of a tree has acknowledged. -/
def kidsAcked (s : State) (h : Held) (tree : Tree) : Bool := (kids s h.msg tree).all fun n => (h.ackOf tree n).isSome

/-- The acknowledgement of this node's subtree: the first status that is not OK, and the members counted. -/
def subtreeAck (s : State) (h : Held) (tree : Tree) (own : Status) : Byte × Nat :=
  let l := (kids s h.msg tree).filterMap fun n => h.ackOf tree n
  let bad := (l.find? fun a => a.1 != 0).map Prod.fst
  (if own = .ok then bad.getD 0 else BitVec.ofNat 8 own.code, 1 + (l.map Prod.snd).foldl (· + ·) 0)

/-- PREPARE_ACK to the parent in a tree. -/
def sendAck (s : State) (tree : Tree) (own : Status) : State :=
  match s.job.prep.bind fun h => (h.parent tree).map fun p => (h, p) with
  | none => s
  | some (h, p) =>
    let (st, n) := subtreeAck s h tree own
    updPrep (sendCtl s p oPrepareAck (treeBit tree) st.toNat n (leBytes 8 h.msg.launchId.toNat)) fun x =>
      match tree with
      | .A => { x with ackedA := true }
      | .B => { x with ackedB := true }

/-- The node acknowledges in a tree once its children there have and it is ready; at once with STATE when it is not. -/
def tryAck (s : State) (tree : Tree) : State :=
  match s.job.prep with
  | none => s
  | some h =>
    if h.acked tree ∨ (h.parent tree).isNone then s
    else if ownAck s h ≠ .ok then sendAck s tree (ownAck s h)
    else if kidsAcked s h tree then sendAck s tree .ok
    else s

/-! ### Laying (R257, R258) -/

/-- A command in flight is an operation of a hedge: a COLL or a HEDGE operation on it, or a transfer to its window. -/
def onHedge (s : State) (f : InFl) (id : Nat) : Bool :=
  match f.cmd.opcode with
  | 0x56 => fld f.cmd.w3 0 16 == id
  | 0x64 => fld f.cmd.w1 0 16 == id
  | 0x43 | 0x52 | 0x53 | 0x54 | 0x55 =>
    (List.range 5).any fun i => match opnd s f (i + 1) with
      | some d => d.remote && remoteHedge s d == id
      | none => false
  | _ => false

/-- A command in flight ends with ABORTED, its context and brine entries with it. -/
def abortInFl (b : Blk) (q : Qc) (s : State) (f : InFl) : State :=
  let s1 := match f.cmd.ctx with
    | some n =>
      let c := s.ctx b n
      if (c.active.map Active.idx) = some f.idx then s.setCtx b n { c with active := none, state := .idle } else s
    | none => s
  finish (dropEntries s1 b f.idx) b q f.idx .aborted

/-- What was sent for a hedge is nobody's any more: frames without a sequence number are dropped, those with one keep
their place, so that the pair's order holds (R61); frames held behind a gap are consumed without effect. -/
def abortFrames (s : State) (id : Nat) : State :=
  let mine := fun (h : NgHdr) => h.hedgeId.toNat == id && h.type == tData
  let own := fun (o : OutFrame) => mine o.frame.hdr && o.frame.hdr.src == nodeId s
  { s with fab := { s.fab with
    ready := s.fab.ready.filter fun o => !own o
    pairs := s.fab.pairs.mapV {} fun _ k => { k with
      unacked := k.unacked.map fun o => if own o then { o with org := .nobody } else o
      held := k.held.filter fun f => !mine f.hdr
      void := k.void ++ (k.held.filter fun f => mine f.hdr).map fun f => f.hdr.seq }
    awaiting := s.fab.awaiting.filter fun a => a.hedge != id } }

/-- Every operation of the old epoch of a hedge ends with ABORTED: commands, whether their transfers wait, are under way
or await responses, and the accesses of harts (R258). -/
def abortHedge (s : State) (id : Nat) : State :=
  let own := fun (o : OutFrame) => o.frame.hdr.hedgeId.toNat == id && o.frame.hdr.src == nodeId s
  let outs := (s.fab.ready ++ s.fab.pairs.flatMap fun e => e.2.unacked).filter own
  let orgs : List (Origin × Byte × NodeId) := (outs.map fun o => (o.org, o.frame.hdr.opcode, o.frame.hdr.dst)) ++
    (s.fab.awaiting.filter fun a => a.hedge == id).map fun a => (a.org, oGetReq, a.peer)
  let s1 := (gradeBlocks s).foldl (fun t b => [Qc.IQ, .OQ, .CQ].foldl (fun u q =>
    (u.q b q).inflight.foldl (fun v f => if f.done.isNone && onHedge s f id then abortInFl b q v f else v) u) t)
    (abortFrames s id)
  orgs.eraseDups.foldl (fun t e => match e.1 with
    | .hart _ _ => failOrigin t e.1 e.2.1 e.2.2 .aborted none
    | _ => t) s1

/-- One hedge loses the failed members it has (R258). -/
def layHedge (failed : List NodeId) (s : State) (g : Hedge) : State :=
  if g.members.all fun n => !failed.contains n then s
  else
    let ms := g.members.filter fun n => !failed.contains n
    let s1 := abortHedge s g.id
    let s2 := if g.state = 1 then zeroWork s1 g else s1
    updHedge s2 g.id fun h => { h with
      members := ms, rank := (ms.findIdx? (· == nodeId s)).getD 0, epoch := h.epoch + 1, ordinal := 0, clears := []
      landed := [] }

/-- Every hart is stopped and its registers are cleared, once what its core's buffer holds has gone to memory (10 R270,
R272). -/
def stopHarts (s : State) : State := { drainAll s with harts := [], wcb := [] }

/-- The job ends: harts stop, the hedge and brine tables empty, the pattern slots empty (06 R171), the espalier stops at
its next period boundary; the image stays loaded (13 R337), and repairs are made (07 R209). -/
def endJob (s : State) : State :=
  let s1 := stopHarts s
  repairAll { s1 with
    brine := []
    blocks := s1.blocks.mapV {} fun _ k => { k with
      slv := { k.slv with pats := [] }
      queues := k.queues.mapV {} fun _ u => { u with pc := 0, loops := [], inflight := [], aregs := [], state := .idle,
                                                     haltStatus := .ok, haltIdx := 0, crc := 0, crcLog := [] } }
    job := { s1.job with phase := .loaded, started := false, hedges := [], prep := none, failedSet := [], step := 0, risen := false
                         sigs := [], sigLast := false, sigAt := none, root := none }
    hold := {}
    ckpt := { s1.ckpt with cutting := false, cutN := 0, doneN := 0, mirroredN := 0, mirrors := [] }
    fab := { s1.fab with stopping := (activePlan s1).isSome } }

/-- A survivor acts on the COMMIT of a lay; a node that finds itself among the failed ends the job (R258, 13 R337). -/
def layNow (s : State) (m : PrepMsg) : State :=
  let failed := failedOf m
  if failed.contains (nodeId s) then endJob s
  else
    let s1 := s.job.hedges.foldl (layHedge failed) s
    { s1 with job := { s1.job with failedSet := (s1.job.failedSet ++ failed).eraseDups } }

/-! ### The root (R259, R261) -/

/-- Members that the acknowledgements in a tree count at the root, and whether every one is OK. -/
def treeCount (s : State) (h : Held) (tree : Tree) : Nat × Bool :=
  let l := (kids s h.msg tree).map fun n => h.ackOf tree n
  ((l.filterMap id).map Prod.snd |>.foldl (· + ·) 0, l.all fun a => match a with | some (st, _) => st == 0 | none => false)

/-- An acknowledgement counting all the other members with status OK has reached the root in a tree. -/
def fullyAcked (s : State) (h : Held) : Bool :=
  let m := (launchMembers s h.msg).length - 1
  [Tree.A, .B].any fun t => treeCount s h t == (m, true)

/-- The root commits as soon as it may, by the commit deadline. -/
def tryCommit (s : State) : State :=
  match s.job.prep with
  | none => s
  | some h =>
    if h.msg.root = nodeId s ∧ h.committed = false ∧ h.copies = 0 ∧ s.tim.hall ≤ h.msg.commitDeadline.toNat ∧
        fullyAcked s h = true then
      let s1 := updPrep (sendCommit s h.msg) fun x => { x with committed := true, copies := 1, lastCopy := s.tim.now }
      if h.msg.purpose = 1 then layNow s1 h.msg else s1
    else s

/-- The times of a launch stand as R259 asks, and the arity is one of Table 09.6's trees. -/
def timesOk (tGo deadline expiry : W64) (arity : Byte) : Bool :=
  deadline.toNat < expiry.toNat && expiry.toNat + 4000 ≤ tGo.toNat && 2 ≤ arity.toNat && arity.toNat ≤ 16

/-- The root begins a launch: it holds the PREPARE and sends it in both trees. -/
def beginLaunch (s : State) (m : PrepMsg) : State :=
  let s1 := { s with job := { s.job with launches := s.job.launches + 1, prep := some { msg := m, lastSend := s.tim.now } } }
  let s2 := sendPrepare (sendPrepare s1 m .A (kids s1 m .A)) m .B (kids s1 m .B)
  tryCommit s2

/-- LAUNCH (mailbox 0xC040): on the root, with an image loaded and no job; in hardware mode on the NCR's launch root alone
(R259, 13 Tables 13.8, 13.9). -/
def execLaunch (root : W32) (tGo commitDeadline expiry : W64) (arity : Byte) (s : State) :
    Host.Outcome State Fault Refusal :=
  .next (mbx s false false fun s =>
    if !timesOk tGo commitDeadline expiry arity then invalid s
    else
      let here := root.toNat == (nodeId s).toNat && (hostAssisted s 7 || s.ncr.launchRoot.all (· == nodeId s))
      let failed := (List.range 12).any fun i => (s.stack i).state == .failed
      if !here || s.job.phase != .loaded || s.hold.state != .run || failed then done s .state
      else
        let id := Config.launchIdOf (nodeId s) s.job.launches
        let m : PrepMsg := { launchId := id, tGo := tGo, commitDeadline := commitDeadline, expiry := expiry, root := nodeId s,
                             arity := arity, purpose := 0, epoch := 0, digest := (s.job.image.map Image.digest).getD [] }
        done (beginLaunch s m) .ok (leBytes 8 id.toNat))

/-! ### Receipt -/

/-- The node takes part in a launch: it is in scheduled service and not halted (R46, R260), and its scheduler core runs. -/
def takesCtl (s : State) : Bool := s.tim.service && s.host.node != .halted && !restarting s 6

/-- A CONTROL frame comes from a node on the line that serves it (log 32). Without a receiving association there it is
lost, and one of a quarantined source is dropped and counted (02 R64, R68). -/
def fromNode (s : State) (src : NodeId) (run : State → State) : State :=
  let line := lineTo s src
  if !takesCtl s || !mayDecrypt s line then s
  else if (s.pair src).quarantined then dropQuarantined s (line / 2) src
  else run s

/-- PREPARE (R260): held, forwarded to the children in the tree it came by, and acknowledged; a duplicate is answered
again. A PREPARE of another launch takes the place of one that has no COMMIT. -/
def execPrepare (src : NodeId) (tree : Tree) (p : PrepMsg) (s : State) : Host.Outcome State Fault Refusal :=
  .next (fromNode s src fun s =>
    let same := (s.job.prep.map fun h => h.msg.launchId == p.launchId).getD false
    let free := (s.job.prep.map fun h => !h.committed).getD true
    if !same && !free then s
    else
      let s1 := if same then s else { s with job := { s.job with prep := some { msg := p, lastSend := s.tim.now } } }
      match s1.job.prep with
      | none => s1
      | some h =>
        match h.parent tree with
        | some _ => if h.acked tree then sendAck s1 tree (ownAck s1 h) else s1
        | none =>
          let s2 := updPrep s1 fun x => match tree with
            | .A => { x with parentA := some src }
            | .B => { x with parentB := some src }
          tryAck (sendPrepare s2 h.msg tree (kids s2 h.msg tree)) tree)

/-- PREPARE_RESEND: every 20 µs, until expiry, to the children that have not acknowledged, in the trees by which it came
(R260). -/
def execPrepareResend (s : State) : Host.Outcome State Fault Refusal :=
  .next (match s.job.prep with
    | none => s
    | some h =>
      if !takesCtl s || s.tim.now < h.lastSend + 20_000 || h.msg.expiry.toNat < s.tim.hall || h.committed then s
      else
        let root := h.msg.root == nodeId s
        let s1 := [Tree.A, .B].foldl (fun t tree =>
          if root || (h.parent tree).isSome then
            sendPrepare t h.msg tree ((kids s h.msg tree).filter fun n => (h.ackOf tree n).isNone)
          else t) s
        updPrep s1 fun x => { x with lastSend := s.tim.now })

/-- PREPARE_ACK (R260, R261): counted once a child and tree; at the root COMMIT goes out as soon as it may. -/
def execPrepareAck (src : NodeId) (tree : Tree) (launchId : W64) (status : Byte) (count : Nat) (s : State) :
    Host.Outcome State Fault Refusal :=
  .next (fromNode s src fun s => match s.job.prep with
    | none => s
    | some h =>
      if h.msg.launchId != launchId || !(kids s h.msg tree).contains src then s
      else
        let rest := h.acks.filter fun a => !(a.1 == (treeBit tree == 0) && a.2.1 == src)
        let s1 := updPrep s fun x => { x with acks := rest ++ [(treeBit tree == 0, src, status, count)] }
        if h.msg.root = nodeId s then tryCommit s1 else tryAck s1 tree)

/-- The children at whose subtrees the acknowledgement of a tree is missing or refuses, of both trees. -/
def missing (s : State) (h : Held) : List NodeId :=
  ([Tree.A, .B].flatMap fun t => (kids s h.msg t).filter fun n => (h.ackOf t n).map Prod.fst != some 0).eraseDups

/-- A launch's failure is reported: log entries of four nodes each, one at least (R261; log 33). -/
def reportMissing (s : State) (l : List NodeId) : State :=
  (List.range (max 1 (cdiv l.length 4))).foldl (fun t i =>
    logEntry t 6 0 0 (((l.drop (4 * i)).take 4).flatMap fun n => leBytes 4 n.toNat)) s

/-- COMMIT_DEADLINE: at the root, a launch without COMMIT has failed; it is reported with the subtrees that are missing
or refused (R261). -/
def execCommitDeadline (s : State) : Host.Outcome State Fault Refusal :=
  .next (match s.job.prep with
    | none => s
    | some h =>
      if h.msg.root = nodeId s ∧ h.committed = false ∧ h.copies = 0 ∧ h.msg.commitDeadline.toNat ≤ s.tim.hall then
        let s1 := tryCommit s
        match s1.job.prep with
        | some x =>
          if x.committed then s1
          else reportMissing (updPrep s1 fun x => { x with copies := 3 }) (missing s h)
        | none => s1
      else s)

/-- COMMIT: the first copy by expiry is forwarded in both trees and held for t_go; a lay is acted on (R258, R261). -/
def execCommit (src : NodeId) (launchId : W64) (s : State) : Host.Outcome State Fault Refusal :=
  .next (fromNode s src fun s => match s.job.prep with
    | none => s
    | some h =>
      let known := src == h.msg.root || h.parentA == some src || h.parentB == some src || (launchMembers s h.msg).contains src
      if !known || h.msg.launchId != launchId || h.committed || h.msg.expiry.toNat < s.tim.hall then s
      else
        let s1 := updPrep (sendCommit s h.msg) fun x => { x with committed := true }
        if h.msg.purpose = 1 then layNow s1 h.msg else s1)

/-- COMMIT_RESEND: the root's second and third copies, 2 µs apart (R261). -/
def execCommitResend (s : State) : Host.Outcome State Fault Refusal :=
  .next (match s.job.prep with
    | none => s
    | some h =>
      if takesCtl s && h.msg.root == nodeId s && h.committed && h.copies < 3 && h.lastCopy + 2000 ≤ s.tim.now then
        updPrep (sendCommit s h.msg) fun x => { x with copies := x.copies + 1, lastCopy := s.tim.now }
      else s)

/-- EXPIRY: a PREPARE without COMMIT is void; the node reports that it does not start (R261, R262). -/
def execExpiry (s : State) : Host.Outcome State Fault Refusal :=
  .next (match s.job.prep with
    | none => s
    | some h =>
      if h.committed = false ∧ h.msg.expiry.toNat ≤ s.tim.hall then
        record { s with job := { s.job with prep := none } } .launchNocommit
          { unitKind := 9, unit := 6, detail := detailD 0 0 0 h.msg.root.toNat (nodeId s).toNat 0 [] }
      else s)

/-! ### T_go (R262, 10 R270) -/

/-- The harts of the start table leave the stopped state: a2 is the restored step (10 R270, 12 R302). -/
def startHarts (s : State) (step : Nat) : State :=
  ((s.job.image.map Image.starts).getD []).foldl (fun t e =>
    let i : BitVec 6 := BitVec.ofNat 6 (e.core * 4 + e.thread)
    let old := t.hart i
    let h : Hart := { state := .running, pc := e.entry, tcmp := old.tcmp, msip := old.msip, rstat := old.rstat }
    let h1 := ((h.setX 10 e.arg).setX 11 (BitVec.ofNat 64 (nodeId s).toNat)).setX 12 (BitVec.ofNat 64 step)
    t.setHart i { h1 with csr := { h1.csr with mstatus := 1 <<< 15 } }) s

/-- Step 0 begins: the queues stand at their first commands, the pattern slots hold the image's patterns, every count is
zero (04 R98, R102, R112, 06 R171, 08 R223). -/
def firstStep (s : State) (m : PrepMsg) : State :=
  let pats := (s.job.image.map Image.pats).getD []
  let slots := fun (key : Nat) => (pats.filter fun p => p.1 == key).foldl
    (fun (a : SMap Pat) p => SMap.ins (SMap.erase a p.2.1) p.2.1 p.2.2) []
  { s with
    blocks := s.blocks.mapV {} fun key k => { k with
      ev := [], dEvents := 0
      slv := { k.slv with pats := slots key }
      ctxs := k.ctxs.mapV {} fun _ c => { c with peer := 0, own := 0, issued := 0, active := none, state := .idle }
      queues := k.queues.mapV {} fun _ u => { u with
        pc := 0, loops := [], inflight := [], aregs := [], haltStatus := .ok, haltIdx := 0, crc := 0, crcLog := []
        state := if u.stream.isEmpty then .endd else .run } }
    job := { s.job with
      phase := .running, started := true, risen := false, step := 0, prep := none, failedSet := [], root := some m.root
      jobId := Config.jobIdOf m.launchId, hedges := layHedges s [], sigs := [], sigLast := false, sigAt := none }
    hold := {} }

/-- A held job goes on: its queues issue past STEP (12 R319, 13 R337). -/
def goOn (s : State) (m : PrepMsg) : State :=
  releaseQueues { s with
    job := { s.job with phase := .running, started := true, prep := none, root := some m.root }
    hold := {}
    ckpt := { s.ckpt with state := if s.ckpt.state = .restoring then .none else s.ckpt.state } }

/-- T_GO: a node that holds a COMMIT starts the job (R262); a lay goes on from the step it is held at. -/
def execTGo (s : State) : Host.Outcome State Fault Refusal :=
  .next (match s.job.prep with
    | none => s
    | some h =>
      if h.committed = true ∧ h.msg.tGo.toNat ≤ s.tim.hall ∧ s.host.node ≠ .halted then
        if h.msg.purpose = 0 then startHarts (firstStep s h.msg) 0
        else
          let restored := s.hold.restored
          let s1 := goOn s h.msg
          if restored then startHarts s1 s.job.step.toNat else s1
      else s)

/-! ### RELAUNCH (13 R337) -/

/-- The coordinator runs a PREPARE of purpose 1 with the failed nodes it is given; refused unless the job holds, and, for a
lay, unless t_go lies on a plan-period boundary (R257, R258; the status is log 33's). -/
def relaunch (s : State) (tGo deadline expiry : W64) (failed : List NodeId) : State × Status :=
  if coordinatorOf s ≠ nodeId s ∨ s.hold.state ≠ .held ∨ (failed ≠ [] ∧ onPeriod s tGo.toNat = false) then (s, .state)
  else
    let epoch := ((hedgeOf s 0).map fun h => h.epoch + 1).getD 0
    let d := ((hedgeOf s 0).map Hedge.arity).getD 2
    let m : PrepMsg :=
      { launchId := Config.launchIdOf (nodeId s) s.job.launches, tGo := tGo, commitDeadline := deadline, expiry := expiry,
        root := nodeId s, arity := BitVec.ofNat 8 d, purpose := 1, epoch := epoch,
        digest := slice ((failed.take 16).flatMap fun n => leBytes 4 n.toNat) 0 64 }
    (beginLaunch { s with hold := { s.hold with orders := s.hold.orders.filter fun o => o.1 != 4 } } m, .ok)

end Sys2Proof.Machine
end

