-- ==== Sys2Proof/Machine/Recover.lean ====
section
/-!
DEFINITION. Holds, notices, orders and the queue reset (11 R289, R290; 13 R337 to R339); the rows HELD, HOLD_LIMIT,
HOLD_NOTICE, SETTLE_WINDOW_END, NOTICE_RESEND, HOLD, RESET, RESETTING_DRAINED, RESTORE, RELAUNCH, TERMINATE, RESUME and
COALESCE_EXPIRY.
-/
namespace Sys2Proof.Machine

/-! ### Entering HELD (11 R289) -/

/-- A queue is in an event wait whose unmet producers include one of `known`. -/
def waitsFor (k : Block) (known : List Nat) (q : Qc) : Bool :=
  let u := k.queue q
  u.state == .run && !queueBad u && match u.stream[u.pc]? with
    | some c => c.waitCount != 0 && (waitsOn q c).any fun p => evGet k p q.code < c.waitCount && known.contains p
    | none => false

/-- The queues that hang on a halted one: from the halted queues on, in six rounds. -/
def hung (k : Block) : List Nat :=
  let halted := (Qc.all.filter fun q => (k.queue q).state == .halt).map Qc.code
  (List.range 6).foldl (fun known _ =>
    (Qc.all.filter fun q => known.contains q.code || waitsFor k known q).map Qc.code) halted

/-- A queue of a block stands still for good: at STEP, END or HALT, without a stream, or hung on a halted queue. -/
def standsStill (k : Block) (q : Qc) : Bool :=
  let u := k.queue q
  u.state == .step || u.state == .endd || u.state == .halt || u.stream.isEmpty || waitsFor k (hung k) q

/-- The hold condition of R289: every queue of every live block is in STEP, END or HALT, or hangs on a halted queue. -/
def holdReached (s : State) : Bool :=
  (liveBlocks s).all fun b => Qc.all.all (standsStill (s.blk b))

/-- HELD: the hold condition is met. -/
def execHeld (s : State) : Host.Outcome State Fault Refusal :=
  .next (
    if s.hold.state = .holding ∧ holdReached s = true then
      enterHeld { s with hold := { s.hold with stepPending := allAtStep s && !s.job.risen } } false
    else s)

/-- HOLD_LIMIT: hold_limit has passed since the first halt. -/
def execHoldLimit (s : State) : Host.Outcome State Fault Refusal :=
  .next (
    if s.hold.state = .holding ∧ s.hold.firstHalt + s.ncr.holdLimitMs * 1_000_000 ≤ s.tim.hall then
      enterHeld { s with hold := { s.hold with stepPending := allAtStep s && !s.job.risen } } true
    else s)

/-! ### The coordinator (13 R338, R339) -/

/-- HOLD_NOTICE: a notice received is taken; the first without the orphan flag opens a settle window, and HOLD goes to
every member. -/
def execHoldNotice (src : NodeId) (n : Notice) (s : State) : Host.Outcome State Fault Refusal :=
  .next (match takeControl s src (noticeBytes n) with
    | none => s
    | some t =>
      let kept := (t.hold.notices.filter fun e => e.1 != src) ++ [(src, n)]
      let t1 := { t with hold := { t.hold with notices := kept, coordinator := some (nodeId t) } }
      if hostAssisted t1 4 || n.orphan || t1.hold.settleEnds.isSome then t1
      else
        let t2 := { t1 with hold := { t1.hold with settleEnds := some (t1.tim.now + t1.ncr.settleMs * 1_000_000) } }
        orderAll t2 (members0 t2) 1 0 [])

/-- The failed set at the end of a settle window: nodes reported silent, members without a notice, and the coordinators
before this one. -/
def failedSet (s : State) : List NodeId :=
  let silent := s.hold.notices.flatMap fun e => e.2.silent
  let before := (coordOrder s).takeWhile fun n => n != nodeId s
  (members0 s).filter fun n =>
    n != nodeId s && (silent.contains n || before.contains n || !(s.hold.notices.any fun e => e.1 == n))

/-- SETTLE_WINDOW_END: the coordinator decides and sends its orders; a restore follows once the members' reports have
come (12 R318; log 33). -/
def execSettleWindowEnd (s : State) : Host.Outcome State Fault Refusal :=
  .next (match s.hold.settleEnds with
    | none => s
    | some t =>
      if s.tim.now < t ∨ hostAssisted s 4 = true then s
      else
        let f := failedSet s
        let left := (members0 s).filter fun n => !f.contains n
        let s1 := { s with hold := { s.hold with settleEnds := none, notices := [] } }
        if (stateSet s).isNone then orderAll s1 left 5 0 []
        else
          let lays := f.isEmpty || (f.length ≤ 16 && !hostAssisted s 2)
          orderAll { s1 with hold := { s1.hold with want := if lays then some f else none, reports := [] } } left 2 0 [])

/-- NOTICE_RESEND: a held member without an order within 2 x policy_settle takes the lowest-ranked member it has not
tried as coordinator; at most 16 are tried (R339). -/
def execNoticeResend (s : State) : Host.Outcome State Fault Refusal :=
  .next (match s.hold.noticeAt with
    | none => s
    | some t =>
      if s.hold.state ≠ .held ∨ s.tim.now < t + 2 * s.ncr.settleMs * 1_000_000 ∨ 16 ≤ s.hold.tried.length then s
      else match (members0 s).find? fun n => !s.hold.tried.contains n with
        | some n => sendNotice s n
        | none => s)

/-! ### Orders (13 R337) -/

/-- An order comes by POLICY_ORDER, or by a frame that stands at the front of the receive queue; one from a member
makes that member the present coordinator. -/
def byOrder (s : State) (src : OrderSrc) (bs : List Byte) (run : State → State × Status) : State :=
  match src with
  | .mbx => mbx s false false fun t => let (u, st) := run t; done u st
  | .frame n => match takeControl s n bs with
    | none => s
    | some t => (run { t with hold := { t.hold with coordinator := some n, noticeAt := none } }).1

/-- HOLD: a RUN node moves to HOLDING and holds at its next step boundary, before the counter rises. -/
def holdOrder (s : State) : State × Status :=
  if s.job.phase ≠ .running then (s, .state)
  else if s.hold.state ≠ .run then (s, .ok)
  else
    let t := enterHolding s .C none
    ({ t with hold := { t.hold with atBoundary := true, stepPending := true } }, .ok)

/-- HOLD. -/
def execHold (src : OrderSrc) (s : State) : Host.Outcome State Fault Refusal :=
  .next (byOrder s src (orderBytes 1 0 0 0 0 []) holdOrder)

/-- The commands in flight that have faulted. -/
def faultedNow (s : State) : List (Nat × Nat × Nat) :=
  (gradeBlocks s).flatMap fun b => Qc.all.flatMap fun q => (s.q b q).inflight.filterMap fun f =>
    match f.done with
    | some st => if st.good then none else some (b.key, q.code, f.idx)
    | none => none

/-- The queue reset begins (11 R290 step 1). -/
def beginReset (s : State) (ending : Bool) : State :=
  traceHw { s with hold := { s.hold with state := .resetting, ending := ending, faulted := faultedNow s } } 3

/-- RESET: refused with STATE unless the node is HELD. -/
def resetOrder (s : State) : State × Status :=
  if s.hold.state = .held then (beginReset s false, .ok) else (s, .state)

/-- RESET. -/
def execReset (src : OrderSrc) (s : State) : Host.Outcome State Fault Refusal :=
  .next (byOrder s src (orderBytes 2 0 0 0 0 []) resetOrder)

/-! ### The queue reset (11 R290) -/

/-- Nothing that the node sent is outstanding: local requests, frames, and responses awaited. -/
def drained (s : State) : Bool :=
  (s.blocks.all fun e => e.2.ctxs.all fun c => match c.2.active with
    | some a => a.remote || a.sent.isEmpty
    | none => true) &&
  (s.fab.pairs.all fun e => e.2.unacked.isEmpty) && s.fab.awaiting.all fun a => match a.org with | .cmd _ _ _ _ => false | _ => true

/-- The decoded command of a queue that has not issued: the one at the fetch point of a queue that runs or has halted,
its tag right. How far decode runs ahead of issue is not given: the model's front end holds this one (R290 step 3; log
69). -/
def decodedNext (s : State) (b : Blk) (q : Qc) : Option Cmd :=
  let u := s.q b q
  if u.state == .run || u.state == .halt then u.stream[u.pc]?.filter (tagOk s) else none

/-- Completion records that the reset writes. -/
def resetRecords (s : State) : Nat :=
  ((gradeBlocks s).flatMap fun b => Qc.all.flatMap fun q =>
    ((s.q b q).inflight.map InFl.cmd ++ (decodedNext s b q).toList).filter Cmd.notify).length

/-- One command ends: a fault from before the reset is kept, one met during it is recorded, all else is ABORTED. -/
def abortCmd (b : Blk) (q : Qc) (s : State) (f : InFl) : State :=
  let kept := s.hold.faulted.contains (b.key, q.code, f.idx)
  let st : Status := if kept then f.done.getD .aborted else .aborted
  let s1 := match f.done with
    | some x => if kept || x.good then s else record s (f.err.getD .cmdFailed) (cmdArgs s b q f x)
    | none => s
  notifyRec s1 b q f.cmd f.pos st

/-- The commands of a queue end: those in flight in program order, then the decoded one behind them with ABORTED. -/
def abortQueue (b : Blk) (s : State) (q : Qc) : State :=
  let t := (s.q b q).inflight.foldl (abortCmd b q) s
  match decodedNext s b q with
  | some c => notifyRec t b q c (s.q b q).pc .aborted
  | none => t

/-- A queue after the reset. -/
def cleared (u : Queue) : Queue :=
  { u with pc := 0, loops := [], aregs := [], inflight := [], state := .idle, haltStatus := .ok, haltIdx := 0, crc := 0,
           crcLog := [] }

/-- A frame without a sequence number stays ready through a reset: answers to peers, reports, notices and orders. -/
def staysReady (o : OutFrame) : Bool :=
  match o.org with
  | .nobody => o.frame.hdr.opcode != oColl && o.frame.hdr.type != tSignature
  | .hart _ _ | .report => true
  | _ => false

/-- The restore reports of the other members are read (12 R312). -/
def readReports (s : State) (failed : List NodeId) : State :=
  ((members0 s).filter fun n => n != nodeId s && !failed.contains n).foldl (fun t n =>
    sendData t .report 3 { opcode := oGetReq, dst := n, hedge := 0, offset := 0xC0_0000_0000_0000, length := some 40 }) s

/-- Steps 3 and 4 of R290: commands end, counters and counts are zero, brine entries leave the table, an unfinished
checkpoint is abandoned (12 R311). The node stands HELD, its queues reset (log 33). -/
def resetQueues (s : State) : State :=
  let s1 := (gradeBlocks s).foldl (fun t b => Qc.all.foldl (abortQueue b) t) s
  let busy := s1.ckpt.state == .cut || s1.ckpt.state == .copy || s1.ckpt.state == .sign || s1.ckpt.state == .mirror
  { s1 with
    blocks := s1.blocks.mapV {} fun _ k => { k with
      ev := []
      queues := k.queues.mapV {} fun _ u => cleared u
      ctxs := k.ctxs.mapV {} fun _ c => { c with peer := 0, own := 0, issued := 0, state := .idle, active := none } }
    brine := []
    stk := s1.stk.mapV {} fun _ k => { k with ckPending := [] }
    ckpt := { s1.ckpt with state := if busy then .none else s1.ckpt.state, cutting := false, mirrors := [] }
    fab := { s1.fab with ready := s1.fab.ready.filter staysReady }
    job := { s1.job with sigs := [], sigLast := false, sigAt := none, risen := false }
    hold := { s1.hold with state := .held, wasReset := true, faulted := [] } }

/-- RESETTING_DRAINED: everything outstanding is settled, and the completion buffer has room for the records. -/
def execResettingDrained (s : State) : Host.Outcome State Fault Refusal :=
  .next (
    if s.hold.state = .resetting ∧ drained s = true ∧ s.host.cbuf.length + resetRecords s ≤ 4096 then
      let s1 := resetQueues s
      if s.hold.ending then endJob s1
      else
        let s2 := if (stateSet s1).isSome then let (t, js) := judgeBoth s1 []; writeReport t js else s1
        match s2.hold.want with
        | some f => reportCame (readReports s2 f) (nodeId s2) (reportBytes s2)
        | none => s2
    else s)

/-! ### RESTORE, RELAUNCH, TERMINATE, RESUME -/

/-- RESTORE: R319; a coordinator whose restore fails with DIVERGE or MIXED orders the end of the job (R338). -/
def execRestore (src : OrderSrc) (step : BitVec 48) (failed : List NodeId) (remote : List GenCopy) (s : State) :
    Host.Outcome State Fault Refusal :=
  .next (byOrder s src (orderBytes 3 0 0 0 step.toNat failed) fun t =>
    let (u, st) := restore t step.toNat failed remote
    if (st = .diverge ∨ st = .mixed) ∧ u.hold.orders ≠ [] then
      (orderAll { u with hold := { u.hold with orders := [] } } ((members0 u).filter fun n => !failed.contains n) 5 0 [], st)
    else (u, st))

/-- RELAUNCH: by POLICY_ORDER, or the coordinator's own after the restore it ordered. -/
def execRelaunch (src : OrderSrc) (tGo commitDeadline expiry : W64) (failed : List NodeId) (s : State) :
    Host.Outcome State Fault Refusal :=
  .next (
    let d := ((hedgeOf s 0).map Hedge.arity).getD 2
    let ok := timesOk tGo commitDeadline expiry (BitVec.ofNat 8 d) && failed.length ≤ 16
    match src with
    | .mbx => mbx s false false fun t =>
        if !ok then invalid t
        else
          let (u, st) := relaunch t tGo commitDeadline expiry failed
          done u st
    | .frame n =>
      if n = nodeId s ∧ s.hold.orders.contains (4, failed) = true ∧ ok = true then
        (relaunch s tGo commitDeadline expiry failed).1
      else byOrder s src (orderBytes 4 tGo commitDeadline expiry 0 failed) fun t =>
        if ok then relaunch t tGo commitDeadline expiry failed else (t, .state))

/-- TERMINATE: the queue reset if it has not been made, then the end of the job. -/
def terminate (s : State) : State × Status :=
  if s.job.phase ≠ .running then (s, .state)
  else match s.hold.state with
    | .held => if s.hold.wasReset then (endJob s, .ok) else (beginReset s true, .ok)
    | .resetting => ({ s with hold := { s.hold with ending := true } }, .ok)
    | _ => (s, .state)

/-- TERMINATE. -/
def execTerminate (src : OrderSrc) (s : State) : Host.Outcome State Fault Refusal :=
  .next (byOrder s src (orderBytes 5 0 0 0 0 []) terminate)

/-- RESUME: a HELD node with no halted queue and no F1 or F2 event since the hold began goes on; the step counter rises
where the hold came before the boundary. -/
def resume (s : State) : State × Status :=
  let halted := (liveBlocks s).any fun b => Qc.all.any fun q => (s.q b q).state == .halt
  if s.hold.state ≠ .held ∨ halted = true ∨ s.hold.fatal = true ∨ s.hold.wasReset = true then (s, .state)
  else
    let t := traceHw { s with hold := { coordinator := s.hold.coordinator } } 3
    if s.hold.stepPending && allAtStep s && !s.job.risen then (takeBoundary t, .ok)
    else if s.ckpt.cutting then (t, .ok)
    else (releaseQueues t, .ok)

/-- RESUME. -/
def execResume (src : OrderSrc) (s : State) : Host.Outcome State Fault Refusal :=
  .next (byOrder s src (orderBytes 6 0 0 0 0 []) resume)

/-! ### COALESCE_EXPIRY (11 R288) -/

/-- COALESCE_EXPIRY: at the end of its second, further C events of a code and unit make one record with their count. -/
def execCoalesceExpiry (code : W16) (unit : Nat) (s : State) : Host.Outcome State Fault Refusal :=
  .next (
    match s.err.coal.find? fun w => w.code.info.1 == code.toNat && w.unit == unit && w.ends ≤ s.tim.now with
    | none => s
    | some w =>
      let s1 := { s with err := { s.err with coal := s.err.coal.filter fun x => x != w } }
      if w.count = 0 then s1 else pushRec s1 { w.last with count := w.count })

end Sys2Proof.Machine
end

