-- ==== Sys2Proof/Machine/Lease.lean ====
section
/-!
DEFINITION. The lease and orphan mode (13 R340 to R342): the rows LEASE_TAKE, LEASE_RENEW, LEASE_RELEASE and
LEASE_EXPIRED.
-/
namespace Sys2Proof.Machine

/-- The end of a period of lease_ms that starts now. -/
def leaseEnd (s : State) : Nat := s.tim.now + s.ncr.leaseMs * 1000000

/-- The functions that are host-assisted by the mode word. -/
def assisted (s : State) : W32 := s.host.mode &&& 0x1FF

/-- Orphan mode begins (R340, R341): the interrupt, the record and the I3C alert; the functions that may fall back do, and
where any may not the node performs HOLD on itself. -/
def enterOrphan (s : State) : State :=
  let falls := assisted s &&& s.ncr.fallback
  let stays := assisted s &&& ~~~ s.ncr.fallback
  let holds := stays != 0 && s.job.phase == .running
  let s1 := { s with host := { s.host with
    leaseHeld := false, orphan := true, fallback := falls, returning := 0, fellBack := falls
    orphanHall := s.tim.hall, orphanHeld := holds, orphanFirst := s.err.seq } }
  let s2 := ibi (record (raise s1 4) .leaseExpired { unitKind := 8, unit := 0, detail := detailF 0 0 0 }) 0x01
  if holds then (holdOrder s2).1 else s2

/-- A lease whose period has ended has expired, whenever it is next looked at (R340). -/
def leaseDue (s : State) : State := if s.host.leaseHeld && decide (s.host.leaseEnds ≤ s.tim.now) then enterOrphan s else s

/-- A write of the lease that R340 ignores. -/
def lateLease (s : State) : State := { s with host := { s.host with late := true } }

/-- Orphan mode ends: functions that fell back return at the next step boundary, or at once where the node is HELD or no
job runs (R342). -/
def endOrphan (s : State) : State :=
  let h := s.host
  let now := s.hold.state == .held || s.job.phase != .running
  { s with host := { h with
    orphan := false, fallback := if now then 0 else h.fallback, returning := if now then 0 else h.fallback
    orphanLast := s.err.seq - 1 } }

/-- Take: while a lease is held by this ID it has no effect (R340; log 36). -/
def leaseTake (s : State) (holder : W32) : State :=
  let s := leaseDue s
  if s.host.leaseHeld then (if s.host.holder = holder then s else lateLease s)
  else
    let s1 := if s.host.orphan then endOrphan s else s
    { s1 with host := { s1.host with holder := holder, leaseHeld := true, leaseEnds := leaseEnd s } }

/-- Renew. -/
def leaseRenew (s : State) (holder : W32) : State :=
  let s := leaseDue s
  if s.host.leaseHeld ∧ s.host.holder = holder then { s with host := { s.host with leaseEnds := leaseEnd s } } else lateLease s

/-- Release. -/
def leaseRelease (s : State) (holder : W32) : State :=
  let s := leaseDue s
  if s.host.leaseHeld ∧ s.host.holder = holder then enterOrphan s else lateLease s

/-- The host reaches the HRW: its link is up (R324). -/
def overLink (s : State) (f : State → State) : State := if s.host.linkUp then f s else s

/-- LEASE_TAKE (R340, R342). -/
def execLeaseTake (holder : W32) (s : State) : Host.Outcome State Fault Refusal := .next (overLink s fun s => leaseTake s holder)

/-- LEASE_RENEW (R340). -/
def execLeaseRenew (holder : W32) (s : State) : Host.Outcome State Fault Refusal := .next (overLink s fun s => leaseRenew s holder)

/-- LEASE_RELEASE (R340, R341). -/
def execLeaseRelease (holder : W32) (s : State) : Host.Outcome State Fault Refusal :=
  .next (overLink s fun s => leaseRelease s holder)

/-- LEASE_EXPIRED: the end of a period without renewal (R340, R341). -/
def execLeaseExpired (s : State) : Host.Outcome State Fault Refusal := .next (leaseDue s)

end Sys2Proof.Machine
end

