-- ==== Sys2Proof/Machine/Mailbox.lean ====
section
/-!
DEFINITION. Mailbox commands on placement, plans, holds and checkpoints (13 Table 13.8), and the end of a background
command; the rows BG_RESULT, BG_ABORT, BACKGROUND_COMPLETE, PLACEMENT_GET, PLACEMENT_SET, PLAN_WRITE, PLAN_ARM,
HOLD_STATUS, ORPHAN_LOG, CKPT_DRAIN, CKPT_LOAD and RESTORE_REPORT.
-/
namespace Sys2Proof.Machine

/-! ### Background commands (R332) -/

/-- The output payload of a command: its 8-byte header, then its own bytes (R332). -/
def MbxOut.bytes (o : MbxOut) : List Byte := leBytes 1 o.status.code ++ leBytes 3 0 ++ leBytes 4 o.detail ++ o.out

/-- BG_RESULT: the opcode and output of the last background command, opcode 0 before the first. -/
def execBgResult (s : State) : Host.Outcome State Fault Refusal :=
  .next (mbx s true false fun s =>
    done s .ok (match s.host.bgLast with
      | some g => leBytes 2 g.opcode ++ g.out.bytes
      | none => leBytes 2 0))

/-- The background command ends: its result can be read, and a quarter that it used is free (R308, R332). -/
def bgEnds (s : State) (g : Bg) : State :=
  { s with
    host := { s.host with bg := none, bgLast := some g }
    ckpt := { s.ckpt with busy0 := false, busy1 := false } }

/-- BG_ABORT: the background command ends with ABORTED; what it has done stays (Table 00.5; log 19). -/
def execBgAbort (s : State) : Host.Outcome State Fault Refusal :=
  .next (mbx s true false fun s =>
    match s.host.bg with
    | some g => done (bgEnds s { g with out := ⟨.success, .aborted, 0, []⟩ }) .ok
    | none => done s .state)

/-- BACKGROUND_COMPLETE (R332). -/
def execBackgroundComplete (s : State) : Host.Outcome State Fault Refusal :=
  .next (match s.host.bg with
    | some g => raise (bgEnds s g) 7
    | none => s)

/-! ### Placement (R41, R336) -/

/-- PLACEMENT_GET: the mode word and the NCR's fallback word. -/
def execPlacementGet (s : State) : Host.Outcome State Fault Refusal :=
  .next (mbx s true false fun s => done s .ok (leBytes 4 s.host.mode.toNat ++ leBytes 4 s.ncr.fallback.toNat))

/-- PLACEMENT_SET: with bits [31:9] nonzero Invalid Input, while a job runs STATE (R41, R336). -/
def execPlacementSet (mode : W32) (s : State) : Host.Outcome State Fault Refusal :=
  .next (mbx s false false fun s =>
    if 0x1FF < mode.toNat then invalid s
    else if s.job.phase = .running then done s .state
    else done { s with host := { s.host with mode := mode } } .ok)

/-! ### Plans (R51 to R54) -/

/-- PLAN_WRITE: the host's plan enters a bank that is not active and is checked; one that is not legal gives VERIFY
(R51, R53). -/
def execPlanWrite (bank : Bool) (k : Byte) (plan : Plan) (s : State) : Host.Outcome State Fault Refusal :=
  .next (mbx s false false fun s =>
    let out := leBytes 1 s.fab.refusal.toNat
    if !hostAssisted s 0 || ((activePlan s).isSome && bank == s.fab.activeBank) then background s 0xC030 .state out
    else
      let t := putPlan s bank { plan with k := k.toNat }
      background t 0xC030 (if (t.bank bank).valid then .ok else .verify) out)

/-- PLAN_ARM: what ESP_CTRL holds and arms; behind a refused arm STATE, behind a plan that is not valid VERIFY (R54). -/
def execPlanArm (epoch : W64) (bank : Bool) (s : State) : Host.Outcome State Fault Refusal :=
  .next (mbx s false false fun s =>
    if 2 ^ 48 ≤ epoch.toNat then invalid s
    else
      let c := armCause s epoch.toNat bank
      let t := if c = 0 then arm { s with fab := { s.fab with epochSlot := BitVec.ofNat 48 epoch.toNat, ctrlBank := bank } }
        else { s with fab := { s.fab with refusal := BitVec.ofNat 4 c } }
      done t (if c = 0 then .ok else if c = 5 then .verify else .state) (leBytes 1 t.fab.refusal.toNat))

/-! ### Holds and the orphan log -/

/-- HOLD_STATUS: NODE_HOLD, NODE_HOLD_TIME and the first cause record. -/
def execHoldStatus (s : State) : Host.Outcome State Fault Refusal :=
  .next (mbx s true false fun s =>
    done s .ok (leBytes 8 (nodeHold s) ++ leBytes 8 s.hold.firstHalt ++
      (s.hold.firstCause.map ErrRec.bytes).getD (List.replicate 64 0)))

/-- ORPHAN_LOG: the last orphan period, up to now while it lasts (R341). -/
def execOrphanLog (s : State) : Host.Outcome State Fault Refusal :=
  .next (mbx s true false fun s =>
    let h := s.host
    let last := if h.orphan then s.err.seq - 1 else h.orphanLast
    done s .ok (leBytes 8 h.orphanHall ++ leBytes 4 h.fellBack.toNat ++ leBytes 1 (bn h.orphanHeld) ++
      leBytes 4 h.orphanFirst ++ leBytes 4 last))

/-! ### Drains and loads (12 R313) -/

/-- own[g] is being written by the present checkpoint (12 Table 12.4). -/
def quarterWritten (s : State) (g : Bool) : Bool := (s.ckpt.state == .copy || s.ckpt.state == .sign) && s.ckpt.gen == g

/-- A drain or a load uses own[g] until it ends (R308). -/
def useQuarter (s : State) (g : Bool) : State :=
  { s with ckpt := if g then { s.ckpt with busy1 := true } else { s.ckpt with busy0 := true } }

/-- The bytes of a quarter to the host, up to the first line that cannot be read (11 R296): status, bytes written. -/
def drainQuarter (s : State) (base n host : Nat) : State × Status × Nat :=
  match touch s [⟨base, n⟩] with
  | (t, none) => (wrHostN t host (rdN t base n), .ok, n)
  | (t, some (st, code, npa)) =>
    let m := min n (npa - npa % 64 - base)
    (record (wrHostN t host (rdN t base m)) code { unitKind := 12, unit := 0, status := st, npa := some npa }, st, m)

/-- CKPT_DRAIN: a quarter of own or held, or as much of it as the buffer holds. -/
def execCkptDrain (held g : Bool) (stack : BitVec 4) (buf : HostBuf) (s : State) : Host.Outcome State Fault Refusal :=
  .next (mbx s false false fun s =>
    if 12 ≤ stack.toNat then invalid s
    else withBuf s buf fun s =>
      if !held && quarterWritten s g then background s 0xC050 .state (leBytes 8 0)
      else
        let n := min buf.len.toNat (quarterBytes s)
        let (t, st, m) := drainQuarter s (quarterNpa s stack.toNat (2 * bn held + bn g) 0) n buf.addr.toNat
        background (if held then t else useQuarter t g) 0xC050 st (leBytes 8 m))

/-- Bytes of the host into a quarter: whole lines, and a last part of one merged into it, which a fault of that line leaves
unwritten (07 R187). -/
def loadQuarter (s : State) (base : Nat) (bs : List Byte) : State × Status :=
  match touch s (partialRuns [⟨base, bs.length⟩]) with
  | (t, none) => (wrN t base bs, .ok)
  | (t, some (st, code, npa)) =>
    (record (wrN t base (bs.take (bs.length - bs.length % 64))) code
      { unitKind := 12, unit := 0, status := st, npa := some npa }, st)

/-- CKPT_LOAD: a quarter's bytes from host memory into own[g], while no job runs or the node is HELD. -/
def execCkptLoad (g : Bool) (stack : BitVec 4) (buf : HostBuf) (s : State) : Host.Outcome State Fault Refusal :=
  .next (mbx s false false fun s =>
    if 12 ≤ stack.toNat then invalid s
    else withBuf s buf fun s =>
      if s.job.phase = .running ∧ s.hold.state ≠ .held then background s 0xC051 .state []
      else
        let n := min buf.len.toNat (quarterBytes s)
        let (t, st) := loadQuarter s (quarterNpa s stack.toNat (bn g) 0) (rdHostN s buf.addr.toNat n)
        background (useQuarter t g) 0xC051 st [])

/-- RESTORE_REPORT: Table 12.7 (12 R318). -/
def execRestoreReport (s : State) : Host.Outcome State Fault Refusal :=
  .next (mbx s true false fun s => done s .ok (reportBytes s))

end Sys2Proof.Machine
end

