-- ==== Sys2Proof/Machine/Firmware.lean ====
section
/-!
DEFINITION. Firmware processors and their watchdogs (13 R334, R335; 14 R360): the rows WATCHDOG_EXPIRY and RESTART_END.
-/
namespace Sys2Proof.Machine

/-- A processor stops and begins its restart: the event is recorded and the host told (R334). -/
def beginRestart (s : State) (p : Nat) : State :=
  let s1 := record { s with pwr := { s.pwr with restarting := p :: s.pwr.restarting } } .wdgRestart
    { unitKind := 9, unit := p, detail := detailF p 0 0 }
  raise s1 5

/-- An operation of the running job is abandoned: the node enters HOLDING, and no queue issues past the present step
boundary (R335). -/
def stepTimeout (s : State) (p : Nat) : State :=
  let s1 := record s .fwStepTimeout { unitKind := 9, unit := p, status := .timeout, detail := detailF p 0 0 }
  let s2 := enterHolding s1 .D (lastRec s1)
  if s2.hold.state = .holding then { s2 with hold := { s2.hold with atBoundary := true, stepPending := !s2.job.risen } } else s2

/-- The security core loses a manifest signature, which fails its checkpoint, and its SPDM sessions (Table 13.7; 12
R311: the job is not held). -/
def loseSecurity (s : State) : State :=
  let s1 := if s.ckpt.state = .sign then failCkpt s else s
  { s1 with sec := { s1.sec with sessions := [] } }

/-- A launch that has no COMMIT yet acknowledges with TIMEOUT in the trees by which it came; at the root it sends no
COMMIT (R335, 09 R261). -/
def loseLaunch (s : State) : State :=
  match s.job.prep with
  | none => s
  | some h =>
    if h.committed then s
    else
      let s1 := updPrep s fun x => { x with copies := 3 }
      [Tree.A, .B].foldl (fun t tree => if h.acked tree then t else sendAck t tree .timeout) s1

/-- The scheduler core loses a launch, a lay, and a cut under way, whose checkpoint is then not taken (Table 13.7). -/
def loseScheduler (s : State) : State :=
  let s1 := loseLaunch s
  if s.ckpt.cutting then
    stepTimeout { s1 with ckpt := { s1.ckpt with cutting := false, skipped := satAdd s1.ckpt.skipped 1 } } 6
  else s1

/-- A region control core loses the supervision of its queues where they stand at a step boundary (Table 13.7). -/
def loseRegion (s : State) (p : Nat) : State :=
  if s.job.phase = .running ∧ s.job.started = true ∧ allAtStep s = true then stepTimeout s p else s

/-- The warden complex loses the mailbox command in progress, which returns Internal Error (R332; log 19). -/
def loseWarden (s : State) : State :=
  match s.host.bg with
  | some g => raise (bgEnds s { g with out := { ret := .internalError } }) 7
  | none => s

/-- WATCHDOG_EXPIRY: the processor alone restarts, and what Table 13.7 lists of the job is lost (R334, R335). -/
def execWatchdogExpiry (p : BitVec 4) (s : State) : Host.Outcome State Fault Refusal :=
  .next (
    let n := p.toNat
    if 10 < n ∨ restarting s n = true ∨ s.host.node = .start then s
    else
      let s1 := beginRestart s n
      if n < 4 then loseWarden s1
      else if n = 4 then loseSecurity s1
      else if n = 5 then s1
      else if n = 6 then loseScheduler s1
      else loseRegion s1 n)

/-- RESTART_END: the processor runs again; what waited for it goes on in its own rows (R334). -/
def execRestartEnd (p : BitVec 4) (s : State) : Host.Outcome State Fault Refusal :=
  .next { s with pwr := { s.pwr with restarting := s.pwr.restarting.filter (· != p.toNat) } }

end Sys2Proof.Machine
end

