-- ==== Sys2Proof/Machine/Flash.lean ====
section
/-!
DEFINITION. The configuration flash (14 R343 to R352): containers, the node configuration record, and staging; the rows
FW_STAGE and FW_INFO.
-/
namespace Sys2Proof.Machine

/-! ### Containers (R345, R346) -/

/-- A container's fields, Table 14.2. -/
structure Container where
  type : Nat
  svn : Nat
  seq : Nat
  length : Nat
  binding : Nat
  digest : List Byte
  signerHash : List Byte
  signerKey : List Byte
  signature : List Byte
  /-- bytes 0 to 255, which the signature covers -/
  head : List Byte
  payload : List Byte
deriving DecidableEq, Repr

/-- The flash slots, Table 14.1. -/
inductive Slot where
  | ncr0 | ncr1 | enrol | bundle0 | bundle1
deriving DecidableEq, Repr

/-- The bytes of a slot. -/
def slotBytes (s : State) : Slot → List Byte
  | .ncr0 => s.sec.ncr0
  | .ncr1 => s.sec.ncr1
  | .enrol => s.sec.enrol
  | .bundle0 => s.sec.bundle0
  | .bundle1 => s.sec.bundle1

/-- The bytes of a slot written. -/
def putSlot (s : State) (l : Slot) (bs : List Byte) : State :=
  { s with sec := match l with
    | .ncr0 => { s.sec with ncr0 := bs }
    | .ncr1 => { s.sec with ncr1 := bs }
    | .enrol => { s.sec with enrol := bs }
    | .bundle0 => { s.sec with bundle0 := bs }
    | .bundle1 => { s.sec with bundle1 := bs } }

/-- The number of a slot in the erase counts. -/
def Slot.no : Slot → Nat
  | .ncr0 => 0
  | .ncr1 => 1
  | .enrol => 2
  | .bundle0 => 3
  | .bundle1 => 4

/-- The container type of a slot. -/
def Slot.type : Slot → Nat
  | .ncr0 | .ncr1 => 2
  | .enrol => 4
  | .bundle0 | .bundle1 => 1

/-- The size of the slot of a container type; a debug token stands in no slot. -/
def slotSize (type : Nat) : Nat := match type with
  | 1 => 30 * 2 ^ 20
  | 2 | 4 => 2 ^ 16
  | _ => 448

/-- Every byte of a range is zero. -/
def zeros (bs : List Byte) (off len : Nat) : Bool := (slice bs off len).all (· == 0)

/-- A container of a type, its form and length right: R346 step 1. -/
def containerOf (bs : List Byte) (type : Nat) : Option Container :=
  let len := le bs 16 8
  if 384 ≤ bs.length ∧ le bs 0 4 = 0x43544854 ∧ le bs 4 1 = type ∧ le bs 5 1 = 1 ∧ le bs 6 1 = 3 ∧
      zeros bs 7 1 = true ∧ zeros bs 217 39 = true ∧ zeros bs 370 14 = true ∧ 384 + len ≤ slotSize type ∧
      384 + len ≤ bs.length then
    some { type := type, svn := le bs 8 4, seq := le bs 12 4, length := len, binding := le bs 24 8
           digest := slice bs 32 64, signerHash := slice bs 96 64, signerKey := slice bs 160 57
           signature := slice bs 256 114, head := slice bs 0 256, payload := slice bs 384 len }
  else none

/-- Signature and digests: R346 steps 2 to 4. -/
def sigOk (s : State) (c : Container) : Bool :=
  c.signerHash == shake256 c.signerKey &&
  (match c.type with
   | 1 => c.signerHash == Config.ahnothenHash
   | 2 | 3 => s.fuses.ownerHash == some c.signerHash
   | _ => true) &&
  Config.ed448Verify c.signerKey (shake256 c.head) c.signature && shake256 c.payload == c.digest

/-- The binding: R346 step 5. -/
def bindOk (s : State) (c : Container) : Bool := c.binding == s.fuses.serial.toNat || (c.type == 1 && c.binding == 0)

/-- The fused security version for a type; types 3 and 4 carry version 0 (R345, R348). -/
def fusedSvn (s : State) (type : Nat) : Nat := match type with
  | 1 => s.fuses.bundleSvn
  | 2 => s.fuses.ncrSvn
  | _ => 0

/-- The security version: R346 step 6. -/
def svnOk (s : State) (c : Container) : Bool := decide (c.svn ≤ 32) && decide (fusedSvn s c.type ≤ c.svn)

/-- What the payload of a type must be besides: an NCR has 1 024 bytes, its reserved ones zero, and the serial of its
binding; an enrolment's is the key it is signed with; a token's is 64 bytes with the last 28 zero (R349, R351, R363). -/
def payloadOk (c : Container) : Bool :=
  match c.type with
  | 2 =>
    c.length == 1024 && le c.payload 0 8 == c.binding && zeros c.payload 33 1 && zeros c.payload 48 16 &&
    zeros c.payload 712 312 &&
    (List.range 8).all fun p =>
      zeros c.payload (68 + 8 * p) 4 && le c.payload (64 + 8 * p) 1 / 16 == 0 && decide (le c.payload (66 + 8 * p) 2 < 4096)
  | 3 => c.length == 64 && zeros c.payload 36 28
  | 4 => c.payload == c.signerKey
  | _ => true

/-- A valid container of a type (R346). -/
def validContainer (s : State) (bs : List Byte) (type : Nat) : Option Container :=
  (containerOf bs type).filter fun c => sigOk s c && bindOk s c && svnOk s c && payloadOk c

/-- The valid container of a slot. -/
def inSlot (s : State) (l : Slot) : Option Container := validContainer s (slotBytes s l) l.type

/-- Of two slots the valid one with the higher sequence, the first when they are equal (R347, R349). -/
def bestSlot (s : State) (a b : Slot) : Option (Slot × Container) :=
  match inSlot s a, inSlot s b with
  | some x, some y => if x.seq < y.seq then some (b, y) else some (a, x)
  | some x, none => some (a, x)
  | none, some y => some (b, y)
  | none, none => none

/-! ### The node configuration record (R349, R350) -/

/-- A field in its range, else its default. -/
def ranged (v lo hi dflt : Nat) : Nat := if lo ≤ v ∧ v ≤ hi then v else dflt

/-- A limit: above its fused value, or 0, it is the fused value (R350). -/
def limited (v fused : Nat) : Nat := if v = 0 ∨ fused < v then fused else v

/-- The record's fields, each in its range or at its default, and the limits of R350 (Table 14.3). -/
def ncrOf (f : Fuses) (p : List Byte) : Ncr :=
  let d : Ncr := {}
  let thr := limited (le p 642 1) f.throttleC
  let trip := limited (le p 643 1) f.tripC
  let apart := thr + 5 ≤ trip
  let root := le p 40 4
  { nodeId := BitVec.ofNat 20 (ranged (le p 8 4) 0 0xF_FFFF 0)
    udpPort := BitVec.ofNat 16 (le p 12 2)
    timeRole := match le p 14 1 with
      | 1 => .boundary
      | 2 => .reference
      | _ => .member
    ptpDomain := BitVec.ofNat 8 (ranged (le p 15 1) 0 127 0)
    hallPrefix := BitVec.ofNat 64 (le p 16 8)
    modeWord := BitVec.ofNat 32 (ranged (le p 24 4) 0 0x1FF d.modeWord.toNat)
    fallback := BitVec.ofNat 32 (ranged (le p 28 4) 0 0x1FF 0)
    cellarGib := if le p 32 1 ∈ [0, 8, 16, 24, 32] then le p 32 1 else 0
    leaseMs := ranged (le p 34 2) 10 1000 100
    holdLimitMs := ranged (le p 36 2) 1 1000 10
    settleMs := ranged (le p 38 2) 1 1000 20
    launchRoot := if root < 2 ^ 20 then some (BitVec.ofNat 20 root) else none
    holdoverPs := ranged (le p 44 4) 0 100000 1000
    ports := (List.range 8).map fun i =>
      { enabled := (le p (64 + 8 * i) 1).testBit 0
        role := BitVec.ofNat 2 (let r := nfld (le p (64 + 8 * i) 1) 1 2; if r < 3 then r else 0)
        split := (le p (64 + 8 * i) 1).testBit 3
        replay := BitVec.ofNat 6 (ranged (le p (65 + 8 * i) 1) 0 63 0), vlan := BitVec.ofNat 12 (le p (66 + 8 * i) 2) }
    domains := (List.range 64).map fun i => (le p (128 + 8 * i) 4, le p (132 + 8 * i) 4)
    powerW := limited (le p 640 2) f.powerW
    throttleC := if apart then thr else f.throttleC
    tripC := if apart then trip else f.tripC
    vddMv := limited (le p 644 2) f.vddMv
    clockMhz := limited (le p 646 2) f.grade.clockMhz
    eol := (List.range 8).map fun i => BitVec.ofNat 64 (le p (648 + 8 * i) 8) }

/-- The defaults of Table 14.3, with the fused limits. -/
def ncrDefault (f : Fuses) : Ncr :=
  { powerW := f.powerW, throttleC := f.throttleC, tripC := f.tripC, vddMv := f.vddMv, clockMhz := f.grade.clockMhz }

/-- The fields out of their range, by byte offset; each makes a log message (R349, 07 R213). -/
def ncrFaults (f : Fuses) (p : List Byte) : List Nat :=
  let bad := fun (off n lo hi : Nat) => if lo ≤ le p off n ∧ le p off n ≤ hi then [] else [off]
  bad 8 4 0 0xF_FFFF ++ bad 14 1 0 2 ++ bad 15 1 0 127 ++ bad 24 4 0 0x1FF ++ bad 28 4 0 0x1FF ++
  (if le p 32 1 ∈ [0, 8, 16, 24, 32] then [] else [32]) ++ bad 34 2 10 1000 ++ bad 36 2 1 1000 ++ bad 38 2 1 1000 ++
  (if le p 40 4 < 2 ^ 20 ∨ le p 40 4 = 0xFFFF_FFFF then [] else [40]) ++ bad 44 4 0 100000 ++
  bad 640 2 0 f.powerW ++ bad 642 1 0 f.throttleC ++ bad 643 1 0 f.tripC ++ bad 644 2 0 f.vddMv ++
  bad 646 2 0 f.grade.clockMhz ++
  (List.range 8).flatMap fun i => (if nfld (le p (64 + 8 * i) 1) 1 2 = 3 then [64 + 8 * i] else []) ++ bad (65 + 8 * i) 1 0 63

/-! ### Staging (R351, R352) -/

/-- The slot a staged container of a type goes to: the one not used at the present start; in recovery, or with no NCR in
use, an invalid one first, else that of the lower sequence. -/
def stageSlot (s : State) (type : Nat) : Slot :=
  let pick := fun (a b : Slot) => match inSlot s a, inSlot s b with
    | none, _ => a
    | _, none => b
    | some x, some y => if y.seq < x.seq then b else a
  match type with
  | 4 => .enrol
  | 1 => if s.host.node = .recovery then pick .bundle0 .bundle1 else if s.sec.bundleSlot then .bundle0 else .bundle1
  | _ => if s.host.node = .recovery ∨ s.sec.ncrValid = false then pick .ncr0 .ncr1 else if s.sec.ncrSlot then .ncr0 else .ncr1

/-- The sequences of the valid slots of a type. -/
def seqsOf (s : State) (type : Nat) : List Nat :=
  ([Slot.ncr0, .ncr1, .enrol, .bundle0, .bundle1].filter fun l => l.type == type).filterMap fun l => (inSlot s l).map Container.seq

/-- FW_STAGE's outcome: the state and its status. A slot that reads back wrong holds no container, and gives CHECK (R352;
log 23). -/
def stage (s : State) (bs : List Byte) : State × Status :=
  let type := le bs 4 1
  if s.job.image.isSome ∨ (s.sec.maint = false ∧ s.host.node ≠ .recovery) then (s, .state)
  else if type = 4 ∧ s.fuses.ownerHash.isSome then (s, .state)
  else if type ≠ 1 ∧ type ≠ 2 ∧ type ≠ 4 then (s, .verify)
  else match validContainer s bs type with
    | none => (s, .verify)
    | some c =>
      if (seqsOf s type).any fun q => decide (c.seq ≤ q) then (s, .verify)
      else
        let l := stageSlot s type
        let bad := s.sec.flashBad
        let s1 := putSlot s l (if bad then [] else bs.take (384 + c.length))
        ({ s1 with sec := { s1.sec with
            staged := s1.sec.staged || (s1.sec.maint && !bad)
            stagedVersion := if type = 1 ∧ bad = false then Config.bundleVersion c.payload else s1.sec.stagedVersion
            erases := s1.sec.erases.set 0 l.no (s1.sec.erases.get 0 l.no + 1)
            writing := some l.no, flashBad := false } }, if bad then .check else .ok)

/-- FW_STAGE: background; recovery included. -/
def execFwStage (buf : HostBuf) (s : State) : Host.Outcome State Fault Refusal :=
  .next (mbx s false true fun s => withBuf s buf fun s =>
    let s1 := { s with sec := { s.sec with writing := none } }
    let (t, st) := stage s1 (rdHostN s buf.addr.toNat (min buf.len.toNat (30 * 2 ^ 20)))
    background t 0xC002 st [])

/-- FW_INFO: the running and the staged bundle version. -/
def execFwInfo (s : State) : Host.Outcome State Fault Refusal :=
  .next (mbx s true true fun s => done s .ok (leBytes 8 s.sec.fwVersion.toNat ++ leBytes 8 s.sec.stagedVersion.toNat))

end Sys2Proof.Machine
end

