-- ==== Sys2Proof/Machine/Vm.lean ====
section
/-!
DEFINITION. The memory seen by a hart (10): physical memory protection, address translation, the attributes of Table
10.3, loads, stores, AMOs and reservations, and accesses to the remote aperture (09 R247 to R249).
-/
namespace Sys2Proof.Machine

/-- The kinds of access. -/
inductive Acc where
  | fetch | load | store
deriving DecidableEq, Repr

/-- The access-fault code of a kind. -/
def Acc.fault : Acc → Nat
  | .fetch => 1 | .load => 5 | .store => 7

/-- The page-fault code of a kind. -/
def Acc.page : Acc → Nat
  | .fetch => 12 | .load => 13 | .store => 15

/-- The misaligned code of a kind. -/
def Acc.misaligned : Acc → Nat
  | .fetch => 0 | .load => 4 | .store => 6

/-! ### Physical memory protection (Table 10.1: 16 entries, a granule of 4 KiB) -/

/-- A PMP entry matches a physical address. -/
def pmpMatch (c : Csrs) (i pa : Nat) : Bool :=
  let cfg := c.pmpcfg.get 0 i
  let a := (c.pmpaddr.get 0 i).toNat
  let lo := if i = 0 then 0 else (c.pmpaddr.get 0 (i - 1)).toNat >>> 10 <<< 12
  match nfld cfg.toNat 3 2 with
  | 1 => lo ≤ pa && pa < a >>> 10 <<< 12
  | 3 =>
    -- trailing ones from bit 0 up, the low nine read as ones
    let b := a ||| 0x1FF
    let m := b ^^^ (b + 1)
    (pa >>> 2) ||| m == b ||| m
  | _ => false

/-- An access passes PMP in a mode: the lowest entry that matches decides; with none, only machine mode passes. -/
def pmpOk (c : Csrs) (p : Priv) (acc : Acc) (pa : Nat) : Bool :=
  match (List.range 16).find? fun i => pmpMatch c i pa with
  | none => p == .M
  | some i =>
    let cfg := c.pmpcfg.get 0 i
    (p == .M && !cfg.toNat.testBit 7) ||
    (match acc with | .load => cfg.toNat.testBit 0 | .store => cfg.toNat.testBit 1 | .fetch => cfg.toNat.testBit 2)

/-! ### Translation (Sv39, Sv48, Sv57) -/

/-- The mode in which a hart makes an access: MPRV gives loads and stores the mode of MPP. -/
def accPriv (t : Hart) (acc : Acc) : Priv :=
  if acc != .fetch && wbit t.csr.mstatus 17 then Priv.ofNum (fld t.csr.mstatus 11 2) else t.priv

/-- The levels of a translation mode: 0 for Bare. -/
def satpLevels (satp : W64) : Nat :=
  match fld satp 60 4 with
  | 8 => 3 | 9 => 4 | 10 => 5 | _ => 0

/-- The permissions of a leaf entry. -/
def leafOk (t : Hart) (p : Priv) (acc : Acc) (pte : Nat) : Bool :=
  let r := pte.testBit 1
  let w := pte.testBit 2
  let x := pte.testBit 3
  let u := pte.testBit 4
  (if p == .U then u else !u || (acc != .fetch && wbit t.csr.mstatus 18)) &&
  (match acc with
   | .fetch => x
   | .load => r || (x && wbit t.csr.mstatus 19)
   | .store => w) &&
  pte.testBit 6 && (acc != .store || pte.testBit 7)

/-- The walk of the page tables, the levels that are left given by number: the physical address, or an exception code.
An entry whose A bit is clear, or whose D bit is clear at a store, raises the page fault (log 30). A table entry is read
in supervisor mode under PMP, from node memory; a fault of its line is an access fault, recorded with the hart (R275). -/
def walk (s : State) (h : BitVec 6) (p : Priv) (acc : Acc) (va : Nat) : Nat → Nat → State × Sum Nat Nat
  | 0, _ => (s, .inr acc.page)
  | n + 1, a =>
    let t := s.hart h
    let pa := a * 4096 + nfld va (12 + 9 * n) 9 * 8
    if !pmpOk t.csr .S .load pa then (s, .inr acc.fault)
    else match place s pa with
      | .mem _ _ =>
        match touch s [⟨pa, 8⟩] with
        | (s1, some (st, _, _)) => (hartRecord s1 h st acc.fault (BitVec.ofNat 64 va), .inr acc.fault)
        | (s1, none) =>
          let pte := rdW s1 pa 8
          let ppn := nfld pte 10 44
          if !pte.testBit 0 || (!pte.testBit 1 && pte.testBit 2) || pte >>> 54 != 0 then (s1, .inr acc.page)
          else if pte.testBit 1 || pte.testBit 3 then
            if !leafOk t p acc pte || ppn % 2 ^ (9 * n) != 0 then (s1, .inr acc.page)
            else (s1, .inl (ppn * 4096 + va % 2 ^ (12 + 9 * n)))
          else if nfld pte 4 1 != 0 || nfld pte 6 2 != 0 then (s1, .inr acc.page)
          else walk s1 h p acc va n ppn
      | _ => (s, .inr acc.fault)

/-- The physical address of an access, PMP passed, or an exception code. -/
def translate (s : State) (h : BitVec 6) (acc : Acc) (va : W64) : State × Sum Nat Nat :=
  let t := s.hart h
  let p := accPriv t acc
  let n := satpLevels t.csr.satp
  let (s1, r) :=
    if p = .M ∨ n = 0 then
      (s, if va.toNat < 2 ^ 56 then Sum.inl va.toNat else .inr acc.fault)
    else
      let bits := 12 + 9 * n
      if tc 64 (sx bits va.toNat) ≠ va.toNat then (s, .inr acc.page)
      else walk s h p acc va.toNat n (fld t.csr.satp 0 44)
  match r with
  | .inl pa => if pmpOk t.csr p acc pa then (s1, .inl pa) else (s1, .inr acc.fault)
  | .inr e => (s1, .inr e)

/-! ### The remote aperture (R247 to R249) -/

/-- The base NPA of the remote aperture. -/
def apBase : Nat := 0x80_0000_0000_0000

/-- A node is a present member of a hedge. -/
def hedgeMember (s : State) (id : Nat) (n : NodeId) : Bool :=
  match hedgeOf s id with
  | some g => g.members.contains n
  | none => false

/-- The pan operation of an AMO at the aperture; AMOMINU and AMOMAXU have none (R247). -/
def apAmo : AmoOp → Option Nat
  | .add => some 0x01 | .min => some 0x02 | .max => some 0x03 | .and => some 0x04 | .or => some 0x05
  | .xor => some 0x06 | .swap => some 0x07 | _ => none

/-- The priority of aperture frames toward a node: 6 in a flow that the plan declares for field-core traffic, else 3
(R248). -/
def apPri (s : State) (n : NodeId) : Nat :=
  match activePlan s with
  | some p => if p.tx.any fun f => f.core && f.dst == n then 6 else 3
  | none => 3

/-- What a hart asks of the aperture. -/
structure ApReq where
  kind : ApKind
  size : Nat
  /-- the address that the program used, for mtval -/
  va : W64
  /-- the NPA -/
  pa : Nat
  data : W128 := 0
  rd : BitVec 5 := 0
  vec : Bool := false
  fp : Bool := false
  uns : Bool := false
  len : Nat := 4
deriving DecidableEq, Repr

/-- A buffered store's fault is reported at the hart's next FENCE or load (R275). -/
def storeFault (s : State) (h : BitVec 6) : Option HRes :=
  (s.hart h).stFault.map fun v => .trap (s.updHart h fun t => { t with stFault := none }) 7 v

/-- A hart's access to the remote aperture: refused with an access fault, held back, or sent (R247, R249, R250). -/
def apAccess (s : State) (h : BitVec 6) (a : ApReq) : HRes :=
  let t := s.hart h
  let off := a.pa - apBase
  let e := s.apt.get 0 (off >>> 36)
  let node : NodeId := BitVec.ofNat 20 (fld e 0 20)
  let hedge := fld e 40 16
  let at_ := fld e 20 20 * 2 ^ 36 + off % 2 ^ 36
  let code := match a.kind with | .load => 5 | _ => 7
  let op : Option Nat := match a.kind with | .amo o => apAmo o | _ => some 0
  match (if a.kind = .store then none else storeFault s h), t.apFault with
  | some r, _ => r
  | none, some v => .trap (s.setHart h { t with apFault := none }) 7 v
  | none, none =>
    if a.size = 0 ∨ a.pa % a.size ≠ 0 then .trap s (if a.kind = .load then 4 else 6) a.va
    else if !wbit e 56 || (a.kind != .load && !wbit e 57) || !hedgeMember s hedge node || op.isNone || a.kind == .lrsc then
      .trap s code a.va
    else
      match a.kind with
      | .store =>
        if 16 ≤ t.apStores.length then .wait (s.setHart h { t with state := .switched })
        else
          let s1 := s.updHart h fun t => { t.svEnd a.vec with apStores := t.apStores ++ [(t.apNext, a.va, node)],
                                                              apNext := t.apNext + 1 }
          let s2 := sendData s1 (.hart h t.apNext) (apPri s node)
            { opcode := oPut, dst := node, hedge := hedge, offset := at_, last := true,
              data := leBytes a.size a.data.toNat }
          retire s2 h a.len id
      | k =>
        let w : ApWait := { kind := k, size := a.size, addr := a.va, rd := a.rd, node := node, vec := a.vec, fp := a.fp,
                            uns := a.uns, len := a.len }
        let s1 := s.setHart h { t with ap := some w, state := .switched }
        let s2 := match k with
          | .load => sendData s1 (.hart h 0) (apPri s node)
              { opcode := oGetReq, dst := node, hedge := hedge, offset := at_, length := some a.size, last := true }
          | _ => sendData s1 (.hart h 0) (apPri s node)
              { opcode := oAtomic, dst := node, hedge := hedge, offset := at_, last := true,
                fmt := if a.size = 8 then 12 else 11, subop := op.getD 0, olds := true, data := leBytes a.size a.data.toNat }
        .wait s2

/-! ### Physical accesses (Table 10.3) -/

/-- The block of a place's region and number. -/
def blkOf (r k : Nat) : Blk := ⟨BitVec.ofNat 2 r, BitVec.ofNat 6 k⟩

/-- What a core has buffered of the lines of an access goes to memory before the access (R272, R273). -/
def drainFor (s : State) (h : BitVec 6) (pa n : Nat) : State :=
  drainIf s (coreOf h) fun e => (linesOf s pa n).contains e.line

/-- Bytes of memory or a store read by a hart: a fault of a line is an access fault, recorded (R275). -/
def hartRead (s : State) (h : BitVec 6) (acc : Acc) (va : W64) (pa n : Nat) : State × Sum Nat Nat :=
  match touch s [⟨pa, n⟩] with
  | (s1, some (st, _, _)) => (hartRecord s1 h st acc.fault va, .inr acc.fault)
  | (s1, none) => (s1, .inl (rdW s1 pa n))

/-- A register offset at which a hart may store: FCO_APT, FCO_HART_STATUS and FCO_HART_TCMP (R271). -/
def hartRegWrite (s : State) (h : BitVec 6) (o : Nat) (v : W64) : Option State :=
  if 0x5_0000 ≤ o ∧ o < 0x5_8000 then
    if (s.hart h).priv = .M then
      some { s with apt := s.apt.set 0 ((o - 0x5_0000) / 8) (v &&& 0x03FF_FFFF_FFFF_FFFF) }
    else none
  else if 0x5_9000 ≤ o ∧ o < 0x5_9400 then
    let g : BitVec 6 := BitVec.ofNat 6 ((o - 0x5_9000) / 16)
    if !hartPresent s g then some s
    else if o % 16 = 0 then some (s.updHart g fun t => { t with msip := wbit v 6 })
    else some (s.updHart g fun t => { t with tcmp := v })
  else none

/-- A scalar load of a physical address: the value, or an exception code. The aperture is reached before this. -/
def physLoad (s : State) (h : BitVec 6) (acc : Acc) (va : W64) (pa n : Nat) : State × Sum Nat Nat :=
  match place s pa with
  | .mem _ _ => hartRead s h acc va pa n
  | .block r k _ =>
    if acc = .fetch ∨ !blockLive s (blkOf r k) then (s, .inr acc.fault) else hartRead s h acc va pa n
  | .rstore _ _ => if acc = .fetch then (s, .inr acc.fault) else hartRead s h acc va pa n
  | .reg o =>
    if acc = .load ∧ n = 8 then
      let (v, s1) := regRead s o
      (s1, .inl v)
    else (s, .inr acc.fault)
  | .host o => if acc = .fetch then (s, .inr acc.fault) else (cacheLine s o, .inl (rdW s pa n))
  | _ => (s, .inr acc.fault)

/-- A scalar store to a physical address: the state, or an exception code. A store to node memory goes into the core's
write-combining buffer; one to a block store or a region store is performed at once, in program order (Table 10.3,
R272). -/
def physStore (s : State) (h : BitVec 6) (va : W64) (pa n v : Nat) : State × Option Nat :=
  match place s pa with
  | .mem _ _ => (bufferStore s h va ((linesOf s pa n).headD 0) (pa % 64) (leBytes n v), none)
  | .rstore _ _ => (performStore s h va pa (leBytes n v), none)
  | .block r k _ => if blockLive s (blkOf r k) then (performStore s h va pa (leBytes n v), none) else (s, some 7)
  | .reg o =>
    if n = 8 then
      match hartRegWrite s h o (BitVec.ofNat 64 v) with
      | some s1 => (s1, none)
      | none => (s, some 7)
    else (s, some 7)
  | .host o => (wrW (cacheLine s o) pa n v (some h), none)
  | _ => (s, some 7)

/-- An address lies in the remote aperture. -/
def inAperture (pa : Nat) : Bool := apBase ≤ pa && pa < apBase + 2 ^ 48

/-! ### Loads and stores of a hart -/

/-- A scalar load: misaligned, page and access faults, the aperture, or the value in its register. What the core has
buffered of its line is in memory first, and a fault of that is reported here (R272, R275). -/
def hartLoad (s : State) (h : BitVec 6) (va : W64) (n rd : Nat) (fp uns : Bool) (len : Nat) : HRes :=
  match storeFault s h with
  | some r => r
  | none =>
    if va.toNat % n ≠ 0 then .trap s 4 va
    else match translate s h .load va with
      | (s1, .inr e) => .trap s1 e va
      | (s1, .inl pa) =>
        if inAperture pa then
          apAccess s1 h { kind := .load, size := n, va := va, pa := pa, rd := BitVec.ofNat 5 rd, fp := fp, uns := uns,
                          len := len }
        else
          let sd := drainFor s1 h pa n
          match storeFault sd h with
          | some r => r
          | none => match physLoad sd h .load va pa n with
            | (s2, .inr e) => .trap s2 e va
            | (s2, .inl v) => retire s2 h len fun t => t.putLoad n rd fp uns v

/-- A scalar store. -/
def hartStore (s : State) (h : BitVec 6) (va : W64) (n : Nat) (v : W64) (len : Nat) : HRes :=
  if va.toNat % n ≠ 0 then .trap s 6 va
  else match translate s h .store va with
    | (s1, .inr e) => .trap s1 e va
    | (s1, .inl pa) =>
      if inAperture pa then
        apAccess s1 h { kind := .store, size := n, va := va, pa := pa, data := v.setWidth 128, len := len }
      else match physStore s1 h va pa n (v.toNat % 2 ^ (8 * n)) with
        | (s2, some e) => .trap s2 e va
        | (s2, none) => retire s2 h len id

/-! ### AMO, LR, SC (R274) -/

/-- The new value of an AMO on `n` bytes. -/
def amoNew (o : AmoOp) (n old x : Nat) : Nat :=
  let w := 8 * n
  match o with
  | .swap => x
  | .add => (old + x) % 2 ^ w
  | .xor => old ^^^ x
  | .and => old &&& x
  | .or => old ||| x
  | .min => if sx w old ≤ sx w x then old else x
  | .max => if sx w old ≤ sx w x then x else old
  | .minu => min old x
  | .maxu => max old x

/-- AMOs are performed by the pan engine of node memory, or by a store (Table 10.3). -/
def amoPlace (s : State) (pa : Nat) : Bool :=
  match place s pa with
  | .mem _ _ | .rstore _ _ => true
  | .block r k _ => blockLive s (blkOf r k)
  | _ => false

/-- An AMO of a hart: one element operation, which reads and merges its whole line; the core's buffered stores go before
it (R272, R274; 07 R187). -/
def hartAmo (s : State) (h : BitVec 6) (o : AmoOp) (n rd rs1 rs2 : Nat) : HRes :=
  let t := s.hart h
  let va := t.xr rs1
  let x := (t.xr rs2).toNat % 2 ^ (8 * n)
  let sd := drainCore s (coreOf h)
  match storeFault sd h with
  | some r => r
  | none =>
    if va.toNat % n ≠ 0 then .trap sd 6 va
    else match translate sd h .store va with
      | (s1, .inr e) => .trap s1 e va
      | (s1, .inl pa) =>
        if inAperture pa then
          apAccess s1 h { kind := .amo o, size := n, va := va, pa := pa, data := BitVec.ofNat 128 x,
                          rd := BitVec.ofNat 5 rd }
        else if !amoPlace s1 pa then .trap s1 7 va
        else match touch s1 (partialRuns [⟨pa, n⟩]) with
          | (s2, some (st, _, _)) => .trap (hartRecord s2 h st 7 va) 7 va
          | (s2, none) =>
            let old := rdW s2 pa n
            retire (wrW s2 pa n (amoNew o n old x) (some h)) h 4 fun t => t.putLoad n rd false false old

/-- LR reserves the line of its address, in node memory only; the core's buffered stores go before it (R271, R272,
R274). -/
def hartLr (s : State) (h : BitVec 6) (n rd rs1 : Nat) : HRes :=
  let va := (s.hart h).xr rs1
  let sd := drainCore s (coreOf h)
  match storeFault sd h with
  | some r => r
  | none =>
    if va.toNat % n ≠ 0 then .trap sd 4 va
    else match translate sd h .load va with
      | (s1, .inr e) => .trap s1 e va
      | (s1, .inl pa) =>
        match place s1 pa with
        | .mem _ _ =>
          match hartRead s1 h .load va pa n with
          | (s2, .inr e) => .trap s2 e va
          | (s2, .inl v) =>
            retire s2 h 4 fun t => { t.putLoad n rd false false v with resv := (linesOf s2 pa n).head? }
        | .remote _ =>
          match (s1.hart h).apFault with
          | some a => .trap (s1.updHart h fun t => { t with apFault := none }) 7 a
          | none => .trap s1 5 va
        | _ => .trap s1 5 va

/-- SC writes only while the reservation holds, and always ends it; its write passes the buffer, which empties first
(R272, R274). -/
def hartSc (s : State) (h : BitVec 6) (n rd rs1 rs2 : Nat) : HRes :=
  let t := s.hart h
  let va := t.xr rs1
  if va.toNat % n ≠ 0 then .trap s 6 va
  else match translate (drainCore s (coreOf h)) h .store va with
    | (s1, .inr e) => .trap s1 e va
    | (s1, .inl pa) =>
      match place s1 pa with
      | .mem _ _ =>
        let r := (s1.hart h).resv
        if r.isSome && r == (linesOf s1 pa n).head? then
          let s2 := performStore s1 h va pa (leBytes n ((t.xr rs2).toNat % 2 ^ (8 * n)))
          retire s2 h 4 fun t => { t.setX rd 0 with resv := none }
        else retire s1 h 4 fun t => { t.setX rd 1 with resv := none }
      | .remote _ => apAccess s1 h { kind := .lrsc, size := n, va := va, pa := pa }
      | _ => .trap s1 7 va

end Sys2Proof.Machine
end

