-- ==== Sys2Proof/Machine/Csr.lean ====
section
/-!
DEFINITION. The control and status registers of a hart (Table 10.1, R276, R277; RISC-V privileged architecture 1.12):
what each reads and what a write leaves in it.
-/
namespace Sys2Proof.Machine

/-- misa: RV64IMAFDC with supervisor and user modes (Table 10.1). -/
def misaWord : W64 := 0x800000000014112D

/-- The writable bits of mstatus, and those that sstatus shows; XS is written as FS is (R277, log 31). -/
def mstatusMask : W64 := 0x7FF9AA
def sstatusMask : W64 := 0xDE122

/-- mstatus as it reads: SD stands for FS or XS Dirty, and SXL and UXL are 64-bit. -/
def mstatusRead (c : Csrs) : W64 :=
  c.mstatus ||| 0xA00000000 |||
    (if fld c.mstatus 13 2 = 3 ∨ fld c.mstatus 15 2 = 3 then 0x8000000000000000 else 0)

/-- mstatus after a write under a mask; the reserved mode in MPP leaves MPP as it was. -/
def mstatusWrite (c : Csrs) (mask v : W64) : Csrs :=
  let n := (c.mstatus &&& ~~~mask) ||| (v &&& mask)
  { c with mstatus := if fld n 11 2 = 2 then setFld n 11 2 (fld c.mstatus 11 2) else n }

/-- pmpcfg word of entries `i` to `i + 7`. -/
def pmpcfgRead (c : Csrs) (i : Nat) : W64 :=
  BitVec.ofNat 64 ((List.range 8).foldl (fun a j => a + (c.pmpcfg.get 0 (i + j)).toNat <<< (8 * j)) 0)

/-- One entry's configuration after a write: a locked entry keeps it; NA4, which the 4 KiB granule excludes, leaves the
mode as it was; write permission without read permission is not kept. -/
def pmpcfgByte (old v : Byte) : Byte :=
  if old.toNat.testBit 7 then old
  else
    let a := if nfld v.toNat 3 2 = 2 then nfld old.toNat 3 2 else nfld v.toNat 3 2
    let rwx := if v.toNat % 4 = 2 then v.toNat % 8 - 2 else v.toNat % 8
    BitVec.ofNat 8 (rwx + a * 8 + bn (v.toNat.testBit 7) * 128)

/-- A write of the pmpcfg word of entries `i` to `i + 7`. -/
def pmpcfgWrite (c : Csrs) (i : Nat) (v : W64) : Csrs :=
  let m : SMap Byte := (List.range 8).foldl
    (fun m j => SMap.set 0 m (i + j) (pmpcfgByte (c.pmpcfg.get 0 (i + j)) (BitVec.ofNat 8 (fld v (8 * j) 8)))) c.pmpcfg
  { c with pmpcfg := m }

/-- pmpaddr as it reads at a granule of 4 KiB. -/
def pmpaddrRead (c : Csrs) (i : Nat) : W64 :=
  let a := c.pmpaddr.get 0 i
  if nfld (c.pmpcfg.get 0 i).toNat 3 2 = 3 then a ||| 0x1FF else a &&& ~~~0x3FF#64

/-- A write of pmpaddr, unless the entry is locked or the next one is locked in mode TOR. -/
def pmpaddrWrite (c : Csrs) (i : Nat) (v : W64) : Csrs :=
  let nxt := (c.pmpcfg.get 0 (i + 1)).toNat
  if (c.pmpcfg.get 0 i).toNat.testBit 7 || (i < 15 && nxt.testBit 7 && nfld nxt 3 2 == 1) then c
  else { c with pmpaddr := c.pmpaddr.set 0 i (v &&& 0x3FFFFFFFFFFFFF) }

/-- A counter that counts clock cycles or events: the value last written, and a free count on top (log 3). -/
def freeCount (s : State) (v : W64) : State × Option W64 := (drew s, some (v + Config.freeWord s.free))

/-- An unprivileged counter may be read in the hart's mode. -/
def counterOn (t : Hart) (i : Nat) : Bool :=
  t.priv == .M || (wbit t.csr.mcounteren i && (t.priv == .S || wbit t.csr.scounteren i))

/-- An event counter: counters 3 to 10 count the event their selector names, and nothing while it is 0; 11 to 31 read
zero (Table 10.1). -/
def hpmRead (s : State) (c : Csrs) (i : Nat) : State × Option W64 :=
  if i ≤ 10 then
    if c.hpmevent.get 0 i = 0 ∨ wbit c.mcountinhibit i then (s, some (c.hpm.get 0 i)) else freeCount s (c.hpm.get 0 i)
  else (s, some 0)

/-- mcycle as it reads. -/
def cycleRead (s : State) (c : Csrs) : State × Option W64 :=
  if wbit c.mcountinhibit 0 then (s, some c.mcycle) else freeCount s c.mcycle

/-- A register by its number, its privilege already checked: none where there is no such register or the hart may not
use it. -/
def csrRead (s : State) (h : BitVec 6) (n : Nat) : State × Option W64 :=
  let t := s.hart h
  let c := t.csr
  let ok := fun (v : W64) => ((s, some v) : State × Option W64)
  let fpOn := fld c.mstatus 13 2 != 0
  let svOn := fld c.mstatus 15 2 != 0
  match n with
  | 0x001 => if fpOn then ok (c.fcsr &&& 0x1F) else (s, none)
  | 0x002 => if fpOn then ok (c.fcsr >>> 5) else (s, none)
  | 0x003 => if fpOn then ok c.fcsr else (s, none)
  | 0x800 => if svOn then ok (t.svcsr.setWidth 64) else (s, none)
  | 0x801 => if svOn then ok (t.svindex.setWidth 64) else (s, none)
  | 0xC00 => if counterOn t 0 then cycleRead s c else (s, none)
  | 0xC01 => if counterOn t 1 then (drew s, some (BitVec.ofNat 64 (stamp s))) else (s, none)
  | 0xC02 => if counterOn t 2 then ok c.minstret else (s, none)
  | 0x100 => ok (mstatusRead c &&& 0x80000003000DE762)
  | 0x104 => ok (c.mie &&& c.mideleg)
  | 0x105 => ok c.stvec
  | 0x106 => ok c.scounteren
  | 0x10A => ok c.senvcfg
  | 0x140 => ok c.sscratch
  | 0x141 => ok c.sepc
  | 0x142 => ok c.scause
  | 0x143 => ok c.stval
  | 0x144 => ok (mipOf s h &&& c.mideleg)
  | 0x180 => if t.priv = .S ∧ wbit c.mstatus 20 then (s, none) else ok c.satp
  | 0x300 => ok (mstatusRead c)
  | 0x301 => ok misaWord
  | 0x302 => ok c.medeleg
  | 0x303 => ok c.mideleg
  | 0x304 => ok c.mie
  | 0x305 => ok c.mtvec
  | 0x306 => ok c.mcounteren
  | 0x30A => ok c.menvcfg
  | 0x320 => ok c.mcountinhibit
  | 0x340 => ok c.mscratch
  | 0x341 => ok c.mepc
  | 0x342 => ok c.mcause
  | 0x343 => ok c.mtval
  | 0x344 => (drew s, some (mipOf s h))
  | 0x3A0 => ok (pmpcfgRead c 0)
  | 0x3A2 => ok (pmpcfgRead c 8)
  | 0xB00 => cycleRead s c
  | 0xB02 => ok c.minstret
  | 0xF11 | 0xF12 | 0xF13 | 0xF15 => ok 0
  | 0xF14 => ok (h.setWidth 64)
  | _ =>
    if 0xC03 ≤ n ∧ n ≤ 0xC1F then if counterOn t (n - 0xC00) then hpmRead s c (n - 0xC00) else (s, none)
    else if 0xB03 ≤ n ∧ n ≤ 0xB1F then hpmRead s c (n - 0xB00)
    else if 0x323 ≤ n ∧ n ≤ 0x33F then ok (if n - 0x320 ≤ 10 then c.hpmevent.get 0 (n - 0x320) else 0)
    else if 0x3B0 ≤ n ∧ n ≤ 0x3BF then ok (pmpaddrRead c (n - 0x3B0))
    else (s, none)

/-- A register after a write of its number. A write of minstret is what the next instruction reads. -/
def csrPut (c : Csrs) (n : Nat) (v : W64) : Csrs :=
  match n with
  | 0x100 => mstatusWrite c sstatusMask v
  | 0x104 => { c with mie := (c.mie &&& ~~~c.mideleg) ||| (v &&& c.mideleg) }
  | 0x105 => { c with stvec := v &&& ~~~2#64 }
  | 0x106 => { c with scounteren := v &&& 0x7FF }
  | 0x10A => { c with senvcfg := v &&& 1 }
  | 0x140 => { c with sscratch := v }
  | 0x141 => { c with sepc := v &&& ~~~1#64 }
  | 0x142 => { c with scause := v }
  | 0x143 => { c with stval := v }
  | 0x144 => { c with mip := (c.mip &&& ~~~(c.mideleg &&& 2)) ||| (v &&& c.mideleg &&& 2) }
  | 0x180 => if fld v 60 4 ∈ [0, 8, 9, 10] then { c with satp := v } else c
  | 0x300 => mstatusWrite c mstatusMask v
  | 0x302 => { c with medeleg := v &&& 0xB3FF }
  | 0x303 => { c with mideleg := v &&& 0x222 }
  | 0x304 => { c with mie := v &&& 0xAAA }
  | 0x305 => { c with mtvec := v &&& ~~~2#64 }
  | 0x306 => { c with mcounteren := v &&& 0x7FF }
  | 0x30A => { c with menvcfg := v &&& 1 }
  | 0x320 => { c with mcountinhibit := v &&& 0x7FD }
  | 0x340 => { c with mscratch := v }
  | 0x341 => { c with mepc := v &&& ~~~1#64 }
  | 0x342 => { c with mcause := v }
  | 0x343 => { c with mtval := v }
  | 0x344 => { c with mip := v &&& 0x222 }
  | 0x3A0 => pmpcfgWrite c 0 v
  | 0x3A2 => pmpcfgWrite c 8 v
  | 0xB00 => { c with mcycle := v }
  | 0xB02 => { c with minstret := if wbit c.mcountinhibit 2 then v else v - 1 }
  | _ =>
    if 0xB03 ≤ n ∧ n ≤ 0xB0A then { c with hpm := c.hpm.set 0 (n - 0xB00) v }
    else if 0x323 ≤ n ∧ n ≤ 0x32A then { c with hpmevent := c.hpmevent.set 0 (n - 0x320) v }
    else if 0x3B0 ≤ n ∧ n ≤ 0x3BF then pmpaddrWrite c (n - 0x3B0) v
    else c

/-- A hart after a write of a register: the floating-point and SV128 registers make their state Dirty (R277). -/
def csrWrite (t : Hart) (n : Nat) (v : W64) : Hart :=
  let c := t.csr
  match n with
  | 0x001 => ({ t with csr := { c with fcsr := (c.fcsr &&& 0xE0) ||| (v &&& 0x1F) } }).dirtyF
  | 0x002 => ({ t with csr := { c with fcsr := (c.fcsr &&& 0x1F) ||| ((v &&& 7) <<< 5) } }).dirtyF
  | 0x003 => ({ t with csr := { c with fcsr := v &&& 0xFF } }).dirtyF
  | 0x800 => ({ t with svcsr := v.setWidth 9 }).dirtyV
  | 0x801 => ({ t with svindex := v.setWidth 4 }).dirtyV
  | _ => { t with csr := csrPut c n v }

/-- A CSR instruction: `src` is the register or immediate operand; a write is made but for a set or clear whose source
field is zero. -/
def csrInstr (s : State) (h : BitVec 6) (w : Nat) (src : W64) : HRes :=
  let t := s.hart h
  let n := nfld w 20 12
  let f3 := nfld w 12 3 % 4
  let rd := nfld w 7 5
  let writes := f3 == 1 || nfld w 15 5 != 0
  if t.priv.num < nfld n 8 2 || (writes && nfld n 10 2 == 3) then illegal s w
  else match csrRead s h n with
    | (_, none) => illegal s w
    | (s1, some old) =>
      let new := if f3 = 1 then src else if f3 = 2 then old ||| src else old &&& ~~~src
      retire s1 h 4 fun t =>
        let t1 := if writes then csrWrite t n new else t
        t1.setX rd old

/-- A return from a trap (privileged architecture 1.12). -/
def mret (t : Hart) : Hart :=
  let c := t.csr
  let p := Priv.ofNum (fld c.mstatus 11 2)
  let st := setFld (setFld (setFld c.mstatus 3 1 (fld c.mstatus 7 1)) 7 1 1) 11 2 0
  { t with priv := p, pc := c.mepc, csr := { c with mstatus := if p = .M then st else setFld st 17 1 0 } }

/-- A return from a supervisor trap. -/
def sret (t : Hart) : Hart :=
  let c := t.csr
  let p := Priv.ofNum (fld c.mstatus 8 1)
  let st := setFld (setFld (setFld c.mstatus 1 1 (fld c.mstatus 5 1)) 5 1 1) 8 1 0
  { t with priv := p, pc := c.sepc, csr := { c with mstatus := setFld st 17 1 0 } }

/-- ECALL, EBREAK, MRET, SRET, WFI and SFENCE.VMA. -/
def privInstr (s : State) (h : BitVec 6) (w : Nat) : HRes :=
  let t := s.hart h
  let st := t.csr.mstatus
  if w = 0x00000073 then .trap s (8 + t.priv.num) 0
  else if w = 0x00100073 then .trap s 3 t.pc
  else if w = 0x30200073 then if t.priv = .M then .done (s.updHart h mret) else illegal s w
  else if w = 0x10200073 then
    if t.priv = .U ∨ (t.priv = .S ∧ wbit st 22) then illegal s w else .done (s.updHart h sret)
  else if w = 0x10500073 then
    if t.priv = .U ∨ (t.priv = .S ∧ wbit st 21) then illegal s w
    else retire s h 4 fun t => { t with state := if wakes s h then .running else .wfi }
  else if w >>> 25 = 0x09 ∧ nfld w 7 8 = 0 then
    if t.priv = .U ∨ (t.priv = .S ∧ wbit st 20) then illegal s w else retire (drainCore s (coreOf h)) h 4 id
  else illegal s w

end Sys2Proof.Machine
end

