-- ==== Sys2Proof/Machine/RvFp.lean ====
section
/-!
DEFINITION. Floating-point instructions of the F and D extensions (Table 10.1), and the IEEE 754 operations that they
share with SV128 (R281).
-/
namespace Sys2Proof.Machine

/-- Exception flags in the order of fflags and svcsr: NX, UF, OF, DZ, NV. -/
abbrev FF := BitVec 5

/-- Flags from their conditions. -/
def FF.of (nv dz of uf nx : Bool) : FF :=
  BitVec.ofNat 5 (bn nx + 2 * bn uf + 4 * bn of + 8 * bn dz + 16 * bn nv)

/-- The RISC-V rounding mode of a code; 5 to 7 have none. -/
def rvRnd : Nat → Option Rnd
  | 0 => some .rne | 1 => some .rtz | 2 => some .rdn | 3 => some .rup | 4 => some .rmm | _ => none

/-- An operation's exact value rounded once into a format, with its flags: tininess is judged after rounding, and a
signalling NaN among the sources `raws` is invalid. -/
def fpOut (f : Fmt) (r : Rnd) (snan : Bool) (v : Val × Bool) (dz : Bool) : Nat × FF :=
  let x := f.round r 0 v.1
  (x.1, FF.of (v.2 || snan) dz (x.2 &&& Fl.of != 0) (f.tinyAfter r 0 v.1) (x.2 &&& Fl.nx != 0))

/-- A signalling NaN is among the sources. -/
def anySnan (f : Fmt) (raws : List Nat) : Bool := raws.any f.isSnan

/-- Addition, subtraction and multiplication. -/
def fpAdd (f : Fmt) (r : Rnd) (a b : Nat) : Nat × FF :=
  fpOut f r (anySnan f [a, b]) (Val.add (r == .rdn) (f.decode a) (f.decode b)) false
def fpSub (f : Fmt) (r : Rnd) (a b : Nat) : Nat × FF :=
  fpOut f r (anySnan f [a, b]) (Val.add (r == .rdn) (f.decode a) (f.decode b).negate) false
def fpMul (f : Fmt) (r : Rnd) (a b : Nat) : Nat × FF :=
  fpOut f r (anySnan f [a, b]) ((f.decode a).mul (f.decode b)) false

/-- Division. -/
def fpDiv (f : Fmt) (r : Rnd) (a b : Nat) : Nat × FF :=
  let (v, iv, dz) := (f.decode a).div (f.decode b)
  fpOut f r (anySnan f [a, b]) (v, iv) dz

/-- Square root. -/
def fpSqrt (f : Fmt) (r : Rnd) (a : Nat) : Nat × FF := fpOut f r (anySnan f [a]) (f.decode a).sqrt false

/-- ±(a × b) ± c with one rounding. -/
def fpFma (f : Fmt) (r : Rnd) (negP negC : Bool) (a b c : Nat) : Nat × FF :=
  let x := if negP then (f.decode a).negate else f.decode a
  let z := if negC then (f.decode c).negate else f.decode c
  fpOut f r (anySnan f [a, b, c]) (Val.fma r x (f.decode b) z) false

/-- The lesser or the greater, −0 below +0; one NaN gives the other operand. -/
def fpMinMax (f : Fmt) (max : Bool) (a b : Nat) : Nat × FF :=
  let x := f.decode a
  let y := f.decode b
  let nv := FF.of (anySnan f [a, b]) false false false false
  if x.isNan && y.isNan then (f.nan, nv)
  else if x.isNan then (b, nv)
  else if y.isNan then (a, nv)
  else
    let less : Bool := match x.cmp y with
      | some .lt => true
      | some .eq => x.neg? && !y.neg?
      | _ => false
    (if less != max then a else b, nv)

/-- Comparisons 0 ≤, 1 <, 2 =: the first two signal on every NaN, the last on signalling ones. -/
def fpCmp (f : Fmt) (k a b : Nat) : Bool × FF :=
  let x := f.decode a
  let y := f.decode b
  let nv := if k = 2 then anySnan f [a, b] else x.isNan || y.isNan
  let r : Bool := match x.cmp y with
    | some .lt => k != 2
    | some .eq => k != 1
    | _ => false
  (r, FF.of nv false false false false)

/-- A float converted to an integer within bounds: a NaN gives the upper bound. -/
def fpToInt (r : Rnd) (v : Val) (lo hi : Int) : Int × FF :=
  let nv := FF.of true false false false false
  match v with
  | .nan => (hi, nv)
  | .inf n => (if n then lo else hi, nv)
  | .fin n m e =>
    let (k, ix) := roundMag r 0 n m e 0
    let i : Int := if n then -(k : Int) else k
    if i < lo then (lo, nv) else if hi < i then (hi, nv) else (i, FF.of false false false false ix)

/-- A float converted to another format. -/
def fpCvt (src dst : Fmt) (r : Rnd) (a : Nat) : Nat × FF := fpOut dst r (anySnan src [a]) (src.decode a, false) false

/-- An integer converted to a float. -/
def fpOfInt (f : Fmt) (r : Rnd) (i : Int) : Nat × FF := fpOut f r false (Val.ofInt i, false) false

/-- The ten classes of FCLASS. -/
def fpClass (f : Fmt) (a : Nat) : Nat :=
  let top := f.bits - 1
  let neg := a.testBit top
  let fb := if f == .fp64 then 52 else 23
  match f.decode a with
  | .nan => if f.isSnan a then 2 ^ 8 else 2 ^ 9
  | .inf n => if n then 2 ^ 0 else 2 ^ 7
  | .fin _ m _ =>
    if m = 0 then (if neg then 2 ^ 3 else 2 ^ 4)
    else if m < 2 ^ fb then (if neg then 2 ^ 2 else 2 ^ 5)
    else (if neg then 2 ^ 1 else 2 ^ 6)

/-! ### Registers -/

/-- The bits of a source register in a format: a single that is not NaN-boxed reads as the canonical NaN. -/
def Hart.fsrc (t : Hart) (d : Bool) (r : Nat) : Nat :=
  let v := (t.fr r).toNat
  if d then v else if v >>> 32 = 0xFFFF_FFFF then v % 2 ^ 32 else Fmt.fp32.nan

/-- A result in a register, a single NaN-boxed, and its flags in fcsr. -/
def Hart.fput (t : Hart) (d : Bool) (r : Nat) (x : Nat × FF) : Hart :=
  let t1 := t.setF r (BitVec.ofNat 64 (if d then x.1 else x.1 + 0xFFFF_FFFF_0000_0000))
  { t1 with csr := { t1.csr with fcsr := t1.csr.fcsr ||| x.2.setWidth 64 } }

/-- Flags alone in fcsr, and an integer result. -/
def Hart.fint (t : Hart) (r : Nat) (v : W64) (fl : FF) : Hart :=
  let t1 := t.setX r v
  if fl = 0 then t1 else { t1.dirtyF with csr := { t1.dirtyF.csr with fcsr := t1.csr.fcsr ||| fl.setWidth 64 } }

/-- The rounding mode of an instruction: its own, or that of fcsr. -/
def rmOf (t : Hart) (w : Nat) : Option Rnd :=
  let m := nfld w 12 3
  rvRnd (if m = 7 then fld t.csr.fcsr 5 3 else m)

/-- The bounds and the register value of the four integer conversions W, WU, L, LU. -/
def cvtBounds : Nat → Int × Int
  | 0 => (-2147483648, 2147483647)
  | 1 => (0, 4294967295)
  | 2 => (-9223372036854775808, 9223372036854775807)
  | _ => (0, 18446744073709551615)

/-- The integer that a register holds for the conversions W, WU, L, LU. -/
def cvtSource (k : Nat) (x : W64) : Int :=
  match k with
  | 0 => sx 32 x.toNat
  | 1 => (x.toNat % 2 ^ 32 : Nat)
  | 2 => x.toInt
  | _ => x.toNat

/-- The register value of an integer result of the conversions W, WU, L, LU: 32-bit ones are sign-extended. -/
def cvtResult (k : Nat) (i : Int) : W64 := if k < 2 then BitVec.ofInt 64 (sx 32 (tc 32 i)) else BitVec.ofInt 64 i

/-- FMADD, FMSUB, FNMSUB, FNMADD. -/
def fmaInstr (s : State) (h : BitVec 6) (w : Nat) : HRes :=
  let t := s.hart h
  let d := nfld w 25 2 == 1
  let f := if d then Fmt.fp64 else .fp32
  match rmOf t w with
  | none => illegal s w
  | some r =>
    if 1 < nfld w 25 2 then illegal s w
    else
      let op := nfld w 2 2
      let x := fpFma f r (op == 2 || op == 3) (op == 1 || op == 3) (t.fsrc d (nfld w 15 5)) (t.fsrc d (nfld w 20 5))
        (t.fsrc d (nfld w 27 5))
      retire s h 4 fun t => t.fput d (nfld w 7 5) x

/-- The instructions of OP-FP. -/
def opFp (s : State) (h : BitVec 6) (w : Nat) : HRes :=
  let t := s.hart h
  let d := nfld w 25 2 == 1
  let f := if d then Fmt.fp64 else .fp32
  let rd := nfld w 7 5
  let rs1 := nfld w 15 5
  let rs2 := nfld w 20 5
  let rm := nfld w 12 3
  let a := t.fsrc d rs1
  let b := t.fsrc d rs2
  let rounded := fun (g : Rnd → Nat × FF) =>
    match rmOf t w with
    | none => illegal s w
    | some r => retire s h 4 fun t => t.fput d rd (g r)
  let plain := fun (v : Nat × FF) => retire s h 4 fun t => t.fput d rd v
  let top := f.bits - 1
  let mag := a % 2 ^ top
  let sgn := fun (n : Bool) => plain (mag + (if n then 2 ^ top else 0), 0)
  if 1 < nfld w 25 2 then illegal s w
  else match nfld w 27 5 with
    | 0x00 => rounded fun r => fpAdd f r a b
    | 0x01 => rounded fun r => fpSub f r a b
    | 0x02 => rounded fun r => fpMul f r a b
    | 0x03 => rounded fun r => fpDiv f r a b
    | 0x0B => if rs2 = 0 then rounded fun r => fpSqrt f r a else illegal s w
    | 0x04 =>
      match rm with
      | 0 => sgn (b.testBit top)
      | 1 => sgn !(b.testBit top)
      | 2 => sgn (a.testBit top != b.testBit top)
      | _ => illegal s w
    | 0x05 => if rm ≤ 1 then plain (fpMinMax f (rm == 1) a b) else illegal s w
    | 0x08 =>
      if d then if rs2 = 0 then rounded fun r => fpCvt .fp32 .fp64 r (t.fsrc false rs1) else illegal s w
      else if rs2 = 1 then rounded fun r => fpCvt .fp64 .fp32 r (t.fsrc true rs1) else illegal s w
    | 0x14 =>
      if rm ≤ 2 then
        let (c, fl) := fpCmp f rm a b
        retire s h 4 fun t => t.fint rd (BitVec.ofNat 64 (bn c)) fl
      else illegal s w
    | 0x18 =>
      if rs2 ≤ 3 then
        match rmOf t w with
        | none => illegal s w
        | some r =>
          let (lo, hi) := cvtBounds rs2
          let (i, fl) := fpToInt r (f.decode a) lo hi
          retire s h 4 fun t => t.fint rd (cvtResult rs2 i) fl
      else illegal s w
    | 0x1A => if rs2 ≤ 3 then rounded fun r => fpOfInt f r (cvtSource rs2 (t.xr rs1)) else illegal s w
    | 0x1C =>
      if rs2 != 0 then illegal s w
      else if rm = 0 then
        let v := t.fr rs1
        retire s h 4 fun t => t.setX rd (if d then v else BitVec.ofInt 64 (sx 32 v.toNat))
      else if rm = 1 then retire s h 4 fun t => t.setX rd (BitVec.ofNat 64 (fpClass f a))
      else illegal s w
    | 0x1E =>
      if rs2 = 0 ∧ rm = 0 then
        let v := (t.xr rs1).toNat
        plain (if d then v else v % 2 ^ 32, 0)
      else illegal s w
    | _ => illegal s w

/-- Floating-point instructions are on while mstatus.FS is not Off. -/
def fpOn (s : State) (h : BitVec 6) : Bool := fld (s.hart h).csr.mstatus 13 2 != 0

end Sys2Proof.Machine
end

