-- ==== Sys2Proof/Machine/Sv128.lean ====
section
/-!
DEFINITION. SV128 (10 R277 to R284): the integer, whole-register and floating operations, and the loads and stores.
-/
namespace Sys2Proof.Machine

/-! ### Elements -/

/-- The elements of `w` bytes of a register (R277). -/
def elems (w : Nat) (v : W128) : List Nat := (List.range (16 / w)).map fun i => nfld v.toNat (8 * w * i) (8 * w)

/-- The register of elements of `w` bytes. -/
def ofElems (w : Nat) (l : List Nat) : W128 :=
  BitVec.ofNat 128 ((l.zipIdx).foldl (fun a e => a + (e.1 % 2 ^ (8 * w)) <<< (8 * w * e.2)) 0)

/-- One element of a register replaced. -/
def setElem (w : Nat) (v : W128) (i x : Nat) : W128 := ofElems w ((elems w v).set i x)

/-- All ones, or zero, of an element. -/
def svMask (w : Nat) (c : Bool) : Nat := if c then 2 ^ (8 * w) - 1 else 0

/-- A value held within bounds, and whether it had to be. -/
def satTo (lo hi i : Int) : Int × Bool := if i < lo then (lo, true) else if hi < i then (hi, true) else (i, false)

/-! ### Integer operations (Table 10.6) -/

/-- An element operation on two elements of `w` bytes, with its saturation: none where the code is not of this shape. -/
def svElem (f7 w a b : Nat) : Option (Nat × Bool) :=
  let n := 8 * w
  let x := sx n a
  let y := sx n b
  let lo : Int := -((2 ^ (n - 1) : Nat) : Int)
  let hi : Int := (2 ^ (n - 1) : Nat) - 1
  let top : Int := (2 ^ n : Nat) - 1
  let wrap := fun (i : Int) => some (tc n i, false)
  let sat := fun (l h i : Int) => some (tc n (satTo l h i).1, (satTo l h i).2)
  match f7 with
  | 0x00 => wrap (x + y)
  | 0x01 => wrap (x - y)
  | 0x02 => wrap (x * y)
  | 0x03 => wrap (min x y)
  | 0x04 => wrap (max x y)
  | 0x05 => some (min a b, false)
  | 0x06 => some (max a b, false)
  | 0x08 => sat lo hi (x + y)
  | 0x09 => sat 0 top ((a : Int) + b)
  | 0x0A => sat lo hi (x - y)
  | 0x0B => sat 0 top ((a : Int) - b)
  | 0x10 => some (svMask w (a == b), false)
  | 0x11 => some (svMask w (decide (x < y)), false)
  | 0x12 => some (svMask w (decide (a < b)), false)
  | 0x18 => some ((a <<< (b % n)) % 2 ^ n, false)
  | 0x19 => some (a >>> (b % n), false)
  | 0x1A => some (tc n (x / ((2 ^ (b % n) : Nat) : Int)), false)
  | _ => none

/-- Widening products of the lower or upper half of the sources (R280). -/
def svWiden (signed upper : Bool) (w : Nat) (a b : W128) : W128 :=
  let n := 16 / w
  let o := if upper then n / 2 else 0
  let get := fun (v : W128) (i : Nat) =>
    if signed then sx (8 * w) ((elems w v).getD (o + i) 0) else (((elems w v).getD (o + i) 0 : Nat) : Int)
  ofElems (2 * w) ((List.range (n / 2)).map fun i => tc (16 * w) (get a i * get b i))

/-- Dot products into wider lanes (R280): lanes of 4 bytes with four products for bytes, of 8 bytes with two products for
halves. -/
def svDot (sa sb : Bool) (w : Nat) (a b d : W128) : W128 :=
  let l := 4 * w
  let k := if w = 1 then 4 else 2
  let get := fun (signed : Bool) (v : W128) (i : Nat) =>
    if signed then sx (8 * w) ((elems w v).getD i 0) else (((elems w v).getD i 0 : Nat) : Int)
  ofElems l ((List.range (16 / l)).map fun i =>
    tc (8 * l) ((List.range k).foldl (fun acc j => acc + get sa a (k * i + j) * get sb b (k * i + j))
      (((elems l d).getD i 0 : Nat) : Int)))

/-- Elements of two registers interleaved, from `o` on. -/
def svZip (w o : Nat) (a b : W128) : W128 :=
  ofElems w ((List.range (16 / w)).map fun i => (elems w (if i % 2 = 0 then a else b)).getD (o + i / 2) 0)

/-- The even or odd elements of two registers. -/
def svUnzip (w o : Nat) (a b : W128) : W128 :=
  let n := 16 / w
  ofElems w ((List.range n).map fun i =>
    (elems w (if i < n / 2 then a else b)).getD (2 * (i % (n / 2)) + o) 0)

/-- An SV128 arithmetic instruction retires with a change of the hart. -/
def svRet (s : State) (h : BitVec 6) (f : Hart → Hart) : HRes := retire s h 4 f

/-- A saturation sets svcsr.sat (R280). -/
def Hart.svSat (t : Hart) (c : Bool) : Hart := if c then ({ t with svcsr := t.svcsr ||| 0x100 }).dirtyV else t

/-- An integer operation at funct3 B, H, W or D, elements of `w` bytes (Table 10.6, R279). -/
def svInt (s : State) (h : BitVec 6) (f7 w vd vs1 vs2 word : Nat) : HRes :=
  let t := s.hart h
  let a := t.vr vs1
  let b := t.vr vs2
  let n := 16 / w
  let bad := illegal s word
  let put := fun (v : W128) => svRet s h fun t => t.setV vd v
  match f7 with
  | 0x20 => if w ≤ 4 then put (svWiden true false w a b) else bad
  | 0x21 => if w ≤ 4 then put (svWiden true true w a b) else bad
  | 0x22 => if w ≤ 4 then put (svWiden false false w a b) else bad
  | 0x23 => if w ≤ 4 then put (svWiden false true w a b) else bad
  | 0x28 => if w ≤ 2 then put (svDot true true w a b (t.vr vd)) else bad
  | 0x29 => if w ≤ 2 then put (svDot false false w a b (t.vr vd)) else bad
  | 0x2A => if w ≤ 2 then put (svDot true false w a b (t.vr vd)) else bad
  | 0x30 => if vs2 = 0 then put (ofElems w (List.replicate n (t.xr vs1).toNat)) else bad
  | 0x31 =>
    if vs2 < n then svRet s h fun t => t.setX vd (BitVec.ofInt 64 (sx (8 * w) ((elems w a).getD vs2 0))) else bad
  | 0x32 => if vs2 < n then put (setElem w (t.vr vd) vs2 (t.xr vs1).toNat) else bad
  | 0x33 =>
    if vs2 = 0 then
      let m := ((elems w a).zipIdx).foldl (fun acc e => acc + (e.1 >>> (8 * w - 1)) <<< e.2) 0
      svRet s h fun t => t.setX vd (BitVec.ofNat 64 m)
    else bad
  | 0x38 => put (svZip w 0 a b)
  | 0x39 => put (svZip w (n / 2) a b)
  | 0x3A => put (svUnzip w 0 a b)
  | 0x3B => put (svUnzip w 1 a b)
  | _ =>
    match svElem f7 w 0 0 with
    | none => bad
    | some _ =>
      let r := (List.zip (elems w a) (elems w b)).map fun e => (svElem f7 w e.1 e.2).getD (0, false)
      svRet s h fun t => (t.setV vd (ofElems w (r.map Prod.fst))).svSat (r.any Prod.snd)

/-! ### Whole-register operations (Table 10.7) -/

/-- A whole-register operation. -/
def svWhole (s : State) (h : BitVec 6) (f7 vd vs1 vs2 word : Nat) : HRes :=
  let t := s.hart h
  let a := t.vr vs1
  let b := t.vr vs2
  let put := fun (v : W128) => svRet s h fun t => t.setV vd v
  let byte := fun (v : W128) (i : Nat) => (elems 1 v).getD i 0
  match f7 with
  | 0x00 => put (a &&& b)
  | 0x01 => put (a ||| b)
  | 0x02 => put (a ^^^ b)
  | 0x03 => put (a &&& ~~~b)
  | 0x04 => if vs2 = 0 then put a else illegal s word
  | 0x05 => put ((a &&& t.vr 0) ||| (b &&& ~~~(t.vr 0)))
  | 0x08 => put (ofElems 1 ((elems 1 b).map fun x => if x.testBit 7 then 0 else byte a (x % 16)))
  | _ =>
    if 0x10 ≤ f7 ∧ f7 ≤ 0x1F then
      put (ofElems 1 ((List.range 16).map fun i =>
        let j := i + f7 % 16
        if j < 16 then byte a j else byte b (j - 16)))
    else illegal s word

/-! ### Floating operations (Table 10.8, R281) -/

/-- The formats of funct3 FP16, FP32, FP64, and their bytes. -/
def svFmt : Nat → Option (Fmt × Nat)
  | 5 => some (.fp16, 2) | 6 => some (.fp32, 4) | 7 => some (.fp64, 8) | _ => none

/-- One element of a two-source or three-source operation, with its flags. -/
def svFloat (f7 : Nat) (f : Fmt) (w : Nat) (r : Rnd) (a b d : Nat) : Option (Nat × FF) :=
  let n := 8 * w
  let cmp := fun (k : Nat) => some (svMask w (fpCmp f k a b).1, (fpCmp f k a b).2)
  match f7 with
  | 0x00 => some (fpAdd f r a b)
  | 0x01 => some (fpSub f r a b)
  | 0x02 => some (fpMul f r a b)
  | 0x03 => some (fpDiv f r a b)
  | 0x04 => some (fpMinMax f false a b)
  | 0x05 => some (fpMinMax f true a b)
  | 0x06 => some (fpFma f r false false a b d)
  | 0x07 => some (fpFma f r true false a b d)
  | 0x08 => some (fpSqrt f r a)
  | 0x10 => cmp 2
  | 0x11 => cmp 1
  | 0x12 => cmp 0
  | 0x18 => some (fpOfInt f r (sx n a))
  | 0x19 =>
    let (i, fl) := fpToInt r (f.decode a) (-((2 ^ (n - 1) : Nat) : Int)) ((2 ^ (n - 1) : Nat) - 1)
    some (tc n i, fl)
  | _ => none

/-- Operations whose vs2 must be zero: VFSQRT and the conversions and widenings of one source. -/
def svOneSource (f7 : Nat) : Bool := f7 == 0x08 || f7 == 0x18 || f7 == 0x19 || f7 == 0x1A || f7 == 0x1B

/-- A floating operation: illegal with a rounding mode of 5 to 7; its flags are ORed into svcsr (R277, R281). -/
def svFp (s : State) (h : BitVec 6) (f7 f3 vd vs1 vs2 word : Nat) : HRes :=
  let t := s.hart h
  match svFmt f3, rvRnd (nfld t.svcsr.toNat 5 3) with
  | some (f, w), some r =>
    let a := elems w (t.vr vs1)
    let b := elems w (t.vr vs2)
    let d := elems w (t.vr vd)
    let n := 16 / w
    let put := fun (w : Nat) (l : List (Nat × FF)) =>
      svRet s h fun t =>
        let t1 := t.setV vd (ofElems w (l.map Prod.fst))
        let fl : FF := l.foldl (fun (m : FF) (e : Nat × FF) => m ||| e.2) 0
        { t1 with svcsr := t1.svcsr ||| fl.setWidth 9 }
    if svOneSource f7 && vs2 != 0 then illegal s word
    else
      match f7 with
      | 0x1A | 0x1B =>
        if f3 = 7 then illegal s word
        else
          let wide := if f3 = 5 then Fmt.fp32 else .fp64
          let half := if f7 = 0x1A then a.take (n / 2) else a.drop (n / 2)
          put (2 * w) (half.map fun x => fpCvt f wide r x)
      | 0x1C =>
        if f3 = 5 then illegal s word
        else put (w / 2) ((a ++ b).map fun x => fpCvt f (if f3 = 6 then Fmt.fp16 else .fp32) r x)
      | _ =>
        match svFloat f7 f w r 0 0 0 with
        | none => illegal s word
        | some _ =>
          put w ((List.range n).map fun i => (svFloat f7 f w r (a.getD i 0) (b.getD i 0) (d.getD i 0)).getD (0, 0))
  | _, _ => illegal s word

/-! ### Loads and stores (R282 to R284) -/

/-- One element of a load or store is accessed under translation and PMP: the state and the loaded value, or the
exception with its address. Before a load, what the core has buffered of the line is in memory, and a fault of that is
reported with the store's address (R272, R275). -/
def svAccess (s : State) (h : BitVec 6) (store : Bool) (va : W64) (w x : Nat) : State × Sum Nat (Nat × W64) :=
  let acc := if store then Acc.store else .load
  match translate s h acc va with
  | (s1, .inr e) => (s1, .inr (e, va))
  | (s1, .inl pa) =>
    match place s1 pa with
    | .reg _ | .remote _ => (s1, .inr (acc.fault, va))
    | _ =>
      if store then
        match physStore s1 h va pa w x with
        | (s2, some e) => (s2, .inr (e, va))
        | (s2, none) => (s2, .inl 0)
      else
        let sd := drainFor s1 h pa w
        match (sd.hart h).stFault with
        | some v => (sd.updHart h fun t => { t with stFault := none }, .inr (7, v))
        | none => match physLoad sd h .load va pa w with
          | (s2, .inr e) => (s2, .inr (e, va))
          | (s2, .inl y) => (s2, .inl y)

/-- The elements from `i` on, `k` of them, accessed in rising order under the mask read at the start; an exception
stops at its element with svindex naming it (R282, R283). -/
def svElems (s : State) (h : BitVec 6) (store : Bool) (base : W64) (w v : Nat) (act : List Bool) : Nat → Nat → HRes
  | 0, _ => svRet s h fun t => t.setIndex 0
  | k + 1, i =>
    if !(act.getD i false) then svElems s h store base w v act k (i + 1)
    else
      let va := base + BitVec.ofNat 64 (i * w)
      let x := (elems w ((s.hart h).vr v)).getD i 0
      match svAccess s h store va w x with
      | (s1, .inr (e, v)) => .trap (s1.updHart h fun t => t.setIndex (BitVec.ofNat 4 i)) e v
      | (s1, .inl y) =>
        let s2 := if store then s1 else s1.updHart h fun t => t.setV v (setElem w (t.vr v) i y)
        svElems s2 h store base w v act k (i + 1)

/-- An SV128 load or store of elements of `w` bytes (R282, R284). -/
def svMem (s : State) (h : BitVec 6) (store m : Bool) (w v rs1 word : Nat) : HRes :=
  let t := s.hart h
  let va := t.xr rs1
  let n := 16 / w
  let i := t.svindex.toNat
  let acc := if store then Acc.store else .load
  match (if store then none else storeFault s h) with
  | some r => r
  | none =>
    if va.toNat % w ≠ 0 then .trap s acc.misaligned va
    else if n ≤ i ∨ (!store ∧ m ∧ v = 0) then illegal s word
    else
      let act := (elems w (t.vr 0)).map fun x => !m || x.testBit (8 * w - 1)
      let first := ((List.range n).find? fun j => i ≤ j && act.getD j false).getD n
      let va0 := va + BitVec.ofNat 64 (first * w)
      match (if first < n then translate s h acc va0 else (s, .inr 0)) with
      | (s1, .inl pa) =>
        if inAperture pa then
          if m ∨ va.toNat % 16 ≠ 0 ∨ i ≠ 0 then
            .trap (s1.updHart h fun t => t.setIndex (BitVec.ofNat 4 first)) acc.fault va0
          else apAccess s1 h { kind := if store then .store else .load, size := 16, va := va, pa := pa,
                               data := t.vr v, rd := BitVec.ofNat 5 v, vec := true }
        else svElems s h store va w v act (n - i) i
      | (_, .inr _) => svElems s h store va w v act (n - i) i

/-! ### Decoding (Table 10.5) -/

/-- SV128 instructions are on while mstatus.XS is not Off (R277). -/
def svOn (s : State) (h : BitVec 6) : Bool := fld (s.hart h).csr.mstatus 15 2 != 0

/-- An instruction of custom-0. -/
def svArith (s : State) (h : BitVec 6) (word : Nat) : HRes :=
  let vd := nfld word 7 5
  let vs1 := nfld word 15 5
  let vs2 := nfld word 20 5
  let f7 := nfld word 25 7
  if !svOn s h then illegal s word
  else match nfld word 12 3 with
    | 0 => svInt s h f7 1 vd vs1 vs2 word
    | 1 => svInt s h f7 2 vd vs1 vs2 word
    | 2 => svInt s h f7 4 vd vs1 vs2 word
    | 3 => svInt s h f7 8 vd vs1 vs2 word
    | 4 => svWhole s h f7 vd vs1 vs2 word
    | f3 => svFp s h f7 f3 vd vs1 vs2 word

/-- An instruction of custom-1. -/
def svLdSt (s : State) (h : BitVec 6) (word : Nat) : HRes :=
  let wc := nfld word 12 3
  if !svOn s h || nfld word 20 5 != 0 || word >>> 27 != 0 || 3 < wc then illegal s word
  else svMem s h (word.testBit 26) (word.testBit 25) (2 ^ wc) (nfld word 7 5) (nfld word 15 5) word

end Sys2Proof.Machine
end

