-- ==== Sys2Proof/Machine/Rv.lean ====
section
/-!
DEFINITION. RV64GC (Table 10.1): the integer instructions, the compressed forms, fetch and decode; and how a hart runs
one instruction (10 R268, R276).
-/
namespace Sys2Proof.Machine

/-! ### Integer operations -/

/-- Division and remainder of the M extension, with the results that it gives for a zero divisor. -/
def rvDivS {n : Nat} (x y : BitVec n) : BitVec n := if y = 0 then BitVec.ofInt n (-1) else x.sdiv y
def rvDivU {n : Nat} (x y : BitVec n) : BitVec n := if y = 0 then BitVec.ofInt n (-1) else x / y
def rvRemS {n : Nat} (x y : BitVec n) : BitVec n := if y = 0 then x else x.srem y
def rvRemU {n : Nat} (x y : BitVec n) : BitVec n := if y = 0 then x else x % y

/-- The 64-bit operations of OP, by funct7 and funct3. -/
def rvOp (f7 f3 : Nat) (x y : W64) : Option W64 :=
  let n := y.toNat % 64
  let hi := fun (i : Int) => BitVec.ofInt 64 (i / ((2 ^ 64 : Nat) : Int))
  match f7, f3 with
  | 0x00, 0 => some (x + y)
  | 0x20, 0 => some (x - y)
  | 0x00, 1 => some (x <<< n)
  | 0x00, 2 => some (if x.slt y then 1 else 0)
  | 0x00, 3 => some (if x < y then 1 else 0)
  | 0x00, 4 => some (x ^^^ y)
  | 0x00, 5 => some (x >>> n)
  | 0x20, 5 => some (x.sshiftRight n)
  | 0x00, 6 => some (x ||| y)
  | 0x00, 7 => some (x &&& y)
  | 0x01, 0 => some (x * y)
  | 0x01, 1 => some (hi (x.toInt * y.toInt))
  | 0x01, 2 => some (hi (x.toInt * (y.toNat : Int)))
  | 0x01, 3 => some (hi ((x.toNat : Int) * (y.toNat : Int)))
  | 0x01, 4 => some (rvDivS x y)
  | 0x01, 5 => some (rvDivU x y)
  | 0x01, 6 => some (rvRemS x y)
  | 0x01, 7 => some (rvRemU x y)
  | _, _ => none

/-- The 32-bit operations of OP-32, sign-extended. -/
def rvOp32 (f7 f3 : Nat) (x y : W64) : Option W64 :=
  let a : W32 := x.setWidth 32
  let b : W32 := y.setWidth 32
  let n := y.toNat % 32
  let r : Option W32 := match f7, f3 with
    | 0x00, 0 => some (a + b)
    | 0x20, 0 => some (a - b)
    | 0x00, 1 => some (a <<< n)
    | 0x00, 5 => some (a >>> n)
    | 0x20, 5 => some (a.sshiftRight n)
    | 0x01, 0 => some (a * b)
    | 0x01, 4 => some (rvDivS a b)
    | 0x01, 5 => some (rvDivU a b)
    | 0x01, 6 => some (rvRemS a b)
    | 0x01, 7 => some (rvRemU a b)
    | _, _ => none
  r.map fun v => v.signExtend 64

/-- The operations of OP-IMM: shifts take six bits of the immediate. -/
def rvOpImm (w : Nat) (x imm : W64) : Option W64 :=
  let f3 := nfld w 12 3
  let f6 := w >>> 26
  match f3 with
  | 1 => if f6 = 0 then rvOp 0 1 x (BitVec.ofNat 64 (nfld w 20 6)) else none
  | 5 =>
    if f6 = 0 then rvOp 0 5 x (BitVec.ofNat 64 (nfld w 20 6))
    else if f6 = 0x10 then rvOp 0x20 5 x (BitVec.ofNat 64 (nfld w 20 6))
    else none
  | _ => rvOp 0 f3 x imm

/-- The operations of OP-IMM-32. -/
def rvOpImm32 (w : Nat) (x imm : W64) : Option W64 :=
  let f3 := nfld w 12 3
  let f7 := w >>> 25
  match f3 with
  | 0 => rvOp32 0 0 x imm
  | 1 => if f7 = 0 then rvOp32 0 1 x (BitVec.ofNat 64 (nfld w 20 5)) else none
  | 5 => if f7 = 0 ∨ f7 = 0x20 then rvOp32 f7 5 x (BitVec.ofNat 64 (nfld w 20 5)) else none
  | _ => none

/-- Branch conditions by funct3. -/
def rvBranch (f3 : Nat) (x y : W64) : Option Bool :=
  match f3 with
  | 0 => some (x == y)
  | 1 => some (x != y)
  | 4 => some (x.slt y)
  | 5 => some (!x.slt y)
  | 6 => some (x < y)
  | 7 => some (!(decide (x < y)))
  | _ => none

/-! ### Immediates -/

def immI (w : Nat) : W64 := BitVec.ofInt 64 (sx 12 (w >>> 20))
def immS (w : Nat) : W64 := BitVec.ofInt 64 (sx 12 (w >>> 25 * 32 + nfld w 7 5))
def immB (w : Nat) : W64 :=
  BitVec.ofInt 64 (sx 13 (nfld w 31 1 * 4096 + nfld w 7 1 * 2048 + nfld w 25 6 * 32 + nfld w 8 4 * 2))
def immU (w : Nat) : W64 := BitVec.ofInt 64 (sx 32 (w >>> 12 * 4096))
def immJ (w : Nat) : W64 :=
  BitVec.ofInt 64 (sx 21 (nfld w 31 1 * 2 ^ 20 + nfld w 12 8 * 4096 + nfld w 20 1 * 2048 + nfld w 21 10 * 2))

/-! ### FENCE (R249, R250, R275) -/

/-- A FENCE empties the core's buffer, reports a failed store, and waits for the acknowledgement of earlier aperture
stores when its predecessor set includes I or O (R249, R272, R273). -/
def rvFence (s0 : State) (h : BitVec 6) (w : Nat) : HRes :=
  let s := drainCore s0 (coreOf h)
  let t := s.hart h
  match storeFault s h with
  | some r => r
  | none =>
    match t.apFault with
    | some v => .trap (s.setHart h { t with apFault := none }) 7 v
    | none =>
      if nfld w 26 2 != 0 && !t.apStores.isEmpty then .wait (s.setHart h { t with state := .switched })
      else retire s h 4 id

/-! ### One instruction -/

/-- AMO codes (funct5). -/
def amoOf : Nat → Option AmoOp
  | 0x00 => some .add | 0x01 => some .swap | 0x04 => some .xor | 0x0C => some .and | 0x08 => some .or
  | 0x10 => some .min | 0x14 => some .max | 0x18 => some .minu | 0x1C => some .maxu | _ => none

/-- The instruction of a 32-bit word `w`; `len` is 2 for a compressed form, whose own bits are `orig`. -/
def rvExec (s : State) (h : BitVec 6) (w len orig : Nat) : HRes :=
  let t := s.hart h
  let rd := nfld w 7 5
  let rs1 := nfld w 15 5
  let rs2 := nfld w 20 5
  let f3 := nfld w 12 3
  let f7 := nfld w 25 7
  let x := t.xr rs1
  let y := t.xr rs2
  let bad := illegal s orig
  let put := fun (v : W64) => retire s h len fun t => t.setX rd v
  let opt := fun (v : Option W64) => match v with
    | some v => put v
    | none => bad
  let jump := fun (dest : W64) => HRes.done (s.updHart h fun t => { t.setX rd (t.pc + BitVec.ofNat 64 len) with pc := dest })
  match w % 128 with
  | 0x37 => put (immU w)
  | 0x17 => put (t.pc + immU w)
  | 0x6F => jump (t.pc + immJ w)
  | 0x67 => if f3 = 0 then jump ((x + immI w) &&& ~~~1#64) else bad
  | 0x63 =>
    match rvBranch f3 x y with
    | some true => .done (s.updHart h fun t => { t with pc := t.pc + immB w })
    | some false => retire s h len id
    | none => bad
  | 0x03 =>
    if f3 = 7 then bad
    else hartLoad s h (x + immI w) (2 ^ (f3 % 4)) rd false (decide (4 ≤ f3)) len
  | 0x23 => if f3 ≤ 3 then hartStore s h (x + immS w) (2 ^ f3) y len else bad
  | 0x13 => opt (rvOpImm w x (immI w))
  | 0x1B => opt (rvOpImm32 w x (immI w))
  | 0x33 => opt (rvOp f7 f3 x y)
  | 0x3B => opt (rvOp32 f7 f3 x y)
  | 0x0F => if f3 = 0 then rvFence s h w else if f3 = 1 then retire (drainCore s (coreOf h)) h len id else bad
  | 0x2F =>
    let n := if f3 = 2 then 4 else 8
    if f3 ≠ 2 ∧ f3 ≠ 3 then bad
    else match nfld w 27 5 with
      | 0x02 => if rs2 = 0 then hartLr s h n rd rs1 else bad
      | 0x03 => hartSc s h n rd rs1 rs2
      | c => match amoOf c with
        | some o => hartAmo s h o n rd rs1 rs2
        | none => bad
  | 0x73 =>
    match f3 with
    | 0 => privInstr s h w
    | 4 => bad
    | _ => csrInstr s h w (if 4 < f3 then BitVec.ofNat 64 rs1 else x)
  | 0x07 =>
    if !fpOn s h || (f3 != 2 && f3 != 3) then bad else hartLoad s h (x + immI w) (2 ^ f3) rd true false len
  | 0x27 =>
    if !fpOn s h || (f3 != 2 && f3 != 3) then bad else hartStore s h (x + immS w) (2 ^ f3) (t.fr rs2) len
  | 0x43 | 0x47 | 0x4B | 0x4F => if fpOn s h then fmaInstr s h w else bad
  | 0x53 => if fpOn s h then opFp s h w else bad
  | 0x0B => svArith s h w
  | 0x2B => svLdSt s h w
  | _ => bad

/-! ### Compressed instructions -/

def encI (imm rs1 f3 rd op : Nat) : Nat := (imm % 4096) <<< 20 + rs1 <<< 15 + f3 <<< 12 + rd <<< 7 + op
def encR (f7 rs2 rs1 f3 rd op : Nat) : Nat := f7 <<< 25 + rs2 <<< 20 + rs1 <<< 15 + f3 <<< 12 + rd <<< 7 + op
def encS (imm rs2 rs1 f3 op : Nat) : Nat :=
  nfld imm 5 7 <<< 25 + rs2 <<< 20 + rs1 <<< 15 + f3 <<< 12 + (imm % 32) <<< 7 + op
def encB (imm rs2 rs1 f3 : Nat) : Nat :=
  nfld imm 12 1 <<< 31 + nfld imm 5 6 <<< 25 + rs2 <<< 20 + rs1 <<< 15 + f3 <<< 12 + nfld imm 1 4 <<< 8 +
    nfld imm 11 1 <<< 7 + 0x63
def encJ (imm rd : Nat) : Nat :=
  nfld imm 20 1 <<< 31 + nfld imm 1 10 <<< 21 + nfld imm 11 1 <<< 20 + nfld imm 12 8 <<< 12 + rd <<< 7 + 0x6F

/-- Quadrant 0. -/
def rvc0 (c : Nat) : Option Nat :=
  let rd := 8 + nfld c 2 3
  let rs1 := 8 + nfld c 7 3
  let w := nfld c 10 3 * 8 + nfld c 6 1 * 4 + nfld c 5 1 * 64
  let d := nfld c 10 3 * 8 + nfld c 5 2 * 64
  match c >>> 13 with
  | 0 =>
    let i := nfld c 11 2 * 16 + nfld c 7 4 * 64 + nfld c 6 1 * 4 + nfld c 5 1 * 8
    if i = 0 then none else some (encI i 2 0 rd 0x13)
  | 1 => some (encI d rs1 3 rd 0x07)
  | 2 => some (encI w rs1 2 rd 0x03)
  | 3 => some (encI d rs1 3 rd 0x03)
  | 5 => some (encS d rd rs1 3 0x27)
  | 6 => some (encS w rd rs1 2 0x23)
  | 7 => some (encS d rd rs1 3 0x23)
  | _ => none

/-- Quadrant 1. -/
def rvc1 (c : Nat) : Option Nat :=
  let rd := nfld c 7 5
  let r := 8 + nfld c 7 3
  let r2 := 8 + nfld c 2 3
  let imm := tc 12 (sx 6 (nfld c 12 1 * 32 + nfld c 2 5))
  let sh := nfld c 12 1 * 32 + nfld c 2 5
  let b := tc 13 (sx 9 (nfld c 12 1 * 256 + nfld c 10 2 * 8 + nfld c 5 2 * 64 + nfld c 3 2 * 2 + nfld c 2 1 * 32))
  match c >>> 13 with
  | 0 => some (encI imm rd 0 rd 0x13)
  | 1 => if rd = 0 then none else some (encI imm rd 0 rd 0x1B)
  | 2 => some (encI imm 0 0 rd 0x13)
  | 3 =>
    if rd = 2 then
      let i := nfld c 12 1 * 512 + nfld c 6 1 * 16 + nfld c 5 1 * 64 + nfld c 3 2 * 128 + nfld c 2 1 * 32
      if i = 0 then none else some (encI (tc 12 (sx 10 i)) 2 0 2 0x13)
    else if sh = 0 then none
    else some (tc 20 (sx 6 sh) <<< 12 + rd <<< 7 + 0x37)
  | 4 =>
    match nfld c 10 2 with
    | 0 => some (encI sh r 5 r 0x13)
    | 1 => some (encI (0x400 + sh) r 5 r 0x13)
    | 2 => some (encI imm r 7 r 0x13)
    | _ =>
      match nfld c 12 1, nfld c 5 2 with
      | 0, 0 => some (encR 0x20 r2 r 0 r 0x33)
      | 0, 1 => some (encR 0 r2 r 4 r 0x33)
      | 0, 2 => some (encR 0 r2 r 6 r 0x33)
      | 0, 3 => some (encR 0 r2 r 7 r 0x33)
      | 1, 0 => some (encR 0x20 r2 r 0 r 0x3B)
      | 1, 1 => some (encR 0 r2 r 0 r 0x3B)
      | _, _ => none
  | 5 =>
    let i := nfld c 12 1 * 2048 + nfld c 11 1 * 16 + nfld c 9 2 * 256 + nfld c 8 1 * 1024 + nfld c 7 1 * 64 +
      nfld c 6 1 * 128 + nfld c 3 3 * 2 + nfld c 2 1 * 32
    some (encJ (tc 21 (sx 12 i)) 0)
  | 6 => some (encB b 0 r 0)
  | _ => some (encB b 0 r 1)

/-- Quadrant 2. -/
def rvc2 (c : Nat) : Option Nat :=
  let rd := nfld c 7 5
  let rs2 := nfld c 2 5
  let sh := nfld c 12 1 * 32 + rs2
  let ld := nfld c 12 1 * 32 + nfld c 5 2 * 8 + nfld c 2 3 * 64
  let lw := nfld c 12 1 * 32 + nfld c 4 3 * 4 + nfld c 2 2 * 64
  let sd := nfld c 10 3 * 8 + nfld c 7 3 * 64
  let sw := nfld c 9 4 * 4 + nfld c 7 2 * 64
  match c >>> 13 with
  | 0 => some (encI sh rd 1 rd 0x13)
  | 1 => some (encI ld 2 3 rd 0x07)
  | 2 => if rd = 0 then none else some (encI lw 2 2 rd 0x03)
  | 3 => if rd = 0 then none else some (encI ld 2 3 rd 0x03)
  | 4 =>
    if nfld c 12 1 = 0 then
      if rs2 = 0 then if rd = 0 then none else some (encI 0 rd 0 0 0x67)
      else some (encR 0 rs2 0 0 rd 0x33)
    else if rs2 = 0 then if rd = 0 then some 0x00100073 else some (encI 0 rd 0 1 0x67)
    else some (encR 0 rs2 rd 0 rd 0x33)
  | 5 => some (encS sd rs2 2 3 0x27)
  | 6 => some (encS sw rs2 2 2 0x23)
  | _ => some (encS sd rs2 2 3 0x23)

/-- The 32-bit form of a compressed instruction. -/
def rvc (c : Nat) : Option Nat :=
  match c % 4 with
  | 0 => rvc0 c
  | 1 => rvc1 c
  | _ => rvc2 c

/-! ### Fetch -/

/-- Two bytes of the instruction stream. -/
def fetchHalf (s : State) (h : BitVec 6) (va : W64) : State × Sum Nat Nat :=
  match translate s h .fetch va with
  | (s1, .inr e) => (s1, .inr e)
  | (s1, .inl pa) => physLoad s1 h .fetch va pa 2

/-- The instruction at a hart's pc, fetched, decoded and executed. -/
def rvInstr (s : State) (h : BitVec 6) : HRes :=
  let pc := (s.hart h).pc
  match fetchHalf s h pc with
  | (s1, .inr e) => .trap s1 e pc
  | (s1, .inl lo) =>
    if lo % 4 = 3 then
      match fetchHalf s1 h (pc + 2) with
      | (s2, .inr e) => .trap s2 e (pc + 2)
      | (s2, .inl hi) => rvExec s2 h (lo + hi * 65536) 4 (lo + hi * 65536)
    else match rvc lo with
      | some w => rvExec s1 h w 2 lo
      | none => illegal s1 lo

/-! ### A hart runs -/

/-- A ready hart runs one instruction, or takes the interrupt that is pending first; a hart in WFI leaves it when an
enabled interrupt is pending; any other hart does nothing (R268, R276). -/
def hartRun (s : State) (h : BitVec 6) (f : State → HRes) : State :=
  let t := s.hart h
  if !hartPresent s h || t.missWait then s
  else
    let s0 := drew s
    match t.state with
    | .wfi => serveIntr s0 h
    | .running =>
      match pendingIntr s0 h with
      | some i => takeTrap s0 h true i 0
      | none => (f s0).settle h
    | _ => s

/-- The word of an SV128 arithmetic instruction (Table 10.5). -/
def svWord (f7 f3 : Nat) (r : SvRegs) : Nat :=
  encR f7 r.vs2.toNat r.vs1.toNat f3 r.vd.toNat 0x0B

/-- The word of an SV128 load or store (Table 10.5). -/
def svMemWord (store : Bool) (a : SvMem) : Nat :=
  let wc := match a.width with | .b => 0 | .h => 1 | .w => 2 | .d => 3
  (bn store) <<< 26 + (bn a.m) <<< 25 + a.rs1.toNat <<< 15 + wc <<< 12 + a.v.toNat <<< 7 + 0x2B

/-- funct3 of an integer width, and of a floating format. -/
def svW3 : SvW → Nat
  | .b => 0 | .h => 1 | .w => 2 | .d => 3
def svF3 : SvF → Nat
  | .fp16 => 5 | .fp32 => 6 | .fp64 => 7

/-- A hart executes an SV128 arithmetic instruction. -/
def svRow (s : State) (f7 f3 : Nat) (r : SvRegs) : State := hartRun s r.hart fun s => svArith s r.hart (svWord f7 f3 r)

end Sys2Proof.Machine
end

