-- ==== Sys2Proof/Machine/Harts.lean ====
section
/-!
DEFINITION. The rows of the field cores (10, 09): instructions, AMOs, aperture accesses and their responses, interrupts,
the aperture map, and the SV128 instructions.
-/
namespace Sys2Proof.Machine

/-- HART_INSTRUCTION: one instruction of a hart; with `miss` its next instruction waits on a local cache miss (R266,
R268). -/
def execHartInstruction (h : BitVec 6) (miss : Bool) (s : State) : Host.Outcome State Fault Refusal :=
  .next (if miss then (if (s.hart h).state = .running then s.updHart h fun t => { t with missWait := true } else s)
    else hartRun s h fun s => rvInstr s h)

/-- LOCAL_CACHE_MISS_FILL: the line is in the cache, and the hart is ready again (R268). -/
def execLocalCacheMissFill (h : BitVec 6) (s : State) : Host.Outcome State Fault Refusal :=
  .next (s.updHart h fun t => { t with missWait := false })

/-- HART_AMO (R274). -/
def execHartAmo (h : BitVec 6) (op : AmoOp) (dbl : Bool) (rd rs1 rs2 : BitVec 5) (s : State) :
    Host.Outcome State Fault Refusal :=
  .next (hartRun s h fun s => hartAmo s h op (if dbl then 8 else 4) rd.toNat rs1.toNat rs2.toNat)

/-- Sizes of an aperture access: 1, 2, 4, 8 and 16 bytes, and words and doublewords for an AMO (R247). -/
def apSizeOk (k : ApKind) (size : Nat) : Bool :=
  match k with
  | .load | .store => [1, 2, 4, 8, 16].contains size
  | _ => size == 4 || size == 8

/-- APERTURE_ACCESS: an access of a hart to an NPA of the remote aperture; a load of fewer than 8 bytes sign-extends, and
one of 16 bytes is SV128's, an illegal instruction while mstatus.XS is Off (R247 to R250, R277, R284). -/
def execApertureAccess (h : BitVec 6) (k : ApKind) (size : Nat) (addr : W64) (data : W128) (rd : BitVec 5) (s : State) :
    Host.Outcome State Fault Refusal :=
  .next (if inAperture addr.toNat && apSizeOk k size then
      hartRun s h fun s =>
        if size == 16 && !svOn s h then illegal s 0
        else apAccess s h
          { kind := k, size := size, va := addr, pa := addr.toNat, data := data, rd := rd, vec := size == 16 }
    else s)

/-- APERTURE_RESPONSE (R249, R250). -/
def execApertureResponse (h : BitVec 6) (status : Byte) (data : W128) (s : State) : Host.Outcome State Fault Refusal :=
  .next (hartAnswer s h (Status.ofCode status.toNat) data)

/-- TIMER_INTERRUPT: hall time has reached the compare value; the pending interrupt wakes the hart or is taken where it
is enabled (R276). -/
def execTimerInterrupt (h : BitVec 6) (s : State) : Host.Outcome State Fault Refusal :=
  .next (if (s.hart h).tcmp.toNat ≤ stamp s then serveIntr s h else s)

/-- MSIP: the software interrupt of a hart is set or cleared; set, it wakes the hart or is taken where it is enabled
(R276). -/
def execMsip (h : BitVec 6) (v : Bool) (s : State) : Host.Outcome State Fault Refusal :=
  .next (if hartPresent s h then
      let s1 := s.updHart h fun t => { t with msip := v }
      if v then serveIntr s1 h else s1
    else s)

/-- FCO_HART_TCMP (R276). -/
def execFcoHartTcmp (h : BitVec 6) (v : W64) (s : State) : Host.Outcome State Fault Refusal :=
  .next (if hartPresent s h then s.updHart h fun t => { t with tcmp := v } else s)

/-- FCO_APT: a slot of the aperture is mapped by a hart in machine mode or by the loader; a hart in another mode takes
the access fault of R271, and a host write is not accepted (R247). -/
def execFcoApt (by_ : Requester) (slot : BitVec 12) (v : W64) (s : State) : Host.Outcome State Fault Refusal :=
  let o := 0x5_0000 + 8 * slot.toNat
  let put := { s with apt := s.apt.set 0 slot.toNat (v &&& 0x03FF_FFFF_FFFF_FFFF) }
  .next (match by_ with
    | .firmware => put
    | .host => s
    | .hart h =>
      if (s.hart h).state != .running then s
      else if (s.hart h).priv = .M then put
      else takeTrap s h false 7 (BitVec.ofNat 64 (0x300_0000_0000 + o)))

/-! ### SV128 (Tables 10.6 to 10.8) -/

/-- SV128_LOAD (R282). -/
def execSv128Load (a : SvMem) (s : State) : Host.Outcome State Fault Refusal :=
  .next (hartRun s a.hart fun s => svLdSt s a.hart (svMemWord false a))

/-- SV128_STORE (R282). -/
def execSv128Store (a : SvMem) (s : State) : Host.Outcome State Fault Refusal :=
  .next (hartRun s a.hart fun s => svLdSt s a.hart (svMemWord true a))

/-- VADD, funct7 0x00 (Table 10.6). -/
def execVadd (ew : SvW) (r : SvRegs) (s : State) : Host.Outcome State Fault Refusal :=
  .next (svRow s 0x00 (svW3 ew) r)

/-- VSUB, funct7 0x01 (Table 10.6). -/
def execVsub (ew : SvW) (r : SvRegs) (s : State) : Host.Outcome State Fault Refusal :=
  .next (svRow s 0x01 (svW3 ew) r)

/-- VMUL, funct7 0x02 (Table 10.6). -/
def execVmul (ew : SvW) (r : SvRegs) (s : State) : Host.Outcome State Fault Refusal :=
  .next (svRow s 0x02 (svW3 ew) r)

/-- VMIN, funct7 0x03 (Table 10.6). -/
def execVmin (ew : SvW) (r : SvRegs) (s : State) : Host.Outcome State Fault Refusal :=
  .next (svRow s 0x03 (svW3 ew) r)

/-- VMAX, funct7 0x04 (Table 10.6). -/
def execVmax (ew : SvW) (r : SvRegs) (s : State) : Host.Outcome State Fault Refusal :=
  .next (svRow s 0x04 (svW3 ew) r)

/-- VMINU, funct7 0x05 (Table 10.6). -/
def execVminu (ew : SvW) (r : SvRegs) (s : State) : Host.Outcome State Fault Refusal :=
  .next (svRow s 0x05 (svW3 ew) r)

/-- VMAXU, funct7 0x06 (Table 10.6). -/
def execVmaxu (ew : SvW) (r : SvRegs) (s : State) : Host.Outcome State Fault Refusal :=
  .next (svRow s 0x06 (svW3 ew) r)

/-- VSADD, funct7 0x08 (Table 10.6). -/
def execVsadd (ew : SvW) (r : SvRegs) (s : State) : Host.Outcome State Fault Refusal :=
  .next (svRow s 0x08 (svW3 ew) r)

/-- VSADDU, funct7 0x09 (Table 10.6). -/
def execVsaddu (ew : SvW) (r : SvRegs) (s : State) : Host.Outcome State Fault Refusal :=
  .next (svRow s 0x09 (svW3 ew) r)

/-- VSSUB, funct7 0x0A (Table 10.6). -/
def execVssub (ew : SvW) (r : SvRegs) (s : State) : Host.Outcome State Fault Refusal :=
  .next (svRow s 0x0A (svW3 ew) r)

/-- VSSUBU, funct7 0x0B (Table 10.6). -/
def execVssubu (ew : SvW) (r : SvRegs) (s : State) : Host.Outcome State Fault Refusal :=
  .next (svRow s 0x0B (svW3 ew) r)

/-- VCMPEQ, funct7 0x10 (Table 10.6). -/
def execVcmpeq (ew : SvW) (r : SvRegs) (s : State) : Host.Outcome State Fault Refusal :=
  .next (svRow s 0x10 (svW3 ew) r)

/-- VCMPLT, funct7 0x11 (Table 10.6). -/
def execVcmplt (ew : SvW) (r : SvRegs) (s : State) : Host.Outcome State Fault Refusal :=
  .next (svRow s 0x11 (svW3 ew) r)

/-- VCMPLTU, funct7 0x12 (Table 10.6). -/
def execVcmpltu (ew : SvW) (r : SvRegs) (s : State) : Host.Outcome State Fault Refusal :=
  .next (svRow s 0x12 (svW3 ew) r)

/-- VSLL, funct7 0x18 (Table 10.6). -/
def execVsll (ew : SvW) (r : SvRegs) (s : State) : Host.Outcome State Fault Refusal :=
  .next (svRow s 0x18 (svW3 ew) r)

/-- VSRL, funct7 0x19 (Table 10.6). -/
def execVsrl (ew : SvW) (r : SvRegs) (s : State) : Host.Outcome State Fault Refusal :=
  .next (svRow s 0x19 (svW3 ew) r)

/-- VSRA, funct7 0x1A (Table 10.6). -/
def execVsra (ew : SvW) (r : SvRegs) (s : State) : Host.Outcome State Fault Refusal :=
  .next (svRow s 0x1A (svW3 ew) r)

/-- VWMUL, funct7 0x20 (Table 10.6). -/
def execVwmul (ew : SvW) (r : SvRegs) (s : State) : Host.Outcome State Fault Refusal :=
  .next (svRow s 0x20 (svW3 ew) r)

/-- VWMULH, funct7 0x21 (Table 10.6). -/
def execVwmulh (ew : SvW) (r : SvRegs) (s : State) : Host.Outcome State Fault Refusal :=
  .next (svRow s 0x21 (svW3 ew) r)

/-- VWMULU, funct7 0x22 (Table 10.6). -/
def execVwmulu (ew : SvW) (r : SvRegs) (s : State) : Host.Outcome State Fault Refusal :=
  .next (svRow s 0x22 (svW3 ew) r)

/-- VWMULUH, funct7 0x23 (Table 10.6). -/
def execVwmuluh (ew : SvW) (r : SvRegs) (s : State) : Host.Outcome State Fault Refusal :=
  .next (svRow s 0x23 (svW3 ew) r)

/-- VDOT, funct7 0x28 (Table 10.6). -/
def execVdot (ew : SvW) (r : SvRegs) (s : State) : Host.Outcome State Fault Refusal :=
  .next (svRow s 0x28 (svW3 ew) r)

/-- VDOTU, funct7 0x29 (Table 10.6). -/
def execVdotu (ew : SvW) (r : SvRegs) (s : State) : Host.Outcome State Fault Refusal :=
  .next (svRow s 0x29 (svW3 ew) r)

/-- VDOTSU, funct7 0x2A (Table 10.6). -/
def execVdotsu (ew : SvW) (r : SvRegs) (s : State) : Host.Outcome State Fault Refusal :=
  .next (svRow s 0x2A (svW3 ew) r)

/-- VMV.V.X, funct7 0x30 (Table 10.6). -/
def execVmvVX (ew : SvW) (r : SvRegs) (s : State) : Host.Outcome State Fault Refusal :=
  .next (svRow s 0x30 (svW3 ew) r)

/-- VMV.X.V, funct7 0x31 (Table 10.6). -/
def execVmvXV (ew : SvW) (r : SvRegs) (s : State) : Host.Outcome State Fault Refusal :=
  .next (svRow s 0x31 (svW3 ew) r)

/-- VINS, funct7 0x32 (Table 10.6). -/
def execVins (ew : SvW) (r : SvRegs) (s : State) : Host.Outcome State Fault Refusal :=
  .next (svRow s 0x32 (svW3 ew) r)

/-- VMOVMSK, funct7 0x33 (Table 10.6). -/
def execVmovmsk (ew : SvW) (r : SvRegs) (s : State) : Host.Outcome State Fault Refusal :=
  .next (svRow s 0x33 (svW3 ew) r)

/-- VZIPLO, funct7 0x38 (Table 10.6). -/
def execVziplo (ew : SvW) (r : SvRegs) (s : State) : Host.Outcome State Fault Refusal :=
  .next (svRow s 0x38 (svW3 ew) r)

/-- VZIPHI, funct7 0x39 (Table 10.6). -/
def execVziphi (ew : SvW) (r : SvRegs) (s : State) : Host.Outcome State Fault Refusal :=
  .next (svRow s 0x39 (svW3 ew) r)

/-- VUNZIPE, funct7 0x3A (Table 10.6). -/
def execVunzipe (ew : SvW) (r : SvRegs) (s : State) : Host.Outcome State Fault Refusal :=
  .next (svRow s 0x3A (svW3 ew) r)

/-- VUNZIPO, funct7 0x3B (Table 10.6). -/
def execVunzipo (ew : SvW) (r : SvRegs) (s : State) : Host.Outcome State Fault Refusal :=
  .next (svRow s 0x3B (svW3 ew) r)

/-- VAND, funct7 0x00 (Table 10.7). -/
def execVand (r : SvRegs) (s : State) : Host.Outcome State Fault Refusal :=
  .next (svRow s 0x00 4 r)

/-- VOR, funct7 0x01 (Table 10.7). -/
def execVor (r : SvRegs) (s : State) : Host.Outcome State Fault Refusal :=
  .next (svRow s 0x01 4 r)

/-- VXOR, funct7 0x02 (Table 10.7). -/
def execVxor (r : SvRegs) (s : State) : Host.Outcome State Fault Refusal :=
  .next (svRow s 0x02 4 r)

/-- VANDN, funct7 0x03 (Table 10.7). -/
def execVandn (r : SvRegs) (s : State) : Host.Outcome State Fault Refusal :=
  .next (svRow s 0x03 4 r)

/-- VMV, funct7 0x04 (Table 10.7). -/
def execVmv (r : SvRegs) (s : State) : Host.Outcome State Fault Refusal :=
  .next (svRow s 0x04 4 r)

/-- VSEL, funct7 0x05 (Table 10.7). -/
def execVsel (r : SvRegs) (s : State) : Host.Outcome State Fault Refusal :=
  .next (svRow s 0x05 4 r)

/-- VPERMB, funct7 0x08 (Table 10.7). -/
def execVpermb (r : SvRegs) (s : State) : Host.Outcome State Fault Refusal :=
  .next (svRow s 0x08 4 r)

/-- VEXTB, funct7 0x10 to 0x1F (Table 10.7). -/
def execVextb (r : SvRegs) (shift : BitVec 4) (s : State) : Host.Outcome State Fault Refusal :=
  .next (svRow s (0x10 + shift.toNat) 4 r)

/-- VFADD, funct7 0x00 (Table 10.8). -/
def execVfadd (ef : SvF) (r : SvRegs) (s : State) : Host.Outcome State Fault Refusal :=
  .next (svRow s 0x00 (svF3 ef) r)

/-- VFSUB, funct7 0x01 (Table 10.8). -/
def execVfsub (ef : SvF) (r : SvRegs) (s : State) : Host.Outcome State Fault Refusal :=
  .next (svRow s 0x01 (svF3 ef) r)

/-- VFMUL, funct7 0x02 (Table 10.8). -/
def execVfmul (ef : SvF) (r : SvRegs) (s : State) : Host.Outcome State Fault Refusal :=
  .next (svRow s 0x02 (svF3 ef) r)

/-- VFDIV, funct7 0x03 (Table 10.8). -/
def execVfdiv (ef : SvF) (r : SvRegs) (s : State) : Host.Outcome State Fault Refusal :=
  .next (svRow s 0x03 (svF3 ef) r)

/-- VFMIN, funct7 0x04 (Table 10.8). -/
def execVfmin (ef : SvF) (r : SvRegs) (s : State) : Host.Outcome State Fault Refusal :=
  .next (svRow s 0x04 (svF3 ef) r)

/-- VFMAX, funct7 0x05 (Table 10.8). -/
def execVfmax (ef : SvF) (r : SvRegs) (s : State) : Host.Outcome State Fault Refusal :=
  .next (svRow s 0x05 (svF3 ef) r)

/-- VFMA, funct7 0x06 (Table 10.8). -/
def execVfma (ef : SvF) (r : SvRegs) (s : State) : Host.Outcome State Fault Refusal :=
  .next (svRow s 0x06 (svF3 ef) r)

/-- VFNMS, funct7 0x07 (Table 10.8). -/
def execVfnms (ef : SvF) (r : SvRegs) (s : State) : Host.Outcome State Fault Refusal :=
  .next (svRow s 0x07 (svF3 ef) r)

/-- VFSQRT, funct7 0x08 (Table 10.8). -/
def execVfsqrt (ef : SvF) (r : SvRegs) (s : State) : Host.Outcome State Fault Refusal :=
  .next (svRow s 0x08 (svF3 ef) r)

/-- VFCMPEQ, funct7 0x10 (Table 10.8). -/
def execVfcmpeq (ef : SvF) (r : SvRegs) (s : State) : Host.Outcome State Fault Refusal :=
  .next (svRow s 0x10 (svF3 ef) r)

/-- VFCMPLT, funct7 0x11 (Table 10.8). -/
def execVfcmplt (ef : SvF) (r : SvRegs) (s : State) : Host.Outcome State Fault Refusal :=
  .next (svRow s 0x11 (svF3 ef) r)

/-- VFCMPLE, funct7 0x12 (Table 10.8). -/
def execVfcmple (ef : SvF) (r : SvRegs) (s : State) : Host.Outcome State Fault Refusal :=
  .next (svRow s 0x12 (svF3 ef) r)

/-- VFCVTFX, funct7 0x18 (Table 10.8). -/
def execVfcvtfx (ef : SvF) (r : SvRegs) (s : State) : Host.Outcome State Fault Refusal :=
  .next (svRow s 0x18 (svF3 ef) r)

/-- VFCVTXF, funct7 0x19 (Table 10.8). -/
def execVfcvtxf (ef : SvF) (r : SvRegs) (s : State) : Host.Outcome State Fault Refusal :=
  .next (svRow s 0x19 (svF3 ef) r)

/-- VFWIDENLO, funct7 0x1A (Table 10.8). -/
def execVfwidenlo (ef : SvF) (r : SvRegs) (s : State) : Host.Outcome State Fault Refusal :=
  .next (svRow s 0x1A (svF3 ef) r)

/-- VFWIDENHI, funct7 0x1B (Table 10.8). -/
def execVfwidenhi (ef : SvF) (r : SvRegs) (s : State) : Host.Outcome State Fault Refusal :=
  .next (svRow s 0x1B (svF3 ef) r)

/-- VFNARROW, funct7 0x1C (Table 10.8). -/
def execVfnarrow (ef : SvF) (r : SvRegs) (s : State) : Host.Outcome State Fault Refusal :=
  .next (svRow s 0x1C (svF3 ef) r)

end Sys2Proof.Machine
end

