-- ==== Sys2Proof/Machine/Health.lean ====
section
/-!
DEFINITION. Health, end of life, the power cap and maintenance (15 R381 to R387; 16 R397): the rows DAILY_RECORD,
POWER_CAP, HEALTH_REPORT, HEALTH_LOAD, MAINT_BEGIN, MAINT_END, I3C_PRIVATE_READ, ENTDAA and SETDASA.
-/
namespace Sys2Proof.Machine

/-! ### Daily records (R381, R382) -/

/-- A record's 64 bytes: the day, the values of Table 15.5 in its order, then zeros. -/
def Daily.bytes (d : Daily) : List Byte :=
  slice (leBytes 4 d.day ++ leBytes 4 d.slackPs ++ leBytes 4 (tc 32 d.roPpm) ++ leBytes 4 d.hbmCorr ++ leBytes 4 d.spares ++
    leBytes 4 d.eyeMv ++ leBytes 4 d.erases ++ leBytes 4 d.cycles ++ leBytes 4 d.activity) 0 64

/-- A record from 64 bytes. -/
def dailyOf (b : List Byte) : Daily :=
  { day := le b 0 4, slackPs := le b 4 4, roPpm := sx 32 (le b 8 4), hbmCorr := le b 12 4, spares := le b 16 4
    eyeMv := le b 20 4, erases := le b 24 4, cycles := le b 28 4, activity := le b 32 4 }

/-- The window: the newest 90 records, loaded ones first. -/
def window (p : Power) : List Daily :=
  let l := p.loaded ++ p.daily
  l.drop (l.length - 90)

/-- The smallest of a list, 0 of none. -/
def minimum (l : List Nat) : Nat := match l with
  | [] => 0
  | x :: t => t.foldl min x

/-- The day number since first start: by hall time, or, while the unit is FREE, one more than the last record's (log 39). -/
def dayNow (s : State) : Nat :=
  match s.tim.state, (window s.pwr).getLast? with
  | .free, some d => d.day + 1
  | .free, none => 0
  | _, _ => s.tim.hall / 86_400_000_000_000 - Config.firstDay

/-- The record of today. The value that stands for all the saturation counters is not stated: it is free (log 39). -/
def dailyNow (s : State) (h : HealthSample) : Daily :=
  let base := (s.pwr.loaded.getLast?.map fun d => (d.erases, d.cycles)).getD (0, 0)
  { day := dayNow s
    slackPs := minimum h.slackPs
    roPpm := h.roPpm.foldl min 0
    hbmCorr := ((List.range 12).map fun i => (s.stack i).dayCorrected).foldl (· + ·) 0
    spares := minimum ((List.range 12).map fun i => (s.stack i).spareRows.toNat)
    eyeMv := h.eyeMv
    erases := base.1 + (s.sec.erases.map Prod.snd).foldl max 0
    cycles := base.2 + h.cycles
    activity := (Config.freeWord s.free).toNat % 2 ^ 32 }

/-! ### End of life (R383; log 39: in FP64, step by step) -/

/-- An FP64 value of an integer. -/
def vNat (n : Nat) : Val := d64 (Val.ofInt n)

/-- The floor of a non-negative value; none where it is not finite. -/
def floorNat : Val → Option Nat
  | .fin false m e => some (if 0 ≤ e then m * 2 ^ e.toNat else m / 2 ^ (-e).toNat)
  | .fin true _ _ => some 0
  | _ => none

/-- x to the power y, for x above 0. -/
def vPow (x y : Val) : Val := if x.isZero then Val.zero else exp64 (dMul y (log64 x))

/-- The least-squares line through points: p and q of p + q x. -/
def leastSquares (pts : List (Val × Val)) : Val × Val :=
  let sum := fun (f : Val × Val → Val) => pts.foldl (fun a x => dAdd a (f x)) Val.zero
  let n := vNat pts.length
  let sx := sum Prod.fst
  let sy := sum Prod.snd
  let sxx := sum fun x => dMul x.1 x.1
  let sxy := sum fun x => dMul x.1 x.2
  let q := dDiv (dSub (dMul n sxy) (dMul sx sy)) (dSub (dMul n sxx) (dMul sx sx))
  (dDiv (dSub sy (dMul q sx)) n, q)

/-- Days from today until a mechanism's fitted line reaches its limit, none for infinity. -/
def daysLeft (pts : List (Val × Val)) (limit c0 : Val) (ageing : Bool) (today : Nat) : Option Val :=
  let (p, q) := leastSquares pts
  let x := if ageing then vPow (vNat today) c0 else vNat today
  let gap := dSub limit (dAdd p (dMul q x))
  if q.isZero || q.isNan then none
  else if gap.isZero then some Val.zero
  else if q.neg? != gap.neg? then none
  else
    let at_ := dDiv (dSub limit p) q
    some (dSub (if ageing then vPow at_ (dDiv (Val.ofInt 1) c0) else at_) (vNat today))

/-- The figures of R383 from the window: p50, p10, p90, the mechanism and valid. -/
def eol (c : List W64) (w : List Daily) : W16 × W16 × W16 × BitVec 3 × Bool :=
  if w.length < 14 then (0xFFFF, 0xFFFF, 0xFFFF, 0, false)
  else
    let k := fun (i : Nat) => dBits (c.getD i 0).toNat
    let today := (w.getLast?.map Daily.day).getD 0
    let pts := fun (f : Daily → Nat) => w.map fun d => (vNat d.day, vNat (f d))
    let ls : List (Option Val) :=
      [daysLeft (w.map fun d => (vPow (vNat d.day) (k 0), vNat d.slackPs)) (k 1) (k 0) true today,
       daysLeft (pts Daily.spares) (k 2) (k 0) false today, daysLeft (pts Daily.eyeMv) (k 3) (k 0) false today,
       daysLeft (pts Daily.erases) (k 4) (k 0) false today, daysLeft (pts Daily.cycles) (k 5) (k 0) false today]
    let best := (List.range 5).foldl (fun (a : Option (Nat × Val)) i =>
      match ls.getD i none, a with
      | some v, some (_, u) => if vlt v u then some (i, v) else a
      | some v, none => some (i, v)
      | none, _ => a) none
    let show_ := fun (v : Val) => match floorNat v with
      | some n => BitVec.ofNat 16 (if 65534 < n then 0xFFFF else n)
      | none => 0xFFFF
    match best with
    | some (i, l) => (show_ l, show_ (dMul (k 6) l), show_ (dMul (k 7) l), BitVec.ofNat 3 i, true)
    | none => (0xFFFF, 0xFFFF, 0xFFFF, 0, true)

/-- DAILY_RECORD: the monitors are sampled into a record, the window's figures computed, and the I3C alert sent when the
10 % bound first falls below 365 days (R381 to R383). -/
def execDailyRecord (h : HealthSample) (s : State) : Host.Outcome State Fault Refusal :=
  .next (
    let d := dailyNow s h
    let daily := (s.pwr.daily ++ [d]).drop (s.pwr.daily.length + 1 - 90)
    let put := fun {V : Type} [DecidableEq V] (z : V) (m : SMap V) (l : List V) =>
      (List.range l.length).foldl (fun (a : SMap V) i => SMap.set z a i (l.getD i z)) m
    let p := { s.pwr with
      daily := daily, slack := put 0 s.pwr.slack (h.slackPs.map (BitVec.ofNat 16 ·))
      ro := put 0 s.pwr.ro (h.roPpm.map fun x => BitVec.ofInt 16 x) }
    let (p50, p10, p90, m, v) := eol s.ncr.eol (window p)
    let alert := v && decide (p10.toNat < 365) && decide (365 ≤ s.pwr.p10.toNat)
    let s1 := drew { s with
      pwr := { p with p50 := p50, p10 := p10, p90 := p90, mech := m, eolValid := v }
      stk := s.stk.mapV {} fun _ k => { k with dayCorrected := 0 } }
    let g := (List.range 4).foldl (fun (a : SMap Byte) i => SMap.set (0 : Byte) a i (BitVec.ofNat 8 (rawGuard s1 i))) s1.pwr.guard
    let s2 := { s1 with pwr := { s1.pwr with guard := g } }
    if alert then ibi s2 0x05 else s2)

/-! ### Mailbox commands (R386) -/

/-- POWER_CAP: with power and thermal policy host-assisted; above the fused limit or 0 it is the fused limit, and at least
600 W. -/
def execPowerCap (watts : W16) (s : State) : Host.Outcome State Fault Refusal :=
  .next (mbx s false false fun s =>
    if hostAssisted s 5 then
      let w := max 600 (if watts = 0 ∨ s.fuses.powerW < watts.toNat then s.fuses.powerW else watts.toNat)
      done { s with pwr := { s.pwr with capHost := some w } } .ok (leBytes 2 w)
    else done s .state)

/-- HEALTH_REPORT: the three registers, then the records made since reset, into the host buffer (log 38). -/
def execHealthReport (buf : HostBuf) (s : State) : Host.Outcome State Fault Refusal :=
  .next (mbx s true false fun s => withBuf s buf fun s =>
    let bs := (leBytes 8 (pwrStatus s) ++ leBytes 8 (hltEol s) ++ leBytes 8 (hltAvail s) ++ s.pwr.daily.flatMap Daily.bytes).take buf.len.toNat
    done (wrHostN s buf.addr.toNat bs) .ok [])

/-- HEALTH_LOAD: earlier records, before any is made since reset. -/
def execHealthLoad (buf : HostBuf) (s : State) : Host.Outcome State Fault Refusal :=
  .next (mbx s false false fun s => withBuf s buf fun s =>
    if !s.pwr.daily.isEmpty then done s .state
    else
      let n := min 90 (buf.len.toNat / 64)
      let l := (List.range n).map fun i => dailyOf (rdHostN s (buf.addr.toNat + 64 * i) 64)
      done { s with pwr := { s.pwr with loaded := l } } .ok (leBytes 1 n))

/-- MAINT_BEGIN: a maintenance stop opens, while no job runs (R384). -/
def execMaintBegin (s : State) : Host.Outcome State Fault Refusal :=
  .next (mbx s true false fun s =>
    if s.job.phase = .running then done s .state
    else done { s with sec := { s.sec with maint := true, maintReset := false } } .ok)

/-- MAINT_END: an open stop closes, unless a container staged in it awaits its reset (R384, R386). -/
def execMaintEnd (s : State) : Host.Outcome State Fault Refusal :=
  .next (mbx s true false fun s =>
    if s.sec.maint = false ∨ s.sec.staged = true then done s .state
    else done { s with sec := { s.sec with maint := false, maintReset := false } } .ok)

/-! ### The I3C target (R387; 16 R397) -/

/-- I3C_PRIVATE_READ, at the dynamic address, from VIO18 alone (R387). -/
def execI3cPrivateRead (s : State) : Host.Outcome State Fault Refusal :=
  .next (if s.pwr.railsUp ∧ s.pwr.i3cAddr.isSome then
    { s with host := { s.host with answer := i3cHeld s, poison := false } }
  else s)

/-- ENTDAA: a target without a dynamic address takes one (16 R397). -/
def execEntdaa (addr : BitVec 7) (s : State) : Host.Outcome State Fault Refusal :=
  .next (if s.pwr.railsUp ∧ s.pwr.i3cAddr.isNone then { s with pwr := { s.pwr with i3cAddr := some addr } } else s)

/-- SETDASA: the target of static address 0x3A, without a dynamic address, takes one (16 R397). -/
def execSetdasa (addr : BitVec 7) (s : State) : Host.Outcome State Fault Refusal :=
  .next (if s.pwr.railsUp ∧ s.pwr.i3cAddr.isNone then { s with pwr := { s.pwr with i3cAddr := some addr } } else s)

end Sys2Proof.Machine
end

