-- ==== Sys2Proof/Machine/Hostlink.lean ====
section
/-!
DEFINITION. The CXL link (11 R297, R298; 13 R322 to R331): CXL.mem, host violations, configuration space, PD15's resets,
emulated registers, interrupts and rings; the rows CXL_MEM_READ, CXL_MEM_WRITE, CXL_PROTOCOL, CONFIG_READ, HOT_RESET,
HOST_LINK_UP, EM_WRITE, EM_WRITE_APPLIED, HRW_INT_MASK, HRW_INT_CAUSE, RING_CONS, RING_RECORD_WRITE and
CXL_CACHE_SNOOP.
-/
namespace Sys2Proof.Machine

/-! ### CXL.mem (R297, R323) -/

/-- The offset in the alias of a host physical address, within the HDM decoder's programmed range (R323). -/
def hdmOffset (s : State) (hpa : Nat) : Option Nat :=
  if s.host.hdmBase ≤ hpa ∧ hpa < s.host.hdmBase + s.host.hdmSize then some (hpa - s.host.hdmBase) else none

/-- The NPA of an alias offset, where memory stands behind it: its stack is READY (log 21). -/
def hdmNpa (s : State) (o : Nat) : Option Nat :=
  let npa := 0x100_0000_0000 + o
  match place s npa with
  | .mem st _ => if (s.stack st).state = .ready then some npa else none
  | _ => none

/-- The host's read is answered with bytes. -/
def hostAnswer (s : State) (bs : List Byte) (poison : Bool) : State :=
  { s with host := { s.host with answer := bs, poison := poison, ur := 0 } }

/-- A CXL_PROTOCOL record with the kind of its row of Table 11.7 and the AER status bit, 0xFF for none; a named AER entry
is logged (R298; log 21). -/
def protocol (s : State) (kind aer : Nat) (hdr : List Byte) : State :=
  let entry := if kind = 6 then 64 + aer else aer
  let s1 := if aer = 0xFF then s else { s with host := { s.host with aer := s.host.aer ++ [entry] } }
  record s1 .cxlProtocol { unitKind := 8, unit := 0, detail := detailE hdr aer kind }

/-- Zeros with poison, recorded with the NPA (R297). -/
def poisoned (s : State) (npa : Nat) : State :=
  record (hostAnswer s (List.replicate 64 0) true) .hostPoisonSent
    { unitKind := 8, unit := 0, status := .uncorr, npa := some npa, detail := detailE [] 0xFF 0 }

/-- A read of the line of a host physical address (R297, R323; Table 11.7 kind 8). -/
def cxlRead (s : State) (hpa : Nat) : State :=
  match hdmOffset s hpa with
  | none => protocol (hostAnswer s (List.replicate 64 0) true) 8 0xFF []
  | some o =>
    let a := o - o % 64
    match hdmNpa s a with
    | none => poisoned s (0x100_0000_0000 + a)
    | some npa => match touch s [⟨npa, 64⟩] with
      | (s1, some (_, _, at_)) => poisoned s1 at_
      | (s1, none) => hostAnswer s1 (rdN s1 npa 64) false

/-- A write within one line. A poisoned one is not performed; a part of a line merges with what the line holds, and a
merge that meets a fault leaves it (R187, R294, R297; Table 11.7 kinds 7 and 8). -/
def cxlWrite (s : State) (hpa : Nat) (data : List Byte) (poison : Bool) : State :=
  if data.length = 0 ∨ 64 < hpa % 64 + data.length then s
  else if poison then protocol s 7 0xFF []
  else match hdmOffset s hpa with
    | none => protocol s 8 0xFF []
    | some o => match hdmNpa s o with
      | none => s
      | some npa => match touch s (partialRuns [⟨npa, data.length⟩]) with
        | (s1, some _) => s1
        | (s1, none) => wrN s1 npa data

/-- CXL_MEM_READ (R297, R323). -/
def execCxlMemRead (addr : W64) (s : State) : Host.Outcome State Fault Refusal :=
  .next (overLink s fun s => cxlRead s addr.toNat)

/-- CXL_MEM_WRITE (R297, R323). -/
def execCxlMemWrite (addr : W64) (data : Bytes) (poison : Bool) (s : State) : Host.Outcome State Fault Refusal :=
  .next (overLink s fun s => cxlWrite s addr.toNat data poison)

/-! ### Host violations (R298) -/

/-- A read that is answered with Unsupported Request; a write is discarded. -/
def unsupported (s : State) (isRead : Bool) : State := if isRead then { s with host := { s.host with ur := 1, answer := [] } } else s

/-- The answer to a violation, and its record, Table 11.7; AER entries are PCIe's status bits (log 21). -/
def violation (s : State) (k : CxlKind) (hdr : List Byte) : State :=
  match k with
  | .malformedTlp => protocol s 1 18 hdr
  | .badFunctionOrBar r => protocol (unsupported s r) 2 20 hdr
  | .badHrwAccess r => protocol (unsupported s r) 3 20 hdr
  | .poisonedTlp => protocol s 4 12 hdr
  | .unexpectedCompletion => protocol s 5 16 hdr
  | .cacheMismatch => protocol s 6 14 hdr
  | .memWritePoison => protocol s 7 0xFF hdr
  | .memOutside r => protocol (if r then hostAnswer s (List.replicate 64 0) true else s) 8 0xFF hdr
  | .mbxOpcode => protocol (answer s .unsupported .ok 0 []) 9 0xFF hdr
  | .mbxPayload => protocol (answer s .invalidInput .ok 0 []) 10 0xFF hdr

/-- CXL_PROTOCOL (R298). -/
def execCxlProtocol (k : CxlKind) (header : Bytes) (s : State) : Host.Outcome State Fault Refusal :=
  .next (overLink s fun s => violation s k header)

/-! ### Configuration space (R325) -/

/-- The state word of the identity DVSEC, 8 bytes. -/
def dvsecState (s : State) : Nat := match s.host.node with
  | .start => 0
  | .recovery => 2
  | _ => 1

/-- Offsets 0x0C to 0x37 of the identity DVSEC, Table 13.2. -/
def identityBytes (s : State) : List Byte :=
  leBytes 4 (nodeParam0 s % 2 ^ 16) ++ leBytes 8 (nodeParam0 s) ++ leBytes 8 (nodeParam1 s) ++
  leBytes 4 (nodeIdent s % 2 ^ 21) ++ leBytes 4 (s.sec.fwVersion.toNat % 2 ^ 32) ++ leBytes 8 s.fuses.serial.toNat ++
  leBytes 8 (dvsecState s)

/-- The identity DVSEC but for its PCIe extended capability header, which holds the link to the next capability: the
DVSEC vendor ID, revision, length and ID, then Table 13.2's fields. -/
def dvsecBytes (s : State) : List Byte := leBytes 4 (0x1F6A + 0x38 <<< 20) ++ leBytes 2 0x0001 ++ leBytes 2 0 ++ identityBytes s

/-- One byte of function 0's configuration space: what R325 fixes, one 64-bit BAR of 16 MiB and no expansion ROM among it;
every other byte is the implementation's (log 37). -/
def configByte (s : State) (o : Nat) : Byte :=
  let dev := if s.fuses.grade = .A then 0x3A50 else 0x3A51
  let at_ := Config.identityAt
  if o < 2 then BitVec.ofNat 8 (0x1F6A >>> (8 * o))
  else if o < 4 then BitVec.ofNat 8 (dev >>> (8 * (o - 2)))
  else if 9 ≤ o ∧ o < 12 then BitVec.ofNat 8 (0x120000 >>> (8 * (o - 9)))
  else if o = 0x10 then 0x04
  else if o = 0x11 ∨ o = 0x12 ∨ (0x18 ≤ o ∧ o < 0x28) ∨ (0x30 ≤ o ∧ o < 0x34) then 0
  else if 0x2C ≤ o ∧ o < 0x2E then BitVec.ofNat 8 (0x1F6A >>> (8 * (o - 0x2C)))
  else if 0x2E ≤ o ∧ o < 0x30 then BitVec.ofNat 8 (0x0001 >>> (8 * (o - 0x2E)))
  else if at_ + 4 ≤ o ∧ o < at_ + 0x38 then (dvsecBytes s).getD (o - at_ - 4) 0
  else Config.configByte o

/-- CONFIG_READ: four bytes; before node ready the answer is retry (R325, R356). -/
def execConfigRead (offset : W16) (s : State) : Host.Outcome State Fault Refusal :=
  .next (
    let o := offset.toNat / 4 * 4
    if s.host.node = .start ∨ s.host.linkUp = false then { s with host := { s.host with ur := 2, answer := [] } }
    else hostAnswer s ((List.range 4).map fun i => configByte s (o + i)) false)

/-! ### Resets of PD15 (R324) -/

/-- PD15 resets: every HRW register is at its reset value, the lease ends and, where one was held, orphan mode begins;
the IDE streams end and their keys go (R324, R341; 14 Table 14.4; log 36). The completion buffer, the node log and the log
entries wait in the node. -/
def resetPd15 (s : State) : State :=
  let h := s.host
  let s1 := { s with
    host := { h with
      emOverflow := false, cause := 0, mask := 0xFF, msixPend := 0, emQueue := [], trace := [], cring := {}, ering := {}
      lring := {}, holder := 0, leaseHeld := false, orphan := false, late := false, linkUp := false, hdmBase := 0
      hdmSize := 0, cache := [] }
    sec := { s.sec with ide := [] } }
  if h.leaseHeld then enterOrphan s1
  else { s1 with host := { s1.host with orphan := h.orphan } }

/-- HOT_RESET: hot reset or link down (R324). -/
def execHotReset (s : State) : Host.Outcome State Fault Refusal := .next (if s.host.node = .start then s else resetPd15 s)

/-- The link is up, and the host has programmed its HDM decoder over the whole alias, at a base of its own choosing
(R322, R323; log 21). -/
def linkUp (s : State) : State :=
  drew { s with host := { s.host with
    linkUp := true, hdmBase := (Config.freeWord s.free).toNat % 2 ^ 20 * 2 ^ 28
    hdmSize := 12 * (64 - s.ncr.cellarGib) * 2 ^ 30 } }

/-- HOST_LINK_UP: the link trains again, once the node is past start and PERST_N is released (R324, R356). -/
def execHostLinkUp (s : State) : Host.Outcome State Fault Refusal :=
  .next (if s.host.node = .start ∨ s.host.linkUp ∨ s.pwr.perstN = false then s else linkUp s)

/-- CXL_CACHE_SNOOP: a snoop of the host finds a line of the device cache, which an invalidating one takes away; one that
matches no line is answered as a miss (R322; log 11). -/
def execCxlCacheSnoop (line : W64) (inv : Bool) (s : State) : Host.Outcome State Fault Refusal :=
  .next (overLink s fun s =>
    if inv then { s with host := { s.host with cache := s.host.cache.filter (· != line.toNat) } } else s)

/-! ### Emulated registers (R327) -/

/-- HRW_EM_PENDING. -/
def emPending (s : State) : Nat :=
  (List.range 7).foldl (fun a i => if s.host.emQueue.any fun e => e.1 == i then a + 2 ^ i else a) 0

/-- The value of a ring's base register as last applied. -/
def Ring.word (r : Ring) : W64 := BitVec.ofNat 64 (bn r.enable + r.base <<< 12 + r.log2 <<< 52)

/-- The value of an emulated register as last applied. -/
def emValue (s : State) (i : Nat) : W64 :=
  match i with
  | 0 => s.host.cring.word
  | 1 => s.host.ering.word
  | 2 => s.host.lring.word
  | _ => if i < 7 then s.host.trace.get 0 (i - 3) else 0

/-- A ring whose base takes effect: both indices restart at 0 (R329). -/
def ringOf (v : W64) : Ring := { base := fld v 12 40, enable := wbit v 0, log2 := fld v 52 6, prod := 0, cons := 0 }

/-- A host write to an emulated register, with a mask of the bits it writes, is queued; beyond 64 it is discarded. -/
def emWrite (s : State) (i : Nat) (v mask : W64) : State :=
  if 7 ≤ i then s
  else if 64 ≤ s.host.emQueue.length then { s with host := { s.host with emOverflow := true } }
  else { s with host := { s.host with emQueue := s.host.emQueue ++ [(i, v, mask)] } }

/-- The warden complex, none of its processors restarting, applies the oldest queued write. -/
def emApply (s : State) : State :=
  if [0, 1, 2, 3].any (restarting s) then s
  else match s.host.emQueue with
    | [] => s
    | (i, v, m) :: rest =>
      let w := (emValue s i &&& ~~~ m) ||| (v &&& m)
      let h := { s.host with emQueue := rest }
      { s with host :=
        match i with
        | 0 => { h with cring := ringOf w }
        | 1 => { h with ering := ringOf w }
        | 2 => { h with lring := { ringOf w with log2 := 0 } }
        | _ => { h with trace := h.trace.set 0 (i - 3) w } }

/-- EM_WRITE (R327). -/
def execEmWrite (index : Byte) (v : W64) (s : State) : Host.Outcome State Fault Refusal :=
  .next (overLink s fun s => emWrite s index.toNat v 0xFFFF_FFFF_FFFF_FFFF)

/-- EM_WRITE_APPLIED (R327, R329). -/
def execEmWriteApplied (s : State) : Host.Outcome State Fault Refusal := .next (emApply s)

/-! ### Interrupts (R328) -/

/-- The mask is written: causes set while masked, still set and now unmasked send their vectors. -/
def intMask (s : State) (v : Byte) : State :=
  let h := s.host
  let go := (List.range 8).filter fun i => h.msixPend.toNat.testBit i && h.cause.toNat.testBit i && !v.toNat.testBit i
  { s with host := { h with mask := v, msix := h.msix ++ go, msixPend := h.msixPend &&& v } }

/-- Cause bits written 1 are cleared. -/
def intCause (s : State) (v : Byte) : State :=
  { s with host := { s.host with cause := s.host.cause &&& ~~~ v, msixPend := s.host.msixPend &&& ~~~ v } }

/-- HRW_INT_MASK (R328). -/
def execHrwIntMask (v : W64) (s : State) : Host.Outcome State Fault Refusal :=
  .next (overLink s fun s => intMask s (BitVec.ofNat 8 v.toNat))

/-- HRW_INT_CAUSE (R328). -/
def execHrwIntCause (v : W64) (s : State) : Host.Outcome State Fault Refusal :=
  .next (overLink s fun s => intCause s (BitVec.ofNat 8 v.toNat))

/-! ### Rings (R329 to R331) -/

/-- Entries of a ring, with an illegal size taken as the least legal. -/
def ringEntries (ring : Nat) (r : Ring) : Nat :=
  let size := fun (lo hi : Nat) => 2 ^ (if lo ≤ r.log2 ∧ r.log2 ≤ hi then r.log2 else lo)
  match ring with
  | 0 => size 6 20
  | 1 => size 4 16
  | _ => 32768

/-- The node may write a record: the ring is enabled and has room, and the link is up. -/
def ringOpen (s : State) (ring : Nat) (r : Ring) : Bool :=
  s.host.linkUp && r.enable && decide ((r.prod - r.cons).toNat < ringEntries ring r)

/-- A completion record's bytes, Table 13.4. -/
def ComplRec.bytes (c : ComplRec) (n e : Nat) : List Byte :=
  leBytes 1 c.status.code ++ leBytes 1 c.queue ++ leBytes 1 c.region ++ leBytes 1 c.block ++ leBytes 4 c.idx ++
  leBytes 2 (c.label % 1024) ++ leBytes 1 c.loadGen ++ leBytes 1 (n / e % 2 ^^^ 1) ++ leBytes 4 n ++ leBytes 8 c.step ++
  leBytes 8 c.hall

/-- A log entry's bytes, Table 13.5. -/
def LogEnt.bytes (l : LogEnt) : List Byte :=
  leBytes 1 l.source ++ leBytes 1 l.kind ++ leBytes 2 l.code ++ leBytes 4 l.seq ++ leBytes 8 l.hall ++ slice l.data 0 16

/-- A record at the ring's next entry in host memory, then prod rises (R329). -/
def ringPut (s : State) (ring : Nat) (r : Ring) (size : Nat) (bs : List Byte) : State × Ring :=
  let n := r.prod.toNat
  (wrHostN s (r.base * 4096 + n % ringEntries ring r * size) bs, { r with prod := r.prod + 1 })

/-- The oldest record of the node log not yet delivered is marked delivered (11 R288). -/
def markSent : List (ErrRec × Bool) → List (ErrRec × Bool)
  | [] => []
  | (r, true) :: l => (r, true) :: markSent l
  | (r, false) :: l => (r, true) :: l

/-- The oldest waiting record of a ring is written where the ring has room, and its interrupt cause set. -/
def ringWrite (s : State) (ring : Nat) : State :=
  match ring with
  | 0 =>
    let r := s.host.cring
    if ringOpen s 0 r then
      match s.host.cbuf with
      | [] => s
      | c :: rest =>
        let (s1, r1) := ringPut s 0 r 32 (c.bytes r.prod.toNat (ringEntries 0 r))
        raise { s1 with host := { s1.host with cring := r1, cbuf := rest, cbufStall := false } } 0
    else s
  | 1 =>
    let r := s.host.ering
    if ringOpen s 1 r then
      match s.err.log.find? fun e => !e.2 with
      | none => s
      | some (e, _) =>
        let (s1, r1) := ringPut s 1 r 64 e.bytes
        raise { s1 with host := { s1.host with ering := r1 }, err := { s1.err with log := markSent s1.err.log } } 1
    else s
  | 2 =>
    let r := s.host.lring
    if ringOpen s 2 r then
      match s.host.logq with
      | [] => s
      | l :: rest =>
        let (s1, r1) := ringPut s 2 r 32 l.bytes
        raise { s1 with host := { s1.host with lring := r1, logq := rest } } 2
    else s
  | _ => s

/-- The host moves a ring's consumer index. -/
def ringCons (s : State) (ring : Nat) (v : W32) : State :=
  let h := s.host
  match ring with
  | 0 => { s with host := { h with cring := { h.cring with cons := v } } }
  | 1 => { s with host := { h with ering := { h.ering with cons := v } } }
  | 2 => { s with host := { h with lring := { h.lring with cons := v } } }
  | _ => s

/-- RING_CONS: ring 0 completions, 1 errors, 2 log (R329). -/
def execRingCons (ring : BitVec 2) (v : W32) (s : State) : Host.Outcome State Fault Refusal :=
  .next (overLink s fun s => ringCons s ring.toNat v)

/-- RING_RECORD_WRITE: ring 0 completions, 1 errors, 2 log (R329 to R331). -/
def execRingRecordWrite (ring : BitVec 2) (s : State) : Host.Outcome State Fault Refusal := .next (ringWrite s ring.toNat)

end Sys2Proof.Machine
end

