-- ==== Sys2Proof/Machine/Solver.lean ====
section
/-!
DEFINITION. The solver engine (06): SFACT item by item in the order of operations of R158 and R159, refinement in
brine, status words, deadlines, patterns with SPAT, and DELTA.
-/
namespace Sys2Proof.Machine

/-! ### Matrices of values and the engine's operations (R157) -/

/-- A matrix as rows of values. -/
abbrev Mat := List (List Val)

/-- An entry. -/
def Mat.at (m : Mat) (i j : Nat) : Val := (m.getD i []).getD j .zero

/-- The matrix of a function. -/
def Mat.build (n r : Nat) (f : Nat → Nat → Val) : Mat := (List.range n).map fun i => (List.range r).map fun j => f i j

/-- One operation of the working format, rounded RNE, with its flags. -/
def sop (w : Fmt) (v : Val × Bool) : Val × Fl :=
  let x := w.roundOp .rne 0 v
  (w.decode x.1, x.2)

/-- A division as an operation: by zero it gives the exact infinity and no flag (R91). -/
def vdiv (a b : Val) : Val × Bool := ((Val.div a b).1, (Val.div a b).2.1)

/-- fma(a, b, c). -/
def vfma (a b c : Val) : Val × Bool := Val.fma .rne a b c

/-- A sum. -/
def vadd (a b : Val) : Val × Bool := Val.add false a b

/-- Entries of an n × r matrix replaced where `g` gives an operation; every operation reads the old matrix. -/
def Mat.upd (w : Fmt) (n r : Nat) (m : Mat) (g : Nat → Nat → Option (Val × Bool)) : Mat × Fl :=
  let c := (List.range n).map fun i => (List.range r).map fun j =>
    match g i j with
    | some v => sop w v
    | none => (m.at i j, 0)
  (c.map fun row => row.map Prod.fst, c.foldl (fun a row => row.foldl (fun a v => a ||| v.2) a) 0)

/-- One entry set. -/
def Mat.put (m : Mat) (i j : Nat) (v : Val) : Mat := m.set i ((m.getD i []).set j v)

/-- The OF bit of a flag set. -/
def Fl.over (f : Fl) : Bool := f &&& Fl.of != 0

/-- dot(p, q) over the indices of a list, in the lanes and the tree of R157. -/
def sdot (w : Fmt) (is : List Nat) (p q : Nat → Val) : Val × Fl :=
  let lanes := is.foldl (fun (acc : List Val × Fl) i =>
    let j := i % 16
    let x := sop w (vfma (p i) (q i) (acc.1.getD j .zero))
    (acc.1.set j x.1, acc.2 ||| x.2)) (List.replicate 16 Val.zero, 0)
  let pairs := fun (l : List Val × Fl) =>
    (List.range (l.1.length / 2)).foldl (fun (acc : List Val × Fl) i =>
      let x := sop w (vadd (l.1.getD (2 * i) .zero) (l.1.getD (2 * i + 1) .zero))
      (acc.1 ++ [x.1], acc.2 ||| x.2)) ([], l.2)
  let t := pairs (pairs (pairs (pairs lanes)))
  (t.1.headD .zero, t.2)

/-! ### Control, batch and pattern (R153, R154, R171 to R173) -/

/-- The SFACT control word, Table 06.1. -/
structure SCtl where
  kind : Nat
  unitDiag : Bool
  refine : Bool
  f32 : Bool
  floorEn : Bool
  cap : Nat
  tol : Nat
  usePat : Bool
  slot : Nat
  keep : Bool
deriving DecidableEq, Repr

/-- The fields of W6. -/
def SCtl.of (w : W64) : SCtl :=
  { kind := fld w 0 4, unitDiag := wbit w 4, refine := wbit w 5, f32 := wbit w 6, floorEn := wbit w 7,
    cap := if fld w 8 4 = 0 then 5 else fld w 8 4, tol := fld w 12 8, usePat := wbit w 20, slot := fld w 21 6,
    keep := wbit w 27 }

/-- The solver batch descriptor, Table 06.2. -/
structure Batch where
  n : Nat
  nrhs : Nat
  aux : Option Nat
  floor : Nat
  ok : Bool
deriving DecidableEq, Repr

/-- The fields of a batch descriptor. -/
def Batch.of (bs : List Byte) : Batch :=
  { n := le bs 0 2, nrhs := le bs 2 2, aux := noneIdx (le bs 4 4), floor := le bs 8 8,
    ok := (slice bs 16 112).all (· == 0) }

/-- The batch descriptor that W1 names. -/
def batchOf (s : State) (f : InFl) : Batch :=
  Batch.of (((refIdx f.cmd.w1).bind (descBytes s)).getD [])

/-- Position (i, j) is in a set of row words. -/
def bitAt (rows : List W64) (i j : Nat) : Bool := (rows.getD i 0).toNat.testBit j

/-- A set of positions with (i, j) added. -/
def setBit (rows : List W64) (i j : Nat) : List W64 := rows.set i (rows.getD i 0 ||| BitVec.ofNat 64 (2 ^ j))

/-- The symbolic fill of SPAT, general kind: F and the candidate rows C[k] (R172). -/
def fillGeneral (n : Nat) (s : List W64) : List W64 × List W64 :=
  (List.range n).foldl (fun (acc : List W64 × List W64) k =>
    let f := acc.1
    let c := (List.range n).filter fun i => k ≤ i && bitAt f i k
    let u := (List.range n).filter fun j => k ≤ j && c.any fun i => bitAt f i j
    let f1 := c.foldl (fun f i => u.foldl (fun f j => setBit f i j) f) f
    (f1, acc.2 ++ [BitVec.ofNat 64 (c.foldl (fun a i => a + 2 ^ i) 0)])) (s, [])

/-- The symbolic fill, symmetric kind (R172). -/
def fillSym (n : Nat) (s : List W64) : List W64 :=
  (List.range n).foldl (fun f k =>
    let r := (List.range n).filter fun i => k < i && bitAt f i k
    r.foldl (fun f i => r.foldl (fun f j => if j ≤ i then setBit f i j else f) f) f) s

/-- The pattern of a structure: under the symmetric kind only bits j ≤ i are read; the diagonal is in S (R171). -/
def mkPat (n : Nat) (sym : Bool) (rows : List W64) : Pat :=
  let s := (List.range n).map fun i =>
    let w := (rows.getD i 0).toNat % 2 ^ n
    BitVec.ofNat 64 ((if sym then w % 2 ^ (i + 1) else w) ||| 2 ^ i)
  let (f, c) := if sym then (fillSym n s, []) else fillGeneral n s
  { n := n, symmetric := sym, s := s, f := f, c := c }

/-! ### The factorisations (R158, R161 to R164) -/

/-- What an item's work needs to know. -/
structure SJob where
  ctl : SCtl
  n : Nat
  /-- data and working formats -/
  data : Fmt
  w : Fmt
  floor : Val
  pat : Option Pat
deriving DecidableEq, Repr

/-- A position takes part in the factor: every one, or those of F (R173). -/
def SJob.inF (g : SJob) (i j : Nat) : Bool := match g.pat with | some p => bitAt p.f i j | none => true

/-- A position is read from the data: every one, or those of S (R173). -/
def SJob.inS (g : SJob) (i j : Nat) : Bool := match g.pat with | some p => bitAt p.s i j | none => true

/-- The kind reads entry (i, j) of the matrix (Table 06.4). -/
def SJob.reads (g : SJob) (i j : Nat) : Bool :=
  g.inS i j &&
  match g.ctl.kind with
  | 1 | 2 => j ≤ i
  | 4 => j < i || (j == i && !g.ctl.unitDiag)
  | 5 => i < j || (j == i && !g.ctl.unitDiag)
  | _ => true

/-- FLOOR(x) by magnitude: the pivot used, and whether it was replaced (R162). -/
def SJob.floorMag (g : SJob) (x : Val) : Val × Bool :=
  if g.ctl.floorEn && vlt x.abs g.floor then (withSign x (g.w.decode (g.w.round .rne 0 g.floor).1), true) else (x, false)

/-- FLOOR(d) of Cholesky: every d below f becomes +f (R162). -/
def SJob.floorChol (g : SJob) (d : Val) : Val × Bool :=
  if g.ctl.floorEn && vlt d g.floor then (g.w.decode (g.w.round .rne 0 g.floor).1, true) else (d, false)

/-- A factorisation in progress. -/
structure FW where
  m : Mat
  fl : Fl := 0
  /-- pivot rows p[k] -/
  piv : List Nat := []
  tau : List Val := []
  /-- the pivots before replacement, by step -/
  pivs : List Val := []
  pert : Option Nat := none
  nonpos : Bool := false
  stop : Option (Status × Nat) := none
deriving Repr

/-- The first perturbed step is kept. -/
def FW.note (f : FW) (k : Nat) (rep : Bool) : FW := if rep && f.pert.isNone then { f with pert := some k } else f

/-- The step's operations are done: flags are taken in, an overflow among them stops the factorisation (R164). -/
def FW.close (f : FW) (k : Nat) (m : Mat) (fl : Fl) : FW :=
  { f with m := m, fl := f.fl ||| fl, stop := if fl.over then some (.overflow, k) else f.stop }

/-- The lowest index of the candidates with the largest magnitude in column k (R158). -/
def pivotRow (m : Mat) (k : Nat) (cs : List Nat) : Nat :=
  cs.foldl (fun r i => if vlt (m.at r k).abs (m.at i k).abs then i else r) (cs.headD k)

/-- One LU step. Under a pattern an exchange with a position outside F is left out (log 26). -/
def luStep (g : SJob) (f : FW) (k : Nat) : FW :=
  let n := g.n
  let cs := (List.range n).filter fun i => k ≤ i &&
    (match g.pat with | some p => bitAt p.c k i | none => true)
  let r := pivotRow f.m k cs
  if (f.m.at r k).isZero && !g.ctl.floorEn then { f with stop := some (.singular, k), pivs := f.pivs ++ [f.m.at r k] }
  else
    let sw := Mat.build n n fun i j =>
      if g.inF k j && g.inF r j then
        if i = k then f.m.at r j else if i = r then f.m.at k j else f.m.at i j
      else f.m.at i j
    let pv := sw.at k k
    let (p, rep) := g.floorMag pv
    let m1 := sw.put k k p
    let (m2, fl2) := m1.upd g.w n n fun i j => if k < i ∧ j = k ∧ g.inF i k then some (vdiv (m1.at i k) p) else none
    let (m3, fl3) := m2.upd g.w n n fun i j =>
      if k < i ∧ k < j ∧ g.inF i j ∧ g.inF i k ∧ g.inF k j then
        some (vfma (m2.at i k).negate (m2.at k j) (m2.at i j)) else none
    FW.close { f.note k rep with piv := f.piv ++ [r], pivs := f.pivs ++ [pv] } k m3 (fl2 ||| fl3)

/-- The trailing update of the symmetric kinds: a[i][j] = fma(−a[i][k], c[j], a[i][j]) for k < j ≤ i. -/
def symUpdate (g : SJob) (m : Mat) (k : Nat) (c : Nat → Val) : Mat × Fl :=
  m.upd g.w g.n g.n fun i j =>
    if k < j ∧ j ≤ i ∧ g.inF i j ∧ g.inF i k ∧ g.inF j k then some (vfma (m.at i k).negate (c j) (m.at i j)) else none

/-- One Cholesky step. -/
def cholStep (g : SJob) (f : FW) (k : Nat) : FW :=
  let n := g.n
  let d := f.m.at k k
  let pos := vlt .zero d
  if !pos && !g.ctl.floorEn then
    { f with stop := some (.singular, k), nonpos := true, pivs := f.pivs ++ [d] }
  else
    let (p, rep) := g.floorChol d
    let (q, fl1) := sop g.w p.sqrt
    let m1 := f.m.put k k q
    let (m2, fl2) := m1.upd g.w n n fun i j => if k < i ∧ j = k ∧ g.inF i k then some (vdiv (m1.at i k) q) else none
    let (m3, fl3) := symUpdate g m2 k fun j => m2.at j k
    FW.close { f.note k rep with nonpos := f.nonpos || !pos, pivs := f.pivs ++ [d] } k m3 (fl1 ||| fl2 ||| fl3)

/-- One LDLᵀ step. -/
def ldlStep (g : SJob) (f : FW) (k : Nat) : FW :=
  let n := g.n
  let pv := f.m.at k k
  if pv.isZero && !g.ctl.floorEn then { f with stop := some (.singular, k), pivs := f.pivs ++ [pv] }
  else
    let (p, rep) := g.floorMag pv
    let m1 := f.m.put k k p
    let (m2, fl2) := m1.upd g.w n n fun i j => if k < i ∧ j = k ∧ g.inF i k then some (vdiv (m1.at i k) p) else none
    let (m3, fl3) := symUpdate g m2 k fun j => m1.at j k
    FW.close { f.note k rep with pivs := f.pivs ++ [pv] } k m3 (fl2 ||| fl3)

/-- Indices above k. -/
def above (n k : Nat) : List Nat := (List.range n).filter fun i => k < i

/-- One QR step. -/
def qrStep (g : SJob) (f : FW) (k : Nat) : FW :=
  let n := g.n
  let w := g.w
  let is := above n k
  let alpha := f.m.at k k
  let (sigma, fl1) := sdot w is (fun i => f.m.at i k) (fun i => f.m.at i k)
  let (tau, m1, fl2) : Val × Mat × Fl :=
    if sigma.isZero && !alpha.neg? then (.zero, f.m, 0)
    else
      let (t, fa) := sop w (vfma alpha alpha sigma)
      let (mu, fb) := sop w t.sqrt
      let beta := if alpha.neg? then mu else mu.negate
      let (den, fc) := sop w (vadd alpha beta.negate)
      let (ma, fd) := f.m.upd w n n fun i j => if k < i ∧ j = k then some (vdiv (f.m.at i k) den) else none
      let (num, fe) := sop w (vadd beta alpha.negate)
      let (tau, ff) := sop w (vdiv num beta)
      (tau, ma.put k k beta, fa ||| fb ||| fc ||| fd ||| fe ||| ff)
  let cols := (above n k).map fun j =>
    let (dv, fa) := sdot w is (fun i => m1.at i k) (fun i => m1.at i j)
    let (wv, fb) := sop w (vadd (m1.at k j) dv)
    let (y, fc) := sop w (tau.mul wv)
    (j, y, fa ||| fb ||| fc)
  let yOf := fun j => ((cols.find? fun c => c.1 == j).map fun c => c.2.1).getD .zero
  let (m2, fl3) := m1.upd w n n fun i j =>
    if k < j ∧ i = k then some (vfma (yOf j).negate (Val.ofInt 1) (m1.at k j))
    else if k < j ∧ k < i then some (vfma (yOf j).negate (m1.at i k) (m1.at i j)) else none
  FW.close { f with tau := f.tau ++ [tau] } k m2 (cols.foldl (fun a c => a ||| c.2.2) (fl1 ||| fl2 ||| fl3))

/-- R_kk judged after a completed QR (R161, R162). -/
def qrJudge (g : SJob) (f : FW) : FW :=
  let f1 := { f with pivs := (List.range g.n).map fun k => f.m.at k k }
  (List.range g.n).foldl (fun f k =>
    match f.stop with
    | some _ => f
    | none =>
      let r := f.m.at k k
      if r.isZero && !g.ctl.floorEn then { f with stop := some (.singular, k) }
      else
        let (p, rep) := g.floorMag r
        { f.note k rep with m := f.m.put k k p }) f1

/-- The factorisation of an item, to its end or its stop. -/
def factorise (g : SJob) (m : Mat) : FW :=
  let step := match g.ctl.kind with
    | 1 => cholStep g
    | 2 => ldlStep g
    | 3 => qrStep g
    | _ => luStep g
  let f : FW := (List.range g.n).foldl (fun (f : FW) k => match f.stop with | some _ => f | none => step f k) { m := m }
  if g.ctl.kind = 3 ∧ f.stop = none then qrJudge g f else f

/-! ### The solves (R159, R164) -/

/-- A solve in progress: the right-hand sides, the flags, and where the first overflow arose (part, index). -/
structure SW where
  x : Mat
  fl : Fl := 0
  ov : Option (Nat × Nat) := none
  /-- the diagonal entry of a kind 4 or 5 item that is 0 with the floor off -/
  sing : Option Nat := none
deriving Repr

/-- Operations of step k of a part are taken in. -/
def SW.take (t : SW) (part k : Nat) (x : Mat) (fl : Fl) : SW :=
  { t with x := x, fl := t.fl ||| fl, ov := if t.ov.isNone && fl.over then some (part, k) else t.ov }

/-- A triangle by columns: `diag k` is none for a unit diagonal, `l i k` none outside the factor (R159). A step whose
diagonal `zero` names is not worked: the solve stops there, unless an earlier step overflowed (R161, R165). -/
def triangle (w : Fmt) (n r part : Nat) (upper : Bool) (diag : Nat → Option Val) (l : Nat → Nat → Option Val) (t : SW)
    (zero : Nat → Bool := fun _ => false) : SW :=
  let order := if upper then (List.range n).reverse else List.range n
  order.foldl (fun t k =>
    match t.sing with
    | some _ => t
    | none =>
      if zero k && t.ov.isNone then { t with sing := some k }
      else
      let (x1, f1) := match diag k with
        | none => (t.x, (0 : Fl))
        | some d => t.x.upd w n r fun i c => if i = k then some (vdiv (t.x.at k c) d) else none
      let (x2, f2) := x1.upd w n r fun i c =>
        if (if upper then i < k else k < i) then
          (l i k).map fun v => vfma v.negate (x1.at k c) (x1.at i c)
        else none
      t.take part k x2 (f1 ||| f2)) t

/-- A factor entry where it takes part. -/
def SJob.ent (g : SJob) (m : Mat) (i j : Nat) : Option Val := if g.inF i j then some (m.at i j) else none

/-- The reflectors of QR applied to the right-hand sides (R159). -/
def reflect (g : SJob) (m : Mat) (tau : List Val) (r : Nat) (t : SW) : SW :=
  (List.range g.n).foldl (fun t k =>
    let ys := (List.range r).map fun c =>
      let (dv, fa) := sdot g.w (above g.n k) (fun i => m.at i k) (fun i => t.x.at i c)
      let (wv, fb) := sop g.w (vadd (t.x.at k c) dv)
      let (y, fc) := sop g.w ((tau.getD k .zero).mul wv)
      (y, fa ||| fb ||| fc)
    let y := fun c => ((ys.getD c (.zero, 0)).1).negate
    let (x1, f1) := t.x.upd g.w g.n r fun i c =>
      if i = k then some (vfma (y c) (Val.ofInt 1) (t.x.at k c))
      else if k < i then some (vfma (y c) (m.at i k) (t.x.at i c)) else none
    t.take 1 k x1 (ys.foldl (fun a v => a ||| v.2) f1)) t

/-- The solve of an item with its factor, right-hand sides in the working format (R159). -/
def solveW (g : SJob) (f : FW) (r : Nat) (t : SW) : SW :=
  let n := g.n
  let m := f.m
  let w := g.w
  match g.ctl.kind with
  | 1 =>
    triangle w n r 3 true (fun k => some (m.at k k)) (fun i k => g.ent m k i)
      (triangle w n r 1 false (fun k => some (m.at k k)) (fun i k => g.ent m i k) t)
  | 2 =>
    let t1 := triangle w n r 1 false (fun _ => none) (fun i k => g.ent m i k) t
    let t2 := (List.range n).foldl (fun (t : SW) k =>
      let (x, fl) := t.x.upd w n r fun i c => if i = k then some (vdiv (t.x.at k c) (m.at k k)) else none
      t.take 2 k x fl) t1
    triangle w n r 3 true (fun _ => none) (fun i k => g.ent m k i) t2
  | 3 => triangle w n r 3 true (fun k => some (m.at k k)) (fun i k => some (m.at i k)) (reflect g m f.tau r t)
  | _ =>
    let b := f.piv.zipIdx.foldl (fun (x : Mat) p =>
      (x.set p.2 (x.getD p.1 [])).set p.1 (x.getD p.2 [])) t.x
    triangle w n r 3 true (fun k => some (m.at k k)) (fun i k => g.ent m i k)
      (triangle w n r 1 false (fun _ => none) (fun i k => g.ent m i k) { t with x := b })

/-- Right-hand sides in the data format converted RNE to the working format (R166). An overflow of the conversion is
placed at part 1 and its lowest row (log 26). -/
def rhsIn (g : SJob) (r : Nat) (b : Mat) : SW :=
  let (x, fl) := b.upd g.w g.n r fun i c => some (b.at i c, false)
  let bad := (List.range g.n).find? fun i => (List.range r).any fun c => (sop g.w (b.at i c, false)).2.over
  { x := x, fl := fl, ov := if g.w == g.data then none else bad.map fun i => (1, i) }

/-- A solve in the working format of right-hand sides in the data format; the result is widened exactly (R166). -/
def solveItem (g : SJob) (f : FW) (r : Nat) (b : Mat) : SW := solveW g f r (rhsIn g r b)

/-- The solve of a kind 4 or 5 item with the triangle as given, in the working format, with the zero pivots and the floor
of R161 and R162. -/
def solveTri (g : SJob) (m : Mat) (r : Nat) (b : Mat) : SW × FW :=
  let upper := g.ctl.kind == 5
  let order := if upper then (List.range g.n).reverse else List.range g.n
  let zero := fun k => !g.ctl.unitDiag && !g.ctl.floorEn && (m.at k k).isZero
  let d := fun k => if g.ctl.unitDiag then none else some (g.floorMag (m.at k k)).1
  let pert := if g.ctl.unitDiag then none else order.find? fun k => (g.floorMag (m.at k k)).2
  let t := triangle g.w g.n r 1 upper d (fun i k => some (m.at i k)) (rhsIn g r b) zero
  (t, { m := m, pivs := (List.range g.n).map (fun k => if g.ctl.unitDiag then Val.ofInt 1 else m.at k k), pert := pert,
        stop := t.sing.map fun k => (.singular, k) })

/-! ### The residual (R167) -/

/-- An entry of the original matrix as the kind reads it, 0 outside S. -/
def SJob.orig (g : SJob) (a : Mat) (i j : Nat) : Val :=
  let sym := g.ctl.kind == 1 || g.ctl.kind == 2
  let (p, q) := if sym && i < j then (j, i) else (i, j)
  if g.inS p q then a.at p q else .zero

/-- One residual element with its flags. -/
def residElem (g : SJob) (a b x : Mat) (i c : Nat) : Val × Fl :=
  let bf : Fmt := if g.data == .fp64 then .b256 else .b128
  let js := List.range g.n
  let ex := js.foldl (fun m j => maxE m (match (g.orig a i j).e, (x.at j c).e with
    | some p, some q => some (p + q + 1)
    | _, _ => none)) (b.at i c).e
  let anchor := anchorClamp (ex.getD (-4096))
  let t := js.foldl (fun acc j => if (g.orig a i j).isZero && (x.at j c).abs != .inf false && !(x.at j c).isNan then acc
      else Brine.addVal bf anchor acc ((g.orig a i j).mul (x.at j c)).1.negate)
    (Brine.addVal bf anchor {} (b.at i c))
  let r := crystallise g.data .rne 0 (bf.brineVal anchor t) t.fl (Val.two 0) .zero
  (g.data.decode r.1, r.2)

/-- The largest magnitude of a column, none when it holds a value that is not finite. -/
def colMax (n : Nat) (m : Mat) (c : Nat) : Option Val :=
  (List.range n).foldl (fun acc i =>
    match acc, m.at i c with
    | some y, .fin _ k e => some (if vlt y (.fin false k e) then .fin false k e else y)
    | _, _ => none) (some Val.zero)

/-- Every column passes the test of R166. -/
def residPass (g : SJob) (r : Nat) (res b : Mat) : Bool :=
  (List.range r).all fun c =>
    match colMax g.n res c, colMax g.n b c with
    | some p, some q => !vlt (q.scale2 (-(g.ctl.tol : Int))) p
    | _, _ => false

/-- The residual exponent of the status word (R167). -/
def residExp (g : SJob) (r : Nat) (res : Mat) : Int :=
  ((List.range r).foldl (fun m c => maxE m ((colMax g.n res c).bind Val.e)) none).getD (-4096)

/-! ### Cycles (Table 06.5) -/

/-- Σ over steps of a term. -/
def sumSteps (n : Nat) (f : Nat → Nat) : Nat := ((List.range n).map f).foldl (· + ·) 0

/-- The update term of step k: dense, or ⌈u_k / 16⌉ under a pattern. -/
def updTerm (g : SJob) (k dense : Nat) : Nat :=
  match g.pat with
  | none => dense
  | some _ =>
    let sym := g.ctl.kind == 1 || g.ctl.kind == 2
    cdiv ((List.range g.n).foldl (fun a i => a + ((List.range g.n).filter fun j =>
      k < i && k < j && (!sym || j ≤ i) && g.inF i j && g.inF i k && (if sym then g.inF j k else g.inF k j)).length) 0) 16

/-- Cycles of a factorisation that ran its first `steps` steps. -/
def factorCycles (g : SJob) (steps : Nat) : Nat :=
  let n := g.n
  24 + sumSteps steps fun k =>
    let m := n - 1 - k
    match g.ctl.kind with
    | 1 => updTerm g k (cdiv (m * (m + 1)) 32) + 16
    | 2 => updTerm g k (cdiv (m * (m + 1)) 32) + 4
    | 3 => cdiv (n - k) 16 + cdiv ((n - k) * m) 8 + 32
    | _ => updTerm g k (cdiv (m * m) 16) + 4

/-- Cycles of one triangle's first `steps` steps. -/
def triCycles (n r steps : Nat) : Nat := sumSteps steps fun k => cdiv ((n - 1 - k) * r) 16 + 4

/-- Cycles of a solve. -/
def solveCycles (g : SJob) (r : Nat) : Nat :=
  let t := triCycles g.n r g.n
  match g.ctl.kind with
  | 2 => 2 * t + cdiv (g.n * r) 16 + 36
  | 3 => sumSteps g.n (fun k => cdiv ((g.n - k) * r) 8 + 8) + t + 24
  | 4 | 5 => t + 24
  | _ => 2 * t + 24

/-- Cycles of a residual and its test. -/
def residCycles (n r : Nat) : Nat := 2 * cdiv (n * (n + 1) * r) 16 + 40

/-! ### One item (R163 to R169) -/

/-- What an item reports and writes. -/
structure ItemRes where
  status : Status := .notrun
  perturbed : Bool := false
  nonfinite : Bool := false
  nonpos : Bool := false
  step : Nat := 0xFFFF
  iters : Nat := 0
  part : Nat := 0
  resExp : Option Int := none
  pivot : Val := .zero
  factor : Option Mat := none
  piv : Option (List Int) := none
  /-- τ entries to write, none where an entry is left -/
  tau : Option (List (Option Val)) := none
  x : Option Mat := none
  fl : Fl := 0
  cycles : Nat := 0
deriving Repr

/-- Refinement of an item from its first solution (R166, R169): `late c` tells whether the deadline has passed after
`c` cycles of the item. -/
def refineGo (g : SJob) (f : FW) (r : Nat) (late : Nat → Bool) (a b : Mat) :
    Nat → Mat → Nat → Nat → Fl → Option Int → Option Status × Mat × Nat × Nat × Fl × Option Int × Option (Nat × Nat)
  | 0, x, it, cyc, fl, re => (some .noconv, x, it, cyc, fl, re, none)
  | n + 1, x, it, cyc, fl, re =>
    if late cyc then (some .deadline, x, it, cyc, fl, re, none)
    else
      let cells := (List.range g.n).map fun i => (List.range r).map fun c => residElem g a b x i c
      let res : Mat := cells.map fun row => row.map Prod.fst
      let fl1 := cells.foldl (fun acc row => row.foldl (fun acc v => acc ||| v.2) acc) fl
      let cyc1 := cyc + residCycles g.n r
      let re1 := some (residExp g r res)
      if residPass g r res b then (none, x, it + 1, cyc1, fl1, re1, none)
      else if n = 0 then (some .noconv, x, it + 1, cyc1, fl1, re1, none)
      else
        let d := solveItem g f r res
        let cyc2 := cyc1 + solveCycles g r
        let (x1, fl2) := x.upd g.data g.n r fun i c => some (vadd (x.at i c) (d.x.at i c))
        let low := (List.range g.n).find? fun i => (List.range r).any fun c =>
          (sop g.data (vadd (x.at i c) (d.x.at i c))).2.over
        let ov := match d.ov with | some o => some o | none => low.map fun i => (4, i)
        let fl3 := fl1 ||| d.fl ||| fl2
        match ov with
        | some o => (some .overflow, x1, it + 1, cyc2, fl3, re1, some o)
        | none => refineGo g f r late a b n x1 (it + 1) cyc2 fl3 re1

/-- The pivot of least magnitude. -/
def leastPivot (l : List Val) : Val :=
  match l with
  | [] => .zero
  | p :: ps => ps.foldl (fun a x => if vlt x.abs a.abs then x else a) p

/-- What an item writes of its factor when keep_factor is 1 (R161, R164). -/
def keepFactor (g : SJob) (f : FW) (res : ItemRes) : ItemRes :=
  if !g.ctl.keep then res
  else
    let upto := match f.stop with | some (.singular, k) => k | some (_, k) => k + 1 | none => g.n
    { res with
      factor := some f.m
      piv := if g.ctl.kind = 0 ∨ g.ctl.kind = 6 then
          some ((List.range g.n).map fun k => if k < upto then ((f.piv.getD k 0 : Nat) : Int) else -1) else none
      tau := if g.ctl.kind = 3 then
          some ((List.range g.n).map fun k =>
            if k < upto then some (f.tau.getD k .zero)
            else match f.stop with | some (.overflow, _) => some .zero | _ => none) else none }

/-- The work on one item whose deadline check before the factorisation has passed. `a` and `b` are the matrix and the
right-hand sides in the data format, entries the kind does not read +0. -/
def itemWork (g : SJob) (nrhs : Nat) (a b : Mat) (late : Nat → Bool) : ItemRes :=
  let n := g.n
  let r := if g.ctl.kind = 6 then n else nrhs
  let bad := fun (m : Mat) => m.any fun row => row.any fun v => match v with | .fin _ _ _ => false | _ => true
  if bad a || (g.ctl.kind != 6 && bad b) then { nonfinite := true, fl := Fl.nv }
  else
    -- the copy in the working format (R166)
    let (m, flc) := a.upd g.w n n fun i j => some (a.at i j, false)
    if g.w != g.data && flc.over then { status := .overflow, step := 0, fl := flc }
    else if g.ctl.kind = 4 ∨ g.ctl.kind = 5 then
      let (t, f) := solveTri g m r b
      let base : ItemRes := { perturbed := f.pert.isSome, fl := flc ||| t.fl }
      match t.sing, t.ov with
      | some k, _ =>
        let steps := if g.ctl.kind = 5 then n - k else k + 1
        { base with status := .singular, step := k, part := 1, pivot := f.pivs.getD k .zero,
                    cycles := triCycles n r steps + 24 }
      | none, some (p, k) =>
        { base with status := .overflow, step := k, part := p, pivot := f.pivs.getD k .zero, x := some t.x,
                    cycles := solveCycles g r }
      | none, none =>
        { base with
          status := if f.pert.isSome then .perturbed else .ok
          step := f.pert.getD 0xFFFF
          pivot := match f.pert with | some k => f.pivs.getD k .zero | none => leastPivot f.pivs
          x := some t.x
          cycles := solveCycles g r }
    else
      let f := factorise g m
      let fl0 := flc ||| f.fl
      let base : ItemRes := keepFactor g f { perturbed := f.pert.isSome, nonpos := f.nonpos, fl := fl0 }
      let pstep := f.pert.getD 0xFFFF
      let ppiv := match f.pert with | some k => f.pivs.getD k .zero | none => leastPivot f.pivs
      match f.stop with
      | some (st, k) =>
        let steps := if g.ctl.kind = 3 ∧ st = .singular then n else k + 1
        { base with status := st, step := k, pivot := if g.ctl.kind = 3 ∧ st = .overflow then f.m.at k k else f.pivs.getD k .zero,
                    cycles := factorCycles g steps }
      | none =>
        let c1 := factorCycles g n
        let done : Status := if f.pert.isSome then .perturbed else .ok
        if late c1 then { base with status := .deadline, step := pstep, pivot := ppiv, cycles := c1 }
        else if r = 0 then { base with status := done, step := pstep, pivot := ppiv, cycles := c1 }
        else
          let b0 := if g.ctl.kind = 6 then Mat.build n n fun i j => if i = j then Val.ofInt 1 else .zero else b
          let t := solveItem g f r b0
          let c2 := c1 + solveCycles g r
          match t.ov with
          | some (p, k) =>
            { base with status := .overflow, step := k, part := p, pivot := f.pivs.getD k .zero, x := some t.x,
                        fl := fl0 ||| t.fl, cycles := c2 }
          | none =>
            if g.ctl.refine then
              let (st, x, it, cyc, fl, re, ov) := refineGo g f r late a b0 g.ctl.cap t.x 0 c2 (fl0 ||| t.fl) none
              match ov with
              | some (p, k) =>
                { base with status := .overflow, step := k, part := p, pivot := f.pivs.getD k .zero, x := some x,
                            iters := it, resExp := re, fl := fl, cycles := cyc }
              | none =>
                { base with status := st.getD done, step := pstep, pivot := ppiv, x := some x, iters := it,
                            resExp := re, fl := fl, cycles := cyc }
            else { base with status := done, step := pstep, pivot := ppiv, x := some t.x, fl := fl0 ||| t.fl, cycles := c2 }

/-- The status word of an item, Table 06.6. -/
def ItemRes.word (r : ItemRes) : List Byte :=
  leBytes 1 r.status.code ++
  leBytes 1 (bn r.perturbed + 2 * bn r.nonfinite + 4 * bn r.nonpos + 8 * bn r.factor.isSome + 16 * bn r.x.isSome) ++
  leBytes 2 r.step ++ leBytes 1 r.iters ++ leBytes 1 r.part ++
  leBytes 2 (match r.resExp with | some e => tc 16 e | none => 0x8000) ++
  leBytes 8 (Fmt.fp64.round .rne 0 r.pivot).1

/-! ### SFACT (R151 to R156, R168 to R170, R176, R177) -/

/-- The tensors of an SFACT. -/
structure STens where
  mat : Desc
  rhs : Option Desc
  sol : Option Desc
  st : Desc
  aux : Option Desc
deriving DecidableEq, Repr

/-- The tensors that an SFACT names. -/
def stensOf (s : State) (f : InFl) : STens :=
  { mat := opnd! s f 2, rhs := opnd s f 3, sol := opnd s f 4, st := opnd! s f 5,
    aux := (batchOf s f).aux.bind (descAt s) }

/-- Items of a batch. -/
def Desc.items (d : Desc) : Nat := d.c 2 * d.c 3 * d.c 4

/-- What R407 checks of an SFACT at decode (R153 to R155). -/
def sfactBad (s : State) (f : InFl) : Bool :=
  let c := f.cmd
  let k := SCtl.of c.w6
  let b := batchOf s f
  let t := stensOf s f
  let n := b.n
  let needR := 1 ≤ b.nrhs && k.kind != 6
  let needA := k.keep && (k.kind == 0 || k.kind == 3 || k.kind == 6)
  let fits := fun (d : Desc) (c0 c1 : Nat) => d.c 0 == c0 && d.c 1 == c1 && d.counts.drop 2 == t.mat.counts.drop 2
  !refOk c.w1 || ((refIdx c.w1).bind (descBytes s)).isNone || refBad s c.w2 false || refBad s c.w3 true ||
  refBad s c.w4 true || refBad s c.w5 false || bitsBad c.w6 0xFFFFFFF || auxBad s b.aux || !b.ok ||
  6 < k.kind || (k.unitDiag && k.kind != 4 && k.kind != 5) || (k.refine && (3 < k.kind || b.nrhs == 0)) ||
  (k.usePat && !(k.kind ≤ 2 || k.kind == 6)) || (k.keep && (k.kind == 4 || k.kind == 5)) ||
  !(2 ≤ n && n ≤ (if k.kind = 6 then 16 else 64)) || (16 < b.nrhs && k.kind != 6) ||
  (b.nrhs == 0 && !k.keep && k.kind != 6) ||
  t.rhs.isSome != needR || t.sol.isSome != (needR || k.kind == 6) || b.aux.isSome != needA ||
  2 ^ 24 < t.mat.items || !fits t.mat n n || !fits t.st 16 1 ||
  ((t.rhs.map fun d => !fits d b.nrhs n).getD false) ||
  ((t.sol.map fun d => !fits d (if k.kind = 6 then n else b.nrhs) n).getD false) ||
  ((t.aux.map fun d => !fits d n 1).getD false)

/-- Where the solver's tensors may lie: the block's own store, a region store, node memory (R152). -/
def solverPlace (s : State) (b : Blk) (d : Desc) : Bool :=
  d.empty || inStore b d ||
  match place s d.base with
  | .mem _ _ | .rstore _ _ => !d.remote
  | _ => false

/-- A solver tensor breaks an alignment of R152. -/
def solverAlign (base row outer : Nat) (d : Desc) : Bool :=
  !d.empty && (d.base % base != 0 || d.stride 0 % (row : Int) != 0 ||
    [1, 2, 3].any fun i => d.stride i % (outer : Int) != 0)

/-- The issue checks of place, bounds and alignment of a solver tensor; a stream's hold whether or not an address
register is added (R152, R219). -/
def solverCheck (s : State) (b : Blk) (base row outer : Nat) (d : Desc) (stream : Bool := false) : List Status :=
  extentCheck s d ++
  (if stream then bufCheck s d else []) ++
  (if (d.viaReg || stream) && !solverPlace s b d then [.bounds] else []) ++
  (if (d.viaReg || stream) && solverAlign base row outer d then [.align] else [])

/-- The pattern slot of a block. -/
def patOf (s : State) (b : Blk) (slot : Nat) : Option Pat := ((s.blk b).slv.pats.find? fun p => p.1 == slot).map Prod.snd

/-- An SFACT breaks a format rule (R153 to R155). -/
def sfactFormat (s : State) (f : InFl) : Bool :=
  let k := SCtl.of f.cmd.w6
  let b := batchOf s f
  let t := stensOf s f
  let fm := t.mat.fmt
  !(fm == .fp64 || fm == .fp32) || (k.f32 && fm == .fp32) ||
  (k.floorEn && !(b.floor < 0x7FF0000000000000 && 0x0010000000000000 ≤ b.floor)) ||
  ((t.rhs.map fun d => d.fmt != fm).getD false) || ((t.sol.map fun d => d.fmt != fm || d.ncw.rnd != 0).getD false) ||
  t.st.fmt != .uint8 ||
  ((t.aux.map fun d => d.fmt != (if k.kind = 3 then fm else .int32) || blockBad d).getD false)

/-- The issue checks of an SFACT. -/
def sfactIssue (s : State) (b : Blk) (f : InFl) : List Status :=
  let k := SCtl.of f.cmd.w6
  let t := stensOf s f
  let e := t.mat.fmt.bits / 8
  (t.mat :: (t.rhs.toList ++ t.sol.toList ++ t.aux.toList)).flatMap (solverCheck s b 64 e 64) ++
  solverCheck s b 16 16 16 t.st ++
  (if k.usePat then
    match patOf s b k.slot with
    | some p => if p.n = (batchOf s f).n ∧ p.symmetric = (k.kind == 1 || k.kind == 2) then [] else [.state]
    | none => [.state]
   else []) ++
  (if sfactFormat s f then [.format] else [])

/-- Runs widened to whole 64-byte lines (R152). -/
def lineRuns (l : List Run) : List Run :=
  l.map fun r => ⟨r.npa - r.npa % 64, if r.len = 0 then 0 else cdiv (r.npa % 64 + r.len) 64 * 64⟩

/-- The rows of one item of a tensor. -/
def itemRuns (d : Desc) (item : Nat) : List Run :=
  (List.range (d.c 1)).map fun i => d.runAt (i :: batchIx d.counts item) 0 (d.c 0)

/-- The clock of a block's die in MHz. -/
def dieMhz (s : State) (b : Blk) : Nat :=
  if (s.die b.region.toNat).clockMhz = 0 then s.fuses.grade.clockMhz else (s.die b.region.toNat).clockMhz

/-- The deadline W7 has passed after `cyc` cycles of the command: hall time as the block sees it, never ahead and at
most 32 ns behind (R169, R170). -/
def deadlinePassed (s : State) (b : Blk) (dl cyc : Nat) : Bool :=
  dl != 0 && dl ≤ s.tim.hall + cyc * 1000 / dieMhz s b - (Config.freeWord (s.free + cyc)).toNat % 33

/-- Entries of an item's matrix that stay, or are written from a factor (Table 06.4, R173). -/
def factorPut (g : SJob) (i j : Nat) : Bool := g.inF i j && (g.ctl.kind == 0 || g.ctl.kind == 3 || g.ctl.kind == 6 || j ≤ i)

/-- Output bytes for R264: the target's place in the order of the operand words, the item, the bytes. -/
abbrev SOut := List (Nat × Nat × List Byte)

/-- The output bytes of a command: target by target, items in row-major order (R264). -/
def SOut.bytes (o : SOut) (items : Nat) : List Byte :=
  (List.range 4).flatMap fun k => (List.range items).flatMap fun i =>
    (o.filter fun x => x.1 == k && x.2.1 == i).flatMap fun x => x.2.2

/-- An item's results written, then its status word (R168); a fault of a merge ends the command (R176). -/
def putItem (s : State) (g : SJob) (t : STens) (item : Nat) (r : ItemRes) :
    State × SOut × Option (Status × ErrCode × Nat) :=
  let bits := fun (f : Fmt) (v : Val) => (f.round .rne 0 v).1
  let wrM := fun (acc : State × SOut) (k : Nat) (d : Desc) (v : Nat → Nat → Option Nat) =>
    (List.range (d.c 1)).foldl (fun (acc : State × SOut) i =>
      let x := wrRow acc.1 d.fmt (d.rowAt (i :: batchIx d.counts item)) ((List.range (d.c 0)).map fun j => v i j)
      (x.1, acc.2 ++ [(k, item, x.2)])) acc
  let a0 : State × SOut := (s, [])
  let a1 := match r.factor with
    | some m => wrM a0 0 t.mat fun i j => if factorPut g i j then some (bits g.data (m.at i j)) else none
    | none => a0
  let a2 := match r.piv, t.aux with
    | some l, some d => wrM a1 3 d fun _ j => some (tc 32 (l.getD j 0))
    | _, _ => a1
  let a3 := match r.tau, t.aux with
    | some l, some d => wrM a2 3 d fun _ j => (l.getD j none).map (bits g.data)
    | _, _ => a2
  let a4 := match r.x, t.sol with
    | some m, some d => wrM a3 1 d fun i j => some (bits g.data (m.at i j))
    | _, _ => a3
  let run := t.st.runAt (0 :: batchIx t.st.counts item) 0 16
  match touch a4.1 (partialRuns [run]) with
  | (s5, some e) => (s5, a4.2, some e)
  | (s5, none) => (wrN s5 run.npa r.word, a4.2 ++ [(2, item, r.word)], none)

/-- How far an SFACT has come. -/
structure SWalk where
  s : State
  cyc : Nat := 64
  fl : Fl := 0
  /-- items that report NOTRUN, whose words come at the end -/
  late : List (Nat × ItemRes) := []
  stopped : Bool := false
  out : SOut := []
  fault : Option (Status × ErrCode × Nat) := none

/-- One item of an SFACT (R151, R163, R169). -/
def itemStep (g : SJob) (t : STens) (b : Blk) (nrhs dl : Nat) (w : SWalk) (item : Nat) : SWalk :=
  if w.fault.isSome then w
  else if w.stopped || deadlinePassed w.s b dl w.cyc then
    { w with stopped := true, late := w.late ++ [(item, {})] }
  else
    let reads := lineRuns (itemRuns t.mat item ++ (t.rhs.toList ++ t.sol.toList ++ t.aux.toList).flatMap fun d => itemRuns d item)
    match touch w.s reads with
    | (s1, some e) => { w with s := s1, fault := some e }
    | (s1, none) =>
      let rdM := fun (d : Desc) (ok : Nat → Nat → Bool) => Mat.build (d.c 1) (d.c 0) fun i j =>
        if ok i j then d.fmt.decode (d.rawIx s1 j (i :: batchIx d.counts item)) else .zero
      let a := rdM t.mat g.reads
      let bm := match t.rhs with | some d => rdM d fun _ _ => true | none => []
      let r := itemWork g nrhs a bm fun c => deadlinePassed s1 b dl (w.cyc + c)
      let s2 := s1.updBlk b fun k => { k with slv := { k.slv with item := BitVec.ofNat 24 item, last := r.status } }
      let w1 := { w with cyc := w.cyc + r.cycles, fl := w.fl ||| r.fl }
      if r.status = .notrun then { w1 with s := s2, late := w.late ++ [(item, r)] }
      else
        match putItem s2 g t item r with
        | (s3, o, e) => { w1 with s := s3, out := w.out ++ o, fault := e }

/-- An SFACT carried out. -/
def sfactRun (s : State) (b : Blk) (f : InFl) : State :=
  let k := SCtl.of f.cmd.w6
  let bt := batchOf s f
  let t := stensOf s f
  let g : SJob := { ctl := k, n := bt.n, data := t.mat.fmt, w := if k.f32 then .fp32 else t.mat.fmt,
                    floor := Fmt.fp64.decode bt.floor, pat := if k.usePat then patOf s b k.slot else none }
  let s0 := updInFl s b .XQ f.idx fun x => { x with started := true }
  let w := (List.range t.mat.items).foldl (itemStep g t b bt.nrhs f.cmd.w7.toNat) { s := s0 }
  let w1 := match w.fault with
    | some _ => w
    | none => w.late.foldl (fun (w : SWalk) (x : Nat × ItemRes) =>
        match w.fault with
        | some _ => w
        | none =>
          match putItem (w.s.updBlk b fun k => { k with slv := { k.slv with last := .notrun } }) g t x.1 x.2 with
          | (s3, o, e) => { w with s := s3, out := w.out ++ o, fault := e }) w
  let s1 := w1.s
  let s2 := setFlags { s1 with free := s1.free + (if f.cmd.w7 = 0 then 0 else w.cyc + 1) } b 3 w.fl
  match w1.fault with
  | some x => finishFault s2 b .XQ f.idx x
  | none => finishOut s2 b .XQ f.idx .ok (w1.out.bytes t.mat.items)

/-! ### SPAT and DELTA (R171 to R175) -/

/-- The pattern descriptor of an SPAT: n, kind, structure tensor, and whether its fields are legal (R171). -/
def patDesc (bs : List Byte) : Nat × Nat × Nat × Bool :=
  (le bs 0 2, le bs 2 1, le bs 4 4,
   2 ≤ le bs 0 2 && le bs 0 2 ≤ 64 && le bs 2 1 ≤ 1 && le bs 3 1 == 0 && (slice bs 8 120).all (· == 0))

/-- What R407 checks of an SPAT at decode. -/
def spatBad (s : State) (f : InFl) : Bool :=
  let c := f.cmd
  let bs := ((refIdx c.w1).bind (descBytes s)).getD []
  let (n, _, t, ok) := patDesc bs
  !refOk c.w1 || ((refIdx c.w1).bind (descBytes s)).isNone || bitsBad c.w2 0x3F || unusedBad c [3, 4, 5, 6, 7] || !ok ||
  (match descAt s t with
   | some d => !d.ok || d.rank != 1 || d.c 0 != n
   | none => true)

/-- The structure tensor of an SPAT. -/
def spatTensor (s : State) (f : InFl) : Desc :=
  let bs := ((refIdx f.cmd.w1).bind (descBytes s)).getD []
  let d := (descAt s (patDesc bs).2.2.1).getD (Desc.of [])
  if refAdd f.cmd.w1 then { d with base := (d.base + (f.addend 1).toNat) % 2 ^ 64, viaReg := true } else d

/-- The issue checks of an SPAT. -/
def spatIssue (s : State) (b : Blk) (f : InFl) : List Status :=
  let d := spatTensor s f
  solverCheck s b 8 1 1 d ++ (if d.fmt != .int64 || blockBad d then [.format] else [])

/-- An SPAT carried out; a fault leaves the slot empty (R176). -/
def spatRun (s : State) (b : Blk) (f : InFl) : State :=
  let bs := ((refIdx f.cmd.w1).bind (descBytes s)).getD []
  let (n, kind, _, _) := patDesc bs
  let slot := fld f.cmd.w2 0 6
  let d := spatTensor s f
  let s0 := s.updBlk b fun k => { k with slv := { k.slv with pats := k.slv.pats.erase slot } }
  withTouch s0 d.runs b .XQ f.idx fun s1 =>
    let p := mkPat n (kind == 1) ((List.range n).map fun i => BitVec.ofNat 64 (d.raw s1 i))
    finish (s1.updBlk b fun k => { k with slv := { k.slv with pats := (k.slv.pats.erase slot).ins slot p } }) b .XQ f.idx .ok

/-- What R407 checks of a DELTA at decode. -/
def deltaBad (s : State) (f : InFl) : Bool :=
  let c := f.cmd
  let l := opnd! s f 1
  refBad s c.w1 false || refBad s c.w2 false || bitsBad c.w3 0x3F || unusedBad c [4, 5, 6, 7] ||
  l.rank != 2 || l.c 0 != 16 || (opnd! s f 2).c 0 != (opnd! s f 2).c 1

/-- The 16 bytes of a delta entry. -/
def deltaEntry (s : State) (l : Desc) (i : Nat) : List Byte := rdN s (l.rowAt [i]) 16

/-- A delta entry names a position it may not, or has a reserved field set (R174). -/
def deltaEntryBad (m : Desc) (p : Pat) (e : List Byte) : Bool :=
  let item := le e 0 3
  let i := le e 4 1
  let j := le e 5 1
  m.items ≤ item || p.n ≤ i || p.n ≤ j || !bitAt p.s i j || (p.symmetric && i < j) || le e 3 1 != 0 || le e 6 2 != 0 ||
  (m.fmt == .fp32 && le e 12 4 != 0)

/-- An SPAT of the block is in flight to a slot: issued and not completed (R99). -/
def spatInFlight (s : State) (b : Blk) (slot : Nat) : Bool :=
  (s.q b .XQ).inflight.any fun f => f.cmd.opcode == 0x31 && fld f.cmd.w2 0 6 == slot

/-- A DELTA of the block that names a slot is in flight. -/
def deltaInFlight (s : State) (b : Blk) (slot : Nat) : Bool :=
  (s.q b .IQ).inflight.any fun f => f.cmd.opcode == 0x42 && fld f.cmd.w3 0 6 == slot

/-- The issue checks of a DELTA, over the whole list before any entry is applied (R121, R174, R175). -/
def deltaIssue (s : State) (b : Blk) (f : InFl) : List Status :=
  let l := opnd! s f 1
  let m := opnd! s f 2
  let slot := fld f.cmd.w3 0 6
  solverCheck s b 16 16 16 l true ++ solverCheck s b 64 (m.fmt.bits / 8) 64 m true ++
  (if spatInFlight s b slot then [.state] else []) ++
  (if l.fmt != .uint8 || !(m.fmt == .fp64 || m.fmt == .fp32) || l.ncw.scaleMode != 0 || m.ncw.scaleMode != 0
   then [.format] else []) ++
  match patOf s b slot with
  | none => [.state]
  | some p =>
    if p.n != m.c 0 then [.state]
    else if (List.range (l.c 1)).any fun i => deltaEntryBad m p (deltaEntry s l i) then [.bounds] else []

/-- The requests of a DELTA: each entry's value, from the list to its position, in list order (R174). -/
def deltaReqs (s : State) (l m : Desc) : List SReq :=
  let n := m.fmt.bits / 8
  number ((List.range (l.c 1)).map fun i =>
    let x := deltaEntry s l i
    { far := l.rowAt [i] + 8, near := m.rowAt (le x 4 1 :: batchIx m.counts (le x 0 3)) + le x 5 1 * n, bytes := n,
      nb := n, elem := i })

/-- A DELTA carried to context 14: the list is read, and its entries are written in order (R174, R176, R214). -/
def deltaRun (s : State) (b : Blk) (f : InFl) : State :=
  let l := opnd! s f 1
  withTouch s l.runs b .IQ f.idx fun s1 =>
    startStream s1 b 14 .IQ f false
      { idx := f.idx, remote := false, outbound := false, narrow := false, lc := l.lc, high := 0, low := 0, rush := 0,
        rate := 0, ringBase := 0, ringSize := 0, todo := deltaReqs s1 l (opnd! s f 2), sent := [] }

/-- SFACT: the solver engine carries out the block's first SFACT that has issued (R151 to R170). -/
def execSfact (b : Blk) (s : State) : Host.Outcome State Fault Refusal :=
  .next (engine s b .XQ 0x30 fun s f => sfactRun s b f)

/-- SPAT (R171, R172). -/
def execSpat (b : Blk) (s : State) : Host.Outcome State Fault Refusal :=
  .next (engine s b .XQ 0x31 fun s f => spatRun s b f)

/-- DELTA (R174, R175). -/
def execDelta (b : Blk) (s : State) : Host.Outcome State Fault Refusal :=
  .next (engine s b .IQ 0x42 fun s f => deltaRun s b f)

end Sys2Proof.Machine
end

