-- ==== Sys2Proof/Machine/Queue.lean ====
section
/-!
DEFINITION. The front end and the issue stage of a queue (04): tags, decode checks, the address unit, hardware loops,
waits, issue checks; the rows NOP, END, STEP, LOOP, AOP, LDA, COMMAND_ISSUE and COMMAND_COMPLETE.
-/
namespace Sys2Proof.Machine

/-! ### What a queue may take next -/

/-- The arithmetic of the node runs its queues: the job runs past T_go, the node is in RUN or HOLDING, its compute
clocks run (04, 11 R289, 15 R379). -/
def nodeIssues (s : State) : Bool :=
  s.job.phase == .running && s.job.started && (s.hold.state == .run || s.hold.state == .holding) &&
  !s.pwr.clocksStopped

/-- A command that holds back every later command of its queue until it ends: WAITV, WAITT and the waits of HEDGE
(R111, 09). -/
def holdsBack (f : InFl) : Bool := (f.cmd.opcode == 0x61 || f.cmd.opcode == 0x62 || f.cmd.opcode == 0x64) && f.done.isNone

/-- A queue takes its next command: it runs, it holds fewer than 512 commands, nothing of it was refused or failed, and
nothing holds it back (R99). -/
def canTake (s : State) (b : Blk) (q : Qc) : Bool :=
  let u := s.q b q
  nodeIssues s && u.state == .run && decide (u.inflight.length < 512) && !queueBad u && !u.inflight.any holdsBack

/-- The command at a queue's fetch point. -/
def fetched (s : State) (b : Blk) (q : Qc) : Option Cmd := (s.q b q).stream[(s.q b q).pc]?

/-- The running counters L0 to L3, outermost first (R114). -/
def loopCounts (u : Queue) : List Nat :=
  let l := (u.loops.map LoopLevel.running).reverse
  (List.range 4).map fun i => l.getD i 0

/-- The command in flight that a queue's next command becomes: its addends and loop counters are those of its decode
(R112, R115). -/
def mkInFl (s : State) (b : Blk) (q : Qc) (c : Cmd) : InFl :=
  let u := s.q b q
  { idx := u.serial, pos := u.pc, cmd := c, loops := loopCounts u,
    addends := (List.range 5).map fun i =>
      if refAdd (c.w (i + 1)) then u.aregs.get 0 (refReg (c.w (i + 1))) else 0 }

/-- The loop levels and the fetch point after a command, once every body that ends there has run its next iteration or
closed (R114, R115). -/
def advance : List LoopLevel → Nat → List LoopLevel × Nat
  | [], pc => ([], pc)
  | l :: ls, pc =>
    if pc = l.start + l.len then
      if l.running + 1 < l.count then ({ l with running := l.running + 1 } :: ls, l.start) else advance ls pc
    else (l :: ls, pc)

/-- The queue past its next command. -/
def Queue.past (u : Queue) : Queue :=
  let (ls, pc) := advance u.loops (u.pc + 1)
  { u with loops := ls, pc := pc }

/-- A command enters the flight, numbered, and the fetch point moves past it. -/
def pushNext (s : State) (b : Blk) (q : Qc) (f : InFl) : State :=
  s.updQ b q fun u => { u.past with serial := u.serial + 1, inflight := u.inflight ++ [f] }

/-- The next command ends at once with a status: it stands in flight, finished, and is completed, or halts the queue, when
every earlier command has completed (R99, R121). -/
def endNext (s : State) (b : Blk) (q : Qc) (c : Cmd) (st : Status) (code : Option ErrCode := none)
    (npa : Option Nat := none) : State :=
  pushNext s b q { mkInFl s b q c with started := true, done := some st, err := code, npa := npa }

/-! ### Decode checks (R407) -/

/-- What R407 checks of a header: the queue field, the reserved bits, and a wait on or a post to the own queue. -/
def hdrBad (c : Cmd) (q : Qc) : Bool :=
  c.queueField != q.code || fld c.hdr 14 2 != 0 || fld c.hdr 26 6 != 0 ||
  c.waitQueues.testBit q.code || c.postQueues.testBit q.code

/-- LOOP, AOP and END wait on nothing, post nothing, and carry neither mark nor notify (R115). -/
def quietBad (c : Cmd) : Bool := c.waitCount != 0 || c.waitQueues != 0 || c.postQueues != 0 || c.mark || c.notify

/-- No operand word is used (R106). -/
def noOperands (c : Cmd) : Bool := !unusedBad c [1, 2, 3, 4, 5, 6, 7]

/-- An opcode stands in a queue that Table 04.7 lists for it. -/
def opcodeIn (op : Nat) (q : Qc) : Bool :=
  match q with
  | .TQ => op == 0x10 || op == 0x11
  | .VQ => 0x20 ≤ op && op ≤ 0x24
  | .XQ => op == 0x30 || op == 0x31
  | .IQ => 0x40 ≤ op && op ≤ 0x43
  | .OQ => 0x50 ≤ op && op ≤ 0x57
  | .CQ => 0x60 ≤ op && op ≤ 0x64

/-! ### Hardware loops -/

/-- A LOOP's operand words break Table 04.7. -/
def loopWordsBad (c : Cmd) : Bool :=
  bitsBad c.w1 0xFFFF_FFFF || bitsBad c.w2 0x1F || bitsBad c.w3 0xFFFF || unusedBad c [4, 5, 6, 7]

/-- A LOOP is a fifth level, or its body runs past the stream, END or the enclosing body (R114). -/
def loopNestBad (u : Queue) (c : Cmd) : Bool :=
  let len := fld c.w3 0 16
  let e := u.pc + 1 + len
  4 ≤ u.loops.length || u.stream.length < e ||
  ((u.stream.drop (u.pc + 1)).take len).any (fun x => x.opcode == 0x01) ||
  (match u.loops with
   | l :: _ => decide (l.start + l.len < e)
   | [] => false)

/-- What R407 checks of a LOOP: its words, its depth, and its body against the stream, END and the enclosing body. -/
def loopBad (u : Queue) (c : Cmd) : Bool := quietBad c || loopWordsBad c || loopNestBad u c

/-- The count of a LOOP, read once at its decode (R115). -/
def loopCount (u : Queue) (c : Cmd) : Nat :=
  if wbit c.w2 4 then (u.aregs.get 0 (fld c.w2 0 4)).toNat else fld c.w1 0 32

/-- LOOP opens a level, or skips its body (R114, R115). -/
def openLoop (u : Queue) (c : Cmd) : Queue :=
  let len := fld c.w3 0 16
  let n := loopCount u c
  if n = 0 ∨ len = 0 then
    let (ls, pc) := advance u.loops (u.pc + 1 + len)
    { u with loops := ls, pc := pc }
  else { u with loops := ⟨u.pc + 1, len, n, 0⟩ :: u.loops, pc := u.pc + 1 }

/-! ### The address unit -/

/-- Fields of an address-unit instruction, Table 04.8. -/
def aopCode (w : W64) : Nat := fld w 0 8
def aopRd (w : W64) : Nat := fld w 8 5
def aopRs1 (w : W64) : Nat := fld w 13 5
def aopRs2 (w : W64) : Nat := fld w 18 5
def aopImm (w : W64) : W64 := BitVec.ofInt 64 (sx 40 (fld w 24 40))

/-- An address-unit instruction has a destination code of 16 or more (R112). -/
def aopRdBad (w : W64) : Bool := 16 ≤ aopRd w

/-- An address-unit instruction has an operation outside Table 04.9 or a reserved source code. What a reserved source code
does is not given. The model refuses one in rs1 of every operation but NOP, LI among them, and one in rs2 where the
operation reads rs2: not with imm = 1, nor in LI or LDA (R112; DESIGN CHOICE, log 68). -/
def aopCodeBad (w : W64) : Bool :=
  aopCode w != 0 &&
  (0x0C < aopCode w || 20 ≤ aopRs1 w || (!wbit w 23 && aopCode w != 0x0B && aopCode w != 0x0C && 20 ≤ aopRs2 w))

/-- What R407 checks of an address-unit instruction: its operation, its destination and its source codes. -/
def aopBad (w : W64) : Bool := aopRdBad w || aopCodeBad w

/-- The value of a source code: an address register, or the running counter of an active loop level (R112). -/
def aopSrc (u : Queue) (a : SMap W64) (code : Nat) : W64 :=
  if code < 16 then a.get 0 code else BitVec.ofNat 64 ((loopCounts u).getD (code - 16) 0)

/-- The operations of Table 04.9 but for LDA, modulo 2^64; a shift takes the low 7 bits of its second operand (R112). -/
def aopAlu (op : Nat) (x y : W64) : W64 :=
  let n := y.toNat % 128
  match op with
  | 0x01 => x + y
  | 0x02 => x - y
  | 0x03 => x <<< n
  | 0x04 => x >>> n
  | 0x05 => x.sshiftRight n
  | 0x06 => x * y
  | 0x07 => if x.slt y then x else y
  | 0x08 => if x.slt y then y else x
  | 0x09 => if x.slt y then 1 else 0
  | 0x0A => if x = y then 1 else 0
  | _ => y

/-- The address of an LDA (Table 04.9). -/
def ldaAddr (u : Queue) (a : SMap W64) (w : W64) : Nat := (aopSrc u a (aopRs1 w) + aopImm w).toNat

/-- An LDA reads 8 bytes inside a buffer with read access, in the block's own store or in node memory (R113). -/
def ldaOk (s : State) (b : Blk) (npa : Nat) : Bool :=
  ((s.job.image.map Image.bufs).getD []).any fun f =>
    f.access.testBit 0 && f.base ≤ npa && npa + 8 ≤ f.base + f.size &&
    (f.kind == 0 || (f.kind == 1 && (match place s npa with
      | .block r k _ => r == b.region.toNat && k == b.block.toNat
      | _ => false)))

/-- The address registers after the words of an AOP in order, with the state after the lines they read; or the refusal
or fault that stops it, with no register changed (R112, R113). -/
def aopWords (b : Blk) (u : Queue) : List W64 → State → SMap W64 →
    State × Sum (SMap W64) (Status × Option ErrCode × Option Nat)
  | [], s, a => (s, .inl a)
  | w :: ws, s, a =>
    let op := aopCode w
    if op = 0 then aopWords b u ws s a
    else if op = 0x0C then
      let npa := ldaAddr u a w
      if npa % 8 ≠ 0 then (s, .inr (.align, none, some npa))
      else if !ldaOk s b npa then (s, .inr (.bounds, none, some npa))
      else
        match touch s [⟨npa, 8⟩] with
        | (t, some (st, code, at_)) => (t, .inr (st, some code, some at_))
        | (t, none) => aopWords b u ws t (SMap.set 0 a (aopRd w) (BitVec.ofNat 64 (rdW t npa 8)))
    else if op = 0x0B then aopWords b u ws s (SMap.set 0 a (aopRd w) (aopImm w))
    else
      let y := if wbit w 23 then aopImm w else aopSrc u a (aopRs2 w)
      aopWords b u ws s (SMap.set 0 a (aopRd w) (aopAlu op (aopSrc u a (aopRs1 w)) y))

/-- The seven operand words. -/
def Cmd.words (c : Cmd) : List W64 := [c.w1, c.w2, c.w3, c.w4, c.w5, c.w6, c.w7]

/-- An AOP holds an LDA. -/
def hasLda (c : Cmd) : Bool := c.words.any fun w => aopCode w == 0x0C

/-! ### Issue -/

/-- What R407 checks of a command for an engine or unit. -/
def cmdBad (s : State) (f : InFl) : Bool :=
  match f.cmd.opcode with
  | 0x10 => tmulBad s f
  | 0x11 => tscanBad s f
  | 0x20 => vopBad s f
  | 0x21 => vredBad s f
  | 0x22 => vcompBad s f
  | 0x23 => vexpBad s f
  | 0x24 => vconvBad s f
  | 0x30 => sfactBad s f
  | 0x31 => spatBad s f
  | 0x40 => streamBad s f true
  | 0x50 => streamBad s f false
  | 0x41 => rowsBad s f true
  | 0x51 => rowsBad s f false
  | 0x42 => deltaBad s f
  | 0x43 | 0x52 | 0x53 | 0x54 | 0x55 => rmtBad s f
  | 0x56 => collBad s f
  | 0x57 => panBad s f
  | _ => cqBad s f

/-- The refusals that the checks of Table 04.11 give a command. -/
def cmdIssue (s : State) (b : Blk) (f : InFl) : List Status :=
  match f.cmd.opcode with
  | 0x10 => tmulIssue s b f
  | 0x11 => tscanIssue s b f
  | 0x20 => vopIssue s b f
  | 0x21 => vredIssue s b f
  | 0x22 => vcompIssue s b f
  | 0x23 => vexpIssue s b f
  | 0x24 => vconvIssue s b f
  | 0x30 => sfactIssue s b f
  | 0x31 => spatIssue s b f
  | 0x40 => streamIssue s b f true
  | 0x50 => streamIssue s b f false
  | 0x41 => rowsIssue s b f true
  | 0x51 => rowsIssue s b f false
  | 0x42 => deltaIssue s b f
  | 0x43 | 0x52 | 0x53 | 0x54 | 0x55 => rmtIssue s b f
  | 0x56 => collIssue s b f
  | 0x57 => panIssue s b f
  | _ => cqIssue s b f

/-- A command waits at issue for its stream context, which an earlier command that has not completed still holds (08
R214). -/
def ctxBusy (s : State) (b : Blk) (c : Cmd) : Bool :=
  match c.ctx with
  | some n => [Qc.IQ, Qc.OQ].any fun q => (s.q b q).inflight.any fun f => f.cmd.ctx == some n
  | none => false

/-- A command waits at issue for its engine: SFACT and SPAT start with the solver idle (06 R151), an SPAT waits while a
DELTA of its slot is in flight (06 R175), and a COLL for entries of the brine table (09 R255). -/
def unitBusy (s : State) (b : Blk) (q : Qc) (f : InFl) : Bool :=
  match f.cmd.opcode with
  | 0x30 => !(s.q b q).inflight.isEmpty
  | 0x31 => !(s.q b q).inflight.isEmpty || deltaInFlight s b (fld f.cmd.w2 0 6)
  | 0x56 => collWaits s f
  | _ => false

/-- What R407 checks of the next command, by its opcode. -/
def decodeBad (s : State) (b : Blk) (q : Qc) (c : Cmd) : Bool :=
  hdrBad c q ||
  match c.opcode with
  | 0x00 | 0x02 => !noOperands c
  | 0x01 => !noOperands c || quietBad c
  | 0x03 => loopBad (s.q b q) c
  | 0x04 => quietBad c || c.words.any aopBad
  | op => !opcodeIn op q || cmdBad s (mkInFl s b q c)

/-- The wait's events are consumed (R102). -/
def consumed (s : State) (b : Blk) (q : Qc) (c : Cmd) : State := s.updBlk b fun k => consume k q c

/-- The next command of a queue, if it is of the kind `mine`, is taken. A wrong tag halts the queue (R105). Once its wait
is met its events are consumed, and a decode check that fails refuses it with VERIFY (R407, R122), as a block that is not
in service does with ABSENT (R3, R28); else it is `run`, once `busy` no longer holds it at issue. -/
def frontEnd (s : State) (b : Blk) (q : Qc) (mine busy : Cmd → Bool) (run : State → Cmd → State) : State :=
  match fetched s b q with
  | none => s
  | some c =>
    if !canTake s b q || !mine c then s
    else if !tagOk s c then endNext s b q c .verify (some .tagMismatch)
    else if !waitMet (s.blk b) q c then s
    else if decodeBad s b q c then endNext (consumed s b q c) b q c .verify
    else if !blockLive s b then endNext (consumed s b q c) b q c .absent
    else if busy c then s
    else run (consumed s b q c) c

/-! ### NOP, END, STEP -/

/-- A command is held at issue by nothing but its wait. -/
def freely (_ : Cmd) : Bool := false

/-- NOP completes at issue (Table 04.7). -/
def execNop (b : Blk) (q : Qc) (s : State) : Host.Outcome State Fault Refusal :=
  .next (frontEnd s b q (fun c => c.opcode == 0x00) freely fun t c => endNext t b q c .ok)

/-- END stops the queue (R100). -/
def execEndCmd (b : Blk) (q : Qc) (s : State) : Host.Outcome State Fault Refusal :=
  .next (frontEnd s b q (fun c => c.opcode == 0x01) freely fun t _ => t.updQ b q fun u => { u with state := .endd })

/-- STEP completes at issue, and the queue issues nothing further until the node's step boundary (R116). -/
def execStepCmd (b : Blk) (q : Qc) (s : State) : Host.Outcome State Fault Refusal :=
  .next (frontEnd s b q (fun c => c.opcode == 0x02) freely fun t c =>
    (endNext t b q c .ok).updQ b q fun u => { u with state := .step })

/-! ### LOOP and AOP -/

/-- LOOP: a count above 32 bits halts the queue with BOUNDS (R114, R115). -/
def execLoop (b : Blk) (q : Qc) (s : State) : Host.Outcome State Fault Refusal :=
  .next (frontEnd s b q (fun c => c.opcode == 0x03) freely fun t c =>
    if 0xFFFF_FFFF < loopCount (t.q b q) c then endNext t b q c .bounds
    else t.updQ b q fun u => openLoop u c)

/-- An AOP is executed at decode: its words change the address registers, or it halts the queue (R112, R113). -/
def runAop (s : State) (b : Blk) (q : Qc) (c : Cmd) : State :=
  match aopWords b (s.q b q) c.words s (s.q b q).aregs with
  | (t, .inl a) => t.updQ b q fun u => { u.past with aregs := a }
  | (t, .inr (st, code, npa)) => endNext t b q c st code npa

/-- AOP without an LDA (R112). -/
def execAop (b : Blk) (q : Qc) (s : State) : Host.Outcome State Fault Refusal :=
  .next (frontEnd s b q (fun c => c.opcode == 0x04 && !hasLda c) freely fun t c => runAop t b q c)

/-- AOP with an LDA: decoded only after every earlier command of its queue has completed (R113). -/
def execLda (b : Blk) (q : Qc) (s : State) : Host.Outcome State Fault Refusal :=
  .next (frontEnd s b q (fun c => c.opcode == 0x04 && hasLda c) (fun _ => !(s.q b q).inflight.isEmpty)
    fun t c => runAop t b q c)

/-! ### Commands for an engine or unit -/

/-- The context of a stream command takes its queue and its label (08 STM_CTX_STATUS). -/
def ctxTake (s : State) (b : Blk) (q : Qc) (c : Cmd) : State :=
  match c.ctx with
  | some n => s.setCtx b n { s.ctx b n with oq := q == .OQ, label := BitVec.ofNat 10 c.label }
  | none => s

/-- What the issue of a command enters in the tables of the node: the stacks a PANOP works in, the brine areas of a COLL
(07 R196, 09 R255). -/
def enterTables (s : State) (b : Blk) (f : InFl) : State × InFl :=
  match f.cmd.opcode with
  | 0x56 => (collRegister s b f, f)
  | 0x57 => panAtIssue s f
  | _ => (s, f)

/-- A command whose events are consumed issues: the checks of Table 04.11 refuse it, or it enters the flight (R121). -/
def issueCmd (s : State) (b : Blk) (q : Qc) (c : Cmd) : State :=
  let f := mkInFl s b q c
  match Status.first (cmdIssue s b f) with
  | some st => endNext s b q c st
  | none =>
    let (t, g) := enterTables s b f
    pushNext (ctxTake t b q c) b q g

/-- The next command of a queue, one for an engine or unit, is taken; a fetch past the stream's end is refused with VERIFY
(R99, R110, R121, R407). -/
def takeCmd (s : State) (b : Blk) (q : Qc) : State :=
  if (fetched s b q).isNone && canTake s b q then endNext s b q (Cmd.ofBytes []) .verify
  else frontEnd s b q (fun c => 0x05 ≤ c.opcode) (fun c => ctxBusy s b c || unitBusy s b q (mkInFl s b q c))
    fun t c => issueCmd t b q c

/-- COMMAND_ISSUE (R99, R121). -/
def execCommandIssue (b : Blk) (q : Qc) (s : State) : Host.Outcome State Fault Refusal := .next (takeCmd s b q)

/-- COMMAND_COMPLETE (R99, R102, R103, R330). -/
def execCommandComplete (b : Blk) (q : Qc) (s : State) : Host.Outcome State Fault Refusal := .next (completeHead s b q)

end Sys2Proof.Machine
end

