-- ==== Sys2Proof/Machine/Finuth.lean ====
section
/-!
DEFINITION. Finuth images (04 R96 to R98, R109, R405; 06 R171; 09 R238; 10 R269; 12 R301): the header, the sections and
what each holds, the image as the node keeps it, and the tags of its commands (R105).
-/
namespace Sys2Proof.Machine

/-! ### Header and sections (R96) -/

/-- An entry of the section table with its section's bytes, Table 04.1. -/
structure Sect where
  no : Nat
  type : Nat
  queue : Nat
  region : Nat
  block : Nat
  off : Nat
  count : Nat
  /-- the reserved bytes are zero, and the section lies in the image on a multiple of 64 -/
  ok : Bool
  data : List Byte
deriving DecidableEq, Repr, Inhabited

/-- Every byte of a range is zero. -/
def isZero (bs : List Byte) (off len : Nat) : Bool := (slice bs off len).all (· == 0)

/-- The entry `i` of the section table. -/
def sectOf (bs : List Byte) (i : Nat) : Sect :=
  let o := 64 + 32 * i
  let at_ := le bs (o + 8) 8
  let len := le bs (o + 16) 8
  { no := i, type := le bs o 1, queue := le bs (o + 1) 1, region := le bs (o + 2) 1, block := le bs (o + 3) 1
    off := at_, count := le bs (o + 24) 4
    ok := isZero bs (o + 4) 4 && isZero bs (o + 28) 4 && at_ % 64 == 0 && decide (at_ + len ≤ bs.length)
    data := (bs.drop at_).take len }

/-- The section table lies in the image. -/
def tableFits (bs : List Byte) : Bool := 64 + 32 * le bs 10 2 ≤ bs.length

/-- The sections. -/
def sectsOf (bs : List Byte) : List Sect := if tableFits bs then (List.range (le bs 10 2)).map (sectOf bs) else []

/-- The header follows Table 04.1, member and grades apart. -/
def headerOk (bs : List Byte) : Bool :=
  64 ≤ bs.length && le bs 0 4 == 0x48544E46 && le bs 4 2 == 3 && le bs 6 1 == 3 && le bs 9 1 >>> 2 == 0 &&
  isZero bs 12 52 && tableFits bs

/-- The first section of a type. -/
def theSect (l : List Sect) (type : Nat) : Option Sect := l.find? fun x => x.type == type

/-- The bytes of the section of a type, none when there is no such section. -/
def sectData (l : List Sect) (type : Nat) : List Byte := ((theSect l type).map Sect.data).getD []

/-! ### INIT (R405) -/

/-- An INIT entry. -/
structure InitEnt where
  buffer : Nat
  off : Nat
  len : Nat
  /-- 0 for inline bytes, else the pattern's bytes -/
  pat : Nat
  body : List Byte
deriving DecidableEq, Repr, Inhabited

/-- The bytes that an entry writes. -/
def InitEnt.bytes (e : InitEnt) : List Byte :=
  if e.pat = 0 then e.body.take e.len else (List.range e.len).map fun j => e.body.getD (j % e.pat) 0

/-- `n` INIT entries that fill the bytes exactly; none where they are malformed. -/
def initsOf : Nat → List Byte → Option (List InitEnt)
  | 0, bs => if bs.isEmpty then some [] else none
  | n + 1, bs =>
    let mode := le bs 2 1
    let pat := le bs 3 1
    let len := le bs 16 8
    let size := if mode = 0 then cdiv len 8 * 8 else 8
    let body := slice bs 24 size
    if bs.length < 24 + size ∨ isZero bs 4 4 = false ∨ 1 < mode ∨ (mode = 0 ∧ pat ≠ 0) ∨
        (mode = 1 ∧ (¬pat ∈ [1, 2, 4, 8] ∨ isZero body pat (8 - pat) = false)) ∨
        (mode = 0 ∧ isZero body len (size - len) = false) then none
    else (initsOf n (bs.drop (24 + size))).map fun l =>
      { buffer := le bs 0 2, off := le bs 8 8, len := len, pat := pat, body := body } :: l

/-! ### Buffers, hedges, patterns, state set -/

/-- A buffer-table entry, and whether its own fields are legal. -/
def bufEntry (d : List Byte) (i : Nat) : Buf × Bool :=
  let o := 32 * i
  ({ base := le d o 8, size := le d (o + 8) 8, id := le d (o + 16) 2, kind := le d (o + 18) 1, access := le d (o + 19) 1
     arrival := le d (o + 20) 8 },
   decide (le d (o + 18) 1 ≤ 4) && le d (o + 19) 1 >>> 3 == 0 && isZero d (o + 28) 4)

/-- A hedge declaration, and whether it follows Table 09.1 in its own fields. -/
def hedgeEntry (d : List Byte) (i : Nat) : HedgeDecl × Bool :=
  let o := 64 * i
  let size := le d (o + 4) 4
  let at_ := le d (o + 8) 8
  let ids := if at_ + 4 * size ≤ d.length then (List.range size).map fun j => le d (at_ + 4 * j) 4 else []
  let h : HedgeDecl :=
    { id := le d o 2, arity := le d (o + 2) 1, access := le d (o + 3) 1, members := ids.map (BitVec.ofNat 20)
      window := le d (o + 16) 2, remote := le d (o + 18) 2, workOff := le d (o + 20) 8, workLen := le d (o + 28) 8 }
  (h, h.id != 0xFFFF && decide (2 ≤ h.arity) && decide (h.arity ≤ 16) && h.access >>> 4 == 0 && decide (1 ≤ size) &&
    decide (size ≤ 2 ^ 20) && ids.length == size && (ids.all fun v => decide (v < 2 ^ 20)) &&
    h.members.eraseDups.length == size && h.workOff % 64 == 0 && h.workLen % 64 == 0 && isZero d (o + 36) 28)

/-- `n` entries of a PATTERNS section: slot, order, kind, rows; none where one breaks R171. -/
def patsOf : Nat → List Byte → Option (List (Nat × Nat × Bool × List W64))
  | 0, bs => if bs.isEmpty then some [] else none
  | k + 1, bs =>
    let h := le bs 0 8
    let n := nfld h 16 7
    if bs.length < 8 + 8 * n ∨ n < 2 ∨ 64 < n ∨ nfld h 6 2 ≠ 0 ∨ nfld h 9 7 ≠ 0 ∨ h >>> 23 ≠ 0 then none
    else (patsOf k (bs.drop (8 + 8 * n))).map fun l =>
      (nfld h 0 6, n, h.testBit 8, (List.range n).map fun i => BitVec.ofNat 64 (le bs (8 + 8 * i) 8)) :: l

/-- A STATESET section follows Table 12.1 for a hedge 0 of `size` members. -/
def stateSetOk (d : List Byte) (size : Nat) : Bool :=
  let cnt := le d 12 4
  128 ≤ d.length && d.length == 128 + 32 * cnt && le d 0 4 ≤ 1000000 && le d 8 1 >>> 1 == 0 && isZero d 9 1 &&
  isZero d 16 48 && ((le d 8 1).testBit 0 || isZero d 64 64) && 1 ≤ le d 4 4 && le d 4 4 + 1 ≤ size &&
  (List.range cnt).all fun i =>
    let o := 128 + 32 * i
    isZero d (o + 2) 6 && isZero d (o + 24) 8 && le d (o + 8) 8 % 64 == 0 && le d (o + 16) 8 % 64 == 0

/-- The state set of a STATESET section. -/
def stateSetOf (d : List Byte) : StateSet :=
  { k := le d 0 4, buddy := le d 4 4, compatT2 := (le d 8 1).testBit 0, adopt := le d 10 2
    entries := (List.range (le d 12 4)).map fun i =>
      let o := 128 + 32 * i
      { buffer := le d o 2, offset := le d (o + 8) 8, length := le d (o + 16) 8 }
    t2digest := slice d 64 64 }

/-! ### Commands and their tags (R105) -/

/-- The commands of a COMMANDS section. -/
def cmdsOf (x : Sect) : List Cmd := (List.range (x.data.length / 64)).map fun i => Cmd.ofBytes (slice x.data (64 * i) 64)

/-- A command with its tag written for a load generation. -/
def Cmd.tagged (c : Cmd) (gen : Byte) : Cmd :=
  let h := c.hdr &&& 0x0000FFFFFFFFFFFF ||| gen.setWidth 64 <<< 48
  let d := { c with hdr := h }
  { d with hdr := h ||| d.tag.setWidth 64 <<< 56 }

/-- The generation after one: it skips 0. -/
def nextGen (g : Byte) : Byte := if g = 0xFF then 1 else g + 1

/-! ### The image -/

/-- The bytes over which a section's digest is taken: bytes 6 and 7 of every command count as zero (R97). -/
def digested (x : Sect) : List Byte :=
  if x.type = 1 then x.data.zipIdx.map fun e => if e.2 % 64 = 6 ∨ e.2 % 64 = 7 then 0 else e.1 else x.data

/-- The image digest: of the MANIFEST section (R97). -/
def imageDigest (bs : List Byte) : List Byte := shake256 (sectData (sectsOf bs) 9)

/-- The INIT entries of an image. -/
def imageInits (bs : List Byte) : List InitEnt :=
  match theSect (sectsOf bs) 7 with
  | some x => (initsOf x.count x.data).getD []
  | none => []

/-- INIT entries are applied in section order; a buffer's own extent bounds each (R405). -/
def applyInits (s : State) (bufs : List Buf) (l : List InitEnt) : State :=
  l.foldl (fun t e => match bufs.find? fun b => b.id == e.buffer with
    | some b => if e.off + e.len ≤ b.size then wrN t (b.base + e.off) e.bytes else t
    | none => t) s

/-- The buffer of the field-core start table. -/
def startId : Nat := 0xFFFE

/-- The 32-byte entries of the start table as they stand in memory (10 R269). -/
def startRaw (s : State) (bufs : List Buf) : List (List Byte) :=
  match bufs.find? fun b => b.id == startId with
  | some b => (List.range (b.size / 32)).map fun i => rdN s (b.base + 32 * i) 32
  | none => []

/-- The image as the node keeps it; `s` is the node with the INIT entries applied. The pattern slots of a PATTERNS
section are filled in every block, since an entry names none (06 R171; log 40). -/
def imageOf (s : State) (bs : List Byte) : Image :=
  let l := sectsOf bs
  let n := fun (t : Nat) => ((theSect l t).map Sect.count).getD 0
  let bufs := (List.range (n 3)).map fun i => (bufEntry (sectData l 3) i).1
  { det := (le bs 9 1).testBit 0, pleach := (le bs 9 1).testBit 1, digest := imageDigest bs, bufs := bufs
    descs := (List.range (n 2)).map fun i => slice (sectData l 2) (128 * i) 128
    hedges := (List.range (n 5)).map fun i => (hedgeEntry (sectData l 5) i).1
    stateset := (theSect l 8).map fun x => stateSetOf x.data
    starts := (startRaw s bufs).map fun e =>
      { core := le e 0 1, thread := le e 1 1, entry := BitVec.ofNat 64 (le e 8 8), arg := BitVec.ofNat 64 (le e 16 8) }
    pats := ((patsOf (n 6) (sectData l 6)).getD []).flatMap fun p =>
      (gradeBlocks s).map fun b => (b.key, p.1, mkPat p.2.1 p.2.2.1 p.2.2.2)
    plan := (theSect l 4).bind fun x => Config.planOfExchange x.data }

end Sys2Proof.Machine
end

