-- ==== Sys2Proof/Machine/Verify.lean ====
section
/-!
DEFINITION. The verifier (04 R117, Table 04.10), its first part: the checks of an image as a whole and of its sections
(IMAGE, MEMBER, DIGEST, ABSENT, BUFFER, HEDGE, PATTERN, PLAN, INIT, the start table), and the checks of each command by
itself.
-/
namespace Sys2Proof.Machine

/-! ### Offences (R120) -/

/-- The value of an index field that names nothing. -/
def noIdx : Nat := 0xFFFF_FFFF

/-- An offence of the image as a whole. -/
def offI (reason : Nat) : Offence := ⟨reason, 0xFF, 0, 0, noIdx, noIdx⟩

/-- An offence of a section. -/
def offS (reason : Nat) (x : Sect) : Offence :=
  if x.type = 1 then ⟨reason, x.queue, x.region, x.block, noIdx, x.no⟩ else ⟨reason, 0xFF, 0, 0, noIdx, x.no⟩

/-- An offence of the image that lies in a section. -/
def offT (reason : Nat) (x : Sect) : Offence := { offI reason with sect := x.no }

/-- An offence of a command of a section. -/
def offC (reason : Nat) (x : Sect) (i : Nat) : Offence := { offS reason x with idx := i }

/-- An offence where a condition holds. -/
def offIf (c : Bool) (o : Offence) : List Offence := if c then [o] else []

/-! ### IMAGE, MEMBER, DIGEST, ABSENT of sections (R96 to R98, R301, R405) -/

/-- The hedge declarations of an image. -/
def declsOf (l : List Sect) : List HedgeDecl :=
  match theSect l 5 with
  | some x => if 64 * x.count ≤ x.data.length then (List.range x.count).map fun i => (hedgeEntry x.data i).1 else []
  | none => []

/-- The buffer table of an image. -/
def bufsOf (l : List Sect) : List Buf :=
  match theSect l 3 with
  | some x => (List.range x.count).map fun i => (bufEntry x.data i).1
  | none => []

/-- A section's entry or its own contents break Table 04.1, Table 04.2, R301 or R405. -/
def sectBad (l : List Sect) (count : Nat) (x : Sect) : Bool :=
  !x.ok || x.type == 0 || 9 < x.type || (if x.type = 1 then 5 < x.queue else x.queue != 0xFF) ||
  (match x.type with
   | 1 => x.data.length != 64 * x.count
   | 2 => x.data.length != 128 * x.count
   | 3 => x.data.length != 32 * x.count
   | 5 => decide (x.data.length < 64 * x.count)
   | 7 => (initsOf x.count x.data).isNone
   | 8 => !stateSetOk x.data ((((declsOf l).find? fun d => d.id == 0).map fun d => d.members.length).getD 0)
   | 9 => x.data.length != 64 * count
   | _ => false) ||
  (l.take x.no).any fun y => y.type == x.type &&
    (x.type != 1 || (y.queue == x.queue && y.region == x.region && y.block == x.block))

/-- The IMAGE offences (R96, R98, R405). -/
def imageOffences (bs : List Byte) : List Offence :=
  if !headerOk bs then [offI 0x01]
  else
    let l := sectsOf bs
    offIf (theSect l 9).isNone (offI 0x01) ++ (l.filter (sectBad l l.length)).map (offT 0x01)

/-- The MEMBER offence (R96). -/
def memberOffences (s : State) (bs : List Byte) : List Offence :=
  let bit := match s.fuses.grade with | .A => 0 | .B => 1
  offIf (le bs 7 1 != 3 || !(le bs 8 1).testBit bit) (offI 0x02)

/-- The DIGEST offences: each section's digest in table order, and the final one of header and table (R97). -/
def digestOffences (bs : List Byte) : List Offence :=
  let l := sectsOf bs
  let man := sectData l 9
  let others := l.filter fun x => x.type != 9
  (others.zipIdx.filter fun e => shake256 (digested e.1) != slice man (64 * e.2) 64).map (fun e => offT 0x03 e.1) ++
  offIf (shake256 (bs.take (64 + 32 * l.length)) != slice man (64 * others.length) 64) (offI 0x03)

/-- The block of a COMMANDS section. -/
def sectBlk (x : Sect) : Blk := ⟨BitVec.ofNat 2 x.region, BitVec.ofNat 6 x.block⟩

/-- A COMMANDS section names a block that is not live (R4, R28). -/
def sectAbsent (s : State) (x : Sect) : Bool := x.type == 1 && !(x.region < 4 && x.block < 64 && blockLive s (sectBlk x))

/-! ### Buffers (R109) -/

/-- A range of bytes lies in one mapped range of a kind; for a block store of a dead block, ABSENT. -/
def kindRange (s : State) (b : Buf) : List Nat :=
  let inRange := match rangeEnd s.ncr.cellarGib b.base with
    | some e => decide (b.base + b.size ≤ e)
    | none => false
  match b.kind, place s b.base with
  | 0, .mem _ _ => if inRange then [] else [0x08]
  | 1, .block r k _ =>
    if !blockLive s ⟨BitVec.ofNat 2 r, BitVec.ofNat 6 k⟩ then [0x04] else if inRange then [] else [0x08]
  | 2, .rstore _ _ => if inRange then [] else [0x08]
  | 3, .host _ => if inRange then [] else [0x08]
  | _, _ => [0x08]

/-- A remote-window buffer has base 0 and the size of the window of every hedge that names it (R109). -/
def remoteSizeOk (decls : List HedgeDecl) (bufs : List Buf) (b : Buf) : Bool :=
  b.base == 0 && (decls.filter fun d => d.remote == b.id).all fun d =>
    match bufs.find? fun x => x.id == d.window with
    | some x => x.kind != 0 || x.size == b.size
    | none => true

/-- What is wrong with entry `i` of the buffer table. -/
def bufReasons (s : State) (decls : List HedgeDecl) (bufs : List Buf) (data : List Byte) (i : Nat) : List Nat :=
  let (b, ok) := bufEntry data i
  let before := bufs.take i
  if !ok || before.any (fun y => y.id == b.id) then [0x08]
  else if b.kind = 4 then (if remoteSizeOk decls bufs b then [] else [0x08])
  else kindRange s b ++
    (if before.any fun y => y.kind != 4 && b.base < y.base + y.size && y.base < b.base + b.size then [0x08] else [])

/-- The BUFFER and ABSENT offences of the buffer table. -/
def bufferOffences (s : State) (l : List Sect) : List Offence :=
  match theSect l 3 with
  | some x => (List.range x.count).flatMap fun i => (bufReasons s (declsOf l) (bufsOf l) x.data i).map fun r => offS r x
  | none => []

/-! ### INIT and the start table (R405, R269) -/

/-- What is wrong with an INIT entry against the buffers. -/
def initReasons (s : State) (bufs : List Buf) (e : InitEnt) : List Nat :=
  match bufs.find? fun b => b.id == e.buffer with
  | none => [0x08]
  | some b =>
    if 3 ≤ b.kind then [0x08]
    else if kindRange s b == [0x04] then [0x04]
    else if e.len ≠ 0 ∧ b.size < e.off + e.len then [0x09]
    else []

/-- The offences of the INIT section. -/
def initOffences (s : State) (l : List Sect) : List Offence :=
  match theSect l 7 with
  | some x => (((initsOf x.count x.data).getD []).flatMap (initReasons s (bufsOf l))).map fun r => offS r x
  | none => []

/-- What is wrong with entry `i` of the start table. -/
def startReasons (s : State) (bufs : List Buf) (raw : List (List Byte)) (i : Nat) : List Nat :=
  let e := raw.getD i []
  let core := le e 0 1
  let pc := le e 8 8
  (if core < 16 ∧ s.fuses.grade.cores ≤ core then [0x04] else []) ++
  (if 16 ≤ core ∨ 3 < le e 1 1 ∨ isZero e 2 6 = false ∨ isZero e 24 8 = false ∨
      ((raw.take i).any fun y => y.take 2 == e.take 2) = true then [0x07] else []) ++
  (if bufs.any fun b => b.kind == 0 && b.access.testBit 0 && b.base ≤ pc && pc < b.base + b.size then [] else [0x09])

/-- The offences of the start table; `s` is the node with the INIT entries applied. -/
def startOffences (s : State) (l : List Sect) : List Offence :=
  match (bufsOf l).find? fun b => b.id == startId, theSect l 3 with
  | some b, some x =>
    if b.kind != 0 || !b.access.testBit 0 then [offS 0x08 x]
    else
      let raw := startRaw s (bufsOf l)
      ((List.range raw.length).flatMap (startReasons s (bufsOf l) raw)).map fun r => offS r x
  | _, _ => []

/-! ### Hedges (R238, R239) -/

/-- A hedge declaration breaks R238 or R239 against the buffers and the other declarations. -/
def declBad (bufs : List Buf) (decls : List HedgeDecl) (i : Nat) (h : HedgeDecl) : Bool :=
  (decls.take i).any (fun y => y.id == h.id) ||
  (match bufs.find? fun b => b.id == h.window with
   | some b => b.kind != 0 || b.size < h.workOff + h.workLen
   | none => true) ||
  (match bufs.find? fun b => b.id == h.remote with
   | some b => b.kind != 4
   | none => true) ||
  (match decls.find? fun d => d.id == 0 with
   | some w => h.members.any fun n => !w.members.contains n
   | none => true)

/-- The offences of the HEDGES section; without one hedge 0 is not declared (R239). -/
def hedgeOffences (pleach : Bool) (l : List Sect) : List Offence :=
  match theSect l 5 with
  | some x =>
    let decls := declsOf l
    offIf (4096 < x.count || !decls.any (fun d => d.id == 0) ||
      (pleach && (decls.find? fun d => d.id == 0).all fun d => d.members.length != 2) ||
      decls.zipIdx.any (fun e => !(hedgeEntry x.data e.2).2 || declBad (bufsOf l) decls e.2 e.1)) (offS 0x15 x)
  | none => [offI 0x15]

/-! ### The state set, the patterns and the plan (R171, R301, R304, R305, R51, R53, R263) -/

/-- Two state-set entries overlap. -/
def entsMeet (a b : StateEnt) : Bool :=
  a.buffer == b.buffer && a.offset < b.offset + b.length && b.offset < a.offset + a.length

/-- The state set breaks R301 or R304; `w` is the node with the image in place. -/
def stateSetBad (w : State) (bufs : List Buf) (st : StateSet) : Bool :=
  w.ncr.cellarGib == 0 || (st.adopt != 0xFFFF && !bufs.any fun b => b.id == st.adopt) ||
  st.entries.any (fun e => !bufs.any fun b => b.id == e.buffer && b.kind == 0 && e.offset + e.length ≤ b.size) ||
  st.entries.zipIdx.any (fun e => (st.entries.take e.2).any (entsMeet e.1)) ||
  (List.range 12).any fun k =>
    quarterBytes w < 64 * (packedLines w k).length + 64 * 1024 + (if k = 0 then 64 * 2 ^ 20 else 0)

/-- The BUFFER offences of the state set. -/
def stateSetOffences (w : State) (l : List Sect) : List Offence :=
  match theSect l 8 with
  | some x => offIf (stateSetBad w (bufsOf l) (stateSetOf x.data)) (offS 0x08 x)
  | none => []

/-- The offence of a malformed PATTERNS section (R171). -/
def patternOffences (l : List Sect) : List Offence :=
  match theSect l 6 with
  | some x => offIf (patsOf x.count x.data).isNone (offS 0x16 x)
  | none => []

/-- A plan gives this node a SEND slot toward its twin in every 64 slots (R263). -/
def twinServed (w : State) (p : Plan) : Bool :=
  match twin w with
  | some n => within p.k 64 ((List.range 16).flatMap fun l => txSlots p l fun e => (txOf e).1 == 1 && sendsTo p e == some n)
  | none => true

/-- The PLAN offences of the EXCHANGE section; without one a pleach node has no SEND slot toward its twin (R51, R53, R263,
R305). -/
def planOffences (w : State) (l : List Sect) : List Offence :=
  match theSect l 4 with
  | some x => match Config.planOfExchange x.data with
    | some p => offIf (!planOk p || !planCuts w p || !twinServed w p) (offS 0x17 x)
    | none => [offS 0x17 x]
  | none => offIf (pleachJob w) (offI 0x17)

/-! ### The node as the verifier sees it -/

/-- The node with the image in place and without the contents of its memories: the checks of the engines' chapters are
taken in it, so that no run-time data enters them. -/
def verifierNode (s : State) (img : Image) : State :=
  let w := { s with
    mem := [], lineFault := [], brine := [], blocks := [], host := { s.host with mem := [] }
    job := { s.job with image := some img, hedges := [] } }
  { w with job := { w.job with hedges := layHedges w [] } }

/-! ### A command by itself -/

/-- The operand words of an opcode that name tensor descriptors (Table 04.7). -/
def tensorWords (op : Nat) : List Nat :=
  match op with
  | 0x10 | 0x11 | 0x20 | 0x22 => [1, 2, 3, 4]
  | 0x21 | 0x23 | 0x41 | 0x51 | 0x53 | 0x57 => [1, 2, 3]
  | 0x24 | 0x40 | 0x50 | 0x42 | 0x43 | 0x52 | 0x54 | 0x55 => [1, 2]
  | 0x30 => [2, 3, 4, 5]
  | 0x56 => [1, 2, 4, 5]
  | 0x31 | 0x63 => [1]
  | _ => []

/-- The operand words whose tensors a command writes. -/
def writtenWords (c : Cmd) : List Nat :=
  match c.opcode with
  | 0x10 | 0x11 | 0x20 => [4]
  | 0x21 => [2, 3]
  | 0x22 => [3, 4]
  | 0x23 | 0x41 | 0x51 => [3]
  | 0x30 => [4, 5] ++ (if (SCtl.of c.w6).keep then [2] else [])
  | 0x24 | 0x40 | 0x50 | 0x42 | 0x43 | 0x52 | 0x54 | 0x55 | 0x56 => [2]
  | 0x53 => [1, 3]
  | 0x57 => if panCode c = 0x23 then [] else [1, 3]
  | 0x63 => [1]
  | _ => []

/-- The operand words whose tensors a command reads. -/
def readWords (c : Cmd) : List Nat :=
  match c.opcode with
  | 0x10 | 0x11 | 0x20 => [1, 2, 3]
  | 0x22 | 0x23 | 0x41 | 0x51 | 0x42 => [1, 2]
  | 0x21 | 0x24 | 0x31 | 0x40 | 0x50 | 0x43 | 0x52 | 0x54 | 0x55 => [1]
  | 0x30 => [2, 3]
  | 0x53 => [1, 2]
  | 0x56 => [1, 4, 5]
  | 0x57 =>
    let op := panCode c
    if panAtomic op || op == 0x30 || op == 0x21 then [1, 2] else if op = 0x20 ∨ op = 0x23 then [] else [2]
  | _ => []

/-- The tensor that an operand word names, its bounds to be checked; for SPAT that of its pattern descriptor. -/
def tensorOf (w : State) (f : InFl) (i : Nat) : Option Desc :=
  (if f.cmd.opcode = 0x31 then some (spatTensor w f) else opnd w f i).map fun d => { d with viaReg := true }

/-- Addends that stand for any value of the address registers in checks of shape: far apart, and for a receive buffer of
a COLL the window's base. -/
def anyAddends (w : State) (c : Cmd) : List W64 :=
  (List.range 5).map fun j =>
    if !refAdd (c.w (j + 1)) then 0
    else if c.opcode = 0x56 ∧ j = 1 then
      BitVec.ofNat 64 (((hedgeOf w (fld c.w3 0 16)).map Hedge.winBase).getD 0) -
        BitVec.ofNat 64 ((((refIdx c.w2).bind (descAt w)).map Desc.base).getD 0)
    else BitVec.ofNat 64 ((j + 1) * 2 ^ 61)

/-- The hedges that a command names, 55, 56 and 64 by ID and the others by the buffers of remote descriptors, and the
window that a COLL receives into (R239, R253). -/
def hedgeRefBad (w : State) (f : InFl) : Bool :=
  let c := f.cmd
  let byBuf := fun (i : Nat) => match (refIdx (c.w i)).bind (descAt w) with
    | some d => match hedgeOfRemote w d.buffer with
      | some h => h.state == 3
      | none => true
    | none => false
  match c.opcode with
  | 0x55 => !hedgeOk w (fld c.w3 0 16)
  | 0x56 => !hedgeOk w (fld c.w3 0 16) || (collOf w f).any recvOut
  | 0x64 => !hedgeOk w (fld c.w1 0 16)
  | 0x43 | 0x53 => byBuf 1
  | 0x52 | 0x54 => byBuf 2
  | _ => false

/-- A command names a pattern slot above 63, or one that neither the PATTERNS section nor an SPAT of its block fills. -/
def patternBad (filled : List Nat) (c : Cmd) : Bool :=
  match c.opcode with
  | 0x30 => (SCtl.of c.w6).usePat && !filled.contains (SCtl.of c.w6).slot
  | 0x31 => 63 < c.w2.toNat
  | 0x42 => 63 < c.w3.toNat || !filled.contains c.w3.toNat
  | _ => false

/-- A command breaks the OPERAND rules by itself (R106, R407). -/
def operandBad (w : State) (f : InFl) : Bool :=
  let c := f.cmd
  match c.opcode with
  | 0x00 | 0x01 | 0x02 => !noOperands c
  | 0x03 => loopWordsBad c
  | 0x04 => c.words.any aopCodeBad
  | _ => !hedgeRefBad w f && cmdBad w f

/-- Auxiliary descriptors as tensors, their bounds to be checked. -/
def auxDescs (w : State) (l : List (Option Nat)) : List Desc := (vAux w l).map fun d => { d with viaReg := true }

/-- The tensors that a command writes through descriptors of its descriptors: the auxiliary tensor of an SFACT, and the
block scales of a VCONV's result (R142, R155). -/
def auxWritten (w : State) (f : InFl) : List Desc :=
  match f.cmd.opcode with
  | 0x24 => auxDescs w [if (opnd! w f 2).ncw.scaleMode = 2 then (opnd! w f 2).scale else none]
  | 0x30 => auxDescs w [(batchOf w f).aux]
  | _ => []

/-- A command writes through a buffer without write access (R109). -/
def accessBad (w : State) (f : InFl) : Bool :=
  (((writtenWords f.cmd).filterMap (tensorOf w f)) ++ auxWritten w f).any fun d => match bufOf w d.buffer with
    | some b => !b.access.testBit 1
    | none => false

/-- A COLL needs more work area than its hedge declares (09 R255). -/
def collNeedBad (w : State) (f : InFl) : Bool :=
  f.cmd.opcode == 0x56 && (collOf w f).any fun k => decide (k.hedge.workLen < k.need)

/-- The operations that deterministic mode shuts out of PANOP, RATOM and RRED (FATOMIC). -/
def floatAtomic (w : State) (f : InFl) : Bool :=
  let c := f.cmd
  let fl := fun (i : Nat) => (opnd! w f i).fmt.isFloat
  match c.opcode with
  | 0x57 => panCode c == 0x07 || panCode c == 0x08 || panCode c == 0x10 || (panCode c == 0x30 && fl 1)
  | 0x53 => [0x07, 0x08, 0x10].contains (fld c.w4 0 8)
  | 0x54 => fl 2
  | _ => false

/-- A result is rounded with unseeded draws (UNSEEDED, R89). -/
def unseeded (w : State) (f : InFl) : Bool :=
  (writtenWords f.cmd).any fun i => match tensorOf w f i with
    | some d => d.ncw.rnd == 4 && !d.ncw.seedValid
    | none => false

/-- A pleach image may not hold the opcode (R263). -/
def pleachShut (w : State) (op : Nat) : Bool := pleachJob w && [0x43, 0x52, 0x53, 0x54, 0x55, 0x56].contains op

/-- The reasons for which a command by itself is refused; `u` stands at it, in the loops that enclose it. -/
def cmdReasons (w : State) (b : Blk) (q : Qc) (filled inCtx : List Nat) (u : Queue) (c : Cmd) : List Nat :=
  let f : InFl := { idx := u.pc, pos := u.pc, cmd := c, addends := anyAddends w c, loops := [] }
  let r := fun (bad : Bool) (n : Nat) => if bad then [n] else []
  let head :=
    r (c.queueField != q.code || fld c.hdr 14 2 != 0 || fld c.hdr 26 6 != 0 ||
      ([0x01, 0x03, 0x04].contains c.opcode && quietBad c)) 0x06 ++
    r (c.waitQueues.testBit q.code || c.postQueues.testBit q.code) 0x0E
  if !(c.opcode < 0x05 || opcodeIn c.opcode q) || pleachShut w c.opcode then 0x05 :: head
  else
    let shape := operandBad w f || (c.opcode == 0x50 && inCtx.contains (fld c.w4 0 4))
    head ++ r shape 0x07 ++ r (c.opcode == 0x03 && loopNestBad u c) 0x11 ++
    r (c.opcode == 0x04 && c.words.any aopRdBad) 0x12 ++ r (hedgeRefBad w f) 0x15 ++ r (patternBad filled c) 0x16 ++
    (if shape || c.opcode < 0x05 then []
     else
      r (collNeedBad w f) 0x09 ++ r ((cmdIssue w b f).contains .format) 0x0C ++ r (accessBad w f) 0x0D ++
      (if (w.job.image.map Image.det).getD false then r (floatAtomic w f) 0x18 ++ r (unseeded w f) 0x1A else []))

/-- The loop levels that enclose each command of a stream, by position (R114). -/
def levels (st : List Cmd) : List (Cmd × Queue) :=
  (st.zipIdx.foldl (fun (acc : List LoopLevel × List (Cmd × Queue)) e =>
    let ls := acc.1.dropWhile fun v => v.start + v.len ≤ e.2
    let len := fld e.1.w3 0 16
    (if e.1.opcode = 0x03 ∧ len ≠ 0 then ⟨e.2 + 1, len, 1, 0⟩ :: ls else ls,
     (e.1, { stream := st, pc := e.2, loops := ls }) :: acc.2)) ([], [])).2.reverse

/-- The pattern slots of a block that the job fills. -/
def filledSlots (w : State) (l : List Sect) (b : Blk) : List Nat :=
  (((w.job.image.map Image.pats).getD []).filter fun p => p.1 == b.key).map (fun p => p.2.1) ++
  ((l.filter fun x => x.type == 1 && x.queue == 2 && sectBlk x == b).flatMap cmdsOf).filterMap fun c =>
    if c.opcode = 0x31 then some (fld c.w2 0 6) else none

/-- The stream contexts that the SINs of a block name; its SOUTs may name none of them (R214). -/
def sinCtxs (l : List Sect) (b : Blk) : List Nat :=
  ((l.filter fun x => x.type == 1 && x.queue == 3 && sectBlk x == b).flatMap cmdsOf).filterMap fun c =>
    if c.opcode = 0x40 then some (fld c.w4 0 4) else none

/-- The offences of a section's commands, each by itself. -/
def sectOffences (w : State) (l : List Sect) (x : Sect) : List Offence :=
  match Qc.ofCode x.queue with
  | some q =>
    let filled := filledSlots w l (sectBlk x)
    (levels (cmdsOf x)).zipIdx.flatMap fun e =>
      (cmdReasons w (sectBlk x) q filled (sinCtxs l (sectBlk x)) e.1.2 e.1.1).map fun r => offC r x e.2
  | none => []

end Sys2Proof.Machine
end

