-- ==== Sys2Proof/Machine/Walk.lean ====
section
/-!
DEFINITION. The verifier's second part (04 R117 to R119): every stream walked through its loops with the values of its
address registers and their taint, the extents that each command reaches, and the deadlock check.
-/
namespace Sys2Proof.Machine

/-! ### The walk of a stream (R118) -/

/-- A command as the walk reaches it: its place, its addends, the operand words whose register is tainted, its number in
the walk, and what the deadlock check adds: its step and the items of each queue known to precede it. -/
structure VItem where
  b : Blk
  q : Qc
  sect : Nat
  f : InFl
  hot : List Nat
  n : Nat
  step : Nat := 0
  clock : List Nat := []
deriving DecidableEq, Repr

/-- A walk of one stream: the queue's loops and registers, the tainted registers, for each loop level the registers that
a body of unknown count writes, the commands reached (last first), the offences, and whether the walk has ended. -/
structure VWalk where
  u : Queue
  hot : List Nat := []
  lv : List (Option (List Nat)) := []
  items : List VItem := []
  off : List (Nat × Nat) := []
  ended : Bool := false
deriving DecidableEq, Repr

/-- The walk goes on with a queue whose loops have moved; a closed level of unknown count leaves its registers tainted. -/
def VWalk.to (w : VWalk) (u : Queue) : VWalk :=
  let gone := w.lv.take (w.lv.length - u.loops.length)
  let kept := w.lv.drop (w.lv.length - u.loops.length)
  { w with u := u, hot := (w.hot ++ gone.flatMap fun x => x.getD []).eraseDups,
           lv := List.replicate (u.loops.length - kept.length) none ++ kept }

/-- A source code of the address unit is tainted: its register, or the counter of a loop of unknown count. -/
def srcHot (w : VWalk) (hot : List Nat) (code : Nat) : Bool :=
  if code < 16 then hot.contains code else ((w.lv.reverse.getD (code - 16) none)).isSome

/-- The registers and the taint after the words of an AOP (R112, R113). -/
def vAop (w : VWalk) : List W64 → SMap W64 → List Nat → SMap W64 × List Nat
  | [], a, hot => (a, hot)
  | x :: xs, a, hot =>
    let op := aopCode x
    let rd := aopRd x
    if op = 0 then vAop w xs a hot
    else if op = 0x0C then vAop w xs a (rd :: hot)
    else if op = 0x0B then vAop w xs (SMap.set 0 a rd (aopImm x)) (hot.filter (· != rd))
    else if srcHot w hot (aopRs1 x) || (!wbit x 23 && srcHot w hot (aopRs2 x)) then vAop w xs a (rd :: hot)
    else
      let y := if wbit x 23 then aopImm x else aopSrc w.u a (aopRs2 x)
      vAop w xs (SMap.set 0 a rd (aopAlu op (aopSrc w.u a (aopRs1 x)) y)) (hot.filter (· != rd))

/-- A command posts, waits or is a STEP. -/
def posting (c : Cmd) : Bool := c.postQueues != 0 || c.waitCount != 0 || c.opcode == 0x02

/-- The walk meets a LOOP: a count that the verifier cannot bound opens one iteration, in which every register that the
body writes is tainted from the start (R115, R118, R119; log 40). -/
def vLoop (w : VWalk) (c : Cmd) : VWalk :=
  let len := fld c.w3 0 16
  let body := (w.u.stream.drop (w.u.pc + 1)).take len
  if wbit c.w2 4 ∧ w.hot.contains (fld c.w2 0 4) then
    let bad := (body.zipIdx.filter fun x => posting x.1).map fun x => (0x13, w.u.pc + 1 + x.2)
    let w1 := { w with off := bad.reverse ++ w.off }
    if len = 0 then w1.to (openLoop w.u c)
    else
      let rds := (body.filter fun x => x.opcode == 0x04).flatMap fun x => (x.words.filter (aopCode · != 0)).map aopRd
      { w1 with u := { w.u with loops := ⟨w.u.pc + 1, len, 1, 0⟩ :: w.u.loops, pc := w.u.pc + 1 }
                lv := some rds :: w.lv, hot := (w.hot ++ rds).eraseDups }
  else if 0xFFFF_FFFF < loopCount w.u c then { w with off := (0x09, w.u.pc) :: w.off, ended := true }
  else w.to (openLoop w.u c)

/-- The walk takes one command. -/
def vStep (b : Blk) (q : Qc) (sect : Nat) (w : VWalk) : VWalk :=
  match w.u.stream[w.u.pc]? with
  | none => { w with off := (0x14, w.u.pc) :: w.off, ended := true }
  | some c =>
    match c.opcode with
    | 0x01 => { w with ended := true }
    | 0x03 => vLoop w c
    | 0x04 =>
      let (a, hot) := vAop w c.words w.u.aregs w.hot
      ({ w with hot := hot.eraseDups } : VWalk).to { w.u.past with aregs := a }
    | _ =>
      let f : InFl :=
        { idx := w.u.pc, pos := w.u.pc, cmd := c, loops := loopCounts w.u,
          addends := (List.range 5).map fun i => if refAdd (c.w (i + 1)) then w.u.aregs.get 0 (refReg (c.w (i + 1))) else 0 }
      let hot := ((if c.opcode = 0x31 then [1] else tensorWords c.opcode)).filter fun i =>
        refAdd (c.w i) && w.hot.contains (refReg (c.w i))
      ({ w with items := ⟨b, q, sect, f, hot, w.items.length, 0, []⟩ :: w.items } : VWalk).to w.u.past

/-- The walk of a stream to its end: four loop levels of at most 2^32 iterations bound its length. -/
def vWalk (b : Blk) (q : Qc) (sect : Nat) : Nat → VWalk → VWalk
  | 0, w => w
  | n + 1, w => if w.ended then w else vWalk b q sect n (vStep b q sect w)

/-- The walk of a COMMANDS section; an empty stream has nothing to reach (R98). -/
def walkOf (x : Sect) (q : Qc) : VWalk :=
  let st := cmdsOf x
  if st.isEmpty then { u := {}, ended := true }
  else vWalk (sectBlk x) q x.no (2 ^ 128 * (st.length + 1) + 1) { u := { stream := st } }

/-! ### Extents (R108, R118, R125, R155, R201) -/

/-- A remote extent against its hedge's window; which node it names is checked at issue (R240, R121). -/
def windowCheck (h : Option Hedge) (d : Desc) : List Status :=
  match h with
  | some h => if !d.empty && (d.extent.1 < 0 || (h.winSize : Int) ≤ d.extent.2) then [.bounds] else []
  | none => []

/-- What place, bounds and alignment ask of the tensor of an operand word (chapters 04 to 09). -/
def wordCheck (w : State) (b : Blk) (f : InFl) (i : Nat) (d : Desc) : List Status :=
  let c := f.cmd
  let op := c.opcode
  let bulk := if bulkAligned d then [] else [Status.align]
  let ring := ((stCtl w c.w3).getD {}).ring
  let inOwn := if inStore b d then [] else [Status.bounds]
  if 0x10 ≤ op ∧ op ≤ 0x24 then storeCheck w b d
  else if op = 0x30 then
    if i = 5 then solverCheck w b 16 16 16 d else solverCheck w b 64 ((stensOf w f).mat.fmt.bits / 8) 64 d
  else if op = 0x31 then solverCheck w b 8 1 1 d
  else if op = 0x42 then if i = 1 then solverCheck w b 16 16 16 d else solverCheck w b 64 (d.fmt.bits / 8) 64 d
  else if op = 0x40 ∨ op = 0x50 then
    let narrow := ((stCtl w c.w3).getD {}).narrow
    if (i = 1) = (op = 0x40) then
      extentCheck w d ++ (if farOk w b d then [] else [.bounds]) ++
      (if narrow then (if narrowFar w d then [] else [.align]) else bulk)
    else extentCheck w d ++ inOwn ++ (if narrow then (if narrowNear d then [] else [.align]) else bulk)
  else if op = 0x41 ∨ op = 0x51 then
    let (ix, tab, _) := rowsOf w f (op = 0x41)
    let none0 := ix.empty || tab.c 0 == 0
    if i = 1 then extentCheck w d
    else if (i = 2) = (op = 0x41) then
      extentCheck w d ++ (if inMem w false d then [] else [.bounds]) ++
      (if none0 || (d.base % 8 == 0 && d.rowBytes % 8 == 0 && d.stride 0 % 8 == 0) then [] else [.align])
    else extentCheck w d ++ inOwn ++
      (if none0 || (d.base % 64 == 0 && ix.size * tab.rowBytes % 64 == 0) then [] else [.align])
  else if op = 0x43 ∨ op = 0x52 ∨ op = 0x54 then
    (if d.remote then windowCheck (hedgeOfRemote w d.buffer) d else localCheck w d ++ (if ring then inOwn else [])) ++ bulk
  else if op = 0x53 then
    (if d.remote then windowCheck (hedgeOfRemote w d.buffer) d else localCheck w d) ++
    (if elemAligned d then [] else [.align])
  else if op = 0x55 then
    (if i = 2 then windowCheck (hedgeOf w (fld c.w3 0 16)) d else localCheck w d) ++ bulk
  else if op = 0x56 then if fld c.w3 16 8 = 8 ∧ i ≤ 2 then [] else localCheck w d
  else if op = 0x57 then
    let code := panCode c
    extentCheck w d ++ (if panWordOk w b code i d then [] else [.bounds]) ++
    (if code = 0x40 then bulk
     else if code = 0x41 then
       (if i ≠ 1 || d.base % 64 == 0 then [] else [.align])
     else if elemAligned d then [] else [.align])
  else extentCheck w d

/-- What place, bounds and alignment ask of a tensor whose register may hold any value: that its buffer lies where the
command may reach, and that its strides are aligned (R118, R123, R124). -/
def hotCheck (w : State) (b : Blk) (f : InFl) (i : Nat) (d : Desc) : List Status :=
  if d.empty then []
  else
    (match bufOf w d.buffer with
     | some u => (wordCheck w b f i { d with base := u.base, counts := [1, 1, 1, 1, 1] }).filter (· != .align)
     | none => [.bounds]) ++
    (wordCheck w b f i { d with base := 0 }).filter (· == .align)

/-- The tensors that an engine command or a BOPEN reads through its descriptors: scales, anchors, masks and biases, as far
as the command reads them (R127, R130). -/
def auxRead (w : State) (f : InFl) : List Desc :=
  match f.cmd.opcode with
  | 0x10 => (tpAux w (tpOf w f)).map fun d => { d with viaReg := true }
  | 0x11 => (scanAux w (tpOf w f)).map fun d => { d with viaReg := true }
  | 0x20 => auxDescs w ((opnd! w f 4).mask :: vopAnchors (opnd! w f 1) (opnd w f 2) (opnd! w f 4))
  | 0x21 =>
    let x := opnd! w f 1
    auxDescs w (x.mask :: vredAnchors f.cmd x (opnd w f 2) (((opnd w f 2).map Desc.fmt).getD x.fmt) (opnd! w f 3))
  | 0x24 => auxDescs w (vconvAux (opnd! w f 1) (opnd! w f 2))
  | 0x57 => auxDescs w [if panCode f.cmd = 0x20 ∧ (opnd! w f 1).ncw.anchorMode = 2 then (opnd! w f 1).anchorD else none]
  | _ => []

/-- The tensors that a command reads or writes through its descriptors. -/
def auxOf (w : State) (f : InFl) : List Desc := auxRead w f ++ auxWritten w f

/-- The statuses of a command's own places beside its tensors: the NPA of SIGNAL, WAITV and HEDGE, and a
dense tensor too small for VCOMP or VEXP (R145, R146, R252, R408). Stacks (R201, R202) are checked at issue. -/
def placeCheck (w : State) (b : Blk) (x : VItem) : List Status :=
  let f := x.f
  match f.cmd.opcode with
  | 0x60 | 0x61 | 0x64 => (cqIssue w b f).take 1
  | 0x22 => if (opnd! w f 3).c 0 < (opnd! w f 1).size then [.bounds] else []
  | 0x23 => if (opnd! w f 1).c 0 < (opnd! w f 3).size then [.bounds] else []
  | _ => []

/-- The bytes that an operand word may touch: its extent, or its whole buffer where its register is tainted. -/
def spanOf (w : State) (x : VItem) (i : Nat) (d : Desc) : Option (Int × Int) :=
  if d.empty || d.overflows then none
  else if x.hot.contains i then (bufOf w d.buffer).map fun b => ((b.base : Int), (b.base : Int) + b.size - 1)
  else some d.extent

/-- Two ranges of bytes meet. -/
def spansMeet (a b : Option (Int × Int)) : Bool :=
  match a, b with
  | some x, some y => x.1 ≤ y.2 && y.1 ≤ x.2
  | _, _ => false

/-- A result may coincide with a source of the command (R125). -/
def mayCoincide (op src : Nat) : Bool :=
  match op with
  | 0x10 => src == 3
  | 0x20 | 0x24 => true
  | _ => false

/-- Two tensors of an SFACT overlap, but for solutions that coincide with the right-hand sides (R155). -/
def sfactOverlap (w : State) (x : VItem) : Bool :=
  let ts := [2, 3, 4, 5].filterMap fun i => (tensorOf w x.f i).map fun d => (i, d, spanOf w x i d)
  let aux := (auxOf w x.f).map fun d => (6, d, if d.empty || d.overflows then none else some d.extent)
  (ts ++ aux).any fun a => (ts ++ aux).any fun e => a.1 < e.1 && spansMeet a.2.2 e.2.2 &&
    !(a.1 == 3 && e.1 == 4 && (coincide a.2.1 e.2.1 || x.f.cmd.w3 == x.f.cmd.w4))

/-- A result and a source name the same elements whatever the registers hold: by one operand word, or with neither
register tainted (R125). -/
def sureCoincide (x : VItem) (i j : Nat) (r d : Desc) : Bool :=
  x.f.cmd.w i == x.f.cmd.w j || (!x.hot.contains i && !x.hot.contains j && coincide r d)

/-- A result overlaps a tensor that the command reads, in a way that R125 and R201 refuse; word 0 stands for a tensor that
a descriptor of the command names. -/
def overlapBad (w : State) (x : VItem) : Bool :=
  let c := x.f.cmd
  let op := c.opcode
  let named := fun (ws : List Nat) => ws.filterMap fun i => (tensorOf w x.f i).map fun d => (i, d)
  let aux := fun (l : List Desc) => l.map fun d => (0, d)
  ((0x10 ≤ op && op ≤ 0x24) || (op == 0x57 && panCode c == 0x40)) &&
  (named (writtenWords c) ++ aux (auxWritten w x.f)).any fun r =>
    (named (readWords c) ++ (if op = 0x57 then [] else aux (auxRead w x.f))).any fun d =>
      (r.1 == 0 || r.1 != d.1) && spansMeet (spanOf w x r.1 r.2) (spanOf w x d.1 d.2) &&
      !(r.1 != 0 && mayCoincide op d.1 && sureCoincide x r.1 d.1 r.2 d.2)

/-- The reasons of a list of statuses. -/
def reasonsOf (l : List Status) : List Nat :=
  (if l.contains .absent then [0x04] else []) ++ (if l.contains .bounds then [0x09] else []) ++
  (if l.contains .align then [0x0B] else [])

/-- The offences of a command as the walk reaches it: of every extent, and of a tensor whose register is tainted what
holds for every value of it (R118). -/
def itemReasons (w : State) (x : VItem) : List Nat :=
  let words := if x.f.cmd.opcode = 0x31 then [1] else tensorWords x.f.cmd.opcode
  (words.flatMap fun i => match tensorOf w x.f i with
    | none => []
    | some d =>
      if x.hot.contains i then reasonsOf (hotCheck w x.b x.f i d)
      else if !d.empty && d.overflows then [0x0A]
      else reasonsOf (wordCheck w x.b x.f i d)) ++
  ((auxOf w x.f).flatMap fun d =>
    if !d.empty && d.overflows then [0x0A]
    else reasonsOf (if x.f.cmd.opcode = 0x30 then solverCheck w x.b 64 ((stensOf w x.f).mat.fmt.bits / 8) 64 d
      else if x.f.cmd.opcode = 0x57 then extentCheck w d else storeCheck w x.b d)) ++
  reasonsOf (placeCheck w x.b x) ++
  (if overlapBad w x || (x.f.cmd.opcode == 0x30 && sfactOverlap w x) then [0x07] else []) ++
  (if x.f.cmd.opcode = 0x56 ∧ ¬2 ∈ x.hot ∧ (collOf w x.f).any recvOut then [0x15] else [])

/-! ### The deadlock check (R119) -/

/-- A block in the deadlock check: for each queue the commands to come, whether it stands at STEP, how many it has
passed and the commands known to precede it; the event counters; for each pair of queues the clocks of the posts of the
step and how many of them are consumed. -/
structure VSim where
  left : SMap (List VItem) := []
  at_ : List Nat := []
  k : Block := {}
  clock : SMap (List Nat) := []
  posts : SMap (List (List Nat)) := []
  used : SMap Nat := []
  step : Nat := 0
  seen : List VItem := []
  off : List Offence := []
deriving DecidableEq, Repr

/-- The later of two clocks, queue by queue. -/
def joinClock (a b : List Nat) : List Nat := (List.range 6).map fun i => max (a.getD i 0) (b.getD i 0)

/-- A queue takes its next command: it consumes, then posts, and stands at STEP after a STEP (R102, R119). -/
def vTake (v : VSim) (q : Nat) (x : VItem) (rest : List VItem) : VSim :=
  let c := x.f.cmd
  let from_ := if c.waitCount = 0 then [] else (List.range 6).filter fun p => c.waitQueues.testBit p
  let used := from_.foldl (fun m p => m.set 0 (6 * p + q) (m.get 0 (6 * p + q) + c.waitCount)) v.used
  let joined := from_.foldl (fun a p =>
    joinClock a ((v.posts.get [] (6 * p + q)).getD (used.get 0 (6 * p + q) - 1) [])) (v.clock.get [] q)
  let after := joinClock joined ((List.range 6).map fun i => if i = q then x.n + 1 else 0)
  { v with
    left := v.left.set [] q rest
    at_ := if c.opcode = 0x02 then q :: v.at_ else v.at_
    k := post (consume v.k x.q c) x.q c
    clock := v.clock.set [] q after
    used := used
    posts := (List.range 6).foldl (fun m i =>
      if c.postQueues.testBit i then m.set [] (6 * q + i) (m.get [] (6 * q + i) ++ [after]) else m) v.posts
    seen := { x with step := v.step, clock := joined } :: v.seen }

/-- The first queue that may take its next command. -/
def vReady (v : VSim) : Option (Nat × VItem × List VItem) :=
  ((List.range 6).filterMap fun q =>
    match v.left.get [] q with
    | x :: rest => if !v.at_.contains q && waitMet v.k x.q x.f.cmd then some (q, x, rest) else none
    | [] => none).head?

/-- The first queue that can go no further short of a boundary: DEADLOCK at its next command. -/
def vStuck (v : VSim) : Option VItem :=
  ((List.range 6).filterMap fun q => if v.at_.contains q then none else (v.left.get [] q).head?).head?

/-- The simulation to its end: each turn takes a command or passes a boundary. -/
def vSim (b : Blk) : Nat → VSim → VSim
  | 0, v => v
  | n + 1, v =>
    match vReady v with
    | some (q, x, rest) => vSim b n (vTake v q x rest)
    | none =>
      match vStuck v, v.k.ev.find? fun e => e.2 != 0 with
      | some x, _ => { v with off := [⟨0x0F, x.q.code, b.region.toNat, b.block.toNat, x.f.idx, x.sect⟩] }
      | none, some e => { v with off := [⟨0x10, e.1 % 6, b.region.toNat, b.block.toNat, noIdx, noIdx⟩] }
      | none, none =>
        if v.at_.isEmpty then v
        else vSim b n { v with at_ := [], step := v.step + 1, clock := [], posts := [], used := [] }

/-- The deadlock check of a block's walks. -/
def simBlock (b : Blk) (ws : List (Sect × Qc × VWalk)) : VSim :=
  let n := (ws.map fun w => w.2.2.items.length).foldl (· + ·) 0
  vSim b (2 * n + 2)
    { left := ws.foldl (fun (m : SMap (List VItem)) w => m.set [] w.2.1.code w.2.2.items.reverse) [] }

end Sys2Proof.Machine
end

