-- ==== Sys2Proof/Machine/Det.lean ====
section
/-!
DEFINITION. The verifier's third part: the checks of deterministic mode (RACE, ANCHOR, EXCHANGE; 04 Table 04.10, 08 R237,
03 R93 to R95), and the whole verification with its report (R117, R120).
-/
namespace Sys2Proof.Machine

/-! ### Order (R102, R116) -/

/-- One item is over before another begins: an earlier step, an earlier place in its queue, or an event path. -/
def itemBefore (a b : VItem) : Bool :=
  a.step < b.step ||
  (a.step == b.step && a.b == b.b && (if a.q = b.q then a.n < b.n else a.n < b.clock.getD a.q.code 0))

/-! ### Accesses -/

/-- A range of this node's bytes that an item touches: the tensor, whether it writes, and the kind of an addend that any
order leaves the same. -/
structure Access where
  x : VItem
  word : Nat
  d : Desc
  span : Option (Int × Int)
  write : Bool
  free : Option (Nat × Nat)
deriving DecidableEq, Repr

/-- The addends of a pan operation commute: integer ADD, MIN, MAX, AND, OR, XOR without old values, and sums in brine or
integers (R93, R195, R200; log 40). -/
def orderFree (w : State) (f : InFl) : Option (Nat × Nat) :=
  let op := panCode f.cmd
  let fm := (opnd! w f 1).fmt
  if f.cmd.opcode = 0x57 ∧ (refIdx f.cmd.w3).isNone ∧
      ((1 ≤ op ∧ op ≤ 6) ∨ op = 0x21 ∨ (op = 0x30 ∧ fm.isFloat = false)) then
    some (if op = 0x21 then 0x30 else if op = 0x01 ∧ fm.isBrine = false then 0x30 else op, fm.bits)
  else none

/-- The accesses of an item in this node's memories. -/
def accesses (w : State) (x : VItem) : List Access :=
  let tens := fun (ws : List Nat) (wr : Bool) => ws.filterMap fun i => match tensorOf w x.f i with
    | some d =>
      if d.remote || (x.f.cmd.opcode == 0x55 && i == 2) then none
      else some { x := x, word := i, d := d, span := spanOf w x i d, write := wr,
                  free := if i = 1 then orderFree w x.f else none : Access }
    | none => none
  let aux := fun (l : List Desc) (wr : Bool) => l.map fun d =>
    { x := x, word := 0, d := d, span := if d.empty then none else some d.extent, write := wr, free := none : Access }
  tens (writtenWords x.f.cmd) true ++ tens ((readWords x.f.cmd).filter fun i => !(writtenWords x.f.cmd).contains i) false ++
  aux (auxRead w x.f) false ++ aux (auxWritten w x.f) true

/-- Two ranges of bytes meet, or are bytes of one line that one of them names by the interleaved alias and the other by
its region window (R186; 01 Table 01.4). -/
def bytesMeet (w : State) (a b : Option (Int × Int)) : Bool :=
  spansMeet a b ||
  match a, b with
  | some x, some y =>
    let il := fun (s : Int × Int) => decide (0x100_0000_0000 ≤ s.1)
    il x != il y && x.1.toNat < 0x200_0000_0000 && y.1.toNat < 0x200_0000_0000 &&
    (let lo := x.1.toNat
     let n := (x.2 - x.1).toNat + 1
     (linesOf w lo n).zipIdx.any fun e =>
       let o := if e.2 = 0 then lo % 64 else 0
       runsMeet w.ncr.cellarGib [⟨y.1.toNat, (y.2 - y.1).toNat + 1⟩] e.1 o (min 64 (lo % 64 + n - 64 * e.2) - o))
  | _, _ => false

/-! ### RACE (R186, R237) -/

/-- The ring that an access is the block-store end of: its context, and whether the stream is inbound. -/
def ringEnd (w : State) (a : Access) : Option (Nat × Bool) :=
  let c := a.x.f.cmd
  let near := match c.opcode with
    | 0x40 | 0x43 => a.word == 2
    | 0x50 | 0x52 => a.word == 1
    | _ => false
  if near && ((stCtl w c.w3).getD {}).ring then c.ctx.map fun n => (n, c.opcode == 0x40 || c.opcode == 0x43) else none

/-- An item runs on an engine of its block. -/
def VItem.onEngine (x : VItem) : Bool := x.q == .TQ || x.q == .VQ || x.q == .XQ

/-- A WAITV that precedes an access makes OWN of a ring's context pass the bytes of the access (R237). -/
def ownPasses (w : State) (all : List VItem) (r e : Access) (ctx : Nat) (first : Bool) : Bool :=
  all.any fun v =>
    v.f.cmd.opcode == 0x61 && v.b == e.x.b && v.step == e.x.step && itemBefore v e.x && v.f.cmd.w3.toNat < 2 &&
    ctxReg w (fld v.f.cmd.w1 0 56) == some (e.x.b, ctx, 1) &&
    (first || r.d.rowBytes ≤ v.f.cmd.w2.toNat ||
     (match e.span with
      | some s => s.2 - r.d.base < (v.f.cmd.w2.toNat : Int)
      | none => true))

/-- An engine's access to a ring is covered: it reads an inbound ring, or writes an outbound one, behind a WAITV of the
block on OWN of the context whose compare value passes the bytes: those read have come in, and of those written the
previous occupant has been taken. The first write of a step to the bytes of an outbound ring has no previous occupant; any
compare value serves it (R237; log 40). -/
def ringCovered (w : State) (all : List VItem) (r e : Access) (ctx : Nat) (inbound : Bool) : Bool :=
  let first := !inbound && !all.any fun v => v.b == e.x.b && v.onEngine && v.step == e.x.step && itemBefore v e.x &&
    (accesses w v).any fun a => a.write && spansMeet a.span e.span
  e.x.b == r.x.b && e.write != inbound && ownPasses w all r e ctx first

/-- Two accesses of one step race; an engine's access to a ring does where it is not covered, be it a read or a write and
whatever orders it (R186, R237). -/
def races (w : State) (all : List VItem) (a e : Access) : Bool :=
  let unordered := (a.write || e.write) && !(a.free.isSome && a.free == e.free) &&
    !itemBefore a.x e.x && !itemBefore e.x a.x
  a.x.step == e.x.step && (a.x.b != e.x.b || a.x.q != e.x.q) && bytesMeet w a.span e.span &&
  (match ringEnd w a, ringEnd w e with
   | some (n, i), none => if e.x.onEngine then !ringCovered w all a e n i else unordered
   | none, some (n, i) => if a.x.onEngine then !ringCovered w all e a n i else unordered
   | _, _ => unordered)

/-- The items that race with another: of a pair the one that begins higher. -/
def raceItems (w : State) (all : List VItem) : List VItem :=
  let low := fun (a : Access) => (a.span.map Prod.fst).getD 0
  let acc := (all.flatMap (accesses w)).mergeSort fun a e => low a ≤ low e
  ((acc.zipIdx).filter fun e => (acc.take e.2).any fun a => races w all a e.1).map fun e => e.1.x

/-! ### ANCHOR (R93 to R95, R198) -/

/-- What a brine tensor's anchors are: a static anchor, an anchor array, or the pre-scan of one command. -/
inductive AnchorKey where
  | static (a : Int)
  | array (base : Nat) (counts : List Nat) (strides : List Int)
  | own
deriving DecidableEq, Repr

/-- The anchors of a control word. -/
def anchorKey (w : State) (d : Desc) : AnchorKey :=
  match d.ncw.anchorMode with
  | 0 => .static d.ncw.anchor
  | 2 => match d.anchorD.bind (descAt w) with
    | some a => .array a.base a.counts a.strides
    | none => .own
  | _ => .own

/-- The last writers of a tensor before an item: writes that meet it and precede it with no covering write between. -/
def lastWriters (acc : List Access) (e : Access) : List Access :=
  let before := acc.filter fun a => a.write && itemBefore a.x e.x && spansMeet a.span e.span
  before.filter fun a => !before.any fun z => itemBefore a.x z.x &&
    (match z.span, e.span with
     | some s, some t => s.1 ≤ t.1 && t.2 ≤ s.2
     | _, _ => false)

/-- The brine array that an addend enters: that of the last BOPEN before it whose extent holds the target (R198). -/
def openedBy (acc : List Access) (e : Access) : List Access :=
  (lastWriters (acc.filter fun a => a.x.f.cmd.opcode == 0x57 && panCode a.x.f.cmd == 0x20) e)

/-- An RRED adds brine to a brine target in another node's window under other anchors than the target's, or another RRED's
into the same bytes of that window names other anchors (R93, R198). -/
def rredAnchorBad (w : State) (all : List VItem) (x : VItem) : Bool :=
  let target := fun (v : VItem) => if v.f.cmd.opcode = 0x54 then (tensorOf w v.f 2).filter fun d => d.fmt.isBrine else none
  match target x with
  | none => false
  | some t =>
    ((tensorOf w x.f 1).any fun d => d.fmt.isBrine && anchorKey w d != anchorKey w t) ||
    all.any fun v => (target v).any fun u =>
      u.buffer == t.buffer && u.node == t.node && extentsMeet u t && anchorKey w u != anchorKey w t

/-- A COLL that sums in brine under an anchor array names it by a register that may hold any value, so that no check can
tell that its parts share one array (R254; log 40). -/
def collAnchorBad (w : State) (x : VItem) : Bool :=
  x.f.cmd.opcode == 0x56 && x.hot.contains 5 && (collOf w x.f).any Coll.floatSum

/-- An item's parts of one brine sum do not share their anchors: its own tensors, what its brine sources were written
under, and the array that its addends enter (ANCHOR). -/
def anchorBad (w : State) (acc : List Access) (x : VItem) : Bool :=
  let mine := (acc.filter fun a => a.x == x && a.word != 0 && a.d.fmt.isBrine)
  let op := x.f.cmd.opcode
  let addend := op == 0x57 && (panCode x.f.cmd == 0x21 || panCode x.f.cmd == 0x30)
  let keys := mine.map fun a => anchorKey w a.d
  (!addend && 2 ≤ keys.eraseDups.length) ||
  (mine.any fun a => !a.write && (lastWriters acc a).any fun z => z.d.fmt.isBrine && anchorKey w z.d != anchorKey w a.d) ||
  (addend && mine.any fun a => a.word == 1 && (openedBy acc a).any fun o =>
    (a.d.ncw.anchorMode == 0 && anchorKey w a.d != anchorKey w o.d) ||
    mine.any fun y => y.word == 2 && anchorKey w y.d != anchorKey w o.d)

/-! ### EXCHANGE (02, 04 Table 04.10) -/

/-- A read of an exchange buffer without a WAITV of its block before it in the step on the buffer's arrival counter, for
the planned count of that step; without an EXCHANGE section no count is planned (log 10). -/
def exchangeBad (w : State) (exch : List Byte) (all : List VItem) (acc : List Access) (x : VItem) : Bool :=
  acc.any fun a => a.x == x && !a.write && match bufOf w a.d.buffer with
    | some b => b.access.testBit 2 && !all.any fun v =>
        v.f.cmd.opcode == 0x61 && v.b == x.b && v.step == x.step && itemBefore v x && v.f.cmd.w3.toNat < 2 &&
        fld v.f.cmd.w1 0 56 == b.arrival && (exch.isEmpty || v.f.cmd.w2.toNat == Config.plannedCount exch b.id x.step)
    | none => false

/-! ### The verification (R117, R120) -/

/-- The offence of an item. -/
def offItem (reason : Nat) (x : VItem) : Offence :=
  ⟨reason, x.q.code, x.b.region.toNat, x.b.block.toNat, x.f.idx, x.sect⟩

/-- The offences of the walks: of each stream that is sound, of each command reached, of the deadlock check of each block
all of whose streams could be walked and wait on no queue of their own, and in deterministic mode of all items together. -/
def walkOffences (w : State) (l : List Sect) (unsound unsim : List Nat) : List Offence :=
  let cs := l.filter fun x => x.type == 1
  let ws := (cs.filter fun x => !unsound.contains x.no).filterMap fun x =>
    (Qc.ofCode x.queue).map fun q => (x, q, walkOf x q)
  let own := ws.flatMap fun e =>
    e.2.2.off.reverse.map (fun o => offC o.1 e.1 (if o.1 = 0x14 then noIdx else o.2)) ++
    (e.2.2.items.reverse.flatMap fun x => (itemReasons w x).map fun r => offItem r x).eraseDups
  let groups := (ws.map fun e => sectBlk e.1).eraseDups.map fun b => (b, ws.filter fun e => sectBlk e.1 == b)
  let sims := groups.filter fun g => (g.2.all fun e => e.2.2.off.isEmpty) &&
    g.2.length == (cs.filter fun x => sectBlk x == g.1).length && !g.2.any fun e => unsim.contains e.1.no
  let vs := sims.map fun g => simBlock g.1 g.2
  let locks := vs.flatMap VSim.off
  let all := vs.flatMap fun v => v.seen.reverse
  let acc := all.flatMap (accesses w)
  let det :=
    if (w.job.image.map Image.det).getD false then
      (raceItems w all).map (offItem 0x1B) ++
      (all.filter fun x => anchorBad w acc x || rredAnchorBad w all x || collAnchorBad w x).map (offItem 0x19) ++
      (all.filter (exchangeBad w (sectData l 4) all acc)).map (offItem 0x1C)
    else []
  own ++ locks ++ det

/-- The report's order: sections, then commands (R120). -/
def reportLe (a b : Offence) : Bool :=
  let key := fun (o : Offence) => ((if o.sect = noIdx then 0 else o.sect + 1), (if o.idx = noIdx then 0 else o.idx + 1))
  (key a).1 < (key b).1 || ((key a).1 == (key b).1 && (key a).2 ≤ (key b).2)

/-- The reasons that the node checks with image verification host-assisted (R120). -/
def assistedReasons : List Nat := [0x01, 0x02, 0x03, 0x04, 0x05, 0x06]

/-- The offences of an image. Behind a malformed header, section or manifest nothing else is compared; a stream whose
loops or operand words are not sound is not walked. -/
def verify (s : State) (bs : List Byte) : List Offence :=
  let img := imageOffences bs
  if !img.isEmpty then img ++ (if 64 ≤ bs.length then memberOffences s bs else [])
  else
    let l := sectsOf bs
    let s1 := applyInits s (bufsOf l) (imageInits bs)
    let w := verifierNode s1 (imageOf s1 bs)
    let cmds := l.flatMap fun x => if x.type = 1 then sectOffences w l x else []
    let of_ := fun (rs : List Nat) => (cmds.filter fun o => rs.contains o.reason).map Offence.sect
    let found := memberOffences s bs ++ digestOffences bs ++ (l.filter (sectAbsent s)).map (offS 0x04) ++
      bufferOffences s l ++ initOffences s l ++ startOffences s1 l ++ hedgeOffences ((le bs 9 1).testBit 1) l ++ stateSetOffences w l ++
      patternOffences l ++ planOffences w l ++ cmds ++ walkOffences w l (of_ [0x05, 0x07, 0x11, 0x12]) (of_ [0x0E])
    let kept := if hostAssisted s 8 then found.filter fun o => assistedReasons.contains o.reason else found
    kept.eraseDups.mergeSort reportLe

end Sys2Proof.Machine
end

