-- ==== Sys2Proof/Machine/Load.lean ====
section
/-!
DEFINITION. Loading an image (04 R117 to R120, R405; 13 Table 13.8): the rows IMAGE_LOAD, VERIFY_REPORT, HOST_VERDICT and
IMAGE_UNLOAD.
-/
namespace Sys2Proof.Machine

/-! ### A load -/

/-- The tagged stream of a queue of a block: that of its COMMANDS section, empty where there is none (R98, R105). -/
def streamOf (l : List Sect) (gen : Byte) (b : Blk) (q : Qc) : List Cmd :=
  match l.find? fun x => x.type == 1 && x.queue == q.code && x.region == b.region.toNat && x.block == b.block.toNat with
  | some x => (cmdsOf x).map fun c => c.tagged gen
  | none => []

/-- The streams of every block of the grade. -/
def layStreams (s : State) (l : List Sect) (gen : Byte) : State :=
  (gradeBlocks s).foldl (fun t b =>
    Qc.all.foldl (fun u q => u.updQ b q fun _ => { stream := streamOf l gen b q }) t) s

/-- The image's plan enters the bank that is not active, where the node makes espaliers itself (02 R51, 13 Table 13.9). -/
def loadPlan (s : State) (img : Image) : State :=
  match img.plan with
  | some p => if hostAssisted s 0 then s else putPlan s (if (activePlan s).isSome then !s.fab.activeBank else false) p
  | none => s

/-- An accepted image is placed: INIT, streams with their tags, and the image's tables; it is loaded, or with image
verification host-assisted awaits its verdict (R105, R120, R405; measurement 5 of 14 Table 14.7). -/
def acceptImage (s : State) (bs : List Byte) : State :=
  let l := sectsOf bs
  let gen := nextGen s.job.lastGen
  let s1 := applyInits s (bufsOf l) (imageInits bs)
  let img := imageOf s1 bs
  let s2 := layStreams s1 l gen
  let host := hostAssisted s 8
  loadPlan { s2 with
    job := { s2.job with image := some img, loadGen := gen, lastGen := gen, det := img.det, hostVerified := host,
                         phase := if host then .awaiting else .loaded }
    sec := { s2.sec with meas := s2.sec.meas.set [] 5 img.digest } } img

/-- The outcome of a load: the verify report, the status, and the output payload. -/
def loadImage (s : State) (bs : List Byte) : State × Status × List Byte :=
  let s0 := substitute s
  let offs := verify s0 bs
  let d := imageDigest bs
  let s1 := { s0 with job := { s0.job with report := offs, reportDigest := d } }
  if offs.isEmpty then
    let t := acceptImage s1 bs
    (t, .ok, d ++ leBytes 1 t.job.loadGen.toNat)
  else (s1, .verify, d ++ leBytes 1 0)

/-- IMAGE_LOAD: the retired blocks are handled first (01 R28), then the image is verified, and placed if nothing is
found (R117). -/
def execImageLoad (buf : HostBuf) (s : State) : Host.Outcome State Fault Refusal :=
  .next (mbx s false false fun s => withBuf s buf fun s =>
    if s.job.phase ≠ .none ∨ (List.range 12).any (fun k => (s.stack k).state == .failed) then
      background s 0xC010 .state (List.replicate 65 0)
    else
      let r := loadImage s (rdHostN s buf.addr.toNat buf.len.toNat)
      background r.1 0xC010 r.2.1 r.2.2 r.1.job.report.length)

/-! ### The report, the verdict, the unload -/

/-- An entry of the verify report (R120). -/
def Offence.bytes (o : Offence) : List Byte :=
  let head := leBytes 1 o.reason ++ leBytes 1 o.queue
  let place := if o.queue = 0xFF then leBytes 2 (Config.reportPlace o.reason o.sect).toNat else leBytes 1 o.region ++ leBytes 1 o.block
  let b := head ++ place ++ leBytes 4 o.idx ++ leBytes 4 o.sect
  b ++ leBytes 4 (Config.reportDetail b).toNat

/-- The verify report of the last load (R120). -/
def reportOf (s : State) : List Byte :=
  let n := s.job.report.length
  leBytes 4 n ++ s.job.reportDigest.take 8 ++ leBytes 1 (bn (4096 < n)) ++ leBytes 3 0 ++
  (s.job.report.take 4096).flatMap Offence.bytes

/-- VERIFY_REPORT: the report of the last load to the host's buffer, as much of it as the buffer holds; before the first
load STATE. -/
def execVerifyReport (buf : HostBuf) (s : State) : Host.Outcome State Fault Refusal :=
  .next (mbx s false false fun s => withBuf s buf fun s =>
    if s.job.reportDigest.isEmpty then done s .state (leBytes 4 0)
    else
      let r := (reportOf s).take buf.len.toNat
      done (wrHostN s buf.addr.toNat r) .ok (leBytes 4 r.length))

/-- No image is loaded any more: its streams are gone and NODE_STEP shows none (R98, NODE_STEP). -/
def unloadImage (s : State) : State :=
  let s1 := (gradeBlocks s).foldl (fun t b => Qc.all.foldl (fun u q => u.updQ b q fun _ => {}) t) s
  { s1 with
    job := { s1.job with image := none, loadGen := 0, det := false, hostVerified := false, phase := .none }
    sec := { s1.sec with meas := s1.sec.meas.set [] 5 (List.replicate 64 0) } }

/-- HOST_VERDICT: the host's verifier accepts the image that awaits it, or refuses it, and it is unloaded (R120). -/
def execHostVerdict (digest : Bytes) (accept : Bool) (s : State) : Host.Outcome State Fault Refusal :=
  .next (mbx s false false fun s =>
    if digest.length ≠ 64 then invalid s
    else if !hostAssisted s 8 || s.job.phase != .awaiting || (s.job.image.map Image.digest) != some digest then done s .state
    else if accept then done { s with job := { s.job with phase := .loaded } } .ok
    else done (unloadImage s) .ok)

/-- IMAGE_UNLOAD (13 Table 13.8): no job may run. -/
def execImageUnload (s : State) : Host.Outcome State Fault Refusal :=
  .next (mbx s false false fun s =>
    if s.job.phase = .running then done s .state else done (unloadImage s) .ok)

end Sys2Proof.Machine
end

