-- ==== Sys2Proof/Machine/RegWrite.lean ====
section
/-!
DEFINITION. Writes of registers by the host, by harts and by firmware under their access codes (00 R10, R11), and the
rows SAT_COUNTER_READ, BLK_FLAGS, PAN_FLAGS and REGISTER_WRITE.
-/
namespace Sys2Proof.Machine

/-- An offset of the internal register space that is a saturation counter (01 R34). -/
def isSat (o : Nat) : Bool :=
  o == 0x100 || o == 0x108 ||
  (decide (0x10_0000 ≤ o ∧ o < 0x14_0000) && (o % 0x1_0000 == 0x100 || o % 0x1_0000 == 0x108)) ||
  (match blockReg o with
   | some (_, k) => k == 0x100 || k == 0x108 || k == 0x110
   | none => false)

/-- W1C bits of BLK_FLAGS (03 R92). -/
def clearBlkFlags (s : State) (b : Blk) (v : W64) : State :=
  s.updBlk b fun k => { k with flags := k.flags &&& ~~~ (BitVec.ofNat 16 v.toNat) }

/-- W1C bits of PAN_FLAGS (03 R92). -/
def clearPanFlags (s : State) (st : Nat) (v : W64) : State :=
  s.setStack st { s.stack st with flags := (s.stack st).flags &&& ~~~ (BitVec.ofNat 4 v.toNat) }

/-- BLK_FLAGS: a W1C write (03 R92). -/
def execBlkFlags (b : Blk) (v : W64) (s : State) : Host.Outcome State Fault Refusal :=
  .next (if b.block.toNat < s.fuses.grade.blocksPerRegion then clearBlkFlags s b v else s)

/-- PAN_FLAGS: a W1C write (03 R92). -/
def execPanFlags (stack : BitVec 4) (v : W64) (s : State) : Host.Outcome State Fault Refusal :=
  .next (if stack.toNat < 12 then clearPanFlags s stack.toNat v else s)

/-- ESP_CTRL: its RW fields, then a cancel, then an arm, by the bits set (02). -/
def writeEsp (s : State) (v : W64) : State :=
  let s1 := { s with fab := { s.fab with epochSlot := BitVec.ofNat 48 v.toNat, ctrlBank := wbit v 48 } }
  let s2 := if wbit v 50 then cancelArm s1 else s1
  if wbit v 49 then arm s2 else s2

/-- A 64-bit write of an internal register under its fields' access codes; read-only, reserved and unassigned bits ignore
it (R10, R11). -/
def regWrite (s : State) (o : Nat) (v : W64) : State :=
  if o = 0x2_0000 then writeEsp s v
  else if 0x5_0000 ≤ o ∧ o < 0x5_8000 ∧ o % 8 = 0 then
    { s with apt := s.apt.set 0 ((o - 0x5_0000) / 8) (v &&& 0x03FF_FFFF_FFFF_FFFF) }
  else if 0x5_9000 ≤ o ∧ o < 0x5_9400 ∧ o % 8 = 0 then
    let h : BitVec 6 := BitVec.ofNat 6 ((o - 0x5_9000) / 16)
    if hartPresent s h then
      if o % 16 = 0 then s.updHart h fun t => { t with msip := wbit v 6 } else s.updHart h fun t => { t with tcmp := v }
    else s
  else if 0x4_0000 ≤ o ∧ o < 0x4_C000 then
    let st := (o - 0x4_0000) / 0x1000
    if o % 0x1000 = 0x008 then clearPanFlags s st v
    else if o % 0x1000 = 0x018 ∧ 1 ≤ fld v 0 8 ∧ fld v 0 8 ≤ 168 then
      s.setStack st { s.stack st with rakePeriod := BitVec.ofNat 8 (fld v 0 8) }
    else s
  else if o = 0x9_0000 then
    if wbit v 44 then { s with pwr := { s.pwr with hwThrottle := false } } else s
  else
    match blockReg o with
    | some (b, k) => if k = 0x040 ∧ b.block.toNat < s.fuses.grade.blocksPerRegion then clearBlkFlags s b v else s
    | none => s

/-- HRW_LEASE written: late is cleared by a 1, and op acts with the holder written beside it (13 R340). -/
def leaseWrite (s : State) (v : W64) : State :=
  let s1 := if wbit v 36 then { s with host := { s.host with late := false } } else s
  let holder := BitVec.ofNat 32 v.toNat
  match fld v 32 2 with
  | 1 => leaseTake s1 holder
  | 2 => leaseRenew s1 holder
  | 3 => leaseRelease s1 holder
  | _ => s1

/-- A ring's index register written: cons alone can be. -/
def consWrite (s : State) (ring : Nat) (v mask : W64) : State :=
  if wbit mask 32 then ringCons s ring (BitVec.ofNat 32 (v.toNat >>> 32)) else s

/-- A write that the HRW takes, with a mask of its bits: of 8 bytes, or of either half (13 R326, Table 13.3). -/
def hrwWrite (s : State) (o : Nat) (v mask : W64) : State :=
  let w := v &&& mask
  if 0x40_0000 ≤ o ∧ o < 0x40_0038 then emWrite s ((o - 0x40_0000) / 8) w mask
  else if o = 0x30_0000 then
    if wbit w 6 then { s with host := { s.host with emOverflow := false } } else s
  else if o = 0x30_0008 then leaseWrite s (w ||| (BitVec.zeroExtend 64 s.host.holder &&& ~~~ mask))
  else if o = 0x30_0010 then intCause s (BitVec.ofNat 8 w.toNat)
  else if o = 0x30_0018 then (if wbit mask 0 then intMask s (BitVec.ofNat 8 w.toNat) else s)
  else if o = 0x30_0020 then consWrite s 0 w mask
  else if o = 0x30_0028 then consWrite s 1 w mask
  else if o = 0x30_0030 then consWrite s 2 w mask
  else s

/-- HRW_STATUS.job: the job's phase, with the hold of one that runs (13); an image that awaits its verdict is not loaded. -/
def jobCode (s : State) : Nat :=
  match s.job.phase with
  | .none | .awaiting => 0
  | .loaded => 1
  | .running => match s.hold.state with
    | .run => 2
    | .holding => 3
    | .held => 4
    | .resetting => 5

/-- HRW_STATUS (13). -/
def hrwStatus (s : State) : Nat :=
  let h := s.host
  let node := match h.node with
    | .start => 0
    | .ready => 1
    | .recovery => 2
    | .halted => 3
  pk [(0, 3, node), (3, 3, jobCode s), (6, 1, bn h.emOverflow), (7, 1, bn s.sec.crashValid), (8, 10, s.ncr.leaseMs),
    (18, 1, bn h.bg.isSome), (19, 1, bn h.cbufStall)]

/-- HRW_LEASE (13 R340). -/
def hrwLease (s : State) : Nat :=
  let h := s.host
  pk [(0, 32, h.holder.toNat), (34, 1, bn h.leaseHeld), (35, 1, bn h.orphan), (36, 1, bn h.late)]

/-- A ring's index register (R329). -/
def ringIdx (r : Ring) : Nat := pk [(0, 32, r.prod.toNat), (32, 32, r.cons.toNat)]

/-- What a host read of the HRW gives, and the state after it: the registers of Table 13.3, the emulated ones as last
applied (R327), and the view of the node's and the regions' registers; 0 where nothing is assigned (R326; log 20). -/
def hrwRead (s : State) (o : Nat) : Nat × State :=
  let h := s.host
  if o = 0x20_1000 then (h.msixPend.toNat, s)
  else if o = 0x30_0000 then (hrwStatus s, s)
  else if o = 0x30_0008 then (hrwLease s, s)
  else if o = 0x30_0010 then (h.cause.toNat, s)
  else if o = 0x30_0018 then (h.mask.toNat, s)
  else if o = 0x30_0020 then (ringIdx h.cring, s)
  else if o = 0x30_0028 then (ringIdx h.ering, s)
  else if o = 0x30_0030 then (ringIdx h.lring, s)
  else if o = 0x30_0038 then (emPending s, s)
  else if 0x40_0000 ≤ o ∧ o < 0x40_0038 ∧ o % 8 = 0 then ((emValue s ((o - 0x40_0000) / 8)).toNat, s)
  else if 0x80_0000 ≤ o ∧ o < 0x100_0000 then regRead s (o - 0x80_0000)
  else (0, s)

/-- SAT_COUNTER_READ: a counter is read and cleared (01 R34). An address below 16 MiB, which is no register's NPA, is the
HRW offset of a host read: no other row of the table reads the HRW, and the counters of the node and the regions stand in
its view (13 R326; log 70). -/
def execSatCounterRead (npa : W64) (s : State) : Host.Outcome State Fault Refusal :=
  .next (
    if npa.toNat < 0x100_0000 then overLink s fun s =>
      let o := npa.toNat
      if o % 4 ≠ 0 then violation s (.badHrwAccess true) []
      else
        let (v, t) := hrwRead s (o - o % 8)
        hostAnswer t (if o % 8 = 0 then leBytes 8 v else leBytes 4 (v >>> 32)) false
    else match place s npa.toNat with
      | .reg o =>
        if isSat o then
          let (v, t) := regRead s o
          hostAnswer t (leBytes 8 v) false
        else s
      | _ => s)

/-- A host write to the HRW: kinds 2, 3 and 4 of Table 11.7 first. -/
def hostWrite (s : State) (o size : Nat) (v : W64) (poison : Bool) : State :=
  if 0x100_0000 < o + size then violation s (.badFunctionOrBar false) []
  else if (size ≠ 4 ∧ size ≠ 8) ∨ o % size ≠ 0 then violation s (.badHrwAccess false) []
  else if poison then violation s .poisonedTlp []
  else if size = 8 then hrwWrite s o v 0xFFFF_FFFF_FFFF_FFFF
  else if o % 8 = 0 then hrwWrite s o v 0x0000_0000_FFFF_FFFF
  else hrwWrite s (o - 4) (BitVec.ofNat 64 (v.toNat <<< 32)) 0xFFFF_FFFF_0000_0000

/-- REGISTER_WRITE: by the host at an HRW offset; by a hart, which may store to the registers of R271 and else takes the
access fault; by firmware at an NPA, 8 bytes (R10). -/
def execRegisterWrite (by_ : Requester) (addr : W64) (size : Nat) (v : W64) (poison : Bool) (s : State) :
    Host.Outcome State Fault Refusal :=
  let o := addr.toNat - 0x300_0000_0000
  let internal := (0x300_0000_0000 ≤ addr.toNat ∧ addr.toNat < 0x300_0200_0000 : Bool)
  .next (match by_ with
    | .host => overLink s fun s => hostWrite s addr.toNat size v poison
    | .hart h =>
      if !internal || (s.hart h).state != .running then s
      else if size = 0 ∨ o % size ≠ 0 then takeTrap s h false 6 addr
      else match physStore s h addr addr.toNat size v.toNat with
        | (t, none) => t
        | (t, some c) => takeTrap t h false c addr
    | .firmware => if internal && size == 8 && o % 8 == 0 then regWrite s o v else s)

end Sys2Proof.Machine
end

