-- ==== Sys2Proof/Machine/Time.lean ====
section
/-!
DEFINITION. Hall time (02 R42 to R48, 16 R395, R396): the time unit's states, its master, the ports' links, and the rows
PTP_MESSAGE, HOLDOVER, LOCKED, TIME_TAKEOVER, PPS_IN, PPS_OUT, PPS_SECOND, TIM_NOW_NS, PORT_DOWN, PORT_UP,
ANNOUNCE_RECEIPT_TIMEOUT, BMCA_EXCLUSION_END and ESMC.
-/
namespace Sys2Proof.Machine

/-- The node is the hall's grandmaster. -/
def isReference (s : State) : Bool := s.ncr.timeRole == .reference

/-- The best of the masters heard, by the data set that `master` stands for, smaller being better (log 35). -/
def bestMaster (l : List (Nat × Nat)) : Option (Nat × Nat) :=
  l.foldl (fun a m => match a with
    | some b => if m.1 < b.1 then some m else some b
    | none => some m) none

/-- The masters heard that are not excluded (R47). -/
def eligible (t : Timing) : List (Nat × Nat) := t.masters.filter fun m => !t.excluded.any fun x => x.1 == m.1

/-- The master the node would follow: by the best master clock algorithm in hardware mode of time discipline; in
host-assisted mode the one it follows, while it is heard, else one of the host's choosing, for which no command is
given: a free choice among those heard (13 Table 13.9; log 35). -/
def choice (s : State) : Option (Nat × Nat) :=
  let l := eligible s.tim
  if hostAssisted s 1 then
    match s.tim.master.bind fun w => l.find? fun m => m.1 == w.toNat with
    | some m => some m
    | none => l[(Config.freeWord s.free).toNat % l.length]?
  else bestMaster l

/-- The port whose recovered clock syntonises the unit: of the ports that are up, the one whose ESMC gave the best
quality level, not 15; none for REFERENCE (R42; log 35). -/
def syncePort (s : State) : BitVec 4 :=
  if isReference s then 15
  else
    let l := (List.range 8).filterMap fun p =>
      let k := s.port p
      if k.link == .up then (k.esmc.filter (· != 15)).map fun q => (q.toNat, p) else none
    ((bestMaster l).map fun m => BitVec.ofNat 4 m.2).getD 15

/-- SyncE chooses anew. -/
def resyntonise (s : State) : State := { s with tim := { s.tim with syncePort := syncePort s } }

/-- The unit falls to a state without service: scheduled service ends, PPS_OUT stays low (Table 02.2; 16 R396). -/
def noService (s : State) (v : TimState) : State :=
  let s1 := leaveService { s with tim := { s.tim with state := v, goodSince := none, holdFrom := none, lockedSince := none } }
  traceHw { s1 with pwr := { s1.pwr with ppsOut := false } } 0

/-- The node follows a master, or none. A newly selected master brings ACQUIRING; with none, a unit that gives service
stays in its state until it is OUT, and any other is FREE (Table 02.2; log 35). -/
def followMaster (s : State) (m : Option (Nat × Nat)) : State :=
  let s1 := drew { s with tim := { s.tim with
    master := m.map fun x => BitVec.ofNat 64 x.1
    masterPort := (m.map fun x => BitVec.ofNat 4 x.2).getD 15 } }
  match m with
  | some x =>
    if s.tim.master = some (BitVec.ofNat 64 x.1) then s1
    else noService { s1 with tim := { s1.tim with badSyncs := 0 } } .acquiring
  | none => if givesService s1.tim.state then s1 else noService s1 .free

/-- The node selects its master anew; a REFERENCE node follows none. -/
def selectMaster (s : State) : State := if isReference s then s else followMaster s (choice s)

/-! ### PTP messages (R47) -/

/-- A message that R47 discards: malformed, of another domain, of a wrong sequenceId, with a correctionField above 1 ms,
or, while locked, an offset step of more than 8 ns from the servo's prediction. -/
def ptpBad (s : State) (m : PtpMsg) : Bool :=
  m.malformed || m.domain != s.ncr.ptpDomain || !m.seqOk || decide (1_000_000 < m.corrNs.natAbs) ||
  (s.tim.state == .locked && decide (8000 < (m.offsetPs - s.tim.errPs).natAbs))

/-- A discarded message is counted; the third discarded Sync in a row from the selected master excludes it for 60 s. -/
def ptpDiscard (s : State) (m : PtpMsg) : State :=
  let s1 := { s with tim := { s.tim with ptpBad := satAdd s.tim.ptpBad 1 } }
  if m.isSync ∧ s.tim.master = some m.master then
    if 3 ≤ s.tim.badSyncs + 1 then
      selectMaster { s1 with tim := { s1.tim with
        badSyncs := 0, excluded := s1.tim.excluded ++ [(m.master.toNat, s1.tim.now + 60_000_000_000)] } }
    else { s1 with tim := { s1.tim with badSyncs := s1.tim.badSyncs + 1 } }
  else s1

/-- An Announce names a master heard on a port. -/
def announce (s : State) (m : PtpMsg) : State :=
  let t := s.tim
  let l := (m.master.toNat, m.port.toNat) :: t.masters.filter fun x => x.1 != m.master.toNat
  selectMaster { s with tim := { t with
    masters := l, lastAnnounce := if t.master = some m.master then t.now else t.lastAnnounce } }

/-- When time_err last came within 2 ns, given a new estimate. -/
def goodFrom (t : Timing) (e : Int) : Option Nat :=
  if e.natAbs ≤ 2000 then some (t.goodSince.getD t.now) else none

/-- A valid Sync of the selected master gives the servo its offset. In a state that gives no service the servo steps hall
time onto the master's, leaving less than a nanosecond; else the offset is the new time_err (log 35). -/
def sync (s : State) (m : PtpMsg) : State :=
  let t := s.tim
  if t.master = some m.master then
    if givesService t.state then
      { s with tim := { t with errPs := m.offsetPs, lastSync := t.now, badSyncs := 0, goodSince := goodFrom t m.offsetPs,
                               holdFrom := t.holdFrom.map fun _ => (t.hall, m.offsetPs) } }
    else
      let hall := ((t.hall : Int) - m.offsetPs / 1000).toNat % 2 ^ 64
      let e := m.offsetPs % 1000
      { s with
        tim := { t with hall := hall, errPs := e, lastSync := t.now, badSyncs := 0, goodSince := goodFrom t e }
        fab := { s.fab with nextSlot := hall / 64 + 1 } }
  else s

/-- A message outside the profile of Table 02.3: tagged, to a forwardable address, of another version, or of another delay
mechanism. -/
def ptpUnlisted (m : PtpMsg) : Bool := m.tagged || m.forwardable || m.version != 0x12 || m.peerDelay

/-- A PTP message comes: one outside the profile is discarded and counted at its port (R42), one that R47 names as well
(R47). A REFERENCE node has no master, and uses none. -/
def ptpMessage (s : State) (m : PtpMsg) : State :=
  if ptpUnlisted m then (if m.port.toNat < 8 then dropOther s m.port.toNat else s)
  else if ptpBad s m then ptpDiscard s m
  else if isReference s then s
  else
    let s1 := if m.isAnnounce then announce s m else s
    if m.isSync then sync s1 m else s1

/-! ### The states of Table 02.2 -/

/-- The unit is LOCKED. Where service has never been lost and no plan runs it begins at once; else it returns after 1 s,
at a plan-period boundary (R45; log 35). -/
def lock (s : State) : State :=
  let s1 := traceHw { s with tim := { s.tim with state := .locked, lockedSince := some s.tim.now, holdFrom := none } } 0
  if s1.tim.lost = false ∧ (activePlan s1).isNone then enterService s1 else s1

/-- LOCKED may be entered: time_err has stayed within 2 ns for 1 s; in the REFERENCE role PPS_IN and TIME_REF have been
stable for 10 s and the TAI second is known (Table 02.2; 14 R355). -/
def mayLock (s : State) : Bool :=
  let t := s.tim
  let since := fun (x : Option Nat) (d : Nat) => match x with
    | some n => decide (n + d ≤ t.now)
    | none => false
  t.state != .locked && t.errPs.natAbs ≤ 2000 &&
  (if isReference s then since t.refSince 10_000_000_000 && t.goodSince.isSome
   else t.master.isSome && since t.goodSince 1_000_000_000)

/-- The master has been silent for 8 Sync intervals of 2^-7 s, and the node is within 8 ns (Table 02.2). -/
def mayHoldover (s : State) : Bool :=
  s.tim.state == .locked && !isReference s && decide (s.tim.lastSync + 62_500_000 ≤ s.tim.now) &&
  decide (s.tim.errPs.natAbs ≤ 8000)

/-- The selected master has announced nothing for 3 intervals of 2^-3 s (Table 02.3). -/
def announceLate (s : State) : Bool :=
  s.tim.master.isSome && decide (s.tim.lastAnnounce + 375_000_000 ≤ s.tim.now)

/-! ### The rows -/

/-- PTP_MESSAGE (R47). -/
def execPtpMessage (m : PtpMsg) (s : State) : Host.Outcome State Fault Refusal := .next (ptpMessage s m)

/-- HOLDOVER: no valid Sync for 8 intervals, with time_err within 8 ns (Table 02.2). -/
def execHoldover (s : State) : Host.Outcome State Fault Refusal :=
  .next (if mayHoldover s then
    traceHw { s with tim := { s.tim with state := .holdover, holdFrom := some (s.tim.hall, s.tim.errPs), goodSince := none } } 0
  else s)

/-- LOCKED: time_err within 2 ns for 1 s without a break (Table 02.2). -/
def execLocked (s : State) : Host.Outcome State Fault Refusal := .next (if mayLock s then lock s else s)

/-- TIME_TAKEOVER: the standby unit takes over from the primary, with a phase step of at most 0.5 ns, which nothing fixes
(log 3); the takeover is logged (02 *Hall time*). -/
def execTimeTakeover (s : State) : Host.Outcome State Fault Refusal :=
  .next (if s.tim.unit then s
  else
    let d : Int := (((Config.freeWord s.free).toNat % 1001 : Nat) : Int) - 500
    record (drew { s with tim := { s.tim with unit := true, errPs := s.tim.errPs + d } }) .timeTakeover
      { unitKind := 7, unit := 1, detail := detailF 1 0 0 })

/-- PPS_IN: in the REFERENCE role the edge marks the TAI second that PPS_SECOND gave, and the next edge the next; in other
roles PPS_IN is not used (16 R395). -/
def execPpsIn (s : State) : Host.Outcome State Fault Refusal :=
  .next (if isReference s then
    let t := s.tim
    let t1 := { t with refSince := some (t.refSince.getD t.now), state := if t.state = .free then .acquiring else t.state }
    let s1 := if t.state = .free then traceHw s 0 else s
    match t.ppsSecond with
    | some x =>
      let hall := x * 1_000_000_000 % 2 ^ 64
      { s1 with
        tim := { t1 with hall := hall, errPs := 0, goodSince := some (t.goodSince.getD t.now), ppsSecond := some (x + 1) }
        fab := { s1.fab with nextSlot := hall / 64 + 1 } }
    | none => { s1 with tim := t1 }
  else s)

/-- PPS_OUT: at a whole second of hall time, LOCKED or in HOLDOVER, the contact rises for 100 ms (16 R396). -/
def execPpsOut (s : State) : Host.Outcome State Fault Refusal :=
  .next (if givesService s.tim.state ∧ s.tim.hall % 1_000_000_000 = 0 then
    { s with pwr := { s.pwr with ppsOut := true, ppsFalls := s.tim.hall + 100_000_000 } }
  else s)

/-- PPS_SECOND: the TAI second of the next PPS_IN edge; time role REFERENCE (13 Table 13.8). -/
def execPpsSecond (second : W64) (s : State) : Host.Outcome State Fault Refusal :=
  .next (mbx s false false fun s =>
    if isReference s then done { s with tim := { s.tim with ppsSecond := some second.toNat } } .ok else done s .state)

/-- TIM_NOW_NS: a read of hall time, which latches its fraction (R40, TIM_NOW_NS). -/
def execTimNowNs (s : State) : Host.Outcome State Fault Refusal :=
  .next (
    let (v, t) := regRead s 0x1_0000
    { t with host := { t.host with answer := leBytes 8 v, poison := false } })

/-- PORT_DOWN: a port loses its link, with a record (11 Table 11.4). -/
def execPortDown (port : BitVec 3) (s : State) : Host.Outcome State Fault Refusal :=
  .next (
    let p := port.toNat
    let k := s.port p
    if k.link = .down then s
    else
      let s1 := resyntonise (showService (s.setPort p { k with link := .down, esmc := none }))
      record s1 .portDown { unitKind := 6, unit := p, detail := detailD p 0 0xFFFF 0 0 0 [] })

/-- PORT_UP: a port that the NCR enables finishes its training (R42; 14 Table 14.5 step 7). -/
def execPortUp (port : BitVec 3) (s : State) : Host.Outcome State Fault Refusal :=
  .next (
    let p := port.toNat
    if (s.ncr.ports.getD p {}).enabled then resyntonise (showService (s.setPort p { s.port p with link := .up })) else s)

/-- ANNOUNCE_RECEIPT_TIMEOUT: the selected master has fallen silent; the node selects among the others (Table 02.3). -/
def execAnnounceReceiptTimeout (s : State) : Host.Outcome State Fault Refusal :=
  .next (if announceLate s then
    let t := s.tim
    selectMaster { s with tim := { t with masters := t.masters.filter fun m => some (BitVec.ofNat 64 m.1) != t.master } }
  else s)

/-- BMCA_EXCLUSION_END: the 60 s of an exclusion are over (R47). -/
def execBmcaExclusionEnd (master : W64) (s : State) : Host.Outcome State Fault Refusal :=
  .next (
    let t := s.tim
    if t.excluded.any fun x => x.1 == master.toNat && decide (x.2 ≤ t.now) then
      selectMaster { s with tim := { t with excluded := t.excluded.filter fun x => !(x.1 == master.toNat && decide (x.2 ≤ t.now)) } }
    else s)

/-- ESMC: a port's quality level informs the choice of the SyncE port (Table 02.1). -/
def execEsmc (port : BitVec 4) (ql : BitVec 4) (s : State) : Host.Outcome State Fault Refusal :=
  .next (if port.toNat < 8 then resyntonise (s.setPort port.toNat { s.port port.toNat with esmc := some ql }) else s)

end Sys2Proof.Machine
end

