-- ==== Sys2Proof/Machine/Start.lean ====
section
/-!
DEFINITION. Resets, holds and the start sequence (14 R353 to R365; 15 R368 to R370, R379; 16 R398, R399): the rows
POWER_ON, POWER_DOWN, RESET_N, PERST_N, CXL_RESET, SELF_RESET, START_SEQUENCE, TAMPER, TAMPER_CLEAR, SUPPLY_ORDER,
RAIL_DROOP, LIMIT_TRIP and LIMITER_HOLD_END.
-/
namespace Sys2Proof.Machine

/-! ### What a whole-node reset leaves (R353) -/

/-- A channel after reset: its fused lane remaps alone (07 R183, R209). -/
def coldChan (c : Chan) : Chan :=
  { spare0 := c.spare0.filter (c.hard.contains ·), spare1 := c.spare1.filter (c.hard.contains ·), hard := c.hard }

/-- A stack after reset: its fused repairs alone. -/
def coldStack (k : Stack) : Stack :=
  { repairs := k.repairs.filter RowRepair.hard, hardRows := k.hardRows, hardLanes := k.hardLanes
    spareRows := k.spareRows + BitVec.ofNat 16 (k.repairs.filter fun r => !r.hard).length
    chans := k.chans.mapV {} fun _ c => coldChan c }

/-- What the security core keeps: the flash, but for a slot whose writing the reset cuts short (R352), the retained store
with the crash record and an open maintenance stop, and the debug state, which an arm turns into an unlock at this reset,
unless a tamper cancels it (R353, R364; 07 R209, 15 R384). A nonce is drawn afresh (R362). -/
def coldSec (s : State) (tamper : Bool) : Sec :=
  let c := s.sec
  let un := c.armed && !tamper
  let kept := fun (n : Nat) (bs : List Byte) =>
    if c.writing = some n ∧ s.host.bg.any (fun g => g.opcode == 0xC002) then [] else bs
  { ncr0 := kept 0 c.ncr0, ncr1 := kept 1 c.ncr1, enrol := kept 2 c.enrol, bundle0 := kept 3 c.bundle0
    bundle1 := kept 4 c.bundle1, flashBad := c.flashBad
    unlocked := un, mask := if un then c.armMask else 0
    tamperCount := c.tamperCount
    nonce := entropy s.free 32
    candidates := c.candidates, awaitBurn := c.awaitBurn, awaitLanes := c.awaitLanes, rakeHist := c.rakeHist
    rakePasses := c.rakePasses + ((List.range 12).map fun i => (s.stack i).rakePasses.toNat).foldl max 0 + 1
    crash := c.crash, crashValid := c.crashValid
    maint := c.maint, maintReset := c.maint }

/-- What the power core and the pins keep: the holds, the pins driven from outside, the I3C target, and the hall time from
which the outage counts (R353; 15 R379, R384, R387; 16 R397, R399). -/
def coldPwr (s : State) : Power :=
  let p := s.pwr
  { railsUp := p.railsUp, tamperHold := p.tamperHold, supplyHold := p.supplyHold, limiterHold := p.limiterHold
    limiterBelow := p.limiterBelow, selfWanted := p.selfWanted, clocksStopped := p.clocksStopped, tripN := p.tripN
    outageFrom := some (p.outageFrom.getD s.tim.hall), lastOutage := p.lastOutage
    resetN := p.resetN, perstN := p.perstN, i3cAddr := p.i3cAddr, i3cImage := i3cHeld s }

/-- A whole-node reset begins: everything volatile goes, keys and memory with it; fuses, flash, the retained store and the
world outside stay; RDY_N rises (R206, R353; 16 R398). -/
def wholeReset (s : State) (tamper : Bool) : State :=
  let r : State := {}
  { r with
    pending := s.pending, free := s.free + 32, stk := s.stk.mapV {} fun _ k => coldStack k
    fuses := s.fuses, sec := coldSec s tamper, pwr := coldPwr s
    host := { r.host with mem := s.host.mem, ibi := s.host.ibi, msix := s.host.msix } }

/-- Some hold keeps the node in reset (16 R399). -/
def heldInReset (s : State) : Bool := s.pwr.tamperHold || s.pwr.supplyHold || s.pwr.limiterHold

/-- The loss of VDD_CT takes the retained store (R353; 07 R209; 15 R385). -/
def loseRetained (s : State) : State :=
  { s with
    sec := { s.sec with candidates := [], awaitBurn := [], awaitLanes := [], rakeHist := [], rakePasses := 0
                        crash := none, crashValid := false, maint := false, maintReset := false }
    pwr := { s.pwr with outageFrom := none, lastOutage := 0xFFFF_FFFF } }

/-! ### The start sequence (R354) -/

/-- The bytes of the fused state that measurements 4 and 7 hash: owner key hash, security versions, grade, debug state
(Table 14.7; the layout is the model's: log 16). -/
def fusedState (s : State) : List Byte :=
  (s.fuses.ownerHash.getD (List.replicate 64 0)) ++ leBytes 1 s.fuses.bundleSvn ++ leBytes 1 s.fuses.ncrSvn ++
  leBytes 1 (if s.fuses.grade = .A then 0 else 1) ++ leBytes 1 (bn s.sec.unlocked) ++ leBytes 4 s.sec.mask.toNat

/-- Records a measurement. -/
def measure (s : State) (i : Nat) (d : List Byte) : State := { s with sec := { s.sec with meas := s.sec.meas.set [] i d } }

/-- Step 1: a pending enrolment is burnt and its slot erased; a burn that fails is logged (R351); measurements 1 and 4. -/
def step1 (s : State) (e : StartEnv) : State :=
  let s1 := if s.fuses.ownerHash.isNone ∧ e.flashOk = true then
      match inSlot s .enrol with
      | some c =>
        if e.burnOk then { putSlot s .enrol [] with fuses := { s.fuses with ownerHash := some (shake256 c.signerKey) } }
        else logEntry s 4 0 4 []
      | none => s
    else s
  measure (measure s1 1 Config.bootRomDigest) 4 (shake256 (fusedState s1))

/-- The cause of recovery: 3 flash unreadable, 2 every slot that passes signature and digest fails its version, 1 none
passes them; 0 for none (R347). -/
def recoveryCause (s : State) (e : StartEnv) : Nat :=
  if e.flashOk = false then 3
  else if (bestSlot s .bundle0 .bundle1).isSome then 0
  else
    let passed := [Slot.bundle0, .bundle1].filterMap fun l => (containerOf (slotBytes s l) 1).filter (sigOk s)
    if passed.isEmpty || passed.any (svnOk s) then 1 else 2

/-- Step 2: the bundle and the NCR are selected, measurements 2 and 3 taken, and the AK derived (R347, R349, R357). -/
def step2 (s : State) (e : StartEnv) : State :=
  let bundle := if e.flashOk then bestSlot s .bundle0 .bundle1 else none
  let rec_ := if e.flashOk ∧ s.fuses.ownerHash.isSome then bestSlot s .ncr0 .ncr1 else none
  let n := match rec_ with
    | some (_, c) => ncrOf s.fuses c.payload
    | none => ncrDefault s.fuses
  let m2 := match bundle with
    | some (l, c) => shake256 (slice (slotBytes s l) 0 384 ++ Config.componentTable c.payload)
    | none => List.replicate 64 0
  let m3 := match rec_ with
    | some (l, c) => shake256 ((slotBytes s l).take (384 + c.length))
    | none => List.replicate 64 0
  let s1 := measure (measure s 2 m2) 3 m3
  let secret := shake256 Config.pufAndSeed
  let ak := (shake256 (secret ++ m2 ++ m3 ++ s1.sec.meas.get [] 4 ++ ascii "AK")).take 57
  let s2 := { s1 with
    ncr := n
    host := { s1.host with mode := n.modeWord }
    sec := { s1.sec with
      ak := ak, ncrValid := rec_.isSome, ncrSlot := (rec_.map fun x => x.1 == Slot.ncr1).getD false
      runNcrSvn := (rec_.map fun x => x.2.svn).getD 0
      bundleSlot := (bundle.map fun x => x.1 == Slot.bundle1).getD false
      runSvn := (bundle.map fun x => x.2.svn).getD 0
      fwVersion := (bundle.map fun x => Config.bundleVersion x.2.payload).getD 0
      recovery := BitVec.ofNat 4 (recoveryCause s e), boot := if bundle.isSome then 2 else 3, lastStep := 2 } }
  match rec_ with
  | some (_, c) => (ncrFaults s.fuses c.payload).foldl (fun t o => logEntry t 4 0 3 (leBytes 2 o)) s2
  | none => s2

/-- The ports of a fabric die that the NCR enables. -/
def dieEnabled (s : State) (die : Nat) : Bool := (List.range 4).any fun p => (s.ncr.ports.getD (4 * die + p) {}).enabled

/-- Steps 3 and 4: the domains on, but a fabric die's SerDes with no port enabled; the compute dies at their highest level
(R371, R372). -/
def step3 (s : State) : State :=
  let off := (if dieEnabled s 0 then 0 else 2 ^ 18) + (if dieEnabled s 1 then 0 else 2 ^ 19)
  let s1 := { s with pwr := { s.pwr with domains := BitVec.ofNat 20 (0xFFFFF - off), tripN := true } }
  (List.range 4).foldl (fun t d =>
    let m := topLevel t d
    t.setDie d { t.die d with clockMhz := m, vddMv := levelMv t d m }) s1

/-- A physical block that fails its test at start, in its region: a logical block is treated as retired, and awaits its
substitution; a block of the coppice is retired and not free (01 R28, R39; log 23). -/
def failBlock (g : Grade) (r : Region) (p : Nat) : Region :=
  let bit := BitVec.ofNat 32 (2 ^ p)
  let cop := BitVec.ofNat 2 (2 ^ (p - 32))
  if p < g.blocksPerRegion ∧ r.dead.toNat.testBit p = true then r
  else if p < g.blocksPerRegion then
    { r with dead := r.dead ||| bit, pending := r.pending ||| bit, retiredCount := satAdd r.retiredCount 1 }
  else if p = 32 ∨ p = 33 then
    { r with coppiceFree := r.coppiceFree &&& ~~~ cop, coppiceRetired := r.coppiceRetired ||| cop }
  else r

/-- A physical block of a region fails its test. -/
def failAt (s : State) (n p : Nat) : State :=
  if n < 4 then s.setRegion n (failBlock s.fuses.grade (s.region n) p) else s

/-- A column of a physical block's array fails its test: it is retired and logged, the spare in its place; with a second
one the block fails (01 R19, R20; log 23). -/
def failColumn (s : State) (n p col row : Nat) : State :=
  let b : Blk := ⟨BitVec.ofNat 2 n, BitVec.ofNat 6 p⟩
  if 4 ≤ n ∨ 33 ≤ col ∨ 32 ≤ row ∨ (s.fuses.grade.blocksPerRegion ≤ p ∧ p ≠ 32 ∧ p ≠ 33) then s
  else match (s.blk b).tns.retired with
    | none => record (s.updBlk b fun k => { k with tns := { k.tns with retired := some (col, row) } }) .columnRetire
        { unitKind := 0, unit := b.key, detail := detailB n p col row 0 }
    | some (c, _) => if c = col then s else failAt s n p

/-- Step 4: every physical block is tested, and its array's columns (01 R20, R39). -/
def step4 (s : State) (e : StartEnv) : State :=
  let s1 := e.blockFails.foldl (fun t x => failAt t x.1 x.2) s
  e.columnFails.foldl (fun t x => failColumn t x.1 x.2.1 x.2.2.1 x.2.2.2) s1

/-- A soft repair that awaits it is burnt and leaves the list; with no hard resource left it stays (07 R209). -/
def burnRow (s : State) (e : Nat × RowRepair) : State :=
  let r := { e.2 with hard := true }
  if rowFree s e.1 r then repairRow s e.1 r else { s with sec := { s.sec with awaitBurn := s.sec.awaitBurn ++ [e] } }

/-- A soft remap that awaits it is burnt and leaves the list, as does one that is burnt already; with no spare lane left it
stays (07 R209). -/
def burnLane (s : State) (e : Nat × Nat × Nat) : State :=
  let k := s.stack e.1
  let c := k.chan e.2.1
  let lane := e.2.2
  if c.hard.contains lane then s
  else if c.spare0.isSome && c.spare1.isSome then
    { s with sec := { s.sec with awaitLanes := s.sec.awaitLanes ++ [e] } }
  else
    let c1 := if c.spare0.isNone then { c with spare0 := some lane } else { c with spare1 := some lane }
    let k1 := k.setChan e.2.1 { c1 with hard := c.hard ++ [lane] }
    s.setStack e.1 { k1 with hardLanes := k1.hardLanes + 1 }

/-- The soft repairs and remaps that await it are burnt, while hard resources remain (07 R209). -/
def burnRepairs (s : State) : State :=
  let s1 := s.sec.awaitBurn.foldl burnRow { s with sec := { s.sec with awaitBurn := [] } }
  s1.sec.awaitLanes.foldl burnLane { s1 with sec := { s1.sec with awaitLanes := [] } }

/-- Step 5: repairs are loaded and burnt, the stacks train, failing lanes are marked, candidates repaired; a stack that
fails is FAILED (07 R183, R209, R212). -/
def step5 (s : State) (e : StartEnv) : State :=
  let s1 := burnRepairs s
  let s2 := (List.range 12).foldl (fun t st => t.setStack st { t.stack st with state := .ready }) s1
  let s3 := e.laneFails.foldl (fun t l => if l.1 < 12 ∧ l.2.1 < 32 ∧ l.2.2 < 80 then markLane t l.1 l.2.1 l.2.2 else t) s2
  let s4 := repairAll s3
  (e.stackFails.filter (· < 12)).eraseDups.foldl (fun t st =>
    record (t.setStack st { t.stack st with state := .failed }) .stackFailed
      { unitKind := 4, unit := st, detail := leBytes 1 st })
    { s4 with sec := { s4.sec with stackFailed := e.stackFails.any (· < 12) } }

/-- Step 6: every die that trained draws its keys, and every line is zero under them (07 R206). -/
def step6 (s : State) : State :=
  (List.range 12).foldl (fun t st =>
    let k := t.stack st
    if k.state = .ready then
      let w := leNat (entropy t.free 64)
      { (t.setStack st { k with keys := some (BitVec.ofNat 512 w), keyValid := true, zeroed := true }) with free := t.free + 64 }
    else t) { s with mem := [], lineFault := [] }

/-- Step 7: the ports that the NCR enables come up, or stay in training (R354). -/
def step7 (s : State) (e : StartEnv) : State :=
  let on := (List.range 8).filter fun p => (s.ncr.ports.getD p {}).enabled
  let s1 := on.foldl (fun t p => t.setPort p { t.port p with link := if e.portsUp.contains p then .up else .training }) s
  { s1 with sec := { s1.sec with portShort := on.any fun p => !e.portsUp.contains p } }

/-- Step 8: time lock, in MEMBER and BOUNDARY; a stable reference in REFERENCE. With time discipline host-assisted it ends
at once (R355). The hall time and the master that the lock gives are the world's: free values (log 35). -/
def step8 (s : State) (e : StartEnv) : State :=
  let now := e.readyMs.toNat * 1000000
  let t := { s.tim with now := now, hall := now }
  if hostAssisted s 1 || !e.timeLocks then { s with tim := t }
  else if isReference s then { s with tim := { t with state := .acquiring, refSince := some (now - 10_000_000_000) } }
  else
    let h := (Config.freeWord s.free).toNat
    let w := Config.freeWord (s.free + 1)
    let s1 := { s with
      free := s.free + 2
      tim := { t with hall := h, master := some w, masters := [(w.toNat, 0)], masterPort := 0, lastSync := now
                      lastAnnounce := now, goodSince := some now }
      fab := { s.fab with nextSlot := h / 64 + 1 } }
    lock s1

/-- Step 9: the node is ready: the link trains where PERST_N is released, RDY_N falls, security versions are burnt up to
those that run, and measurement 7 is taken (R348, R356, R359). -/
def step9 (s : State) (e : StartEnv) : State :=
  let burn := s.host.node != .recovery && e.burnOk
  let f := s.fuses
  let f1 := if burn then { f with bundleSvn := max f.bundleSvn s.sec.runSvn, ncrSvn := max f.ncrSvn s.sec.runNcrSvn } else f
  let s1 := { s with
    fuses := f1
    host := { s.host with node := if s.host.node = .recovery then .recovery else .ready }
    pwr := { s.pwr with rdyN := false }
    sec := { s.sec with readyMs := e.readyMs, lastStep := 9, lockedAtReady := s.tim.state == .locked } }
  let s2 := if s1.pwr.perstN then linkUp s1 else s1
  let due := decide (f.bundleSvn < s.sec.runSvn ∨ f.ncrSvn < s.sec.runNcrSvn)
  let s3 := if s.host.node != .recovery && due && !e.burnOk then logEntry s2 4 0 9 [] else s2
  measure s3 7 (shake256 (fusedState s3))

/-- The node in recovery: only PD13, PD15 and PD16 are switched on beside PD14; no key, no port, no time (R347). -/
def startRecovery (s : State) (e : StartEnv) : State :=
  step9 { s with
    host := { s.host with node := .recovery }
    tim := { s.tim with now := e.readyMs.toNat * 1000000, hall := e.readyMs.toNat * 1000000 }
    pwr := { s.pwr with domains := 0x1E000, tripN := true } } e

/-- A start may begin: reset is released, no hold stands, the rails stand, and no die is below 0 °C (16 R399, R401). -/
def mayStart (s : State) (e : StartEnv) : Bool :=
  s.host.node == .start && s.pwr.startPending && s.pwr.resetN && s.pwr.railsUp && !heldInReset s && decide (0 ≤ e.minTempC)

/-- START_SEQUENCE (R354). -/
def execStartSequence (e : StartEnv) (s : State) : Host.Outcome State Fault Refusal :=
  .next (if mayStart s e then
    let s1 := step2 (step1 { s with pwr := { s.pwr with startPending := false, clocksStopped := false } } e) e
    if s1.sec.boot = 3 then startRecovery s1 e
    else step9 (step8 (step7 (step6 (step5 (step4 (step3 s1) e) e)) e) e) e
  else s)

/-! ### The resets (Table 14.4) -/

/-- RESET_N: low, it resets the node, but has no further effect during a hold; released during a hold, it lets the start
begin when the last hold ends (16 R398, R399). -/
def execResetN (low : Bool) (s : State) : Host.Outcome State Fault Refusal :=
  .next (
    let s1 := { s with pwr := { s.pwr with resetN := !low } }
    if low then (if heldInReset s || !s.pwr.railsUp then s1 else wholeReset s1 false)
    else if heldInReset s then { s1 with pwr := { s1.pwr with startPending := true } }
    else s1)

/-- PERST_N: before node ready it only delays link training; after it, it resets PD15 alone and RDY_N stays low (16
R399). -/
def execPerstN (low : Bool) (s : State) : Host.Outcome State Fault Refusal :=
  .next (
    let s1 := { s with pwr := { s.pwr with perstN := !low } }
    if low && s.host.node != .start then resetPd15 s1 else s1)

/-- CXL_RESET: the whole node (13 R324). -/
def execCxlReset (s : State) : Host.Outcome State Fault Refusal := .next (overLink s fun s => wholeReset s false)

/-- SELF_RESET: 1 s after a node-fatal event, in hardware mode of error-recovery policy; during the limiter's hold it waits
for the hold's end (01 R31, 15 R379, 16 R399). -/
def execSelfReset (s : State) : Host.Outcome State Fault Refusal :=
  .next (
    if s.pwr.selfWanted then { s with pwr := { s.pwr with selfWanted := false, startPending := true } }
    else match s.host.node, s.pwr.fatalAt with
      | .halted, some t => if hostAssisted s 4 = false ∧ t + 1_000_000_000 ≤ s.tim.hall then wholeReset s false else s
      | _, _ => s)

/-- POWER_ON: the rails come up in order; everything volatile is new (15 R368). -/
def execPowerOn (s : State) : Host.Outcome State Fault Refusal :=
  .next (if s.pwr.railsUp then s
  else
    let s1 := wholeReset { s with pwr := { s.pwr with railsUp := true, tamperHold := false, limiterHold := false, clocksStopped := false
                                                      selfWanted := false, i3cAddr := none, i3cImage := [] } } false
    { s1 with sec := { s1.sec with tamperCount := 0 } })

/-- POWER_DOWN: the rails fall in reverse order; keys and memory go, with VDD_CT the retained store, and a supply hold is
released once VIO18 is below 10 % (15 R368, R369, R385). -/
def execPowerDown (vddCtLost : Bool) (s : State) : Host.Outcome State Fault Refusal :=
  .next (
    let s1 := wholeReset { s with pwr := { s.pwr with railsUp := false, supplyHold := false, tripN := true } } false
    if vddCtLost then loseRetained s1 else s1)

/-! ### Tamper, supply and limiter (R365; 15 R369, R370, R379) -/

/-- The number of a detector, for the record's cause. -/
def detectorNo : Detector → Nat
  | .voltage => 1
  | .clock => 2
  | .temperature => 3

/-- An F3 event that ends in reset: its record goes into the crash record. -/
def fatalReset (s : State) (c : ErrCode) (kind cause value : Nat) (tamper : Bool) : State :=
  wholeReset (nodeFatal s c { unitKind := kind, unit := 0, detail := detailF 0 cause value }) tamper

/-- TAMPER: keys and sessions clear, the SerDes are squelched, the record is written where VDD_CT holds, and the node is
held in reset (R365). -/
def execTamper (d : Detector) (vddCtHolds : Bool) (s : State) : Host.Outcome State Fault Refusal :=
  .next (
    let s0 := { s with sec := { s.sec with tamperCount := satAdd s.sec.tamperCount 1 }
                       pwr := { s.pwr with tamperHold := true } }
    let s1 := if vddCtHolds then fatalReset s0 .tamper 11 (detectorNo d) 0 true else loseRetained (wholeReset s0 true)
    { s1 with pwr := { s1.pwr with startPending := false } })

/-- TAMPER_CLEAR: the condition has been clear for 100 ms, and the node starts again (R365). -/
def execTamperClear (s : State) : Host.Outcome State Fault Refusal :=
  .next (if s.pwr.tamperHold then { s with pwr := { s.pwr with tamperHold := false, startPending := true } } else s)

/-- A rail's number, for the record's cause. -/
def railNo : Rail → Nat
  | .vio18 => 1 | .vddCt => 2 | .vddFd => 3 | .vddMs => 4 | .vddmCd => 5 | .vddCd n => 6 + n.toNat | .vdrp => 10
  | .vdram => 11 | .vdrq => 12 | .vpll => 13 | .vsdA => 14 | .vsdH => 15

/-- A supply-order violation: held in reset with TRIP_N low until VIO18 has gone and a correct power-up follows (15 R369;
16 R398). -/
def supplyFault (s : State) (r : Rail) : State :=
  let s1 := ibi (fatalReset { s with pwr := { s.pwr with supplyHold := true } } .supplyOrder 11 (railNo r) 0 false) 0x02
  { s1 with pwr := { s1.pwr with startPending := false, tripN := false } }

/-- SUPPLY_ORDER (15 R369). -/
def execSupplyOrder (r : Rail) (s : State) : Host.Outcome State Fault Refusal := .next (supplyFault s r)

/-- RAIL_DROOP: while the node runs; the rails that a tamper detector watches fire it first (15 R370). -/
def execRailDroop (r : Rail) (s : State) : Host.Outcome State Fault Refusal :=
  .next (
    let watched := [Rail.vio18, .vddCt, .vddFd, .vddMs].contains r
    if watched || s.host.node == .start then s else supplyFault s r)

/-- LIMIT_TRIP: a junction at or above trip_c; compute clocks stop, TRIP_N falls, and the node is held in reset (15 R379). -/
def execLimitTrip (tempC : Nat) (s : State) : Host.Outcome State Fault Refusal :=
  .next (if tempC < s.ncr.tripC then s
  else
    let s0 := { s with pwr := { s.pwr with
      limiterHold := true, limiterBelow := s.ncr.throttleC - 10, selfWanted := !hostAssisted s 4, clocksStopped := true
      tripN := false } }
    let s1 := ibi (fatalReset s0 .limitTrip 11 1 (tempC * 100) false) 0x03
    { s1 with pwr := { s1.pwr with startPending := false } })

/-- LIMITER_HOLD_END: every junction is below throttle_c - 10 °C (15 R379). -/
def execLimiterHoldEnd (hottestC : Nat) (s : State) : Host.Outcome State Fault Refusal :=
  .next (if s.pwr.limiterHold ∧ hottestC < s.pwr.limiterBelow then
    { s with pwr := { s.pwr with limiterHold := false } }
  else s)

end Sys2Proof.Machine
end

