-- ==== Sys2Proof/Machine/Security.lean ====
section
/-!
DEFINITION. Debug access, attestation and keys (14 R357 to R364; 02 R64): the rows IDCODE, BYPASS, SAMPLE_PRELOAD, EXTEST,
DBG_CHALLENGE, DBG_TOKEN, DBG_STATUS, the SPDM requests, IDE_KM, MACSEC_KEY, IDENTIFY and CRASH_RECORD.
-/
namespace Sys2Proof.Machine

/-! ### JTAG (R362, R363) -/

/-- A JTAG instruction, by its row's number in R362, and what it shifts out; the port answers while the rails stand. -/
def jtag (s : State) (n : Nat) (out : List Byte) : State :=
  if s.pwr.railsUp then { s with pwr := { s.pwr with jtag := n }, host := { s.host with answer := out, poison := false } } else s

/-- IDCODE. -/
def execIdcode (s : State) : Host.Outcome State Fault Refusal :=
  .next (jtag s 0 (leBytes 4 (if s.fuses.grade = .A then 0x13A5_0E35 else 0x13A5_1E35)))

/-- BYPASS: one bit, zero. -/
def execBypass (s : State) : Host.Outcome State Fault Refusal := .next (jtag s 1 [0])

/-- A boundary-scan instruction is offered only while RESET_N is held; else the port bypasses (log 22). -/
def boundary (s : State) (n : Nat) : State :=
  if s.pwr.resetN then jtag s 1 [0] else drew (jtag s n (Config.boundaryScan s.free))

/-- SAMPLE/PRELOAD. -/
def execSamplePreload (s : State) : Host.Outcome State Fault Refusal := .next (boundary s 2)

/-- EXTEST. -/
def execExtest (s : State) : Host.Outcome State Fault Refusal := .next (boundary s 3)

/-- DBG_CHALLENGE: the nonce. -/
def execDbgChallenge (s : State) : Host.Outcome State Fault Refusal := .next (jtag s 4 s.sec.nonce)

/-- What a token comes to: 1 armed, 2 refused signature, 3 refused nonce, 4 refused no owner (R362, R363). -/
def tokenStatus (s : State) (token : List Byte) : Nat :=
  if s.fuses.ownerHash.isNone then 4
  else match validContainer s token 3 with
    | none => 2
    | some c => if slice c.payload 0 32 = s.sec.nonce then 1 else 3

/-- A token is taken: valid and carrying the present nonce it arms unlock with its level mask; the nonce is drawn afresh
(R362, R363). -/
def takeToken (s : State) (token : List Byte) : State :=
  let st := tokenStatus s token
  let c := s.sec
  { s with
    free := s.free + 32
    sec := { c with nonce := entropy s.free 32, dbgStatus := st, armed := c.armed || st == 1
                    armMask := if st = 1 then BitVec.ofNat 32 (le token 416 4) else c.armMask } }

/-- DBG_TOKEN. -/
def execDbgToken (token : Bytes) (s : State) : Host.Outcome State Fault Refusal :=
  .next (if s.pwr.railsUp then takeToken (jtag s 5 []) token else s)

/-- DBG_STATUS. -/
def execDbgStatus (s : State) : Host.Outcome State Fault Refusal := .next (jtag s 6 (leBytes 1 s.sec.dbgStatus))

/-! ### SPDM (R357 to R360): requests at message level (log 22) -/

/-- The response to a request over DOE. -/
def spdm (s : State) (out : List Byte) : State := { s with host := { s.host with answer := out, poison := false } }

/-- An SPDM ERROR response with its code. -/
def spdmError (s : State) (code : Byte) : State := spdm s [0x7F, code]

/-- A request reaches the responder over the link; while the security core restarts it is answered busy (R360). -/
def doe (s : State) (run : State → State) : State :=
  overLink s fun s => if s.host.node = .start then s else if restarting s 4 then spdmError s 0x03 else run s

/-- A request out of its order is an unexpected one. -/
def after (s : State) (ok : Bool) (run : State → State) : State := if ok then run s else spdmError s 0x04

/-- The chain of slot 0, from the root to the alias certificate of this start's AK (R358). -/
def chain (s : State) : List Byte := Config.certChain (Config.ed448Public s.sec.ak)

/-- A measurement of Table 14.7 with its index. -/
def measBlock (s : State) (i : Nat) : List Byte := leBytes 1 i ++ slice (s.sec.meas.get [] i) 0 64

/-- The summary hash of the measurements (R359). -/
def measSummary (s : State) : List Byte := sha3_512 ((List.range 7).flatMap fun i => slice (s.sec.meas.get [] (i + 1)) 0 64)

/-- A signature of the AK over a transcript that holds what was asked and answered. -/
def signed (s : State) (code : Nat) (asked out : List Byte) : List Byte :=
  out ++ Config.ed448Sign s.sec.ak (Config.spdmBytes code (asked ++ out))

/-- The session of an ID. -/
def session (s : State) (id : W32) : Option Spdm := s.sec.sessions.find? fun x => x.id == id

/-- Sessions changed. -/
def mapSessions (s : State) (f : Spdm → Option Spdm) : State :=
  { s with sec := { s.sec with sessions := s.sec.sessions.filterMap f } }

/-- GET_VERSION: versions 1.2 and 1.3; the connection starts anew. -/
def execGetVersion (s : State) : Host.Outcome State Fault Refusal :=
  .next (doe s fun s => spdm { s with sec := { s.sec with spdmVersion := true, spdmCaps := false, spdmAlgs := false } } [0x12, 0x13])

/-- GET_CAPABILITIES, of a version that is supported. -/
def execGetCapabilities (ver : Byte) (s : State) : Host.Outcome State Fault Refusal :=
  .next (doe s fun s => after s s.sec.spdmVersion fun s =>
    if ver = 0x12 ∨ ver = 0x13 then
      spdm { s with sec := { s.sec with spdmCaps := true, spdmAlgs := false } } (Config.spdmBytes 0x61 [ver])
    else spdmError s 0x41)

/-- NEGOTIATE_ALGORITHMS: Ed448, SHA3-512, secp384r1 and AES-256-GCM, or none. -/
def execNegotiateAlgorithms (ed448 sha3 secp384r1 aesGcm : Bool) (s : State) : Host.Outcome State Fault Refusal :=
  .next (doe s fun s => after s s.sec.spdmCaps fun s =>
    let ok := ed448 && sha3 && secp384r1 && aesGcm
    spdm { s with sec := { s.sec with spdmAlgs := ok } } [BitVec.ofNat 8 (bn ed448), BitVec.ofNat 8 (bn sha3),
      BitVec.ofNat 8 (bn secp384r1), BitVec.ofNat 8 (bn aesGcm)])

/-- GET_DIGESTS: one slot, and the SHA3-512 of its chain. -/
def execGetDigests (s : State) : Host.Outcome State Fault Refusal :=
  .next (doe s fun s => after s s.sec.spdmAlgs fun s => spdm s (1 :: sha3_512 (chain s)))

/-- GET_CERTIFICATE: a portion of slot 0's chain, with the bytes that remain (R358). -/
def execGetCertificate (slot : Byte) (offset length : W16) (s : State) : Host.Outcome State Fault Refusal :=
  .next (doe s fun s => after s s.sec.spdmAlgs fun s =>
    let c := chain s
    if slot ≠ 0 ∨ c.length < offset.toNat then spdmError s 0x01
    else
      let p := (c.drop offset.toNat).take length.toNat
      spdm s (leBytes 2 p.length ++ leBytes 2 (c.length - offset.toNat - p.length) ++ p))

/-- CHALLENGE: chain digest, measurement summary and the AK's signature. -/
def execChallenge (slot : Byte) (nonce : Bytes) (s : State) : Host.Outcome State Fault Refusal :=
  .next (doe s fun s => after s s.sec.spdmAlgs fun s =>
    if slot ≠ 0 then spdmError s 0x01
    else spdm s (signed s 0x03 nonce (sha3_512 (chain s) ++ measSummary s)))

/-- GET_MEASUREMENTS: 0 their number, 0xFF all, else one; signed where a nonce comes with it (R359). -/
def execGetMeasurements (index : Byte) (nonce : Option Bytes) (s : State) : Host.Outcome State Fault Refusal :=
  .next (doe s fun s => after s s.sec.spdmAlgs fun s =>
    let i := index.toNat
    if 7 < i ∧ i ≠ 0xFF then spdmError s 0x01
    else
      let out := if i = 0 then [7] else if i = 0xFF then (List.range 7).flatMap fun j => measBlock s (j + 1) else measBlock s i
      spdm s (match nonce with
        | some n => signed s 0x60 n out
        | none => out))

/-- KEY_EXCHANGE: a session opens, of at most four; its ID joins the responder's half to the requester's. -/
def execKeyExchange (slot : Byte) (reqSession : W16) (exchange : Bytes) (s : State) : Host.Outcome State Fault Refusal :=
  .next (doe s fun s => after s s.sec.spdmAlgs fun s =>
    if slot ≠ 0 then spdmError s 0x01
    else if 4 ≤ s.sec.sessions.length then spdmError s 0x0A
    else
      let rsp := s.sec.nextSession % 2 ^ 16
      let id : W32 := BitVec.ofNat 32 (reqSession.toNat + rsp <<< 16)
      let s1 := { s with sec := { s.sec with
        nextSession := s.sec.nextSession + 1, sessions := s.sec.sessions ++ [{ id := id, up := false, keyGen := 0 }] } }
      spdm s1 (signed s1 0x64 exchange (leBytes 2 rsp ++ measSummary s1)))

/-- FINISH: the handshake of a session completes, or, where it does not verify, the session ends. -/
def execFinish (session_ : W32) (verifyOk : Bool) (s : State) : Host.Outcome State Fault Refusal :=
  .next (doe s fun s => after s ((session s session_).any fun x => !x.up) fun s =>
    if verifyOk then spdm (mapSessions s fun x => some (if x.id = session_ then { x with up := true } else x)) []
    else spdmError (mapSessions s fun x => if x.id = session_ then none else some x) 0x06)

/-- A request in a session that is up. -/
def inSession (s : State) (id : W32) (run : State → State) : State := after s ((session s id).any Spdm.up) run

/-- HEARTBEAT. -/
def execHeartbeat (session_ : W32) (s : State) : Host.Outcome State Fault Refusal :=
  .next (doe s fun s => inSession s session_ fun s => spdm s [])

/-- KEY_UPDATE: the session's keys move on by one generation. -/
def execKeyUpdate (session_ : W32) (s : State) : Host.Outcome State Fault Refusal :=
  .next (doe s fun s => inSession s session_ fun s =>
    spdm (mapSessions s fun x => some (if x.id = session_ then { x with keyGen := x.keyGen + 1 } else x)) [])

/-- END_SESSION. -/
def execEndSession (session_ : W32) (s : State) : Host.Outcome State Fault Refusal :=
  .next (doe s fun s => inSession s session_ fun s =>
    spdm (mapSessions s fun x => if x.id = session_ then none else some x) [])

/-- IDE_KM: a key of an IDE stream, in a secured session (R357, R360). -/
def execIdeKm (session_ : W32) (stream : Byte) (key : Bytes) (s : State) : Host.Outcome State Fault Refusal :=
  .next (doe s fun s => inSession s session_ fun s =>
    spdm { s with sec := { s.sec with ide := (s.sec.ide.filter fun e => e.1 != stream.toNat) ++ [(stream.toNat, key)] } } [])

/-! ### MACsec keys (02 R64; 13 Table 13.8; 14 R361) -/

/-- The line that MACSEC_KEY's port byte names: a port that is not split, else a half-port of a split one (log 32). -/
def keyLine (s : State) (port : Nat) : Option Nat :=
  let split := fun (p : Nat) => (s.ncr.ports.getD p {}).split
  if port < 8 ∧ split port = false then some (2 * port)
  else if port < 16 ∧ split (port / 2) = true then some port
  else none

/-- MACSEC_KEY: an association is installed beside the one in use, from an IDE stream only. -/
def execMacsecKey (inIde : Bool) (port : Byte) (dir : Dir) (an : Byte) (ssci : W32) (salt key : Bytes) (firstPeriod : W64)
    (s : State) : Host.Outcome State Fault Refusal :=
  .next (mbx s false false fun s =>
    match keyLine s port.toNat with
    | none => invalid s
    | some line =>
      if 4 ≤ an.toNat ∨ salt.length ≠ 12 ∨ key.length ≠ 32 then invalid s
      else if inIde = false ∨ s.sec.ide.isEmpty = true then done s .state
      else
        let tx := dir == .tx
        let k := s.port (line / 2)
        let a : MacAssoc := { line := line, tx := tx, an := an.toNat, ssci := ssci, salt := salt, key := key
                              firstPeriod := firstPeriod.toNat }
        let rest := k.assocs.filter fun x => !(x.line == line && x.tx == tx && x.an == an.toNat)
        done (s.setPort (line / 2) { k with assocs := rest ++ [a] }) .ok)

/-! ### Identity and the crash record (13 Table 13.8) -/

/-- A security version as its fused thermometer (R348). -/
def thermometer (n : Nat) : Nat := 2 ^ n - 1

/-- IDENTIFY: Table 13.2 from 0x0C on, then the fused security versions. -/
def execIdentify (s : State) : Host.Outcome State Fault Refusal :=
  .next (mbx s true true fun s =>
    done s .ok (identityBytes s ++ leBytes 4 (thermometer s.fuses.bundleSvn) ++ leBytes 4 (thermometer s.fuses.ncrSvn)))

/-- CRASH_RECORD: the record, a valid byte, and crash_valid cleared (11 R288). -/
def execCrashRecord (s : State) : Host.Outcome State Fault Refusal :=
  .next (mbx s true true fun s =>
    let out := ((s.sec.crash.map ErrRec.bytes).getD (List.replicate 64 0)) ++ leBytes 1 (bn s.sec.crashValid)
    done { s with sec := { s.sec with crashValid := false } } .ok out)

end Sys2Proof.Machine
end

