-- ==== Sys2Proof/Machine/Dispatch.lean ====
section
/-!
DEFINITION. Dispatch: one arm per constructor of `Instr`, each a direct call of its meaning.
-/
namespace Sys2Proof.Machine

/-- The effect of a command on everything but the queue. -/
def exec (i : Instr) (s : State) : Host.Outcome State Fault Refusal :=
  match i with
  | .nop b q => Sys2Proof.Machine.execNop b q s
  | .endCmd b q => Sys2Proof.Machine.execEndCmd b q s
  | .stepCmd b q => Sys2Proof.Machine.execStepCmd b q s
  | .loop b q => Sys2Proof.Machine.execLoop b q s
  | .aop b q => Sys2Proof.Machine.execAop b q s
  | .lda b q => Sys2Proof.Machine.execLda b q s
  | .tmul b mm => Sys2Proof.Machine.execTmul b mm s
  | .tscan b => Sys2Proof.Machine.execTscan b s
  | .vop b => Sys2Proof.Machine.execVop b s
  | .vred b => Sys2Proof.Machine.execVred b s
  | .vcomp b => Sys2Proof.Machine.execVcomp b s
  | .vexp b => Sys2Proof.Machine.execVexp b s
  | .vconv b => Sys2Proof.Machine.execVconv b s
  | .sfact b => Sys2Proof.Machine.execSfact b s
  | .spat b => Sys2Proof.Machine.execSpat b s
  | .delta b => Sys2Proof.Machine.execDelta b s
  | .sin b => Sys2Proof.Machine.execSin b s
  | .sout b => Sys2Proof.Machine.execSout b s
  | .gather b => Sys2Proof.Machine.execGather b s
  | .scatter b => Sys2Proof.Machine.execScatter b s
  | .get b => Sys2Proof.Machine.execGet b s
  | .put b => Sys2Proof.Machine.execPut b s
  | .ratom b => Sys2Proof.Machine.execRatom b s
  | .rred b => Sys2Proof.Machine.execRred b s
  | .mcast b => Sys2Proof.Machine.execMcast b s
  | .coll b => Sys2Proof.Machine.execColl b s
  | .panop b => Sys2Proof.Machine.execPanop b s
  | .bopen b => Sys2Proof.Machine.execBopen b s
  | .badd b => Sys2Proof.Machine.execBadd b s
  | .bcryst b => Sys2Proof.Machine.execBcryst b s
  | .bclose b => Sys2Proof.Machine.execBclose b s
  | .redinto b => Sys2Proof.Machine.execRedinto b s
  | .copy b => Sys2Proof.Machine.execCopy b s
  | .digest b => Sys2Proof.Machine.execDigest b s
  | .signal b => Sys2Proof.Machine.execSignal b s
  | .waitv b => Sys2Proof.Machine.execWaitv b s
  | .waitvReread b => Sys2Proof.Machine.execWaitvReread b s
  | .waitvTimeout b => Sys2Proof.Machine.execWaitvTimeout b s
  | .waitt b => Sys2Proof.Machine.execWaitt b s
  | .waittStrobe b => Sys2Proof.Machine.execWaittStrobe b s
  | .flags b => Sys2Proof.Machine.execFlags b s
  | .epochwait b => Sys2Proof.Machine.execEpochwait b s
  | .quiesce b => Sys2Proof.Machine.execQuiesce b s
  | .read b => Sys2Proof.Machine.execRead b s
  | .commandIssue b q => Sys2Proof.Machine.execCommandIssue b q s
  | .commandComplete b q => Sys2Proof.Machine.execCommandComplete b q s
  | .stepBoundary => Sys2Proof.Machine.execStepBoundary s
  | .streamGrant b => Sys2Proof.Machine.execStreamGrant b s
  | .streamDataLanded b ctx => Sys2Proof.Machine.execStreamDataLanded b ctx s
  | .writeResponse b ctx => Sys2Proof.Machine.execWriteResponse b ctx s
  | .streamRequestTimeout b ctx => Sys2Proof.Machine.execStreamRequestTimeout b ctx s
  | .slotBoundary => Sys2Proof.Machine.execSlotBoundary s
  | .planPeriodBoundary => Sys2Proof.Machine.execPlanPeriodBoundary s
  | .planActivation => Sys2Proof.Machine.execPlanActivation s
  | .arm => Sys2Proof.Machine.execArm s
  | .cancel => Sys2Proof.Machine.execCancel s
  | .lossDetected peer => Sys2Proof.Machine.execLossDetected peer s
  | .peerSilent port src => Sys2Proof.Machine.execPeerSilent port src s
  | .filler f => Sys2Proof.Machine.execFiller f s
  | .putFrame f => Sys2Proof.Machine.execPutFrame f s
  | .getReq f => Sys2Proof.Machine.execGetReq f s
  | .getResp f => Sys2Proof.Machine.execGetResp f s
  | .atomic f => Sys2Proof.Machine.execAtomic f s
  | .atomicResp f => Sys2Proof.Machine.execAtomicResp f s
  | .reduce f => Sys2Proof.Machine.execReduce f s
  | .mcastFrame f => Sys2Proof.Machine.execMcastFrame f s
  | .collFrame f => Sys2Proof.Machine.execCollFrame f s
  | .bulk f subs => Sys2Proof.Machine.execBulk f subs s
  | .signature f => Sys2Proof.Machine.execSignature f s
  | .signatureTimeout => Sys2Proof.Machine.execSignatureTimeout s
  | .ptpMessage m => Sys2Proof.Machine.execPtpMessage m s
  | .holdover => Sys2Proof.Machine.execHoldover s
  | .locked => Sys2Proof.Machine.execLocked s
  | .timeTakeover => Sys2Proof.Machine.execTimeTakeover s
  | .ppsIn => Sys2Proof.Machine.execPpsIn s
  | .ppsOut => Sys2Proof.Machine.execPpsOut s
  | .launch root tGo commitDeadline expiry arity => Sys2Proof.Machine.execLaunch root tGo commitDeadline expiry arity s
  | .prepare src tree p => Sys2Proof.Machine.execPrepare src tree p s
  | .prepareResend => Sys2Proof.Machine.execPrepareResend s
  | .prepareAck src tree launchId status count => Sys2Proof.Machine.execPrepareAck src tree launchId status count s
  | .commitDeadline => Sys2Proof.Machine.execCommitDeadline s
  | .commit src launchId => Sys2Proof.Machine.execCommit src launchId s
  | .expiry => Sys2Proof.Machine.execExpiry s
  | .tGo => Sys2Proof.Machine.execTGo s
  | .cutLevelRaise => Sys2Proof.Machine.execCutLevelRaise s
  | .granuleCopy stack => Sys2Proof.Machine.execGranuleCopy stack s
  | .manifestSign => Sys2Proof.Machine.execManifestSign s
  | .mirrorAcknowledged => Sys2Proof.Machine.execMirrorAcknowledged s
  | .held => Sys2Proof.Machine.execHeld s
  | .holdLimit => Sys2Proof.Machine.execHoldLimit s
  | .holdNotice src n => Sys2Proof.Machine.execHoldNotice src n s
  | .settleWindowEnd => Sys2Proof.Machine.execSettleWindowEnd s
  | .noticeResend => Sys2Proof.Machine.execNoticeResend s
  | .hold src => Sys2Proof.Machine.execHold src s
  | .reset src => Sys2Proof.Machine.execReset src s
  | .resettingDrained => Sys2Proof.Machine.execResettingDrained s
  | .restore src step failed remote => Sys2Proof.Machine.execRestore src step failed remote s
  | .relaunch src tGo commitDeadline expiry failed => Sys2Proof.Machine.execRelaunch src tGo commitDeadline expiry failed s
  | .terminate src => Sys2Proof.Machine.execTerminate src s
  | .resume src => Sys2Proof.Machine.execResume src s
  | .selfReset => Sys2Proof.Machine.execSelfReset s
  | .coalesceExpiry code unit => Sys2Proof.Machine.execCoalesceExpiry code unit s
  | .ringRecordWrite ring => Sys2Proof.Machine.execRingRecordWrite ring s
  | .hartInstruction h miss => Sys2Proof.Machine.execHartInstruction h miss s
  | .hartAmo h op dbl rd rs1 rs2 => Sys2Proof.Machine.execHartAmo h op dbl rd rs1 rs2 s
  | .apertureAccess h k size addr data rd => Sys2Proof.Machine.execApertureAccess h k size addr data rd s
  | .apertureResponse h status data => Sys2Proof.Machine.execApertureResponse h status data s
  | .timerInterrupt h => Sys2Proof.Machine.execTimerInterrupt h s
  | .msip h v => Sys2Proof.Machine.execMsip h v s
  | .fcoHartTcmp h v => Sys2Proof.Machine.execFcoHartTcmp h v s
  | .fcoApt by_ slot v => Sys2Proof.Machine.execFcoApt by_ slot v s
  | .sv128Load a => Sys2Proof.Machine.execSv128Load a s
  | .sv128Store a => Sys2Proof.Machine.execSv128Store a s
  | .vadd ew r => Sys2Proof.Machine.execVadd ew r s
  | .vsub ew r => Sys2Proof.Machine.execVsub ew r s
  | .vmul ew r => Sys2Proof.Machine.execVmul ew r s
  | .vmin ew r => Sys2Proof.Machine.execVmin ew r s
  | .vmax ew r => Sys2Proof.Machine.execVmax ew r s
  | .vminu ew r => Sys2Proof.Machine.execVminu ew r s
  | .vmaxu ew r => Sys2Proof.Machine.execVmaxu ew r s
  | .vsadd ew r => Sys2Proof.Machine.execVsadd ew r s
  | .vsaddu ew r => Sys2Proof.Machine.execVsaddu ew r s
  | .vssub ew r => Sys2Proof.Machine.execVssub ew r s
  | .vssubu ew r => Sys2Proof.Machine.execVssubu ew r s
  | .vcmpeq ew r => Sys2Proof.Machine.execVcmpeq ew r s
  | .vcmplt ew r => Sys2Proof.Machine.execVcmplt ew r s
  | .vcmpltu ew r => Sys2Proof.Machine.execVcmpltu ew r s
  | .vsll ew r => Sys2Proof.Machine.execVsll ew r s
  | .vsrl ew r => Sys2Proof.Machine.execVsrl ew r s
  | .vsra ew r => Sys2Proof.Machine.execVsra ew r s
  | .vwmul ew r => Sys2Proof.Machine.execVwmul ew r s
  | .vwmulh ew r => Sys2Proof.Machine.execVwmulh ew r s
  | .vwmulu ew r => Sys2Proof.Machine.execVwmulu ew r s
  | .vwmuluh ew r => Sys2Proof.Machine.execVwmuluh ew r s
  | .vdot ew r => Sys2Proof.Machine.execVdot ew r s
  | .vdotu ew r => Sys2Proof.Machine.execVdotu ew r s
  | .vdotsu ew r => Sys2Proof.Machine.execVdotsu ew r s
  | .vmvVX ew r => Sys2Proof.Machine.execVmvVX ew r s
  | .vmvXV ew r => Sys2Proof.Machine.execVmvXV ew r s
  | .vins ew r => Sys2Proof.Machine.execVins ew r s
  | .vmovmsk ew r => Sys2Proof.Machine.execVmovmsk ew r s
  | .vziplo ew r => Sys2Proof.Machine.execVziplo ew r s
  | .vziphi ew r => Sys2Proof.Machine.execVziphi ew r s
  | .vunzipe ew r => Sys2Proof.Machine.execVunzipe ew r s
  | .vunzipo ew r => Sys2Proof.Machine.execVunzipo ew r s
  | .vand r => Sys2Proof.Machine.execVand r s
  | .vor r => Sys2Proof.Machine.execVor r s
  | .vxor r => Sys2Proof.Machine.execVxor r s
  | .vandn r => Sys2Proof.Machine.execVandn r s
  | .vmv r => Sys2Proof.Machine.execVmv r s
  | .vsel r => Sys2Proof.Machine.execVsel r s
  | .vpermb r => Sys2Proof.Machine.execVpermb r s
  | .vextb r shift => Sys2Proof.Machine.execVextb r shift s
  | .vfadd ef r => Sys2Proof.Machine.execVfadd ef r s
  | .vfsub ef r => Sys2Proof.Machine.execVfsub ef r s
  | .vfmul ef r => Sys2Proof.Machine.execVfmul ef r s
  | .vfdiv ef r => Sys2Proof.Machine.execVfdiv ef r s
  | .vfmin ef r => Sys2Proof.Machine.execVfmin ef r s
  | .vfmax ef r => Sys2Proof.Machine.execVfmax ef r s
  | .vfma ef r => Sys2Proof.Machine.execVfma ef r s
  | .vfnms ef r => Sys2Proof.Machine.execVfnms ef r s
  | .vfsqrt ef r => Sys2Proof.Machine.execVfsqrt ef r s
  | .vfcmpeq ef r => Sys2Proof.Machine.execVfcmpeq ef r s
  | .vfcmplt ef r => Sys2Proof.Machine.execVfcmplt ef r s
  | .vfcmple ef r => Sys2Proof.Machine.execVfcmple ef r s
  | .vfcvtfx ef r => Sys2Proof.Machine.execVfcvtfx ef r s
  | .vfcvtxf ef r => Sys2Proof.Machine.execVfcvtxf ef r s
  | .vfwidenlo ef r => Sys2Proof.Machine.execVfwidenlo ef r s
  | .vfwidenhi ef r => Sys2Proof.Machine.execVfwidenhi ef r s
  | .vfnarrow ef r => Sys2Proof.Machine.execVfnarrow ef r s
  | .rakeRead stack => Sys2Proof.Machine.execRakeRead stack s
  | .refresh stack channel => Sys2Proof.Machine.execRefresh stack channel s
  | .cxlMemRead addr => Sys2Proof.Machine.execCxlMemRead addr s
  | .cxlMemWrite addr data poison => Sys2Proof.Machine.execCxlMemWrite addr data poison s
  | .cxlProtocol k header => Sys2Proof.Machine.execCxlProtocol k header s
  | .configRead offset => Sys2Proof.Machine.execConfigRead offset s
  | .hotReset => Sys2Proof.Machine.execHotReset s
  | .cxlReset => Sys2Proof.Machine.execCxlReset s
  | .perstN low => Sys2Proof.Machine.execPerstN low s
  | .emWrite index v => Sys2Proof.Machine.execEmWrite index v s
  | .emWriteApplied => Sys2Proof.Machine.execEmWriteApplied s
  | .hrwIntMask v => Sys2Proof.Machine.execHrwIntMask v s
  | .hrwIntCause v => Sys2Proof.Machine.execHrwIntCause v s
  | .ringCons ring v => Sys2Proof.Machine.execRingCons ring v s
  | .leaseTake holder => Sys2Proof.Machine.execLeaseTake holder s
  | .leaseRenew holder => Sys2Proof.Machine.execLeaseRenew holder s
  | .leaseRelease holder => Sys2Proof.Machine.execLeaseRelease holder s
  | .leaseExpired => Sys2Proof.Machine.execLeaseExpired s
  | .identify => Sys2Proof.Machine.execIdentify s
  | .crashRecord => Sys2Proof.Machine.execCrashRecord s
  | .fwStage buf => Sys2Proof.Machine.execFwStage buf s
  | .fwInfo => Sys2Proof.Machine.execFwInfo s
  | .bgResult => Sys2Proof.Machine.execBgResult s
  | .bgAbort => Sys2Proof.Machine.execBgAbort s
  | .backgroundComplete => Sys2Proof.Machine.execBackgroundComplete s
  | .imageLoad buf => Sys2Proof.Machine.execImageLoad buf s
  | .verifyReport buf => Sys2Proof.Machine.execVerifyReport buf s
  | .hostVerdict digest accept => Sys2Proof.Machine.execHostVerdict digest accept s
  | .imageUnload => Sys2Proof.Machine.execImageUnload s
  | .placementGet => Sys2Proof.Machine.execPlacementGet s
  | .placementSet mode => Sys2Proof.Machine.execPlacementSet mode s
  | .planWrite bank k plan => Sys2Proof.Machine.execPlanWrite bank k plan s
  | .planArm epoch bank => Sys2Proof.Machine.execPlanArm epoch bank s
  | .ppsSecond second => Sys2Proof.Machine.execPpsSecond second s
  | .macsecKey inIde port dir an ssci salt key firstPeriod => Sys2Proof.Machine.execMacsecKey inIde port dir an ssci salt key firstPeriod s
  | .holdStatus => Sys2Proof.Machine.execHoldStatus s
  | .orphanLog => Sys2Proof.Machine.execOrphanLog s
  | .ckptDrain held g stack buf => Sys2Proof.Machine.execCkptDrain held g stack buf s
  | .ckptLoad g stack buf => Sys2Proof.Machine.execCkptLoad g stack buf s
  | .restoreReport => Sys2Proof.Machine.execRestoreReport s
  | .readRepairMap stack buf => Sys2Proof.Machine.execReadRepairMap stack buf s
  | .readErrorCounts stack buf => Sys2Proof.Machine.execReadErrorCounts stack buf s
  | .listCandidates stack buf => Sys2Proof.Machine.execListCandidates stack buf s
  | .markLane stack channel lane => Sys2Proof.Machine.execMarkLane stack channel lane s
  | .repairRow stack channel bank row hard => Sys2Proof.Machine.execRepairRow stack channel bank row hard s
  | .remapLane stack channel lane => Sys2Proof.Machine.execRemapLane stack channel lane s
  | .marginTest stack channel buf => Sys2Proof.Machine.execMarginTest stack channel buf s
  | .patternTest stack channel buf => Sys2Proof.Machine.execPatternTest stack channel buf s
  | .powerCap watts => Sys2Proof.Machine.execPowerCap watts s
  | .healthReport buf => Sys2Proof.Machine.execHealthReport buf s
  | .healthLoad buf => Sys2Proof.Machine.execHealthLoad buf s
  | .maintBegin => Sys2Proof.Machine.execMaintBegin s
  | .maintEnd => Sys2Proof.Machine.execMaintEnd s
  | .watchdogExpiry p => Sys2Proof.Machine.execWatchdogExpiry p s
  | .powerOn => Sys2Proof.Machine.execPowerOn s
  | .resetN low => Sys2Proof.Machine.execResetN low s
  | .startSequence e => Sys2Proof.Machine.execStartSequence e s
  | .tamper d vddCtHolds => Sys2Proof.Machine.execTamper d vddCtHolds s
  | .tamperClear => Sys2Proof.Machine.execTamperClear s
  | .supplyOrder r => Sys2Proof.Machine.execSupplyOrder r s
  | .railDroop r => Sys2Proof.Machine.execRailDroop r s
  | .limitTrip tempC => Sys2Proof.Machine.execLimitTrip tempC s
  | .limiterHoldEnd hottestC => Sys2Proof.Machine.execLimiterHoldEnd hottestC s
  | .hwThrottle die => Sys2Proof.Machine.execHwThrottle die s
  | .throttle t => Sys2Proof.Machine.execThrottle t s
  | .avsSettled die => Sys2Proof.Machine.execAvsSettled die s
  | .avsRetry die => Sys2Proof.Machine.execAvsRetry die s
  | .dailyRecord h => Sys2Proof.Machine.execDailyRecord h s
  | .idcode => Sys2Proof.Machine.execIdcode s
  | .bypass => Sys2Proof.Machine.execBypass s
  | .samplePreload => Sys2Proof.Machine.execSamplePreload s
  | .extest => Sys2Proof.Machine.execExtest s
  | .dbgChallenge => Sys2Proof.Machine.execDbgChallenge s
  | .dbgToken token => Sys2Proof.Machine.execDbgToken token s
  | .dbgStatus => Sys2Proof.Machine.execDbgStatus s
  | .i3cPrivateRead => Sys2Proof.Machine.execI3cPrivateRead s
  | .entdaa addr => Sys2Proof.Machine.execEntdaa addr s
  | .setdasa addr => Sys2Proof.Machine.execSetdasa addr s
  | .getVersion => Sys2Proof.Machine.execGetVersion s
  | .getCapabilities ver => Sys2Proof.Machine.execGetCapabilities ver s
  | .negotiateAlgorithms ed448 sha3 secp384r1 aesGcm => Sys2Proof.Machine.execNegotiateAlgorithms ed448 sha3 secp384r1 aesGcm s
  | .getDigests => Sys2Proof.Machine.execGetDigests s
  | .getCertificate slot offset length => Sys2Proof.Machine.execGetCertificate slot offset length s
  | .challenge slot nonce => Sys2Proof.Machine.execChallenge slot nonce s
  | .getMeasurements index nonce => Sys2Proof.Machine.execGetMeasurements index nonce s
  | .keyExchange slot reqSession exchange => Sys2Proof.Machine.execKeyExchange slot reqSession exchange s
  | .finish session verifyOk => Sys2Proof.Machine.execFinish session verifyOk s
  | .heartbeat session => Sys2Proof.Machine.execHeartbeat session s
  | .keyUpdate session => Sys2Proof.Machine.execKeyUpdate session s
  | .endSession session => Sys2Proof.Machine.execEndSession session s
  | .ideKm session stream key => Sys2Proof.Machine.execIdeKm session stream key s
  | .timNowNs => Sys2Proof.Machine.execTimNowNs s
  | .satCounterRead npa => Sys2Proof.Machine.execSatCounterRead npa s
  | .blkFlags b v => Sys2Proof.Machine.execBlkFlags b v s
  | .panFlags stack v => Sys2Proof.Machine.execPanFlags stack v s
  | .registerWrite by_ addr size v poison => Sys2Proof.Machine.execRegisterWrite by_ addr size v poison s
  | .portDown port => Sys2Proof.Machine.execPortDown port s
  | .portUp port => Sys2Proof.Machine.execPortUp port s
  | .hostLinkUp => Sys2Proof.Machine.execHostLinkUp s
  | .announceReceiptTimeout => Sys2Proof.Machine.execAnnounceReceiptTimeout s
  | .bmcaExclusionEnd master => Sys2Proof.Machine.execBmcaExclusionEnd master s
  | .commitResend => Sys2Proof.Machine.execCommitResend s
  | .powerDown vddCtLost => Sys2Proof.Machine.execPowerDown vddCtLost s
  | .restartEnd p => Sys2Proof.Machine.execRestartEnd p s
  | .cxlCacheSnoop line inv => Sys2Proof.Machine.execCxlCacheSnoop line inv s
  | .localCacheMissFill h => Sys2Proof.Machine.execLocalCacheMissFill h s
  | .esmc port ql => Sys2Proof.Machine.execEsmc port ql s

end Sys2Proof.Machine
end

