-- ==== Sys2Proof/Machine/Parts.lean ====
section
/-!
DEFINITION. What the node does on its own when no command waits: write-combining buffers drain, and a fault inside one of
the node's parts (a mesh hop, a Uzonal link, a block, a field core) is met (01 R22, R27, R31; 10 R272, Table 10.4; logs
1, 50, 67).
-/
namespace Sys2Proof.Machine

/-- A field core fails: its four harts halt, and the job holds at its next step boundary (10 Table 10.4). -/
def coreFails (s : State) (core : Nat) : State :=
  let s1 := (List.range 4).foldl (fun t i => t.updHart (BitVec.ofNat 6 (4 * core + i)) fun x => { x with state := .halted }) s
  let s2 := record s1 .fcoCoreHalt { unitKind := 10, unit := 4 * core, detail := detailF (4 * core) 0 0 }
  holdAtBoundary (enterHolding s2 .F1 (lastRec s2))

/-- A fault of a part is met: a mesh hop that replays, and is down at the eighth failure in a row (R27); a Uzonal link that
replays or is down (R29, R31); a block retired for a fault it can attribute to no command (R22); a field core's cache line
fetched again, and a field core's failure (10 Table 10.4). The detail bytes that no rule gives are log 50's. -/
def meetPart (s : State) : PartFault → State
  | .mesh r n =>
    let a : EvArgs := { unitKind := 3, unit := r.toNat, detail := detailB r.toNat 0xFF 0 0 0 }
    if n < 8 then record s .meshReplay a else regionFatal s r.toNat .meshDown a
  | .uzl l down =>
    let a : EvArgs := { unitKind := 5, unit := l.toNat, detail := detailF l.toNat 0 0 }
    if down then nodeFatal s .uzlDown a else record s .uzlReplay a
  | .block b =>
    if blockLive s b then
      retireBlock s b .aborted .ok { detail := detailA b .CQ .ok 0 0 s.job.loadGen.toNat [] 0xFF 0 }
    else s
  | .coreCache c =>
    record s .fcoCache { unitKind := 10, unit := 4 * c.toNat, detail := detailF (4 * c.toNat) 0 0 }
  | .core c => coreFails s c.toNat

/-- A step with no command waiting: a nanosecond passes, the buffers drain, and the first fault of a part is met, which a
node that a node-fatal event has halted no longer does (logs 1, 50, 67). -/
def unprompted (s : State) : State :=
  let s1 := drainAll (idle s)
  match s1.partFaults with
  | [] => s1
  | f :: fs => if s1.host.node = .halted then s1 else meetPart { s1 with partFaults := fs } f

end Sys2Proof.Machine
end

