-- ==== Sys2Proof/Safety.lean ====
section
/-!
DEFINITION. What counts as a safe run, in the terms the statements use: a command that goes on, a node whose memories
are in their canonical form, and a node whose logs and queues stay within the capacities the spec gives them.
-/
namespace Sys2Proof

open Sys2Proof.Machine

/-- The command was carried out: the outcome is a next state. -/
def Safety.goes (o : Host.Outcome State Fault Refusal) : Prop := ∃ t, o = .next t

/-- Node memory with its stores, and host memory, are in their canonical form (log 6, 11). -/
structure Safety.Memories (s : State) : Prop where
  node : Memory.wf s.mem = true
  host : Memory.wf s.host.mem = true

/-- The logs and queues are within their capacities: the node log (11 R288), the log entries (13 R331), the emulated
writes (13 R327), the SPDM sessions (14 R360) and the control queue (12 R312). -/
structure Safety.Bounded (s : State) : Prop where
  log : s.err.log.length ≤ 4096
  entries : s.host.logq.length ≤ 4096
  emulated : s.host.emQueue.length ≤ 64
  sessions : s.sec.sessions.length ≤ 4
  control : s.fab.control.length ≤ 4096

/-- What no command changes: the grade and the serial number, which are fused (00, 01). -/
def Safety.fusedAs (s t : State) : Prop := t.fuses.grade = s.fuses.grade ∧ t.fuses.serial = s.fuses.serial

/-- The queue takes its next command, which is `c` with opcode `op`: its tag is in order, its wait is met, it passes the
checks of R407, and its block is in service (04 R99, R102, R105, R407; 01 R28). -/
structure Safety.AtFront (s : State) (b : Blk) (q : Qc) (c : Cmd) (op : Nat) : Prop where
  takes : canTake s b q = true
  next : fetched s b q = some c
  opcode : c.opcode = op
  tag : tagOk s c = true
  met : waitMet (s.blk b) q c = true
  passes : decodeBad s b q c = false
  live : blockLive s b = true

/-- From `s` to `t` nothing but queue `q` of block `b` and the event counters of that block has changed. -/
structure Safety.OnlyQueue (b : Blk) (q : Qc) (s t : State) : Prop where
  rest : t = { s with blocks := t.blocks }
  others : ∀ a, a ≠ b → t.blk a = s.blk a
  block : t.blk b = { s.blk b with queues := (t.blk b).queues, ev := (t.blk b).ev }
  queues : ∀ r, r ≠ q → t.q b r = s.q b r

/-- Every event counter of block `b` has gone from `s` to `t` as a wait of command `c` of queue `q` makes it go (R102):
those from the other queues that the wait names, to `q`, have fallen by its count. -/
def Safety.waitConsumed (b : Blk) (q : Qc) (c : Cmd) (s t : State) : Prop :=
  ∀ p r : Qc, evGet (t.blk b) p.code r.code = evGet (s.blk b) p.code r.code -
    (if r = q ∧ p.code ∈ waitsOn q c then c.waitCount else 0)

/-- Every event counter of block `b` stands in `t` as in `s`. -/
def Safety.sameEvents (b : Blk) (s t : State) : Prop :=
  ∀ p r : Qc, evGet (t.blk b) p.code r.code = evGet (s.blk b) p.code r.code

/-- The byte that a place is: a byte of host memory, or a byte of node memory or a store by its physical key. -/
def Safety.byteOf : Place → Option (Bool × Nat)
  | .host o => some (true, o)
  | p => p.key.map fun k => (false, k)

/-- The byte at an NPA lies in none of the runs: they name other bytes, by this NPA or by another name of it. -/
def Safety.Outside (s : State) (runs : List Run) (npa : Nat) : Prop :=
  ∀ r, r ∈ runs → ∀ i, i < r.len → Safety.byteOf (place s (r.npa + i)) ≠ Safety.byteOf (place s npa)

/-- No stored line has an error, and no granule of a checkpoint awaits its copy: reads and writes touch their own bytes
alone. -/
structure Safety.Clean (s : State) : Prop where
  lines : s.lineFault = []
  copied : ∀ n, (s.stack n).ckPending = []

/-- Command `f` of a queue stands finished with a status. -/
def Safety.Finished (b : Blk) (q : Qc) (f : InFl) (st : Status) (t : State) : Prop :=
  ∃ g, g ∈ (t.q b q).inflight ∧ g.idx = f.idx ∧ g.cmd = f.cmd ∧ g.done = some st

/-- From `s` to `t` an engine has changed its commands in flight, its block's flags and the bytes of `runs` alone, with
the line faults and reservations of the lines it wrote, the count of lines it decoded and the free values it drew. -/
structure Safety.EngineOnly (b : Blk) (q : Qc) (runs : List Run) (s t : State) : Prop where
  rest : t = { s with blocks := t.blocks, mem := t.mem, host := t.host, lineFault := t.lineFault, harts := t.harts
                      decoded := t.decoded, free := t.free }
  others : ∀ a, a ≠ b → t.blk a = s.blk a
  block : t.blk b = { s.blk b with queues := (t.blk b).queues, flags := (t.blk b).flags }
  queues : ∀ r, r ≠ q → t.q b r = s.q b r
  queue : t.q b q = { s.q b q with inflight := (t.q b q).inflight }
  bytes : ∀ npa, Safety.Outside s runs npa → rd t npa = rd s npa

/-- From `s` to `t` a pan engine has changed its command in flight, the bytes of `runs`, the flags of the stacks and the
brine array table alone, with the line faults and reservations of the lines it wrote, the count of lines it decoded and
the free values it drew. -/
structure Safety.PanOnly (b : Blk) (q : Qc) (runs : List Run) (s t : State) : Prop where
  rest : t = { s with blocks := t.blocks, mem := t.mem, host := t.host, lineFault := t.lineFault, harts := t.harts
                      stk := t.stk, brine := t.brine, decoded := t.decoded, free := t.free }
  others : ∀ a, a ≠ b → t.blk a = s.blk a
  block : t.blk b = { s.blk b with queues := (t.blk b).queues }
  queues : ∀ r, r ≠ q → t.q b r = s.q b r
  queue : t.q b q = { s.q b q with inflight := (t.q b q).inflight }
  flagged : ∀ n, t.stack n = { s.stack n with flags := (t.stack n).flags }
  bytes : ∀ npa, Safety.Outside s runs npa → rd t npa = rd s npa

/-- From `s` to `t` nothing but the commands in flight of queue `q` of block `b`, and the count of lines decoded, has
changed. -/
structure Safety.OnlyInFlight (b : Blk) (q : Qc) (s t : State) : Prop where
  rest : t = { s with blocks := t.blocks, decoded := t.decoded }
  others : ∀ a, a ≠ b → t.blk a = s.blk a
  block : t.blk b = { s.blk b with queues := (t.blk b).queues }
  queues : ∀ r, r ≠ q → t.q b r = s.q b r
  queue : t.q b q = { s.q b q with inflight := (t.q b q).inflight }

/-- Context `n` of a block as a stream of command `f` takes it, before its sluice decides (08 R214, R225). -/
def Safety.streamCtx (b : Blk) (q : Qc) (f : InFl) (n : Nat) (ring : Bool) (a : Active) (s : State) : Ctx :=
  { s.ctx b n with
    state := if a.todo.isEmpty then .finishing else if ring then .closed else .opened, ring := ring, aged := false
    losses := 0, oq := q == .OQ, rush := false, label := BitVec.ofNat 10 f.cmd.label
    active := some { a with pos := f.pos } }

/-- Command `f` of a queue stands in flight, taken up and not finished. -/
def Safety.Waiting (b : Blk) (q : Qc) (f : InFl) (t : State) : Prop :=
  ∃ g, g ∈ (t.q b q).inflight ∧ g.idx = f.idx ∧ g.cmd = f.cmd ∧ g.started = true ∧ g.done = none

/-- From `s` to `t` the stream `a` of command `f` has been carried to context `n` of its block: with a request to send the
context has it and the command waits; with none the command finishes with OK and the context is idle. Nothing else has
changed (08 R214, R234). -/
structure Safety.StreamStarts (b : Blk) (q : Qc) (f : InFl) (n : Nat) (ring : Bool) (a : Active) (s t : State) : Prop where
  carried : a.todo ≠ [] → t.ctx b n = sluice (Safety.streamCtx b q f n ring a s) ∧ Safety.Waiting b q f t
  empty : a.todo = [] → Safety.Finished b q f .ok t ∧ (t.ctx b n).state = .idle ∧ (t.ctx b n).active = none
  ctxs : ∀ m, m ≠ n → t.ctx b m = s.ctx b m
  queues : ∀ r, r ≠ q → t.q b r = s.q b r
  others : ∀ k, k ≠ b → t.blk k = s.blk k
  rest : t = { s with blocks := t.blocks }

/-- A frame arrives at a node that takes it: in scheduled service, whole, decrypted under an association as no replay, its
outer headers as Table 02.1 gives them, from a source without quarantine, passing orders 1 to 4 of Table 09.3; it carries
no acknowledgement, and no COLL of this node is under way. -/
structure Safety.Arrives (s : State) (f : Frame) : Prop where
  runs : s.host.node ≠ .halted
  service : s.tim.service = true
  fcs : f.fcsOk = true
  secured : macGood s f = true
  headers : linkOk s f = true
  welcome : (s.pair f.hdr.src).quarantined = false
  passes : frontChecks s f = none
  bare : f.hdr.ackValid = false ∧ f.hdr.nak = false
  colls : ∀ g, collUnderWay s g = none

/-- A frame is the next of its pair, with no gap, no number consumed and no NAK pending before it. -/
structure Safety.InOrder (s : State) (f : Frame) : Prop where
  next : f.hdr.seq = (s.pair f.hdr.src).rxNext
  held : (s.pair f.hdr.src).held = []
  void : (s.pair f.hdr.src).void = []
  naks : (s.pair f.hdr.src).naks = []

/-- The mailbox takes a command: the host link is up, the node runs, no mailbox processor restarts, and no background
command is under way (13 R332). -/
structure Safety.Mailbox (s : State) : Prop where
  node : s.host.node ≠ .start ∧ s.host.node ≠ .recovery
  link : s.host.linkUp = true
  fw : ∀ p, p ∈ s.pwr.restarting → 4 ≤ p
  free : s.host.bg = none

/-- A hart that runs its next instruction: its core is fused in, it is ready, and no interrupt is to be taken first. -/
structure Safety.HartReady (s : State) (h : BitVec 6) : Prop where
  present : hartPresent s h = true
  ready : (s.hart h).missWait = false
  runs : (s.hart h).state = .running
  calm : pendingIntr (drew s) h = none

/-- From `s` to `t` nothing but hart `h` has changed, beside the free value drawn. -/
structure Safety.OnlyHart (h : BitVec 6) (s t : State) : Prop where
  rest : t = { s with harts := t.harts, free := s.free + 1 }
  others : ∀ g, g ≠ h → t.hart g = s.hart g

/-- The hart after an instruction of `len` bytes: the pc is past it, and it is counted unless counting is inhibited. -/
def Safety.retired (len : Nat) (t : Hart) : Hart :=
  { t with
    pc := t.pc + BitVec.ofNat 64 len
    csr := { t.csr with
      minstret := if wbit t.csr.mcountinhibit 2 then t.csr.minstret else t.csr.minstret + 1 } }

/-- Element `i` of a vector register whose elements have `w` bytes (10 R277). -/
def Safety.lane (w : Nat) (v : W128) (i : Nat) : BitVec (8 * w) := (v >>> (8 * w * i)).setWidth (8 * w)

/-- The newest record of the node log has a code. -/
def Safety.recorded (t : State) (c : ErrCode) : Prop := ∃ r, lastRec t = some r ∧ r.code = c

end Sys2Proof
end

