-- ==== Sys2Proof/Certificates/Slice0/Obligations.lean ====
section
/-!
DEFINITION. The statements for the provers, in the order of OBLIGATIONS.json. A statement with `t = { s with … }` says
that nothing else of the state changes. Where one rests on a choice of the model its docstring names the log entry.
-/
open Sys2Proof Sys2Proof.Machine

/-- With a command c at the front of the queue, step is exec of c on the state whose queue is the rest. The queue is the
model's own (log 1). -/
def Obligations.StepRunsFrontCommand : Prop :=
  ∀ (s : State) (c : Instr) (rest : List Instr), s.pending = c :: rest → step s = exec c { s with pending := rest }

/-- On an empty queue a step answers a next state: hall time and the model's own clock advance by one nanosecond,
PPS_OUT falls if its pulse is over, the lines in the write-combining buffers drain to memory, and, unless the node
is halted, the first fault of a part that the node has not met yet is met (the model's choice, logs 1, 50 and 67).
With the buffers empty and no such fault nothing but the clocks and PPS_OUT changes. -/
def Obligations.StepIdlesOnEmptyQueue : Prop :=
  ∀ s : State, s.pending = [] → ∃ t, step s = .next t ∧
    (let u := drainAll { s with
      tim := { s.tim with now := s.tim.now + 1, hall := s.tim.hall + 1 }
      pwr := { s.pwr with ppsOut := s.pwr.ppsOut && s.tim.hall + 1 < s.pwr.ppsFalls } }
    t = match u.partFaults with
      | [] => u
      | f :: fs => if u.host.node = .halted then u else meetPart { u with partFaults := fs } f) ∧
    (s.wcb = [] → s.partFaults = [] →
      t.tim = { s.tim with now := s.tim.now + 1, hall := s.tim.hall + 1 } ∧
      t.pwr = { s.pwr with ppsOut := s.pwr.ppsOut && s.tim.hall + 1 < s.pwr.ppsFalls } ∧
      t = { s with tim := t.tim, pwr := t.pwr })

/-- Every command answers a next state, whatever its operands and the state. Refused and failed commands of the spec are
statuses in that state, not stops of the model. -/
def Obligations.EveryCommandAnswersNextState : Prop :=
  ∀ (c : Instr) (s : State), ∃ t, exec c s = .next t

/-- The state after reset has an empty queue, its node memory and host memory are in their canonical form, and every log
and queue is within the capacity the spec gives it. -/
def Obligations.ResetIsGood : Prop :=
  State.reset.pending = [] ∧ Safety.Memories State.reset ∧ Safety.Bounded State.reset

/-- From every state whose memories are canonical and whose logs and queues are within their capacities, a step that
answers a next state answers one whose node memory and host memory are canonical: addresses strictly rising, no byte
listed at the value an unlisted byte reads as (the form is the model's, log 6). -/
def Obligations.StepKeepsMemoriesCanonical : Prop :=
  ∀ s t : State, Safety.Memories s → Safety.Bounded s → step s = .next t → Safety.Memories t

/-- From every state whose memories are canonical and whose logs and queues are within their capacities, a step that
answers a next state keeps them so: 4 096 records of the node log (11 R288), 4 096 log entries (13 R331), 64
emulated writes (13 R327), four SPDM sessions (14 R360) and 4 096 notices and orders (12 R312). -/
def Obligations.StepKeepsLogsBounded : Prop :=
  ∀ s t : State, Safety.Memories s → Safety.Bounded s → step s = .next t → Safety.Bounded t

/-- In every state whose memories are canonical and whose logs and queues are within their capacities, a command that
answers a next state leaves the queue of waiting commands as it was, and the grade and serial number, which are
fused, too. -/
def Obligations.CommandKeepsQueueAndFuses : Prop :=
  ∀ (c : Instr) (s t : State), Safety.Memories s → Safety.Bounded s → exec c s = .next t →
    t.pending = s.pending ∧ Safety.fusedAs s t

/-- NOP and STEP at the front of a queue of a block in service, their wait met, R407's checks passed (their operand
words zero) and fewer than 512 commands in flight, answer a next state in which the events of the wait are consumed,
the command stands in flight finished with OK behind the earlier ones, and the fetch point has moved past it (R99,
R102, R114). After STEP the queue is in state STEP and issues nothing further (R116); after NOP it is in the state
it was in. END, which waits on nothing and posts nothing, leaves its queue in state END with everything else of it
as it was (R100). Nothing but that queue and the counters of its block changes. -/
def Obligations.NopStepAndEndComplete : Prop :=
  ∀ (s : State) (b : Blk) (q : Qc) (c : Cmd),
    let ended := (s.q b q).inflight ++ [{ mkInFl s b q c with started := true, done := some .ok }]
    (Safety.AtFront s b q c 0x00 → ∃ t, exec (.nop b q) s = .next t ∧
      t.q b q = { (s.q b q).past with serial := (s.q b q).serial + 1, inflight := ended } ∧
      Safety.waitConsumed b q c s t ∧ Safety.OnlyQueue b q s t) ∧
    (Safety.AtFront s b q c 0x02 → ∃ t, exec (.stepCmd b q) s = .next t ∧
      t.q b q = { (s.q b q).past with serial := (s.q b q).serial + 1, inflight := ended, state := .step } ∧
      Safety.waitConsumed b q c s t ∧ Safety.OnlyQueue b q s t) ∧
    (Safety.AtFront s b q c 0x01 → ∃ t, exec (.endCmd b q) s = .next t ∧
      t.q b q = { s.q b q with state := .endd } ∧ Safety.sameEvents b s t ∧ Safety.OnlyQueue b q s t)

/-- A LOOP at the front of a queue of a block in service that passes R407's checks, with a count of at most 0xFFFFFFFF,
answers a next state. With a count and a body length of at least 1 a new innermost level stands there with its body
start, length and count, its running counter 0, and the fetch point at the body's first command. With a count of 0
or an empty body the fetch point is behind the body, and every enclosing body that ends there runs its next
iteration or closes. Nothing but that queue changes. The count is the immediate or an address register (R114, R115).
With a greater count the LOOP ends with BOUNDS. -/
def Obligations.LoopOpensOrSkips : Prop :=
  ∀ (s : State) (b : Blk) (q : Qc) (c : Cmd), Safety.AtFront s b q c 0x03 →
    let n := if wbit c.w2 4 then ((s.q b q).aregs.get 0 (fld c.w2 0 4)).toNat else fld c.w1 0 32
    let len := fld c.w3 0 16
    ∃ t, exec (.loop b q) s = .next t ∧
      (n ≤ 0xFFFF_FFFF → 1 ≤ n → 1 ≤ len → t.q b q = { s.q b q with
        loops := ⟨(s.q b q).pc + 1, len, n, 0⟩ :: (s.q b q).loops, pc := (s.q b q).pc + 1 }) ∧
      (n ≤ 0xFFFF_FFFF → n = 0 ∨ len = 0 → t.q b q = { s.q b q with
        loops := (advance (s.q b q).loops ((s.q b q).pc + 1 + len)).1
        pc := (advance (s.q b q).loops ((s.q b q).pc + 1 + len)).2 }) ∧
      (0xFFFF_FFFF < n → t.q b q = { (s.q b q).past with
        serial := (s.q b q).serial + 1
        inflight := (s.q b q).inflight ++ [{ mkInFl s b q c with started := true, done := some .bounds }] }) ∧
      Safety.sameEvents b s t ∧ Safety.OnlyQueue b q s t

/-- An AOP at the front of a queue of a block in service that passes R407's checks and holds no LDA, or holds one with
nothing of its queue in flight, no line in error and every LDA address a multiple of 8 inside a readable buffer,
answers a next state in which the address registers are those that its seven words make in order (Table 04.9), the
fetch point has moved past it, and nothing else has changed but the count of lines that the LDAs decoded (R112,
R113, R183). A word of code 0 does nothing; MOV (0x0B) gives the immediate; an LDA (0x0C) the little-endian word at
its address; the others the result of their operation on a register or loop counter and a register, loop counter or
immediate. -/
def Obligations.AddressUnitWordsRunInOrder : Prop :=
  ∀ (s : State) (b : Blk) (q : Qc) (c : Cmd), Safety.AtFront s b q c 0x04 →
    let u := s.q b q
    let word := fun (a : SMap W64) (w : W64) =>
      if aopCode w = 0 then a
      else if aopCode w = 0x0C then SMap.set 0 a (aopRd w) (BitVec.ofNat 64 (rdW s (ldaAddr u a w) 8))
      else if aopCode w = 0x0B then SMap.set 0 a (aopRd w) (aopImm w)
      else SMap.set 0 a (aopRd w)
        (aopAlu (aopCode w) (aopSrc u a (aopRs1 w)) (if wbit w 23 then aopImm w else aopSrc u a (aopRs2 w)))
    let after := fun (i : Instr) => ∃ t, exec i s = .next t ∧
      t.q b q = { u.past with aregs := c.words.foldl word u.aregs } ∧ Safety.sameEvents b s t ∧
      Safety.OnlyQueue b q { s with decoded := t.decoded } t ∧ (hasLda c = false → t.decoded = s.decoded)
    (hasLda c = false → after (.aop b q)) ∧
    (hasLda c = true → u.inflight = [] → s.lineFault = [] →
      (∀ i w, c.words[i]? = some w → aopCode w = 0x0C →
        let npa := ldaAddr u ((c.words.take i).foldl word u.aregs) w
        npa % 8 = 0 ∧ ldaOk s b npa = true) →
      after (.lda b q))

/-- A command for an engine or unit at the fetch point of a queue of a block in service, with its tag in order, its wait
met, R407's checks passed, room in the queue, its context and unit free, and no check of Table 04.11 against it,
answers a next state in which the events of its wait are consumed, it stands in flight, not yet taken up, behind the
earlier commands, with the address registers and loop counters of its decode, the fetch point has moved past it, and
its stream context, if it has one, carries its queue and label. For a PANOP and a COLL the effects at issue on the
brine array table are in the state too (R99, R102, R121, R122, R197, R199, R255). Its number is the model's own (log
49). -/
def Obligations.CommandIssueEntersFlight : Prop :=
  ∀ (s : State) (b : Blk) (q : Qc) (c : Cmd), Safety.AtFront s b q c c.opcode → 0x05 ≤ c.opcode →
    let f := mkInFl s b q c
    ctxBusy s b c = false → unitBusy s b q f = false →
    let s1 := consumed s b q c
    cmdIssue s1 b f = [] →
    (c.opcode ≠ 0x57 → c.opcode ≠ 0x56 → ∃ t, exec (.commandIssue b q) s = .next t ∧
      t.q b q = { (s.q b q).past with serial := (s.q b q).serial + 1, inflight := (s.q b q).inflight ++ [f] } ∧
      f.started = false ∧ f.cmd = c ∧ f.pos = (s.q b q).pc ∧ f.idx = (s.q b q).serial ∧ Safety.waitConsumed b q c s t ∧
      (∀ n, t.ctx b n = if c.ctx = some n then { s.ctx b n with oq := q == .OQ, label := BitVec.ofNat 10 c.label }
        else s.ctx b n) ∧
      (∀ r, r ≠ q → t.q b r = s.q b r) ∧ (∀ a, a ≠ b → t.blk a = s.blk a) ∧ t = { s with blocks := t.blocks }) ∧
    (c.opcode = 0x57 → exec (.commandIssue b q) s =
      .next (pushNext (panAtIssue s1 f).1 b q (panAtIssue s1 f).2)) ∧
    (c.opcode = 0x56 → exec (.commandIssue b q) s =
      .next (pushNext (ctxTake (collRegister s1 b f) b q c) b q f))

/-- The oldest command of a queue that has not halted, finished with a status of class done or qualified, its posts
within the counters' 32 bits and the completion buffer not full where it notifies, completes: it leaves the flight,
one event is posted from its queue to every queue it names, its stream context keeps its status, a notify command
puts its record at the end of the completion buffer, and in twin mode the CRC of its output enters the queue's
signature (R99, R102, R103, R264, R330). Nothing else changes but the count of free values drawn, as the record's
hall time may lag (R40). -/
def Obligations.CommandCompletePosts : Prop :=
  ∀ (s : State) (b : Blk) (q : Qc) (f : InFl) (l : List InFl) (st : Status),
    (s.q b q).inflight = f :: l → f.done = some st → (s.q b q).state ≠ .halt → st.good = true →
    postOver (s.blk b) q f.cmd = false → (f.cmd.notify = true → s.host.cbuf.length < 4096) →
    let twin := (s.job.image.map Image.pleach).getD false = true ∧ f.out ≠ []
    let bs := leBytes 4 f.pos ++ f.out
    ∃ t, exec (.commandComplete b q) s = .next t ∧
      t.q b q = { s.q b q with
        inflight := l
        crc := if twin then crc64 (s.q b q).crc bs else (s.q b q).crc
        crcLog := if twin then (s.q b q).crcLog ++ [(f.pos, crc64 0 bs)] else (s.q b q).crcLog } ∧
      (∀ p r : Qc, evGet (t.blk b) p.code r.code = evGet (s.blk b) p.code r.code +
        (if p = q ∧ f.cmd.postQueues.testBit r.code = true then 1 else 0)) ∧
      (∀ n, t.ctx b n = if f.cmd.ctx = some n then { s.ctx b n with last := st } else s.ctx b n) ∧
      t.host = { s.host with cbuf := s.host.cbuf ++ (if f.cmd.notify then
        [{ status := st, queue := q.code, region := b.region.toNat, block := b.block.toNat, idx := f.pos,
           label := f.cmd.label, loadGen := f.cmd.loadGen, step := s.job.step.toNat, hall := stamp s }] else []) } ∧
      (∀ r, r ≠ q → t.q b r = s.q b r) ∧ (∀ a, a ≠ b → t.blk a = s.blk a) ∧
      t = { s with blocks := t.blocks, host := t.host, free := t.free }

/-- The oldest command of a queue that has not halted, finished with a status of class refused or failed, leaves the
flight and halts its queue with its status and index, where the completion buffer is not full for a notify. No event
is posted (R102), the block's count of such events rises, and a node in RUN with a job running leaves RUN for
HOLDING (R22, R289). -/
def Obligations.CommandFailedHaltsQueue : Prop :=
  ∀ (s : State) (b : Blk) (q : Qc) (f : InFl) (l : List InFl) (st : Status),
    (s.q b q).inflight = f :: l → f.done = some st → (s.q b q).state ≠ .halt → st.good = false →
    (f.cmd.notify = true → s.host.cbuf.length < 4096) →
    ∃ t, exec (.commandComplete b q) s = .next t ∧
      (t.q b q).inflight = l ∧ (t.q b q).state = .halt ∧ (t.q b q).haltStatus = st ∧
      (t.q b q).haltIdx = f.pos ∧
      Safety.sameEvents b s t ∧ (t.blk b).dEvents = (s.blk b).dEvents + 1 ∧
      (s.job.phase = .running → s.hold.state = .run → t.hold.state = .holding) ∧ t.mem = s.mem ∧ t.harts = s.harts

/-- With no line in error and no granule awaiting its copy, the vector engine's row of the first command of VQ that has
issued answers a next state in which that command stands finished with OK, memory is what writing each result tensor
leaves (an element whose mask is off keeps its old value), and the flags of the elements written are ORed into the
block's vec_flags, or red_flags for VRED. The elements are those of Tables 05.4 to 05.7: the operation of VOP
element by element with its broadcast; of VRED the element-wise results and each slice's reduction; of VCOMP the
elements whose mask is on, in order, and their number; of VEXP the next dense element or the fill value; of VCONV
the converted element and, for a block-scaled output, the scales. Where a result overlaps a source (R125) its bits
are free values (log 3). Nothing else changes: no byte outside the results' rows, no other queue and no other block
(R91, R99, R137 to R150). -/
def Obligations.VectorCommandsComplete : Prop :=
  ∀ (s : State) (b : Blk) (f : InFl), Safety.Clean s → nextStart s b .VQ = some f → f.done = none →
    let s0 := updInFl s b .VQ f.idx fun x => { x with started := true }
    let completes := fun (i : Instr) (eng : Nat) (outs : List (Desc × Option Desc × (Nat → Nat × Fl))) =>
      ∃ t, exec i s = .next t ∧ Safety.Finished b .VQ f .ok t ∧
        t.mem = (outs.foldl (fun u o => (wrT u o.1 fun e =>
          if e < o.1.size ∧ maskOn s o.2.1 e = true then some (o.2.2 e).1 else none).1) s0).mem ∧
        (t.blk b).flags = (s.blk b).flags ||| ((outs.foldl (fun a o => (List.range o.1.size).foldl (fun a e =>
          if maskOn s o.2.1 e then a ||| (o.2.2 e).2 else a) a) (0 : Fl)).setWidth 16 <<< (4 * eng)) ∧
        Safety.EngineOnly b .VQ (outs.flatMap fun o => o.1.runs) s t
    let x := opnd! s f 1
    (f.cmd.opcode = 0x20 →
      let d := opnd! s f 4
      let m := d.mask.bind (descAt s)
      let lap := (x :: (opnd s f 2).toList ++ (opnd s f 3).toList).any (badOverlap d) ||
        (vAux s (d.mask :: vopAnchors x (opnd s f 2) d)).any (extentsMeet d)
      completes (.vop b) 1 [(d, m, fun e =>
        let r := vopElem (vopOp f.cmd) x.fmt d.ncw.mode (drawOf s d.ncw e) (x.raw s e)
          (src1Raw s f.cmd x.fmt (opnd s f 2) d e) (((opnd s f 3).map fun y => y.raw s e).getD 0)
        if lap then (freeRaw s d.fmt e, r.2) else r)]) ∧
    (f.cmd.opcode = 0x21 →
      let w := opnd s f 2
      let r := opnd! s f 3
      let m := x.mask.bind (descAt s)
      let vf := (w.map Desc.fmt).getD x.fmt
      let wn := (w.map Desc.ncw).getD x.ncw
      let lap := (w.toList ++ [r]).any fun d =>
        extentsMeet d x || (vAux s (x.mask :: vredAnchors f.cmd x w vf r)).any (extentsMeet d)
      let use := (w.map fun d => freeUse d.ncw d.size lap).getD 0
      let elem := fun e => vredElem (vredOp f.cmd) x.fmt vf (if w.isSome then wn.mode else .rne)
        (if w.isSome then drawOf s wn e else 0) (x.raw s e)
      let fl := (List.range x.size).foldl (fun a e => if maskOn s m e then a ||| (elem e).2 else a) (0 : Fl)
      let slice := fun k => (List.range x.size).filterMap fun e =>
        if maskOn s m e = true ∧ sliceOf (vredAxis f.cmd) x.counts e = k then
          some (sliceIndex (vredAxis f.cmd) x.counts e, (elem e).1) else none
      completes (.vred b) 2 ((match w with
        | some d => [(d, m, fun e => (if lap then freeRaw s d.fmt e
            else if e < x.size ∧ maskOn s m e = true then (elem e).1 else 0, fl))]
        | none => []) ++ [(r, none, fun k =>
          let v := redSlice (vredRed f.cmd) vf r.ncw (anchorAt s r k) (drawOf { s with free := s.free + use } r.ncw k)
            (slice k)
          (if lap then freeRaw { s with free := s.free + use } r.fmt k else v.1, v.2 ||| fl))])) ∧
    (f.cmd.opcode = 0x22 →
      let m := opnd! s f 2
      let d := opnd! s f 3
      let n := opnd! s f 4
      let on := (List.range x.size).filter fun e => maskOn s (some m) e
      let lap := [d, n].any fun r => extentsMeet r x || extentsMeet r m
      completes (.vcomp b) 1 [({ d with counts := [on.length, 1, 1, 1, 1] }, none,
          fun j => (if lap then freeRaw s x.fmt j else x.raw s (on.getD j 0), 0)),
        (n, none, fun _ => (if lap then freeRaw s .int64 on.length else on.length, 0))]) ∧
    (f.cmd.opcode = 0x23 →
      let m := opnd! s f 2
      let d := opnd! s f 3
      let on := (List.range d.size).map fun e => maskOn s (some m) e
      let lap := extentsMeet d x || extentsMeet d m
      completes (.vexp b) 1 [(d, none, fun e =>
        (if lap then freeRaw s d.fmt e
         else if on.getD e false then x.raw s ((on.take e).filter id).length else fillRaw d.fmt f.cmd.w4, 0))]) ∧
    (f.cmd.opcode = 0x24 →
      let d := opnd! s f 2
      let so := vconvScaleOut s d
      let lap := badOverlap d x || so.toList.any (extentsMeet x) ||
        (vAux s (vconvAux x d)).any fun a => (d :: so.toList).any (extentsMeet a)
      let main := fun e =>
        let r := if d.ncw.scaleMode = 2 then blockOutElem s x d e else vconvElem s x d e
        if lap then (freeRaw s d.fmt e, r.2) else r
      let scales := so.toList.map fun sd => (sd, (none : Option Desc), fun k =>
        let nb := cdiv (d.c 0) d.ncw.bs
        (if lap then freeRaw s .uint8 (d.size + k) else (outScale d.fmt (blockVals s x d (k / nb) (k % nb))).getD 255,
          (0 : Fl)))
      completes (.vconv b) 1 ((d, none, main) :: scales))

/-- With no line in error and no granule awaiting its copy, the tensor engine's row of the first command of TQ that has
issued answers a next state in which that command stands finished with OK. A TMUL in which no cell mismatches writes
its tiles in the walk of R136, each row of a tile holding the elements of the macro-operation of R126 to R131 on the
operands as the command found them, and ORs their flags into tns_flags. A TSCAN writes the anchors of R94 as 32-bit
integers (R132) and sets no flag. Where a result overlaps a source its bits are free values and its flags are not
(R125, log 3). No byte outside the result's rows, no other queue and no other block changes. -/
def Obligations.TensorCommandsComplete : Prop :=
  ∀ (s : State) (b : Blk) (f : InFl), Safety.Clean s → nextStart s b .TQ = some f → f.done = none →
    let p := tpOf s f
    (f.cmd.opcode = 0x10 →
      let v := countReads (updInFl s b .TQ f.idx fun x => { x with started := true }) (tmulPre s p)
      let elem := fun (n i j : Nat) =>
        let x := tmulElem v p (batchIx p.r.counts n) n i j
        if tmulOverlap s p then (freeRaw (drewN v p.r.ncw p.r.size) p.r.fmt (n * p.m * p.n + i * p.n + j), x.2) else x
      let tiles := (List.range (batches p.r)).flatMap fun n => (tileWalk p.m p.n).map fun t => (n, t)
      let wide := fun (x : Nat × Nat × Nat) => min 32 (p.n - 32 * x.2.2)
      let rows := fun (x : Nat × Nat × Nat) => (List.range (min 32 (p.m - 32 * x.2.1))).map fun i => 32 * x.2.1 + i
      let run := fun (x : Nat × Nat × Nat) (i : Nat) =>
        p.r.runAt (i :: batchIx p.r.counts x.1) (32 * x.2.2) (wide x)
      let row := fun (x : Nat × Nat × Nat) (i : Nat) => (List.range (wide x)).map fun j => elem x.1 i (32 * x.2.2 + j)
      ∃ t, exec (.tmul b []) s = .next t ∧ Safety.Finished b .TQ f .ok t ∧
        t.mem = (tiles.foldl (fun u x => (rows x).foldl (fun u i =>
          (wrRow u p.r.fmt (run x i).npa ((row x i).map fun e => some e.1)).1) u) v).mem ∧
        (t.blk b).flags = (s.blk b).flags ||| (tiles.foldl (fun a x => (rows x).foldl (fun a i =>
          (row x i).foldl (fun a e => a ||| e.2) a) a) (0 : Fl)).setWidth 16 ∧
        Safety.EngineOnly b .TQ (tiles.flatMap fun x => (rows x).map (run x)) s t) ∧
    (f.cmd.opcode = 0x11 →
      let v := countReads s (prescanRuns s p ++ partialRuns p.r.runs)
      let lap := ([p.a, p.b] ++ (if p.floatC then p.c.toList else []) ++ scanAux s p).any (extentsMeet p.r)
      ∃ t, exec (.tscan b) s = .next t ∧ Safety.Finished b .TQ f .ok t ∧
        t.mem = (wrT v p.r fun e => some (if lap then freeRaw v .int32 e
          else tc 32 (prescan v p (batchIx p.r.counts (e / (p.m * p.n))) (e % (p.m * p.n) / p.n) (e % p.n)))).1.mem ∧
        (t.blk b).flags = (s.blk b).flags ∧ Safety.EngineOnly b .TQ p.r.runs s t)

/-- With no line in error and no granule awaiting its copy, the row of the first command of XQ that has issued answers a
next state. SFACT: when no item meets a fault the command finishes with OK on the state that its items leave, worked
in order with the NOTRUN words last, with the flags of its operations in slv_flags (R151, R168, R177); with no item
it changes nothing but its own entry (R155). SPAT puts the pattern that its structure's words make into its slot,
every other slot as it was (R171). -/
def Obligations.SolverCommandsComplete : Prop :=
  ∀ (s : State) (b : Blk) (f : InFl), Safety.Clean s → f.done = none →
    (nextStart s b .XQ = some f → f.cmd.opcode = 0x30 →
      let k := SCtl.of f.cmd.w6
      let bt := batchOf s f
      let t := stensOf s f
      let g : SJob := { ctl := k, n := bt.n, data := t.mat.fmt, w := if k.f32 then .fp32 else t.mat.fmt,
                        floor := Fmt.fp64.decode bt.floor, pat := if k.usePat then patOf s b k.slot else none }
      let w := (List.range t.mat.items).foldl (itemStep g t b bt.nrhs f.cmd.w7.toNat)
        { s := updInFl s b .XQ f.idx fun x => { x with started := true } }
      (w.fault = none → w.late = [] → exec (.sfact b) s = .next (finishOut (setFlags { w.s with
        free := w.s.free + (if f.cmd.w7 = 0 then 0 else w.cyc + 1) } b 3 w.fl) b .XQ f.idx .ok (w.out.bytes t.mat.items))) ∧
      (t.mat.items = 0 → ∃ u, exec (.sfact b) s = .next u ∧ Safety.Finished b .XQ f .ok u ∧
        (u.blk b).flags = (s.blk b).flags ∧ Safety.EngineOnly b .XQ [] s u)) ∧
    (nextStart s b .XQ = some f → f.cmd.opcode = 0x31 →
      let n := (patDesc (((refIdx f.cmd.w1).bind (descBytes s)).getD [])).1
      let kind := (patDesc (((refIdx f.cmd.w1).bind (descBytes s)).getD [])).2.1
      let slot := fld f.cmd.w2 0 6
      ∃ u, exec (.spat b) s = .next u ∧ Safety.Finished b .XQ f .ok u ∧
        patOf u b slot =
          some (mkPat n (kind == 1) ((List.range n).map fun i => BitVec.ofNat 64 ((spatTensor s f).raw s i))) ∧
        (∀ j, j ≠ slot → patOf u b j = patOf s b j) ∧
        (∀ a, a ≠ b → u.blk a = s.blk a) ∧ (∀ r, r ≠ Qc.XQ → u.q b r = s.q b r) ∧
        u = { s with blocks := u.blocks, decoded := u.decoded })

/-- The row of the first stream or remote command of IQ or OQ that has issued, its ring's PEER not above its clamp,
answers a next state in which its context carries the stream with all its requests yet to be sent, OPEN (a ring:
CLOSED until its sluice opens), with the command's label and queue, and the command is taken up. A command that
moves no byte finishes with OK at once and leaves the context IDLE. No other context, queue, block or byte changes
(R214, R222, R225, R227, R234, R244). -/
def Obligations.StreamCommandsTakeContext : Prop :=
  ∀ (s : State) (b : Blk) (f : InFl), f.done = none →
    let starts := fun (i : Instr) (q : Qc) (n : Nat) (ring : Bool) (a : Active) =>
      let c := Safety.streamCtx b q f n ring a s
      ¬(ring = true ∧ peerClamp c a < c.peer.toNat) → ∃ t, exec i s = .next t ∧ Safety.StreamStarts b q f n ring a s t
    let stream := fun (i : Instr) (inbound : Bool) =>
      let far := (streamEnds s f inbound).1
      let near := (streamEnds s f inbound).2
      let k := (stCtl s f.cmd.w3).getD {}
      starts i (dirQ inbound) (fld f.cmd.w4 0 4) k.ring
        { idx := f.idx, remote := false, outbound := !inbound, narrow := k.narrow, lc := inbound && far.lc, high := k.high
          low := k.low, rush := k.rush, rate := k.rate, ringBase := near.base, ringSize := if k.ring then near.c 0 else 0
          todo := streamReqs k (streamConv k (if inbound then far else near) (if inbound then near else far)) far near
          sent := [] }
    let remote := fun (i : Instr) (inbound : Bool) (n : Nat) (k : StCtl) (hedge : Nat) (lc : Bool) =>
      let near := if inbound then opnd! s f 2 else opnd! s f 1
      starts i (dirQ inbound) n k.ring
        { idx := f.idx, remote := true, hedge := hedge, outbound := !inbound, narrow := false, lc := lc, high := k.high
          low := k.low, rush := k.rush, rate := k.rate, ringBase := near.base
          ringSize := if k.ring then near.c 0 else 0, todo := rmtReqs s f, sent := [] }
    (nextStart s b .IQ = some f → f.cmd.opcode = 0x40 → stream (.sin b) true) ∧
    (nextStart s b .OQ = some f → f.cmd.opcode = 0x50 → stream (.sout b) false) ∧
    (nextStart s b .IQ = some f → f.cmd.opcode = 0x43 →
      remote (.get b) true 14 ((stCtl s f.cmd.w3).getD {}) (remoteHedge s (opnd! s f 1)) (opnd! s f 1).lc) ∧
    (nextStart s b .OQ = some f → f.cmd.opcode = 0x52 →
      remote (.put b) false 15 ((stCtl s f.cmd.w3).getD {}) (remoteHedge s (opnd! s f 2)) (wbit f.cmd.w4 0)) ∧
    (nextStart s b .OQ = some f → f.cmd.opcode = 0x54 →
      remote (.rred b) false 15 ((stCtl s f.cmd.w3).getD {}) (remoteHedge s (opnd! s f 2)) false) ∧
    (nextStart s b .OQ = some f → f.cmd.opcode = 0x55 → remote (.mcast b) false 15 {} (fld f.cmd.w3 0 16) false)

/-- With no line in error and no granule awaiting its copy, the oldest local request sent on a context is answered: an
inbound one writes the bytes it reads at the far end into the store and OWN counts it, an outbound one writes at the
far end the bytes it read when it left, converted where the formats differ (R217, R222, R234). If nothing is left to
be sent or answered the command finishes with OK and the context is IDLE; else the stream goes on with that request
taken off. Lines in the host aperture enter the device cache (R216). No byte outside the target's changes, no other
context, queue or block. -/
def Obligations.StreamRequestsMoveTheirBytes : Prop :=
  ∀ (s : State) (b : Blk) (n : BitVec 4) (a : Active) (r : SReq) (l : List SReq) (f : InFl),
    let c := s.ctx b n.toNat
    Safety.Clean s → c.active = some a → a.remote = false → a.coll = false → a.sent = r :: l → a.fail = none →
    ctxCmd s b c a = some f →
    let moves := fun (i : Instr) (target : Nat) (data : List Byte) (own : W64) =>
      let d := reqData s b f c.ring r data
      ∃ t, exec i s = .next t ∧ t.mem = (wrN s target d.2).mem ∧ (t.ctx b n.toNat).own = own ∧
        (a.todo = [] ∧ l = [] → Safety.Finished b (ctxQ c) f .ok t ∧ (t.ctx b n.toNat).state = .idle ∧
          (t.ctx b n.toNat).active = none) ∧
        (a.todo ≠ [] ∨ l ≠ [] → (t.ctx b n.toNat).active = some { a with sent := l }) ∧
        (t.blk b).flags = (d.1.blk b).flags ∧ (∀ m, m ≠ n.toNat → t.ctx b m = s.ctx b m) ∧
        (∀ q, q ≠ ctxQ c → t.q b q = s.q b q) ∧ (∀ k, k ≠ b → t.blk k = s.blk k) ∧
        (∀ npa, Safety.Outside s [⟨target, d.2.length⟩] npa → rd t npa = rd s npa) ∧
        t = { s with blocks := t.blocks, mem := t.mem, host := t.host, lineFault := t.lineFault, harts := t.harts
                     decoded := t.decoded, free := t.free }
    (a.outbound = false → moves (.streamDataLanded b n) r.near (rdN s r.far r.bytes) (c.own + BitVec.ofNat 64 r.nb)) ∧
    (a.outbound = true → moves (.writeResponse b n) r.far r.data c.own)

/-- The oldest local request sent on a context, sent at least 1 ms ago, is given up: nothing more of its stream is sent,
and its failure stands unless a request earlier in stream order has failed. When it was the only one outstanding and
nothing failed before it, the command ends with TIMEOUT and the context is IDLE; else the context waits (R235,
R236). Where the request is toward the host the correctable AER error Completion Timeout is logged (R298, log 21).
No byte changes. -/
def Obligations.StreamRequestTimesOut : Prop :=
  ∀ (s : State) (b : Blk) (n : BitVec 4) (a : Active) (r : SReq) (l : List SReq) (f : InFl),
    let c := s.ctx b n.toNat
    c.active = some a → a.remote = false → a.coll = false → a.sent = r :: l → a.fail = none → ctxCmd s b c a = some f →
    r.sent + 1_000_000 ≤ s.tim.now → ∃ t, exec (.streamRequestTimeout b n) s = .next t ∧
      (l = [] → Safety.Finished b (ctxQ c) f .timeout t ∧ (t.ctx b n.toNat).state = .idle ∧
        (t.ctx b n.toNat).active = none) ∧
      (l ≠ [] → t.ctx b n.toNat = { c with state := .waiting, active := some { a with
        todo := [], sent := l, fail := some (r.no, .timeout, none) } }) ∧
      (∀ m, m ≠ n.toNat → t.ctx b m = s.ctx b m) ∧ (∀ q, q ≠ ctxQ c → t.q b q = s.q b q) ∧
      (∀ k, k ≠ b → t.blk k = s.blk k) ∧ t.host = (timeoutAer s r.far).host ∧
      t = { s with blocks := t.blocks, host := t.host }

/-- On a node that is not RESETTING, the context that wins the block's arbitration (R231, R232) and carries a local
stream sends its next request: ISSUED counts its bytes, the request joins those sent, and the rest stays to be sent;
an outbound one, with no line in error, reads its bytes in the store now and OWN counts them (R222, R228). Every
ready context that lost has one more loss and is aged at 64. No byte, queue or other block changes. -/
def Obligations.StreamGrantSendsOneRequest : Prop :=
  ∀ (s : State) (b : Blk) (n : Nat) (a : Active) (r : SReq) (rest : List SReq),
    let k := gateColl s (s.blk b)
    let c := (lose k n).ctx n
    s.hold.state ≠ .resetting → winner k = some n → c.active = some a → a.remote = false →
    nextReq c a = some (r, rest) → (a.outbound = true → s.lineFault = []) →
    let sent := sentCtx s c a (if a.outbound then { r with data := rdN s r.near r.nb } else r) rest
    ∃ t, exec (.streamGrant b) s = .next t ∧
      t.ctx b n = (if a.outbound then { sent with own := sent.own + BitVec.ofNat 64 r.nb } else sent) ∧
      (∀ m, m ≠ n → t.ctx b m = (lose k n).ctx m) ∧ (∀ q, t.q b q = s.q b q) ∧ (∀ x, x ≠ b → t.blk x = s.blk x) ∧
      t = { s with blocks := t.blocks, decoded := t.decoded }

/-- With no line in error, the row of a GATHER or SCATTER that has issued, every index below the table's row count,
answers a next state in which context 14 (GATHER) or 15 (SCATTER) carries one narrow stream: GATHER reads the table
row that element j of the index list names into row j of the dense side, SCATTER the other way, in list order (R188,
R190, R214). An index at or above the row count ends the command with BOUNDS before any row moves. A DELTA puts on
context 14 its entries in list order, each 8 or 4 bytes at its item, row and column (R174). Without a row or entry
the command finishes with OK. The lines of the list are counted as decoded; no other context, queue, block or byte
changes. The rows and entries move as their requests are granted and answered (R231, R234). -/
def Obligations.RowCommandsMoveRows : Prop :=
  ∀ (s : State) (b : Blk) (f : InFl), s.lineFault = [] → f.done = none →
    let rows := fun (i : Instr) (q : Qc) (n : Nat) (gather : Bool) =>
      let ix := (rowsOf s f gather).1
      let tab := (rowsOf s f gather).2.1
      let den := (rowsOf s f gather).2.2
      ((∀ j, j < ix.size → ix.raw s j < tab.c 1) → ∃ t, exec i s = .next t ∧ Safety.StreamStarts b q f n false
        { idx := f.idx, remote := false, outbound := !gather, narrow := true, lc := gather && tab.lc, high := 0, low := 0
          rush := 0, rate := ((stCtl s f.cmd.w4).getD {}).rate, ringBase := 0, ringSize := 0
          todo := number ((joinRows ((List.range ix.size).map fun j =>
              { far := tab.rowNpa (ix.raw s j), near := den.base + j * tab.rowBytes, bytes := tab.rowBytes
                nb := tab.rowBytes })).flatMap fun r => cutRun 512 4096 1 1 (r.bytes / 8 + 2) r)
          sent := [] } (countReads s ix.runs) t) ∧
      ((∃ j, j < ix.size ∧ tab.c 1 ≤ ix.raw s j) → ∃ t, exec i s = .next t ∧ Safety.Finished b q f .bounds t ∧
        (t.blk b).flags = (s.blk b).flags ∧ Safety.EngineOnly b q [] s t)
    (nextStart s b .IQ = some f → f.cmd.opcode = 0x41 → rows (.gather b) .IQ 14 true) ∧
    (nextStart s b .OQ = some f → f.cmd.opcode = 0x51 → rows (.scatter b) .OQ 15 false) ∧
    (nextStart s b .IQ = some f → f.cmd.opcode = 0x42 →
      let l := opnd! s f 1
      let m := opnd! s f 2
      let n := m.fmt.bits / 8
      let entry := fun i => rdN s (l.rowAt [i]) 16
      ∃ t, exec (.delta b) s = .next t ∧ Safety.StreamStarts b .IQ f 14 false
        { idx := f.idx, remote := false, outbound := false, narrow := false, lc := l.lc, high := 0, low := 0, rush := 0
          rate := 0, ringBase := 0, ringSize := 0
          todo := number ((List.range (l.c 1)).map fun i =>
            { far := l.rowAt [i] + 8
              near := m.rowAt (le (entry i) 4 1 :: batchIx m.counts (le (entry i) 0 3)) + le (entry i) 5 1 * n
              bytes := n, nb := n, elem := i })
          sent := [] } (countReads s l.runs) t)

/-- With no line in error and no granule awaiting its copy, the row of a PANOP that has issued with an operation ADD to
CAS or FADD, or of a REDINTO into an integer or float target, answers a next state in which the command stands
finished with OK: the target's elements are taken in row-major order; the element at each is read, the operation of
R193 or R194 on it and its operand (for CAS a compare value and a new value) is written back, and a float
operation's flags join PAN_FLAGS of the element's stack; where W3 names a tensor the old values stand there (R195,
R200). No byte outside the target and W3's tensor, no other queue, block or stack field changes. -/
def Obligations.PanElementOperationsComplete : Prop :=
  ∀ (s : State) (b : Blk) (f : InFl), Safety.Clean s → nextStart s b .OQ = some f → f.done = none →
    f.cmd.opcode = 0x57 →
    let op := panCode f.cmd
    let d := opnd! s f 1
    let x := opnd! s f 2
    let n := d.fmt.bytes
    let x1 := fun e => if op = 0x08 then (x.raws s).getD (2 * e) 0 else (x.raws s).getD e 0
    let x2 := fun e => if op = 0x08 then (x.raws s).getD (2 * e + 1) 0 else 0
    let one := fun (u : State × List Nat) e =>
      let old := rdW u.1 (d.elemNpa e) n
      let v := panElem op d.fmt d.ncw.mode old (x1 e) (x2 e)
      let w := wrW u.1 (d.elemNpa e) n v.1
      (if d.fmt.isFloat then setPanFlags w (stackOf u.1 (d.elemNpa e)) v.2 else w, u.2 ++ [old])
    let all := (List.range d.size).foldl one (s, [])
    let ends := fun (i : Instr) => ∃ t, exec i s = .next t ∧ Safety.Finished b .OQ f .ok t ∧
      t.mem = (match opnd s f 3 with
        | some r => (wrT all.1 r fun e => all.2[e]?).1
        | none => all.1).mem ∧
      (∀ k, (t.stack k).flags = (all.1.stack k).flags) ∧ t.brine = s.brine ∧
      Safety.PanOnly b .OQ ((List.range d.size).map (fun e => ⟨d.elemNpa e, n⟩) ++
        ((opnd s f 3).map Desc.runs).getD []) s t
    (panAtomic op = true → ends (.panop b)) ∧
    (op = 0x30 → d.fmt.isBrine = false → ends (.redinto b))

/-- With no line in error and no granule awaiting its copy, the row of a brine PANOP that has issued finishes with OK.
BOPEN has at its issue entered its target in the brine array table in place of an entry of the same extent and
zeroed its elements (R197), and finishing changes nothing more. BADD, and REDINTO into a brine target, which lies
within an entry, add to each element its operand, an addend of a number format or a brine (R80, R198, R200). BCRYST
writes each element of the registered array of its brine source's extent, crystallised under the entry's anchors and
the target's format and rounding, with the flags to the stack of the brine element (R199, log 60). BCLOSE takes the
entry of its extent out of the table and leaves memory as it is. A target or a source with a count of 0 changes
nothing (R8). Nothing else changes. -/
def Obligations.BrineCommandsComplete : Prop :=
  ∀ (s : State) (b : Blk) (f : InFl), Safety.Clean s → nextStart s b .OQ = some f → f.done = none →
    f.cmd.opcode = 0x57 →
    let op := panCode f.cmd
    let d := opnd! s f 1
    let x := opnd! s f 2
    let idle := fun (i : Instr) => ∃ t, exec i s = .next t ∧ Safety.Finished b .OQ f .ok t ∧ t.mem = s.mem ∧
      t.stk = s.stk ∧ t.brine = s.brine ∧ Safety.PanOnly b .OQ [] s t
    let adds := fun (i : Instr) => (d.empty = true → idle i) ∧ ∀ e, entHolding s d = some e →
      let n := e.fmt.bytes
      let one := fun (u : State) k =>
        let old := e.fmt.unpackBrine (rdW u (d.elemNpa k) n)
        let a := e.anchorOfElem u ((e.index (d.elemNpa k)).getD 0)
        let y := (x.raws s).getD k 0
        wrW u (d.elemNpa k) n (e.fmt.packBrine
          (if x.fmt.isBrine then Brine.add old (e.fmt.unpackBrine y) else Brine.addVal e.fmt a old (x.fmt.decode y)))
      ∃ t, exec i s = .next t ∧ Safety.Finished b .OQ f .ok t ∧ t.mem = ((List.range d.size).foldl one s).mem ∧
        t.stk = s.stk ∧ t.brine = s.brine ∧
        Safety.PanOnly b .OQ ((List.range d.size).map fun k => ⟨d.elemNpa k, n⟩) s t
    (∀ g : InFl, panCode g.cmd = 0x20 → let a := opnd! s g 1
      (a.empty = true → panAtIssue s g = (s, g)) ∧
      (a.empty = false → (panAtIssue s g).1.brine = (s.brine.filter fun e => !e.same a) ++ [entFor s a none] ∧
        (panAtIssue s g).1.mem = (a.runs.foldl (fun u r => wrN u r.npa (List.replicate r.len 0))
          { s with brine := (panAtIssue s g).1.brine }).mem ∧
        (panAtIssue s g).2 = g)) ∧
    (op = 0x20 → f.failed = none → idle (.bopen b)) ∧
    (op = 0x21 → adds (.badd b)) ∧
    (op = 0x30 → d.fmt.isBrine = true → adds (.redinto b)) ∧
    (op = 0x22 → x.empty = true → idle (.bcryst b)) ∧
    (op = 0x22 → x.empty = false → ∀ e, entOf s x = some e →
      let y := e.desc
      let res := fun i =>
        crystallise d.fmt d.ncw.mode (drawOf s d.ncw i)
          (y.fmt.brineVal (e.anchorOfElem s i) (y.fmt.unpackBrine (y.raw s i))) (y.fmt.unpackBrine (y.raw s i)).fl
          (Val.two 0) .zero
      ∃ t, exec (.bcryst b) s = .next t ∧ Safety.Finished b .OQ f .ok t ∧
        t.mem = (wrT s d fun i => if i < y.size then some (res i).1 else none).1.mem ∧
        (∀ k, (t.stack k).flags =
          (((List.range y.size).foldl (fun u i => setPanFlags u (stackOf s (y.elemNpa i)) (res i).2) s).stack k).flags) ∧
        t.brine = s.brine ∧ Safety.PanOnly b .OQ d.runs s t) ∧
    (op = 0x23 → ∃ t, exec (.bclose b) s = .next t ∧ Safety.Finished b .OQ f .ok t ∧ t.mem = s.mem ∧
      t.brine = (s.brine.filter fun e => d.empty || !e.same d) ∧ t.stk = s.stk ∧ Safety.PanOnly b .OQ [] s t)

/-- With no line in error and no granule awaiting its copy, the row of a COPY that has issued, its target not empty,
finishes with OK on memory in which each row of the target has taken, in order, the bytes of the source's row
(R201); an empty COPY finishes and changes nothing. DIGEST finishes with OK on memory in which its target holds
SHAKE256 of the source's bytes in row-major order (R202). No byte outside the target, no flag, no other queue or
block changes. -/
def Obligations.CopyAndDigestComplete : Prop :=
  ∀ (s : State) (b : Blk) (f : InFl), Safety.Clean s → nextStart s b .OQ = some f → f.done = none →
    f.cmd.opcode = 0x57 →
    let d := opnd! s f 1
    let x := opnd! s f 2
    (panCode f.cmd = 0x40 → ∃ t, exec (.copy b) s = .next t ∧ Safety.Finished b .OQ f .ok t ∧
      t.mem = (if d.empty then s else (List.range d.rows).foldl (fun u r =>
        wrN u (d.rowNpa r) (rdN u (x.rowNpa r) d.rowBytes)) s).mem ∧
      t.stk = s.stk ∧ t.brine = s.brine ∧ Safety.PanOnly b .OQ d.runs s t) ∧
    (panCode f.cmd = 0x41 →
      let bs := shake256 (x.runs.flatMap fun r => rdN s r.npa r.len)
      ∃ t, exec (.digest b) s = .next t ∧ Safety.Finished b .OQ f .ok t ∧
        t.mem = (wrT s d fun e => (bs[e]?).map BitVec.toNat).1.mem ∧
        t.stk = s.stk ∧ t.brine = s.brine ∧ Safety.PanOnly b .OQ d.runs s t)

/-- With no line in error, the row of a RATOM that has issued answers a next state. With an empty target the command
finishes with OK. Else one ATOMIC frame for each run of target elements that fits a frame (R49, R244) joins the end
of those that wait for a slot, with the runs' operand bytes, the hedge's epoch and the request for old values where
W3 names a tensor (log 57), and the command is taken up and waits for that many responses. Nothing else changes but
the count of lines decoded. -/
def Obligations.RatomSendsItsRequests : Prop :=
  ∀ (s : State) (b : Blk) (f : InFl), s.lineFault = [] → nextStart s b .OQ = some f → f.done = none →
    f.cmd.opcode = 0x53 →
    let d := opnd! s f 1
    let reqs := if d.empty then [] else ratomReqs s f ((opnd! s f 2).raws s)
    let frame := fun (r : SReq) => mkFrame s
      { opcode := oAtomic, dst := r.node, hedge := remoteHedge s d, offset := r.far, subop := fld f.cmd.w4 0 8
        fmt := fmtCode s f.cmd.w1, rnd := d.ncw.rnd, last := r.last, olds := (refIdx f.cmd.w3).isSome, data := r.data
        opArg := epochArg s (remoteHedge s d) }
    ∃ t, exec (.ratom b) s = .next t ∧
      (reqs = [] → Safety.Finished b .OQ f .ok t ∧ t.fab = s.fab) ∧
      (reqs ≠ [] → (∃ g, g ∈ (t.q b .OQ).inflight ∧ g.idx = f.idx ∧ g.cmd = f.cmd ∧ g.started = true ∧ g.done = none ∧
          g.waiting = reqs.length) ∧
        t.fab = { s.fab with ready := s.fab.ready ++ reqs.map fun r =>
          { frame := frame r, org := .cmd b .OQ f.idx r.no, pri := 6 } }) ∧
      (∀ r, r ≠ .OQ → t.q b r = s.q b r) ∧ (∀ a, a ≠ b → t.blk a = s.blk a) ∧
      (∀ n, t.ctx b n = s.ctx b n) ∧ t = { s with blocks := t.blocks, fab := t.fab, decoded := t.decoded }

/-- With no line in error and no granule awaiting its copy, the row of a COLL that has issued with the operation BCAST
on a hedge of ordinal 0 with no other COLL under way, its send tensor not empty, takes up context 15 and zeroes the
work area (R256). The root's receive buffer then holds the send tensor's elements, and what it has to send are the
transfers of that buffer to its children in tree A, in order (R251, Table 09.5); without children the command
finishes with OK, the context is IDLE and the hedge's ordinal has risen. Any other member waits, and has nothing to
send. No other queue, block or hedge changes. -/
def Obligations.BcastTakesUpItsTree : Prop :=
  ∀ (s : State) (b : Blk) (f : InFl) (k : Coll), Safety.Clean s → nextStart s b .OQ = some f → f.done = none →
    f.cmd.opcode = 0x56 → collOf s f = some k → b ∈ gradeBlocks s → collUnderWay s k.hedge.id = none →
    k.code = 1 → k.send.size ≠ 0 → f.phase = 0 → k.hedge.ordinal = 0 → k.hedge.landed = [] →
    let a : Active :=
      { idx := f.idx, remote := true, coll := true, hedge := k.hedge.id, outbound := true, narrow := false, high := 0
        low := 0, rush := 0, rate := 0, ringBase := 0, ringSize := 0, todo := [], sent := [] }
    let c := { s.ctx b 15 with state := .finishing, ring := false, oq := true, aged := false, losses := 0
                               label := BitVec.ofNat 10 f.cmd.label, active := some a }
    let z := zeroWork (updInFl (s.setCtx b 15 c) b .OQ f.idx fun x => { x with started := true }) k.hedge
    ∃ t, exec (.coll b) s = .next t ∧
      (parentA k.hedge.arity k.n k.root k.hedge.rank ≠ none → t.mem = z.mem ∧ t.ctx b 15 = c ∧
        Safety.Waiting b .OQ f t) ∧
      (parentA k.hedge.arity k.n k.root k.hedge.rank = none →
        let w := putRaws z k.recv 0 (k.send.raws z)
        let out := (childrenA k.hedge.arity k.n k.root k.hedge.rank).flatMap fun r => collRegion w k 100 r false
        t.mem = w.mem ∧
        (out ≠ [] → t.ctx b 15 = { c with state := .opened, active := some { a with
          nextNo := out.length, todo := out.zipIdx.map fun e => { e.1 with no := e.2 } } }) ∧
        (out = [] → Safety.Finished b .OQ f .ok t ∧ t.ctx b 15 = { c with state := .idle, active := none } ∧
          ((hedgeOf t k.hedge.id).map Hedge.ordinal) = some 1)) ∧
      (∀ n, n ≠ 15 → t.ctx b n = s.ctx b n) ∧ (∀ r, r ≠ .OQ → t.q b r = s.q b r) ∧ (∀ x, x ≠ b → t.blk x = s.blk x) ∧
      (∀ i, i ≠ k.hedge.id → hedgeOf t i = hedgeOf s i) ∧
      t = { s with blocks := t.blocks, mem := t.mem, host := t.host, lineFault := t.lineFault, harts := t.harts
                   brine := t.brine, decoded := t.decoded, job := { s.job with hedges := t.job.hedges } }

/-- With no line in error and no granule awaiting its copy, the row of the first command of CQ that has issued answers a
next state in which it stands finished with OK. SIGNAL to a context's PEER adds its value modulo 2^64, where that
does not take PEER above its clamp (R222, R408); SIGNAL elsewhere makes the little-endian 8-byte word there the sum
modulo 2^64 (R193). FLAGS stores BLK_FLAGS as 8 bytes, where it names a tensor, and clears the flags of its mask
(R92). READ stores a hedge's rank, size and epoch as three 8-byte values (R252). No other byte, context, queue or
block changes. -/
def Obligations.SignalFlagsAndReadComplete : Prop :=
  ∀ (s : State) (b : Blk) (f : InFl), Safety.Clean s → nextStart s b .CQ = some f → f.done = none →
    let npa := fld f.cmd.w1 0 56
    (f.cmd.opcode = 0x60 → ∀ k n r, ctxReg s npa = some (k, n, r) →
      let c := { s.ctx k n with peer := (s.ctx k n).peer + f.cmd.w2 }
      (∀ a, c.active = some a → c.ring = true → c.peer.toNat ≤ peerClamp c a) →
      ∃ t, exec (.signal b) s = .next t ∧ Safety.Finished b .CQ f .ok t ∧ t.ctx k n = c ∧
        (∀ x m, x ≠ k ∨ m ≠ n → t.ctx x m = s.ctx x m) ∧ (∀ x q, x ≠ b ∨ q ≠ .CQ → t.q x q = s.q x q) ∧
        t.q b .CQ = { s.q b .CQ with inflight := (t.q b .CQ).inflight } ∧ t = { s with blocks := t.blocks }) ∧
    (f.cmd.opcode = 0x60 → ctxReg s npa = none →
      ∃ t, exec (.signal b) s = .next t ∧ Safety.Finished b .CQ f .ok t ∧
        t.mem = (wrW s npa 8 ((rdW s npa 8 + f.cmd.w2.toNat) % 2 ^ 64)).mem ∧ (t.blk b).flags = (s.blk b).flags ∧
        Safety.EngineOnly b .CQ [⟨npa, 8⟩] s t) ∧
    (f.cmd.opcode = 0x63 →
      let d := (opnd s f 1).filter fun d => !d.empty
      ∃ t, exec (.flags b) s = .next t ∧ Safety.Finished b .CQ f .ok t ∧
        t.mem = (match d with
          | some d => wrN s d.base (leBytes 8 (s.blk b).flags.toNat)
          | none => s).mem ∧
        (t.blk b).flags = (s.blk b).flags &&& ~~~(BitVec.ofNat 16 f.cmd.w2.toNat) ∧
        Safety.EngineOnly b .CQ (d.toList.map fun d => ⟨d.base, 8⟩) s t) ∧
    (f.cmd.opcode = 0x64 → hedgeOp f.cmd = 3 → waitingCmd s b 0x64 = none →
      ∀ h, hedgeOf s (fld f.cmd.w1 0 16) = some h →
      ∃ t, exec (.read b) s = .next t ∧ Safety.Finished b .CQ f .ok t ∧
        t.mem = (wrN s f.cmd.w2.toNat (leBytes 8 h.rank ++ leBytes 8 h.members.length ++ leBytes 8 h.epoch.toNat)).mem ∧
        (t.blk b).flags = (s.blk b).flags ∧ Safety.EngineOnly b .CQ [⟨f.cmd.w2.toNat, 24⟩] s t)

/-- With no line in error, the row of the first wait of CQ that has issued, or of one that waits already, answers a next
state in which it stands finished with OK where its condition holds, and else waits: WAITV's word, or OWN count,
meets its test; WAITT's hall time is reached, or for its strobe lies within the bound of R48; the hedge's epoch has
reached EPOCHWAIT's; no frame sent on the hedge is unacknowledged and no response awaited (QUIESCE). A WAITV whose
timeout hall time has reached reads no more: it finishes with TIMEOUT (R111, R252; which of the two comes first is
the model's reading, log 61). Nothing but that command, and the count of lines decoded, changes. -/
def Obligations.WaitsCompleteOrWait : Prop :=
  ∀ (s : State) (b : Blk) (f : InFl), s.lineFault = [] → f.done = none →
    let fresh := fun (op : Nat) => nextStart s b .CQ = some f ∧ f.cmd.opcode = op
    let again := fun (op : Nat) => waitingCmd s b op = some f
    let ends := fun (i : Instr) (p : Prop) => ∃ t, exec i s = .next t ∧ (p → Safety.Finished b .CQ f .ok t) ∧
      (¬p → Safety.Waiting b .CQ f t) ∧ Safety.OnlyInFlight b .CQ s t
    let word := match ctxReg s (fld f.cmd.w1 0 56) with
      | some (k, n, _) => (s.ctx k n).own.toNat
      | none => rdW s (fld f.cmd.w1 0 56) 8
    let test := match f.cmd.w3.toNat with
      | 0 => f.cmd.w2.toNat ≤ word
      | 1 => word = f.cmd.w2.toNat
      | _ => word ≠ f.cmd.w2.toNat
    let hedge := fld f.cmd.w1 0 16
    let late := f.cmd.w4 ≠ 0 ∧ f.cmd.w4.toNat ≤ s.tim.hall
    let expires := fun (i : Instr) => ∃ t, exec i s = .next t ∧ Safety.Finished b .CQ f .timeout t ∧
      Safety.OnlyInFlight b .CQ s t
    (fresh 0x61 → (¬late → ends (.waitv b) test) ∧ (late → expires (.waitv b))) ∧
    (again 0x61 → (¬late → ends (.waitvReread b) test) ∧
      (late → expires (.waitvReread b) ∧ expires (.waitvTimeout b))) ∧
    (fresh 0x62 → ends (.waitt b) (f.cmd.w1.toNat ≤ s.tim.hall)) ∧
    (again 0x62 → ends (.waittStrobe b) (f.cmd.w1.toNat ≤ s.tim.hall + eventBound s)) ∧
    (fresh 0x64 ∧ waitingCmd s b 0x64 = none ∨ again 0x64 →
      (hedgeOp f.cmd = 1 → ∀ h, hedgeOf s hedge = some h → ends (.epochwait b) (f.cmd.w2.toNat ≤ h.epoch.toNat)) ∧
      (hedgeOp f.cmd = 2 → ends (.quiesce b)
        ((∀ p ∈ s.fab.pairs, ∀ o ∈ p.2.unacked, o.frame.hdr.hedgeId.toNat ≠ hedge) ∧
         ∀ a ∈ s.fab.awaiting, a.hedge ≠ hedge)))

/-- In a running job past T_go with no hold, no cut under way, no state set and no twin, with every queue of every live
block empty of commands in flight and at STEP or END or without commands, and every event counter zero,
STEP_BOUNDARY answers a next state in which the step counter has risen by 1, every queue that stood at STEP runs,
every context's PEER, OWN and ISSUED are 0 (R223), every queue's CRC-64 and log are cleared (R264), and functions
that wait to return to the host have returned (R342). No other field of any queue, context or block, no byte of
memory and no other unit changes (R116). -/
def Obligations.StepBoundaryRaisesStep : Prop :=
  ∀ s : State, s.job.phase = .running → s.job.started = true → s.ckpt.cutting = false → s.job.risen = false →
    (∀ b ∈ liveBlocks s, ∀ q, (s.q b q).inflight = [] ∧
      ((s.q b q).state = .step ∨ (s.q b q).state = .endd ∨ (s.q b q).stream = [])) →
    (∀ e ∈ s.blocks, ∀ c ∈ e.2.ev, c.2 = 0) → stateSet s = none → twin s = none → s.hold.state = .run →
    ∃ t, exec .stepBoundary s = .next t ∧ t.job.step = s.job.step + 1 ∧
      (∀ b q, t.q b q = { s.q b q with
        state := if (s.q b q).state = .step then .run else (s.q b q).state, crc := 0, crcLog := [] }) ∧
      (∀ b n, t.ctx b n = { s.ctx b n with peer := 0, own := 0, issued := 0 }) ∧
      (∀ b, t.blk b = { s.blk b with queues := (t.blk b).queues, ctxs := (t.blk b).ctxs }) ∧
      t.job = { s.job with step := t.job.step, risen := false, sigs := [], sigLast := false, sigAt := none } ∧
      t.host = { s.host with fallback := s.host.fallback &&& ~~~s.host.returning, returning := 0 } ∧
      t = { s with job := t.job, host := t.host, blocks := t.blocks }

/-- CUT_LEVEL_RAISE, with every direct peer at the cut's step and this level or past it, raises the level; at the cut
depth the cut falls: where R308 allows the copy the checkpoint's number, step and generation are taken and the
granules of the state set are pending on every stack, and else the checkpoint is counted as skipped; without a hold
the queues at STEP run (R306, R308). GRANULE_COPY, with no line in error, copies the lines of the first pending
granule into own[g] and marks it done (R309). MANIFEST_SIGN writes the signed manifest and starts the mirror, of no
frame where the node has no buddy (R314, R315). MIRROR_ACKNOWLEDGED, with no frame of the oldest mirror outstanding,
secures that checkpoint and raises cause 6. -/
def Obligations.CutAndCheckpointAdvance : Prop :=
  ∀ s : State,
    (s.ckpt.cutting = true → s.ckpt.level < s.ckpt.depth →
      (∀ p ∈ directPeers s, s.ckpt.cutStep < (s.pair p).peerStep ∨
        (s.pair p).peerStep = s.ckpt.cutStep ∧ s.ckpt.level ≤ (s.pair p).peerLevel) →
      ∃ t, exec .cutLevelRaise s = .next t ∧ t.ckpt.level = s.ckpt.level + 1 ∧
        (s.ckpt.level + 1 < s.ckpt.depth → t = { s with ckpt := { s.ckpt with level := s.ckpt.level + 1 } }) ∧
        (s.ckpt.level + 1 = s.ckpt.depth → t.ckpt.cutting = false ∧
          (copyMayStart s = false → t.ckpt.skipped = satAdd s.ckpt.skipped 1 ∧ t.mem = s.mem ∧ t.stk = s.stk) ∧
          (copyMayStart s = true → t.ckpt.n = s.ckpt.cutN ∧ t.ckpt.step = s.ckpt.cutStep ∧
            t.ckpt.gen = (s.ckpt.cutN % 2 == 1) ∧
            ∀ i, i < 12 → (t.stack i).ckPending = setGranules s i ∧ (t.stack i).ckDone = []) ∧
          ∀ b q, t.q b q = if s.hold.state = .run ∧ (s.q b q).state = .step then { s.q b q with state := .run }
            else s.q b q)) ∧
    (∀ (k : BitVec 4) (g : Nat) (l : List Nat), s.lineFault = [] → (s.stack k.toNat).ckPending = g :: l →
      s.ckpt.state = .copy → (l.filter (· != g)) ≠ [] →
      ∃ t, exec (.granuleCopy k) s = .next t ∧
        t.mem = (((packedLines s k.toNat).zipIdx.filter fun e => e.1 >>> 21 == g).foldl (fun u e => copyLine u
          (k.toNat <<< 36 + e.1)
          (quarterKey s k.toNat (bn s.ckpt.gen) (dataBase k.toNat + 64 * e.2))) s).mem ∧
        t.stack k.toNat = { s.stack k.toNat with
          ckPending := l.filter (· != g), ckDone := g :: (s.stack k.toNat).ckDone } ∧
        (∀ n, n ≠ k.toNat → t.stack n = s.stack n) ∧
        t = { s with mem := t.mem, stk := t.stk, decoded := t.decoded }) ∧
    (s.ckpt.state = .sign → 4 ∉ s.pwr.restarting → buddy s = none →
      ∃ t, exec .manifestSign s = .next t ∧
        t.mem = (wrQuarter s 0 (bn s.ckpt.gen) 0 (slice (manifestBytes s) 0 recordAt)).mem ∧
        t.ckpt = { s.ckpt with state := .mirror, doneN := max s.ckpt.doneN s.ckpt.n
                               mirrors := s.ckpt.mirrors ++ [(s.ckpt.n, 0)] } ∧
        t = { s with mem := t.mem, lineFault := t.lineFault, harts := t.harts, ckpt := t.ckpt }) ∧
    (∀ n l, s.ckpt.mirrors = (n, 0) :: l → ∃ t, exec .mirrorAcknowledged s = .next t ∧
      t.ckpt = { s.ckpt with
        mirrors := l, mirroredN := max s.ckpt.mirroredN n
        mirroredStep := BitVec.ofNat 48 (n * ((stateSet s).map StateSet.k).getD 0)
        state := if n = s.ckpt.n ∧ s.ckpt.state = .mirror then .secured else s.ckpt.state } ∧
      t.host = (raise s 6).host ∧ t = { s with ckpt := t.ckpt, host := t.host })

/-- ARM arms what ESP_CTRL names where none of R54's causes 1 to 5 stands, tried in order (no service time; too early;
not whole periods of both plans; the active bank; a bank that is not valid; the order is the model's choice, log
64), and else records the cause as the refusal; nothing else changes. CANCEL disarms. Each sets its bit of ESP_CTRL
(log 51). PLAN_ACTIVATION, once the armed epoch slot has come, makes the bank active from that slot on, its period
count 0 and nothing armed; it and PLAN_PERIOD_BOUNDARY, when a period of the active plan has ended, count every
pair's violations anew, end quarantines, and let a sender held by one retry (R45, R54, R55, R68, R69). Measurement 6
is taken at an activation (R359), and a trace point passed where a trace is on (R352, log 73). -/
def Obligations.EspalierRowsComplete : Prop :=
  ∀ s : State,
    (let f := s.fab
     let slot := f.epochSlot.toNat
     let bank := if f.ctrlBank then f.bank1 else f.bank0
     let cause : Nat :=
        if s.tim.state ≠ .locked ∧ s.tim.state ≠ .holdover then 1
        else if slot < s.tim.hall / 64 + 15625 then 2
        else if (∃ p, bank.plan = some p ∧ slot % 2 ^ p.k ≠ 0) ∨ ((activePlan s).isSome ∧ slot % 2 ^ f.k.toNat ≠ 0) then 3
        else if (activePlan s).isSome ∧ f.ctrlBank = f.activeBank then 4
        else if bank.valid = false then 5 else 0
     exec .arm s = .next { s with fab :=
        if cause = 0 then { f with ctrlArm := true, armed := some (f.ctrlBank, slot)
                                   espState := if f.espState = .none then .armed else f.espState }
        else { f with refusal := BitVec.ofNat 4 cause } }) ∧
    exec .cancel s = .next { s with fab := { s.fab with
      ctrlCancel := true, armed := none, espState := if s.fab.espState = .armed then .none else s.fab.espState } } ∧
    (∀ b slot, s.fab.armed = some (b, slot) → slot ≤ s.tim.hall / 64 →
      ¬(s.tim.service = false ∧ s.tim.state = .locked) →
      ∃ t, exec .planActivation s = .next t ∧
        t.fab = { s.fab with
          activeBank := b, espState := if s.tim.service then .running else .suspended
          k := BitVec.ofNat 5 (((if b then s.fab.bank1 else s.fab.bank0).plan.map Plan.k).getD 0), periods := 0
          since := slot, armed := none, stopping := false, binLeft := [], pairs := t.fab.pairs } ∧
        (∀ n, t.pair n = { s.pair n with viol := [], quarantined := false, prev69 := (s.pair n).held69, held69 := false }) ∧
        t.sec = { s.sec with meas := t.sec.meas } ∧ t.sec.meas.get [] 6 = planDigest t ∧
        t.host = (traceHw s 1).host ∧ t = { s with fab := t.fab, sec := t.sec, host := t.host, free := t.free }) ∧
    ((activePlan s).isSome = true → (s.tim.hall / 64 - s.fab.since) / 2 ^ s.fab.k.toNat % 2 ^ 32 ≠ s.fab.periods.toNat →
      ¬(s.tim.service = false ∧ s.tim.state = .locked) →
      ∃ t, exec .planPeriodBoundary s = .next t ∧
        t.fab = { s.fab with
          periods := BitVec.ofNat 32 ((s.tim.hall / 64 - s.fab.since) / 2 ^ s.fab.k.toNat), binLeft := []
          espState := if s.fab.stopping then (if s.fab.armed.isSome then .armed else .none) else s.fab.espState
          stopping := false, pairs := t.fab.pairs } ∧
        (∀ n, t.pair n = { s.pair n with viol := [], quarantined := false, prev69 := (s.pair n).held69, held69 := false }) ∧
        t = { s with fab := t.fab })

/-- On a node with no active plan, nothing armed, no pair state, no frame waiting, and neither a return to scheduled
service nor its end due, SLOT_BOUNDARY answers a next state in which hall time and the model's clock stand at the
next slot boundary, PPS_OUT has fallen if its pulse is over, the wire of the present slot is empty and the boundary
is taken. Nothing else changes (R52; the clock of hall slots is the model's, log 1). -/
def Obligations.SlotBoundaryMovesTime : Prop :=
  ∀ s : State, (s.fab.espState = .none ∨ s.fab.espState = .armed) → s.fab.armed = none → s.fab.pairs = [] →
    s.fab.ready = [] → s.tim.state ≠ .holdover → ¬(s.tim.service = false ∧ s.tim.state = .locked) →
    (s.tim.state = .locked → s.tim.errPs.natAbs ≤ 8000) →
    let next := (s.tim.hall / 64 + 1) * 64
    exec .slotBoundary s = .next { s with
      tim := { s.tim with hall := next, now := s.tim.now + (next - s.tim.hall) }
      pwr := { s.pwr with ppsOut := s.pwr.ppsOut && next < s.pwr.ppsFalls }
      fab := { s.fab with wire := [], nextSlot := s.tim.hall / 64 + 2 } }

/-- LOSS_DETECTED, with no frame of the pair at its eighth retransmission, marks every frame past which two return slots
have gone without an acknowledgement as lost, to be sent again (R60). PEER_SILENT, after eight expected slots in a
row in which nothing came, and SIGNATURE_TIMEOUT, 128 slots after the boundary at which the twin's signatures have
not all come, record PEER_SILENT, mark the pair, and in a running job without a hold take the node to HOLDING at its
next step boundary with the peer among the silent ones and cause 3 raised (R57, R257, R265, R289). -/
def Obligations.LossesAndSilenceAreNoted : Prop :=
  ∀ s : State,
    (∀ n : NodeId, (∀ o ∈ (s.pair n).unacked, o.tries < 8) → ∃ t, exec (.lossDetected n) s = .next t ∧
      t.pair n = { s.pair n with unacked := (s.pair n).unacked.map fun x =>
        if ((s.pair n).unacked.filter fun o => 2 ≤ o.quiet && !o.lost).any fun o => o.frame.hdr.seq == x.frame.hdr.seq
        then { x with lost := true, quiet := 0 } else x } ∧
      (∀ m, m ≠ n → t.pair m = s.pair m) ∧ t = { s with fab := { s.fab with pairs := t.fab.pairs } }) ∧
    (let holds := fun (i : Instr) (n : NodeId) =>
      s.job.phase = .running → s.hold.state = .run → ∃ t, exec i s = .next t ∧
        t.pair n = { s.pair n with silent := true } ∧ (∀ m, m ≠ n → t.pair m = s.pair m) ∧
        Safety.recorded t .peerSilent ∧ t.hold.state = .holding ∧ t.hold.atBoundary = true ∧
        n ∈ t.hold.silentPeers ∧ t.host.cause.toNat.testBit 3 = true ∧
        t = { s with fab := { s.fab with pairs := t.fab.pairs }, err := t.err, hold := t.hold, host := t.host, free := t.free }
     (∀ port n, 8 ≤ (s.pair n).empty → (s.pair n).silent = false → holds (.peerSilent port n) n) ∧
     (∀ slot n, s.job.sigAt = some slot → twin s = some n → slot + 128 ≤ s.tim.hall / 64 → s.job.sigLast = false →
        (s.pair n).silent = false → holds .signatureTimeout n))

/-- On a node that takes a frame (all orders of Table 09.3 passed), with no line in error and no granule awaiting its
copy, the next frame of a pair answers a next state in which its number is consumed and: a PUT's or MCAST's bytes
stand in the window, and with its last frame an exchange buffer's arrival counter has risen (R244, R246); a
GET_REQ's or ATOMIC's response waits for its slot, the elements updated (R193, R244); a REDUCE's operands of the
target's integer format are added (R200); a clear token is noted (R256); a SIGNATURE's values are noted (R265); a
BULK frame's sub-records for other nodes go on (R63). A FILLER tells the peer's step and cut level (R305). Nothing
else changes but the notes of what slot was heard (R57), of the association's packet number (R64) and of the lines
decoded. -/
def Obligations.FramesTakeEffectInOrder : Prop :=
  ∀ (s : State) (f : Frame), Safety.Clean s → Safety.Arrives s f →
    let h := f.hdr
    let bs := f.data.take h.length.toNat
    let a := ((hedgeOf s h.hedgeId.toNat).map Hedge.winBase).getD 0 + h.offset.toNat
    let fmt := Fmt.ofCode h.fmt.toNat
    let n := fmt.bytes
    let mode := Rnd.ofCode h.rnd.toNat
    let frame := fun (t : State) => ∃ heard, t.fab = { s.fab with
        pairs := t.fab.pairs, heard := heard, ready := t.fab.ready, ports := (notePn s f).fab.ports } ∧
      (∀ m, m ≠ h.src → t.pair m = s.pair m)
    let takes := fun (i : Instr) (mem : State) (ready : List OutFrame) (job : Job) => ∃ t, exec i s = .next t ∧
      t.pair h.src = { s.pair h.src with rxNext := h.seq + 1, empty := 0 } ∧ t.mem = mem.mem ∧
      t.fab.ready = s.fab.ready ++ ready ∧ t.job = job ∧ frame t ∧ t = { s with
        mem := t.mem, host := t.host, lineFault := t.lineFault, harts := t.harts, stk := t.stk, fab := t.fab, job := t.job
        decoded := t.decoded }
    let answer := fun (op : Byte) (f : Nat) (data : List Byte) =>
      let x : FrameArgs := { opcode := op, dst := h.src, hedge := h.hedgeId.toNat, offset := h.seq.toNat, subop := 0
                             last := h.last, fmt := f, data := data, opArg := epochArg s h.hedgeId.toNat }
      [({ frame := mkFrame s x, org := .nobody, pri := respPri s h.src } : OutFrame)]
    let landed := if h.last then
        match ((s.job.image.map Image.bufs).getD []).find? fun b =>
          b.kind == 0 && b.access.testBit 2 && b.base ≤ a && a < b.base + b.size with
        | some b => wrW (wrN s a bs) b.arrival 8 ((rdW (wrN s a bs) b.arrival 8 + 1) % 2 ^ 64)
        | none => wrN s a bs
      else wrN s a bs
    let elems := fun (op cnt per : Nat) => (List.range cnt).foldl (fun (u : State × List Byte) i =>
      let old := rdW u.1 (a + n * i) n
      (wrW u.1 (a + n * i) n (panElem op fmt mode old (le bs (n * per * i) n) (le bs (n * per * i + n) n)).1,
        u.2 ++ leBytes n old)) (s, [])
    (h.type = tFiller → h.opcode = 0 → ∃ t, exec (.filler f) s = .next t ∧
      t.pair h.src = { s.pair h.src with
        peerStep := h.offset.setWidth 48, peerLevel := h.offset.toNat / 2 ^ 48 % 16, empty := 0 } ∧
      t.fab.ready = s.fab.ready ∧ frame t ∧ t = { s with fab := t.fab }) ∧
    (Safety.InOrder s f → h.type = tSignature → h.opcode = 0 → jobChecks s f = none → takes (.signature f) s []
      { s.job with sigs := s.job.sigs ++ (List.range (bs.length / 8)).map fun i =>
          (h.offset.toNat + i, BitVec.ofNat 64 (le bs (8 * i) 8))
                   sigLast := s.job.sigLast || h.last }) ∧
    (Safety.InOrder s f → h.type = tBulk → h.opcode = 0 → linesOk f = true → ∀ subs, padLines (subs.flatMap subRecord) = f.data →
      let l := subsOf f (f.data.length / 48) f.data
      (∀ g ∈ l, malformed s g = false ∧ g.hdr.dst ≠ nodeId s) →
      takes (.bulk f subs) s (l.map fun g => { frame := g }) s.job) ∧
    (Safety.InOrder s f → h.type = tData → jobChecks s f = none →
      (h.opcode = oPut → isCtrl h = false → takes (.putFrame f) landed [] s.job) ∧
      (h.opcode = oMcast → isCtrl h = false → takes (.mcastFrame f) landed [] s.job) ∧
      (h.opcode = oGetReq → isCtrl h = false →
        takes (.getReq f) s (answer oGetResp 0 (rdN s a h.length.toNat)) s.job) ∧
      (h.opcode = oAtomic → ∀ op, op = h.subop.toNat → panAtomic op = true → op ≠ 0x10 →
        panTarget op fmt = true →
        let per := if op = 0x08 then 2 else 1
        let w := elems op (bs.length / (n * per)) per
        takes (.atomic f) w.1 (answer oAtomicResp h.fmt.toNat (if f.olds then w.2 else [])) s.job) ∧
      (h.opcode = oReduce → f.addend = h.fmt → fmt.isInt = true → panTarget 0x30 fmt = true →
        (∀ g, hedgeOf s h.hedgeId.toNat = some g → inWork g h.offset.toNat = false) →
        takes (.reduce f) (elems 0x30 (bs.length / n) 1).1 [] s.job) ∧
      (h.opcode = oColl → h.length = 0 → takes (.collFrame f) s [] { s.job with hedges := s.job.hedges.map fun g =>
        if g.id = h.hedgeId.toNat then { g with clears := g.clears ++ [(h.src, h.subop.toNat)] } else g }))

/-- A GET_RESP of status OK that is the next of its pair and answers a request that a GET awaits, with no line in error
and no granule awaiting its copy, writes the request's bytes at its place in the local target and OWN counts them;
with the last request of the stream the GET finishes with OK and its context is IDLE (R222, R244). An ATOMIC_RESP so
for a RATOM writes the old values where W3 names a tensor; with the last response the RATOM finishes (R244). The
response is no longer awaited, its number is consumed, and no other context, queue or block changes. -/
def Obligations.ResponsesReachTheirRequests : Prop :=
  ∀ (s : State) (f : Frame) (b : Blk) (idx no : Nat) (hedge : Nat) (l : List Await) (g : InFl),
    Safety.Clean s → Safety.Arrives s f → Safety.InOrder s f → f.hdr.type = tData → jobChecks s f = none →
    f.hdr.subop = 0 →
    let h := f.hdr
    let bs := f.data.take h.length.toNat
    let back := fun (t : State) => t.pair h.src = { s.pair h.src with rxNext := h.seq + 1, empty := 0 } ∧
      t.fab.awaiting = l ∧
      (∀ m, m ≠ h.src → t.pair m = s.pair m) ∧ (∀ a, a ≠ b → t.blk a = s.blk a) ∧
      t = { s with mem := t.mem, host := t.host, lineFault := t.lineFault, harts := t.harts, blocks := t.blocks
                   decoded := t.decoded
                   fab := { s.fab with
                     pairs := t.fab.pairs, heard := t.fab.heard, awaiting := t.fab.awaiting
                     ports := (notePn s f).fab.ports } }
    (h.opcode = oGetResp → s.fab.awaiting = ⟨h.src, h.offset.setWidth 32, .cmd b .IQ idx no, hedge⟩ :: l →
      orgCmd s b .IQ idx = some g → ∀ n a r, orgCtx s b g = some n → (s.ctx b n).active = some a → (s.ctx b n).ring = false →
      (s.ctx b n).oq = false → a.coll = false → a.fail = none → a.sent.find? (fun r => r.no == no) = some r →
      ∃ t, exec (.getResp f) s = .next t ∧ t.mem = (wrN s r.near (bs.take r.nb)).mem ∧
        (t.ctx b n).own = (s.ctx b n).own + BitVec.ofNat 64 r.nb ∧
        ((a.todo = [] ∧ a.sent.filter (fun r => r.no != no) = []) → Safety.Finished b .IQ g .ok t ∧
          (t.ctx b n).state = .idle ∧ (t.ctx b n).active = none) ∧
        (¬(a.todo = [] ∧ a.sent.filter (fun r => r.no != no) = []) →
          (t.ctx b n).active = some { a with sent := a.sent.filter fun r => r.no != no }) ∧
        (∀ m, m ≠ n → t.ctx b m = s.ctx b m) ∧ (∀ q, q ≠ .IQ → t.q b q = s.q b q) ∧ back t) ∧
    (h.opcode = oAtomicResp → s.fab.awaiting = ⟨h.src, h.offset.setWidth 32, .cmd b .OQ idx no, hedge⟩ :: l →
      orgCmd s b .OQ idx = some g → g.failed = none → 1 ≤ g.waiting →
      ∃ t, exec (.atomicResp f) s = .next t ∧
        t.mem = (match opnd s g 3 with
          | some d => (List.range (bs.length / d.fmt.bytes)).foldl (fun u i =>
              wrN u (d.elemNpa (no + i)) (slice bs (d.fmt.bytes * i) d.fmt.bytes)) s
          | none => s).mem ∧
        (g.waiting = 1 → Safety.Finished b .OQ g .ok t) ∧
        (1 < g.waiting → ∃ x, x ∈ (t.q b .OQ).inflight ∧ x.idx = g.idx ∧ x.cmd = g.cmd ∧ x.done = none ∧
          x.waiting = g.waiting - 1) ∧
        (∀ m, t.ctx b m = s.ctx b m) ∧ (∀ q, q ≠ .OQ → t.q b q = s.q b q) ∧ back t)

/-- HOLDOVER takes a LOCKED follower to HOLDOVER where no Sync came for 8 intervals of 2^-7 s and time_err is within 8
ns. LOCKED takes a follower to LOCKED where time_err has been within 2 ns for 1 s; where service was never lost and
no plan runs, scheduled service begins at once and every port that is up shows it (R43, R45; log 35). TIME_TAKEOVER
takes the standby unit into use, with a phase step of at most 0.5 ns, and is recorded (log 3). In the REFERENCE role
PPS_IN sets hall time to the second given and leaves no error; PPS_SECOND gives that second, and in another role
answers STATE. PPS_OUT raises the contact at a whole second while LOCKED or in HOLDOVER (R396). A read of TIM_NOW_NS
answers hall time, the lag that R40 allows taken as 0 (log 3), and latches its fraction. A change of the unit's
state passes a trace point where a trace is on (R352, log 73). -/
def Obligations.TimeUnitChangesState : Prop :=
  ∀ s : State,
    (s.tim.state = .locked → s.ncr.timeRole ≠ .reference → s.tim.lastSync + 62_500_000 ≤ s.tim.now →
      s.tim.errPs.natAbs ≤ 8000 → exec .holdover s = .next (traceHw { s with tim := { s.tim with
        state := .holdover, holdFrom := some (s.tim.hall, s.tim.errPs), goodSince := none } } 0)) ∧
    (∀ g, s.tim.state ≠ .locked → s.ncr.timeRole ≠ .reference → s.tim.master.isSome = true → s.tim.goodSince = some g →
      g + 1_000_000_000 ≤ s.tim.now → s.tim.errPs.natAbs ≤ 2000 →
      ∃ t, exec .locked s = .next t ∧
        t.tim = { s.tim with state := .locked, lockedSince := some s.tim.now, holdFrom := none, service := t.tim.service } ∧
        t.host = (traceHw s 0).host ∧
        (s.tim.lost = true → t = { s with tim := { t.tim with service := s.tim.service }, host := t.host, free := t.free }) ∧
        (s.tim.lost = false → s.tim.service = false → activePlan s = none → s.ncr.udpPort ≠ 0 →
          t.tim.service = true ∧
          (∀ p, p < 8 → t.port p = { s.port p with scheduled := (s.port p).link == .up }) ∧
          t = { s with tim := t.tim, fab := { s.fab with espState := t.fab.espState, ports := t.fab.ports }
                       pwr := t.pwr, sec := t.sec, host := t.host, free := t.free })) ∧
    (s.tim.unit = false → s.err.coal = [] → ∃ t, exec .timeTakeover s = .next t ∧ t.tim.unit = true ∧
      (t.tim.errPs - s.tim.errPs).natAbs ≤ 500 ∧ t.tim = { s.tim with unit := true, errPs := t.tim.errPs } ∧
      Safety.recorded t .timeTakeover ∧ t = { s with tim := t.tim, err := t.err, hold := t.hold, free := t.free }) ∧
    (∀ x, s.ncr.timeRole = .reference → s.tim.ppsSecond = some x → ∃ t, exec .ppsIn s = .next t ∧
      t.tim.hall = x * 1_000_000_000 % 2 ^ 64 ∧ t.tim.errPs = 0 ∧ t.tim.ppsSecond = some (x + 1) ∧
      t.tim.state = (if s.tim.state = .free then .acquiring else s.tim.state) ∧
      t.fab = { s.fab with nextSlot := t.tim.hall / 64 + 1 } ∧
      t.host = (if s.tim.state = .free then traceHw s 0 else s).host ∧
      t = { s with tim := t.tim, fab := t.fab, host := t.host, free := t.free }) ∧
    ((s.tim.state = .locked ∨ s.tim.state = .holdover) → s.tim.hall % 1_000_000_000 = 0 →
      exec .ppsOut s = .next { s with pwr := { s.pwr with ppsOut := true, ppsFalls := s.tim.hall + 100_000_000 } }) ∧
    (∀ x, Safety.Mailbox s → s.ncr.timeRole = .reference → exec (.ppsSecond x) s = .next (raise { s with
      tim := { s.tim with ppsSecond := some x.toNat }, host := { s.host with mbx := ⟨.success, .ok, 0, []⟩ } } 7)) ∧
    (∀ x, Safety.Mailbox s → s.ncr.timeRole ≠ .reference → ∃ t, exec (.ppsSecond x) s = .next t ∧
      t.host.mbx = ⟨.success, .state, 0, []⟩ ∧ t.tim = s.tim) ∧
    exec .timNowNs s = .next { s with
      tim := { s.tim with fracLatch := s.tim.frac }
      host := { s.host with answer := leBytes 8 s.tim.hall, poison := false } }

/-- A PTP message outside the profile of Table 02.3 is discarded and counted at its port (R42). One that R47 discards is
counted in ptp_bad and has no other effect, but that a third bad Sync in a row of the selected master excludes it
for 60 s. A valid Sync of the selected master gives a unit in service its new time_err. An Announce is noted and the
node selects its master anew (log 35), as it does when the selected master has announced nothing for 3 intervals of
2^-3 s (it is then no longer heard), and when an exclusion ends. ESMC notes a port's quality level and the SyncE
port is chosen anew; so it is at PORT_UP of a port that the NCR enables and at PORT_DOWN, which is recorded; both
show the port's service (R42, R43). -/
def Obligations.MastersAndPortsComeAndGo : Prop :=
  ∀ s : State,
    (∀ m, ptpUnlisted m = true → exec (.ptpMessage m) s = .next
      (if m.port.toNat < 8 then s.setPort m.port.toNat
        { s.port m.port.toNat with otherDrops := (s.port m.port.toNat).otherDrops + 1 } else s)) ∧
    (∀ m, ptpUnlisted m = false → ptpBad s m = true →
      (m.isSync = true → s.tim.master = some m.master → s.tim.badSyncs < 2) →
      exec (.ptpMessage m) s = .next { s with tim := { s.tim with
        ptpBad := satAdd s.tim.ptpBad 1
        badSyncs := if m.isSync = true ∧ s.tim.master = some m.master then s.tim.badSyncs + 1 else s.tim.badSyncs } }) ∧
    (∀ m, ptpUnlisted m = false → ptpBad s m = true → m.isSync = true → s.tim.master = some m.master →
      2 ≤ s.tim.badSyncs →
      exec (.ptpMessage m) s = .next (selectMaster { s with tim := { s.tim with
        ptpBad := satAdd s.tim.ptpBad 1, badSyncs := 0
        excluded := s.tim.excluded ++ [(m.master.toNat, s.tim.now + 60_000_000_000)] } })) ∧
    (∀ m, ptpUnlisted m = false → ptpBad s m = false → s.ncr.timeRole ≠ .reference → m.isAnnounce = false → m.isSync = true →
      s.tim.master = some m.master → (s.tim.state = .locked ∨ s.tim.state = .holdover) →
      ∃ t, exec (.ptpMessage m) s = .next t ∧ t.tim = { s.tim with
          errPs := m.offsetPs, lastSync := s.tim.now, badSyncs := 0, goodSince := t.tim.goodSince
          holdFrom := s.tim.holdFrom.map fun _ => (s.tim.hall, m.offsetPs) } ∧
        (2000 < m.offsetPs.natAbs → t.tim.goodSince = none) ∧
        (m.offsetPs.natAbs ≤ 2000 → t.tim.goodSince = some (s.tim.goodSince.getD s.tim.now)) ∧ t = { s with tim := t.tim }) ∧
    (∀ m, ptpUnlisted m = false → ptpBad s m = false → s.ncr.timeRole ≠ .reference → m.isAnnounce = true → m.isSync = false →
      exec (.ptpMessage m) s = .next (selectMaster { s with tim := { s.tim with
        masters := (m.master.toNat, m.port.toNat) :: s.tim.masters.filter fun x => x.1 != m.master.toNat
        lastAnnounce := if s.tim.master = some m.master then s.tim.now else s.tim.lastAnnounce } })) ∧
    (∀ w : W64, s.tim.master = some w → s.tim.lastAnnounce + 375_000_000 ≤ s.tim.now →
      exec .announceReceiptTimeout s = .next (selectMaster { s with tim := { s.tim with
        masters := s.tim.masters.filter fun m => BitVec.ofNat 64 m.1 != w } })) ∧
    (∀ (w : W64) (x : Nat), (w.toNat, x) ∈ s.tim.excluded → x ≤ s.tim.now →
      exec (.bmcaExclusionEnd w) s = .next (selectMaster { s with tim := { s.tim with
        excluded := s.tim.excluded.filter fun x => !(x.1 == w.toNat && decide (x.2 ≤ s.tim.now)) } })) ∧
    (∀ (port : BitVec 4) (ql : BitVec 4), port.toNat < 8 → ∃ t, exec (.esmc port ql) s = .next t ∧
      t.port port.toNat = { s.port port.toNat with esmc := some ql } ∧ t.tim.syncePort = syncePort t ∧
      (∀ p, p ≠ port.toNat → t.port p = s.port p) ∧
      t = { s with tim := { s.tim with syncePort := t.tim.syncePort }, fab := { s.fab with ports := t.fab.ports } }) ∧
    (∀ port : BitVec 3, (s.ncr.ports.getD port.toNat {}).enabled = true → ∃ t, exec (.portUp port) s = .next t ∧
      (t.port port.toNat).link = .up ∧ t.tim.syncePort = syncePort t ∧
      (∀ p, p < 8 → t.port p = { s.port p with
        link := (t.port p).link
        scheduled := s.tim.service && (t.port p).link == .up && s.ncr.udpPort != 0 }) ∧
      (∀ p, p ≠ port.toNat → (t.port p).link = (s.port p).link) ∧
      t = { s with tim := { s.tim with syncePort := t.tim.syncePort }, fab := { s.fab with ports := t.fab.ports } }) ∧
    (∀ port : BitVec 3, (s.port port.toNat).link ≠ .down → s.err.coal = [] → ∃ t, exec (.portDown port) s = .next t ∧
      (t.port port.toNat).link = .down ∧ (t.port port.toNat).scheduled = false ∧ t.tim.syncePort = syncePort t ∧
      (∀ p, p ≠ port.toNat → (t.port p).link = (s.port p).link) ∧ Safety.recorded t .portDown ∧
      t = { s with tim := { s.tim with syncePort := t.tim.syncePort }, fab := { s.fab with ports := t.fab.ports }
                   err := t.err, hold := t.hold, free := t.free })

/-- LAUNCH on the launch root with an image loaded answers OK with the launch ID (log 9), holds the PREPARE and sends it
to its children in both trees (R259). PREPARE is held, forwarded to the children in its tree, and acknowledged at
once with STATE by a node that is not ready, with OK by a ready one without children; PREPARE_RESEND repeats it
every 20 us to the children that are silent (R260). PREPARE_ACK is noted; the last of a tree brings this node's own
to its parent, with the first status that is not OK and the members counted; at the root, once all have acknowledged
with OK, COMMIT goes to the children of both trees, and twice more 2 us apart (R261). COMMIT is forwarded and held;
the COMMIT of a lay takes the failed members out of every hedge that has one, and raises its epoch (R258). A node
takes these frames in scheduled service, on a line that has a receiving association, of a source without quarantine
(R64, R68). Without COMMIT the root reports at its deadline every subtree of either tree that is missing or refuses,
four nodes to a log entry (log 33), and at expiry the PREPARE is void and recorded (R261, R262). -/
def Obligations.LaunchIsPreparedAndCommitted : Prop :=
  ∀ s : State,
    let ctl := fun (dst : NodeId) (op : Byte) (subop arg off : Nat) (bs : List Byte) =>
      ({ frame := mkFrame s { type := tControl, opcode := op, dst := dst, subop := subop, opArg := arg, offset := off
                              last := true, data := bs }
         pri := 5 } : OutFrame)
    let prepares := fun (m : PrepMsg) (tree : Tree) (l : List NodeId) =>
      l.map fun n => ctl n oPrepare (treeBit tree) 0 0 (prepBytes m)
    let commits := fun (m : PrepMsg) => (kids s m .A ++ kids s m .B).map fun n =>
      ctl n oCommit 0 0 0 (leBytes 8 m.launchId.toNat)
    let sends := fun (i : Instr) (h : Held) (l : List OutFrame) => exec i s = .next { s with
      job := { s.job with prep := some h }, fab := { s.fab with ready := s.fab.ready ++ l } }
    (∀ (root : W32) (go dl ex : W64) (arity : Byte), Safety.Mailbox s → timesOk go dl ex arity = true →
      root.toNat = (nodeId s).toNat → (hostAssisted s 7 = true ∨ ∀ n, s.ncr.launchRoot = some n → n = nodeId s) →
      s.job.phase = .loaded → s.hold.state = .run → (∀ i, i < 12 → (s.stack i).state ≠ .failed) →
      2 ≤ (declared0 s).length →
      let id := Config.launchIdOf (nodeId s) s.job.launches
      let m : PrepMsg :=
        { launchId := id, tGo := go, commitDeadline := dl, expiry := ex, root := nodeId s, arity := arity, purpose := 0
          epoch := 0, digest := (s.job.image.map Image.digest).getD [] }
      ∃ t, exec (.launch root go dl ex arity) s = .next t ∧
        t.job = { s.job with launches := s.job.launches + 1, prep := some { msg := m, lastSend := s.tim.now } } ∧
        t.fab = { s.fab with ready := s.fab.ready ++ prepares m .A (kids s m .A) ++ prepares m .B (kids s m .B) } ∧
        t.host = (raise { s with host := { s.host with mbx := ⟨.success, .ok, 0, leBytes 8 id.toNat⟩ } } 7).host ∧
        t = { s with job := t.job, fab := t.fab, host := t.host }) ∧
    let heard := fun (src : NodeId) => mayDecrypt s (lineTo s src) = true ∧ (s.pair src).quarantined = false
    (takesCtl s = true →
      (∀ src tree p, heard src → s.job.prep = none →
        let now := launchReady s p = false ∨ kids s p tree = []
        sends (.prepare src tree p)
          { msg := p, lastSend := s.tim.now
            parentA := if tree = .A then some src else none, parentB := if tree = .B then some src else none
            ackedA := decide (now ∧ tree = .A), ackedB := decide (now ∧ tree = .B) }
          (prepares p tree (kids s p tree) ++ if now then [ctl src oPrepareAck (treeBit tree)
              (if launchReady s p then 0 else Status.state.code) 1 (leBytes 8 p.launchId.toNat)] else [])) ∧
      (∀ h, s.job.prep = some h →
        (h.lastSend + 20_000 ≤ s.tim.now → s.tim.hall ≤ h.msg.expiry.toNat → h.committed = false →
          sends .prepareResend { h with lastSend := s.tim.now } ([Tree.A, .B].flatMap fun tree =>
            if h.msg.root = nodeId s ∨ (h.parent tree).isSome = true
            then prepares h.msg tree ((kids s h.msg tree).filter fun n => (h.ackOf tree n).isNone) else [])) ∧
        (∀ src tree st n, heard src → src ∈ kids s h.msg tree →
          let x := { h with acks := (h.acks.filter fun a => !(a.1 == (treeBit tree == 0) && a.2.1 == src)) ++
                              [(treeBit tree == 0, src, st, n)] }
          let arrives := Instr.prepareAck src tree h.msg.launchId st n
          (h.msg.root ≠ nodeId s → ownAck s h = .ok → h.acked tree = false →
            (kidsAcked s x tree = false → sends arrives x []) ∧
            (∀ p, kidsAcked s x tree = true → h.parent tree = some p → sends arrives
              { x with ackedA := x.ackedA || tree == .A, ackedB := x.ackedB || tree == .B }
              [ctl p oPrepareAck (treeBit tree) (subtreeAck s x tree .ok).1.toNat (subtreeAck s x tree .ok).2
                (leBytes 8 h.msg.launchId.toNat)])) ∧
          (h.msg.root = nodeId s → h.committed = false → h.copies = 0 → s.tim.hall ≤ h.msg.commitDeadline.toNat →
            (fullyAcked s x = false → sends arrives x []) ∧
            (fullyAcked s x = true → h.msg.purpose = 0 → sends arrives
              { x with committed := true, copies := 1, lastCopy := s.tim.now } (commits h.msg)))) ∧
        (h.msg.root = nodeId s → h.committed = true → h.copies < 3 → h.lastCopy + 2000 ≤ s.tim.now →
          sends .commitResend { h with copies := h.copies + 1, lastCopy := s.tim.now } (commits h.msg)) ∧
        (heard h.msg.root → h.committed = false → s.tim.hall ≤ h.msg.expiry.toNat →
          (h.msg.purpose = 0 → sends (.commit h.msg.root h.msg.launchId) { h with committed := true } (commits h.msg)) ∧
          (h.msg.purpose = 1 → nodeId s ∉ failedOf h.msg → s.fab.ready = [] → s.fab.pairs = [] → s.fab.awaiting = [] →
            (∀ b q, (s.q b q).inflight = []) → (s.job.hedges.map Hedge.id).Nodup →
            (∀ g ∈ s.job.hedges, g.id < 4096 ∧ g.state ≠ 1) →
            let rest := fun (g : Hedge) => g.members.filter fun n => !(failedOf h.msg).contains n
            exec (.commit h.msg.root h.msg.launchId) s = .next { s with
              fab := { s.fab with ready := commits h.msg }
              job := { s.job with
                prep := some { h with committed := true }
                failedSet := (s.job.failedSet ++ failedOf h.msg).eraseDups
                hedges := s.job.hedges.map fun g => if rest g = g.members then g else { g with
                  members := rest g, rank := ((rest g).findIdx? (· == nodeId s)).getD 0, epoch := g.epoch + 1
                  ordinal := 0, clears := [], landed := [] } } })))) ∧
    (∀ h, s.job.prep = some h → h.committed = false →
      (h.msg.root = nodeId s → h.copies = 0 → h.msg.commitDeadline.toNat ≤ s.tim.hall → fullyAcked s h = false →
        let left := ([Tree.A, .B].flatMap fun tree =>
          (kids s h.msg tree).filter fun n => (h.ackOf tree n).map Prod.fst != some 0).eraseDups
        exec .commitDeadline s = .next ((List.range (max 1 ((left.length + 3) / 4))).foldl (fun t i =>
            logEntry t 6 0 0 (((left.drop (4 * i)).take 4).flatMap fun n => leBytes 4 n.toNat))
          { s with job := { s.job with prep := some { h with copies := 3 } } })) ∧
      (h.msg.expiry.toNat ≤ s.tim.hall → ∃ t, exec .expiry s = .next t ∧ t.job = { s.job with prep := none } ∧
        Safety.recorded t .launchNocommit ∧
        t = { s with job := t.job, err := t.err, hold := t.hold, free := t.free }))

/-- On a node that is not halted and holds a COMMIT whose t_go has come: of a launch, the job runs at step 0 with no
hold, its hedges as the image declares them and the job ID of the launch (log 9); every queue with commands runs
from its first, with no loop open, no command in flight and no address register set (R98, R112); every event counter
and stream count is zero (R102, R223); the harts of the start table run at their entries with a0 the argument, a1
the node ID and a2 the step 0, and no other hart changes (R270). Of a lay on a node that restored nothing, the job
goes on with no hold: the queues at STEP run, and no other queue, no byte of memory, no hart and no hedge changes
(R262, R337). -/
def Obligations.TGoStartsTheJob : Prop :=
  ∀ (s : State) (h : Held), s.job.prep = some h → h.committed = true → h.msg.tGo.toNat ≤ s.tim.hall →
    s.host.node ≠ .halted →
    (h.msg.purpose = 0 →
      let at_ := fun (e : StartEnt) => (BitVec.ofNat 6 (e.core * 4 + e.thread) : BitVec 6)
      let starts := (s.job.image.map Image.starts).getD []
      ∃ t, exec .tGo s = .next t ∧
        t.job = { s.job with
          phase := .running, started := true, risen := false, step := 0, prep := none, failedSet := []
          root := some h.msg.root, jobId := Config.jobIdOf h.msg.launchId, hedges := layHedges s []
          sigs := [], sigLast := false, sigAt := none } ∧
        t.hold = {} ∧
        (∀ b, (t.blk b).ev = [] ∧ (t.blk b).dEvents = 0) ∧
        (∀ b q, (s.q b q).stream ≠ [] → t.q b q = { s.q b q with
          pc := 0, loops := [], inflight := [], aregs := [], haltStatus := .ok, haltIdx := 0, crc := 0, crcLog := []
          state := .run }) ∧
        (∀ b n, t.ctx b n = { s.ctx b n with peer := 0, own := 0, issued := 0, active := none, state := .idle }) ∧
        (∀ i, (∀ e ∈ starts, at_ e ≠ i) → t.hart i = s.hart i) ∧
        (∀ e ∈ starts, (∀ x ∈ starts, at_ x = at_ e → x = e) →
          (t.hart (at_ e)).state = .running ∧ (t.hart (at_ e)).pc = e.entry ∧ (t.hart (at_ e)).xr 10 = e.arg ∧
          (t.hart (at_ e)).xr 11 = BitVec.ofNat 64 (nodeId s).toNat ∧ (t.hart (at_ e)).xr 12 = 0) ∧
        t = { s with job := t.job, hold := t.hold, blocks := t.blocks, harts := t.harts }) ∧
    (h.msg.purpose ≠ 0 → s.hold.restored = false → ∃ t, exec .tGo s = .next t ∧
      t.job = { s.job with phase := .running, started := true, prep := none, root := some h.msg.root, risen := false } ∧
      t.hold = {} ∧
      t.ckpt = { s.ckpt with state := if s.ckpt.state = .restoring then .none else s.ckpt.state } ∧
      (∀ b q, t.q b q = { s.q b q with state := if (s.q b q).state = .step then .run else (s.q b q).state }) ∧
      (∀ b, t.blk b = { s.blk b with queues := (t.blk b).queues }) ∧
      t = { s with job := t.job, hold := t.hold, ckpt := t.ckpt, blocks := t.blocks })

/-- A holding node whose queues all stand still, or whose hold_limit has passed (which by_limit notes), is HELD:
JOB_HELD is recorded with the worst severity, cause 3 is raised, and its notice goes to its coordinator by a PUT to
the control space (R289, R312, R337). At the coordinator in hardware mode, a first notice without the orphan flag
opens a settle window, and HOLD goes to every member; a later one is noted. At the window's end RESET goes to the
survivors, or TERMINATE where the image has no state set; the failed set is wanted for a relaunch unless it is too
great to lay or laying is host-assisted (R338; log 33). A member without an order for twice the settle time tries
the next member, at most 16 (R339). The end of a coalescing second makes one record with the count of the further
events, none where there were none (R288). -/
def Obligations.HoldsReachTheCoordinator : Prop :=
  ∀ s : State,
    let put := fun (dst : NodeId) (off : Nat) (bs : List Byte) =>
      ({ frame := mkFrame s { opcode := oPut, dst := dst, hedge := 0, offset := off, last := true, data := bs
                              opArg := epochArg s 0 }
         org := .nobody, pri := 3 } : OutFrame)
    let notice := fun (t : State) (c : NodeId) (l : List OutFrame) =>
      t.hold.coordinator = some c ∧ t.hold.noticeAt = some s.tim.now ∧ t.fab = { s.fab with ready := s.fab.ready ++ l }
    let to_ := fun (c : NodeId) (n : Notice) => put c (0xC0_0000_0010_0000 + rank0 s * 64) (noticeBytes n)
    let held := fun (i : Instr) (byLimit : Bool) => s.err.coal = [] → hostAssisted s 4 = false →
      coordinatorOf s ≠ nodeId s → ∃ t, exec i s = .next t ∧
        t.hold.state = .held ∧ t.hold.byLimit = byLimit ∧ t.hold.stepPending = (allAtStep s && !s.job.risen) ∧
        (∃ r, lastRec t = some r ∧ r.code = .jobHeld ∧ r.sev = s.hold.worst) ∧ t.host.cause.toNat.testBit 3 = true ∧
        notice t (coordinatorOf s) [to_ (coordinatorOf s) (noticeOf t)] ∧
        t = { s with hold := t.hold, err := t.err, host := t.host, free := t.free, fab := t.fab }
    let orders := fun (i : Instr) (l : List NodeId) (op : Nat) (control : List (NodeId × List Byte)) (h : Hold) =>
      control.length + l.length ≤ 4096 → ∃ t, exec i s = .next t ∧ t.hold = h ∧
        t.fab = { s.fab with
          control := control ++ (l.filter (· == nodeId s)).map fun n => (n, orderBytes op 0 0 0 0 [])
          ready := s.fab.ready ++ (l.filter (· != nodeId s)).map fun n =>
            put n 0xC0_0000_0008_0000 (orderBytes op 0 0 0 0 []) } ∧
        t = { s with hold := t.hold, fab := t.fab }
    (s.hold.state = .holding →
      (holdReached s = true → held .held false) ∧
      (s.hold.firstHalt + s.ncr.holdLimitMs * 1_000_000 ≤ s.tim.hall → held .holdLimit true)) ∧
    (∀ src n rest, s.fab.control = (src, noticeBytes n) :: rest → hostAssisted s 4 = false →
      let h := { s.hold with
        notices := (s.hold.notices.filter fun e => e.1 != src) ++ [(src, n)], coordinator := some (nodeId s) }
      (n.orphan = false → s.hold.settleEnds = none → orders (.holdNotice src n) (members0 s) 1 rest
        { h with settleEnds := some (s.tim.now + s.ncr.settleMs * 1_000_000) }) ∧
      (n.orphan = true ∨ s.hold.settleEnds.isSome = true → exec (.holdNotice src n) s = .next { s with
        hold := h, fab := { s.fab with control := rest } })) ∧
    (∀ e, s.hold.settleEnds = some e → e ≤ s.tim.now → hostAssisted s 4 = false →
      let f := failedSet s
      let left := (members0 s).filter fun n => !f.contains n
      let h := { s.hold with settleEnds := none, notices := [] }
      (stateSet s = none → orders .settleWindowEnd left 5 s.fab.control h) ∧
      (stateSet s ≠ none → orders .settleWindowEnd left 2 s.fab.control
        { h with want := if f = [] ∨ (f.length ≤ 16 ∧ hostAssisted s 2 = false) then some f else none, reports := [] })) ∧
    (∀ a n, s.hold.noticeAt = some a → s.hold.state = .held → a + 2 * s.ncr.settleMs * 1_000_000 ≤ s.tim.now →
      s.hold.tried.length < 16 → (members0 s).find? (fun m => !s.hold.tried.contains m) = some n → n ≠ nodeId s →
      ∃ t, exec .noticeResend s = .next t ∧ notice t n [to_ n (noticeOf s)] ∧ t.hold.tried = s.hold.tried ++ [n] ∧
        t = { s with hold := { s.hold with noticeAt := t.hold.noticeAt, coordinator := t.hold.coordinator
                                           tried := t.hold.tried }
                     fab := t.fab }) ∧
    (∀ (code : W16) (unit : Nat) w,
      s.err.coal.find? (fun w => w.code.info.1 == code.toNat && w.unit == unit && w.ends ≤ s.tim.now) = some w →
      ∃ t, exec (.coalesceExpiry code unit) s = .next t ∧ t.err.coal = (s.err.coal.filter fun x => x != w) ∧
        (w.count = 0 → t.err.log = s.err.log) ∧
        (w.count ≠ 0 → ∃ r, lastRec t = some r ∧ r.code = w.last.code ∧ r.count = w.count ∧ r.seq = s.err.seq) ∧
        t = { s with err := t.err })

/-- An order of the mailbox is answered with its status; one by frame is taken from the front of the receive queue, and
its sender is the present coordinator (R337). HOLD takes a running node to HOLDING at its next step boundary, with
cause 3. RESET begins the queue reset of a HELD node; when everything is drained, every queue, event counter, stream
context and brine array is cleared and the node is HELD, reset (R290). RESTORE of a step that has a USABLE set puts
the job at that step, held, with the failed nodes laid out of its hedges (R319). RELAUNCH begins the two-phase
launch of purpose 1 over the survivors, of a lay with t_go on a plan-period boundary (R257, R258). TERMINATE ends a
job that is HELD and reset, and else begins its reset. RESUME of a HELD node with no halted queue, no F1 or F2 event
and no reset lets the queues go on past STEP. A change of the hold passes a trace point where a trace is on (R352,
log 73). -/
def Obligations.OrdersMoveTheJob : Prop :=
  ∀ s : State,
    let begins := fun (src : OrderSrc) (bs : List Byte) (u : State) => match src with
      | .mbx => Safety.Mailbox s ∧ u = s
      | .frame n => ∃ rest, s.fab.control = (n, bs) :: rest ∧ u = { s with
          fab := { s.fab with control := rest }, hold := { s.hold with coordinator := some n, noticeAt := none } }
    let ends := fun (src : OrderSrc) (v : State) => match src with
      | .mbx => raise { v with host := { v.host with mbx := ⟨.success, .ok, 0, []⟩ } } 7
      | .frame _ => v
    let reset := fun (u : State) (ending : Bool) =>
      traceHw { u with hold := { u.hold with state := .resetting, ending := ending, faulted := faultedNow s } } 3
    (∀ src u, s.job.phase = .running →
      (begins src (orderBytes 1 0 0 0 0 []) u → s.hold.state = .run → exec (.hold src) s = .next (ends src
        (traceHw (raise { u with
          free := s.free + 1
          hold := { u.hold with
            state := .holding, byLimit := false, worst := .C, fatal := false, firstSeq := s.err.seq, firstCause := none
            firstHalt := stamp s, wasReset := false, atBoundary := true, stepPending := true } } 3) 3))) ∧
      (begins src (orderBytes 5 0 0 0 0 []) u → s.hold.state = .held →
        (s.hold.wasReset = false → exec (.terminate src) s = .next (ends src (reset u true))) ∧
        (s.hold.wasReset = true → ∃ t, exec (.terminate src) s = .next t ∧ t.job.phase = .loaded ∧ t.hold = {} ∧
          t.brine = [] ∧ t.job.hedges = [] ∧ t.job.image = s.job.image ∧
          (∀ b q, (t.q b q).state = .idle ∧ (t.q b q).inflight = []) ∧
          (∀ i, (t.hart i).state = .stopped) ∧ (s.sec.candidates = [] → s.wcb = [] → t.mem = s.mem)))) ∧
    (s.hold.state = .held →
      (∀ src u, begins src (orderBytes 2 0 0 0 0 []) u → exec (.reset src) s = .next (ends src (reset u false))) ∧
      (∀ src u, begins src (orderBytes 6 0 0 0 0 []) u → (∀ b ∈ liveBlocks s, ∀ q, (s.q b q).state ≠ .halt) →
        s.hold.fatal = false → s.hold.wasReset = false → s.hold.stepPending = false → s.ckpt.cutting = false →
        ∃ v, exec (.resume src) s = .next (ends src v) ∧ v.hold = { coordinator := u.hold.coordinator } ∧
          (∀ b q, v.q b q = { s.q b q with state := if (s.q b q).state = .step then .run else (s.q b q).state }) ∧
          (∀ b, v.blk b = { s.blk b with queues := (v.blk b).queues }) ∧
          v = { u with hold := v.hold, blocks := v.blocks, job := { s.job with risen := false }
                       host := (traceHw u 3).host, free := (traceHw u 3).free }) ∧
      (∀ (go dl ex : W64) (failed : List NodeId), Safety.Mailbox s → coordinatorOf s = nodeId s → failed.length ≤ 16 →
        (failed = [] ∨ onPeriod s go.toNat = true) →
        let d := ((hedgeOf s 0).map Hedge.arity).getD 2
        timesOk go dl ex (BitVec.ofNat 8 d) = true →
        let m : PrepMsg :=
          { launchId := Config.launchIdOf (nodeId s) s.job.launches, tGo := go, commitDeadline := dl, expiry := ex
            root := nodeId s, arity := BitVec.ofNat 8 d, purpose := 1
            epoch := ((hedgeOf s 0).map fun h => h.epoch + 1).getD 0
            digest := slice (failed.flatMap fun n => leBytes 4 n.toNat) 0 64 }
        2 ≤ (launchMembers s m).length →
        ∃ t, exec (.relaunch .mbx go dl ex failed) s = .next t ∧
          t.job = { s.job with launches := s.job.launches + 1, prep := some { msg := m, lastSend := s.tim.now } } ∧
          t.host.mbx = ⟨.success, .ok, 0, []⟩ ∧
          t.fab.ready = s.fab.ready ++ ([Tree.A, .B].flatMap fun tree => (kids s m tree).map fun n =>
            { frame := mkFrame s { type := tControl, opcode := oPrepare, dst := n, subop := treeBit tree, opArg := 0
                                   offset := 0, last := true, data := prepBytes m }
              pri := 5 }) ∧
          t = { s with job := t.job, host := t.host, hold := { s.hold with orders := t.hold.orders }
                       fab := { s.fab with ready := t.fab.ready } }) ∧
      (∀ (step : BitVec 48) (failed : List NodeId) (remote : List GenCopy), Safety.Mailbox s → s.hold.wasReset = true →
        (∀ n ∈ failed, buddyOf s ≠ some n) →
        ∃ t, exec (.restore .mbx step failed remote) s = .next t ∧ ∀ j,
          let judged := judgeBoth s remote
          judged.2.find? (fun j => j.verdict == 1 && j.step == step.toNat) = some j →
          restoreBad (writeReport (substitute judged.1) judged.2) j failed = none →
          let r := nodeRecOf (chosenRecord j)
          let gone := (r.failed ++ failed).eraseDups
          t.host.mbx = ⟨.success, .ok, 0, []⟩ ∧
          t.job.phase = .running ∧ t.job.started = false ∧ t.job.step = step ∧ t.job.failedSet = gone ∧
          t.job.hedges.map Hedge.members = (layHedges s gone).map Hedge.members ∧
          t.hold.state = .held ∧ t.hold.restored = true ∧ t.ckpt.state = .restoring ∧ t.brine = r.brine)) ∧
    (s.hold.state = .resetting → drained s = true → s.host.cbuf.length + resetRecords s ≤ 4096 → s.hold.ending = false →
      stateSet s = none → s.hold.want = none → ∃ t, exec .resettingDrained s = .next t ∧
        t.hold.state = .held ∧ t.hold.wasReset = true ∧ t.hold.faulted = [] ∧ t.brine = [] ∧
        (∀ b q, t.q b q = { stream := (s.q b q).stream, serial := (s.q b q).serial }) ∧
        (∀ b, (t.blk b).ev = []) ∧
        (∀ b n, t.ctx b n = { s.ctx b n with peer := 0, own := 0, issued := 0, state := .idle, active := none }) ∧
        t.host.cbuf.length = s.host.cbuf.length + resetRecords s ∧
        t = { s with blocks := t.blocks, brine := t.brine, stk := t.stk, ckpt := t.ckpt, fab := t.fab, job := t.job
                     hold := t.hold, host := t.host, err := t.err, free := t.free })

/-- A ready hart runs the instruction at its pc: OP and OP-IMM write rd, a branch moves the pc, JAL links, and a FENCE
empties the core's write-combining buffer into memory; with a miss the hart waits until the fill (R266, R268, R272).
An AMO writes the new value at once, after what the core has buffered, and rd gets the old (R274). A load or AMO of
the aperture sends GET_REQ or ATOMIC and the thread waits; a store sends PUT and goes on; an access that no slot
allows, LR, SC and the AMOs without a pan operation take an access fault (R247 to R249). The response with OK is
written and the hart goes on; with another status it is recorded and the access fault is taken (R250). A timer or
software interrupt that is enabled is taken to machine mode where it is not delegated; a hart in WFI wakes (R276).
TCMP is written; an aperture slot is mapped by firmware or a hart in machine mode, and another mode takes an access
fault (R247, R271). No other hart changes but for reservations lost to a write. -/
def Obligations.HartRowsComplete : Prop :=
  ∀ (s : State) (h : BitVec 6),
    let k := s.hart h
    let only := fun (i : Instr) (u : Hart) => ∃ t, exec i s = .next t ∧ t.hart h = u ∧
      Safety.OnlyHart h { s with decoded := t.decoded } t
    (Safety.HartReady s h →
      (∀ lo hi, Safety.Clean s →
        let s1 := (fetchHalf (drew s) h k.pc).1
        let s2 := (fetchHalf s1 h (k.pc + 2)).1
        (fetchHalf (drew s) h k.pc).2 = .inl lo → (fetchHalf s1 h (k.pc + 2)).2 = .inl hi → lo % 4 = 3 →
        let w := lo + hi * 65536
        let x := k.xr (nfld w 15 5)
        let y := k.xr (nfld w 20 5)
        (∀ v, (w % 128 = 0x33 ∧ rvOp (nfld w 25 7) (nfld w 12 3) x y = some v ∨
            w % 128 = 0x13 ∧ rvOpImm w x (immI w) = some v) →
          only (.hartInstruction h false) (Safety.retired 4 (k.setX (nfld w 7 5) v))) ∧
        (∀ c, w % 128 = 0x63 → rvBranch (nfld w 12 3) x y = some c → only (.hartInstruction h false)
          { Safety.retired 4 k with pc := k.pc + if c then immB w else 4 }) ∧
        (w % 128 = 0x6F → only (.hartInstruction h false)
          { Safety.retired 4 (k.setX (nfld w 7 5) (k.pc + 4)) with pc := k.pc + immJ w }) ∧
        (w % 128 = 0x0F → nfld w 12 3 = 0 → k.stFault = none → k.apFault = none →
          nfld w 26 2 = 0 ∨ k.apStores = [] →
          let sd := drainCore s2 (coreOf h)
          sd.wcb.get [] (coreOf h) = [] ∧
            exec (.hartInstruction h false) s = .next (sd.setHart h (Safety.retired 4 (sd.hart h))))) ∧
      (∀ (op : AmoOp) (dbl : Bool) (rd rs1 rs2 : BitVec 5) (pa : Nat), Safety.Clean s → k.stFault = none →
        let n := if dbl then 8 else 4
        let va := k.xr rs1.toNat
        let sd := drainCore (drew s) (coreOf h)
        let u := (translate sd h .store va).1
        va.toNat % n = 0 → (translate sd h .store va).2 = .inl pa → inAperture pa = false → amoPlace u pa = true →
        let old := rdW u pa n
        let z := wrW u pa n (amoNew op n old ((k.xr rs2.toNat).toNat % 2 ^ (8 * n))) (some h)
        ∃ t, exec (.hartAmo h op dbl rd rs1 rs2) s = .next t ∧ t.mem = z.mem ∧ t.host = z.host ∧
          t.hart h = { Safety.retired 4 (k.setX rd.toNat (BitVec.ofInt 64 (sx (8 * n) old))) with
            resv := (t.hart h).resv } ∧
          (∀ g, g ≠ h → t.hart g = { s.hart g with resv := (t.hart g).resv }) ∧ t.wcb = sd.wcb ∧
          t = { s with mem := t.mem, host := t.host, harts := t.harts, wcb := t.wcb, decoded := t.decoded
                       free := s.free + 1 }) ∧
      (∀ (kind : ApKind) (size : Nat) (addr : W64) (data : W128) (rd : BitVec 5), inAperture addr.toNat = true →
        apSizeOk kind size = true → (size = 16 → svOn s h = true) → k.stFault = none → k.apFault = none →
        addr.toNat % size = 0 →
        let off := addr.toNat - 0x80_0000_0000_0000
        let e := s.apt.get 0 (off / 2 ^ 36)
        let node : NodeId := BitVec.ofNat 20 (fld e 0 20)
        let hedge := fld e 40 16
        let allowed := wbit e 56 = true ∧ hedgeMember s hedge node = true ∧ (kind ≠ .load → wbit e 57 = true) ∧
          kind ≠ .lrsc ∧ ∀ o, kind = .amo o → (apAmo o).isSome = true
        (¬allowed → exec (.apertureAccess h kind size addr data rd) s =
          .next (takeTrap (drew s) h false (if kind = .load then 5 else 7) addr)) ∧
        (allowed →
        let frame := fun (no : Nat) (op : Byte) (sub fmt : Nat) (length : Option Nat) (olds : Bool) (bs : List Byte) =>
          ({ frame := mkFrame s { opcode := op, dst := node, hedge := hedge, offset := fld e 20 20 * 2 ^ 36 + off % 2 ^ 36
                                  subop := sub, fmt := fmt, length := length, last := true, data := bs, olds := olds
                                  opArg := epochArg s hedge }
             org := .hart h no, pri := apPri s node } : OutFrame)
        let sends := fun (o : OutFrame) (u : Hart) => ∃ t, exec (.apertureAccess h kind size addr data rd) s = .next t ∧
          t.fab = { s.fab with ready := s.fab.ready ++ [o] } ∧ t.hart h = u ∧ (∀ g, g ≠ h → t.hart g = s.hart g) ∧
          t = { s with fab := t.fab, harts := t.harts, free := s.free + 1 }
        let waits : Hart := { k with
          state := .switched
          ap := some { kind := kind, size := size, addr := addr, rd := rd, node := node, vec := size == 16, fp := false
                       uns := false, len := 4 } }
        (kind = .load → sends (frame 0 oGetReq 0 0 (some size) false []) waits) ∧
        (kind = .store → k.apStores.length < 16 →
          sends (frame k.apNext oPut 0 0 none false (leBytes size data.toNat)) (Safety.retired 4 { k.svEnd (size == 16) with
            apStores := k.apStores ++ [(k.apNext, addr, node)], apNext := k.apNext + 1 })) ∧
        (∀ o op, kind = .amo o → apAmo o = some op →
          sends (frame 0 oAtomic op (if size = 8 then 12 else 11) none true (leBytes size data.toNat)) waits)))) ∧
    (k.state = .running → exec (.hartInstruction h true) s = .next (s.setHart h { k with missWait := true })) ∧
    exec (.localCacheMissFill h) s = .next (s.setHart h { k with missWait := false }) ∧
    (∀ (w : ApWait) (data : W128), k.ap = some w →
      (∃ t, exec (.apertureResponse h 0 data) s = .next t ∧ (∀ g, g ≠ h → t.hart g = s.hart g) ∧
        t = { s with harts := t.harts } ∧
        let k0 : Hart := { k with ap := none, state := .running }
        (w.vec = false → w.fp = false →
          t.hart h = Safety.retired w.len (k0.setX w.rd.toNat (extend w.size false w.uns (data.toNat % 2 ^ (8 * w.size))))) ∧
        (w.vec = true → t.hart h = Safety.retired w.len ((k0.setV w.rd.toNat data).setIndex 0)) ∧
        (w.vec = false → w.fp = true →
          t.hart h = Safety.retired w.len (k0.setF w.rd.toNat (extend w.size true w.uns (data.toNat % 2 ^ (8 * w.size)))))) ∧
      (∀ st : Byte, Status.ofCode st.toNat ≠ .ok → k.priv = .M → ∃ t, exec (.apertureResponse h st data) s = .next t ∧
        Safety.recorded t .fcoAccess ∧ (t.hart h).ap = none ∧ (t.hart h).csr.mepc = k.pc ∧
        (t.hart h).csr.mcause = (if w.kind = .load then 5 else 7) ∧ (t.hart h).csr.mtval = w.addr ∧
        (t.hart h).rstat = rstatus (Status.ofCode st.toNat) (apOpcode w.kind) w.node ∧ (t.hart h).pc = k.csr.mtvec &&& ~~~3#64 ∧ (∀ g, g ≠ h → t.hart g = s.hart g) ∧
        t = { s with harts := t.harts, err := t.err, hold := t.hold, free := t.free })) ∧
    (let trapped := fun (i : Instr) (n : Nat) (u : State) => ∃ t, exec i s = .next t ∧
        (t.hart h).priv = .M ∧ (t.hart h).csr.mepc = k.pc ∧ (t.hart h).csr.mcause = BitVec.ofNat 64 (n + 2 ^ 63) ∧
        (t.hart h).csr.mtval = 0 ∧
        (t.hart h).pc = (k.csr.mtvec &&& ~~~3#64) + (if k.csr.mtvec &&& 3 = 1 then BitVec.ofNat 64 (4 * n) else 0) ∧
        (t.hart h).x = k.x ∧ t = u.setHart h (t.hart h)
     (k.tcmp.toNat ≤ stamp s → k.missWait = false →
        (k.state = .running → pendingIntr s h = some 7 → (k.priv = .M ∨ wbit k.csr.mideleg 7 = false) →
          trapped (.timerInterrupt h) 7 s) ∧
        (k.state = .wfi → wakes s h = true → pendingIntr s h = none →
          exec (.timerInterrupt h) s = .next (s.setHart h { k with state := .running }))) ∧
     (hartPresent s h = true →
        exec (.msip h false) s = .next (s.setHart h { k with msip := false }) ∧
        (let u := s.setHart h { k with msip := true }
         k.state = .running → k.missWait = false →
          (pendingIntr u h = none → exec (.msip h true) s = .next u) ∧
          (pendingIntr u h = some 3 → (k.priv = .M ∨ wbit k.csr.mideleg 3 = false) → trapped (.msip h true) 3 u)) ∧
        ∀ v, exec (.fcoHartTcmp h v) s = .next (s.setHart h { k with tcmp := v }))) ∧
    (∀ (slot : BitVec 12) (v : W64),
      (∀ who, who = Requester.firmware ∨ who = .hart h ∧ k.state = .running ∧ k.priv = .M →
        ∃ t, exec (.fcoApt who slot v) s = .next t ∧ t.apt.get 0 slot.toNat = v &&& 0x03FF_FFFF_FFFF_FFFF ∧
          (∀ n, n ≠ slot.toNat → t.apt.get 0 n = s.apt.get 0 n) ∧ t = { s with apt := t.apt }) ∧
      (k.state = .running → k.priv ≠ .M → wbit k.csr.medeleg 7 = false → ∃ t, exec (.fcoApt (.hart h) slot v) s = .next t ∧
        (t.hart h).csr.mcause = 7 ∧ (t.hart h).csr.mepc = k.pc ∧ (t.hart h).priv = .M ∧ t.apt = s.apt))

/-- A ready hart with SV128 on runs each integer and whole-register row: the lanes of vd, or x[rd], get the values of
Tables 10.6 and 10.7 and R280 from the lanes a of vs1 and b of vs2; VDOT, VDOTU and VDOTSU add exact products to the
lanes of vd. The vector state becomes dirty; a saturation in any lane sets svcsr.sat, and no other row sets a flag.
The pc moves by 4; no other register, hart or state changes (R277, R279). -/
def Obligations.SvIntegerRowsComplete : Prop :=
  ∀ (s : State) (r : SvRegs), Safety.HartReady s r.hart → svOn s r.hart = true →
    let k := s.hart r.hart
    let a := k.vr r.vs1.toNat
    let b := k.vr r.vs2.toNat
    let d := k.vr r.vd.toNat
    let run := fun (i : Instr) (sat : Bool) (p : W128 → Prop) => ∃ t v, exec i s = .next t ∧
      t.hart r.hart = Safety.retired 4 ((k.setV r.vd.toNat v).svSat sat) ∧ p v ∧ Safety.OnlyHart r.hart s t
    let toX := fun (i : Instr) (v : W64) => ∃ t, exec i s = .next t ∧
      t.hart r.hart = Safety.retired 4 (k.setX r.vd.toNat v) ∧ Safety.OnlyHart r.hart s t
    (∀ (ew : SvW) (w : Nat), w = (match ew with | .b => 1 | .h => 2 | .w => 4 | .d => 8) →
      let la := Safety.lane w a
      let lb := Safety.lane w b
      let lanes := fun (i : Instr) (n : Nat) (f : Nat → BitVec (8 * n)) =>
        run i false fun v => ∀ j, j < 16 / n → Safety.lane n v j = f j
      let each := fun (i : Instr) (f : BitVec (8 * w) → BitVec (8 * w) → BitVec (8 * w)) =>
        lanes i w fun j => f (la j) (lb j)
      let sats := fun (i : Instr) (lo hi : Int) (f : BitVec (8 * w) → BitVec (8 * w) → Int) =>
        run i ((List.range (16 / w)).any fun j => decide (f (la j) (lb j) < lo ∨ hi < f (la j) (lb j)))
          fun v => ∀ j, j < 16 / w → Safety.lane w v j = BitVec.ofInt (8 * w) (max lo (min hi (f (la j) (lb j))))
      let half : Int := 2 ^ (8 * w - 1)
      let ones := fun (c : Bool) => if c then BitVec.allOnes (8 * w) else 0
      each (.vadd ew r) (· + ·) ∧ each (.vsub ew r) (· - ·) ∧ each (.vmul ew r) (· * ·) ∧
      each (.vmin ew r) (fun x y => if x.sle y then x else y) ∧ each (.vmax ew r) (fun x y => if x.sle y then y else x) ∧
      each (.vminu ew r) (fun x y => if x ≤ y then x else y) ∧ each (.vmaxu ew r) (fun x y => if x ≤ y then y else x) ∧
      sats (.vsadd ew r) (-half) (half - 1) (fun x y => x.toInt + y.toInt) ∧
      sats (.vsaddu ew r) 0 (2 * half - 1) (fun x y => x.toNat + y.toNat) ∧
      sats (.vssub ew r) (-half) (half - 1) (fun x y => x.toInt - y.toInt) ∧
      sats (.vssubu ew r) 0 (2 * half - 1) (fun x y => (x.toNat : Int) - y.toNat) ∧
      each (.vcmpeq ew r) (fun x y => ones (x == y)) ∧ each (.vcmplt ew r) (fun x y => ones (x.slt y)) ∧
      each (.vcmpltu ew r) (fun x y => ones (x.ult y)) ∧
      each (.vsll ew r) (fun x y => x <<< (y.toNat % (8 * w))) ∧ each (.vsrl ew r) (fun x y => x >>> (y.toNat % (8 * w))) ∧
      each (.vsra ew r) (fun x y => x.sshiftRight (y.toNat % (8 * w))) ∧
      (w ≤ 4 →
        let wide := fun (i : Instr) (o : Nat) (f : BitVec (8 * w) → BitVec (8 * w) → Int) =>
          lanes i (2 * w) fun j => BitVec.ofInt (8 * (2 * w)) (f (la (j + o)) (lb (j + o)))
        let n := 16 / w
        wide (.vwmul ew r) 0 (fun x y => x.toInt * y.toInt) ∧ wide (.vwmulh ew r) (n / 2) (fun x y => x.toInt * y.toInt) ∧
        wide (.vwmulu ew r) 0 (fun x y => x.toNat * y.toNat) ∧
        wide (.vwmuluh ew r) (n / 2) (fun x y => x.toNat * y.toNat)) ∧
      (w ≤ 2 →
        let m := if w = 1 then 4 else 2
        let dot := fun (i : Instr) (f : BitVec (8 * w) → BitVec (8 * w) → Int) => lanes i (4 * w) fun j =>
          Safety.lane (4 * w) d j + BitVec.ofInt (8 * (4 * w))
            ((List.range m).map fun p => f (la (m * j + p)) (lb (m * j + p))).sum
        dot (.vdot ew r) (fun x y => x.toInt * y.toInt) ∧ dot (.vdotu ew r) (fun x y => x.toNat * y.toNat) ∧
        dot (.vdotsu ew r) (fun x y => x.toInt * y.toNat)) ∧
      (r.vs2 = 0 → lanes (.vmvVX ew r) w (fun _ => (k.xr r.vs1.toNat).setWidth (8 * w)) ∧
        toX (.vmovmsk ew r) (BitVec.ofNat 64 (((List.range (16 / w)).filter fun j => (la j).msb).map (2 ^ ·)).sum)) ∧
      (r.vs2.toNat < 16 / w → toX (.vmvXV ew r) ((la r.vs2.toNat).signExtend 64) ∧
        lanes (.vins ew r) w (fun j => if j = r.vs2.toNat then (k.xr r.vs1.toNat).setWidth (8 * w)
          else Safety.lane w d j)) ∧
      (let zip := fun (o j : Nat) => if j % 2 = 0 then la (j / 2 + o) else lb (j / 2 + o)
       let unzip := fun (o j : Nat) => if j < 16 / w / 2 then la (2 * j + o) else lb (2 * (j - 16 / w / 2) + o)
       lanes (.vziplo ew r) w (zip 0) ∧ lanes (.vziphi ew r) w (zip (16 / w / 2)) ∧
       lanes (.vunzipe ew r) w (unzip 0) ∧ lanes (.vunzipo ew r) w (unzip 1))) ∧
    run (.vand r) false (· = a &&& b) ∧ run (.vor r) false (· = a ||| b) ∧ run (.vxor r) false (· = a ^^^ b) ∧
    run (.vandn r) false (· = a &&& ~~~b) ∧ (r.vs2 = 0 → run (.vmv r) false (· = a)) ∧
    run (.vsel r) false (· = (a &&& k.vr 0) ||| (b &&& ~~~(k.vr 0))) ∧
    run (.vpermb r) false (fun v => ∀ j, j < 16 → Safety.lane 1 v j =
      if (Safety.lane 1 b j).msb then 0 else Safety.lane 1 a ((Safety.lane 1 b j).toNat % 16)) ∧
    (∀ sh : BitVec 4, run (.vextb r sh) false fun v => ∀ j, j < 16 → Safety.lane 1 v j =
      if j + sh.toNat < 16 then Safety.lane 1 a (j + sh.toNat) else Safety.lane 1 b (j + sh.toNat - 16))

/-- A ready hart with SV128 on and a rounding mode of 0 to 4 runs each floating row: every lane of vd gets the operation
of Table 10.8 rounded once in svcsr.vrm, and the lanes' flags are ORed into svcsr (R281). In machine mode with no
PMP entry, an SV128 load or store of an aligned address in clean node memory, from svindex 0, moves each active
element of w bytes in rising order, the mask read at the start from v0: a load, none of whose lines the core has
buffered, writes the active lanes of vd alone; a store puts the active elements' bytes alone into the core's write-
combining buffer (R272, R282, R284). The pc moves by 4; no other register changes. -/
def Obligations.SvFloatAndMemoryRowsComplete : Prop :=
  ∀ (s : State),
    (∀ (r : SvRegs) (rm : Rnd), Safety.HartReady s r.hart → svOn s r.hart = true →
      let k := s.hart r.hart
      rvRnd (nfld k.svcsr.toNat 5 3) = some rm →
      let n := fun (w : Nat) (v : W128) (j : Nat) => (Safety.lane w v j).toNat
      let a := k.vr r.vs1.toNat
      let b := k.vr r.vs2.toNat
      let d := k.vr r.vd.toNat
      let lanes := fun (i : Instr) (w : Nat) (f : Nat → Nat × FF) => ∃ t v, exec i s = .next t ∧
        (∀ j, j < 16 / w → n w v j = (f j).1 % 2 ^ (8 * w)) ∧
        t.hart r.hart = Safety.retired 4 { k.setV r.vd.toNat v with
          svcsr := k.svcsr ||| ((List.range (16 / w)).foldl (fun m j => m ||| (f j).2) (0 : FF)).setWidth 9 } ∧
        Safety.OnlyHart r.hart s t
      ∀ (ef : SvF) (w : Nat) (f : Fmt), (match ef with
          | .fp16 => w = 2 ∧ f = .fp16 | .fp32 => w = 4 ∧ f = .fp32 | .fp64 => w = 8 ∧ f = .fp64) →
        let each := fun (i : Instr) (g : Nat → Nat → Nat → Nat × FF) =>
          lanes i w fun j => g (n w a j) (n w b j) (n w d j)
        let cmp := fun (i : Instr) (c : Nat) =>
          each i fun x y _ => (if (fpCmp f c x y).1 then 2 ^ (8 * w) - 1 else 0, (fpCmp f c x y).2)
        each (.vfadd ef r) (fun x y _ => fpAdd f rm x y) ∧ each (.vfsub ef r) (fun x y _ => fpSub f rm x y) ∧
        each (.vfmul ef r) (fun x y _ => fpMul f rm x y) ∧ each (.vfdiv ef r) (fun x y _ => fpDiv f rm x y) ∧
        each (.vfmin ef r) (fun x y _ => fpMinMax f false x y) ∧ each (.vfmax ef r) (fun x y _ => fpMinMax f true x y) ∧
        each (.vfma ef r) (fun x y z => fpFma f rm false false x y z) ∧
        each (.vfnms ef r) (fun x y z => fpFma f rm true false x y z) ∧
        cmp (.vfcmpeq ef r) 2 ∧ cmp (.vfcmplt ef r) 1 ∧ cmp (.vfcmple ef r) 0 ∧
        (r.vs2 = 0 → each (.vfsqrt ef r) (fun x _ _ => fpSqrt f rm x) ∧
          each (.vfcvtfx ef r) (fun x _ _ => fpOfInt f rm (sx (8 * w) x)) ∧
          each (.vfcvtxf ef r) (fun x _ _ =>
            let i := fpToInt rm (f.decode x) (-(2 ^ (8 * w - 1) : Int)) (2 ^ (8 * w - 1) - 1)
            (tc (8 * w) i.1, i.2)) ∧
          (ef ≠ .fp64 →
            let g := if ef = .fp16 then Fmt.fp32 else .fp64
            lanes (.vfwidenlo ef r) (2 * w) (fun j => fpCvt f g rm (n w a j)) ∧
            lanes (.vfwidenhi ef r) (2 * w) (fun j => fpCvt f g rm (n w a (j + 16 / w / 2))))) ∧
        (ef ≠ .fp16 → lanes (.vfnarrow ef r) (w / 2) (fun j =>
          fpCvt f (if ef = .fp32 then .fp16 else .fp32) rm (if j < 16 / w then n w a j else n w b (j - 16 / w))))) ∧
    (∀ m : SvMem, Safety.HartReady s m.hart → svOn s m.hart = true → Safety.Clean s →
      let k := s.hart m.hart
      let va := (k.xr m.rs1.toNat).toNat
      let w := match m.width with | .b => 1 | .h => 2 | .w => 4 | .d => 8
      k.priv = .M → wbit k.csr.mstatus 17 = false → k.csr.pmpcfg = [] → k.svindex = 0 → va % w = 0 → va + 16 ≤ 2 ^ 47 →
      (∀ i, i < 16 → ∃ st a, place s (va + i) = .mem st a) →
      let act := fun (j : Nat) => !m.m || (Safety.lane w (k.vr 0) j).msb
      (k.stFault = none → (m.m = true → m.v ≠ 0) → drainFor (drew s) m.hart va 16 = drew s → ∃ t, exec (.sv128Load m) s = .next t ∧
        (∀ j, j < 16 / w → Safety.lane w ((t.hart m.hart).vr m.v.toNat) j =
          if act j then BitVec.ofNat (8 * w) (rdW s (va + j * w) w) else Safety.lane w (k.vr m.v.toNat) j) ∧
        (∀ q, q ≠ m.v.toNat → (t.hart m.hart).vr q = k.vr q) ∧
        (∃ u : Hart, (u = k ∨ u = k.dirtyV) ∧ t.hart m.hart = { Safety.retired 4 u with v := (t.hart m.hart).v }) ∧
        Safety.OnlyHart m.hart { s with decoded := t.decoded } t) ∧
      let u := ((List.range (16 / w)).filter act).foldl (fun u j =>
        bufferStore u m.hart (BitVec.ofNat 64 (va + j * w)) ((linesOf s (va + j * w) w).headD 0) ((va + j * w) % 64)
          (leBytes w (Safety.lane w (k.vr m.v.toNat) j).toNat)) (drew s)
      exec (.sv128Store m) s = .next (u.setHart m.hart (Safety.retired 4 (u.hart m.hart))))

/-- With the link up, a CXL.mem read of a clean line in the HDM range is answered with the alias's 64 bytes; one outside
is answered with zeros and poison and recorded (R297, R323). A write within a line changes its bytes in the alias
alone; a poisoned one is recorded and changes no memory (R294, R297). A violation is recorded with its kind and AER
status, and a read of it is answered with Unsupported Request (R298; log 21). A configuration read of offset 0 gives
Ahnothen's vendor ID and the device ID of the grade (R325); before node ready it is answered with retry (R356). Hot
reset and PERST_N low return every HRW register to its reset value and end a lease, which begins orphan mode; the
job and memory stay (R324, R399). CXL Reset resets the whole node (R206, R353). The link trains again with its HDM
decoder over the whole alias. An invalidating snoop takes the line away (R322). -/
def Obligations.CxlRowsComplete : Prop :=
  ∀ s : State,
    (s.host.linkUp = true →
      (∀ (a : W64), s.host.hdmBase ≤ a.toNat → a.toNat < s.host.hdmBase + s.host.hdmSize → s.lineFault = [] →
        let o := a.toNat - s.host.hdmBase
        let npa := 0x100_0000_0000 + (o - o % 64)
        ∀ st x, place s npa = .mem st x → (s.stack st).state = .ready → exec (.cxlMemRead a) s = .next { s with
          host := { s.host with answer := rdN s npa 64, poison := false, ur := 0 }
          decoded := (countReads s [⟨npa, 64⟩]).decoded }) ∧
      (∀ (a : W64), (a.toNat < s.host.hdmBase ∨ s.host.hdmBase + s.host.hdmSize ≤ a.toNat) → s.err.coal = [] →
        ∃ t, exec (.cxlMemRead a) s = .next t ∧ t.host.answer = List.replicate 64 0 ∧ t.host.poison = true ∧
          Safety.recorded t .cxlProtocol ∧ t = { s with
            host := { s.host with answer := t.host.answer, poison := true, ur := 0 }, err := t.err, hold := t.hold
            free := t.free }) ∧
      (∀ (a : W64) (data : Bytes), s.host.hdmBase ≤ a.toNat → a.toNat < s.host.hdmBase + s.host.hdmSize →
        0 < data.length → a.toNat % 64 + data.length ≤ 64 →
        let npa := 0x100_0000_0000 + (a.toNat - s.host.hdmBase)
        (∀ st x, place s npa = .mem st x → (s.stack st).state = .ready → Safety.Clean s →
          ∃ t, exec (.cxlMemWrite a data false) s = .next t ∧ t.mem = (wrN s npa data).mem ∧
            (∀ n, Safety.Outside s [⟨npa, data.length⟩] n → rd t n = rd s n) ∧
            (∀ h, t.hart h = { s.hart h with resv := (t.hart h).resv }) ∧
            t = { s with mem := t.mem, host := t.host, harts := t.harts, lineFault := t.lineFault
                         decoded := t.decoded }) ∧
        (s.err.coal = [] → ∃ t, exec (.cxlMemWrite a data true) s = .next t ∧ Safety.recorded t .cxlProtocol ∧
          t = { s with err := t.err, hold := t.hold, free := t.free })) ∧
      (∀ (k : CxlKind) (header : Bytes), s.err.coal = [] →
        let kind : Nat × Nat := match k with
          | .malformedTlp => (1, 18) | .badFunctionOrBar _ => (2, 20) | .badHrwAccess _ => (3, 20) | .poisonedTlp => (4, 12)
          | .unexpectedCompletion => (5, 16) | .cacheMismatch => (6, 14) | .memWritePoison => (7, 0xFF)
          | .memOutside _ => (8, 0xFF) | .mbxOpcode => (9, 0xFF) | .mbxPayload => (10, 0xFF)
        ∃ t, exec (.cxlProtocol k header) s = .next t ∧
          (∃ r, lastRec t = some r ∧ r.code = .cxlProtocol ∧ r.detail = slice (detailE header kind.2 kind.1) 0 32) ∧
          t.host.aer = s.host.aer ++ (if kind.2 = 0xFF then [] else if kind.1 = 6 then [64 + kind.2] else [kind.2]) ∧
          ((k = .badFunctionOrBar true ∨ k = .badHrwAccess true) → t.host.ur = 1 ∧ t.host.answer = []) ∧
          (k = .memOutside true → t.host.answer = List.replicate 64 0 ∧ t.host.poison = true) ∧
          (k = .mbxOpcode → t.host.mbx.ret = .unsupported) ∧ (k = .mbxPayload → t.host.mbx.ret = .invalidInput) ∧
          t = { s with host := t.host, err := t.err, hold := t.hold, free := t.free }) ∧
      (s.host.node ≠ .start → exec (.configRead 0) s = .next { s with host := { s.host with
        answer := [0x6A, 0x1F, if s.fuses.grade = .A then 0x50 else 0x51, 0x3A], poison := false, ur := 0 } }) ∧
      (∃ t, exec .cxlReset s = .next t ∧ t.mem = [] ∧ t.blocks = [] ∧ t.harts = [] ∧ t.job = {} ∧ t.host.node = .start ∧
        t.host.linkUp = false ∧ t.pwr.rdyN = true ∧ t.fuses = s.fuses ∧ t.host.mem = s.host.mem) ∧
      (∀ l : W64, exec (.cxlCacheSnoop l true) s = .next { s with host := { s.host with
          cache := s.host.cache.filter (· != l.toNat) } } ∧
        exec (.cxlCacheSnoop l false) s = .next s)) ∧
    (∀ o : W16, s.host.node = .start → exec (.configRead o) s = .next { s with host := { s.host with ur := 2, answer := [] } }) ∧
    (s.host.node ≠ .start →
      (let down := fun (i : Instr) (p : Power) => ∃ t, exec i s = .next t ∧
          t.host.cause = (if s.host.leaseHeld then 16 else 0) ∧ t.host.mask = 0xFF ∧ t.host.emQueue = [] ∧
          t.host.trace = [] ∧ t.host.cring = {} ∧ t.host.ering = {} ∧ t.host.lring = {} ∧ t.host.linkUp = false ∧
          t.host.leaseHeld = false ∧ t.host.holder = 0 ∧ (s.host.leaseHeld = true → t.host.orphan = true) ∧
          t.host.cbuf = s.host.cbuf ∧ t.sec.ide = [] ∧ t.pwr = p ∧
          (s.host.leaseHeld = false → t = { s with host := t.host, sec := t.sec, pwr := t.pwr }) ∧
          t.job = s.job ∧ t.mem = s.mem ∧ t.blocks = s.blocks
       (s.job.phase ≠ .running ∨ s.host.leaseHeld = false) →
        down .hotReset s.pwr ∧ down (.perstN true) { s.pwr with perstN := false }) ∧
      (s.host.linkUp = false → s.pwr.perstN = true → ∃ t, exec .hostLinkUp s = .next t ∧ t.host.linkUp = true ∧
        t.host.hdmSize = 12 * (64 - s.ncr.cellarGib) * 2 ^ 30 ∧ t.host.hdmBase % 2 ^ 28 = 0 ∧
        t = { s with host := { s.host with linkUp := true, hdmBase := t.host.hdmBase, hdmSize := t.host.hdmSize }
                     free := s.free + 1 })) ∧
    exec (.perstN false) s = .next { s with pwr := { s.pwr with perstN := true } }

/-- Raising cause i, the one operation by which every command of the model sets a bit of HRW_INT_CAUSE, sends MSI-X
vector i where the bit changes from 0 to 1 while its mask bit is 0, and sends nothing where it is 1 already; where
its mask bit is 1 nothing is sent, and HRW_INT_MASK, written with that bit 0 while the cause is still set, sends it.
HRW_INT_CAUSE clears the bits written 1. A mailbox command that completes raises cause 7 and sends vector 7. -/
def Obligations.InterruptCausesSendTheirVectors : Prop :=
  ∀ (s : State) (i : Nat), i < 8 →
    (raise s i).host.cause = s.host.cause ||| BitVec.ofNat 8 (2 ^ i) ∧
    (s.host.cause.getLsbD i = false → s.host.mask.getLsbD i = false → (raise s i).host.msix = s.host.msix ++ [i]) ∧
    (s.host.cause.getLsbD i = true → (raise s i).host.msix = s.host.msix) ∧
    (s.host.cause.getLsbD i = false → s.host.mask.getLsbD i = true → (raise s i).host.msix = s.host.msix ∧
      ∀ v : W64, s.host.linkUp = true → v.getLsbD i = false → ∃ t l, exec (.hrwIntMask v) (raise s i) = .next t ∧
        t.host.msix = s.host.msix ++ l ∧ i ∈ l) ∧
    (s.host.linkUp = true →
      (∀ v : W64, ∃ t l, exec (.hrwIntMask v) s = .next t ∧ t.host.mask = v.setWidth 8 ∧ t.host.cause = s.host.cause ∧
        t.host.msix = s.host.msix ++ l ∧
        (∀ j, j ∈ l ↔ j < 8 ∧ s.host.msixPend.getLsbD j = true ∧ s.host.cause.getLsbD j = true ∧ v.getLsbD j = false) ∧
        t = { s with host := { s.host with mask := t.host.mask, msix := t.host.msix, msixPend := t.host.msixPend } }) ∧
      ∀ v : W64, ∃ t, exec (.hrwIntCause v) s = .next t ∧ t.host.cause = s.host.cause &&& ~~~(v.setWidth 8) ∧
        t.host.msix = s.host.msix ∧ t = { s with host := { s.host with
          cause := t.host.cause, msixPend := t.host.msixPend } }) ∧
    (Safety.Mailbox s → s.host.cause.getLsbD 7 = false → s.host.mask.getLsbD 7 = false →
      ∃ t, exec .placementGet s = .next t ∧ t.host.cause.getLsbD 7 = true ∧ t.host.msix = s.host.msix ++ [7])

/-- With the link up, a write of an emulated register is queued, and beyond 64 it is discarded with em_overflow; the
warden complex applies the oldest, and a ring whose base takes effect starts at index 0 (R327, R329). A ring that is
enabled and has room gets the oldest waiting record at its next entry in host memory, its producer index rises and
its cause is raised; the host moves its consumer index (R329 to R331). LEASE_TAKE of a free lease takes it and ends
orphan mode; LEASE_RENEW by the holder sets a new end; LEASE_RELEASE by the holder and LEASE_EXPIRED enter orphan
mode: cause 4, LEASE_EXPIRED recorded, an in-band interrupt with 0x01, and the functions that may fall back do (R340
to R342). -/
def Obligations.EmulatedRegistersRingsAndLeases : Prop :=
  ∀ s : State,
    let h := s.host
    let host := fun (i : Instr) (h : HostIf) => exec i s = .next { s with host := h }
    let orphan := fun (i : Instr) => s.err.coal = [] → ∃ t, exec i s = .next t ∧
      t.host.leaseHeld = false ∧ t.host.orphan = true ∧ t.host.fallback = h.mode &&& 0x1FF &&& s.ncr.fallback ∧
      t.host.cause.getLsbD 4 = true ∧ t.host.ibi = h.ibi ++ [1] ∧
      (s.hold.state ≠ .run ∨ s.job.phase ≠ .running → Safety.recorded t .leaseExpired) ∧
      (s.job.phase = .running → s.hold.state = .run → h.mode &&& 0x1FF &&& ~~~s.ncr.fallback ≠ 0 →
        t.hold.state = .holding ∧ t.hold.atBoundary = true) ∧
      t = { s with host := t.host, err := t.err, hold := t.hold, free := t.free }
    (h.linkUp = true →
      (∀ (i : Byte) (v : W64), i.toNat < 7 →
        (h.emQueue.length < 64 → host (.emWrite i v) { h with emQueue := h.emQueue ++ [(i.toNat, v, BitVec.allOnes 64)] }) ∧
        (64 ≤ h.emQueue.length → host (.emWrite i v) { h with emOverflow := true })) ∧
      (∀ v : W32, host (.ringCons 0 v) { h with cring := { h.cring with cons := v } } ∧
        host (.ringCons 1 v) { h with ering := { h.ering with cons := v } } ∧
        host (.ringCons 2 v) { h with lring := { h.lring with cons := v } }) ∧
      (∀ c l, h.cring.enable = true → (h.cring.prod - h.cring.cons).toNat < ringEntries 0 h.cring → h.cbuf = c :: l →
        let n := h.cring.prod.toNat
        let e := ringEntries 0 h.cring
        ∃ t, exec (.ringRecordWrite 0) s = .next t ∧
          t.host.mem = (wrHostN s (h.cring.base * 4096 + n % e * 32) (c.bytes n e)).host.mem ∧
          t.host.cring = { h.cring with prod := h.cring.prod + 1 } ∧ t.host.cbuf = l ∧ t.host.cbufStall = false ∧
          t.host.cause.getLsbD 0 = true ∧ t = { s with host := t.host }) ∧
      (∀ r b, h.ering.enable = true → (h.ering.prod - h.ering.cons).toNat < ringEntries 1 h.ering →
        s.err.log.find? (fun e => !e.2) = some (r, b) → ∃ t, exec (.ringRecordWrite 1) s = .next t ∧
          t.host.mem = (wrHostN s (h.ering.base * 4096 + h.ering.prod.toNat % ringEntries 1 h.ering * 64) r.bytes).host.mem ∧
          t.host.ering = { h.ering with prod := h.ering.prod + 1 } ∧ t.err.log.map Prod.fst = s.err.log.map Prod.fst ∧
          (t.err.log.filter fun e => !e.2).length + 1 = (s.err.log.filter fun e => !e.2).length ∧
          t.host.cause.getLsbD 1 = true ∧ t = { s with host := t.host, err := { s.err with log := t.err.log } }) ∧
      (∀ x l, h.lring.enable = true → (h.lring.prod - h.lring.cons).toNat < 32768 → h.logq = x :: l →
        ∃ t, exec (.ringRecordWrite 2) s = .next t ∧
          t.host.mem = (wrHostN s (h.lring.base * 4096 + h.lring.prod.toNat % 32768 * 32) x.bytes).host.mem ∧
          t.host.lring = { h.lring with prod := h.lring.prod + 1 } ∧ t.host.logq = l ∧ t.host.cause.getLsbD 2 = true ∧
          t = { s with host := t.host }) ∧
      (∀ who : W32,
        (h.leaseHeld = false →
          let now := s.hold.state = .held ∨ s.job.phase ≠ .running
          ∃ t, exec (.leaseTake who) s = .next t ∧ t.host.holder = who ∧ t.host.leaseHeld = true ∧
            t.host.leaseEnds = s.tim.now + s.ncr.leaseMs * 1000000 ∧ t.host.orphan = false ∧
            (h.orphan = true → (now → t.host.fallback = 0 ∧ t.host.returning = 0) ∧
              (¬now → t.host.fallback = h.fallback ∧ t.host.returning = h.fallback)) ∧ t = { s with host := t.host }) ∧
        (h.leaseHeld = true → h.holder = who → s.tim.now < h.leaseEnds →
          host (.leaseRenew who) { h with leaseEnds := s.tim.now + s.ncr.leaseMs * 1000000 } ∧
          orphan (.leaseRelease who)))) ∧
    (h.leaseHeld = true → h.leaseEnds ≤ s.tim.now → orphan .leaseExpired) ∧
    (∀ (i : Nat) (v m : W64) l, h.emQueue = (i, v, m) :: l → (∀ p, p ∈ s.pwr.restarting → 4 ≤ p) → i < 7 →
      let w := (emValue s i &&& ~~~m) ||| (v &&& m)
      let r : Ring := { base := fld w 12 40, enable := wbit w 0, log2 := fld w 52 6, prod := 0, cons := 0 }
      host .emWriteApplied { h with
        emQueue := l
        cring := if i = 0 then r else h.cring
        ering := if i = 1 then r else h.ering
        lring := if i = 2 then { r with log2 := 0 } else h.lring
        trace := if 3 ≤ i then h.trace.set 0 (i - 3) w else h.trace })

/-- A mailbox command that is taken answers Success with status OK and its output, and raises cause 7; those marked A
are taken beside a background command too (R332). IDENTIFY gives Table 13.2's fields and the fused versions;
CRASH_RECORD the record, whose valid mark it clears; PLACEMENT_GET the mode and fallback words; HOLD_STATUS,
ORPHAN_LOG and RESTORE_REPORT what their registers and records hold; BG_RESULT the last background result. BG_ABORT
ends the background command with ABORTED, BACKGROUND_COMPLETE with its own result and cause 7 (log 19).
PLACEMENT_SET changes the mode word while no job runs (R41, R336). POWER_CAP sets the cap, at least 600 W and at
most the fused limit. MAINT_BEGIN and MAINT_END open and close a maintenance stop (R384, R386). Nothing else
changes. -/
def Obligations.MailboxCommandsAnswer : Prop :=
  ∀ s : State,
    let ok := fun (i : Instr) (v : State) (out : List Byte) =>
      exec i s = .next (raise { v with host := { v.host with mbx := ⟨.success, .ok, 0, out⟩ } } 7)
    let ends := fun (g : Bg) => { s with
      host := { s.host with bg := none, bgLast := some g }, ckpt := { s.ckpt with busy0 := false, busy1 := false } }
    (Safety.Mailbox { s with host := { s.host with bg := none } } →
      ok .identify s (identityBytes s ++ leBytes 4 (2 ^ s.fuses.bundleSvn - 1) ++ leBytes 4 (2 ^ s.fuses.ncrSvn - 1)) ∧
      ok .crashRecord { s with sec := { s.sec with crashValid := false } }
        ((s.sec.crash.map ErrRec.bytes).getD (List.replicate 64 0) ++ leBytes 1 (bn s.sec.crashValid)) ∧
      ok .fwInfo s (leBytes 8 s.sec.fwVersion.toNat ++ leBytes 8 s.sec.stagedVersion.toNat) ∧
      ok .placementGet s (leBytes 4 s.host.mode.toNat ++ leBytes 4 s.ncr.fallback.toNat) ∧
      ok .holdStatus s (leBytes 8 (nodeHold s) ++ leBytes 8 s.hold.firstHalt ++
        (s.hold.firstCause.map ErrRec.bytes).getD (List.replicate 64 0)) ∧
      ok .orphanLog s (leBytes 8 s.host.orphanHall ++ leBytes 4 s.host.fellBack.toNat ++ leBytes 1 (bn s.host.orphanHeld) ++
        leBytes 4 s.host.orphanFirst ++ leBytes 4 (if s.host.orphan then s.err.seq - 1 else s.host.orphanLast)) ∧
      ok .restoreReport s (reportBytes s) ∧
      (∀ g, s.host.bgLast = some g → ok .bgResult s (leBytes 2 g.opcode ++ g.out.bytes)) ∧
      (s.host.bgLast = none → ok .bgResult s [0, 0]) ∧
      (∀ g, s.host.bg = some g → ok .bgAbort (ends { g with out := ⟨.success, .aborted, 0, []⟩ }) []) ∧
      (s.job.phase ≠ .running → ok .maintBegin { s with sec := { s.sec with maint := true, maintReset := false } } []) ∧
      (s.sec.maint = true → s.sec.staged = false →
        ok .maintEnd { s with sec := { s.sec with maint := false, maintReset := false } } [])) ∧
    (∀ g, s.host.bg = some g → exec .backgroundComplete s = .next (raise (ends g) 7)) ∧
    (Safety.Mailbox s →
      (∀ m : W32, m.toNat ≤ 0x1FF → s.job.phase ≠ .running →
        ok (.placementSet m) { s with host := { s.host with mode := m } } []) ∧
      (∀ w : W16, hostAssisted s 5 = true →
        let cap := max 600 (if w = 0 ∨ s.fuses.powerW < w.toNat then s.fuses.powerW else w.toNat)
        ok (.powerCap w) { s with pwr := { s.pwr with capHost := some cap } } (leBytes 2 cap)))

/-- IMAGE_LOAD, with no image and no failed stack, gives retired blocks their substitutes (R28) and verifies the image
in the host's buffer; with no offence it is loaded under the next load generation, every queue's stream is its
COMMANDS section tagged, and the result gives its digest; with image verification host-assisted it awaits its
verdict; with offences the result is VERIFY with their number, and no image is loaded (R105, R117, R120).
HOST_VERDICT loads or unloads the image that awaits it; IMAGE_UNLOAD clears every stream. PLAN_WRITE puts the host's
plan into a bank that is not active and answers OK or VERIFY by its checks (R51, R53); PLAN_ARM arms the bank at its
epoch where R54 allows. MACSEC_KEY, in an IDE stream, installs the association beside the others of its port (R64,
R361). FW_STAGE of a valid container newer than its slots' writes it to the slot not in use; one that reads back
wrong leaves no container there and answers CHECK (R351, R352). -/
def Obligations.ImagesPlansAndKeysAreLoaded : Prop :=
  ∀ s : State, Safety.Mailbox s →
    let ok := fun (i : Instr) (v : State) (out : List Byte) =>
      exec i s = .next (raise { v with host := { v.host with mbx := ⟨.success, .ok, 0, out⟩ } } 7)
    let started := fun (t : State) (op : Nat) (st : Status) (detail : Nat) (out : List Byte) =>
      t.host.mbx = ⟨.bgStarted, .ok, 0, []⟩ ∧ t.host.bg = some { opcode := op, out := ⟨.success, st, detail, out⟩ }
    (∀ buf : HostBuf, hostBufOk buf = true → s.job.phase = .none → (∀ i, i < 12 → (s.stack i).state ≠ .failed) →
      let bs := rdHostN s buf.addr.toNat buf.len.toNat
      let offences := verify (substitute s) bs
      let gen := nextGen s.job.lastGen
      ∃ t, exec (.imageLoad buf) s = .next t ∧ t.job.report = offences ∧ t.job.reportDigest = imageDigest bs ∧
        (offences = [] → started t 0xC010 .ok 0 (imageDigest bs ++ leBytes 1 gen.toNat) ∧
          t.job.phase = (if hostAssisted s 8 then .awaiting else .loaded) ∧ t.job.image.isSome = true ∧
          t.job.loadGen = gen ∧ ∀ b ∈ gradeBlocks s, ∀ q, t.q b q = { stream := streamOf (sectsOf bs) gen b q }) ∧
        (offences ≠ [] → started t 0xC010 .verify offences.length (imageDigest bs ++ [0]) ∧ t.job.phase = .none ∧
          t.job.image = s.job.image ∧ t.mem = (substitute s).mem ∧ t.blocks = (substitute s).blocks)) ∧
    (∀ digest : Bytes, digest.length = 64 → hostAssisted s 8 = true → s.job.phase = .awaiting →
      s.job.image.map Image.digest = some digest →
      ok (.hostVerdict digest true) { s with job := { s.job with phase := .loaded } } [] ∧
      ok (.hostVerdict digest false) (unloadImage s) []) ∧
    (s.job.phase ≠ .running → ∃ t, exec .imageUnload s = .next t ∧ t.host.mbx = ⟨.success, .ok, 0, []⟩ ∧
      t.job = { s.job with image := none, loadGen := 0, det := false, hostVerified := false, phase := .none } ∧
      (∀ b ∈ gradeBlocks s, ∀ q, t.q b q = {}) ∧ t.mem = s.mem ∧ t.fab = s.fab) ∧
    (∀ (bank : Bool) (k : Byte) (plan : Plan), hostAssisted s 0 = true →
      ((activePlan s).isSome = true → bank ≠ s.fab.activeBank) →
      let p := { plan with k := k.toNat }
      let v := planOk p && planCuts s p
      ∃ t, exec (.planWrite bank k plan) s = .next t ∧
        started t 0xC030 (if v then .ok else .verify) 0 (leBytes 1 s.fab.refusal.toNat) ∧
        t.fab = (if bank then { s.fab with bank1 := { plan := some p, valid := v } }
          else { s.fab with bank0 := { plan := some p, valid := v } }) ∧
        t = { s with fab := t.fab, host := { s.host with mbx := t.host.mbx, bg := t.host.bg } }) ∧
    (∀ (epoch : W64) (bank : Bool), epoch.toNat < 2 ^ 48 → armCause s epoch.toNat bank = 0 →
      ok (.planArm epoch bank) { s with fab := { s.fab with
        epochSlot := epoch.setWidth 48, ctrlBank := bank, ctrlArm := true, armed := some (bank, epoch.toNat)
        espState := if s.fab.espState = .none then .armed else s.fab.espState } } (leBytes 1 s.fab.refusal.toNat)) ∧
    (∀ (port : Byte) (dir : Dir) (an : Byte) (ssci : W32) (salt key : Bytes) (first : W64) (line : Nat),
      keyLine s port.toNat = some line → an.toNat < 4 → salt.length = 12 → key.length = 32 → s.sec.ide ≠ [] →
      ∃ t, exec (.macsecKey true port dir an ssci salt key first) s = .next t ∧ t.host.mbx = ⟨.success, .ok, 0, []⟩ ∧
        (t.port (line / 2)).assocs = ((s.port (line / 2)).assocs.filter fun x =>
          !(x.line == line && x.tx == (dir == .tx) && x.an == an.toNat)) ++
          [{ line := line, tx := dir == .tx, an := an.toNat, ssci := ssci, salt := salt, key := key
             firstPeriod := first.toNat }] ∧
        (∀ p, p ≠ line / 2 → t.port p = s.port p) ∧
        t = { s with fab := { s.fab with ports := t.fab.ports }, host := t.host }) ∧
    (∀ buf : HostBuf, hostBufOk buf = true → s.job.image = none → s.sec.maint = true →
      let bs := rdHostN s buf.addr.toNat (min buf.len.toNat (30 * 2 ^ 20))
      let type := le bs 4 1
      (type = 1 ∨ type = 2 ∨ type = 4 ∧ s.fuses.ownerHash = none) →
      ∃ t, exec (.fwStage buf) s = .next t ∧ t.fuses = s.fuses ∧ t.mem = s.mem ∧ t.job = s.job ∧
        match (validContainer s bs type).filter fun c => (seqsOf s type).all fun q => decide (q < c.seq) with
        | some c => started t 0xC002 (if s.sec.flashBad then .check else .ok) 0 [] ∧
            t.sec.staged = (s.sec.staged || !s.sec.flashBad) ∧
            slotBytes t (stageSlot s type) = (if s.sec.flashBad then [] else bs.take (384 + c.length)) ∧
            ∀ l, l ≠ stageSlot s type → slotBytes t l = slotBytes s l
        | none => started t 0xC002 .verify 0 [] ∧ ∀ l, slotBytes t l = slotBytes s l)

/-- With a host buffer that R333 accepts: CKPT_DRAIN copies a quarter of the cellar to the host, and CKPT_LOAD the other
way while no job runs or the node is HELD; each uses own[g] until it ends (R308, R313). VERIFY_REPORT, HEALTH_REPORT
and the memory tests that read write their bytes to the buffer, cut to its length; HEALTH_LOAD takes earlier records
before any is made (R386; the layouts are the model's, log 38). MARK_LANE marks a lane and records it; REPAIR_ROW
with a spare row and REMAP_LANE with a spare lane, while no job runs, repair them, and in hardware mode of repair
they await a burn (R209, R210). MARGIN_TEST and PATTERN_TEST, with no image loaded, zero the channel and write what
they measure, which nothing fixes (log 23). No other memory changes. -/
def Obligations.HostBuffersAndMemoryTests : Prop :=
  ∀ (s : State), Safety.Mailbox s →
    let started := fun (i : Instr) (v : State) (op : Nat) (out : List Byte) => exec i s = .next { v with host := { v.host with
      mbx := ⟨.bgStarted, .ok, 0, []⟩, bg := some { opcode := op, out := ⟨.success, .ok, 0, out⟩ } } }
    let ok := fun (i : Instr) (v : State) (out : List Byte) =>
      exec i s = .next (raise { v with host := { v.host with mbx := ⟨.success, .ok, 0, out⟩ } } 7)
    (∀ buf : HostBuf, hostBufOk buf = true →
      let put := fun (bs : List Byte) => wrHostN s buf.addr.toNat (bs.take buf.len.toNat)
      let tells := fun (i : Instr) (op : Nat) (bs : List Byte) =>
        started i (put bs) op (leBytes 4 (min buf.len.toNat bs.length))
      let n := min buf.len.toNat (quarterBytes s)
      let busy := fun (v : State) (g : Bool) => { v with ckpt := { v.ckpt with
        busy0 := v.ckpt.busy0 || !g, busy1 := v.ckpt.busy1 || g } }
      (s.job.reportDigest ≠ [] → ok (.verifyReport buf) (put (reportOf s)) (leBytes 4 (min buf.len.toNat (reportOf s).length))) ∧
      ok (.healthReport buf) (put (leBytes 8 (pwrStatus s) ++ leBytes 8 (hltEol s) ++ leBytes 8 (hltAvail s) ++
        s.pwr.daily.flatMap Daily.bytes)) [] ∧
      (s.pwr.daily = [] → ok (.healthLoad buf) { s with pwr := { s.pwr with
          loaded := (List.range (min 90 (buf.len.toNat / 64))).map fun i =>
            dailyOf (rdHostN s (buf.addr.toNat + 64 * i) 64) } } (leBytes 1 (min 90 (buf.len.toNat / 64)))) ∧
      (∀ (g : Bool) (k : BitVec 4), k.toNat < 12 →
        (∀ held : Bool, s.lineFault = [] → (held = true ∨ quarterWritten s g = false) →
          let at_ := quarterNpa s k.toNat (2 * bn held + bn g) 0
          let v := wrHostN (countReads s [⟨at_, n⟩]) buf.addr.toNat (rdN s at_ n)
          started (.ckptDrain held g k buf) (if held then v else busy v g) 0xC050 (leBytes 8 n)) ∧
        (s.lineFault = [] → s.job.phase ≠ .running ∨ s.hold.state = .held →
          let at_ := quarterNpa s k.toNat (bn g) 0
          let bs := rdHostN s buf.addr.toNat n
          started (.ckptLoad g k buf) (busy (wrN (countReads s (partialRuns [⟨at_, bs.length⟩])) at_ bs) g) 0xC051 []) ∧
        (let m := s.stack k.toNat
         let marks := (List.range 32).flatMap fun c => (m.chan c).marks.flatMap fun l => leBytes 1 c ++ leBytes 1 l
         let cands := (s.sec.candidates.filter fun e => e.1 == k.toNat).map Prod.snd
         tells (.readRepairMap k buf) 0xC060 (leBytes 4 m.repairs.length ++ m.repairs.flatMap RowRepair.bytes ++
           leBytes 4 ((remapBytes m).length / 4) ++ remapBytes m ++ marks) ∧
         tells (.readErrorCounts k buf) 0xC061 ((List.range 32).flatMap fun c =>
           leBytes 4 (m.chan c).corrected ++ leBytes 4 (m.chan c).uncorr ++ leBytes 4 (m.chan c).addrErr ++
           (List.range 80).flatMap fun l => leBytes 4 ((m.chan c).perLane.get 0 l)) ∧
         tells (.listCandidates k buf) 0xC062 (leBytes 4 cands.length ++ cands.flatMap RowRepair.bytes ++ marks)) ∧
        (∀ ch : BitVec 5, s.job.image = none →
          let of := fun (x : Nat) => x / 2 ^ 36 = k.toNat ∧ chanOf (x % 2 ^ 36) = ch.toNat
          let test := fun (i : Instr) (op : Nat) => ∃ t, exec i s = .next t ∧
            t.mem = (s.mem.filter fun e => !decide (of e.1)) ∧
            t.lineFault = (s.lineFault.filter fun e => !decide (of (e.1 * 64))) ∧
            t.host.mem = (put (Config.testBytes op s.free)).host.mem ∧
            (t.host.bg.map fun g => (g.opcode, g.out.status)) = some (op, .ok) ∧
            t = { s with mem := t.mem, lineFault := t.lineFault, free := s.free + 1
                         host := { s.host with mem := t.host.mem, mbx := t.host.mbx, bg := t.host.bg } }
          test (.marginTest k ch buf) 0xC066 ∧ test (.patternTest k ch buf) 0xC067))) ∧
    (∀ (k : BitVec 4) (ch : BitVec 5), k.toNat < 12 →
      let m := s.stack k.toNat
      let c := m.chan ch.toNat
      let result := fun (t : State) (op : Nat) =>
        t.host.bg = some { opcode := op, out := ⟨.success, .ok, 0, []⟩ } ∧
        (∀ n, n ≠ k.toNat → t.stack n = s.stack n)
      let chans := fun (t : State) => (∀ n, n ≠ ch.toNat → (t.stack k.toNat).chan n = m.chan n)
      (∀ lane : BitVec 7, lane.toNat < 80 → lane.toNat ∉ c.marks → c.marks.length < 4 → s.err.coal = [] →
        ∃ t, exec (.markLane k ch lane) s = .next t ∧ result t 0xC063 ∧ chans t ∧
          (t.stack k.toNat).chan ch.toNat = { c with marks := c.marks ++ [lane.toNat] } ∧ Safety.recorded t .laneMark ∧
          t = { s with stk := t.stk, err := t.err, hold := t.hold, free := t.free, host := t.host }) ∧
      (s.job.phase ≠ .running →
        (∀ (bank : BitVec 6) (row : BitVec 15) (hard : Bool), s.lineFault = [] →
          let r : RowRepair := { channel := ch.toNat, bank := bank.toNat, row := row.toNat, hard := hard }
          let same := fun (x : RowRepair) => x.channel == r.channel && x.bank == r.bank && x.row == r.row
          rowFree s k.toNat r = true → ∃ t, exec (.repairRow k ch bank row hard) s = .next t ∧ result t 0xC064 ∧
            (t.stack k.toNat).repairs = (m.repairs.filter fun x => !same x) ++ [r] ∧
            (t.stack k.toNat).spareRows = (if m.repairs.any same then m.spareRows else m.spareRows - 1) ∧
            t.sec.candidates = (s.sec.candidates.filter fun e => !(e.1 == k.toNat && same e.2)) ∧
            t.sec.awaitBurn = s.sec.awaitBurn ++ (if hard = false ∧ hostAssisted s 6 = false then [(k.toNat, r)] else []) ∧
            t.mem = s.mem ∧ t.job = s.job ∧ t.err = s.err) ∧
        (∀ lane : BitVec 7, lane.toNat ∈ c.marks → (c.spare0 = none ∨ c.spare1 = none) →
          ∃ t, exec (.remapLane k ch lane) s = .next t ∧ result t 0xC065 ∧ chans t ∧
            (t.stack k.toNat).chan ch.toNat = { c with
              marks := c.marks.filter (· != lane.toNat)
              spare0 := if c.spare0 = none then some lane.toNat else c.spare0
              spare1 := if c.spare0 = none then c.spare1 else some lane.toNat } ∧
            t.sec.awaitLanes = s.sec.awaitLanes ++
              (if hostAssisted s 6 then [] else [(k.toNat, ch.toNat, lane.toNat)]) ∧
            t.mem = s.mem ∧ t.job = s.job ∧ t.err = s.err)))

/-- The processor alone restarts: WDG_RESTART is recorded and cause 5 raised (R334). A warden processor ends the
background command with Internal Error and cause 7 (log 19); the security core fails a checkpoint being signed and
ends every SPDM session (R311, R360); the power core loses nothing; the scheduler core acknowledges a launch in
progress with TIMEOUT (R335, R261) and abandons a cut, whose checkpoint is skipped; a region control core loses the
supervision of queues that stand at a boundary. An abandoned operation of the running job records FW_STEP_TIMEOUT
and takes the node to HOLDING at the present step boundary (R335). RESTART_END ends the restart. Nothing else
changes. -/
def Obligations.FirmwareRestartsLoseTheirWork : Prop :=
  ∀ (s : State) (p : BitVec 4),
    let n := p.toNat
    let boundary := s.job.phase = .running ∧ s.job.started = true ∧ allAtStep s = true
    let timedOut := fun (t : State) => Safety.recorded t .fwStepTimeout ∧
      (s.job.phase = .running → s.hold.state = .run →
        t.hold.state = .holding ∧ t.hold.atBoundary = true ∧ t.host.cause.toNat.testBit 3 = true)
    let ack := fun (h : Held) (tree : Tree) (dst : NodeId) =>
      ({ frame := mkFrame s { type := tControl, opcode := oPrepareAck, dst := dst, subop := treeBit tree
                              opArg := Status.timeout.code, offset := (subtreeAck s h tree .timeout).2, last := true
                              data := leBytes 8 h.msg.launchId.toNat }
         pri := 5 } : OutFrame)
    exec (.restartEnd p) s = .next { s with
      pwr := { s.pwr with restarting := s.pwr.restarting.filter (· != n) } } ∧
    (n ≤ 10 → restarting s n = false → s.host.node ≠ .start → s.err.coal = [] → s.err.log.length < 4000 →
      ∃ t, exec (.watchdogExpiry p) s = .next t ∧
        t.pwr = { s.pwr with restarting := n :: s.pwr.restarting } ∧ t.host.cause.toNat.testBit 5 = true ∧
        (∃ r ∈ t.err.log, r.1.code = .wdgRestart ∧ r.1.unit = n ∧ r.1.seq = s.err.seq) ∧
        (n < 4 → t.host.bg = none ∧ ∀ g, s.host.bg = some g →
          t.host.bgLast = some { g with out := { ret := .internalError } } ∧ t.host.cause.toNat.testBit 7 = true) ∧
        (n = 4 → t.sec = { s.sec with sessions := [] } ∧
          (if s.ckpt.state = .sign then t.ckpt.state = .failed ∧ t.host.cause.toNat.testBit 6 = true else t.ckpt = s.ckpt)) ∧
        (n = 6 →
          (∀ h, s.job.prep = some h → h.committed = false →
            t.job.prep = some { h with copies := 3, ackedA := h.ackedA || h.parentA.isSome
                                       ackedB := h.ackedB || h.parentB.isSome } ∧
            t.fab.ready = s.fab.ready ++ [Tree.A, .B].flatMap fun tree =>
              if h.acked tree = true then [] else ((h.parent tree).map (ack h tree)).toList) ∧
          (s.ckpt.cutting = true → timedOut t ∧
            t.ckpt = { s.ckpt with cutting := false, skipped := satAdd s.ckpt.skipped 1 })) ∧
        (7 ≤ n → boundary → timedOut t) ∧
        ((n = 6 → s.ckpt.cutting = false) → (7 ≤ n → ¬ boundary) →
          t.hold = { s.hold with worst := t.hold.worst, fatal := t.hold.fatal }) ∧
        (n ≠ 4 → t.sec = s.sec ∧ t.stk = s.stk) ∧
        (n ≠ 6 → t.job = s.job ∧ t.fab = s.fab ∧ t.ckpt.cutting = s.ckpt.cutting) ∧
        t = { s with pwr := t.pwr, err := t.err, hold := t.hold, host := t.host, free := t.free, sec := t.sec, stk := t.stk
                     ckpt := t.ckpt, job := t.job, fab := t.fab })

/-- A whole-node reset returns everything to its reset value, memory and keys with it, but fuses, flash slots, fused
repairs, the crash record and the world outside; an armed unlock takes effect at it (R353, R364, R206). RESET_N
falling makes one, though not during a hold, and rising during a hold asks for a start at its end (R399). SELF_RESET
makes one 1 s after a node-fatal event in hardware mode (R31), or asks for the start that the limiter's hold delays
(R379). POWER_ON and POWER_DOWN make one, and the loss of VDD_CT takes the crash record (R353, R368). TAMPER,
SUPPLY_ORDER and LIMIT_TRIP make one with a hold, the crash record telling why, and the last two with an in-band
interrupt and TRIP_N low; a tamper cancels the unlock (R364, R365, R369, R379). RAIL_DROOP of a rail without a
tamper detector is a SUPPLY_ORDER (R370). TAMPER_CLEAR and LIMITER_HOLD_END end their holds (R365, R379). -/
def Obligations.ResetsLeaveFusesFlashAndRetained : Prop :=
  ∀ s : State,
    let cold := fun (i : Instr) (unlock : Bool) (ibis : List Byte) (p : State → Prop) => ∃ t, exec i s = .next t ∧ p t ∧
      t.sec.unlocked = unlock ∧ t.sec.mask = (if unlock then s.sec.armMask else 0) ∧ t.sec.armed = false ∧
      t.sec.sessions = [] ∧ t.sec.ide = [] ∧ t.sec.ak = [] ∧ t.pwr.resetN = (i != .resetN true && s.pwr.resetN) ∧
      (∀ l, slotBytes t l = slotBytes s l) ∧
      (∀ n, (t.stack n).keys = none ∧ (t.stack n).state = .off ∧
        (t.stack n).repairs = (s.stack n).repairs.filter RowRepair.hard) ∧
      t = { ({} : State) with
        pending := s.pending, free := t.free, stk := t.stk, fuses := s.fuses, sec := t.sec, pwr := t.pwr
        host := { ({} : HostIf) with mem := s.host.mem, ibi := s.host.ibi ++ ibis, msix := s.host.msix } }
    let kept := fun (t : State) => t.sec.crash = s.sec.crash ∧ t.sec.crashValid = s.sec.crashValid
    let lost := fun (t : State) => t.sec.crash = none ∧ t.sec.crashValid = false ∧ t.sec.maint = false
    let tells := fun (c : ErrCode) (t : State) =>
      (∃ r, t.sec.crash = some r ∧ r.code = c) ∧ t.sec.crashValid = true ∧ t.pwr.startPending = false
    let only := fun (i : Instr) (w : Power) => exec i s = .next { s with pwr := w }
    let held := heldInReset s
    let p := s.pwr
    (held = false → p.railsUp = true → cold (.resetN true) s.sec.armed [] fun t => kept t ∧ t.pwr.startPending = true) ∧
    (held = true ∨ p.railsUp = false → only (.resetN true) { p with resetN := false }) ∧
    only (.resetN false) { p with resetN := true, startPending := p.startPending || held } ∧
    (p.selfWanted = true → only .selfReset { p with selfWanted := false, startPending := true }) ∧
    (∀ h, p.selfWanted = false → s.host.node = .halted → p.fatalAt = some h → hostAssisted s 4 = false →
      h + 1_000_000_000 ≤ s.tim.hall → cold .selfReset s.sec.armed [] kept) ∧
    (p.railsUp = false → cold .powerOn s.sec.armed [] fun t =>
      kept t ∧ t.pwr.railsUp = true ∧ t.pwr.tamperHold = false ∧ t.pwr.limiterHold = false ∧ t.sec.tamperCount = 0) ∧
    (p.railsUp = true → exec .powerOn s = .next s) ∧
    (∀ b : Bool, cold (.powerDown b) s.sec.armed [] fun t =>
      (if b then lost t else kept t) ∧ t.pwr.railsUp = false ∧ t.pwr.supplyHold = false ∧ t.pwr.tripN = true) ∧
    (∀ (d : Detector) (b : Bool), cold (.tamper d b) false [] fun t =>
      (if b then tells .tamper t else lost t ∧ t.pwr.startPending = false) ∧ t.pwr.tamperHold = true ∧
      t.sec.tamperCount = satAdd s.sec.tamperCount 1) ∧
    (p.tamperHold = true → only .tamperClear { p with tamperHold := false, startPending := true }) ∧
    (∀ r : Rail,
      (cold (.supplyOrder r) s.sec.armed [0x02] fun t =>
        tells .supplyOrder t ∧ t.pwr.supplyHold = true ∧ t.pwr.tripN = false) ∧
      (let watched := r = .vio18 ∨ r = .vddCt ∨ r = .vddFd ∨ r = .vddMs
       exec (.railDroop r) s = if watched ∨ s.host.node = .start then .next s else exec (.supplyOrder r) s)) ∧
    (∀ c : Nat,
      (s.ncr.tripC ≤ c → cold (.limitTrip c) s.sec.armed [0x03] fun t =>
        tells .limitTrip t ∧ t.pwr.limiterHold = true ∧ t.pwr.limiterBelow = s.ncr.throttleC - 10 ∧
        t.pwr.clocksStopped = true ∧ t.pwr.tripN = false ∧ t.pwr.selfWanted = !hostAssisted s 4) ∧
      (c < s.ncr.tripC → exec (.limitTrip c) s = .next s) ∧
      (p.limiterHold = true → c < p.limiterBelow → only (.limiterHoldEnd c) { p with limiterHold := false }) ∧
      (p.limiterBelow ≤ c → exec (.limiterHoldEnd c) s = .next s))

/-- With RESET_N high, no hold, the rails up and every die at 0 degrees or more, a pending start runs (R399, R401). A
pending enrolment is burnt where no owner is fused, and its slot erased (R351). The valid NCR of the higher sequence
is used, or the defaults (R349). With no valid bundle the node is in recovery with its cause, only PD13 to PD16 on
(R347). Else it is READY with the selected bundle: domains on but a fabric die's with no port enabled, each compute
die at its highest level (R372, R375); a block that fails its test retired, awaiting substitution (R39), a column
that does retired with the spare in its place, and with a second one its block (R19, R20); each stack READY with
keys, or FAILED (R206, R212), every line of memory zero; each enabled port up or in training (R354); the fused
security versions raised to those that run (R348). RDY_N falls, SEC_BOOT notes the time, the last step and whether
hall time is locked, and measurements 1 and 7 are taken (R359). -/
def Obligations.StartSequenceReachesReadyOrRecovery : Prop :=
  ∀ (s : State) (e : StartEnv), s.host.node = .start → s.pwr.startPending = true → s.pwr.resetN = true →
    s.pwr.railsUp = true → s.pwr.tamperHold = false → s.pwr.supplyHold = false → s.pwr.limiterHold = false →
    0 ≤ e.minTempC →
    ∃ t, exec (.startSequence e) s = .next t ∧
      (∀ c, s.fuses.ownerHash = none → inSlot s .enrol = some c → e.burnOk = true →
        t.fuses.ownerHash = some (shake256 c.signerKey) ∧ slotBytes t .enrol = []) ∧
      (s.fuses.ownerHash.isSome = true →
        let bundle := if e.flashOk then bestSlot s .bundle0 .bundle1 else none
        let ncr := if e.flashOk then bestSlot s .ncr0 .ncr1 else none
        (∀ l, slotBytes t l = slotBytes s l) ∧
        t.ncr = (match ncr with
          | some (_, c) => ncrOf s.fuses c.payload
          | none => ncrDefault s.fuses) ∧
        t.sec.ncrValid = ncr.isSome ∧ t.host.mode = t.ncr.modeWord ∧
        t.pwr.rdyN = false ∧ t.pwr.startPending = false ∧ t.sec.lastStep = 9 ∧ t.sec.readyMs = e.readyMs ∧
        t.sec.lockedAtReady = (t.tim.state == .locked) ∧
        t.sec.meas.get [] 1 = Config.bootRomDigest ∧ t.sec.meas.get [] 7 = shake256 (fusedState t) ∧
        (s.pwr.perstN = true → t.host.linkUp = true) ∧
        match bundle with
        | none => t.host.node = .recovery ∧ t.sec.boot = 3 ∧ t.sec.recovery = BitVec.ofNat 4 (recoveryCause s e) ∧
            (e.flashOk = false → t.sec.recovery = 3) ∧ t.pwr.domains = 0x1E000 ∧ t.fuses = s.fuses ∧ t.stk = s.stk ∧
            t.mem = s.mem ∧ t.fab = s.fab
        | some (l, c) => t.host.node = .ready ∧ t.sec.boot = 2 ∧ t.sec.bundleSlot = (l == Slot.bundle1) ∧
            t.sec.fwVersion = Config.bundleVersion c.payload ∧
            (∀ d, d < 20 → t.pwr.domains.getLsbD d =
              !((d == 18 && !dieEnabled t 0) || (d == 19 && !dieEnabled t 1))) ∧
            (∀ d, d < 4 → (t.die d).clockMhz = topLevel t d) ∧
            (∀ n b, n < 4 → b < s.fuses.grade.blocksPerRegion → (∀ x ∈ e.columnFails, (x.1, x.2.1) ≠ (n, b)) →
              ((t.region n).dead.getLsbD b = true ↔ (s.region n).dead.getLsbD b = true ∨ (n, b) ∈ e.blockFails) ∧
              ((t.region n).pending.getLsbD b = true ↔ (s.region n).pending.getLsbD b = true ∨ (n, b) ∈ e.blockFails)) ∧
            (∀ n p col row, e.columnFails = [(n, p, col, row)] → n < 4 → p < s.fuses.grade.blocksPerRegion → col < 33 →
              row < 32 →
              let b : Blk := ⟨BitVec.ofNat 2 n, BitVec.ofNat 6 p⟩
              ((s.blk b).tns.retired = none → (t.blk b).tns.retired = some (col, row)) ∧
              ∀ c r, (s.blk b).tns.retired = some (c, r) → c ≠ col → (t.region n).dead.getLsbD p = true) ∧
            (∀ k, k < 12 → if k ∈ e.stackFails then (t.stack k).state = .failed
              else (t.stack k).state = .ready ∧ (t.stack k).keys.isSome = true) ∧
            t.mem = [] ∧ t.lineFault = [] ∧
            (∀ q, q < 8 → (t.port q).link = if (t.ncr.ports.getD q {}).enabled = true
              then (if q ∈ e.portsUp then .up else .training) else (s.port q).link) ∧
            t.fuses = { s.fuses with
              bundleSvn := if e.burnOk then max s.fuses.bundleSvn c.svn else s.fuses.bundleSvn
              ncrSvn := if e.burnOk then max s.fuses.ncrSvn ((ncr.map fun x => x.2.svn).getD 0) else s.fuses.ncrSvn })

/-- Each millisecond a die whose junction is at throttle_c or above goes one level lower, and every die does when power
is above the cap or another die is hot; no clock is raised before its voltage has settled, a faulty regulator holds
its die, a level rises after 10 calm ms, and 0x04 is sent at the first throttle after none (R371, R376, R377). The
limiter halves a die's clock, or all four, not below 1.2 GHz, at once, and the die stays there until it cools to
throttle_c (R378). AVS_SETTLED changes to the clock that waited; AVS_RETRY holds the die with cause 7 (R371).
DAILY_RECORD adds a record, keeps 90, computes the guard, 5 mV for each 10 ps of lost slack (R380), shows no figures
for fewer than 14 records, and sends 0x05 when the 10 % bound first falls below 365 days (R381 to R383). The layout
of a record, and rounding in the fit, are the model's (log 39). Nothing else changes. -/
def Obligations.PowerCoreStepsClocksAndRecordsHealth : Prop :=
  ∀ s : State,
    let lower := fun (m : Nat) => max 1200 (m - 100)
    let throttled := fun (u : State) => ∃ d, d < 4 ∧ (u.die d).clockMhz ≠ 0 ∧ (u.die d).clockMhz < topLevel u d
    let newest := fun (t : State) (d : Nat) =>
      let now := t.pwr.slack.get 0 d
      if now = 0 then 0 else 5 * (((s.fuses.slack0.get 0 d).toNat - now.toNat) / 10)
    (∀ x : ThermalSample, restarting s 5 = false → s.pwr.clocksStopped = false → s.pwr.domains.getLsbD 0 = true →
      let thr := s.ncr.throttleC
      let present := ((List.range 4).map fun d => (s.die d).clockMhz).foldl max 0
      let capHot := capW s < x.powerW
      let otherHot := thr ≤ x.tjOther ∨ 92 ≤ x.tjStack
      ∃ t, exec (.throttle x) s = .next t ∧
        t.pwr.powerW = x.powerW ∧ t.pwr.hotC = x.tjCd.foldl max (max x.tjOther x.tjStack) ∧
        (∀ d, d < 4 →
          let k := s.die d
          let k' := t.die d
          let tj := x.tjCd.getD d 0
          let top := topLevel s d
          k'.tjC = tj ∧ k'.clockMhz ≤ k.clockMhz ∧ k'.halved = (k.halved && decide (thr < tj)) ∧
          (k.regFault = true → k'.clockMhz = k.clockMhz ∧ k'.vddMv = k.vddMv ∧ k'.cause = 7) ∧
          (k.regFault = false → k.halved = false →
            (thr ≤ tj → k'.clockMhz ≤ lower k.clockMhz) ∧
            (capHot ∨ otherHot → k'.clockMhz ≤ lower present) ∧
            (tj + 3 ≤ thr → k.tempMhz ≠ 0 → 9 ≤ k.coolMs →
              k'.tempMhz = if top ≤ k.tempMhz + 100 then 0 else k.tempMhz + 100) ∧
            (tj < thr → ¬ capHot → ¬ otherHot → k.tempMhz = 0 → s.pwr.capMhz = 0 → s.pwr.otherMhz = 0 →
              k.clockMhz ≠ 0 → k.clockMhz < top → k'.clockMhz = k.clockMhz ∧ k'.target = some top ∧
              k'.vddMv = levelMv s d top))) ∧
        ((throttled t ∧ ¬ throttled s → t.host.ibi = s.host.ibi ++ [0x04]) ∧
         (¬ throttled t ∨ throttled s → t.host.ibi = s.host.ibi)) ∧
        t = { s with
          pwr := { s.pwr with
            dies := t.pwr.dies, powerW := t.pwr.powerW, hotC := t.pwr.hotC, capMhz := t.pwr.capMhz
            capCoolMs := t.pwr.capCoolMs, otherMhz := t.pwr.otherMhz, otherCoolMs := t.pwr.otherCoolMs }
          err := t.err, hold := { s.hold with worst := t.hold.worst, fatal := t.hold.fatal }, free := t.free
          host := { s.host with ibi := t.host.ibi } }) ∧
    (∀ x : Option (BitVec 2), ∃ t, exec (.hwThrottle x) s = .next t ∧
      (∀ d, t.die d = if d < 4 ∧ (∀ n, x = some n → d = n.toNat) ∧ (s.die d).clockMhz ≠ 0 then
          let k := s.die d
          let m := max 1200 (k.clockMhz / 2)
          { k with clockMhz := m, vddMv := levelMv s d m, target := none, cause := 4, coolMs := 0
                   tempMhz := if x = none then k.tempMhz else m, halved := decide (x ≠ none) || k.halved }
        else s.die d) ∧
      t = { s with pwr := { s.pwr with
        hwThrottle := true, dies := t.pwr.dies, capMhz := if x = none then 1200 else s.pwr.capMhz
        capCoolMs := if x = none then 0 else s.pwr.capCoolMs } }) ∧
    (∀ die : BitVec 2,
      let d := die.toNat
      let k := s.die d
      (k.target = none → exec (.avsSettled die) s = .next s ∧ exec (.avsRetry die) s = .next s) ∧
      (∀ m, k.target = some m →
        exec (.avsSettled die) s = .next (s.setDie d { k with
          clockMhz := m, vddMv := levelMv s d m, target := none, regFault := false
          cause := if k.cause = 7 then 0 else k.cause }) ∧
        (s.err.coal = [] → ∃ t, exec (.avsRetry die) s = .next t ∧ Safety.recorded t .throttle ∧
          t.die d = { k with regFault := true, cause := 7, vddMv := levelMv s d k.clockMhz } ∧
          (∀ n, n ≠ d → t.die n = s.die n) ∧
          t = { s with pwr := { s.pwr with dies := t.pwr.dies }, err := t.err, free := t.free
                       hold := { s.hold with worst := t.hold.worst, fatal := t.hold.fatal } }))) ∧
    (∀ h : HealthSample, ∃ t, exec (.dailyRecord h) s = .next t ∧
      (∃ r, t.pwr.daily = (s.pwr.daily ++ [r]).drop (s.pwr.daily.length + 1 - 90) ∧
        r.slackPs = minimum h.slackPs ∧ r.eyeMv = h.eyeMv ∧
        r.hbmCorr = ((List.range 12).map fun i => (s.stack i).dayCorrected).sum ∧
        r.spares = minimum ((List.range 12).map fun i => (s.stack i).spareRows.toNat)) ∧
      (∀ n, t.stack n = { s.stack n with dayCorrected := 0 }) ∧
      (∀ d, d < h.slackPs.length → t.pwr.slack.get 0 d = BitVec.ofNat 16 (h.slackPs.getD d 0)) ∧
      (∀ d, d < 4 → t.pwr.guard.get 0 d = BitVec.ofNat 8 (newest t d)) ∧
      (t.pwr.daily.length + s.pwr.loaded.length < 14 →
        t.pwr.p50 = 0xFFFF ∧ t.pwr.p10 = 0xFFFF ∧ t.pwr.p90 = 0xFFFF ∧ t.pwr.eolValid = false) ∧
      t.host.ibi = s.host.ibi ++
        (if t.pwr.eolValid = true ∧ t.pwr.p10.toNat < 365 ∧ 365 ≤ s.pwr.p10.toNat then [0x05] else []) ∧
      t = { s with
        pwr := { s.pwr with
          daily := t.pwr.daily, slack := t.pwr.slack, ro := t.pwr.ro, guard := t.pwr.guard, p50 := t.pwr.p50
          p10 := t.pwr.p10, p90 := t.pwr.p90, mech := t.pwr.mech, eolValid := t.pwr.eolValid }
        stk := t.stk, free := s.free + 1, host := { s.host with ibi := t.host.ibi } })

/-- Over the link HRW_INT_MASK stores the mask and HRW_INT_CAUSE clears the causes written 1 (R328). THROTTLE, while the
power core runs with the clocks and PD0 on, samples the power and every die's junction (R376). HW_THROTTLE of a die
with a clock halves it, not below 1.2 GHz, and shows hw_throttle (R378). Where a die waits for a voltage,
AVS_SETTLED changes to the clock that waited for it, and AVS_RETRY holds the die with cause 7 (R371). DAILY_RECORD
adds a record and keeps 90 (R381). Each answers a next state under these conditions alone. -/
def Obligations.PowerAndInterruptRowsComplete : Prop :=
  ∀ s : State,
    (s.host.linkUp = true → ∀ v : W64,
      (∃ t, exec (.hrwIntMask v) s = .next t ∧ t.host.mask = v.setWidth 8) ∧
      ∃ t, exec (.hrwIntCause v) s = .next t ∧ t.host.cause = s.host.cause &&& ~~~(v.setWidth 8)) ∧
    (restarting s 5 = false → s.pwr.clocksStopped = false → s.pwr.domains.getLsbD 0 = true → ∀ x : ThermalSample,
      ∃ t, exec (.throttle x) s = .next t ∧ t.pwr.powerW = x.powerW ∧
        ∀ d, d < 4 → (t.die d).tjC = x.tjCd.getD d 0) ∧
    (∀ d : BitVec 2, (s.die d.toNat).clockMhz ≠ 0 → ∃ t, exec (.hwThrottle (some d)) s = .next t ∧
      t.pwr.hwThrottle = true ∧ (t.die d.toNat).clockMhz = max 1200 ((s.die d.toNat).clockMhz / 2)) ∧
    (∀ (d : BitVec 2) (m : Nat), (s.die d.toNat).target = some m →
      (∃ t, exec (.avsSettled d) s = .next t ∧ (t.die d.toNat).clockMhz = m ∧ (t.die d.toNat).target = none) ∧
      ∃ t, exec (.avsRetry d) s = .next t ∧ (t.die d.toNat).regFault = true ∧ (t.die d.toNat).cause = 7) ∧
    ∀ h : HealthSample, ∃ t, exec (.dailyRecord h) s = .next t ∧ t.pwr.daily ≠ [] ∧
      (s.pwr.daily.length ≤ 90 → t.pwr.daily.length = min 90 (s.pwr.daily.length + 1))

/-- While the rails stand, a JTAG instruction is noted and shifts out: IDCODE its grade's code, BYPASS one zero bit, the
boundary-scan instructions the pads while RESET_N is held and else a bypass (log 22), DBG_CHALLENGE the nonce,
DBG_STATUS what the last token came to (R362). DBG_TOKEN draws a new nonce, and a valid owner's token that carries
the present one arms unlock with its level mask; status 4 tells that no owner is fused, 2 a container that is not
valid, 3 another nonce (R362, R363). The I3C target answers a private read at its dynamic address with 32 bytes, the
last held in reset, and takes an address by ENTDAA or SETDASA where it has none (R387, R397). Without rails nothing
answers. Nothing else changes. -/
def Obligations.JtagAndI3cRowsAnswer : Prop :=
  ∀ s : State,
    let shifts := fun (i : Instr) (n : Nat) (out : List Byte) => exec i s = .next { s with
      pwr := { s.pwr with jtag := n }, host := { s.host with answer := out, poison := false } }
    (s.pwr.railsUp = true →
      shifts .idcode 0 (leBytes 4 (if s.fuses.grade = .A then 0x13A5_0E35 else 0x13A5_1E35)) ∧
      shifts .bypass 1 [0] ∧ shifts .dbgChallenge 4 s.sec.nonce ∧ shifts .dbgStatus 6 (leBytes 1 s.sec.dbgStatus) ∧
      (s.pwr.resetN = true → shifts .samplePreload 1 [0] ∧ shifts .extest 1 [0]) ∧
      (s.pwr.resetN = false → ∀ i n, (i, n) ∈ [(Instr.samplePreload, 2), (Instr.extest, 3)] → exec i s = .next { s with
        free := s.free + 1, pwr := { s.pwr with jtag := n }
        host := { s.host with answer := Config.boundaryScan s.free, poison := false } }) ∧
      (∀ token : Bytes, ∃ t, exec (.dbgToken token) s = .next t ∧
        t.pwr = { s.pwr with jtag := 5 } ∧ t.sec.nonce = entropy s.free 32 ∧
        (s.fuses.ownerHash = none → t.sec.dbgStatus = 4) ∧
        (s.fuses.ownerHash.isSome = true → t.sec.dbgStatus = match validContainer s token 3 with
          | none => 2
          | some c => if c.payload.take 32 = s.sec.nonce then 1 else 3) ∧
        t.sec.armed = (s.sec.armed || t.sec.dbgStatus == 1) ∧
        t.sec.armMask = (if t.sec.dbgStatus = 1 then BitVec.ofNat 32 (le token 416 4) else s.sec.armMask) ∧
        t = { s with
          free := s.free + 32, pwr := t.pwr, host := { s.host with answer := [], poison := false }
          sec := { s.sec with
            nonce := t.sec.nonce, dbgStatus := t.sec.dbgStatus, armed := t.sec.armed, armMask := t.sec.armMask } }) ∧
      (∀ a : BitVec 7,
        (s.pwr.i3cAddr = none → ∀ i ∈ [Instr.entdaa a, .setdasa a],
          exec i s = .next { s with pwr := { s.pwr with i3cAddr := some a } }) ∧
        (s.pwr.i3cAddr.isSome = true → exec (.entdaa a) s = .next s ∧ exec (.setdasa a) s = .next s)) ∧
      (s.pwr.i3cAddr.isSome = true → ∃ out, exec .i3cPrivateRead s = .next { s with
          host := { s.host with answer := out, poison := false } } ∧
        out.length = 32 ∧
        (s.host.node ≠ .start → out = leBytes 8 (pwrStatus s) ++ leBytes 8 (hltEol s) ++ leBytes 8 (hltAvail s) ++
          leBytes 8 (secStatus s)) ∧
        (s.host.node = .start → s.pwr.i3cImage.length = 32 → out = s.pwr.i3cImage))) ∧
    (s.pwr.railsUp = false → ∀ (a : BitVec 7) (token : Bytes),
      ∀ i ∈ [Instr.idcode, .bypass, .dbgChallenge, .dbgToken token, .dbgStatus, .i3cPrivateRead, .entdaa a, .setdasa a],
        exec i s = .next s)

/-- Over the link, once the node is past start, GET_VERSION answers 1.2 and 1.3 and begins the connection;
GET_CAPABILITIES and NEGOTIATE_ALGORITHMS follow it in order (R360). GET_DIGESTS gives SHA3-512 of the chain of slot
0, GET_CERTIFICATE a portion with the bytes that remain (R358); CHALLENGE and GET_MEASUREMENTS are signed with the
AK, and the measurements are those of Table 14.7, one, all seven or their number (R359). KEY_EXCHANGE opens one of
at most four sessions and FINISH brings it up, or ends it where it does not verify; HEARTBEAT, KEY_UPDATE,
END_SESSION and IDE_KM work in a session that is up, the last installing a stream's key (R357, R360). While the
security core restarts the answer is busy; a request out of order is unexpected. The messages are the model's at
message level (log 22). Nothing else changes. -/
def Obligations.SpdmRequestsAreAnswered : Prop :=
  ∀ s : State, s.host.linkUp = true → s.host.node ≠ .start →
    let replies := fun (i : Instr) (c : Sec) (out : List Byte) => exec i s = .next { s with
      sec := c, host := { s.host with answer := out, poison := false } }
    let sec := s.sec
    let refused := fun (i : Instr) (code : Byte) => replies i sec [0x7F, code]
    let cert := Config.certChain (Config.ed448Public sec.ak)
    let block := fun (i : Nat) => slice (sec.meas.get [] i) 0 64
    let summary := sha3_512 ((List.range 7).flatMap fun i => block (i + 1))
    let signedBy := fun (code : Nat) (asked out : List Byte) =>
      out ++ Config.ed448Sign sec.ak (Config.spdmBytes code (asked ++ out))
    let up := fun (id : W32) => (sec.sessions.find? fun x => x.id == id).any Spdm.up
    let opened := fun (id : W32) => (sec.sessions.find? fun x => x.id == id).any fun x => !x.up
    (restarting s 4 = true → refused .getVersion 0x03 ∧ refused .getDigests 0x03 ∧
      (∀ id, refused (.heartbeat id) 0x03) ∧ ∀ a b c, refused (.keyExchange a b c) 0x03) ∧
    (restarting s 4 = false →
      replies .getVersion { sec with spdmVersion := true, spdmCaps := false, spdmAlgs := false } [0x12, 0x13] ∧
      (∀ v : Byte,
        (sec.spdmVersion = false → refused (.getCapabilities v) 0x04) ∧
        (sec.spdmVersion = true → if v = 0x12 ∨ v = 0x13
          then replies (.getCapabilities v) { sec with spdmCaps := true, spdmAlgs := false } (Config.spdmBytes 0x61 [v])
          else refused (.getCapabilities v) 0x41)) ∧
      (∀ a b c d : Bool,
        (sec.spdmCaps = false → refused (.negotiateAlgorithms a b c d) 0x04) ∧
        (sec.spdmCaps = true → replies (.negotiateAlgorithms a b c d) { sec with spdmAlgs := a && b && c && d }
          [BitVec.ofNat 8 (bn a), BitVec.ofNat 8 (bn b), BitVec.ofNat 8 (bn c), BitVec.ofNat 8 (bn d)])) ∧
      (sec.spdmAlgs = false → refused .getDigests 0x04 ∧ (∀ a b c, refused (.keyExchange a b c) 0x04) ∧
        ∀ a b, refused (.getMeasurements a b) 0x04) ∧
      (sec.spdmAlgs = true →
        replies .getDigests sec (1 :: sha3_512 cert) ∧
        (∀ (slot : Byte) (off len : W16), if slot = 0 ∧ off.toNat ≤ cert.length
          then
            let part := (cert.drop off.toNat).take len.toNat
            replies (.getCertificate slot off len) sec
              (leBytes 2 part.length ++ leBytes 2 (cert.length - off.toNat - part.length) ++ part)
          else refused (.getCertificate slot off len) 0x01) ∧
        (∀ (slot : Byte) (nonce : Bytes), if slot = 0
          then replies (.challenge slot nonce) sec (signedBy 0x03 nonce (sha3_512 cert ++ summary))
          else refused (.challenge slot nonce) 0x01) ∧
        (∀ (i : Byte) (nonce : Option Bytes), (i.toNat ≤ 7 ∨ i = 0xFF) →
          let out := if i = 0 then [7]
            else if i = 0xFF then (List.range 7).flatMap fun j => leBytes 1 (j + 1) ++ block (j + 1)
            else leBytes 1 i.toNat ++ block i.toNat
          replies (.getMeasurements i nonce) sec (match nonce with
            | some n => signedBy 0x60 n out
            | none => out)) ∧
        (∀ (i : Byte) (nonce : Option Bytes), 7 < i.toNat → i ≠ 0xFF → refused (.getMeasurements i nonce) 0x01) ∧
        (∀ (slot : Byte) (half : W16) (x : Bytes),
          (slot ≠ 0 → refused (.keyExchange slot half x) 0x01) ∧
          (slot = 0 → 4 ≤ sec.sessions.length → refused (.keyExchange slot half x) 0x0A) ∧
          (slot = 0 → sec.sessions.length < 4 →
            let own := sec.nextSession % 2 ^ 16
            replies (.keyExchange slot half x)
              { sec with
                nextSession := sec.nextSession + 1
                sessions := sec.sessions ++
                  [{ id := BitVec.ofNat 32 (half.toNat + own * 65536), up := false, keyGen := 0 }] }
              (signedBy 0x64 x (leBytes 2 own ++ summary))))) ∧
      (∀ id : W32,
        let others := sec.sessions.filter fun x => x.id != id
        (opened id = true →
          replies (.finish id true) { sec with
            sessions := sec.sessions.map fun x => if x.id = id then { x with up := true } else x } [] ∧
          replies (.finish id false) { sec with sessions := others } [0x7F, 0x06]) ∧
        (opened id = false → ∀ v, refused (.finish id v) 0x04) ∧
        (up id = false → refused (.heartbeat id) 0x04 ∧ refused (.keyUpdate id) 0x04 ∧ refused (.endSession id) 0x04 ∧
          ∀ n key, refused (.ideKm id n key) 0x04) ∧
        (up id = true →
          replies (.heartbeat id) sec [] ∧
          replies (.keyUpdate id) { sec with
            sessions := sec.sessions.map fun x => if x.id = id then { x with keyGen := x.keyGen + 1 } else x } [] ∧
          replies (.endSession id) { sec with sessions := others } [] ∧
          (∀ (n : Byte) (key : Bytes), replies (.ideKm id n key) { sec with
            ide := (sec.ide.filter fun e => e.1 != n.toNat) ++ [(n.toNat, key)] } []))))

/-- A saturation counter read is answered and cleared (R34); the same row, below 16 MiB, is the host's read of the HRW
(log 70). A 1 written to BLK_FLAGS or PAN_FLAGS clears its bit (R92). A write of the HRW by the host does what its
register's own row does, a 1 clears em_overflow, the view of internal registers ignores writes, and an access out of
the window, of a size or alignment not allowed, or poisoned is its kind of Table 11.7 (R326). Firmware writes
ESP_CTRL, FCO_APT, hw_throttle, PAN_RAKE and the flags under their access codes, and a read-only register ignores it
(R10). A hart in M writes FCO_APT, any hart msip and FCO_HART_TCMP; every other store to a register takes the access
fault, and a misaligned one the alignment fault (R271). The rake's line that decodes clean moves it on; an
uncorrectable one is counted and recorded with RAKE_UNCORR (R207); after the last line the next pass begins with the
period as written. REFRESH changes nothing (R184, R185). -/
def Obligations.RegistersAreReadAndWritten : Prop :=
  ∀ s : State,
    let answered := fun (npa : Nat) (u : State) (v : W64) => exec (.satCounterRead (BitVec.ofNat 64 npa)) s = .next { u with
      host := { s.host with answer := leBytes 8 v.toNat, poison := false, ur := 0 } }
    (answered 0x300_0000_0100 { s with satUzl := 0 } s.satUzl ∧ answered 0x300_0000_0108 { s with satCxl := 0 } s.satCxl) ∧
    (∀ o, o < 0x100_0000 → o % 8 = 0 → s.host.linkUp = true →
      let u := (hrwRead s o).2
      exec (.satCounterRead (BitVec.ofNat 64 o)) s = .next { u with
        host := { u.host with answer := leBytes 8 (hrwRead s o).1, poison := false, ur := 0 } }) ∧
    (∀ n, n < 4 →
      let r := s.region n
      answered (0x300_0010_0100 + 0x1_0000 * n) (s.setRegion n { r with satMesh := 0 }) r.satMesh ∧
      answered (0x300_0010_0108 + 0x1_0000 * n) (s.setRegion n { r with satMc := 0 }) r.satMc) ∧
    (∀ b : Blk, b.block.toNat < s.fuses.grade.blocksPerRegion →
      let k := s.blk b
      let base := 0x300_0100_0000 + 0x1000 * b.key
      answered (base + 0x100) (s.setBlk b { k with satBank := 0 }) k.satBank ∧
      answered (base + 0x108) (s.setBlk b { k with satStm := 0 }) k.satStm ∧
      answered (base + 0x110) (s.setBlk b { k with satEvt := 0 }) k.satEvt) ∧
    (∀ (b : Blk) (v : W64), exec (.blkFlags b v) s = .next
      (if b.block.toNat < s.fuses.grade.blocksPerRegion
       then s.setBlk b { s.blk b with flags := (s.blk b).flags &&& ~~~ v.setWidth 16 } else s)) ∧
    (∀ (st : BitVec 4) (v : W64), exec (.panFlags st v) s = .next
      (if st.toNat < 12
       then s.setStack st.toNat { s.stack st.toNat with flags := (s.stack st.toNat).flags &&& ~~~ v.setWidth 4 } else s)) ∧
    (let w := fun (o size : Nat) (v : W64) (poison : Bool) =>
      exec (.registerWrite .host (BitVec.ofNat 64 o) size v poison) s
     (s.host.linkUp = false → ∀ o size v p, w o size v p = .next s) ∧
     (s.host.linkUp = true → ∀ v : W64,
       w 0x30_0010 8 v false = exec (.hrwIntCause v) s ∧ w 0x30_0018 8 v false = exec (.hrwIntMask v) s ∧
       w 0x30_0000 8 v false = .next { s with
         host := { s.host with emOverflow := s.host.emOverflow && !v.getLsbD 6 } } ∧
       (∀ r : BitVec 2, r.toNat < 3 → w (0x30_0020 + 8 * r.toNat) 8 v false = exec (.ringCons r ((v >>> 32).setWidth 32)) s) ∧
       (∀ i, i < 7 → w (0x40_0000 + 8 * i) 8 v false = exec (.emWrite (BitVec.ofNat 8 i) v) s) ∧
       (v.toNat / 2 ^ 32 % 32 = 1 → w 0x30_0008 8 v false = exec (.leaseTake (v.setWidth 32)) s) ∧
       (v.toNat / 2 ^ 32 % 32 = 2 → w 0x30_0008 8 v false = exec (.leaseRenew (v.setWidth 32)) s) ∧
       (v.toNat / 2 ^ 32 % 32 = 3 → w 0x30_0008 8 v false = exec (.leaseRelease (v.setWidth 32)) s) ∧
       (∀ o, 0x80_0000 ≤ o → o + 8 ≤ 0x100_0000 → o % 8 = 0 → w o 8 v false = .next s) ∧
       (∀ o size p, o < 2 ^ 64 → 0x100_0000 < o + size → w o size v p = exec (.cxlProtocol (.badFunctionOrBar false) []) s) ∧
       (∀ o size p, o + size ≤ 0x100_0000 → (size ≠ 4 ∧ size ≠ 8) ∨ o % size ≠ 0 →
         w o size v p = exec (.cxlProtocol (.badHrwAccess false) []) s) ∧
       (∀ o, o + 8 ≤ 0x100_0000 → o % 8 = 0 → w o 8 v true = exec (.cxlProtocol .poisonedTlp []) s))) ∧
    (let w := fun (o : Nat) (v : W64) => exec (.registerWrite .firmware (BitVec.ofNat 64 (0x300_0000_0000 + o)) 8 v false) s
     ∀ v : W64,
       (v.getLsbD 49 = false → v.getLsbD 50 = false → w 0x2_0000 v = .next { s with
         fab := { s.fab with epochSlot := v.setWidth 48, ctrlBank := v.getLsbD 48 } }) ∧
       (∀ i, i < 4096 → w (0x5_0000 + 8 * i) v = .next { s with apt := s.apt.set 0 i (v &&& 0x03FF_FFFF_FFFF_FFFF) }) ∧
       w 0x9_0000 v = .next { s with pwr := { s.pwr with hwThrottle := s.pwr.hwThrottle && !v.getLsbD 44 } } ∧
       (∀ st : BitVec 4, st.toNat < 12 →
         w (0x4_0008 + 0x1000 * st.toNat) v = exec (.panFlags st v) s ∧
         w (0x4_0018 + 0x1000 * st.toNat) v = .next (if 1 ≤ v.toNat % 256 ∧ v.toNat % 256 ≤ 168
           then s.setStack st.toNat { s.stack st.toNat with rakePeriod := v.setWidth 8 } else s)) ∧
       (∀ b : Blk, w (0x100_0040 + 0x1000 * b.key) v = exec (.blkFlags b v) s) ∧
       ∀ o ∈ [0x000, 0x008, 0x010, 0x100, 0x108, 0x200, 0x300, 0x310], w o v = .next s) ∧
    (∀ h : BitVec 6, (s.hart h).state = .running →
      let w := fun (o : Nat) (size : Nat) (v : W64) =>
        exec (.registerWrite (.hart h) (BitVec.ofNat 64 (0x300_0000_0000 + o)) size v false) s
      let traps := fun (o c : Nat) => Host.Outcome.next (takeTrap s h false c (BitVec.ofNat 64 (0x300_0000_0000 + o)))
      ∀ v : W64,
        (∀ i, i < 4096 → w (0x5_0000 + 8 * i) 8 v = if (s.hart h).priv = .M
          then .next { s with apt := s.apt.set 0 i (v &&& 0x03FF_FFFF_FFFF_FFFF) } else traps (0x5_0000 + 8 * i) 7) ∧
        (∀ g : BitVec 6, hartPresent s g = true →
          w (0x5_9000 + 16 * g.toNat) 8 v = .next (s.updHart g fun t => { t with msip := v.getLsbD 6 }) ∧
          w (0x5_9008 + 16 * g.toNat) 8 v = .next (s.updHart g fun t => { t with tcmp := v })) ∧
        (∀ o ∈ [0x000, 0x200, 0x2_0000, 0x9_0000, 0x100_0040], w o 8 v = traps o 7) ∧
        w 0x5_0004 8 v = traps 0x5_0004 6 ∧ w 0x5_0000 4 v = traps 0x5_0000 7) ∧
    (∀ st : BitVec 4, st.toNat < 12 → (s.stack st.toNat).state = .ready →
      let k := s.stack st.toNat
      let line := st.toNat * 2 ^ 30 + k.rakeLine
      let moved := fun (u : Stack) => if k.rakeLine + 1 = 2 ^ 30
        then { u with rakeLine := 0, rakePasses := k.rakePasses + 1, rakePeriodNow := k.rakePeriod }
        else { u with rakeLine := k.rakeLine + 1 }
      k.rakeLine < 2 ^ 30 →
      (decodeLine s line true true = .good → exec (.rakeRead st) s = .next { s.setStack st.toNat (moved k) with
        decoded := bumpDecoded s.decoded line }) ∧
      (decodeLine s line true true = .uncorr → s.err.coal = [] → s.err.log.length < 4000 → ∃ t, exec (.rakeRead st) s = .next t ∧
        (∃ r ∈ t.err.log, r.1.code = .rakeUncorr ∧ s.err.seq ≤ r.1.seq) ∧
        t.stack st.toNat = moved { k with uncorr := satAdd k.uncorr 1, chans := (t.stack st.toNat).chans } ∧
        (∀ n, n ≠ st.toNat → t.stack n = s.stack n) ∧
        t = { s with stk := t.stk, err := t.err, hold := { s.hold with worst := t.hold.worst, fatal := t.hold.fatal }
                     free := t.free, sec := { s.sec with candidates := t.sec.candidates }
                     decoded := bumpDecoded s.decoded line })) ∧
    (∀ (st : BitVec 4) (ch : BitVec 5), exec (.refresh st ch) s = .next s)

/-- For every integer format and every mode of Table 03.7, a NaN gives 0 and NV, an infinity the limit of its sign and
NV, and a finite value v the integer to which v rounds: nearest with ties to even, toward zero, up, down, or,
stochastically, away from zero exactly when the draw is below the fraction's first 32 bits, with a magnitude beyond
the limit rounding to nearest. An integer outside the format's range gives its nearest limit and NV; one inside it
is the result, with NX when the rounding was inexact, and UF beside it when a nonzero value came to 0 (R91). The
result is coded in two's complement. -/
def Obligations.IntegerResultsRoundAndSaturate : Prop :=
  ∀ (f : Fmt) (r : Rnd) (u : Nat), f.isInt = true → r ≠ .rmm →
    let lo := f.range.1
    let hi := f.range.2
    let gives := fun (y : Nat × Fl) (i : Int) (fl : Fl) => (y.1 : Int) = i % ((2 ^ f.bits : Nat) : Int) ∧ y.2 = fl
    gives (f.round r u .nan) 0 Fl.nv ∧
    (∀ neg : Bool, gives (f.round r u (.inf neg)) (if neg then lo else hi) Fl.nv) ∧
    (∀ (neg : Bool) (m : Nat) (e : Int),
      let mag : ℚ := (m : ℚ) * (2 : ℚ) ^ e
      let v : ℚ := if neg then -mag else mag
      let nearest : Int := if v - ⌊v⌋ < 1 / 2 then ⌊v⌋ else if 1 / 2 < v - ⌊v⌋ then ⌊v⌋ + 1
        else if ⌊v⌋ % 2 = 0 then ⌊v⌋ else ⌊v⌋ + 1
      let away : Int := if (u : Int) < ⌊(mag - ⌊mag⌋) * 2 ^ 32⌋ then 1 else 0
      let i : Int := match r with
        | .rtz => if neg then -⌊mag⌋ else ⌊mag⌋
        | .rup => ⌈v⌉
        | .rdn => ⌊v⌋
        | .rsd => if (((if neg then lo.natAbs else hi.natAbs) : Nat) : ℚ) < mag then nearest
            else if neg then -(⌊mag⌋ + away) else ⌊mag⌋ + away
        | _ => nearest
      let y := f.round r u (.fin neg m e)
      if i < lo then gives y lo Fl.nv
      else if hi < i then gives y hi Fl.nv
      else gives y i (if (i : ℚ) = v then 0 else if i = 0 then Fl.uf ||| Fl.nx else Fl.nx))

/-- After reset no command waits, memory lists nothing and reads as zero, the node is in START with no job, every stack
is OFF without keys, no port is up, no hart runs, the time unit is FREE and out of service. The registers read their
stated reset values: PAN_RAKE 24 h, every compute die at 750 mV with no clock, HLT_EOL 0xFFFF three times and not
valid, RGN_BLOCKS all blocks of the grade live with both coppice blocks free, HRW_INT_MASK 0xFF, and zero in
NODE_STEP, NODE_HOLD, the error counts, NODE_CKPT_STATUS, ESP_CTRL, the saturation counters, HRW_LEASE,
HRW_INT_CAUSE, the ring indices and HRW_EM_PENDING (01, 02, 07, 11 to 15). Values that the spec leaves open at reset
are the model's and are not stated here (log 24). -/
def Obligations.ResetLeavesTheStatedValues : Prop :=
  let s := State.reset
  let reads := fun (o v : Nat) => (regRead s o).1 = v
  s.pending = [] ∧ s.mem = [] ∧ (∀ n, (place s n).key.isSome = true → rd s n = 0) ∧ s.host.node = .start ∧
  s.job.phase = .none ∧ s.hold.state = .run ∧ s.tim.state = .free ∧ s.tim.service = false ∧
  (∀ n, (s.stack n).state = .off ∧ (s.stack n).keys = none) ∧ (∀ p, (s.port p).link = .down) ∧
  (∀ h, (s.hart h).state ≠ .running) ∧
  (∀ n, n < 12 → reads (0x4_0018 + 0x1000 * n) 24) ∧ (∀ n, n < 4 → reads (0x9_0100 + 8 * n) (750 * 2 ^ 16)) ∧
  reads 0xA_0000 0xFFFF_FFFF_FFFF ∧
  (∀ n, n < 4 → reads (0x10_0000 + 0x1_0000 * n) (2 ^ s.fuses.grade.blocksPerRegion - 1 + 3 * 2 ^ 32) ∧
    reads (0x10_0008 + 0x1_0000 * n) 0 ∧ reads (0x10_0010 + 0x1_0000 * n) 0 ∧ reads (0x10_0100 + 0x1_0000 * n) 0 ∧
    reads (0x10_0108 + 0x1_0000 * n) 0) ∧
  (∀ o ∈ [0x100, 0x108, 0x200, 0x300, 0x310, 0x400, 0x2_0000], reads o 0) ∧
  (hrwRead s 0x30_0018).1 = 0xFF ∧
  (∀ o ∈ [0x30_0008, 0x30_0010, 0x30_0020, 0x30_0028, 0x30_0030, 0x30_0038, 0x20_1000], (hrwRead s o).1 = 0)
end

