-- ==== Sys2Proof/Laws/Tables.lean ====
section
/-!
SUPPORT. Sparse tables: reading after setting, and the canonical form that every operation keeps.
-/
namespace Sys2Proof.Laws

open Sys2Proof.Machine

variable {V : Type}

/-- A table without a key is the table filtered. -/
theorem erase_eq_filter (m : SMap V) (k : Nat) : SMap.erase m k = m.filter fun e => e.1 ≠ k := by
  induction m with
  | nil => rfl
  | cons e m ih =>
    obtain ⟨a, v⟩ := e
    by_cases h : a = k
    · simp [SMap.erase, h, ih]
    · simp [SMap.erase, h, ih]

theorem mem_ins {m : SMap V} {k : Nat} {v : V} {e : Nat × V} : e ∈ SMap.ins m k v ↔ e = (k, v) ∨ e ∈ m := by
  induction m with
  | nil => simp [SMap.ins]
  | cons x m ih =>
    obtain ⟨a, w⟩ := x
    by_cases h : k < a
    · simp [SMap.ins, h]
    · simp only [SMap.ins, h, if_false, List.mem_cons, ih]
      tauto

/-- The canonical form as facts about the list: keys strictly rise, and no entry is at the default. -/
theorem wf_iff [DecidableEq V] {d : V} {m : SMap V} :
    SMap.wf d m = true ↔ (m.map Prod.fst).Pairwise (· < ·) ∧ ∀ e ∈ m, e.2 ≠ d := by
  induction m with
  | nil => simp [SMap.wf]
  | cons e m ih =>
    obtain ⟨a, v⟩ := e
    cases m with
    | nil => simp [SMap.wf]
    | cons x m =>
      obtain ⟨b, w⟩ := x
      simp only [SMap.wf, Bool.and_eq_true, ih, bne_iff_ne, decide_eq_true_eq]
      constructor
      · rintro ⟨⟨hab, hv⟩, hp, hd⟩
        refine ⟨List.pairwise_cons.2 ⟨?_, hp⟩, by simpa [hv] using hd⟩
        intro c hc
        rcases List.mem_cons.1 hc with rfl | hc
        · exact hab
        · exact lt_trans hab ((List.pairwise_cons.1 hp).1 c hc)
      · rintro ⟨hp, hd⟩
        obtain ⟨h1, h2⟩ := List.pairwise_cons.1 hp
        exact ⟨⟨h1 b (by simp), hd (a, v) (by simp)⟩, h2, fun e he => hd e (List.mem_cons_of_mem _ he)⟩

theorem filter_wf [DecidableEq V] {d : V} {m : SMap V} (p : Nat × V → Bool) (h : SMap.wf d m = true) :
    SMap.wf d (m.filter p) = true := by
  rw [wf_iff] at h ⊢
  exact ⟨h.1.sublist (List.filter_sublist.map _), fun e he => h.2 e (List.mem_filter.1 he).1⟩

theorem erase_wf [DecidableEq V] {d : V} {m : SMap V} (k : Nat) (h : SMap.wf d m = true) :
    SMap.wf d (SMap.erase m k) = true := by
  rw [erase_eq_filter]
  exact filter_wf _ h

theorem ins_wf [DecidableEq V] {d : V} {m : SMap V} {k : Nat} {v : V} (h : SMap.wf d m = true) (hv : v ≠ d)
    (hk : ∀ e ∈ m, e.1 ≠ k) : SMap.wf d (SMap.ins m k v) = true := by
  rw [wf_iff] at h ⊢
  obtain ⟨hp, hd⟩ := h
  constructor
  · induction m with
    | nil => simp [SMap.ins]
    | cons x m ih =>
      obtain ⟨a, w⟩ := x
      obtain ⟨h1, h2⟩ := List.pairwise_cons.1 hp
      by_cases hlt : k < a
      · simp only [SMap.ins, hlt, if_true, List.map_cons]
        refine List.pairwise_cons.2 ⟨?_, hp⟩
        intro c hc
        rcases List.mem_cons.1 hc with rfl | hc
        · exact hlt
        · exact lt_trans hlt (h1 c hc)
      · simp only [SMap.ins, hlt, if_false, List.map_cons]
        refine List.pairwise_cons.2 ⟨?_, ih (fun e he => hk e (List.mem_cons_of_mem _ he)) h2
          (fun e he => hd e (List.mem_cons_of_mem _ he))⟩
        intro c hc
        obtain ⟨e, he, rfl⟩ := List.mem_map.1 hc
        rcases mem_ins.1 he with rfl | he
        · have := hk (a, w) (by simp)
          simp only [ne_eq] at this
          show a < k
          omega
        · exact h1 _ (List.mem_map.2 ⟨e, he, rfl⟩)
  · intro e he
    rcases mem_ins.1 he with rfl | he
    · exact hv
    · exact hd e he

/-- Setting a key keeps the canonical form. -/
theorem set_wf [DecidableEq V] {d : V} {m : SMap V} (k : Nat) (v : V) (h : SMap.wf d m = true) :
    SMap.wf d (SMap.set d m k v) = true := by
  unfold SMap.set
  split
  · exact erase_wf k h
  · next hv =>
    refine ins_wf (erase_wf k h) hv ?_
    intro e he
    rw [erase_eq_filter] at he
    simpa using (List.mem_filter.1 he).2

theorem get_erase (d : V) (m : SMap V) (k j : Nat) :
    SMap.get d (SMap.erase m k) j = if j = k then d else SMap.get d m j := by
  induction m with
  | nil => simp [SMap.erase, SMap.get]
  | cons e m ih =>
    obtain ⟨a, v⟩ := e
    by_cases hk : a = k
    · subst hk
      simp only [SMap.erase, if_true, ih, SMap.get]
      split
      · rfl
      · next h => rw [if_neg (Ne.symm h)]
    · simp only [SMap.erase, hk, if_false, SMap.get, ih]
      by_cases hj : a = j
      · subst hj
        simp [hk]
      · simp [hj]

theorem get_ins (d : V) (m : SMap V) (k j : Nat) (v : V) (hk : ∀ e ∈ m, e.1 ≠ k) :
    SMap.get d (SMap.ins m k v) j = if j = k then v else SMap.get d m j := by
  induction m with
  | nil => simp [SMap.ins, SMap.get, eq_comm]
  | cons e m ih =>
    obtain ⟨a, w⟩ := e
    have ha : a ≠ k := hk (a, w) (by simp)
    by_cases hlt : k < a
    · simp only [SMap.ins, hlt, if_true, SMap.get]
      by_cases hj : k = j
      · simp [hj]
      · simp [hj, Ne.symm hj]
    · simp only [SMap.ins, hlt, if_false, SMap.get, ih fun e he => hk e (List.mem_cons_of_mem _ he)]
      by_cases hj : a = j
      · subst hj
        simp [ha]
      · simp [hj]

/-- Reading a table after a key was set. -/
theorem get_set [DecidableEq V] (d : V) (m : SMap V) (k j : Nat) (v : V) :
    SMap.get d (SMap.set d m k v) j = if j = k then v else SMap.get d m j := by
  unfold SMap.set
  split
  · next h => rw [get_erase, h]
  · rw [get_ins, get_erase]
    · split <;> simp_all
    · intro e he
      rw [erase_eq_filter] at he
      simpa using (List.mem_filter.1 he).2

/-- The key that was set reads the value. -/
@[simp] theorem get_set_same [DecidableEq V] (d : V) (m : SMap V) (k : Nat) (v : V) :
    SMap.get d (SMap.set d m k v) k = v := by simp [get_set]

/-- Another key reads as before. -/
theorem get_set_other [DecidableEq V] (d : V) (m : SMap V) {k j : Nat} (v : V) (h : j ≠ k) :
    SMap.get d (SMap.set d m k v) j = SMap.get d m j := by simp [get_set, h]

/-- Reading a table whose entries have been changed by a function that keeps the default. -/
theorem get_mapV [DecidableEq V] {d : V} {f : Nat → V → V} (h : ∀ k, f k d = d) (m : SMap V) (k : Nat) :
    SMap.get d (SMap.mapV d f m) k = f k (SMap.get d m k) := by
  induction m with
  | nil => exact (h k).symm
  | cons e m ih =>
    obtain ⟨a, v⟩ := e
    rw [SMap.mapV, get_set, ih, SMap.get]
    by_cases hk : k = a
    · subst hk
      simp
    · rw [if_neg hk, if_neg (Ne.symm hk)]

theorem mapV_wf [DecidableEq V] {d : V} {m : SMap V} (f : Nat → V → V) :
    SMap.wf d (SMap.mapV d f m) = true := by
  induction m with
  | nil => rfl
  | cons e m ih => exact set_wf _ _ ih

end Sys2Proof.Laws
end

