-- ==== Sys2Proof/Laws/State.lean ====
section
/-!
SUPPORT. What each update of the state leaves as it was, one lemma a field, and what it puts where: a unit read after it
has been set.
-/
namespace Sys2Proof.Laws

open Sys2Proof.Machine

variable (s : State)

/-! ### setBlk -/

@[simp] theorem setBlk_pending (b : Blk) (v : Block) : (s.setBlk b v).pending = s.pending := rfl
@[simp] theorem setBlk_free (b : Blk) (v : Block) : (s.setBlk b v).free = s.free := rfl
@[simp] theorem setBlk_mem (b : Blk) (v : Block) : (s.setBlk b v).mem = s.mem := rfl
@[simp] theorem setBlk_lineFault (b : Blk) (v : Block) : (s.setBlk b v).lineFault = s.lineFault := rfl
@[simp] theorem setBlk_decoded (b : Blk) (v : Block) : (s.setBlk b v).decoded = s.decoded := rfl
@[simp] theorem setBlk_partFaults (b : Blk) (v : Block) : (s.setBlk b v).partFaults = s.partFaults := rfl
@[simp] theorem setBlk_stk (b : Blk) (v : Block) : (s.setBlk b v).stk = s.stk := rfl
@[simp] theorem setBlk_brine (b : Blk) (v : Block) : (s.setBlk b v).brine = s.brine := rfl
@[simp] theorem setBlk_regions (b : Blk) (v : Block) : (s.setBlk b v).regions = s.regions := rfl
@[simp] theorem setBlk_satUzl (b : Blk) (v : Block) : (s.setBlk b v).satUzl = s.satUzl := rfl
@[simp] theorem setBlk_satCxl (b : Blk) (v : Block) : (s.setBlk b v).satCxl = s.satCxl := rfl
@[simp] theorem setBlk_job (b : Blk) (v : Block) : (s.setBlk b v).job = s.job := rfl
@[simp] theorem setBlk_fab (b : Blk) (v : Block) : (s.setBlk b v).fab = s.fab := rfl
@[simp] theorem setBlk_tim (b : Blk) (v : Block) : (s.setBlk b v).tim = s.tim := rfl
@[simp] theorem setBlk_harts (b : Blk) (v : Block) : (s.setBlk b v).harts = s.harts := rfl
@[simp] theorem setBlk_wcb (b : Blk) (v : Block) : (s.setBlk b v).wcb = s.wcb := rfl
@[simp] theorem setBlk_apt (b : Blk) (v : Block) : (s.setBlk b v).apt = s.apt := rfl
@[simp] theorem setBlk_err (b : Blk) (v : Block) : (s.setBlk b v).err = s.err := rfl
@[simp] theorem setBlk_hold (b : Blk) (v : Block) : (s.setBlk b v).hold = s.hold := rfl
@[simp] theorem setBlk_ckpt (b : Blk) (v : Block) : (s.setBlk b v).ckpt = s.ckpt := rfl
@[simp] theorem setBlk_host (b : Blk) (v : Block) : (s.setBlk b v).host = s.host := rfl
@[simp] theorem setBlk_fuses (b : Blk) (v : Block) : (s.setBlk b v).fuses = s.fuses := rfl
@[simp] theorem setBlk_ncr (b : Blk) (v : Block) : (s.setBlk b v).ncr = s.ncr := rfl
@[simp] theorem setBlk_sec (b : Blk) (v : Block) : (s.setBlk b v).sec = s.sec := rfl
@[simp] theorem setBlk_pwr (b : Blk) (v : Block) : (s.setBlk b v).pwr = s.pwr := rfl

/-! ### updBlk -/

@[simp] theorem updBlk_pending (b : Blk) (f : Block → Block) : (s.updBlk b f).pending = s.pending := rfl
@[simp] theorem updBlk_free (b : Blk) (f : Block → Block) : (s.updBlk b f).free = s.free := rfl
@[simp] theorem updBlk_mem (b : Blk) (f : Block → Block) : (s.updBlk b f).mem = s.mem := rfl
@[simp] theorem updBlk_lineFault (b : Blk) (f : Block → Block) : (s.updBlk b f).lineFault = s.lineFault := rfl
@[simp] theorem updBlk_decoded (b : Blk) (f : Block → Block) : (s.updBlk b f).decoded = s.decoded := rfl
@[simp] theorem updBlk_partFaults (b : Blk) (f : Block → Block) : (s.updBlk b f).partFaults = s.partFaults := rfl
@[simp] theorem updBlk_stk (b : Blk) (f : Block → Block) : (s.updBlk b f).stk = s.stk := rfl
@[simp] theorem updBlk_brine (b : Blk) (f : Block → Block) : (s.updBlk b f).brine = s.brine := rfl
@[simp] theorem updBlk_regions (b : Blk) (f : Block → Block) : (s.updBlk b f).regions = s.regions := rfl
@[simp] theorem updBlk_satUzl (b : Blk) (f : Block → Block) : (s.updBlk b f).satUzl = s.satUzl := rfl
@[simp] theorem updBlk_satCxl (b : Blk) (f : Block → Block) : (s.updBlk b f).satCxl = s.satCxl := rfl
@[simp] theorem updBlk_job (b : Blk) (f : Block → Block) : (s.updBlk b f).job = s.job := rfl
@[simp] theorem updBlk_fab (b : Blk) (f : Block → Block) : (s.updBlk b f).fab = s.fab := rfl
@[simp] theorem updBlk_tim (b : Blk) (f : Block → Block) : (s.updBlk b f).tim = s.tim := rfl
@[simp] theorem updBlk_harts (b : Blk) (f : Block → Block) : (s.updBlk b f).harts = s.harts := rfl
@[simp] theorem updBlk_wcb (b : Blk) (f : Block → Block) : (s.updBlk b f).wcb = s.wcb := rfl
@[simp] theorem updBlk_apt (b : Blk) (f : Block → Block) : (s.updBlk b f).apt = s.apt := rfl
@[simp] theorem updBlk_err (b : Blk) (f : Block → Block) : (s.updBlk b f).err = s.err := rfl
@[simp] theorem updBlk_hold (b : Blk) (f : Block → Block) : (s.updBlk b f).hold = s.hold := rfl
@[simp] theorem updBlk_ckpt (b : Blk) (f : Block → Block) : (s.updBlk b f).ckpt = s.ckpt := rfl
@[simp] theorem updBlk_host (b : Blk) (f : Block → Block) : (s.updBlk b f).host = s.host := rfl
@[simp] theorem updBlk_fuses (b : Blk) (f : Block → Block) : (s.updBlk b f).fuses = s.fuses := rfl
@[simp] theorem updBlk_ncr (b : Blk) (f : Block → Block) : (s.updBlk b f).ncr = s.ncr := rfl
@[simp] theorem updBlk_sec (b : Blk) (f : Block → Block) : (s.updBlk b f).sec = s.sec := rfl
@[simp] theorem updBlk_pwr (b : Blk) (f : Block → Block) : (s.updBlk b f).pwr = s.pwr := rfl

/-! ### setQ -/

@[simp] theorem setQ_pending (b : Blk) (q : Qc) (v : Queue) : (s.setQ b q v).pending = s.pending := rfl
@[simp] theorem setQ_free (b : Blk) (q : Qc) (v : Queue) : (s.setQ b q v).free = s.free := rfl
@[simp] theorem setQ_mem (b : Blk) (q : Qc) (v : Queue) : (s.setQ b q v).mem = s.mem := rfl
@[simp] theorem setQ_lineFault (b : Blk) (q : Qc) (v : Queue) : (s.setQ b q v).lineFault = s.lineFault := rfl
@[simp] theorem setQ_decoded (b : Blk) (q : Qc) (v : Queue) : (s.setQ b q v).decoded = s.decoded := rfl
@[simp] theorem setQ_partFaults (b : Blk) (q : Qc) (v : Queue) : (s.setQ b q v).partFaults = s.partFaults := rfl
@[simp] theorem setQ_stk (b : Blk) (q : Qc) (v : Queue) : (s.setQ b q v).stk = s.stk := rfl
@[simp] theorem setQ_brine (b : Blk) (q : Qc) (v : Queue) : (s.setQ b q v).brine = s.brine := rfl
@[simp] theorem setQ_regions (b : Blk) (q : Qc) (v : Queue) : (s.setQ b q v).regions = s.regions := rfl
@[simp] theorem setQ_satUzl (b : Blk) (q : Qc) (v : Queue) : (s.setQ b q v).satUzl = s.satUzl := rfl
@[simp] theorem setQ_satCxl (b : Blk) (q : Qc) (v : Queue) : (s.setQ b q v).satCxl = s.satCxl := rfl
@[simp] theorem setQ_job (b : Blk) (q : Qc) (v : Queue) : (s.setQ b q v).job = s.job := rfl
@[simp] theorem setQ_fab (b : Blk) (q : Qc) (v : Queue) : (s.setQ b q v).fab = s.fab := rfl
@[simp] theorem setQ_tim (b : Blk) (q : Qc) (v : Queue) : (s.setQ b q v).tim = s.tim := rfl
@[simp] theorem setQ_harts (b : Blk) (q : Qc) (v : Queue) : (s.setQ b q v).harts = s.harts := rfl
@[simp] theorem setQ_wcb (b : Blk) (q : Qc) (v : Queue) : (s.setQ b q v).wcb = s.wcb := rfl
@[simp] theorem setQ_apt (b : Blk) (q : Qc) (v : Queue) : (s.setQ b q v).apt = s.apt := rfl
@[simp] theorem setQ_err (b : Blk) (q : Qc) (v : Queue) : (s.setQ b q v).err = s.err := rfl
@[simp] theorem setQ_hold (b : Blk) (q : Qc) (v : Queue) : (s.setQ b q v).hold = s.hold := rfl
@[simp] theorem setQ_ckpt (b : Blk) (q : Qc) (v : Queue) : (s.setQ b q v).ckpt = s.ckpt := rfl
@[simp] theorem setQ_host (b : Blk) (q : Qc) (v : Queue) : (s.setQ b q v).host = s.host := rfl
@[simp] theorem setQ_fuses (b : Blk) (q : Qc) (v : Queue) : (s.setQ b q v).fuses = s.fuses := rfl
@[simp] theorem setQ_ncr (b : Blk) (q : Qc) (v : Queue) : (s.setQ b q v).ncr = s.ncr := rfl
@[simp] theorem setQ_sec (b : Blk) (q : Qc) (v : Queue) : (s.setQ b q v).sec = s.sec := rfl
@[simp] theorem setQ_pwr (b : Blk) (q : Qc) (v : Queue) : (s.setQ b q v).pwr = s.pwr := rfl

/-! ### updQ -/

@[simp] theorem updQ_pending (b : Blk) (q : Qc) (f : Queue → Queue) : (s.updQ b q f).pending = s.pending := rfl
@[simp] theorem updQ_free (b : Blk) (q : Qc) (f : Queue → Queue) : (s.updQ b q f).free = s.free := rfl
@[simp] theorem updQ_mem (b : Blk) (q : Qc) (f : Queue → Queue) : (s.updQ b q f).mem = s.mem := rfl
@[simp] theorem updQ_lineFault (b : Blk) (q : Qc) (f : Queue → Queue) : (s.updQ b q f).lineFault = s.lineFault := rfl
@[simp] theorem updQ_decoded (b : Blk) (q : Qc) (f : Queue → Queue) : (s.updQ b q f).decoded = s.decoded := rfl
@[simp] theorem updQ_partFaults (b : Blk) (q : Qc) (f : Queue → Queue) : (s.updQ b q f).partFaults = s.partFaults := rfl
@[simp] theorem updQ_stk (b : Blk) (q : Qc) (f : Queue → Queue) : (s.updQ b q f).stk = s.stk := rfl
@[simp] theorem updQ_brine (b : Blk) (q : Qc) (f : Queue → Queue) : (s.updQ b q f).brine = s.brine := rfl
@[simp] theorem updQ_regions (b : Blk) (q : Qc) (f : Queue → Queue) : (s.updQ b q f).regions = s.regions := rfl
@[simp] theorem updQ_satUzl (b : Blk) (q : Qc) (f : Queue → Queue) : (s.updQ b q f).satUzl = s.satUzl := rfl
@[simp] theorem updQ_satCxl (b : Blk) (q : Qc) (f : Queue → Queue) : (s.updQ b q f).satCxl = s.satCxl := rfl
@[simp] theorem updQ_job (b : Blk) (q : Qc) (f : Queue → Queue) : (s.updQ b q f).job = s.job := rfl
@[simp] theorem updQ_fab (b : Blk) (q : Qc) (f : Queue → Queue) : (s.updQ b q f).fab = s.fab := rfl
@[simp] theorem updQ_tim (b : Blk) (q : Qc) (f : Queue → Queue) : (s.updQ b q f).tim = s.tim := rfl
@[simp] theorem updQ_harts (b : Blk) (q : Qc) (f : Queue → Queue) : (s.updQ b q f).harts = s.harts := rfl
@[simp] theorem updQ_wcb (b : Blk) (q : Qc) (f : Queue → Queue) : (s.updQ b q f).wcb = s.wcb := rfl
@[simp] theorem updQ_apt (b : Blk) (q : Qc) (f : Queue → Queue) : (s.updQ b q f).apt = s.apt := rfl
@[simp] theorem updQ_err (b : Blk) (q : Qc) (f : Queue → Queue) : (s.updQ b q f).err = s.err := rfl
@[simp] theorem updQ_hold (b : Blk) (q : Qc) (f : Queue → Queue) : (s.updQ b q f).hold = s.hold := rfl
@[simp] theorem updQ_ckpt (b : Blk) (q : Qc) (f : Queue → Queue) : (s.updQ b q f).ckpt = s.ckpt := rfl
@[simp] theorem updQ_host (b : Blk) (q : Qc) (f : Queue → Queue) : (s.updQ b q f).host = s.host := rfl
@[simp] theorem updQ_fuses (b : Blk) (q : Qc) (f : Queue → Queue) : (s.updQ b q f).fuses = s.fuses := rfl
@[simp] theorem updQ_ncr (b : Blk) (q : Qc) (f : Queue → Queue) : (s.updQ b q f).ncr = s.ncr := rfl
@[simp] theorem updQ_sec (b : Blk) (q : Qc) (f : Queue → Queue) : (s.updQ b q f).sec = s.sec := rfl
@[simp] theorem updQ_pwr (b : Blk) (q : Qc) (f : Queue → Queue) : (s.updQ b q f).pwr = s.pwr := rfl

/-! ### setCtx -/

@[simp] theorem setCtx_pending (b : Blk) (c : Nat) (v : Ctx) : (s.setCtx b c v).pending = s.pending := rfl
@[simp] theorem setCtx_free (b : Blk) (c : Nat) (v : Ctx) : (s.setCtx b c v).free = s.free := rfl
@[simp] theorem setCtx_mem (b : Blk) (c : Nat) (v : Ctx) : (s.setCtx b c v).mem = s.mem := rfl
@[simp] theorem setCtx_lineFault (b : Blk) (c : Nat) (v : Ctx) : (s.setCtx b c v).lineFault = s.lineFault := rfl
@[simp] theorem setCtx_decoded (b : Blk) (c : Nat) (v : Ctx) : (s.setCtx b c v).decoded = s.decoded := rfl
@[simp] theorem setCtx_partFaults (b : Blk) (c : Nat) (v : Ctx) : (s.setCtx b c v).partFaults = s.partFaults := rfl
@[simp] theorem setCtx_stk (b : Blk) (c : Nat) (v : Ctx) : (s.setCtx b c v).stk = s.stk := rfl
@[simp] theorem setCtx_brine (b : Blk) (c : Nat) (v : Ctx) : (s.setCtx b c v).brine = s.brine := rfl
@[simp] theorem setCtx_regions (b : Blk) (c : Nat) (v : Ctx) : (s.setCtx b c v).regions = s.regions := rfl
@[simp] theorem setCtx_satUzl (b : Blk) (c : Nat) (v : Ctx) : (s.setCtx b c v).satUzl = s.satUzl := rfl
@[simp] theorem setCtx_satCxl (b : Blk) (c : Nat) (v : Ctx) : (s.setCtx b c v).satCxl = s.satCxl := rfl
@[simp] theorem setCtx_job (b : Blk) (c : Nat) (v : Ctx) : (s.setCtx b c v).job = s.job := rfl
@[simp] theorem setCtx_fab (b : Blk) (c : Nat) (v : Ctx) : (s.setCtx b c v).fab = s.fab := rfl
@[simp] theorem setCtx_tim (b : Blk) (c : Nat) (v : Ctx) : (s.setCtx b c v).tim = s.tim := rfl
@[simp] theorem setCtx_harts (b : Blk) (c : Nat) (v : Ctx) : (s.setCtx b c v).harts = s.harts := rfl
@[simp] theorem setCtx_wcb (b : Blk) (c : Nat) (v : Ctx) : (s.setCtx b c v).wcb = s.wcb := rfl
@[simp] theorem setCtx_apt (b : Blk) (c : Nat) (v : Ctx) : (s.setCtx b c v).apt = s.apt := rfl
@[simp] theorem setCtx_err (b : Blk) (c : Nat) (v : Ctx) : (s.setCtx b c v).err = s.err := rfl
@[simp] theorem setCtx_hold (b : Blk) (c : Nat) (v : Ctx) : (s.setCtx b c v).hold = s.hold := rfl
@[simp] theorem setCtx_ckpt (b : Blk) (c : Nat) (v : Ctx) : (s.setCtx b c v).ckpt = s.ckpt := rfl
@[simp] theorem setCtx_host (b : Blk) (c : Nat) (v : Ctx) : (s.setCtx b c v).host = s.host := rfl
@[simp] theorem setCtx_fuses (b : Blk) (c : Nat) (v : Ctx) : (s.setCtx b c v).fuses = s.fuses := rfl
@[simp] theorem setCtx_ncr (b : Blk) (c : Nat) (v : Ctx) : (s.setCtx b c v).ncr = s.ncr := rfl
@[simp] theorem setCtx_sec (b : Blk) (c : Nat) (v : Ctx) : (s.setCtx b c v).sec = s.sec := rfl
@[simp] theorem setCtx_pwr (b : Blk) (c : Nat) (v : Ctx) : (s.setCtx b c v).pwr = s.pwr := rfl

/-! ### setRegion -/

@[simp] theorem setRegion_pending (n : Nat) (v : Region) : (s.setRegion n v).pending = s.pending := rfl
@[simp] theorem setRegion_free (n : Nat) (v : Region) : (s.setRegion n v).free = s.free := rfl
@[simp] theorem setRegion_mem (n : Nat) (v : Region) : (s.setRegion n v).mem = s.mem := rfl
@[simp] theorem setRegion_lineFault (n : Nat) (v : Region) : (s.setRegion n v).lineFault = s.lineFault := rfl
@[simp] theorem setRegion_decoded (n : Nat) (v : Region) : (s.setRegion n v).decoded = s.decoded := rfl
@[simp] theorem setRegion_partFaults (n : Nat) (v : Region) : (s.setRegion n v).partFaults = s.partFaults := rfl
@[simp] theorem setRegion_stk (n : Nat) (v : Region) : (s.setRegion n v).stk = s.stk := rfl
@[simp] theorem setRegion_brine (n : Nat) (v : Region) : (s.setRegion n v).brine = s.brine := rfl
@[simp] theorem setRegion_blocks (n : Nat) (v : Region) : (s.setRegion n v).blocks = s.blocks := rfl
@[simp] theorem setRegion_satUzl (n : Nat) (v : Region) : (s.setRegion n v).satUzl = s.satUzl := rfl
@[simp] theorem setRegion_satCxl (n : Nat) (v : Region) : (s.setRegion n v).satCxl = s.satCxl := rfl
@[simp] theorem setRegion_job (n : Nat) (v : Region) : (s.setRegion n v).job = s.job := rfl
@[simp] theorem setRegion_fab (n : Nat) (v : Region) : (s.setRegion n v).fab = s.fab := rfl
@[simp] theorem setRegion_tim (n : Nat) (v : Region) : (s.setRegion n v).tim = s.tim := rfl
@[simp] theorem setRegion_harts (n : Nat) (v : Region) : (s.setRegion n v).harts = s.harts := rfl
@[simp] theorem setRegion_wcb (n : Nat) (v : Region) : (s.setRegion n v).wcb = s.wcb := rfl
@[simp] theorem setRegion_apt (n : Nat) (v : Region) : (s.setRegion n v).apt = s.apt := rfl
@[simp] theorem setRegion_err (n : Nat) (v : Region) : (s.setRegion n v).err = s.err := rfl
@[simp] theorem setRegion_hold (n : Nat) (v : Region) : (s.setRegion n v).hold = s.hold := rfl
@[simp] theorem setRegion_ckpt (n : Nat) (v : Region) : (s.setRegion n v).ckpt = s.ckpt := rfl
@[simp] theorem setRegion_host (n : Nat) (v : Region) : (s.setRegion n v).host = s.host := rfl
@[simp] theorem setRegion_fuses (n : Nat) (v : Region) : (s.setRegion n v).fuses = s.fuses := rfl
@[simp] theorem setRegion_ncr (n : Nat) (v : Region) : (s.setRegion n v).ncr = s.ncr := rfl
@[simp] theorem setRegion_sec (n : Nat) (v : Region) : (s.setRegion n v).sec = s.sec := rfl
@[simp] theorem setRegion_pwr (n : Nat) (v : Region) : (s.setRegion n v).pwr = s.pwr := rfl

/-! ### setStack -/

@[simp] theorem setStack_pending (n : Nat) (v : Stack) : (s.setStack n v).pending = s.pending := rfl
@[simp] theorem setStack_free (n : Nat) (v : Stack) : (s.setStack n v).free = s.free := rfl
@[simp] theorem setStack_mem (n : Nat) (v : Stack) : (s.setStack n v).mem = s.mem := rfl
@[simp] theorem setStack_lineFault (n : Nat) (v : Stack) : (s.setStack n v).lineFault = s.lineFault := rfl
@[simp] theorem setStack_decoded (n : Nat) (v : Stack) : (s.setStack n v).decoded = s.decoded := rfl
@[simp] theorem setStack_partFaults (n : Nat) (v : Stack) : (s.setStack n v).partFaults = s.partFaults := rfl
@[simp] theorem setStack_brine (n : Nat) (v : Stack) : (s.setStack n v).brine = s.brine := rfl
@[simp] theorem setStack_blocks (n : Nat) (v : Stack) : (s.setStack n v).blocks = s.blocks := rfl
@[simp] theorem setStack_regions (n : Nat) (v : Stack) : (s.setStack n v).regions = s.regions := rfl
@[simp] theorem setStack_satUzl (n : Nat) (v : Stack) : (s.setStack n v).satUzl = s.satUzl := rfl
@[simp] theorem setStack_satCxl (n : Nat) (v : Stack) : (s.setStack n v).satCxl = s.satCxl := rfl
@[simp] theorem setStack_job (n : Nat) (v : Stack) : (s.setStack n v).job = s.job := rfl
@[simp] theorem setStack_fab (n : Nat) (v : Stack) : (s.setStack n v).fab = s.fab := rfl
@[simp] theorem setStack_tim (n : Nat) (v : Stack) : (s.setStack n v).tim = s.tim := rfl
@[simp] theorem setStack_harts (n : Nat) (v : Stack) : (s.setStack n v).harts = s.harts := rfl
@[simp] theorem setStack_wcb (n : Nat) (v : Stack) : (s.setStack n v).wcb = s.wcb := rfl
@[simp] theorem setStack_apt (n : Nat) (v : Stack) : (s.setStack n v).apt = s.apt := rfl
@[simp] theorem setStack_err (n : Nat) (v : Stack) : (s.setStack n v).err = s.err := rfl
@[simp] theorem setStack_hold (n : Nat) (v : Stack) : (s.setStack n v).hold = s.hold := rfl
@[simp] theorem setStack_ckpt (n : Nat) (v : Stack) : (s.setStack n v).ckpt = s.ckpt := rfl
@[simp] theorem setStack_host (n : Nat) (v : Stack) : (s.setStack n v).host = s.host := rfl
@[simp] theorem setStack_fuses (n : Nat) (v : Stack) : (s.setStack n v).fuses = s.fuses := rfl
@[simp] theorem setStack_ncr (n : Nat) (v : Stack) : (s.setStack n v).ncr = s.ncr := rfl
@[simp] theorem setStack_sec (n : Nat) (v : Stack) : (s.setStack n v).sec = s.sec := rfl
@[simp] theorem setStack_pwr (n : Nat) (v : Stack) : (s.setStack n v).pwr = s.pwr := rfl

/-! ### setPort -/

@[simp] theorem setPort_pending (n : Nat) (v : Port) : (s.setPort n v).pending = s.pending := rfl
@[simp] theorem setPort_free (n : Nat) (v : Port) : (s.setPort n v).free = s.free := rfl
@[simp] theorem setPort_mem (n : Nat) (v : Port) : (s.setPort n v).mem = s.mem := rfl
@[simp] theorem setPort_lineFault (n : Nat) (v : Port) : (s.setPort n v).lineFault = s.lineFault := rfl
@[simp] theorem setPort_decoded (n : Nat) (v : Port) : (s.setPort n v).decoded = s.decoded := rfl
@[simp] theorem setPort_partFaults (n : Nat) (v : Port) : (s.setPort n v).partFaults = s.partFaults := rfl
@[simp] theorem setPort_stk (n : Nat) (v : Port) : (s.setPort n v).stk = s.stk := rfl
@[simp] theorem setPort_brine (n : Nat) (v : Port) : (s.setPort n v).brine = s.brine := rfl
@[simp] theorem setPort_blocks (n : Nat) (v : Port) : (s.setPort n v).blocks = s.blocks := rfl
@[simp] theorem setPort_regions (n : Nat) (v : Port) : (s.setPort n v).regions = s.regions := rfl
@[simp] theorem setPort_satUzl (n : Nat) (v : Port) : (s.setPort n v).satUzl = s.satUzl := rfl
@[simp] theorem setPort_satCxl (n : Nat) (v : Port) : (s.setPort n v).satCxl = s.satCxl := rfl
@[simp] theorem setPort_job (n : Nat) (v : Port) : (s.setPort n v).job = s.job := rfl
@[simp] theorem setPort_tim (n : Nat) (v : Port) : (s.setPort n v).tim = s.tim := rfl
@[simp] theorem setPort_harts (n : Nat) (v : Port) : (s.setPort n v).harts = s.harts := rfl
@[simp] theorem setPort_wcb (n : Nat) (v : Port) : (s.setPort n v).wcb = s.wcb := rfl
@[simp] theorem setPort_apt (n : Nat) (v : Port) : (s.setPort n v).apt = s.apt := rfl
@[simp] theorem setPort_err (n : Nat) (v : Port) : (s.setPort n v).err = s.err := rfl
@[simp] theorem setPort_hold (n : Nat) (v : Port) : (s.setPort n v).hold = s.hold := rfl
@[simp] theorem setPort_ckpt (n : Nat) (v : Port) : (s.setPort n v).ckpt = s.ckpt := rfl
@[simp] theorem setPort_host (n : Nat) (v : Port) : (s.setPort n v).host = s.host := rfl
@[simp] theorem setPort_fuses (n : Nat) (v : Port) : (s.setPort n v).fuses = s.fuses := rfl
@[simp] theorem setPort_ncr (n : Nat) (v : Port) : (s.setPort n v).ncr = s.ncr := rfl
@[simp] theorem setPort_sec (n : Nat) (v : Port) : (s.setPort n v).sec = s.sec := rfl
@[simp] theorem setPort_pwr (n : Nat) (v : Port) : (s.setPort n v).pwr = s.pwr := rfl

/-! ### setPair -/

@[simp] theorem setPair_pending (n : NodeId) (v : Pair) : (s.setPair n v).pending = s.pending := rfl
@[simp] theorem setPair_free (n : NodeId) (v : Pair) : (s.setPair n v).free = s.free := rfl
@[simp] theorem setPair_mem (n : NodeId) (v : Pair) : (s.setPair n v).mem = s.mem := rfl
@[simp] theorem setPair_lineFault (n : NodeId) (v : Pair) : (s.setPair n v).lineFault = s.lineFault := rfl
@[simp] theorem setPair_decoded (n : NodeId) (v : Pair) : (s.setPair n v).decoded = s.decoded := rfl
@[simp] theorem setPair_partFaults (n : NodeId) (v : Pair) : (s.setPair n v).partFaults = s.partFaults := rfl
@[simp] theorem setPair_stk (n : NodeId) (v : Pair) : (s.setPair n v).stk = s.stk := rfl
@[simp] theorem setPair_brine (n : NodeId) (v : Pair) : (s.setPair n v).brine = s.brine := rfl
@[simp] theorem setPair_blocks (n : NodeId) (v : Pair) : (s.setPair n v).blocks = s.blocks := rfl
@[simp] theorem setPair_regions (n : NodeId) (v : Pair) : (s.setPair n v).regions = s.regions := rfl
@[simp] theorem setPair_satUzl (n : NodeId) (v : Pair) : (s.setPair n v).satUzl = s.satUzl := rfl
@[simp] theorem setPair_satCxl (n : NodeId) (v : Pair) : (s.setPair n v).satCxl = s.satCxl := rfl
@[simp] theorem setPair_job (n : NodeId) (v : Pair) : (s.setPair n v).job = s.job := rfl
@[simp] theorem setPair_tim (n : NodeId) (v : Pair) : (s.setPair n v).tim = s.tim := rfl
@[simp] theorem setPair_harts (n : NodeId) (v : Pair) : (s.setPair n v).harts = s.harts := rfl
@[simp] theorem setPair_wcb (n : NodeId) (v : Pair) : (s.setPair n v).wcb = s.wcb := rfl
@[simp] theorem setPair_apt (n : NodeId) (v : Pair) : (s.setPair n v).apt = s.apt := rfl
@[simp] theorem setPair_err (n : NodeId) (v : Pair) : (s.setPair n v).err = s.err := rfl
@[simp] theorem setPair_hold (n : NodeId) (v : Pair) : (s.setPair n v).hold = s.hold := rfl
@[simp] theorem setPair_ckpt (n : NodeId) (v : Pair) : (s.setPair n v).ckpt = s.ckpt := rfl
@[simp] theorem setPair_host (n : NodeId) (v : Pair) : (s.setPair n v).host = s.host := rfl
@[simp] theorem setPair_fuses (n : NodeId) (v : Pair) : (s.setPair n v).fuses = s.fuses := rfl
@[simp] theorem setPair_ncr (n : NodeId) (v : Pair) : (s.setPair n v).ncr = s.ncr := rfl
@[simp] theorem setPair_sec (n : NodeId) (v : Pair) : (s.setPair n v).sec = s.sec := rfl
@[simp] theorem setPair_pwr (n : NodeId) (v : Pair) : (s.setPair n v).pwr = s.pwr := rfl

/-! ### setHart -/

@[simp] theorem setHart_pending (h : BitVec 6) (v : Hart) : (s.setHart h v).pending = s.pending := rfl
@[simp] theorem setHart_free (h : BitVec 6) (v : Hart) : (s.setHart h v).free = s.free := rfl
@[simp] theorem setHart_mem (h : BitVec 6) (v : Hart) : (s.setHart h v).mem = s.mem := rfl
@[simp] theorem setHart_lineFault (h : BitVec 6) (v : Hart) : (s.setHart h v).lineFault = s.lineFault := rfl
@[simp] theorem setHart_decoded (h : BitVec 6) (v : Hart) : (s.setHart h v).decoded = s.decoded := rfl
@[simp] theorem setHart_partFaults (h : BitVec 6) (v : Hart) : (s.setHart h v).partFaults = s.partFaults := rfl
@[simp] theorem setHart_stk (h : BitVec 6) (v : Hart) : (s.setHart h v).stk = s.stk := rfl
@[simp] theorem setHart_brine (h : BitVec 6) (v : Hart) : (s.setHart h v).brine = s.brine := rfl
@[simp] theorem setHart_blocks (h : BitVec 6) (v : Hart) : (s.setHart h v).blocks = s.blocks := rfl
@[simp] theorem setHart_regions (h : BitVec 6) (v : Hart) : (s.setHart h v).regions = s.regions := rfl
@[simp] theorem setHart_satUzl (h : BitVec 6) (v : Hart) : (s.setHart h v).satUzl = s.satUzl := rfl
@[simp] theorem setHart_satCxl (h : BitVec 6) (v : Hart) : (s.setHart h v).satCxl = s.satCxl := rfl
@[simp] theorem setHart_job (h : BitVec 6) (v : Hart) : (s.setHart h v).job = s.job := rfl
@[simp] theorem setHart_fab (h : BitVec 6) (v : Hart) : (s.setHart h v).fab = s.fab := rfl
@[simp] theorem setHart_tim (h : BitVec 6) (v : Hart) : (s.setHart h v).tim = s.tim := rfl
@[simp] theorem setHart_wcb (h : BitVec 6) (v : Hart) : (s.setHart h v).wcb = s.wcb := rfl
@[simp] theorem setHart_apt (h : BitVec 6) (v : Hart) : (s.setHart h v).apt = s.apt := rfl
@[simp] theorem setHart_err (h : BitVec 6) (v : Hart) : (s.setHart h v).err = s.err := rfl
@[simp] theorem setHart_hold (h : BitVec 6) (v : Hart) : (s.setHart h v).hold = s.hold := rfl
@[simp] theorem setHart_ckpt (h : BitVec 6) (v : Hart) : (s.setHart h v).ckpt = s.ckpt := rfl
@[simp] theorem setHart_host (h : BitVec 6) (v : Hart) : (s.setHart h v).host = s.host := rfl
@[simp] theorem setHart_fuses (h : BitVec 6) (v : Hart) : (s.setHart h v).fuses = s.fuses := rfl
@[simp] theorem setHart_ncr (h : BitVec 6) (v : Hart) : (s.setHart h v).ncr = s.ncr := rfl
@[simp] theorem setHart_sec (h : BitVec 6) (v : Hart) : (s.setHart h v).sec = s.sec := rfl
@[simp] theorem setHart_pwr (h : BitVec 6) (v : Hart) : (s.setHart h v).pwr = s.pwr := rfl

/-! ### updHart -/

@[simp] theorem updHart_pending (h : BitVec 6) (f : Hart → Hart) : (s.updHart h f).pending = s.pending := rfl
@[simp] theorem updHart_free (h : BitVec 6) (f : Hart → Hart) : (s.updHart h f).free = s.free := rfl
@[simp] theorem updHart_mem (h : BitVec 6) (f : Hart → Hart) : (s.updHart h f).mem = s.mem := rfl
@[simp] theorem updHart_lineFault (h : BitVec 6) (f : Hart → Hart) : (s.updHart h f).lineFault = s.lineFault := rfl
@[simp] theorem updHart_decoded (h : BitVec 6) (f : Hart → Hart) : (s.updHart h f).decoded = s.decoded := rfl
@[simp] theorem updHart_partFaults (h : BitVec 6) (f : Hart → Hart) : (s.updHart h f).partFaults = s.partFaults := rfl
@[simp] theorem updHart_stk (h : BitVec 6) (f : Hart → Hart) : (s.updHart h f).stk = s.stk := rfl
@[simp] theorem updHart_brine (h : BitVec 6) (f : Hart → Hart) : (s.updHart h f).brine = s.brine := rfl
@[simp] theorem updHart_blocks (h : BitVec 6) (f : Hart → Hart) : (s.updHart h f).blocks = s.blocks := rfl
@[simp] theorem updHart_regions (h : BitVec 6) (f : Hart → Hart) : (s.updHart h f).regions = s.regions := rfl
@[simp] theorem updHart_satUzl (h : BitVec 6) (f : Hart → Hart) : (s.updHart h f).satUzl = s.satUzl := rfl
@[simp] theorem updHart_satCxl (h : BitVec 6) (f : Hart → Hart) : (s.updHart h f).satCxl = s.satCxl := rfl
@[simp] theorem updHart_job (h : BitVec 6) (f : Hart → Hart) : (s.updHart h f).job = s.job := rfl
@[simp] theorem updHart_fab (h : BitVec 6) (f : Hart → Hart) : (s.updHart h f).fab = s.fab := rfl
@[simp] theorem updHart_tim (h : BitVec 6) (f : Hart → Hart) : (s.updHart h f).tim = s.tim := rfl
@[simp] theorem updHart_wcb (h : BitVec 6) (f : Hart → Hart) : (s.updHart h f).wcb = s.wcb := rfl
@[simp] theorem updHart_apt (h : BitVec 6) (f : Hart → Hart) : (s.updHart h f).apt = s.apt := rfl
@[simp] theorem updHart_err (h : BitVec 6) (f : Hart → Hart) : (s.updHart h f).err = s.err := rfl
@[simp] theorem updHart_hold (h : BitVec 6) (f : Hart → Hart) : (s.updHart h f).hold = s.hold := rfl
@[simp] theorem updHart_ckpt (h : BitVec 6) (f : Hart → Hart) : (s.updHart h f).ckpt = s.ckpt := rfl
@[simp] theorem updHart_host (h : BitVec 6) (f : Hart → Hart) : (s.updHart h f).host = s.host := rfl
@[simp] theorem updHart_fuses (h : BitVec 6) (f : Hart → Hart) : (s.updHart h f).fuses = s.fuses := rfl
@[simp] theorem updHart_ncr (h : BitVec 6) (f : Hart → Hart) : (s.updHart h f).ncr = s.ncr := rfl
@[simp] theorem updHart_sec (h : BitVec 6) (f : Hart → Hart) : (s.updHart h f).sec = s.sec := rfl
@[simp] theorem updHart_pwr (h : BitVec 6) (f : Hart → Hart) : (s.updHart h f).pwr = s.pwr := rfl

/-! ### setDie -/

@[simp] theorem setDie_pending (n : Nat) (v : Die) : (s.setDie n v).pending = s.pending := rfl
@[simp] theorem setDie_free (n : Nat) (v : Die) : (s.setDie n v).free = s.free := rfl
@[simp] theorem setDie_mem (n : Nat) (v : Die) : (s.setDie n v).mem = s.mem := rfl
@[simp] theorem setDie_lineFault (n : Nat) (v : Die) : (s.setDie n v).lineFault = s.lineFault := rfl
@[simp] theorem setDie_decoded (n : Nat) (v : Die) : (s.setDie n v).decoded = s.decoded := rfl
@[simp] theorem setDie_partFaults (n : Nat) (v : Die) : (s.setDie n v).partFaults = s.partFaults := rfl
@[simp] theorem setDie_stk (n : Nat) (v : Die) : (s.setDie n v).stk = s.stk := rfl
@[simp] theorem setDie_brine (n : Nat) (v : Die) : (s.setDie n v).brine = s.brine := rfl
@[simp] theorem setDie_blocks (n : Nat) (v : Die) : (s.setDie n v).blocks = s.blocks := rfl
@[simp] theorem setDie_regions (n : Nat) (v : Die) : (s.setDie n v).regions = s.regions := rfl
@[simp] theorem setDie_satUzl (n : Nat) (v : Die) : (s.setDie n v).satUzl = s.satUzl := rfl
@[simp] theorem setDie_satCxl (n : Nat) (v : Die) : (s.setDie n v).satCxl = s.satCxl := rfl
@[simp] theorem setDie_job (n : Nat) (v : Die) : (s.setDie n v).job = s.job := rfl
@[simp] theorem setDie_fab (n : Nat) (v : Die) : (s.setDie n v).fab = s.fab := rfl
@[simp] theorem setDie_tim (n : Nat) (v : Die) : (s.setDie n v).tim = s.tim := rfl
@[simp] theorem setDie_harts (n : Nat) (v : Die) : (s.setDie n v).harts = s.harts := rfl
@[simp] theorem setDie_wcb (n : Nat) (v : Die) : (s.setDie n v).wcb = s.wcb := rfl
@[simp] theorem setDie_apt (n : Nat) (v : Die) : (s.setDie n v).apt = s.apt := rfl
@[simp] theorem setDie_err (n : Nat) (v : Die) : (s.setDie n v).err = s.err := rfl
@[simp] theorem setDie_hold (n : Nat) (v : Die) : (s.setDie n v).hold = s.hold := rfl
@[simp] theorem setDie_ckpt (n : Nat) (v : Die) : (s.setDie n v).ckpt = s.ckpt := rfl
@[simp] theorem setDie_host (n : Nat) (v : Die) : (s.setDie n v).host = s.host := rfl
@[simp] theorem setDie_fuses (n : Nat) (v : Die) : (s.setDie n v).fuses = s.fuses := rfl
@[simp] theorem setDie_ncr (n : Nat) (v : Die) : (s.setDie n v).ncr = s.ncr := rfl
@[simp] theorem setDie_sec (n : Nat) (v : Die) : (s.setDie n v).sec = s.sec := rfl

/-! ### drew -/

@[simp] theorem drew_pending : (drew s).pending = s.pending := rfl
@[simp] theorem drew_mem : (drew s).mem = s.mem := rfl
@[simp] theorem drew_lineFault : (drew s).lineFault = s.lineFault := rfl
@[simp] theorem drew_decoded : (drew s).decoded = s.decoded := rfl
@[simp] theorem drew_partFaults : (drew s).partFaults = s.partFaults := rfl
@[simp] theorem drew_stk : (drew s).stk = s.stk := rfl
@[simp] theorem drew_brine : (drew s).brine = s.brine := rfl
@[simp] theorem drew_blocks : (drew s).blocks = s.blocks := rfl
@[simp] theorem drew_regions : (drew s).regions = s.regions := rfl
@[simp] theorem drew_satUzl : (drew s).satUzl = s.satUzl := rfl
@[simp] theorem drew_satCxl : (drew s).satCxl = s.satCxl := rfl
@[simp] theorem drew_job : (drew s).job = s.job := rfl
@[simp] theorem drew_fab : (drew s).fab = s.fab := rfl
@[simp] theorem drew_tim : (drew s).tim = s.tim := rfl
@[simp] theorem drew_harts : (drew s).harts = s.harts := rfl
@[simp] theorem drew_wcb : (drew s).wcb = s.wcb := rfl
@[simp] theorem drew_apt : (drew s).apt = s.apt := rfl
@[simp] theorem drew_err : (drew s).err = s.err := rfl
@[simp] theorem drew_hold : (drew s).hold = s.hold := rfl
@[simp] theorem drew_ckpt : (drew s).ckpt = s.ckpt := rfl
@[simp] theorem drew_host : (drew s).host = s.host := rfl
@[simp] theorem drew_fuses : (drew s).fuses = s.fuses := rfl
@[simp] theorem drew_ncr : (drew s).ncr = s.ncr := rfl
@[simp] theorem drew_sec : (drew s).sec = s.sec := rfl
@[simp] theorem drew_pwr : (drew s).pwr = s.pwr := rfl

/-! ### tick -/

@[simp] theorem tick_pending (d : Nat) : (tick s d).pending = s.pending := rfl
@[simp] theorem tick_free (d : Nat) : (tick s d).free = s.free := rfl
@[simp] theorem tick_mem (d : Nat) : (tick s d).mem = s.mem := rfl
@[simp] theorem tick_lineFault (d : Nat) : (tick s d).lineFault = s.lineFault := rfl
@[simp] theorem tick_decoded (d : Nat) : (tick s d).decoded = s.decoded := rfl
@[simp] theorem tick_partFaults (d : Nat) : (tick s d).partFaults = s.partFaults := rfl
@[simp] theorem tick_stk (d : Nat) : (tick s d).stk = s.stk := rfl
@[simp] theorem tick_brine (d : Nat) : (tick s d).brine = s.brine := rfl
@[simp] theorem tick_blocks (d : Nat) : (tick s d).blocks = s.blocks := rfl
@[simp] theorem tick_regions (d : Nat) : (tick s d).regions = s.regions := rfl
@[simp] theorem tick_satUzl (d : Nat) : (tick s d).satUzl = s.satUzl := rfl
@[simp] theorem tick_satCxl (d : Nat) : (tick s d).satCxl = s.satCxl := rfl
@[simp] theorem tick_job (d : Nat) : (tick s d).job = s.job := rfl
@[simp] theorem tick_fab (d : Nat) : (tick s d).fab = s.fab := rfl
@[simp] theorem tick_harts (d : Nat) : (tick s d).harts = s.harts := rfl
@[simp] theorem tick_wcb (d : Nat) : (tick s d).wcb = s.wcb := rfl
@[simp] theorem tick_apt (d : Nat) : (tick s d).apt = s.apt := rfl
@[simp] theorem tick_err (d : Nat) : (tick s d).err = s.err := rfl
@[simp] theorem tick_hold (d : Nat) : (tick s d).hold = s.hold := rfl
@[simp] theorem tick_ckpt (d : Nat) : (tick s d).ckpt = s.ckpt := rfl
@[simp] theorem tick_host (d : Nat) : (tick s d).host = s.host := rfl
@[simp] theorem tick_fuses (d : Nat) : (tick s d).fuses = s.fuses := rfl
@[simp] theorem tick_ncr (d : Nat) : (tick s d).ncr = s.ncr := rfl
@[simp] theorem tick_sec (d : Nat) : (tick s d).sec = s.sec := rfl

/-! ### wrKey -/

@[simp] theorem wrKey_pending (k : Nat) (v : Byte) : (wrKey s k v).pending = s.pending := rfl
@[simp] theorem wrKey_free (k : Nat) (v : Byte) : (wrKey s k v).free = s.free := rfl
@[simp] theorem wrKey_lineFault (k : Nat) (v : Byte) : (wrKey s k v).lineFault = s.lineFault := rfl
@[simp] theorem wrKey_decoded (k : Nat) (v : Byte) : (wrKey s k v).decoded = s.decoded := rfl
@[simp] theorem wrKey_partFaults (k : Nat) (v : Byte) : (wrKey s k v).partFaults = s.partFaults := rfl
@[simp] theorem wrKey_stk (k : Nat) (v : Byte) : (wrKey s k v).stk = s.stk := rfl
@[simp] theorem wrKey_brine (k : Nat) (v : Byte) : (wrKey s k v).brine = s.brine := rfl
@[simp] theorem wrKey_blocks (k : Nat) (v : Byte) : (wrKey s k v).blocks = s.blocks := rfl
@[simp] theorem wrKey_regions (k : Nat) (v : Byte) : (wrKey s k v).regions = s.regions := rfl
@[simp] theorem wrKey_satUzl (k : Nat) (v : Byte) : (wrKey s k v).satUzl = s.satUzl := rfl
@[simp] theorem wrKey_satCxl (k : Nat) (v : Byte) : (wrKey s k v).satCxl = s.satCxl := rfl
@[simp] theorem wrKey_job (k : Nat) (v : Byte) : (wrKey s k v).job = s.job := rfl
@[simp] theorem wrKey_fab (k : Nat) (v : Byte) : (wrKey s k v).fab = s.fab := rfl
@[simp] theorem wrKey_tim (k : Nat) (v : Byte) : (wrKey s k v).tim = s.tim := rfl
@[simp] theorem wrKey_harts (k : Nat) (v : Byte) : (wrKey s k v).harts = s.harts := rfl
@[simp] theorem wrKey_wcb (k : Nat) (v : Byte) : (wrKey s k v).wcb = s.wcb := rfl
@[simp] theorem wrKey_apt (k : Nat) (v : Byte) : (wrKey s k v).apt = s.apt := rfl
@[simp] theorem wrKey_err (k : Nat) (v : Byte) : (wrKey s k v).err = s.err := rfl
@[simp] theorem wrKey_hold (k : Nat) (v : Byte) : (wrKey s k v).hold = s.hold := rfl
@[simp] theorem wrKey_ckpt (k : Nat) (v : Byte) : (wrKey s k v).ckpt = s.ckpt := rfl
@[simp] theorem wrKey_host (k : Nat) (v : Byte) : (wrKey s k v).host = s.host := rfl
@[simp] theorem wrKey_fuses (k : Nat) (v : Byte) : (wrKey s k v).fuses = s.fuses := rfl
@[simp] theorem wrKey_ncr (k : Nat) (v : Byte) : (wrKey s k v).ncr = s.ncr := rfl
@[simp] theorem wrKey_sec (k : Nat) (v : Byte) : (wrKey s k v).sec = s.sec := rfl
@[simp] theorem wrKey_pwr (k : Nat) (v : Byte) : (wrKey s k v).pwr = s.pwr := rfl

/-! ### wrHost -/

@[simp] theorem wrHost_pending (a : Nat) (v : Byte) : (wrHost s a v).pending = s.pending := rfl
@[simp] theorem wrHost_free (a : Nat) (v : Byte) : (wrHost s a v).free = s.free := rfl
@[simp] theorem wrHost_mem (a : Nat) (v : Byte) : (wrHost s a v).mem = s.mem := rfl
@[simp] theorem wrHost_lineFault (a : Nat) (v : Byte) : (wrHost s a v).lineFault = s.lineFault := rfl
@[simp] theorem wrHost_decoded (a : Nat) (v : Byte) : (wrHost s a v).decoded = s.decoded := rfl
@[simp] theorem wrHost_partFaults (a : Nat) (v : Byte) : (wrHost s a v).partFaults = s.partFaults := rfl
@[simp] theorem wrHost_stk (a : Nat) (v : Byte) : (wrHost s a v).stk = s.stk := rfl
@[simp] theorem wrHost_brine (a : Nat) (v : Byte) : (wrHost s a v).brine = s.brine := rfl
@[simp] theorem wrHost_blocks (a : Nat) (v : Byte) : (wrHost s a v).blocks = s.blocks := rfl
@[simp] theorem wrHost_regions (a : Nat) (v : Byte) : (wrHost s a v).regions = s.regions := rfl
@[simp] theorem wrHost_satUzl (a : Nat) (v : Byte) : (wrHost s a v).satUzl = s.satUzl := rfl
@[simp] theorem wrHost_satCxl (a : Nat) (v : Byte) : (wrHost s a v).satCxl = s.satCxl := rfl
@[simp] theorem wrHost_job (a : Nat) (v : Byte) : (wrHost s a v).job = s.job := rfl
@[simp] theorem wrHost_fab (a : Nat) (v : Byte) : (wrHost s a v).fab = s.fab := rfl
@[simp] theorem wrHost_tim (a : Nat) (v : Byte) : (wrHost s a v).tim = s.tim := rfl
@[simp] theorem wrHost_harts (a : Nat) (v : Byte) : (wrHost s a v).harts = s.harts := rfl
@[simp] theorem wrHost_wcb (a : Nat) (v : Byte) : (wrHost s a v).wcb = s.wcb := rfl
@[simp] theorem wrHost_apt (a : Nat) (v : Byte) : (wrHost s a v).apt = s.apt := rfl
@[simp] theorem wrHost_err (a : Nat) (v : Byte) : (wrHost s a v).err = s.err := rfl
@[simp] theorem wrHost_hold (a : Nat) (v : Byte) : (wrHost s a v).hold = s.hold := rfl
@[simp] theorem wrHost_ckpt (a : Nat) (v : Byte) : (wrHost s a v).ckpt = s.ckpt := rfl
@[simp] theorem wrHost_fuses (a : Nat) (v : Byte) : (wrHost s a v).fuses = s.fuses := rfl
@[simp] theorem wrHost_ncr (a : Nat) (v : Byte) : (wrHost s a v).ncr = s.ncr := rfl
@[simp] theorem wrHost_sec (a : Nat) (v : Byte) : (wrHost s a v).sec = s.sec := rfl
@[simp] theorem wrHost_pwr (a : Nat) (v : Byte) : (wrHost s a v).pwr = s.pwr := rfl

/-! ### raise -/

@[simp] theorem raise_pending (i : Nat) : (raise s i).pending = s.pending := rfl
@[simp] theorem raise_free (i : Nat) : (raise s i).free = s.free := rfl
@[simp] theorem raise_mem (i : Nat) : (raise s i).mem = s.mem := rfl
@[simp] theorem raise_lineFault (i : Nat) : (raise s i).lineFault = s.lineFault := rfl
@[simp] theorem raise_decoded (i : Nat) : (raise s i).decoded = s.decoded := rfl
@[simp] theorem raise_partFaults (i : Nat) : (raise s i).partFaults = s.partFaults := rfl
@[simp] theorem raise_stk (i : Nat) : (raise s i).stk = s.stk := rfl
@[simp] theorem raise_brine (i : Nat) : (raise s i).brine = s.brine := rfl
@[simp] theorem raise_blocks (i : Nat) : (raise s i).blocks = s.blocks := rfl
@[simp] theorem raise_regions (i : Nat) : (raise s i).regions = s.regions := rfl
@[simp] theorem raise_satUzl (i : Nat) : (raise s i).satUzl = s.satUzl := rfl
@[simp] theorem raise_satCxl (i : Nat) : (raise s i).satCxl = s.satCxl := rfl
@[simp] theorem raise_job (i : Nat) : (raise s i).job = s.job := rfl
@[simp] theorem raise_fab (i : Nat) : (raise s i).fab = s.fab := rfl
@[simp] theorem raise_tim (i : Nat) : (raise s i).tim = s.tim := rfl
@[simp] theorem raise_harts (i : Nat) : (raise s i).harts = s.harts := rfl
@[simp] theorem raise_wcb (i : Nat) : (raise s i).wcb = s.wcb := rfl
@[simp] theorem raise_apt (i : Nat) : (raise s i).apt = s.apt := rfl
@[simp] theorem raise_err (i : Nat) : (raise s i).err = s.err := rfl
@[simp] theorem raise_hold (i : Nat) : (raise s i).hold = s.hold := rfl
@[simp] theorem raise_ckpt (i : Nat) : (raise s i).ckpt = s.ckpt := rfl
@[simp] theorem raise_fuses (i : Nat) : (raise s i).fuses = s.fuses := rfl
@[simp] theorem raise_ncr (i : Nat) : (raise s i).ncr = s.ncr := rfl
@[simp] theorem raise_sec (i : Nat) : (raise s i).sec = s.sec := rfl
@[simp] theorem raise_pwr (i : Nat) : (raise s i).pwr = s.pwr := rfl

/-! ### ibi -/

@[simp] theorem ibi_pending (v : Byte) : (ibi s v).pending = s.pending := rfl
@[simp] theorem ibi_free (v : Byte) : (ibi s v).free = s.free := rfl
@[simp] theorem ibi_mem (v : Byte) : (ibi s v).mem = s.mem := rfl
@[simp] theorem ibi_lineFault (v : Byte) : (ibi s v).lineFault = s.lineFault := rfl
@[simp] theorem ibi_decoded (v : Byte) : (ibi s v).decoded = s.decoded := rfl
@[simp] theorem ibi_partFaults (v : Byte) : (ibi s v).partFaults = s.partFaults := rfl
@[simp] theorem ibi_stk (v : Byte) : (ibi s v).stk = s.stk := rfl
@[simp] theorem ibi_brine (v : Byte) : (ibi s v).brine = s.brine := rfl
@[simp] theorem ibi_blocks (v : Byte) : (ibi s v).blocks = s.blocks := rfl
@[simp] theorem ibi_regions (v : Byte) : (ibi s v).regions = s.regions := rfl
@[simp] theorem ibi_satUzl (v : Byte) : (ibi s v).satUzl = s.satUzl := rfl
@[simp] theorem ibi_satCxl (v : Byte) : (ibi s v).satCxl = s.satCxl := rfl
@[simp] theorem ibi_job (v : Byte) : (ibi s v).job = s.job := rfl
@[simp] theorem ibi_fab (v : Byte) : (ibi s v).fab = s.fab := rfl
@[simp] theorem ibi_tim (v : Byte) : (ibi s v).tim = s.tim := rfl
@[simp] theorem ibi_harts (v : Byte) : (ibi s v).harts = s.harts := rfl
@[simp] theorem ibi_wcb (v : Byte) : (ibi s v).wcb = s.wcb := rfl
@[simp] theorem ibi_apt (v : Byte) : (ibi s v).apt = s.apt := rfl
@[simp] theorem ibi_err (v : Byte) : (ibi s v).err = s.err := rfl
@[simp] theorem ibi_hold (v : Byte) : (ibi s v).hold = s.hold := rfl
@[simp] theorem ibi_ckpt (v : Byte) : (ibi s v).ckpt = s.ckpt := rfl
@[simp] theorem ibi_fuses (v : Byte) : (ibi s v).fuses = s.fuses := rfl
@[simp] theorem ibi_ncr (v : Byte) : (ibi s v).ncr = s.ncr := rfl
@[simp] theorem ibi_sec (v : Byte) : (ibi s v).sec = s.sec := rfl
@[simp] theorem ibi_pwr (v : Byte) : (ibi s v).pwr = s.pwr := rfl

/-! ### setFlags -/

@[simp] theorem setFlags_pending (b : Blk) (e : Nat) (f : BitVec 4) : (setFlags s b e f).pending = s.pending := rfl
@[simp] theorem setFlags_free (b : Blk) (e : Nat) (f : BitVec 4) : (setFlags s b e f).free = s.free := rfl
@[simp] theorem setFlags_mem (b : Blk) (e : Nat) (f : BitVec 4) : (setFlags s b e f).mem = s.mem := rfl
@[simp] theorem setFlags_lineFault (b : Blk) (e : Nat) (f : BitVec 4) : (setFlags s b e f).lineFault = s.lineFault := rfl
@[simp] theorem setFlags_decoded (b : Blk) (e : Nat) (f : BitVec 4) : (setFlags s b e f).decoded = s.decoded := rfl
@[simp] theorem setFlags_partFaults (b : Blk) (e : Nat) (f : BitVec 4) : (setFlags s b e f).partFaults = s.partFaults := rfl
@[simp] theorem setFlags_stk (b : Blk) (e : Nat) (f : BitVec 4) : (setFlags s b e f).stk = s.stk := rfl
@[simp] theorem setFlags_brine (b : Blk) (e : Nat) (f : BitVec 4) : (setFlags s b e f).brine = s.brine := rfl
@[simp] theorem setFlags_regions (b : Blk) (e : Nat) (f : BitVec 4) : (setFlags s b e f).regions = s.regions := rfl
@[simp] theorem setFlags_satUzl (b : Blk) (e : Nat) (f : BitVec 4) : (setFlags s b e f).satUzl = s.satUzl := rfl
@[simp] theorem setFlags_satCxl (b : Blk) (e : Nat) (f : BitVec 4) : (setFlags s b e f).satCxl = s.satCxl := rfl
@[simp] theorem setFlags_job (b : Blk) (e : Nat) (f : BitVec 4) : (setFlags s b e f).job = s.job := rfl
@[simp] theorem setFlags_fab (b : Blk) (e : Nat) (f : BitVec 4) : (setFlags s b e f).fab = s.fab := rfl
@[simp] theorem setFlags_tim (b : Blk) (e : Nat) (f : BitVec 4) : (setFlags s b e f).tim = s.tim := rfl
@[simp] theorem setFlags_harts (b : Blk) (e : Nat) (f : BitVec 4) : (setFlags s b e f).harts = s.harts := rfl
@[simp] theorem setFlags_wcb (b : Blk) (e : Nat) (f : BitVec 4) : (setFlags s b e f).wcb = s.wcb := rfl
@[simp] theorem setFlags_apt (b : Blk) (e : Nat) (f : BitVec 4) : (setFlags s b e f).apt = s.apt := rfl
@[simp] theorem setFlags_err (b : Blk) (e : Nat) (f : BitVec 4) : (setFlags s b e f).err = s.err := rfl
@[simp] theorem setFlags_hold (b : Blk) (e : Nat) (f : BitVec 4) : (setFlags s b e f).hold = s.hold := rfl
@[simp] theorem setFlags_ckpt (b : Blk) (e : Nat) (f : BitVec 4) : (setFlags s b e f).ckpt = s.ckpt := rfl
@[simp] theorem setFlags_host (b : Blk) (e : Nat) (f : BitVec 4) : (setFlags s b e f).host = s.host := rfl
@[simp] theorem setFlags_fuses (b : Blk) (e : Nat) (f : BitVec 4) : (setFlags s b e f).fuses = s.fuses := rfl
@[simp] theorem setFlags_ncr (b : Blk) (e : Nat) (f : BitVec 4) : (setFlags s b e f).ncr = s.ncr := rfl
@[simp] theorem setFlags_sec (b : Blk) (e : Nat) (f : BitVec 4) : (setFlags s b e f).sec = s.sec := rfl
@[simp] theorem setFlags_pwr (b : Blk) (e : Nat) (f : BitVec 4) : (setFlags s b e f).pwr = s.pwr := rfl

/-! ### updInFl -/

@[simp] theorem updInFl_pending (b : Blk) (q : Qc) (i : Nat) (g : InFl → InFl) : (updInFl s b q i g).pending = s.pending := rfl
@[simp] theorem updInFl_free (b : Blk) (q : Qc) (i : Nat) (g : InFl → InFl) : (updInFl s b q i g).free = s.free := rfl
@[simp] theorem updInFl_mem (b : Blk) (q : Qc) (i : Nat) (g : InFl → InFl) : (updInFl s b q i g).mem = s.mem := rfl
@[simp] theorem updInFl_lineFault (b : Blk) (q : Qc) (i : Nat) (g : InFl → InFl) : (updInFl s b q i g).lineFault = s.lineFault := rfl
@[simp] theorem updInFl_decoded (b : Blk) (q : Qc) (i : Nat) (g : InFl → InFl) : (updInFl s b q i g).decoded = s.decoded := rfl
@[simp] theorem updInFl_partFaults (b : Blk) (q : Qc) (i : Nat) (g : InFl → InFl) : (updInFl s b q i g).partFaults = s.partFaults := rfl
@[simp] theorem updInFl_stk (b : Blk) (q : Qc) (i : Nat) (g : InFl → InFl) : (updInFl s b q i g).stk = s.stk := rfl
@[simp] theorem updInFl_brine (b : Blk) (q : Qc) (i : Nat) (g : InFl → InFl) : (updInFl s b q i g).brine = s.brine := rfl
@[simp] theorem updInFl_regions (b : Blk) (q : Qc) (i : Nat) (g : InFl → InFl) : (updInFl s b q i g).regions = s.regions := rfl
@[simp] theorem updInFl_satUzl (b : Blk) (q : Qc) (i : Nat) (g : InFl → InFl) : (updInFl s b q i g).satUzl = s.satUzl := rfl
@[simp] theorem updInFl_satCxl (b : Blk) (q : Qc) (i : Nat) (g : InFl → InFl) : (updInFl s b q i g).satCxl = s.satCxl := rfl
@[simp] theorem updInFl_job (b : Blk) (q : Qc) (i : Nat) (g : InFl → InFl) : (updInFl s b q i g).job = s.job := rfl
@[simp] theorem updInFl_fab (b : Blk) (q : Qc) (i : Nat) (g : InFl → InFl) : (updInFl s b q i g).fab = s.fab := rfl
@[simp] theorem updInFl_tim (b : Blk) (q : Qc) (i : Nat) (g : InFl → InFl) : (updInFl s b q i g).tim = s.tim := rfl
@[simp] theorem updInFl_harts (b : Blk) (q : Qc) (i : Nat) (g : InFl → InFl) : (updInFl s b q i g).harts = s.harts := rfl
@[simp] theorem updInFl_wcb (b : Blk) (q : Qc) (i : Nat) (g : InFl → InFl) : (updInFl s b q i g).wcb = s.wcb := rfl
@[simp] theorem updInFl_apt (b : Blk) (q : Qc) (i : Nat) (g : InFl → InFl) : (updInFl s b q i g).apt = s.apt := rfl
@[simp] theorem updInFl_err (b : Blk) (q : Qc) (i : Nat) (g : InFl → InFl) : (updInFl s b q i g).err = s.err := rfl
@[simp] theorem updInFl_hold (b : Blk) (q : Qc) (i : Nat) (g : InFl → InFl) : (updInFl s b q i g).hold = s.hold := rfl
@[simp] theorem updInFl_ckpt (b : Blk) (q : Qc) (i : Nat) (g : InFl → InFl) : (updInFl s b q i g).ckpt = s.ckpt := rfl
@[simp] theorem updInFl_host (b : Blk) (q : Qc) (i : Nat) (g : InFl → InFl) : (updInFl s b q i g).host = s.host := rfl
@[simp] theorem updInFl_fuses (b : Blk) (q : Qc) (i : Nat) (g : InFl → InFl) : (updInFl s b q i g).fuses = s.fuses := rfl
@[simp] theorem updInFl_ncr (b : Blk) (q : Qc) (i : Nat) (g : InFl → InFl) : (updInFl s b q i g).ncr = s.ncr := rfl
@[simp] theorem updInFl_sec (b : Blk) (q : Qc) (i : Nat) (g : InFl → InFl) : (updInFl s b q i g).sec = s.sec := rfl
@[simp] theorem updInFl_pwr (b : Blk) (q : Qc) (i : Nat) (g : InFl → InFl) : (updInFl s b q i g).pwr = s.pwr := rfl

/-! ### A unit after it has been set -/

/-- The keys of two blocks are equal only where the blocks are. -/
theorem key_inj {a b : Blk} (h : a.key = b.key) : a = b := by
  obtain ⟨r, n⟩ := a
  obtain ⟨r', n'⟩ := b
  simp only [Blk.key] at h
  have := n.isLt
  have := n'.isLt
  have h1 : r.toNat = r'.toNat := by omega
  have h2 : n.toNat = n'.toNat := by omega
  rw [BitVec.eq_of_toNat_eq h1, BitVec.eq_of_toNat_eq h2]

/-- The codes of two queues are equal only where the queues are. -/
theorem code_inj {p q : Qc} (h : p.code = q.code) : p = q := by
  cases p <;> cases q <;> first | rfl | exact absurd h (by decide)

variable {s}

@[simp] theorem blk_setBlk (b : Blk) (v : Block) : (s.setBlk b v).blk b = v := get_set_same ..

theorem blk_setBlk_of_ne {a b : Blk} (v : Block) (h : a ≠ b) : (s.setBlk b v).blk a = s.blk a :=
  get_set_other _ _ _ fun e => h (key_inj e)

@[simp] theorem blk_updBlk (b : Blk) (f : Block → Block) : (s.updBlk b f).blk b = f (s.blk b) := get_set_same ..

theorem blk_updBlk_of_ne {a b : Blk} (f : Block → Block) (h : a ≠ b) : (s.updBlk b f).blk a = s.blk a :=
  blk_setBlk_of_ne _ h

@[simp] theorem queue_setQueue (k : Block) (q : Qc) (v : Queue) : (k.setQueue q v).queue q = v := get_set_same ..

theorem queue_setQueue_of_ne (k : Block) {p q : Qc} (v : Queue) (h : p ≠ q) : (k.setQueue q v).queue p = k.queue p :=
  get_set_other _ _ _ fun e => h (code_inj e)

@[simp] theorem q_setQ (b : Blk) (q : Qc) (v : Queue) : (s.setQ b q v).q b q = v := by simp [State.q, State.setQ]

@[simp] theorem q_updQ (b : Blk) (q : Qc) (f : Queue → Queue) : (s.updQ b q f).q b q = f (s.q b q) := by
  simp [State.updQ]

theorem q_updQ_of_ne (b : Blk) {p q : Qc} (f : Queue → Queue) (h : p ≠ q) : (s.updQ b q f).q b p = s.q b p := by
  simp [State.updQ, State.setQ, State.q, queue_setQueue_of_ne _ _ h]

theorem blk_updQ_of_ne {a b : Blk} (q : Qc) (f : Queue → Queue) (h : a ≠ b) : (s.updQ b q f).blk a = s.blk a := by
  simp [State.updQ, State.setQ, blk_updBlk_of_ne _ h]

@[simp] theorem ev_updQ (b : Blk) (q : Qc) (f : Queue → Queue) : ((s.updQ b q f).blk b).ev = (s.blk b).ev := by
  simp [State.updQ, State.setQ, Block.setQueue]

@[simp] theorem ctxs_updQ (b : Blk) (q : Qc) (f : Queue → Queue) : ((s.updQ b q f).blk b).ctxs = (s.blk b).ctxs := by
  simp [State.updQ, State.setQ, Block.setQueue]

@[simp] theorem region_setRegion (n : Nat) (v : Region) : (s.setRegion n v).region n = v := get_set_same ..

@[simp] theorem stack_setStack (n : Nat) (v : Stack) : (s.setStack n v).stack n = v := get_set_same ..

theorem stack_setStack_of_ne {m n : Nat} (v : Stack) (h : m ≠ n) : (s.setStack n v).stack m = s.stack m :=
  get_set_other _ _ _ h

@[simp] theorem port_setPort (n : Nat) (v : Port) : (s.setPort n v).port n = v := get_set_same ..

theorem port_setPort_of_ne {m n : Nat} (v : Port) (h : m ≠ n) : (s.setPort n v).port m = s.port m :=
  get_set_other _ _ _ h

@[simp] theorem pair_setPair (n : NodeId) (v : Pair) : (s.setPair n v).pair n = v := get_set_same ..

theorem pair_setPair_of_ne {m n : NodeId} (v : Pair) (h : m ≠ n) : (s.setPair n v).pair m = s.pair m :=
  get_set_other _ _ _ fun e => h (BitVec.eq_of_toNat_eq e)

@[simp] theorem hart_setHart (h : BitVec 6) (v : Hart) : (s.setHart h v).hart h = v := get_set_same ..

theorem hart_setHart_of_ne {g h : BitVec 6} (v : Hart) (n : g ≠ h) : (s.setHart h v).hart g = s.hart g :=
  get_set_other _ _ _ fun e => n (BitVec.eq_of_toNat_eq e)

@[simp] theorem hart_updHart (h : BitVec 6) (f : Hart → Hart) : (s.updHart h f).hart h = f (s.hart h) := get_set_same ..

theorem hart_updHart_of_ne {g h : BitVec 6} (f : Hart → Hart) (n : g ≠ h) : (s.updHart h f).hart g = s.hart g :=
  hart_setHart_of_ne _ n

@[simp] theorem die_setDie (n : Nat) (v : Die) : (s.setDie n v).die n = v := get_set_same ..

theorem die_setDie_of_ne {m n : Nat} (v : Die) (h : m ≠ n) : (s.setDie n v).die m = s.die m := get_set_other _ _ _ h

@[simp] theorem rdKey_wrKey (k : Nat) (v : Byte) : rdKey (wrKey s k v) k = v := get_set_same ..

/-- A byte written leaves every other byte. -/
theorem rdKey_wrKey_of_ne {j k : Nat} (v : Byte) (h : j ≠ k) : rdKey (wrKey s k v) j = rdKey s j := get_set_other _ _ _ h

@[simp] theorem rdHost_wrHost (a : Nat) (v : Byte) : rdHost (wrHost s a v) a = v := get_set_same ..

theorem rdHost_wrHost_of_ne {a b : Nat} (v : Byte) (h : b ≠ a) : rdHost (wrHost s a v) b = rdHost s b :=
  get_set_other _ _ _ h

end Sys2Proof.Laws
end

