-- ==== Sys2Proof/Laws/Errors.lean ====
section
/-!
SUPPORT. What recording an event, holding, halting and answering the host leave as they were, one lemma a field.
-/
namespace Sys2Proof.Laws

open Sys2Proof.Machine

/-! ### pushRec: the node log -/

@[simp] theorem pushRec_pending (s : State) (r : ErrRec) : (pushRec s r).pending = s.pending := by rfl
@[simp] theorem pushRec_free (s : State) (r : ErrRec) : (pushRec s r).free = s.free := by rfl
@[simp] theorem pushRec_mem (s : State) (r : ErrRec) : (pushRec s r).mem = s.mem := by rfl
@[simp] theorem pushRec_lineFault (s : State) (r : ErrRec) : (pushRec s r).lineFault = s.lineFault := by rfl
@[simp] theorem pushRec_decoded (s : State) (r : ErrRec) : (pushRec s r).decoded = s.decoded := by rfl
@[simp] theorem pushRec_partFaults (s : State) (r : ErrRec) : (pushRec s r).partFaults = s.partFaults := by rfl
@[simp] theorem pushRec_stk (s : State) (r : ErrRec) : (pushRec s r).stk = s.stk := by rfl
@[simp] theorem pushRec_brine (s : State) (r : ErrRec) : (pushRec s r).brine = s.brine := by rfl
@[simp] theorem pushRec_blocks (s : State) (r : ErrRec) : (pushRec s r).blocks = s.blocks := by rfl
@[simp] theorem pushRec_regions (s : State) (r : ErrRec) : (pushRec s r).regions = s.regions := by rfl
@[simp] theorem pushRec_satUzl (s : State) (r : ErrRec) : (pushRec s r).satUzl = s.satUzl := by rfl
@[simp] theorem pushRec_satCxl (s : State) (r : ErrRec) : (pushRec s r).satCxl = s.satCxl := by rfl
@[simp] theorem pushRec_job (s : State) (r : ErrRec) : (pushRec s r).job = s.job := by rfl
@[simp] theorem pushRec_fab (s : State) (r : ErrRec) : (pushRec s r).fab = s.fab := by rfl
@[simp] theorem pushRec_tim (s : State) (r : ErrRec) : (pushRec s r).tim = s.tim := by rfl
@[simp] theorem pushRec_harts (s : State) (r : ErrRec) : (pushRec s r).harts = s.harts := by rfl
@[simp] theorem pushRec_wcb (s : State) (r : ErrRec) : (pushRec s r).wcb = s.wcb := by rfl
@[simp] theorem pushRec_apt (s : State) (r : ErrRec) : (pushRec s r).apt = s.apt := by rfl
@[simp] theorem pushRec_hold (s : State) (r : ErrRec) : (pushRec s r).hold = s.hold := by rfl
@[simp] theorem pushRec_ckpt (s : State) (r : ErrRec) : (pushRec s r).ckpt = s.ckpt := by rfl
@[simp] theorem pushRec_host (s : State) (r : ErrRec) : (pushRec s r).host = s.host := by rfl
@[simp] theorem pushRec_fuses (s : State) (r : ErrRec) : (pushRec s r).fuses = s.fuses := by rfl
@[simp] theorem pushRec_ncr (s : State) (r : ErrRec) : (pushRec s r).ncr = s.ncr := by rfl
@[simp] theorem pushRec_sec (s : State) (r : ErrRec) : (pushRec s r).sec = s.sec := by rfl
@[simp] theorem pushRec_pwr (s : State) (r : ErrRec) : (pushRec s r).pwr = s.pwr := by rfl

/-! ### worsen: the hold's worst severity -/

@[simp] theorem worsen_pending (s : State) (v : Sev) : (worsen s v).pending = s.pending := by unfold worsen; split <;> rfl
@[simp] theorem worsen_free (s : State) (v : Sev) : (worsen s v).free = s.free := by unfold worsen; split <;> rfl
@[simp] theorem worsen_mem (s : State) (v : Sev) : (worsen s v).mem = s.mem := by unfold worsen; split <;> rfl
@[simp] theorem worsen_lineFault (s : State) (v : Sev) : (worsen s v).lineFault = s.lineFault := by unfold worsen; split <;> rfl
@[simp] theorem worsen_decoded (s : State) (v : Sev) : (worsen s v).decoded = s.decoded := by unfold worsen; split <;> rfl
@[simp] theorem worsen_partFaults (s : State) (v : Sev) : (worsen s v).partFaults = s.partFaults := by unfold worsen; split <;> rfl
@[simp] theorem worsen_stk (s : State) (v : Sev) : (worsen s v).stk = s.stk := by unfold worsen; split <;> rfl
@[simp] theorem worsen_brine (s : State) (v : Sev) : (worsen s v).brine = s.brine := by unfold worsen; split <;> rfl
@[simp] theorem worsen_blocks (s : State) (v : Sev) : (worsen s v).blocks = s.blocks := by unfold worsen; split <;> rfl
@[simp] theorem worsen_regions (s : State) (v : Sev) : (worsen s v).regions = s.regions := by unfold worsen; split <;> rfl
@[simp] theorem worsen_satUzl (s : State) (v : Sev) : (worsen s v).satUzl = s.satUzl := by unfold worsen; split <;> rfl
@[simp] theorem worsen_satCxl (s : State) (v : Sev) : (worsen s v).satCxl = s.satCxl := by unfold worsen; split <;> rfl
@[simp] theorem worsen_job (s : State) (v : Sev) : (worsen s v).job = s.job := by unfold worsen; split <;> rfl
@[simp] theorem worsen_fab (s : State) (v : Sev) : (worsen s v).fab = s.fab := by unfold worsen; split <;> rfl
@[simp] theorem worsen_tim (s : State) (v : Sev) : (worsen s v).tim = s.tim := by unfold worsen; split <;> rfl
@[simp] theorem worsen_harts (s : State) (v : Sev) : (worsen s v).harts = s.harts := by unfold worsen; split <;> rfl
@[simp] theorem worsen_wcb (s : State) (v : Sev) : (worsen s v).wcb = s.wcb := by unfold worsen; split <;> rfl
@[simp] theorem worsen_apt (s : State) (v : Sev) : (worsen s v).apt = s.apt := by unfold worsen; split <;> rfl
@[simp] theorem worsen_err (s : State) (v : Sev) : (worsen s v).err = s.err := by unfold worsen; split <;> rfl
@[simp] theorem worsen_ckpt (s : State) (v : Sev) : (worsen s v).ckpt = s.ckpt := by unfold worsen; split <;> rfl
@[simp] theorem worsen_host (s : State) (v : Sev) : (worsen s v).host = s.host := by unfold worsen; split <;> rfl
@[simp] theorem worsen_fuses (s : State) (v : Sev) : (worsen s v).fuses = s.fuses := by unfold worsen; split <;> rfl
@[simp] theorem worsen_ncr (s : State) (v : Sev) : (worsen s v).ncr = s.ncr := by unfold worsen; split <;> rfl
@[simp] theorem worsen_sec (s : State) (v : Sev) : (worsen s v).sec = s.sec := by unfold worsen; split <;> rfl
@[simp] theorem worsen_pwr (s : State) (v : Sev) : (worsen s v).pwr = s.pwr := by unfold worsen; split <;> rfl

/-! ### recordSev: an event is counted and recorded -/

@[simp] theorem recordSev_pending (s : State) (c : ErrCode) (v : Sev) (a : EvArgs) : (recordSev s c v a).pending = s.pending := by unfold recordSev; dsimp only; (repeat' split) <;> simp
@[simp] theorem recordSev_mem (s : State) (c : ErrCode) (v : Sev) (a : EvArgs) : (recordSev s c v a).mem = s.mem := by unfold recordSev; dsimp only; (repeat' split) <;> simp
@[simp] theorem recordSev_lineFault (s : State) (c : ErrCode) (v : Sev) (a : EvArgs) : (recordSev s c v a).lineFault = s.lineFault := by unfold recordSev; dsimp only; (repeat' split) <;> simp
@[simp] theorem recordSev_decoded (s : State) (c : ErrCode) (v : Sev) (a : EvArgs) : (recordSev s c v a).decoded = s.decoded := by unfold recordSev; dsimp only; (repeat' split) <;> simp
@[simp] theorem recordSev_partFaults (s : State) (c : ErrCode) (v : Sev) (a : EvArgs) : (recordSev s c v a).partFaults = s.partFaults := by unfold recordSev; dsimp only; (repeat' split) <;> simp
@[simp] theorem recordSev_stk (s : State) (c : ErrCode) (v : Sev) (a : EvArgs) : (recordSev s c v a).stk = s.stk := by unfold recordSev; dsimp only; (repeat' split) <;> simp
@[simp] theorem recordSev_brine (s : State) (c : ErrCode) (v : Sev) (a : EvArgs) : (recordSev s c v a).brine = s.brine := by unfold recordSev; dsimp only; (repeat' split) <;> simp
@[simp] theorem recordSev_blocks (s : State) (c : ErrCode) (v : Sev) (a : EvArgs) : (recordSev s c v a).blocks = s.blocks := by unfold recordSev; dsimp only; (repeat' split) <;> simp
@[simp] theorem recordSev_regions (s : State) (c : ErrCode) (v : Sev) (a : EvArgs) : (recordSev s c v a).regions = s.regions := by unfold recordSev; dsimp only; (repeat' split) <;> simp
@[simp] theorem recordSev_satUzl (s : State) (c : ErrCode) (v : Sev) (a : EvArgs) : (recordSev s c v a).satUzl = s.satUzl := by unfold recordSev; dsimp only; (repeat' split) <;> simp
@[simp] theorem recordSev_satCxl (s : State) (c : ErrCode) (v : Sev) (a : EvArgs) : (recordSev s c v a).satCxl = s.satCxl := by unfold recordSev; dsimp only; (repeat' split) <;> simp
@[simp] theorem recordSev_job (s : State) (c : ErrCode) (v : Sev) (a : EvArgs) : (recordSev s c v a).job = s.job := by unfold recordSev; dsimp only; (repeat' split) <;> simp
@[simp] theorem recordSev_fab (s : State) (c : ErrCode) (v : Sev) (a : EvArgs) : (recordSev s c v a).fab = s.fab := by unfold recordSev; dsimp only; (repeat' split) <;> simp
@[simp] theorem recordSev_tim (s : State) (c : ErrCode) (v : Sev) (a : EvArgs) : (recordSev s c v a).tim = s.tim := by unfold recordSev; dsimp only; (repeat' split) <;> simp
@[simp] theorem recordSev_harts (s : State) (c : ErrCode) (v : Sev) (a : EvArgs) : (recordSev s c v a).harts = s.harts := by unfold recordSev; dsimp only; (repeat' split) <;> simp
@[simp] theorem recordSev_wcb (s : State) (c : ErrCode) (v : Sev) (a : EvArgs) : (recordSev s c v a).wcb = s.wcb := by unfold recordSev; dsimp only; (repeat' split) <;> simp
@[simp] theorem recordSev_apt (s : State) (c : ErrCode) (v : Sev) (a : EvArgs) : (recordSev s c v a).apt = s.apt := by unfold recordSev; dsimp only; (repeat' split) <;> simp
@[simp] theorem recordSev_ckpt (s : State) (c : ErrCode) (v : Sev) (a : EvArgs) : (recordSev s c v a).ckpt = s.ckpt := by unfold recordSev; dsimp only; (repeat' split) <;> simp
@[simp] theorem recordSev_host (s : State) (c : ErrCode) (v : Sev) (a : EvArgs) : (recordSev s c v a).host = s.host := by unfold recordSev; dsimp only; (repeat' split) <;> simp
@[simp] theorem recordSev_fuses (s : State) (c : ErrCode) (v : Sev) (a : EvArgs) : (recordSev s c v a).fuses = s.fuses := by unfold recordSev; dsimp only; (repeat' split) <;> simp
@[simp] theorem recordSev_ncr (s : State) (c : ErrCode) (v : Sev) (a : EvArgs) : (recordSev s c v a).ncr = s.ncr := by unfold recordSev; dsimp only; (repeat' split) <;> simp
@[simp] theorem recordSev_sec (s : State) (c : ErrCode) (v : Sev) (a : EvArgs) : (recordSev s c v a).sec = s.sec := by unfold recordSev; dsimp only; (repeat' split) <;> simp
@[simp] theorem recordSev_pwr (s : State) (c : ErrCode) (v : Sev) (a : EvArgs) : (recordSev s c v a).pwr = s.pwr := by unfold recordSev; dsimp only; (repeat' split) <;> simp

/-! ### record: an event of a code -/

@[simp] theorem record_pending (s : State) (c : ErrCode) (a : EvArgs) : (record s c a).pending = s.pending := by simp [record]
@[simp] theorem record_mem (s : State) (c : ErrCode) (a : EvArgs) : (record s c a).mem = s.mem := by simp [record]
@[simp] theorem record_lineFault (s : State) (c : ErrCode) (a : EvArgs) : (record s c a).lineFault = s.lineFault := by simp [record]
@[simp] theorem record_decoded (s : State) (c : ErrCode) (a : EvArgs) : (record s c a).decoded = s.decoded := by simp [record]
@[simp] theorem record_partFaults (s : State) (c : ErrCode) (a : EvArgs) : (record s c a).partFaults = s.partFaults := by simp [record]
@[simp] theorem record_stk (s : State) (c : ErrCode) (a : EvArgs) : (record s c a).stk = s.stk := by simp [record]
@[simp] theorem record_brine (s : State) (c : ErrCode) (a : EvArgs) : (record s c a).brine = s.brine := by simp [record]
@[simp] theorem record_blocks (s : State) (c : ErrCode) (a : EvArgs) : (record s c a).blocks = s.blocks := by simp [record]
@[simp] theorem record_regions (s : State) (c : ErrCode) (a : EvArgs) : (record s c a).regions = s.regions := by simp [record]
@[simp] theorem record_satUzl (s : State) (c : ErrCode) (a : EvArgs) : (record s c a).satUzl = s.satUzl := by simp [record]
@[simp] theorem record_satCxl (s : State) (c : ErrCode) (a : EvArgs) : (record s c a).satCxl = s.satCxl := by simp [record]
@[simp] theorem record_job (s : State) (c : ErrCode) (a : EvArgs) : (record s c a).job = s.job := by simp [record]
@[simp] theorem record_fab (s : State) (c : ErrCode) (a : EvArgs) : (record s c a).fab = s.fab := by simp [record]
@[simp] theorem record_tim (s : State) (c : ErrCode) (a : EvArgs) : (record s c a).tim = s.tim := by simp [record]
@[simp] theorem record_harts (s : State) (c : ErrCode) (a : EvArgs) : (record s c a).harts = s.harts := by simp [record]
@[simp] theorem record_wcb (s : State) (c : ErrCode) (a : EvArgs) : (record s c a).wcb = s.wcb := by simp [record]
@[simp] theorem record_apt (s : State) (c : ErrCode) (a : EvArgs) : (record s c a).apt = s.apt := by simp [record]
@[simp] theorem record_ckpt (s : State) (c : ErrCode) (a : EvArgs) : (record s c a).ckpt = s.ckpt := by simp [record]
@[simp] theorem record_host (s : State) (c : ErrCode) (a : EvArgs) : (record s c a).host = s.host := by simp [record]
@[simp] theorem record_fuses (s : State) (c : ErrCode) (a : EvArgs) : (record s c a).fuses = s.fuses := by simp [record]
@[simp] theorem record_ncr (s : State) (c : ErrCode) (a : EvArgs) : (record s c a).ncr = s.ncr := by simp [record]
@[simp] theorem record_sec (s : State) (c : ErrCode) (a : EvArgs) : (record s c a).sec = s.sec := by simp [record]
@[simp] theorem record_pwr (s : State) (c : ErrCode) (a : EvArgs) : (record s c a).pwr = s.pwr := by simp [record]

/-! ### logEntry: a log entry -/

@[simp] theorem logEntry_pending (s : State) (a b c : Nat) (d : List Byte) : (logEntry s a b c d).pending = s.pending := by unfold logEntry; dsimp only; split <;> simp
@[simp] theorem logEntry_mem (s : State) (a b c : Nat) (d : List Byte) : (logEntry s a b c d).mem = s.mem := by unfold logEntry; dsimp only; split <;> simp
@[simp] theorem logEntry_lineFault (s : State) (a b c : Nat) (d : List Byte) : (logEntry s a b c d).lineFault = s.lineFault := by unfold logEntry; dsimp only; split <;> simp
@[simp] theorem logEntry_decoded (s : State) (a b c : Nat) (d : List Byte) : (logEntry s a b c d).decoded = s.decoded := by unfold logEntry; dsimp only; split <;> simp
@[simp] theorem logEntry_partFaults (s : State) (a b c : Nat) (d : List Byte) : (logEntry s a b c d).partFaults = s.partFaults := by unfold logEntry; dsimp only; split <;> simp
@[simp] theorem logEntry_stk (s : State) (a b c : Nat) (d : List Byte) : (logEntry s a b c d).stk = s.stk := by unfold logEntry; dsimp only; split <;> simp
@[simp] theorem logEntry_brine (s : State) (a b c : Nat) (d : List Byte) : (logEntry s a b c d).brine = s.brine := by unfold logEntry; dsimp only; split <;> simp
@[simp] theorem logEntry_blocks (s : State) (a b c : Nat) (d : List Byte) : (logEntry s a b c d).blocks = s.blocks := by unfold logEntry; dsimp only; split <;> simp
@[simp] theorem logEntry_regions (s : State) (a b c : Nat) (d : List Byte) : (logEntry s a b c d).regions = s.regions := by unfold logEntry; dsimp only; split <;> simp
@[simp] theorem logEntry_satUzl (s : State) (a b c : Nat) (d : List Byte) : (logEntry s a b c d).satUzl = s.satUzl := by unfold logEntry; dsimp only; split <;> simp
@[simp] theorem logEntry_satCxl (s : State) (a b c : Nat) (d : List Byte) : (logEntry s a b c d).satCxl = s.satCxl := by unfold logEntry; dsimp only; split <;> simp
@[simp] theorem logEntry_job (s : State) (a b c : Nat) (d : List Byte) : (logEntry s a b c d).job = s.job := by unfold logEntry; dsimp only; split <;> simp
@[simp] theorem logEntry_fab (s : State) (a b c : Nat) (d : List Byte) : (logEntry s a b c d).fab = s.fab := by unfold logEntry; dsimp only; split <;> simp
@[simp] theorem logEntry_tim (s : State) (a b c : Nat) (d : List Byte) : (logEntry s a b c d).tim = s.tim := by unfold logEntry; dsimp only; split <;> simp
@[simp] theorem logEntry_harts (s : State) (a b c : Nat) (d : List Byte) : (logEntry s a b c d).harts = s.harts := by unfold logEntry; dsimp only; split <;> simp
@[simp] theorem logEntry_wcb (s : State) (a b c : Nat) (d : List Byte) : (logEntry s a b c d).wcb = s.wcb := by unfold logEntry; dsimp only; split <;> simp
@[simp] theorem logEntry_apt (s : State) (a b c : Nat) (d : List Byte) : (logEntry s a b c d).apt = s.apt := by unfold logEntry; dsimp only; split <;> simp
@[simp] theorem logEntry_err (s : State) (a b c : Nat) (d : List Byte) : (logEntry s a b c d).err = s.err := by unfold logEntry; dsimp only; split <;> simp
@[simp] theorem logEntry_hold (s : State) (a b c : Nat) (d : List Byte) : (logEntry s a b c d).hold = s.hold := by unfold logEntry; dsimp only; split <;> simp
@[simp] theorem logEntry_ckpt (s : State) (a b c : Nat) (d : List Byte) : (logEntry s a b c d).ckpt = s.ckpt := by unfold logEntry; dsimp only; split <;> simp
@[simp] theorem logEntry_fuses (s : State) (a b c : Nat) (d : List Byte) : (logEntry s a b c d).fuses = s.fuses := by unfold logEntry; dsimp only; split <;> simp
@[simp] theorem logEntry_ncr (s : State) (a b c : Nat) (d : List Byte) : (logEntry s a b c d).ncr = s.ncr := by unfold logEntry; dsimp only; split <;> simp
@[simp] theorem logEntry_sec (s : State) (a b c : Nat) (d : List Byte) : (logEntry s a b c d).sec = s.sec := by unfold logEntry; dsimp only; split <;> simp
@[simp] theorem logEntry_pwr (s : State) (a b c : Nat) (d : List Byte) : (logEntry s a b c d).pwr = s.pwr := by unfold logEntry; dsimp only; split <;> simp

/-! ### tracePoint: a trace point -/

@[simp] theorem tracePoint_pending (s : State) (a b : Nat) (d : List Byte) : (tracePoint s a b d).pending = s.pending := by unfold tracePoint; split <;> simp
@[simp] theorem tracePoint_mem (s : State) (a b : Nat) (d : List Byte) : (tracePoint s a b d).mem = s.mem := by unfold tracePoint; split <;> simp
@[simp] theorem tracePoint_lineFault (s : State) (a b : Nat) (d : List Byte) : (tracePoint s a b d).lineFault = s.lineFault := by unfold tracePoint; split <;> simp
@[simp] theorem tracePoint_decoded (s : State) (a b : Nat) (d : List Byte) : (tracePoint s a b d).decoded = s.decoded := by unfold tracePoint; split <;> simp
@[simp] theorem tracePoint_partFaults (s : State) (a b : Nat) (d : List Byte) : (tracePoint s a b d).partFaults = s.partFaults := by unfold tracePoint; split <;> simp
@[simp] theorem tracePoint_stk (s : State) (a b : Nat) (d : List Byte) : (tracePoint s a b d).stk = s.stk := by unfold tracePoint; split <;> simp
@[simp] theorem tracePoint_brine (s : State) (a b : Nat) (d : List Byte) : (tracePoint s a b d).brine = s.brine := by unfold tracePoint; split <;> simp
@[simp] theorem tracePoint_blocks (s : State) (a b : Nat) (d : List Byte) : (tracePoint s a b d).blocks = s.blocks := by unfold tracePoint; split <;> simp
@[simp] theorem tracePoint_regions (s : State) (a b : Nat) (d : List Byte) : (tracePoint s a b d).regions = s.regions := by unfold tracePoint; split <;> simp
@[simp] theorem tracePoint_satUzl (s : State) (a b : Nat) (d : List Byte) : (tracePoint s a b d).satUzl = s.satUzl := by unfold tracePoint; split <;> simp
@[simp] theorem tracePoint_satCxl (s : State) (a b : Nat) (d : List Byte) : (tracePoint s a b d).satCxl = s.satCxl := by unfold tracePoint; split <;> simp
@[simp] theorem tracePoint_job (s : State) (a b : Nat) (d : List Byte) : (tracePoint s a b d).job = s.job := by unfold tracePoint; split <;> simp
@[simp] theorem tracePoint_fab (s : State) (a b : Nat) (d : List Byte) : (tracePoint s a b d).fab = s.fab := by unfold tracePoint; split <;> simp
@[simp] theorem tracePoint_tim (s : State) (a b : Nat) (d : List Byte) : (tracePoint s a b d).tim = s.tim := by unfold tracePoint; split <;> simp
@[simp] theorem tracePoint_harts (s : State) (a b : Nat) (d : List Byte) : (tracePoint s a b d).harts = s.harts := by unfold tracePoint; split <;> simp
@[simp] theorem tracePoint_wcb (s : State) (a b : Nat) (d : List Byte) : (tracePoint s a b d).wcb = s.wcb := by unfold tracePoint; split <;> simp
@[simp] theorem tracePoint_apt (s : State) (a b : Nat) (d : List Byte) : (tracePoint s a b d).apt = s.apt := by unfold tracePoint; split <;> simp
@[simp] theorem tracePoint_err (s : State) (a b : Nat) (d : List Byte) : (tracePoint s a b d).err = s.err := by unfold tracePoint; split <;> simp
@[simp] theorem tracePoint_hold (s : State) (a b : Nat) (d : List Byte) : (tracePoint s a b d).hold = s.hold := by unfold tracePoint; split <;> simp
@[simp] theorem tracePoint_ckpt (s : State) (a b : Nat) (d : List Byte) : (tracePoint s a b d).ckpt = s.ckpt := by unfold tracePoint; split <;> simp
@[simp] theorem tracePoint_fuses (s : State) (a b : Nat) (d : List Byte) : (tracePoint s a b d).fuses = s.fuses := by unfold tracePoint; split <;> simp
@[simp] theorem tracePoint_ncr (s : State) (a b : Nat) (d : List Byte) : (tracePoint s a b d).ncr = s.ncr := by unfold tracePoint; split <;> simp
@[simp] theorem tracePoint_sec (s : State) (a b : Nat) (d : List Byte) : (tracePoint s a b d).sec = s.sec := by unfold tracePoint; split <;> simp
@[simp] theorem tracePoint_pwr (s : State) (a b : Nat) (d : List Byte) : (tracePoint s a b d).pwr = s.pwr := by unfold tracePoint; split <;> simp

/-! ### traceHw: a trace point of the hardware -/

@[simp] theorem traceHw_pending (s : State) (k : Nat) : (traceHw s k).pending = s.pending := by unfold traceHw; split <;> simp
@[simp] theorem traceHw_mem (s : State) (k : Nat) : (traceHw s k).mem = s.mem := by unfold traceHw; split <;> simp
@[simp] theorem traceHw_lineFault (s : State) (k : Nat) : (traceHw s k).lineFault = s.lineFault := by unfold traceHw; split <;> simp
@[simp] theorem traceHw_decoded (s : State) (k : Nat) : (traceHw s k).decoded = s.decoded := by unfold traceHw; split <;> simp
@[simp] theorem traceHw_partFaults (s : State) (k : Nat) : (traceHw s k).partFaults = s.partFaults := by unfold traceHw; split <;> simp
@[simp] theorem traceHw_stk (s : State) (k : Nat) : (traceHw s k).stk = s.stk := by unfold traceHw; split <;> simp
@[simp] theorem traceHw_brine (s : State) (k : Nat) : (traceHw s k).brine = s.brine := by unfold traceHw; split <;> simp
@[simp] theorem traceHw_blocks (s : State) (k : Nat) : (traceHw s k).blocks = s.blocks := by unfold traceHw; split <;> simp
@[simp] theorem traceHw_regions (s : State) (k : Nat) : (traceHw s k).regions = s.regions := by unfold traceHw; split <;> simp
@[simp] theorem traceHw_satUzl (s : State) (k : Nat) : (traceHw s k).satUzl = s.satUzl := by unfold traceHw; split <;> simp
@[simp] theorem traceHw_satCxl (s : State) (k : Nat) : (traceHw s k).satCxl = s.satCxl := by unfold traceHw; split <;> simp
@[simp] theorem traceHw_job (s : State) (k : Nat) : (traceHw s k).job = s.job := by unfold traceHw; split <;> simp
@[simp] theorem traceHw_fab (s : State) (k : Nat) : (traceHw s k).fab = s.fab := by unfold traceHw; split <;> simp
@[simp] theorem traceHw_tim (s : State) (k : Nat) : (traceHw s k).tim = s.tim := by unfold traceHw; split <;> simp
@[simp] theorem traceHw_harts (s : State) (k : Nat) : (traceHw s k).harts = s.harts := by unfold traceHw; split <;> simp
@[simp] theorem traceHw_wcb (s : State) (k : Nat) : (traceHw s k).wcb = s.wcb := by unfold traceHw; split <;> simp
@[simp] theorem traceHw_apt (s : State) (k : Nat) : (traceHw s k).apt = s.apt := by unfold traceHw; split <;> simp
@[simp] theorem traceHw_err (s : State) (k : Nat) : (traceHw s k).err = s.err := by unfold traceHw; split <;> simp
@[simp] theorem traceHw_hold (s : State) (k : Nat) : (traceHw s k).hold = s.hold := by unfold traceHw; split <;> simp
@[simp] theorem traceHw_ckpt (s : State) (k : Nat) : (traceHw s k).ckpt = s.ckpt := by unfold traceHw; split <;> simp
@[simp] theorem traceHw_fuses (s : State) (k : Nat) : (traceHw s k).fuses = s.fuses := by unfold traceHw; split <;> simp
@[simp] theorem traceHw_ncr (s : State) (k : Nat) : (traceHw s k).ncr = s.ncr := by unfold traceHw; split <;> simp
@[simp] theorem traceHw_sec (s : State) (k : Nat) : (traceHw s k).sec = s.sec := by unfold traceHw; split <;> simp
@[simp] theorem traceHw_pwr (s : State) (k : Nat) : (traceHw s k).pwr = s.pwr := by unfold traceHw; split <;> simp

/-- Without a trace point enabled, none makes an entry. -/
theorem traceHw_off {s : State} (h : s.host.trace = []) (k : Nat) : traceHw s k = s := by simp [traceHw, h]

/-! ### enterHolding: a node in RUN goes to HOLDING -/

@[simp] theorem enterHolding_pending (s : State) (v : Sev) (r : Option ErrRec) : (enterHolding s v r).pending = s.pending := by unfold enterHolding; split <;> simp
@[simp] theorem enterHolding_mem (s : State) (v : Sev) (r : Option ErrRec) : (enterHolding s v r).mem = s.mem := by unfold enterHolding; split <;> simp
@[simp] theorem enterHolding_lineFault (s : State) (v : Sev) (r : Option ErrRec) : (enterHolding s v r).lineFault = s.lineFault := by unfold enterHolding; split <;> simp
@[simp] theorem enterHolding_decoded (s : State) (v : Sev) (r : Option ErrRec) : (enterHolding s v r).decoded = s.decoded := by unfold enterHolding; split <;> simp
@[simp] theorem enterHolding_partFaults (s : State) (v : Sev) (r : Option ErrRec) : (enterHolding s v r).partFaults = s.partFaults := by unfold enterHolding; split <;> simp
@[simp] theorem enterHolding_stk (s : State) (v : Sev) (r : Option ErrRec) : (enterHolding s v r).stk = s.stk := by unfold enterHolding; split <;> simp
@[simp] theorem enterHolding_brine (s : State) (v : Sev) (r : Option ErrRec) : (enterHolding s v r).brine = s.brine := by unfold enterHolding; split <;> simp
@[simp] theorem enterHolding_blocks (s : State) (v : Sev) (r : Option ErrRec) : (enterHolding s v r).blocks = s.blocks := by unfold enterHolding; split <;> simp
@[simp] theorem enterHolding_regions (s : State) (v : Sev) (r : Option ErrRec) : (enterHolding s v r).regions = s.regions := by unfold enterHolding; split <;> simp
@[simp] theorem enterHolding_satUzl (s : State) (v : Sev) (r : Option ErrRec) : (enterHolding s v r).satUzl = s.satUzl := by unfold enterHolding; split <;> simp
@[simp] theorem enterHolding_satCxl (s : State) (v : Sev) (r : Option ErrRec) : (enterHolding s v r).satCxl = s.satCxl := by unfold enterHolding; split <;> simp
@[simp] theorem enterHolding_job (s : State) (v : Sev) (r : Option ErrRec) : (enterHolding s v r).job = s.job := by unfold enterHolding; split <;> simp
@[simp] theorem enterHolding_fab (s : State) (v : Sev) (r : Option ErrRec) : (enterHolding s v r).fab = s.fab := by unfold enterHolding; split <;> simp
@[simp] theorem enterHolding_tim (s : State) (v : Sev) (r : Option ErrRec) : (enterHolding s v r).tim = s.tim := by unfold enterHolding; split <;> simp
@[simp] theorem enterHolding_harts (s : State) (v : Sev) (r : Option ErrRec) : (enterHolding s v r).harts = s.harts := by unfold enterHolding; split <;> simp
@[simp] theorem enterHolding_wcb (s : State) (v : Sev) (r : Option ErrRec) : (enterHolding s v r).wcb = s.wcb := by unfold enterHolding; split <;> simp
@[simp] theorem enterHolding_apt (s : State) (v : Sev) (r : Option ErrRec) : (enterHolding s v r).apt = s.apt := by unfold enterHolding; split <;> simp
@[simp] theorem enterHolding_err (s : State) (v : Sev) (r : Option ErrRec) : (enterHolding s v r).err = s.err := by unfold enterHolding; split <;> simp
@[simp] theorem enterHolding_ckpt (s : State) (v : Sev) (r : Option ErrRec) : (enterHolding s v r).ckpt = s.ckpt := by unfold enterHolding; split <;> simp
@[simp] theorem enterHolding_fuses (s : State) (v : Sev) (r : Option ErrRec) : (enterHolding s v r).fuses = s.fuses := by unfold enterHolding; split <;> simp
@[simp] theorem enterHolding_ncr (s : State) (v : Sev) (r : Option ErrRec) : (enterHolding s v r).ncr = s.ncr := by unfold enterHolding; split <;> simp
@[simp] theorem enterHolding_sec (s : State) (v : Sev) (r : Option ErrRec) : (enterHolding s v r).sec = s.sec := by unfold enterHolding; split <;> simp
@[simp] theorem enterHolding_pwr (s : State) (v : Sev) (r : Option ErrRec) : (enterHolding s v r).pwr = s.pwr := by unfold enterHolding; split <;> simp

/-! ### clearFaults: lines encoded afresh -/

@[simp] theorem clearFaults_pending (s : State) (l : List Nat) : (clearFaults s l).pending = s.pending := by rfl
@[simp] theorem clearFaults_free (s : State) (l : List Nat) : (clearFaults s l).free = s.free := by rfl
@[simp] theorem clearFaults_mem (s : State) (l : List Nat) : (clearFaults s l).mem = s.mem := by rfl
@[simp] theorem clearFaults_decoded (s : State) (l : List Nat) : (clearFaults s l).decoded = s.decoded := by rfl
@[simp] theorem clearFaults_partFaults (s : State) (l : List Nat) : (clearFaults s l).partFaults = s.partFaults := by rfl
@[simp] theorem clearFaults_stk (s : State) (l : List Nat) : (clearFaults s l).stk = s.stk := by rfl
@[simp] theorem clearFaults_brine (s : State) (l : List Nat) : (clearFaults s l).brine = s.brine := by rfl
@[simp] theorem clearFaults_blocks (s : State) (l : List Nat) : (clearFaults s l).blocks = s.blocks := by rfl
@[simp] theorem clearFaults_regions (s : State) (l : List Nat) : (clearFaults s l).regions = s.regions := by rfl
@[simp] theorem clearFaults_satUzl (s : State) (l : List Nat) : (clearFaults s l).satUzl = s.satUzl := by rfl
@[simp] theorem clearFaults_satCxl (s : State) (l : List Nat) : (clearFaults s l).satCxl = s.satCxl := by rfl
@[simp] theorem clearFaults_job (s : State) (l : List Nat) : (clearFaults s l).job = s.job := by rfl
@[simp] theorem clearFaults_fab (s : State) (l : List Nat) : (clearFaults s l).fab = s.fab := by rfl
@[simp] theorem clearFaults_tim (s : State) (l : List Nat) : (clearFaults s l).tim = s.tim := by rfl
@[simp] theorem clearFaults_harts (s : State) (l : List Nat) : (clearFaults s l).harts = s.harts := by rfl
@[simp] theorem clearFaults_wcb (s : State) (l : List Nat) : (clearFaults s l).wcb = s.wcb := by rfl
@[simp] theorem clearFaults_apt (s : State) (l : List Nat) : (clearFaults s l).apt = s.apt := by rfl
@[simp] theorem clearFaults_err (s : State) (l : List Nat) : (clearFaults s l).err = s.err := by rfl
@[simp] theorem clearFaults_hold (s : State) (l : List Nat) : (clearFaults s l).hold = s.hold := by rfl
@[simp] theorem clearFaults_ckpt (s : State) (l : List Nat) : (clearFaults s l).ckpt = s.ckpt := by rfl
@[simp] theorem clearFaults_host (s : State) (l : List Nat) : (clearFaults s l).host = s.host := by rfl
@[simp] theorem clearFaults_fuses (s : State) (l : List Nat) : (clearFaults s l).fuses = s.fuses := by rfl
@[simp] theorem clearFaults_ncr (s : State) (l : List Nat) : (clearFaults s l).ncr = s.ncr := by rfl
@[simp] theorem clearFaults_sec (s : State) (l : List Nat) : (clearFaults s l).sec = s.sec := by rfl
@[simp] theorem clearFaults_pwr (s : State) (l : List Nat) : (clearFaults s l).pwr = s.pwr := by rfl

/-! ### dropResv: reservations lost -/

@[simp] theorem dropResv_pending (s : State) (l : List Nat) (w : Option (BitVec 6)) : (dropResv s l w).pending = s.pending := by rfl
@[simp] theorem dropResv_free (s : State) (l : List Nat) (w : Option (BitVec 6)) : (dropResv s l w).free = s.free := by rfl
@[simp] theorem dropResv_mem (s : State) (l : List Nat) (w : Option (BitVec 6)) : (dropResv s l w).mem = s.mem := by rfl
@[simp] theorem dropResv_lineFault (s : State) (l : List Nat) (w : Option (BitVec 6)) : (dropResv s l w).lineFault = s.lineFault := by rfl
@[simp] theorem dropResv_decoded (s : State) (l : List Nat) (w : Option (BitVec 6)) : (dropResv s l w).decoded = s.decoded := by rfl
@[simp] theorem dropResv_partFaults (s : State) (l : List Nat) (w : Option (BitVec 6)) : (dropResv s l w).partFaults = s.partFaults := by rfl
@[simp] theorem dropResv_stk (s : State) (l : List Nat) (w : Option (BitVec 6)) : (dropResv s l w).stk = s.stk := by rfl
@[simp] theorem dropResv_brine (s : State) (l : List Nat) (w : Option (BitVec 6)) : (dropResv s l w).brine = s.brine := by rfl
@[simp] theorem dropResv_blocks (s : State) (l : List Nat) (w : Option (BitVec 6)) : (dropResv s l w).blocks = s.blocks := by rfl
@[simp] theorem dropResv_regions (s : State) (l : List Nat) (w : Option (BitVec 6)) : (dropResv s l w).regions = s.regions := by rfl
@[simp] theorem dropResv_satUzl (s : State) (l : List Nat) (w : Option (BitVec 6)) : (dropResv s l w).satUzl = s.satUzl := by rfl
@[simp] theorem dropResv_satCxl (s : State) (l : List Nat) (w : Option (BitVec 6)) : (dropResv s l w).satCxl = s.satCxl := by rfl
@[simp] theorem dropResv_job (s : State) (l : List Nat) (w : Option (BitVec 6)) : (dropResv s l w).job = s.job := by rfl
@[simp] theorem dropResv_fab (s : State) (l : List Nat) (w : Option (BitVec 6)) : (dropResv s l w).fab = s.fab := by rfl
@[simp] theorem dropResv_tim (s : State) (l : List Nat) (w : Option (BitVec 6)) : (dropResv s l w).tim = s.tim := by rfl
@[simp] theorem dropResv_wcb (s : State) (l : List Nat) (w : Option (BitVec 6)) : (dropResv s l w).wcb = s.wcb := by rfl
@[simp] theorem dropResv_apt (s : State) (l : List Nat) (w : Option (BitVec 6)) : (dropResv s l w).apt = s.apt := by rfl
@[simp] theorem dropResv_err (s : State) (l : List Nat) (w : Option (BitVec 6)) : (dropResv s l w).err = s.err := by rfl
@[simp] theorem dropResv_hold (s : State) (l : List Nat) (w : Option (BitVec 6)) : (dropResv s l w).hold = s.hold := by rfl
@[simp] theorem dropResv_ckpt (s : State) (l : List Nat) (w : Option (BitVec 6)) : (dropResv s l w).ckpt = s.ckpt := by rfl
@[simp] theorem dropResv_host (s : State) (l : List Nat) (w : Option (BitVec 6)) : (dropResv s l w).host = s.host := by rfl
@[simp] theorem dropResv_fuses (s : State) (l : List Nat) (w : Option (BitVec 6)) : (dropResv s l w).fuses = s.fuses := by rfl
@[simp] theorem dropResv_ncr (s : State) (l : List Nat) (w : Option (BitVec 6)) : (dropResv s l w).ncr = s.ncr := by rfl
@[simp] theorem dropResv_sec (s : State) (l : List Nat) (w : Option (BitVec 6)) : (dropResv s l w).sec = s.sec := by rfl
@[simp] theorem dropResv_pwr (s : State) (l : List Nat) (w : Option (BitVec 6)) : (dropResv s l w).pwr = s.pwr := by rfl

/-! ### wrHostN: bytes written to host memory -/

@[simp] theorem wrHostN_pending (s : State) (a : Nat) (l : List Byte) : (wrHostN s a l).pending = s.pending := by induction l generalizing s a with
  | nil => rfl
  | cons b l ih => simp [wrHostN, ih]
@[simp] theorem wrHostN_free (s : State) (a : Nat) (l : List Byte) : (wrHostN s a l).free = s.free := by induction l generalizing s a with
  | nil => rfl
  | cons b l ih => simp [wrHostN, ih]
@[simp] theorem wrHostN_mem (s : State) (a : Nat) (l : List Byte) : (wrHostN s a l).mem = s.mem := by induction l generalizing s a with
  | nil => rfl
  | cons b l ih => simp [wrHostN, ih]
@[simp] theorem wrHostN_lineFault (s : State) (a : Nat) (l : List Byte) : (wrHostN s a l).lineFault = s.lineFault := by induction l generalizing s a with
  | nil => rfl
  | cons b l ih => simp [wrHostN, ih]
@[simp] theorem wrHostN_decoded (s : State) (a : Nat) (l : List Byte) : (wrHostN s a l).decoded = s.decoded := by induction l generalizing s a with
  | nil => rfl
  | cons b l ih => simp [wrHostN, ih]
@[simp] theorem wrHostN_partFaults (s : State) (a : Nat) (l : List Byte) : (wrHostN s a l).partFaults = s.partFaults := by induction l generalizing s a with
  | nil => rfl
  | cons b l ih => simp [wrHostN, ih]
@[simp] theorem wrHostN_stk (s : State) (a : Nat) (l : List Byte) : (wrHostN s a l).stk = s.stk := by induction l generalizing s a with
  | nil => rfl
  | cons b l ih => simp [wrHostN, ih]
@[simp] theorem wrHostN_brine (s : State) (a : Nat) (l : List Byte) : (wrHostN s a l).brine = s.brine := by induction l generalizing s a with
  | nil => rfl
  | cons b l ih => simp [wrHostN, ih]
@[simp] theorem wrHostN_blocks (s : State) (a : Nat) (l : List Byte) : (wrHostN s a l).blocks = s.blocks := by induction l generalizing s a with
  | nil => rfl
  | cons b l ih => simp [wrHostN, ih]
@[simp] theorem wrHostN_regions (s : State) (a : Nat) (l : List Byte) : (wrHostN s a l).regions = s.regions := by induction l generalizing s a with
  | nil => rfl
  | cons b l ih => simp [wrHostN, ih]
@[simp] theorem wrHostN_satUzl (s : State) (a : Nat) (l : List Byte) : (wrHostN s a l).satUzl = s.satUzl := by induction l generalizing s a with
  | nil => rfl
  | cons b l ih => simp [wrHostN, ih]
@[simp] theorem wrHostN_satCxl (s : State) (a : Nat) (l : List Byte) : (wrHostN s a l).satCxl = s.satCxl := by induction l generalizing s a with
  | nil => rfl
  | cons b l ih => simp [wrHostN, ih]
@[simp] theorem wrHostN_job (s : State) (a : Nat) (l : List Byte) : (wrHostN s a l).job = s.job := by induction l generalizing s a with
  | nil => rfl
  | cons b l ih => simp [wrHostN, ih]
@[simp] theorem wrHostN_fab (s : State) (a : Nat) (l : List Byte) : (wrHostN s a l).fab = s.fab := by induction l generalizing s a with
  | nil => rfl
  | cons b l ih => simp [wrHostN, ih]
@[simp] theorem wrHostN_tim (s : State) (a : Nat) (l : List Byte) : (wrHostN s a l).tim = s.tim := by induction l generalizing s a with
  | nil => rfl
  | cons b l ih => simp [wrHostN, ih]
@[simp] theorem wrHostN_harts (s : State) (a : Nat) (l : List Byte) : (wrHostN s a l).harts = s.harts := by induction l generalizing s a with
  | nil => rfl
  | cons b l ih => simp [wrHostN, ih]
@[simp] theorem wrHostN_wcb (s : State) (a : Nat) (l : List Byte) : (wrHostN s a l).wcb = s.wcb := by induction l generalizing s a with
  | nil => rfl
  | cons b l ih => simp [wrHostN, ih]
@[simp] theorem wrHostN_apt (s : State) (a : Nat) (l : List Byte) : (wrHostN s a l).apt = s.apt := by induction l generalizing s a with
  | nil => rfl
  | cons b l ih => simp [wrHostN, ih]
@[simp] theorem wrHostN_err (s : State) (a : Nat) (l : List Byte) : (wrHostN s a l).err = s.err := by induction l generalizing s a with
  | nil => rfl
  | cons b l ih => simp [wrHostN, ih]
@[simp] theorem wrHostN_hold (s : State) (a : Nat) (l : List Byte) : (wrHostN s a l).hold = s.hold := by induction l generalizing s a with
  | nil => rfl
  | cons b l ih => simp [wrHostN, ih]
@[simp] theorem wrHostN_ckpt (s : State) (a : Nat) (l : List Byte) : (wrHostN s a l).ckpt = s.ckpt := by induction l generalizing s a with
  | nil => rfl
  | cons b l ih => simp [wrHostN, ih]
@[simp] theorem wrHostN_fuses (s : State) (a : Nat) (l : List Byte) : (wrHostN s a l).fuses = s.fuses := by induction l generalizing s a with
  | nil => rfl
  | cons b l ih => simp [wrHostN, ih]
@[simp] theorem wrHostN_ncr (s : State) (a : Nat) (l : List Byte) : (wrHostN s a l).ncr = s.ncr := by induction l generalizing s a with
  | nil => rfl
  | cons b l ih => simp [wrHostN, ih]
@[simp] theorem wrHostN_sec (s : State) (a : Nat) (l : List Byte) : (wrHostN s a l).sec = s.sec := by induction l generalizing s a with
  | nil => rfl
  | cons b l ih => simp [wrHostN, ih]
@[simp] theorem wrHostN_pwr (s : State) (a : Nat) (l : List Byte) : (wrHostN s a l).pwr = s.pwr := by induction l generalizing s a with
  | nil => rfl
  | cons b l ih => simp [wrHostN, ih]

/-! ### wrRaw: one byte written -/

@[simp] theorem wrRaw_pending (s : State) (a : Nat) (v : Byte) : (wrRaw s a v).pending = s.pending := by unfold wrRaw; (repeat' split) <;> simp
@[simp] theorem wrRaw_free (s : State) (a : Nat) (v : Byte) : (wrRaw s a v).free = s.free := by unfold wrRaw; (repeat' split) <;> simp
@[simp] theorem wrRaw_lineFault (s : State) (a : Nat) (v : Byte) : (wrRaw s a v).lineFault = s.lineFault := by unfold wrRaw; (repeat' split) <;> simp
@[simp] theorem wrRaw_decoded (s : State) (a : Nat) (v : Byte) : (wrRaw s a v).decoded = s.decoded := by unfold wrRaw; (repeat' split) <;> simp
@[simp] theorem wrRaw_partFaults (s : State) (a : Nat) (v : Byte) : (wrRaw s a v).partFaults = s.partFaults := by unfold wrRaw; (repeat' split) <;> simp
@[simp] theorem wrRaw_stk (s : State) (a : Nat) (v : Byte) : (wrRaw s a v).stk = s.stk := by unfold wrRaw; (repeat' split) <;> simp
@[simp] theorem wrRaw_brine (s : State) (a : Nat) (v : Byte) : (wrRaw s a v).brine = s.brine := by unfold wrRaw; (repeat' split) <;> simp
@[simp] theorem wrRaw_blocks (s : State) (a : Nat) (v : Byte) : (wrRaw s a v).blocks = s.blocks := by unfold wrRaw; (repeat' split) <;> simp
@[simp] theorem wrRaw_regions (s : State) (a : Nat) (v : Byte) : (wrRaw s a v).regions = s.regions := by unfold wrRaw; (repeat' split) <;> simp
@[simp] theorem wrRaw_satUzl (s : State) (a : Nat) (v : Byte) : (wrRaw s a v).satUzl = s.satUzl := by unfold wrRaw; (repeat' split) <;> simp
@[simp] theorem wrRaw_satCxl (s : State) (a : Nat) (v : Byte) : (wrRaw s a v).satCxl = s.satCxl := by unfold wrRaw; (repeat' split) <;> simp
@[simp] theorem wrRaw_job (s : State) (a : Nat) (v : Byte) : (wrRaw s a v).job = s.job := by unfold wrRaw; (repeat' split) <;> simp
@[simp] theorem wrRaw_fab (s : State) (a : Nat) (v : Byte) : (wrRaw s a v).fab = s.fab := by unfold wrRaw; (repeat' split) <;> simp
@[simp] theorem wrRaw_tim (s : State) (a : Nat) (v : Byte) : (wrRaw s a v).tim = s.tim := by unfold wrRaw; (repeat' split) <;> simp
@[simp] theorem wrRaw_harts (s : State) (a : Nat) (v : Byte) : (wrRaw s a v).harts = s.harts := by unfold wrRaw; (repeat' split) <;> simp
@[simp] theorem wrRaw_wcb (s : State) (a : Nat) (v : Byte) : (wrRaw s a v).wcb = s.wcb := by unfold wrRaw; (repeat' split) <;> simp
@[simp] theorem wrRaw_apt (s : State) (a : Nat) (v : Byte) : (wrRaw s a v).apt = s.apt := by unfold wrRaw; (repeat' split) <;> simp
@[simp] theorem wrRaw_err (s : State) (a : Nat) (v : Byte) : (wrRaw s a v).err = s.err := by unfold wrRaw; (repeat' split) <;> simp
@[simp] theorem wrRaw_hold (s : State) (a : Nat) (v : Byte) : (wrRaw s a v).hold = s.hold := by unfold wrRaw; (repeat' split) <;> simp
@[simp] theorem wrRaw_ckpt (s : State) (a : Nat) (v : Byte) : (wrRaw s a v).ckpt = s.ckpt := by unfold wrRaw; (repeat' split) <;> simp
@[simp] theorem wrRaw_fuses (s : State) (a : Nat) (v : Byte) : (wrRaw s a v).fuses = s.fuses := by unfold wrRaw; (repeat' split) <;> simp
@[simp] theorem wrRaw_ncr (s : State) (a : Nat) (v : Byte) : (wrRaw s a v).ncr = s.ncr := by unfold wrRaw; (repeat' split) <;> simp
@[simp] theorem wrRaw_sec (s : State) (a : Nat) (v : Byte) : (wrRaw s a v).sec = s.sec := by unfold wrRaw; (repeat' split) <;> simp
@[simp] theorem wrRaw_pwr (s : State) (a : Nat) (v : Byte) : (wrRaw s a v).pwr = s.pwr := by unfold wrRaw; (repeat' split) <;> simp

/-! ### wrRawN: bytes written -/

@[simp] theorem wrRawN_pending (s : State) (a : Nat) (l : List Byte) : (wrRawN s a l).pending = s.pending := by induction l generalizing s a with
  | nil => rfl
  | cons b l ih => simp [wrRawN, ih]
@[simp] theorem wrRawN_free (s : State) (a : Nat) (l : List Byte) : (wrRawN s a l).free = s.free := by induction l generalizing s a with
  | nil => rfl
  | cons b l ih => simp [wrRawN, ih]
@[simp] theorem wrRawN_lineFault (s : State) (a : Nat) (l : List Byte) : (wrRawN s a l).lineFault = s.lineFault := by induction l generalizing s a with
  | nil => rfl
  | cons b l ih => simp [wrRawN, ih]
@[simp] theorem wrRawN_decoded (s : State) (a : Nat) (l : List Byte) : (wrRawN s a l).decoded = s.decoded := by induction l generalizing s a with
  | nil => rfl
  | cons b l ih => simp [wrRawN, ih]
@[simp] theorem wrRawN_partFaults (s : State) (a : Nat) (l : List Byte) : (wrRawN s a l).partFaults = s.partFaults := by induction l generalizing s a with
  | nil => rfl
  | cons b l ih => simp [wrRawN, ih]
@[simp] theorem wrRawN_stk (s : State) (a : Nat) (l : List Byte) : (wrRawN s a l).stk = s.stk := by induction l generalizing s a with
  | nil => rfl
  | cons b l ih => simp [wrRawN, ih]
@[simp] theorem wrRawN_brine (s : State) (a : Nat) (l : List Byte) : (wrRawN s a l).brine = s.brine := by induction l generalizing s a with
  | nil => rfl
  | cons b l ih => simp [wrRawN, ih]
@[simp] theorem wrRawN_blocks (s : State) (a : Nat) (l : List Byte) : (wrRawN s a l).blocks = s.blocks := by induction l generalizing s a with
  | nil => rfl
  | cons b l ih => simp [wrRawN, ih]
@[simp] theorem wrRawN_regions (s : State) (a : Nat) (l : List Byte) : (wrRawN s a l).regions = s.regions := by induction l generalizing s a with
  | nil => rfl
  | cons b l ih => simp [wrRawN, ih]
@[simp] theorem wrRawN_satUzl (s : State) (a : Nat) (l : List Byte) : (wrRawN s a l).satUzl = s.satUzl := by induction l generalizing s a with
  | nil => rfl
  | cons b l ih => simp [wrRawN, ih]
@[simp] theorem wrRawN_satCxl (s : State) (a : Nat) (l : List Byte) : (wrRawN s a l).satCxl = s.satCxl := by induction l generalizing s a with
  | nil => rfl
  | cons b l ih => simp [wrRawN, ih]
@[simp] theorem wrRawN_job (s : State) (a : Nat) (l : List Byte) : (wrRawN s a l).job = s.job := by induction l generalizing s a with
  | nil => rfl
  | cons b l ih => simp [wrRawN, ih]
@[simp] theorem wrRawN_fab (s : State) (a : Nat) (l : List Byte) : (wrRawN s a l).fab = s.fab := by induction l generalizing s a with
  | nil => rfl
  | cons b l ih => simp [wrRawN, ih]
@[simp] theorem wrRawN_tim (s : State) (a : Nat) (l : List Byte) : (wrRawN s a l).tim = s.tim := by induction l generalizing s a with
  | nil => rfl
  | cons b l ih => simp [wrRawN, ih]
@[simp] theorem wrRawN_harts (s : State) (a : Nat) (l : List Byte) : (wrRawN s a l).harts = s.harts := by induction l generalizing s a with
  | nil => rfl
  | cons b l ih => simp [wrRawN, ih]
@[simp] theorem wrRawN_wcb (s : State) (a : Nat) (l : List Byte) : (wrRawN s a l).wcb = s.wcb := by induction l generalizing s a with
  | nil => rfl
  | cons b l ih => simp [wrRawN, ih]
@[simp] theorem wrRawN_apt (s : State) (a : Nat) (l : List Byte) : (wrRawN s a l).apt = s.apt := by induction l generalizing s a with
  | nil => rfl
  | cons b l ih => simp [wrRawN, ih]
@[simp] theorem wrRawN_err (s : State) (a : Nat) (l : List Byte) : (wrRawN s a l).err = s.err := by induction l generalizing s a with
  | nil => rfl
  | cons b l ih => simp [wrRawN, ih]
@[simp] theorem wrRawN_hold (s : State) (a : Nat) (l : List Byte) : (wrRawN s a l).hold = s.hold := by induction l generalizing s a with
  | nil => rfl
  | cons b l ih => simp [wrRawN, ih]
@[simp] theorem wrRawN_ckpt (s : State) (a : Nat) (l : List Byte) : (wrRawN s a l).ckpt = s.ckpt := by induction l generalizing s a with
  | nil => rfl
  | cons b l ih => simp [wrRawN, ih]
@[simp] theorem wrRawN_fuses (s : State) (a : Nat) (l : List Byte) : (wrRawN s a l).fuses = s.fuses := by induction l generalizing s a with
  | nil => rfl
  | cons b l ih => simp [wrRawN, ih]
@[simp] theorem wrRawN_ncr (s : State) (a : Nat) (l : List Byte) : (wrRawN s a l).ncr = s.ncr := by induction l generalizing s a with
  | nil => rfl
  | cons b l ih => simp [wrRawN, ih]
@[simp] theorem wrRawN_sec (s : State) (a : Nat) (l : List Byte) : (wrRawN s a l).sec = s.sec := by induction l generalizing s a with
  | nil => rfl
  | cons b l ih => simp [wrRawN, ih]
@[simp] theorem wrRawN_pwr (s : State) (a : Nat) (l : List Byte) : (wrRawN s a l).pwr = s.pwr := by induction l generalizing s a with
  | nil => rfl
  | cons b l ih => simp [wrRawN, ih]

/-! ### haltQueue: a queue halts -/

@[simp] theorem haltQueue_pending (s : State) (b : Blk) (q : Qc) (st : Status) (i : Nat) : (haltQueue s b q st i).pending = s.pending := by simp [haltQueue]
@[simp] theorem haltQueue_mem (s : State) (b : Blk) (q : Qc) (st : Status) (i : Nat) : (haltQueue s b q st i).mem = s.mem := by simp [haltQueue]
@[simp] theorem haltQueue_lineFault (s : State) (b : Blk) (q : Qc) (st : Status) (i : Nat) : (haltQueue s b q st i).lineFault = s.lineFault := by simp [haltQueue]
@[simp] theorem haltQueue_decoded (s : State) (b : Blk) (q : Qc) (st : Status) (i : Nat) : (haltQueue s b q st i).decoded = s.decoded := by simp [haltQueue]
@[simp] theorem haltQueue_partFaults (s : State) (b : Blk) (q : Qc) (st : Status) (i : Nat) : (haltQueue s b q st i).partFaults = s.partFaults := by simp [haltQueue]
@[simp] theorem haltQueue_stk (s : State) (b : Blk) (q : Qc) (st : Status) (i : Nat) : (haltQueue s b q st i).stk = s.stk := by simp [haltQueue]
@[simp] theorem haltQueue_brine (s : State) (b : Blk) (q : Qc) (st : Status) (i : Nat) : (haltQueue s b q st i).brine = s.brine := by simp [haltQueue]
@[simp] theorem haltQueue_regions (s : State) (b : Blk) (q : Qc) (st : Status) (i : Nat) : (haltQueue s b q st i).regions = s.regions := by simp [haltQueue]
@[simp] theorem haltQueue_satUzl (s : State) (b : Blk) (q : Qc) (st : Status) (i : Nat) : (haltQueue s b q st i).satUzl = s.satUzl := by simp [haltQueue]
@[simp] theorem haltQueue_satCxl (s : State) (b : Blk) (q : Qc) (st : Status) (i : Nat) : (haltQueue s b q st i).satCxl = s.satCxl := by simp [haltQueue]
@[simp] theorem haltQueue_job (s : State) (b : Blk) (q : Qc) (st : Status) (i : Nat) : (haltQueue s b q st i).job = s.job := by simp [haltQueue]
@[simp] theorem haltQueue_fab (s : State) (b : Blk) (q : Qc) (st : Status) (i : Nat) : (haltQueue s b q st i).fab = s.fab := by simp [haltQueue]
@[simp] theorem haltQueue_tim (s : State) (b : Blk) (q : Qc) (st : Status) (i : Nat) : (haltQueue s b q st i).tim = s.tim := by simp [haltQueue]
@[simp] theorem haltQueue_harts (s : State) (b : Blk) (q : Qc) (st : Status) (i : Nat) : (haltQueue s b q st i).harts = s.harts := by simp [haltQueue]
@[simp] theorem haltQueue_wcb (s : State) (b : Blk) (q : Qc) (st : Status) (i : Nat) : (haltQueue s b q st i).wcb = s.wcb := by simp [haltQueue]
@[simp] theorem haltQueue_apt (s : State) (b : Blk) (q : Qc) (st : Status) (i : Nat) : (haltQueue s b q st i).apt = s.apt := by simp [haltQueue]
@[simp] theorem haltQueue_err (s : State) (b : Blk) (q : Qc) (st : Status) (i : Nat) : (haltQueue s b q st i).err = s.err := by simp [haltQueue]
@[simp] theorem haltQueue_ckpt (s : State) (b : Blk) (q : Qc) (st : Status) (i : Nat) : (haltQueue s b q st i).ckpt = s.ckpt := by simp [haltQueue]
@[simp] theorem haltQueue_fuses (s : State) (b : Blk) (q : Qc) (st : Status) (i : Nat) : (haltQueue s b q st i).fuses = s.fuses := by simp [haltQueue]
@[simp] theorem haltQueue_ncr (s : State) (b : Blk) (q : Qc) (st : Status) (i : Nat) : (haltQueue s b q st i).ncr = s.ncr := by simp [haltQueue]
@[simp] theorem haltQueue_sec (s : State) (b : Blk) (q : Qc) (st : Status) (i : Nat) : (haltQueue s b q st i).sec = s.sec := by simp [haltQueue]
@[simp] theorem haltQueue_pwr (s : State) (b : Blk) (q : Qc) (st : Status) (i : Nat) : (haltQueue s b q st i).pwr = s.pwr := by simp [haltQueue]

/-! ### haltBlock: every queue of a block halts -/

@[simp] theorem haltBlock_pending (s : State) (b : Blk) (st : Status) : (haltBlock s b st).pending = s.pending := by simp [haltBlock]
@[simp] theorem haltBlock_free (s : State) (b : Blk) (st : Status) : (haltBlock s b st).free = s.free := by simp [haltBlock]
@[simp] theorem haltBlock_mem (s : State) (b : Blk) (st : Status) : (haltBlock s b st).mem = s.mem := by simp [haltBlock]
@[simp] theorem haltBlock_lineFault (s : State) (b : Blk) (st : Status) : (haltBlock s b st).lineFault = s.lineFault := by simp [haltBlock]
@[simp] theorem haltBlock_decoded (s : State) (b : Blk) (st : Status) : (haltBlock s b st).decoded = s.decoded := by simp [haltBlock]
@[simp] theorem haltBlock_partFaults (s : State) (b : Blk) (st : Status) : (haltBlock s b st).partFaults = s.partFaults := by simp [haltBlock]
@[simp] theorem haltBlock_stk (s : State) (b : Blk) (st : Status) : (haltBlock s b st).stk = s.stk := by simp [haltBlock]
@[simp] theorem haltBlock_brine (s : State) (b : Blk) (st : Status) : (haltBlock s b st).brine = s.brine := by simp [haltBlock]
@[simp] theorem haltBlock_regions (s : State) (b : Blk) (st : Status) : (haltBlock s b st).regions = s.regions := by simp [haltBlock]
@[simp] theorem haltBlock_satUzl (s : State) (b : Blk) (st : Status) : (haltBlock s b st).satUzl = s.satUzl := by simp [haltBlock]
@[simp] theorem haltBlock_satCxl (s : State) (b : Blk) (st : Status) : (haltBlock s b st).satCxl = s.satCxl := by simp [haltBlock]
@[simp] theorem haltBlock_job (s : State) (b : Blk) (st : Status) : (haltBlock s b st).job = s.job := by simp [haltBlock]
@[simp] theorem haltBlock_fab (s : State) (b : Blk) (st : Status) : (haltBlock s b st).fab = s.fab := by simp [haltBlock]
@[simp] theorem haltBlock_tim (s : State) (b : Blk) (st : Status) : (haltBlock s b st).tim = s.tim := by simp [haltBlock]
@[simp] theorem haltBlock_harts (s : State) (b : Blk) (st : Status) : (haltBlock s b st).harts = s.harts := by simp [haltBlock]
@[simp] theorem haltBlock_wcb (s : State) (b : Blk) (st : Status) : (haltBlock s b st).wcb = s.wcb := by simp [haltBlock]
@[simp] theorem haltBlock_apt (s : State) (b : Blk) (st : Status) : (haltBlock s b st).apt = s.apt := by simp [haltBlock]
@[simp] theorem haltBlock_err (s : State) (b : Blk) (st : Status) : (haltBlock s b st).err = s.err := by simp [haltBlock]
@[simp] theorem haltBlock_hold (s : State) (b : Blk) (st : Status) : (haltBlock s b st).hold = s.hold := by simp [haltBlock]
@[simp] theorem haltBlock_ckpt (s : State) (b : Blk) (st : Status) : (haltBlock s b st).ckpt = s.ckpt := by simp [haltBlock]
@[simp] theorem haltBlock_host (s : State) (b : Blk) (st : Status) : (haltBlock s b st).host = s.host := by simp [haltBlock]
@[simp] theorem haltBlock_fuses (s : State) (b : Blk) (st : Status) : (haltBlock s b st).fuses = s.fuses := by simp [haltBlock]
@[simp] theorem haltBlock_ncr (s : State) (b : Blk) (st : Status) : (haltBlock s b st).ncr = s.ncr := by simp [haltBlock]
@[simp] theorem haltBlock_sec (s : State) (b : Blk) (st : Status) : (haltBlock s b st).sec = s.sec := by simp [haltBlock]
@[simp] theorem haltBlock_pwr (s : State) (b : Blk) (st : Status) : (haltBlock s b st).pwr = s.pwr := by simp [haltBlock]

/-! ### mbxRefused: a refused mailbox command is recorded -/

@[simp] theorem mbxRefused_pending (s : State) (st : Status) : (mbxRefused s st).pending = s.pending := by unfold mbxRefused; split <;> simp
@[simp] theorem mbxRefused_mem (s : State) (st : Status) : (mbxRefused s st).mem = s.mem := by unfold mbxRefused; split <;> simp
@[simp] theorem mbxRefused_lineFault (s : State) (st : Status) : (mbxRefused s st).lineFault = s.lineFault := by unfold mbxRefused; split <;> simp
@[simp] theorem mbxRefused_decoded (s : State) (st : Status) : (mbxRefused s st).decoded = s.decoded := by unfold mbxRefused; split <;> simp
@[simp] theorem mbxRefused_partFaults (s : State) (st : Status) : (mbxRefused s st).partFaults = s.partFaults := by unfold mbxRefused; split <;> simp
@[simp] theorem mbxRefused_stk (s : State) (st : Status) : (mbxRefused s st).stk = s.stk := by unfold mbxRefused; split <;> simp
@[simp] theorem mbxRefused_brine (s : State) (st : Status) : (mbxRefused s st).brine = s.brine := by unfold mbxRefused; split <;> simp
@[simp] theorem mbxRefused_blocks (s : State) (st : Status) : (mbxRefused s st).blocks = s.blocks := by unfold mbxRefused; split <;> simp
@[simp] theorem mbxRefused_regions (s : State) (st : Status) : (mbxRefused s st).regions = s.regions := by unfold mbxRefused; split <;> simp
@[simp] theorem mbxRefused_satUzl (s : State) (st : Status) : (mbxRefused s st).satUzl = s.satUzl := by unfold mbxRefused; split <;> simp
@[simp] theorem mbxRefused_satCxl (s : State) (st : Status) : (mbxRefused s st).satCxl = s.satCxl := by unfold mbxRefused; split <;> simp
@[simp] theorem mbxRefused_job (s : State) (st : Status) : (mbxRefused s st).job = s.job := by unfold mbxRefused; split <;> simp
@[simp] theorem mbxRefused_fab (s : State) (st : Status) : (mbxRefused s st).fab = s.fab := by unfold mbxRefused; split <;> simp
@[simp] theorem mbxRefused_tim (s : State) (st : Status) : (mbxRefused s st).tim = s.tim := by unfold mbxRefused; split <;> simp
@[simp] theorem mbxRefused_harts (s : State) (st : Status) : (mbxRefused s st).harts = s.harts := by unfold mbxRefused; split <;> simp
@[simp] theorem mbxRefused_wcb (s : State) (st : Status) : (mbxRefused s st).wcb = s.wcb := by unfold mbxRefused; split <;> simp
@[simp] theorem mbxRefused_apt (s : State) (st : Status) : (mbxRefused s st).apt = s.apt := by unfold mbxRefused; split <;> simp
@[simp] theorem mbxRefused_ckpt (s : State) (st : Status) : (mbxRefused s st).ckpt = s.ckpt := by unfold mbxRefused; split <;> simp
@[simp] theorem mbxRefused_host (s : State) (st : Status) : (mbxRefused s st).host = s.host := by unfold mbxRefused; split <;> simp
@[simp] theorem mbxRefused_fuses (s : State) (st : Status) : (mbxRefused s st).fuses = s.fuses := by unfold mbxRefused; split <;> simp
@[simp] theorem mbxRefused_ncr (s : State) (st : Status) : (mbxRefused s st).ncr = s.ncr := by unfold mbxRefused; split <;> simp
@[simp] theorem mbxRefused_sec (s : State) (st : Status) : (mbxRefused s st).sec = s.sec := by unfold mbxRefused; split <;> simp
@[simp] theorem mbxRefused_pwr (s : State) (st : Status) : (mbxRefused s st).pwr = s.pwr := by unfold mbxRefused; split <;> simp

/-! ### answer: a mailbox command is answered -/

@[simp] theorem answer_pending (s : State) (r : MbxRet) (st : Status) (d : Nat) (l : List Byte) : (answer s r st d l).pending = s.pending := by unfold answer; dsimp only; (repeat' split) <;> simp
@[simp] theorem answer_mem (s : State) (r : MbxRet) (st : Status) (d : Nat) (l : List Byte) : (answer s r st d l).mem = s.mem := by unfold answer; dsimp only; (repeat' split) <;> simp
@[simp] theorem answer_lineFault (s : State) (r : MbxRet) (st : Status) (d : Nat) (l : List Byte) : (answer s r st d l).lineFault = s.lineFault := by unfold answer; dsimp only; (repeat' split) <;> simp
@[simp] theorem answer_decoded (s : State) (r : MbxRet) (st : Status) (d : Nat) (l : List Byte) : (answer s r st d l).decoded = s.decoded := by unfold answer; dsimp only; (repeat' split) <;> simp
@[simp] theorem answer_partFaults (s : State) (r : MbxRet) (st : Status) (d : Nat) (l : List Byte) : (answer s r st d l).partFaults = s.partFaults := by unfold answer; dsimp only; (repeat' split) <;> simp
@[simp] theorem answer_stk (s : State) (r : MbxRet) (st : Status) (d : Nat) (l : List Byte) : (answer s r st d l).stk = s.stk := by unfold answer; dsimp only; (repeat' split) <;> simp
@[simp] theorem answer_brine (s : State) (r : MbxRet) (st : Status) (d : Nat) (l : List Byte) : (answer s r st d l).brine = s.brine := by unfold answer; dsimp only; (repeat' split) <;> simp
@[simp] theorem answer_blocks (s : State) (r : MbxRet) (st : Status) (d : Nat) (l : List Byte) : (answer s r st d l).blocks = s.blocks := by unfold answer; dsimp only; (repeat' split) <;> simp
@[simp] theorem answer_regions (s : State) (r : MbxRet) (st : Status) (d : Nat) (l : List Byte) : (answer s r st d l).regions = s.regions := by unfold answer; dsimp only; (repeat' split) <;> simp
@[simp] theorem answer_satUzl (s : State) (r : MbxRet) (st : Status) (d : Nat) (l : List Byte) : (answer s r st d l).satUzl = s.satUzl := by unfold answer; dsimp only; (repeat' split) <;> simp
@[simp] theorem answer_satCxl (s : State) (r : MbxRet) (st : Status) (d : Nat) (l : List Byte) : (answer s r st d l).satCxl = s.satCxl := by unfold answer; dsimp only; (repeat' split) <;> simp
@[simp] theorem answer_job (s : State) (r : MbxRet) (st : Status) (d : Nat) (l : List Byte) : (answer s r st d l).job = s.job := by unfold answer; dsimp only; (repeat' split) <;> simp
@[simp] theorem answer_fab (s : State) (r : MbxRet) (st : Status) (d : Nat) (l : List Byte) : (answer s r st d l).fab = s.fab := by unfold answer; dsimp only; (repeat' split) <;> simp
@[simp] theorem answer_tim (s : State) (r : MbxRet) (st : Status) (d : Nat) (l : List Byte) : (answer s r st d l).tim = s.tim := by unfold answer; dsimp only; (repeat' split) <;> simp
@[simp] theorem answer_harts (s : State) (r : MbxRet) (st : Status) (d : Nat) (l : List Byte) : (answer s r st d l).harts = s.harts := by unfold answer; dsimp only; (repeat' split) <;> simp
@[simp] theorem answer_wcb (s : State) (r : MbxRet) (st : Status) (d : Nat) (l : List Byte) : (answer s r st d l).wcb = s.wcb := by unfold answer; dsimp only; (repeat' split) <;> simp
@[simp] theorem answer_apt (s : State) (r : MbxRet) (st : Status) (d : Nat) (l : List Byte) : (answer s r st d l).apt = s.apt := by unfold answer; dsimp only; (repeat' split) <;> simp
@[simp] theorem answer_ckpt (s : State) (r : MbxRet) (st : Status) (d : Nat) (l : List Byte) : (answer s r st d l).ckpt = s.ckpt := by unfold answer; dsimp only; (repeat' split) <;> simp
@[simp] theorem answer_fuses (s : State) (r : MbxRet) (st : Status) (d : Nat) (l : List Byte) : (answer s r st d l).fuses = s.fuses := by unfold answer; dsimp only; (repeat' split) <;> simp
@[simp] theorem answer_ncr (s : State) (r : MbxRet) (st : Status) (d : Nat) (l : List Byte) : (answer s r st d l).ncr = s.ncr := by unfold answer; dsimp only; (repeat' split) <;> simp
@[simp] theorem answer_sec (s : State) (r : MbxRet) (st : Status) (d : Nat) (l : List Byte) : (answer s r st d l).sec = s.sec := by unfold answer; dsimp only; (repeat' split) <;> simp
@[simp] theorem answer_pwr (s : State) (r : MbxRet) (st : Status) (d : Nat) (l : List Byte) : (answer s r st d l).pwr = s.pwr := by unfold answer; dsimp only; (repeat' split) <;> simp

@[simp] theorem raise_mem' (s : State) (i : Nat) : (raise s i).host.mem = s.host.mem := rfl

/-- Recording an event leaves the hold's state as it was. -/
@[simp] theorem record_hold_state (s : State) (c : ErrCode) (a : EvArgs) : (record s c a).hold.state = s.hold.state := by
  have h : ∀ t v, (worsen t v).hold.state = t.hold.state := by intro t v; unfold worsen; split <;> rfl
  unfold record recordSev
  dsimp only
  (repeat' split) <;> simp [h]

end Sys2Proof.Laws
end

