-- ==== Sys2Proof/Laws/Memory.lean ====
section
/-!
SUPPORT. Reading and writing bytes: what a write puts where, and that it leaves every other byte; the same for words,
rows and tensors. Lines without faults are read without effect.
-/
namespace Sys2Proof.Laws

open Sys2Proof.Machine

/-! ### Lines without faults -/

/-- With no line fault, reading counts the lines decoded and does nothing else. -/
theorem touch_clean {s : State} (h : s.lineFault = []) (runs : List Run) : touch s runs = (countReads s runs, none) := by
  simp [touch, h]

/-- With no line fault, the reads of a command are clean: their lines are counted. -/
theorem withTouch_clean {s : State} (h : s.lineFault = []) (runs : List Run) (b : Blk) (q : Qc) (i : Nat)
    (k : State → State) : withTouch s runs b q i k = k (countReads s runs) := by
  simp [withTouch, touch_clean h]

/-- Counting decoded lines changes nothing else. -/
theorem countReads_frame (s : State) (runs : List Run) :
    countReads s runs = { s with decoded := (countReads s runs).decoded } := rfl
@[simp] theorem place_countReads (s : State) (runs : List Run) (a : Nat) : place (countReads s runs) a = place s a := rfl
@[simp] theorem rd_countReads (s : State) (runs : List Run) (a : Nat) : rd (countReads s runs) a = rd s a := rfl
@[simp] theorem stack_countReads (s : State) (runs : List Run) (n : Nat) : (countReads s runs).stack n = s.stack n := rfl
@[simp] theorem blk_countReads (s : State) (runs : List Run) (b : Blk) : (countReads s runs).blk b = s.blk b := rfl
@[simp] theorem q_countReads (s : State) (runs : List Run) (b : Blk) (q : Qc) :
    (countReads s runs).q b q = s.q b q := rfl

/-- With no line fault, no masked-off word is bad. -/
theorem maskedBad_clean {s : State} (h : s.lineFault = []) (a m : List Run) : maskedBad s a m = [] := by
  simp [maskedBad, h]

/-! ### Bytes -/

@[simp] theorem rd_clearFaults (s : State) (l : List Nat) (a : Nat) : rd (clearFaults s l) a = rd s a := rfl
@[simp] theorem rd_dropResv (s : State) (l : List Nat) (w : Option (BitVec 6)) (a : Nat) :
    rd (dropResv s l w) a = rd s a := rfl
@[simp] theorem rdKey_clearFaults (s : State) (l : List Nat) (j : Nat) : rdKey (clearFaults s l) j = rdKey s j := rfl
@[simp] theorem rdKey_dropResv (s : State) (l : List Nat) (w : Option (BitVec 6)) (j : Nat) :
    rdKey (dropResv s l w) j = rdKey s j := rfl
@[simp] theorem rdKey_wrHost (s : State) (a : Nat) (v : Byte) (j : Nat) : rdKey (wrHost s a v) j = rdKey s j := rfl

@[simp] theorem place_wrRaw (s : State) (npa a : Nat) (v : Byte) : place (wrRaw s npa v) a = place s a := by simp [place]

/-- A byte written leaves every other byte. -/
theorem rd_wrRaw_of_ne {s : State} {a npa : Nat} {v : Byte}
    (h : Safety.byteOf (place s a) ≠ Safety.byteOf (place s npa)) : rd (wrRaw s a v) npa = rd s npa := by
  unfold rd
  rw [place_wrRaw]
  unfold wrRaw
  cases ha : place s a <;> cases hn : place s npa <;> simp only [ha, hn, Safety.byteOf, Place.key] at h ⊢ <;>
    first
      | rfl
      | exact rdKey_wrKey_of_ne _ fun e => h (by simp [e])
      | exact rdHost_wrHost_of_ne _ fun e => h (by simp [e])

theorem rd_wrRawN_of_ne (l : List Byte) {s : State} {a npa : Nat}
    (h : ∀ i, i < l.length → Safety.byteOf (place s (a + i)) ≠ Safety.byteOf (place s npa)) :
    rd (wrRawN s a l) npa = rd s npa := by
  induction l generalizing s a with
  | nil => rfl
  | cons b l ih =>
    rw [wrRawN, ih, rd_wrRaw_of_ne (by simpa using h 0 (by simp))]
    intro i hi
    have := h (i + 1) (by simpa using hi)
    rw [place_wrRaw, place_wrRaw]
    rwa [show a + 1 + i = a + (i + 1) by omega]

/-- Without a granule that awaits its copy, no write stalls. -/
theorem stallCopy_none {s : State} (h : ∀ n, (s.stack n).ckPending = []) (l : List Nat) : stallCopy s l = s := by
  unfold stallCopy
  induction l with
  | nil => rfl
  | cons a l ih =>
    rw [List.foldl_cons]
    have : (a * 64 < 12 <<< 36 && decide ((a * 64 % 2 ^ 36) >>> 21 ∈ (s.stack ((a * 64) >>> 36)).ckPending)) = false := by
      simp [h]
    simp only [this]
    exact ih

/-- A write leaves every byte outside it. -/
theorem rd_wrN_of_ne {s : State} (h : ∀ n, (s.stack n).ckPending = []) {a npa : Nat} {l : List Byte}
    {w : Option (BitVec 6)}
    (ho : ∀ i, i < l.length → Safety.byteOf (place s (a + i)) ≠ Safety.byteOf (place s npa)) :
    rd (wrN s a l w) npa = rd s npa := by
  rw [wrN, stallCopy_none h]
  simpa using rd_wrRawN_of_ne l ho

@[simp] theorem wrN_ncr (s : State) (npa : Nat) (l : List Byte) (w : Option (BitVec 6))
    (h : ∀ n, (s.stack n).ckPending = []) : (wrN s npa l w).ncr = s.ncr := by simp [wrN, stallCopy_none h]

/-- What a write without stalls leaves as it was. -/
theorem wrN_frame {s : State} (h : ∀ n, (s.stack n).ckPending = []) (npa : Nat) (l : List Byte)
    (w : Option (BitVec 6)) : wrN s npa l w = { s with
      mem := (wrN s npa l w).mem, host := (wrN s npa l w).host, lineFault := (wrN s npa l w).lineFault
      harts := (wrN s npa l w).harts } := by
  have e : ∀ (l : List Byte) (t : State) (a : Nat),
      wrRawN t a l = { t with mem := (wrRawN t a l).mem, host := (wrRawN t a l).host } := by
    intro l
    induction l with
    | nil => intro t a; rfl
    | cons b l ih =>
      intro t a
      have h1 : wrRaw t a b = { t with mem := (wrRaw t a b).mem, host := (wrRaw t a b).host } := by
        unfold wrRaw
        split
        · rfl
        · split <;> rfl
      rw [wrRawN, ih, h1]
  rw [wrN, stallCopy_none h, e]
  rfl

/-! ### Rows and tensors -/

/-- `t` is `s` but for memory, host memory, line faults, reservations and the count of decoded lines. -/
def OnlyMem (s t : State) : Prop :=
  t = { s with mem := t.mem, host := t.host, lineFault := t.lineFault, harts := t.harts, decoded := t.decoded }

/-- Counting decoded lines. -/
theorem onlyMem_countReads (s : State) (runs : List Run) : OnlyMem s (countReads s runs) := rfl

theorem OnlyMem.refl (s : State) : OnlyMem s s := rfl

theorem OnlyMem.trans {s t u : State} (a : OnlyMem s t) (b : OnlyMem t u) : OnlyMem s u := by
  unfold OnlyMem at *
  rw [b, a]

theorem OnlyMem.place {s t : State} (h : OnlyMem s t) (a : Nat) : Machine.place t a = Machine.place s a := by
  rw [h]
  rfl

theorem OnlyMem.copied {s t : State} (h : OnlyMem s t) (c : ∀ n, (s.stack n).ckPending = []) (n : Nat) :
    (t.stack n).ckPending = [] := by
  rw [h]
  exact c n

theorem onlyMem_wrN {s : State} (h : ∀ n, (s.stack n).ckPending = []) (npa : Nat) (l : List Byte)
    (w : Option (BitVec 6)) : OnlyMem s (wrN s npa l w) := by
  unfold OnlyMem
  rw [wrN_frame h npa l w]

theorem leBytes_length (n v : Nat) : (leBytes n v).length = n := by
  induction n generalizing v with
  | zero => rfl
  | succ n ih => simp [leBytes, ih]

/-- A packed row takes the bytes its elements need. -/
theorem packRow_length {f : Fmt} (hp : f.packed = true) (l : List Nat) : (packRow f l).length = f.bytesOf l.length := by
  have h3 : ∀ (m : List Nat) (g : Nat → Nat), (m.flatMap fun x => leBytes 3 (g x)).length = m.length * 3 := by
    intro m g
    induction m with
    | nil => rfl
    | cons a m ih => simp [leBytes_length] at ih ⊢; omega
  cases f <;> simp [Fmt.packed, Fmt.bits] at hp <;> simp [packRow, Fmt.bytesOf, h3, cdiv, Fmt.bits] <;> omega

/-- A group of a packed row lies within the row. -/
theorem group_le {f : Fmt} (hp : f.packed = true) (g m : Nat) :
    f.group.2 * g + f.bytesOf (min f.group.1 (m - f.group.1 * g)) ≤ f.bytesOf m ∨ m ≤ f.group.1 * g := by
  cases f <;> simp [Fmt.packed, Fmt.bits] at hp <;> simp [Fmt.bytesOf, cdiv, Fmt.bits, Fmt.group] <;> omega

/-- A row written leaves every byte outside it, and nothing else but memory changes. -/
theorem wrRow_frame {s : State} (c : ∀ n, (s.stack n).ckPending = []) (f : Fmt) (row : Nat) (raws : List (Option Nat)) :
    OnlyMem s (wrRow s f row raws).1 ∧ ∀ a, (∀ i, i < f.bytesOf raws.length → Safety.byteOf (place s (row + i)) ≠ Safety.byteOf (place s a)) →
      rd (wrRow s f row raws).1 a = rd s a := by
  unfold wrRow
  split
  · rename_i hp
    split
    · refine ⟨onlyMem_wrN c _ _ _, fun j hj => ?_⟩
      apply rd_wrN_of_ne c
      intro i hi
      rw [packRow_length hp, List.length_map] at hi
      exact hj i hi
    · have key : ∀ (l : List Nat) (acc : State × List Byte), OnlyMem s acc.1 →
          let r := l.foldl (fun acc g =>
            let l := (raws.drop (f.group.1 * g)).take f.group.1
            if l.any Option.isSome then
              let bs := packRow f (l.zipIdx.map fun e => e.1.getD (rawAt acc.1 f row (f.group.1 * g + e.2)))
              (wrN acc.1 (row + f.group.2 * g) bs, acc.2 ++ bs)
            else acc) acc
          OnlyMem s r.1 ∧ ∀ a, (∀ i, i < f.bytesOf raws.length → Safety.byteOf (place s (row + i)) ≠ Safety.byteOf (place s a)) →
            rd r.1 a = rd acc.1 a := by
        intro l
        induction l with
        | nil => exact fun acc h => ⟨h, fun _ _ => rfl⟩
        | cons g l ih =>
          intro acc h
          rw [List.foldl_cons]
          dsimp only
          split
          · have hs := h.trans (onlyMem_wrN (h.copied c) (row + f.group.2 * g)
              (packRow f ((((raws.drop (f.group.1 * g)).take f.group.1).zipIdx).map fun e =>
                e.1.getD (rawAt acc.1 f row (f.group.1 * g + e.2)))) none)
            refine ⟨(ih _ hs).1, fun j hj => ?_⟩
            rw [(ih _ hs).2 j hj]
            apply rd_wrN_of_ne (h.copied c)
            intro i hi
            rw [packRow_length hp] at hi
            simp only [List.length_map, List.length_zipIdx, List.length_take, List.length_drop] at hi
            rw [h.place, h.place, Nat.add_assoc]
            apply hj
            rcases group_le hp g raws.length with e | e
            · omega
            · rw [Nat.sub_eq_zero_of_le e, Nat.min_zero] at hi
              cases f <;> simp [Fmt.packed, Fmt.bits] at hp <;> simp [Fmt.bytesOf, cdiv] at hi
          · exact ih acc h
      exact key _ (s, []) (OnlyMem.refl s)
  · rename_i hp
    have hb : f.bytesOf raws.length = raws.length * (f.bits / 8) := by
      cases f <;> simp [Fmt.packed, Fmt.bits] at hp <;> simp [Fmt.bytesOf, cdiv, Fmt.bits] <;> omega
    rw [hb]
    generalize hw : f.bits / 8 = w
    have key : ∀ (l : List (Option Nat × Nat)) (acc : State × List Byte), (∀ e ∈ l, e.2 < raws.length) → OnlyMem s acc.1 →
        let r := l.foldl (fun acc e =>
          match e.1 with
          | none => acc
          | some r => (wrW acc.1 (row + e.2 * w) w r, acc.2 ++ leBytes w r)) acc
        OnlyMem s r.1 ∧ ∀ a, (∀ i, i < raws.length * w → Safety.byteOf (place s (row + i)) ≠ Safety.byteOf (place s a)) →
          rd r.1 a = rd acc.1 a := by
      intro l
      induction l with
      | nil => exact fun acc _ h => ⟨h, fun _ _ => rfl⟩
      | cons e l ih =>
        intro acc he h
        rw [List.foldl_cons]
        have hm := fun e' h' => he e' (List.mem_cons_of_mem _ h')
        cases h1 : e.1 with
        | none => exact ih _ hm h
        | some r =>
          have hs : OnlyMem s (wrW acc.1 (row + e.2 * w) w r) := h.trans (onlyMem_wrN (h.copied c) _ _ _)
          refine ⟨(ih _ hm hs).1, fun j hj => ?_⟩
          rw [(ih _ hm hs).2 j hj]
          apply rd_wrN_of_ne (h.copied c)
          intro i hi
          rw [leBytes_length] at hi
          rw [h.place, h.place, Nat.add_assoc]
          apply hj
          have := he e List.mem_cons_self
          calc e.2 * w + i < e.2 * w + w := by omega
            _ = (e.2 + 1) * w := by ring
            _ ≤ raws.length * w := Nat.mul_le_mul_right _ this
    have he : ∀ e ∈ raws.zipIdx, e.2 < raws.length := by
      intro e h
      have := List.mem_zipIdx h
      omega
    exact key _ (s, []) he (OnlyMem.refl s)

/-- A tensor written leaves every byte outside its rows, and nothing else but memory changes. -/
theorem wrT_frame {s : State} (c : ∀ n, (s.stack n).ckPending = []) (d : Desc) (f : Nat → Option Nat) :
    OnlyMem s (wrT s d f).1 ∧ ∀ a, Safety.Outside s d.runs a → rd (wrT s d f).1 a = rd s a := by
  unfold wrT
  have key : ∀ (l : List Nat) (acc : State × List Byte), (∀ r ∈ l, r < d.rows) → OnlyMem s acc.1 →
      let r := l.foldl (fun acc r =>
        let x := wrRow acc.1 d.fmt (d.rowNpa r) ((List.range (d.c 0)).map fun i => f (r * d.c 0 + i))
        (x.1, acc.2 ++ x.2)) acc
      OnlyMem s r.1 ∧ ∀ a, Safety.Outside s d.runs a → rd r.1 a = rd acc.1 a := by
    intro l
    induction l with
    | nil => exact fun acc _ h => ⟨h, fun _ _ => rfl⟩
    | cons r l ih =>
      intro acc he h
      have hm := fun e' h' => he e' (List.mem_cons_of_mem _ h')
      have w := wrRow_frame (h.copied c) d.fmt (d.rowNpa r) ((List.range (d.c 0)).map fun i => f (r * d.c 0 + i))
      rw [List.foldl_cons]
      dsimp only
      generalize wrRow acc.1 d.fmt (d.rowNpa r) ((List.range (d.c 0)).map fun i => f (r * d.c 0 + i)) = x at w ⊢
      have hs := h.trans w.1
      have I := ih (x.1, acc.2 ++ x.2) hm hs
      refine ⟨I.1, fun j hj => ?_⟩
      refine (I.2 j hj).trans ?_
      apply w.2
      intro i hi
      rw [h.place, h.place]
      simp only [List.length_map, List.length_range] at hi
      refine hj ⟨d.rowNpa r, d.rowBytes⟩ ?_ i hi
      have hr := he r List.mem_cons_self
      have h0 : d.c 0 ≠ 0 := by
        intro e
        rw [e] at hi
        cases hf : d.fmt <;> simp [hf, Fmt.bytesOf, cdiv, Fmt.bits] at hi
      have ne : d.empty = false := by
        by_contra x
        have x : d.empty = true := by simpa using x
        unfold Desc.empty at x
        rw [List.any_eq_true] at x
        obtain ⟨y, hy, e⟩ := x
        have e : y = 0 := by simpa using e
        subst e
        unfold Desc.rows at hr
        cases hc : d.counts with
        | nil => rw [hc] at hy; cases hy
        | cons a m =>
          rw [hc] at hy hr
          have ha : a ≠ 0 := by simpa [Desc.c, hc] using h0
          have hm : 0 ∈ m := by
            rcases List.mem_cons.1 hy with e | e
            · exact absurd e.symm ha
            · exact e
          have z : ∀ (l : List Nat) (p : Nat), 0 ∈ l ∨ p = 0 → l.foldl (· * ·) p = 0 := by
            intro l
            induction l with
            | nil => intro p h; simpa using h
            | cons b l ih =>
              intro p h
              rw [List.foldl_cons]
              apply ih
              rcases h with h | h
              · rcases List.mem_cons.1 h with e | e
                · right; rw [← e]; simp
                · exact .inl e
              · right; simp [h]
          simp only [List.drop_succ_cons, List.drop_zero] at hr
          rw [z m 1 (.inl hm)] at hr
          exact absurd hr (by omega)
      simp only [Desc.runs, ne]
      exact List.mem_map.2 ⟨r, List.mem_range.2 hr, rfl⟩
  exact key _ (s, []) (by simp) (OnlyMem.refl s)

/-! ### What a write does is the same whatever lines have been decoded and free values drawn -/

/-- The state with other counts of decoded lines and of free values drawn. -/
abbrev withCounts (s : State) (x : SMap Nat) (n : Nat) : State := { s with decoded := x, free := n }

theorem wrN_counts {s : State} (c : ∀ n, (s.stack n).ckPending = []) (x : SMap Nat) (n npa : Nat)
    (l : List Byte) (w : Option (BitVec 6)) : wrN (withCounts s x n) npa l w = withCounts (wrN s npa l w) x n := by
  have e : ∀ (l : List Byte) (t : State) (a : Nat), wrRawN (withCounts t x n) a l = withCounts (wrRawN t a l) x n := by
    intro l
    induction l with
    | nil => exact fun _ _ => rfl
    | cons b l ih =>
      intro t a
      have h1 : wrRaw (withCounts t x n) a b = withCounts (wrRaw t a b) x n := by
        unfold wrRaw
        have hp : place (withCounts t x n) a = place t a := rfl
        rw [hp]
        split
        · rfl
        · split <;> rfl
      rw [wrRawN, wrRawN, h1, ih]
  have c' : ∀ n, ((withCounts s x n).stack n).ckPending = [] := c
  rw [wrN, stallCopy_none (s := withCounts s x n) c', e, wrN, stallCopy_none c]
  rfl

/-- A fold of writes that are each the same whatever has been counted is so too. -/
theorem writes_counts {α : Type} {s : State} (x : SMap Nat) (n : Nat) (step : State × List Byte → α → State × List Byte)
    (ho : ∀ acc a, OnlyMem s acc.1 → OnlyMem s (step acc a).1)
    (hs : ∀ acc a, OnlyMem s acc.1 → step (withCounts acc.1 x n, acc.2) a = (withCounts (step acc a).1 x n, (step acc a).2))
    (l : List α) (acc : State × List Byte) (h : OnlyMem s acc.1) :
    l.foldl step (withCounts acc.1 x n, acc.2) = (withCounts (l.foldl step acc).1 x n, (l.foldl step acc).2) := by
  induction l generalizing acc with
  | nil => rfl
  | cons a l ih => rw [List.foldl_cons, List.foldl_cons, hs _ _ h, ih _ (ho _ _ h)]

theorem wrRow_counts {s : State} (c : ∀ n, (s.stack n).ckPending = []) (x : SMap Nat) (n : Nat) (f : Fmt) (row : Nat)
    (raws : List (Option Nat)) :
    wrRow (withCounts s x n) f row raws = (withCounts (wrRow s f row raws).1 x n, (wrRow s f row raws).2) := by
  unfold wrRow
  split
  · split
    · dsimp only
      rw [wrN_counts c]
    · generalize f.group = g
      obtain ⟨m, w⟩ := g
      refine writes_counts (s := s) x n _ ?_ ?_ _ (s, []) (OnlyMem.refl s)
      · intro acc a h
        dsimp only
        split
        · exact h.trans (onlyMem_wrN (h.copied c) _ _ _)
        · exact h
      · intro acc a h
        dsimp only
        split
        · rw [wrN_counts (h.copied c)]
          rfl
        · rfl
  · refine writes_counts (s := s) x n _ ?_ ?_ _ (s, []) (OnlyMem.refl s)
    · intro acc a h
      split
      · exact h
      · exact h.trans (onlyMem_wrN (h.copied c) _ _ _)
    · intro acc a h
      split
      · rfl
      · simp only [wrW]
        rw [wrN_counts (h.copied c)]

/-- A tensor written puts the same elements whatever has been counted. -/
theorem wrT_counts {s : State} (c : ∀ n, (s.stack n).ckPending = []) (x : SMap Nat) (n : Nat) (d : Desc)
    (f : Nat → Option Nat) : wrT (withCounts s x n) d f = (withCounts (wrT s d f).1 x n, (wrT s d f).2) := by
  unfold wrT
  refine writes_counts (s := s) x n _ ?_ ?_ _ (s, []) (OnlyMem.refl s)
  · exact fun acc a h => h.trans (wrRow_frame (h.copied c) _ _ _).1
  · intro acc a h
    simp only
    rw [wrRow_counts (h.copied c)]

end Sys2Proof.Laws
end

