-- ==== Sys2Proof/Laws/Queue.lean ====
section
/-!
SUPPORT. What the shared operations of the queues do (04): the events that a wait consumes and a post adds, completion,
the front end, and the words of the address unit.
-/
namespace Sys2Proof.Laws

open Sys2Proof.Machine

theorem code_lt (q : Qc) : q.code < 6 := by cases q <;> decide

/-- A fold over queues that changes one counter each reads as the change of its own counter alone. -/
theorem get_fold (f : Nat → Nat → Nat) (key : Nat → Nat) (on : Nat → Bool) (inj : ∀ a b, key a = key b → a = b)
    (l : List Nat) (nd : l.Nodup) (m : SMap Nat) (j : Nat) :
    SMap.get 0 (l.foldl (fun m p => if on p then SMap.set 0 m (key p) (f p (SMap.get 0 m (key p))) else m) m) (key j) =
      if j ∈ l ∧ on j then f j (SMap.get 0 m (key j)) else SMap.get 0 m (key j) := by
  induction l generalizing m with
  | nil => simp
  | cons a l ih =>
    obtain ⟨na, nd⟩ := List.nodup_cons.1 nd
    rw [List.foldl_cons, ih nd]
    by_cases e : j = a
    · subst e
      by_cases o : on j <;> simp [na, o]
    · have k : key j ≠ key a := fun x => e (inj _ _ x)
      by_cases o : on a <;> simp [e, o, get_set_other _ _ _ k]

theorem get_fold_other (f : Nat → Nat → Nat) (key : Nat → Nat) (on : Nat → Bool) (l : List Nat) (m : SMap Nat) (x : Nat)
    (h : ∀ a, a ∈ l → x ≠ key a) :
    SMap.get 0 (l.foldl (fun m p => if on p then SMap.set 0 m (key p) (f p (SMap.get 0 m (key p))) else m) m) x =
      SMap.get 0 m x := by
  induction l generalizing m with
  | nil => rfl
  | cons a l ih =>
    rw [List.foldl_cons, ih _ fun b hb => h b (List.mem_cons_of_mem _ hb)]
    split
    · exact get_set_other _ _ _ (h a List.mem_cons_self)
    · rfl

/-- A queue is among those a command waits on when the command names it and it is not the command's own. -/
theorem mem_waitsOn (p q : Qc) (c : Cmd) : p.code ∈ waitsOn q c ↔ c.waitQueues.testBit p.code = true ∧ p ≠ q := by
  have := code_lt p
  have e : p.code = q.code ↔ p = q := ⟨code_inj, fun h => h ▸ rfl⟩
  simp [waitsOn, this, e]

/-- The counters after a wait has been consumed (R102): those from the other queues it names to its own queue fall by its
count. -/
theorem evGet_consume (k : Block) (p r q : Qc) (c : Cmd) : evGet (consume k q c) p.code r.code =
    evGet k p.code r.code - (if r = q ∧ p.code ∈ waitsOn q c then c.waitCount else 0) := by
  unfold consume
  split
  · simp_all
  · simp only [evGet]
    have ef : ∀ m : SMap Nat, (waitsOn q c).foldl (fun m p =>
        SMap.set 0 m (6 * p + q.code) (SMap.get 0 m (6 * p + q.code) - c.waitCount)) m =
        (List.range 6).foldl (fun m p => if (c.waitQueues.testBit p && p != q.code) = true then
          SMap.set 0 m (6 * p + q.code) (SMap.get 0 m (6 * p + q.code) - c.waitCount) else m) m := by
      intro m
      rw [waitsOn, List.foldl_filter]
    rw [ef]
    by_cases e : r = q
    · subst e
      rw [get_fold (fun _ v => v - c.waitCount) (fun p => 6 * p + r.code) (fun p => c.waitQueues.testBit p && p != r.code)
        (by intro a b; simp) _ List.nodup_range]
      have := code_lt p
      simp only [waitsOn, List.mem_filter, List.mem_range, true_and]
      split <;> rfl
    · rw [get_fold_other (fun _ v => v - c.waitCount) (fun p => 6 * p + q.code)
        (fun p => c.waitQueues.testBit p && p != q.code)]
      · simp [e]
      · intro a _ h
        have := code_lt r
        have := code_lt q
        exact e (code_inj (by omega))

/-- The counters after a command's posts (R102): those from its queue to the queues it names rise by one. -/
theorem evGet_post (k : Block) (p r q : Qc) (c : Cmd) : evGet (post k q c) p.code r.code =
    evGet k p.code r.code + (if p = q ∧ c.postQueues.testBit r.code = true then 1 else 0) := by
  unfold post
  simp only [evGet]
  by_cases e : p = q
  · subst e
    rw [get_fold (fun _ v => v + 1) (fun i => 6 * p.code + i) (fun i => c.postQueues.testBit i)
      (by intro a b; simp) _ List.nodup_range]
    have := code_lt r
    split <;> simp_all
  · rw [get_fold_other (fun _ v => v + 1) (fun i => 6 * q.code + i) (fun i => c.postQueues.testBit i)]
    · simp [e]
    · intro a ha h
      have := code_lt r
      have := List.mem_range.1 ha
      exact e (code_inj (by omega))

@[simp] theorem consume_queues (k : Block) (q : Qc) (c : Cmd) : (consume k q c).queues = k.queues := by
  unfold consume; split <;> rfl

theorem consume_frame (k : Block) (q : Qc) (c : Cmd) : consume k q c = { k with ev := (consume k q c).ev } := by
  unfold consume; split <;> rfl

theorem post_frame (k : Block) (q : Qc) (c : Cmd) : post k q c = { k with ev := (post k q c).ev } := rfl

/-- Consuming a wait leaves every queue as it was. -/
@[simp] theorem q_consume (s : State) (b : Blk) (q r : Qc) (c : Cmd) :
    (s.updBlk b fun k => consume k q c).q b r = s.q b r := by
  simp [State.q, Block.queue]

/-- Consuming the events of a wait leaves every queue of the node as it was. -/
@[simp] theorem q_consumed (s : State) (a b : Blk) (q r : Qc) (c : Cmd) : (consumed s b q c).q a r = s.q a r := by
  by_cases h : a = b
  · subst h
    exact q_consume ..
  · simp [consumed, State.q, blk_updBlk_of_ne _ h]

@[simp] theorem mkInFl_consumed (s : State) (b : Blk) (q : Qc) (c d : Cmd) :
    mkInFl (consumed s b q c) b q d = mkInFl s b q d := by simp [mkInFl]

/-- The counters after the events of a wait have been consumed are those a wait leaves (R102). -/
theorem waitConsumed_consumed (s : State) (b : Blk) (q : Qc) (c : Cmd) :
    ∀ p r : Qc, evGet ((consumed s b q c).blk b) p.code r.code = evGet (s.blk b) p.code r.code -
      (if r = q ∧ p.code ∈ waitsOn q c then c.waitCount else 0) := by
  intro p r
  simp only [consumed, blk_updBlk]
  exact evGet_consume ..

theorem blk_consumed_of_ne (s : State) {a b : Blk} (h : a ≠ b) (q : Qc) (c : Cmd) : (consumed s b q c).blk a = s.blk a :=
  blk_updBlk_of_ne _ h

/-- A command that waits on nothing consumes nothing. -/
theorem consumed_quiet {c : Cmd} (h : c.waitCount = 0) (s : State) (b : Blk) (q : Qc) :
    consumed s b q c = s.updBlk b fun k => k := by simp only [consumed, consume, h, if_true]

/-! ### What completion does beside the queue -/

/-! ### ctxLast -/

@[simp] theorem ctxLast_pending (s : State) (b : Blk) (c : Cmd) (st : Status) : (ctxLast s b c st).pending = s.pending := by unfold ctxLast; split <;> rfl
@[simp] theorem ctxLast_free (s : State) (b : Blk) (c : Cmd) (st : Status) : (ctxLast s b c st).free = s.free := by unfold ctxLast; split <;> rfl
@[simp] theorem ctxLast_mem (s : State) (b : Blk) (c : Cmd) (st : Status) : (ctxLast s b c st).mem = s.mem := by unfold ctxLast; split <;> rfl
@[simp] theorem ctxLast_lineFault (s : State) (b : Blk) (c : Cmd) (st : Status) : (ctxLast s b c st).lineFault = s.lineFault := by unfold ctxLast; split <;> rfl
@[simp] theorem ctxLast_stk (s : State) (b : Blk) (c : Cmd) (st : Status) : (ctxLast s b c st).stk = s.stk := by unfold ctxLast; split <;> rfl
@[simp] theorem ctxLast_brine (s : State) (b : Blk) (c : Cmd) (st : Status) : (ctxLast s b c st).brine = s.brine := by unfold ctxLast; split <;> rfl
@[simp] theorem ctxLast_regions (s : State) (b : Blk) (c : Cmd) (st : Status) : (ctxLast s b c st).regions = s.regions := by unfold ctxLast; split <;> rfl
@[simp] theorem ctxLast_satUzl (s : State) (b : Blk) (c : Cmd) (st : Status) : (ctxLast s b c st).satUzl = s.satUzl := by unfold ctxLast; split <;> rfl
@[simp] theorem ctxLast_satCxl (s : State) (b : Blk) (c : Cmd) (st : Status) : (ctxLast s b c st).satCxl = s.satCxl := by unfold ctxLast; split <;> rfl
@[simp] theorem ctxLast_job (s : State) (b : Blk) (c : Cmd) (st : Status) : (ctxLast s b c st).job = s.job := by unfold ctxLast; split <;> rfl
@[simp] theorem ctxLast_fab (s : State) (b : Blk) (c : Cmd) (st : Status) : (ctxLast s b c st).fab = s.fab := by unfold ctxLast; split <;> rfl
@[simp] theorem ctxLast_tim (s : State) (b : Blk) (c : Cmd) (st : Status) : (ctxLast s b c st).tim = s.tim := by unfold ctxLast; split <;> rfl
@[simp] theorem ctxLast_harts (s : State) (b : Blk) (c : Cmd) (st : Status) : (ctxLast s b c st).harts = s.harts := by unfold ctxLast; split <;> rfl
@[simp] theorem ctxLast_apt (s : State) (b : Blk) (c : Cmd) (st : Status) : (ctxLast s b c st).apt = s.apt := by unfold ctxLast; split <;> rfl
@[simp] theorem ctxLast_err (s : State) (b : Blk) (c : Cmd) (st : Status) : (ctxLast s b c st).err = s.err := by unfold ctxLast; split <;> rfl
@[simp] theorem ctxLast_hold (s : State) (b : Blk) (c : Cmd) (st : Status) : (ctxLast s b c st).hold = s.hold := by unfold ctxLast; split <;> rfl
@[simp] theorem ctxLast_ckpt (s : State) (b : Blk) (c : Cmd) (st : Status) : (ctxLast s b c st).ckpt = s.ckpt := by unfold ctxLast; split <;> rfl
@[simp] theorem ctxLast_host (s : State) (b : Blk) (c : Cmd) (st : Status) : (ctxLast s b c st).host = s.host := by unfold ctxLast; split <;> rfl
@[simp] theorem ctxLast_fuses (s : State) (b : Blk) (c : Cmd) (st : Status) : (ctxLast s b c st).fuses = s.fuses := by unfold ctxLast; split <;> rfl
@[simp] theorem ctxLast_ncr (s : State) (b : Blk) (c : Cmd) (st : Status) : (ctxLast s b c st).ncr = s.ncr := by unfold ctxLast; split <;> rfl
@[simp] theorem ctxLast_sec (s : State) (b : Blk) (c : Cmd) (st : Status) : (ctxLast s b c st).sec = s.sec := by unfold ctxLast; split <;> rfl
@[simp] theorem ctxLast_pwr (s : State) (b : Blk) (c : Cmd) (st : Status) : (ctxLast s b c st).pwr = s.pwr := by unfold ctxLast; split <;> rfl

/-! ### signOut -/

@[simp] theorem signOut_pending (s : State) (b : Blk) (q : Qc) (f : InFl) : (signOut s b q f).pending = s.pending := by unfold signOut; split <;> rfl
@[simp] theorem signOut_free (s : State) (b : Blk) (q : Qc) (f : InFl) : (signOut s b q f).free = s.free := by unfold signOut; split <;> rfl
@[simp] theorem signOut_mem (s : State) (b : Blk) (q : Qc) (f : InFl) : (signOut s b q f).mem = s.mem := by unfold signOut; split <;> rfl
@[simp] theorem signOut_lineFault (s : State) (b : Blk) (q : Qc) (f : InFl) : (signOut s b q f).lineFault = s.lineFault := by unfold signOut; split <;> rfl
@[simp] theorem signOut_stk (s : State) (b : Blk) (q : Qc) (f : InFl) : (signOut s b q f).stk = s.stk := by unfold signOut; split <;> rfl
@[simp] theorem signOut_brine (s : State) (b : Blk) (q : Qc) (f : InFl) : (signOut s b q f).brine = s.brine := by unfold signOut; split <;> rfl
@[simp] theorem signOut_regions (s : State) (b : Blk) (q : Qc) (f : InFl) : (signOut s b q f).regions = s.regions := by unfold signOut; split <;> rfl
@[simp] theorem signOut_satUzl (s : State) (b : Blk) (q : Qc) (f : InFl) : (signOut s b q f).satUzl = s.satUzl := by unfold signOut; split <;> rfl
@[simp] theorem signOut_satCxl (s : State) (b : Blk) (q : Qc) (f : InFl) : (signOut s b q f).satCxl = s.satCxl := by unfold signOut; split <;> rfl
@[simp] theorem signOut_job (s : State) (b : Blk) (q : Qc) (f : InFl) : (signOut s b q f).job = s.job := by unfold signOut; split <;> rfl
@[simp] theorem signOut_fab (s : State) (b : Blk) (q : Qc) (f : InFl) : (signOut s b q f).fab = s.fab := by unfold signOut; split <;> rfl
@[simp] theorem signOut_tim (s : State) (b : Blk) (q : Qc) (f : InFl) : (signOut s b q f).tim = s.tim := by unfold signOut; split <;> rfl
@[simp] theorem signOut_harts (s : State) (b : Blk) (q : Qc) (f : InFl) : (signOut s b q f).harts = s.harts := by unfold signOut; split <;> rfl
@[simp] theorem signOut_apt (s : State) (b : Blk) (q : Qc) (f : InFl) : (signOut s b q f).apt = s.apt := by unfold signOut; split <;> rfl
@[simp] theorem signOut_err (s : State) (b : Blk) (q : Qc) (f : InFl) : (signOut s b q f).err = s.err := by unfold signOut; split <;> rfl
@[simp] theorem signOut_hold (s : State) (b : Blk) (q : Qc) (f : InFl) : (signOut s b q f).hold = s.hold := by unfold signOut; split <;> rfl
@[simp] theorem signOut_ckpt (s : State) (b : Blk) (q : Qc) (f : InFl) : (signOut s b q f).ckpt = s.ckpt := by unfold signOut; split <;> rfl
@[simp] theorem signOut_host (s : State) (b : Blk) (q : Qc) (f : InFl) : (signOut s b q f).host = s.host := by unfold signOut; split <;> rfl
@[simp] theorem signOut_fuses (s : State) (b : Blk) (q : Qc) (f : InFl) : (signOut s b q f).fuses = s.fuses := by unfold signOut; split <;> rfl
@[simp] theorem signOut_ncr (s : State) (b : Blk) (q : Qc) (f : InFl) : (signOut s b q f).ncr = s.ncr := by unfold signOut; split <;> rfl
@[simp] theorem signOut_sec (s : State) (b : Blk) (q : Qc) (f : InFl) : (signOut s b q f).sec = s.sec := by unfold signOut; split <;> rfl
@[simp] theorem signOut_pwr (s : State) (b : Blk) (q : Qc) (f : InFl) : (signOut s b q f).pwr = s.pwr := by unfold signOut; split <;> rfl

/-! ### notifyRec -/

@[simp] theorem notifyRec_pending (s : State) (b : Blk) (q : Qc) (c : Cmd) (i : Nat) (st : Status) : (notifyRec s b q c i st).pending = s.pending := by unfold notifyRec; split <;> rfl
@[simp] theorem notifyRec_mem (s : State) (b : Blk) (q : Qc) (c : Cmd) (i : Nat) (st : Status) : (notifyRec s b q c i st).mem = s.mem := by unfold notifyRec; split <;> rfl
@[simp] theorem notifyRec_lineFault (s : State) (b : Blk) (q : Qc) (c : Cmd) (i : Nat) (st : Status) : (notifyRec s b q c i st).lineFault = s.lineFault := by unfold notifyRec; split <;> rfl
@[simp] theorem notifyRec_stk (s : State) (b : Blk) (q : Qc) (c : Cmd) (i : Nat) (st : Status) : (notifyRec s b q c i st).stk = s.stk := by unfold notifyRec; split <;> rfl
@[simp] theorem notifyRec_brine (s : State) (b : Blk) (q : Qc) (c : Cmd) (i : Nat) (st : Status) : (notifyRec s b q c i st).brine = s.brine := by unfold notifyRec; split <;> rfl
@[simp] theorem notifyRec_blocks (s : State) (b : Blk) (q : Qc) (c : Cmd) (i : Nat) (st : Status) : (notifyRec s b q c i st).blocks = s.blocks := by unfold notifyRec; split <;> rfl
@[simp] theorem notifyRec_regions (s : State) (b : Blk) (q : Qc) (c : Cmd) (i : Nat) (st : Status) : (notifyRec s b q c i st).regions = s.regions := by unfold notifyRec; split <;> rfl
@[simp] theorem notifyRec_satUzl (s : State) (b : Blk) (q : Qc) (c : Cmd) (i : Nat) (st : Status) : (notifyRec s b q c i st).satUzl = s.satUzl := by unfold notifyRec; split <;> rfl
@[simp] theorem notifyRec_satCxl (s : State) (b : Blk) (q : Qc) (c : Cmd) (i : Nat) (st : Status) : (notifyRec s b q c i st).satCxl = s.satCxl := by unfold notifyRec; split <;> rfl
@[simp] theorem notifyRec_job (s : State) (b : Blk) (q : Qc) (c : Cmd) (i : Nat) (st : Status) : (notifyRec s b q c i st).job = s.job := by unfold notifyRec; split <;> rfl
@[simp] theorem notifyRec_fab (s : State) (b : Blk) (q : Qc) (c : Cmd) (i : Nat) (st : Status) : (notifyRec s b q c i st).fab = s.fab := by unfold notifyRec; split <;> rfl
@[simp] theorem notifyRec_tim (s : State) (b : Blk) (q : Qc) (c : Cmd) (i : Nat) (st : Status) : (notifyRec s b q c i st).tim = s.tim := by unfold notifyRec; split <;> rfl
@[simp] theorem notifyRec_harts (s : State) (b : Blk) (q : Qc) (c : Cmd) (i : Nat) (st : Status) : (notifyRec s b q c i st).harts = s.harts := by unfold notifyRec; split <;> rfl
@[simp] theorem notifyRec_apt (s : State) (b : Blk) (q : Qc) (c : Cmd) (i : Nat) (st : Status) : (notifyRec s b q c i st).apt = s.apt := by unfold notifyRec; split <;> rfl
@[simp] theorem notifyRec_err (s : State) (b : Blk) (q : Qc) (c : Cmd) (i : Nat) (st : Status) : (notifyRec s b q c i st).err = s.err := by unfold notifyRec; split <;> rfl
@[simp] theorem notifyRec_hold (s : State) (b : Blk) (q : Qc) (c : Cmd) (i : Nat) (st : Status) : (notifyRec s b q c i st).hold = s.hold := by unfold notifyRec; split <;> rfl
@[simp] theorem notifyRec_ckpt (s : State) (b : Blk) (q : Qc) (c : Cmd) (i : Nat) (st : Status) : (notifyRec s b q c i st).ckpt = s.ckpt := by unfold notifyRec; split <;> rfl
@[simp] theorem notifyRec_fuses (s : State) (b : Blk) (q : Qc) (c : Cmd) (i : Nat) (st : Status) : (notifyRec s b q c i st).fuses = s.fuses := by unfold notifyRec; split <;> rfl
@[simp] theorem notifyRec_ncr (s : State) (b : Blk) (q : Qc) (c : Cmd) (i : Nat) (st : Status) : (notifyRec s b q c i st).ncr = s.ncr := by unfold notifyRec; split <;> rfl
@[simp] theorem notifyRec_sec (s : State) (b : Blk) (q : Qc) (c : Cmd) (i : Nat) (st : Status) : (notifyRec s b q c i st).sec = s.sec := by unfold notifyRec; split <;> rfl
@[simp] theorem notifyRec_pwr (s : State) (b : Blk) (q : Qc) (c : Cmd) (i : Nat) (st : Status) : (notifyRec s b q c i st).pwr = s.pwr := by unfold notifyRec; split <;> rfl

@[simp] theorem ctxLast_q (s : State) (b : Blk) (c : Cmd) (st : Status) (q : Qc) : (ctxLast s b c st).q b q = s.q b q := by
  unfold ctxLast
  split <;> simp [State.q, State.setCtx, Block.queue]

@[simp] theorem ctxLast_ev (s : State) (b : Blk) (c : Cmd) (st : Status) : ((ctxLast s b c st).blk b).ev = (s.blk b).ev := by
  unfold ctxLast
  split <;> simp [State.setCtx]

theorem ctxLast_blk_of_ne (s : State) (c : Cmd) (st : Status) {a b : Blk} (h : a ≠ b) :
    (ctxLast s b c st).blk a = s.blk a := by
  unfold ctxLast
  split <;> simp [State.setCtx, blk_updBlk_of_ne _ h]

/-- The status of a stream command is its context's last, and no other context changes. -/
theorem ctxLast_ctx (s : State) (b : Blk) (c : Cmd) (st : Status) (n : Nat) :
    (ctxLast s b c st).ctx b n = if c.ctx = some n then { s.ctx b n with last := st } else s.ctx b n := by
  unfold ctxLast
  cases h : c.ctx with
  | none => simp
  | some m => simp [State.setCtx, State.ctx, Block.ctx, get_set, eq_comm]; split <;> simp_all

@[simp] theorem ctx_updQ (s : State) (b : Blk) (q : Qc) (g : Queue → Queue) (n : Nat) :
    (s.updQ b q g).ctx b n = s.ctx b n := by simp [State.ctx, Block.ctx]

@[simp] theorem q_post (s : State) (b : Blk) (q r : Qc) (c : Cmd) : (s.updBlk b fun k => post k q c).q b r = s.q b r := by
  simp [State.q, Block.queue, post]

@[simp] theorem ctx_post (s : State) (b : Blk) (q : Qc) (c : Cmd) (n : Nat) :
    (s.updBlk b fun k => post k q c).ctx b n = s.ctx b n := by simp [State.ctx, Block.ctx, post]

@[simp] theorem notifyRec_blk (s : State) (b a : Blk) (q : Qc) (c : Cmd) (i : Nat) (st : Status) :
    (notifyRec s b q c i st).blk a = s.blk a := by simp [State.blk]

@[simp] theorem notifyRec_q (s : State) (b a : Blk) (q r : Qc) (c : Cmd) (i : Nat) (st : Status) :
    (notifyRec s b q c i st).q a r = s.q a r := by simp [State.q]

@[simp] theorem notifyRec_ctx (s : State) (b a : Blk) (q : Qc) (c : Cmd) (i n : Nat) (st : Status) :
    (notifyRec s b q c i st).ctx a n = s.ctx a n := by simp [State.ctx]

/-- Twin mode: the output of a command enters its queue's signature (R264). -/
theorem signOut_eq (s : State) (b : Blk) (q : Qc) (f : InFl) : signOut s b q f =
    if (s.job.image.map Image.pleach).getD false = true ∧ f.out ≠ [] then
      s.updQ b q fun u => { u with crc := crc64 u.crc (leBytes 4 f.pos ++ f.out)
                                   crcLog := u.crcLog ++ [(f.pos, crc64 0 (leBytes 4 f.pos ++ f.out))] }
    else s := by
  unfold signOut
  by_cases h1 : f.out = [] <;> by_cases h2 : (s.job.image.map Image.pleach).getD false = true <;>
    simp only [h1, h2, List.isEmpty_nil, Bool.not_true, ne_eq, not_true_eq_false, and_false, if_false,
      if_true, not_false_eq_true, and_true, Bool.or_false, Bool.false_eq_true, Bool.not_false, Bool.or_true]
  simp [h1]

end Sys2Proof.Laws
end

