-- ==== Sys2Proof/Laws/Engine.lean ====
section
/-!
SUPPORT. What an engine's row does as a whole: it takes up a command, writes its results, sets its flags and finishes.
-/
namespace Sys2Proof.Laws

open Sys2Proof.Machine

theorem nextStart_mem {s : State} {b : Blk} {q : Qc} {f : InFl} (h : nextStart s b q = some f) :
    f ∈ (s.q b q).inflight := List.mem_of_find?_eq_some h

/-- The engine row whose opcode the next command has. -/
theorem engine_run {s : State} {b : Blk} {q : Qc} {f : InFl} (h : nextStart s b q = some f) {op : Nat}
    (ho : f.cmd.opcode = op) (run : State → InFl → State) : engine s b q op run = run s f := by
  simp [engine, h, ho]

/-- A command taken up. -/
abbrev taken (s : State) (b : Blk) (q : Qc) (f : InFl) : State := updInFl s b q f.idx fun x => { x with started := true }

/-- A command that writes memory alone, sets flags and finishes: it stands finished, its flags are set, and nothing
else changes but the bytes that its writes changed. -/
theorem engine_ends {s w : State} {b : Blk} {q : Qc} {f : InFl} (hm : f ∈ (s.q b q).inflight) (hd : f.done = none)
    (K : OnlyMem (taken s b q f) w) (eng : Nat) (fl : Fl) (n : Nat) (st : Status) (bs : List Byte) (runs : List Run)
    (hr : ∀ a, Safety.Outside s runs a → rd w a = rd s a) :
    let t := finishOut { setFlags w b eng fl with free := n } b q f.idx st bs
    Safety.Finished b q f st t ∧ t.mem = w.mem ∧
      (t.blk b).flags = (s.blk b).flags ||| (fl.setWidth 16 <<< (4 * eng)) ∧ Safety.EngineOnly b q runs s t := by
  intro t
  have hb : ∀ a, w.blk a = (taken s b q f).blk a := by intro a; rw [K]; rfl
  have hq : ∀ r, ({ setFlags w b eng fl with free := n } : State).q b r = (taken s b q f).q b r := by
    intro r
    show (setFlags w b eng fl).q b r = _
    simp only [State.q, setFlags, blk_updBlk, Block.queue, hb]
  have hk : ({ setFlags w b eng fl with free := n } : State).blk b = { (taken s b q f).blk b with
      flags := ((taken s b q f).blk b).flags ||| (fl.setWidth 16 <<< (4 * eng)) } := by
    show (setFlags w b eng fl).blk b = _
    simp [setFlags, hb]
  refine ⟨⟨{ f with started := true, done := some st, out := f.out ++ bs }, ?_, rfl, rfl, rfl⟩, rfl, ?_,
    ⟨?_, ?_, ?_, ?_, ?_, hr⟩⟩
  · simp only [t, finishOut, updInFl, q_updQ, hq]
    refine List.mem_map.2 ⟨{ f with started := true }, List.mem_map.2 ⟨f, hm, by simp [hd]⟩, by simp [hd]⟩
  · simp only [t, finishOut, updInFl, State.updQ, State.setQ, Block.setQueue, blk_updBlk, hk]
  · obtain ⟨m, h, l, r, d, e⟩ : ∃ m h l r d, w = { taken s b q f with mem := m, host := h, lineFault := l, harts := r, decoded := d } :=
      ⟨_, _, _, _, _, K⟩
    subst e
    rfl
  · intro a ha
    simp only [t, finishOut, updInFl]
    rw [blk_updQ_of_ne _ _ ha]
    show (setFlags w b eng fl).blk a = _
    rw [setFlags, blk_updBlk_of_ne _ ha, hb]
    simp [taken, updInFl, blk_updQ_of_ne _ _ ha]
  · simp only [t, finishOut, updInFl, State.updQ, State.setQ, Block.setQueue, blk_updBlk, hk]
  · intro r hr
    simp only [t, finishOut, updInFl]
    rw [q_updQ_of_ne _ _ hr, hq]
    simp [taken, updInFl, q_updQ_of_ne _ _ hr]
  · simp only [t, finishOut, updInFl, q_updQ, hq]

/-- The same for a command that sets no flags. -/
theorem engine_ends_plain {s w : State} {b : Blk} {q : Qc} {f : InFl} (hm : f ∈ (s.q b q).inflight) (hd : f.done = none)
    (K : OnlyMem s w) (n : Nat) (st : Status) (bs : List Byte) (runs : List Run)
    (hr : ∀ a, Safety.Outside s runs a → rd w a = rd s a) :
    let t := finishOut { w with free := n } b q f.idx st bs
    Safety.Finished b q f st t ∧ t.mem = w.mem ∧
      (t.blk b).flags = (s.blk b).flags ∧ Safety.EngineOnly b q runs s t := by
  intro t
  have hb : ∀ a, ({ w with free := n } : State).blk a = s.blk a := by intro a; show w.blk a = _; rw [K]; rfl
  have hq : ∀ r, ({ w with free := n } : State).q b r = s.q b r := by intro r; simp only [State.q, hb]
  refine ⟨⟨{ f with started := true, done := some st, out := f.out ++ bs }, ?_, rfl, rfl, rfl⟩, rfl, ?_,
    ⟨?_, ?_, ?_, ?_, ?_, hr⟩⟩
  · simp only [t, finishOut, updInFl, q_updQ, hq]
    exact List.mem_map.2 ⟨f, hm, by simp [hd]⟩
  · simp only [t, finishOut, updInFl, State.updQ, State.setQ, Block.setQueue, blk_updBlk, hb]
  · obtain ⟨m, h, l, r, d, e⟩ : ∃ m h l r d, w = { s with mem := m, host := h, lineFault := l, harts := r, decoded := d } :=
      ⟨_, _, _, _, _, K⟩
    subst e
    rfl
  · intro a ha
    simp only [t, finishOut, updInFl]
    rw [blk_updQ_of_ne _ _ ha, hb]
  · simp only [t, finishOut, updInFl, State.updQ, State.setQ, Block.setQueue, blk_updBlk, hb]
  · intro r hr
    simp only [t, finishOut, updInFl]
    rw [q_updQ_of_ne _ _ hr, hq]
  · simp only [t, finishOut, updInFl, q_updQ, hq]

/-- Tensors written one after the other. -/
theorem writes_frame {s0 : State} (c : ∀ n, (s0.stack n).ckPending = [])
    (el : Desc × Option Desc × (Nat → Nat × Fl) → Nat → Option Nat)
    (outs : List (Desc × Option Desc × (Nat → Nat × Fl))) {u : State} (h : OnlyMem s0 u) :
    let r := outs.foldl (fun u o => (wrT u o.1 (el o)).1) u
    OnlyMem s0 r ∧ ∀ a, Safety.Outside s0 (outs.flatMap fun o => o.1.runs) a → rd r a = rd u a := by
  induction outs generalizing u with
  | nil => exact ⟨h, fun _ _ => rfl⟩
  | cons o outs ih =>
    rw [List.foldl_cons]
    have w := wrT_frame (h.copied c) o.1 (el o)
    have I := ih (h.trans w.1)
    refine ⟨I.1, fun a ha => (I.2 a ?_).trans (w.2 a ?_)⟩
    · intro r hr
      exact ha r (by rw [List.flatMap_cons]; exact List.mem_append_right _ hr)
    · intro r hr i hi
      rw [h.place, h.place]
      exact ha r (by rw [List.flatMap_cons]; exact List.mem_append_left _ hr) i hi

/-- The vector engine's write of its results, with no line in error and no granule awaiting its copy (R141): the
elements whose mask is on, their flags, and nothing else. -/
theorem maskedWrite_clean {s : State} (cl : Safety.Clean s) (b : Blk) (f : InFl) (hm : f ∈ (s.q b .VQ).inflight)
    (hd : f.done = none) (eng : Nat) (rs ms : List Run) (outs : List (Desc × Option Desc × (Nat → Nat × Fl)))
    (free : Nat) :
    let t := maskedWrite s b f.idx eng rs ms outs free
    Safety.Finished b .VQ f .ok t ∧
      t.mem = (outs.foldl (fun u o => (wrT u o.1 fun e =>
        if e < o.1.size ∧ maskOn s o.2.1 e = true then some (o.2.2 e).1 else none).1) (taken s b .VQ f)).mem ∧
      (t.blk b).flags = (s.blk b).flags ||| ((outs.foldl (fun a o => (List.range o.1.size).foldl (fun a e =>
        if maskOn s o.2.1 e then a ||| (o.2.2 e).2 else a) a) (0 : Fl)).setWidth 16 <<< (4 * eng)) ∧
      Safety.EngineOnly b .VQ (outs.flatMap fun o => o.1.runs) s t := by
  intro t
  have c0 : ∀ n, ((taken s b .VQ f).stack n).ckPending = [] := cl.copied
  have l0 : (taken s b .VQ f).lineFault = [] := cl.lines
  let el := fun (o : Desc × Option Desc × (Nat → Nat × Fl)) e =>
    if e < o.1.size ∧ maskOn s o.2.1 e = true then some (o.2.2 e).1 else none
  let fls := fun (a : Fl) (o : Desc × Option Desc × (Nat → Nat × Fl)) => (List.range o.1.size).foldl (fun a e =>
    if maskOn s o.2.1 e then a ||| (o.2.2 e).2 else a) a
  have fold : ∀ (outs : List (Desc × Option Desc × (Nat → Nat × Fl))) (acc : State × List Byte × Fl),
      ∃ bs, outs.foldl (fun (acc : State × List Byte × Fl) o =>
        let (d, m, vals) := o
        let es := List.range d.size
        let rs := es.map fun e => if maskOn s m e then some (vals e) else none
        let (t, bs) := wrT acc.1 d fun e => ((rs.getD e none).map Prod.fst)
        (t, acc.2.1 ++ bs, rs.foldl (fun a v => a ||| ((v.map Prod.snd).getD 0)) acc.2.2)) acc =
      (outs.foldl (fun u o => (wrT u o.1 (el o)).1) acc.1, bs, outs.foldl fls acc.2.2) := by
    intro outs
    induction outs with
    | nil => exact fun acc => ⟨_, rfl⟩
    | cons o outs ih =>
      intro acc
      obtain ⟨d, m, vals⟩ := o
      simp only [List.foldl_cons]
      have e1 : (fun e => ((((List.range d.size).map fun e =>
          if maskOn s m e then some (vals e) else none).getD e none).map Prod.fst)) = el (d, m, vals) := by
        funext e
        simp only [el, List.getD_eq_getElem?_getD, List.getElem?_map]
        by_cases h : e < d.size
        · by_cases k : maskOn s m e = true <;> simp [h, k]
        · simp [h]
      have e2 : ((List.range d.size).map fun e => if maskOn s m e then some (vals e) else none).foldl
          (fun a v => a ||| ((v.map Prod.snd).getD 0)) acc.2.2 = fls acc.2.2 (d, m, vals) := by
        rw [List.foldl_map]
        show _ = List.foldl _ _ _
        congr 1
        funext a e
        split <;> simp
      obtain ⟨bs, I⟩ := ih ((wrT acc.1 d (el (d, m, vals))).1, acc.2.1 ++ (wrT acc.1 d (el (d, m, vals))).2,
        fls acc.2.2 (d, m, vals))
      refine ⟨bs, ?_⟩
      rw [e1, e2]
      exact I
  let act := outs.flatMap fun o => activeRuns s o.1 o.2.1 true
  let s2 := countReads (countReads (taken s b .VQ f) rs) (partialRuns act)
  have o2 : OnlyMem (taken s b .VQ f) s2 := rfl
  have dec : ∀ (outs : List (Desc × Option Desc × (Nat → Nat × Fl))) (u : State), OnlyMem (taken s b .VQ f) u →
      outs.foldl (fun u o => (wrT u o.1 (el o)).1) (withCounts u s2.decoded s2.free) =
        withCounts (outs.foldl (fun u o => (wrT u o.1 (el o)).1) u) s2.decoded s2.free := by
    intro outs
    induction outs with
    | nil => exact fun _ _ => rfl
    | cons o outs ih =>
      intro u h
      rw [List.foldl_cons, List.foldl_cons, wrT_counts (h.copied c0)]
      exact ih _ (h.trans (wrT_frame (h.copied c0) _ _).1)
  obtain ⟨bs, F⟩ := fold outs (s2, [], 0)
  obtain ⟨K1, K2⟩ := writes_frame c0 el outs o2
  have em : (outs.foldl (fun u o => (wrT u o.1 (el o)).1) s2).mem =
      (outs.foldl (fun u o => (wrT u o.1 (el o)).1) (taken s b .VQ f)).mem := by
    have e2 : s2 = withCounts (taken s b .VQ f) s2.decoded s2.free := rfl
    rw [e2, dec outs (taken s b .VQ f) (OnlyMem.refl _)]
  have et : t = finishOut { setFlags (outs.foldl (fun u o => (wrT u o.1 (el o)).1) s2) b eng
      (outs.foldl fls 0) with free := (setFlags (outs.foldl (fun u o => (wrT u o.1 (el o)).1) s2) b eng
      (outs.foldl fls 0)).free + free } b .VQ f.idx .ok bs := by
    show maskedWrite _ _ _ _ _ _ _ _ = _
    unfold maskedWrite
    dsimp only
    rw [maskedBad_clean cl.lines]
    simp only [recordMasked, List.foldl_nil, List.filter_nil, setAside, keepBad]
    rw [withTouch_clean l0, withTouch_clean (s := countReads (taken s b .VQ f) rs) l0]
    dsimp only at F
    rw [F]
  rw [et]
  have := engine_ends hm hd K1 eng (outs.foldl fls 0) ((setFlags (outs.foldl (fun u o => (wrT u o.1 (el o)).1) s2) b eng
    (outs.foldl fls 0)).free + free) .ok bs (outs.flatMap fun (o : Desc × Option Desc × (Nat → Nat × Fl)) => o.1.runs) fun a ha => K2 a ha
  exact ⟨this.1, this.2.1.trans em, this.2.2⟩

end Sys2Proof.Laws
end

