-- ==== Sys2Proof/Laws/Good.lean ====
section
/-!
SUPPORT. The part of the state that the invariants of Safety speak of, and what every operation keeps of it.
-/
namespace Sys2Proof.Laws

open Sys2Proof.Machine

/-- The part of the state that the invariants speak of. -/
structure View where
  pending : List Instr
  grade : Grade
  serial : W64
  mem : List Host.Cell
  hostMem : List Host.Cell
  log : Nat
  logq : Nat
  em : Nat
  sess : Nat
  ctl : Nat

/-- The view of a state. -/
def view (s : State) : View :=
  ⟨s.pending, s.fuses.grade, s.fuses.serial, s.mem, s.host.mem, s.err.log.length, s.host.logq.length,
    s.host.emQueue.length, s.sec.sessions.length, s.fab.control.length⟩

/-- A view with a given queue and given fuses, its memories canonical, its logs within their capacities. -/
structure Ok (p : List Instr) (g : Grade × W64) (v : View) : Prop where
  pending : v.pending = p
  grade : v.grade = g.1
  serial : v.serial = g.2
  mem : SMap.wf 0 v.mem = true
  hostMem : SMap.wf 0 v.hostMem = true
  log : v.log ≤ 4096
  logq : v.logq ≤ 4096
  em : v.em ≤ 64
  sess : v.sess ≤ 4
  ctl : v.ctl ≤ 4096

variable {p : List Instr} {g : Grade × W64}

theorem view_mk (pending : List Instr) (free : Nat) (mem : List Host.Cell) (lineFault : SMap LineFault)
    (decoded : SMap Nat) (partFaults : List PartFault) (stk : SMap Stack) (brine : List BrineEnt) (blocks : SMap Block) (regions : SMap Region) (satUzl satCxl : W64)
    (job : Job) (fab : Fabric) (tim : Timing) (harts : SMap Hart) (wcb : SMap (List WcLine)) (apt : SMap W64) (err : Errs) (hold : Hold)
    (ckpt : Ckpt) (host : HostIf) (fuses : Fuses) (ncr : Ncr) (sec : Sec) (pwr : Power) :
    view ⟨pending, free, mem, lineFault, decoded, partFaults, stk, brine, blocks, regions, satUzl, satCxl, job, fab, tim, harts, wcb, apt, err,
      hold, ckpt, host, fuses, ncr, sec, pwr⟩ =
    ⟨pending, fuses.grade, fuses.serial, mem, host.mem, err.log.length, host.logq.length, host.emQueue.length,
      sec.sessions.length, fab.control.length⟩ := rfl

theorem view_eta (s : State) :
    (⟨s.pending, s.fuses.grade, s.fuses.serial, s.mem, s.host.mem, s.err.log.length, s.host.logq.length,
      s.host.emQueue.length, s.sec.sessions.length, s.fab.control.length⟩ : View) = view s := rfl

/-- A state that differs from a good one only outside the view. -/
theorem ok_upd {a b : State} (h : Ok p g (view b)) (e1 : a.pending = b.pending) (e2 : a.fuses = b.fuses)
    (e3 : a.mem = b.mem) (e4 : a.host.mem = b.host.mem) (e5 : a.err.log = b.err.log) (e6 : a.host.logq = b.host.logq)
    (e7 : a.host.emQueue = b.host.emQueue) (e8 : a.sec.sessions = b.sec.sessions)
    (e9 : a.fab.control = b.fab.control) : Ok p g (view a) := by
  have e : view a = view b := by simp only [view, e1, e2, e3, e4, e5, e6, e7, e8, e9]
  rw [e]; exact h

/-- The state that the result of one instruction carries. -/
def resState : HRes → State
  | .done s => s
  | .trap s _ _ => s
  | .wait s => s

theorem resState_done (s : State) : resState (.done s) = s := rfl
theorem resState_trap (s : State) (c : Nat) (v : W64) : resState (.trap s c v) = s := rfl
theorem resState_wait (s : State) : resState (.wait s) = s := rfl

/-- A choice between two results. -/
theorem ok_ite_res {c : Prop} [Decidable c] {a b : HRes} (ha : c → Ok p g (view (resState a)))
    (hb : ¬c → Ok p g (view (resState b))) : Ok p g (view (resState (if c then a else b))) := by split <;> simp_all

/-- A choice between two states. -/
theorem ok_ite {c : Prop} [Decidable c] {a b : State} (ha : c → Ok p g (view a)) (hb : ¬c → Ok p g (view b)) :
    Ok p g (view (if c then a else b)) := by split <;> simp_all

/-- The same for the first part of a pair. -/
theorem ok_ite_fst {α : Type} {c : Prop} [Decidable c] {a b : State × α} (ha : c → Ok p g (view a.1))
    (hb : ¬c → Ok p g (view b.1)) : Ok p g (view (if c then a else b).1) := by split <;> simp_all

/-- The same for the second part of a pair. -/
theorem ok_ite_snd {α : Type} {c : Prop} [Decidable c] {a b : α × State} (ha : c → Ok p g (view a.2))
    (hb : ¬c → Ok p g (view b.2)) : Ok p g (view (if c then a else b).2) := by split <;> simp_all

/-- A state found by taking apart a pair. -/
theorem ok_of_pair {α : Type} {x : State × α} {a : State} {b : α} (e : x = (a, b)) (h : Ok p g (view x.1)) :
    Ok p g (view a) := by subst e; exact h

/-- The same for a pair with the state second. -/
theorem ok_of_pair2 {α : Type} {x : α × State} {a : State} {b : α} (e : x = (b, a)) (h : Ok p g (view x.2)) :
    Ok p g (view a) := by subst e; exact h

/-- The state in an option. -/
theorem ok_of_some {x : Option State} {a : State} (e : x = some a) (h : ∀ t, x = some t → Ok p g (view t)) :
    Ok p g (view a) := h a e

/-- The state in an option of a pair. -/
theorem ok_of_opt2 {α : Type} {x : Option (α × State)} {a : State} {b : α} (e : x = some (b, a))
    (h : ∀ u, x = some u → Ok p g (view u.2)) : Ok p g (view a) := h _ e

/-- The state of an optional result of an instruction. -/
theorem ok_of_hres {x : Option HRes} {r : HRes} (e : x = some r) (h : ∀ u, x = some u → Ok p g (view (resState u))) :
    Ok p g (view (resState r)) := h r e

/-- The first of a list's answers. -/
theorem ok_findSome {α β : Type} {f : α → Option (β × State)} (l : List α)
    (h : ∀ a u, f a = some u → Ok p g (view u.2)) (u : β × State) (e : l.findSome? f = some u) : Ok p g (view u.2) := by
  obtain ⟨a, -, ha⟩ := List.exists_of_findSome?_eq_some e
  exact h a u ha

/-- A fold whose every step keeps the view good. -/
theorem ok_foldl {α : Type} {f : State → α → State} (l : List α) {s : State} (h : Ok p g (view s))
    (hf : ∀ t x, Ok p g (view t) → Ok p g (view (f t x))) : Ok p g (view (l.foldl f s)) := by
  induction l generalizing s with
  | nil => exact h
  | cons x l ih => exact ih (hf s x h)

/-- A fold over pairs whose first part is a state. -/
theorem ok_foldl_fst {α β : Type} {f : State × β → α → State × β} (l : List α) {a : State × β}
    (h : Ok p g (view a.1)) (hf : ∀ a x, Ok p g (view a.1) → Ok p g (view (f a x).1)) :
    Ok p g (view (l.foldl f a).1) := by
  induction l generalizing a with
  | nil => exact h
  | cons x l ih => exact ih (hf a x h)

/-- A fold over the tiles of a TMUL. -/
theorem ok_foldl_tw {α : Type} {f : TWalk → α → TWalk} (l : List α) {a : TWalk} (h : Ok p g (view a.s))
    (hf : ∀ a x, Ok p g (view a.s) → Ok p g (view (f a x).s)) : Ok p g (view (l.foldl f a).s) := by
  induction l generalizing a with
  | nil => exact h
  | cons x l ih => exact ih (hf a x h)

/-- A fold over the items of an SFACT. -/
theorem ok_foldl_sw {α : Type} {f : SWalk → α → SWalk} (l : List α) {a : SWalk} (h : Ok p g (view a.s))
    (hf : ∀ a x, Ok p g (view a.s) → Ok p g (view (f a x).s)) : Ok p g (view (l.foldl f a).s) := by
  induction l generalizing a with
  | nil => exact h
  | cons x l ih => exact ih (hf a x h)

/-- A choice between two walks. -/
theorem ok_ite_tw {c : Prop} [Decidable c] {a b : TWalk} (ha : c → Ok p g (view a.s)) (hb : ¬c → Ok p g (view b.s)) :
    Ok p g (view (if c then a else b).s) := by split <;> simp_all

theorem dropFirst_length {α : Type} (q : α → Bool) (l : List α) (h : l.any q = true) :
    (dropFirst q l).length + 1 = l.length := by
  induction l with
  | nil => simp at h
  | cons a l ih =>
    unfold dropFirst
    split
    · rfl
    · next hq =>
      rw [List.any_cons, Bool.or_eq_true] at h
      simp [← ih (h.resolve_left hq)]

/-- Dropping a C record leaves one record fewer. -/
theorem dropC_length (l : List (ErrRec × Bool)) (h : l.any (fun e => e.1.sev == .C) = true) :
    (dropC l).length + 1 = l.length := by
  unfold dropC
  split
  · next ha => exact dropFirst_length _ _ ha
  · exact dropFirst_length _ _ h

/-- A full log makes room for one record. -/
theorem makeRoom_length (l : List (ErrRec × Bool)) (h : l.length ≤ 4096) : (makeRoom l).1.length < 4096 := by
  have hc : logCap = 4096 := rfl
  unfold makeRoom
  split
  · dsimp only; omega
  split
  · next ha => have := dropC_length _ ha; dsimp only; omega
  split
  · next ha => have := dropFirst_length _ _ ha; dsimp only; omega
  · simp only [List.length_drop]; omega

/-- The log has room for a record once the record's kind has been trimmed. -/
theorem trimC_length (l : List (ErrRec × Bool)) (r : ErrRec) (h : l.length ≤ 4096) : (trimC l r).1.length < 4096 := by
  unfold trimC
  split
  · next hc =>
    have ha : l.any (fun e => e.1.sev == .C) = true := by
      have hl : 0 < (l.filter fun e => e.1.sev == .C).length :=
        Nat.lt_of_lt_of_le (by decide : 0 < logCap - 512) (of_decide_eq_true (Bool.and_eq_true_iff.1 hc).2)
      obtain ⟨e, he⟩ := List.exists_mem_of_length_pos hl
      exact List.any_eq_true.2 ⟨e, (List.mem_filter.1 he).1, (List.mem_filter.1 he).2⟩
    have := dropC_length _ ha
    dsimp only
    omega
  · exact makeRoom_length l h

end Sys2Proof.Laws
end

