-- ==== Sys2Proof/Laws/Harts.lean ====
section
/-!
SUPPORT. A hart's memory while no line is in error and no granule awaits its copy: what emptying its core's buffer
changes, and that translation and fetch count lines and change nothing else.
-/
namespace Sys2Proof.Laws

open Sys2Proof.Machine

/-- A write changes of a hart at most its reservation. -/
theorem hart_wrN {s : State} (c : ∀ n, (s.stack n).ckPending = []) (a : Nat) (l : List Byte) (w : Option (BitVec 6))
    (g : BitVec 6) : (wrN s a l w).hart g = { s.hart g with resv := ((wrN s a l w).hart g).resv } := by
  have e : (wrRawN s a l).harts = s.harts := by
    induction l generalizing s a with
    | nil => rfl
    | cons b l ih =>
      rw [wrRawN, ih]
      · unfold wrRaw
        repeat' split
        all_goals rfl
      · unfold wrRaw
        repeat' split
        all_goals exact c
  rw [wrN, stallCopy_none c]
  simp only [dropResv, clearFaults, State.hart, e]
  rw [get_mapV (by intro k; rfl)]
  split
  · split <;> rfl
  · rfl

/-- Lines stay without faults when bytes are written. -/
theorem lineFault_wrN {s : State} (h : s.lineFault = []) (c : ∀ n, (s.stack n).ckPending = []) (a : Nat) (l : List Byte)
    (w : Option (BitVec 6)) : (wrN s a l w).lineFault = [] := by
  simp [wrN, stallCopy_none c, clearFaults, h]

/-- From `s` to `t` buffered lines have gone to memory, and no line is in error: bytes, buffers, reservations and the count
of decoded lines alone may differ. -/
structure Drained (s t : State) : Prop where
  rest : t = { s with mem := t.mem, host := t.host, harts := t.harts, wcb := t.wcb, decoded := t.decoded }
  harts : ∀ g, t.hart g = { s.hart g with resv := (t.hart g).resv }

theorem Drained.refl (s : State) : Drained s s := ⟨rfl, fun _ => rfl⟩

theorem Drained.trans {s t u : State} (h : Drained s t) (k : Drained t u) : Drained s u :=
  ⟨by rw [k.rest, h.rest], fun g => by rw [k.harts g, h.harts g]⟩

theorem Drained.clean {s t : State} (h : Drained s t) (c : Safety.Clean s) : Safety.Clean t := by
  rw [h.rest]
  exact ⟨c.lines, c.copied⟩

/-- A buffered line goes to memory. -/
theorem drained_drainLine {s : State} (c : Safety.Clean s) (e : WcLine) :
    Drained s (drainLine s e) ∧ (drainLine s e).wcb = s.wcb := by
  have key : ∀ (t : State) (a : Nat) (l : List Byte), Safety.Clean t →
      Drained t (wrN t a l (some e.hart)) ∧ (wrN t a l (some e.hart)).wcb = t.wcb := by
    intro t a l c
    have f := wrN_frame c.copied a l (some e.hart)
    refine ⟨⟨?_, fun g => hart_wrN c.copied a l _ g⟩, by rw [f]⟩
    have z := lineFault_wrN c.lines c.copied a l (some e.hart)
    rw [f, z]
    simp only [c.lines]
  unfold drainLine
  dsimp only
  split
  · exact key s _ _ c
  · rw [touch_clean c.lines]
    have r := fun (runs : List Run) a l => key (countReads s runs) a l ⟨c.lines, c.copied⟩
    exact ⟨⟨(r _ _ _).1.rest, (r _ _ _).1.harts⟩, (r _ _ _).2⟩

/-- The lines of a core's buffer that meet a test go to memory: they leave the buffer, and no other buffer changes. -/
theorem drained_drainIf {s : State} (c : Safety.Clean s) (core : Nat) (p : WcLine → Bool) :
    Drained s (drainIf s core p) ∧ (drainIf s core p).wcb.get [] core = (s.wcb.get [] core).filter (fun e => !p e) ∧
      ∀ k, k ≠ core → (drainIf s core p).wcb.get [] k = s.wcb.get [] k := by
  unfold drainIf
  dsimp only
  split
  · have key : ∀ (l : List WcLine) (t : State), Safety.Clean t →
        Drained t (l.foldl drainLine t) ∧ (l.foldl drainLine t).wcb = t.wcb := by
      intro l
      induction l with
      | nil => exact fun t _ => ⟨Drained.refl t, rfl⟩
      | cons e l ih =>
        intro t c
        obtain ⟨h, k⟩ := drained_drainLine c e
        obtain ⟨h', k'⟩ := ih _ (h.clean c)
        exact ⟨h.trans h', k'.trans k⟩
    obtain ⟨h, k⟩ := key ((s.wcb.get [] core).filter p) (setWc s core ((s.wcb.get [] core).filter fun e => !p e))
      ⟨c.lines, c.copied⟩
    refine ⟨⟨?_, h.harts⟩, ?_, ?_⟩
    · rw [h.rest]
      rfl
    · rw [k]
      exact get_set_same ..
    · intro j hj
      rw [k]
      exact get_set_other _ _ _ hj
  · rename_i h
    refine ⟨Drained.refl s, ?_, fun _ _ => rfl⟩
    symm
    rw [List.filter_eq_self]
    intro e he
    simp only [Bool.not_eq_true, List.any_eq_false] at h
    simpa using h e he

/-- A core's buffer empties. -/
theorem drained_drainCore {s : State} (c : Safety.Clean s) (core : Nat) :
    Drained s (drainCore s core) ∧ (drainCore s core).wcb.get [] core = [] := by
  obtain ⟨h, k, -⟩ := drained_drainIf c core fun _ => true
  exact ⟨h, by simpa [drainCore] using k⟩

/-! ### Translation and fetch -/

/-- `t` is `s` but for the count of decoded lines. -/
def OnlyCount (s t : State) : Prop := t = { s with decoded := t.decoded }

theorem onlyCount_reads (s : State) (runs : List Run) : OnlyCount s (countReads s runs) := rfl

theorem OnlyCount.trans {s t u : State} (h : OnlyCount s t) (k : OnlyCount t u) : OnlyCount s u := by
  unfold OnlyCount at h k ⊢
  rw [h] at k
  exact k

/-- A walk of the page tables counts the lines that it reads, and changes nothing else. -/
theorem onlyCount_walk {s : State} (c : s.lineFault = []) (h : BitVec 6) (p : Priv) (acc : Acc) (va n a : Nat) :
    OnlyCount s (walk s h p acc va n a).1 := by
  induction n generalizing s a with
  | zero => rfl
  | succ n ih =>
    have k : ∀ runs a, OnlyCount s (walk (countReads s runs) h p acc va n a).1 := fun runs a =>
      OnlyCount.trans (onlyCount_reads s runs) (ih (s := countReads s runs) c a)
    simp only [walk, touch_clean c]
    repeat' split
    all_goals first | rfl | exact k _ _

/-- Translation counts the lines that it reads, and changes nothing else. -/
theorem onlyCount_translate {s : State} (c : s.lineFault = []) (h : BitVec 6) (acc : Acc) (va : W64) :
    OnlyCount s (translate s h acc va).1 := by
  have w := fun p v n a => onlyCount_walk c h p acc v n a
  unfold Machine.translate
  dsimp only
  split
  all_goals
    repeat' split
    all_goals first | rfl | exact w ..

/-- A fetch counts the lines that it reads, and changes nothing else. -/
theorem onlyCount_fetchHalf {s : State} (c : s.lineFault = []) (h : BitVec 6) (va : W64) {n : Nat}
    (e : (fetchHalf s h va).2 = .inl n) : OnlyCount s (fetchHalf s h va).1 := by
  have k := onlyCount_translate c h .fetch va
  unfold fetchHalf at e ⊢
  generalize Machine.translate s h .fetch va = r at k e ⊢
  obtain ⟨s1, r⟩ := r
  change OnlyCount s s1 at k
  have c1 : s1.lineFault = [] := by rw [k]; exact c
  cases r with
  | inr e => exact k
  | inl pa =>
    have q : OnlyCount s1 (hartRead s1 h .fetch va pa 2).1 := by
      unfold hartRead
      rw [touch_clean c1]
      rfl
    have z : OnlyCount s (hartRead s1 h .fetch va pa 2).1 := OnlyCount.trans k q
    change (physLoad s1 h .fetch va pa 2).2 = .inl n at e
    change OnlyCount s (physLoad s1 h .fetch va pa 2).1
    unfold physLoad at e ⊢
    cases hp : place s1 pa <;> simp only [hp] at e ⊢
    all_goals first | exact z | simp at e

end Sys2Proof.Laws
end

