-- ==== Sys2Proof/Laws/KeepOps.lean ====
section
/-!
SUPPORT. What the operations of Machine/Ops.lean keep of the view of Laws/Good.lean.
-/
namespace Sys2Proof.Laws

open Sys2Proof.Machine

variable {p : List Instr} {g : Grade × W64}

theorem State_setStack_ok {s : _} {n : _} {v : _} (h_s : Ok p g (view (s))) :
    Ok p g (view (Machine.State.setStack s n v)) := by
  unfold Machine.State.setStack
  repeat' first
    | with_reducible assumption
    | with_reducible apply ok_foldl
    | with_reducible apply ok_foldl_fst
    | with_reducible apply ok_ite
    | with_reducible apply ok_ite_fst
    | with_reducible apply ok_ite_snd
    | intro _
    | split
    | (with_reducible refine ok_of_pair (by assumption) ?_)
    | (with_reducible refine ok_of_pair2 (by assumption) ?_)
    | (with_reducible refine ok_of_hres (by assumption) ?_)
    | (with_reducible refine ok_of_opt2 (by assumption) ?_)
    | (with_reducible refine ok_of_some (by assumption) ?_)
    | with_reducible refine ok_findSome _ ?_
    | (simp only [view_mk, view_eta])

theorem State_setHart_ok {s : _} {a1 : _} {v : _} (h_s : Ok p g (view (s))) :
    Ok p g (view (Machine.State.setHart s a1 v)) := by
  unfold Machine.State.setHart
  repeat' first
    | with_reducible assumption
    | with_reducible apply ok_foldl
    | with_reducible apply ok_foldl_fst
    | with_reducible apply ok_ite
    | with_reducible apply ok_ite_fst
    | with_reducible apply ok_ite_snd
    | intro _
    | split
    | (with_reducible refine ok_of_pair (by assumption) ?_)
    | (with_reducible refine ok_of_pair2 (by assumption) ?_)
    | (with_reducible refine ok_of_hres (by assumption) ?_)
    | (with_reducible refine ok_of_opt2 (by assumption) ?_)
    | (with_reducible refine ok_of_some (by assumption) ?_)
    | with_reducible refine ok_findSome _ ?_
    | (simp only [view_mk, view_eta])

theorem State_updHart_ok {s : _} {a1 : _} {f : _} (h_s : Ok p g (view (s))) :
    Ok p g (view (Machine.State.updHart s a1 f)) := by
  unfold Machine.State.updHart
  repeat' first
    | with_reducible assumption
    | with_reducible refine State_setHart_ok ?_

theorem countReads_ok {s : _} {runs : _} (h_s : Ok p g (view (s))) :
    Ok p g (view (Machine.countReads s runs)) := by
  unfold Machine.countReads
  repeat' first
    | with_reducible assumption
    | with_reducible apply ok_foldl
    | with_reducible apply ok_foldl_fst
    | with_reducible apply ok_ite
    | with_reducible apply ok_ite_fst
    | with_reducible apply ok_ite_snd
    | intro _
    | split
    | (with_reducible refine ok_of_pair (by assumption) ?_)
    | (with_reducible refine ok_of_pair2 (by assumption) ?_)
    | (with_reducible refine ok_of_hres (by assumption) ?_)
    | (with_reducible refine ok_of_opt2 (by assumption) ?_)
    | (with_reducible refine ok_of_some (by assumption) ?_)
    | with_reducible refine ok_findSome _ ?_
    | (simp only [view_mk, view_eta])

theorem worsen_ok {s : _} {v : _} (h_s : Ok p g (view (s))) :
    Ok p g (view (Machine.worsen s v)) := by
  unfold Machine.worsen
  repeat' first
    | with_reducible assumption
    | with_reducible apply ok_foldl
    | with_reducible apply ok_foldl_fst
    | with_reducible apply ok_ite
    | with_reducible apply ok_ite_fst
    | with_reducible apply ok_ite_snd
    | intro _
    | split
    | (with_reducible refine ok_of_pair (by assumption) ?_)
    | (with_reducible refine ok_of_pair2 (by assumption) ?_)
    | (with_reducible refine ok_of_hres (by assumption) ?_)
    | (with_reducible refine ok_of_opt2 (by assumption) ?_)
    | (with_reducible refine ok_of_some (by assumption) ?_)
    | with_reducible refine ok_findSome _ ?_
    | (simp only [view_mk, view_eta])

theorem drew_ok {s : _} (h_s : Ok p g (view (s))) :
    Ok p g (view (Machine.drew s)) := by
  unfold Machine.drew
  repeat' first
    | with_reducible assumption
    | with_reducible apply ok_foldl
    | with_reducible apply ok_foldl_fst
    | with_reducible apply ok_ite
    | with_reducible apply ok_ite_fst
    | with_reducible apply ok_ite_snd
    | intro _
    | split
    | (with_reducible refine ok_of_pair (by assumption) ?_)
    | (with_reducible refine ok_of_pair2 (by assumption) ?_)
    | (with_reducible refine ok_of_hres (by assumption) ?_)
    | (with_reducible refine ok_of_opt2 (by assumption) ?_)
    | (with_reducible refine ok_of_some (by assumption) ?_)
    | with_reducible refine ok_findSome _ ?_
    | (simp only [view_mk, view_eta])

theorem pushRec_ok {s : _} {r : _} (h_s : Ok p g (view (s))) :
    Ok p g (view (Machine.pushRec s r)) := by
  refine ⟨h_s.pending, h_s.grade, h_s.serial, h_s.mem, h_s.hostMem, ?_, h_s.logq, h_s.em, h_s.sess, h_s.ctl⟩
  have := trimC_length s.err.log r h_s.log
  simp only [view, pushRec, List.length_append, List.length_singleton]
  omega

theorem recordSev_ok {s : _} {c : _} {sev : _} {a : _} (h_s : Ok p g (view (s))) :
    Ok p g (view (Machine.recordSev s c sev a)) := by
  have e : ∀ v, (countSev s.err v).log = s.err.log := by intro v; cases v <;> rfl
  have h0 : Ok p g (view (worsen (drew { s with err := countSev s.err sev }) sev)) := by
    apply worsen_ok
    apply drew_ok
    exact ⟨h_s.pending, h_s.grade, h_s.serial, h_s.mem, h_s.hostMem, by simpa [view, e] using h_s.log, h_s.logq, h_s.em,
      h_s.sess, h_s.ctl⟩
  unfold recordSev
  dsimp only
  split
  · split
    · exact ⟨h0.pending, h0.grade, h0.serial, h0.mem, h0.hostMem, h0.log, h0.logq, h0.em, h0.sess, h0.ctl⟩
    · have h1 := pushRec_ok (r := mkRec s c sev a) h0
      exact ⟨h1.pending, h1.grade, h1.serial, h1.mem, h1.hostMem, h1.log, h1.logq, h1.em, h1.sess, h1.ctl⟩
  · exact pushRec_ok h0

theorem record_ok {s : _} {c : _} {a : _} (h_s : Ok p g (view (s))) :
    Ok p g (view (Machine.record s c a)) := by
  unfold Machine.record
  repeat' first
    | with_reducible assumption
    | with_reducible refine recordSev_ok ?_

theorem markLane_ok {s : _} {st : _} {ch : _} {lane : _} (h_s : Ok p g (view (s))) :
    Ok p g (view (Machine.markLane s st ch lane)) := by
  unfold Machine.markLane
  repeat' first
    | with_reducible assumption
    | with_reducible refine record_ok ?_
    | with_reducible refine State_setStack_ok ?_
    | with_reducible apply ok_foldl
    | with_reducible apply ok_foldl_fst
    | with_reducible apply ok_ite
    | with_reducible apply ok_ite_fst
    | with_reducible apply ok_ite_snd
    | intro _

theorem noteLanes_ok {s : _} {st : _} {ch : _} {lanes : _} (h_s : Ok p g (view (s))) :
    Ok p g (view (Machine.noteLanes s st ch lanes)) := by
  unfold Machine.noteLanes
  repeat' first
    | with_reducible assumption
    | with_reducible refine markLane_ok ?_
    | with_reducible refine State_setStack_ok ?_
    | with_reducible apply ok_foldl
    | with_reducible apply ok_foldl_fst
    | with_reducible apply ok_ite
    | with_reducible apply ok_ite_fst
    | with_reducible apply ok_ite_snd
    | intro _

theorem corrected_ok {s : _} {line : _} {lanes : _} (h_s : Ok p g (view (s))) :
    Ok p g (view (Machine.corrected s line lanes)) := by
  unfold Machine.corrected
  repeat' first
    | with_reducible assumption
    | with_reducible refine record_ok ?_
    | with_reducible refine noteLanes_ok ?_
    | with_reducible refine State_setStack_ok ?_

theorem addCandidate_ok {s : _} {st : _} {r : _} (h_s : Ok p g (view (s))) :
    Ok p g (view (Machine.addCandidate s st r)) := by
  unfold Machine.addCandidate
  repeat' first
    | with_reducible assumption
    | with_reducible refine record_ok ?_
    | with_reducible apply ok_foldl
    | with_reducible apply ok_foldl_fst
    | with_reducible apply ok_ite
    | with_reducible apply ok_ite_fst
    | with_reducible apply ok_ite_snd
    | intro _
    | split
    | (with_reducible refine ok_of_pair (by assumption) ?_)
    | (with_reducible refine ok_of_pair2 (by assumption) ?_)
    | (with_reducible refine ok_of_hres (by assumption) ?_)
    | (with_reducible refine ok_of_opt2 (by assumption) ?_)
    | (with_reducible refine ok_of_some (by assumption) ?_)
    | with_reducible refine ok_findSome _ ?_
    | (simp only [view_mk, view_eta])

theorem storeCorrected_ok {s : _} {line : _} {n0 : _} {n1 : _} (h_s : Ok p g (view (s))) :
    Ok p g (view (Machine.storeCorrected s line n0 n1)) := by
  unfold Machine.storeCorrected
  repeat' first
    | with_reducible assumption
    | with_reducible refine record_ok ?_
    | with_reducible apply ok_foldl
    | with_reducible apply ok_foldl_fst
    | with_reducible apply ok_ite
    | with_reducible apply ok_ite_fst
    | with_reducible apply ok_ite_snd
    | intro _
    | split
    | (with_reducible refine ok_of_pair (by assumption) ?_)
    | (with_reducible refine ok_of_pair2 (by assumption) ?_)
    | (with_reducible refine ok_of_hres (by assumption) ?_)
    | (with_reducible refine ok_of_opt2 (by assumption) ?_)
    | (with_reducible refine ok_of_some (by assumption) ?_)
    | with_reducible refine ok_findSome _ ?_
    | (simp only [view_mk, view_eta])

theorem touchLine_ok {s : _} {line : _} {n0 : _} {n1 : _} (h_s : Ok p g (view (s))) :
    Ok p g (view (Machine.touchLine s line n0 n1).1) := by
  unfold touchLine
  dsimp only
  split
  · split
    · exact h_s
    · exact corrected_ok h_s
    · exact addCandidate_ok (State_setStack_ok h_s)
    · exact addCandidate_ok (State_setStack_ok h_s)
    · exact h_s
    · exact corrected_ok h_s
  · split
    · exact h_s
    · exact storeCorrected_ok h_s
    · exact h_s
    · exact storeCorrected_ok h_s
    · exact h_s

theorem touchStep_ok {runs : _} {acc : _} {line : _} (h_acc : Ok p g (view (acc).1)) :
    Ok p g (view (Machine.touchStep runs acc line).1) := by
  unfold Machine.touchStep
  repeat' first
    | with_reducible assumption
    | with_reducible refine touchLine_ok ?_
    | with_reducible apply ok_foldl
    | with_reducible apply ok_foldl_fst
    | with_reducible apply ok_ite
    | with_reducible apply ok_ite_fst
    | with_reducible apply ok_ite_snd
    | intro _
    | split
    | (with_reducible refine ok_of_pair (by assumption) ?_)
    | (with_reducible refine ok_of_pair2 (by assumption) ?_)
    | (with_reducible refine ok_of_hres (by assumption) ?_)
    | (with_reducible refine ok_of_opt2 (by assumption) ?_)
    | (with_reducible refine ok_of_some (by assumption) ?_)
    | with_reducible refine ok_findSome _ ?_
    | (simp only [view_mk, view_eta])

theorem touch_ok {s : _} {runs : _} (h_s : Ok p g (view (s))) :
    Ok p g (view (Machine.touch s runs).1) := by
  unfold Machine.touch
  repeat' first
    | with_reducible assumption
    | with_reducible refine countReads_ok ?_
    | with_reducible refine touchStep_ok ?_
    | with_reducible apply ok_foldl
    | with_reducible apply ok_foldl_fst
    | with_reducible apply ok_ite
    | with_reducible apply ok_ite_fst
    | with_reducible apply ok_ite_snd
    | intro _

theorem logEntry_ok {s : _} {source : _} {kind : _} {code : _} {data : _} (h_s : Ok p g (view (s))) :
    Ok p g (view (Machine.logEntry s source kind code data)) := by
  unfold logEntry
  dsimp only
  split
  · exact ⟨h_s.pending, h_s.grade, h_s.serial, h_s.mem, h_s.hostMem, h_s.log, h_s.logq, h_s.em, h_s.sess, h_s.ctl⟩
  · next hn =>
    refine drew_ok ⟨h_s.pending, h_s.grade, h_s.serial, h_s.mem, h_s.hostMem, h_s.log, ?_, h_s.em, h_s.sess, h_s.ctl⟩
    simp only [view, List.length_append, List.length_singleton]
    omega

theorem tracePoint_ok {s : _} {t : _} {source : _} {data : _} (h_s : Ok p g (view (s))) :
    Ok p g (view (Machine.tracePoint s t source data)) := by
  unfold Machine.tracePoint
  repeat' first
    | with_reducible assumption
    | with_reducible refine logEntry_ok ?_
    | with_reducible apply ok_foldl
    | with_reducible apply ok_foldl_fst
    | with_reducible apply ok_ite
    | with_reducible apply ok_ite_fst
    | with_reducible apply ok_ite_snd
    | intro _

theorem traceHw_ok {s : _} {kind : _} (h_s : Ok p g (view (s))) :
    Ok p g (view (Machine.traceHw s kind)) := by
  unfold Machine.traceHw
  repeat' first
    | with_reducible assumption
    | with_reducible refine tracePoint_ok ?_
    | with_reducible apply ok_foldl
    | with_reducible apply ok_foldl_fst
    | with_reducible apply ok_ite
    | with_reducible apply ok_ite_fst
    | with_reducible apply ok_ite_snd
    | intro _

theorem raise_ok {s : _} {i : _} (h_s : Ok p g (view (s))) :
    Ok p g (view (Machine.raise s i)) := by
  unfold Machine.raise
  repeat' first
    | with_reducible assumption
    | with_reducible apply ok_foldl
    | with_reducible apply ok_foldl_fst
    | with_reducible apply ok_ite
    | with_reducible apply ok_ite_fst
    | with_reducible apply ok_ite_snd
    | intro _
    | split
    | (with_reducible refine ok_of_pair (by assumption) ?_)
    | (with_reducible refine ok_of_pair2 (by assumption) ?_)
    | (with_reducible refine ok_of_hres (by assumption) ?_)
    | (with_reducible refine ok_of_opt2 (by assumption) ?_)
    | (with_reducible refine ok_of_some (by assumption) ?_)
    | with_reducible refine ok_findSome _ ?_
    | (simp only [view_mk, view_eta])

theorem enterHolding_ok {s : _} {sev : _} {cause : _} (h_s : Ok p g (view (s))) :
    Ok p g (view (Machine.enterHolding s sev cause)) := by
  unfold Machine.enterHolding
  repeat' first
    | with_reducible assumption
    | with_reducible refine traceHw_ok ?_
    | with_reducible refine raise_ok ?_
    | with_reducible refine drew_ok ?_
    | with_reducible apply ok_foldl
    | with_reducible apply ok_foldl_fst
    | with_reducible apply ok_ite
    | with_reducible apply ok_ite_fst
    | with_reducible apply ok_ite_snd
    | intro _
    | split
    | (with_reducible refine ok_of_pair (by assumption) ?_)
    | (with_reducible refine ok_of_pair2 (by assumption) ?_)
    | (with_reducible refine ok_of_hres (by assumption) ?_)
    | (with_reducible refine ok_of_opt2 (by assumption) ?_)
    | (with_reducible refine ok_of_some (by assumption) ?_)
    | with_reducible refine ok_findSome _ ?_
    | (simp only [view_mk, view_eta])

theorem State_setBlk_ok {s : _} {b : _} {v : _} (h_s : Ok p g (view (s))) :
    Ok p g (view (Machine.State.setBlk s b v)) := by
  unfold Machine.State.setBlk
  repeat' first
    | with_reducible assumption
    | with_reducible apply ok_foldl
    | with_reducible apply ok_foldl_fst
    | with_reducible apply ok_ite
    | with_reducible apply ok_ite_fst
    | with_reducible apply ok_ite_snd
    | intro _
    | split
    | (with_reducible refine ok_of_pair (by assumption) ?_)
    | (with_reducible refine ok_of_pair2 (by assumption) ?_)
    | (with_reducible refine ok_of_hres (by assumption) ?_)
    | (with_reducible refine ok_of_opt2 (by assumption) ?_)
    | (with_reducible refine ok_of_some (by assumption) ?_)
    | with_reducible refine ok_findSome _ ?_
    | (simp only [view_mk, view_eta])

theorem State_updBlk_ok {s : _} {b : _} {f : _} (h_s : Ok p g (view (s))) :
    Ok p g (view (Machine.State.updBlk s b f)) := by
  unfold Machine.State.updBlk
  repeat' first
    | with_reducible assumption
    | with_reducible refine State_setBlk_ok ?_

theorem State_setQ_ok {s : _} {b : _} {q : _} {v : _} (h_s : Ok p g (view (s))) :
    Ok p g (view (Machine.State.setQ s b q v)) := by
  unfold Machine.State.setQ
  repeat' first
    | with_reducible assumption
    | with_reducible refine State_updBlk_ok ?_

theorem State_updQ_ok {s : _} {b : _} {q : _} {f : _} (h_s : Ok p g (view (s))) :
    Ok p g (view (Machine.State.updQ s b q f)) := by
  unfold Machine.State.updQ
  repeat' first
    | with_reducible assumption
    | with_reducible refine State_setQ_ok ?_

theorem updInFl_ok {s : _} {b : _} {q : _} {idx : _} {a4 : _} (h_s : Ok p g (view (s))) :
    Ok p g (view (Machine.updInFl s b q idx a4)) := by
  unfold Machine.updInFl
  repeat' first
    | with_reducible assumption
    | with_reducible refine State_updQ_ok ?_

theorem State_setPair_ok {s : _} {n : _} {v : _} (h_s : Ok p g (view (s))) :
    Ok p g (view (Machine.State.setPair s n v)) := by
  unfold Machine.State.setPair
  repeat' first
    | with_reducible assumption
    | with_reducible apply ok_foldl
    | with_reducible apply ok_foldl_fst
    | with_reducible apply ok_ite
    | with_reducible apply ok_ite_fst
    | with_reducible apply ok_ite_snd
    | intro _
    | split
    | (with_reducible refine ok_of_pair (by assumption) ?_)
    | (with_reducible refine ok_of_pair2 (by assumption) ?_)
    | (with_reducible refine ok_of_hres (by assumption) ?_)
    | (with_reducible refine ok_of_opt2 (by assumption) ?_)
    | (with_reducible refine ok_of_some (by assumption) ?_)
    | with_reducible refine ok_findSome _ ?_
    | (simp only [view_mk, view_eta])

theorem State_setDie_ok {s : _} {n : _} {v : _} (h_s : Ok p g (view (s))) :
    Ok p g (view (Machine.State.setDie s n v)) := by
  unfold Machine.State.setDie
  repeat' first
    | with_reducible assumption
    | with_reducible apply ok_foldl
    | with_reducible apply ok_foldl_fst
    | with_reducible apply ok_ite
    | with_reducible apply ok_ite_fst
    | with_reducible apply ok_ite_snd
    | intro _
    | split
    | (with_reducible refine ok_of_pair (by assumption) ?_)
    | (with_reducible refine ok_of_pair2 (by assumption) ?_)
    | (with_reducible refine ok_of_hres (by assumption) ?_)
    | (with_reducible refine ok_of_opt2 (by assumption) ?_)
    | (with_reducible refine ok_of_some (by assumption) ?_)
    | with_reducible refine ok_findSome _ ?_
    | (simp only [view_mk, view_eta])

theorem State_setRegion_ok {s : _} {n : _} {r : _} (h_s : Ok p g (view (s))) :
    Ok p g (view (Machine.State.setRegion s n r)) := by
  unfold Machine.State.setRegion
  repeat' first
    | with_reducible assumption
    | with_reducible apply ok_foldl
    | with_reducible apply ok_foldl_fst
    | with_reducible apply ok_ite
    | with_reducible apply ok_ite_fst
    | with_reducible apply ok_ite_snd
    | intro _
    | split
    | (with_reducible refine ok_of_pair (by assumption) ?_)
    | (with_reducible refine ok_of_pair2 (by assumption) ?_)
    | (with_reducible refine ok_of_hres (by assumption) ?_)
    | (with_reducible refine ok_of_opt2 (by assumption) ?_)
    | (with_reducible refine ok_of_some (by assumption) ?_)
    | with_reducible refine ok_findSome _ ?_
    | (simp only [view_mk, view_eta])

theorem haltBlock_ok {s : _} {b : _} {st : _} (h_s : Ok p g (view (s))) :
    Ok p g (view (Machine.haltBlock s b st)) := by
  unfold Machine.haltBlock
  repeat' first
    | with_reducible assumption
    | with_reducible refine State_updBlk_ok ?_

theorem holdAtBoundary_ok {s : _} (h_s : Ok p g (view (s))) :
    Ok p g (view (Machine.holdAtBoundary s)) := by
  unfold Machine.holdAtBoundary
  repeat' first
    | with_reducible assumption
    | with_reducible apply ok_foldl
    | with_reducible apply ok_foldl_fst
    | with_reducible apply ok_ite
    | with_reducible apply ok_ite_fst
    | with_reducible apply ok_ite_snd
    | intro _
    | split
    | (with_reducible refine ok_of_pair (by assumption) ?_)
    | (with_reducible refine ok_of_pair2 (by assumption) ?_)
    | (with_reducible refine ok_of_hres (by assumption) ?_)
    | (with_reducible refine ok_of_opt2 (by assumption) ?_)
    | (with_reducible refine ok_of_some (by assumption) ?_)
    | with_reducible refine ok_findSome _ ?_
    | (simp only [view_mk, view_eta])

theorem regionFatal_ok {s : _} {n : _} {c : _} {a : _} (h_s : Ok p g (view (s))) :
    Ok p g (view (Machine.regionFatal s n c a)) := by
  unfold Machine.regionFatal
  repeat' first
    | with_reducible assumption
    | with_reducible refine record_ok ?_
    | with_reducible refine State_setRegion_ok ?_
    | with_reducible refine haltBlock_ok ?_
    | with_reducible refine holdAtBoundary_ok ?_
    | with_reducible refine enterHolding_ok ?_
    | with_reducible apply ok_foldl
    | with_reducible apply ok_foldl_fst
    | with_reducible apply ok_ite
    | with_reducible apply ok_ite_fst
    | with_reducible apply ok_ite_snd
    | intro _

theorem dropResv_ok {s : _} {lines : _} {writer : _} (h_s : Ok p g (view (s))) :
    Ok p g (view (Machine.dropResv s lines writer)) := by
  unfold Machine.dropResv
  repeat' first
    | with_reducible assumption
    | with_reducible apply ok_foldl
    | with_reducible apply ok_foldl_fst
    | with_reducible apply ok_ite
    | with_reducible apply ok_ite_fst
    | with_reducible apply ok_ite_snd
    | intro _
    | split
    | (with_reducible refine ok_of_pair (by assumption) ?_)
    | (with_reducible refine ok_of_pair2 (by assumption) ?_)
    | (with_reducible refine ok_of_hres (by assumption) ?_)
    | (with_reducible refine ok_of_opt2 (by assumption) ?_)
    | (with_reducible refine ok_of_some (by assumption) ?_)
    | with_reducible refine ok_findSome _ ?_
    | (simp only [view_mk, view_eta])

theorem clearFaults_ok {s : _} {lines : _} (h_s : Ok p g (view (s))) :
    Ok p g (view (Machine.clearFaults s lines)) := by
  unfold Machine.clearFaults
  repeat' first
    | with_reducible assumption
    | with_reducible apply ok_foldl
    | with_reducible apply ok_foldl_fst
    | with_reducible apply ok_ite
    | with_reducible apply ok_ite_fst
    | with_reducible apply ok_ite_snd
    | intro _
    | split
    | (with_reducible refine ok_of_pair (by assumption) ?_)
    | (with_reducible refine ok_of_pair2 (by assumption) ?_)
    | (with_reducible refine ok_of_hres (by assumption) ?_)
    | (with_reducible refine ok_of_opt2 (by assumption) ?_)
    | (with_reducible refine ok_of_some (by assumption) ?_)
    | with_reducible refine ok_findSome _ ?_
    | (simp only [view_mk, view_eta])

theorem wrHost_ok {s : _} {a : _} {v : _} (h_s : Ok p g (view (s))) :
    Ok p g (view (Machine.wrHost s a v)) := by
  exact ⟨h_s.pending, h_s.grade, h_s.serial, h_s.mem, set_wf a v h_s.hostMem, h_s.log, h_s.logq, h_s.em, h_s.sess,
    h_s.ctl⟩

theorem wrKey_ok {s : _} {k : _} {v : _} (h_s : Ok p g (view (s))) :
    Ok p g (view (Machine.wrKey s k v)) := by
  exact ⟨h_s.pending, h_s.grade, h_s.serial, set_wf k v h_s.mem, h_s.hostMem, h_s.log, h_s.logq, h_s.em, h_s.sess,
    h_s.ctl⟩

theorem wrRaw_ok {s : _} {npa : _} {v : _} (h_s : Ok p g (view (s))) :
    Ok p g (view (Machine.wrRaw s npa v)) := by
  unfold Machine.wrRaw
  repeat' first
    | with_reducible assumption
    | with_reducible refine wrHost_ok ?_
    | with_reducible refine wrKey_ok ?_
    | with_reducible apply ok_foldl
    | with_reducible apply ok_foldl_fst
    | with_reducible apply ok_ite
    | with_reducible apply ok_ite_fst
    | with_reducible apply ok_ite_snd
    | intro _
    | split

theorem wrRawN_ok {s : _} {npa : _} {a2 : _} (h_s : Ok p g (view (s))) :
    Ok p g (view (Machine.wrRawN s npa a2)) := by
  induction a2 generalizing s npa with
  | nil => exact h_s
  | cons b bs ih => exact ih (wrRaw_ok h_s)

theorem failCkpt_ok {s : _} (h_s : Ok p g (view (s))) :
    Ok p g (view (Machine.failCkpt s)) := by
  unfold Machine.failCkpt
  repeat' first
    | with_reducible assumption
    | with_reducible refine raise_ok ?_
    | with_reducible apply ok_foldl
    | with_reducible apply ok_foldl_fst
    | with_reducible apply ok_ite
    | with_reducible apply ok_ite_fst
    | with_reducible apply ok_ite_snd
    | intro _
    | split
    | (with_reducible refine ok_of_pair (by assumption) ?_)
    | (with_reducible refine ok_of_pair2 (by assumption) ?_)
    | (with_reducible refine ok_of_hres (by assumption) ?_)
    | (with_reducible refine ok_of_opt2 (by assumption) ?_)
    | (with_reducible refine ok_of_some (by assumption) ?_)
    | with_reducible refine ok_findSome _ ?_
    | (simp only [view_mk, view_eta])

theorem copyLine_ok {s : _} {src : _} {dst : _} (h_s : Ok p g (view (s))) :
    Ok p g (view (Machine.copyLine s src dst)) := by
  exact ok_foldl _ h_s fun _ _ h => wrKey_ok h

theorem copyGranule_ok {s : _} {st : _} {gran : _} (h_s : Ok p g (view (s))) :
    Ok p g (view (Machine.copyGranule s st gran)) := by
  unfold Machine.copyGranule
  repeat' first
    | with_reducible assumption
    | with_reducible refine touch_ok ?_
    | with_reducible refine failCkpt_ok ?_
    | with_reducible refine copyLine_ok ?_
    | with_reducible refine clearFaults_ok ?_
    | with_reducible refine State_setStack_ok ?_
    | with_reducible apply ok_foldl
    | with_reducible apply ok_foldl_fst
    | with_reducible apply ok_ite
    | with_reducible apply ok_ite_fst
    | with_reducible apply ok_ite_snd
    | intro _
    | split
    | (with_reducible refine ok_of_pair (by assumption) ?_)
    | (with_reducible refine ok_of_pair2 (by assumption) ?_)
    | (with_reducible refine ok_of_hres (by assumption) ?_)
    | (with_reducible refine ok_of_opt2 (by assumption) ?_)
    | (with_reducible refine ok_of_some (by assumption) ?_)
    | with_reducible refine ok_findSome _ ?_
    | (simp only [view_mk, view_eta])

theorem stallCopy_ok {s : _} {lines : _} (h_s : Ok p g (view (s))) :
    Ok p g (view (Machine.stallCopy s lines)) := by
  unfold Machine.stallCopy
  repeat' first
    | with_reducible assumption
    | with_reducible refine copyGranule_ok ?_
    | with_reducible refine drew_ok ?_
    | with_reducible refine State_setStack_ok ?_
    | with_reducible apply ok_foldl
    | with_reducible apply ok_foldl_fst
    | with_reducible apply ok_ite
    | with_reducible apply ok_ite_fst
    | with_reducible apply ok_ite_snd
    | intro _

theorem wrN_ok {s : _} {npa : _} {bs : _} {writer : _} (h_s : Ok p g (view (s))) :
    Ok p g (view (Machine.wrN s npa bs writer)) := by
  unfold Machine.wrN
  repeat' first
    | with_reducible assumption
    | with_reducible refine dropResv_ok ?_
    | with_reducible refine clearFaults_ok ?_
    | with_reducible refine wrRawN_ok ?_
    | with_reducible refine stallCopy_ok ?_

theorem cacheLine_ok {s : _} {hpa : _} (h_s : Ok p g (view (s))) :
    Ok p g (view (Machine.cacheLine s hpa)) := by
  unfold Machine.cacheLine
  repeat' first
    | with_reducible assumption
    | with_reducible apply ok_foldl
    | with_reducible apply ok_foldl_fst
    | with_reducible apply ok_ite
    | with_reducible apply ok_ite_fst
    | with_reducible apply ok_ite_snd
    | intro _
    | split
    | (with_reducible refine ok_of_pair (by assumption) ?_)
    | (with_reducible refine ok_of_pair2 (by assumption) ?_)
    | (with_reducible refine ok_of_hres (by assumption) ?_)
    | (with_reducible refine ok_of_opt2 (by assumption) ?_)
    | (with_reducible refine ok_of_some (by assumption) ?_)
    | with_reducible refine ok_findSome _ ?_
    | (simp only [view_mk, view_eta])

theorem cacheRun_ok {s : _} {npa : _} {n : _} (h_s : Ok p g (view (s))) :
    Ok p g (view (Machine.cacheRun s npa n)) := by
  unfold Machine.cacheRun
  repeat' first
    | with_reducible assumption
    | with_reducible refine cacheLine_ok ?_
    | with_reducible apply ok_foldl
    | with_reducible apply ok_foldl_fst
    | with_reducible apply ok_ite
    | with_reducible apply ok_ite_fst
    | with_reducible apply ok_ite_snd
    | intro _
    | split

theorem updHedge_ok {s : _} {id : _} {f : _} (h_s : Ok p g (view (s))) :
    Ok p g (view (Machine.updHedge s id f)) := by
  unfold Machine.updHedge
  repeat' first
    | with_reducible assumption
    | with_reducible apply ok_foldl
    | with_reducible apply ok_foldl_fst
    | with_reducible apply ok_ite
    | with_reducible apply ok_ite_fst
    | with_reducible apply ok_ite_snd
    | intro _
    | split
    | (with_reducible refine ok_of_pair (by assumption) ?_)
    | (with_reducible refine ok_of_pair2 (by assumption) ?_)
    | (with_reducible refine ok_of_hres (by assumption) ?_)
    | (with_reducible refine ok_of_opt2 (by assumption) ?_)
    | (with_reducible refine ok_of_some (by assumption) ?_)
    | with_reducible refine ok_findSome _ ?_
    | (simp only [view_mk, view_eta])

theorem State_setCtx_ok {s : _} {b : _} {c : _} {v : _} (h_s : Ok p g (view (s))) :
    Ok p g (view (Machine.State.setCtx s b c v)) := by
  unfold Machine.State.setCtx
  repeat' first
    | with_reducible assumption
    | with_reducible refine State_updBlk_ok ?_

theorem ctxLast_ok {s : _} {b : _} {c : _} {st : _} (h_s : Ok p g (view (s))) :
    Ok p g (view (Machine.ctxLast s b c st)) := by
  unfold Machine.ctxLast
  repeat' first
    | with_reducible assumption
    | with_reducible refine State_setCtx_ok ?_
    | with_reducible apply ok_foldl
    | with_reducible apply ok_foldl_fst
    | with_reducible apply ok_ite
    | with_reducible apply ok_ite_fst
    | with_reducible apply ok_ite_snd
    | intro _
    | split

theorem retireBlock_ok {s : _} {b : _} {st : _} {rec_ : _} {a : _} (h_s : Ok p g (view (s))) :
    Ok p g (view (Machine.retireBlock s b st rec_ a)) := by
  unfold Machine.retireBlock
  repeat' first
    | with_reducible assumption
    | with_reducible refine State_setRegion_ok ?_
    | with_reducible refine record_ok ?_
    | with_reducible refine haltBlock_ok ?_
    | with_reducible refine holdAtBoundary_ok ?_
    | with_reducible refine enterHolding_ok ?_

theorem wrW_ok {s : _} {npa : _} {n : _} {v : _} {writer : _} (h_s : Ok p g (view (s))) :
    Ok p g (view (Machine.wrW s npa n v writer)) := by
  unfold Machine.wrW
  repeat' first
    | with_reducible assumption
    | with_reducible refine wrN_ok ?_

theorem countD_ok {s : _} {b : _} {st : _} {a : _} (h_s : Ok p g (view (s))) :
    Ok p g (view (Machine.countD s b st a)) := by
  unfold Machine.countD
  repeat' first
    | with_reducible assumption
    | with_reducible refine State_updBlk_ok ?_
    | with_reducible refine retireBlock_ok ?_
    | with_reducible apply ok_foldl
    | with_reducible apply ok_foldl_fst
    | with_reducible apply ok_ite
    | with_reducible apply ok_ite_fst
    | with_reducible apply ok_ite_snd
    | intro _

theorem tick_ok {s : _} {d : _} (h_s : Ok p g (view (s))) :
    Ok p g (view (Machine.tick s d)) := by
  unfold Machine.tick
  repeat' first
    | with_reducible assumption
    | with_reducible apply ok_foldl
    | with_reducible apply ok_foldl_fst
    | with_reducible apply ok_ite
    | with_reducible apply ok_ite_fst
    | with_reducible apply ok_ite_snd
    | intro _
    | split
    | (with_reducible refine ok_of_pair (by assumption) ?_)
    | (with_reducible refine ok_of_pair2 (by assumption) ?_)
    | (with_reducible refine ok_of_hres (by assumption) ?_)
    | (with_reducible refine ok_of_opt2 (by assumption) ?_)
    | (with_reducible refine ok_of_some (by assumption) ?_)
    | with_reducible refine ok_findSome _ ?_
    | (simp only [view_mk, view_eta])

theorem eraseKeys_ok {s : _} {lo : _} {hi : _} (h_s : Ok p g (view (s))) :
    Ok p g (view (Machine.eraseKeys s lo hi)) := by
  exact ⟨h_s.pending, h_s.grade, h_s.serial, filter_wf _ h_s.mem, h_s.hostMem, h_s.log, h_s.logq, h_s.em, h_s.sess,
    h_s.ctl⟩

theorem ibi_ok {s : _} {v : _} (h_s : Ok p g (view (s))) :
    Ok p g (view (Machine.ibi s v)) := by
  unfold Machine.ibi
  repeat' first
    | with_reducible assumption
    | with_reducible apply ok_foldl
    | with_reducible apply ok_foldl_fst
    | with_reducible apply ok_ite
    | with_reducible apply ok_ite_fst
    | with_reducible apply ok_ite_snd
    | intro _
    | split
    | (with_reducible refine ok_of_pair (by assumption) ?_)
    | (with_reducible refine ok_of_pair2 (by assumption) ?_)
    | (with_reducible refine ok_of_hres (by assumption) ?_)
    | (with_reducible refine ok_of_opt2 (by assumption) ?_)
    | (with_reducible refine ok_of_some (by assumption) ?_)
    | with_reducible refine ok_findSome _ ?_
    | (simp only [view_mk, view_eta])

theorem mbxRefused_ok {s : _} {st : _} (h_s : Ok p g (view (s))) :
    Ok p g (view (Machine.mbxRefused s st)) := by
  unfold Machine.mbxRefused
  repeat' first
    | with_reducible assumption
    | with_reducible refine record_ok ?_
    | with_reducible apply ok_foldl
    | with_reducible apply ok_foldl_fst
    | with_reducible apply ok_ite
    | with_reducible apply ok_ite_fst
    | with_reducible apply ok_ite_snd
    | intro _

theorem notifyRec_ok {s : _} {b : _} {q : _} {c : _} {idx : _} {st : _} (h_s : Ok p g (view (s))) :
    Ok p g (view (Machine.notifyRec s b q c idx st)) := by
  unfold Machine.notifyRec
  repeat' first
    | with_reducible assumption
    | with_reducible refine drew_ok ?_
    | with_reducible apply ok_foldl
    | with_reducible apply ok_foldl_fst
    | with_reducible apply ok_ite
    | with_reducible apply ok_ite_fst
    | with_reducible apply ok_ite_snd
    | intro _
    | split
    | (with_reducible refine ok_of_pair (by assumption) ?_)
    | (with_reducible refine ok_of_pair2 (by assumption) ?_)
    | (with_reducible refine ok_of_hres (by assumption) ?_)
    | (with_reducible refine ok_of_opt2 (by assumption) ?_)
    | (with_reducible refine ok_of_some (by assumption) ?_)
    | with_reducible refine ok_findSome _ ?_
    | (simp only [view_mk, view_eta])

theorem finishFault_ok {s : _} {b : _} {q : _} {idx : _} {e : _} (h_s : Ok p g (view (s))) :
    Ok p g (view (Machine.finishFault s b q idx e)) := by
  unfold Machine.finishFault
  repeat' first
    | with_reducible assumption
    | with_reducible refine updInFl_ok ?_

theorem wrHostN_ok {s : _} {a : _} {a2 : _} (h_s : Ok p g (view (s))) :
    Ok p g (view (Machine.wrHostN s a a2)) := by
  induction a2 generalizing s a with
  | nil => exact h_s
  | cons b bs ih => exact ih (wrHost_ok h_s)

theorem answer_ok {s : _} {ret : _} {st : _} {detail : _} {out : _} (h_s : Ok p g (view (s))) :
    Ok p g (view (Machine.answer s ret st detail out)) := by
  unfold Machine.answer
  repeat' first
    | with_reducible assumption
    | with_reducible refine raise_ok ?_
    | with_reducible refine mbxRefused_ok ?_
    | with_reducible apply ok_foldl
    | with_reducible apply ok_foldl_fst
    | with_reducible apply ok_ite
    | with_reducible apply ok_ite_fst
    | with_reducible apply ok_ite_snd
    | intro _
    | split
    | (with_reducible refine ok_of_pair (by assumption) ?_)
    | (with_reducible refine ok_of_pair2 (by assumption) ?_)
    | (with_reducible refine ok_of_hres (by assumption) ?_)
    | (with_reducible refine ok_of_opt2 (by assumption) ?_)
    | (with_reducible refine ok_of_some (by assumption) ?_)
    | with_reducible refine ok_findSome _ ?_
    | (simp only [view_mk, view_eta])

theorem nodeFatal_ok {s : _} {c : _} {a : _} (h_s : Ok p g (view (s))) :
    Ok p g (view (Machine.nodeFatal s c a)) := by
  unfold Machine.nodeFatal
  repeat' first
    | with_reducible assumption
    | with_reducible refine record_ok ?_
    | with_reducible refine haltBlock_ok ?_
    | with_reducible apply ok_foldl
    | with_reducible apply ok_foldl_fst
    | with_reducible apply ok_ite
    | with_reducible apply ok_ite_fst
    | with_reducible apply ok_ite_snd
    | intro _
    | split
    | (with_reducible refine ok_of_pair (by assumption) ?_)
    | (with_reducible refine ok_of_pair2 (by assumption) ?_)
    | (with_reducible refine ok_of_hres (by assumption) ?_)
    | (with_reducible refine ok_of_opt2 (by assumption) ?_)
    | (with_reducible refine ok_of_some (by assumption) ?_)
    | with_reducible refine ok_findSome _ ?_
    | (simp only [view_mk, view_eta])

theorem signOut_ok {s : _} {b : _} {q : _} {f : _} (h_s : Ok p g (view (s))) :
    Ok p g (view (Machine.signOut s b q f)) := by
  unfold Machine.signOut
  repeat' first
    | with_reducible assumption
    | with_reducible refine State_updQ_ok ?_
    | with_reducible apply ok_foldl
    | with_reducible apply ok_foldl_fst
    | with_reducible apply ok_ite
    | with_reducible apply ok_ite_fst
    | with_reducible apply ok_ite_snd
    | intro _

theorem haltQueue_ok {s : _} {b : _} {q : _} {st : _} {idx : _} (h_s : Ok p g (view (s))) :
    Ok p g (view (Machine.haltQueue s b q st idx)) := by
  unfold Machine.haltQueue
  repeat' first
    | with_reducible assumption
    | with_reducible refine enterHolding_ok ?_
    | with_reducible refine State_updQ_ok ?_

theorem completeHead_ok {s : _} {b : _} {q : _} (h_s : Ok p g (view (s))) :
    Ok p g (view (Machine.completeHead s b q)) := by
  unfold Machine.completeHead
  repeat' first
    | with_reducible assumption
    | with_reducible refine State_updBlk_ok ?_
    | with_reducible refine ctxLast_ok ?_
    | with_reducible refine State_updQ_ok ?_
    | with_reducible refine notifyRec_ok ?_
    | with_reducible refine signOut_ok ?_
    | with_reducible refine record_ok ?_
    | with_reducible refine countD_ok ?_
    | with_reducible refine haltQueue_ok ?_
    | with_reducible refine retireBlock_ok ?_
    | with_reducible apply ok_foldl
    | with_reducible apply ok_foldl_fst
    | with_reducible apply ok_ite
    | with_reducible apply ok_ite_fst
    | with_reducible apply ok_ite_snd
    | intro _
    | split
    | (with_reducible refine ok_of_pair (by assumption) ?_)
    | (with_reducible refine ok_of_pair2 (by assumption) ?_)
    | (with_reducible refine ok_of_hres (by assumption) ?_)
    | (with_reducible refine ok_of_opt2 (by assumption) ?_)
    | (with_reducible refine ok_of_some (by assumption) ?_)
    | with_reducible refine ok_findSome _ ?_
    | (simp only [view_mk, view_eta])

theorem idle_ok {s : _} (h_s : Ok p g (view (s))) :
    Ok p g (view (Machine.idle s)) := by
  unfold Machine.idle
  repeat' first
    | with_reducible assumption
    | with_reducible refine tick_ok ?_

theorem State_setPort_ok {s : _} {a1 : _} {v : _} (h_s : Ok p g (view (s))) :
    Ok p g (view (Machine.State.setPort s a1 v)) := by
  unfold Machine.State.setPort
  repeat' first
    | with_reducible assumption
    | with_reducible apply ok_foldl
    | with_reducible apply ok_foldl_fst
    | with_reducible apply ok_ite
    | with_reducible apply ok_ite_fst
    | with_reducible apply ok_ite_snd
    | intro _
    | split
    | (with_reducible refine ok_of_pair (by assumption) ?_)
    | (with_reducible refine ok_of_pair2 (by assumption) ?_)
    | (with_reducible refine ok_of_hres (by assumption) ?_)
    | (with_reducible refine ok_of_opt2 (by assumption) ?_)
    | (with_reducible refine ok_of_some (by assumption) ?_)
    | with_reducible refine ok_findSome _ ?_
    | (simp only [view_mk, view_eta])

theorem dropEntries_ok {s : _} {b : _} {idx : _} (h_s : Ok p g (view (s))) :
    Ok p g (view (Machine.dropEntries s b idx)) := by
  unfold Machine.dropEntries
  repeat' first
    | with_reducible assumption
    | with_reducible apply ok_foldl
    | with_reducible apply ok_foldl_fst
    | with_reducible apply ok_ite
    | with_reducible apply ok_ite_fst
    | with_reducible apply ok_ite_snd
    | intro _
    | split
    | (with_reducible refine ok_of_pair (by assumption) ?_)
    | (with_reducible refine ok_of_pair2 (by assumption) ?_)
    | (with_reducible refine ok_of_hres (by assumption) ?_)
    | (with_reducible refine ok_of_opt2 (by assumption) ?_)
    | (with_reducible refine ok_of_some (by assumption) ?_)
    | with_reducible refine ok_findSome _ ?_
    | (simp only [view_mk, view_eta])

theorem finish_ok {s : _} {b : _} {q : _} {idx : _} {st : _} (h_s : Ok p g (view (s))) :
    Ok p g (view (Machine.finish s b q idx st)) := by
  unfold Machine.finish
  repeat' first
    | with_reducible assumption
    | with_reducible refine updInFl_ok ?_

end Sys2Proof.Laws
end

