-- ==== Sys2Proof/Laws/KeepAvs.lean ====
section
/-!
SUPPORT. What the operations of Machine/Avs.lean keep of the view of Laws/Good.lean.
-/
namespace Sys2Proof.Laws

open Sys2Proof.Machine

variable {p : List Instr} {g : Grade × W64}

theorem execAvsSettled_ok {die : _} {s : _} (h_s : Ok p g (view (s))) :
    ∀ u, Machine.execAvsSettled die s = .next u → Ok p g (view u) := by
  intro u e
  unfold Machine.execAvsSettled at e
  first | (have e := Host.Outcome.next.inj e; subst e) | skip
  repeat' first
    | with_reducible assumption
    | with_reducible refine State_setDie_ok ?_
    | with_reducible apply ok_foldl
    | with_reducible apply ok_foldl_fst
    | with_reducible apply ok_ite
    | with_reducible apply ok_ite_fst
    | with_reducible apply ok_ite_snd
    | intro _
    | split
    | (with_reducible refine ok_of_pair (by assumption) ?_)
    | (with_reducible refine ok_of_pair2 (by assumption) ?_)
    | (with_reducible refine ok_of_hres (by assumption) ?_)
    | (with_reducible refine ok_of_opt2 (by assumption) ?_)
    | (with_reducible refine ok_of_some (by assumption) ?_)
    | with_reducible refine ok_findSome _ ?_
    | (simp only [view_mk, view_eta])

theorem throttleRec_ok {s : _} {d : _} {cause : _} {value : _} (h_s : Ok p g (view (s))) :
    Ok p g (view (Machine.throttleRec s d cause value)) := by
  unfold Machine.throttleRec
  repeat' first
    | with_reducible assumption
    | with_reducible refine record_ok ?_

theorem setLevel_ok {s : _} {d : _} {mhz : _} (h_s : Ok p g (view (s))) :
    Ok p g (view (Machine.setLevel s d mhz)) := by
  unfold Machine.setLevel
  repeat' first
    | with_reducible assumption
    | with_reducible refine State_setDie_ok ?_
    | with_reducible apply ok_foldl
    | with_reducible apply ok_foldl_fst
    | with_reducible apply ok_ite
    | with_reducible apply ok_ite_fst
    | with_reducible apply ok_ite_snd
    | intro _

theorem throttle_ok {s : _} {t : _} (h_s : Ok p g (view (s))) :
    Ok p g (view (Machine.throttle s t)) := by
  unfold Machine.throttle
  repeat' first
    | with_reducible assumption
    | with_reducible refine setLevel_ok ?_
    | with_reducible refine State_setDie_ok ?_
    | with_reducible refine throttleRec_ok ?_
    | with_reducible refine ibi_ok ?_
    | with_reducible apply ok_foldl
    | with_reducible apply ok_foldl_fst
    | with_reducible apply ok_ite
    | with_reducible apply ok_ite_fst
    | with_reducible apply ok_ite_snd
    | intro _
    | split
    | (with_reducible refine ok_of_pair (by assumption) ?_)
    | (with_reducible refine ok_of_pair2 (by assumption) ?_)
    | (with_reducible refine ok_of_hres (by assumption) ?_)
    | (with_reducible refine ok_of_opt2 (by assumption) ?_)
    | (with_reducible refine ok_of_some (by assumption) ?_)
    | with_reducible refine ok_findSome _ ?_
    | (simp only [view_mk, view_eta])

theorem execThrottle_ok {t : _} {s : _} (h_s : Ok p g (view (s))) :
    ∀ u, Machine.execThrottle t s = .next u → Ok p g (view u) := by
  intro u e
  unfold Machine.execThrottle at e
  first | (have e := Host.Outcome.next.inj e; subst e) | skip
  repeat' first
    | with_reducible assumption
    | with_reducible refine throttle_ok ?_
    | with_reducible apply ok_foldl
    | with_reducible apply ok_foldl_fst
    | with_reducible apply ok_ite
    | with_reducible apply ok_ite_fst
    | with_reducible apply ok_ite_snd
    | intro _

theorem execHwThrottle_ok {die : _} {s : _} (h_s : Ok p g (view (s))) :
    ∀ u, Machine.execHwThrottle die s = .next u → Ok p g (view u) := by
  intro u e
  unfold Machine.execHwThrottle at e
  first | (have e := Host.Outcome.next.inj e; subst e) | skip
  repeat' first
    | with_reducible assumption
    | with_reducible refine State_setDie_ok ?_
    | with_reducible apply ok_foldl
    | with_reducible apply ok_foldl_fst
    | with_reducible apply ok_ite
    | with_reducible apply ok_ite_fst
    | with_reducible apply ok_ite_snd
    | intro _
    | split
    | (with_reducible refine ok_of_pair (by assumption) ?_)
    | (with_reducible refine ok_of_pair2 (by assumption) ?_)
    | (with_reducible refine ok_of_hres (by assumption) ?_)
    | (with_reducible refine ok_of_opt2 (by assumption) ?_)
    | (with_reducible refine ok_of_some (by assumption) ?_)
    | with_reducible refine ok_findSome _ ?_
    | (simp only [view_mk, view_eta])

theorem execAvsRetry_ok {die : _} {s : _} (h_s : Ok p g (view (s))) :
    ∀ u, Machine.execAvsRetry die s = .next u → Ok p g (view u) := by
  intro u e
  unfold Machine.execAvsRetry at e
  first | (have e := Host.Outcome.next.inj e; subst e) | skip
  repeat' first
    | with_reducible assumption
    | with_reducible refine throttleRec_ok ?_
    | with_reducible refine State_setDie_ok ?_
    | with_reducible apply ok_foldl
    | with_reducible apply ok_foldl_fst
    | with_reducible apply ok_ite
    | with_reducible apply ok_ite_fst
    | with_reducible apply ok_ite_snd
    | intro _

end Sys2Proof.Laws
end

