-- ==== Sys2Proof/Laws/KeepFrames.lean ====
section
/-!
SUPPORT. What the operations of Machine/Frames.lean keep of the view of Laws/Good.lean.
-/
namespace Sys2Proof.Laws

open Sys2Proof.Machine

variable {p : List Instr} {g : Grade × W64}

theorem enqueue_ok {s : _} {o : _} (h_s : Ok p g (view (s))) :
    Ok p g (view (Machine.enqueue s o)) := by
  unfold Machine.enqueue
  repeat' first
    | with_reducible assumption
    | with_reducible apply ok_foldl
    | with_reducible apply ok_foldl_fst
    | with_reducible apply ok_ite
    | with_reducible apply ok_ite_fst
    | with_reducible apply ok_ite_snd
    | intro _
    | split
    | (with_reducible refine ok_of_pair (by assumption) ?_)
    | (with_reducible refine ok_of_pair2 (by assumption) ?_)
    | (with_reducible refine ok_of_hres (by assumption) ?_)
    | (with_reducible refine ok_of_opt2 (by assumption) ?_)
    | (with_reducible refine ok_of_some (by assumption) ?_)
    | with_reducible refine ok_findSome _ ?_
    | (simp only [view_mk, view_eta])

theorem sendData_ok {s : _} {org : _} {pri : _} {a : _} (h_s : Ok p g (view (s))) :
    Ok p g (view (Machine.sendData s org pri a)) := by
  unfold Machine.sendData
  repeat' first
    | with_reducible assumption
    | with_reducible refine enqueue_ok ?_

end Sys2Proof.Laws
end

