-- ==== Sys2Proof/Laws/KeepPolicy.lean ====
section
/-!
SUPPORT. What the operations of Machine/Policy.lean keep of the view of Laws/Good.lean.
-/
namespace Sys2Proof.Laws

open Sys2Proof.Machine

variable {p : List Instr} {g : Grade × W64}

theorem sendControlPut_ok {s : _} {org : _} {pri : _} {dst : _} {off : _} {bs : _} (h_s : Ok p g (view (s))) :
    Ok p g (view (Machine.sendControlPut s org pri dst off bs)) := by
  unfold Machine.sendControlPut
  repeat' first
    | with_reducible assumption
    | with_reducible refine sendData_ok ?_

theorem takeControl_ok {s : _} {src : _} {bs : _} (h_s : Ok p g (view (s))) :
    ∀ u, Machine.takeControl s src bs = some u → Ok p g (view (u)) := by
  intro u e
  unfold takeControl at e
  split at e
  · next heq =>
    split at e
    · have e := Option.some.inj e
      subst e
      refine ⟨h_s.pending, h_s.grade, h_s.serial, h_s.mem, h_s.hostMem, h_s.log, h_s.logq, h_s.em, h_s.sess, ?_⟩
      have hc := h_s.ctl
      simp only [view, heq, List.length_cons] at hc ⊢
      omega
    · cases e
  · cases e

theorem orderTo_ok {s : _} {bs : _} {n : _} (h_s : Ok p g (view (s))) :
    Ok p g (view (Machine.orderTo s bs n)) := by
  unfold orderTo
  split
  · split
    · next hc =>
      refine ⟨h_s.pending, h_s.grade, h_s.serial, h_s.mem, h_s.hostMem, h_s.log, h_s.logq, h_s.em, h_s.sess, ?_⟩
      simp only [view, List.length_append, List.length_singleton]
      omega
    · exact h_s
  · exact sendControlPut_ok h_s

theorem orderAll_ok {s : _} {l : _} {op : _} {step : _} {failed : _} (h_s : Ok p g (view (s))) :
    Ok p g (view (Machine.orderAll s l op step failed)) := by
  unfold Machine.orderAll
  repeat' first
    | with_reducible assumption
    | with_reducible refine orderTo_ok ?_
    | with_reducible apply ok_foldl
    | with_reducible apply ok_foldl_fst
    | with_reducible apply ok_ite
    | with_reducible apply ok_ite_fst
    | with_reducible apply ok_ite_snd
    | intro _

theorem reportCame_ok {s : _} {src : _} {bs : _} (h_s : Ok p g (view (s))) :
    Ok p g (view (Machine.reportCame s src bs)) := by
  unfold Machine.reportCame
  repeat' first
    | with_reducible assumption
    | with_reducible refine orderAll_ok ?_
    | with_reducible apply ok_foldl
    | with_reducible apply ok_foldl_fst
    | with_reducible apply ok_ite
    | with_reducible apply ok_ite_fst
    | with_reducible apply ok_ite_snd
    | intro _
    | split
    | (with_reducible refine ok_of_pair (by assumption) ?_)
    | (with_reducible refine ok_of_pair2 (by assumption) ?_)
    | (with_reducible refine ok_of_hres (by assumption) ?_)
    | (with_reducible refine ok_of_opt2 (by assumption) ?_)
    | (with_reducible refine ok_of_some (by assumption) ?_)
    | with_reducible refine ok_findSome _ ?_
    | (simp only [view_mk, view_eta])

end Sys2Proof.Laws
end

