-- ==== Sys2Proof/Laws/KeepBoundary.lean ====
section
/-!
SUPPORT. What the operations of Machine/Boundary.lean keep of the view of Laws/Good.lean.
-/
namespace Sys2Proof.Laws

open Sys2Proof.Machine

variable {p : List Instr} {g : Grade × W64}

theorem wrQuarter_ok {s : _} {st : _} {i : _} {o : _} {bs : _} (h_s : Ok p g (view (s))) :
    Ok p g (view (Machine.wrQuarter s st i o bs)) := by
  unfold Machine.wrQuarter
  repeat' first
    | with_reducible assumption
    | with_reducible refine dropResv_ok ?_
    | with_reducible refine wrKey_ok ?_
    | with_reducible refine clearFaults_ok ?_
    | with_reducible apply ok_foldl
    | with_reducible apply ok_foldl_fst
    | with_reducible apply ok_ite
    | with_reducible apply ok_ite_fst
    | with_reducible apply ok_ite_snd
    | intro _

theorem sendNotice_ok {s : _} {c : _} (h_s : Ok p g (view (s))) :
    Ok p g (view (Machine.sendNotice s c)) := by
  unfold sendNotice
  refine ok_ite (fun _ => ok_ite (fun hc => ?_) fun _ => ok_upd h_s rfl rfl rfl rfl rfl rfl rfl rfl rfl) fun _ => sendControlPut_ok (ok_upd h_s rfl rfl rfl rfl rfl rfl rfl rfl rfl)
  refine ⟨h_s.pending, h_s.grade, h_s.serial, h_s.mem, h_s.hostMem, h_s.log, h_s.logq, h_s.em, h_s.sess, ?_⟩
  have : s.fab.control.length < 4096 := hc
  simp only [view, List.length_append, List.length_singleton]
  omega

theorem enterHeld_ok {s : _} {byLimit : _} (h_s : Ok p g (view (s))) :
    Ok p g (view (Machine.enterHeld s byLimit)) := by
  unfold Machine.enterHeld
  repeat' first
    | with_reducible assumption
    | with_reducible refine recordSev_ok ?_
    | with_reducible refine traceHw_ok ?_
    | with_reducible refine raise_ok ?_
    | with_reducible refine sendNotice_ok ?_
    | with_reducible apply ok_foldl
    | with_reducible apply ok_foldl_fst
    | with_reducible apply ok_ite
    | with_reducible apply ok_ite_fst
    | with_reducible apply ok_ite_snd
    | intro _
    | split
    | (with_reducible refine ok_of_pair (by assumption) ?_)
    | (with_reducible refine ok_of_pair2 (by assumption) ?_)
    | (with_reducible refine ok_of_hres (by assumption) ?_)
    | (with_reducible refine ok_of_opt2 (by assumption) ?_)
    | (with_reducible refine ok_of_some (by assumption) ?_)
    | with_reducible refine ok_findSome _ ?_
    | (simp only [view_mk, view_eta])

theorem sendSigs_ok {s : _} {n : _} (h_s : Ok p g (view (s))) :
    Ok p g (view (Machine.sendSigs s n)) := by
  unfold Machine.sendSigs
  repeat' first
    | with_reducible assumption
    | with_reducible apply ok_foldl
    | with_reducible apply ok_foldl_fst
    | with_reducible apply ok_ite
    | with_reducible apply ok_ite_fst
    | with_reducible apply ok_ite_snd
    | intro _
    | split
    | (with_reducible refine ok_of_pair (by assumption) ?_)
    | (with_reducible refine ok_of_pair2 (by assumption) ?_)
    | (with_reducible refine ok_of_hres (by assumption) ?_)
    | (with_reducible refine ok_of_opt2 (by assumption) ?_)
    | (with_reducible refine ok_of_some (by assumption) ?_)
    | with_reducible refine ok_findSome _ ?_
    | (simp only [view_mk, view_eta])

theorem readQuarter_ok {s : _} {st : _} {i : _} {o : _} {n : _} (h_s : Ok p g (view (s))) :
    Ok p g (view (Machine.readQuarter s st i o n).1) := by
  unfold Machine.readQuarter
  repeat' first
    | with_reducible assumption
    | with_reducible refine touch_ok ?_
    | with_reducible apply ok_foldl
    | with_reducible apply ok_foldl_fst
    | with_reducible apply ok_ite
    | with_reducible apply ok_ite_fst
    | with_reducible apply ok_ite_snd
    | intro _
    | split
    | (with_reducible refine ok_of_pair (by assumption) ?_)

theorem putTrailer_ok {s : _} {st : _} {index : _} {bs : _} (h_s : Ok p g (view (s))) :
    Ok p g (view (Machine.putTrailer s st index bs)) := by
  unfold putTrailer
  extract_lets t s1
  have h1 : Ok p g (view s1) := wrQuarter_ok h_s
  clear_value s1
  exact ok_upd h1 rfl rfl rfl rfl rfl rfl rfl rfl rfl

theorem sealStack_ok {s : _} {st : _} (h_s : Ok p g (view (s))) :
    Ok p g (view (Machine.sealStack s st)) := by
  unfold Machine.sealStack
  repeat' first
    | with_reducible assumption
    | with_reducible refine readQuarter_ok ?_
    | with_reducible refine putTrailer_ok ?_
    | with_reducible refine failCkpt_ok ?_
    | with_reducible apply ok_foldl
    | with_reducible apply ok_foldl_fst
    | with_reducible apply ok_ite
    | with_reducible apply ok_ite_fst
    | with_reducible apply ok_ite_snd
    | intro _
    | split
    | (with_reducible refine ok_of_pair (by assumption) ?_)

theorem stackCopied_ok {s : _} {st : _} (h_s : Ok p g (view (s))) :
    Ok p g (view (Machine.stackCopied s st)) := by
  have aux : ∀ s1, Ok p g (view s1) → Ok p g (view (if s1.ckpt.state = .copy ∧ copyOver s1 = true then
      { s1 with ckpt := { s1.ckpt with state := .sign } } else s1)) := fun s1 e1 =>
    ok_ite (fun _ => ok_upd e1 rfl rfl rfl rfl rfl rfl rfl rfl rfl) fun _ => e1
  unfold stackCopied
  exact ok_ite (fun _ => aux _ (sealStack_ok h_s)) fun _ => h_s

theorem diverge_ok {s : _} {at_ : _} (h_s : Ok p g (view (s))) :
    Ok p g (view (Machine.diverge s at_)) := by
  unfold Machine.diverge
  repeat' first
    | with_reducible assumption
    | with_reducible refine nodeFatal_ok ?_
    | with_reducible refine drew_ok ?_

theorem clearStep_ok {s : _} (h_s : Ok p g (view (s))) :
    Ok p g (view (Machine.clearStep s)) := by
  unfold Machine.clearStep
  repeat' first
    | with_reducible assumption
    | with_reducible apply ok_foldl
    | with_reducible apply ok_foldl_fst
    | with_reducible apply ok_ite
    | with_reducible apply ok_ite_fst
    | with_reducible apply ok_ite_snd
    | intro _
    | split
    | (with_reducible refine ok_of_pair (by assumption) ?_)
    | (with_reducible refine ok_of_pair2 (by assumption) ?_)
    | (with_reducible refine ok_of_hres (by assumption) ?_)
    | (with_reducible refine ok_of_opt2 (by assumption) ?_)
    | (with_reducible refine ok_of_some (by assumption) ?_)
    | with_reducible refine ok_findSome _ ?_
    | (simp only [view_mk, view_eta])

theorem startCopy_ok {s : _} (h_s : Ok p g (view (s))) :
    Ok p g (view (Machine.startCopy s)) := by
  have h1 : ∀ t, Ok p g (view t) → Ok p g (view ((List.range 12).foldl (fun t i =>
      t.setStack i { t.stack i with ckPending := setGranules t i, ckDone := [] }) t)) := fun t h =>
    ok_foldl _ h fun _ _ hx => State_setStack_ok hx
  unfold startCopy
  extract_lets c gn rec1 s1 s2 s3 s4
  have e1 : Ok p g (view s1) := ok_upd h_s rfl rfl rfl rfl rfl rfl rfl rfl rfl
  have e2 : Ok p g (view s2) := wrQuarter_ok e1
  have e3 : Ok p g (view s3) := putTrailer_ok (wrQuarter_ok e2)
  have e4 : Ok p g (view s4) := h1 s3 e3
  clear_value s4
  exact ok_ite (fun _ => ok_upd e4 rfl rfl rfl rfl rfl rfl rfl rfl rfl) fun _ => e4

theorem releaseQueues_ok {s : _} (h_s : Ok p g (view (s))) :
    Ok p g (view (Machine.releaseQueues s)) := by
  unfold Machine.releaseQueues
  repeat' first
    | with_reducible assumption
    | with_reducible apply ok_foldl
    | with_reducible apply ok_foldl_fst
    | with_reducible apply ok_ite
    | with_reducible apply ok_ite_fst
    | with_reducible apply ok_ite_snd
    | intro _
    | split
    | (with_reducible refine ok_of_pair (by assumption) ?_)
    | (with_reducible refine ok_of_pair2 (by assumption) ?_)
    | (with_reducible refine ok_of_hres (by assumption) ?_)
    | (with_reducible refine ok_of_opt2 (by assumption) ?_)
    | (with_reducible refine ok_of_some (by assumption) ?_)
    | with_reducible refine ok_findSome _ ?_
    | (simp only [view_mk, view_eta])

theorem cutFalls_ok {s : _} (h_s : Ok p g (view (s))) :
    Ok p g (view (Machine.cutFalls s)) := by
  unfold Machine.cutFalls
  repeat' first
    | with_reducible assumption
    | with_reducible refine startCopy_ok ?_
    | with_reducible refine releaseQueues_ok ?_
    | with_reducible apply ok_foldl
    | with_reducible apply ok_foldl_fst
    | with_reducible apply ok_ite
    | with_reducible apply ok_ite_fst
    | with_reducible apply ok_ite_snd
    | intro _
    | split
    | (with_reducible refine ok_of_pair (by assumption) ?_)
    | (with_reducible refine ok_of_pair2 (by assumption) ?_)
    | (with_reducible refine ok_of_hres (by assumption) ?_)
    | (with_reducible refine ok_of_opt2 (by assumption) ?_)
    | (with_reducible refine ok_of_some (by assumption) ?_)
    | with_reducible refine ok_findSome _ ?_
    | (simp only [view_mk, view_eta])

theorem takeBoundary_ok {s : _} (h_s : Ok p g (view (s))) :
    Ok p g (view (Machine.takeBoundary s)) := by
  unfold Machine.takeBoundary
  repeat' first
    | with_reducible assumption
    | with_reducible refine clearStep_ok ?_
    | with_reducible refine cutFalls_ok ?_
    | with_reducible refine releaseQueues_ok ?_
    | with_reducible apply ok_foldl
    | with_reducible apply ok_foldl_fst
    | with_reducible apply ok_ite
    | with_reducible apply ok_ite_fst
    | with_reducible apply ok_ite_snd
    | intro _
    | split
    | (with_reducible refine ok_of_pair (by assumption) ?_)
    | (with_reducible refine ok_of_pair2 (by assumption) ?_)
    | (with_reducible refine ok_of_hres (by assumption) ?_)
    | (with_reducible refine ok_of_opt2 (by assumption) ?_)
    | (with_reducible refine ok_of_some (by assumption) ?_)
    | with_reducible refine ok_findSome _ ?_
    | (simp only [view_mk, view_eta])

theorem stepBoundary_ok {s : _} (h_s : Ok p g (view (s))) :
    Ok p g (view (Machine.stepBoundary s)) := by
  unfold Machine.stepBoundary
  repeat' first
    | with_reducible assumption
    | with_reducible refine takeBoundary_ok ?_
    | with_reducible refine enterHeld_ok ?_
    | with_reducible refine sendSigs_ok ?_
    | with_reducible refine diverge_ok ?_
    | with_reducible apply ok_foldl
    | with_reducible apply ok_foldl_fst
    | with_reducible apply ok_ite
    | with_reducible apply ok_ite_fst
    | with_reducible apply ok_ite_snd
    | intro _
    | split

theorem startMirror_ok {s : _} (h_s : Ok p g (view (s))) :
    Ok p g (view (Machine.startMirror s)) := by
  unfold Machine.startMirror
  repeat' first
    | with_reducible assumption
    | with_reducible refine readQuarter_ok ?_
    | with_reducible refine sendControlPut_ok ?_
    | with_reducible refine failCkpt_ok ?_
    | with_reducible apply ok_foldl
    | with_reducible apply ok_foldl_fst
    | with_reducible apply ok_ite
    | with_reducible apply ok_ite_fst
    | with_reducible apply ok_ite_snd
    | intro _
    | split
    | (with_reducible refine ok_of_pair (by assumption) ?_)
    | (with_reducible refine ok_of_pair2 (by assumption) ?_)
    | (with_reducible refine ok_of_hres (by assumption) ?_)
    | (with_reducible refine ok_of_opt2 (by assumption) ?_)
    | (with_reducible refine ok_of_some (by assumption) ?_)
    | with_reducible refine ok_findSome _ ?_
    | (simp only [view_mk, view_eta])

theorem execManifestSign_ok {s : _} (h_s : Ok p g (view (s))) :
    ∀ u, Machine.execManifestSign s = .next u → Ok p g (view u) := by
  intro u e
  unfold Machine.execManifestSign at e
  first | (have e := Host.Outcome.next.inj e; subst e) | skip
  repeat' first
    | with_reducible assumption
    | with_reducible refine wrQuarter_ok ?_
    | with_reducible refine startMirror_ok ?_
    | with_reducible apply ok_foldl
    | with_reducible apply ok_foldl_fst
    | with_reducible apply ok_ite
    | with_reducible apply ok_ite_fst
    | with_reducible apply ok_ite_snd
    | intro _
    | split
    | (with_reducible refine ok_of_pair (by assumption) ?_)
    | (with_reducible refine ok_of_pair2 (by assumption) ?_)
    | (with_reducible refine ok_of_hres (by assumption) ?_)
    | (with_reducible refine ok_of_opt2 (by assumption) ?_)
    | (with_reducible refine ok_of_some (by assumption) ?_)
    | with_reducible refine ok_findSome _ ?_
    | (simp only [view_mk, view_eta])

theorem execGranuleCopy_ok {stack : _} {s : _} (h_s : Ok p g (view (s))) :
    ∀ u, Machine.execGranuleCopy stack s = .next u → Ok p g (view u) := by
  intro u e
  unfold Machine.execGranuleCopy at e
  first | (have e := Host.Outcome.next.inj e; subst e) | skip
  repeat' first
    | with_reducible assumption
    | with_reducible refine stackCopied_ok ?_
    | with_reducible refine copyGranule_ok ?_
    | with_reducible apply ok_foldl
    | with_reducible apply ok_foldl_fst
    | with_reducible apply ok_ite
    | with_reducible apply ok_ite_fst
    | with_reducible apply ok_ite_snd
    | intro _
    | split
    | (with_reducible refine ok_of_pair (by assumption) ?_)
    | (with_reducible refine ok_of_pair2 (by assumption) ?_)
    | (with_reducible refine ok_of_hres (by assumption) ?_)
    | (with_reducible refine ok_of_opt2 (by assumption) ?_)
    | (with_reducible refine ok_of_some (by assumption) ?_)
    | with_reducible refine ok_findSome _ ?_
    | (simp only [view_mk, view_eta])

theorem execMirrorAcknowledged_ok {s : _} (h_s : Ok p g (view (s))) :
    ∀ u, Machine.execMirrorAcknowledged s = .next u → Ok p g (view u) := by
  intro u e
  unfold Machine.execMirrorAcknowledged at e
  first | (have e := Host.Outcome.next.inj e; subst e) | skip
  repeat' first
    | with_reducible assumption
    | with_reducible refine raise_ok ?_
    | with_reducible apply ok_foldl
    | with_reducible apply ok_foldl_fst
    | with_reducible apply ok_ite
    | with_reducible apply ok_ite_fst
    | with_reducible apply ok_ite_snd
    | intro _
    | split
    | (with_reducible refine ok_of_pair (by assumption) ?_)
    | (with_reducible refine ok_of_pair2 (by assumption) ?_)
    | (with_reducible refine ok_of_hres (by assumption) ?_)
    | (with_reducible refine ok_of_opt2 (by assumption) ?_)
    | (with_reducible refine ok_of_some (by assumption) ?_)
    | with_reducible refine ok_findSome _ ?_
    | (simp only [view_mk, view_eta])

theorem execStepBoundary_ok {s : _} (h_s : Ok p g (view (s))) :
    ∀ u, Machine.execStepBoundary s = .next u → Ok p g (view u) := by
  intro u e
  unfold Machine.execStepBoundary at e
  first | (have e := Host.Outcome.next.inj e; subst e) | skip
  repeat' first
    | with_reducible assumption
    | with_reducible refine stepBoundary_ok ?_

theorem execCutLevelRaise_ok {s : _} (h_s : Ok p g (view (s))) :
    ∀ u, Machine.execCutLevelRaise s = .next u → Ok p g (view u) := by
  intro u e
  unfold Machine.execCutLevelRaise at e
  first | (have e := Host.Outcome.next.inj e; subst e) | skip
  repeat' first
    | with_reducible assumption
    | with_reducible refine cutFalls_ok ?_
    | with_reducible apply ok_foldl
    | with_reducible apply ok_foldl_fst
    | with_reducible apply ok_ite
    | with_reducible apply ok_ite_fst
    | with_reducible apply ok_ite_snd
    | intro _
    | split
    | (with_reducible refine ok_of_pair (by assumption) ?_)
    | (with_reducible refine ok_of_pair2 (by assumption) ?_)
    | (with_reducible refine ok_of_hres (by assumption) ?_)
    | (with_reducible refine ok_of_opt2 (by assumption) ?_)
    | (with_reducible refine ok_of_some (by assumption) ?_)
    | with_reducible refine ok_findSome _ ?_
    | (simp only [view_mk, view_eta])

end Sys2Proof.Laws
end

