-- ==== Sys2Proof/Laws/KeepFlags.lean ====
section
/-!
SUPPORT. What the operations of Machine/Flags.lean keep of the view of Laws/Good.lean.
-/
namespace Sys2Proof.Laws

open Sys2Proof.Machine

variable {p : List Instr} {g : Grade × W64}

theorem setFlags_ok {s : _} {b : _} {e : _} {f : _} (h_s : Ok p g (view (s))) :
    Ok p g (view (Machine.setFlags s b e f)) := by
  unfold Machine.setFlags
  repeat' first
    | with_reducible assumption
    | with_reducible refine State_updBlk_ok ?_

theorem setPanFlags_ok {s : _} {st : _} {f : _} (h_s : Ok p g (view (s))) :
    Ok p g (view (Machine.setPanFlags s st f)) := by
  unfold Machine.setPanFlags
  repeat' first
    | with_reducible assumption
    | with_reducible refine State_setStack_ok ?_

end Sys2Proof.Laws
end

