-- ==== Sys2Proof/Laws/KeepOperands.lean ====
section
/-!
SUPPORT. What the operations of Machine/Operands.lean keep of the view of Laws/Good.lean.
-/
namespace Sys2Proof.Laws

open Sys2Proof.Machine

variable {p : List Instr} {g : Grade × W64}

theorem wrRow_ok {s : _} {f : _} {row : _} {raws : _} (h_s : Ok p g (view (s))) :
    Ok p g (view (Machine.wrRow s f row raws).1) := by
  unfold Machine.wrRow
  repeat' first
    | with_reducible assumption
    | with_reducible refine wrN_ok ?_
    | with_reducible refine wrW_ok ?_
    | with_reducible apply ok_foldl
    | with_reducible apply ok_foldl_fst
    | with_reducible apply ok_ite
    | with_reducible apply ok_ite_fst
    | with_reducible apply ok_ite_snd
    | intro _
    | split

theorem wrT_ok {s : _} {d : _} {f : _} (h_s : Ok p g (view (s))) :
    Ok p g (view (Machine.wrT s d f).1) := by
  unfold Machine.wrT
  repeat' first
    | with_reducible assumption
    | with_reducible refine wrRow_ok ?_
    | with_reducible apply ok_foldl
    | with_reducible apply ok_foldl_fst
    | with_reducible apply ok_ite
    | with_reducible apply ok_ite_fst
    | with_reducible apply ok_ite_snd
    | intro _

theorem drewN_ok {s : _} {n : _} {k : _} (h_s : Ok p g (view (s))) :
    Ok p g (view (Machine.drewN s n k)) := by
  unfold Machine.drewN
  repeat' first
    | with_reducible assumption
    | with_reducible apply ok_foldl
    | with_reducible apply ok_foldl_fst
    | with_reducible apply ok_ite
    | with_reducible apply ok_ite_fst
    | with_reducible apply ok_ite_snd
    | intro _
    | split
    | (with_reducible refine ok_of_pair (by assumption) ?_)
    | (with_reducible refine ok_of_pair2 (by assumption) ?_)
    | (with_reducible refine ok_of_hres (by assumption) ?_)
    | (with_reducible refine ok_of_opt2 (by assumption) ?_)
    | (with_reducible refine ok_of_some (by assumption) ?_)
    | with_reducible refine ok_findSome _ ?_
    | (simp only [view_mk, view_eta])

theorem recordMasked_ok {s : _} {b : _} {bad : _} (h_s : Ok p g (view (s))) :
    Ok p g (view (Machine.recordMasked s b bad)) := by
  unfold Machine.recordMasked
  repeat' first
    | with_reducible assumption
    | with_reducible refine record_ok ?_
    | with_reducible apply ok_foldl
    | with_reducible apply ok_foldl_fst
    | with_reducible apply ok_ite
    | with_reducible apply ok_ite_fst
    | with_reducible apply ok_ite_snd
    | intro _

theorem setAside_ok {s : _} {bad : _} (h_s : Ok p g (view (s))) :
    Ok p g (view (Machine.setAside s bad)) := by
  unfold Machine.setAside
  repeat' first
    | with_reducible assumption
    | with_reducible apply ok_foldl
    | with_reducible apply ok_foldl_fst
    | with_reducible apply ok_ite
    | with_reducible apply ok_ite_fst
    | with_reducible apply ok_ite_snd
    | intro _
    | split
    | (with_reducible refine ok_of_pair (by assumption) ?_)
    | (with_reducible refine ok_of_pair2 (by assumption) ?_)
    | (with_reducible refine ok_of_hres (by assumption) ?_)
    | (with_reducible refine ok_of_opt2 (by assumption) ?_)
    | (with_reducible refine ok_of_some (by assumption) ?_)
    | with_reducible refine ok_findSome _ ?_
    | (simp only [view_mk, view_eta])

theorem keepBad_ok {s : _} {bad : _} (h_s : Ok p g (view (s))) :
    Ok p g (view (Machine.keepBad s bad)) := by
  unfold Machine.keepBad
  repeat' first
    | with_reducible assumption
    | with_reducible apply ok_foldl
    | with_reducible apply ok_foldl_fst
    | with_reducible apply ok_ite
    | with_reducible apply ok_ite_fst
    | with_reducible apply ok_ite_snd
    | intro _
    | split
    | (with_reducible refine ok_of_pair (by assumption) ?_)
    | (with_reducible refine ok_of_pair2 (by assumption) ?_)
    | (with_reducible refine ok_of_hres (by assumption) ?_)
    | (with_reducible refine ok_of_opt2 (by assumption) ?_)
    | (with_reducible refine ok_of_some (by assumption) ?_)
    | with_reducible refine ok_findSome _ ?_
    | (simp only [view_mk, view_eta])

theorem withTouch_ok {s : _} {runs : _} {b : _} {q : _} {idx : _} {k : _} (h_s : Ok p g (view (s))) (h_k : ∀ v0, Ok p g (view (v0)) → Ok p g (view (k v0))) :
    Ok p g (view (Machine.withTouch s runs b q idx k)) := by
  unfold Machine.withTouch
  repeat' first
    | with_reducible assumption
    | with_reducible refine touch_ok ?_
    | with_reducible refine finishFault_ok ?_
    | with_reducible apply h_k
    | with_reducible apply ok_foldl
    | with_reducible apply ok_foldl_fst
    | with_reducible apply ok_ite
    | with_reducible apply ok_ite_fst
    | with_reducible apply ok_ite_snd
    | intro _
    | split
    | (with_reducible refine ok_of_pair (by assumption) ?_)

theorem engine_ok {s : _} {b : _} {q : _} {op : _} {run : _} (h_s : Ok p g (view (s))) (h_run : ∀ v0 v1, Ok p g (view (v0)) → Ok p g (view (run v0 v1))) :
    Ok p g (view (Machine.engine s b q op run)) := by
  unfold Machine.engine
  repeat' first
    | with_reducible assumption
    | with_reducible apply h_run
    | with_reducible apply ok_foldl
    | with_reducible apply ok_foldl_fst
    | with_reducible apply ok_ite
    | with_reducible apply ok_ite_fst
    | with_reducible apply ok_ite_snd
    | intro _
    | split

theorem finishOut_ok {s : _} {b : _} {q : _} {idx : _} {st : _} {out : _} (h_s : Ok p g (view (s))) :
    Ok p g (view (Machine.finishOut s b q idx st out)) := by
  unfold Machine.finishOut
  repeat' first
    | with_reducible assumption
    | with_reducible refine updInFl_ok ?_

end Sys2Proof.Laws
end

