-- ==== Sys2Proof/Laws/KeepStream.lean ====
section
/-!
SUPPORT. What the operations of Machine/Stream.lean keep of the view of Laws/Good.lean.
-/
namespace Sys2Proof.Laws

open Sys2Proof.Machine

variable {p : List Instr} {g : Grade × W64}

theorem popSent_ok {s : _} {b : _} {n : _} (h_s : Ok p g (view (s))) :
    Ok p g (view (Machine.popSent s b n)) := by
  unfold Machine.popSent
  repeat' first
    | with_reducible assumption
    | with_reducible refine State_setCtx_ok ?_

theorem settle_ok {s : _} {b : _} {n : _} (h_s : Ok p g (view (s))) :
    Ok p g (view (Machine.settle s b n)) := by
  unfold Machine.settle
  repeat' first
    | with_reducible assumption
    | with_reducible refine dropEntries_ok ?_
    | with_reducible refine State_setCtx_ok ?_
    | with_reducible refine finish_ok ?_
    | with_reducible refine finishFault_ok ?_
    | with_reducible apply ok_foldl
    | with_reducible apply ok_foldl_fst
    | with_reducible apply ok_ite
    | with_reducible apply ok_ite_fst
    | with_reducible apply ok_ite_snd
    | intro _
    | split
    | (with_reducible refine ok_of_pair (by assumption) ?_)
    | (with_reducible refine ok_of_pair2 (by assumption) ?_)
    | (with_reducible refine ok_of_hres (by assumption) ?_)
    | (with_reducible refine ok_of_opt2 (by assumption) ?_)
    | (with_reducible refine ok_of_some (by assumption) ?_)
    | with_reducible refine ok_findSome _ ?_
    | (simp only [view_mk, view_eta])

theorem failReq_ok {s : _} {b : _} {n : _} {no : _} {st : _} {e : _} (h_s : Ok p g (view (s))) :
    Ok p g (view (Machine.failReq s b n no st e)) := by
  unfold Machine.failReq
  repeat' first
    | with_reducible assumption
    | with_reducible refine State_setCtx_ok ?_
    | with_reducible apply ok_foldl
    | with_reducible apply ok_foldl_fst
    | with_reducible apply ok_ite
    | with_reducible apply ok_ite_fst
    | with_reducible apply ok_ite_snd
    | intro _
    | split
    | (with_reducible refine ok_of_pair (by assumption) ?_)
    | (with_reducible refine ok_of_pair2 (by assumption) ?_)
    | (with_reducible refine ok_of_hres (by assumption) ?_)
    | (with_reducible refine ok_of_opt2 (by assumption) ?_)
    | (with_reducible refine ok_of_some (by assumption) ?_)
    | with_reducible refine ok_findSome _ ?_
    | (simp only [view_mk, view_eta])

theorem reqData_ok {s : _} {b : _} {f : _} {ring : _} {r : _} {bs : _} (h_s : Ok p g (view (s))) :
    Ok p g (view (Machine.reqData s b f ring r bs).1) := by
  unfold Machine.reqData
  repeat' first
    | with_reducible assumption
    | with_reducible refine drewN_ok ?_
    | with_reducible refine setFlags_ok ?_
    | with_reducible apply ok_foldl
    | with_reducible apply ok_foldl_fst
    | with_reducible apply ok_ite
    | with_reducible apply ok_ite_fst
    | with_reducible apply ok_ite_snd
    | intro _

theorem noteOut_ok {s : _} {b : _} {q : _} {idx : _} {bs : _} (h_s : Ok p g (view (s))) :
    Ok p g (view (Machine.noteOut s b q idx bs)) := by
  unfold Machine.noteOut
  repeat' first
    | with_reducible assumption
    | with_reducible refine updInFl_ok ?_

theorem landed_ok {s : _} {b : _} {n : _} (h_s : Ok p g (view (s))) :
    Ok p g (view (Machine.landed s b n)) := by
  unfold Machine.landed
  repeat' first
    | with_reducible assumption
    | with_reducible refine cacheRun_ok ?_
    | with_reducible refine popSent_ok ?_
    | with_reducible refine touch_ok ?_
    | with_reducible refine settle_ok ?_
    | with_reducible refine failReq_ok ?_
    | with_reducible refine reqData_ok ?_
    | with_reducible refine noteOut_ok ?_
    | with_reducible refine wrN_ok ?_
    | with_reducible refine State_setCtx_ok ?_
    | with_reducible apply ok_foldl
    | with_reducible apply ok_foldl_fst
    | with_reducible apply ok_ite
    | with_reducible apply ok_ite_fst
    | with_reducible apply ok_ite_snd
    | intro _
    | split
    | (with_reducible refine ok_of_pair (by assumption) ?_)
    | (with_reducible refine ok_of_pair2 (by assumption) ?_)
    | (with_reducible refine ok_of_hres (by assumption) ?_)
    | (with_reducible refine ok_of_opt2 (by assumption) ?_)
    | (with_reducible refine ok_of_some (by assumption) ?_)
    | with_reducible refine ok_findSome _ ?_
    | (simp only [view_mk, view_eta])

theorem execStreamDataLanded_ok {b : _} {ctx : _} {s : _} (h_s : Ok p g (view (s))) :
    ∀ u, Machine.execStreamDataLanded b ctx s = .next u → Ok p g (view u) := by
  intro u e
  unfold Machine.execStreamDataLanded at e
  first | (have e := Host.Outcome.next.inj e; subst e) | skip
  repeat' first
    | with_reducible assumption
    | with_reducible refine landed_ok ?_

theorem timeoutAer_ok {s : _} {npa : _} (h_s : Ok p g (view (s))) :
    Ok p g (view (Machine.timeoutAer s npa)) := by
  unfold Machine.timeoutAer
  repeat' first
    | with_reducible assumption
    | with_reducible apply ok_foldl
    | with_reducible apply ok_foldl_fst
    | with_reducible apply ok_ite
    | with_reducible apply ok_ite_fst
    | with_reducible apply ok_ite_snd
    | intro _
    | split
    | (with_reducible refine ok_of_pair (by assumption) ?_)
    | (with_reducible refine ok_of_pair2 (by assumption) ?_)
    | (with_reducible refine ok_of_hres (by assumption) ?_)
    | (with_reducible refine ok_of_opt2 (by assumption) ?_)
    | (with_reducible refine ok_of_some (by assumption) ?_)
    | with_reducible refine ok_findSome _ ?_
    | (simp only [view_mk, view_eta])

theorem reqTimeout_ok {s : _} {b : _} {n : _} (h_s : Ok p g (view (s))) :
    Ok p g (view (Machine.reqTimeout s b n)) := by
  unfold Machine.reqTimeout
  repeat' first
    | with_reducible assumption
    | with_reducible refine settle_ok ?_
    | with_reducible refine failReq_ok ?_
    | with_reducible refine popSent_ok ?_
    | with_reducible refine timeoutAer_ok ?_
    | with_reducible apply ok_foldl
    | with_reducible apply ok_foldl_fst
    | with_reducible apply ok_ite
    | with_reducible apply ok_ite_fst
    | with_reducible apply ok_ite_snd
    | intro _
    | split
    | (with_reducible refine ok_of_pair (by assumption) ?_)
    | (with_reducible refine ok_of_pair2 (by assumption) ?_)
    | (with_reducible refine ok_of_hres (by assumption) ?_)
    | (with_reducible refine ok_of_opt2 (by assumption) ?_)
    | (with_reducible refine ok_of_some (by assumption) ?_)
    | with_reducible refine ok_findSome _ ?_
    | (simp only [view_mk, view_eta])

theorem wrote_ok {s : _} {b : _} {n : _} (h_s : Ok p g (view (s))) :
    Ok p g (view (Machine.wrote s b n)) := by
  unfold Machine.wrote
  repeat' first
    | with_reducible assumption
    | with_reducible refine cacheRun_ok ?_
    | with_reducible refine popSent_ok ?_
    | with_reducible refine touch_ok ?_
    | with_reducible refine settle_ok ?_
    | with_reducible refine failReq_ok ?_
    | with_reducible refine reqData_ok ?_
    | with_reducible refine noteOut_ok ?_
    | with_reducible refine wrN_ok ?_
    | with_reducible apply ok_foldl
    | with_reducible apply ok_foldl_fst
    | with_reducible apply ok_ite
    | with_reducible apply ok_ite_fst
    | with_reducible apply ok_ite_snd
    | intro _
    | split
    | (with_reducible refine ok_of_pair (by assumption) ?_)
    | (with_reducible refine ok_of_pair2 (by assumption) ?_)
    | (with_reducible refine ok_of_hres (by assumption) ?_)
    | (with_reducible refine ok_of_opt2 (by assumption) ?_)
    | (with_reducible refine ok_of_some (by assumption) ?_)
    | with_reducible refine ok_findSome _ ?_
    | (simp only [view_mk, view_eta])

theorem clampCheck_ok {s : _} {b : _} {n : _} (h_s : Ok p g (view (s))) :
    Ok p g (view (Machine.clampCheck s b n)) := by
  unfold Machine.clampCheck
  repeat' first
    | with_reducible assumption
    | with_reducible refine record_ok ?_
    | with_reducible refine State_setCtx_ok ?_
    | with_reducible apply ok_foldl
    | with_reducible apply ok_foldl_fst
    | with_reducible apply ok_ite
    | with_reducible apply ok_ite_fst
    | with_reducible apply ok_ite_snd
    | intro _
    | split
    | (with_reducible refine ok_of_pair (by assumption) ?_)
    | (with_reducible refine ok_of_pair2 (by assumption) ?_)
    | (with_reducible refine ok_of_hres (by assumption) ?_)
    | (with_reducible refine ok_of_opt2 (by assumption) ?_)
    | (with_reducible refine ok_of_some (by assumption) ?_)
    | with_reducible refine ok_findSome _ ?_
    | (simp only [view_mk, view_eta])

theorem addPeer_ok {s : _} {b : _} {n : _} {v : _} (h_s : Ok p g (view (s))) :
    Ok p g (view (Machine.addPeer s b n v)) := by
  unfold Machine.addPeer
  repeat' first
    | with_reducible assumption
    | with_reducible refine clampCheck_ok ?_
    | with_reducible refine State_setCtx_ok ?_

theorem execStreamRequestTimeout_ok {b : _} {ctx : _} {s : _} (h_s : Ok p g (view (s))) :
    ∀ u, Machine.execStreamRequestTimeout b ctx s = .next u → Ok p g (view u) := by
  intro u e
  unfold Machine.execStreamRequestTimeout at e
  first | (have e := Host.Outcome.next.inj e; subst e) | skip
  repeat' first
    | with_reducible assumption
    | with_reducible refine reqTimeout_ok ?_

theorem startStream_ok {s : _} {b : _} {n : _} {q : _} {f : _} {ring : _} {a : _} (h_s : Ok p g (view (s))) :
    Ok p g (view (Machine.startStream s b n q f ring a)) := by
  unfold Machine.startStream
  repeat' first
    | with_reducible assumption
    | with_reducible refine updInFl_ok ?_
    | with_reducible refine State_setCtx_ok ?_
    | with_reducible refine clampCheck_ok ?_
    | with_reducible refine settle_ok ?_

theorem streamRun_ok {s : _} {b : _} {f : _} {inbound : _} (h_s : Ok p g (view (s))) :
    Ok p g (view (Machine.streamRun s b f inbound)) := by
  unfold Machine.streamRun
  repeat' first
    | with_reducible assumption
    | with_reducible refine startStream_ok ?_

theorem execSout_ok {b : _} {s : _} (h_s : Ok p g (view (s))) :
    ∀ u, Machine.execSout b s = .next u → Ok p g (view u) := by
  intro u e
  unfold Machine.execSout at e
  first | (have e := Host.Outcome.next.inj e; subst e) | skip
  repeat' first
    | with_reducible assumption
    | with_reducible refine engine_ok ?_ ?_
    | with_reducible refine streamRun_ok ?_
    | with_reducible apply ok_foldl
    | with_reducible apply ok_foldl_fst
    | with_reducible apply ok_ite
    | with_reducible apply ok_ite_fst
    | with_reducible apply ok_ite_snd
    | intro _

theorem execSin_ok {b : _} {s : _} (h_s : Ok p g (view (s))) :
    ∀ u, Machine.execSin b s = .next u → Ok p g (view u) := by
  intro u e
  unfold Machine.execSin at e
  first | (have e := Host.Outcome.next.inj e; subst e) | skip
  repeat' first
    | with_reducible assumption
    | with_reducible refine engine_ok ?_ ?_
    | with_reducible refine streamRun_ok ?_
    | with_reducible apply ok_foldl
    | with_reducible apply ok_foldl_fst
    | with_reducible apply ok_ite
    | with_reducible apply ok_ite_fst
    | with_reducible apply ok_ite_snd
    | intro _

theorem sendLocal_ok {s : _} {b : _} {n : _} {c : _} {a : _} {r : _} {rest : _} (h_s : Ok p g (view (s))) :
    Ok p g (view (Machine.sendLocal s b n c a r rest)) := by
  unfold Machine.sendLocal
  repeat' first
    | with_reducible assumption
    | with_reducible refine State_setCtx_ok ?_
    | with_reducible refine touch_ok ?_
    | with_reducible refine settle_ok ?_
    | with_reducible refine failReq_ok ?_
    | with_reducible apply ok_foldl
    | with_reducible apply ok_foldl_fst
    | with_reducible apply ok_ite
    | with_reducible apply ok_ite_fst
    | with_reducible apply ok_ite_snd
    | intro _
    | split
    | (with_reducible refine ok_of_pair (by assumption) ?_)

theorem execWriteResponse_ok {b : _} {ctx : _} {s : _} (h_s : Ok p g (view (s))) :
    ∀ u, Machine.execWriteResponse b ctx s = .next u → Ok p g (view u) := by
  intro u e
  unfold Machine.execWriteResponse at e
  first | (have e := Host.Outcome.next.inj e; subst e) | skip
  repeat' first
    | with_reducible assumption
    | with_reducible refine wrote_ok ?_

end Sys2Proof.Laws
end

