-- ==== Sys2Proof/Laws/KeepPan.lean ====
section
/-!
SUPPORT. What the operations of Machine/Pan.lean keep of the view of Laws/Good.lean.
-/
namespace Sys2Proof.Laws

open Sys2Proof.Machine

variable {p : List Instr} {g : Grade × W64}

theorem panEngine_ok {s : _} {b : _} {codes : _} {run : _} (h_s : Ok p g (view (s))) (h_run : ∀ v0 v1, Ok p g (view (v0)) → Ok p g (view (run v0 v1))) :
    Ok p g (view (Machine.panEngine s b codes run)) := by
  unfold Machine.panEngine
  repeat' first
    | with_reducible assumption
    | with_reducible refine engine_ok ?_ ?_
    | with_reducible apply h_run
    | with_reducible apply ok_foldl
    | with_reducible apply ok_foldl_fst
    | with_reducible apply ok_ite
    | with_reducible apply ok_ite_fst
    | with_reducible apply ok_ite_snd
    | intro _

theorem panAt_ok {s : _} {op : _} {f : _} {r : _} {npa : _} {x : _} {y : _} (h_s : Ok p g (view (s))) :
    Ok p g (view (Machine.panAt s op f r npa x y).1) := by
  unfold Machine.panAt
  repeat' first
    | with_reducible assumption
    | with_reducible refine touch_ok ?_
    | with_reducible refine wrW_ok ?_
    | with_reducible refine setPanFlags_ok ?_
    | with_reducible apply ok_foldl
    | with_reducible apply ok_foldl_fst
    | with_reducible apply ok_ite
    | with_reducible apply ok_ite_fst
    | with_reducible apply ok_ite_snd
    | intro _
    | split
    | (with_reducible refine ok_of_pair (by assumption) ?_)

theorem panWalk_ok {s : _} {op : _} {t : _} {x : _} {y : _} (h_s : Ok p g (view (s))) :
    Ok p g (view (Machine.panWalk s op t x y).1) := by
  unfold Machine.panWalk
  repeat' first
    | with_reducible assumption
    | with_reducible refine panAt_ok ?_
    | with_reducible apply ok_foldl
    | with_reducible apply ok_foldl_fst
    | with_reducible apply ok_ite
    | with_reducible apply ok_ite_fst
    | with_reducible apply ok_ite_snd
    | intro _
    | split
    | (with_reducible refine ok_of_pair (by assumption) ?_)

theorem panEnd_ok {s : _} {b : _} {f : _} {out : _} {e : _} (h_s : Ok p g (view (s))) :
    Ok p g (view (Machine.panEnd s b f out e)) := by
  unfold Machine.panEnd
  repeat' first
    | with_reducible assumption
    | with_reducible refine finishFault_ok ?_
    | with_reducible refine noteOut_ok ?_
    | with_reducible refine finishOut_ok ?_
    | with_reducible apply ok_foldl
    | with_reducible apply ok_foldl_fst
    | with_reducible apply ok_ite
    | with_reducible apply ok_ite_fst
    | with_reducible apply ok_ite_snd
    | intro _
    | split

theorem panAtomicRun_ok {s : _} {b : _} {f : _} (h_s : Ok p g (view (s))) :
    Ok p g (view (Machine.panAtomicRun s b f)) := by
  unfold Machine.panAtomicRun
  repeat' first
    | with_reducible assumption
    | with_reducible refine withTouch_ok ?_ ?_
    | with_reducible refine panWalk_ok ?_
    | with_reducible refine wrT_ok ?_
    | with_reducible refine panEnd_ok ?_
    | with_reducible apply ok_foldl
    | with_reducible apply ok_foldl_fst
    | with_reducible apply ok_ite
    | with_reducible apply ok_ite_fst
    | with_reducible apply ok_ite_snd
    | intro _
    | split
    | (with_reducible refine ok_of_pair (by assumption) ?_)
    | (with_reducible refine ok_of_pair2 (by assumption) ?_)
    | (with_reducible refine ok_of_hres (by assumption) ?_)
    | (with_reducible refine ok_of_opt2 (by assumption) ?_)
    | (with_reducible refine ok_of_some (by assumption) ?_)
    | with_reducible refine ok_findSome _ ?_
    | (simp only [view_mk, view_eta])

theorem execPanop_ok {b : _} {s : _} (h_s : Ok p g (view (s))) :
    ∀ u, Machine.execPanop b s = .next u → Ok p g (view u) := by
  intro u e
  unfold Machine.execPanop at e
  first | (have e := Host.Outcome.next.inj e; subst e) | skip
  repeat' first
    | with_reducible assumption
    | with_reducible refine panEngine_ok ?_ ?_
    | with_reducible refine panAtomicRun_ok ?_
    | with_reducible apply ok_foldl
    | with_reducible apply ok_foldl_fst
    | with_reducible apply ok_ite
    | with_reducible apply ok_ite_fst
    | with_reducible apply ok_ite_snd
    | intro _

theorem execBopen_ok {b : _} {s : _} (h_s : Ok p g (view (s))) :
    ∀ u, Machine.execBopen b s = .next u → Ok p g (view u) := by
  intro u e
  unfold Machine.execBopen at e
  first | (have e := Host.Outcome.next.inj e; subst e) | skip
  repeat' first
    | with_reducible assumption
    | with_reducible refine panEngine_ok ?_ ?_
    | with_reducible refine finishOut_ok ?_
    | with_reducible apply ok_foldl
    | with_reducible apply ok_foldl_fst
    | with_reducible apply ok_ite
    | with_reducible apply ok_ite_fst
    | with_reducible apply ok_ite_snd
    | intro _

theorem brineAt_ok {s : _} {e : _} {npa : _} {xf : _} {x : _} (h_s : Ok p g (view (s))) :
    Ok p g (view (Machine.brineAt s e npa xf x).1) := by
  unfold Machine.brineAt
  repeat' first
    | with_reducible assumption
    | with_reducible refine touch_ok ?_
    | with_reducible refine wrW_ok ?_
    | with_reducible apply ok_foldl
    | with_reducible apply ok_foldl_fst
    | with_reducible apply ok_ite
    | with_reducible apply ok_ite_fst
    | with_reducible apply ok_ite_snd
    | intro _
    | split
    | (with_reducible refine ok_of_pair (by assumption) ?_)
    | (with_reducible refine ok_of_pair2 (by assumption) ?_)
    | (with_reducible refine ok_of_hres (by assumption) ?_)
    | (with_reducible refine ok_of_opt2 (by assumption) ?_)
    | (with_reducible refine ok_of_some (by assumption) ?_)
    | with_reducible refine ok_findSome _ ?_
    | (simp only [view_mk, view_eta])

theorem zeroTensor_ok {s : _} {d : _} (h_s : Ok p g (view (s))) :
    Ok p g (view (Machine.zeroTensor s d).1) := by
  unfold Machine.zeroTensor
  repeat' first
    | with_reducible assumption
    | with_reducible refine touch_ok ?_
    | with_reducible refine wrN_ok ?_
    | with_reducible apply ok_foldl
    | with_reducible apply ok_foldl_fst
    | with_reducible apply ok_ite
    | with_reducible apply ok_ite_fst
    | with_reducible apply ok_ite_snd
    | intro _
    | split
    | (with_reducible refine ok_of_pair (by assumption) ?_)

theorem copyRun_ok {s : _} {b : _} {f : _} (h_s : Ok p g (view (s))) :
    Ok p g (view (Machine.copyRun s b f)) := by
  unfold Machine.copyRun
  repeat' first
    | with_reducible assumption
    | with_reducible refine touch_ok ?_
    | with_reducible refine wrN_ok ?_
    | with_reducible refine panEnd_ok ?_
    | with_reducible apply ok_foldl
    | with_reducible apply ok_foldl_fst
    | with_reducible apply ok_ite
    | with_reducible apply ok_ite_fst
    | with_reducible apply ok_ite_snd
    | intro _
    | split
    | (with_reducible refine ok_of_pair (by assumption) ?_)

theorem execCopy_ok {b : _} {s : _} (h_s : Ok p g (view (s))) :
    ∀ u, Machine.execCopy b s = .next u → Ok p g (view u) := by
  intro u e
  unfold Machine.execCopy at e
  first | (have e := Host.Outcome.next.inj e; subst e) | skip
  repeat' first
    | with_reducible assumption
    | with_reducible refine panEngine_ok ?_ ?_
    | with_reducible refine copyRun_ok ?_
    | with_reducible apply ok_foldl
    | with_reducible apply ok_foldl_fst
    | with_reducible apply ok_ite
    | with_reducible apply ok_ite_fst
    | with_reducible apply ok_ite_snd
    | intro _

theorem brineWalk_ok {s : _} {e : _} {t : _} {xf : _} {x : _} (h_s : Ok p g (view (s))) :
    Ok p g (view (Machine.brineWalk s e t xf x).1) := by
  unfold Machine.brineWalk
  repeat' first
    | with_reducible assumption
    | with_reducible refine brineAt_ok ?_
    | with_reducible apply ok_foldl
    | with_reducible apply ok_foldl_fst
    | with_reducible apply ok_ite
    | with_reducible apply ok_ite_fst
    | with_reducible apply ok_ite_snd
    | intro _
    | split

theorem baddRun_ok {s : _} {b : _} {f : _} (h_s : Ok p g (view (s))) :
    Ok p g (view (Machine.baddRun s b f)) := by
  unfold Machine.baddRun
  repeat' first
    | with_reducible assumption
    | with_reducible refine withTouch_ok ?_ ?_
    | with_reducible refine panEnd_ok ?_
    | with_reducible refine brineWalk_ok ?_
    | with_reducible apply ok_foldl
    | with_reducible apply ok_foldl_fst
    | with_reducible apply ok_ite
    | with_reducible apply ok_ite_fst
    | with_reducible apply ok_ite_snd
    | intro _
    | split

theorem execBclose_ok {b : _} {s : _} (h_s : Ok p g (view (s))) :
    ∀ u, Machine.execBclose b s = .next u → Ok p g (view u) := by
  intro u e
  unfold Machine.execBclose at e
  first | (have e := Host.Outcome.next.inj e; subst e) | skip
  repeat' first
    | with_reducible assumption
    | with_reducible refine panEngine_ok ?_ ?_
    | with_reducible refine finish_ok ?_
    | with_reducible apply ok_foldl
    | with_reducible apply ok_foldl_fst
    | with_reducible apply ok_ite
    | with_reducible apply ok_ite_fst
    | with_reducible apply ok_ite_snd
    | intro _
    | split
    | (with_reducible refine ok_of_pair (by assumption) ?_)
    | (with_reducible refine ok_of_pair2 (by assumption) ?_)
    | (with_reducible refine ok_of_hres (by assumption) ?_)
    | (with_reducible refine ok_of_opt2 (by assumption) ?_)
    | (with_reducible refine ok_of_some (by assumption) ?_)
    | with_reducible refine ok_findSome _ ?_
    | (simp only [view_mk, view_eta])

theorem bcrystRun_ok {s : _} {b : _} {f : _} (h_s : Ok p g (view (s))) :
    Ok p g (view (Machine.bcrystRun s b f)) := by
  unfold Machine.bcrystRun
  repeat' first
    | with_reducible assumption
    | with_reducible refine panEnd_ok ?_
    | with_reducible refine withTouch_ok ?_ ?_
    | with_reducible refine wrT_ok ?_
    | with_reducible refine setPanFlags_ok ?_
    | with_reducible refine drewN_ok ?_
    | with_reducible apply ok_foldl
    | with_reducible apply ok_foldl_fst
    | with_reducible apply ok_ite
    | with_reducible apply ok_ite_fst
    | with_reducible apply ok_ite_snd
    | intro _
    | split
    | (with_reducible refine ok_of_pair (by assumption) ?_)
    | (with_reducible refine ok_of_pair2 (by assumption) ?_)
    | (with_reducible refine ok_of_hres (by assumption) ?_)
    | (with_reducible refine ok_of_opt2 (by assumption) ?_)
    | (with_reducible refine ok_of_some (by assumption) ?_)
    | with_reducible refine ok_findSome _ ?_
    | (simp only [view_mk, view_eta])

theorem execBcryst_ok {b : _} {s : _} (h_s : Ok p g (view (s))) :
    ∀ u, Machine.execBcryst b s = .next u → Ok p g (view u) := by
  intro u e
  unfold Machine.execBcryst at e
  first | (have e := Host.Outcome.next.inj e; subst e) | skip
  repeat' first
    | with_reducible assumption
    | with_reducible refine panEngine_ok ?_ ?_
    | with_reducible refine bcrystRun_ok ?_
    | with_reducible apply ok_foldl
    | with_reducible apply ok_foldl_fst
    | with_reducible apply ok_ite
    | with_reducible apply ok_ite_fst
    | with_reducible apply ok_ite_snd
    | intro _

theorem openArray_ok {s : _} {d : _} {coll : _} (h_s : Ok p g (view (s))) :
    Ok p g (view (Machine.openArray s d coll).1) := by
  unfold Machine.openArray
  repeat' first
    | with_reducible assumption
    | with_reducible refine touch_ok ?_
    | with_reducible refine zeroTensor_ok ?_
    | with_reducible apply ok_foldl
    | with_reducible apply ok_foldl_fst
    | with_reducible apply ok_ite
    | with_reducible apply ok_ite_fst
    | with_reducible apply ok_ite_snd
    | intro _
    | split
    | (with_reducible refine ok_of_pair (by assumption) ?_)
    | (with_reducible refine ok_of_pair2 (by assumption) ?_)
    | (with_reducible refine ok_of_hres (by assumption) ?_)
    | (with_reducible refine ok_of_opt2 (by assumption) ?_)
    | (with_reducible refine ok_of_some (by assumption) ?_)
    | with_reducible refine ok_findSome _ ?_
    | (simp only [view_mk, view_eta])

theorem rowsRun_ok {s : _} {b : _} {f : _} {gather : _} (h_s : Ok p g (view (s))) :
    Ok p g (view (Machine.rowsRun s b f gather)) := by
  unfold Machine.rowsRun
  repeat' first
    | with_reducible assumption
    | with_reducible refine withTouch_ok ?_ ?_
    | with_reducible refine finish_ok ?_
    | with_reducible refine startStream_ok ?_
    | with_reducible apply ok_foldl
    | with_reducible apply ok_foldl_fst
    | with_reducible apply ok_ite
    | with_reducible apply ok_ite_fst
    | with_reducible apply ok_ite_snd
    | intro _

theorem execScatter_ok {b : _} {s : _} (h_s : Ok p g (view (s))) :
    ∀ u, Machine.execScatter b s = .next u → Ok p g (view u) := by
  intro u e
  unfold Machine.execScatter at e
  first | (have e := Host.Outcome.next.inj e; subst e) | skip
  repeat' first
    | with_reducible assumption
    | with_reducible refine engine_ok ?_ ?_
    | with_reducible refine rowsRun_ok ?_
    | with_reducible apply ok_foldl
    | with_reducible apply ok_foldl_fst
    | with_reducible apply ok_ite
    | with_reducible apply ok_ite_fst
    | with_reducible apply ok_ite_snd
    | intro _

theorem execBadd_ok {b : _} {s : _} (h_s : Ok p g (view (s))) :
    ∀ u, Machine.execBadd b s = .next u → Ok p g (view u) := by
  intro u e
  unfold Machine.execBadd at e
  first | (have e := Host.Outcome.next.inj e; subst e) | skip
  repeat' first
    | with_reducible assumption
    | with_reducible refine panEngine_ok ?_ ?_
    | with_reducible refine baddRun_ok ?_
    | with_reducible apply ok_foldl
    | with_reducible apply ok_foldl_fst
    | with_reducible apply ok_ite
    | with_reducible apply ok_ite_fst
    | with_reducible apply ok_ite_snd
    | intro _

theorem digestRun_ok {s : _} {b : _} {f : _} (h_s : Ok p g (view (s))) :
    Ok p g (view (Machine.digestRun s b f)) := by
  unfold Machine.digestRun
  repeat' first
    | with_reducible assumption
    | with_reducible refine withTouch_ok ?_ ?_
    | with_reducible refine wrT_ok ?_
    | with_reducible refine panEnd_ok ?_
    | with_reducible apply ok_foldl
    | with_reducible apply ok_foldl_fst
    | with_reducible apply ok_ite
    | with_reducible apply ok_ite_fst
    | with_reducible apply ok_ite_snd
    | intro _

theorem execDigest_ok {b : _} {s : _} (h_s : Ok p g (view (s))) :
    ∀ u, Machine.execDigest b s = .next u → Ok p g (view u) := by
  intro u e
  unfold Machine.execDigest at e
  first | (have e := Host.Outcome.next.inj e; subst e) | skip
  repeat' first
    | with_reducible assumption
    | with_reducible refine panEngine_ok ?_ ?_
    | with_reducible refine digestRun_ok ?_
    | with_reducible apply ok_foldl
    | with_reducible apply ok_foldl_fst
    | with_reducible apply ok_ite
    | with_reducible apply ok_ite_fst
    | with_reducible apply ok_ite_snd
    | intro _

theorem execRedinto_ok {b : _} {s : _} (h_s : Ok p g (view (s))) :
    ∀ u, Machine.execRedinto b s = .next u → Ok p g (view u) := by
  intro u e
  unfold Machine.execRedinto at e
  first | (have e := Host.Outcome.next.inj e; subst e) | skip
  repeat' first
    | with_reducible assumption
    | with_reducible refine panEngine_ok ?_ ?_
    | with_reducible refine baddRun_ok ?_
    | with_reducible refine panAtomicRun_ok ?_
    | with_reducible apply ok_foldl
    | with_reducible apply ok_foldl_fst
    | with_reducible apply ok_ite
    | with_reducible apply ok_ite_fst
    | with_reducible apply ok_ite_snd
    | intro _

theorem updEnt_ok {s : _} {e : _} {a2 : _} (h_s : Ok p g (view (s))) :
    Ok p g (view (Machine.updEnt s e a2)) := by
  unfold Machine.updEnt
  repeat' first
    | with_reducible assumption
    | with_reducible apply ok_foldl
    | with_reducible apply ok_foldl_fst
    | with_reducible apply ok_ite
    | with_reducible apply ok_ite_fst
    | with_reducible apply ok_ite_snd
    | intro _
    | split
    | (with_reducible refine ok_of_pair (by assumption) ?_)
    | (with_reducible refine ok_of_pair2 (by assumption) ?_)
    | (with_reducible refine ok_of_hres (by assumption) ?_)
    | (with_reducible refine ok_of_opt2 (by assumption) ?_)
    | (with_reducible refine ok_of_some (by assumption) ?_)
    | with_reducible refine ok_findSome _ ?_
    | (simp only [view_mk, view_eta])

theorem execGather_ok {b : _} {s : _} (h_s : Ok p g (view (s))) :
    ∀ u, Machine.execGather b s = .next u → Ok p g (view u) := by
  intro u e
  unfold Machine.execGather at e
  first | (have e := Host.Outcome.next.inj e; subst e) | skip
  repeat' first
    | with_reducible assumption
    | with_reducible refine engine_ok ?_ ?_
    | with_reducible refine rowsRun_ok ?_
    | with_reducible apply ok_foldl
    | with_reducible apply ok_foldl_fst
    | with_reducible apply ok_ite
    | with_reducible apply ok_ite_fst
    | with_reducible apply ok_ite_snd
    | intro _

theorem panAtIssue_ok {s : _} {f : _} (h_s : Ok p g (view (s))) :
    Ok p g (view (Machine.panAtIssue s f).1) := by
  unfold Machine.panAtIssue
  repeat' first
    | with_reducible assumption
    | with_reducible refine openArray_ok ?_
    | with_reducible refine updEnt_ok ?_
    | with_reducible apply ok_foldl
    | with_reducible apply ok_foldl_fst
    | with_reducible apply ok_ite
    | with_reducible apply ok_ite_fst
    | with_reducible apply ok_ite_snd
    | intro _
    | split
    | (with_reducible refine ok_of_pair (by assumption) ?_)

end Sys2Proof.Laws
end

