-- ==== Sys2Proof/Laws/KeepTrap.lean ====
section
/-!
SUPPORT. What the operations of Machine/Trap.lean keep of the view of Laws/Good.lean.
-/
namespace Sys2Proof.Laws

open Sys2Proof.Machine

variable {p : List Instr} {g : Grade × W64}

theorem takeTrap_ok {s : _} {a1 : _} {intr : _} {code : _} {tval : _} (h_s : Ok p g (view (s))) :
    Ok p g (view (Machine.takeTrap s a1 intr code tval)) := by
  unfold Machine.takeTrap
  repeat' first
    | with_reducible assumption
    | with_reducible refine State_updHart_ok ?_

theorem serveIntr_ok {s : _} {a1 : _} (h_s : Ok p g (view (s))) :
    Ok p g (view (Machine.serveIntr s a1)) := by
  unfold Machine.serveIntr
  repeat' first
    | with_reducible assumption
    | with_reducible refine State_updHart_ok ?_
    | with_reducible refine takeTrap_ok ?_
    | with_reducible apply ok_foldl
    | with_reducible apply ok_foldl_fst
    | with_reducible apply ok_ite
    | with_reducible apply ok_ite_fst
    | with_reducible apply ok_ite_snd
    | intro _
    | split

theorem countRetired_ok {s : _} {a1 : _} (h_s : Ok p g (view (s))) :
    Ok p g (view (Machine.countRetired s a1)) := by
  unfold Machine.countRetired
  repeat' first
    | with_reducible assumption
    | with_reducible refine State_updHart_ok ?_

theorem hartRecord_ok {s : _} {a1 : _} {st : _} {code : _} {va : _} (h_s : Ok p g (view (s))) :
    Ok p g (view (Machine.hartRecord s a1 st code va)) := by
  unfold Machine.hartRecord
  repeat' first
    | with_reducible assumption
    | with_reducible refine record_ok ?_

theorem hartAnswer_ok {s : _} {a1 : _} {st : _} {v : _} (h_s : Ok p g (view (s))) :
    Ok p g (view (Machine.hartAnswer s a1 st v)) := by
  unfold Machine.hartAnswer
  repeat' first
    | with_reducible assumption
    | with_reducible refine countRetired_ok ?_
    | with_reducible refine State_setHart_ok ?_
    | with_reducible refine takeTrap_ok ?_
    | with_reducible refine hartRecord_ok ?_
    | with_reducible apply ok_foldl
    | with_reducible apply ok_foldl_fst
    | with_reducible apply ok_ite
    | with_reducible apply ok_ite_fst
    | with_reducible apply ok_ite_snd
    | intro _
    | split
    | (with_reducible refine ok_of_pair (by assumption) ?_)
    | (with_reducible refine ok_of_pair2 (by assumption) ?_)
    | (with_reducible refine ok_of_hres (by assumption) ?_)
    | (with_reducible refine ok_of_opt2 (by assumption) ?_)
    | (with_reducible refine ok_of_some (by assumption) ?_)
    | with_reducible refine ok_findSome _ ?_
    | (simp only [view_mk, view_eta])

theorem retire_ok {s : _} {a1 : _} {len : _} {f : _} (h_s : Ok p g (view (s))) :
    Ok p g (view (resState (Machine.retire s a1 len f))) := by
  unfold Machine.retire
  repeat' first
    | with_reducible assumption
    | with_reducible refine State_updHart_ok ?_
    | with_reducible apply ok_foldl
    | with_reducible apply ok_foldl_fst
    | with_reducible apply ok_ite
    | with_reducible apply ok_ite_fst
    | with_reducible apply ok_ite_snd
    | intro _
    | split
    | (with_reducible refine ok_of_pair (by assumption) ?_)
    | (with_reducible refine ok_of_pair2 (by assumption) ?_)
    | (with_reducible refine ok_of_hres (by assumption) ?_)
    | (with_reducible refine ok_of_opt2 (by assumption) ?_)
    | (with_reducible refine ok_of_some (by assumption) ?_)
    | with_reducible refine ok_findSome _ ?_
    | (simp only [view_mk, view_eta])
    | dsimp only
    | with_reducible apply ok_ite_res
    | (simp only [resState_done, resState_trap, resState_wait])

theorem hartFail_ok {s : _} {a1 : _} {no : _} {st : _} {op : _} {node : _} (h_s : Ok p g (view (s))) :
    Ok p g (view (Machine.hartFail s a1 no st op node)) := by
  unfold Machine.hartFail
  repeat' first
    | with_reducible assumption
    | with_reducible refine hartRecord_ok ?_
    | with_reducible refine State_setHart_ok ?_
    | with_reducible refine hartAnswer_ok ?_
    | with_reducible apply ok_foldl
    | with_reducible apply ok_foldl_fst
    | with_reducible apply ok_ite
    | with_reducible apply ok_ite_fst
    | with_reducible apply ok_ite_snd
    | intro _

theorem HRes_settle_ok {r : _} {a1 : _} (h_r : Ok p g (view (resState (r)))) :
    Ok p g (view (Machine.HRes.settle r a1)) := by
  cases r with
  | done s => exact countRetired_ok h_r
  | trap s c v => exact takeTrap_ok h_r
  | wait s => exact h_r

theorem illegal_ok {s : _} {w : _} (h_s : Ok p g (view (s))) :
    Ok p g (view (resState (Machine.illegal s w))) := by
  unfold Machine.illegal
  repeat' first
    | with_reducible assumption
    | with_reducible apply ok_foldl
    | with_reducible apply ok_foldl_fst
    | with_reducible apply ok_ite
    | with_reducible apply ok_ite_fst
    | with_reducible apply ok_ite_snd
    | intro _
    | split
    | (with_reducible refine ok_of_pair (by assumption) ?_)
    | (with_reducible refine ok_of_pair2 (by assumption) ?_)
    | (with_reducible refine ok_of_hres (by assumption) ?_)
    | (with_reducible refine ok_of_opt2 (by assumption) ?_)
    | (with_reducible refine ok_of_some (by assumption) ?_)
    | with_reducible refine ok_findSome _ ?_
    | (simp only [view_mk, view_eta])
    | dsimp only
    | with_reducible apply ok_ite_res
    | (simp only [resState_done, resState_trap, resState_wait])

theorem hartAcked_ok {s : _} {a1 : _} {no : _} (h_s : Ok p g (view (s))) :
    Ok p g (view (Machine.hartAcked s a1 no)) := by
  unfold Machine.hartAcked
  repeat' first
    | with_reducible assumption
    | with_reducible refine State_updHart_ok ?_

end Sys2Proof.Laws
end

