-- ==== Sys2Proof/Laws/KeepRemote.lean ====
section
/-!
SUPPORT. What the operations of Machine/Remote.lean keep of the view of Laws/Good.lean.
-/
namespace Sys2Proof.Laws

open Sys2Proof.Machine

variable {p : List Instr} {g : Grade × W64}

theorem dropReq_ok {s : _} {b : _} {n : _} {no : _} (h_s : Ok p g (view (s))) :
    Ok p g (view (Machine.dropReq s b n no)) := by
  unfold Machine.dropReq
  repeat' first
    | with_reducible assumption
    | with_reducible refine State_setCtx_ok ?_

theorem getLanded_ok {s : _} {b : _} {f : _} {n : _} {no : _} {bs : _} (h_s : Ok p g (view (s))) :
    Ok p g (view (Machine.getLanded s b f n no bs)) := by
  unfold Machine.getLanded
  repeat' first
    | with_reducible assumption
    | with_reducible refine dropReq_ok ?_
    | with_reducible refine touch_ok ?_
    | with_reducible refine settle_ok ?_
    | with_reducible refine failReq_ok ?_
    | with_reducible refine noteOut_ok ?_
    | with_reducible refine wrN_ok ?_
    | with_reducible refine State_setCtx_ok ?_
    | with_reducible apply ok_foldl
    | with_reducible apply ok_foldl_fst
    | with_reducible apply ok_ite
    | with_reducible apply ok_ite_fst
    | with_reducible apply ok_ite_snd
    | intro _
    | split
    | (with_reducible refine ok_of_pair (by assumption) ?_)
    | (with_reducible refine ok_of_pair2 (by assumption) ?_)
    | (with_reducible refine ok_of_hres (by assumption) ?_)
    | (with_reducible refine ok_of_opt2 (by assumption) ?_)
    | (with_reducible refine ok_of_some (by assumption) ?_)
    | with_reducible refine ok_findSome _ ?_
    | (simp only [view_mk, view_eta])

theorem ackOrigin_ok {s : _} {org : _} {op : _} (h_s : Ok p g (view (s))) :
    Ok p g (view (Machine.ackOrigin s org op)) := by
  unfold Machine.ackOrigin
  repeat' first
    | with_reducible assumption
    | with_reducible refine settle_ok ?_
    | with_reducible refine dropReq_ok ?_
    | with_reducible refine hartAcked_ok ?_
    | with_reducible apply ok_foldl
    | with_reducible apply ok_foldl_fst
    | with_reducible apply ok_ite
    | with_reducible apply ok_ite_fst
    | with_reducible apply ok_ite_snd
    | intro _
    | split
    | (with_reducible refine ok_of_pair (by assumption) ?_)
    | (with_reducible refine ok_of_pair2 (by assumption) ?_)
    | (with_reducible refine ok_of_hres (by assumption) ?_)
    | (with_reducible refine ok_of_opt2 (by assumption) ?_)
    | (with_reducible refine ok_of_some (by assumption) ?_)
    | with_reducible refine ok_findSome _ ?_
    | (simp only [view_mk, view_eta])

theorem ratomRun_ok {s : _} {b : _} {f : _} (h_s : Ok p g (view (s))) :
    Ok p g (view (Machine.ratomRun s b f)) := by
  unfold Machine.ratomRun
  repeat' first
    | with_reducible assumption
    | with_reducible refine withTouch_ok ?_ ?_
    | with_reducible refine sendData_ok ?_
    | with_reducible refine finish_ok ?_
    | with_reducible refine updInFl_ok ?_
    | with_reducible apply ok_foldl
    | with_reducible apply ok_foldl_fst
    | with_reducible apply ok_ite
    | with_reducible apply ok_ite_fst
    | with_reducible apply ok_ite_snd
    | intro _

theorem execRatom_ok {b : _} {s : _} (h_s : Ok p g (view (s))) :
    ∀ u, Machine.execRatom b s = .next u → Ok p g (view u) := by
  intro u e
  unfold Machine.execRatom at e
  first | (have e := Host.Outcome.next.inj e; subst e) | skip
  repeat' first
    | with_reducible assumption
    | with_reducible refine engine_ok ?_ ?_
    | with_reducible refine ratomRun_ok ?_
    | with_reducible apply ok_foldl
    | with_reducible apply ok_foldl_fst
    | with_reducible apply ok_ite
    | with_reducible apply ok_ite_fst
    | with_reducible apply ok_ite_snd
    | intro _

theorem sendRemote_ok {s : _} {b : _} {n : _} {c : _} {a : _} {r : _} {rest : _} (h_s : Ok p g (view (s))) :
    Ok p g (view (Machine.sendRemote s b n c a r rest)) := by
  unfold Machine.sendRemote
  repeat' first
    | with_reducible assumption
    | with_reducible refine sendData_ok ?_
    | with_reducible refine State_setCtx_ok ?_
    | with_reducible refine touch_ok ?_
    | with_reducible refine settle_ok ?_
    | with_reducible refine failReq_ok ?_
    | with_reducible refine enqueue_ok ?_
    | with_reducible apply ok_foldl
    | with_reducible apply ok_foldl_fst
    | with_reducible apply ok_ite
    | with_reducible apply ok_ite_fst
    | with_reducible apply ok_ite_snd
    | intro _
    | split
    | (with_reducible refine ok_of_pair (by assumption) ?_)
    | (with_reducible refine ok_of_pair2 (by assumption) ?_)
    | (with_reducible refine ok_of_hres (by assumption) ?_)
    | (with_reducible refine ok_of_opt2 (by assumption) ?_)
    | (with_reducible refine ok_of_some (by assumption) ?_)
    | with_reducible refine ok_findSome _ ?_
    | (simp only [view_mk, view_eta])

theorem rmtRun_ok {s : _} {b : _} {f : _} (h_s : Ok p g (view (s))) :
    Ok p g (view (Machine.rmtRun s b f)) := by
  unfold Machine.rmtRun
  repeat' first
    | with_reducible assumption
    | with_reducible refine startStream_ok ?_

theorem execRred_ok {b : _} {s : _} (h_s : Ok p g (view (s))) :
    ∀ u, Machine.execRred b s = .next u → Ok p g (view u) := by
  intro u e
  unfold Machine.execRred at e
  first | (have e := Host.Outcome.next.inj e; subst e) | skip
  repeat' first
    | with_reducible assumption
    | with_reducible refine engine_ok ?_ ?_
    | with_reducible refine rmtRun_ok ?_
    | with_reducible apply ok_foldl
    | with_reducible apply ok_foldl_fst
    | with_reducible apply ok_ite
    | with_reducible apply ok_ite_fst
    | with_reducible apply ok_ite_snd
    | intro _

theorem execGet_ok {b : _} {s : _} (h_s : Ok p g (view (s))) :
    ∀ u, Machine.execGet b s = .next u → Ok p g (view u) := by
  intro u e
  unfold Machine.execGet at e
  first | (have e := Host.Outcome.next.inj e; subst e) | skip
  repeat' first
    | with_reducible assumption
    | with_reducible refine engine_ok ?_ ?_
    | with_reducible refine rmtRun_ok ?_
    | with_reducible apply ok_foldl
    | with_reducible apply ok_foldl_fst
    | with_reducible apply ok_ite
    | with_reducible apply ok_ite_fst
    | with_reducible apply ok_ite_snd
    | intro _

theorem ratomAnswer_ok {s : _} {b : _} {idx : _} {st : _} {e : _} (h_s : Ok p g (view (s))) :
    Ok p g (view (Machine.ratomAnswer s b idx st e)) := by
  unfold Machine.ratomAnswer
  repeat' first
    | with_reducible assumption
    | with_reducible refine updInFl_ok ?_

theorem failOrigin_ok {s : _} {org : _} {op : _} {node : _} {st : _} {code : _} (h_s : Ok p g (view (s))) :
    Ok p g (view (Machine.failOrigin s org op node st code)) := by
  unfold Machine.failOrigin
  repeat' first
    | with_reducible assumption
    | with_reducible refine ratomAnswer_ok ?_
    | with_reducible refine updInFl_ok ?_
    | with_reducible refine failReq_ok ?_
    | with_reducible refine dropReq_ok ?_
    | with_reducible refine settle_ok ?_
    | with_reducible refine hartFail_ok ?_
    | with_reducible apply ok_foldl
    | with_reducible apply ok_foldl_fst
    | with_reducible apply ok_ite
    | with_reducible apply ok_ite_fst
    | with_reducible apply ok_ite_snd
    | intro _
    | split

theorem execPut_ok {b : _} {s : _} (h_s : Ok p g (view (s))) :
    ∀ u, Machine.execPut b s = .next u → Ok p g (view u) := by
  intro u e
  unfold Machine.execPut at e
  first | (have e := Host.Outcome.next.inj e; subst e) | skip
  repeat' first
    | with_reducible assumption
    | with_reducible refine engine_ok ?_ ?_
    | with_reducible refine rmtRun_ok ?_
    | with_reducible apply ok_foldl
    | with_reducible apply ok_foldl_fst
    | with_reducible apply ok_ite
    | with_reducible apply ok_ite_fst
    | with_reducible apply ok_ite_snd
    | intro _

theorem execMcast_ok {b : _} {s : _} (h_s : Ok p g (view (s))) :
    ∀ u, Machine.execMcast b s = .next u → Ok p g (view u) := by
  intro u e
  unfold Machine.execMcast at e
  first | (have e := Host.Outcome.next.inj e; subst e) | skip
  repeat' first
    | with_reducible assumption
    | with_reducible refine engine_ok ?_ ?_
    | with_reducible refine rmtRun_ok ?_
    | with_reducible apply ok_foldl
    | with_reducible apply ok_foldl_fst
    | with_reducible apply ok_ite
    | with_reducible apply ok_ite_fst
    | with_reducible apply ok_ite_snd
    | intro _

theorem ratomOlds_ok {s : _} {b : _} {f : _} {no : _} {bs : _} (h_s : Ok p g (view (s))) :
    Ok p g (view (Machine.ratomOlds s b f no bs)) := by
  unfold Machine.ratomOlds
  repeat' first
    | with_reducible assumption
    | with_reducible refine ratomAnswer_ok ?_
    | with_reducible refine touch_ok ?_
    | with_reducible refine wrN_ok ?_
    | with_reducible refine noteOut_ok ?_
    | with_reducible apply ok_foldl
    | with_reducible apply ok_foldl_fst
    | with_reducible apply ok_ite
    | with_reducible apply ok_ite_fst
    | with_reducible apply ok_ite_snd
    | intro _
    | split
    | (with_reducible refine ok_of_pair (by assumption) ?_)
    | (with_reducible refine ok_of_pair2 (by assumption) ?_)
    | (with_reducible refine ok_of_hres (by assumption) ?_)
    | (with_reducible refine ok_of_opt2 (by assumption) ?_)
    | (with_reducible refine ok_of_some (by assumption) ?_)
    | with_reducible refine ok_findSome _ ?_
    | (simp only [view_mk, view_eta])

end Sys2Proof.Laws
end

