-- ==== Sys2Proof/Laws/KeepColl.lean ====
section
/-!
SUPPORT. What the operations of Machine/Coll.lean keep of the view of Laws/Good.lean.
-/
namespace Sys2Proof.Laws

open Sys2Proof.Machine

variable {p : List Instr} {g : Grade × W64}

theorem grant_ok {s : _} {b : _} (h_s : Ok p g (view (s))) :
    Ok p g (view (Machine.grant s b)) := by
  unfold Machine.grant
  repeat' first
    | with_reducible assumption
    | with_reducible refine State_setBlk_ok ?_
    | with_reducible refine sendRemote_ok ?_
    | with_reducible refine sendLocal_ok ?_
    | with_reducible apply ok_foldl
    | with_reducible apply ok_foldl_fst
    | with_reducible apply ok_ite
    | with_reducible apply ok_ite_fst
    | with_reducible apply ok_ite_snd
    | intro _
    | split
    | (with_reducible refine ok_of_pair (by assumption) ?_)
    | (with_reducible refine ok_of_pair2 (by assumption) ?_)
    | (with_reducible refine ok_of_hres (by assumption) ?_)
    | (with_reducible refine ok_of_opt2 (by assumption) ?_)
    | (with_reducible refine ok_of_some (by assumption) ?_)
    | with_reducible refine ok_findSome _ ?_
    | (simp only [view_mk, view_eta])

theorem combineAt_ok {s : _} {red : _} {f : _} {npa : _} {data : _} (h_s : Ok p g (view (s))) :
    Ok p g (view (Machine.combineAt s red f npa data)) := by
  unfold Machine.combineAt
  repeat' first
    | with_reducible assumption
    | with_reducible refine wrRow_ok ?_

theorem collTodo_ok {s : _} {b : _} {l : _} (h_s : Ok p g (view (s))) :
    Ok p g (view (Machine.collTodo s b l)) := by
  unfold Machine.collTodo
  repeat' first
    | with_reducible assumption
    | with_reducible refine State_setCtx_ok ?_
    | with_reducible apply ok_foldl
    | with_reducible apply ok_foldl_fst
    | with_reducible apply ok_ite
    | with_reducible apply ok_ite_fst
    | with_reducible apply ok_ite_snd
    | intro _
    | split
    | (with_reducible refine ok_of_pair (by assumption) ?_)
    | (with_reducible refine ok_of_pair2 (by assumption) ?_)
    | (with_reducible refine ok_of_hres (by assumption) ?_)
    | (with_reducible refine ok_of_opt2 (by assumption) ?_)
    | (with_reducible refine ok_of_some (by assumption) ?_)
    | with_reducible refine ok_findSome _ ?_
    | (simp only [view_mk, view_eta])

theorem collLand_ok {s : _} {b : _} {k : _} {src : _} {op : _} {off : _} {bs : _} {last : _} {len : _} (h_s : Ok p g (view (s))) :
    Ok p g (view (Machine.collLand s b k src op off bs last len).1) := by
  unfold Machine.collLand
  repeat' first
    | with_reducible assumption
    | with_reducible refine touch_ok ?_
    | with_reducible refine wrN_ok ?_
    | with_reducible refine combineAt_ok ?_
    | with_reducible refine brineAt_ok ?_
    | with_reducible refine updHedge_ok ?_
    | with_reducible refine collTodo_ok ?_
    | with_reducible apply ok_foldl
    | with_reducible apply ok_foldl_fst
    | with_reducible apply ok_ite
    | with_reducible apply ok_ite_fst
    | with_reducible apply ok_ite_snd
    | intro _
    | split
    | (with_reducible refine ok_of_pair (by assumption) ?_)

theorem putRaws_ok {s : _} {d : _} {lo : _} {raws : _} (h_s : Ok p g (view (s))) :
    Ok p g (view (Machine.putRaws s d lo raws)) := by
  unfold Machine.putRaws
  repeat' first
    | with_reducible assumption
    | with_reducible refine wrT_ok ?_

theorem collFlags_ok {s : _} {k : _} {l : _} (h_s : Ok p g (view (s))) :
    Ok p g (view (Machine.collFlags s k l)) := by
  unfold Machine.collFlags
  repeat' first
    | with_reducible assumption
    | with_reducible refine setPanFlags_ok ?_
    | with_reducible apply ok_foldl
    | with_reducible apply ok_foldl_fst
    | with_reducible apply ok_ite
    | with_reducible apply ok_ite_fst
    | with_reducible apply ok_ite_snd
    | intro _

theorem phaseStep_ok {s : _} {b : _} {k : _} {a3 : _} (h_s : Ok p g (view (s))) :
    ∀ u, Machine.phaseStep s b k a3 = some u → Ok p g (view (u)) := by
  intro u e
  cases a3 with
  | up region root =>
    dsimp only [phaseStep] at e
    split at e
    · split at e
      · exact Option.some.inj e ▸ h_s
      · exact Option.some.inj e ▸ collTodo_ok h_s
    · cases e
  | down region root =>
    dsimp only [phaseStep] at e
    split at e
    · refine Option.some.inj e ▸ collTodo_ok ?_
      exact ok_ite (fun _ => putRaws_ok h_s) fun _ => h_s
    · split at e
      · exact Option.some.inj e ▸ h_s
      · cases e
  | conv =>
    dsimp only [phaseStep] at e
    refine Option.some.inj e ▸ ok_foldl _ h_s fun t i h => ?_
    split
    · exact brineAt_ok h
    · exact h
  | scan j =>
    dsimp only [phaseStep] at e
    split at e
    · split at e
      · exact Option.some.inj e ▸ putRaws_ok (collTodo_ok h_s)
      · cases e
    · exact Option.some.inj e ▸ collTodo_ok h_s
  | scatter =>
    dsimp only [phaseStep] at e
    split at e
    · refine Option.some.inj e ▸ collTodo_ok ?_
      exact ok_ite (fun _ => drewN_ok (putRaws_ok (collFlags_ok h_s))) fun _ => putRaws_ok (collFlags_ok h_s)
    · split at e
      · exact Option.some.inj e ▸ h_s
      · cases e
  | collect =>
    dsimp only [phaseStep] at e
    split at e
    · split at e
      · exact Option.some.inj e ▸ putRaws_ok h_s
      · cases e
    · exact Option.some.inj e ▸ collTodo_ok h_s
  | displ =>
    dsimp only [phaseStep] at e
    split at e
    · exact Option.some.inj e ▸ h_s
    · exact Option.some.inj e ▸ collTodo_ok h_s
  | exchange =>
    dsimp only [phaseStep] at e
    split at e
    · exact Option.some.inj e ▸ collTodo_ok (putRaws_ok h_s)
    · split at e
      · exact Option.some.inj e ▸ collTodo_ok (putRaws_ok h_s)
      · cases e
  | fin =>
    dsimp only [phaseStep] at e
    split at e
    · refine Option.some.inj e ▸ ?_
      exact ok_ite (fun _ => drewN_ok (putRaws_ok (collFlags_ok h_s))) fun _ => putRaws_ok (collFlags_ok h_s)
    · exact Option.some.inj e ▸ h_s

theorem collAdvance_ok {a0 : _} {a1 : _} {a2 : _} (h_a1 : Ok p g (view (a1))) :
    Ok p g (view (Machine.collAdvance a0 a1 a2)) := by
  induction a0 generalizing a1 with
  | zero => exact h_a1
  | succ n ih =>
    unfold collAdvance
    split
    · exact h_a1
    split
    · exact h_a1
    split
    · split
      · exact h_a1
      · next e => exact ih (updInFl_ok (phaseStep_ok h_a1 _ e))
    · exact ok_ite (fun _ => h_a1) fun _ => finishOut_ok (State_setCtx_ok (updHedge_ok (dropEntries_ok h_a1)))

theorem collFrame_ok {s : _} {hedge : _} {f : _} (h_s : Ok p g (view (s))) :
    Ok p g (view (Machine.collFrame s hedge f).1) := by
  unfold Machine.collFrame
  repeat' first
    | with_reducible assumption
    | with_reducible refine collLand_ok ?_
    | with_reducible refine collAdvance_ok ?_
    | with_reducible apply ok_foldl
    | with_reducible apply ok_foldl_fst
    | with_reducible apply ok_ite
    | with_reducible apply ok_ite_fst
    | with_reducible apply ok_ite_snd
    | intro _
    | split

theorem collRegister_ok {s : _} {b : _} {f : _} (h_s : Ok p g (view (s))) :
    Ok p g (view (Machine.collRegister s b f)) := by
  unfold Machine.collRegister
  repeat' first
    | with_reducible assumption
    | with_reducible apply ok_foldl
    | with_reducible apply ok_foldl_fst
    | with_reducible apply ok_ite
    | with_reducible apply ok_ite_fst
    | with_reducible apply ok_ite_snd
    | intro _
    | split
    | (with_reducible refine ok_of_pair (by assumption) ?_)
    | (with_reducible refine ok_of_pair2 (by assumption) ?_)
    | (with_reducible refine ok_of_hres (by assumption) ?_)
    | (with_reducible refine ok_of_opt2 (by assumption) ?_)
    | (with_reducible refine ok_of_some (by assumption) ?_)
    | with_reducible refine ok_findSome _ ?_
    | (simp only [view_mk, view_eta])

theorem sendClears_ok {s : _} {b : _} {k : _} (h_s : Ok p g (view (s))) :
    Ok p g (view (Machine.sendClears s b k)) := by
  unfold Machine.sendClears
  repeat' first
    | with_reducible assumption
    | with_reducible refine collTodo_ok ?_
    | with_reducible apply ok_foldl
    | with_reducible apply ok_foldl_fst
    | with_reducible apply ok_ite
    | with_reducible apply ok_ite_fst
    | with_reducible apply ok_ite_snd
    | intro _

theorem collOwn_ok {s : _} {k : _} (h_s : Ok p g (view (s))) :
    Ok p g (view (Machine.collOwn s k)) := by
  unfold Machine.collOwn
  repeat' first
    | with_reducible assumption
    | with_reducible refine wrW_ok ?_
    | with_reducible refine putRaws_ok ?_
    | with_reducible apply ok_foldl
    | with_reducible apply ok_foldl_fst
    | with_reducible apply ok_ite
    | with_reducible apply ok_ite_fst
    | with_reducible apply ok_ite_snd
    | intro _

theorem zeroWork_ok {s : _} {a1 : _} (h_s : Ok p g (view (s))) :
    Ok p g (view (Machine.zeroWork s a1)) := by
  unfold Machine.zeroWork
  repeat' first
    | with_reducible assumption
    | with_reducible refine wrN_ok ?_
    | with_reducible apply ok_foldl
    | with_reducible apply ok_foldl_fst
    | with_reducible apply ok_ite
    | with_reducible apply ok_ite_fst
    | with_reducible apply ok_ite_snd
    | intro _

theorem collRun_ok {s : _} {b : _} {f : _} (h_s : Ok p g (view (s))) :
    Ok p g (view (Machine.collRun s b f)) := by
  unfold Machine.collRun
  repeat' first
    | with_reducible assumption
    | with_reducible refine finish_ok ?_
    | with_reducible refine touch_ok ?_
    | with_reducible refine finishFault_ok ?_
    | with_reducible refine dropEntries_ok ?_
    | with_reducible refine State_setCtx_ok ?_
    | with_reducible refine updInFl_ok ?_
    | with_reducible refine collAdvance_ok ?_
    | with_reducible refine sendClears_ok ?_
    | with_reducible refine collOwn_ok ?_
    | with_reducible refine zeroWork_ok ?_
    | with_reducible apply ok_foldl
    | with_reducible apply ok_foldl_fst
    | with_reducible apply ok_ite
    | with_reducible apply ok_ite_fst
    | with_reducible apply ok_ite_snd
    | intro _
    | split
    | (with_reducible refine ok_of_pair (by assumption) ?_)

theorem execStreamGrant_ok {b : _} {s : _} (h_s : Ok p g (view (s))) :
    ∀ u, Machine.execStreamGrant b s = .next u → Ok p g (view u) := by
  intro u e
  unfold Machine.execStreamGrant at e
  first | (have e := Host.Outcome.next.inj e; subst e) | skip
  repeat' first
    | with_reducible assumption
    | with_reducible refine grant_ok ?_

end Sys2Proof.Laws
end

