-- ==== Sys2Proof/Laws/KeepCq.lean ====
section
/-!
SUPPORT. What the operations of Machine/Cq.lean keep of the view of Laws/Good.lean.
-/
namespace Sys2Proof.Laws

open Sys2Proof.Machine

variable {p : List Instr} {g : Grade × W64}

theorem waitWord_ok {s : _} {npa : _} (h_s : Ok p g (view (s))) :
    Ok p g (view (Machine.waitWord s npa).1) := by
  unfold Machine.waitWord
  repeat' first
    | with_reducible assumption
    | with_reducible refine touch_ok ?_
    | with_reducible apply ok_foldl
    | with_reducible apply ok_foldl_fst
    | with_reducible apply ok_ite
    | with_reducible apply ok_ite_fst
    | with_reducible apply ok_ite_snd
    | intro _
    | split

theorem waitvRead_ok {s : _} {b : _} {f : _} (h_s : Ok p g (view (s))) :
    Ok p g (view (Machine.waitvRead s b f)) := by
  unfold Machine.waitvRead
  repeat' first
    | with_reducible assumption
    | with_reducible refine finish_ok ?_
    | with_reducible refine waitWord_ok ?_
    | with_reducible refine finishFault_ok ?_
    | with_reducible refine updInFl_ok ?_
    | with_reducible apply ok_foldl
    | with_reducible apply ok_foldl_fst
    | with_reducible apply ok_ite
    | with_reducible apply ok_ite_fst
    | with_reducible apply ok_ite_snd
    | intro _
    | split
    | (with_reducible refine ok_of_pair (by assumption) ?_)

theorem hedgeEngine_ok {s : _} {b : _} {op : _} {run : _} (h_s : Ok p g (view (s))) (h_run : ∀ v0 v1, Ok p g (view (v0)) → Ok p g (view (run v0 v1))) :
    Ok p g (view (Machine.hedgeEngine s b op run)) := by
  unfold Machine.hedgeEngine
  repeat' first
    | with_reducible assumption
    | with_reducible refine engine_ok ?_ ?_
    | with_reducible apply h_run
    | with_reducible apply ok_foldl
    | with_reducible apply ok_foldl_fst
    | with_reducible apply ok_ite
    | with_reducible apply ok_ite_fst
    | with_reducible apply ok_ite_snd
    | intro _
    | split

theorem quiesceRun_ok {s : _} {b : _} {f : _} (h_s : Ok p g (view (s))) :
    Ok p g (view (Machine.quiesceRun s b f)) := by
  unfold Machine.quiesceRun
  repeat' first
    | with_reducible assumption
    | with_reducible refine updInFl_ok ?_
    | with_reducible refine finish_ok ?_
    | with_reducible apply ok_foldl
    | with_reducible apply ok_foldl_fst
    | with_reducible apply ok_ite
    | with_reducible apply ok_ite_fst
    | with_reducible apply ok_ite_snd
    | intro _

theorem execQuiesce_ok {b : _} {s : _} (h_s : Ok p g (view (s))) :
    ∀ u, Machine.execQuiesce b s = .next u → Ok p g (view u) := by
  intro u e
  unfold Machine.execQuiesce at e
  first | (have e := Host.Outcome.next.inj e; subst e) | skip
  repeat' first
    | with_reducible assumption
    | with_reducible refine hedgeEngine_ok ?_ ?_
    | with_reducible refine quiesceRun_ok ?_
    | with_reducible apply ok_foldl
    | with_reducible apply ok_foldl_fst
    | with_reducible apply ok_ite
    | with_reducible apply ok_ite_fst
    | with_reducible apply ok_ite_snd
    | intro _

theorem waittRun_ok {s : _} {b : _} {f : _} (h_s : Ok p g (view (s))) :
    Ok p g (view (Machine.waittRun s b f)) := by
  unfold Machine.waittRun
  repeat' first
    | with_reducible assumption
    | with_reducible refine finish_ok ?_
    | with_reducible refine updInFl_ok ?_
    | with_reducible apply ok_foldl
    | with_reducible apply ok_foldl_fst
    | with_reducible apply ok_ite
    | with_reducible apply ok_ite_fst
    | with_reducible apply ok_ite_snd
    | intro _

theorem execWaitt_ok {b : _} {s : _} (h_s : Ok p g (view (s))) :
    ∀ u, Machine.execWaitt b s = .next u → Ok p g (view u) := by
  intro u e
  unfold Machine.execWaitt at e
  first | (have e := Host.Outcome.next.inj e; subst e) | skip
  repeat' first
    | with_reducible assumption
    | with_reducible refine engine_ok ?_ ?_
    | with_reducible refine waittRun_ok ?_
    | with_reducible apply ok_foldl
    | with_reducible apply ok_foldl_fst
    | with_reducible apply ok_ite
    | with_reducible apply ok_ite_fst
    | with_reducible apply ok_ite_snd
    | intro _

theorem waitvAgain_ok {s : _} {b : _} (h_s : Ok p g (view (s))) :
    Ok p g (view (Machine.waitvAgain s b)) := by
  unfold Machine.waitvAgain
  repeat' first
    | with_reducible assumption
    | with_reducible refine waitvRead_ok ?_
    | with_reducible apply ok_foldl
    | with_reducible apply ok_foldl_fst
    | with_reducible apply ok_ite
    | with_reducible apply ok_ite_fst
    | with_reducible apply ok_ite_snd
    | intro _
    | split

theorem execWaitvReread_ok {b : _} {s : _} (h_s : Ok p g (view (s))) :
    ∀ u, Machine.execWaitvReread b s = .next u → Ok p g (view u) := by
  intro u e
  unfold Machine.execWaitvReread at e
  first | (have e := Host.Outcome.next.inj e; subst e) | skip
  repeat' first
    | with_reducible assumption
    | with_reducible refine waitvAgain_ok ?_

theorem waittStrobe_ok {s : _} {b : _} (h_s : Ok p g (view (s))) :
    Ok p g (view (Machine.waittStrobe s b)) := by
  unfold Machine.waittStrobe
  repeat' first
    | with_reducible assumption
    | with_reducible refine finish_ok ?_
    | with_reducible apply ok_foldl
    | with_reducible apply ok_foldl_fst
    | with_reducible apply ok_ite
    | with_reducible apply ok_ite_fst
    | with_reducible apply ok_ite_snd
    | intro _
    | split

theorem waitvExpire_ok {s : _} {b : _} (h_s : Ok p g (view (s))) :
    Ok p g (view (Machine.waitvExpire s b)) := by
  unfold Machine.waitvExpire
  repeat' first
    | with_reducible assumption
    | with_reducible refine finish_ok ?_
    | with_reducible apply ok_foldl
    | with_reducible apply ok_foldl_fst
    | with_reducible apply ok_ite
    | with_reducible apply ok_ite_fst
    | with_reducible apply ok_ite_snd
    | intro _
    | split

theorem signalRun_ok {s : _} {b : _} {f : _} (h_s : Ok p g (view (s))) :
    Ok p g (view (Machine.signalRun s b f)) := by
  unfold Machine.signalRun
  repeat' first
    | with_reducible assumption
    | with_reducible refine finish_ok ?_
    | with_reducible refine addPeer_ok ?_
    | with_reducible refine panAt_ok ?_
    | with_reducible refine finishOut_ok ?_
    | with_reducible refine finishFault_ok ?_
    | with_reducible apply ok_foldl
    | with_reducible apply ok_foldl_fst
    | with_reducible apply ok_ite
    | with_reducible apply ok_ite_fst
    | with_reducible apply ok_ite_snd
    | intro _
    | split
    | (with_reducible refine ok_of_pair (by assumption) ?_)
    | (with_reducible refine ok_of_pair2 (by assumption) ?_)
    | (with_reducible refine ok_of_hres (by assumption) ?_)
    | (with_reducible refine ok_of_opt2 (by assumption) ?_)
    | (with_reducible refine ok_of_some (by assumption) ?_)
    | with_reducible refine ok_findSome _ ?_
    | (simp only [view_mk, view_eta])

theorem execSignal_ok {b : _} {s : _} (h_s : Ok p g (view (s))) :
    ∀ u, Machine.execSignal b s = .next u → Ok p g (view u) := by
  intro u e
  unfold Machine.execSignal at e
  first | (have e := Host.Outcome.next.inj e; subst e) | skip
  repeat' first
    | with_reducible assumption
    | with_reducible refine engine_ok ?_ ?_
    | with_reducible refine signalRun_ok ?_
    | with_reducible apply ok_foldl
    | with_reducible apply ok_foldl_fst
    | with_reducible apply ok_ite
    | with_reducible apply ok_ite_fst
    | with_reducible apply ok_ite_snd
    | intro _

theorem hedgeRead_ok {s : _} {b : _} {f : _} (h_s : Ok p g (view (s))) :
    Ok p g (view (Machine.hedgeRead s b f)) := by
  unfold Machine.hedgeRead
  repeat' first
    | with_reducible assumption
    | with_reducible refine finish_ok ?_
    | with_reducible refine withTouch_ok ?_ ?_
    | with_reducible refine finishOut_ok ?_
    | with_reducible refine wrN_ok ?_
    | with_reducible apply ok_foldl
    | with_reducible apply ok_foldl_fst
    | with_reducible apply ok_ite
    | with_reducible apply ok_ite_fst
    | with_reducible apply ok_ite_snd
    | intro _
    | split

theorem execRead_ok {b : _} {s : _} (h_s : Ok p g (view (s))) :
    ∀ u, Machine.execRead b s = .next u → Ok p g (view u) := by
  intro u e
  unfold Machine.execRead at e
  first | (have e := Host.Outcome.next.inj e; subst e) | skip
  repeat' first
    | with_reducible assumption
    | with_reducible refine hedgeEngine_ok ?_ ?_
    | with_reducible refine hedgeRead_ok ?_
    | with_reducible apply ok_foldl
    | with_reducible apply ok_foldl_fst
    | with_reducible apply ok_ite
    | with_reducible apply ok_ite_fst
    | with_reducible apply ok_ite_snd
    | intro _

theorem flagsRun_ok {s : _} {b : _} {f : _} (h_s : Ok p g (view (s))) :
    Ok p g (view (Machine.flagsRun s b f)) := by
  unfold Machine.flagsRun
  repeat' first
    | with_reducible assumption
    | with_reducible refine State_updBlk_ok ?_
    | with_reducible refine finish_ok ?_
    | with_reducible refine withTouch_ok ?_ ?_
    | with_reducible refine finishOut_ok ?_
    | with_reducible refine wrN_ok ?_
    | with_reducible apply ok_foldl
    | with_reducible apply ok_foldl_fst
    | with_reducible apply ok_ite
    | with_reducible apply ok_ite_fst
    | with_reducible apply ok_ite_snd
    | intro _
    | split

theorem execFlags_ok {b : _} {s : _} (h_s : Ok p g (view (s))) :
    ∀ u, Machine.execFlags b s = .next u → Ok p g (view u) := by
  intro u e
  unfold Machine.execFlags at e
  first | (have e := Host.Outcome.next.inj e; subst e) | skip
  repeat' first
    | with_reducible assumption
    | with_reducible refine engine_ok ?_ ?_
    | with_reducible refine flagsRun_ok ?_
    | with_reducible apply ok_foldl
    | with_reducible apply ok_foldl_fst
    | with_reducible apply ok_ite
    | with_reducible apply ok_ite_fst
    | with_reducible apply ok_ite_snd
    | intro _

theorem execWaittStrobe_ok {b : _} {s : _} (h_s : Ok p g (view (s))) :
    ∀ u, Machine.execWaittStrobe b s = .next u → Ok p g (view u) := by
  intro u e
  unfold Machine.execWaittStrobe at e
  first | (have e := Host.Outcome.next.inj e; subst e) | skip
  repeat' first
    | with_reducible assumption
    | with_reducible refine waittStrobe_ok ?_

theorem epochRun_ok {s : _} {b : _} {f : _} (h_s : Ok p g (view (s))) :
    Ok p g (view (Machine.epochRun s b f)) := by
  unfold Machine.epochRun
  repeat' first
    | with_reducible assumption
    | with_reducible refine finish_ok ?_
    | with_reducible refine updInFl_ok ?_
    | with_reducible apply ok_foldl
    | with_reducible apply ok_foldl_fst
    | with_reducible apply ok_ite
    | with_reducible apply ok_ite_fst
    | with_reducible apply ok_ite_snd
    | intro _

theorem execEpochwait_ok {b : _} {s : _} (h_s : Ok p g (view (s))) :
    ∀ u, Machine.execEpochwait b s = .next u → Ok p g (view u) := by
  intro u e
  unfold Machine.execEpochwait at e
  first | (have e := Host.Outcome.next.inj e; subst e) | skip
  repeat' first
    | with_reducible assumption
    | with_reducible refine hedgeEngine_ok ?_ ?_
    | with_reducible refine epochRun_ok ?_
    | with_reducible apply ok_foldl
    | with_reducible apply ok_foldl_fst
    | with_reducible apply ok_ite
    | with_reducible apply ok_ite_fst
    | with_reducible apply ok_ite_snd
    | intro _

theorem execWaitv_ok {b : _} {s : _} (h_s : Ok p g (view (s))) :
    ∀ u, Machine.execWaitv b s = .next u → Ok p g (view u) := by
  intro u e
  unfold Machine.execWaitv at e
  first | (have e := Host.Outcome.next.inj e; subst e) | skip
  repeat' first
    | with_reducible assumption
    | with_reducible refine engine_ok ?_ ?_
    | with_reducible refine waitvRead_ok ?_
    | with_reducible apply ok_foldl
    | with_reducible apply ok_foldl_fst
    | with_reducible apply ok_ite
    | with_reducible apply ok_ite_fst
    | with_reducible apply ok_ite_snd
    | intro _

theorem execWaitvTimeout_ok {b : _} {s : _} (h_s : Ok p g (view (s))) :
    ∀ u, Machine.execWaitvTimeout b s = .next u → Ok p g (view u) := by
  intro u e
  unfold Machine.execWaitvTimeout at e
  first | (have e := Host.Outcome.next.inj e; subst e) | skip
  repeat' first
    | with_reducible assumption
    | with_reducible refine waitvExpire_ok ?_

end Sys2Proof.Laws
end

