-- ==== Sys2Proof/Laws/KeepWcb.lean ====
section
/-!
SUPPORT. What the operations of Machine/Wcb.lean keep of the view of Laws/Good.lean.
-/
namespace Sys2Proof.Laws

open Sys2Proof.Machine

variable {p : List Instr} {g : Grade × W64}

theorem drainLine_ok {s : _} {e : _} (h_s : Ok p g (view (s))) :
    Ok p g (view (Machine.drainLine s e)) := by
  unfold Machine.drainLine
  repeat' first
    | with_reducible assumption
    | with_reducible refine wrN_ok ?_
    | with_reducible refine touch_ok ?_
    | with_reducible refine hartRecord_ok ?_
    | with_reducible refine State_updHart_ok ?_
    | with_reducible apply ok_foldl
    | with_reducible apply ok_foldl_fst
    | with_reducible apply ok_ite
    | with_reducible apply ok_ite_fst
    | with_reducible apply ok_ite_snd
    | intro _
    | split
    | (with_reducible refine ok_of_pair (by assumption) ?_)

theorem performStore_ok {s : _} {a1 : _} {va : _} {npa : _} {bs : _} (h_s : Ok p g (view (s))) :
    Ok p g (view (Machine.performStore s a1 va npa bs)) := by
  unfold Machine.performStore
  repeat' first
    | with_reducible assumption
    | with_reducible refine touch_ok ?_
    | with_reducible refine hartRecord_ok ?_
    | with_reducible refine State_updHart_ok ?_
    | with_reducible refine wrN_ok ?_
    | with_reducible apply ok_foldl
    | with_reducible apply ok_foldl_fst
    | with_reducible apply ok_ite
    | with_reducible apply ok_ite_fst
    | with_reducible apply ok_ite_snd
    | intro _
    | split
    | (with_reducible refine ok_of_pair (by assumption) ?_)

theorem setWc_ok {s : _} {core : _} {l : _} (h_s : Ok p g (view (s))) :
    Ok p g (view (Machine.setWc s core l)) := by
  unfold Machine.setWc
  repeat' first
    | with_reducible assumption
    | with_reducible apply ok_foldl
    | with_reducible apply ok_foldl_fst
    | with_reducible apply ok_ite
    | with_reducible apply ok_ite_fst
    | with_reducible apply ok_ite_snd
    | intro _
    | split
    | (with_reducible refine ok_of_pair (by assumption) ?_)
    | (with_reducible refine ok_of_pair2 (by assumption) ?_)
    | (with_reducible refine ok_of_hres (by assumption) ?_)
    | (with_reducible refine ok_of_opt2 (by assumption) ?_)
    | (with_reducible refine ok_of_some (by assumption) ?_)
    | with_reducible refine ok_findSome _ ?_
    | (simp only [view_mk, view_eta])

theorem drainIf_ok {s : _} {core : _} {a2 : _} (h_s : Ok p g (view (s))) :
    Ok p g (view (Machine.drainIf s core a2)) := by
  unfold Machine.drainIf
  repeat' first
    | with_reducible assumption
    | with_reducible refine drainLine_ok ?_
    | with_reducible refine setWc_ok ?_
    | with_reducible apply ok_foldl
    | with_reducible apply ok_foldl_fst
    | with_reducible apply ok_ite
    | with_reducible apply ok_ite_fst
    | with_reducible apply ok_ite_snd
    | intro _

theorem drainCore_ok {s : _} {core : _} (h_s : Ok p g (view (s))) :
    Ok p g (view (Machine.drainCore s core)) := by
  unfold Machine.drainCore
  repeat' first
    | with_reducible assumption
    | with_reducible refine drainIf_ok ?_

theorem drainAll_ok {s : _} (h_s : Ok p g (view (s))) :
    Ok p g (view (Machine.drainAll s)) := by
  unfold Machine.drainAll
  repeat' first
    | with_reducible assumption
    | with_reducible refine drainCore_ok ?_
    | with_reducible apply ok_foldl
    | with_reducible apply ok_foldl_fst
    | with_reducible apply ok_ite
    | with_reducible apply ok_ite_fst
    | with_reducible apply ok_ite_snd
    | intro _

theorem bufferStore_ok {s : _} {a1 : _} {va : _} {line : _} {o : _} {bs : _} (h_s : Ok p g (view (s))) :
    Ok p g (view (Machine.bufferStore s a1 va line o bs)) := by
  unfold Machine.bufferStore
  repeat' first
    | with_reducible assumption
    | with_reducible refine drainIf_ok ?_
    | with_reducible refine setWc_ok ?_
    | with_reducible refine drainLine_ok ?_
    | with_reducible apply ok_foldl
    | with_reducible apply ok_foldl_fst
    | with_reducible apply ok_ite
    | with_reducible apply ok_ite_fst
    | with_reducible apply ok_ite_snd
    | intro _
    | split
    | (with_reducible refine ok_of_pair (by assumption) ?_)
    | (with_reducible refine ok_of_pair2 (by assumption) ?_)
    | (with_reducible refine ok_of_hres (by assumption) ?_)
    | (with_reducible refine ok_of_opt2 (by assumption) ?_)
    | (with_reducible refine ok_of_some (by assumption) ?_)
    | with_reducible refine ok_findSome _ ?_
    | (simp only [view_mk, view_eta])

end Sys2Proof.Laws
end

