-- ==== Sys2Proof/Laws/KeepCsr.lean ====
section
/-!
SUPPORT. What the operations of Machine/Csr.lean keep of the view of Laws/Good.lean.
-/
namespace Sys2Proof.Laws

open Sys2Proof.Machine

variable {p : List Instr} {g : Grade × W64}

theorem freeCount_ok {s : _} {v : _} (h_s : Ok p g (view (s))) :
    Ok p g (view (Machine.freeCount s v).1) := by
  unfold Machine.freeCount
  repeat' first
    | with_reducible assumption
    | with_reducible refine drew_ok ?_

theorem privInstr_ok {s : _} {a1 : _} {w : _} (h_s : Ok p g (view (s))) :
    Ok p g (view (resState (Machine.privInstr s a1 w))) := by
  unfold Machine.privInstr
  repeat' first
    | with_reducible assumption
    | with_reducible refine State_updHart_ok ?_
    | with_reducible refine illegal_ok ?_
    | with_reducible refine retire_ok ?_
    | with_reducible refine drainCore_ok ?_
    | with_reducible apply ok_foldl
    | with_reducible apply ok_foldl_fst
    | with_reducible apply ok_ite
    | with_reducible apply ok_ite_fst
    | with_reducible apply ok_ite_snd
    | intro _
    | split
    | (with_reducible refine ok_of_pair (by assumption) ?_)
    | (with_reducible refine ok_of_pair2 (by assumption) ?_)
    | (with_reducible refine ok_of_hres (by assumption) ?_)
    | (with_reducible refine ok_of_opt2 (by assumption) ?_)
    | (with_reducible refine ok_of_some (by assumption) ?_)
    | with_reducible refine ok_findSome _ ?_
    | (simp only [view_mk, view_eta])
    | dsimp only
    | with_reducible apply ok_ite_res
    | (simp only [resState_done, resState_trap, resState_wait])

theorem cycleRead_ok {s : _} {c : _} (h_s : Ok p g (view (s))) :
    Ok p g (view (Machine.cycleRead s c).1) := by
  unfold Machine.cycleRead
  repeat' first
    | with_reducible assumption
    | with_reducible refine freeCount_ok ?_
    | with_reducible apply ok_foldl
    | with_reducible apply ok_foldl_fst
    | with_reducible apply ok_ite
    | with_reducible apply ok_ite_fst
    | with_reducible apply ok_ite_snd
    | intro _

theorem hpmRead_ok {s : _} {c : _} {i : _} (h_s : Ok p g (view (s))) :
    Ok p g (view (Machine.hpmRead s c i).1) := by
  unfold Machine.hpmRead
  repeat' first
    | with_reducible assumption
    | with_reducible refine freeCount_ok ?_
    | with_reducible apply ok_foldl
    | with_reducible apply ok_foldl_fst
    | with_reducible apply ok_ite
    | with_reducible apply ok_ite_fst
    | with_reducible apply ok_ite_snd
    | intro _

theorem csrRead_ok {s : _} {a1 : _} {n : _} (h_s : Ok p g (view (s))) :
    Ok p g (view (Machine.csrRead s a1 n).1) := by
  unfold Machine.csrRead
  repeat' first
    | with_reducible assumption
    | with_reducible refine cycleRead_ok ?_
    | with_reducible refine drew_ok ?_
    | with_reducible refine hpmRead_ok ?_
    | with_reducible apply ok_foldl
    | with_reducible apply ok_foldl_fst
    | with_reducible apply ok_ite
    | with_reducible apply ok_ite_fst
    | with_reducible apply ok_ite_snd
    | intro _
    | split

theorem csrInstr_ok {s : _} {a1 : _} {w : _} {src : _} (h_s : Ok p g (view (s))) :
    Ok p g (view (resState (Machine.csrInstr s a1 w src))) := by
  unfold Machine.csrInstr
  repeat' first
    | with_reducible assumption
    | with_reducible refine illegal_ok ?_
    | with_reducible refine csrRead_ok ?_
    | with_reducible refine retire_ok ?_
    | with_reducible apply ok_foldl
    | with_reducible apply ok_foldl_fst
    | with_reducible apply ok_ite
    | with_reducible apply ok_ite_fst
    | with_reducible apply ok_ite_snd
    | intro _
    | split
    | (with_reducible refine ok_of_pair (by assumption) ?_)
    | (with_reducible refine ok_of_pair2 (by assumption) ?_)
    | (with_reducible refine ok_of_hres (by assumption) ?_)
    | (with_reducible refine ok_of_opt2 (by assumption) ?_)
    | (with_reducible refine ok_of_some (by assumption) ?_)
    | with_reducible refine ok_findSome _ ?_
    | (simp only [view_mk, view_eta])

end Sys2Proof.Laws
end

