-- ==== Sys2Proof/Laws/KeepSend.lean ====
section
/-!
SUPPORT. What the operations of Machine/Send.lean keep of the view of Laws/Good.lean.
-/
namespace Sys2Proof.Laws

open Sys2Proof.Machine

variable {p : List Instr} {g : Grade × W64}

theorem takeReady_ok {s : _} {a1 : _} (h_s : Ok p g (view (s))) :
    ∀ u, Machine.takeReady s a1 = some u → Ok p g (view (u).2) := by
  intro u e
  obtain ⟨o, -, rfl⟩ := Option.map_eq_some_iff.1 e
  exact ⟨h_s.pending, h_s.grade, h_s.serial, h_s.mem, h_s.hostMem, h_s.log, h_s.logq, h_s.em, h_s.sess, h_s.ctl⟩

theorem setPn_ok {s : _} {a1 : _} {a : _} {pn : _} (h_s : Ok p g (view (s))) :
    Ok p g (view (Machine.setPn s a1 a pn)) := by
  unfold Machine.setPn
  repeat' first
    | with_reducible assumption
    | with_reducible refine State_setPort_ok ?_

theorem onWire_ok {s : _} {pri : _} {f : _} (h_s : Ok p g (view (s))) :
    Ok p g (view (Machine.onWire s pri f)) := by
  unfold Machine.onWire
  repeat' first
    | with_reducible assumption
    | with_reducible refine State_setPair_ok ?_
    | with_reducible refine setPn_ok ?_
    | with_reducible apply ok_foldl
    | with_reducible apply ok_foldl_fst
    | with_reducible apply ok_ite
    | with_reducible apply ok_ite_fst
    | with_reducible apply ok_ite_snd
    | intro _
    | split
    | (with_reducible refine ok_of_pair (by assumption) ?_)
    | (with_reducible refine ok_of_pair2 (by assumption) ?_)
    | (with_reducible refine ok_of_hres (by assumption) ?_)
    | (with_reducible refine ok_of_opt2 (by assumption) ?_)
    | (with_reducible refine ok_of_some (by assumption) ?_)
    | with_reducible refine ok_findSome _ ?_
    | (simp only [view_mk, view_eta])

theorem launchControl_ok {s : _} {line : _} {slot : _} {o : _} (h_s : Ok p g (view (s))) :
    Ok p g (view (Machine.launchControl s line slot o)) := by
  unfold Machine.launchControl
  repeat' first
    | with_reducible assumption
    | with_reducible refine onWire_ok ?_

theorem keepFrame_ok {s : _} {o : _} {a2 : _} (h_s : Ok p g (view (s))) :
    Ok p g (view (Machine.keepFrame s o a2)) := by
  unfold Machine.keepFrame
  repeat' first
    | with_reducible assumption
    | with_reducible refine State_setPair_ok ?_
    | with_reducible apply ok_foldl
    | with_reducible apply ok_foldl_fst
    | with_reducible apply ok_ite
    | with_reducible apply ok_ite_fst
    | with_reducible apply ok_ite_snd
    | intro _
    | split
    | (with_reducible refine ok_of_pair (by assumption) ?_)
    | (with_reducible refine ok_of_pair2 (by assumption) ?_)
    | (with_reducible refine ok_of_hres (by assumption) ?_)
    | (with_reducible refine ok_of_opt2 (by assumption) ?_)
    | (with_reducible refine ok_of_some (by assumption) ?_)
    | with_reducible refine ok_findSome _ ?_
    | (simp only [view_mk, view_eta])

theorem launchFrame_ok {s : _} {nakOk : _} {line : _} {slot : _} {flow : _} {o : _} (h_s : Ok p g (view (s))) :
    Ok p g (view (Machine.launchFrame s nakOk line slot flow o)) := by
  unfold Machine.launchFrame
  repeat' first
    | with_reducible assumption
    | with_reducible refine onWire_ok ?_
    | with_reducible refine keepFrame_ok ?_
    | with_reducible apply ok_foldl
    | with_reducible apply ok_foldl_fst
    | with_reducible apply ok_ite
    | with_reducible apply ok_ite_fst
    | with_reducible apply ok_ite_snd
    | intro _

theorem slotBest_ok {s : _} {line : _} {slot : _} {flow : _} (h_s : Ok p g (view (s))) :
    Ok p g (view (Machine.slotBest s line slot flow)) := by
  unfold slotBest
  split
  · next o s1 e => exact launchControl_ok (takeReady_ok h_s _ e)
  · dsimp only
    split
    · next o s1 e =>
      obtain ⟨a, -, ha⟩ := List.exists_of_findSome?_eq_some e
      exact launchFrame_ok (takeReady_ok h_s _ ha)
    · exact h_s

theorem slotIdle_ok {s : _} {line : _} {slot : _} (h_s : Ok p g (view (s))) :
    Ok p g (view (Machine.slotIdle s line slot)) := by
  unfold Machine.slotIdle
  repeat' first
    | with_reducible assumption
    | with_reducible refine takeReady_ok ?_
    | with_reducible refine launchControl_ok ?_
    | with_reducible apply ok_foldl
    | with_reducible apply ok_foldl_fst
    | with_reducible apply ok_ite
    | with_reducible apply ok_ite_fst
    | with_reducible apply ok_ite_snd
    | intro _
    | split
    | (with_reducible refine ok_of_pair (by assumption) ?_)
    | (with_reducible refine ok_of_pair2 (by assumption) ?_)
    | (with_reducible refine ok_of_hres (by assumption) ?_)
    | (with_reducible refine ok_of_opt2 (by assumption) ?_)

theorem entryEnds_ok {n : _} {s : _} {a2 : _} {e : _} (h_s : Ok p g (view (s))) :
    Ok p g (view (Machine.entryEnds n s a2 e)) := by
  unfold Machine.entryEnds
  repeat' first
    | with_reducible assumption
    | with_reducible refine State_setPair_ok ?_
    | with_reducible apply ok_foldl
    | with_reducible apply ok_foldl_fst
    | with_reducible apply ok_ite
    | with_reducible apply ok_ite_fst
    | with_reducible apply ok_ite_snd
    | intro _
    | split
    | (with_reducible refine ok_of_pair (by assumption) ?_)
    | (with_reducible refine ok_of_pair2 (by assumption) ?_)
    | (with_reducible refine ok_of_hres (by assumption) ?_)
    | (with_reducible refine ok_of_opt2 (by assumption) ?_)
    | (with_reducible refine ok_of_some (by assumption) ?_)
    | with_reducible refine ok_findSome _ ?_
    | (simp only [view_mk, view_eta])

theorem giveUp_ok {s : _} {n : _} {st : _} (h_s : Ok p g (view (s))) :
    Ok p g (view (Machine.giveUp s n st)) := by
  unfold Machine.giveUp
  repeat' first
    | with_reducible assumption
    | with_reducible refine State_setPair_ok ?_
    | with_reducible refine failOrigin_ok ?_
    | with_reducible refine record_ok ?_
    | with_reducible apply ok_foldl
    | with_reducible apply ok_foldl_fst
    | with_reducible apply ok_ite
    | with_reducible apply ok_ite_fst
    | with_reducible apply ok_ite_snd
    | intro _
    | split
    | (with_reducible refine ok_of_pair (by assumption) ?_)
    | (with_reducible refine ok_of_pair2 (by assumption) ?_)
    | (with_reducible refine ok_of_hres (by assumption) ?_)
    | (with_reducible refine ok_of_opt2 (by assumption) ?_)
    | (with_reducible refine ok_of_some (by assumption) ?_)
    | with_reducible refine ok_findSome _ ?_
    | (simp only [view_mk, view_eta])

theorem slotEnds_ok {s : _} {n : _} (h_s : Ok p g (view (s))) :
    Ok p g (view (Machine.slotEnds s n)) := by
  unfold Machine.slotEnds
  repeat' first
    | with_reducible assumption
    | with_reducible refine entryEnds_ok ?_
    | with_reducible apply ok_foldl
    | with_reducible apply ok_foldl_fst
    | with_reducible apply ok_ite
    | with_reducible apply ok_ite_fst
    | with_reducible apply ok_ite_snd
    | intro _
    | split

theorem sendFiller_ok {s : _} {line : _} {slot : _} {flow : _} {dst : _} (h_s : Ok p g (view (s))) :
    Ok p g (view (Machine.sendFiller s line slot flow dst)) := by
  unfold Machine.sendFiller
  repeat' first
    | with_reducible assumption
    | with_reducible refine onWire_ok ?_

theorem refillBin_ok {s : _} {key : _} (h_s : Ok p g (view (s))) :
    Ok p g (view (Machine.refillBin s key)) := by
  unfold Machine.refillBin
  repeat' first
    | with_reducible assumption
    | with_reducible apply ok_foldl
    | with_reducible apply ok_foldl_fst
    | with_reducible apply ok_ite
    | with_reducible apply ok_ite_fst
    | with_reducible apply ok_ite_snd
    | intro _
    | split
    | (with_reducible refine ok_of_pair (by assumption) ?_)
    | (with_reducible refine ok_of_pair2 (by assumption) ?_)
    | (with_reducible refine ok_of_hres (by assumption) ?_)
    | (with_reducible refine ok_of_opt2 (by assumption) ?_)
    | (with_reducible refine ok_of_some (by assumption) ?_)
    | with_reducible refine ok_findSome _ ?_
    | (simp only [view_mk, view_eta])

theorem frameLost_ok {s : _} {n : _} {q : _} (h_s : Ok p g (view (s))) :
    Ok p g (view (Machine.frameLost s n q)) := by
  unfold Machine.frameLost
  repeat' first
    | with_reducible assumption
    | with_reducible refine giveUp_ok ?_
    | with_reducible refine State_setPair_ok ?_
    | with_reducible apply ok_foldl
    | with_reducible apply ok_foldl_fst
    | with_reducible apply ok_ite
    | with_reducible apply ok_ite_fst
    | with_reducible apply ok_ite_snd
    | intro _
    | split
    | (with_reducible refine ok_of_pair (by assumption) ?_)
    | (with_reducible refine ok_of_pair2 (by assumption) ?_)
    | (with_reducible refine ok_of_hres (by assumption) ?_)
    | (with_reducible refine ok_of_opt2 (by assumption) ?_)
    | (with_reducible refine ok_of_some (by assumption) ?_)
    | with_reducible refine ok_findSome _ ?_
    | (simp only [view_mk, view_eta])

theorem execLossDetected_ok {peer : _} {s : _} (h_s : Ok p g (view (s))) :
    ∀ u, Machine.execLossDetected peer s = .next u → Ok p g (view u) := by
  intro u e
  unfold Machine.execLossDetected at e
  first | (have e := Host.Outcome.next.inj e; subst e) | skip
  repeat' first
    | with_reducible assumption
    | with_reducible refine frameLost_ok ?_
    | with_reducible apply ok_foldl
    | with_reducible apply ok_foldl_fst
    | with_reducible apply ok_ite
    | with_reducible apply ok_ite_fst
    | with_reducible apply ok_ite_snd
    | intro _

theorem quarantineDue_ok {s : _} (h_s : Ok p g (view (s))) :
    Ok p g (view (Machine.quarantineDue s)) := by
  unfold Machine.quarantineDue
  repeat' first
    | with_reducible assumption
    | with_reducible refine State_setPair_ok ?_
    | with_reducible refine record_ok ?_
    | with_reducible refine traceHw_ok ?_
    | with_reducible apply ok_foldl
    | with_reducible apply ok_foldl_fst
    | with_reducible apply ok_ite
    | with_reducible apply ok_ite_fst
    | with_reducible apply ok_ite_snd
    | intro _
    | split
    | (with_reducible refine ok_of_pair (by assumption) ?_)
    | (with_reducible refine ok_of_pair2 (by assumption) ?_)
    | (with_reducible refine ok_of_hres (by assumption) ?_)
    | (with_reducible refine ok_of_opt2 (by assumption) ?_)
    | (with_reducible refine ok_of_some (by assumption) ?_)
    | with_reducible refine ok_findSome _ ?_
    | (simp only [view_mk, view_eta])

theorem peerSilent_ok {s : _} {port : _} {src : _} (h_s : Ok p g (view (s))) :
    Ok p g (view (Machine.peerSilent s port src)) := by
  unfold Machine.peerSilent
  repeat' first
    | with_reducible assumption
    | with_reducible refine State_setPair_ok ?_
    | with_reducible refine record_ok ?_
    | with_reducible refine enterHolding_ok ?_
    | with_reducible apply ok_foldl
    | with_reducible apply ok_foldl_fst
    | with_reducible apply ok_ite
    | with_reducible apply ok_ite_fst
    | with_reducible apply ok_ite_snd
    | intro _
    | split
    | (with_reducible refine ok_of_pair (by assumption) ?_)
    | (with_reducible refine ok_of_pair2 (by assumption) ?_)
    | (with_reducible refine ok_of_hres (by assumption) ?_)
    | (with_reducible refine ok_of_opt2 (by assumption) ?_)
    | (with_reducible refine ok_of_some (by assumption) ?_)
    | with_reducible refine ok_findSome _ ?_
    | (simp only [view_mk, view_eta])

theorem resendFrame_ok {s : _} {line : _} {slot : _} {flow : _} {o : _} (h_s : Ok p g (view (s))) :
    Ok p g (view (Machine.resendFrame s line slot flow o)) := by
  unfold Machine.resendFrame
  repeat' first
    | with_reducible assumption
    | with_reducible refine onWire_ok ?_
    | with_reducible refine State_setPair_ok ?_

theorem slotSend_ok {s : _} {line : _} {slot : _} {t : _} (h_s : Ok p g (view (s))) :
    Ok p g (view (Machine.slotSend s line slot t)) := by
  unfold Machine.slotSend
  repeat' first
    | with_reducible assumption
    | with_reducible refine resendFrame_ok ?_
    | with_reducible refine takeReady_ok ?_
    | with_reducible refine launchFrame_ok ?_
    | with_reducible refine sendFiller_ok ?_
    | with_reducible apply ok_foldl
    | with_reducible apply ok_foldl_fst
    | with_reducible apply ok_ite
    | with_reducible apply ok_ite_fst
    | with_reducible apply ok_ite_snd
    | intro _
    | split
    | (with_reducible refine ok_of_pair (by assumption) ?_)
    | (with_reducible refine ok_of_pair2 (by assumption) ?_)
    | (with_reducible refine ok_of_hres (by assumption) ?_)
    | (with_reducible refine ok_of_opt2 (by assumption) ?_)

theorem binIn_ok {s : _} {d : _} {f : _} (h_s : Ok p g (view (s))) :
    Ok p g (view (Machine.binIn s d f)) := by
  unfold Machine.binIn
  repeat' first
    | with_reducible assumption
    | with_reducible refine refillBin_ok ?_
    | with_reducible apply ok_foldl
    | with_reducible apply ok_foldl_fst
    | with_reducible apply ok_ite
    | with_reducible apply ok_ite_fst
    | with_reducible apply ok_ite_snd
    | intro _
    | split
    | (with_reducible refine ok_of_pair (by assumption) ?_)
    | (with_reducible refine ok_of_pair2 (by assumption) ?_)
    | (with_reducible refine ok_of_hres (by assumption) ?_)
    | (with_reducible refine ok_of_opt2 (by assumption) ?_)
    | (with_reducible refine ok_of_some (by assumption) ?_)
    | with_reducible refine ok_findSome _ ?_
    | (simp only [view_mk, view_eta])

theorem feedOwn_ok {s : _} (h_s : Ok p g (view (s))) :
    Ok p g (view (Machine.feedOwn s)) := by
  unfold Machine.feedOwn
  repeat' first
    | with_reducible assumption
    | with_reducible refine binIn_ok ?_
    | with_reducible refine keepFrame_ok ?_
    | with_reducible apply ok_foldl
    | with_reducible apply ok_foldl_fst
    | with_reducible apply ok_ite
    | with_reducible apply ok_ite_fst
    | with_reducible apply ok_ite_snd
    | intro _
    | split
    | (with_reducible refine ok_of_pair (by assumption) ?_)
    | (with_reducible refine ok_of_pair2 (by assumption) ?_)
    | (with_reducible refine ok_of_hres (by assumption) ?_)
    | (with_reducible refine ok_of_opt2 (by assumption) ?_)
    | (with_reducible refine ok_of_some (by assumption) ?_)
    | with_reducible refine ok_findSome _ ?_
    | (simp only [view_mk, view_eta])

theorem slotGateway_ok {s : _} {line : _} {slot : _} {t : _} (h_s : Ok p g (view (s))) :
    Ok p g (view (Machine.slotGateway s line slot t)) := by
  unfold Machine.slotGateway
  repeat' first
    | with_reducible assumption
    | with_reducible refine feedOwn_ok ?_
    | with_reducible refine launchFrame_ok ?_
    | with_reducible refine refillBin_ok ?_
    | with_reducible apply ok_foldl
    | with_reducible apply ok_foldl_fst
    | with_reducible apply ok_ite
    | with_reducible apply ok_ite_fst
    | with_reducible apply ok_ite_snd
    | intro _
    | split
    | (with_reducible refine ok_of_pair (by assumption) ?_)
    | (with_reducible refine ok_of_pair2 (by assumption) ?_)
    | (with_reducible refine ok_of_hres (by assumption) ?_)
    | (with_reducible refine ok_of_opt2 (by assumption) ?_)
    | (with_reducible refine ok_of_some (by assumption) ?_)
    | with_reducible refine ok_findSome _ ?_
    | (simp only [view_mk, view_eta])

theorem execPeerSilent_ok {port : _} {src : _} {s : _} (h_s : Ok p g (view (s))) :
    ∀ u, Machine.execPeerSilent port src s = .next u → Ok p g (view u) := by
  intro u e
  unfold Machine.execPeerSilent at e
  first | (have e := Host.Outcome.next.inj e; subst e) | skip
  repeat' first
    | with_reducible assumption
    | with_reducible refine peerSilent_ok ?_
    | with_reducible apply ok_foldl
    | with_reducible apply ok_foldl_fst
    | with_reducible apply ok_ite
    | with_reducible apply ok_ite_fst
    | with_reducible apply ok_ite_snd
    | intro _

theorem planless_ok {s : _} {slot : _} (h_s : Ok p g (view (s))) :
    Ok p g (view (Machine.planless s slot)) := by
  unfold Machine.planless
  repeat' first
    | with_reducible assumption
    | with_reducible refine slotIdle_ok ?_
    | with_reducible apply ok_foldl
    | with_reducible apply ok_foldl_fst
    | with_reducible apply ok_ite
    | with_reducible apply ok_ite_fst
    | with_reducible apply ok_ite_snd
    | intro _

theorem slotRetry_ok {s : _} {line : _} {slot : _} {t : _} (h_s : Ok p g (view (s))) :
    Ok p g (view (Machine.slotRetry s line slot t)) := by
  unfold Machine.slotRetry
  repeat' first
    | with_reducible assumption
    | with_reducible refine resendFrame_ok ?_
    | with_reducible refine sendFiller_ok ?_
    | with_reducible apply ok_foldl
    | with_reducible apply ok_foldl_fst
    | with_reducible apply ok_ite
    | with_reducible apply ok_ite_fst
    | with_reducible apply ok_ite_snd
    | intro _
    | split

theorem lineActs_ok {s : _} {a1 : _} {slot : _} {e : _} (h_s : Ok p g (view (s))) :
    Ok p g (view (Machine.lineActs s a1 slot e)) := by
  unfold Machine.lineActs
  repeat' first
    | with_reducible assumption
    | with_reducible refine slotSend_ok ?_
    | with_reducible refine slotRetry_ok ?_
    | with_reducible refine slotBest_ok ?_
    | with_reducible refine slotGateway_ok ?_
    | with_reducible refine slotIdle_ok ?_
    | with_reducible apply ok_foldl
    | with_reducible apply ok_foldl_fst
    | with_reducible apply ok_ite
    | with_reducible apply ok_ite_fst
    | with_reducible apply ok_ite_snd
    | intro _
    | split
    | (with_reducible refine ok_of_pair (by assumption) ?_)
    | (with_reducible refine ok_of_pair2 (by assumption) ?_)
    | (with_reducible refine ok_of_hres (by assumption) ?_)
    | (with_reducible refine ok_of_opt2 (by assumption) ?_)
    | (with_reducible refine ok_of_some (by assumption) ?_)
    | with_reducible refine ok_findSome _ ?_
    | (simp only [view_mk, view_eta])

end Sys2Proof.Laws
end

