-- ==== Sys2Proof/Laws/KeepFabric.lean ====
section
/-!
SUPPORT. What the operations of Machine/Fabric.lean keep of the view of Laws/Good.lean.
-/
namespace Sys2Proof.Laws

open Sys2Proof.Machine

variable {p : List Instr} {g : Grade × W64}

theorem respond_ok {s : _} {a1 : _} {st : _} {bs : _} (h_s : Ok p g (view (s))) :
    Ok p g (view (Machine.respond s a1 st bs)) := by
  unfold Machine.respond
  repeat' first
    | with_reducible assumption
    | with_reducible refine sendData_ok ?_

theorem arrived_ok {s : _} {npa : _} (h_s : Ok p g (view (s))) :
    Ok p g (view (Machine.arrived s npa)) := by
  unfold Machine.arrived
  repeat' first
    | with_reducible assumption
    | with_reducible refine panAt_ok ?_
    | with_reducible apply ok_foldl
    | with_reducible apply ok_foldl_fst
    | with_reducible apply ok_ite
    | with_reducible apply ok_ite_fst
    | with_reducible apply ok_ite_snd
    | intro _
    | split

theorem landBytes_ok {s : _} {a1 : _} {npa : _} {bs : _} (h_s : Ok p g (view (s))) :
    Ok p g (view (Machine.landBytes s a1 npa bs)) := by
  unfold Machine.landBytes
  repeat' first
    | with_reducible assumption
    | with_reducible refine touch_ok ?_
    | with_reducible refine respond_ok ?_
    | with_reducible refine wrN_ok ?_
    | with_reducible refine arrived_ok ?_
    | with_reducible apply ok_foldl
    | with_reducible apply ok_foldl_fst
    | with_reducible apply ok_ite
    | with_reducible apply ok_ite_fst
    | with_reducible apply ok_ite_snd
    | intro _
    | split
    | (with_reducible refine ok_of_pair (by assumption) ?_)

theorem portViol_ok {s : _} {a1 : _} {key : _} (h_s : Ok p g (view (s))) :
    Ok p g (view (Machine.portViol s a1 key)) := by
  unfold Machine.portViol
  repeat' first
    | with_reducible assumption
    | with_reducible refine State_setPort_ok ?_

theorem violate_ok {s : _} {a1 : _} {src : _} {q : _} {r : _} (h_s : Ok p g (view (s))) :
    Ok p g (view (Machine.violate s a1 src q r)) := by
  unfold Machine.violate
  repeat' first
    | with_reducible assumption
    | with_reducible refine portViol_ok ?_
    | with_reducible refine State_setPair_ok ?_
    | with_reducible apply ok_foldl
    | with_reducible apply ok_foldl_fst
    | with_reducible apply ok_ite
    | with_reducible apply ok_ite_fst
    | with_reducible apply ok_ite_snd
    | intro _
    | split

theorem drain_ok {apply : _} {a1 : _} {a2 : _} {a3 : _} (h_apply : ∀ v0 v1, Ok p g (view (v0)) → Ok p g (view (apply v0 v1))) (h_a2 : Ok p g (view (a2))) :
    Ok p g (view (Machine.drain apply a1 a2 a3)) := by
  induction a1 generalizing a2 with
  | zero => exact h_a2
  | succ n ih =>
    unfold drain
    refine ok_ite (fun _ => ih (State_setPair_ok h_a2)) fun _ => ?_
    split
    · exact ok_ite (fun _ => h_a2) fun _ => ih (h_apply _ _ (State_setPair_ok h_a2))
    · exact h_a2

theorem settlePair_ok {apply : _} {s : _} {src : _} (h_apply : ∀ v0 v1, Ok p g (view (v0)) → Ok p g (view (apply v0 v1))) (h_s : Ok p g (view (s))) :
    Ok p g (view (Machine.settlePair apply s src)) := by
  unfold Machine.settlePair
  repeat' first
    | with_reducible assumption
    | with_reducible refine drain_ok ?_ ?_
    | with_reducible refine State_setPair_ok ?_

theorem consumeSeq_ok {apply : _} {s : _} {src : _} {q : _} (h_apply : ∀ v0 v1, Ok p g (view (v0)) → Ok p g (view (apply v0 v1))) (h_s : Ok p g (view (s))) :
    Ok p g (view (Machine.consumeSeq apply s src q)) := by
  unfold Machine.consumeSeq
  repeat' first
    | with_reducible assumption
    | with_reducible refine settlePair_ok ?_ ?_
    | with_reducible refine State_setPair_ok ?_
    | with_reducible apply h_apply
    | with_reducible apply ok_foldl
    | with_reducible apply ok_foldl_fst
    | with_reducible apply ok_ite
    | with_reducible apply ok_ite_fst
    | with_reducible apply ok_ite_snd
    | intro _

theorem windowReject_ok {s : _} {f : _} (h_s : Ok p g (view (s))) :
    Ok p g (view (Machine.windowReject s f)) := by
  unfold Machine.windowReject
  repeat' first
    | with_reducible assumption
    | with_reducible refine record_ok ?_

theorem reject_ok {apply : _} {s : _} {f : _} {r : _} (h_apply : ∀ v0 v1, Ok p g (view (v0)) → Ok p g (view (apply v0 v1))) (h_s : Ok p g (view (s))) :
    Ok p g (view (Machine.reject apply s f r)) := by
  unfold Machine.reject
  repeat' first
    | with_reducible assumption
    | with_reducible refine violate_ok ?_
    | with_reducible refine consumeSeq_ok ?_ ?_
    | with_reducible refine State_setPair_ok ?_
    | with_reducible refine windowReject_ok ?_
    | with_reducible apply h_apply
    | with_reducible apply ok_foldl
    | with_reducible apply ok_foldl_fst
    | with_reducible apply ok_ite
    | with_reducible apply ok_ite_fst
    | with_reducible apply ok_ite_snd
    | intro _

theorem deliver_ok {apply : _} {s : _} {f : _} (h_apply : ∀ v0 v1, Ok p g (view (v0)) → Ok p g (view (apply v0 v1))) (h_s : Ok p g (view (s))) :
    Ok p g (view (Machine.deliver apply s f)) := by
  unfold Machine.deliver
  repeat' first
    | with_reducible assumption
    | with_reducible refine settlePair_ok ?_ ?_
    | with_reducible refine State_setPair_ok ?_
    | with_reducible apply h_apply
    | with_reducible apply ok_foldl
    | with_reducible apply ok_foldl_fst
    | with_reducible apply ok_ite
    | with_reducible apply ok_ite_fst
    | with_reducible apply ok_ite_snd
    | intro _

theorem sequenced_ok {apply : _} {s : _} {f : _} (h_apply : ∀ v0 v1, Ok p g (view (v0)) → Ok p g (view (apply v0 v1))) (h_s : Ok p g (view (s))) :
    Ok p g (view (Machine.sequenced apply s f)) := by
  unfold Machine.sequenced
  repeat' first
    | with_reducible assumption
    | with_reducible refine reject_ok ?_ ?_
    | with_reducible refine deliver_ok ?_ ?_
    | with_reducible apply h_apply
    | with_reducible apply ok_foldl
    | with_reducible apply ok_foldl_fst
    | with_reducible apply ok_ite
    | with_reducible apply ok_ite_fst
    | with_reducible apply ok_ite_snd
    | intro _
    | split

theorem takeAwait_ok {s : _} {n : _} {q : _} (h_s : Ok p g (view (s))) :
    ∀ u, Machine.takeAwait s n q = some u → Ok p g (view (u).2) := by
  intro u e
  obtain ⟨o, -, rfl⟩ := Option.map_eq_some_iff.1 e
  exact ok_upd h_s rfl rfl rfl rfl rfl rfl rfl rfl rfl

theorem failFrame_ok {s : _} {n : _} {q : _} {st : _} (h_s : Ok p g (view (s))) :
    Ok p g (view (Machine.failFrame s n q st)) := by
  unfold Machine.failFrame
  repeat' first
    | with_reducible assumption
    | with_reducible refine State_setPair_ok ?_
    | with_reducible refine takeAwait_ok ?_
    | with_reducible refine failOrigin_ok ?_
    | with_reducible apply ok_foldl
    | with_reducible apply ok_foldl_fst
    | with_reducible apply ok_ite
    | with_reducible apply ok_ite_fst
    | with_reducible apply ok_ite_snd
    | intro _
    | split
    | (with_reducible refine ok_of_pair (by assumption) ?_)
    | (with_reducible refine ok_of_pair2 (by assumption) ?_)
    | (with_reducible refine ok_of_hres (by assumption) ?_)
    | (with_reducible refine ok_of_opt2 (by assumption) ?_)
    | (with_reducible refine ok_of_some (by assumption) ?_)
    | with_reducible refine ok_findSome _ ?_
    | (simp only [view_mk, view_eta])

theorem collsAdvance_ok {s : _} (h_s : Ok p g (view (s))) :
    Ok p g (view (Machine.collsAdvance s)) := by
  unfold Machine.collsAdvance
  repeat' first
    | with_reducible assumption
    | with_reducible refine collAdvance_ok ?_
    | with_reducible apply ok_foldl
    | with_reducible apply ok_foldl_fst
    | with_reducible apply ok_ite
    | with_reducible apply ok_ite_fst
    | with_reducible apply ok_ite_snd
    | intro _

theorem sigApply_ok {s : _} {a1 : _} {bs : _} (h_s : Ok p g (view (s))) :
    Ok p g (view (Machine.sigApply s a1 bs)) := by
  unfold Machine.sigApply
  repeat' first
    | with_reducible assumption
    | with_reducible apply ok_foldl
    | with_reducible apply ok_foldl_fst
    | with_reducible apply ok_ite
    | with_reducible apply ok_ite_fst
    | with_reducible apply ok_ite_snd
    | intro _
    | split
    | (with_reducible refine ok_of_pair (by assumption) ?_)
    | (with_reducible refine ok_of_pair2 (by assumption) ?_)
    | (with_reducible refine ok_of_hres (by assumption) ?_)
    | (with_reducible refine ok_of_opt2 (by assumption) ?_)
    | (with_reducible refine ok_of_some (by assumption) ?_)
    | with_reducible refine ok_findSome _ ?_
    | (simp only [view_mk, view_eta])

theorem putCtrl_ok {s : _} {a1 : _} {bs : _} (h_s : Ok p g (view (s))) :
    Ok p g (view (Machine.putCtrl s a1 bs)) := by
  have hp : ¬4096 ≤ s.fab.control.length → Ok p g (view
      { s with fab := { s.fab with control := s.fab.control ++ [(a1.src, bs)] } }) := fun hn => by
    refine ⟨h_s.pending, h_s.grade, h_s.serial, h_s.mem, h_s.hostMem, h_s.log, h_s.logq, h_s.em, h_s.sess, ?_⟩
    simp only [view, List.length_append, List.length_singleton]
    omega
  unfold putCtrl
  split
  · exact landBytes_ok h_s
  · exact ok_ite (fun _ => respond_ok h_s) hp
  · exact ok_ite (fun _ => respond_ok h_s) hp
  · exact h_s

theorem getApply_ok {s : _} {a1 : _} {base : _} (h_s : Ok p g (view (s))) :
    Ok p g (view (Machine.getApply s a1 base)) := by
  unfold Machine.getApply
  repeat' first
    | with_reducible assumption
    | with_reducible refine respond_ok ?_
    | with_reducible refine touch_ok ?_
    | with_reducible apply ok_foldl
    | with_reducible apply ok_foldl_fst
    | with_reducible apply ok_ite
    | with_reducible apply ok_ite_fst
    | with_reducible apply ok_ite_snd
    | intro _
    | split
    | (with_reducible refine ok_of_pair (by assumption) ?_)
    | (with_reducible refine ok_of_pair2 (by assumption) ?_)
    | (with_reducible refine ok_of_hres (by assumption) ?_)
    | (with_reducible refine ok_of_opt2 (by assumption) ?_)
    | (with_reducible refine ok_of_some (by assumption) ?_)
    | with_reducible refine ok_findSome _ ?_
    | (simp only [view_mk, view_eta])

theorem atomicApply_ok {s : _} {a1 : _} {want : _} {base : _} {bs : _} (h_s : Ok p g (view (s))) :
    Ok p g (view (Machine.atomicApply s a1 want base bs)) := by
  unfold Machine.atomicApply
  repeat' first
    | with_reducible assumption
    | with_reducible refine respond_ok ?_
    | with_reducible refine touch_ok ?_
    | with_reducible refine panAt_ok ?_
    | with_reducible apply ok_foldl
    | with_reducible apply ok_foldl_fst
    | with_reducible apply ok_ite
    | with_reducible apply ok_ite_fst
    | with_reducible apply ok_ite_snd
    | intro _
    | split
    | (with_reducible refine ok_of_pair (by assumption) ?_)
    | (with_reducible refine ok_of_pair2 (by assumption) ?_)
    | (with_reducible refine ok_of_hres (by assumption) ?_)
    | (with_reducible refine ok_of_opt2 (by assumption) ?_)
    | (with_reducible refine ok_of_some (by assumption) ?_)
    | with_reducible refine ok_findSome _ ?_
    | (simp only [view_mk, view_eta])

theorem collApply_ok {s : _} {a1 : _} {base : _} {f : _} (h_s : Ok p g (view (s))) :
    Ok p g (view (Machine.collApply s a1 base f)) := by
  unfold Machine.collApply
  repeat' first
    | with_reducible assumption
    | with_reducible refine updHedge_ok ?_
    | with_reducible refine collFrame_ok ?_
    | with_reducible refine arrived_ok ?_
    | with_reducible refine respond_ok ?_
    | with_reducible apply ok_foldl
    | with_reducible apply ok_foldl_fst
    | with_reducible apply ok_ite
    | with_reducible apply ok_ite_fst
    | with_reducible apply ok_ite_snd
    | intro _
    | split
    | (with_reducible refine ok_of_pair (by assumption) ?_)

theorem reduceBrine_ok {s : _} {a1 : _} {tf : _} {xf : _} {a : _} {bs : _} (h_s : Ok p g (view (s))) :
    Ok p g (view (Machine.reduceBrine s a1 tf xf a bs)) := by
  unfold Machine.reduceBrine
  repeat' first
    | with_reducible assumption
    | with_reducible refine respond_ok ?_
    | with_reducible refine touch_ok ?_
    | with_reducible refine brineAt_ok ?_
    | with_reducible refine updEnt_ok ?_
    | with_reducible apply ok_foldl
    | with_reducible apply ok_foldl_fst
    | with_reducible apply ok_ite
    | with_reducible apply ok_ite_fst
    | with_reducible apply ok_ite_snd
    | intro _
    | split
    | (with_reducible refine ok_of_pair (by assumption) ?_)
    | (with_reducible refine ok_of_pair2 (by assumption) ?_)
    | (with_reducible refine ok_of_hres (by assumption) ?_)
    | (with_reducible refine ok_of_opt2 (by assumption) ?_)
    | (with_reducible refine ok_of_some (by assumption) ?_)
    | with_reducible refine ok_findSome _ ?_
    | (simp only [view_mk, view_eta])

theorem reduceApply_ok {s : _} {a1 : _} {xf : _} {base : _} {bs : _} (h_s : Ok p g (view (s))) :
    Ok p g (view (Machine.reduceApply s a1 xf base bs)) := by
  unfold Machine.reduceApply
  repeat' first
    | with_reducible assumption
    | with_reducible refine reduceBrine_ok ?_
    | with_reducible refine respond_ok ?_
    | with_reducible refine touch_ok ?_
    | with_reducible refine panAt_ok ?_
    | with_reducible apply ok_foldl
    | with_reducible apply ok_foldl_fst
    | with_reducible apply ok_ite
    | with_reducible apply ok_ite_fst
    | with_reducible apply ok_ite_snd
    | intro _
    | split
    | (with_reducible refine ok_of_pair (by assumption) ?_)
    | (with_reducible refine ok_of_pair2 (by assumption) ?_)
    | (with_reducible refine ok_of_hres (by assumption) ?_)
    | (with_reducible refine ok_of_opt2 (by assumption) ?_)
    | (with_reducible refine ok_of_some (by assumption) ?_)
    | with_reducible refine ok_findSome _ ?_
    | (simp only [view_mk, view_eta])

theorem respApply_ok {s : _} {a1 : _} {bs : _} (h_s : Ok p g (view (s))) :
    Ok p g (view (Machine.respApply s a1 bs)) := by
  unfold Machine.respApply
  repeat' first
    | with_reducible assumption
    | with_reducible refine takeAwait_ok ?_
    | with_reducible refine failFrame_ok ?_
    | with_reducible refine getLanded_ok ?_
    | with_reducible refine ratomOlds_ok ?_
    | with_reducible refine failOrigin_ok ?_
    | with_reducible refine hartAnswer_ok ?_
    | with_reducible refine reportCame_ok ?_
    | with_reducible apply ok_foldl
    | with_reducible apply ok_foldl_fst
    | with_reducible apply ok_ite
    | with_reducible apply ok_ite_fst
    | with_reducible apply ok_ite_snd
    | intro _
    | split
    | (with_reducible refine ok_of_pair (by assumption) ?_)
    | (with_reducible refine ok_of_pair2 (by assumption) ?_)
    | (with_reducible refine ok_of_hres (by assumption) ?_)
    | (with_reducible refine ok_of_opt2 (by assumption) ?_)
    | (with_reducible refine ok_of_some (by assumption) ?_)
    | with_reducible refine ok_findSome _ ?_
    | (simp only [view_mk, view_eta])

theorem applyFrame_ok {s : _} {f : _} (h_s : Ok p g (view (s))) :
    Ok p g (view (Machine.applyFrame s f)) := by
  unfold Machine.applyFrame
  repeat' first
    | with_reducible assumption
    | with_reducible refine sigApply_ok ?_
    | with_reducible refine putCtrl_ok ?_
    | with_reducible refine landBytes_ok ?_
    | with_reducible refine getApply_ok ?_
    | with_reducible refine atomicApply_ok ?_
    | with_reducible refine collApply_ok ?_
    | with_reducible refine reduceApply_ok ?_
    | with_reducible refine respApply_ok ?_
    | with_reducible apply ok_foldl
    | with_reducible apply ok_foldl_fst
    | with_reducible apply ok_ite
    | with_reducible apply ok_ite_fst
    | with_reducible apply ok_ite_snd
    | intro _

theorem naked_ok {s : _} {n : _} {q : _} {r : _} (h_s : Ok p g (view (s))) :
    Ok p g (view (Machine.naked s n q r)) := by
  unfold Machine.naked
  repeat' first
    | with_reducible assumption
    | with_reducible refine frameLost_ok ?_
    | with_reducible refine failFrame_ok ?_
    | with_reducible refine State_setPair_ok ?_
    | with_reducible refine giveUp_ok ?_
    | with_reducible apply ok_foldl
    | with_reducible apply ok_foldl_fst
    | with_reducible apply ok_ite
    | with_reducible apply ok_ite_fst
    | with_reducible apply ok_ite_snd
    | intro _
    | split

theorem acked_ok {s : _} {n : _} {q : _} (h_s : Ok p g (view (s))) :
    Ok p g (view (Machine.acked s n q)) := by
  unfold Machine.acked
  repeat' first
    | with_reducible assumption
    | with_reducible refine ackOrigin_ok ?_
    | with_reducible refine State_setPair_ok ?_
    | with_reducible apply ok_foldl
    | with_reducible apply ok_foldl_fst
    | with_reducible apply ok_ite
    | with_reducible apply ok_ite_fst
    | with_reducible apply ok_ite_snd
    | intro _

theorem takeAck_ok {s : _} {a1 : _} (h_s : Ok p g (view (s))) :
    Ok p g (view (Machine.takeAck s a1)) := by
  unfold Machine.takeAck
  repeat' first
    | with_reducible assumption
    | with_reducible refine naked_ok ?_
    | with_reducible refine acked_ok ?_
    | with_reducible apply ok_foldl
    | with_reducible apply ok_foldl_fst
    | with_reducible apply ok_ite
    | with_reducible apply ok_ite_fst
    | with_reducible apply ok_ite_snd
    | intro _

theorem bulkApply_ok {apply : _} {s : _} {f : _} (h_apply : ∀ v0 v1, Ok p g (view (v0)) → Ok p g (view (apply v0 v1))) (h_s : Ok p g (view (s))) :
    Ok p g (view (Machine.bulkApply apply s f)) := by
  unfold Machine.bulkApply
  repeat' first
    | with_reducible assumption
    | with_reducible refine takeAck_ok ?_
    | with_reducible refine sequenced_ok ?_ ?_
    | with_reducible refine enqueue_ok ?_
    | with_reducible apply h_apply
    | with_reducible apply ok_foldl
    | with_reducible apply ok_foldl_fst
    | with_reducible apply ok_ite
    | with_reducible apply ok_ite_fst
    | with_reducible apply ok_ite_snd
    | intro _

theorem applyN_ok {a0 : _} {a1 : _} {a2 : _} (h_a1 : Ok p g (view (a1))) :
    Ok p g (view (Machine.applyN a0 a1 a2)) := by
  induction a0 generalizing a1 a2 with
  | zero => exact ok_ite (fun _ => h_a1) fun _ => applyFrame_ok h_a1
  | succ n ih => exact ok_ite (fun _ => bulkApply_ok (fun _ _ h => ih h) h_a1) fun _ => applyFrame_ok h_a1

theorem applyAny_ok {a0 : _} {a1 : _} (h_a0 : Ok p g (view (a0))) :
    Ok p g (view (Machine.applyAny a0 a1)) := by
  unfold Machine.applyAny
  repeat' first
    | with_reducible assumption
    | with_reducible refine applyN_ok ?_

theorem selfFrame_ok {s : _} {o : _} (h_s : Ok p g (view (s))) :
    Ok p g (view (Machine.selfFrame s o)) := by
  unfold Machine.selfFrame
  repeat' first
    | with_reducible assumption
    | with_reducible refine collsAdvance_ok ?_
    | with_reducible refine sequenced_ok ?_ ?_
    | with_reducible refine applyAny_ok ?_
    | with_reducible refine keepFrame_ok ?_
    | with_reducible refine naked_ok ?_
    | with_reducible refine State_setPair_ok ?_
    | with_reducible refine acked_ok ?_
    | with_reducible apply ok_foldl
    | with_reducible apply ok_foldl_fst
    | with_reducible apply ok_ite
    | with_reducible apply ok_ite_fst
    | with_reducible apply ok_ite_snd
    | intro _
    | split

theorem selfFrames_ok {s : _} (h_s : Ok p g (view (s))) :
    Ok p g (view (Machine.selfFrames s)) := by
  unfold Machine.selfFrames
  repeat' first
    | with_reducible assumption
    | with_reducible refine selfFrame_ok ?_
    | with_reducible apply ok_foldl
    | with_reducible apply ok_foldl_fst
    | with_reducible apply ok_ite
    | with_reducible apply ok_ite_fst
    | with_reducible apply ok_ite_snd
    | intro _
    | split
    | (with_reducible refine ok_of_pair (by assumption) ?_)
    | (with_reducible refine ok_of_pair2 (by assumption) ?_)
    | (with_reducible refine ok_of_hres (by assumption) ?_)
    | (with_reducible refine ok_of_opt2 (by assumption) ?_)
    | (with_reducible refine ok_of_some (by assumption) ?_)
    | with_reducible refine ok_findSome _ ?_
    | (simp only [view_mk, view_eta])

theorem dropOther_ok {s : _} {a1 : _} (h_s : Ok p g (view (s))) :
    Ok p g (view (Machine.dropOther s a1)) := by
  unfold Machine.dropOther
  repeat' first
    | with_reducible assumption
    | with_reducible refine State_setPort_ok ?_

theorem hear_ok {s : _} {slot : _} {line : _} (h_s : Ok p g (view (s))) :
    Ok p g (view (Machine.hear s slot line)) := by
  unfold Machine.hear
  repeat' first
    | with_reducible assumption
    | with_reducible apply ok_foldl
    | with_reducible apply ok_foldl_fst
    | with_reducible apply ok_ite
    | with_reducible apply ok_ite_fst
    | with_reducible apply ok_ite_snd
    | intro _
    | split
    | (with_reducible refine ok_of_pair (by assumption) ?_)
    | (with_reducible refine ok_of_pair2 (by assumption) ?_)
    | (with_reducible refine ok_of_hres (by assumption) ?_)
    | (with_reducible refine ok_of_opt2 (by assumption) ?_)
    | (with_reducible refine ok_of_some (by assumption) ?_)
    | with_reducible refine ok_findSome _ ?_
    | (simp only [view_mk, view_eta])

theorem hearFrame_ok {s : _} {f : _} (h_s : Ok p g (view (s))) :
    Ok p g (view (Machine.hearFrame s f)) := by
  unfold Machine.hearFrame
  repeat' first
    | with_reducible assumption
    | with_reducible refine hear_ok ?_
    | with_reducible refine State_setPair_ok ?_
    | with_reducible apply ok_foldl
    | with_reducible apply ok_foldl_fst
    | with_reducible apply ok_ite
    | with_reducible apply ok_ite_fst
    | with_reducible apply ok_ite_snd
    | intro _
    | split

theorem noteLoss_ok {s : _} {f : _} (h_s : Ok p g (view (s))) :
    Ok p g (view (Machine.noteLoss s f)) := by
  unfold Machine.noteLoss
  repeat' first
    | with_reducible assumption
    | with_reducible refine State_setPair_ok ?_
    | with_reducible apply ok_foldl
    | with_reducible apply ok_foldl_fst
    | with_reducible apply ok_ite
    | with_reducible apply ok_ite_fst
    | with_reducible apply ok_ite_snd
    | intro _
    | split

theorem dropLoss_ok {s : _} {f : _} (h_s : Ok p g (view (s))) :
    Ok p g (view (Machine.dropLoss s f)) := by
  unfold Machine.dropLoss
  repeat' first
    | with_reducible assumption
    | with_reducible refine noteLoss_ok ?_
    | with_reducible refine State_setPort_ok ?_
    | with_reducible apply ok_foldl
    | with_reducible apply ok_foldl_fst
    | with_reducible apply ok_ite
    | with_reducible apply ok_ite_fst
    | with_reducible apply ok_ite_snd
    | intro _

theorem notePn_ok {s : _} {f : _} (h_s : Ok p g (view (s))) :
    Ok p g (view (Machine.notePn s f)) := by
  unfold Machine.notePn
  repeat' first
    | with_reducible assumption
    | with_reducible refine setPn_ok ?_
    | with_reducible apply ok_foldl
    | with_reducible apply ok_foldl_fst
    | with_reducible apply ok_ite
    | with_reducible apply ok_ite_fst
    | with_reducible apply ok_ite_snd
    | intro _
    | split

theorem dropQuarantined_ok {s : _} {a1 : _} {n : _} (h_s : Ok p g (view (s))) :
    Ok p g (view (Machine.dropQuarantined s a1 n)) := by
  unfold Machine.dropQuarantined
  repeat' first
    | with_reducible assumption
    | with_reducible refine State_setPair_ok ?_
    | with_reducible refine portViol_ok ?_

theorem passOn_ok {s : _} {f : _} (h_s : Ok p g (view (s))) :
    Ok p g (view (Machine.passOn s f)) := by
  unfold Machine.passOn
  repeat' first
    | with_reducible assumption
    | with_reducible refine State_setPair_ok ?_
    | with_reducible refine reject_ok ?_ ?_
    | with_reducible refine applyAny_ok ?_
    | with_reducible refine deliver_ok ?_ ?_
    | with_reducible refine sequenced_ok ?_ ?_
    | with_reducible apply ok_foldl
    | with_reducible apply ok_foldl_fst
    | with_reducible apply ok_ite
    | with_reducible apply ok_ite_fst
    | with_reducible apply ok_ite_snd
    | intro _

theorem judgeFrame_ok {s0 : _} {f : _} (h_s0 : Ok p g (view (s0))) :
    Ok p g (view (Machine.judgeFrame s0 f)) := by
  unfold Machine.judgeFrame
  repeat' first
    | with_reducible assumption
    | with_reducible refine dropQuarantined_ok ?_
    | with_reducible refine binIn_ok ?_
    | with_reducible refine violate_ok ?_
    | with_reducible refine consumeSeq_ok ?_ ?_
    | with_reducible refine applyAny_ok ?_
    | with_reducible refine collsAdvance_ok ?_
    | with_reducible refine takeAck_ok ?_
    | with_reducible refine passOn_ok ?_
    | with_reducible apply ok_foldl
    | with_reducible apply ok_foldl_fst
    | with_reducible apply ok_ite
    | with_reducible apply ok_ite_fst
    | with_reducible apply ok_ite_snd
    | intro _
    | split
    | (with_reducible refine ok_of_pair (by assumption) ?_)
    | (with_reducible refine ok_of_pair2 (by assumption) ?_)
    | (with_reducible refine ok_of_hres (by assumption) ?_)
    | (with_reducible refine ok_of_opt2 (by assumption) ?_)
    | (with_reducible refine ok_of_some (by assumption) ?_)
    | with_reducible refine ok_findSome _ ?_
    | (simp only [view_mk, view_eta])

theorem receive_ok {s : _} {f : _} (h_s : Ok p g (view (s))) :
    Ok p g (view (Machine.receive s f)) := by
  unfold Machine.receive
  repeat' first
    | with_reducible assumption
    | with_reducible refine dropOther_ok ?_
    | with_reducible refine hearFrame_ok ?_
    | with_reducible refine dropLoss_ok ?_
    | with_reducible refine notePn_ok ?_
    | with_reducible refine noteLoss_ok ?_
    | with_reducible refine judgeFrame_ok ?_
    | with_reducible apply ok_foldl
    | with_reducible apply ok_foldl_fst
    | with_reducible apply ok_ite
    | with_reducible apply ok_ite_fst
    | with_reducible apply ok_ite_snd
    | intro _

theorem frameRow_ok {type : _} {op : _} {f : _} {s : _} (h_s : Ok p g (view (s))) :
    ∀ u, Machine.frameRow type op f s = .next u → Ok p g (view u) := by
  intro u e
  unfold Machine.frameRow at e
  first | (have e := Host.Outcome.next.inj e; subst e) | skip
  repeat' first
    | with_reducible assumption
    | with_reducible refine receive_ok ?_
    | with_reducible apply ok_foldl
    | with_reducible apply ok_foldl_fst
    | with_reducible apply ok_ite
    | with_reducible apply ok_ite_fst
    | with_reducible apply ok_ite_snd
    | intro _

theorem execSignature_ok {f : _} {s : _} (h_s : Ok p g (view (s))) :
    ∀ u, Machine.execSignature f s = .next u → Ok p g (view u) := by
  exact frameRow_ok h_s

theorem execGetResp_ok {f : _} {s : _} (h_s : Ok p g (view (s))) :
    ∀ u, Machine.execGetResp f s = .next u → Ok p g (view u) := by
  exact frameRow_ok h_s

theorem execPutFrame_ok {f : _} {s : _} (h_s : Ok p g (view (s))) :
    ∀ u, Machine.execPutFrame f s = .next u → Ok p g (view u) := by
  exact frameRow_ok h_s

theorem settleAll_ok {s : _} (h_s : Ok p g (view (s))) :
    Ok p g (view (Machine.settleAll s)) := by
  unfold Machine.settleAll
  repeat' first
    | with_reducible assumption
    | with_reducible refine settlePair_ok ?_ ?_
    | with_reducible refine applyAny_ok ?_
    | with_reducible apply ok_foldl
    | with_reducible apply ok_foldl_fst
    | with_reducible apply ok_ite
    | with_reducible apply ok_ite_fst
    | with_reducible apply ok_ite_snd
    | intro _

theorem execGetReq_ok {f : _} {s : _} (h_s : Ok p g (view (s))) :
    ∀ u, Machine.execGetReq f s = .next u → Ok p g (view u) := by
  exact frameRow_ok h_s

theorem execReduce_ok {f : _} {s : _} (h_s : Ok p g (view (s))) :
    ∀ u, Machine.execReduce f s = .next u → Ok p g (view u) := by
  exact frameRow_ok h_s

theorem execFiller_ok {f : _} {s : _} (h_s : Ok p g (view (s))) :
    ∀ u, Machine.execFiller f s = .next u → Ok p g (view u) := by
  exact frameRow_ok h_s

theorem execAtomic_ok {f : _} {s : _} (h_s : Ok p g (view (s))) :
    ∀ u, Machine.execAtomic f s = .next u → Ok p g (view u) := by
  exact frameRow_ok h_s

theorem execMcastFrame_ok {f : _} {s : _} (h_s : Ok p g (view (s))) :
    ∀ u, Machine.execMcastFrame f s = .next u → Ok p g (view u) := by
  exact frameRow_ok h_s

theorem execColl_ok {b : _} {s : _} (h_s : Ok p g (view (s))) :
    ∀ u, Machine.execColl b s = .next u → Ok p g (view u) := by
  intro u e
  unfold Machine.execColl at e
  first | (have e := Host.Outcome.next.inj e; subst e) | skip
  repeat' first
    | with_reducible assumption
    | with_reducible refine settleAll_ok ?_
    | with_reducible refine engine_ok ?_ ?_
    | with_reducible refine collRun_ok ?_
    | with_reducible apply ok_foldl
    | with_reducible apply ok_foldl_fst
    | with_reducible apply ok_ite
    | with_reducible apply ok_ite_fst
    | with_reducible apply ok_ite_snd
    | intro _

theorem execCollFrame_ok {f : _} {s : _} (h_s : Ok p g (view (s))) :
    ∀ u, Machine.execCollFrame f s = .next u → Ok p g (view u) := by
  exact frameRow_ok h_s

theorem execBulk_ok {f : _} {subs : _} {s : _} (h_s : Ok p g (view (s))) :
    ∀ u, Machine.execBulk f subs s = .next u → Ok p g (view u) := by
  intro u e
  unfold Machine.execBulk at e
  first | (have e := Host.Outcome.next.inj e; subst e) | skip
  repeat' first
    | with_reducible assumption
    | with_reducible refine receive_ok ?_
    | with_reducible apply ok_foldl
    | with_reducible apply ok_foldl_fst
    | with_reducible apply ok_ite
    | with_reducible apply ok_ite_fst
    | with_reducible apply ok_ite_snd
    | intro _

theorem execAtomicResp_ok {f : _} {s : _} (h_s : Ok p g (view (s))) :
    ∀ u, Machine.execAtomicResp f s = .next u → Ok p g (view u) := by
  exact frameRow_ok h_s

end Sys2Proof.Laws
end

