-- ==== Sys2Proof/Laws/KeepEspalier.lean ====
section
/-!
SUPPORT. What the operations of Machine/Espalier.lean keep of the view of Laws/Good.lean.
-/
namespace Sys2Proof.Laws

open Sys2Proof.Machine

variable {p : List Instr} {g : Grade × W64}

theorem periodEnds_ok {s : _} (h_s : Ok p g (view (s))) :
    Ok p g (view (Machine.periodEnds s)) := by
  unfold Machine.periodEnds
  repeat' first
    | with_reducible assumption
    | with_reducible refine enterService_ok ?_
    | with_reducible apply ok_foldl
    | with_reducible apply ok_foldl_fst
    | with_reducible apply ok_ite
    | with_reducible apply ok_ite_fst
    | with_reducible apply ok_ite_snd
    | intro _
    | split
    | (with_reducible refine ok_of_pair (by assumption) ?_)
    | (with_reducible refine ok_of_pair2 (by assumption) ?_)
    | (with_reducible refine ok_of_hres (by assumption) ?_)
    | (with_reducible refine ok_of_opt2 (by assumption) ?_)
    | (with_reducible refine ok_of_some (by assumption) ?_)
    | with_reducible refine ok_findSome _ ?_
    | (simp only [view_mk, view_eta])

theorem periodBoundary_ok {s : _} (h_s : Ok p g (view (s))) :
    Ok p g (view (Machine.periodBoundary s)) := by
  unfold Machine.periodBoundary
  repeat' first
    | with_reducible assumption
    | with_reducible refine periodEnds_ok ?_
    | with_reducible apply ok_foldl
    | with_reducible apply ok_foldl_fst
    | with_reducible apply ok_ite
    | with_reducible apply ok_ite_fst
    | with_reducible apply ok_ite_snd
    | intro _
    | split
    | (with_reducible refine ok_of_pair (by assumption) ?_)
    | (with_reducible refine ok_of_pair2 (by assumption) ?_)
    | (with_reducible refine ok_of_hres (by assumption) ?_)
    | (with_reducible refine ok_of_opt2 (by assumption) ?_)
    | (with_reducible refine ok_of_some (by assumption) ?_)
    | with_reducible refine ok_findSome _ ?_
    | (simp only [view_mk, view_eta])

theorem activate_ok {s : _} (h_s : Ok p g (view (s))) :
    Ok p g (view (Machine.activate s)) := by
  unfold Machine.activate
  repeat' first
    | with_reducible assumption
    | with_reducible refine periodEnds_ok ?_
    | with_reducible refine traceHw_ok ?_
    | with_reducible apply ok_foldl
    | with_reducible apply ok_foldl_fst
    | with_reducible apply ok_ite
    | with_reducible apply ok_ite_fst
    | with_reducible apply ok_ite_snd
    | intro _
    | split
    | (with_reducible refine ok_of_pair (by assumption) ?_)
    | (with_reducible refine ok_of_pair2 (by assumption) ?_)
    | (with_reducible refine ok_of_hres (by assumption) ?_)
    | (with_reducible refine ok_of_opt2 (by assumption) ?_)
    | (with_reducible refine ok_of_some (by assumption) ?_)
    | with_reducible refine ok_findSome _ ?_
    | (simp only [view_mk, view_eta])

theorem timeOut_ok {s : _} (h_s : Ok p g (view (s))) :
    Ok p g (view (Machine.timeOut s)) := by
  unfold Machine.timeOut
  repeat' first
    | with_reducible assumption
    | with_reducible refine leaveService_ok ?_
    | with_reducible apply ok_foldl
    | with_reducible apply ok_foldl_fst
    | with_reducible apply ok_ite
    | with_reducible apply ok_ite_fst
    | with_reducible apply ok_ite_snd
    | intro _
    | split
    | (with_reducible refine ok_of_pair (by assumption) ?_)
    | (with_reducible refine ok_of_pair2 (by assumption) ?_)
    | (with_reducible refine ok_of_hres (by assumption) ?_)
    | (with_reducible refine ok_of_opt2 (by assumption) ?_)
    | (with_reducible refine ok_of_some (by assumption) ?_)
    | with_reducible refine ok_findSome _ ?_
    | (simp only [view_mk, view_eta])

theorem slotBoundary_ok {s : _} (h_s : Ok p g (view (s))) :
    Ok p g (view (Machine.slotBoundary s)) := by
  unfold Machine.slotBoundary
  repeat' first
    | with_reducible assumption
    | with_reducible refine quarantineDue_ok ?_
    | with_reducible refine slotEnds_ok ?_
    | with_reducible refine tick_ok ?_
    | with_reducible refine periodBoundary_ok ?_
    | with_reducible refine activate_ok ?_
    | with_reducible refine enterService_ok ?_
    | with_reducible refine timeOut_ok ?_
    | with_reducible refine selfFrames_ok ?_
    | with_reducible refine lineActs_ok ?_
    | with_reducible refine planless_ok ?_
    | with_reducible apply ok_foldl
    | with_reducible apply ok_foldl_fst
    | with_reducible apply ok_ite
    | with_reducible apply ok_ite_fst
    | with_reducible apply ok_ite_snd
    | intro _
    | split
    | (with_reducible refine ok_of_pair (by assumption) ?_)
    | (with_reducible refine ok_of_pair2 (by assumption) ?_)
    | (with_reducible refine ok_of_hres (by assumption) ?_)
    | (with_reducible refine ok_of_opt2 (by assumption) ?_)
    | (with_reducible refine ok_of_some (by assumption) ?_)
    | with_reducible refine ok_findSome _ ?_
    | (simp only [view_mk, view_eta])

theorem execSlotBoundary_ok {s : _} (h_s : Ok p g (view (s))) :
    ∀ u, Machine.execSlotBoundary s = .next u → Ok p g (view u) := by
  intro u e
  unfold Machine.execSlotBoundary at e
  first | (have e := Host.Outcome.next.inj e; subst e) | skip
  repeat' first
    | with_reducible assumption
    | with_reducible refine slotBoundary_ok ?_

theorem execPlanActivation_ok {s : _} (h_s : Ok p g (view (s))) :
    ∀ u, Machine.execPlanActivation s = .next u → Ok p g (view u) := by
  intro u e
  unfold Machine.execPlanActivation at e
  first | (have e := Host.Outcome.next.inj e; subst e) | skip
  repeat' first
    | with_reducible assumption
    | with_reducible refine activate_ok ?_

theorem arm_ok {s : _} (h_s : Ok p g (view (s))) :
    Ok p g (view (Machine.arm s)) := by
  unfold Machine.arm
  repeat' first
    | with_reducible assumption
    | with_reducible apply ok_foldl
    | with_reducible apply ok_foldl_fst
    | with_reducible apply ok_ite
    | with_reducible apply ok_ite_fst
    | with_reducible apply ok_ite_snd
    | intro _
    | split
    | (with_reducible refine ok_of_pair (by assumption) ?_)
    | (with_reducible refine ok_of_pair2 (by assumption) ?_)
    | (with_reducible refine ok_of_hres (by assumption) ?_)
    | (with_reducible refine ok_of_opt2 (by assumption) ?_)
    | (with_reducible refine ok_of_some (by assumption) ?_)
    | with_reducible refine ok_findSome _ ?_
    | (simp only [view_mk, view_eta])

theorem execArm_ok {s : _} (h_s : Ok p g (view (s))) :
    ∀ u, Machine.execArm s = .next u → Ok p g (view u) := by
  intro u e
  unfold Machine.execArm at e
  first | (have e := Host.Outcome.next.inj e; subst e) | skip
  repeat' first
    | with_reducible assumption
    | with_reducible refine arm_ok ?_

theorem cancelArm_ok {s : _} (h_s : Ok p g (view (s))) :
    Ok p g (view (Machine.cancelArm s)) := by
  unfold Machine.cancelArm
  repeat' first
    | with_reducible assumption
    | with_reducible apply ok_foldl
    | with_reducible apply ok_foldl_fst
    | with_reducible apply ok_ite
    | with_reducible apply ok_ite_fst
    | with_reducible apply ok_ite_snd
    | intro _
    | split
    | (with_reducible refine ok_of_pair (by assumption) ?_)
    | (with_reducible refine ok_of_pair2 (by assumption) ?_)
    | (with_reducible refine ok_of_hres (by assumption) ?_)
    | (with_reducible refine ok_of_opt2 (by assumption) ?_)
    | (with_reducible refine ok_of_some (by assumption) ?_)
    | with_reducible refine ok_findSome _ ?_
    | (simp only [view_mk, view_eta])

theorem execSignatureTimeout_ok {s : _} (h_s : Ok p g (view (s))) :
    ∀ u, Machine.execSignatureTimeout s = .next u → Ok p g (view u) := by
  intro u e
  unfold Machine.execSignatureTimeout at e
  first | (have e := Host.Outcome.next.inj e; subst e) | skip
  repeat' first
    | with_reducible assumption
    | with_reducible refine peerSilent_ok ?_
    | with_reducible apply ok_foldl
    | with_reducible apply ok_foldl_fst
    | with_reducible apply ok_ite
    | with_reducible apply ok_ite_fst
    | with_reducible apply ok_ite_snd
    | intro _
    | split

theorem execPlanPeriodBoundary_ok {s : _} (h_s : Ok p g (view (s))) :
    ∀ u, Machine.execPlanPeriodBoundary s = .next u → Ok p g (view u) := by
  intro u e
  unfold Machine.execPlanPeriodBoundary at e
  first | (have e := Host.Outcome.next.inj e; subst e) | skip
  repeat' first
    | with_reducible assumption
    | with_reducible refine periodBoundary_ok ?_

theorem execCancel_ok {s : _} (h_s : Ok p g (view (s))) :
    ∀ u, Machine.execCancel s = .next u → Ok p g (view u) := by
  intro u e
  unfold Machine.execCancel at e
  first | (have e := Host.Outcome.next.inj e; subst e) | skip
  repeat' first
    | with_reducible assumption
    | with_reducible refine cancelArm_ok ?_

end Sys2Proof.Laws
end

