-- ==== Sys2Proof/Laws/KeepMbx.lean ====
section
/-!
SUPPORT. What the operations of Machine/Mbx.lean keep of the view of Laws/Good.lean.
-/
namespace Sys2Proof.Laws

open Sys2Proof.Machine

variable {p : List Instr} {g : Grade × W64}

theorem invalid_ok {s : _} (h_s : Ok p g (view (s))) :
    Ok p g (view (Machine.invalid s)) := by
  unfold Machine.invalid
  repeat' first
    | with_reducible assumption
    | with_reducible refine record_ok ?_
    | with_reducible refine answer_ok ?_

theorem withBuf_ok {s : _} {b : _} {run : _} (h_s : Ok p g (view (s))) (h_run : ∀ v0, Ok p g (view (v0)) → Ok p g (view (run v0))) :
    Ok p g (view (Machine.withBuf s b run)) := by
  unfold Machine.withBuf
  repeat' first
    | with_reducible assumption
    | with_reducible refine invalid_ok ?_
    | with_reducible apply h_run
    | with_reducible apply ok_foldl
    | with_reducible apply ok_foldl_fst
    | with_reducible apply ok_ite
    | with_reducible apply ok_ite_fst
    | with_reducible apply ok_ite_snd
    | intro _

theorem background_ok {s : _} {op : _} {st : _} {out : _} {detail : _} (h_s : Ok p g (view (s))) :
    Ok p g (view (Machine.background s op st out detail)) := by
  unfold Machine.background
  repeat' first
    | with_reducible assumption
    | with_reducible refine mbxRefused_ok ?_
    | with_reducible refine answer_ok ?_
    | with_reducible apply ok_foldl
    | with_reducible apply ok_foldl_fst
    | with_reducible apply ok_ite
    | with_reducible apply ok_ite_fst
    | with_reducible apply ok_ite_snd
    | intro _
    | split
    | (with_reducible refine ok_of_pair (by assumption) ?_)
    | (with_reducible refine ok_of_pair2 (by assumption) ?_)
    | (with_reducible refine ok_of_hres (by assumption) ?_)
    | (with_reducible refine ok_of_opt2 (by assumption) ?_)
    | (with_reducible refine ok_of_some (by assumption) ?_)
    | with_reducible refine ok_findSome _ ?_
    | (simp only [view_mk, view_eta])

theorem done_ok {s : _} {st : _} {out : _} {detail : _} (h_s : Ok p g (view (s))) :
    Ok p g (view (Machine.done s st out detail)) := by
  unfold Machine.done
  repeat' first
    | with_reducible assumption
    | with_reducible refine answer_ok ?_

theorem mbx_ok {s : _} {a : _} {recov : _} {run : _} (h_s : Ok p g (view (s))) (h_run : ∀ v0, Ok p g (view (v0)) → Ok p g (view (run v0))) :
    Ok p g (view (Machine.mbx s a recov run)) := by
  unfold Machine.mbx
  repeat' first
    | with_reducible assumption
    | with_reducible refine answer_ok ?_
    | with_reducible apply h_run
    | with_reducible apply ok_foldl
    | with_reducible apply ok_foldl_fst
    | with_reducible apply ok_ite
    | with_reducible apply ok_ite_fst
    | with_reducible apply ok_ite_snd
    | intro _

end Sys2Proof.Laws
end

