-- ==== Sys2Proof/Laws/KeepRepair.lean ====
section
/-!
SUPPORT. What the operations of Machine/Repair.lean keep of the view of Laws/Good.lean.
-/
namespace Sys2Proof.Laws

open Sys2Proof.Machine

variable {p : List Instr} {g : Grade × W64}

theorem readLine_ok {s : _} {line : _} (h_s : Ok p g (view (s))) :
    Ok p g (view (Machine.readLine s line).1) := by
  unfold Machine.readLine
  repeat' first
    | with_reducible assumption
    | with_reducible refine touchLine_ok ?_
    | with_reducible apply ok_foldl
    | with_reducible apply ok_foldl_fst
    | with_reducible apply ok_ite
    | with_reducible apply ok_ite_fst
    | with_reducible apply ok_ite_snd
    | intro _
    | split
    | (with_reducible refine ok_of_pair (by assumption) ?_)
    | (with_reducible refine ok_of_pair2 (by assumption) ?_)
    | (with_reducible refine ok_of_hres (by assumption) ?_)
    | (with_reducible refine ok_of_opt2 (by assumption) ?_)
    | (with_reducible refine ok_of_some (by assumption) ?_)
    | with_reducible refine ok_findSome _ ?_
    | (simp only [view_mk, view_eta])

theorem rakeCorrected_ok {s : _} {st : _} {r : _} {pass : _} (h_s : Ok p g (view (s))) :
    Ok p g (view (Machine.rakeCorrected s st r pass)) := by
  unfold Machine.rakeCorrected
  repeat' first
    | with_reducible assumption
    | with_reducible refine addCandidate_ok ?_
    | with_reducible apply ok_foldl
    | with_reducible apply ok_foldl_fst
    | with_reducible apply ok_ite
    | with_reducible apply ok_ite_fst
    | with_reducible apply ok_ite_snd
    | intro _
    | split
    | (with_reducible refine ok_of_pair (by assumption) ?_)
    | (with_reducible refine ok_of_pair2 (by assumption) ?_)
    | (with_reducible refine ok_of_hres (by assumption) ?_)
    | (with_reducible refine ok_of_opt2 (by assumption) ?_)
    | (with_reducible refine ok_of_some (by assumption) ?_)
    | with_reducible refine ok_findSome _ ?_
    | (simp only [view_mk, view_eta])

theorem carryLine_ok {s : _} {line : _} (h_s : Ok p g (view (s))) :
    Ok p g (view (Machine.carryLine s line)) := by
  unfold Machine.carryLine
  repeat' first
    | with_reducible assumption
    | with_reducible apply ok_foldl
    | with_reducible apply ok_foldl_fst
    | with_reducible apply ok_ite
    | with_reducible apply ok_ite_fst
    | with_reducible apply ok_ite_snd
    | intro _
    | split
    | (with_reducible refine ok_of_pair (by assumption) ?_)
    | (with_reducible refine ok_of_pair2 (by assumption) ?_)
    | (with_reducible refine ok_of_hres (by assumption) ?_)
    | (with_reducible refine ok_of_opt2 (by assumption) ?_)
    | (with_reducible refine ok_of_some (by assumption) ?_)
    | with_reducible refine ok_findSome _ ?_
    | (simp only [view_mk, view_eta])

theorem rake_ok {s : _} {st : _} (h_s : Ok p g (view (s))) :
    Ok p g (view (Machine.rake s st)) := by
  unfold Machine.rake
  repeat' first
    | with_reducible assumption
    | with_reducible refine readLine_ok ?_
    | with_reducible refine rakeCorrected_ok ?_
    | with_reducible refine carryLine_ok ?_
    | with_reducible refine record_ok ?_
    | with_reducible refine State_setStack_ok ?_
    | with_reducible apply ok_foldl
    | with_reducible apply ok_foldl_fst
    | with_reducible apply ok_ite
    | with_reducible apply ok_ite_fst
    | with_reducible apply ok_ite_snd
    | intro _
    | split

theorem execRakeRead_ok {stack : _} {s : _} (h_s : Ok p g (view (s))) :
    ∀ u, Machine.execRakeRead stack s = .next u → Ok p g (view u) := by
  intro u e
  unfold Machine.execRakeRead at e
  first | (have e := Host.Outcome.next.inj e; subst e) | skip
  repeat' first
    | with_reducible assumption
    | with_reducible refine rake_ok ?_
    | with_reducible apply ok_foldl
    | with_reducible apply ok_foldl_fst
    | with_reducible apply ok_ite
    | with_reducible apply ok_ite_fst
    | with_reducible apply ok_ite_snd
    | intro _

theorem memTest_ok {s : _} {op : _} {st : _} {run : _} {buf : _} (h_s : Ok p g (view (s))) (h_run : ∀ v0, Ok p g (view (v0)) → Ok p g (view (run v0).1)) :
    Ok p g (view (Machine.memTest s op st run buf)) := by
  unfold Machine.memTest
  repeat' first
    | with_reducible assumption
    | with_reducible refine mbx_ok ?_ ?_
    | with_reducible refine invalid_ok ?_
    | with_reducible refine background_ok ?_
    | with_reducible apply h_run
    | with_reducible apply ok_foldl
    | with_reducible apply ok_foldl_fst
    | with_reducible apply ok_ite
    | with_reducible apply ok_ite_fst
    | with_reducible apply ok_ite_snd
    | intro _
    | split
    | (with_reducible refine ok_of_pair (by assumption) ?_)
    | (with_reducible refine ok_of_pair2 (by assumption) ?_)
    | (with_reducible refine ok_of_hres (by assumption) ?_)
    | (with_reducible refine ok_of_opt2 (by assumption) ?_)
    | (with_reducible refine ok_of_some (by assumption) ?_)
    | with_reducible refine ok_findSome _ ?_
    | (simp only [view_mk, view_eta])

theorem testRefused_ok {s : _} (h_s : Ok p g (view (s))) :
    Ok p g (view (Machine.testRefused s).1) := by
  unfold Machine.testRefused
  repeat' first
    | with_reducible assumption

theorem remap_ok {s : _} {st : _} {ch : _} {lane : _} {hard : _} (h_s : Ok p g (view (s))) :
    ∀ u, Machine.remap s st ch lane hard = some u → Ok p g (view (u)) := by
  intro u e
  unfold remap at e
  obtain ⟨-, e⟩ := Option.ite_none_left_eq_some.1 e
  exact Option.some.inj e ▸ State_setStack_ok h_s

theorem execRemapLane_ok {stack : _} {channel : _} {lane : _} {s : _} (h_s : Ok p g (view (s))) :
    ∀ u, Machine.execRemapLane stack channel lane s = .next u → Ok p g (view u) := by
  intro u e
  unfold Machine.execRemapLane at e
  first | (have e := Host.Outcome.next.inj e; subst e) | skip
  repeat' first
    | with_reducible assumption
    | with_reducible refine memTest_ok ?_ ?_
    | with_reducible refine testRefused_ok ?_
    | with_reducible refine remap_ok ?_
    | with_reducible apply ok_foldl
    | with_reducible apply ok_foldl_fst
    | with_reducible apply ok_ite
    | with_reducible apply ok_ite_fst
    | with_reducible apply ok_ite_snd
    | intro _
    | split
    | (with_reducible refine ok_of_pair (by assumption) ?_)
    | (with_reducible refine ok_of_pair2 (by assumption) ?_)
    | (with_reducible refine ok_of_hres (by assumption) ?_)
    | (with_reducible refine ok_of_opt2 (by assumption) ?_)
    | (with_reducible refine ok_of_some (by assumption) ?_)
    | with_reducible refine ok_findSome _ ?_
    | (simp only [view_mk, view_eta])

theorem toBuffer_ok {s : _} {buf : _} {bs : _} (h_s : Ok p g (view (s))) :
    Ok p g (view (Machine.toBuffer s buf bs).1) := by
  unfold Machine.toBuffer
  repeat' first
    | with_reducible assumption
    | with_reducible refine wrHostN_ok ?_
    | with_reducible apply ok_foldl
    | with_reducible apply ok_foldl_fst
    | with_reducible apply ok_ite
    | with_reducible apply ok_ite_fst
    | with_reducible apply ok_ite_snd
    | intro _

theorem execReadErrorCounts_ok {stack : _} {buf : _} {s : _} (h_s : Ok p g (view (s))) :
    ∀ u, Machine.execReadErrorCounts stack buf s = .next u → Ok p g (view u) := by
  intro u e
  unfold Machine.execReadErrorCounts at e
  first | (have e := Host.Outcome.next.inj e; subst e) | skip
  repeat' first
    | with_reducible assumption
    | with_reducible refine memTest_ok ?_ ?_
    | with_reducible refine toBuffer_ok ?_
    | with_reducible apply ok_foldl
    | with_reducible apply ok_foldl_fst
    | with_reducible apply ok_ite
    | with_reducible apply ok_ite_fst
    | with_reducible apply ok_ite_snd
    | intro _

theorem repairRow_ok {s : _} {st : _} {r : _} (h_s : Ok p g (view (s))) :
    Ok p g (view (Machine.repairRow s st r)) := by
  unfold Machine.repairRow
  repeat' first
    | with_reducible assumption
    | with_reducible refine readLine_ok ?_
    | with_reducible refine eraseKeys_ok ?_
    | with_reducible refine record_ok ?_
    | with_reducible refine carryLine_ok ?_
    | with_reducible refine State_setStack_ok ?_
    | with_reducible apply ok_foldl
    | with_reducible apply ok_foldl_fst
    | with_reducible apply ok_ite
    | with_reducible apply ok_ite_fst
    | with_reducible apply ok_ite_snd
    | intro _
    | split
    | (with_reducible refine ok_of_pair (by assumption) ?_)
    | (with_reducible refine ok_of_pair2 (by assumption) ?_)
    | (with_reducible refine ok_of_hres (by assumption) ?_)
    | (with_reducible refine ok_of_opt2 (by assumption) ?_)
    | (with_reducible refine ok_of_some (by assumption) ?_)
    | with_reducible refine ok_findSome _ ?_
    | (simp only [view_mk, view_eta])

theorem zeroChannel_ok {s : _} {st : _} {ch : _} (h_s : Ok p g (view (s))) :
    Ok p g (view (Machine.zeroChannel s st ch)) := by
  exact ⟨h_s.pending, h_s.grade, h_s.serial, filter_wf _ h_s.mem, h_s.hostMem, h_s.log, h_s.logq, h_s.em, h_s.sess,
    h_s.ctl⟩

theorem channelTest_ok {s : _} {op : _} {st : _} {ch : _} {buf : _} (h_s : Ok p g (view (s))) :
    Ok p g (view (Machine.channelTest s op st ch buf)) := by
  unfold Machine.channelTest
  repeat' first
    | with_reducible assumption
    | with_reducible refine memTest_ok ?_ ?_
    | with_reducible refine testRefused_ok ?_
    | with_reducible refine toBuffer_ok ?_
    | with_reducible refine drew_ok ?_
    | with_reducible refine zeroChannel_ok ?_
    | with_reducible apply ok_foldl
    | with_reducible apply ok_foldl_fst
    | with_reducible apply ok_ite
    | with_reducible apply ok_ite_fst
    | with_reducible apply ok_ite_snd
    | intro _

theorem execRefresh_ok {_stack : _} {_channel : _} {s : _} (h_s : Ok p g (view (s))) :
    ∀ u, Machine.execRefresh _stack _channel s = .next u → Ok p g (view u) := by
  intro u e
  unfold Machine.execRefresh at e
  first | (have e := Host.Outcome.next.inj e; subst e) | skip
  repeat' first
    | with_reducible assumption

theorem execListCandidates_ok {stack : _} {buf : _} {s : _} (h_s : Ok p g (view (s))) :
    ∀ u, Machine.execListCandidates stack buf s = .next u → Ok p g (view u) := by
  intro u e
  unfold Machine.execListCandidates at e
  first | (have e := Host.Outcome.next.inj e; subst e) | skip
  repeat' first
    | with_reducible assumption
    | with_reducible refine memTest_ok ?_ ?_
    | with_reducible refine toBuffer_ok ?_
    | with_reducible apply ok_foldl
    | with_reducible apply ok_foldl_fst
    | with_reducible apply ok_ite
    | with_reducible apply ok_ite_fst
    | with_reducible apply ok_ite_snd
    | intro _

theorem execMarkLane_ok {stack : _} {channel : _} {lane : _} {s : _} (h_s : Ok p g (view (s))) :
    ∀ u, Machine.execMarkLane stack channel lane s = .next u → Ok p g (view u) := by
  intro u e
  unfold Machine.execMarkLane at e
  first | (have e := Host.Outcome.next.inj e; subst e) | skip
  repeat' first
    | with_reducible assumption
    | with_reducible refine mbx_ok ?_ ?_
    | with_reducible refine invalid_ok ?_
    | with_reducible refine memTest_ok ?_ ?_
    | with_reducible refine markLane_ok ?_
    | with_reducible apply ok_foldl
    | with_reducible apply ok_foldl_fst
    | with_reducible apply ok_ite
    | with_reducible apply ok_ite_fst
    | with_reducible apply ok_ite_snd
    | intro _

theorem execReadRepairMap_ok {stack : _} {buf : _} {s : _} (h_s : Ok p g (view (s))) :
    ∀ u, Machine.execReadRepairMap stack buf s = .next u → Ok p g (view u) := by
  intro u e
  unfold Machine.execReadRepairMap at e
  first | (have e := Host.Outcome.next.inj e; subst e) | skip
  repeat' first
    | with_reducible assumption
    | with_reducible refine memTest_ok ?_ ?_
    | with_reducible refine toBuffer_ok ?_
    | with_reducible apply ok_foldl
    | with_reducible apply ok_foldl_fst
    | with_reducible apply ok_ite
    | with_reducible apply ok_ite_fst
    | with_reducible apply ok_ite_snd
    | intro _

theorem execMarginTest_ok {stack : _} {channel : _} {buf : _} {s : _} (h_s : Ok p g (view (s))) :
    ∀ u, Machine.execMarginTest stack channel buf s = .next u → Ok p g (view u) := by
  intro u e
  unfold Machine.execMarginTest at e
  first | (have e := Host.Outcome.next.inj e; subst e) | skip
  repeat' first
    | with_reducible assumption
    | with_reducible refine channelTest_ok ?_

theorem execPatternTest_ok {stack : _} {channel : _} {buf : _} {s : _} (h_s : Ok p g (view (s))) :
    ∀ u, Machine.execPatternTest stack channel buf s = .next u → Ok p g (view u) := by
  intro u e
  unfold Machine.execPatternTest at e
  first | (have e := Host.Outcome.next.inj e; subst e) | skip
  repeat' first
    | with_reducible assumption
    | with_reducible refine channelTest_ok ?_

theorem repairAll_ok {s : _} (h_s : Ok p g (view (s))) :
    Ok p g (view (Machine.repairAll s)) := by
  unfold Machine.repairAll
  repeat' first
    | with_reducible assumption
    | with_reducible refine repairRow_ok ?_
    | with_reducible refine remap_ok ?_
    | with_reducible apply ok_foldl
    | with_reducible apply ok_foldl_fst
    | with_reducible apply ok_ite
    | with_reducible apply ok_ite_fst
    | with_reducible apply ok_ite_snd
    | intro _
    | split
    | (with_reducible refine ok_of_pair (by assumption) ?_)
    | (with_reducible refine ok_of_pair2 (by assumption) ?_)
    | (with_reducible refine ok_of_hres (by assumption) ?_)
    | (with_reducible refine ok_of_opt2 (by assumption) ?_)
    | (with_reducible refine ok_of_some (by assumption) ?_)
    | with_reducible refine ok_findSome _ ?_
    | (simp only [view_mk, view_eta])

theorem execRepairRow_ok {stack : _} {channel : _} {bank : _} {row : _} {hard : _} {s : _} (h_s : Ok p g (view (s))) :
    ∀ u, Machine.execRepairRow stack channel bank row hard s = .next u → Ok p g (view u) := by
  intro u e
  unfold Machine.execRepairRow at e
  first | (have e := Host.Outcome.next.inj e; subst e) | skip
  repeat' first
    | with_reducible assumption
    | with_reducible refine memTest_ok ?_ ?_
    | with_reducible refine testRefused_ok ?_
    | with_reducible refine repairRow_ok ?_
    | with_reducible apply ok_foldl
    | with_reducible apply ok_foldl_fst
    | with_reducible apply ok_ite
    | with_reducible apply ok_ite_fst
    | with_reducible apply ok_ite_snd
    | intro _
    | split
    | (with_reducible refine ok_of_pair (by assumption) ?_)
    | (with_reducible refine ok_of_pair2 (by assumption) ?_)
    | (with_reducible refine ok_of_hres (by assumption) ?_)
    | (with_reducible refine ok_of_opt2 (by assumption) ?_)
    | (with_reducible refine ok_of_some (by assumption) ?_)
    | with_reducible refine ok_findSome _ ?_
    | (simp only [view_mk, view_eta])

end Sys2Proof.Laws
end

