-- ==== Sys2Proof/Laws/KeepLaunch.lean ====
section
/-!
SUPPORT. What the operations of Machine/Launch.lean keep of the view of Laws/Good.lean.
-/
namespace Sys2Proof.Laws

open Sys2Proof.Machine

variable {p : List Instr} {g : Grade × W64}

theorem sendCtl_ok {s : _} {dst : _} {op : _} {subop : _} {arg : _} {off : _} {bs : _} (h_s : Ok p g (view (s))) :
    Ok p g (view (Machine.sendCtl s dst op subop arg off bs)) := by
  unfold Machine.sendCtl
  repeat' first
    | with_reducible assumption
    | with_reducible refine enqueue_ok ?_

theorem sendPrepare_ok {s : _} {m : _} {tree : _} {l : _} (h_s : Ok p g (view (s))) :
    Ok p g (view (Machine.sendPrepare s m tree l)) := by
  unfold Machine.sendPrepare
  repeat' first
    | with_reducible assumption
    | with_reducible refine sendCtl_ok ?_
    | with_reducible apply ok_foldl
    | with_reducible apply ok_foldl_fst
    | with_reducible apply ok_ite
    | with_reducible apply ok_ite_fst
    | with_reducible apply ok_ite_snd
    | intro _

theorem updPrep_ok {s : _} {f : _} (h_s : Ok p g (view (s))) :
    Ok p g (view (Machine.updPrep s f)) := by
  unfold Machine.updPrep
  repeat' first
    | with_reducible assumption
    | with_reducible apply ok_foldl
    | with_reducible apply ok_foldl_fst
    | with_reducible apply ok_ite
    | with_reducible apply ok_ite_fst
    | with_reducible apply ok_ite_snd
    | intro _
    | split
    | (with_reducible refine ok_of_pair (by assumption) ?_)
    | (with_reducible refine ok_of_pair2 (by assumption) ?_)
    | (with_reducible refine ok_of_hres (by assumption) ?_)
    | (with_reducible refine ok_of_opt2 (by assumption) ?_)
    | (with_reducible refine ok_of_some (by assumption) ?_)
    | with_reducible refine ok_findSome _ ?_
    | (simp only [view_mk, view_eta])

theorem sendCommit_ok {s : _} {m : _} (h_s : Ok p g (view (s))) :
    Ok p g (view (Machine.sendCommit s m)) := by
  unfold Machine.sendCommit
  repeat' first
    | with_reducible assumption
    | with_reducible refine sendCtl_ok ?_
    | with_reducible apply ok_foldl
    | with_reducible apply ok_foldl_fst
    | with_reducible apply ok_ite
    | with_reducible apply ok_ite_fst
    | with_reducible apply ok_ite_snd
    | intro _

theorem stopHarts_ok {s : _} (h_s : Ok p g (view (s))) :
    Ok p g (view (Machine.stopHarts s)) := by
  unfold Machine.stopHarts
  repeat' first
    | with_reducible assumption
    | with_reducible refine drainAll_ok ?_
    | with_reducible apply ok_foldl
    | with_reducible apply ok_foldl_fst
    | with_reducible apply ok_ite
    | with_reducible apply ok_ite_fst
    | with_reducible apply ok_ite_snd
    | intro _
    | split
    | (with_reducible refine ok_of_pair (by assumption) ?_)
    | (with_reducible refine ok_of_pair2 (by assumption) ?_)
    | (with_reducible refine ok_of_hres (by assumption) ?_)
    | (with_reducible refine ok_of_opt2 (by assumption) ?_)
    | (with_reducible refine ok_of_some (by assumption) ?_)
    | with_reducible refine ok_findSome _ ?_
    | (simp only [view_mk, view_eta])

theorem endJob_ok {s : _} (h_s : Ok p g (view (s))) :
    Ok p g (view (Machine.endJob s)) := by
  unfold Machine.endJob
  repeat' first
    | with_reducible assumption
    | with_reducible refine stopHarts_ok ?_
    | with_reducible refine repairAll_ok ?_
    | with_reducible apply ok_foldl
    | with_reducible apply ok_foldl_fst
    | with_reducible apply ok_ite
    | with_reducible apply ok_ite_fst
    | with_reducible apply ok_ite_snd
    | intro _
    | split
    | (with_reducible refine ok_of_pair (by assumption) ?_)
    | (with_reducible refine ok_of_pair2 (by assumption) ?_)
    | (with_reducible refine ok_of_hres (by assumption) ?_)
    | (with_reducible refine ok_of_opt2 (by assumption) ?_)
    | (with_reducible refine ok_of_some (by assumption) ?_)
    | with_reducible refine ok_findSome _ ?_
    | (simp only [view_mk, view_eta])

theorem abortInFl_ok {b : _} {q : _} {s : _} {f : _} (h_s : Ok p g (view (s))) :
    Ok p g (view (Machine.abortInFl b q s f)) := by
  unfold Machine.abortInFl
  repeat' first
    | with_reducible assumption
    | with_reducible refine State_setCtx_ok ?_
    | with_reducible refine finish_ok ?_
    | with_reducible refine dropEntries_ok ?_
    | with_reducible apply ok_foldl
    | with_reducible apply ok_foldl_fst
    | with_reducible apply ok_ite
    | with_reducible apply ok_ite_fst
    | with_reducible apply ok_ite_snd
    | intro _
    | split

theorem abortFrames_ok {s : _} {id : _} (h_s : Ok p g (view (s))) :
    Ok p g (view (Machine.abortFrames s id)) := by
  unfold Machine.abortFrames
  repeat' first
    | with_reducible assumption
    | with_reducible apply ok_foldl
    | with_reducible apply ok_foldl_fst
    | with_reducible apply ok_ite
    | with_reducible apply ok_ite_fst
    | with_reducible apply ok_ite_snd
    | intro _
    | split
    | (with_reducible refine ok_of_pair (by assumption) ?_)
    | (with_reducible refine ok_of_pair2 (by assumption) ?_)
    | (with_reducible refine ok_of_hres (by assumption) ?_)
    | (with_reducible refine ok_of_opt2 (by assumption) ?_)
    | (with_reducible refine ok_of_some (by assumption) ?_)
    | with_reducible refine ok_findSome _ ?_
    | (simp only [view_mk, view_eta])

theorem abortHedge_ok {s : _} {id : _} (h_s : Ok p g (view (s))) :
    Ok p g (view (Machine.abortHedge s id)) := by
  unfold Machine.abortHedge
  repeat' first
    | with_reducible assumption
    | with_reducible refine abortInFl_ok ?_
    | with_reducible refine abortFrames_ok ?_
    | with_reducible refine failOrigin_ok ?_
    | with_reducible apply ok_foldl
    | with_reducible apply ok_foldl_fst
    | with_reducible apply ok_ite
    | with_reducible apply ok_ite_fst
    | with_reducible apply ok_ite_snd
    | intro _
    | split

theorem layHedge_ok {failed : _} {s : _} {a2 : _} (h_s : Ok p g (view (s))) :
    Ok p g (view (Machine.layHedge failed s a2)) := by
  unfold Machine.layHedge
  repeat' first
    | with_reducible assumption
    | with_reducible refine abortHedge_ok ?_
    | with_reducible refine zeroWork_ok ?_
    | with_reducible refine updHedge_ok ?_
    | with_reducible apply ok_foldl
    | with_reducible apply ok_foldl_fst
    | with_reducible apply ok_ite
    | with_reducible apply ok_ite_fst
    | with_reducible apply ok_ite_snd
    | intro _

theorem layNow_ok {s : _} {m : _} (h_s : Ok p g (view (s))) :
    Ok p g (view (Machine.layNow s m)) := by
  unfold Machine.layNow
  repeat' first
    | with_reducible assumption
    | with_reducible refine endJob_ok ?_
    | with_reducible refine layHedge_ok ?_
    | with_reducible apply ok_foldl
    | with_reducible apply ok_foldl_fst
    | with_reducible apply ok_ite
    | with_reducible apply ok_ite_fst
    | with_reducible apply ok_ite_snd
    | intro _
    | split
    | (with_reducible refine ok_of_pair (by assumption) ?_)
    | (with_reducible refine ok_of_pair2 (by assumption) ?_)
    | (with_reducible refine ok_of_hres (by assumption) ?_)
    | (with_reducible refine ok_of_opt2 (by assumption) ?_)
    | (with_reducible refine ok_of_some (by assumption) ?_)
    | with_reducible refine ok_findSome _ ?_
    | (simp only [view_mk, view_eta])

theorem tryCommit_ok {s : _} (h_s : Ok p g (view (s))) :
    Ok p g (view (Machine.tryCommit s)) := by
  unfold Machine.tryCommit
  repeat' first
    | with_reducible assumption
    | with_reducible refine updPrep_ok ?_
    | with_reducible refine sendCommit_ok ?_
    | with_reducible refine layNow_ok ?_
    | with_reducible apply ok_foldl
    | with_reducible apply ok_foldl_fst
    | with_reducible apply ok_ite
    | with_reducible apply ok_ite_fst
    | with_reducible apply ok_ite_snd
    | intro _
    | split

theorem beginLaunch_ok {s : _} {m : _} (h_s : Ok p g (view (s))) :
    Ok p g (view (Machine.beginLaunch s m)) := by
  unfold Machine.beginLaunch
  repeat' first
    | with_reducible assumption
    | with_reducible refine sendPrepare_ok ?_
    | with_reducible refine tryCommit_ok ?_
    | with_reducible apply ok_foldl
    | with_reducible apply ok_foldl_fst
    | with_reducible apply ok_ite
    | with_reducible apply ok_ite_fst
    | with_reducible apply ok_ite_snd
    | intro _
    | split
    | (with_reducible refine ok_of_pair (by assumption) ?_)
    | (with_reducible refine ok_of_pair2 (by assumption) ?_)
    | (with_reducible refine ok_of_hres (by assumption) ?_)
    | (with_reducible refine ok_of_opt2 (by assumption) ?_)
    | (with_reducible refine ok_of_some (by assumption) ?_)
    | with_reducible refine ok_findSome _ ?_
    | (simp only [view_mk, view_eta])

theorem startHarts_ok {s : _} {step : _} (h_s : Ok p g (view (s))) :
    Ok p g (view (Machine.startHarts s step)) := by
  unfold Machine.startHarts
  repeat' first
    | with_reducible assumption
    | with_reducible refine State_setHart_ok ?_
    | with_reducible apply ok_foldl
    | with_reducible apply ok_foldl_fst
    | with_reducible apply ok_ite
    | with_reducible apply ok_ite_fst
    | with_reducible apply ok_ite_snd
    | intro _

theorem firstStep_ok {s : _} {m : _} (h_s : Ok p g (view (s))) :
    Ok p g (view (Machine.firstStep s m)) := by
  unfold Machine.firstStep
  repeat' first
    | with_reducible assumption
    | with_reducible apply ok_foldl
    | with_reducible apply ok_foldl_fst
    | with_reducible apply ok_ite
    | with_reducible apply ok_ite_fst
    | with_reducible apply ok_ite_snd
    | intro _
    | split
    | (with_reducible refine ok_of_pair (by assumption) ?_)
    | (with_reducible refine ok_of_pair2 (by assumption) ?_)
    | (with_reducible refine ok_of_hres (by assumption) ?_)
    | (with_reducible refine ok_of_opt2 (by assumption) ?_)
    | (with_reducible refine ok_of_some (by assumption) ?_)
    | with_reducible refine ok_findSome _ ?_
    | (simp only [view_mk, view_eta])

theorem goOn_ok {s : _} {m : _} (h_s : Ok p g (view (s))) :
    Ok p g (view (Machine.goOn s m)) := by
  unfold Machine.goOn
  repeat' first
    | with_reducible assumption
    | with_reducible refine releaseQueues_ok ?_
    | with_reducible apply ok_foldl
    | with_reducible apply ok_foldl_fst
    | with_reducible apply ok_ite
    | with_reducible apply ok_ite_fst
    | with_reducible apply ok_ite_snd
    | intro _
    | split
    | (with_reducible refine ok_of_pair (by assumption) ?_)
    | (with_reducible refine ok_of_pair2 (by assumption) ?_)
    | (with_reducible refine ok_of_hres (by assumption) ?_)
    | (with_reducible refine ok_of_opt2 (by assumption) ?_)
    | (with_reducible refine ok_of_some (by assumption) ?_)
    | with_reducible refine ok_findSome _ ?_
    | (simp only [view_mk, view_eta])

theorem execTGo_ok {s : _} (h_s : Ok p g (view (s))) :
    ∀ u, Machine.execTGo s = .next u → Ok p g (view u) := by
  intro u e
  unfold Machine.execTGo at e
  first | (have e := Host.Outcome.next.inj e; subst e) | skip
  repeat' first
    | with_reducible assumption
    | with_reducible refine startHarts_ok ?_
    | with_reducible refine firstStep_ok ?_
    | with_reducible refine goOn_ok ?_
    | with_reducible apply ok_foldl
    | with_reducible apply ok_foldl_fst
    | with_reducible apply ok_ite
    | with_reducible apply ok_ite_fst
    | with_reducible apply ok_ite_snd
    | intro _
    | split

theorem reportMissing_ok {s : _} {l : _} (h_s : Ok p g (view (s))) :
    Ok p g (view (Machine.reportMissing s l)) := by
  unfold Machine.reportMissing
  repeat' first
    | with_reducible assumption
    | with_reducible refine logEntry_ok ?_
    | with_reducible apply ok_foldl
    | with_reducible apply ok_foldl_fst
    | with_reducible apply ok_ite
    | with_reducible apply ok_ite_fst
    | with_reducible apply ok_ite_snd
    | intro _

theorem execLaunch_ok {root : _} {tGo : _} {commitDeadline : _} {expiry : _} {arity : _} {s : _} (h_s : Ok p g (view (s))) :
    ∀ u, Machine.execLaunch root tGo commitDeadline expiry arity s = .next u → Ok p g (view u) := by
  intro u e
  unfold Machine.execLaunch at e
  first | (have e := Host.Outcome.next.inj e; subst e) | skip
  repeat' first
    | with_reducible assumption
    | with_reducible refine mbx_ok ?_ ?_
    | with_reducible refine invalid_ok ?_
    | with_reducible refine done_ok ?_
    | with_reducible refine beginLaunch_ok ?_
    | with_reducible apply ok_foldl
    | with_reducible apply ok_foldl_fst
    | with_reducible apply ok_ite
    | with_reducible apply ok_ite_fst
    | with_reducible apply ok_ite_snd
    | intro _

theorem execCommitDeadline_ok {s : _} (h_s : Ok p g (view (s))) :
    ∀ u, Machine.execCommitDeadline s = .next u → Ok p g (view u) := by
  intro u e
  unfold Machine.execCommitDeadline at e
  first | (have e := Host.Outcome.next.inj e; subst e) | skip
  repeat' first
    | with_reducible assumption
    | with_reducible refine tryCommit_ok ?_
    | with_reducible refine reportMissing_ok ?_
    | with_reducible refine updPrep_ok ?_
    | with_reducible apply ok_foldl
    | with_reducible apply ok_foldl_fst
    | with_reducible apply ok_ite
    | with_reducible apply ok_ite_fst
    | with_reducible apply ok_ite_snd
    | intro _
    | split
    | (with_reducible refine ok_of_pair (by assumption) ?_)
    | (with_reducible refine ok_of_pair2 (by assumption) ?_)
    | (with_reducible refine ok_of_hres (by assumption) ?_)
    | (with_reducible refine ok_of_opt2 (by assumption) ?_)
    | (with_reducible refine ok_of_some (by assumption) ?_)
    | with_reducible refine ok_findSome _ ?_
    | (simp only [view_mk, view_eta])

theorem execExpiry_ok {s : _} (h_s : Ok p g (view (s))) :
    ∀ u, Machine.execExpiry s = .next u → Ok p g (view u) := by
  intro u e
  unfold Machine.execExpiry at e
  first | (have e := Host.Outcome.next.inj e; subst e) | skip
  repeat' first
    | with_reducible assumption
    | with_reducible refine record_ok ?_
    | with_reducible apply ok_foldl
    | with_reducible apply ok_foldl_fst
    | with_reducible apply ok_ite
    | with_reducible apply ok_ite_fst
    | with_reducible apply ok_ite_snd
    | intro _
    | split
    | (with_reducible refine ok_of_pair (by assumption) ?_)
    | (with_reducible refine ok_of_pair2 (by assumption) ?_)
    | (with_reducible refine ok_of_hres (by assumption) ?_)
    | (with_reducible refine ok_of_opt2 (by assumption) ?_)
    | (with_reducible refine ok_of_some (by assumption) ?_)
    | with_reducible refine ok_findSome _ ?_
    | (simp only [view_mk, view_eta])

theorem execCommitResend_ok {s : _} (h_s : Ok p g (view (s))) :
    ∀ u, Machine.execCommitResend s = .next u → Ok p g (view u) := by
  intro u e
  unfold Machine.execCommitResend at e
  first | (have e := Host.Outcome.next.inj e; subst e) | skip
  repeat' first
    | with_reducible assumption
    | with_reducible refine updPrep_ok ?_
    | with_reducible refine sendCommit_ok ?_
    | with_reducible apply ok_foldl
    | with_reducible apply ok_foldl_fst
    | with_reducible apply ok_ite
    | with_reducible apply ok_ite_fst
    | with_reducible apply ok_ite_snd
    | intro _
    | split

theorem sendAck_ok {s : _} {tree : _} {own : _} (h_s : Ok p g (view (s))) :
    Ok p g (view (Machine.sendAck s tree own)) := by
  unfold Machine.sendAck
  repeat' first
    | with_reducible assumption
    | with_reducible refine updPrep_ok ?_
    | with_reducible refine sendCtl_ok ?_
    | with_reducible apply ok_foldl
    | with_reducible apply ok_foldl_fst
    | with_reducible apply ok_ite
    | with_reducible apply ok_ite_fst
    | with_reducible apply ok_ite_snd
    | intro _
    | split

theorem fromNode_ok {s : _} {src : _} {run : _} (h_s : Ok p g (view (s))) (h_run : ∀ v0, Ok p g (view (v0)) → Ok p g (view (run v0))) :
    Ok p g (view (Machine.fromNode s src run)) := by
  unfold Machine.fromNode
  repeat' first
    | with_reducible assumption
    | with_reducible refine dropQuarantined_ok ?_
    | with_reducible apply h_run
    | with_reducible apply ok_foldl
    | with_reducible apply ok_foldl_fst
    | with_reducible apply ok_ite
    | with_reducible apply ok_ite_fst
    | with_reducible apply ok_ite_snd
    | intro _

theorem tryAck_ok {s : _} {tree : _} (h_s : Ok p g (view (s))) :
    Ok p g (view (Machine.tryAck s tree)) := by
  unfold Machine.tryAck
  repeat' first
    | with_reducible assumption
    | with_reducible refine sendAck_ok ?_
    | with_reducible apply ok_foldl
    | with_reducible apply ok_foldl_fst
    | with_reducible apply ok_ite
    | with_reducible apply ok_ite_fst
    | with_reducible apply ok_ite_snd
    | intro _
    | split

theorem execPrepare_ok {src : _} {tree : _} {a2 : _} {s : _} (h_s : Ok p g (view (s))) :
    ∀ u, Machine.execPrepare src tree a2 s = .next u → Ok p g (view u) := by
  intro u e
  unfold Machine.execPrepare at e
  first | (have e := Host.Outcome.next.inj e; subst e) | skip
  repeat' first
    | with_reducible assumption
    | with_reducible refine fromNode_ok ?_ ?_
    | with_reducible refine sendAck_ok ?_
    | with_reducible refine updPrep_ok ?_
    | with_reducible refine tryAck_ok ?_
    | with_reducible refine sendPrepare_ok ?_
    | with_reducible apply ok_foldl
    | with_reducible apply ok_foldl_fst
    | with_reducible apply ok_ite
    | with_reducible apply ok_ite_fst
    | with_reducible apply ok_ite_snd
    | intro _
    | split
    | (with_reducible refine ok_of_pair (by assumption) ?_)
    | (with_reducible refine ok_of_pair2 (by assumption) ?_)
    | (with_reducible refine ok_of_hres (by assumption) ?_)
    | (with_reducible refine ok_of_opt2 (by assumption) ?_)
    | (with_reducible refine ok_of_some (by assumption) ?_)
    | with_reducible refine ok_findSome _ ?_
    | (simp only [view_mk, view_eta])

theorem execPrepareResend_ok {s : _} (h_s : Ok p g (view (s))) :
    ∀ u, Machine.execPrepareResend s = .next u → Ok p g (view u) := by
  intro u e
  unfold Machine.execPrepareResend at e
  first | (have e := Host.Outcome.next.inj e; subst e) | skip
  repeat' first
    | with_reducible assumption
    | with_reducible refine sendPrepare_ok ?_
    | with_reducible refine updPrep_ok ?_
    | with_reducible apply ok_foldl
    | with_reducible apply ok_foldl_fst
    | with_reducible apply ok_ite
    | with_reducible apply ok_ite_fst
    | with_reducible apply ok_ite_snd
    | intro _
    | split

theorem execPrepareAck_ok {src : _} {tree : _} {launchId : _} {status : _} {count : _} {s : _} (h_s : Ok p g (view (s))) :
    ∀ u, Machine.execPrepareAck src tree launchId status count s = .next u → Ok p g (view u) := by
  intro u e
  unfold Machine.execPrepareAck at e
  first | (have e := Host.Outcome.next.inj e; subst e) | skip
  repeat' first
    | with_reducible assumption
    | with_reducible refine fromNode_ok ?_ ?_
    | with_reducible refine updPrep_ok ?_
    | with_reducible refine tryCommit_ok ?_
    | with_reducible refine tryAck_ok ?_
    | with_reducible apply ok_foldl
    | with_reducible apply ok_foldl_fst
    | with_reducible apply ok_ite
    | with_reducible apply ok_ite_fst
    | with_reducible apply ok_ite_snd
    | intro _
    | split

theorem relaunch_ok {s : _} {tGo : _} {deadline : _} {expiry : _} {failed : _} (h_s : Ok p g (view (s))) :
    Ok p g (view (Machine.relaunch s tGo deadline expiry failed).1) := by
  unfold Machine.relaunch
  repeat' first
    | with_reducible assumption
    | with_reducible refine beginLaunch_ok ?_
    | with_reducible apply ok_foldl
    | with_reducible apply ok_foldl_fst
    | with_reducible apply ok_ite
    | with_reducible apply ok_ite_fst
    | with_reducible apply ok_ite_snd
    | intro _
    | split
    | (with_reducible refine ok_of_pair (by assumption) ?_)
    | (with_reducible refine ok_of_pair2 (by assumption) ?_)
    | (with_reducible refine ok_of_hres (by assumption) ?_)
    | (with_reducible refine ok_of_opt2 (by assumption) ?_)
    | (with_reducible refine ok_of_some (by assumption) ?_)
    | with_reducible refine ok_findSome _ ?_
    | (simp only [view_mk, view_eta])

theorem execCommit_ok {src : _} {launchId : _} {s : _} (h_s : Ok p g (view (s))) :
    ∀ u, Machine.execCommit src launchId s = .next u → Ok p g (view u) := by
  intro u e
  unfold Machine.execCommit at e
  first | (have e := Host.Outcome.next.inj e; subst e) | skip
  repeat' first
    | with_reducible assumption
    | with_reducible refine fromNode_ok ?_ ?_
    | with_reducible refine updPrep_ok ?_
    | with_reducible refine sendCommit_ok ?_
    | with_reducible refine layNow_ok ?_
    | with_reducible apply ok_foldl
    | with_reducible apply ok_foldl_fst
    | with_reducible apply ok_ite
    | with_reducible apply ok_ite_fst
    | with_reducible apply ok_ite_snd
    | intro _
    | split

end Sys2Proof.Laws
end

