-- ==== Sys2Proof/Laws/KeepMailbox.lean ====
section
/-!
SUPPORT. What the operations of Machine/Mailbox.lean keep of the view of Laws/Good.lean.
-/
namespace Sys2Proof.Laws

open Sys2Proof.Machine

variable {p : List Instr} {g : Grade × W64}

theorem execPlanWrite_ok {bank : _} {k : _} {plan : _} {s : _} (h_s : Ok p g (view (s))) :
    ∀ u, Machine.execPlanWrite bank k plan s = .next u → Ok p g (view u) := by
  intro u e
  unfold Machine.execPlanWrite at e
  first | (have e := Host.Outcome.next.inj e; subst e) | skip
  repeat' first
    | with_reducible assumption
    | with_reducible refine mbx_ok ?_ ?_
    | with_reducible refine background_ok ?_
    | with_reducible refine putPlan_ok ?_
    | with_reducible apply ok_foldl
    | with_reducible apply ok_foldl_fst
    | with_reducible apply ok_ite
    | with_reducible apply ok_ite_fst
    | with_reducible apply ok_ite_snd
    | intro _

theorem drainQuarter_ok {s : _} {base : _} {n : _} {host : _} (h_s : Ok p g (view (s))) :
    Ok p g (view (Machine.drainQuarter s base n host).1) := by
  unfold Machine.drainQuarter
  repeat' first
    | with_reducible assumption
    | with_reducible refine touch_ok ?_
    | with_reducible refine wrHostN_ok ?_
    | with_reducible refine record_ok ?_
    | with_reducible apply ok_foldl
    | with_reducible apply ok_foldl_fst
    | with_reducible apply ok_ite
    | with_reducible apply ok_ite_fst
    | with_reducible apply ok_ite_snd
    | intro _
    | split
    | (with_reducible refine ok_of_pair (by assumption) ?_)

theorem execOrphanLog_ok {s : _} (h_s : Ok p g (view (s))) :
    ∀ u, Machine.execOrphanLog s = .next u → Ok p g (view u) := by
  intro u e
  unfold Machine.execOrphanLog at e
  first | (have e := Host.Outcome.next.inj e; subst e) | skip
  repeat' first
    | with_reducible assumption
    | with_reducible refine mbx_ok ?_ ?_
    | with_reducible refine done_ok ?_
    | with_reducible apply ok_foldl
    | with_reducible apply ok_foldl_fst
    | with_reducible apply ok_ite
    | with_reducible apply ok_ite_fst
    | with_reducible apply ok_ite_snd
    | intro _

theorem execHoldStatus_ok {s : _} (h_s : Ok p g (view (s))) :
    ∀ u, Machine.execHoldStatus s = .next u → Ok p g (view u) := by
  intro u e
  unfold Machine.execHoldStatus at e
  first | (have e := Host.Outcome.next.inj e; subst e) | skip
  repeat' first
    | with_reducible assumption
    | with_reducible refine mbx_ok ?_ ?_
    | with_reducible refine done_ok ?_
    | with_reducible apply ok_foldl
    | with_reducible apply ok_foldl_fst
    | with_reducible apply ok_ite
    | with_reducible apply ok_ite_fst
    | with_reducible apply ok_ite_snd
    | intro _

theorem bgEnds_ok {s : _} {a1 : _} (h_s : Ok p g (view (s))) :
    Ok p g (view (Machine.bgEnds s a1)) := by
  unfold Machine.bgEnds
  repeat' first
    | with_reducible assumption
    | with_reducible apply ok_foldl
    | with_reducible apply ok_foldl_fst
    | with_reducible apply ok_ite
    | with_reducible apply ok_ite_fst
    | with_reducible apply ok_ite_snd
    | intro _
    | split
    | (with_reducible refine ok_of_pair (by assumption) ?_)
    | (with_reducible refine ok_of_pair2 (by assumption) ?_)
    | (with_reducible refine ok_of_hres (by assumption) ?_)
    | (with_reducible refine ok_of_opt2 (by assumption) ?_)
    | (with_reducible refine ok_of_some (by assumption) ?_)
    | with_reducible refine ok_findSome _ ?_
    | (simp only [view_mk, view_eta])

theorem execRestoreReport_ok {s : _} (h_s : Ok p g (view (s))) :
    ∀ u, Machine.execRestoreReport s = .next u → Ok p g (view u) := by
  intro u e
  unfold Machine.execRestoreReport at e
  first | (have e := Host.Outcome.next.inj e; subst e) | skip
  repeat' first
    | with_reducible assumption
    | with_reducible refine mbx_ok ?_ ?_
    | with_reducible refine done_ok ?_
    | with_reducible apply ok_foldl
    | with_reducible apply ok_foldl_fst
    | with_reducible apply ok_ite
    | with_reducible apply ok_ite_fst
    | with_reducible apply ok_ite_snd
    | intro _

theorem execBgAbort_ok {s : _} (h_s : Ok p g (view (s))) :
    ∀ u, Machine.execBgAbort s = .next u → Ok p g (view u) := by
  intro u e
  unfold Machine.execBgAbort at e
  first | (have e := Host.Outcome.next.inj e; subst e) | skip
  repeat' first
    | with_reducible assumption
    | with_reducible refine mbx_ok ?_ ?_
    | with_reducible refine done_ok ?_
    | with_reducible refine bgEnds_ok ?_
    | with_reducible apply ok_foldl
    | with_reducible apply ok_foldl_fst
    | with_reducible apply ok_ite
    | with_reducible apply ok_ite_fst
    | with_reducible apply ok_ite_snd
    | intro _
    | split

theorem useQuarter_ok {s : _} {a1 : _} (h_s : Ok p g (view (s))) :
    Ok p g (view (Machine.useQuarter s a1)) := by
  unfold Machine.useQuarter
  repeat' first
    | with_reducible assumption
    | with_reducible apply ok_foldl
    | with_reducible apply ok_foldl_fst
    | with_reducible apply ok_ite
    | with_reducible apply ok_ite_fst
    | with_reducible apply ok_ite_snd
    | intro _
    | split
    | (with_reducible refine ok_of_pair (by assumption) ?_)
    | (with_reducible refine ok_of_pair2 (by assumption) ?_)
    | (with_reducible refine ok_of_hres (by assumption) ?_)
    | (with_reducible refine ok_of_opt2 (by assumption) ?_)
    | (with_reducible refine ok_of_some (by assumption) ?_)
    | with_reducible refine ok_findSome _ ?_
    | (simp only [view_mk, view_eta])

theorem execCkptDrain_ok {held : _} {a1 : _} {stack : _} {buf : _} {s : _} (h_s : Ok p g (view (s))) :
    ∀ u, Machine.execCkptDrain held a1 stack buf s = .next u → Ok p g (view u) := by
  intro u e
  unfold Machine.execCkptDrain at e
  first | (have e := Host.Outcome.next.inj e; subst e) | skip
  repeat' first
    | with_reducible assumption
    | with_reducible refine mbx_ok ?_ ?_
    | with_reducible refine invalid_ok ?_
    | with_reducible refine withBuf_ok ?_ ?_
    | with_reducible refine background_ok ?_
    | with_reducible refine drainQuarter_ok ?_
    | with_reducible refine useQuarter_ok ?_
    | with_reducible apply ok_foldl
    | with_reducible apply ok_foldl_fst
    | with_reducible apply ok_ite
    | with_reducible apply ok_ite_fst
    | with_reducible apply ok_ite_snd
    | intro _

theorem execBackgroundComplete_ok {s : _} (h_s : Ok p g (view (s))) :
    ∀ u, Machine.execBackgroundComplete s = .next u → Ok p g (view u) := by
  intro u e
  unfold Machine.execBackgroundComplete at e
  first | (have e := Host.Outcome.next.inj e; subst e) | skip
  repeat' first
    | with_reducible assumption
    | with_reducible refine raise_ok ?_
    | with_reducible refine bgEnds_ok ?_
    | with_reducible apply ok_foldl
    | with_reducible apply ok_foldl_fst
    | with_reducible apply ok_ite
    | with_reducible apply ok_ite_fst
    | with_reducible apply ok_ite_snd
    | intro _
    | split

theorem loadQuarter_ok {s : _} {base : _} {bs : _} (h_s : Ok p g (view (s))) :
    Ok p g (view (Machine.loadQuarter s base bs).1) := by
  unfold Machine.loadQuarter
  repeat' first
    | with_reducible assumption
    | with_reducible refine touch_ok ?_
    | with_reducible refine wrN_ok ?_
    | with_reducible refine record_ok ?_
    | with_reducible apply ok_foldl
    | with_reducible apply ok_foldl_fst
    | with_reducible apply ok_ite
    | with_reducible apply ok_ite_fst
    | with_reducible apply ok_ite_snd
    | intro _
    | split
    | (with_reducible refine ok_of_pair (by assumption) ?_)

theorem execCkptLoad_ok {a0 : _} {stack : _} {buf : _} {s : _} (h_s : Ok p g (view (s))) :
    ∀ u, Machine.execCkptLoad a0 stack buf s = .next u → Ok p g (view u) := by
  intro u e
  unfold Machine.execCkptLoad at e
  first | (have e := Host.Outcome.next.inj e; subst e) | skip
  repeat' first
    | with_reducible assumption
    | with_reducible refine mbx_ok ?_ ?_
    | with_reducible refine invalid_ok ?_
    | with_reducible refine withBuf_ok ?_ ?_
    | with_reducible refine background_ok ?_
    | with_reducible refine loadQuarter_ok ?_
    | with_reducible refine useQuarter_ok ?_
    | with_reducible apply ok_foldl
    | with_reducible apply ok_foldl_fst
    | with_reducible apply ok_ite
    | with_reducible apply ok_ite_fst
    | with_reducible apply ok_ite_snd
    | intro _

theorem execPlanArm_ok {epoch : _} {bank : _} {s : _} (h_s : Ok p g (view (s))) :
    ∀ u, Machine.execPlanArm epoch bank s = .next u → Ok p g (view u) := by
  intro u e
  unfold Machine.execPlanArm at e
  first | (have e := Host.Outcome.next.inj e; subst e) | skip
  repeat' first
    | with_reducible assumption
    | with_reducible refine mbx_ok ?_ ?_
    | with_reducible refine invalid_ok ?_
    | with_reducible refine arm_ok ?_
    | with_reducible refine done_ok ?_
    | with_reducible apply ok_foldl
    | with_reducible apply ok_foldl_fst
    | with_reducible apply ok_ite
    | with_reducible apply ok_ite_fst
    | with_reducible apply ok_ite_snd
    | intro _
    | split
    | (with_reducible refine ok_of_pair (by assumption) ?_)
    | (with_reducible refine ok_of_pair2 (by assumption) ?_)
    | (with_reducible refine ok_of_hres (by assumption) ?_)
    | (with_reducible refine ok_of_opt2 (by assumption) ?_)
    | (with_reducible refine ok_of_some (by assumption) ?_)
    | with_reducible refine ok_findSome _ ?_
    | (simp only [view_mk, view_eta])

theorem execBgResult_ok {s : _} (h_s : Ok p g (view (s))) :
    ∀ u, Machine.execBgResult s = .next u → Ok p g (view u) := by
  intro u e
  unfold Machine.execBgResult at e
  first | (have e := Host.Outcome.next.inj e; subst e) | skip
  repeat' first
    | with_reducible assumption
    | with_reducible refine mbx_ok ?_ ?_
    | with_reducible refine done_ok ?_
    | with_reducible apply ok_foldl
    | with_reducible apply ok_foldl_fst
    | with_reducible apply ok_ite
    | with_reducible apply ok_ite_fst
    | with_reducible apply ok_ite_snd
    | intro _

theorem execPlacementSet_ok {mode : _} {s : _} (h_s : Ok p g (view (s))) :
    ∀ u, Machine.execPlacementSet mode s = .next u → Ok p g (view u) := by
  intro u e
  unfold Machine.execPlacementSet at e
  first | (have e := Host.Outcome.next.inj e; subst e) | skip
  repeat' first
    | with_reducible assumption
    | with_reducible refine mbx_ok ?_ ?_
    | with_reducible refine invalid_ok ?_
    | with_reducible refine done_ok ?_
    | with_reducible apply ok_foldl
    | with_reducible apply ok_foldl_fst
    | with_reducible apply ok_ite
    | with_reducible apply ok_ite_fst
    | with_reducible apply ok_ite_snd
    | intro _
    | split
    | (with_reducible refine ok_of_pair (by assumption) ?_)
    | (with_reducible refine ok_of_pair2 (by assumption) ?_)
    | (with_reducible refine ok_of_hres (by assumption) ?_)
    | (with_reducible refine ok_of_opt2 (by assumption) ?_)
    | (with_reducible refine ok_of_some (by assumption) ?_)
    | with_reducible refine ok_findSome _ ?_
    | (simp only [view_mk, view_eta])

theorem execPlacementGet_ok {s : _} (h_s : Ok p g (view (s))) :
    ∀ u, Machine.execPlacementGet s = .next u → Ok p g (view u) := by
  intro u e
  unfold Machine.execPlacementGet at e
  first | (have e := Host.Outcome.next.inj e; subst e) | skip
  repeat' first
    | with_reducible assumption
    | with_reducible refine mbx_ok ?_ ?_
    | with_reducible refine done_ok ?_
    | with_reducible apply ok_foldl
    | with_reducible apply ok_foldl_fst
    | with_reducible apply ok_ite
    | with_reducible apply ok_ite_fst
    | with_reducible apply ok_ite_snd
    | intro _

end Sys2Proof.Laws
end

