-- ==== Sys2Proof/Laws/KeepFirmware.lean ====
section
/-!
SUPPORT. What the operations of Machine/Firmware.lean keep of the view of Laws/Good.lean.
-/
namespace Sys2Proof.Laws

open Sys2Proof.Machine

variable {p : List Instr} {g : Grade × W64}

theorem loseWarden_ok {s : _} (h_s : Ok p g (view (s))) :
    Ok p g (view (Machine.loseWarden s)) := by
  unfold Machine.loseWarden
  repeat' first
    | with_reducible assumption
    | with_reducible refine raise_ok ?_
    | with_reducible refine bgEnds_ok ?_
    | with_reducible apply ok_foldl
    | with_reducible apply ok_foldl_fst
    | with_reducible apply ok_ite
    | with_reducible apply ok_ite_fst
    | with_reducible apply ok_ite_snd
    | intro _
    | split

theorem loseLaunch_ok {s : _} (h_s : Ok p g (view (s))) :
    Ok p g (view (Machine.loseLaunch s)) := by
  unfold Machine.loseLaunch
  repeat' first
    | with_reducible assumption
    | with_reducible refine updPrep_ok ?_
    | with_reducible refine sendAck_ok ?_
    | with_reducible apply ok_foldl
    | with_reducible apply ok_foldl_fst
    | with_reducible apply ok_ite
    | with_reducible apply ok_ite_fst
    | with_reducible apply ok_ite_snd
    | intro _
    | split

theorem stepTimeout_ok {s : _} {a1 : _} (h_s : Ok p g (view (s))) :
    Ok p g (view (Machine.stepTimeout s a1)) := by
  unfold Machine.stepTimeout
  repeat' first
    | with_reducible assumption
    | with_reducible refine record_ok ?_
    | with_reducible refine enterHolding_ok ?_
    | with_reducible apply ok_foldl
    | with_reducible apply ok_foldl_fst
    | with_reducible apply ok_ite
    | with_reducible apply ok_ite_fst
    | with_reducible apply ok_ite_snd
    | intro _
    | split
    | (with_reducible refine ok_of_pair (by assumption) ?_)
    | (with_reducible refine ok_of_pair2 (by assumption) ?_)
    | (with_reducible refine ok_of_hres (by assumption) ?_)
    | (with_reducible refine ok_of_opt2 (by assumption) ?_)
    | (with_reducible refine ok_of_some (by assumption) ?_)
    | with_reducible refine ok_findSome _ ?_
    | (simp only [view_mk, view_eta])

theorem loseScheduler_ok {s : _} (h_s : Ok p g (view (s))) :
    Ok p g (view (Machine.loseScheduler s)) := by
  unfold Machine.loseScheduler
  repeat' first
    | with_reducible assumption
    | with_reducible refine loseLaunch_ok ?_
    | with_reducible refine stepTimeout_ok ?_
    | with_reducible apply ok_foldl
    | with_reducible apply ok_foldl_fst
    | with_reducible apply ok_ite
    | with_reducible apply ok_ite_fst
    | with_reducible apply ok_ite_snd
    | intro _
    | split
    | (with_reducible refine ok_of_pair (by assumption) ?_)
    | (with_reducible refine ok_of_pair2 (by assumption) ?_)
    | (with_reducible refine ok_of_hres (by assumption) ?_)
    | (with_reducible refine ok_of_opt2 (by assumption) ?_)
    | (with_reducible refine ok_of_some (by assumption) ?_)
    | with_reducible refine ok_findSome _ ?_
    | (simp only [view_mk, view_eta])

theorem beginRestart_ok {s : _} {a1 : _} (h_s : Ok p g (view (s))) :
    Ok p g (view (Machine.beginRestart s a1)) := by
  unfold Machine.beginRestart
  repeat' first
    | with_reducible assumption
    | with_reducible refine record_ok ?_
    | with_reducible refine raise_ok ?_
    | with_reducible apply ok_foldl
    | with_reducible apply ok_foldl_fst
    | with_reducible apply ok_ite
    | with_reducible apply ok_ite_fst
    | with_reducible apply ok_ite_snd
    | intro _
    | split
    | (with_reducible refine ok_of_pair (by assumption) ?_)
    | (with_reducible refine ok_of_pair2 (by assumption) ?_)
    | (with_reducible refine ok_of_hres (by assumption) ?_)
    | (with_reducible refine ok_of_opt2 (by assumption) ?_)
    | (with_reducible refine ok_of_some (by assumption) ?_)
    | with_reducible refine ok_findSome _ ?_
    | (simp only [view_mk, view_eta])

theorem loseSecurity_ok {s : _} (h_s : Ok p g (view (s))) :
    Ok p g (view (Machine.loseSecurity s)) := by
  have aux : ∀ t, Ok p g (view t) → Ok p g (view { t with sec := { t.sec with sessions := [] } }) := fun t e =>
    ⟨e.pending, e.grade, e.serial, e.mem, e.hostMem, e.log, e.logq, e.em, Nat.zero_le _, e.ctl⟩
  unfold loseSecurity
  exact aux _ (ok_ite (fun _ => failCkpt_ok h_s) fun _ => h_s)

theorem execRestartEnd_ok {a0 : _} {s : _} (h_s : Ok p g (view (s))) :
    ∀ u, Machine.execRestartEnd a0 s = .next u → Ok p g (view u) := by
  intro u e
  unfold Machine.execRestartEnd at e
  first | (have e := Host.Outcome.next.inj e; subst e) | skip
  repeat' first
    | with_reducible assumption
    | with_reducible apply ok_foldl
    | with_reducible apply ok_foldl_fst
    | with_reducible apply ok_ite
    | with_reducible apply ok_ite_fst
    | with_reducible apply ok_ite_snd
    | intro _
    | split
    | (with_reducible refine ok_of_pair (by assumption) ?_)
    | (with_reducible refine ok_of_pair2 (by assumption) ?_)
    | (with_reducible refine ok_of_hres (by assumption) ?_)
    | (with_reducible refine ok_of_opt2 (by assumption) ?_)
    | (with_reducible refine ok_of_some (by assumption) ?_)
    | with_reducible refine ok_findSome _ ?_
    | (simp only [view_mk, view_eta])

theorem loseRegion_ok {s : _} {a1 : _} (h_s : Ok p g (view (s))) :
    Ok p g (view (Machine.loseRegion s a1)) := by
  unfold Machine.loseRegion
  repeat' first
    | with_reducible assumption
    | with_reducible refine stepTimeout_ok ?_
    | with_reducible apply ok_foldl
    | with_reducible apply ok_foldl_fst
    | with_reducible apply ok_ite
    | with_reducible apply ok_ite_fst
    | with_reducible apply ok_ite_snd
    | intro _

theorem execWatchdogExpiry_ok {a0 : _} {s : _} (h_s : Ok p g (view (s))) :
    ∀ u, Machine.execWatchdogExpiry a0 s = .next u → Ok p g (view u) := by
  intro u e
  unfold Machine.execWatchdogExpiry at e
  first | (have e := Host.Outcome.next.inj e; subst e) | skip
  repeat' first
    | with_reducible assumption
    | with_reducible refine beginRestart_ok ?_
    | with_reducible refine loseWarden_ok ?_
    | with_reducible refine loseSecurity_ok ?_
    | with_reducible refine loseScheduler_ok ?_
    | with_reducible refine loseRegion_ok ?_
    | with_reducible apply ok_foldl
    | with_reducible apply ok_foldl_fst
    | with_reducible apply ok_ite
    | with_reducible apply ok_ite_fst
    | with_reducible apply ok_ite_snd
    | intro _

end Sys2Proof.Laws
end

