-- ==== Sys2Proof/Laws/KeepFlash.lean ====
section
/-!
SUPPORT. What the operations of Machine/Flash.lean keep of the view of Laws/Good.lean.
-/
namespace Sys2Proof.Laws

open Sys2Proof.Machine

variable {p : List Instr} {g : Grade × W64}

theorem putSlot_ok {s : _} {l : _} {bs : _} (h_s : Ok p g (view (s))) :
    Ok p g (view (Machine.putSlot s l bs)) := by
  unfold Machine.putSlot
  repeat' first
    | with_reducible assumption
    | with_reducible apply ok_foldl
    | with_reducible apply ok_foldl_fst
    | with_reducible apply ok_ite
    | with_reducible apply ok_ite_fst
    | with_reducible apply ok_ite_snd
    | intro _
    | split
    | (with_reducible refine ok_of_pair (by assumption) ?_)
    | (with_reducible refine ok_of_pair2 (by assumption) ?_)
    | (with_reducible refine ok_of_hres (by assumption) ?_)
    | (with_reducible refine ok_of_opt2 (by assumption) ?_)
    | (with_reducible refine ok_of_some (by assumption) ?_)
    | with_reducible refine ok_findSome _ ?_
    | (simp only [view_mk, view_eta])

theorem stage_ok {s : _} {bs : _} (h_s : Ok p g (view (s))) :
    Ok p g (view (Machine.stage s bs).1) := by
  unfold Machine.stage
  repeat' first
    | with_reducible assumption
    | with_reducible refine putSlot_ok ?_
    | with_reducible apply ok_foldl
    | with_reducible apply ok_foldl_fst
    | with_reducible apply ok_ite
    | with_reducible apply ok_ite_fst
    | with_reducible apply ok_ite_snd
    | intro _
    | split
    | (with_reducible refine ok_of_pair (by assumption) ?_)
    | (with_reducible refine ok_of_pair2 (by assumption) ?_)
    | (with_reducible refine ok_of_hres (by assumption) ?_)
    | (with_reducible refine ok_of_opt2 (by assumption) ?_)
    | (with_reducible refine ok_of_some (by assumption) ?_)
    | with_reducible refine ok_findSome _ ?_
    | (simp only [view_mk, view_eta])

theorem execFwStage_ok {buf : _} {s : _} (h_s : Ok p g (view (s))) :
    ∀ u, Machine.execFwStage buf s = .next u → Ok p g (view u) := by
  intro u e
  unfold Machine.execFwStage at e
  first | (have e := Host.Outcome.next.inj e; subst e) | skip
  repeat' first
    | with_reducible assumption
    | with_reducible refine mbx_ok ?_ ?_
    | with_reducible refine withBuf_ok ?_ ?_
    | with_reducible refine stage_ok ?_
    | with_reducible refine background_ok ?_
    | with_reducible apply ok_foldl
    | with_reducible apply ok_foldl_fst
    | with_reducible apply ok_ite
    | with_reducible apply ok_ite_fst
    | with_reducible apply ok_ite_snd
    | intro _
    | split
    | (with_reducible refine ok_of_pair (by assumption) ?_)
    | (with_reducible refine ok_of_pair2 (by assumption) ?_)
    | (with_reducible refine ok_of_hres (by assumption) ?_)
    | (with_reducible refine ok_of_opt2 (by assumption) ?_)
    | (with_reducible refine ok_of_some (by assumption) ?_)
    | with_reducible refine ok_findSome _ ?_
    | (simp only [view_mk, view_eta])

theorem execFwInfo_ok {s : _} (h_s : Ok p g (view (s))) :
    ∀ u, Machine.execFwInfo s = .next u → Ok p g (view u) := by
  intro u e
  unfold Machine.execFwInfo at e
  first | (have e := Host.Outcome.next.inj e; subst e) | skip
  repeat' first
    | with_reducible assumption
    | with_reducible refine mbx_ok ?_ ?_
    | with_reducible refine done_ok ?_
    | with_reducible apply ok_foldl
    | with_reducible apply ok_foldl_fst
    | with_reducible apply ok_ite
    | with_reducible apply ok_ite_fst
    | with_reducible apply ok_ite_snd
    | intro _

end Sys2Proof.Laws
end

