-- ==== Sys2Proof/Laws/KeepRvFp.lean ====
section
/-!
SUPPORT. What the operations of Machine/RvFp.lean keep of the view of Laws/Good.lean.
-/
namespace Sys2Proof.Laws

open Sys2Proof.Machine

variable {p : List Instr} {g : Grade × W64}

theorem fmaInstr_ok {s : _} {a1 : _} {w : _} (h_s : Ok p g (view (s))) :
    Ok p g (view (resState (Machine.fmaInstr s a1 w))) := by
  unfold Machine.fmaInstr
  repeat' first
    | with_reducible assumption
    | with_reducible refine illegal_ok ?_
    | with_reducible refine retire_ok ?_
    | with_reducible apply ok_foldl
    | with_reducible apply ok_foldl_fst
    | with_reducible apply ok_ite
    | with_reducible apply ok_ite_fst
    | with_reducible apply ok_ite_snd
    | intro _
    | split
    | (with_reducible refine ok_of_pair (by assumption) ?_)
    | (with_reducible refine ok_of_pair2 (by assumption) ?_)
    | (with_reducible refine ok_of_hres (by assumption) ?_)
    | (with_reducible refine ok_of_opt2 (by assumption) ?_)
    | (with_reducible refine ok_of_some (by assumption) ?_)
    | with_reducible refine ok_findSome _ ?_
    | (simp only [view_mk, view_eta])

theorem opFp_ok {s : _} {a1 : _} {w : _} (h_s : Ok p g (view (s))) :
    Ok p g (view (resState (Machine.opFp s a1 w))) := by
  unfold Machine.opFp
  repeat' first
    | with_reducible assumption
    | with_reducible refine illegal_ok ?_
    | with_reducible refine retire_ok ?_
    | with_reducible apply ok_foldl
    | with_reducible apply ok_foldl_fst
    | with_reducible apply ok_ite
    | with_reducible apply ok_ite_fst
    | with_reducible apply ok_ite_snd
    | intro _
    | split
    | (with_reducible refine ok_of_pair (by assumption) ?_)
    | (with_reducible refine ok_of_pair2 (by assumption) ?_)
    | (with_reducible refine ok_of_hres (by assumption) ?_)
    | (with_reducible refine ok_of_opt2 (by assumption) ?_)
    | (with_reducible refine ok_of_some (by assumption) ?_)
    | with_reducible refine ok_findSome _ ?_
    | (simp only [view_mk, view_eta])

end Sys2Proof.Laws
end

