-- ==== Sys2Proof/Laws/KeepRegs.lean ====
section
/-!
SUPPORT. What the operations of Machine/Regs.lean keep of the view of Laws/Good.lean.
-/
namespace Sys2Proof.Laws

open Sys2Proof.Machine

variable {p : List Instr} {g : Grade × W64}

theorem stackReg_ok {s : _} {n : _} {o : _} (h_s : Ok p g (view (s))) :
    Ok p g (view (Machine.stackReg s n o).2) := by
  unfold Machine.stackReg
  repeat' first
    | with_reducible assumption
    | with_reducible refine State_setStack_ok ?_
    | with_reducible apply ok_foldl
    | with_reducible apply ok_foldl_fst
    | with_reducible apply ok_ite
    | with_reducible apply ok_ite_fst
    | with_reducible apply ok_ite_snd
    | intro _

theorem blockRegRead_ok {s : _} {b : _} {o : _} (h_s : Ok p g (view (s))) :
    Ok p g (view (Machine.blockRegRead s b o).2) := by
  unfold Machine.blockRegRead
  repeat' first
    | with_reducible assumption
    | with_reducible refine State_setBlk_ok ?_
    | with_reducible refine State_setCtx_ok ?_
    | with_reducible apply ok_foldl
    | with_reducible apply ok_foldl_fst
    | with_reducible apply ok_ite
    | with_reducible apply ok_ite_fst
    | with_reducible apply ok_ite_snd
    | intro _
    | split

theorem regRead_ok {s : _} {o : _} (h_s : Ok p g (view (s))) :
    Ok p g (view (Machine.regRead s o).2) := by
  unfold regRead
  dsimp only
  repeat' with_reducible refine ok_ite_snd (fun _ => ?_) (fun _ => ?_)
  all_goals first
    | with_reducible exact h_s
    | with_reducible exact stackReg_ok h_s
    | with_reducible exact State_setPort_ok h_s
    | with_reducible exact State_setRegion_ok h_s
    | with_reducible exact State_updHart_ok h_s
    | exact ⟨h_s.pending, h_s.grade, h_s.serial, h_s.mem, h_s.hostMem, h_s.log, h_s.logq, h_s.em, h_s.sess, h_s.ctl⟩
    | (split <;> first | exact h_s | exact ok_ite_snd (fun _ => blockRegRead_ok h_s) (fun _ => h_s))

end Sys2Proof.Laws
end

