-- ==== Sys2Proof/Laws/KeepVm.lean ====
section
/-!
SUPPORT. What the operations of Machine/Vm.lean keep of the view of Laws/Good.lean.
-/
namespace Sys2Proof.Laws

open Sys2Proof.Machine

variable {p : List Instr} {g : Grade × W64}

theorem walk_ok {s : _} {a1 : _} {a2 : _} {acc : _} {va : _} {a5 : _} {a6 : _} (h_s : Ok p g (view (s))) :
    Ok p g (view (Machine.walk s a1 a2 acc va a5 a6).1) := by
  induction a5 generalizing s a6 with
  | zero => exact h_s
  | succ n ih =>
    unfold Machine.walk
    repeat' first
      | with_reducible assumption
      | with_reducible apply ih
      | with_reducible refine touch_ok ?_
      | with_reducible refine hartRecord_ok ?_
      | with_reducible apply ok_ite
      | with_reducible apply ok_ite_fst
      | with_reducible apply ok_ite_snd
      | intro _
      | split
      | (with_reducible refine ok_of_pair (by assumption) ?_)
      | (simp only [view_mk, view_eta])
      | dsimp only

theorem translate_ok {s : _} {a1 : _} {acc : _} {va : _} (h_s : Ok p g (view (s))) :
    Ok p g (view (Machine.translate s a1 acc va).1) := by
  unfold Machine.translate
  repeat' first
    | with_reducible assumption
    | with_reducible refine walk_ok ?_
    | with_reducible apply ok_foldl
    | with_reducible apply ok_foldl_fst
    | with_reducible apply ok_ite
    | with_reducible apply ok_ite_fst
    | with_reducible apply ok_ite_snd
    | intro _
    | split
    | (with_reducible refine ok_of_pair (by assumption) ?_)
    | (with_reducible refine ok_of_pair2 (by assumption) ?_)
    | (with_reducible refine ok_of_hres (by assumption) ?_)
    | (with_reducible refine ok_of_opt2 (by assumption) ?_)
    | (with_reducible refine ok_of_some (by assumption) ?_)
    | with_reducible refine ok_findSome _ ?_
    | (simp only [view_mk, view_eta])

theorem storeFault_ok {s : _} {a1 : _} (h_s : Ok p g (view (s))) :
    ∀ u, Machine.storeFault s a1 = some u → Ok p g (view (resState (u))) := by
  have aux : ∀ v : W64, Ok p g (view (resState (HRes.trap (s.updHart a1 fun t => { t with stFault := none }) 7 v))) :=
    fun v => by
      unfold resState
      exact State_updHart_ok h_s
  intro u e
  obtain ⟨v, -, rfl⟩ := Option.map_eq_some_iff.1 e
  exact aux v

theorem apAccess_ok {s : _} {a1 : _} {a : _} (h_s : Ok p g (view (s))) :
    Ok p g (view (resState (Machine.apAccess s a1 a))) := by
  unfold apAccess
  extract_lets t off e node hedge at_ code op
  split
  · next r hr =>
    refine ok_of_hres hr ?_
    split
    · intro u h
      cases h
    · exact storeFault_ok h_s
  · rw [resState_trap]
    exact State_setHart_ok h_s
  · refine ok_ite_res (fun _ => ?_) fun _ => ok_ite_res (fun _ => ?_) fun _ => ?_
    · rw [resState_trap]
      exact h_s
    · rw [resState_trap]
      exact h_s
    · split
      · refine ok_ite_res (fun _ => ?_) fun _ => ?_
        · rw [resState_wait]
          exact State_setHart_ok h_s
        · exact retire_ok (sendData_ok (State_updHart_ok h_s))
      · extract_lets w s1 s2
        rw [resState_wait]
        have h1 : Ok p g (view s1) := State_setHart_ok h_s
        clear_value s1
        show Ok p g (view (match a.kind with | .load => _ | _ => _))
        split <;> exact sendData_ok h1

theorem hartSc_ok {s : _} {a1 : _} {n : _} {rd : _} {rs1 : _} {rs2 : _} (h_s : Ok p g (view (s))) :
    Ok p g (view (resState (Machine.hartSc s a1 n rd rs1 rs2))) := by
  unfold Machine.hartSc
  repeat' first
    | with_reducible assumption
    | with_reducible refine translate_ok ?_
    | with_reducible refine drainCore_ok ?_
    | with_reducible refine performStore_ok ?_
    | with_reducible refine retire_ok ?_
    | with_reducible refine apAccess_ok ?_
    | with_reducible apply ok_foldl
    | with_reducible apply ok_foldl_fst
    | with_reducible apply ok_ite
    | with_reducible apply ok_ite_fst
    | with_reducible apply ok_ite_snd
    | intro _
    | split
    | (with_reducible refine ok_of_pair (by assumption) ?_)
    | (with_reducible refine ok_of_pair2 (by assumption) ?_)
    | (with_reducible refine ok_of_hres (by assumption) ?_)
    | (with_reducible refine ok_of_opt2 (by assumption) ?_)
    | (with_reducible refine ok_of_some (by assumption) ?_)
    | with_reducible refine ok_findSome _ ?_
    | (simp only [view_mk, view_eta])
    | dsimp only
    | with_reducible apply ok_ite_res
    | (simp only [resState_done, resState_trap, resState_wait])

theorem hartAmo_ok {s : _} {a1 : _} {o : _} {n : _} {rd : _} {rs1 : _} {rs2 : _} (h_s : Ok p g (view (s))) :
    Ok p g (view (resState (Machine.hartAmo s a1 o n rd rs1 rs2))) := by
  unfold Machine.hartAmo
  repeat' first
    | with_reducible assumption
    | with_reducible refine drainCore_ok ?_
    | with_reducible refine storeFault_ok ?_
    | with_reducible refine translate_ok ?_
    | with_reducible refine apAccess_ok ?_
    | with_reducible refine touch_ok ?_
    | with_reducible refine hartRecord_ok ?_
    | with_reducible refine retire_ok ?_
    | with_reducible refine wrW_ok ?_
    | with_reducible apply ok_foldl
    | with_reducible apply ok_foldl_fst
    | with_reducible apply ok_ite
    | with_reducible apply ok_ite_fst
    | with_reducible apply ok_ite_snd
    | intro _
    | split
    | (with_reducible refine ok_of_pair (by assumption) ?_)
    | (with_reducible refine ok_of_pair2 (by assumption) ?_)
    | (with_reducible refine ok_of_hres (by assumption) ?_)
    | (with_reducible refine ok_of_opt2 (by assumption) ?_)
    | (with_reducible refine ok_of_some (by assumption) ?_)
    | with_reducible refine ok_findSome _ ?_
    | (simp only [view_mk, view_eta])
    | dsimp only
    | with_reducible apply ok_ite_res
    | (simp only [resState_done, resState_trap, resState_wait])

theorem hartRegWrite_ok {s : _} {a1 : _} {o : _} {v : _} (h_s : Ok p g (view (s))) :
    ∀ u, Machine.hartRegWrite s a1 o v = some u → Ok p g (view (u)) := by
  intro u e
  unfold Machine.hartRegWrite at e
  split at e
  · split at e
    · cases e
      exact ok_upd h_s rfl rfl rfl rfl rfl rfl rfl rfl rfl
    · cases e
  split at e
  · dsimp only at e
    split at e
    · cases e
      exact h_s
    split at e
    · cases e
      exact State_updHart_ok h_s
    · cases e
      exact State_updHart_ok h_s
  · cases e

theorem hartRead_ok {s : _} {a1 : _} {acc : _} {va : _} {pa : _} {n : _} (h_s : Ok p g (view (s))) :
    Ok p g (view (Machine.hartRead s a1 acc va pa n).1) := by
  unfold Machine.hartRead
  repeat' first
    | with_reducible assumption
    | with_reducible refine touch_ok ?_
    | with_reducible refine hartRecord_ok ?_
    | with_reducible apply ok_foldl
    | with_reducible apply ok_foldl_fst
    | with_reducible apply ok_ite
    | with_reducible apply ok_ite_fst
    | with_reducible apply ok_ite_snd
    | intro _
    | split
    | (with_reducible refine ok_of_pair (by assumption) ?_)

theorem physStore_ok {s : _} {a1 : _} {va : _} {pa : _} {n : _} {v : _} (h_s : Ok p g (view (s))) :
    Ok p g (view (Machine.physStore s a1 va pa n v).1) := by
  unfold Machine.physStore
  repeat' first
    | with_reducible assumption
    | with_reducible refine bufferStore_ok ?_
    | with_reducible refine performStore_ok ?_
    | with_reducible refine hartRegWrite_ok ?_
    | with_reducible refine wrW_ok ?_
    | with_reducible refine cacheLine_ok ?_
    | with_reducible apply ok_foldl
    | with_reducible apply ok_foldl_fst
    | with_reducible apply ok_ite
    | with_reducible apply ok_ite_fst
    | with_reducible apply ok_ite_snd
    | intro _
    | split
    | (with_reducible refine ok_of_pair (by assumption) ?_)
    | (with_reducible refine ok_of_pair2 (by assumption) ?_)
    | (with_reducible refine ok_of_hres (by assumption) ?_)
    | (with_reducible refine ok_of_opt2 (by assumption) ?_)
    | (with_reducible refine ok_of_some (by assumption) ?_)

theorem drainFor_ok {s : _} {a1 : _} {pa : _} {n : _} (h_s : Ok p g (view (s))) :
    Ok p g (view (Machine.drainFor s a1 pa n)) := by
  unfold Machine.drainFor
  repeat' first
    | with_reducible assumption
    | with_reducible refine drainIf_ok ?_

theorem physLoad_ok {s : _} {a1 : _} {acc : _} {va : _} {pa : _} {n : _} (h_s : Ok p g (view (s))) :
    Ok p g (view (Machine.physLoad s a1 acc va pa n).1) := by
  unfold Machine.physLoad
  repeat' first
    | with_reducible assumption
    | with_reducible refine hartRead_ok ?_
    | with_reducible refine regRead_ok ?_
    | with_reducible refine cacheLine_ok ?_
    | with_reducible apply ok_foldl
    | with_reducible apply ok_foldl_fst
    | with_reducible apply ok_ite
    | with_reducible apply ok_ite_fst
    | with_reducible apply ok_ite_snd
    | intro _
    | split

theorem hartLoad_ok {s : _} {a1 : _} {va : _} {n : _} {rd : _} {fp : _} {uns : _} {len : _} (h_s : Ok p g (view (s))) :
    Ok p g (view (resState (Machine.hartLoad s a1 va n rd fp uns len))) := by
  unfold Machine.hartLoad
  repeat' first
    | with_reducible assumption
    | with_reducible refine storeFault_ok ?_
    | with_reducible refine translate_ok ?_
    | with_reducible refine apAccess_ok ?_
    | with_reducible refine drainFor_ok ?_
    | with_reducible refine physLoad_ok ?_
    | with_reducible refine retire_ok ?_
    | with_reducible apply ok_foldl
    | with_reducible apply ok_foldl_fst
    | with_reducible apply ok_ite
    | with_reducible apply ok_ite_fst
    | with_reducible apply ok_ite_snd
    | intro _
    | split
    | (with_reducible refine ok_of_pair (by assumption) ?_)
    | (with_reducible refine ok_of_pair2 (by assumption) ?_)
    | (with_reducible refine ok_of_hres (by assumption) ?_)
    | (with_reducible refine ok_of_opt2 (by assumption) ?_)
    | (with_reducible refine ok_of_some (by assumption) ?_)
    | with_reducible refine ok_findSome _ ?_
    | (simp only [view_mk, view_eta])
    | dsimp only
    | with_reducible apply ok_ite_res
    | (simp only [resState_done, resState_trap, resState_wait])

theorem hartLr_ok {s : _} {a1 : _} {n : _} {rd : _} {rs1 : _} (h_s : Ok p g (view (s))) :
    Ok p g (view (resState (Machine.hartLr s a1 n rd rs1))) := by
  unfold Machine.hartLr
  repeat' first
    | with_reducible assumption
    | with_reducible refine drainCore_ok ?_
    | with_reducible refine storeFault_ok ?_
    | with_reducible refine translate_ok ?_
    | with_reducible refine hartRead_ok ?_
    | with_reducible refine retire_ok ?_
    | with_reducible refine State_updHart_ok ?_
    | with_reducible apply ok_foldl
    | with_reducible apply ok_foldl_fst
    | with_reducible apply ok_ite
    | with_reducible apply ok_ite_fst
    | with_reducible apply ok_ite_snd
    | intro _
    | split
    | (with_reducible refine ok_of_pair (by assumption) ?_)
    | (with_reducible refine ok_of_pair2 (by assumption) ?_)
    | (with_reducible refine ok_of_hres (by assumption) ?_)
    | (with_reducible refine ok_of_opt2 (by assumption) ?_)
    | (with_reducible refine ok_of_some (by assumption) ?_)
    | with_reducible refine ok_findSome _ ?_
    | (simp only [view_mk, view_eta])
    | dsimp only
    | with_reducible apply ok_ite_res
    | (simp only [resState_done, resState_trap, resState_wait])

theorem hartStore_ok {s : _} {a1 : _} {va : _} {n : _} {v : _} {len : _} (h_s : Ok p g (view (s))) :
    Ok p g (view (resState (Machine.hartStore s a1 va n v len))) := by
  unfold Machine.hartStore
  repeat' first
    | with_reducible assumption
    | with_reducible refine translate_ok ?_
    | with_reducible refine apAccess_ok ?_
    | with_reducible refine physStore_ok ?_
    | with_reducible refine retire_ok ?_
    | with_reducible apply ok_foldl
    | with_reducible apply ok_foldl_fst
    | with_reducible apply ok_ite
    | with_reducible apply ok_ite_fst
    | with_reducible apply ok_ite_snd
    | intro _
    | split
    | (with_reducible refine ok_of_pair (by assumption) ?_)
    | (with_reducible refine ok_of_pair2 (by assumption) ?_)
    | (with_reducible refine ok_of_hres (by assumption) ?_)
    | (with_reducible refine ok_of_opt2 (by assumption) ?_)
    | (with_reducible refine ok_of_some (by assumption) ?_)
    | with_reducible refine ok_findSome _ ?_
    | (simp only [view_mk, view_eta])
    | dsimp only
    | with_reducible apply ok_ite_res
    | (simp only [resState_done, resState_trap, resState_wait])

end Sys2Proof.Laws
end

