-- ==== Sys2Proof/Laws/KeepSv128.lean ====
section
/-!
SUPPORT. What the operations of Machine/Sv128.lean keep of the view of Laws/Good.lean.
-/
namespace Sys2Proof.Laws

open Sys2Proof.Machine

variable {p : List Instr} {g : Grade × W64}

theorem svRet_ok {s : _} {a1 : _} {f : _} (h_s : Ok p g (view (s))) :
    Ok p g (view (resState (Machine.svRet s a1 f))) := by
  unfold Machine.svRet
  repeat' first
    | with_reducible assumption
    | with_reducible refine retire_ok ?_

theorem svAccess_ok {s : _} {a1 : _} {store : _} {va : _} {w : _} {x : _} (h_s : Ok p g (view (s))) :
    Ok p g (view (Machine.svAccess s a1 store va w x).1) := by
  unfold Machine.svAccess
  repeat' first
    | with_reducible assumption
    | with_reducible refine translate_ok ?_
    | with_reducible refine physStore_ok ?_
    | with_reducible refine drainFor_ok ?_
    | with_reducible refine State_updHart_ok ?_
    | with_reducible refine physLoad_ok ?_
    | with_reducible apply ok_foldl
    | with_reducible apply ok_foldl_fst
    | with_reducible apply ok_ite
    | with_reducible apply ok_ite_fst
    | with_reducible apply ok_ite_snd
    | intro _
    | split
    | (with_reducible refine ok_of_pair (by assumption) ?_)
    | (with_reducible refine ok_of_pair2 (by assumption) ?_)
    | (with_reducible refine ok_of_hres (by assumption) ?_)
    | (with_reducible refine ok_of_opt2 (by assumption) ?_)
    | (with_reducible refine ok_of_some (by assumption) ?_)
    | with_reducible refine ok_findSome _ ?_
    | (simp only [view_mk, view_eta])

theorem svElems_ok {s : _} {a1 : _} {store : _} {base : _} {w : _} {v : _} {act : _} {a7 : _} {a8 : _} (h_s : Ok p g (view (s))) :
    Ok p g (view (resState (Machine.svElems s a1 store base w v act a7 a8))) := by
  induction a7 generalizing s a8 with
  | zero => exact svRet_ok h_s
  | succ k ih =>
    unfold Machine.svElems
    repeat' first
      | with_reducible assumption
      | with_reducible apply ih
      | with_reducible refine svAccess_ok ?_
      | with_reducible refine State_updHart_ok ?_
      | with_reducible apply ok_ite
      | with_reducible apply ok_ite_fst
      | with_reducible apply ok_ite_snd
      | intro _
      | split
      | (with_reducible refine ok_of_pair (by assumption) ?_)
      | (simp only [view_mk, view_eta])
      | dsimp only
      | with_reducible apply ok_ite_res
      | (simp only [resState_done, resState_trap, resState_wait])

theorem svMem_ok {s : _} {a1 : _} {store : _} {m : _} {w : _} {v : _} {rs1 : _} {word : _} (h_s : Ok p g (view (s))) :
    Ok p g (view (resState (Machine.svMem s a1 store m w v rs1 word))) := by
  unfold svMem
  extract_lets t va n i acc
  split
  · next r e =>
    refine ok_of_hres e ?_
    split
    · intro u h
      cases h
    · exact storeFault_ok h_s
  refine ok_ite_res (fun _ => h_s) fun _ => ok_ite_res (fun _ => illegal_ok h_s) fun _ => ?_
  extract_lets act first va0
  split
  · next s1 pa e =>
    have h1 : Ok p g (view s1) := by
      split at e
      · exact ok_of_pair e (translate_ok h_s)
      · cases e
    refine ok_ite_res (fun _ => ok_ite_res (fun _ => ?_) fun _ => apAccess_ok h1) fun _ => svElems_ok h_s
    rw [resState_trap]
    exact State_updHart_ok h1
  · exact svElems_ok h_s

theorem svWhole_ok {s : _} {a1 : _} {f7 : _} {vd : _} {vs1 : _} {vs2 : _} {word : _} (h_s : Ok p g (view (s))) :
    Ok p g (view (resState (Machine.svWhole s a1 f7 vd vs1 vs2 word))) := by
  unfold Machine.svWhole
  repeat' first
    | with_reducible assumption
    | with_reducible refine svRet_ok ?_
    | with_reducible refine illegal_ok ?_
    | with_reducible apply ok_foldl
    | with_reducible apply ok_foldl_fst
    | with_reducible apply ok_ite
    | with_reducible apply ok_ite_fst
    | with_reducible apply ok_ite_snd
    | intro _
    | split

theorem svFp_ok {s : _} {a1 : _} {f7 : _} {f3 : _} {vd : _} {vs1 : _} {vs2 : _} {word : _} (h_s : Ok p g (view (s))) :
    Ok p g (view (resState (Machine.svFp s a1 f7 f3 vd vs1 vs2 word))) := by
  unfold Machine.svFp
  repeat' first
    | with_reducible assumption
    | with_reducible refine svRet_ok ?_
    | with_reducible refine illegal_ok ?_
    | with_reducible apply ok_foldl
    | with_reducible apply ok_foldl_fst
    | with_reducible apply ok_ite
    | with_reducible apply ok_ite_fst
    | with_reducible apply ok_ite_snd
    | intro _
    | split
    | (with_reducible refine ok_of_pair (by assumption) ?_)
    | (with_reducible refine ok_of_pair2 (by assumption) ?_)
    | (with_reducible refine ok_of_hres (by assumption) ?_)
    | (with_reducible refine ok_of_opt2 (by assumption) ?_)
    | (with_reducible refine ok_of_some (by assumption) ?_)
    | with_reducible refine ok_findSome _ ?_
    | (simp only [view_mk, view_eta])

theorem svLdSt_ok {s : _} {a1 : _} {word : _} (h_s : Ok p g (view (s))) :
    Ok p g (view (resState (Machine.svLdSt s a1 word))) := by
  unfold Machine.svLdSt
  repeat' first
    | with_reducible assumption
    | with_reducible refine illegal_ok ?_
    | with_reducible refine svMem_ok ?_
    | with_reducible apply ok_foldl
    | with_reducible apply ok_foldl_fst
    | with_reducible apply ok_ite
    | with_reducible apply ok_ite_fst
    | with_reducible apply ok_ite_snd
    | intro _
    | split
    | (with_reducible refine ok_of_pair (by assumption) ?_)
    | (with_reducible refine ok_of_pair2 (by assumption) ?_)
    | (with_reducible refine ok_of_hres (by assumption) ?_)
    | (with_reducible refine ok_of_opt2 (by assumption) ?_)
    | (with_reducible refine ok_of_some (by assumption) ?_)
    | with_reducible refine ok_findSome _ ?_
    | (simp only [view_mk, view_eta])

theorem svInt_ok {s : _} {a1 : _} {f7 : _} {w : _} {vd : _} {vs1 : _} {vs2 : _} {word : _} (h_s : Ok p g (view (s))) :
    Ok p g (view (resState (Machine.svInt s a1 f7 w vd vs1 vs2 word))) := by
  unfold Machine.svInt
  repeat' first
    | with_reducible assumption
    | with_reducible refine illegal_ok ?_
    | with_reducible refine svRet_ok ?_
    | with_reducible apply ok_foldl
    | with_reducible apply ok_foldl_fst
    | with_reducible apply ok_ite
    | with_reducible apply ok_ite_fst
    | with_reducible apply ok_ite_snd
    | intro _
    | split
    | (with_reducible refine ok_of_pair (by assumption) ?_)
    | (with_reducible refine ok_of_pair2 (by assumption) ?_)
    | (with_reducible refine ok_of_hres (by assumption) ?_)
    | (with_reducible refine ok_of_opt2 (by assumption) ?_)
    | (with_reducible refine ok_of_some (by assumption) ?_)
    | with_reducible refine ok_findSome _ ?_
    | (simp only [view_mk, view_eta])

theorem svArith_ok {s : _} {a1 : _} {word : _} (h_s : Ok p g (view (s))) :
    Ok p g (view (resState (Machine.svArith s a1 word))) := by
  unfold Machine.svArith
  repeat' first
    | with_reducible assumption
    | with_reducible refine illegal_ok ?_
    | with_reducible refine svInt_ok ?_
    | with_reducible refine svWhole_ok ?_
    | with_reducible refine svFp_ok ?_
    | with_reducible apply ok_foldl
    | with_reducible apply ok_foldl_fst
    | with_reducible apply ok_ite
    | with_reducible apply ok_ite_fst
    | with_reducible apply ok_ite_snd
    | intro _
    | split

end Sys2Proof.Laws
end

