-- ==== Sys2Proof/Laws/KeepRv.lean ====
section
/-!
SUPPORT. What the operations of Machine/Rv.lean keep of the view of Laws/Good.lean.
-/
namespace Sys2Proof.Laws

open Sys2Proof.Machine

variable {p : List Instr} {g : Grade × W64}

theorem hartRun_ok {s : _} {a1 : _} {f : _} (h_s : Ok p g (view (s))) (h_f : ∀ v0, Ok p g (view (v0)) → Ok p g (view (resState (f v0)))) :
    Ok p g (view (Machine.hartRun s a1 f)) := by
  unfold Machine.hartRun
  repeat' first
    | with_reducible assumption
    | with_reducible refine drew_ok ?_
    | with_reducible refine serveIntr_ok ?_
    | with_reducible refine takeTrap_ok ?_
    | with_reducible refine HRes_settle_ok ?_
    | with_reducible apply h_f
    | with_reducible apply ok_foldl
    | with_reducible apply ok_foldl_fst
    | with_reducible apply ok_ite
    | with_reducible apply ok_ite_fst
    | with_reducible apply ok_ite_snd
    | intro _
    | split
    | (with_reducible refine ok_of_pair (by assumption) ?_)
    | (with_reducible refine ok_of_pair2 (by assumption) ?_)
    | (with_reducible refine ok_of_hres (by assumption) ?_)
    | (with_reducible refine ok_of_opt2 (by assumption) ?_)
    | (with_reducible refine ok_of_some (by assumption) ?_)
    | with_reducible refine ok_findSome _ ?_
    | (simp only [view_mk, view_eta])

theorem svRow_ok {s : _} {f7 : _} {f3 : _} {r : _} (h_s : Ok p g (view (s))) :
    Ok p g (view (Machine.svRow s f7 f3 r)) := by
  unfold Machine.svRow
  repeat' first
    | with_reducible assumption
    | with_reducible refine hartRun_ok ?_ ?_
    | with_reducible refine svArith_ok ?_
    | with_reducible apply ok_foldl
    | with_reducible apply ok_foldl_fst
    | with_reducible apply ok_ite
    | with_reducible apply ok_ite_fst
    | with_reducible apply ok_ite_snd
    | intro _

theorem fetchHalf_ok {s : _} {a1 : _} {va : _} (h_s : Ok p g (view (s))) :
    Ok p g (view (Machine.fetchHalf s a1 va).1) := by
  unfold Machine.fetchHalf
  repeat' first
    | with_reducible assumption
    | with_reducible refine translate_ok ?_
    | with_reducible refine physLoad_ok ?_
    | with_reducible apply ok_foldl
    | with_reducible apply ok_foldl_fst
    | with_reducible apply ok_ite
    | with_reducible apply ok_ite_fst
    | with_reducible apply ok_ite_snd
    | intro _
    | split
    | (with_reducible refine ok_of_pair (by assumption) ?_)

theorem rvFence_ok {s0 : _} {a1 : _} {w : _} (h_s0 : Ok p g (view (s0))) :
    Ok p g (view (resState (Machine.rvFence s0 a1 w))) := by
  unfold Machine.rvFence
  repeat' first
    | with_reducible assumption
    | with_reducible refine drainCore_ok ?_
    | with_reducible refine storeFault_ok ?_
    | with_reducible refine State_setHart_ok ?_
    | with_reducible refine retire_ok ?_
    | with_reducible apply ok_foldl
    | with_reducible apply ok_foldl_fst
    | with_reducible apply ok_ite
    | with_reducible apply ok_ite_fst
    | with_reducible apply ok_ite_snd
    | intro _
    | split
    | (with_reducible refine ok_of_pair (by assumption) ?_)
    | (with_reducible refine ok_of_pair2 (by assumption) ?_)
    | (with_reducible refine ok_of_hres (by assumption) ?_)
    | (with_reducible refine ok_of_opt2 (by assumption) ?_)
    | (with_reducible refine ok_of_some (by assumption) ?_)
    | with_reducible refine ok_findSome _ ?_
    | (simp only [view_mk, view_eta])
    | dsimp only
    | with_reducible apply ok_ite_res
    | (simp only [resState_done, resState_trap, resState_wait])

theorem rvExec_ok {s : _} {a1 : _} {w : _} {len : _} {orig : _} (h_s : Ok p g (view (s))) :
    Ok p g (view (resState (Machine.rvExec s a1 w len orig))) := by
  unfold Machine.rvExec
  repeat' first
    | with_reducible assumption
    | with_reducible refine illegal_ok ?_
    | with_reducible refine retire_ok ?_
    | with_reducible refine State_updHart_ok ?_
    | with_reducible refine hartLoad_ok ?_
    | with_reducible refine hartStore_ok ?_
    | with_reducible refine rvFence_ok ?_
    | with_reducible refine drainCore_ok ?_
    | with_reducible refine hartLr_ok ?_
    | with_reducible refine hartSc_ok ?_
    | with_reducible refine hartAmo_ok ?_
    | with_reducible refine privInstr_ok ?_
    | with_reducible refine csrInstr_ok ?_
    | with_reducible refine fmaInstr_ok ?_
    | with_reducible refine opFp_ok ?_
    | with_reducible refine svArith_ok ?_
    | with_reducible refine svLdSt_ok ?_
    | with_reducible apply ok_foldl
    | with_reducible apply ok_foldl_fst
    | with_reducible apply ok_ite
    | with_reducible apply ok_ite_fst
    | with_reducible apply ok_ite_snd
    | intro _
    | split
    | (with_reducible refine ok_of_pair (by assumption) ?_)
    | (with_reducible refine ok_of_pair2 (by assumption) ?_)
    | (with_reducible refine ok_of_hres (by assumption) ?_)
    | (with_reducible refine ok_of_opt2 (by assumption) ?_)
    | (with_reducible refine ok_of_some (by assumption) ?_)
    | with_reducible refine ok_findSome _ ?_
    | (simp only [view_mk, view_eta])
    | dsimp only
    | with_reducible apply ok_ite_res
    | (simp only [resState_done, resState_trap, resState_wait])

theorem rvInstr_ok {s : _} {a1 : _} (h_s : Ok p g (view (s))) :
    Ok p g (view (resState (Machine.rvInstr s a1))) := by
  unfold Machine.rvInstr
  repeat' first
    | with_reducible assumption
    | with_reducible refine fetchHalf_ok ?_
    | with_reducible refine rvExec_ok ?_
    | with_reducible refine illegal_ok ?_
    | with_reducible apply ok_foldl
    | with_reducible apply ok_foldl_fst
    | with_reducible apply ok_ite
    | with_reducible apply ok_ite_fst
    | with_reducible apply ok_ite_snd
    | intro _
    | split
    | (with_reducible refine ok_of_pair (by assumption) ?_)
    | (with_reducible refine ok_of_pair2 (by assumption) ?_)
    | (with_reducible refine ok_of_hres (by assumption) ?_)
    | (with_reducible refine ok_of_opt2 (by assumption) ?_)
    | (with_reducible refine ok_of_some (by assumption) ?_)
    | with_reducible refine ok_findSome _ ?_
    | (simp only [view_mk, view_eta])
    | dsimp only
    | with_reducible apply ok_ite_res
    | (simp only [resState_done, resState_trap, resState_wait])

end Sys2Proof.Laws
end

