-- ==== Sys2Proof/Laws/KeepHarts.lean ====
section
/-!
SUPPORT. What the operations of Machine/Harts.lean keep of the view of Laws/Good.lean.
-/
namespace Sys2Proof.Laws

open Sys2Proof.Machine

variable {p : List Instr} {g : Grade × W64}

theorem execVsadd_ok {ew : _} {r : _} {s : _} (h_s : Ok p g (view (s))) :
    ∀ u, Machine.execVsadd ew r s = .next u → Ok p g (view u) := by
  intro u e
  unfold Machine.execVsadd at e
  first | (have e := Host.Outcome.next.inj e; subst e) | skip
  repeat' first
    | with_reducible assumption
    | with_reducible refine svRow_ok ?_

theorem execVfsqrt_ok {ef : _} {r : _} {s : _} (h_s : Ok p g (view (s))) :
    ∀ u, Machine.execVfsqrt ef r s = .next u → Ok p g (view u) := by
  intro u e
  unfold Machine.execVfsqrt at e
  first | (have e := Host.Outcome.next.inj e; subst e) | skip
  repeat' first
    | with_reducible assumption
    | with_reducible refine svRow_ok ?_

theorem execVssubu_ok {ew : _} {r : _} {s : _} (h_s : Ok p g (view (s))) :
    ∀ u, Machine.execVssubu ew r s = .next u → Ok p g (view u) := by
  intro u e
  unfold Machine.execVssubu at e
  first | (have e := Host.Outcome.next.inj e; subst e) | skip
  repeat' first
    | with_reducible assumption
    | with_reducible refine svRow_ok ?_

theorem execVdotsu_ok {ew : _} {r : _} {s : _} (h_s : Ok p g (view (s))) :
    ∀ u, Machine.execVdotsu ew r s = .next u → Ok p g (view u) := by
  intro u e
  unfold Machine.execVdotsu at e
  first | (have e := Host.Outcome.next.inj e; subst e) | skip
  repeat' first
    | with_reducible assumption
    | with_reducible refine svRow_ok ?_

theorem execVsel_ok {r : _} {s : _} (h_s : Ok p g (view (s))) :
    ∀ u, Machine.execVsel r s = .next u → Ok p g (view u) := by
  intro u e
  unfold Machine.execVsel at e
  first | (have e := Host.Outcome.next.inj e; subst e) | skip
  repeat' first
    | with_reducible assumption
    | with_reducible refine svRow_ok ?_

theorem execVfmin_ok {ef : _} {r : _} {s : _} (h_s : Ok p g (view (s))) :
    ∀ u, Machine.execVfmin ef r s = .next u → Ok p g (view u) := by
  intro u e
  unfold Machine.execVfmin at e
  first | (have e := Host.Outcome.next.inj e; subst e) | skip
  repeat' first
    | with_reducible assumption
    | with_reducible refine svRow_ok ?_

theorem execApertureAccess_ok {a0 : _} {k : _} {size : _} {addr : _} {data : _} {rd : _} {s : _} (h_s : Ok p g (view (s))) :
    ∀ u, Machine.execApertureAccess a0 k size addr data rd s = .next u → Ok p g (view u) := by
  intro u e
  unfold Machine.execApertureAccess at e
  first | (have e := Host.Outcome.next.inj e; subst e) | skip
  repeat' first
    | with_reducible assumption
    | with_reducible refine hartRun_ok ?_ ?_
    | with_reducible refine illegal_ok ?_
    | with_reducible refine apAccess_ok ?_
    | with_reducible apply ok_foldl
    | with_reducible apply ok_foldl_fst
    | with_reducible apply ok_ite
    | with_reducible apply ok_ite_fst
    | with_reducible apply ok_ite_snd
    | intro _
    | split

theorem execVminu_ok {ew : _} {r : _} {s : _} (h_s : Ok p g (view (s))) :
    ∀ u, Machine.execVminu ew r s = .next u → Ok p g (view u) := by
  intro u e
  unfold Machine.execVminu at e
  first | (have e := Host.Outcome.next.inj e; subst e) | skip
  repeat' first
    | with_reducible assumption
    | with_reducible refine svRow_ok ?_

theorem execVmv_ok {r : _} {s : _} (h_s : Ok p g (view (s))) :
    ∀ u, Machine.execVmv r s = .next u → Ok p g (view u) := by
  intro u e
  unfold Machine.execVmv at e
  first | (have e := Host.Outcome.next.inj e; subst e) | skip
  repeat' first
    | with_reducible assumption
    | with_reducible refine svRow_ok ?_

theorem execVziphi_ok {ew : _} {r : _} {s : _} (h_s : Ok p g (view (s))) :
    ∀ u, Machine.execVziphi ew r s = .next u → Ok p g (view u) := by
  intro u e
  unfold Machine.execVziphi at e
  first | (have e := Host.Outcome.next.inj e; subst e) | skip
  repeat' first
    | with_reducible assumption
    | with_reducible refine svRow_ok ?_

theorem execVsaddu_ok {ew : _} {r : _} {s : _} (h_s : Ok p g (view (s))) :
    ∀ u, Machine.execVsaddu ew r s = .next u → Ok p g (view u) := by
  intro u e
  unfold Machine.execVsaddu at e
  first | (have e := Host.Outcome.next.inj e; subst e) | skip
  repeat' first
    | with_reducible assumption
    | with_reducible refine svRow_ok ?_

theorem execVfdiv_ok {ef : _} {r : _} {s : _} (h_s : Ok p g (view (s))) :
    ∀ u, Machine.execVfdiv ef r s = .next u → Ok p g (view u) := by
  intro u e
  unfold Machine.execVfdiv at e
  first | (have e := Host.Outcome.next.inj e; subst e) | skip
  repeat' first
    | with_reducible assumption
    | with_reducible refine svRow_ok ?_

theorem execVmovmsk_ok {ew : _} {r : _} {s : _} (h_s : Ok p g (view (s))) :
    ∀ u, Machine.execVmovmsk ew r s = .next u → Ok p g (view u) := by
  intro u e
  unfold Machine.execVmovmsk at e
  first | (have e := Host.Outcome.next.inj e; subst e) | skip
  repeat' first
    | with_reducible assumption
    | with_reducible refine svRow_ok ?_

theorem execVextb_ok {r : _} {shift : _} {s : _} (h_s : Ok p g (view (s))) :
    ∀ u, Machine.execVextb r shift s = .next u → Ok p g (view u) := by
  intro u e
  unfold Machine.execVextb at e
  first | (have e := Host.Outcome.next.inj e; subst e) | skip
  repeat' first
    | with_reducible assumption
    | with_reducible refine svRow_ok ?_

theorem execVfmul_ok {ef : _} {r : _} {s : _} (h_s : Ok p g (view (s))) :
    ∀ u, Machine.execVfmul ef r s = .next u → Ok p g (view u) := by
  intro u e
  unfold Machine.execVfmul at e
  first | (have e := Host.Outcome.next.inj e; subst e) | skip
  repeat' first
    | with_reducible assumption
    | with_reducible refine svRow_ok ?_

theorem execVmul_ok {ew : _} {r : _} {s : _} (h_s : Ok p g (view (s))) :
    ∀ u, Machine.execVmul ew r s = .next u → Ok p g (view u) := by
  intro u e
  unfold Machine.execVmul at e
  first | (have e := Host.Outcome.next.inj e; subst e) | skip
  repeat' first
    | with_reducible assumption
    | with_reducible refine svRow_ok ?_

theorem execVfnarrow_ok {ef : _} {r : _} {s : _} (h_s : Ok p g (view (s))) :
    ∀ u, Machine.execVfnarrow ef r s = .next u → Ok p g (view u) := by
  intro u e
  unfold Machine.execVfnarrow at e
  first | (have e := Host.Outcome.next.inj e; subst e) | skip
  repeat' first
    | with_reducible assumption
    | with_reducible refine svRow_ok ?_

theorem execVfcmpeq_ok {ef : _} {r : _} {s : _} (h_s : Ok p g (view (s))) :
    ∀ u, Machine.execVfcmpeq ef r s = .next u → Ok p g (view u) := by
  intro u e
  unfold Machine.execVfcmpeq at e
  first | (have e := Host.Outcome.next.inj e; subst e) | skip
  repeat' first
    | with_reducible assumption
    | with_reducible refine svRow_ok ?_

theorem execVsub_ok {ew : _} {r : _} {s : _} (h_s : Ok p g (view (s))) :
    ∀ u, Machine.execVsub ew r s = .next u → Ok p g (view u) := by
  intro u e
  unfold Machine.execVsub at e
  first | (have e := Host.Outcome.next.inj e; subst e) | skip
  repeat' first
    | with_reducible assumption
    | with_reducible refine svRow_ok ?_

theorem execLocalCacheMissFill_ok {a0 : _} {s : _} (h_s : Ok p g (view (s))) :
    ∀ u, Machine.execLocalCacheMissFill a0 s = .next u → Ok p g (view u) := by
  intro u e
  unfold Machine.execLocalCacheMissFill at e
  first | (have e := Host.Outcome.next.inj e; subst e) | skip
  repeat' first
    | with_reducible assumption
    | with_reducible refine State_updHart_ok ?_

theorem execVcmpltu_ok {ew : _} {r : _} {s : _} (h_s : Ok p g (view (s))) :
    ∀ u, Machine.execVcmpltu ew r s = .next u → Ok p g (view u) := by
  intro u e
  unfold Machine.execVcmpltu at e
  first | (have e := Host.Outcome.next.inj e; subst e) | skip
  repeat' first
    | with_reducible assumption
    | with_reducible refine svRow_ok ?_

theorem execVandn_ok {r : _} {s : _} (h_s : Ok p g (view (s))) :
    ∀ u, Machine.execVandn r s = .next u → Ok p g (view u) := by
  intro u e
  unfold Machine.execVandn at e
  first | (have e := Host.Outcome.next.inj e; subst e) | skip
  repeat' first
    | with_reducible assumption
    | with_reducible refine svRow_ok ?_

theorem execVmvXV_ok {ew : _} {r : _} {s : _} (h_s : Ok p g (view (s))) :
    ∀ u, Machine.execVmvXV ew r s = .next u → Ok p g (view u) := by
  intro u e
  unfold Machine.execVmvXV at e
  first | (have e := Host.Outcome.next.inj e; subst e) | skip
  repeat' first
    | with_reducible assumption
    | with_reducible refine svRow_ok ?_

theorem execHartInstruction_ok {a0 : _} {miss : _} {s : _} (h_s : Ok p g (view (s))) :
    ∀ u, Machine.execHartInstruction a0 miss s = .next u → Ok p g (view u) := by
  intro u e
  unfold Machine.execHartInstruction at e
  first | (have e := Host.Outcome.next.inj e; subst e) | skip
  repeat' first
    | with_reducible assumption
    | with_reducible refine State_updHart_ok ?_
    | with_reducible refine hartRun_ok ?_ ?_
    | with_reducible refine rvInstr_ok ?_
    | with_reducible apply ok_foldl
    | with_reducible apply ok_foldl_fst
    | with_reducible apply ok_ite
    | with_reducible apply ok_ite_fst
    | with_reducible apply ok_ite_snd
    | intro _

theorem execVsra_ok {ew : _} {r : _} {s : _} (h_s : Ok p g (view (s))) :
    ∀ u, Machine.execVsra ew r s = .next u → Ok p g (view u) := by
  intro u e
  unfold Machine.execVsra at e
  first | (have e := Host.Outcome.next.inj e; subst e) | skip
  repeat' first
    | with_reducible assumption
    | with_reducible refine svRow_ok ?_

theorem execVor_ok {r : _} {s : _} (h_s : Ok p g (view (s))) :
    ∀ u, Machine.execVor r s = .next u → Ok p g (view u) := by
  intro u e
  unfold Machine.execVor at e
  first | (have e := Host.Outcome.next.inj e; subst e) | skip
  repeat' first
    | with_reducible assumption
    | with_reducible refine svRow_ok ?_

theorem execVdot_ok {ew : _} {r : _} {s : _} (h_s : Ok p g (view (s))) :
    ∀ u, Machine.execVdot ew r s = .next u → Ok p g (view u) := by
  intro u e
  unfold Machine.execVdot at e
  first | (have e := Host.Outcome.next.inj e; subst e) | skip
  repeat' first
    | with_reducible assumption
    | with_reducible refine svRow_ok ?_

theorem execVfcvtfx_ok {ef : _} {r : _} {s : _} (h_s : Ok p g (view (s))) :
    ∀ u, Machine.execVfcvtfx ef r s = .next u → Ok p g (view u) := by
  intro u e
  unfold Machine.execVfcvtfx at e
  first | (have e := Host.Outcome.next.inj e; subst e) | skip
  repeat' first
    | with_reducible assumption
    | with_reducible refine svRow_ok ?_

theorem execVfcvtxf_ok {ef : _} {r : _} {s : _} (h_s : Ok p g (view (s))) :
    ∀ u, Machine.execVfcvtxf ef r s = .next u → Ok p g (view u) := by
  intro u e
  unfold Machine.execVfcvtxf at e
  first | (have e := Host.Outcome.next.inj e; subst e) | skip
  repeat' first
    | with_reducible assumption
    | with_reducible refine svRow_ok ?_

theorem execVxor_ok {r : _} {s : _} (h_s : Ok p g (view (s))) :
    ∀ u, Machine.execVxor r s = .next u → Ok p g (view u) := by
  intro u e
  unfold Machine.execVxor at e
  first | (have e := Host.Outcome.next.inj e; subst e) | skip
  repeat' first
    | with_reducible assumption
    | with_reducible refine svRow_ok ?_

theorem execVwmulh_ok {ew : _} {r : _} {s : _} (h_s : Ok p g (view (s))) :
    ∀ u, Machine.execVwmulh ew r s = .next u → Ok p g (view u) := by
  intro u e
  unfold Machine.execVwmulh at e
  first | (have e := Host.Outcome.next.inj e; subst e) | skip
  repeat' first
    | with_reducible assumption
    | with_reducible refine svRow_ok ?_

theorem execFcoHartTcmp_ok {a0 : _} {v : _} {s : _} (h_s : Ok p g (view (s))) :
    ∀ u, Machine.execFcoHartTcmp a0 v s = .next u → Ok p g (view u) := by
  intro u e
  unfold Machine.execFcoHartTcmp at e
  first | (have e := Host.Outcome.next.inj e; subst e) | skip
  repeat' first
    | with_reducible assumption
    | with_reducible refine State_updHart_ok ?_
    | with_reducible apply ok_foldl
    | with_reducible apply ok_foldl_fst
    | with_reducible apply ok_ite
    | with_reducible apply ok_ite_fst
    | with_reducible apply ok_ite_snd
    | intro _

theorem execVwmul_ok {ew : _} {r : _} {s : _} (h_s : Ok p g (view (s))) :
    ∀ u, Machine.execVwmul ew r s = .next u → Ok p g (view u) := by
  intro u e
  unfold Machine.execVwmul at e
  first | (have e := Host.Outcome.next.inj e; subst e) | skip
  repeat' first
    | with_reducible assumption
    | with_reducible refine svRow_ok ?_

theorem execVpermb_ok {r : _} {s : _} (h_s : Ok p g (view (s))) :
    ∀ u, Machine.execVpermb r s = .next u → Ok p g (view u) := by
  intro u e
  unfold Machine.execVpermb at e
  first | (have e := Host.Outcome.next.inj e; subst e) | skip
  repeat' first
    | with_reducible assumption
    | with_reducible refine svRow_ok ?_

theorem execVand_ok {r : _} {s : _} (h_s : Ok p g (view (s))) :
    ∀ u, Machine.execVand r s = .next u → Ok p g (view u) := by
  intro u e
  unfold Machine.execVand at e
  first | (have e := Host.Outcome.next.inj e; subst e) | skip
  repeat' first
    | with_reducible assumption
    | with_reducible refine svRow_ok ?_

theorem execVssub_ok {ew : _} {r : _} {s : _} (h_s : Ok p g (view (s))) :
    ∀ u, Machine.execVssub ew r s = .next u → Ok p g (view u) := by
  intro u e
  unfold Machine.execVssub at e
  first | (have e := Host.Outcome.next.inj e; subst e) | skip
  repeat' first
    | with_reducible assumption
    | with_reducible refine svRow_ok ?_

theorem execVmin_ok {ew : _} {r : _} {s : _} (h_s : Ok p g (view (s))) :
    ∀ u, Machine.execVmin ew r s = .next u → Ok p g (view u) := by
  intro u e
  unfold Machine.execVmin at e
  first | (have e := Host.Outcome.next.inj e; subst e) | skip
  repeat' first
    | with_reducible assumption
    | with_reducible refine svRow_ok ?_

theorem execVfwidenlo_ok {ef : _} {r : _} {s : _} (h_s : Ok p g (view (s))) :
    ∀ u, Machine.execVfwidenlo ef r s = .next u → Ok p g (view u) := by
  intro u e
  unfold Machine.execVfwidenlo at e
  first | (have e := Host.Outcome.next.inj e; subst e) | skip
  repeat' first
    | with_reducible assumption
    | with_reducible refine svRow_ok ?_

theorem execTimerInterrupt_ok {a0 : _} {s : _} (h_s : Ok p g (view (s))) :
    ∀ u, Machine.execTimerInterrupt a0 s = .next u → Ok p g (view u) := by
  intro u e
  unfold Machine.execTimerInterrupt at e
  first | (have e := Host.Outcome.next.inj e; subst e) | skip
  repeat' first
    | with_reducible assumption
    | with_reducible refine serveIntr_ok ?_
    | with_reducible apply ok_foldl
    | with_reducible apply ok_foldl_fst
    | with_reducible apply ok_ite
    | with_reducible apply ok_ite_fst
    | with_reducible apply ok_ite_snd
    | intro _

theorem execVziplo_ok {ew : _} {r : _} {s : _} (h_s : Ok p g (view (s))) :
    ∀ u, Machine.execVziplo ew r s = .next u → Ok p g (view u) := by
  intro u e
  unfold Machine.execVziplo at e
  first | (have e := Host.Outcome.next.inj e; subst e) | skip
  repeat' first
    | with_reducible assumption
    | with_reducible refine svRow_ok ?_

theorem execVmaxu_ok {ew : _} {r : _} {s : _} (h_s : Ok p g (view (s))) :
    ∀ u, Machine.execVmaxu ew r s = .next u → Ok p g (view u) := by
  intro u e
  unfold Machine.execVmaxu at e
  first | (have e := Host.Outcome.next.inj e; subst e) | skip
  repeat' first
    | with_reducible assumption
    | with_reducible refine svRow_ok ?_

theorem execApertureResponse_ok {a0 : _} {status : _} {data : _} {s : _} (h_s : Ok p g (view (s))) :
    ∀ u, Machine.execApertureResponse a0 status data s = .next u → Ok p g (view u) := by
  intro u e
  unfold Machine.execApertureResponse at e
  first | (have e := Host.Outcome.next.inj e; subst e) | skip
  repeat' first
    | with_reducible assumption
    | with_reducible refine hartAnswer_ok ?_

theorem execSv128Store_ok {a : _} {s : _} (h_s : Ok p g (view (s))) :
    ∀ u, Machine.execSv128Store a s = .next u → Ok p g (view u) := by
  intro u e
  unfold Machine.execSv128Store at e
  first | (have e := Host.Outcome.next.inj e; subst e) | skip
  repeat' first
    | with_reducible assumption
    | with_reducible refine hartRun_ok ?_ ?_
    | with_reducible refine svLdSt_ok ?_
    | with_reducible apply ok_foldl
    | with_reducible apply ok_foldl_fst
    | with_reducible apply ok_ite
    | with_reducible apply ok_ite_fst
    | with_reducible apply ok_ite_snd
    | intro _

theorem execVcmplt_ok {ew : _} {r : _} {s : _} (h_s : Ok p g (view (s))) :
    ∀ u, Machine.execVcmplt ew r s = .next u → Ok p g (view u) := by
  intro u e
  unfold Machine.execVcmplt at e
  first | (have e := Host.Outcome.next.inj e; subst e) | skip
  repeat' first
    | with_reducible assumption
    | with_reducible refine svRow_ok ?_

theorem execVunzipe_ok {ew : _} {r : _} {s : _} (h_s : Ok p g (view (s))) :
    ∀ u, Machine.execVunzipe ew r s = .next u → Ok p g (view u) := by
  intro u e
  unfold Machine.execVunzipe at e
  first | (have e := Host.Outcome.next.inj e; subst e) | skip
  repeat' first
    | with_reducible assumption
    | with_reducible refine svRow_ok ?_

theorem execVfma_ok {ef : _} {r : _} {s : _} (h_s : Ok p g (view (s))) :
    ∀ u, Machine.execVfma ef r s = .next u → Ok p g (view u) := by
  intro u e
  unfold Machine.execVfma at e
  first | (have e := Host.Outcome.next.inj e; subst e) | skip
  repeat' first
    | with_reducible assumption
    | with_reducible refine svRow_ok ?_

theorem execVfcmple_ok {ef : _} {r : _} {s : _} (h_s : Ok p g (view (s))) :
    ∀ u, Machine.execVfcmple ef r s = .next u → Ok p g (view u) := by
  intro u e
  unfold Machine.execVfcmple at e
  first | (have e := Host.Outcome.next.inj e; subst e) | skip
  repeat' first
    | with_reducible assumption
    | with_reducible refine svRow_ok ?_

theorem execVfmax_ok {ef : _} {r : _} {s : _} (h_s : Ok p g (view (s))) :
    ∀ u, Machine.execVfmax ef r s = .next u → Ok p g (view u) := by
  intro u e
  unfold Machine.execVfmax at e
  first | (have e := Host.Outcome.next.inj e; subst e) | skip
  repeat' first
    | with_reducible assumption
    | with_reducible refine svRow_ok ?_

theorem execSv128Load_ok {a : _} {s : _} (h_s : Ok p g (view (s))) :
    ∀ u, Machine.execSv128Load a s = .next u → Ok p g (view u) := by
  intro u e
  unfold Machine.execSv128Load at e
  first | (have e := Host.Outcome.next.inj e; subst e) | skip
  repeat' first
    | with_reducible assumption
    | with_reducible refine hartRun_ok ?_ ?_
    | with_reducible refine svLdSt_ok ?_
    | with_reducible apply ok_foldl
    | with_reducible apply ok_foldl_fst
    | with_reducible apply ok_ite
    | with_reducible apply ok_ite_fst
    | with_reducible apply ok_ite_snd
    | intro _

theorem execVfadd_ok {ef : _} {r : _} {s : _} (h_s : Ok p g (view (s))) :
    ∀ u, Machine.execVfadd ef r s = .next u → Ok p g (view u) := by
  intro u e
  unfold Machine.execVfadd at e
  first | (have e := Host.Outcome.next.inj e; subst e) | skip
  repeat' first
    | with_reducible assumption
    | with_reducible refine svRow_ok ?_

theorem execVsrl_ok {ew : _} {r : _} {s : _} (h_s : Ok p g (view (s))) :
    ∀ u, Machine.execVsrl ew r s = .next u → Ok p g (view u) := by
  intro u e
  unfold Machine.execVsrl at e
  first | (have e := Host.Outcome.next.inj e; subst e) | skip
  repeat' first
    | with_reducible assumption
    | with_reducible refine svRow_ok ?_

theorem execFcoApt_ok {by_ : _} {slot : _} {v : _} {s : _} (h_s : Ok p g (view (s))) :
    ∀ u, Machine.execFcoApt by_ slot v s = .next u → Ok p g (view u) := by
  intro u e
  unfold Machine.execFcoApt at e
  first | (have e := Host.Outcome.next.inj e; subst e) | skip
  repeat' first
    | with_reducible assumption
    | with_reducible refine takeTrap_ok ?_
    | with_reducible apply ok_foldl
    | with_reducible apply ok_foldl_fst
    | with_reducible apply ok_ite
    | with_reducible apply ok_ite_fst
    | with_reducible apply ok_ite_snd
    | intro _
    | split
    | (with_reducible refine ok_of_pair (by assumption) ?_)
    | (with_reducible refine ok_of_pair2 (by assumption) ?_)
    | (with_reducible refine ok_of_hres (by assumption) ?_)
    | (with_reducible refine ok_of_opt2 (by assumption) ?_)
    | (with_reducible refine ok_of_some (by assumption) ?_)
    | with_reducible refine ok_findSome _ ?_
    | (simp only [view_mk, view_eta])

theorem execVwmuluh_ok {ew : _} {r : _} {s : _} (h_s : Ok p g (view (s))) :
    ∀ u, Machine.execVwmuluh ew r s = .next u → Ok p g (view u) := by
  intro u e
  unfold Machine.execVwmuluh at e
  first | (have e := Host.Outcome.next.inj e; subst e) | skip
  repeat' first
    | with_reducible assumption
    | with_reducible refine svRow_ok ?_

theorem execVfcmplt_ok {ef : _} {r : _} {s : _} (h_s : Ok p g (view (s))) :
    ∀ u, Machine.execVfcmplt ef r s = .next u → Ok p g (view u) := by
  intro u e
  unfold Machine.execVfcmplt at e
  first | (have e := Host.Outcome.next.inj e; subst e) | skip
  repeat' first
    | with_reducible assumption
    | with_reducible refine svRow_ok ?_

theorem execVcmpeq_ok {ew : _} {r : _} {s : _} (h_s : Ok p g (view (s))) :
    ∀ u, Machine.execVcmpeq ew r s = .next u → Ok p g (view u) := by
  intro u e
  unfold Machine.execVcmpeq at e
  first | (have e := Host.Outcome.next.inj e; subst e) | skip
  repeat' first
    | with_reducible assumption
    | with_reducible refine svRow_ok ?_

theorem execVmvVX_ok {ew : _} {r : _} {s : _} (h_s : Ok p g (view (s))) :
    ∀ u, Machine.execVmvVX ew r s = .next u → Ok p g (view u) := by
  intro u e
  unfold Machine.execVmvVX at e
  first | (have e := Host.Outcome.next.inj e; subst e) | skip
  repeat' first
    | with_reducible assumption
    | with_reducible refine svRow_ok ?_

theorem execVfwidenhi_ok {ef : _} {r : _} {s : _} (h_s : Ok p g (view (s))) :
    ∀ u, Machine.execVfwidenhi ef r s = .next u → Ok p g (view u) := by
  intro u e
  unfold Machine.execVfwidenhi at e
  first | (have e := Host.Outcome.next.inj e; subst e) | skip
  repeat' first
    | with_reducible assumption
    | with_reducible refine svRow_ok ?_

theorem execVunzipo_ok {ew : _} {r : _} {s : _} (h_s : Ok p g (view (s))) :
    ∀ u, Machine.execVunzipo ew r s = .next u → Ok p g (view u) := by
  intro u e
  unfold Machine.execVunzipo at e
  first | (have e := Host.Outcome.next.inj e; subst e) | skip
  repeat' first
    | with_reducible assumption
    | with_reducible refine svRow_ok ?_

theorem execVfsub_ok {ef : _} {r : _} {s : _} (h_s : Ok p g (view (s))) :
    ∀ u, Machine.execVfsub ef r s = .next u → Ok p g (view u) := by
  intro u e
  unfold Machine.execVfsub at e
  first | (have e := Host.Outcome.next.inj e; subst e) | skip
  repeat' first
    | with_reducible assumption
    | with_reducible refine svRow_ok ?_

theorem execHartAmo_ok {a0 : _} {op : _} {dbl : _} {rd : _} {rs1 : _} {rs2 : _} {s : _} (h_s : Ok p g (view (s))) :
    ∀ u, Machine.execHartAmo a0 op dbl rd rs1 rs2 s = .next u → Ok p g (view u) := by
  intro u e
  unfold Machine.execHartAmo at e
  first | (have e := Host.Outcome.next.inj e; subst e) | skip
  repeat' first
    | with_reducible assumption
    | with_reducible refine hartRun_ok ?_ ?_
    | with_reducible refine hartAmo_ok ?_
    | with_reducible apply ok_foldl
    | with_reducible apply ok_foldl_fst
    | with_reducible apply ok_ite
    | with_reducible apply ok_ite_fst
    | with_reducible apply ok_ite_snd
    | intro _

theorem execVwmulu_ok {ew : _} {r : _} {s : _} (h_s : Ok p g (view (s))) :
    ∀ u, Machine.execVwmulu ew r s = .next u → Ok p g (view u) := by
  intro u e
  unfold Machine.execVwmulu at e
  first | (have e := Host.Outcome.next.inj e; subst e) | skip
  repeat' first
    | with_reducible assumption
    | with_reducible refine svRow_ok ?_

theorem execVsll_ok {ew : _} {r : _} {s : _} (h_s : Ok p g (view (s))) :
    ∀ u, Machine.execVsll ew r s = .next u → Ok p g (view u) := by
  intro u e
  unfold Machine.execVsll at e
  first | (have e := Host.Outcome.next.inj e; subst e) | skip
  repeat' first
    | with_reducible assumption
    | with_reducible refine svRow_ok ?_

theorem execVmax_ok {ew : _} {r : _} {s : _} (h_s : Ok p g (view (s))) :
    ∀ u, Machine.execVmax ew r s = .next u → Ok p g (view u) := by
  intro u e
  unfold Machine.execVmax at e
  first | (have e := Host.Outcome.next.inj e; subst e) | skip
  repeat' first
    | with_reducible assumption
    | with_reducible refine svRow_ok ?_

theorem execVadd_ok {ew : _} {r : _} {s : _} (h_s : Ok p g (view (s))) :
    ∀ u, Machine.execVadd ew r s = .next u → Ok p g (view u) := by
  intro u e
  unfold Machine.execVadd at e
  first | (have e := Host.Outcome.next.inj e; subst e) | skip
  repeat' first
    | with_reducible assumption
    | with_reducible refine svRow_ok ?_

theorem execMsip_ok {a0 : _} {v : _} {s : _} (h_s : Ok p g (view (s))) :
    ∀ u, Machine.execMsip a0 v s = .next u → Ok p g (view u) := by
  intro u e
  unfold Machine.execMsip at e
  first | (have e := Host.Outcome.next.inj e; subst e) | skip
  repeat' first
    | with_reducible assumption
    | with_reducible refine State_updHart_ok ?_
    | with_reducible refine serveIntr_ok ?_
    | with_reducible apply ok_foldl
    | with_reducible apply ok_foldl_fst
    | with_reducible apply ok_ite
    | with_reducible apply ok_ite_fst
    | with_reducible apply ok_ite_snd
    | intro _

theorem execVfnms_ok {ef : _} {r : _} {s : _} (h_s : Ok p g (view (s))) :
    ∀ u, Machine.execVfnms ef r s = .next u → Ok p g (view u) := by
  intro u e
  unfold Machine.execVfnms at e
  first | (have e := Host.Outcome.next.inj e; subst e) | skip
  repeat' first
    | with_reducible assumption
    | with_reducible refine svRow_ok ?_

theorem execVdotu_ok {ew : _} {r : _} {s : _} (h_s : Ok p g (view (s))) :
    ∀ u, Machine.execVdotu ew r s = .next u → Ok p g (view u) := by
  intro u e
  unfold Machine.execVdotu at e
  first | (have e := Host.Outcome.next.inj e; subst e) | skip
  repeat' first
    | with_reducible assumption
    | with_reducible refine svRow_ok ?_

theorem execVins_ok {ew : _} {r : _} {s : _} (h_s : Ok p g (view (s))) :
    ∀ u, Machine.execVins ew r s = .next u → Ok p g (view u) := by
  intro u e
  unfold Machine.execVins at e
  first | (have e := Host.Outcome.next.inj e; subst e) | skip
  repeat' first
    | with_reducible assumption
    | with_reducible refine svRow_ok ?_

end Sys2Proof.Laws
end

