-- ==== Sys2Proof/Laws/KeepRestore.lean ====
section
/-!
SUPPORT. What the operations of Machine/Restore.lean keep of the view of Laws/Good.lean.
-/
namespace Sys2Proof.Laws

open Sys2Proof.Machine

variable {p : List Instr} {g : Grade × W64}

theorem swapBlock_ok {s : _} {n : _} {b : _} {c : _} (h_s : Ok p g (view (s))) :
    Ok p g (view (Machine.swapBlock s n b c)) := by
  unfold Machine.swapBlock
  repeat' first
    | with_reducible assumption
    | with_reducible refine State_setBlk_ok ?_
    | with_reducible refine eraseKeys_ok ?_

theorem substOne_ok {n : _} {s : _} {b : _} (h_s : Ok p g (view (s))) :
    Ok p g (view (Machine.substOne n s b)) := by
  unfold Machine.substOne
  repeat' first
    | with_reducible assumption
    | with_reducible refine swapBlock_ok ?_
    | with_reducible refine State_setRegion_ok ?_
    | with_reducible apply ok_foldl
    | with_reducible apply ok_foldl_fst
    | with_reducible apply ok_ite
    | with_reducible apply ok_ite_fst
    | with_reducible apply ok_ite_snd
    | intro _
    | split
    | (with_reducible refine ok_of_pair (by assumption) ?_)
    | (with_reducible refine ok_of_pair2 (by assumption) ?_)
    | (with_reducible refine ok_of_hres (by assumption) ?_)
    | (with_reducible refine ok_of_opt2 (by assumption) ?_)
    | (with_reducible refine ok_of_some (by assumption) ?_)
    | with_reducible refine ok_findSome _ ?_
    | (simp only [view_mk, view_eta])

theorem writeReport_ok {s : _} {js : _} (h_s : Ok p g (view (s))) :
    Ok p g (view (Machine.writeReport s js)) := by
  unfold Machine.writeReport
  repeat' first
    | with_reducible assumption
    | with_reducible apply ok_foldl
    | with_reducible apply ok_foldl_fst
    | with_reducible apply ok_ite
    | with_reducible apply ok_ite_fst
    | with_reducible apply ok_ite_snd
    | intro _
    | split
    | (with_reducible refine ok_of_pair (by assumption) ?_)
    | (with_reducible refine ok_of_pair2 (by assumption) ?_)
    | (with_reducible refine ok_of_hres (by assumption) ?_)
    | (with_reducible refine ok_of_opt2 (by assumption) ?_)
    | (with_reducible refine ok_of_some (by assumption) ?_)
    | with_reducible refine ok_findSome _ ?_
    | (simp only [view_mk, view_eta])

theorem quarterShard_ok {s : _} {i : _} {st : _} {x : _} (h_s : Ok p g (view (s))) :
    Ok p g (view (Machine.quarterShard s i st x).1) := by
  unfold Machine.quarterShard
  repeat' first
    | with_reducible assumption
    | with_reducible refine readQuarter_ok ?_
    | with_reducible apply ok_foldl
    | with_reducible apply ok_foldl_fst
    | with_reducible apply ok_ite
    | with_reducible apply ok_ite_fst
    | with_reducible apply ok_ite_snd
    | intro _
    | split
    | (with_reducible refine ok_of_pair (by assumption) ?_)

theorem quarterCopy_ok {s : _} {i : _} (h_s : Ok p g (view (s))) :
    Ok p g (view (Machine.quarterCopy s i).1) := by
  unfold Machine.quarterCopy
  repeat' first
    | with_reducible assumption
    | with_reducible refine readQuarter_ok ?_
    | with_reducible refine quarterShard_ok ?_
    | with_reducible apply ok_foldl
    | with_reducible apply ok_foldl_fst
    | with_reducible apply ok_ite
    | with_reducible apply ok_ite_fst
    | with_reducible apply ok_ite_snd
    | intro _

theorem judgeBoth_ok {s : _} {remote : _} (h_s : Ok p g (view (s))) :
    Ok p g (view (Machine.judgeBoth s remote).1) := by
  unfold Machine.judgeBoth
  repeat' first
    | with_reducible assumption
    | with_reducible refine quarterCopy_ok ?_
    | with_reducible apply ok_foldl
    | with_reducible apply ok_foldl_fst
    | with_reducible apply ok_ite
    | with_reducible apply ok_ite_fst
    | with_reducible apply ok_ite_snd
    | intro _

theorem adopt_ok {s : _} {step : _} (h_s : Ok p g (view (s))) :
    Ok p g (view (Machine.adopt s step)) := by
  unfold Machine.adopt
  repeat' first
    | with_reducible assumption
    | with_reducible refine quarterCopy_ok ?_
    | with_reducible refine wrN_ok ?_
    | with_reducible apply ok_foldl
    | with_reducible apply ok_foldl_fst
    | with_reducible apply ok_ite
    | with_reducible apply ok_ite_fst
    | with_reducible apply ok_ite_snd
    | intro _
    | split
    | (with_reducible refine ok_of_pair (by assumption) ?_)
    | (with_reducible refine ok_of_pair2 (by assumption) ?_)
    | (with_reducible refine ok_of_hres (by assumption) ?_)
    | (with_reducible refine ok_of_opt2 (by assumption) ?_)
    | (with_reducible refine ok_of_some (by assumption) ?_)
    | with_reducible refine ok_findSome _ ?_
    | (simp only [view_mk, view_eta])

theorem substitute_ok {s : _} (h_s : Ok p g (view (s))) :
    Ok p g (view (Machine.substitute s)) := by
  unfold Machine.substitute
  repeat' first
    | with_reducible assumption
    | with_reducible refine substOne_ok ?_
    | with_reducible apply ok_foldl
    | with_reducible apply ok_foldl_fst
    | with_reducible apply ok_ite
    | with_reducible apply ok_ite_fst
    | with_reducible apply ok_ite_snd
    | intro _

theorem putLines_ok {s : _} {shards : _} {st : _} (h_s : Ok p g (view (s))) :
    Ok p g (view (Machine.putLines s shards st)) := by
  unfold Machine.putLines
  repeat' first
    | with_reducible assumption
    | with_reducible refine wrN_ok ?_
    | with_reducible apply ok_foldl
    | with_reducible apply ok_foldl_fst
    | with_reducible apply ok_ite
    | with_reducible apply ok_ite_fst
    | with_reducible apply ok_ite_snd
    | intro _

theorem putRestore_ok {s : _} {j : _} {failed : _} (h_s : Ok p g (view (s))) :
    Ok p g (view (Machine.putRestore s j failed)) := by
  unfold Machine.putRestore
  repeat' first
    | with_reducible assumption
    | with_reducible refine putLines_ok ?_
    | with_reducible refine drainAll_ok ?_
    | with_reducible refine eraseKeys_ok ?_
    | with_reducible refine State_setBlk_ok ?_
    | with_reducible refine State_setStack_ok ?_
    | with_reducible refine State_setPair_ok ?_
    | with_reducible apply ok_foldl
    | with_reducible apply ok_foldl_fst
    | with_reducible apply ok_ite
    | with_reducible apply ok_ite_fst
    | with_reducible apply ok_ite_snd
    | intro _
    | split
    | (with_reducible refine ok_of_pair (by assumption) ?_)
    | (with_reducible refine ok_of_pair2 (by assumption) ?_)
    | (with_reducible refine ok_of_hres (by assumption) ?_)
    | (with_reducible refine ok_of_opt2 (by assumption) ?_)
    | (with_reducible refine ok_of_some (by assumption) ?_)
    | with_reducible refine ok_findSome _ ?_
    | (simp only [view_mk, view_eta])

theorem restore_ok {s : _} {step : _} {failed : _} {remote : _} (h_s : Ok p g (view (s))) :
    Ok p g (view (Machine.restore s step failed remote).1) := by
  unfold Machine.restore
  repeat' first
    | with_reducible assumption
    | with_reducible refine judgeBoth_ok ?_
    | with_reducible refine writeReport_ok ?_
    | with_reducible refine substitute_ok ?_
    | with_reducible refine adopt_ok ?_
    | with_reducible refine putRestore_ok ?_
    | with_reducible apply ok_foldl
    | with_reducible apply ok_foldl_fst
    | with_reducible apply ok_ite
    | with_reducible apply ok_ite_fst
    | with_reducible apply ok_ite_snd
    | intro _
    | split
    | (with_reducible refine ok_of_pair (by assumption) ?_)
    | (with_reducible refine ok_of_pair2 (by assumption) ?_)
    | (with_reducible refine ok_of_hres (by assumption) ?_)
    | (with_reducible refine ok_of_opt2 (by assumption) ?_)
    | (with_reducible refine ok_of_some (by assumption) ?_)
    | with_reducible refine ok_findSome _ ?_
    | (simp only [view_mk, view_eta])

end Sys2Proof.Laws
end

