-- ==== Sys2Proof/Laws/KeepRecover.lean ====
section
/-!
SUPPORT. What the operations of Machine/Recover.lean keep of the view of Laws/Good.lean.
-/
namespace Sys2Proof.Laws

open Sys2Proof.Machine

variable {p : List Instr} {g : Grade × W64}

theorem byOrder_ok {s : _} {src : _} {bs : _} {run : _} (h_s : Ok p g (view (s))) (h_run : ∀ v0, Ok p g (view (v0)) → Ok p g (view (run v0).1)) :
    Ok p g (view (Machine.byOrder s src bs run)) := by
  unfold Machine.byOrder
  repeat' first
    | with_reducible assumption
    | with_reducible refine mbx_ok ?_ ?_
    | with_reducible refine done_ok ?_
    | with_reducible refine takeControl_ok ?_
    | with_reducible apply h_run
    | with_reducible apply ok_foldl
    | with_reducible apply ok_foldl_fst
    | with_reducible apply ok_ite
    | with_reducible apply ok_ite_fst
    | with_reducible apply ok_ite_snd
    | intro _
    | split
    | (with_reducible refine ok_of_pair (by assumption) ?_)
    | (with_reducible refine ok_of_pair2 (by assumption) ?_)
    | (with_reducible refine ok_of_hres (by assumption) ?_)
    | (with_reducible refine ok_of_opt2 (by assumption) ?_)
    | (with_reducible refine ok_of_some (by assumption) ?_)
    | with_reducible refine ok_findSome _ ?_
    | (simp only [view_mk, view_eta])

theorem holdOrder_ok {s : _} (h_s : Ok p g (view (s))) :
    Ok p g (view (Machine.holdOrder s).1) := by
  unfold Machine.holdOrder
  repeat' first
    | with_reducible assumption
    | with_reducible refine enterHolding_ok ?_
    | with_reducible apply ok_foldl
    | with_reducible apply ok_foldl_fst
    | with_reducible apply ok_ite
    | with_reducible apply ok_ite_fst
    | with_reducible apply ok_ite_snd
    | intro _
    | split
    | (with_reducible refine ok_of_pair (by assumption) ?_)
    | (with_reducible refine ok_of_pair2 (by assumption) ?_)
    | (with_reducible refine ok_of_hres (by assumption) ?_)
    | (with_reducible refine ok_of_opt2 (by assumption) ?_)
    | (with_reducible refine ok_of_some (by assumption) ?_)
    | with_reducible refine ok_findSome _ ?_
    | (simp only [view_mk, view_eta])

theorem execHold_ok {src : _} {s : _} (h_s : Ok p g (view (s))) :
    ∀ u, Machine.execHold src s = .next u → Ok p g (view u) := by
  intro u e
  unfold Machine.execHold at e
  first | (have e := Host.Outcome.next.inj e; subst e) | skip
  repeat' first
    | with_reducible assumption
    | with_reducible refine byOrder_ok ?_ ?_
    | with_reducible refine holdOrder_ok ?_
    | with_reducible apply ok_foldl
    | with_reducible apply ok_foldl_fst
    | with_reducible apply ok_ite
    | with_reducible apply ok_ite_fst
    | with_reducible apply ok_ite_snd
    | intro _

theorem execHoldLimit_ok {s : _} (h_s : Ok p g (view (s))) :
    ∀ u, Machine.execHoldLimit s = .next u → Ok p g (view u) := by
  intro u e
  unfold Machine.execHoldLimit at e
  first | (have e := Host.Outcome.next.inj e; subst e) | skip
  repeat' first
    | with_reducible assumption
    | with_reducible refine enterHeld_ok ?_
    | with_reducible apply ok_foldl
    | with_reducible apply ok_foldl_fst
    | with_reducible apply ok_ite
    | with_reducible apply ok_ite_fst
    | with_reducible apply ok_ite_snd
    | intro _
    | split
    | (with_reducible refine ok_of_pair (by assumption) ?_)
    | (with_reducible refine ok_of_pair2 (by assumption) ?_)
    | (with_reducible refine ok_of_hres (by assumption) ?_)
    | (with_reducible refine ok_of_opt2 (by assumption) ?_)
    | (with_reducible refine ok_of_some (by assumption) ?_)
    | with_reducible refine ok_findSome _ ?_
    | (simp only [view_mk, view_eta])

theorem resume_ok {s : _} (h_s : Ok p g (view (s))) :
    Ok p g (view (Machine.resume s).1) := by
  unfold Machine.resume
  repeat' first
    | with_reducible assumption
    | with_reducible refine traceHw_ok ?_
    | with_reducible refine takeBoundary_ok ?_
    | with_reducible refine releaseQueues_ok ?_
    | with_reducible apply ok_foldl
    | with_reducible apply ok_foldl_fst
    | with_reducible apply ok_ite
    | with_reducible apply ok_ite_fst
    | with_reducible apply ok_ite_snd
    | intro _
    | split
    | (with_reducible refine ok_of_pair (by assumption) ?_)
    | (with_reducible refine ok_of_pair2 (by assumption) ?_)
    | (with_reducible refine ok_of_hres (by assumption) ?_)
    | (with_reducible refine ok_of_opt2 (by assumption) ?_)
    | (with_reducible refine ok_of_some (by assumption) ?_)
    | with_reducible refine ok_findSome _ ?_
    | (simp only [view_mk, view_eta])

theorem execResume_ok {src : _} {s : _} (h_s : Ok p g (view (s))) :
    ∀ u, Machine.execResume src s = .next u → Ok p g (view u) := by
  intro u e
  unfold Machine.execResume at e
  first | (have e := Host.Outcome.next.inj e; subst e) | skip
  repeat' first
    | with_reducible assumption
    | with_reducible refine byOrder_ok ?_ ?_
    | with_reducible refine resume_ok ?_
    | with_reducible apply ok_foldl
    | with_reducible apply ok_foldl_fst
    | with_reducible apply ok_ite
    | with_reducible apply ok_ite_fst
    | with_reducible apply ok_ite_snd
    | intro _

theorem abortCmd_ok {b : _} {q : _} {s : _} {f : _} (h_s : Ok p g (view (s))) :
    Ok p g (view (Machine.abortCmd b q s f)) := by
  unfold Machine.abortCmd
  repeat' first
    | with_reducible assumption
    | with_reducible refine record_ok ?_
    | with_reducible refine notifyRec_ok ?_
    | with_reducible apply ok_foldl
    | with_reducible apply ok_foldl_fst
    | with_reducible apply ok_ite
    | with_reducible apply ok_ite_fst
    | with_reducible apply ok_ite_snd
    | intro _
    | split

theorem beginReset_ok {s : _} {ending : _} (h_s : Ok p g (view (s))) :
    Ok p g (view (Machine.beginReset s ending)) := by
  unfold Machine.beginReset
  repeat' first
    | with_reducible assumption
    | with_reducible refine traceHw_ok ?_
    | with_reducible apply ok_foldl
    | with_reducible apply ok_foldl_fst
    | with_reducible apply ok_ite
    | with_reducible apply ok_ite_fst
    | with_reducible apply ok_ite_snd
    | intro _
    | split
    | (with_reducible refine ok_of_pair (by assumption) ?_)
    | (with_reducible refine ok_of_pair2 (by assumption) ?_)
    | (with_reducible refine ok_of_hres (by assumption) ?_)
    | (with_reducible refine ok_of_opt2 (by assumption) ?_)
    | (with_reducible refine ok_of_some (by assumption) ?_)
    | with_reducible refine ok_findSome _ ?_
    | (simp only [view_mk, view_eta])

theorem execHeld_ok {s : _} (h_s : Ok p g (view (s))) :
    ∀ u, Machine.execHeld s = .next u → Ok p g (view u) := by
  intro u e
  unfold Machine.execHeld at e
  first | (have e := Host.Outcome.next.inj e; subst e) | skip
  repeat' first
    | with_reducible assumption
    | with_reducible refine enterHeld_ok ?_
    | with_reducible apply ok_foldl
    | with_reducible apply ok_foldl_fst
    | with_reducible apply ok_ite
    | with_reducible apply ok_ite_fst
    | with_reducible apply ok_ite_snd
    | intro _
    | split
    | (with_reducible refine ok_of_pair (by assumption) ?_)
    | (with_reducible refine ok_of_pair2 (by assumption) ?_)
    | (with_reducible refine ok_of_hres (by assumption) ?_)
    | (with_reducible refine ok_of_opt2 (by assumption) ?_)
    | (with_reducible refine ok_of_some (by assumption) ?_)
    | with_reducible refine ok_findSome _ ?_
    | (simp only [view_mk, view_eta])

theorem execSettleWindowEnd_ok {s : _} (h_s : Ok p g (view (s))) :
    ∀ u, Machine.execSettleWindowEnd s = .next u → Ok p g (view u) := by
  intro u e
  unfold Machine.execSettleWindowEnd at e
  first | (have e := Host.Outcome.next.inj e; subst e) | skip
  repeat' first
    | with_reducible assumption
    | with_reducible refine orderAll_ok ?_
    | with_reducible apply ok_foldl
    | with_reducible apply ok_foldl_fst
    | with_reducible apply ok_ite
    | with_reducible apply ok_ite_fst
    | with_reducible apply ok_ite_snd
    | intro _
    | split
    | (with_reducible refine ok_of_pair (by assumption) ?_)
    | (with_reducible refine ok_of_pair2 (by assumption) ?_)
    | (with_reducible refine ok_of_hres (by assumption) ?_)
    | (with_reducible refine ok_of_opt2 (by assumption) ?_)
    | (with_reducible refine ok_of_some (by assumption) ?_)
    | with_reducible refine ok_findSome _ ?_
    | (simp only [view_mk, view_eta])

theorem execRestore_ok {src : _} {step : _} {failed : _} {remote : _} {s : _} (h_s : Ok p g (view (s))) :
    ∀ u, Machine.execRestore src step failed remote s = .next u → Ok p g (view u) := by
  intro u e
  unfold Machine.execRestore at e
  first | (have e := Host.Outcome.next.inj e; subst e) | skip
  repeat' first
    | with_reducible assumption
    | with_reducible refine byOrder_ok ?_ ?_
    | with_reducible refine restore_ok ?_
    | with_reducible refine orderAll_ok ?_
    | with_reducible apply ok_foldl
    | with_reducible apply ok_foldl_fst
    | with_reducible apply ok_ite
    | with_reducible apply ok_ite_fst
    | with_reducible apply ok_ite_snd
    | intro _
    | split
    | (with_reducible refine ok_of_pair (by assumption) ?_)
    | (with_reducible refine ok_of_pair2 (by assumption) ?_)
    | (with_reducible refine ok_of_hres (by assumption) ?_)
    | (with_reducible refine ok_of_opt2 (by assumption) ?_)
    | (with_reducible refine ok_of_some (by assumption) ?_)
    | with_reducible refine ok_findSome _ ?_
    | (simp only [view_mk, view_eta])

theorem execCoalesceExpiry_ok {code : _} {unit : _} {s : _} (h_s : Ok p g (view (s))) :
    ∀ u, Machine.execCoalesceExpiry code unit s = .next u → Ok p g (view u) := by
  intro u e
  unfold Machine.execCoalesceExpiry at e
  first | (have e := Host.Outcome.next.inj e; subst e) | skip
  repeat' first
    | with_reducible assumption
    | with_reducible refine pushRec_ok ?_
    | with_reducible apply ok_foldl
    | with_reducible apply ok_foldl_fst
    | with_reducible apply ok_ite
    | with_reducible apply ok_ite_fst
    | with_reducible apply ok_ite_snd
    | intro _
    | split
    | (with_reducible refine ok_of_pair (by assumption) ?_)
    | (with_reducible refine ok_of_pair2 (by assumption) ?_)
    | (with_reducible refine ok_of_hres (by assumption) ?_)
    | (with_reducible refine ok_of_opt2 (by assumption) ?_)
    | (with_reducible refine ok_of_some (by assumption) ?_)
    | with_reducible refine ok_findSome _ ?_
    | (simp only [view_mk, view_eta])

theorem terminate_ok {s : _} (h_s : Ok p g (view (s))) :
    Ok p g (view (Machine.terminate s).1) := by
  unfold Machine.terminate
  repeat' first
    | with_reducible assumption
    | with_reducible refine endJob_ok ?_
    | with_reducible refine beginReset_ok ?_
    | with_reducible apply ok_foldl
    | with_reducible apply ok_foldl_fst
    | with_reducible apply ok_ite
    | with_reducible apply ok_ite_fst
    | with_reducible apply ok_ite_snd
    | intro _
    | split
    | (with_reducible refine ok_of_pair (by assumption) ?_)
    | (with_reducible refine ok_of_pair2 (by assumption) ?_)
    | (with_reducible refine ok_of_hres (by assumption) ?_)
    | (with_reducible refine ok_of_opt2 (by assumption) ?_)
    | (with_reducible refine ok_of_some (by assumption) ?_)
    | with_reducible refine ok_findSome _ ?_
    | (simp only [view_mk, view_eta])

theorem execTerminate_ok {src : _} {s : _} (h_s : Ok p g (view (s))) :
    ∀ u, Machine.execTerminate src s = .next u → Ok p g (view u) := by
  intro u e
  unfold Machine.execTerminate at e
  first | (have e := Host.Outcome.next.inj e; subst e) | skip
  repeat' first
    | with_reducible assumption
    | with_reducible refine byOrder_ok ?_ ?_
    | with_reducible refine terminate_ok ?_
    | with_reducible apply ok_foldl
    | with_reducible apply ok_foldl_fst
    | with_reducible apply ok_ite
    | with_reducible apply ok_ite_fst
    | with_reducible apply ok_ite_snd
    | intro _

theorem resetOrder_ok {s : _} (h_s : Ok p g (view (s))) :
    Ok p g (view (Machine.resetOrder s).1) := by
  unfold Machine.resetOrder
  repeat' first
    | with_reducible assumption
    | with_reducible refine beginReset_ok ?_
    | with_reducible apply ok_foldl
    | with_reducible apply ok_foldl_fst
    | with_reducible apply ok_ite
    | with_reducible apply ok_ite_fst
    | with_reducible apply ok_ite_snd
    | intro _

theorem abortQueue_ok {b : _} {s : _} {q : _} (h_s : Ok p g (view (s))) :
    Ok p g (view (Machine.abortQueue b s q)) := by
  unfold Machine.abortQueue
  repeat' first
    | with_reducible assumption
    | with_reducible refine abortCmd_ok ?_
    | with_reducible refine notifyRec_ok ?_
    | with_reducible apply ok_foldl
    | with_reducible apply ok_foldl_fst
    | with_reducible apply ok_ite
    | with_reducible apply ok_ite_fst
    | with_reducible apply ok_ite_snd
    | intro _
    | split

theorem resetQueues_ok {s : _} (h_s : Ok p g (view (s))) :
    Ok p g (view (Machine.resetQueues s)) := by
  unfold Machine.resetQueues
  repeat' first
    | with_reducible assumption
    | with_reducible refine abortQueue_ok ?_
    | with_reducible apply ok_foldl
    | with_reducible apply ok_foldl_fst
    | with_reducible apply ok_ite
    | with_reducible apply ok_ite_fst
    | with_reducible apply ok_ite_snd
    | intro _
    | split
    | (with_reducible refine ok_of_pair (by assumption) ?_)
    | (with_reducible refine ok_of_pair2 (by assumption) ?_)
    | (with_reducible refine ok_of_hres (by assumption) ?_)
    | (with_reducible refine ok_of_opt2 (by assumption) ?_)
    | (with_reducible refine ok_of_some (by assumption) ?_)
    | with_reducible refine ok_findSome _ ?_
    | (simp only [view_mk, view_eta])

theorem readReports_ok {s : _} {failed : _} (h_s : Ok p g (view (s))) :
    Ok p g (view (Machine.readReports s failed)) := by
  unfold Machine.readReports
  repeat' first
    | with_reducible assumption
    | with_reducible refine sendData_ok ?_
    | with_reducible apply ok_foldl
    | with_reducible apply ok_foldl_fst
    | with_reducible apply ok_ite
    | with_reducible apply ok_ite_fst
    | with_reducible apply ok_ite_snd
    | intro _

theorem execResettingDrained_ok {s : _} (h_s : Ok p g (view (s))) :
    ∀ u, Machine.execResettingDrained s = .next u → Ok p g (view u) := by
  intro u e
  unfold Machine.execResettingDrained at e
  first | (have e := Host.Outcome.next.inj e; subst e) | skip
  repeat' first
    | with_reducible assumption
    | with_reducible refine resetQueues_ok ?_
    | with_reducible refine endJob_ok ?_
    | with_reducible refine judgeBoth_ok ?_
    | with_reducible refine writeReport_ok ?_
    | with_reducible refine reportCame_ok ?_
    | with_reducible refine readReports_ok ?_
    | with_reducible apply ok_foldl
    | with_reducible apply ok_foldl_fst
    | with_reducible apply ok_ite
    | with_reducible apply ok_ite_fst
    | with_reducible apply ok_ite_snd
    | intro _
    | split
    | (with_reducible refine ok_of_pair (by assumption) ?_)
    | (with_reducible refine ok_of_pair2 (by assumption) ?_)
    | (with_reducible refine ok_of_hres (by assumption) ?_)
    | (with_reducible refine ok_of_opt2 (by assumption) ?_)
    | (with_reducible refine ok_of_some (by assumption) ?_)
    | with_reducible refine ok_findSome _ ?_
    | (simp only [view_mk, view_eta])

theorem execRelaunch_ok {src : _} {tGo : _} {commitDeadline : _} {expiry : _} {failed : _} {s : _} (h_s : Ok p g (view (s))) :
    ∀ u, Machine.execRelaunch src tGo commitDeadline expiry failed s = .next u → Ok p g (view u) := by
  intro u e
  unfold Machine.execRelaunch at e
  first | (have e := Host.Outcome.next.inj e; subst e) | skip
  repeat' first
    | with_reducible assumption
    | with_reducible refine mbx_ok ?_ ?_
    | with_reducible refine invalid_ok ?_
    | with_reducible refine relaunch_ok ?_
    | with_reducible refine done_ok ?_
    | with_reducible refine byOrder_ok ?_ ?_
    | with_reducible apply ok_foldl
    | with_reducible apply ok_foldl_fst
    | with_reducible apply ok_ite
    | with_reducible apply ok_ite_fst
    | with_reducible apply ok_ite_snd
    | intro _
    | split

theorem execHoldNotice_ok {src : _} {n : _} {s : _} (h_s : Ok p g (view (s))) :
    ∀ u, Machine.execHoldNotice src n s = .next u → Ok p g (view u) := by
  intro u e
  unfold Machine.execHoldNotice at e
  first | (have e := Host.Outcome.next.inj e; subst e) | skip
  repeat' first
    | with_reducible assumption
    | with_reducible refine takeControl_ok ?_
    | with_reducible refine orderAll_ok ?_
    | with_reducible apply ok_foldl
    | with_reducible apply ok_foldl_fst
    | with_reducible apply ok_ite
    | with_reducible apply ok_ite_fst
    | with_reducible apply ok_ite_snd
    | intro _
    | split
    | (with_reducible refine ok_of_pair (by assumption) ?_)
    | (with_reducible refine ok_of_pair2 (by assumption) ?_)
    | (with_reducible refine ok_of_hres (by assumption) ?_)
    | (with_reducible refine ok_of_opt2 (by assumption) ?_)
    | (with_reducible refine ok_of_some (by assumption) ?_)
    | with_reducible refine ok_findSome _ ?_
    | (simp only [view_mk, view_eta])

theorem execNoticeResend_ok {s : _} (h_s : Ok p g (view (s))) :
    ∀ u, Machine.execNoticeResend s = .next u → Ok p g (view u) := by
  intro u e
  unfold Machine.execNoticeResend at e
  first | (have e := Host.Outcome.next.inj e; subst e) | skip
  repeat' first
    | with_reducible assumption
    | with_reducible refine sendNotice_ok ?_
    | with_reducible apply ok_foldl
    | with_reducible apply ok_foldl_fst
    | with_reducible apply ok_ite
    | with_reducible apply ok_ite_fst
    | with_reducible apply ok_ite_snd
    | intro _
    | split

theorem execReset_ok {src : _} {s : _} (h_s : Ok p g (view (s))) :
    ∀ u, Machine.execReset src s = .next u → Ok p g (view u) := by
  intro u e
  unfold Machine.execReset at e
  first | (have e := Host.Outcome.next.inj e; subst e) | skip
  repeat' first
    | with_reducible assumption
    | with_reducible refine byOrder_ok ?_ ?_
    | with_reducible refine resetOrder_ok ?_
    | with_reducible apply ok_foldl
    | with_reducible apply ok_foldl_fst
    | with_reducible apply ok_ite
    | with_reducible apply ok_ite_fst
    | with_reducible apply ok_ite_snd
    | intro _

end Sys2Proof.Laws
end

