-- ==== Sys2Proof/Laws/KeepLease.lean ====
section
/-!
SUPPORT. What the operations of Machine/Lease.lean keep of the view of Laws/Good.lean.
-/
namespace Sys2Proof.Laws

open Sys2Proof.Machine

variable {p : List Instr} {g : Grade × W64}

theorem overLink_ok {s : _} {f : _} (h_s : Ok p g (view (s))) (h_f : ∀ v0, Ok p g (view (v0)) → Ok p g (view (f v0))) :
    Ok p g (view (Machine.overLink s f)) := by
  unfold Machine.overLink
  repeat' first
    | with_reducible assumption
    | with_reducible apply h_f
    | with_reducible apply ok_foldl
    | with_reducible apply ok_foldl_fst
    | with_reducible apply ok_ite
    | with_reducible apply ok_ite_fst
    | with_reducible apply ok_ite_snd
    | intro _

theorem enterOrphan_ok {s : _} (h_s : Ok p g (view (s))) :
    Ok p g (view (Machine.enterOrphan s)) := by
  unfold Machine.enterOrphan
  repeat' first
    | with_reducible assumption
    | with_reducible refine ibi_ok ?_
    | with_reducible refine record_ok ?_
    | with_reducible refine raise_ok ?_
    | with_reducible refine holdOrder_ok ?_
    | with_reducible apply ok_foldl
    | with_reducible apply ok_foldl_fst
    | with_reducible apply ok_ite
    | with_reducible apply ok_ite_fst
    | with_reducible apply ok_ite_snd
    | intro _
    | split
    | (with_reducible refine ok_of_pair (by assumption) ?_)
    | (with_reducible refine ok_of_pair2 (by assumption) ?_)
    | (with_reducible refine ok_of_hres (by assumption) ?_)
    | (with_reducible refine ok_of_opt2 (by assumption) ?_)
    | (with_reducible refine ok_of_some (by assumption) ?_)
    | with_reducible refine ok_findSome _ ?_
    | (simp only [view_mk, view_eta])

theorem leaseDue_ok {s : _} (h_s : Ok p g (view (s))) :
    Ok p g (view (Machine.leaseDue s)) := by
  unfold Machine.leaseDue
  repeat' first
    | with_reducible assumption
    | with_reducible refine enterOrphan_ok ?_
    | with_reducible apply ok_foldl
    | with_reducible apply ok_foldl_fst
    | with_reducible apply ok_ite
    | with_reducible apply ok_ite_fst
    | with_reducible apply ok_ite_snd
    | intro _

theorem lateLease_ok {s : _} (h_s : Ok p g (view (s))) :
    Ok p g (view (Machine.lateLease s)) := by
  unfold Machine.lateLease
  repeat' first
    | with_reducible assumption
    | with_reducible apply ok_foldl
    | with_reducible apply ok_foldl_fst
    | with_reducible apply ok_ite
    | with_reducible apply ok_ite_fst
    | with_reducible apply ok_ite_snd
    | intro _
    | split
    | (with_reducible refine ok_of_pair (by assumption) ?_)
    | (with_reducible refine ok_of_pair2 (by assumption) ?_)
    | (with_reducible refine ok_of_hres (by assumption) ?_)
    | (with_reducible refine ok_of_opt2 (by assumption) ?_)
    | (with_reducible refine ok_of_some (by assumption) ?_)
    | with_reducible refine ok_findSome _ ?_
    | (simp only [view_mk, view_eta])

theorem leaseRelease_ok {s : _} {holder : _} (h_s : Ok p g (view (s))) :
    Ok p g (view (Machine.leaseRelease s holder)) := by
  unfold Machine.leaseRelease
  repeat' first
    | with_reducible assumption
    | with_reducible refine leaseDue_ok ?_
    | with_reducible refine enterOrphan_ok ?_
    | with_reducible refine lateLease_ok ?_
    | with_reducible apply ok_foldl
    | with_reducible apply ok_foldl_fst
    | with_reducible apply ok_ite
    | with_reducible apply ok_ite_fst
    | with_reducible apply ok_ite_snd
    | intro _

theorem execLeaseRelease_ok {holder : _} {s : _} (h_s : Ok p g (view (s))) :
    ∀ u, Machine.execLeaseRelease holder s = .next u → Ok p g (view u) := by
  intro u e
  unfold Machine.execLeaseRelease at e
  first | (have e := Host.Outcome.next.inj e; subst e) | skip
  repeat' first
    | with_reducible assumption
    | with_reducible refine overLink_ok ?_ ?_
    | with_reducible refine leaseRelease_ok ?_
    | with_reducible apply ok_foldl
    | with_reducible apply ok_foldl_fst
    | with_reducible apply ok_ite
    | with_reducible apply ok_ite_fst
    | with_reducible apply ok_ite_snd
    | intro _

theorem leaseRenew_ok {s : _} {holder : _} (h_s : Ok p g (view (s))) :
    Ok p g (view (Machine.leaseRenew s holder)) := by
  have aux : ∀ t n, Ok p g (view t) → Ok p g (view { t with host := { t.host with leaseEnds := n } }) := fun t n e =>
    ok_upd e rfl rfl rfl rfl rfl rfl rfl rfl rfl
  have aux2 : ∀ t, Ok p g (view t) → Ok p g (view (if t.host.leaseHeld = true ∧ t.host.holder = holder then
      { t with host := { t.host with leaseEnds := leaseEnd t } } else lateLease t)) := fun t e =>
    ok_ite (fun _ => aux t _ e) fun _ => lateLease_ok e
  exact aux2 _ (leaseDue_ok h_s)

theorem endOrphan_ok {s : _} (h_s : Ok p g (view (s))) :
    Ok p g (view (Machine.endOrphan s)) := by
  unfold Machine.endOrphan
  repeat' first
    | with_reducible assumption
    | with_reducible apply ok_foldl
    | with_reducible apply ok_foldl_fst
    | with_reducible apply ok_ite
    | with_reducible apply ok_ite_fst
    | with_reducible apply ok_ite_snd
    | intro _
    | split
    | (with_reducible refine ok_of_pair (by assumption) ?_)
    | (with_reducible refine ok_of_pair2 (by assumption) ?_)
    | (with_reducible refine ok_of_hres (by assumption) ?_)
    | (with_reducible refine ok_of_opt2 (by assumption) ?_)
    | (with_reducible refine ok_of_some (by assumption) ?_)
    | with_reducible refine ok_findSome _ ?_
    | (simp only [view_mk, view_eta])

theorem leaseTake_ok {s : _} {holder : _} (h_s : Ok p g (view (s))) :
    Ok p g (view (Machine.leaseTake s holder)) := by
  unfold Machine.leaseTake
  repeat' first
    | with_reducible assumption
    | with_reducible refine leaseDue_ok ?_
    | with_reducible refine lateLease_ok ?_
    | with_reducible refine endOrphan_ok ?_
    | with_reducible apply ok_foldl
    | with_reducible apply ok_foldl_fst
    | with_reducible apply ok_ite
    | with_reducible apply ok_ite_fst
    | with_reducible apply ok_ite_snd
    | intro _
    | split
    | (with_reducible refine ok_of_pair (by assumption) ?_)
    | (with_reducible refine ok_of_pair2 (by assumption) ?_)
    | (with_reducible refine ok_of_hres (by assumption) ?_)
    | (with_reducible refine ok_of_opt2 (by assumption) ?_)
    | (with_reducible refine ok_of_some (by assumption) ?_)
    | with_reducible refine ok_findSome _ ?_
    | (simp only [view_mk, view_eta])

theorem execLeaseExpired_ok {s : _} (h_s : Ok p g (view (s))) :
    ∀ u, Machine.execLeaseExpired s = .next u → Ok p g (view u) := by
  intro u e
  unfold Machine.execLeaseExpired at e
  first | (have e := Host.Outcome.next.inj e; subst e) | skip
  repeat' first
    | with_reducible assumption
    | with_reducible refine leaseDue_ok ?_

theorem execLeaseRenew_ok {holder : _} {s : _} (h_s : Ok p g (view (s))) :
    ∀ u, Machine.execLeaseRenew holder s = .next u → Ok p g (view u) := by
  intro u e
  unfold Machine.execLeaseRenew at e
  first | (have e := Host.Outcome.next.inj e; subst e) | skip
  repeat' first
    | with_reducible assumption
    | with_reducible refine overLink_ok ?_ ?_
    | with_reducible refine leaseRenew_ok ?_
    | with_reducible apply ok_foldl
    | with_reducible apply ok_foldl_fst
    | with_reducible apply ok_ite
    | with_reducible apply ok_ite_fst
    | with_reducible apply ok_ite_snd
    | intro _

theorem execLeaseTake_ok {holder : _} {s : _} (h_s : Ok p g (view (s))) :
    ∀ u, Machine.execLeaseTake holder s = .next u → Ok p g (view u) := by
  intro u e
  unfold Machine.execLeaseTake at e
  first | (have e := Host.Outcome.next.inj e; subst e) | skip
  repeat' first
    | with_reducible assumption
    | with_reducible refine overLink_ok ?_ ?_
    | with_reducible refine leaseTake_ok ?_
    | with_reducible apply ok_foldl
    | with_reducible apply ok_foldl_fst
    | with_reducible apply ok_ite
    | with_reducible apply ok_ite_fst
    | with_reducible apply ok_ite_snd
    | intro _

end Sys2Proof.Laws
end

