-- ==== Sys2Proof/Laws/KeepHostlink.lean ====
section
/-!
SUPPORT. What the operations of Machine/Hostlink.lean keep of the view of Laws/Good.lean.
-/
namespace Sys2Proof.Laws

open Sys2Proof.Machine

variable {p : List Instr} {g : Grade × W64}

theorem protocol_ok {s : _} {kind : _} {aer : _} {hdr : _} (h_s : Ok p g (view (s))) :
    Ok p g (view (Machine.protocol s kind aer hdr)) := by
  unfold Machine.protocol
  repeat' first
    | with_reducible assumption
    | with_reducible refine record_ok ?_
    | with_reducible apply ok_foldl
    | with_reducible apply ok_foldl_fst
    | with_reducible apply ok_ite
    | with_reducible apply ok_ite_fst
    | with_reducible apply ok_ite_snd
    | intro _
    | split
    | (with_reducible refine ok_of_pair (by assumption) ?_)
    | (with_reducible refine ok_of_pair2 (by assumption) ?_)
    | (with_reducible refine ok_of_hres (by assumption) ?_)
    | (with_reducible refine ok_of_opt2 (by assumption) ?_)
    | (with_reducible refine ok_of_some (by assumption) ?_)
    | with_reducible refine ok_findSome _ ?_
    | (simp only [view_mk, view_eta])

theorem cxlWrite_ok {s : _} {hpa : _} {data : _} {poison : _} (h_s : Ok p g (view (s))) :
    Ok p g (view (Machine.cxlWrite s hpa data poison)) := by
  unfold Machine.cxlWrite
  repeat' first
    | with_reducible assumption
    | with_reducible refine protocol_ok ?_
    | with_reducible refine touch_ok ?_
    | with_reducible refine wrN_ok ?_
    | with_reducible apply ok_foldl
    | with_reducible apply ok_foldl_fst
    | with_reducible apply ok_ite
    | with_reducible apply ok_ite_fst
    | with_reducible apply ok_ite_snd
    | intro _
    | split
    | (with_reducible refine ok_of_pair (by assumption) ?_)

theorem unsupported_ok {s : _} {isRead : _} (h_s : Ok p g (view (s))) :
    Ok p g (view (Machine.unsupported s isRead)) := by
  unfold Machine.unsupported
  repeat' first
    | with_reducible assumption
    | with_reducible apply ok_foldl
    | with_reducible apply ok_foldl_fst
    | with_reducible apply ok_ite
    | with_reducible apply ok_ite_fst
    | with_reducible apply ok_ite_snd
    | intro _
    | split
    | (with_reducible refine ok_of_pair (by assumption) ?_)
    | (with_reducible refine ok_of_pair2 (by assumption) ?_)
    | (with_reducible refine ok_of_hres (by assumption) ?_)
    | (with_reducible refine ok_of_opt2 (by assumption) ?_)
    | (with_reducible refine ok_of_some (by assumption) ?_)
    | with_reducible refine ok_findSome _ ?_
    | (simp only [view_mk, view_eta])

theorem hostAnswer_ok {s : _} {bs : _} {poison : _} (h_s : Ok p g (view (s))) :
    Ok p g (view (Machine.hostAnswer s bs poison)) := by
  unfold Machine.hostAnswer
  repeat' first
    | with_reducible assumption
    | with_reducible apply ok_foldl
    | with_reducible apply ok_foldl_fst
    | with_reducible apply ok_ite
    | with_reducible apply ok_ite_fst
    | with_reducible apply ok_ite_snd
    | intro _
    | split
    | (with_reducible refine ok_of_pair (by assumption) ?_)
    | (with_reducible refine ok_of_pair2 (by assumption) ?_)
    | (with_reducible refine ok_of_hres (by assumption) ?_)
    | (with_reducible refine ok_of_opt2 (by assumption) ?_)
    | (with_reducible refine ok_of_some (by assumption) ?_)
    | with_reducible refine ok_findSome _ ?_
    | (simp only [view_mk, view_eta])

theorem violation_ok {s : _} {k : _} {hdr : _} (h_s : Ok p g (view (s))) :
    Ok p g (view (Machine.violation s k hdr)) := by
  unfold Machine.violation
  repeat' first
    | with_reducible assumption
    | with_reducible refine protocol_ok ?_
    | with_reducible refine unsupported_ok ?_
    | with_reducible refine hostAnswer_ok ?_
    | with_reducible refine answer_ok ?_
    | with_reducible apply ok_foldl
    | with_reducible apply ok_foldl_fst
    | with_reducible apply ok_ite
    | with_reducible apply ok_ite_fst
    | with_reducible apply ok_ite_snd
    | intro _
    | split

theorem execCxlProtocol_ok {k : _} {header : _} {s : _} (h_s : Ok p g (view (s))) :
    ∀ u, Machine.execCxlProtocol k header s = .next u → Ok p g (view u) := by
  intro u e
  unfold Machine.execCxlProtocol at e
  first | (have e := Host.Outcome.next.inj e; subst e) | skip
  repeat' first
    | with_reducible assumption
    | with_reducible refine overLink_ok ?_ ?_
    | with_reducible refine violation_ok ?_
    | with_reducible apply ok_foldl
    | with_reducible apply ok_foldl_fst
    | with_reducible apply ok_ite
    | with_reducible apply ok_ite_fst
    | with_reducible apply ok_ite_snd
    | intro _

theorem ringCons_ok {s : _} {ring : _} {v : _} (h_s : Ok p g (view (s))) :
    Ok p g (view (Machine.ringCons s ring v)) := by
  unfold Machine.ringCons
  repeat' first
    | with_reducible assumption
    | with_reducible apply ok_foldl
    | with_reducible apply ok_foldl_fst
    | with_reducible apply ok_ite
    | with_reducible apply ok_ite_fst
    | with_reducible apply ok_ite_snd
    | intro _
    | split
    | (with_reducible refine ok_of_pair (by assumption) ?_)
    | (with_reducible refine ok_of_pair2 (by assumption) ?_)
    | (with_reducible refine ok_of_hres (by assumption) ?_)
    | (with_reducible refine ok_of_opt2 (by assumption) ?_)
    | (with_reducible refine ok_of_some (by assumption) ?_)
    | with_reducible refine ok_findSome _ ?_
    | (simp only [view_mk, view_eta])

theorem linkUp_ok {s : _} (h_s : Ok p g (view (s))) :
    Ok p g (view (Machine.linkUp s)) := by
  unfold Machine.linkUp
  repeat' first
    | with_reducible assumption
    | with_reducible refine drew_ok ?_
    | with_reducible apply ok_foldl
    | with_reducible apply ok_foldl_fst
    | with_reducible apply ok_ite
    | with_reducible apply ok_ite_fst
    | with_reducible apply ok_ite_snd
    | intro _
    | split
    | (with_reducible refine ok_of_pair (by assumption) ?_)
    | (with_reducible refine ok_of_pair2 (by assumption) ?_)
    | (with_reducible refine ok_of_hres (by assumption) ?_)
    | (with_reducible refine ok_of_opt2 (by assumption) ?_)
    | (with_reducible refine ok_of_some (by assumption) ?_)
    | with_reducible refine ok_findSome _ ?_
    | (simp only [view_mk, view_eta])

theorem execHostLinkUp_ok {s : _} (h_s : Ok p g (view (s))) :
    ∀ u, Machine.execHostLinkUp s = .next u → Ok p g (view u) := by
  intro u e
  unfold Machine.execHostLinkUp at e
  first | (have e := Host.Outcome.next.inj e; subst e) | skip
  repeat' first
    | with_reducible assumption
    | with_reducible refine linkUp_ok ?_
    | with_reducible apply ok_foldl
    | with_reducible apply ok_foldl_fst
    | with_reducible apply ok_ite
    | with_reducible apply ok_ite_fst
    | with_reducible apply ok_ite_snd
    | intro _

theorem execRingCons_ok {ring : _} {v : _} {s : _} (h_s : Ok p g (view (s))) :
    ∀ u, Machine.execRingCons ring v s = .next u → Ok p g (view u) := by
  intro u e
  unfold Machine.execRingCons at e
  first | (have e := Host.Outcome.next.inj e; subst e) | skip
  repeat' first
    | with_reducible assumption
    | with_reducible refine overLink_ok ?_ ?_
    | with_reducible refine ringCons_ok ?_
    | with_reducible apply ok_foldl
    | with_reducible apply ok_foldl_fst
    | with_reducible apply ok_ite
    | with_reducible apply ok_ite_fst
    | with_reducible apply ok_ite_snd
    | intro _

theorem execCxlMemWrite_ok {addr : _} {data : _} {poison : _} {s : _} (h_s : Ok p g (view (s))) :
    ∀ u, Machine.execCxlMemWrite addr data poison s = .next u → Ok p g (view u) := by
  intro u e
  unfold Machine.execCxlMemWrite at e
  first | (have e := Host.Outcome.next.inj e; subst e) | skip
  repeat' first
    | with_reducible assumption
    | with_reducible refine overLink_ok ?_ ?_
    | with_reducible refine cxlWrite_ok ?_
    | with_reducible apply ok_foldl
    | with_reducible apply ok_foldl_fst
    | with_reducible apply ok_ite
    | with_reducible apply ok_ite_fst
    | with_reducible apply ok_ite_snd
    | intro _

theorem ringPut_ok {s : _} {ring : _} {r : _} {size : _} {bs : _} (h_s : Ok p g (view (s))) :
    Ok p g (view (Machine.ringPut s ring r size bs).1) := by
  unfold Machine.ringPut
  repeat' first
    | with_reducible assumption
    | with_reducible refine wrHostN_ok ?_

theorem ringWrite_ok {s : _} {ring : _} (h_s : Ok p g (view (s))) :
    Ok p g (view (Machine.ringWrite s ring)) := by
  have hm : ∀ l : List (ErrRec × Bool), (markSent l).length = l.length := by
    intro l
    induction l with
    | nil => rfl
    | cons a l ih =>
      obtain ⟨r, b⟩ := a
      cases b
      · rfl
      · simp [markSent, ih]
  have h0 : ∀ t c rest, Ok p g (view t) →
      Ok p g (view (raise { t with host := { t.host with cring := c, cbuf := rest, cbufStall := false } } 0)) :=
    fun t c rest h => raise_ok (ok_upd h rfl rfl rfl rfl rfl rfl rfl rfl rfl)
  have h1 : ∀ t c, Ok p g (view t) → Ok p g (view (raise
      { t with host := { t.host with ering := c }, err := { t.err with log := markSent t.err.log } } 1)) := by
    intro t c h
    refine raise_ok ⟨h.pending, h.grade, h.serial, h.mem, h.hostMem, ?_, h.logq, h.em, h.sess, h.ctl⟩
    simpa only [view, hm] using h.log
  have h2 : ∀ t c rest, List.length rest ≤ 4096 → Ok p g (view t) →
      Ok p g (view (raise { t with host := { t.host with lring := c, logq := rest } } 2)) := fun t c rest hl h =>
    raise_ok ⟨h.pending, h.grade, h.serial, h.mem, h.hostMem, h.log, hl, h.em, h.sess, h.ctl⟩
  unfold ringWrite
  split
  · refine ok_ite (fun _ => ?_) fun _ => h_s
    split
    · exact h_s
    · dsimp only [ringPut]
      exact h0 _ _ _ (wrHostN_ok h_s)
  · refine ok_ite (fun _ => ?_) fun _ => h_s
    split
    · exact h_s
    · dsimp only [ringPut]
      exact h1 _ _ (wrHostN_ok h_s)
  · refine ok_ite (fun _ => ?_) fun _ => h_s
    split
    · exact h_s
    · next l rest hq =>
      have hl : rest.length ≤ 4096 := by
        have := h_s.logq
        simp only [view, hq, List.length_cons] at this
        omega
      dsimp only [ringPut]
      exact h2 _ _ _ hl (wrHostN_ok h_s)
  · exact h_s

theorem emWrite_ok {s : _} {i : _} {v : _} {mask : _} (h_s : Ok p g (view (s))) :
    Ok p g (view (Machine.emWrite s i v mask)) := by
  unfold emWrite
  refine ok_ite (fun _ => h_s) fun _ => ok_ite (fun _ => ok_upd h_s rfl rfl rfl rfl rfl rfl rfl rfl rfl) fun hn => ?_
  refine ⟨h_s.pending, h_s.grade, h_s.serial, h_s.mem, h_s.hostMem, h_s.log, h_s.logq, ?_, h_s.sess, h_s.ctl⟩
  simp only [view, List.length_append, List.length_singleton]
  omega

theorem execEmWrite_ok {index : _} {v : _} {s : _} (h_s : Ok p g (view (s))) :
    ∀ u, Machine.execEmWrite index v s = .next u → Ok p g (view u) := by
  intro u e
  unfold Machine.execEmWrite at e
  first | (have e := Host.Outcome.next.inj e; subst e) | skip
  repeat' first
    | with_reducible assumption
    | with_reducible refine overLink_ok ?_ ?_
    | with_reducible refine emWrite_ok ?_
    | with_reducible apply ok_foldl
    | with_reducible apply ok_foldl_fst
    | with_reducible apply ok_ite
    | with_reducible apply ok_ite_fst
    | with_reducible apply ok_ite_snd
    | intro _

theorem poisoned_ok {s : _} {npa : _} (h_s : Ok p g (view (s))) :
    Ok p g (view (Machine.poisoned s npa)) := by
  unfold Machine.poisoned
  repeat' first
    | with_reducible assumption
    | with_reducible refine record_ok ?_
    | with_reducible refine hostAnswer_ok ?_

theorem execRingRecordWrite_ok {ring : _} {s : _} (h_s : Ok p g (view (s))) :
    ∀ u, Machine.execRingRecordWrite ring s = .next u → Ok p g (view u) := by
  intro u e
  unfold Machine.execRingRecordWrite at e
  first | (have e := Host.Outcome.next.inj e; subst e) | skip
  repeat' first
    | with_reducible assumption
    | with_reducible refine ringWrite_ok ?_

theorem intCause_ok {s : _} {v : _} (h_s : Ok p g (view (s))) :
    Ok p g (view (Machine.intCause s v)) := by
  unfold Machine.intCause
  repeat' first
    | with_reducible assumption
    | with_reducible apply ok_foldl
    | with_reducible apply ok_foldl_fst
    | with_reducible apply ok_ite
    | with_reducible apply ok_ite_fst
    | with_reducible apply ok_ite_snd
    | intro _
    | split
    | (with_reducible refine ok_of_pair (by assumption) ?_)
    | (with_reducible refine ok_of_pair2 (by assumption) ?_)
    | (with_reducible refine ok_of_hres (by assumption) ?_)
    | (with_reducible refine ok_of_opt2 (by assumption) ?_)
    | (with_reducible refine ok_of_some (by assumption) ?_)
    | with_reducible refine ok_findSome _ ?_
    | (simp only [view_mk, view_eta])

theorem execHrwIntCause_ok {v : _} {s : _} (h_s : Ok p g (view (s))) :
    ∀ u, Machine.execHrwIntCause v s = .next u → Ok p g (view u) := by
  intro u e
  unfold Machine.execHrwIntCause at e
  first | (have e := Host.Outcome.next.inj e; subst e) | skip
  repeat' first
    | with_reducible assumption
    | with_reducible refine overLink_ok ?_ ?_
    | with_reducible refine intCause_ok ?_
    | with_reducible apply ok_foldl
    | with_reducible apply ok_foldl_fst
    | with_reducible apply ok_ite
    | with_reducible apply ok_ite_fst
    | with_reducible apply ok_ite_snd
    | intro _

theorem emApply_ok {s : _} (h_s : Ok p g (view (s))) :
    Ok p g (view (Machine.emApply s)) := by
  unfold emApply
  refine ok_ite (fun _ => h_s) fun _ => ?_
  split
  · exact h_s
  · next i v m rest e =>
    have hl : rest.length ≤ 64 := by
      have := h_s.em
      simp only [view, e, List.length_cons] at this
      omega
    split <;> exact ⟨h_s.pending, h_s.grade, h_s.serial, h_s.mem, h_s.hostMem, h_s.log, h_s.logq, hl, h_s.sess, h_s.ctl⟩

theorem execEmWriteApplied_ok {s : _} (h_s : Ok p g (view (s))) :
    ∀ u, Machine.execEmWriteApplied s = .next u → Ok p g (view u) := by
  intro u e
  unfold Machine.execEmWriteApplied at e
  first | (have e := Host.Outcome.next.inj e; subst e) | skip
  repeat' first
    | with_reducible assumption
    | with_reducible refine emApply_ok ?_

theorem cxlRead_ok {s : _} {hpa : _} (h_s : Ok p g (view (s))) :
    Ok p g (view (Machine.cxlRead s hpa)) := by
  unfold Machine.cxlRead
  repeat' first
    | with_reducible assumption
    | with_reducible refine protocol_ok ?_
    | with_reducible refine hostAnswer_ok ?_
    | with_reducible refine poisoned_ok ?_
    | with_reducible refine touch_ok ?_
    | with_reducible apply ok_foldl
    | with_reducible apply ok_foldl_fst
    | with_reducible apply ok_ite
    | with_reducible apply ok_ite_fst
    | with_reducible apply ok_ite_snd
    | intro _
    | split
    | (with_reducible refine ok_of_pair (by assumption) ?_)
    | (with_reducible refine ok_of_pair2 (by assumption) ?_)
    | (with_reducible refine ok_of_hres (by assumption) ?_)
    | (with_reducible refine ok_of_opt2 (by assumption) ?_)
    | (with_reducible refine ok_of_some (by assumption) ?_)
    | with_reducible refine ok_findSome _ ?_
    | (simp only [view_mk, view_eta])

theorem execCxlMemRead_ok {addr : _} {s : _} (h_s : Ok p g (view (s))) :
    ∀ u, Machine.execCxlMemRead addr s = .next u → Ok p g (view u) := by
  intro u e
  unfold Machine.execCxlMemRead at e
  first | (have e := Host.Outcome.next.inj e; subst e) | skip
  repeat' first
    | with_reducible assumption
    | with_reducible refine overLink_ok ?_ ?_
    | with_reducible refine cxlRead_ok ?_
    | with_reducible apply ok_foldl
    | with_reducible apply ok_foldl_fst
    | with_reducible apply ok_ite
    | with_reducible apply ok_ite_fst
    | with_reducible apply ok_ite_snd
    | intro _

theorem intMask_ok {s : _} {v : _} (h_s : Ok p g (view (s))) :
    Ok p g (view (Machine.intMask s v)) := by
  unfold Machine.intMask
  repeat' first
    | with_reducible assumption
    | with_reducible apply ok_foldl
    | with_reducible apply ok_foldl_fst
    | with_reducible apply ok_ite
    | with_reducible apply ok_ite_fst
    | with_reducible apply ok_ite_snd
    | intro _
    | split
    | (with_reducible refine ok_of_pair (by assumption) ?_)
    | (with_reducible refine ok_of_pair2 (by assumption) ?_)
    | (with_reducible refine ok_of_hres (by assumption) ?_)
    | (with_reducible refine ok_of_opt2 (by assumption) ?_)
    | (with_reducible refine ok_of_some (by assumption) ?_)
    | with_reducible refine ok_findSome _ ?_
    | (simp only [view_mk, view_eta])

theorem execCxlCacheSnoop_ok {line : _} {inv : _} {s : _} (h_s : Ok p g (view (s))) :
    ∀ u, Machine.execCxlCacheSnoop line inv s = .next u → Ok p g (view u) := by
  intro u e
  unfold Machine.execCxlCacheSnoop at e
  first | (have e := Host.Outcome.next.inj e; subst e) | skip
  repeat' first
    | with_reducible assumption
    | with_reducible refine overLink_ok ?_ ?_
    | with_reducible apply ok_foldl
    | with_reducible apply ok_foldl_fst
    | with_reducible apply ok_ite
    | with_reducible apply ok_ite_fst
    | with_reducible apply ok_ite_snd
    | intro _
    | split
    | (with_reducible refine ok_of_pair (by assumption) ?_)
    | (with_reducible refine ok_of_pair2 (by assumption) ?_)
    | (with_reducible refine ok_of_hres (by assumption) ?_)
    | (with_reducible refine ok_of_opt2 (by assumption) ?_)
    | (with_reducible refine ok_of_some (by assumption) ?_)
    | with_reducible refine ok_findSome _ ?_
    | (simp only [view_mk, view_eta])

theorem execConfigRead_ok {offset : _} {s : _} (h_s : Ok p g (view (s))) :
    ∀ u, Machine.execConfigRead offset s = .next u → Ok p g (view u) := by
  intro u e
  unfold Machine.execConfigRead at e
  first | (have e := Host.Outcome.next.inj e; subst e) | skip
  repeat' first
    | with_reducible assumption
    | with_reducible refine hostAnswer_ok ?_
    | with_reducible apply ok_foldl
    | with_reducible apply ok_foldl_fst
    | with_reducible apply ok_ite
    | with_reducible apply ok_ite_fst
    | with_reducible apply ok_ite_snd
    | intro _
    | split
    | (with_reducible refine ok_of_pair (by assumption) ?_)
    | (with_reducible refine ok_of_pair2 (by assumption) ?_)
    | (with_reducible refine ok_of_hres (by assumption) ?_)
    | (with_reducible refine ok_of_opt2 (by assumption) ?_)
    | (with_reducible refine ok_of_some (by assumption) ?_)
    | with_reducible refine ok_findSome _ ?_
    | (simp only [view_mk, view_eta])

theorem execHrwIntMask_ok {v : _} {s : _} (h_s : Ok p g (view (s))) :
    ∀ u, Machine.execHrwIntMask v s = .next u → Ok p g (view u) := by
  intro u e
  unfold Machine.execHrwIntMask at e
  first | (have e := Host.Outcome.next.inj e; subst e) | skip
  repeat' first
    | with_reducible assumption
    | with_reducible refine overLink_ok ?_ ?_
    | with_reducible refine intMask_ok ?_
    | with_reducible apply ok_foldl
    | with_reducible apply ok_foldl_fst
    | with_reducible apply ok_ite
    | with_reducible apply ok_ite_fst
    | with_reducible apply ok_ite_snd
    | intro _

theorem resetPd15_ok {s : _} (h_s : Ok p g (view (s))) :
    Ok p g (view (Machine.resetPd15 s)) := by
  have h1 : ∀ b, Ok p g (view { s with
      host := { s.host with
        emOverflow := false, cause := 0, mask := 0xFF, msixPend := 0, emQueue := [], trace := [], cring := {}, ering := {}
        lring := {}, holder := 0, leaseHeld := false, orphan := b, late := false, linkUp := false, hdmBase := 0
        hdmSize := 0, cache := [] }
      sec := { s.sec with ide := [] } }) := fun b =>
    ⟨h_s.pending, h_s.grade, h_s.serial, h_s.mem, h_s.hostMem, h_s.log, h_s.logq, Nat.zero_le _, h_s.sess, h_s.ctl⟩
  unfold resetPd15
  exact ok_ite (fun _ => enterOrphan_ok (h1 false)) fun _ => h1 _

theorem execHotReset_ok {s : _} (h_s : Ok p g (view (s))) :
    ∀ u, Machine.execHotReset s = .next u → Ok p g (view u) := by
  intro u e
  unfold Machine.execHotReset at e
  first | (have e := Host.Outcome.next.inj e; subst e) | skip
  repeat' first
    | with_reducible assumption
    | with_reducible refine resetPd15_ok ?_
    | with_reducible apply ok_foldl
    | with_reducible apply ok_foldl_fst
    | with_reducible apply ok_ite
    | with_reducible apply ok_ite_fst
    | with_reducible apply ok_ite_snd
    | intro _

end Sys2Proof.Laws
end

