-- ==== Sys2Proof/Laws/KeepFinuth.lean ====
section
/-!
SUPPORT. What the operations of Machine/Finuth.lean keep of the view of Laws/Good.lean.
-/
namespace Sys2Proof.Laws

open Sys2Proof.Machine

variable {p : List Instr} {g : Grade × W64}

theorem applyInits_ok {s : _} {bufs : _} {l : _} (h_s : Ok p g (view (s))) :
    Ok p g (view (Machine.applyInits s bufs l)) := by
  unfold Machine.applyInits
  repeat' first
    | with_reducible assumption
    | with_reducible refine wrN_ok ?_
    | with_reducible apply ok_foldl
    | with_reducible apply ok_foldl_fst
    | with_reducible apply ok_ite
    | with_reducible apply ok_ite_fst
    | with_reducible apply ok_ite_snd
    | intro _
    | split

end Sys2Proof.Laws
end

