-- ==== Sys2Proof/Laws/KeepLoad.lean ====
section
/-!
SUPPORT. What the operations of Machine/Load.lean keep of the view of Laws/Good.lean.
-/
namespace Sys2Proof.Laws

open Sys2Proof.Machine

variable {p : List Instr} {g : Grade × W64}

theorem loadPlan_ok {s : _} {img : _} (h_s : Ok p g (view (s))) :
    Ok p g (view (Machine.loadPlan s img)) := by
  unfold Machine.loadPlan
  repeat' first
    | with_reducible assumption
    | with_reducible refine putPlan_ok ?_
    | with_reducible apply ok_foldl
    | with_reducible apply ok_foldl_fst
    | with_reducible apply ok_ite
    | with_reducible apply ok_ite_fst
    | with_reducible apply ok_ite_snd
    | intro _
    | split

theorem execVerifyReport_ok {buf : _} {s : _} (h_s : Ok p g (view (s))) :
    ∀ u, Machine.execVerifyReport buf s = .next u → Ok p g (view u) := by
  intro u e
  unfold Machine.execVerifyReport at e
  first | (have e := Host.Outcome.next.inj e; subst e) | skip
  repeat' first
    | with_reducible assumption
    | with_reducible refine mbx_ok ?_ ?_
    | with_reducible refine withBuf_ok ?_ ?_
    | with_reducible refine done_ok ?_
    | with_reducible refine wrHostN_ok ?_
    | with_reducible apply ok_foldl
    | with_reducible apply ok_foldl_fst
    | with_reducible apply ok_ite
    | with_reducible apply ok_ite_fst
    | with_reducible apply ok_ite_snd
    | intro _

theorem layStreams_ok {s : _} {l : _} {gen : _} (h_s : Ok p g (view (s))) :
    Ok p g (view (Machine.layStreams s l gen)) := by
  unfold Machine.layStreams
  repeat' first
    | with_reducible assumption
    | with_reducible refine State_updQ_ok ?_
    | with_reducible apply ok_foldl
    | with_reducible apply ok_foldl_fst
    | with_reducible apply ok_ite
    | with_reducible apply ok_ite_fst
    | with_reducible apply ok_ite_snd
    | intro _

theorem acceptImage_ok {s : _} {bs : _} (h_s : Ok p g (view (s))) :
    Ok p g (view (Machine.acceptImage s bs)) := by
  unfold Machine.acceptImage
  repeat' first
    | with_reducible assumption
    | with_reducible refine applyInits_ok ?_
    | with_reducible refine layStreams_ok ?_
    | with_reducible refine loadPlan_ok ?_
    | with_reducible apply ok_foldl
    | with_reducible apply ok_foldl_fst
    | with_reducible apply ok_ite
    | with_reducible apply ok_ite_fst
    | with_reducible apply ok_ite_snd
    | intro _
    | split
    | (with_reducible refine ok_of_pair (by assumption) ?_)
    | (with_reducible refine ok_of_pair2 (by assumption) ?_)
    | (with_reducible refine ok_of_hres (by assumption) ?_)
    | (with_reducible refine ok_of_opt2 (by assumption) ?_)
    | (with_reducible refine ok_of_some (by assumption) ?_)
    | with_reducible refine ok_findSome _ ?_
    | (simp only [view_mk, view_eta])

theorem loadImage_ok {s : _} {bs : _} (h_s : Ok p g (view (s))) :
    Ok p g (view (Machine.loadImage s bs).1) := by
  unfold Machine.loadImage
  repeat' first
    | with_reducible assumption
    | with_reducible refine substitute_ok ?_
    | with_reducible refine acceptImage_ok ?_
    | with_reducible apply ok_foldl
    | with_reducible apply ok_foldl_fst
    | with_reducible apply ok_ite
    | with_reducible apply ok_ite_fst
    | with_reducible apply ok_ite_snd
    | intro _
    | split
    | (with_reducible refine ok_of_pair (by assumption) ?_)
    | (with_reducible refine ok_of_pair2 (by assumption) ?_)
    | (with_reducible refine ok_of_hres (by assumption) ?_)
    | (with_reducible refine ok_of_opt2 (by assumption) ?_)
    | (with_reducible refine ok_of_some (by assumption) ?_)
    | with_reducible refine ok_findSome _ ?_
    | (simp only [view_mk, view_eta])

theorem unloadImage_ok {s : _} (h_s : Ok p g (view (s))) :
    Ok p g (view (Machine.unloadImage s)) := by
  unfold Machine.unloadImage
  repeat' first
    | with_reducible assumption
    | with_reducible refine State_updQ_ok ?_
    | with_reducible apply ok_foldl
    | with_reducible apply ok_foldl_fst
    | with_reducible apply ok_ite
    | with_reducible apply ok_ite_fst
    | with_reducible apply ok_ite_snd
    | intro _
    | split
    | (with_reducible refine ok_of_pair (by assumption) ?_)
    | (with_reducible refine ok_of_pair2 (by assumption) ?_)
    | (with_reducible refine ok_of_hres (by assumption) ?_)
    | (with_reducible refine ok_of_opt2 (by assumption) ?_)
    | (with_reducible refine ok_of_some (by assumption) ?_)
    | with_reducible refine ok_findSome _ ?_
    | (simp only [view_mk, view_eta])

theorem execHostVerdict_ok {digest : _} {accept : _} {s : _} (h_s : Ok p g (view (s))) :
    ∀ u, Machine.execHostVerdict digest accept s = .next u → Ok p g (view u) := by
  intro u e
  unfold Machine.execHostVerdict at e
  first | (have e := Host.Outcome.next.inj e; subst e) | skip
  repeat' first
    | with_reducible assumption
    | with_reducible refine mbx_ok ?_ ?_
    | with_reducible refine invalid_ok ?_
    | with_reducible refine done_ok ?_
    | with_reducible refine unloadImage_ok ?_
    | with_reducible apply ok_foldl
    | with_reducible apply ok_foldl_fst
    | with_reducible apply ok_ite
    | with_reducible apply ok_ite_fst
    | with_reducible apply ok_ite_snd
    | intro _
    | split
    | (with_reducible refine ok_of_pair (by assumption) ?_)
    | (with_reducible refine ok_of_pair2 (by assumption) ?_)
    | (with_reducible refine ok_of_hres (by assumption) ?_)
    | (with_reducible refine ok_of_opt2 (by assumption) ?_)
    | (with_reducible refine ok_of_some (by assumption) ?_)
    | with_reducible refine ok_findSome _ ?_
    | (simp only [view_mk, view_eta])

theorem execImageUnload_ok {s : _} (h_s : Ok p g (view (s))) :
    ∀ u, Machine.execImageUnload s = .next u → Ok p g (view u) := by
  intro u e
  unfold Machine.execImageUnload at e
  first | (have e := Host.Outcome.next.inj e; subst e) | skip
  repeat' first
    | with_reducible assumption
    | with_reducible refine mbx_ok ?_ ?_
    | with_reducible refine done_ok ?_
    | with_reducible refine unloadImage_ok ?_
    | with_reducible apply ok_foldl
    | with_reducible apply ok_foldl_fst
    | with_reducible apply ok_ite
    | with_reducible apply ok_ite_fst
    | with_reducible apply ok_ite_snd
    | intro _

theorem execImageLoad_ok {buf : _} {s : _} (h_s : Ok p g (view (s))) :
    ∀ u, Machine.execImageLoad buf s = .next u → Ok p g (view u) := by
  intro u e
  unfold Machine.execImageLoad at e
  first | (have e := Host.Outcome.next.inj e; subst e) | skip
  repeat' first
    | with_reducible assumption
    | with_reducible refine mbx_ok ?_ ?_
    | with_reducible refine withBuf_ok ?_ ?_
    | with_reducible refine background_ok ?_
    | with_reducible refine loadImage_ok ?_
    | with_reducible apply ok_foldl
    | with_reducible apply ok_foldl_fst
    | with_reducible apply ok_ite
    | with_reducible apply ok_ite_fst
    | with_reducible apply ok_ite_snd
    | intro _

end Sys2Proof.Laws
end

