-- ==== Sys2Proof/Laws/KeepQueue.lean ====
section
/-!
SUPPORT. What the operations of Machine/Queue.lean keep of the view of Laws/Good.lean.
-/
namespace Sys2Proof.Laws

open Sys2Proof.Machine

variable {p : List Instr} {g : Grade × W64}

theorem pushNext_ok {s : _} {b : _} {q : _} {f : _} (h_s : Ok p g (view (s))) :
    Ok p g (view (Machine.pushNext s b q f)) := by
  unfold Machine.pushNext
  repeat' first
    | with_reducible assumption
    | with_reducible refine State_updQ_ok ?_

theorem endNext_ok {s : _} {b : _} {q : _} {c : _} {st : _} {code : _} {npa : _} (h_s : Ok p g (view (s))) :
    Ok p g (view (Machine.endNext s b q c st code npa)) := by
  unfold Machine.endNext
  repeat' first
    | with_reducible assumption
    | with_reducible refine pushNext_ok ?_

theorem consumed_ok {s : _} {b : _} {q : _} {c : _} (h_s : Ok p g (view (s))) :
    Ok p g (view (Machine.consumed s b q c)) := by
  unfold Machine.consumed
  repeat' first
    | with_reducible assumption
    | with_reducible refine State_updBlk_ok ?_

theorem frontEnd_ok {s : _} {b : _} {q : _} {mine : _} {busy : _} {run : _} (h_s : Ok p g (view (s))) (h_run : ∀ v0 v1, Ok p g (view (v0)) → Ok p g (view (run v0 v1))) :
    Ok p g (view (Machine.frontEnd s b q mine busy run)) := by
  unfold Machine.frontEnd
  repeat' first
    | with_reducible assumption
    | with_reducible refine endNext_ok ?_
    | with_reducible refine consumed_ok ?_
    | with_reducible apply h_run
    | with_reducible apply ok_foldl
    | with_reducible apply ok_foldl_fst
    | with_reducible apply ok_ite
    | with_reducible apply ok_ite_fst
    | with_reducible apply ok_ite_snd
    | intro _
    | split

theorem enterTables_ok {s : _} {b : _} {f : _} (h_s : Ok p g (view (s))) :
    Ok p g (view (Machine.enterTables s b f).1) := by
  unfold Machine.enterTables
  repeat' first
    | with_reducible assumption
    | with_reducible refine collRegister_ok ?_
    | with_reducible refine panAtIssue_ok ?_
    | with_reducible apply ok_foldl
    | with_reducible apply ok_foldl_fst
    | with_reducible apply ok_ite
    | with_reducible apply ok_ite_fst
    | with_reducible apply ok_ite_snd
    | intro _
    | split

theorem ctxTake_ok {s : _} {b : _} {q : _} {c : _} (h_s : Ok p g (view (s))) :
    Ok p g (view (Machine.ctxTake s b q c)) := by
  unfold Machine.ctxTake
  repeat' first
    | with_reducible assumption
    | with_reducible refine State_setCtx_ok ?_
    | with_reducible apply ok_foldl
    | with_reducible apply ok_foldl_fst
    | with_reducible apply ok_ite
    | with_reducible apply ok_ite_fst
    | with_reducible apply ok_ite_snd
    | intro _
    | split

theorem issueCmd_ok {s : _} {b : _} {q : _} {c : _} (h_s : Ok p g (view (s))) :
    Ok p g (view (Machine.issueCmd s b q c)) := by
  unfold Machine.issueCmd
  repeat' first
    | with_reducible assumption
    | with_reducible refine endNext_ok ?_
    | with_reducible refine enterTables_ok ?_
    | with_reducible refine pushNext_ok ?_
    | with_reducible refine ctxTake_ok ?_
    | with_reducible apply ok_foldl
    | with_reducible apply ok_foldl_fst
    | with_reducible apply ok_ite
    | with_reducible apply ok_ite_fst
    | with_reducible apply ok_ite_snd
    | intro _
    | split
    | (with_reducible refine ok_of_pair (by assumption) ?_)
    | (with_reducible refine ok_of_pair2 (by assumption) ?_)
    | (with_reducible refine ok_of_hres (by assumption) ?_)
    | (with_reducible refine ok_of_opt2 (by assumption) ?_)
    | (with_reducible refine ok_of_some (by assumption) ?_)
    | with_reducible refine ok_findSome _ ?_
    | (simp only [view_mk, view_eta])

theorem takeCmd_ok {s : _} {b : _} {q : _} (h_s : Ok p g (view (s))) :
    Ok p g (view (Machine.takeCmd s b q)) := by
  unfold Machine.takeCmd
  repeat' first
    | with_reducible assumption
    | with_reducible refine endNext_ok ?_
    | with_reducible refine frontEnd_ok ?_ ?_
    | with_reducible refine issueCmd_ok ?_
    | with_reducible apply ok_foldl
    | with_reducible apply ok_foldl_fst
    | with_reducible apply ok_ite
    | with_reducible apply ok_ite_fst
    | with_reducible apply ok_ite_snd
    | intro _

theorem execCommandIssue_ok {b : _} {q : _} {s : _} (h_s : Ok p g (view (s))) :
    ∀ u, Machine.execCommandIssue b q s = .next u → Ok p g (view u) := by
  intro u e
  unfold Machine.execCommandIssue at e
  first | (have e := Host.Outcome.next.inj e; subst e) | skip
  repeat' first
    | with_reducible assumption
    | with_reducible refine takeCmd_ok ?_

theorem execNop_ok {b : _} {q : _} {s : _} (h_s : Ok p g (view (s))) :
    ∀ u, Machine.execNop b q s = .next u → Ok p g (view u) := by
  intro u e
  unfold Machine.execNop at e
  first | (have e := Host.Outcome.next.inj e; subst e) | skip
  repeat' first
    | with_reducible assumption
    | with_reducible refine frontEnd_ok ?_ ?_
    | with_reducible refine endNext_ok ?_
    | with_reducible apply ok_foldl
    | with_reducible apply ok_foldl_fst
    | with_reducible apply ok_ite
    | with_reducible apply ok_ite_fst
    | with_reducible apply ok_ite_snd
    | intro _

theorem aopWords_ok {b : _} {u : _} {a2 : _} {a3 : _} {a4 : _} (h_a3 : Ok p g (view (a3))) :
    Ok p g (view (Machine.aopWords b u a2 a3 a4).1) := by
  induction a2 generalizing a3 a4 with
  | nil => exact h_a3
  | cons w ws ih =>
    unfold Machine.aopWords
    repeat' first
      | with_reducible assumption
      | with_reducible apply ih
      | with_reducible refine touch_ok ?_
      | with_reducible apply ok_ite
      | with_reducible apply ok_ite_fst
      | with_reducible apply ok_ite_snd
      | intro _
      | split
      | (with_reducible refine ok_of_pair (by assumption) ?_)
      | (simp only [view_mk, view_eta])
      | dsimp only

theorem runAop_ok {s : _} {b : _} {q : _} {c : _} (h_s : Ok p g (view (s))) :
    Ok p g (view (Machine.runAop s b q c)) := by
  unfold Machine.runAop
  repeat' first
    | with_reducible assumption
    | with_reducible refine aopWords_ok ?_
    | with_reducible refine State_updQ_ok ?_
    | with_reducible refine endNext_ok ?_
    | with_reducible apply ok_foldl
    | with_reducible apply ok_foldl_fst
    | with_reducible apply ok_ite
    | with_reducible apply ok_ite_fst
    | with_reducible apply ok_ite_snd
    | intro _
    | split
    | (with_reducible refine ok_of_pair (by assumption) ?_)

theorem execAop_ok {b : _} {q : _} {s : _} (h_s : Ok p g (view (s))) :
    ∀ u, Machine.execAop b q s = .next u → Ok p g (view u) := by
  intro u e
  unfold Machine.execAop at e
  first | (have e := Host.Outcome.next.inj e; subst e) | skip
  repeat' first
    | with_reducible assumption
    | with_reducible refine frontEnd_ok ?_ ?_
    | with_reducible refine runAop_ok ?_
    | with_reducible apply ok_foldl
    | with_reducible apply ok_foldl_fst
    | with_reducible apply ok_ite
    | with_reducible apply ok_ite_fst
    | with_reducible apply ok_ite_snd
    | intro _

theorem execStepCmd_ok {b : _} {q : _} {s : _} (h_s : Ok p g (view (s))) :
    ∀ u, Machine.execStepCmd b q s = .next u → Ok p g (view u) := by
  intro u e
  unfold Machine.execStepCmd at e
  first | (have e := Host.Outcome.next.inj e; subst e) | skip
  repeat' first
    | with_reducible assumption
    | with_reducible refine frontEnd_ok ?_ ?_
    | with_reducible refine State_updQ_ok ?_
    | with_reducible refine endNext_ok ?_
    | with_reducible apply ok_foldl
    | with_reducible apply ok_foldl_fst
    | with_reducible apply ok_ite
    | with_reducible apply ok_ite_fst
    | with_reducible apply ok_ite_snd
    | intro _

theorem execLda_ok {b : _} {q : _} {s : _} (h_s : Ok p g (view (s))) :
    ∀ u, Machine.execLda b q s = .next u → Ok p g (view u) := by
  intro u e
  unfold Machine.execLda at e
  first | (have e := Host.Outcome.next.inj e; subst e) | skip
  repeat' first
    | with_reducible assumption
    | with_reducible refine frontEnd_ok ?_ ?_
    | with_reducible refine runAop_ok ?_
    | with_reducible apply ok_foldl
    | with_reducible apply ok_foldl_fst
    | with_reducible apply ok_ite
    | with_reducible apply ok_ite_fst
    | with_reducible apply ok_ite_snd
    | intro _

theorem execCommandComplete_ok {b : _} {q : _} {s : _} (h_s : Ok p g (view (s))) :
    ∀ u, Machine.execCommandComplete b q s = .next u → Ok p g (view u) := by
  intro u e
  unfold Machine.execCommandComplete at e
  first | (have e := Host.Outcome.next.inj e; subst e) | skip
  repeat' first
    | with_reducible assumption
    | with_reducible refine completeHead_ok ?_

theorem execEndCmd_ok {b : _} {q : _} {s : _} (h_s : Ok p g (view (s))) :
    ∀ u, Machine.execEndCmd b q s = .next u → Ok p g (view u) := by
  intro u e
  unfold Machine.execEndCmd at e
  first | (have e := Host.Outcome.next.inj e; subst e) | skip
  repeat' first
    | with_reducible assumption
    | with_reducible refine frontEnd_ok ?_ ?_
    | with_reducible refine State_updQ_ok ?_
    | with_reducible apply ok_foldl
    | with_reducible apply ok_foldl_fst
    | with_reducible apply ok_ite
    | with_reducible apply ok_ite_fst
    | with_reducible apply ok_ite_snd
    | intro _

theorem execLoop_ok {b : _} {q : _} {s : _} (h_s : Ok p g (view (s))) :
    ∀ u, Machine.execLoop b q s = .next u → Ok p g (view u) := by
  intro u e
  unfold Machine.execLoop at e
  first | (have e := Host.Outcome.next.inj e; subst e) | skip
  repeat' first
    | with_reducible assumption
    | with_reducible refine frontEnd_ok ?_ ?_
    | with_reducible refine endNext_ok ?_
    | with_reducible refine State_updQ_ok ?_
    | with_reducible apply ok_foldl
    | with_reducible apply ok_foldl_fst
    | with_reducible apply ok_ite
    | with_reducible apply ok_ite_fst
    | with_reducible apply ok_ite_snd
    | intro _

end Sys2Proof.Laws
end

