-- ==== Sys2Proof/Laws/KeepRegWrite.lean ====
section
/-!
SUPPORT. What the operations of Machine/RegWrite.lean keep of the view of Laws/Good.lean.
-/
namespace Sys2Proof.Laws

open Sys2Proof.Machine

variable {p : List Instr} {g : Grade × W64}

theorem writeEsp_ok {s : _} {v : _} (h_s : Ok p g (view (s))) :
    Ok p g (view (Machine.writeEsp s v)) := by
  unfold Machine.writeEsp
  repeat' first
    | with_reducible assumption
    | with_reducible refine cancelArm_ok ?_
    | with_reducible refine arm_ok ?_
    | with_reducible apply ok_foldl
    | with_reducible apply ok_foldl_fst
    | with_reducible apply ok_ite
    | with_reducible apply ok_ite_fst
    | with_reducible apply ok_ite_snd
    | intro _
    | split
    | (with_reducible refine ok_of_pair (by assumption) ?_)
    | (with_reducible refine ok_of_pair2 (by assumption) ?_)
    | (with_reducible refine ok_of_hres (by assumption) ?_)
    | (with_reducible refine ok_of_opt2 (by assumption) ?_)
    | (with_reducible refine ok_of_some (by assumption) ?_)
    | with_reducible refine ok_findSome _ ?_
    | (simp only [view_mk, view_eta])

theorem hrwRead_ok {s : _} {o : _} (h_s : Ok p g (view (s))) :
    Ok p g (view (Machine.hrwRead s o).2) := by
  unfold Machine.hrwRead
  repeat' first
    | with_reducible assumption
    | with_reducible refine regRead_ok ?_
    | with_reducible apply ok_foldl
    | with_reducible apply ok_foldl_fst
    | with_reducible apply ok_ite
    | with_reducible apply ok_ite_fst
    | with_reducible apply ok_ite_snd
    | intro _

theorem execSatCounterRead_ok {npa : _} {s : _} (h_s : Ok p g (view (s))) :
    ∀ u, Machine.execSatCounterRead npa s = .next u → Ok p g (view u) := by
  intro u e
  unfold Machine.execSatCounterRead at e
  first | (have e := Host.Outcome.next.inj e; subst e) | skip
  repeat' first
    | with_reducible assumption
    | with_reducible refine overLink_ok ?_ ?_
    | with_reducible refine violation_ok ?_
    | with_reducible refine hrwRead_ok ?_
    | with_reducible refine hostAnswer_ok ?_
    | with_reducible refine regRead_ok ?_
    | with_reducible apply ok_foldl
    | with_reducible apply ok_foldl_fst
    | with_reducible apply ok_ite
    | with_reducible apply ok_ite_fst
    | with_reducible apply ok_ite_snd
    | intro _
    | split

theorem clearPanFlags_ok {s : _} {st : _} {v : _} (h_s : Ok p g (view (s))) :
    Ok p g (view (Machine.clearPanFlags s st v)) := by
  unfold Machine.clearPanFlags
  repeat' first
    | with_reducible assumption
    | with_reducible refine State_setStack_ok ?_

theorem clearBlkFlags_ok {s : _} {b : _} {v : _} (h_s : Ok p g (view (s))) :
    Ok p g (view (Machine.clearBlkFlags s b v)) := by
  unfold Machine.clearBlkFlags
  repeat' first
    | with_reducible assumption
    | with_reducible refine State_updBlk_ok ?_

theorem regWrite_ok {s : _} {o : _} {v : _} (h_s : Ok p g (view (s))) :
    Ok p g (view (Machine.regWrite s o v)) := by
  unfold Machine.regWrite
  repeat' first
    | with_reducible assumption
    | with_reducible refine writeEsp_ok ?_
    | with_reducible refine State_updHart_ok ?_
    | with_reducible refine clearPanFlags_ok ?_
    | with_reducible refine State_setStack_ok ?_
    | with_reducible refine clearBlkFlags_ok ?_
    | with_reducible apply ok_foldl
    | with_reducible apply ok_foldl_fst
    | with_reducible apply ok_ite
    | with_reducible apply ok_ite_fst
    | with_reducible apply ok_ite_snd
    | intro _
    | split
    | (with_reducible refine ok_of_pair (by assumption) ?_)
    | (with_reducible refine ok_of_pair2 (by assumption) ?_)
    | (with_reducible refine ok_of_hres (by assumption) ?_)
    | (with_reducible refine ok_of_opt2 (by assumption) ?_)
    | (with_reducible refine ok_of_some (by assumption) ?_)
    | with_reducible refine ok_findSome _ ?_
    | (simp only [view_mk, view_eta])

theorem leaseWrite_ok {s : _} {v : _} (h_s : Ok p g (view (s))) :
    Ok p g (view (Machine.leaseWrite s v)) := by
  unfold Machine.leaseWrite
  repeat' first
    | with_reducible assumption
    | with_reducible refine leaseTake_ok ?_
    | with_reducible refine leaseRenew_ok ?_
    | with_reducible refine leaseRelease_ok ?_
    | with_reducible apply ok_foldl
    | with_reducible apply ok_foldl_fst
    | with_reducible apply ok_ite
    | with_reducible apply ok_ite_fst
    | with_reducible apply ok_ite_snd
    | intro _
    | split
    | (with_reducible refine ok_of_pair (by assumption) ?_)
    | (with_reducible refine ok_of_pair2 (by assumption) ?_)
    | (with_reducible refine ok_of_hres (by assumption) ?_)
    | (with_reducible refine ok_of_opt2 (by assumption) ?_)
    | (with_reducible refine ok_of_some (by assumption) ?_)
    | with_reducible refine ok_findSome _ ?_
    | (simp only [view_mk, view_eta])

theorem consWrite_ok {s : _} {ring : _} {v : _} {mask : _} (h_s : Ok p g (view (s))) :
    Ok p g (view (Machine.consWrite s ring v mask)) := by
  unfold Machine.consWrite
  repeat' first
    | with_reducible assumption
    | with_reducible refine ringCons_ok ?_
    | with_reducible apply ok_foldl
    | with_reducible apply ok_foldl_fst
    | with_reducible apply ok_ite
    | with_reducible apply ok_ite_fst
    | with_reducible apply ok_ite_snd
    | intro _

theorem hrwWrite_ok {s : _} {o : _} {v : _} {mask : _} (h_s : Ok p g (view (s))) :
    Ok p g (view (Machine.hrwWrite s o v mask)) := by
  unfold Machine.hrwWrite
  repeat' first
    | with_reducible assumption
    | with_reducible refine emWrite_ok ?_
    | with_reducible refine leaseWrite_ok ?_
    | with_reducible refine intCause_ok ?_
    | with_reducible refine intMask_ok ?_
    | with_reducible refine consWrite_ok ?_
    | with_reducible apply ok_foldl
    | with_reducible apply ok_foldl_fst
    | with_reducible apply ok_ite
    | with_reducible apply ok_ite_fst
    | with_reducible apply ok_ite_snd
    | intro _
    | split
    | (with_reducible refine ok_of_pair (by assumption) ?_)
    | (with_reducible refine ok_of_pair2 (by assumption) ?_)
    | (with_reducible refine ok_of_hres (by assumption) ?_)
    | (with_reducible refine ok_of_opt2 (by assumption) ?_)
    | (with_reducible refine ok_of_some (by assumption) ?_)
    | with_reducible refine ok_findSome _ ?_
    | (simp only [view_mk, view_eta])

theorem hostWrite_ok {s : _} {o : _} {size : _} {v : _} {poison : _} (h_s : Ok p g (view (s))) :
    Ok p g (view (Machine.hostWrite s o size v poison)) := by
  unfold Machine.hostWrite
  repeat' first
    | with_reducible assumption
    | with_reducible refine violation_ok ?_
    | with_reducible refine hrwWrite_ok ?_
    | with_reducible apply ok_foldl
    | with_reducible apply ok_foldl_fst
    | with_reducible apply ok_ite
    | with_reducible apply ok_ite_fst
    | with_reducible apply ok_ite_snd
    | intro _

theorem execBlkFlags_ok {b : _} {v : _} {s : _} (h_s : Ok p g (view (s))) :
    ∀ u, Machine.execBlkFlags b v s = .next u → Ok p g (view u) := by
  intro u e
  unfold Machine.execBlkFlags at e
  first | (have e := Host.Outcome.next.inj e; subst e) | skip
  repeat' first
    | with_reducible assumption
    | with_reducible refine clearBlkFlags_ok ?_
    | with_reducible apply ok_foldl
    | with_reducible apply ok_foldl_fst
    | with_reducible apply ok_ite
    | with_reducible apply ok_ite_fst
    | with_reducible apply ok_ite_snd
    | intro _

theorem execPanFlags_ok {stack : _} {v : _} {s : _} (h_s : Ok p g (view (s))) :
    ∀ u, Machine.execPanFlags stack v s = .next u → Ok p g (view u) := by
  intro u e
  unfold Machine.execPanFlags at e
  first | (have e := Host.Outcome.next.inj e; subst e) | skip
  repeat' first
    | with_reducible assumption
    | with_reducible refine clearPanFlags_ok ?_
    | with_reducible apply ok_foldl
    | with_reducible apply ok_foldl_fst
    | with_reducible apply ok_ite
    | with_reducible apply ok_ite_fst
    | with_reducible apply ok_ite_snd
    | intro _

theorem execRegisterWrite_ok {by_ : _} {addr : _} {size : _} {v : _} {poison : _} {s : _} (h_s : Ok p g (view (s))) :
    ∀ u, Machine.execRegisterWrite by_ addr size v poison s = .next u → Ok p g (view u) := by
  intro u e
  unfold Machine.execRegisterWrite at e
  first | (have e := Host.Outcome.next.inj e; subst e) | skip
  repeat' first
    | with_reducible assumption
    | with_reducible refine overLink_ok ?_ ?_
    | with_reducible refine hostWrite_ok ?_
    | with_reducible refine takeTrap_ok ?_
    | with_reducible refine physStore_ok ?_
    | with_reducible refine regWrite_ok ?_
    | with_reducible apply ok_foldl
    | with_reducible apply ok_foldl_fst
    | with_reducible apply ok_ite
    | with_reducible apply ok_ite_fst
    | with_reducible apply ok_ite_snd
    | intro _
    | split
    | (with_reducible refine ok_of_pair (by assumption) ?_)

end Sys2Proof.Laws
end

