-- ==== Sys2Proof/Laws/KeepSecurity.lean ====
section
/-!
SUPPORT. What the operations of Machine/Security.lean keep of the view of Laws/Good.lean.
-/
namespace Sys2Proof.Laws

open Sys2Proof.Machine

variable {p : List Instr} {g : Grade × W64}

theorem spdm_ok {s : _} {out : _} (h_s : Ok p g (view (s))) :
    Ok p g (view (Machine.spdm s out)) := by
  unfold Machine.spdm
  repeat' first
    | with_reducible assumption
    | with_reducible apply ok_foldl
    | with_reducible apply ok_foldl_fst
    | with_reducible apply ok_ite
    | with_reducible apply ok_ite_fst
    | with_reducible apply ok_ite_snd
    | intro _
    | split
    | (with_reducible refine ok_of_pair (by assumption) ?_)
    | (with_reducible refine ok_of_pair2 (by assumption) ?_)
    | (with_reducible refine ok_of_hres (by assumption) ?_)
    | (with_reducible refine ok_of_opt2 (by assumption) ?_)
    | (with_reducible refine ok_of_some (by assumption) ?_)
    | with_reducible refine ok_findSome _ ?_
    | (simp only [view_mk, view_eta])

theorem spdmError_ok {s : _} {code : _} (h_s : Ok p g (view (s))) :
    Ok p g (view (Machine.spdmError s code)) := by
  unfold Machine.spdmError
  repeat' first
    | with_reducible assumption
    | with_reducible refine spdm_ok ?_

theorem doe_ok {s : _} {run : _} (h_s : Ok p g (view (s))) (h_run : ∀ v0, Ok p g (view (v0)) → Ok p g (view (run v0))) :
    Ok p g (view (Machine.doe s run)) := by
  unfold Machine.doe
  repeat' first
    | with_reducible assumption
    | with_reducible refine overLink_ok ?_ ?_
    | with_reducible refine spdmError_ok ?_
    | with_reducible apply h_run
    | with_reducible apply ok_foldl
    | with_reducible apply ok_foldl_fst
    | with_reducible apply ok_ite
    | with_reducible apply ok_ite_fst
    | with_reducible apply ok_ite_snd
    | intro _

theorem after_ok {s : _} {ok : _} {run : _} (h_s : Ok p g (view (s))) (h_run : ∀ v0, Ok p g (view (v0)) → Ok p g (view (run v0))) :
    Ok p g (view (Machine.after s ok run)) := by
  unfold Machine.after
  repeat' first
    | with_reducible assumption
    | with_reducible refine spdmError_ok ?_
    | with_reducible apply h_run
    | with_reducible apply ok_foldl
    | with_reducible apply ok_foldl_fst
    | with_reducible apply ok_ite
    | with_reducible apply ok_ite_fst
    | with_reducible apply ok_ite_snd
    | intro _

theorem execGetCertificate_ok {slot : _} {offset : _} {length : _} {s : _} (h_s : Ok p g (view (s))) :
    ∀ u, Machine.execGetCertificate slot offset length s = .next u → Ok p g (view u) := by
  intro u e
  unfold Machine.execGetCertificate at e
  first | (have e := Host.Outcome.next.inj e; subst e) | skip
  repeat' first
    | with_reducible assumption
    | with_reducible refine doe_ok ?_ ?_
    | with_reducible refine after_ok ?_ ?_
    | with_reducible refine spdmError_ok ?_
    | with_reducible refine spdm_ok ?_
    | with_reducible apply ok_foldl
    | with_reducible apply ok_foldl_fst
    | with_reducible apply ok_ite
    | with_reducible apply ok_ite_fst
    | with_reducible apply ok_ite_snd
    | intro _

theorem execIdentify_ok {s : _} (h_s : Ok p g (view (s))) :
    ∀ u, Machine.execIdentify s = .next u → Ok p g (view u) := by
  intro u e
  unfold Machine.execIdentify at e
  first | (have e := Host.Outcome.next.inj e; subst e) | skip
  repeat' first
    | with_reducible assumption
    | with_reducible refine mbx_ok ?_ ?_
    | with_reducible refine done_ok ?_
    | with_reducible apply ok_foldl
    | with_reducible apply ok_foldl_fst
    | with_reducible apply ok_ite
    | with_reducible apply ok_ite_fst
    | with_reducible apply ok_ite_snd
    | intro _

theorem jtag_ok {s : _} {n : _} {out : _} (h_s : Ok p g (view (s))) :
    Ok p g (view (Machine.jtag s n out)) := by
  unfold Machine.jtag
  repeat' first
    | with_reducible assumption
    | with_reducible apply ok_foldl
    | with_reducible apply ok_foldl_fst
    | with_reducible apply ok_ite
    | with_reducible apply ok_ite_fst
    | with_reducible apply ok_ite_snd
    | intro _
    | split
    | (with_reducible refine ok_of_pair (by assumption) ?_)
    | (with_reducible refine ok_of_pair2 (by assumption) ?_)
    | (with_reducible refine ok_of_hres (by assumption) ?_)
    | (with_reducible refine ok_of_opt2 (by assumption) ?_)
    | (with_reducible refine ok_of_some (by assumption) ?_)
    | with_reducible refine ok_findSome _ ?_
    | (simp only [view_mk, view_eta])

theorem execIdcode_ok {s : _} (h_s : Ok p g (view (s))) :
    ∀ u, Machine.execIdcode s = .next u → Ok p g (view u) := by
  intro u e
  unfold Machine.execIdcode at e
  first | (have e := Host.Outcome.next.inj e; subst e) | skip
  repeat' first
    | with_reducible assumption
    | with_reducible refine jtag_ok ?_

theorem mapSessions_ok {s : _} {f : _} (h_s : Ok p g (view (s))) :
    Ok p g (view (Machine.mapSessions s f)) := by
  refine ⟨h_s.pending, h_s.grade, h_s.serial, h_s.mem, h_s.hostMem, h_s.log, h_s.logq, h_s.em, ?_, h_s.ctl⟩
  exact le_trans (List.length_filterMap_le _ _) h_s.sess

theorem execFinish_ok {session_ : _} {verifyOk : _} {s : _} (h_s : Ok p g (view (s))) :
    ∀ u, Machine.execFinish session_ verifyOk s = .next u → Ok p g (view u) := by
  intro u e
  unfold Machine.execFinish at e
  first | (have e := Host.Outcome.next.inj e; subst e) | skip
  repeat' first
    | with_reducible assumption
    | with_reducible refine doe_ok ?_ ?_
    | with_reducible refine after_ok ?_ ?_
    | with_reducible refine spdm_ok ?_
    | with_reducible refine mapSessions_ok ?_
    | with_reducible refine spdmError_ok ?_
    | with_reducible apply ok_foldl
    | with_reducible apply ok_foldl_fst
    | with_reducible apply ok_ite
    | with_reducible apply ok_ite_fst
    | with_reducible apply ok_ite_snd
    | intro _

theorem takeToken_ok {s : _} {token : _} (h_s : Ok p g (view (s))) :
    Ok p g (view (Machine.takeToken s token)) := by
  unfold Machine.takeToken
  repeat' first
    | with_reducible assumption
    | with_reducible apply ok_foldl
    | with_reducible apply ok_foldl_fst
    | with_reducible apply ok_ite
    | with_reducible apply ok_ite_fst
    | with_reducible apply ok_ite_snd
    | intro _
    | split
    | (with_reducible refine ok_of_pair (by assumption) ?_)
    | (with_reducible refine ok_of_pair2 (by assumption) ?_)
    | (with_reducible refine ok_of_hres (by assumption) ?_)
    | (with_reducible refine ok_of_opt2 (by assumption) ?_)
    | (with_reducible refine ok_of_some (by assumption) ?_)
    | with_reducible refine ok_findSome _ ?_
    | (simp only [view_mk, view_eta])

theorem inSession_ok {s : _} {id : _} {run : _} (h_s : Ok p g (view (s))) (h_run : ∀ v0, Ok p g (view (v0)) → Ok p g (view (run v0))) :
    Ok p g (view (Machine.inSession s id run)) := by
  unfold Machine.inSession
  repeat' first
    | with_reducible assumption
    | with_reducible refine after_ok ?_ ?_

theorem execNegotiateAlgorithms_ok {ed448 : _} {sha3 : _} {secp384r1 : _} {aesGcm : _} {s : _} (h_s : Ok p g (view (s))) :
    ∀ u, Machine.execNegotiateAlgorithms ed448 sha3 secp384r1 aesGcm s = .next u → Ok p g (view u) := by
  intro u e
  unfold Machine.execNegotiateAlgorithms at e
  first | (have e := Host.Outcome.next.inj e; subst e) | skip
  repeat' first
    | with_reducible assumption
    | with_reducible refine doe_ok ?_ ?_
    | with_reducible refine after_ok ?_ ?_
    | with_reducible refine spdm_ok ?_
    | with_reducible apply ok_foldl
    | with_reducible apply ok_foldl_fst
    | with_reducible apply ok_ite
    | with_reducible apply ok_ite_fst
    | with_reducible apply ok_ite_snd
    | intro _
    | split
    | (with_reducible refine ok_of_pair (by assumption) ?_)
    | (with_reducible refine ok_of_pair2 (by assumption) ?_)
    | (with_reducible refine ok_of_hres (by assumption) ?_)
    | (with_reducible refine ok_of_opt2 (by assumption) ?_)
    | (with_reducible refine ok_of_some (by assumption) ?_)
    | with_reducible refine ok_findSome _ ?_
    | (simp only [view_mk, view_eta])

theorem execBypass_ok {s : _} (h_s : Ok p g (view (s))) :
    ∀ u, Machine.execBypass s = .next u → Ok p g (view u) := by
  intro u e
  unfold Machine.execBypass at e
  first | (have e := Host.Outcome.next.inj e; subst e) | skip
  repeat' first
    | with_reducible assumption
    | with_reducible refine jtag_ok ?_

theorem execGetVersion_ok {s : _} (h_s : Ok p g (view (s))) :
    ∀ u, Machine.execGetVersion s = .next u → Ok p g (view u) := by
  intro u e
  unfold Machine.execGetVersion at e
  first | (have e := Host.Outcome.next.inj e; subst e) | skip
  repeat' first
    | with_reducible assumption
    | with_reducible refine doe_ok ?_ ?_
    | with_reducible refine spdm_ok ?_
    | with_reducible apply ok_foldl
    | with_reducible apply ok_foldl_fst
    | with_reducible apply ok_ite
    | with_reducible apply ok_ite_fst
    | with_reducible apply ok_ite_snd
    | intro _
    | split
    | (with_reducible refine ok_of_pair (by assumption) ?_)
    | (with_reducible refine ok_of_pair2 (by assumption) ?_)
    | (with_reducible refine ok_of_hres (by assumption) ?_)
    | (with_reducible refine ok_of_opt2 (by assumption) ?_)
    | (with_reducible refine ok_of_some (by assumption) ?_)
    | with_reducible refine ok_findSome _ ?_
    | (simp only [view_mk, view_eta])

theorem execMacsecKey_ok {inIde : _} {port : _} {dir : _} {an : _} {ssci : _} {salt : _} {key : _} {firstPeriod : _} {s : _} (h_s : Ok p g (view (s))) :
    ∀ u, Machine.execMacsecKey inIde port dir an ssci salt key firstPeriod s = .next u → Ok p g (view u) := by
  intro u e
  unfold Machine.execMacsecKey at e
  first | (have e := Host.Outcome.next.inj e; subst e) | skip
  repeat' first
    | with_reducible assumption
    | with_reducible refine mbx_ok ?_ ?_
    | with_reducible refine invalid_ok ?_
    | with_reducible refine done_ok ?_
    | with_reducible refine State_setPort_ok ?_
    | with_reducible apply ok_foldl
    | with_reducible apply ok_foldl_fst
    | with_reducible apply ok_ite
    | with_reducible apply ok_ite_fst
    | with_reducible apply ok_ite_snd
    | intro _
    | split

theorem execCrashRecord_ok {s : _} (h_s : Ok p g (view (s))) :
    ∀ u, Machine.execCrashRecord s = .next u → Ok p g (view u) := by
  intro u e
  unfold Machine.execCrashRecord at e
  first | (have e := Host.Outcome.next.inj e; subst e) | skip
  repeat' first
    | with_reducible assumption
    | with_reducible refine mbx_ok ?_ ?_
    | with_reducible refine done_ok ?_
    | with_reducible apply ok_foldl
    | with_reducible apply ok_foldl_fst
    | with_reducible apply ok_ite
    | with_reducible apply ok_ite_fst
    | with_reducible apply ok_ite_snd
    | intro _
    | split
    | (with_reducible refine ok_of_pair (by assumption) ?_)
    | (with_reducible refine ok_of_pair2 (by assumption) ?_)
    | (with_reducible refine ok_of_hres (by assumption) ?_)
    | (with_reducible refine ok_of_opt2 (by assumption) ?_)
    | (with_reducible refine ok_of_some (by assumption) ?_)
    | with_reducible refine ok_findSome _ ?_
    | (simp only [view_mk, view_eta])

theorem execDbgChallenge_ok {s : _} (h_s : Ok p g (view (s))) :
    ∀ u, Machine.execDbgChallenge s = .next u → Ok p g (view u) := by
  intro u e
  unfold Machine.execDbgChallenge at e
  first | (have e := Host.Outcome.next.inj e; subst e) | skip
  repeat' first
    | with_reducible assumption
    | with_reducible refine jtag_ok ?_

theorem execKeyUpdate_ok {session_ : _} {s : _} (h_s : Ok p g (view (s))) :
    ∀ u, Machine.execKeyUpdate session_ s = .next u → Ok p g (view u) := by
  intro u e
  unfold Machine.execKeyUpdate at e
  first | (have e := Host.Outcome.next.inj e; subst e) | skip
  repeat' first
    | with_reducible assumption
    | with_reducible refine doe_ok ?_ ?_
    | with_reducible refine inSession_ok ?_ ?_
    | with_reducible refine spdm_ok ?_
    | with_reducible refine mapSessions_ok ?_
    | with_reducible apply ok_foldl
    | with_reducible apply ok_foldl_fst
    | with_reducible apply ok_ite
    | with_reducible apply ok_ite_fst
    | with_reducible apply ok_ite_snd
    | intro _

theorem execChallenge_ok {slot : _} {nonce : _} {s : _} (h_s : Ok p g (view (s))) :
    ∀ u, Machine.execChallenge slot nonce s = .next u → Ok p g (view u) := by
  intro u e
  unfold Machine.execChallenge at e
  first | (have e := Host.Outcome.next.inj e; subst e) | skip
  repeat' first
    | with_reducible assumption
    | with_reducible refine doe_ok ?_ ?_
    | with_reducible refine after_ok ?_ ?_
    | with_reducible refine spdmError_ok ?_
    | with_reducible refine spdm_ok ?_
    | with_reducible apply ok_foldl
    | with_reducible apply ok_foldl_fst
    | with_reducible apply ok_ite
    | with_reducible apply ok_ite_fst
    | with_reducible apply ok_ite_snd
    | intro _

theorem execGetCapabilities_ok {ver : _} {s : _} (h_s : Ok p g (view (s))) :
    ∀ u, Machine.execGetCapabilities ver s = .next u → Ok p g (view u) := by
  intro u e
  unfold Machine.execGetCapabilities at e
  first | (have e := Host.Outcome.next.inj e; subst e) | skip
  repeat' first
    | with_reducible assumption
    | with_reducible refine doe_ok ?_ ?_
    | with_reducible refine after_ok ?_ ?_
    | with_reducible refine spdm_ok ?_
    | with_reducible refine spdmError_ok ?_
    | with_reducible apply ok_foldl
    | with_reducible apply ok_foldl_fst
    | with_reducible apply ok_ite
    | with_reducible apply ok_ite_fst
    | with_reducible apply ok_ite_snd
    | intro _
    | split
    | (with_reducible refine ok_of_pair (by assumption) ?_)
    | (with_reducible refine ok_of_pair2 (by assumption) ?_)
    | (with_reducible refine ok_of_hres (by assumption) ?_)
    | (with_reducible refine ok_of_opt2 (by assumption) ?_)
    | (with_reducible refine ok_of_some (by assumption) ?_)
    | with_reducible refine ok_findSome _ ?_
    | (simp only [view_mk, view_eta])

theorem boundary_ok {s : _} {n : _} (h_s : Ok p g (view (s))) :
    Ok p g (view (Machine.boundary s n)) := by
  unfold Machine.boundary
  repeat' first
    | with_reducible assumption
    | with_reducible refine jtag_ok ?_
    | with_reducible refine drew_ok ?_
    | with_reducible apply ok_foldl
    | with_reducible apply ok_foldl_fst
    | with_reducible apply ok_ite
    | with_reducible apply ok_ite_fst
    | with_reducible apply ok_ite_snd
    | intro _

theorem execExtest_ok {s : _} (h_s : Ok p g (view (s))) :
    ∀ u, Machine.execExtest s = .next u → Ok p g (view u) := by
  intro u e
  unfold Machine.execExtest at e
  first | (have e := Host.Outcome.next.inj e; subst e) | skip
  repeat' first
    | with_reducible assumption
    | with_reducible refine boundary_ok ?_

theorem execGetDigests_ok {s : _} (h_s : Ok p g (view (s))) :
    ∀ u, Machine.execGetDigests s = .next u → Ok p g (view u) := by
  intro u e
  unfold Machine.execGetDigests at e
  first | (have e := Host.Outcome.next.inj e; subst e) | skip
  repeat' first
    | with_reducible assumption
    | with_reducible refine doe_ok ?_ ?_
    | with_reducible refine after_ok ?_ ?_
    | with_reducible refine spdm_ok ?_
    | with_reducible apply ok_foldl
    | with_reducible apply ok_foldl_fst
    | with_reducible apply ok_ite
    | with_reducible apply ok_ite_fst
    | with_reducible apply ok_ite_snd
    | intro _

theorem execDbgStatus_ok {s : _} (h_s : Ok p g (view (s))) :
    ∀ u, Machine.execDbgStatus s = .next u → Ok p g (view u) := by
  intro u e
  unfold Machine.execDbgStatus at e
  first | (have e := Host.Outcome.next.inj e; subst e) | skip
  repeat' first
    | with_reducible assumption
    | with_reducible refine jtag_ok ?_

theorem execHeartbeat_ok {session_ : _} {s : _} (h_s : Ok p g (view (s))) :
    ∀ u, Machine.execHeartbeat session_ s = .next u → Ok p g (view u) := by
  intro u e
  unfold Machine.execHeartbeat at e
  first | (have e := Host.Outcome.next.inj e; subst e) | skip
  repeat' first
    | with_reducible assumption
    | with_reducible refine doe_ok ?_ ?_
    | with_reducible refine inSession_ok ?_ ?_
    | with_reducible refine spdm_ok ?_
    | with_reducible apply ok_foldl
    | with_reducible apply ok_foldl_fst
    | with_reducible apply ok_ite
    | with_reducible apply ok_ite_fst
    | with_reducible apply ok_ite_snd
    | intro _

theorem execDbgToken_ok {token : _} {s : _} (h_s : Ok p g (view (s))) :
    ∀ u, Machine.execDbgToken token s = .next u → Ok p g (view u) := by
  intro u e
  unfold Machine.execDbgToken at e
  first | (have e := Host.Outcome.next.inj e; subst e) | skip
  repeat' first
    | with_reducible assumption
    | with_reducible refine takeToken_ok ?_
    | with_reducible refine jtag_ok ?_
    | with_reducible apply ok_foldl
    | with_reducible apply ok_foldl_fst
    | with_reducible apply ok_ite
    | with_reducible apply ok_ite_fst
    | with_reducible apply ok_ite_snd
    | intro _

theorem execEndSession_ok {session_ : _} {s : _} (h_s : Ok p g (view (s))) :
    ∀ u, Machine.execEndSession session_ s = .next u → Ok p g (view u) := by
  intro u e
  unfold Machine.execEndSession at e
  first | (have e := Host.Outcome.next.inj e; subst e) | skip
  repeat' first
    | with_reducible assumption
    | with_reducible refine doe_ok ?_ ?_
    | with_reducible refine inSession_ok ?_ ?_
    | with_reducible refine spdm_ok ?_
    | with_reducible refine mapSessions_ok ?_
    | with_reducible apply ok_foldl
    | with_reducible apply ok_foldl_fst
    | with_reducible apply ok_ite
    | with_reducible apply ok_ite_fst
    | with_reducible apply ok_ite_snd
    | intro _

theorem execSamplePreload_ok {s : _} (h_s : Ok p g (view (s))) :
    ∀ u, Machine.execSamplePreload s = .next u → Ok p g (view u) := by
  intro u e
  unfold Machine.execSamplePreload at e
  first | (have e := Host.Outcome.next.inj e; subst e) | skip
  repeat' first
    | with_reducible assumption
    | with_reducible refine boundary_ok ?_

theorem execGetMeasurements_ok {index : _} {nonce : _} {s : _} (h_s : Ok p g (view (s))) :
    ∀ u, Machine.execGetMeasurements index nonce s = .next u → Ok p g (view u) := by
  intro u e
  unfold Machine.execGetMeasurements at e
  first | (have e := Host.Outcome.next.inj e; subst e) | skip
  repeat' first
    | with_reducible assumption
    | with_reducible refine doe_ok ?_ ?_
    | with_reducible refine after_ok ?_ ?_
    | with_reducible refine spdmError_ok ?_
    | with_reducible refine spdm_ok ?_
    | with_reducible apply ok_foldl
    | with_reducible apply ok_foldl_fst
    | with_reducible apply ok_ite
    | with_reducible apply ok_ite_fst
    | with_reducible apply ok_ite_snd
    | intro _

theorem execIdeKm_ok {session_ : _} {stream : _} {key : _} {s : _} (h_s : Ok p g (view (s))) :
    ∀ u, Machine.execIdeKm session_ stream key s = .next u → Ok p g (view u) := by
  intro u e
  unfold Machine.execIdeKm at e
  first | (have e := Host.Outcome.next.inj e; subst e) | skip
  repeat' first
    | with_reducible assumption
    | with_reducible refine doe_ok ?_ ?_
    | with_reducible refine inSession_ok ?_ ?_
    | with_reducible refine spdm_ok ?_
    | with_reducible apply ok_foldl
    | with_reducible apply ok_foldl_fst
    | with_reducible apply ok_ite
    | with_reducible apply ok_ite_fst
    | with_reducible apply ok_ite_snd
    | intro _
    | split
    | (with_reducible refine ok_of_pair (by assumption) ?_)
    | (with_reducible refine ok_of_pair2 (by assumption) ?_)
    | (with_reducible refine ok_of_hres (by assumption) ?_)
    | (with_reducible refine ok_of_opt2 (by assumption) ?_)
    | (with_reducible refine ok_of_some (by assumption) ?_)
    | with_reducible refine ok_findSome _ ?_
    | (simp only [view_mk, view_eta])

theorem execKeyExchange_ok {slot : _} {reqSession : _} {exchange : _} {s : _} (h_s : Ok p g (view (s))) :
    ∀ u, Machine.execKeyExchange slot reqSession exchange s = .next u → Ok p g (view u) := by
  intro u e
  unfold execKeyExchange at e
  have e := Host.Outcome.next.inj e
  subst e
  refine doe_ok h_s fun t h => after_ok h fun t h => ok_ite (fun _ => spdmError_ok h) fun _ =>
    ok_ite (fun _ => spdmError_ok h) fun hn => spdm_ok ?_
  refine ⟨h.pending, h.grade, h.serial, h.mem, h.hostMem, h.log, h.logq, h.em, ?_, h.ctl⟩
  simp only [view, List.length_append, List.length_singleton]
  omega

end Sys2Proof.Laws
end

