-- ==== Sys2Proof/Laws/KeepSolver.lean ====
section
/-!
SUPPORT. What the operations of Machine/Solver.lean keep of the view of Laws/Good.lean.
-/
namespace Sys2Proof.Laws

open Sys2Proof.Machine

variable {p : List Instr} {g : Grade × W64}

theorem spatRun_ok {s : _} {b : _} {f : _} (h_s : Ok p g (view (s))) :
    Ok p g (view (Machine.spatRun s b f)) := by
  unfold Machine.spatRun
  repeat' first
    | with_reducible assumption
    | with_reducible refine State_updBlk_ok ?_
    | with_reducible refine withTouch_ok ?_ ?_
    | with_reducible refine finish_ok ?_
    | with_reducible apply ok_foldl
    | with_reducible apply ok_foldl_fst
    | with_reducible apply ok_foldl_tw
    | with_reducible apply ok_foldl_sw
    | with_reducible apply ok_ite_tw
    | with_reducible apply ok_ite
    | with_reducible apply ok_ite_fst
    | with_reducible apply ok_ite_snd
    | intro _

theorem putItem_ok {s : _} {a1 : _} {t : _} {item : _} {r : _} (h_s : Ok p g (view (s))) :
    Ok p g (view (Machine.putItem s a1 t item r).1) := by
  unfold Machine.putItem
  repeat' first
    | with_reducible assumption
    | with_reducible refine wrRow_ok ?_
    | with_reducible refine touch_ok ?_
    | with_reducible refine wrN_ok ?_
    | with_reducible apply ok_foldl
    | with_reducible apply ok_foldl_fst
    | with_reducible apply ok_foldl_tw
    | with_reducible apply ok_foldl_sw
    | with_reducible apply ok_ite_tw
    | with_reducible apply ok_ite
    | with_reducible apply ok_ite_fst
    | with_reducible apply ok_ite_snd
    | intro _
    | split
    | (with_reducible refine ok_of_pair (by assumption) ?_)
    | (with_reducible refine ok_of_pair2 (by assumption) ?_)
    | (with_reducible refine ok_of_hres (by assumption) ?_)
    | (with_reducible refine ok_of_opt2 (by assumption) ?_)
    | (with_reducible refine ok_of_some (by assumption) ?_)
    | with_reducible refine ok_findSome _ ?_
    | (simp only [view_mk, view_eta])

theorem itemStep_ok {a0 : _} {t : _} {b : _} {nrhs : _} {dl : _} {w : _} {item : _} (h_w : Ok p g (view (w).s)) :
    Ok p g (view (Machine.itemStep a0 t b nrhs dl w item).s) := by
  unfold Machine.itemStep
  repeat' first
    | with_reducible assumption
    | with_reducible refine touch_ok ?_
    | with_reducible refine State_updBlk_ok ?_
    | with_reducible refine putItem_ok ?_
    | with_reducible apply ok_foldl
    | with_reducible apply ok_foldl_fst
    | with_reducible apply ok_foldl_tw
    | with_reducible apply ok_foldl_sw
    | with_reducible apply ok_ite_tw
    | with_reducible apply ok_ite
    | with_reducible apply ok_ite_fst
    | with_reducible apply ok_ite_snd
    | intro _
    | split
    | (with_reducible refine ok_of_pair (by assumption) ?_)
    | (with_reducible refine ok_of_pair2 (by assumption) ?_)
    | (with_reducible refine ok_of_hres (by assumption) ?_)
    | (with_reducible refine ok_of_opt2 (by assumption) ?_)
    | (with_reducible refine ok_of_some (by assumption) ?_)
    | with_reducible refine ok_findSome _ ?_
    | (simp only [view_mk, view_eta])

theorem sfactRun_ok {s : _} {b : _} {f : _} (h_s : Ok p g (view (s))) :
    Ok p g (view (Machine.sfactRun s b f)) := by
  unfold Machine.sfactRun
  repeat' first
    | with_reducible assumption
    | with_reducible refine updInFl_ok ?_
    | with_reducible refine itemStep_ok ?_
    | with_reducible refine putItem_ok ?_
    | with_reducible refine State_updBlk_ok ?_
    | with_reducible refine setFlags_ok ?_
    | with_reducible refine finishFault_ok ?_
    | with_reducible refine finishOut_ok ?_
    | with_reducible apply ok_foldl
    | with_reducible apply ok_foldl_fst
    | with_reducible apply ok_foldl_tw
    | with_reducible apply ok_foldl_sw
    | with_reducible apply ok_ite_tw
    | with_reducible apply ok_ite
    | with_reducible apply ok_ite_fst
    | with_reducible apply ok_ite_snd
    | intro _
    | split
    | (with_reducible refine ok_of_pair (by assumption) ?_)
    | (with_reducible refine ok_of_pair2 (by assumption) ?_)
    | (with_reducible refine ok_of_hres (by assumption) ?_)
    | (with_reducible refine ok_of_opt2 (by assumption) ?_)
    | (with_reducible refine ok_of_some (by assumption) ?_)
    | with_reducible refine ok_findSome _ ?_
    | (simp only [view_mk, view_eta])

theorem execSfact_ok {b : _} {s : _} (h_s : Ok p g (view (s))) :
    ∀ u, Machine.execSfact b s = .next u → Ok p g (view u) := by
  intro u e
  unfold Machine.execSfact at e
  first | (have e := Host.Outcome.next.inj e; subst e) | skip
  repeat' first
    | with_reducible assumption
    | with_reducible refine engine_ok ?_ ?_
    | with_reducible refine sfactRun_ok ?_
    | with_reducible apply ok_foldl
    | with_reducible apply ok_foldl_fst
    | with_reducible apply ok_foldl_tw
    | with_reducible apply ok_foldl_sw
    | with_reducible apply ok_ite_tw
    | with_reducible apply ok_ite
    | with_reducible apply ok_ite_fst
    | with_reducible apply ok_ite_snd
    | intro _

theorem execSpat_ok {b : _} {s : _} (h_s : Ok p g (view (s))) :
    ∀ u, Machine.execSpat b s = .next u → Ok p g (view u) := by
  intro u e
  unfold Machine.execSpat at e
  first | (have e := Host.Outcome.next.inj e; subst e) | skip
  repeat' first
    | with_reducible assumption
    | with_reducible refine engine_ok ?_ ?_
    | with_reducible refine spatRun_ok ?_
    | with_reducible apply ok_foldl
    | with_reducible apply ok_foldl_fst
    | with_reducible apply ok_foldl_tw
    | with_reducible apply ok_foldl_sw
    | with_reducible apply ok_ite_tw
    | with_reducible apply ok_ite
    | with_reducible apply ok_ite_fst
    | with_reducible apply ok_ite_snd
    | intro _

theorem deltaRun_ok {s : _} {b : _} {f : _} (h_s : Ok p g (view (s))) :
    Ok p g (view (Machine.deltaRun s b f)) := by
  unfold Machine.deltaRun
  repeat' first
    | with_reducible assumption
    | with_reducible refine withTouch_ok ?_ ?_
    | with_reducible refine startStream_ok ?_
    | with_reducible apply ok_foldl
    | with_reducible apply ok_foldl_fst
    | with_reducible apply ok_foldl_tw
    | with_reducible apply ok_foldl_sw
    | with_reducible apply ok_ite_tw
    | with_reducible apply ok_ite
    | with_reducible apply ok_ite_fst
    | with_reducible apply ok_ite_snd
    | intro _

theorem execDelta_ok {b : _} {s : _} (h_s : Ok p g (view (s))) :
    ∀ u, Machine.execDelta b s = .next u → Ok p g (view u) := by
  intro u e
  unfold Machine.execDelta at e
  first | (have e := Host.Outcome.next.inj e; subst e) | skip
  repeat' first
    | with_reducible assumption
    | with_reducible refine engine_ok ?_ ?_
    | with_reducible refine deltaRun_ok ?_
    | with_reducible apply ok_foldl
    | with_reducible apply ok_foldl_fst
    | with_reducible apply ok_foldl_tw
    | with_reducible apply ok_foldl_sw
    | with_reducible apply ok_ite_tw
    | with_reducible apply ok_ite
    | with_reducible apply ok_ite_fst
    | with_reducible apply ok_ite_snd
    | intro _

end Sys2Proof.Laws
end

