-- ==== Sys2Proof/Laws/KeepStart.lean ====
section
/-!
SUPPORT. What the operations of Machine/Start.lean keep of the view of Laws/Good.lean.
-/
namespace Sys2Proof.Laws

open Sys2Proof.Machine

variable {p : List Instr} {g : Grade × W64}

theorem step6_ok {s : _} (h_s : Ok p g (view (s))) :
    Ok p g (view (Machine.step6 s)) := by
  have h0 : Ok p g (view { s with mem := [], lineFault := [] }) :=
    ⟨h_s.pending, h_s.grade, h_s.serial, rfl, h_s.hostMem, h_s.log, h_s.logq, h_s.em, h_s.sess, h_s.ctl⟩
  have h1 : ∀ (t : State) st k n, Ok p g (view t) → Ok p g (view { (t.setStack st k) with free := n }) :=
    fun t st k n h => ok_upd h rfl rfl rfl rfl rfl rfl rfl rfl rfl
  refine ok_foldl _ h0 fun t st h => ?_
  refine ok_ite (fun _ => h1 _ _ _ _ h) fun _ => h

theorem wholeReset_ok {s : _} {tamper : _} (h_s : Ok p g (view (s))) :
    Ok p g (view (Machine.wholeReset s tamper)) := by
  exact ⟨h_s.pending, h_s.grade, h_s.serial, rfl, h_s.hostMem, Nat.zero_le _, Nat.zero_le _, Nat.zero_le _, Nat.zero_le _,
    Nat.zero_le _⟩

theorem failAt_ok {s : _} {n : _} {a2 : _} (h_s : Ok p g (view (s))) :
    Ok p g (view (Machine.failAt s n a2)) := by
  unfold Machine.failAt
  repeat' first
    | with_reducible assumption
    | with_reducible refine State_setRegion_ok ?_
    | with_reducible apply ok_foldl
    | with_reducible apply ok_foldl_fst
    | with_reducible apply ok_ite
    | with_reducible apply ok_ite_fst
    | with_reducible apply ok_ite_snd
    | intro _

theorem failColumn_ok {s : _} {n : _} {a2 : _} {col : _} {row : _} (h_s : Ok p g (view (s))) :
    Ok p g (view (Machine.failColumn s n a2 col row)) := by
  unfold Machine.failColumn
  repeat' first
    | with_reducible assumption
    | with_reducible refine record_ok ?_
    | with_reducible refine State_updBlk_ok ?_
    | with_reducible refine failAt_ok ?_
    | with_reducible apply ok_foldl
    | with_reducible apply ok_foldl_fst
    | with_reducible apply ok_ite
    | with_reducible apply ok_ite_fst
    | with_reducible apply ok_ite_snd
    | intro _
    | split

theorem step4_ok {s : _} {e : _} (h_s : Ok p g (view (s))) :
    Ok p g (view (Machine.step4 s e)) := by
  unfold Machine.step4
  repeat' first
    | with_reducible assumption
    | with_reducible refine failAt_ok ?_
    | with_reducible refine failColumn_ok ?_
    | with_reducible apply ok_foldl
    | with_reducible apply ok_foldl_fst
    | with_reducible apply ok_ite
    | with_reducible apply ok_ite_fst
    | with_reducible apply ok_ite_snd
    | intro _

theorem fatalReset_ok {s : _} {c : _} {kind : _} {cause : _} {value : _} {tamper : _} (h_s : Ok p g (view (s))) :
    Ok p g (view (Machine.fatalReset s c kind cause value tamper)) := by
  unfold Machine.fatalReset
  repeat' first
    | with_reducible assumption
    | with_reducible refine wholeReset_ok ?_
    | with_reducible refine nodeFatal_ok ?_

theorem loseRetained_ok {s : _} (h_s : Ok p g (view (s))) :
    Ok p g (view (Machine.loseRetained s)) := by
  unfold Machine.loseRetained
  repeat' first
    | with_reducible assumption
    | with_reducible apply ok_foldl
    | with_reducible apply ok_foldl_fst
    | with_reducible apply ok_ite
    | with_reducible apply ok_ite_fst
    | with_reducible apply ok_ite_snd
    | intro _
    | split
    | (with_reducible refine ok_of_pair (by assumption) ?_)
    | (with_reducible refine ok_of_pair2 (by assumption) ?_)
    | (with_reducible refine ok_of_hres (by assumption) ?_)
    | (with_reducible refine ok_of_opt2 (by assumption) ?_)
    | (with_reducible refine ok_of_some (by assumption) ?_)
    | with_reducible refine ok_findSome _ ?_
    | (simp only [view_mk, view_eta])

theorem execTamper_ok {d : _} {vddCtHolds : _} {s : _} (h_s : Ok p g (view (s))) :
    ∀ u, Machine.execTamper d vddCtHolds s = .next u → Ok p g (view u) := by
  intro u e
  unfold Machine.execTamper at e
  first | (have e := Host.Outcome.next.inj e; subst e) | skip
  repeat' first
    | with_reducible assumption
    | with_reducible refine fatalReset_ok ?_
    | with_reducible refine loseRetained_ok ?_
    | with_reducible refine wholeReset_ok ?_
    | with_reducible apply ok_foldl
    | with_reducible apply ok_foldl_fst
    | with_reducible apply ok_ite
    | with_reducible apply ok_ite_fst
    | with_reducible apply ok_ite_snd
    | intro _
    | split
    | (with_reducible refine ok_of_pair (by assumption) ?_)
    | (with_reducible refine ok_of_pair2 (by assumption) ?_)
    | (with_reducible refine ok_of_hres (by assumption) ?_)
    | (with_reducible refine ok_of_opt2 (by assumption) ?_)
    | (with_reducible refine ok_of_some (by assumption) ?_)
    | with_reducible refine ok_findSome _ ?_
    | (simp only [view_mk, view_eta])

theorem execCxlReset_ok {s : _} (h_s : Ok p g (view (s))) :
    ∀ u, Machine.execCxlReset s = .next u → Ok p g (view u) := by
  intro u e
  unfold Machine.execCxlReset at e
  first | (have e := Host.Outcome.next.inj e; subst e) | skip
  repeat' first
    | with_reducible assumption
    | with_reducible refine overLink_ok ?_ ?_
    | with_reducible refine wholeReset_ok ?_
    | with_reducible apply ok_foldl
    | with_reducible apply ok_foldl_fst
    | with_reducible apply ok_ite
    | with_reducible apply ok_ite_fst
    | with_reducible apply ok_ite_snd
    | intro _

theorem supplyFault_ok {s : _} {r : _} (h_s : Ok p g (view (s))) :
    Ok p g (view (Machine.supplyFault s r)) := by
  unfold Machine.supplyFault
  repeat' first
    | with_reducible assumption
    | with_reducible refine ibi_ok ?_
    | with_reducible refine fatalReset_ok ?_
    | with_reducible apply ok_foldl
    | with_reducible apply ok_foldl_fst
    | with_reducible apply ok_ite
    | with_reducible apply ok_ite_fst
    | with_reducible apply ok_ite_snd
    | intro _
    | split
    | (with_reducible refine ok_of_pair (by assumption) ?_)
    | (with_reducible refine ok_of_pair2 (by assumption) ?_)
    | (with_reducible refine ok_of_hres (by assumption) ?_)
    | (with_reducible refine ok_of_opt2 (by assumption) ?_)
    | (with_reducible refine ok_of_some (by assumption) ?_)
    | with_reducible refine ok_findSome _ ?_
    | (simp only [view_mk, view_eta])

theorem execSupplyOrder_ok {r : _} {s : _} (h_s : Ok p g (view (s))) :
    ∀ u, Machine.execSupplyOrder r s = .next u → Ok p g (view u) := by
  intro u e
  unfold Machine.execSupplyOrder at e
  first | (have e := Host.Outcome.next.inj e; subst e) | skip
  repeat' first
    | with_reducible assumption
    | with_reducible refine supplyFault_ok ?_

theorem measure_ok {s : _} {i : _} {d : _} (h_s : Ok p g (view (s))) :
    Ok p g (view (Machine.measure s i d)) := by
  unfold Machine.measure
  repeat' first
    | with_reducible assumption
    | with_reducible apply ok_foldl
    | with_reducible apply ok_foldl_fst
    | with_reducible apply ok_ite
    | with_reducible apply ok_ite_fst
    | with_reducible apply ok_ite_snd
    | intro _
    | split
    | (with_reducible refine ok_of_pair (by assumption) ?_)
    | (with_reducible refine ok_of_pair2 (by assumption) ?_)
    | (with_reducible refine ok_of_hres (by assumption) ?_)
    | (with_reducible refine ok_of_opt2 (by assumption) ?_)
    | (with_reducible refine ok_of_some (by assumption) ?_)
    | with_reducible refine ok_findSome _ ?_
    | (simp only [view_mk, view_eta])

theorem step9_ok {s : _} {e : _} (h_s : Ok p g (view (s))) :
    Ok p g (view (Machine.step9 s e)) := by
  unfold Machine.step9
  repeat' first
    | with_reducible assumption
    | with_reducible refine linkUp_ok ?_
    | with_reducible refine logEntry_ok ?_
    | with_reducible refine measure_ok ?_
    | with_reducible apply ok_foldl
    | with_reducible apply ok_foldl_fst
    | with_reducible apply ok_ite
    | with_reducible apply ok_ite_fst
    | with_reducible apply ok_ite_snd
    | intro _
    | split
    | (with_reducible refine ok_of_pair (by assumption) ?_)
    | (with_reducible refine ok_of_pair2 (by assumption) ?_)
    | (with_reducible refine ok_of_hres (by assumption) ?_)
    | (with_reducible refine ok_of_opt2 (by assumption) ?_)
    | (with_reducible refine ok_of_some (by assumption) ?_)
    | with_reducible refine ok_findSome _ ?_
    | (simp only [view_mk, view_eta])

theorem startRecovery_ok {s : _} {e : _} (h_s : Ok p g (view (s))) :
    Ok p g (view (Machine.startRecovery s e)) := by
  unfold Machine.startRecovery
  repeat' first
    | with_reducible assumption
    | with_reducible refine step9_ok ?_
    | with_reducible apply ok_foldl
    | with_reducible apply ok_foldl_fst
    | with_reducible apply ok_ite
    | with_reducible apply ok_ite_fst
    | with_reducible apply ok_ite_snd
    | intro _
    | split
    | (with_reducible refine ok_of_pair (by assumption) ?_)
    | (with_reducible refine ok_of_pair2 (by assumption) ?_)
    | (with_reducible refine ok_of_hres (by assumption) ?_)
    | (with_reducible refine ok_of_opt2 (by assumption) ?_)
    | (with_reducible refine ok_of_some (by assumption) ?_)
    | with_reducible refine ok_findSome _ ?_
    | (simp only [view_mk, view_eta])

theorem execLimiterHoldEnd_ok {hottestC : _} {s : _} (h_s : Ok p g (view (s))) :
    ∀ u, Machine.execLimiterHoldEnd hottestC s = .next u → Ok p g (view u) := by
  intro u e
  unfold Machine.execLimiterHoldEnd at e
  first | (have e := Host.Outcome.next.inj e; subst e) | skip
  repeat' first
    | with_reducible assumption
    | with_reducible apply ok_foldl
    | with_reducible apply ok_foldl_fst
    | with_reducible apply ok_ite
    | with_reducible apply ok_ite_fst
    | with_reducible apply ok_ite_snd
    | intro _
    | split
    | (with_reducible refine ok_of_pair (by assumption) ?_)
    | (with_reducible refine ok_of_pair2 (by assumption) ?_)
    | (with_reducible refine ok_of_hres (by assumption) ?_)
    | (with_reducible refine ok_of_opt2 (by assumption) ?_)
    | (with_reducible refine ok_of_some (by assumption) ?_)
    | with_reducible refine ok_findSome _ ?_
    | (simp only [view_mk, view_eta])

theorem execSelfReset_ok {s : _} (h_s : Ok p g (view (s))) :
    ∀ u, Machine.execSelfReset s = .next u → Ok p g (view u) := by
  intro u e
  unfold Machine.execSelfReset at e
  first | (have e := Host.Outcome.next.inj e; subst e) | skip
  repeat' first
    | with_reducible assumption
    | with_reducible refine wholeReset_ok ?_
    | with_reducible apply ok_foldl
    | with_reducible apply ok_foldl_fst
    | with_reducible apply ok_ite
    | with_reducible apply ok_ite_fst
    | with_reducible apply ok_ite_snd
    | intro _
    | split
    | (with_reducible refine ok_of_pair (by assumption) ?_)
    | (with_reducible refine ok_of_pair2 (by assumption) ?_)
    | (with_reducible refine ok_of_hres (by assumption) ?_)
    | (with_reducible refine ok_of_opt2 (by assumption) ?_)
    | (with_reducible refine ok_of_some (by assumption) ?_)
    | with_reducible refine ok_findSome _ ?_
    | (simp only [view_mk, view_eta])

theorem burnRow_ok {s : _} {e : _} (h_s : Ok p g (view (s))) :
    Ok p g (view (Machine.burnRow s e)) := by
  unfold Machine.burnRow
  repeat' first
    | with_reducible assumption
    | with_reducible refine repairRow_ok ?_
    | with_reducible apply ok_foldl
    | with_reducible apply ok_foldl_fst
    | with_reducible apply ok_ite
    | with_reducible apply ok_ite_fst
    | with_reducible apply ok_ite_snd
    | intro _
    | split
    | (with_reducible refine ok_of_pair (by assumption) ?_)
    | (with_reducible refine ok_of_pair2 (by assumption) ?_)
    | (with_reducible refine ok_of_hres (by assumption) ?_)
    | (with_reducible refine ok_of_opt2 (by assumption) ?_)
    | (with_reducible refine ok_of_some (by assumption) ?_)
    | with_reducible refine ok_findSome _ ?_
    | (simp only [view_mk, view_eta])

theorem burnLane_ok {s : _} {e : _} (h_s : Ok p g (view (s))) :
    Ok p g (view (Machine.burnLane s e)) := by
  unfold Machine.burnLane
  repeat' first
    | with_reducible assumption
    | with_reducible refine State_setStack_ok ?_
    | with_reducible apply ok_foldl
    | with_reducible apply ok_foldl_fst
    | with_reducible apply ok_ite
    | with_reducible apply ok_ite_fst
    | with_reducible apply ok_ite_snd
    | intro _
    | split
    | (with_reducible refine ok_of_pair (by assumption) ?_)
    | (with_reducible refine ok_of_pair2 (by assumption) ?_)
    | (with_reducible refine ok_of_hres (by assumption) ?_)
    | (with_reducible refine ok_of_opt2 (by assumption) ?_)
    | (with_reducible refine ok_of_some (by assumption) ?_)
    | with_reducible refine ok_findSome _ ?_
    | (simp only [view_mk, view_eta])

theorem step2_ok {s : _} {e : _} (h_s : Ok p g (view (s))) :
    Ok p g (view (Machine.step2 s e)) := by
  unfold Machine.step2
  repeat' first
    | with_reducible assumption
    | with_reducible refine measure_ok ?_
    | with_reducible refine logEntry_ok ?_
    | with_reducible apply ok_foldl
    | with_reducible apply ok_foldl_fst
    | with_reducible apply ok_ite
    | with_reducible apply ok_ite_fst
    | with_reducible apply ok_ite_snd
    | intro _
    | split
    | (with_reducible refine ok_of_pair (by assumption) ?_)
    | (with_reducible refine ok_of_pair2 (by assumption) ?_)
    | (with_reducible refine ok_of_hres (by assumption) ?_)
    | (with_reducible refine ok_of_opt2 (by assumption) ?_)
    | (with_reducible refine ok_of_some (by assumption) ?_)
    | with_reducible refine ok_findSome _ ?_
    | (simp only [view_mk, view_eta])

theorem step1_ok {s : _} {e : _} (h_s : Ok p g (view (s))) :
    Ok p g (view (Machine.step1 s e)) := by
  have h0 : ∀ t w, Ok p g (view t) → t.fuses = s.fuses →
      Ok p g (view { t with fuses := { s.fuses with ownerHash := w } }) := fun t w h e =>
    ⟨h.pending, e ▸ h.grade, e ▸ h.serial, h.mem, h.hostMem, h.log, h.logq, h.em, h.sess, h.ctl⟩
  unfold step1
  refine measure_ok (measure_ok (ok_ite (fun _ => ?_) fun _ => h_s))
  split
  · exact ok_ite (fun _ => h0 _ _ (putSlot_ok h_s) rfl) fun _ => logEntry_ok h_s
  · exact h_s

theorem step8_ok {s : _} {e : _} (h_s : Ok p g (view (s))) :
    Ok p g (view (Machine.step8 s e)) := by
  unfold Machine.step8
  repeat' first
    | with_reducible assumption
    | with_reducible refine lock_ok ?_
    | with_reducible apply ok_foldl
    | with_reducible apply ok_foldl_fst
    | with_reducible apply ok_ite
    | with_reducible apply ok_ite_fst
    | with_reducible apply ok_ite_snd
    | intro _
    | split
    | (with_reducible refine ok_of_pair (by assumption) ?_)
    | (with_reducible refine ok_of_pair2 (by assumption) ?_)
    | (with_reducible refine ok_of_hres (by assumption) ?_)
    | (with_reducible refine ok_of_opt2 (by assumption) ?_)
    | (with_reducible refine ok_of_some (by assumption) ?_)
    | with_reducible refine ok_findSome _ ?_
    | (simp only [view_mk, view_eta])

theorem step7_ok {s : _} {e : _} (h_s : Ok p g (view (s))) :
    Ok p g (view (Machine.step7 s e)) := by
  unfold Machine.step7
  repeat' first
    | with_reducible assumption
    | with_reducible refine State_setPort_ok ?_
    | with_reducible apply ok_foldl
    | with_reducible apply ok_foldl_fst
    | with_reducible apply ok_ite
    | with_reducible apply ok_ite_fst
    | with_reducible apply ok_ite_snd
    | intro _
    | split
    | (with_reducible refine ok_of_pair (by assumption) ?_)
    | (with_reducible refine ok_of_pair2 (by assumption) ?_)
    | (with_reducible refine ok_of_hres (by assumption) ?_)
    | (with_reducible refine ok_of_opt2 (by assumption) ?_)
    | (with_reducible refine ok_of_some (by assumption) ?_)
    | with_reducible refine ok_findSome _ ?_
    | (simp only [view_mk, view_eta])

theorem burnRepairs_ok {s : _} (h_s : Ok p g (view (s))) :
    Ok p g (view (Machine.burnRepairs s)) := by
  unfold Machine.burnRepairs
  repeat' first
    | with_reducible assumption
    | with_reducible refine burnRow_ok ?_
    | with_reducible refine burnLane_ok ?_
    | with_reducible apply ok_foldl
    | with_reducible apply ok_foldl_fst
    | with_reducible apply ok_ite
    | with_reducible apply ok_ite_fst
    | with_reducible apply ok_ite_snd
    | intro _
    | split
    | (with_reducible refine ok_of_pair (by assumption) ?_)
    | (with_reducible refine ok_of_pair2 (by assumption) ?_)
    | (with_reducible refine ok_of_hres (by assumption) ?_)
    | (with_reducible refine ok_of_opt2 (by assumption) ?_)
    | (with_reducible refine ok_of_some (by assumption) ?_)
    | with_reducible refine ok_findSome _ ?_
    | (simp only [view_mk, view_eta])

theorem step5_ok {s : _} {e : _} (h_s : Ok p g (view (s))) :
    Ok p g (view (Machine.step5 s e)) := by
  unfold Machine.step5
  repeat' first
    | with_reducible assumption
    | with_reducible refine burnRepairs_ok ?_
    | with_reducible refine State_setStack_ok ?_
    | with_reducible refine markLane_ok ?_
    | with_reducible refine repairAll_ok ?_
    | with_reducible refine record_ok ?_
    | with_reducible apply ok_foldl
    | with_reducible apply ok_foldl_fst
    | with_reducible apply ok_ite
    | with_reducible apply ok_ite_fst
    | with_reducible apply ok_ite_snd
    | intro _
    | split
    | (with_reducible refine ok_of_pair (by assumption) ?_)
    | (with_reducible refine ok_of_pair2 (by assumption) ?_)
    | (with_reducible refine ok_of_hres (by assumption) ?_)
    | (with_reducible refine ok_of_opt2 (by assumption) ?_)
    | (with_reducible refine ok_of_some (by assumption) ?_)
    | with_reducible refine ok_findSome _ ?_
    | (simp only [view_mk, view_eta])

theorem step3_ok {s : _} (h_s : Ok p g (view (s))) :
    Ok p g (view (Machine.step3 s)) := by
  unfold Machine.step3
  repeat' first
    | with_reducible assumption
    | with_reducible refine State_setDie_ok ?_
    | with_reducible apply ok_foldl
    | with_reducible apply ok_foldl_fst
    | with_reducible apply ok_ite
    | with_reducible apply ok_ite_fst
    | with_reducible apply ok_ite_snd
    | intro _
    | split
    | (with_reducible refine ok_of_pair (by assumption) ?_)
    | (with_reducible refine ok_of_pair2 (by assumption) ?_)
    | (with_reducible refine ok_of_hres (by assumption) ?_)
    | (with_reducible refine ok_of_opt2 (by assumption) ?_)
    | (with_reducible refine ok_of_some (by assumption) ?_)
    | with_reducible refine ok_findSome _ ?_
    | (simp only [view_mk, view_eta])

theorem execStartSequence_ok {e : _} {s : _} (h_s : Ok p g (view (s))) :
    ∀ u, Machine.execStartSequence e s = .next u → Ok p g (view u) := by
  intro u e
  unfold Machine.execStartSequence at e
  first | (have e := Host.Outcome.next.inj e; subst e) | skip
  repeat' first
    | with_reducible assumption
    | with_reducible refine step2_ok ?_
    | with_reducible refine step1_ok ?_
    | with_reducible refine startRecovery_ok ?_
    | with_reducible refine step9_ok ?_
    | with_reducible refine step8_ok ?_
    | with_reducible refine step7_ok ?_
    | with_reducible refine step6_ok ?_
    | with_reducible refine step5_ok ?_
    | with_reducible refine step4_ok ?_
    | with_reducible refine step3_ok ?_
    | with_reducible apply ok_foldl
    | with_reducible apply ok_foldl_fst
    | with_reducible apply ok_ite
    | with_reducible apply ok_ite_fst
    | with_reducible apply ok_ite_snd
    | intro _
    | split
    | (with_reducible refine ok_of_pair (by assumption) ?_)
    | (with_reducible refine ok_of_pair2 (by assumption) ?_)
    | (with_reducible refine ok_of_hres (by assumption) ?_)
    | (with_reducible refine ok_of_opt2 (by assumption) ?_)
    | (with_reducible refine ok_of_some (by assumption) ?_)
    | with_reducible refine ok_findSome _ ?_
    | (simp only [view_mk, view_eta])

theorem execRailDroop_ok {r : _} {s : _} (h_s : Ok p g (view (s))) :
    ∀ u, Machine.execRailDroop r s = .next u → Ok p g (view u) := by
  intro u e
  unfold Machine.execRailDroop at e
  first | (have e := Host.Outcome.next.inj e; subst e) | skip
  repeat' first
    | with_reducible assumption
    | with_reducible refine supplyFault_ok ?_
    | with_reducible apply ok_foldl
    | with_reducible apply ok_foldl_fst
    | with_reducible apply ok_ite
    | with_reducible apply ok_ite_fst
    | with_reducible apply ok_ite_snd
    | intro _

theorem execPowerOn_ok {s : _} (h_s : Ok p g (view (s))) :
    ∀ u, Machine.execPowerOn s = .next u → Ok p g (view u) := by
  intro u e
  unfold Machine.execPowerOn at e
  first | (have e := Host.Outcome.next.inj e; subst e) | skip
  repeat' first
    | with_reducible assumption
    | with_reducible refine wholeReset_ok ?_
    | with_reducible apply ok_foldl
    | with_reducible apply ok_foldl_fst
    | with_reducible apply ok_ite
    | with_reducible apply ok_ite_fst
    | with_reducible apply ok_ite_snd
    | intro _
    | split
    | (with_reducible refine ok_of_pair (by assumption) ?_)
    | (with_reducible refine ok_of_pair2 (by assumption) ?_)
    | (with_reducible refine ok_of_hres (by assumption) ?_)
    | (with_reducible refine ok_of_opt2 (by assumption) ?_)
    | (with_reducible refine ok_of_some (by assumption) ?_)
    | with_reducible refine ok_findSome _ ?_
    | (simp only [view_mk, view_eta])

theorem execPowerDown_ok {vddCtLost : _} {s : _} (h_s : Ok p g (view (s))) :
    ∀ u, Machine.execPowerDown vddCtLost s = .next u → Ok p g (view u) := by
  intro u e
  unfold Machine.execPowerDown at e
  first | (have e := Host.Outcome.next.inj e; subst e) | skip
  repeat' first
    | with_reducible assumption
    | with_reducible refine wholeReset_ok ?_
    | with_reducible refine loseRetained_ok ?_
    | with_reducible apply ok_foldl
    | with_reducible apply ok_foldl_fst
    | with_reducible apply ok_ite
    | with_reducible apply ok_ite_fst
    | with_reducible apply ok_ite_snd
    | intro _
    | split
    | (with_reducible refine ok_of_pair (by assumption) ?_)
    | (with_reducible refine ok_of_pair2 (by assumption) ?_)
    | (with_reducible refine ok_of_hres (by assumption) ?_)
    | (with_reducible refine ok_of_opt2 (by assumption) ?_)
    | (with_reducible refine ok_of_some (by assumption) ?_)
    | with_reducible refine ok_findSome _ ?_
    | (simp only [view_mk, view_eta])

theorem execPerstN_ok {low : _} {s : _} (h_s : Ok p g (view (s))) :
    ∀ u, Machine.execPerstN low s = .next u → Ok p g (view u) := by
  intro u e
  unfold Machine.execPerstN at e
  first | (have e := Host.Outcome.next.inj e; subst e) | skip
  repeat' first
    | with_reducible assumption
    | with_reducible refine resetPd15_ok ?_
    | with_reducible apply ok_foldl
    | with_reducible apply ok_foldl_fst
    | with_reducible apply ok_ite
    | with_reducible apply ok_ite_fst
    | with_reducible apply ok_ite_snd
    | intro _
    | split
    | (with_reducible refine ok_of_pair (by assumption) ?_)
    | (with_reducible refine ok_of_pair2 (by assumption) ?_)
    | (with_reducible refine ok_of_hres (by assumption) ?_)
    | (with_reducible refine ok_of_opt2 (by assumption) ?_)
    | (with_reducible refine ok_of_some (by assumption) ?_)
    | with_reducible refine ok_findSome _ ?_
    | (simp only [view_mk, view_eta])

theorem execTamperClear_ok {s : _} (h_s : Ok p g (view (s))) :
    ∀ u, Machine.execTamperClear s = .next u → Ok p g (view u) := by
  intro u e
  unfold Machine.execTamperClear at e
  first | (have e := Host.Outcome.next.inj e; subst e) | skip
  repeat' first
    | with_reducible assumption
    | with_reducible apply ok_foldl
    | with_reducible apply ok_foldl_fst
    | with_reducible apply ok_ite
    | with_reducible apply ok_ite_fst
    | with_reducible apply ok_ite_snd
    | intro _
    | split
    | (with_reducible refine ok_of_pair (by assumption) ?_)
    | (with_reducible refine ok_of_pair2 (by assumption) ?_)
    | (with_reducible refine ok_of_hres (by assumption) ?_)
    | (with_reducible refine ok_of_opt2 (by assumption) ?_)
    | (with_reducible refine ok_of_some (by assumption) ?_)
    | with_reducible refine ok_findSome _ ?_
    | (simp only [view_mk, view_eta])

theorem execLimitTrip_ok {tempC : _} {s : _} (h_s : Ok p g (view (s))) :
    ∀ u, Machine.execLimitTrip tempC s = .next u → Ok p g (view u) := by
  intro u e
  unfold Machine.execLimitTrip at e
  first | (have e := Host.Outcome.next.inj e; subst e) | skip
  repeat' first
    | with_reducible assumption
    | with_reducible refine ibi_ok ?_
    | with_reducible refine fatalReset_ok ?_
    | with_reducible apply ok_foldl
    | with_reducible apply ok_foldl_fst
    | with_reducible apply ok_ite
    | with_reducible apply ok_ite_fst
    | with_reducible apply ok_ite_snd
    | intro _
    | split
    | (with_reducible refine ok_of_pair (by assumption) ?_)
    | (with_reducible refine ok_of_pair2 (by assumption) ?_)
    | (with_reducible refine ok_of_hres (by assumption) ?_)
    | (with_reducible refine ok_of_opt2 (by assumption) ?_)
    | (with_reducible refine ok_of_some (by assumption) ?_)
    | with_reducible refine ok_findSome _ ?_
    | (simp only [view_mk, view_eta])

theorem execResetN_ok {low : _} {s : _} (h_s : Ok p g (view (s))) :
    ∀ u, Machine.execResetN low s = .next u → Ok p g (view u) := by
  intro u e
  unfold Machine.execResetN at e
  first | (have e := Host.Outcome.next.inj e; subst e) | skip
  repeat' first
    | with_reducible assumption
    | with_reducible refine wholeReset_ok ?_
    | with_reducible apply ok_foldl
    | with_reducible apply ok_foldl_fst
    | with_reducible apply ok_ite
    | with_reducible apply ok_ite_fst
    | with_reducible apply ok_ite_snd
    | intro _
    | split
    | (with_reducible refine ok_of_pair (by assumption) ?_)
    | (with_reducible refine ok_of_pair2 (by assumption) ?_)
    | (with_reducible refine ok_of_hres (by assumption) ?_)
    | (with_reducible refine ok_of_opt2 (by assumption) ?_)
    | (with_reducible refine ok_of_some (by assumption) ?_)
    | with_reducible refine ok_findSome _ ?_
    | (simp only [view_mk, view_eta])

end Sys2Proof.Laws
end

