-- ==== Sys2Proof/Laws/KeepTensor.lean ====
section
/-!
SUPPORT. What the operations of Machine/Tensor.lean keep of the view of Laws/Good.lean.
-/
namespace Sys2Proof.Laws

open Sys2Proof.Machine

variable {p : List Instr} {g : Grade × W64}

theorem tileRun_ok {s : _} {b : _} {run : _} {ms : _} (h_s : Ok p g (view (s))) :
    Ok p g (view (Machine.tileRun s b run ms).1) := by
  unfold Machine.tileRun
  repeat' first
    | with_reducible assumption
    | with_reducible refine State_updBlk_ok ?_
    | with_reducible refine record_ok ?_
    | with_reducible apply ok_foldl
    | with_reducible apply ok_foldl_fst
    | with_reducible apply ok_foldl_tw
    | with_reducible apply ok_foldl_sw
    | with_reducible apply ok_ite_tw
    | with_reducible apply ok_ite
    | with_reducible apply ok_ite_fst
    | with_reducible apply ok_ite_snd
    | intro _
    | split
    | (with_reducible refine ok_of_pair (by assumption) ?_)
    | (with_reducible refine ok_of_pair2 (by assumption) ?_)
    | (with_reducible refine ok_of_hres (by assumption) ?_)
    | (with_reducible refine ok_of_opt2 (by assumption) ?_)
    | (with_reducible refine ok_of_some (by assumption) ?_)
    | with_reducible refine ok_findSome _ ?_
    | (simp only [view_mk, view_eta])

theorem tileWrite_ok {v : _} {w : _} {a2 : _} {bt : _} {bn : _} {ti : _} {tj : _} {overlap : _} (h_v : Ok p g (view (v))) (h_w : Ok p g (view (w).s)) :
    Ok p g (view (Machine.tileWrite v w a2 bt bn ti tj overlap).s) := by
  unfold Machine.tileWrite
  repeat' first
    | with_reducible assumption
    | with_reducible refine drewN_ok ?_
    | with_reducible refine touch_ok ?_
    | with_reducible refine wrRow_ok ?_
    | with_reducible apply ok_foldl
    | with_reducible apply ok_foldl_fst
    | with_reducible apply ok_foldl_tw
    | with_reducible apply ok_foldl_sw
    | with_reducible apply ok_ite_tw
    | with_reducible apply ok_ite
    | with_reducible apply ok_ite_fst
    | with_reducible apply ok_ite_snd
    | intro _
    | split
    | (with_reducible refine ok_of_pair (by assumption) ?_)
    | (with_reducible refine ok_of_pair2 (by assumption) ?_)
    | (with_reducible refine ok_of_hres (by assumption) ?_)
    | (with_reducible refine ok_of_opt2 (by assumption) ?_)
    | (with_reducible refine ok_of_some (by assumption) ?_)
    | with_reducible refine ok_findSome _ ?_
    | (simp only [view_mk, view_eta])

theorem tileGo_ok {v : _} {a1 : _} {b : _} {mm : _} {overlap : _} {bt : _} {bn : _} {tile : _} {ti : _} {tj : _} {a10 : _} {a11 : _} {a12 : _} (h_v : Ok p g (view (v))) (h_a12 : Ok p g (view (a12).s)) :
    Ok p g (view (Machine.tileGo v a1 b mm overlap bt bn tile ti tj a10 a11 a12).s) := by
  induction a10 generalizing a11 a12 with
  | zero => exact h_a12
  | succ n ih =>
    unfold tileGo
    repeat' first
      | with_reducible assumption
      | with_reducible apply ih
      | with_reducible apply touch_ok
      | with_reducible apply tileRun_ok
      | with_reducible apply tileWrite_ok
      | with_reducible apply record_ok
      | with_reducible apply State_updBlk_ok
      | with_reducible apply ok_ite
      | intro _
      | split
      | (with_reducible refine ok_of_pair (by assumption) ?_)
      | (simp only [view_mk, view_eta])
      | dsimp only

theorem tscanRun_ok {s : _} {b : _} {f : _} (h_s : Ok p g (view (s))) :
    Ok p g (view (Machine.tscanRun s b f)) := by
  unfold Machine.tscanRun
  repeat' first
    | with_reducible assumption
    | with_reducible refine withTouch_ok ?_ ?_
    | with_reducible refine wrT_ok ?_
    | with_reducible refine finishOut_ok ?_
    | with_reducible apply ok_foldl
    | with_reducible apply ok_foldl_fst
    | with_reducible apply ok_foldl_tw
    | with_reducible apply ok_foldl_sw
    | with_reducible apply ok_ite_tw
    | with_reducible apply ok_ite
    | with_reducible apply ok_ite_fst
    | with_reducible apply ok_ite_snd
    | intro _
    | split
    | (with_reducible refine ok_of_pair (by assumption) ?_)
    | (with_reducible refine ok_of_pair2 (by assumption) ?_)
    | (with_reducible refine ok_of_hres (by assumption) ?_)
    | (with_reducible refine ok_of_opt2 (by assumption) ?_)
    | (with_reducible refine ok_of_some (by assumption) ?_)
    | with_reducible refine ok_findSome _ ?_
    | (simp only [view_mk, view_eta])

theorem tmulTiles_ok {v : _} {b : _} {a2 : _} {mm : _} {overlap : _} (h_v : Ok p g (view (v))) :
    Ok p g (view (Machine.tmulTiles v b a2 mm overlap).s) := by
  unfold Machine.tmulTiles
  repeat' first
    | with_reducible assumption
    | with_reducible refine drewN_ok ?_
    | with_reducible refine tileGo_ok ?_ ?_
    | with_reducible apply ok_foldl
    | with_reducible apply ok_foldl_fst
    | with_reducible apply ok_foldl_tw
    | with_reducible apply ok_foldl_sw
    | with_reducible apply ok_ite_tw
    | with_reducible apply ok_ite
    | with_reducible apply ok_ite_fst
    | with_reducible apply ok_ite_snd
    | intro _
    | split
    | (with_reducible refine ok_of_pair (by assumption) ?_)
    | (with_reducible refine ok_of_pair2 (by assumption) ?_)
    | (with_reducible refine ok_of_hres (by assumption) ?_)
    | (with_reducible refine ok_of_opt2 (by assumption) ?_)
    | (with_reducible refine ok_of_some (by assumption) ?_)
    | with_reducible refine ok_findSome _ ?_
    | (simp only [view_mk, view_eta])

theorem tmulRun_ok {s : _} {b : _} {f : _} {mm : _} (h_s : Ok p g (view (s))) :
    Ok p g (view (Machine.tmulRun s b f mm)) := by
  unfold Machine.tmulRun
  repeat' first
    | with_reducible assumption
    | with_reducible refine updInFl_ok ?_
    | with_reducible refine withTouch_ok ?_ ?_
    | with_reducible refine tmulTiles_ok ?_
    | with_reducible refine setFlags_ok ?_
    | with_reducible refine finishOut_ok ?_
    | with_reducible refine finishFault_ok ?_
    | with_reducible apply ok_foldl
    | with_reducible apply ok_foldl_fst
    | with_reducible apply ok_foldl_tw
    | with_reducible apply ok_foldl_sw
    | with_reducible apply ok_ite_tw
    | with_reducible apply ok_ite
    | with_reducible apply ok_ite_fst
    | with_reducible apply ok_ite_snd
    | intro _
    | split
    | (with_reducible refine ok_of_pair (by assumption) ?_)
    | (with_reducible refine ok_of_pair2 (by assumption) ?_)
    | (with_reducible refine ok_of_hres (by assumption) ?_)
    | (with_reducible refine ok_of_opt2 (by assumption) ?_)
    | (with_reducible refine ok_of_some (by assumption) ?_)
    | with_reducible refine ok_findSome _ ?_
    | (simp only [view_mk, view_eta])

theorem execTmul_ok {b : _} {mm : _} {s : _} (h_s : Ok p g (view (s))) :
    ∀ u, Machine.execTmul b mm s = .next u → Ok p g (view u) := by
  intro u e
  unfold Machine.execTmul at e
  first | (have e := Host.Outcome.next.inj e; subst e) | skip
  repeat' first
    | with_reducible assumption
    | with_reducible refine engine_ok ?_ ?_
    | with_reducible refine tmulRun_ok ?_
    | with_reducible apply ok_foldl
    | with_reducible apply ok_foldl_fst
    | with_reducible apply ok_foldl_tw
    | with_reducible apply ok_foldl_sw
    | with_reducible apply ok_ite_tw
    | with_reducible apply ok_ite
    | with_reducible apply ok_ite_fst
    | with_reducible apply ok_ite_snd
    | intro _

theorem execTscan_ok {b : _} {s : _} (h_s : Ok p g (view (s))) :
    ∀ u, Machine.execTscan b s = .next u → Ok p g (view u) := by
  intro u e
  unfold Machine.execTscan at e
  first | (have e := Host.Outcome.next.inj e; subst e) | skip
  repeat' first
    | with_reducible assumption
    | with_reducible refine engine_ok ?_ ?_
    | with_reducible refine tscanRun_ok ?_
    | with_reducible apply ok_foldl
    | with_reducible apply ok_foldl_fst
    | with_reducible apply ok_foldl_tw
    | with_reducible apply ok_foldl_sw
    | with_reducible apply ok_ite_tw
    | with_reducible apply ok_ite
    | with_reducible apply ok_ite_fst
    | with_reducible apply ok_ite_snd
    | intro _

end Sys2Proof.Laws
end

