-- ==== Sys2Proof/Laws/KeepVector.lean ====
section
/-!
SUPPORT. What the operations of Machine/Vector.lean keep of the view of Laws/Good.lean.
-/
namespace Sys2Proof.Laws

open Sys2Proof.Machine

variable {p : List Instr} {g : Grade × W64}

theorem maskedWrite_ok {s : _} {b : _} {idx : _} {eng : _} {reads : _} {maskedReads : _} {outs : _} {free : _} (h_s : Ok p g (view (s))) :
    Ok p g (view (Machine.maskedWrite s b idx eng reads maskedReads outs free)) := by
  unfold Machine.maskedWrite
  repeat' first
    | with_reducible assumption
    | with_reducible refine updInFl_ok ?_
    | with_reducible refine recordMasked_ok ?_
    | with_reducible refine withTouch_ok ?_ ?_
    | with_reducible refine setAside_ok ?_
    | with_reducible refine wrT_ok ?_
    | with_reducible refine setFlags_ok ?_
    | with_reducible refine keepBad_ok ?_
    | with_reducible refine finishOut_ok ?_
    | with_reducible apply ok_foldl
    | with_reducible apply ok_foldl_fst
    | with_reducible apply ok_ite
    | with_reducible apply ok_ite_fst
    | with_reducible apply ok_ite_snd
    | intro _
    | split
    | (with_reducible refine ok_of_pair (by assumption) ?_)
    | (with_reducible refine ok_of_pair2 (by assumption) ?_)
    | (with_reducible refine ok_of_hres (by assumption) ?_)
    | (with_reducible refine ok_of_opt2 (by assumption) ?_)
    | (with_reducible refine ok_of_some (by assumption) ?_)
    | with_reducible refine ok_findSome _ ?_
    | (simp only [view_mk, view_eta])

theorem vconvRun_ok {s : _} {b : _} {f : _} (h_s : Ok p g (view (s))) :
    Ok p g (view (Machine.vconvRun s b f)) := by
  unfold Machine.vconvRun
  repeat' first
    | with_reducible assumption
    | with_reducible refine maskedWrite_ok ?_

theorem execVconv_ok {b : _} {s : _} (h_s : Ok p g (view (s))) :
    ∀ u, Machine.execVconv b s = .next u → Ok p g (view u) := by
  intro u e
  unfold Machine.execVconv at e
  first | (have e := Host.Outcome.next.inj e; subst e) | skip
  repeat' first
    | with_reducible assumption
    | with_reducible refine engine_ok ?_ ?_
    | with_reducible refine vconvRun_ok ?_
    | with_reducible apply ok_foldl
    | with_reducible apply ok_foldl_fst
    | with_reducible apply ok_ite
    | with_reducible apply ok_ite_fst
    | with_reducible apply ok_ite_snd
    | intro _

theorem vredRun_ok {s : _} {b : _} {f : _} (h_s : Ok p g (view (s))) :
    Ok p g (view (Machine.vredRun s b f)) := by
  unfold Machine.vredRun
  repeat' first
    | with_reducible assumption
    | with_reducible refine maskedWrite_ok ?_

theorem execVred_ok {b : _} {s : _} (h_s : Ok p g (view (s))) :
    ∀ u, Machine.execVred b s = .next u → Ok p g (view u) := by
  intro u e
  unfold Machine.execVred at e
  first | (have e := Host.Outcome.next.inj e; subst e) | skip
  repeat' first
    | with_reducible assumption
    | with_reducible refine engine_ok ?_ ?_
    | with_reducible refine vredRun_ok ?_
    | with_reducible apply ok_foldl
    | with_reducible apply ok_foldl_fst
    | with_reducible apply ok_ite
    | with_reducible apply ok_ite_fst
    | with_reducible apply ok_ite_snd
    | intro _

theorem vexpRun_ok {s : _} {b : _} {f : _} (h_s : Ok p g (view (s))) :
    Ok p g (view (Machine.vexpRun s b f)) := by
  unfold Machine.vexpRun
  repeat' first
    | with_reducible assumption
    | with_reducible refine maskedWrite_ok ?_

theorem vopRun_ok {s : _} {b : _} {f : _} (h_s : Ok p g (view (s))) :
    Ok p g (view (Machine.vopRun s b f)) := by
  unfold Machine.vopRun
  repeat' first
    | with_reducible assumption
    | with_reducible refine maskedWrite_ok ?_

theorem execVop_ok {b : _} {s : _} (h_s : Ok p g (view (s))) :
    ∀ u, Machine.execVop b s = .next u → Ok p g (view u) := by
  intro u e
  unfold Machine.execVop at e
  first | (have e := Host.Outcome.next.inj e; subst e) | skip
  repeat' first
    | with_reducible assumption
    | with_reducible refine engine_ok ?_ ?_
    | with_reducible refine vopRun_ok ?_
    | with_reducible apply ok_foldl
    | with_reducible apply ok_foldl_fst
    | with_reducible apply ok_ite
    | with_reducible apply ok_ite_fst
    | with_reducible apply ok_ite_snd
    | intro _

theorem execVexp_ok {b : _} {s : _} (h_s : Ok p g (view (s))) :
    ∀ u, Machine.execVexp b s = .next u → Ok p g (view u) := by
  intro u e
  unfold Machine.execVexp at e
  first | (have e := Host.Outcome.next.inj e; subst e) | skip
  repeat' first
    | with_reducible assumption
    | with_reducible refine engine_ok ?_ ?_
    | with_reducible refine vexpRun_ok ?_
    | with_reducible apply ok_foldl
    | with_reducible apply ok_foldl_fst
    | with_reducible apply ok_ite
    | with_reducible apply ok_ite_fst
    | with_reducible apply ok_ite_snd
    | intro _

theorem vcompRun_ok {s : _} {b : _} {f : _} (h_s : Ok p g (view (s))) :
    Ok p g (view (Machine.vcompRun s b f)) := by
  unfold Machine.vcompRun
  repeat' first
    | with_reducible assumption
    | with_reducible refine maskedWrite_ok ?_

theorem execVcomp_ok {b : _} {s : _} (h_s : Ok p g (view (s))) :
    ∀ u, Machine.execVcomp b s = .next u → Ok p g (view u) := by
  intro u e
  unfold Machine.execVcomp at e
  first | (have e := Host.Outcome.next.inj e; subst e) | skip
  repeat' first
    | with_reducible assumption
    | with_reducible refine engine_ok ?_ ?_
    | with_reducible refine vcompRun_ok ?_
    | with_reducible apply ok_foldl
    | with_reducible apply ok_foldl_fst
    | with_reducible apply ok_ite
    | with_reducible apply ok_ite_fst
    | with_reducible apply ok_ite_snd
    | intro _

end Sys2Proof.Laws
end

