-- ==== Sys2Proof/Laws/KeepExec.lean ====
section
/-!
SUPPORT. Every command keeps the view of Good.lean, one case a command.
-/
namespace Sys2Proof.Laws

open Sys2Proof.Machine

variable {p : List Instr} {g : Grade × W64}

/-- A state of Safety's invariants, as a view. -/
theorem ok_of_safety {s : State} (m : Safety.Memories s) (b : Safety.Bounded s) :
    Ok s.pending (s.fuses.grade, s.fuses.serial) (view s) :=
  ⟨rfl, rfl, rfl, m.node, m.host, b.log, b.entries, b.emulated, b.sessions, b.control⟩

/-- What any command keeps of the view: its queue and fuses, canonical memories, logs within their capacities. -/
theorem exec_ok {c : Instr} {s : State} (h : Ok p g (view s)) : ∀ u, exec c s = .next u → Ok p g (view u) := by
  intro u hu
  cases c with
    | nop => exact execNop_ok h _ hu
    | endCmd => exact execEndCmd_ok h _ hu
    | stepCmd => exact execStepCmd_ok h _ hu
    | loop => exact execLoop_ok h _ hu
    | aop => exact execAop_ok h _ hu
    | lda => exact execLda_ok h _ hu
    | tmul => exact execTmul_ok h _ hu
    | tscan => exact execTscan_ok h _ hu
    | vop => exact execVop_ok h _ hu
    | vred => exact execVred_ok h _ hu
    | vcomp => exact execVcomp_ok h _ hu
    | vexp => exact execVexp_ok h _ hu
    | vconv => exact execVconv_ok h _ hu
    | sfact => exact execSfact_ok h _ hu
    | spat => exact execSpat_ok h _ hu
    | delta => exact execDelta_ok h _ hu
    | sin => exact execSin_ok h _ hu
    | sout => exact execSout_ok h _ hu
    | gather => exact execGather_ok h _ hu
    | scatter => exact execScatter_ok h _ hu
    | get => exact execGet_ok h _ hu
    | put => exact execPut_ok h _ hu
    | ratom => exact execRatom_ok h _ hu
    | rred => exact execRred_ok h _ hu
    | mcast => exact execMcast_ok h _ hu
    | coll => exact execColl_ok h _ hu
    | panop => exact execPanop_ok h _ hu
    | bopen => exact execBopen_ok h _ hu
    | badd => exact execBadd_ok h _ hu
    | bcryst => exact execBcryst_ok h _ hu
    | bclose => exact execBclose_ok h _ hu
    | redinto => exact execRedinto_ok h _ hu
    | copy => exact execCopy_ok h _ hu
    | digest => exact execDigest_ok h _ hu
    | signal => exact execSignal_ok h _ hu
    | waitv => exact execWaitv_ok h _ hu
    | waitvReread => exact execWaitvReread_ok h _ hu
    | waitvTimeout => exact execWaitvTimeout_ok h _ hu
    | waitt => exact execWaitt_ok h _ hu
    | waittStrobe => exact execWaittStrobe_ok h _ hu
    | flags => exact execFlags_ok h _ hu
    | epochwait => exact execEpochwait_ok h _ hu
    | quiesce => exact execQuiesce_ok h _ hu
    | read => exact execRead_ok h _ hu
    | commandIssue => exact execCommandIssue_ok h _ hu
    | commandComplete => exact execCommandComplete_ok h _ hu
    | stepBoundary => exact execStepBoundary_ok h _ hu
    | streamGrant => exact execStreamGrant_ok h _ hu
    | streamDataLanded => exact execStreamDataLanded_ok h _ hu
    | writeResponse => exact execWriteResponse_ok h _ hu
    | streamRequestTimeout => exact execStreamRequestTimeout_ok h _ hu
    | slotBoundary => exact execSlotBoundary_ok h _ hu
    | planPeriodBoundary => exact execPlanPeriodBoundary_ok h _ hu
    | planActivation => exact execPlanActivation_ok h _ hu
    | arm => exact execArm_ok h _ hu
    | cancel => exact execCancel_ok h _ hu
    | lossDetected => exact execLossDetected_ok h _ hu
    | peerSilent => exact execPeerSilent_ok h _ hu
    | filler => exact execFiller_ok h _ hu
    | putFrame => exact execPutFrame_ok h _ hu
    | getReq => exact execGetReq_ok h _ hu
    | getResp => exact execGetResp_ok h _ hu
    | atomic => exact execAtomic_ok h _ hu
    | atomicResp => exact execAtomicResp_ok h _ hu
    | reduce => exact execReduce_ok h _ hu
    | mcastFrame => exact execMcastFrame_ok h _ hu
    | collFrame => exact execCollFrame_ok h _ hu
    | bulk => exact execBulk_ok h _ hu
    | signature => exact execSignature_ok h _ hu
    | signatureTimeout => exact execSignatureTimeout_ok h _ hu
    | ptpMessage => exact execPtpMessage_ok h _ hu
    | holdover => exact execHoldover_ok h _ hu
    | locked => exact execLocked_ok h _ hu
    | timeTakeover => exact execTimeTakeover_ok h _ hu
    | ppsIn => exact execPpsIn_ok h _ hu
    | ppsOut => exact execPpsOut_ok h _ hu
    | launch => exact execLaunch_ok h _ hu
    | prepare => exact execPrepare_ok h _ hu
    | prepareResend => exact execPrepareResend_ok h _ hu
    | prepareAck => exact execPrepareAck_ok h _ hu
    | commitDeadline => exact execCommitDeadline_ok h _ hu
    | commit => exact execCommit_ok h _ hu
    | expiry => exact execExpiry_ok h _ hu
    | tGo => exact execTGo_ok h _ hu
    | cutLevelRaise => exact execCutLevelRaise_ok h _ hu
    | granuleCopy => exact execGranuleCopy_ok h _ hu
    | manifestSign => exact execManifestSign_ok h _ hu
    | mirrorAcknowledged => exact execMirrorAcknowledged_ok h _ hu
    | held => exact execHeld_ok h _ hu
    | holdLimit => exact execHoldLimit_ok h _ hu
    | holdNotice => exact execHoldNotice_ok h _ hu
    | settleWindowEnd => exact execSettleWindowEnd_ok h _ hu
    | noticeResend => exact execNoticeResend_ok h _ hu
    | hold => exact execHold_ok h _ hu
    | reset => exact execReset_ok h _ hu
    | resettingDrained => exact execResettingDrained_ok h _ hu
    | restore => exact execRestore_ok h _ hu
    | relaunch => exact execRelaunch_ok h _ hu
    | terminate => exact execTerminate_ok h _ hu
    | resume => exact execResume_ok h _ hu
    | selfReset => exact execSelfReset_ok h _ hu
    | coalesceExpiry => exact execCoalesceExpiry_ok h _ hu
    | ringRecordWrite => exact execRingRecordWrite_ok h _ hu
    | hartInstruction => exact execHartInstruction_ok h _ hu
    | hartAmo => exact execHartAmo_ok h _ hu
    | apertureAccess => exact execApertureAccess_ok h _ hu
    | apertureResponse => exact execApertureResponse_ok h _ hu
    | timerInterrupt => exact execTimerInterrupt_ok h _ hu
    | msip => exact execMsip_ok h _ hu
    | fcoHartTcmp => exact execFcoHartTcmp_ok h _ hu
    | fcoApt => exact execFcoApt_ok h _ hu
    | sv128Load => exact execSv128Load_ok h _ hu
    | sv128Store => exact execSv128Store_ok h _ hu
    | vadd => exact execVadd_ok h _ hu
    | vsub => exact execVsub_ok h _ hu
    | vmul => exact execVmul_ok h _ hu
    | vmin => exact execVmin_ok h _ hu
    | vmax => exact execVmax_ok h _ hu
    | vminu => exact execVminu_ok h _ hu
    | vmaxu => exact execVmaxu_ok h _ hu
    | vsadd => exact execVsadd_ok h _ hu
    | vsaddu => exact execVsaddu_ok h _ hu
    | vssub => exact execVssub_ok h _ hu
    | vssubu => exact execVssubu_ok h _ hu
    | vcmpeq => exact execVcmpeq_ok h _ hu
    | vcmplt => exact execVcmplt_ok h _ hu
    | vcmpltu => exact execVcmpltu_ok h _ hu
    | vsll => exact execVsll_ok h _ hu
    | vsrl => exact execVsrl_ok h _ hu
    | vsra => exact execVsra_ok h _ hu
    | vwmul => exact execVwmul_ok h _ hu
    | vwmulh => exact execVwmulh_ok h _ hu
    | vwmulu => exact execVwmulu_ok h _ hu
    | vwmuluh => exact execVwmuluh_ok h _ hu
    | vdot => exact execVdot_ok h _ hu
    | vdotu => exact execVdotu_ok h _ hu
    | vdotsu => exact execVdotsu_ok h _ hu
    | vmvVX => exact execVmvVX_ok h _ hu
    | vmvXV => exact execVmvXV_ok h _ hu
    | vins => exact execVins_ok h _ hu
    | vmovmsk => exact execVmovmsk_ok h _ hu
    | vziplo => exact execVziplo_ok h _ hu
    | vziphi => exact execVziphi_ok h _ hu
    | vunzipe => exact execVunzipe_ok h _ hu
    | vunzipo => exact execVunzipo_ok h _ hu
    | vand => exact execVand_ok h _ hu
    | vor => exact execVor_ok h _ hu
    | vxor => exact execVxor_ok h _ hu
    | vandn => exact execVandn_ok h _ hu
    | vmv => exact execVmv_ok h _ hu
    | vsel => exact execVsel_ok h _ hu
    | vpermb => exact execVpermb_ok h _ hu
    | vextb => exact execVextb_ok h _ hu
    | vfadd => exact execVfadd_ok h _ hu
    | vfsub => exact execVfsub_ok h _ hu
    | vfmul => exact execVfmul_ok h _ hu
    | vfdiv => exact execVfdiv_ok h _ hu
    | vfmin => exact execVfmin_ok h _ hu
    | vfmax => exact execVfmax_ok h _ hu
    | vfma => exact execVfma_ok h _ hu
    | vfnms => exact execVfnms_ok h _ hu
    | vfsqrt => exact execVfsqrt_ok h _ hu
    | vfcmpeq => exact execVfcmpeq_ok h _ hu
    | vfcmplt => exact execVfcmplt_ok h _ hu
    | vfcmple => exact execVfcmple_ok h _ hu
    | vfcvtfx => exact execVfcvtfx_ok h _ hu
    | vfcvtxf => exact execVfcvtxf_ok h _ hu
    | vfwidenlo => exact execVfwidenlo_ok h _ hu
    | vfwidenhi => exact execVfwidenhi_ok h _ hu
    | vfnarrow => exact execVfnarrow_ok h _ hu
    | rakeRead => exact execRakeRead_ok h _ hu
    | refresh x y => exact execRefresh_ok (_stack := x) (_channel := y) h _ hu
    | cxlMemRead => exact execCxlMemRead_ok h _ hu
    | cxlMemWrite => exact execCxlMemWrite_ok h _ hu
    | cxlProtocol => exact execCxlProtocol_ok h _ hu
    | configRead => exact execConfigRead_ok h _ hu
    | hotReset => exact execHotReset_ok h _ hu
    | cxlReset => exact execCxlReset_ok h _ hu
    | perstN => exact execPerstN_ok h _ hu
    | emWrite => exact execEmWrite_ok h _ hu
    | emWriteApplied => exact execEmWriteApplied_ok h _ hu
    | hrwIntMask => exact execHrwIntMask_ok h _ hu
    | hrwIntCause => exact execHrwIntCause_ok h _ hu
    | ringCons => exact execRingCons_ok h _ hu
    | leaseTake => exact execLeaseTake_ok h _ hu
    | leaseRenew => exact execLeaseRenew_ok h _ hu
    | leaseRelease => exact execLeaseRelease_ok h _ hu
    | leaseExpired => exact execLeaseExpired_ok h _ hu
    | identify => exact execIdentify_ok h _ hu
    | crashRecord => exact execCrashRecord_ok h _ hu
    | fwStage => exact execFwStage_ok h _ hu
    | fwInfo => exact execFwInfo_ok h _ hu
    | bgResult => exact execBgResult_ok h _ hu
    | bgAbort => exact execBgAbort_ok h _ hu
    | backgroundComplete => exact execBackgroundComplete_ok h _ hu
    | imageLoad => exact execImageLoad_ok h _ hu
    | verifyReport => exact execVerifyReport_ok h _ hu
    | hostVerdict => exact execHostVerdict_ok h _ hu
    | imageUnload => exact execImageUnload_ok h _ hu
    | placementGet => exact execPlacementGet_ok h _ hu
    | placementSet => exact execPlacementSet_ok h _ hu
    | planWrite => exact execPlanWrite_ok h _ hu
    | planArm => exact execPlanArm_ok h _ hu
    | ppsSecond => exact execPpsSecond_ok h _ hu
    | macsecKey => exact execMacsecKey_ok h _ hu
    | holdStatus => exact execHoldStatus_ok h _ hu
    | orphanLog => exact execOrphanLog_ok h _ hu
    | ckptDrain => exact execCkptDrain_ok h _ hu
    | ckptLoad => exact execCkptLoad_ok h _ hu
    | restoreReport => exact execRestoreReport_ok h _ hu
    | readRepairMap => exact execReadRepairMap_ok h _ hu
    | readErrorCounts => exact execReadErrorCounts_ok h _ hu
    | listCandidates => exact execListCandidates_ok h _ hu
    | markLane => exact execMarkLane_ok h _ hu
    | repairRow => exact execRepairRow_ok h _ hu
    | remapLane => exact execRemapLane_ok h _ hu
    | marginTest => exact execMarginTest_ok h _ hu
    | patternTest => exact execPatternTest_ok h _ hu
    | powerCap => exact execPowerCap_ok h _ hu
    | healthReport => exact execHealthReport_ok h _ hu
    | healthLoad => exact execHealthLoad_ok h _ hu
    | maintBegin => exact execMaintBegin_ok h _ hu
    | maintEnd => exact execMaintEnd_ok h _ hu
    | watchdogExpiry => exact execWatchdogExpiry_ok h _ hu
    | powerOn => exact execPowerOn_ok h _ hu
    | resetN => exact execResetN_ok h _ hu
    | startSequence => exact execStartSequence_ok h _ hu
    | tamper => exact execTamper_ok h _ hu
    | tamperClear => exact execTamperClear_ok h _ hu
    | supplyOrder => exact execSupplyOrder_ok h _ hu
    | railDroop => exact execRailDroop_ok h _ hu
    | limitTrip => exact execLimitTrip_ok h _ hu
    | limiterHoldEnd => exact execLimiterHoldEnd_ok h _ hu
    | hwThrottle => exact execHwThrottle_ok h _ hu
    | throttle => exact execThrottle_ok h _ hu
    | avsSettled => exact execAvsSettled_ok h _ hu
    | avsRetry => exact execAvsRetry_ok h _ hu
    | dailyRecord => exact execDailyRecord_ok h _ hu
    | idcode => exact execIdcode_ok h _ hu
    | bypass => exact execBypass_ok h _ hu
    | samplePreload => exact execSamplePreload_ok h _ hu
    | extest => exact execExtest_ok h _ hu
    | dbgChallenge => exact execDbgChallenge_ok h _ hu
    | dbgToken => exact execDbgToken_ok h _ hu
    | dbgStatus => exact execDbgStatus_ok h _ hu
    | i3cPrivateRead => exact execI3cPrivateRead_ok h _ hu
    | entdaa => exact execEntdaa_ok h _ hu
    | setdasa => exact execSetdasa_ok h _ hu
    | getVersion => exact execGetVersion_ok h _ hu
    | getCapabilities => exact execGetCapabilities_ok h _ hu
    | negotiateAlgorithms => exact execNegotiateAlgorithms_ok h _ hu
    | getDigests => exact execGetDigests_ok h _ hu
    | getCertificate => exact execGetCertificate_ok h _ hu
    | challenge => exact execChallenge_ok h _ hu
    | getMeasurements => exact execGetMeasurements_ok h _ hu
    | keyExchange => exact execKeyExchange_ok h _ hu
    | finish => exact execFinish_ok h _ hu
    | heartbeat => exact execHeartbeat_ok h _ hu
    | keyUpdate => exact execKeyUpdate_ok h _ hu
    | endSession => exact execEndSession_ok h _ hu
    | ideKm => exact execIdeKm_ok h _ hu
    | timNowNs => exact execTimNowNs_ok h _ hu
    | satCounterRead => exact execSatCounterRead_ok h _ hu
    | blkFlags => exact execBlkFlags_ok h _ hu
    | panFlags => exact execPanFlags_ok h _ hu
    | registerWrite => exact execRegisterWrite_ok h _ hu
    | portDown => exact execPortDown_ok h _ hu
    | portUp => exact execPortUp_ok h _ hu
    | hostLinkUp => exact execHostLinkUp_ok h _ hu
    | announceReceiptTimeout => exact execAnnounceReceiptTimeout_ok h _ hu
    | bmcaExclusionEnd => exact execBmcaExclusionEnd_ok h _ hu
    | commitResend => exact execCommitResend_ok h _ hu
    | powerDown => exact execPowerDown_ok h _ hu
    | restartEnd => exact execRestartEnd_ok h _ hu
    | cxlCacheSnoop => exact execCxlCacheSnoop_ok h _ hu
    | localCacheMissFill => exact execLocalCacheMissFill_ok h _ hu
    | esmc => exact execEsmc_ok h _ hu

end Sys2Proof.Laws
end

