-- ==== Sys2Proof/Laws/KeepParts.lean ====
section
/-!
SUPPORT. What the operations of Machine/Parts.lean keep of the view of Laws/Good.lean.
-/
namespace Sys2Proof.Laws

open Sys2Proof.Machine

variable {p : List Instr} {g : Grade × W64}

theorem coreFails_ok {s : _} {core : _} (h_s : Ok p g (view (s))) :
    Ok p g (view (Machine.coreFails s core)) := by
  unfold Machine.coreFails
  repeat' first
    | with_reducible assumption
    | with_reducible refine State_updHart_ok ?_
    | with_reducible refine record_ok ?_
    | with_reducible refine holdAtBoundary_ok ?_
    | with_reducible refine enterHolding_ok ?_
    | with_reducible apply ok_foldl
    | with_reducible apply ok_foldl_fst
    | with_reducible apply ok_ite
    | with_reducible apply ok_ite_fst
    | with_reducible apply ok_ite_snd
    | intro _

theorem meetPart_ok {s : _} {a1 : _} (h_s : Ok p g (view (s))) :
    Ok p g (view (Machine.meetPart s a1)) := by
  unfold Machine.meetPart
  repeat' first
    | with_reducible assumption
    | with_reducible refine record_ok ?_
    | with_reducible refine regionFatal_ok ?_
    | with_reducible refine nodeFatal_ok ?_
    | with_reducible refine retireBlock_ok ?_
    | with_reducible refine coreFails_ok ?_
    | with_reducible apply ok_foldl
    | with_reducible apply ok_foldl_fst
    | with_reducible apply ok_ite
    | with_reducible apply ok_ite_fst
    | with_reducible apply ok_ite_snd
    | intro _
    | split

theorem unprompted_ok {s : _} (h_s : Ok p g (view (s))) :
    Ok p g (view (Machine.unprompted s)) := by
  unfold Machine.unprompted
  repeat' first
    | with_reducible assumption
    | with_reducible refine drainAll_ok ?_
    | with_reducible refine idle_ok ?_
    | with_reducible refine meetPart_ok ?_
    | with_reducible apply ok_foldl
    | with_reducible apply ok_foldl_fst
    | with_reducible apply ok_ite
    | with_reducible apply ok_ite_fst
    | with_reducible apply ok_ite_snd
    | intro _
    | split
    | (with_reducible refine ok_of_pair (by assumption) ?_)
    | (with_reducible refine ok_of_pair2 (by assumption) ?_)
    | (with_reducible refine ok_of_hres (by assumption) ?_)
    | (with_reducible refine ok_of_opt2 (by assumption) ?_)
    | (with_reducible refine ok_of_some (by assumption) ?_)
    | with_reducible refine ok_findSome _ ?_
    | (simp only [view_mk, view_eta])

end Sys2Proof.Laws
end

