-- ==== Sys2Proof/Laws/KeepVerify.lean ====
section
/-!
SUPPORT. What the operations of Machine/Verify.lean keep of the view of Laws/Good.lean.
-/
namespace Sys2Proof.Laws

open Sys2Proof.Machine

variable {p : List Instr} {g : Grade × W64}

theorem verifierNode_ok {s : _} {img : _} (h_s : Ok p g (view (s))) :
    Ok p g (view (Machine.verifierNode s img)) := by
  exact ⟨h_s.pending, h_s.grade, h_s.serial, rfl, rfl, h_s.log, h_s.logq, h_s.em, h_s.sess, h_s.ctl⟩

end Sys2Proof.Laws
end

