-- ==== Sys2Proof/Laws/Pan.lean ====
section
/-!
SUPPORT. What a command of a pan engine, or one that moves bytes piece by piece, does as a whole.
-/
namespace Sys2Proof.Laws
open Sys2Proof.Machine

/-- `t` is `s` but for memory, host memory, line faults, reservations, the count of decoded lines and the stacks'
flags. -/
def OnlyPan (s t : State) : Prop :=
  t = { s with
    mem := t.mem, host := t.host, lineFault := t.lineFault, harts := t.harts, stk := t.stk
    decoded := t.decoded } ∧
  ∀ n, t.stack n = { s.stack n with flags := (t.stack n).flags }

theorem OnlyPan.refl (s : State) : OnlyPan s s := ⟨rfl, fun _ => rfl⟩

theorem OnlyPan.trans {s t u : State} (a : OnlyPan s t) (b : OnlyPan t u) : OnlyPan s u := by
  refine ⟨?_, fun n => ?_⟩
  · rw [b.1, a.1]
  · rw [b.2 n, a.2 n]

theorem OnlyMem.pan {s t : State} (h : OnlyMem s t) : OnlyPan s t := by
  refine ⟨?_, fun n => ?_⟩
  · rw [h]
  · have : t.stk = s.stk := by rw [h]
    simp only [State.stack, this]

theorem OnlyPan.place {s t : State} (h : OnlyPan s t) (a : Nat) : Machine.place t a = Machine.place s a := by
  rw [h.1]
  rfl

theorem OnlyPan.copied {s t : State} (h : OnlyPan s t) (c : ∀ n, (s.stack n).ckPending = []) (n : Nat) :
    (t.stack n).ckPending = [] := by
  rw [h.2 n]
  exact c n

theorem onlyPan_setPanFlags (s : State) (k : Nat) (f : Fl) : OnlyPan s (setPanFlags s k f) := by
  refine ⟨rfl, fun n => ?_⟩
  by_cases h : n = k
  · subst h
    rw [setPanFlags, stack_setStack]
  · rw [setPanFlags, stack_setStack_of_ne _ h]

@[simp] theorem rd_setPanFlags (s : State) (k : Nat) (f : Fl) (a : Nat) : rd (setPanFlags s k f) a = rd s a := rfl

/-- A state without line faults stays so when bytes are written. -/
theorem wrN_clean {s : State} (h : s.lineFault = []) (c : ∀ n, (s.stack n).ckPending = []) (a : Nat) (l : List Byte) :
    (wrN s a l).lineFault = [] := by
  simp [wrN, stallCopy_none c, clearFaults, h]

/-- Writes one after the other, each of a piece of memory: every byte outside the pieces is as before. -/
theorem steps_frame {α : Type} {s : State} (c : ∀ n, (s.stack n).ckPending = []) (l : List α) (g : State → α → State)
    (run : α → Run)
    (hg : ∀ u x, x ∈ l → (∀ n, (u.stack n).ckPending = []) → OnlyPan u (g u x) ∧
      ∀ a, Safety.Outside u [run x] a → rd (g u x) a = rd u a) :
    OnlyPan s (l.foldl g s) ∧ ∀ a, Safety.Outside s (l.map run) a → rd (l.foldl g s) a = rd s a := by
  have key : ∀ (l : List α) (u : State), (∀ u x, x ∈ l → (∀ n, (u.stack n).ckPending = []) → OnlyPan u (g u x) ∧
      ∀ a, Safety.Outside u [run x] a → rd (g u x) a = rd u a) → OnlyPan s u →
      OnlyPan s (l.foldl g u) ∧ ∀ a, Safety.Outside s (l.map run) a → rd (l.foldl g u) a = rd u a := by
    intro l
    induction l with
    | nil => exact fun u _ h => ⟨h, fun _ _ => rfl⟩
    | cons x l ih =>
      intro u hg h
      obtain ⟨h1, h2⟩ := hg u x List.mem_cons_self (h.copied c)
      have I := ih (g u x) (fun u y hy => hg u y (List.mem_cons_of_mem _ hy)) (h.trans h1)
      refine ⟨I.1, fun a ha => ?_⟩
      rw [List.foldl_cons, I.2 a fun r hr => ha r (List.mem_cons_of_mem _ hr)]
      apply h2
      intro r hr i hi
      rw [h.place, h.place]
      exact ha r (by simp only [List.mem_singleton] at hr; simp [hr]) i hi
  exact key l s hg (OnlyPan.refl s)

/-- A command of a pan engine that writes memory and flags and finishes: it stands finished, and nothing else changes but
the bytes that its writes changed. -/
theorem pan_ends {s w : State} {b : Blk} {q : Qc} {f : InFl} (hm : f ∈ (s.q b q).inflight) (hd : f.done = none)
    (K : OnlyPan s w) (br : List BrineEnt) (n : Nat) (st : Status) (bs : List Byte) (runs : List Run)
    (hr : ∀ a, Safety.Outside s runs a → rd w a = rd s a) :
    let t := finishOut { w with free := n, brine := br } b q f.idx st bs
    Safety.Finished b q f st t ∧ t.mem = w.mem ∧ t.stk = w.stk ∧ t.brine = br ∧ Safety.PanOnly b q runs s t := by
  intro t
  have hb : ∀ a, ({ w with free := n, brine := br } : State).blk a = s.blk a := by
    intro a; show w.blk a = _; rw [K.1]; rfl
  have hq : ∀ r, ({ w with free := n, brine := br } : State).q b r = s.q b r := by intro r; simp only [State.q, hb]
  refine ⟨⟨{ f with started := true, done := some st, out := f.out ++ bs }, ?_, rfl, rfl, rfl⟩, rfl, rfl, rfl,
    ⟨?_, ?_, ?_, ?_, ?_, K.2, hr⟩⟩
  · simp only [t, finishOut, updInFl, q_updQ, hq]
    exact List.mem_map.2 ⟨f, hm, by simp [hd]⟩
  · obtain ⟨m, h, l, r, k, d, e⟩ : ∃ m h l r k d, w = { s with
      mem := m, host := h, lineFault := l, harts := r, stk := k, decoded := d } := ⟨_, _, _, _, _, _, K.1⟩
    subst e
    rfl
  · intro a ha
    simp only [t, finishOut, updInFl]
    rw [blk_updQ_of_ne _ _ ha, hb]
  · simp only [t, finishOut, updInFl, State.updQ, State.setQ, Block.setQueue, blk_updBlk, hb]
  · intro r hr
    simp only [t, finishOut, updInFl]
    rw [q_updQ_of_ne _ _ hr, hq]
  · simp only [t, finishOut, updInFl, q_updQ, hq]

end Sys2Proof.Laws
end

