-- ==== Sys2Proof/Laws/Stream.lean ====
section
/-!
SUPPORT. What the start of a stream does as a whole (08 R214, R224, R225, R234).
-/
namespace Sys2Proof.Laws

open Sys2Proof.Machine

/-- The sluice changes a context's state and its rush mark alone. -/
theorem sluice_frame (c : Ctx) : sluice c = { c with state := (sluice c).state, rush := (sluice c).rush } := by
  unfold sluice
  split
  · rfl
  · dsimp only
    split
    · rfl
    · split
      · rfl
      · split <;> rfl

@[simp] theorem sluice_active (c : Ctx) : (sluice c).active = c.active := by rw [sluice_frame]
@[simp] theorem sluice_oq (c : Ctx) : (sluice c).oq = c.oq := by rw [sluice_frame]
@[simp] theorem sluice_own (c : Ctx) : (sluice c).own = c.own := by rw [sluice_frame]

theorem ctx_setCtx (s : State) (b : Blk) (n m : Nat) (c : Ctx) :
    (s.setCtx b n c).ctx b m = if n = m then c else s.ctx b m := by
  simp [State.setCtx, State.ctx, Block.ctx, get_set, eq_comm]

theorem q_setCtx (s : State) (b : Blk) (n : Nat) (c : Ctx) (q : Qc) : (s.setCtx b n c).q b q = s.q b q := by
  simp [State.setCtx, State.q, Block.queue]

theorem blk_setCtx_of_ne (s : State) {a b : Blk} (h : a ≠ b) (n : Nat) (c : Ctx) : (s.setCtx b n c).blk a = s.blk a := by
  simp [State.setCtx, blk_updBlk_of_ne _ h]

/-- A context whose command has nothing left to do becomes idle, and its command finishes. -/
theorem settle_done {s : State} {b : Blk} {n : Nat} {a : Active} (h : (s.ctx b n).active = some a) (ht : a.todo = [])
    (hs : a.sent = []) (hf : a.fail = none) (hc : a.coll = false) :
    settle s b n = finish (s.setCtx b n { s.ctx b n with
      active := none, state := .idle, aged := false, losses := 0, rush := false, ring := false })
      b (ctxQ (s.ctx b n)) a.idx .ok := by
  unfold settle
  simp [h, ht, hs, hf, hc]

/-- A context whose command has something left to do stays as it is. -/
theorem settle_more {s : State} {b : Blk} {n : Nat} {a : Active} (h : (s.ctx b n).active = some a) (ht : a.todo ≠ []) :
    settle s b n = s := by
  unfold settle
  simp [h, ht]

/-- A stream that starts, its ring's PEER not above its clamp, is carried to its context, or finishes at once. -/
theorem startStream_starts {s : State} {b : Blk} {q : Qc} {f : InFl} (hm : f ∈ (s.q b q).inflight) (hd : f.done = none)
    (hq : q = .IQ ∨ q = .OQ) (n : Nat) (ring : Bool) (a : Active) (hi : a.idx = f.idx) (hc : a.coll = false)
    (hf : a.fail = none) (hs : a.sent = [])
    (hp : ¬(ring = true ∧ peerClamp (Safety.streamCtx b q f n ring a s) a <
      (Safety.streamCtx b q f n ring a s).peer.toNat)) :
    Safety.StreamStarts b q f n ring a s (startStream s b n q f ring a) := by
  let c1 := Safety.streamCtx b q f n ring a s
  let s1 := updInFl (s.setCtx b n c1) b q f.idx fun x => { x with started := true }
  have e1 : s1.ctx b n = c1 := by simp [s1, updInFl, ctx_setCtx]
  have e2 : clampCheck s1 b n = s1 := by
    unfold clampCheck
    rw [e1]
    have : ¬((c1.ring && decide (peerClamp c1 { a with pos := f.pos } < c1.peer.toNat)) = true) := by
      simp only [Bool.and_eq_true, decide_eq_true_eq]
      exact hp
    simp only [c1, Safety.streamCtx] at this ⊢
    rw [if_neg this]
  let s3 := s1.setCtx b n (sluice c1)
  have e3 : startStream s b n q f ring a = settle s3 b n := by
    show settle ((clampCheck s1 b n).setCtx b n (sluice ((clampCheck s1 b n).ctx b n))) b n = _
    rw [e2, e1]
  have c3 : s3.ctx b n = sluice c1 := by simp [s3, ctx_setCtx]
  have q3 : ∀ r, s3.q b r = s1.q b r := fun r => q_setCtx ..
  have q1 : s1.q b q = { s.q b q with inflight := (s.q b q).inflight.map fun g =>
      if g.idx = f.idx ∧ g.done = none then { g with started := true } else g } := by
    simp [s1, updInFl, q_setCtx]
  have act : (sluice c1).active = some { a with pos := f.pos } := by simp [c1, Safety.streamCtx]
  have hcq : ctxQ (sluice c1) = q := by
    rcases hq with h | h <;> simp [ctxQ, c1, Safety.streamCtx, h]
  have b3 : ∀ k, k ≠ b → s3.blk k = s.blk k := by
    intro k hk
    simp [s3, s1, updInFl, blk_setCtx_of_ne _ hk, blk_updQ_of_ne _ _ hk]
  have r3 : s3 = { s with blocks := s3.blocks } := rfl
  have o3 : ∀ m, m ≠ n → s3.ctx b m = s.ctx b m := by
    intro m hmn
    simp [s3, s1, updInFl, ctx_setCtx, Ne.symm hmn]
  have w3 : ∀ r, r ≠ q → s3.q b r = s.q b r := by
    intro r hr
    rw [q3]
    simp [s1, updInFl, q_updQ_of_ne _ _ hr, q_setCtx]
  clear_value s3
  by_cases ht : a.todo = []
  · have e4 : settle s3 b n = finish (s3.setCtx b n { sluice c1 with
        active := none, state := .idle, aged := false, losses := 0, rush := false, ring := false }) b q f.idx .ok := by
      have := settle_done (s := s3) (b := b) (n := n) (a := { a with pos := f.pos }) (by rw [c3, act]) ht hs hf hc
      rw [this, c3, hcq, ← hi]
    rw [e3, e4]
    refine ⟨fun h => absurd ht h, fun _ => ⟨⟨{ f with started := true, done := some .ok }, ?_, rfl, rfl, rfl⟩, ?_, ?_⟩,
      ?_, ?_, ?_, ?_⟩
    · simp only [finish, updInFl, q_updQ, q_setCtx, q3, q1, List.map_map]
      exact List.mem_map.2 ⟨f, hm, by simp [hd]⟩
    · simp [finish, updInFl, ctx_setCtx]
    · simp [finish, updInFl, ctx_setCtx]
    · intro m hmn
      simp [finish, updInFl, ctx_setCtx, Ne.symm hmn, o3 m hmn]
    · intro r hr
      simp [finish, updInFl, q_updQ_of_ne _ _ hr, q_setCtx, w3 r hr]
    · intro k hk
      simp [finish, updInFl, blk_updQ_of_ne _ _ hk, blk_setCtx_of_ne _ hk, b3 k hk]
    · obtain ⟨B, hB⟩ : ∃ B, s3 = { s with blocks := B } := ⟨_, r3⟩
      subst hB
      rfl
  · have e4 : settle s3 b n = s3 := settle_more (a := { a with pos := f.pos }) (by rw [c3, act]) ht
    rw [e3, e4]
    refine ⟨fun _ => ⟨c3, { f with started := true }, ?_, rfl, rfl, rfl, hd⟩, fun h => absurd h ht, o3, w3, b3, r3⟩
    rw [q3, q1]
    exact List.mem_map.2 ⟨f, hm, by simp [hd]⟩

end Sys2Proof.Laws
end

