-- ==== Sys2Proof/WellFormed.lean ====
section
/-!
DEFINITION. Which commands are well formed: their operands name units and lengths that exist in the node. A command
that is not well formed names nothing the spec describes; `exec` gives it no effect beyond what its row says of an
absent unit.
-/
namespace Sys2Proof

/-- A logical block number as blocks are named in the NPA map: 0 to 63 by slot, of which a region has at most 32 (01
R24, Table 01.4). -/
def Blk.wf (b : Blk) : Bool := b.block.toNat < 32

/-- A stack is 0 to 11 (01 R17). -/
def stackWf (s : BitVec 4) : Bool := s.toNat < 12

/-- A frame carries whole lines and one line check a line (02 *The Ngaiz frame*), at most 128 lines (R49). -/
def Frame.wf (f : Frame) : Bool :=
  f.data.length % 64 == 0 && f.lchk.length == f.data.length / 64 && f.data.length ≤ 8192

/-- Widths B, H and W only (10 Table 10.6: the widening operations). -/
def SvW.widens : SvW → Bool
  | .b | .h | .w => true
  | .d => false

/-- Widths B and H only (10 Table 10.6: the dot products). -/
def SvW.dots : SvW → Bool
  | .b | .h => true
  | _ => false

/-- Elements of a 128-bit register (10 R277). -/
def SvW.count : SvW → Nat
  | .b => 16 | .h => 8 | .w => 4 | .d => 2

/-- An access of the aperture has a size it allows (09 R247). -/
def apSizeWf (n : Nat) : Bool := n == 1 || n == 2 || n == 4 || n == 8 || n == 16

/-- Whether a command's operands exist. -/
def Instr.wf : Instr → Bool
  | .nop b _ | .endCmd b _ | .stepCmd b _ | .loop b _ | .aop b _ | .lda b _ | .commandIssue b _
  | .commandComplete b _ => b.wf
  | .tmul b mm => b.wf && mm.all fun m => 1 ≤ m.run && m.run ≤ 3 && m.col < 33 && m.row < 32
  | .filler f | .putFrame f | .getReq f | .getResp f | .atomic f | .atomicResp f | .reduce f | .mcastFrame f
  | .collFrame f | .signature f => f.wf
  | .bulk f subs => f.wf && subs.all Frame.wf
  | .vwmul w _ | .vwmulh w _ | .vwmulu w _ | .vwmuluh w _ => w.widens
  | .vdot w _ | .vdotu w _ | .vdotsu w _ => w.dots
  | .vmvXV w r | .vins w r => r.vs2.toNat < w.count
  | .vfwidenlo f _ | .vfwidenhi f _ => f != .fp64
  | .vfnarrow f _ => f != .fp16
  | .granuleCopy s | .rakeRead s | .refresh s _ | .ckptDrain _ _ s _ | .ckptLoad _ s _ | .readRepairMap s _
  | .readErrorCounts s _ | .listCandidates s _ | .markLane s _ _ | .repairRow s _ _ _ _ | .remapLane s _ _
  | .marginTest s _ _ | .patternTest s _ _ | .panFlags s _ => stackWf s
  | .apertureAccess _ _ n _ _ _ => apSizeWf n
  | .cxlMemWrite _ d _ => d.length ≤ 64
  | .watchdogExpiry p | .restartEnd p => p.toNat < 11
  | .dbgToken t => 384 ≤ t.length
  | .hostVerdict d _ => d.length == 64
  | .macsecKey _ _ _ _ _ salt key _ => salt.length == 12 && key.length == 32
  | .ringRecordWrite r | .ringCons r _ => r.toNat < 3
  | _ => true

end Sys2Proof
end

