-- ==== Sys2Proof/Tests/Slice0.lean ====
section
/-!
SUPPORT. Tests of the model: terms that `Instr.wf` refuses, results worked by hand from the spec, and for each
statement that has hypotheses a witness: a concrete state and operands that meet them together.
-/
namespace Sys2Proof

open Sys2Proof.Machine

-- One declaration after another: each may take much memory in the kernel.
set_option Elab.async false

/-! ### Well-formedness: one term that each check of `Instr.wf` refuses -/

/-- A block that exists, and one whose number no region has. -/
def tb : Blk := ⟨0, 0⟩
def badBlk : Blk := ⟨0, 32⟩

/-- A header with no payload, of an opcode, and the frame that it makes on line 0. -/
def tHdr (op : Byte) : NgHdr :=
  ⟨1, 0, false, false, false, false, true, op, 0, 7, 0xFFFF, 2, 0, 0, 0, 0, 0, 0, 0, 0, 0, 0, 0, 0⟩
def tFrame (op : Byte) : Frame :=
  { port := 0, at_ := 0, fcsOk := true, macsec := .good, link := linkBlank, hdr := tHdr op, addend := 0, olds := false
    data := [], lchk := [] }

/-- A frame with data that is no whole line, one with a line check too few, and one with more than 128 lines. -/
def oddFrame (op : Byte) : Frame := { tFrame op with data := [1] }
def barFrame (op : Byte) : Frame := { tFrame op with data := List.replicate 64 0 }
def longFrame (op : Byte) : Frame :=
  { tFrame op with data := List.replicate 8256 0, lchk := List.replicate 129 0 }

def tRegs : SvRegs := ⟨0, 1, 2, 3⟩

theorem test_wf_accepts : ([.nop tb .TQ, .tmul tb [⟨0, 3, 32, 31⟩], .putFrame (tFrame 1), .vdot .h tRegs,
    .vmvXV .w tRegs, .panFlags 11 0, .watchdogExpiry 10, .ringCons 2 0] : List Instr).all Instr.wf = true := by decide
theorem test_wf_block : ([.nop badBlk .TQ, .endCmd badBlk .TQ, .stepCmd badBlk .TQ, .loop badBlk .TQ, .aop badBlk .TQ,
    .lda badBlk .TQ, .commandIssue badBlk .TQ, .commandComplete badBlk .TQ, .tmul badBlk []] : List Instr).all
    (fun i => !i.wf) = true := by decide
theorem test_wf_mismatch : ([.tmul tb [⟨0, 0, 0, 0⟩], .tmul tb [⟨0, 4, 0, 0⟩], .tmul tb [⟨0, 1, 33, 0⟩],
    .tmul tb [⟨0, 1, 0, 32⟩]] : List Instr).all (fun i => !i.wf) = true := by decide
theorem test_wf_frame_lines : ([.filler (oddFrame 0), .putFrame (barFrame 1), .getReq (oddFrame 2), .getResp (oddFrame 3),
    .atomic (barFrame 4), .atomicResp (oddFrame 5), .reduce (oddFrame 6), .mcastFrame (oddFrame 7),
    .collFrame (barFrame 8), .signature (oddFrame 9), .bulk (oddFrame 10) [], .bulk (tFrame 10) [oddFrame 1]] :
    List Instr).all (fun i => !i.wf) = true := by decide
theorem test_wf_frame_long : (longFrame 1).wf = false := by
  have h : (longFrame 1).data.length = 8256 := List.length_replicate
  unfold Frame.wf
  rw [h]
  simp
theorem test_wf_sv_widths : ([.vwmul .d tRegs, .vwmulh .d tRegs, .vwmulu .d tRegs, .vwmuluh .d tRegs, .vdot .w tRegs,
    .vdotu .d tRegs, .vdotsu .w tRegs, .vmvXV .d tRegs, .vins .d tRegs, .vfwidenlo .fp64 tRegs, .vfwidenhi .fp64 tRegs,
    .vfnarrow .fp16 tRegs] : List Instr).all (fun i => !i.wf) = true := by decide
theorem test_wf_stack : ([.granuleCopy 12, .rakeRead 12, .refresh 12 0, .ckptDrain false false 12 ⟨0, 0⟩,
    .ckptLoad false 12 ⟨0, 0⟩, .readRepairMap 12 ⟨0, 0⟩, .readErrorCounts 15 ⟨0, 0⟩, .listCandidates 12 ⟨0, 0⟩,
    .markLane 12 0 0, .repairRow 12 0 0 0 true, .remapLane 12 0 0, .marginTest 12 0 ⟨0, 0⟩, .patternTest 12 0 ⟨0, 0⟩,
    .panFlags 12 0] : List Instr).all (fun i => !i.wf) = true := by decide
theorem test_wf_lengths : ([.apertureAccess 0 .load 3 0 0 1, .watchdogExpiry 11, .restartEnd 15, .dbgToken [],
    .hostVerdict [] true, .macsecKey true 0 .tx 0 0 (List.replicate 11 0) (List.replicate 32 0) 0,
    .macsecKey true 0 .tx 0 0 (List.replicate 12 0) (List.replicate 31 0) 0, .ringRecordWrite 3, .ringCons 3 0] :
    List Instr).all (fun i => !i.wf) = true := by decide
theorem test_wf_line_write (d : Bytes) (h : d.length = 65) : (Instr.cxlMemWrite 0 d false).wf = false := by
  simp [Instr.wf, h]

/-! ### Small states for the witnesses -/

/-- An image with the given buffers and descriptors, and nothing else. -/
def tImage (bufs : List Buf) (descs : List (List Byte)) : Image :=
  { det := false, pleach := false, digest := [], bufs := bufs, descs := descs, hedges := [], stateset := none
    starts := [], pats := [], plan := none }

/-- A node that runs a job of an image past T_go, with one queue of block 0. -/
def tNode (im : Image) (q : Qc) (u : Queue) : State :=
  { host := { node := .ready, linkUp := true }
    job := { phase := .running, started := true, loadGen := 1, image := some im }
    blocks := [(0, { queues := [(q.code, u)] })] }

/-- A command of an opcode for a queue, with header bits 12 and up and its operand words, tagged by the loader. -/
def tCmd (op : Nat) (q : Qc) (hi : Nat) (w1 w2 w3 w4 w5 w6 w7 : W64) : Cmd :=
  (⟨BitVec.ofNat 64 (op + q.code * 2 ^ 8 + hi), w1, w2, w3, w4, w5, w6, w7⟩ : Cmd).tagged 1

/-- A node with one command at the front of a queue. -/
def tFront (q : Qc) (c : Cmd) : State := tNode (tImage [] []) q { state := .run, stream := [c] }

/-- A command in flight that no engine has taken up, and a node with it alone in a queue. -/
def tFly (c : Cmd) : InFl := { idx := 0, cmd := c, addends := [], loops := [0, 0, 0, 0] }
def tFlies (im : Image) (q : Qc) (c : Cmd) : State :=
  tNode im q { state := .run, stream := [c], pc := 1, inflight := [tFly c] }

/-- The 128 bytes of a descriptor with packed strides: base, number control word, counts, buffer (04 Table 04.6). -/
def tDesc (base ncw : Nat) (c0 c1 : Nat) (row : Nat) (buffer : Nat) : List Byte :=
  leBytes 8 base ++ leBytes 8 ncw ++ [c0, c1, 1, 1, 1].flatMap (leBytes 4) ++ leBytes 2 buffer ++ [2, 0] ++
    [row, row * c1, row * c1, row * c1].flatMap (leBytes 8) ++ List.replicate 16 255 ++ List.replicate 40 0

/-- What AtFront asks, as one check. -/
theorem at_front {s : State} {b : Blk} {q : Qc} {c : Cmd} {op : Nat}
    (h : (canTake s b q && fetched s b q == some c && c.opcode == op && tagOk s c && waitMet (s.blk b) q c &&
      !decodeBad s b q c && blockLive s b) = true) : Safety.AtFront s b q c op := by
  simp only [Bool.and_eq_true, beq_iff_eq, Bool.not_eq_true'] at h
  exact ⟨h.1.1.1.1.1.1, h.1.1.1.1.1.2, h.1.1.1.1.2, h.1.1.1.2, h.1.1.2, h.1.2, h.2⟩

theorem clean_tNode (im : Image) (q : Qc) (u : Queue) : Safety.Clean (tNode im q u) := ⟨rfl, fun _ => rfl⟩
theorem mailbox_ready (s : State) (n : s.host.node = .ready) (l : s.host.linkUp = true) (w : s.pwr.restarting = [])
    (b : s.host.bg = none) : Safety.Mailbox s :=
  ⟨by rw [n]; decide, l, by rw [w]; simp, b⟩

/-! ### Witnesses: queue commands -/

theorem wit_StepRunsFrontCommand : ∃ s : State, s.pending = .timNowNs :: [] := ⟨{ pending := [.timNowNs] }, rfl⟩
theorem wit_StepIdlesOnEmptyQueue :
    (State.reset.pending = [] ∧ State.reset.wcb = [] ∧ State.reset.partFaults = []) ∧
    ∃ s : State, s.pending = [] ∧ s.partFaults ≠ [] ∧ (drainAll s).host.node ≠ .halted :=
  ⟨⟨rfl, rfl, rfl⟩, { partFaults := [.mesh 0 4], host := { node := .ready } }, by decide⟩
theorem wit_StepKeepsMemoriesCanonical :
    ∃ s t : State, Safety.Memories s ∧ Safety.Bounded s ∧ step s = .next t ∧ s.mem ≠ [] ∧ s.pending ≠ [] :=
  ⟨{ mem := [(3, 7), (5, 1)], pending := [.timNowNs] }, _, ⟨by decide, by decide⟩,
    ⟨by decide, by decide, by decide, by decide, by decide⟩, rfl, by decide, by decide⟩
theorem wit_StepKeepsLogsBounded :
    ∃ s t : State, Safety.Memories s ∧ Safety.Bounded s ∧ step s = .next t ∧ s.sec.sessions.length = 4 :=
  ⟨{ sec := { sessions := List.replicate 4 ⟨1, true, 0⟩ }, pending := [.heartbeat 1] }, _, ⟨by decide, by decide⟩,
    ⟨by decide, by decide, by decide, by decide, by decide⟩, rfl, by decide⟩
theorem wit_CommandKeepsQueueAndFuses :
    ∃ s t : State, Safety.Memories s ∧ Safety.Bounded s ∧ exec .powerOn s = .next t ∧ s.fuses.grade = .B :=
  ⟨{ fuses := { grade := .B } }, _, ⟨by decide, by decide⟩, ⟨by decide, by decide, by decide, by decide, by decide⟩,
    rfl, by decide⟩

/-- A NOP of VQ that waits for two events from TQ and posts to CQ. -/
def nopCmd : Cmd := tCmd 0x00 .VQ (0x1 * 2 ^ 16 + 2 * 2 ^ 22 + 0x20 * 2 ^ 32) 0 0 0 0 0 0 0
def nopState : State :=
  { tFront .VQ nopCmd with blocks := [(0, { queues := [(1, { state := .run, stream := [nopCmd] })], ev := [(1, 3)] })] }
def stepCmdT : Cmd := tCmd 0x02 .TQ 0 0 0 0 0 0 0 0
def endCmdT : Cmd := tCmd 0x01 .CQ 0 0 0 0 0 0 0 0
theorem wit_NopStepAndEndComplete :
    (Safety.AtFront nopState tb .VQ nopCmd 0x00 ∧ nopCmd.waitCount = 2) ∧
    Safety.AtFront (tFront .TQ stepCmdT) tb .TQ stepCmdT 0x02 ∧ Safety.AtFront (tFront .CQ endCmdT) tb .CQ endCmdT 0x01 :=
  ⟨⟨at_front (by decide +kernel), by decide +kernel⟩, at_front (by decide +kernel), at_front (by decide +kernel)⟩

/-! ### Witnesses: loops and address words -/

/-- LOOP with a count, with a count of 0 in an address register, and with a count above 32 bits; AOP and LDA. -/
def loopT (w1 w2 : W64) : Cmd := tCmd 0x03 .IQ 0 w1 w2 1 0 0 0 0
def loopState (c : Cmd) : State := tNode (tImage [] []) .IQ { state := .run, stream := [c, c, c] }
def bigLoop : State :=
  tNode (tImage [] []) .IQ { state := .run, stream := List.replicate 3 (loopT 0 16), aregs := [(0, 0x1_0000_0000)] }
theorem wit_LoopOpensOrSkips :
    (∀ c ∈ [loopT 0xFFFFFFFF 0, loopT 0 0, loopT 0 16], Safety.AtFront (loopState c) tb .IQ c 0x03) ∧
    fld (loopT 0xFFFFFFFF 0).w1 0 32 = 0xFFFFFFFF ∧ fld (loopT 0 16).w3 0 16 = 1 ∧
    (((loopState (loopT 0 16)).q tb .IQ).aregs.get 0 0).toNat = 0 ∧
    Safety.AtFront bigLoop tb .IQ (loopT 0 16) 0x03 ∧ 0xFFFF_FFFF < ((bigLoop.q tb .IQ).aregs.get 0 0).toNat := by
  refine ⟨?_, by decide +kernel, by decide +kernel, by decide +kernel, at_front (by decide +kernel), by decide +kernel⟩
  intro c hc
  simp only [List.mem_cons, List.not_mem_nil, or_false] at hc
  rcases hc with rfl | rfl | rfl <;> exact at_front (by decide +kernel)

/-- AOP: A1 = 5 (MOV), then A2 = A1 + A1; and one with an LDA at A0 = 0. -/
def aopCmdT : Cmd := tCmd 0x04 .TQ 0 0x0000_0005_0080_010B 0x0000_0000_0001_0201 0 0 0 0 0
def ldaCmdT : Cmd := tCmd 0x04 .TQ 0 0x0000_0008_0080_030C 0 0 0 0 0 0
def ldaState : State := tNode (tImage [⟨0, 4096, 0, 0, 1, 0⟩] []) .TQ { state := .run, stream := [ldaCmdT] }

/-- A VOP that negates 4 elements of FP32 from the block's store to the block's store, and a PANOP that adds in a
stack. -/
def vopImage : Image :=
  tImage [⟨0x200_0000_0000, 4096, 0, 1, 3, 0⟩, ⟨0, 4096, 1, 0, 3, 0⟩]
    [tDesc 0x200_0000_0000 1 4 1 16 0, tDesc 0x200_0000_0040 1 4 1 16 0, tDesc 0 12 4 1 32 1, tDesc 256 12 4 1 32 1]
def vopCmdT : Cmd := tCmd 0x20 .VQ 0 0 0xFFFFF 0xFFFFF 1 0x07 0 0
def panCmdT : Cmd := tCmd 0x57 .OQ 0 2 3 0xFFFFF 0x01 0 0 0
def issueState (q : Qc) (c : Cmd) : State := tNode vopImage q { state := .run, stream := [c] }

theorem wit_AddressUnitWordsRunInOrder :
    (Safety.AtFront (tFront .TQ aopCmdT) tb .TQ aopCmdT 0x04 ∧ hasLda aopCmdT = false) ∧
    (Safety.AtFront ldaState tb .TQ ldaCmdT 0x04 ∧ hasLda ldaCmdT = true ∧ (ldaState.q tb .TQ).inflight = [] ∧
      ldaState.lineFault = [] ∧
      ∀ a : SMap W64, a = [] → let npa := ldaAddr (ldaState.q tb .TQ) a ldaCmdT.w1
        npa % 8 = 0 ∧ ldaOk ldaState tb npa = true) ∧
    (ldaCmdT.words.drop 1).all (fun w => aopCode w == 0) = true := by
  refine ⟨⟨at_front (by decide +kernel), by decide +kernel⟩,
    ⟨at_front (by decide +kernel), by decide +kernel, rfl, rfl, fun a h => ?_⟩, by decide +kernel⟩
  subst h
  exact ⟨by decide +kernel, by decide +kernel⟩

/-- What CommandIssueEntersFlight asks of a command at the fetch point. -/
def issues (s : State) (q : Qc) (c : Cmd) : Prop :=
  Safety.AtFront s tb q c c.opcode ∧ 0x05 ≤ c.opcode ∧ ctxBusy s tb c = false ∧ unitBusy s tb q (mkInFl s tb q c) = false ∧
    cmdIssue (consumed s tb q c) tb (mkInFl s tb q c) = []
theorem wit_CommandIssueEntersFlight :
    (issues (issueState .VQ vopCmdT) .VQ vopCmdT ∧ vopCmdT.opcode ≠ 0x57) ∧
    (issues (issueState .OQ panCmdT) .OQ panCmdT ∧ panCmdT.opcode = 0x57) := by
  refine ⟨⟨⟨at_front ?_, ?_, ?_, ?_, ?_⟩, ?_⟩, ⟨at_front ?_, ?_, ?_, ?_, ?_⟩, ?_⟩ <;> decide +kernel

/-- A command in flight of an opcode that has finished with a status, with all of CommandComplete's flags: it posts to
every other queue and notifies. -/
def doneFly (st : Status) (post : Nat) : InFl :=
  { tFly (tCmd 0x20 .VQ (0x2000 + post * 2 ^ 32) 0 0 0 0 0 0 0) with started := true, done := some st }
def doneState (st : Status) (post : Nat) : State :=
  tNode (tImage [] []) .VQ { state := .run, pc := 1, inflight := [doneFly st post] }
theorem wit_CommandCompletePosts : ∃ (s : State) (f : InFl), (s.q tb .VQ).inflight = f :: [] ∧ f.done = some .ok ∧
    (s.q tb .VQ).state ≠ .halt ∧ Status.ok.good = true ∧ postOver (s.blk tb) .VQ f.cmd = false ∧ f.cmd.notify = true ∧
    f.cmd.postQueues = 0x3D ∧ s.host.cbuf.length < 4096 :=
  ⟨doneState .ok 0x3D, doneFly .ok 0x3D, by decide +kernel⟩
theorem wit_CommandFailedHaltsQueue : ∃ (s : State) (f : InFl), (s.q tb .VQ).inflight = f :: [] ∧
    f.done = some .bounds ∧ (s.q tb .VQ).state ≠ .halt ∧ Status.bounds.good = false ∧ f.cmd.notify = true ∧
    s.host.cbuf.length < 4096 ∧ s.job.phase = .running ∧ s.hold.state = .run :=
  ⟨doneState .bounds 0, doneFly .bounds 0, by decide +kernel⟩

/-! ### Witnesses: engines -/

def tNone : W64 := 0xFFFFF

/-- Descriptors: 0 to 2 FP32 tensors of 4 elements and 3 a UINT8 mask of them, 4 a result of one element, all in the
block's store. -/
def vecImage : Image :=
  tImage [⟨0x200_0000_0000, 4096, 0, 1, 3, 0⟩]
    [tDesc 0x200_0000_0000 1 4 1 16 0, tDesc 0x200_0000_0040 1 4 1 16 0, tDesc 0x200_0000_0080 1 4 1 16 0,
     tDesc 0x200_0000_00C0 13 4 1 4 0, tDesc 0x200_0000_0100 1 1 1 4 0]
def vecCmd : Nat → Cmd
  | 0x20 => tCmd 0x20 .VQ 0 0 1 tNone 2 0x01 0 0
  | 0x21 => tCmd 0x21 .VQ 0 0 tNone 4 0x0000 0 0 0
  | 0x22 => tCmd 0x22 .VQ 0 0 3 1 4 0 0 0
  | 0x23 => tCmd 0x23 .VQ 0 0 3 1 0 0 0 0
  | _ => tCmd 0x24 .VQ 0 0 1 0 0 0 0 0
def started0 (im : Image) (q : Qc) (c : Cmd) : Prop :=
  Safety.Clean (tFlies im q c) ∧ nextStart (tFlies im q c) tb q = some (tFly c) ∧ (tFly c).done = none
theorem wit_VectorCommandsComplete : ∀ op ∈ [0x20, 0x21, 0x22, 0x23, 0x24],
    started0 vecImage .VQ (vecCmd op) ∧ (tFly (vecCmd op)).cmd.opcode = op ∧
      (opnd! (tFlies vecImage .VQ (vecCmd op)) (tFly (vecCmd op)) 1).size = 4 := by
  intro op h
  refine ⟨⟨clean_tNode .., ?_, rfl⟩, ?_⟩ <;> revert op <;> decide +kernel

/-- TMUL of 4 x 1 by 1 x 4 FP32 and TSCAN. -/
def tensorCmd (op : Nat) : Cmd := tCmd op .TQ 0 0 1 tNone 2 0 0 0
theorem wit_TensorCommandsComplete : ∀ op ∈ [0x10, 0x11],
    started0 vecImage .TQ (tensorCmd op) ∧ (tFly (tensorCmd op)).cmd.opcode = op ∧
      (tpOf (tFlies vecImage .TQ (tensorCmd op)) (tFly (tensorCmd op))).r.fmt.packed = false := by
  intro op h
  refine ⟨⟨clean_tNode .., ?_, rfl⟩, ?_⟩ <;> revert op <;> decide +kernel

/-- A solve of one item of size 2, the matrix with 2.0 on its diagonal and right-hand sides 0; and one of no item. -/
def solveImage (items : Nat) : Image :=
  let t := fun (base : Nat) (c0 c1 : Nat) => leBytes 8 base ++ leBytes 8 0 ++ [c0, c1, items, 1, 1].flatMap (leBytes 4) ++
    leBytes 2 0 ++ [3, 0] ++ [8 * c0, 8 * c0 * c1, 64, 64].flatMap (leBytes 8) ++ List.replicate 16 255 ++
    List.replicate 40 0
  tImage [⟨0x200_0000_0000, 4096, 0, 1, 3, 0⟩]
    [leBytes 2 2 ++ leBytes 2 1 ++ leBytes 4 0xFFFFFFFF ++ List.replicate 120 0, t 0x200_0000_0000 2 2,
     t 0x200_0000_0040 2 1, t 0x200_0000_0080 2 1, t 0x200_0000_00C0 1 1,
     leBytes 2 2 ++ [0, 0] ++ leBytes 4 1 ++ List.replicate 120 0, tDesc 0x200_0000_0100 13 16 1 16 0]
def sfactCmd : Cmd := tCmd 0x30 .XQ 0 0 1 2 3 4 0 0
def spatCmd : Cmd := tCmd 0x31 .XQ 0 5 63 0 0 0 0 0
def deltaCmd : Cmd := tCmd 0x42 .IQ 0 6 1 0 0 0 0 0
def solveState (items : Nat) : State :=
  { tFlies (solveImage items) .XQ sfactCmd with mem := [(0x200_0000_0007, 0x40), (0x200_0000_001F, 0x40)] }
def solveRun (s : State) : SWalk :=
  let f := tFly sfactCmd
  let k := SCtl.of f.cmd.w6
  let bt := batchOf s f
  let t := stensOf s f
  let g : SJob := { ctl := k, n := bt.n, data := t.mat.fmt, w := if k.f32 then .fp32 else t.mat.fmt,
                    floor := Fmt.fp64.decode bt.floor, pat := if k.usePat then patOf s tb k.slot else none }
  (List.range t.mat.items).foldl (itemStep g t tb bt.nrhs f.cmd.w7.toNat)
    { s := updInFl s tb .XQ f.idx fun x => { x with started := true } }
theorem wit_SolverCommandsComplete :
    (started0 (solveImage 1) .XQ sfactCmd ∧ Safety.Clean (solveState 1) ∧ nextStart (solveState 1) tb .XQ = some (tFly sfactCmd) ∧
      sfactCmd.opcode = 0x30 ∧ (stensOf (solveState 1) (tFly sfactCmd)).mat.items = 1 ∧
      (solveRun (solveState 1)).fault = none ∧ (solveRun (solveState 1)).late = []) ∧
    (started0 (solveImage 0) .XQ sfactCmd ∧ sfactCmd.opcode = 0x30 ∧
      (stensOf (tFlies (solveImage 0) .XQ sfactCmd) (tFly sfactCmd)).mat.items = 0) ∧
    (started0 (solveImage 1) .XQ spatCmd ∧ spatCmd.opcode = 0x31 ∧ fld spatCmd.w2 0 6 = 63 ∧
      (patDesc (((refIdx spatCmd.w1).bind (descBytes (tFlies (solveImage 1) .XQ spatCmd))).getD [])).1 = 2) := by
  refine ⟨⟨⟨clean_tNode .., ?_, rfl⟩, ⟨rfl, fun _ => rfl⟩, ?_⟩, ⟨⟨clean_tNode .., ?_, rfl⟩, ?_⟩,
    ⟨clean_tNode .., ?_, rfl⟩, ?_⟩ <;> decide +kernel

/-! ### Witnesses: streams, rows and pan commands -/

/-- Hedge 3 of nodes 0, 5 and 6, this node of rank 0, its ordinal 0. -/
def tHedge : Hedge :=
  { id := 3, members := [0, 5, 6], arity := 2, access := 7, state := 1, winBase := 0, winSize := 8192, remote := 9
    workOff := 4096, workLen := 4096 }
def withHedge (s : State) : State := { s with job := { s.job with hedges := [tHedge] } }

/-- Descriptors: 0 in memory, 1 in the block's store, 2 empty, 3 a ring of 8 192 bytes in the store, 4 its control. -/
def strImage : Image :=
  tImage [⟨0x200_0000_0000, 0x40_0000, 0, 1, 3, 0⟩, ⟨0, 4096, 1, 0, 3, 0⟩]
    [tDesc 0 1 4 1 16 1, tDesc 0x200_0000_0040 1 4 1 16 0, tDesc 0 1 0 1 16 1,
     leBytes 8 0x200_0000_2000 ++ leBytes 8 13 ++ [8192, 1, 1, 1, 1].flatMap (leBytes 4) ++ leBytes 2 0 ++ [1, 0] ++
       List.replicate 32 0 ++ List.replicate 16 255 ++ List.replicate 40 0,
     leBytes 4 1 ++ List.replicate 124 0]
def strCmd : Nat → Cmd
  | 0x40 => tCmd 0x40 .IQ 0 0 1 tNone 13 0 0 0
  | 0x50 => tCmd 0x50 .OQ 0 1 0 tNone 0 0 0 0
  | 0x43 => tCmd 0x43 .IQ 0 0 1 tNone 0 0 0 0
  | 0x52 => tCmd 0x52 .OQ 0 1 0 tNone 0 0 0 0
  | 0x54 => tCmd 0x54 .OQ 0 1 0 tNone 0 0 0 0
  | 0x55 => tCmd 0x55 .OQ 0 1 0 3 0 0 0 0
  | 1 => tCmd 0x40 .IQ 0 2 2 tNone 13 0 0 0
  | _ => tCmd 0x40 .IQ 0 3 3 4 13 0 0 0
def strQueue (op : Nat) : Qc := if op = 0x40 ∨ op = 0x43 ∨ op < 3 then .IQ else .OQ
def strState (op : Nat) : State := withHedge (tFlies strImage (strQueue op) (strCmd op))
def strFly (op : Nat) : InFl := tFly (strCmd op)
theorem clean_withHedge {s : State} (h : Safety.Clean s) : Safety.Clean (withHedge s) := ⟨h.1, h.2⟩

theorem wit_StreamCommandsTakeContext :
    (∀ op ∈ [0x40, 0x50, 0x43, 0x52, 0x54, 0x55], (strFly op).done = none ∧
      nextStart (strState op) tb (strQueue op) = some (strFly op) ∧ (strFly op).cmd.opcode = op ∧
      ((stCtl (strState op) (strFly op).cmd.w3).getD {}).ring = false) ∧
    (let e := streamEnds (strState 0x40) (strFly 0x40) true
     streamReqs {} (streamConv {} e.1 e.2) e.1 e.2 ≠ []) ∧
    (∀ op ∈ [0x43, 0x52, 0x54, 0x55], rmtReqs (strState op) (strFly op) ≠ []) ∧
    (nextStart (strState 1) tb .IQ = some (strFly 1) ∧ (strFly 1).cmd.opcode = 0x40 ∧
      (let e := streamEnds (strState 1) (strFly 1) true
       streamReqs {} (streamConv {} e.1 e.2) e.1 e.2 = [])) ∧
    (nextStart (strState 2) tb .IQ = some (strFly 2) ∧ (strFly 2).cmd.opcode = 0x40 ∧
      ((stCtl (strState 2) (strFly 2).cmd.w3).getD {}).ring = true ∧ ((strState 2).ctx tb 13).peer = 0) := by
  refine ⟨?_, ?_, ?_, ?_, ?_⟩ <;> decide +kernel

/-- A context that carries a stream of two requests, `sent` of them sent. -/
def tReq (no : Nat) : SReq := { no := no, far := 64 * no, near := 0x200_0000_0000 + 64 * no, bytes := 64, nb := 64 }
def tActive (outbound : Bool) (todo sent : List SReq) : Active :=
  { idx := 0, remote := false, outbound := outbound, narrow := false, high := 0, low := 0, rush := 0, rate := 0
    ringBase := 0, ringSize := 0, todo := todo, sent := sent }
def ctxFly (outbound : Bool) : InFl := { strFly (if outbound then 0x50 else 0x40) with started := true }
def ctxState (outbound : Bool) (todo sent : List SReq) : State :=
  let q : Qc := if outbound then .OQ else .IQ
  let s := tNode strImage q { state := .run, pc := 1, inflight := [ctxFly outbound] }
  { s with blocks := [(0, { s.blk tb with ctxs := [(13, { state := if todo = [] then .finishing else .opened
                                                          oq := outbound, active := some (tActive outbound todo sent) })] })]
           tim := { now := 1_000_000, hall := 1_000_000 } }
theorem clean_ctxState (o : Bool) (t l : List SReq) : Safety.Clean (ctxState o t l) := ⟨rfl, fun _ => rfl⟩

theorem wit_StreamRequestsMoveTheirBytes : ∀ o ∈ [false, true], ∀ t ∈ [[], [tReq 2]], ∀ l ∈ [[], [tReq 1]],
    let s := ctxState o t (tReq 0 :: l)
    let a := tActive o t (tReq 0 :: l)
    Safety.Clean s ∧ (s.ctx tb 13).active = some a ∧ a.remote = false ∧ a.coll = false ∧ a.fail = none ∧
      ctxCmd s tb (s.ctx tb 13) a = some (ctxFly o) ∧ a.outbound = o := by
  intro o ho t ht l hl
  refine ⟨clean_ctxState .., ?_⟩
  revert o t l
  decide +kernel
theorem wit_StreamRequestTimesOut : ∀ l ∈ [[], [tReq 1]],
    let s := ctxState false [] (tReq 0 :: l)
    let a := tActive false [] (tReq 0 :: l)
    (s.ctx tb 13).active = some a ∧ a.remote = false ∧ a.fail = none ∧
      ctxCmd s tb (s.ctx tb 13) a = some (ctxFly false) ∧ (tReq 0).sent + 1_000_000 ≤ s.tim.now := by
  decide +kernel
theorem wit_StreamGrantSendsOneRequest : ∀ o ∈ [false, true],
    let s := ctxState o [tReq 0, tReq 1] []
    let k := gateColl s (s.blk tb)
    s.hold.state ≠ .resetting ∧ winner k = some 13 ∧
      ((lose k 13).ctx 13).active = some (tActive o [tReq 0, tReq 1] []) ∧
      nextReq ((lose k 13).ctx 13) (tActive o [tReq 0, tReq 1] []) = some (tReq 0, [tReq 1]) ∧ s.lineFault = [] := by
  decide +kernel

/-- GATHER and SCATTER of rows 3, 0, 3 and 1 of a table of 5 rows in memory, and of an index past its end; the list of
indices (INT32) lies at 512. -/
def rowImage (rows : Nat) : Image :=
  tImage [⟨0, 4096, 0, 0, 3, 0⟩, ⟨0x200_0000_0000, 4096, 1, 1, 3, 0⟩]
    [tDesc 512 11 4 1 16 0, tDesc 0 1 4 rows 16 0, tDesc 0x200_0000_0000 1 4 4 16 1]
def rowCmd : Nat → Cmd
  | 0x41 => tCmd 0x41 .IQ 0 0 1 2 0 0 0 0
  | _ => tCmd 0x51 .OQ 0 0 2 1 0 0 0 0
def rowState (op rows : Nat) : State :=
  { tFlies (rowImage rows) (if op = 0x41 then .IQ else .OQ) (rowCmd op) with
    mem := [(512, 3), (520, 3), (524, 1)].map fun p => (windowKey p.1, p.2) }
where windowKey (npa : Nat) : Nat := ((place (tNode (tImage [] []) .IQ {}) npa).key).getD 0
theorem wit_RowCommandsMoveRows : (∀ op ∈ [0x41, 0x51],
    (tFly (rowCmd op)).done = none ∧ (tFly (rowCmd op)).cmd.opcode = op ∧
    nextStart (rowState op 5) tb (if op = 0x41 then .IQ else .OQ) = some (tFly (rowCmd op)) ∧
    nextStart (rowState op 3) tb (if op = 0x41 then .IQ else .OQ) = some (tFly (rowCmd op)) ∧
    (let x := rowsOf (rowState op 5) (tFly (rowCmd op)) (op == 0x41)
     x.1.size = 4 ∧ x.1.raw (rowState op 5) 0 = 3 ∧ ∀ j, j < x.1.size → x.1.raw (rowState op 5) j < x.2.1.c 1) ∧
    (let x := rowsOf (rowState op 3) (tFly (rowCmd op)) (op == 0x41)
     0 < x.1.size ∧ x.2.1.c 1 ≤ x.1.raw (rowState op 3) 0)) ∧
    (started0 (solveImage 1) .IQ deltaCmd ∧ deltaCmd.opcode = 0x42 ∧
      (opnd! (tFlies (solveImage 1) .IQ deltaCmd) (tFly deltaCmd) 1).c 1 = 1) := by
  refine ⟨?_, ⟨⟨clean_tNode .., ?_, rfl⟩, ?_⟩⟩ <;> decide +kernel

/-- A PANOP of an operation on descriptors of 2 elements in a stack: 0 and 1 INT64, 2 B128, 3 FP64, 4 64 bytes of UINT8,
5 none. -/
def panImage : Image :=
  tImage [⟨0, 4096, 0, 0, 3, 0⟩]
    [tDesc 0 12 2 1 16 0, tDesc 64 12 2 1 16 0, tDesc 128 14 2 1 32 0, tDesc 192 0 2 1 16 0, tDesc 256 13 64 1 64 0,
     tDesc 0 12 0 1 16 0]
def panCmdOf (op t x : Nat) : Cmd := tCmd 0x57 .OQ 0 (BitVec.ofNat 64 t) (BitVec.ofNat 64 x) tNone (BitVec.ofNat 64 op) 0 0 0
def panState (c : Cmd) : State :=
  let s := tFlies panImage .OQ c
  { s with brine := [entFor s (opnd! s (tFly (panCmdOf 0 2 2)) 1) none] }
theorem clean_panState (c : Cmd) : Safety.Clean (panState c) := ⟨rfl, fun _ => rfl⟩
def panReady (c : Cmd) (op : Nat) : Prop :=
  nextStart (panState c) tb .OQ = some (tFly c) ∧ (tFly c).done = none ∧ (tFly c).failed = none ∧
    (tFly c).cmd.opcode = 0x57 ∧ panCode c = op
def panOp1 (c : Cmd) : Desc := opnd! (panState c) (tFly c) 1
theorem wit_PanElementOperationsComplete :
    (∀ op ∈ [0x01, 0x08, 0x10], panReady (panCmdOf op (if op = 0x10 then 3 else 0) 1) op ∧ panAtomic op = true) ∧
    (panReady (panCmdOf 0x30 0 1) 0x30 ∧ (panOp1 (panCmdOf 0x30 0 1)).fmt.isBrine = false ∧
      (panOp1 (panCmdOf 0x30 0 1)).size = 2) := by
  unfold panReady
  refine ⟨?_, ?_⟩ <;> decide +kernel
theorem wit_BrineCommandsComplete :
    panReady (panCmdOf 0x20 2 0xFFFFF) 0x20 ∧
    (∀ op ∈ [0x20, 0x21, 0x22], panReady (panCmdOf op 5 5) op ∧ (panOp1 (panCmdOf op 5 5)).empty = true) ∧
    (∀ op ∈ [0x21, 0x30], panReady (panCmdOf op 2 3) op ∧ (panOp1 (panCmdOf op 2 3)).fmt.isBrine = true ∧
      (entHolding (panState (panCmdOf op 2 3)) (panOp1 (panCmdOf op 2 3))).isSome = true) ∧
    (panReady (panCmdOf 0x22 3 2) 0x22 ∧ (entOf (panState (panCmdOf 0x22 3 2)) (opnd! (panState (panCmdOf 0x22 3 2))
      (tFly (panCmdOf 0x22 3 2)) 2)).isSome = true) ∧ panReady (panCmdOf 0x23 2 0xFFFFF) 0x23 := by
  unfold panReady
  refine ⟨?_, ?_, ?_, ?_, ?_⟩ <;> decide +kernel
theorem wit_CopyAndDigestComplete :
    (panReady (panCmdOf 0x40 0 1) 0x40 ∧ (panOp1 (panCmdOf 0x40 0 1)).empty = false) ∧
    (panReady (panCmdOf 0x40 5 5) 0x40 ∧ (panOp1 (panCmdOf 0x40 5 5)).empty = true) ∧
    (panReady (panCmdOf 0x41 4 0) 0x41 ∧ (panOp1 (panCmdOf 0x41 4 0)).size = 64) := by
  unfold panReady
  refine ⟨?_, ?_, ?_⟩ <;> decide +kernel

/-- A RATOM of 4 elements and one of none. -/
def ratomCmd (t : Nat) : Cmd := tCmd 0x53 .OQ 0 (BitVec.ofNat 64 t) (BitVec.ofNat 64 t) tNone 1 0 0 0
def ratomState (t : Nat) : State := withHedge (tFlies strImage .OQ (ratomCmd t))
theorem wit_RatomSendsItsRequests : ∀ t ∈ [0, 2],
    (ratomState t).lineFault = [] ∧ nextStart (ratomState t) tb .OQ = some (tFly (ratomCmd t)) ∧
    (tFly (ratomCmd t)).done = none ∧ (tFly (ratomCmd t)).cmd.opcode = 0x53 ∧
    ((if (opnd! (ratomState t) (tFly (ratomCmd t)) 1).empty then [] else ratomReqs (ratomState t) (tFly (ratomCmd t))
      ((opnd! (ratomState t) (tFly (ratomCmd t)) 2).raws (ratomState t))) = [] ↔ t = 2) := by decide +kernel

/-- A BCAST of 4 elements on hedge 3 from root 0, as rank r; hedge 4 has this node alone. -/
def bcastCmd (hedge root : Nat) : Cmd :=
  tCmd 0x56 .OQ 0 1 1 (BitVec.ofNat 64 (hedge + 1 * 2 ^ 16 + root * 2 ^ 32)) 0 0 0 0
def bcastState (hedge root : Nat) : State :=
  let s := tFlies strImage .OQ (bcastCmd hedge root)
  { s with job := { s.job with hedges := [tHedge, { tHedge with id := 4, members := [0], arity := 2 }] } }
theorem wit_BcastTakesUpItsTree : ∀ p ∈ [(3, 0), (3, 1), (4, 0)],
    let s := bcastState p.1 p.2
    let f := tFly (bcastCmd p.1 p.2)
    nextStart s tb .OQ = some f ∧ f.done = none ∧ f.cmd.opcode = 0x56 ∧ f.phase = 0 ∧ tb ∈ gradeBlocks s ∧
    ∃ k, collOf s f = some k ∧ collUnderWay s k.hedge.id = none ∧ k.code = 1 ∧ k.send.size ≠ 0 ∧ k.hedge.ordinal = 0 ∧
      k.hedge.landed = [] ∧ (parentA k.hedge.arity k.n k.root k.hedge.rank = none ↔ p.2 = 0) := by
  intro p hp
  simp only [List.mem_cons, List.not_mem_nil, or_false] at hp
  rcases hp with rfl | rfl | rfl <;>
    refine ⟨by decide +kernel, by decide +kernel, by decide +kernel, by decide +kernel, by decide +kernel, _, rfl, ?_⟩ <;>
    decide +kernel

/-! ### Witnesses: CQ, step boundary, checkpoint -/

def cqCmd (op : Nat) (w1 w2 w3 w4 : W64) : Cmd := tCmd op .CQ 0 w1 w2 w3 w4 0 0 0
def cqState (c : Cmd) : State := withHedge (tFlies strImage .CQ c)
/-- The PEER register of context 2 of block 0. -/
def peerNpa : W64 := 0x300_0100_0540
def sigCtx : Cmd := cqCmd 0x60 peerNpa 64 0 0
def sigMem : Cmd := cqCmd 0x60 8 64 0 0
def flagsT (d : W64) : Cmd := cqCmd 0x63 d 0xFFFF 0 0
def readT : Cmd := cqCmd 0x64 (3 + 3 * 2 ^ 16) 0x40 0 0
theorem wit_SignalFlagsAndReadComplete :
    (∀ c ∈ [sigCtx, sigMem, flagsT 1, flagsT tNone, readT],
      nextStart (cqState c) tb .CQ = some (tFly c) ∧ (tFly c).done = none) ∧
    (sigCtx.opcode = 0x60 ∧ ∃ k n r, ctxReg (cqState sigCtx) (fld sigCtx.w1 0 56) = some (k, n, r) ∧
      ((cqState sigCtx).ctx k n).active = none) ∧
    (sigMem.opcode = 0x60 ∧ ctxReg (cqState sigMem) (fld sigMem.w1 0 56) = none) ∧
    ((flagsT 1).opcode = 0x63 ∧ (opnd (cqState (flagsT 1)) (tFly (flagsT 1)) 1).isSome = true ∧
      opnd (cqState (flagsT tNone)) (tFly (flagsT tNone)) 1 = none) ∧
    (readT.opcode = 0x64 ∧ hedgeOp readT = 3 ∧ waitingCmd (cqState readT) tb 0x64 = none ∧
      hedgeOf (cqState readT) (fld readT.w1 0 16) = some tHedge) := by
  refine ⟨?_, ⟨?_, ⟨0, 0⟩, 2, 0, ?_, ?_⟩, ?_, ?_, ?_⟩ <;> decide +kernel
theorem clean_cqState (c : Cmd) : Safety.Clean (cqState c) := ⟨rfl, fun _ => rfl⟩

/-- Waits whose condition holds and does not hold, that have issued or wait already. -/
def waitState (c : Cmd) (again : Bool) : State :=
  { host := { node := .ready, linkUp := true }, tim := { hall := 1000, now := 1000 }
    job := { phase := .running, started := true, loadGen := 1, image := some strImage, hedges := [tHedge] }
    blocks := [(0, { queues := [(5, { state := .run, pc := 1, inflight := [{ tFly c with started := again }] })] })] }
def waitVs : List Cmd := [cqCmd 0x61 8 0 0 0, cqCmd 0x61 8 2000 0 1000]
def waitTs : List Cmd := [cqCmd 0x62 0 0 0 0, cqCmd 0x62 2000 0 0 0]
def waitEs : List Cmd := [cqCmd 0x64 0x10003 0 0 0, cqCmd 0x64 0x10003 1 0 0]
def waitQs : List Cmd := [cqCmd 0x64 0x20003 0 0 0]
def waits (op : Nat) (c : Cmd) : Prop :=
  nextStart (waitState c false) tb .CQ = some (tFly c) ∧ c.opcode = op ∧ (tFly c).done = none ∧
    waitingCmd (waitState c false) tb op = none ∧
    waitingCmd (waitState c true) tb op = some { tFly c with started := true } ∧ (waitState c true).lineFault = []
theorem wit_WaitsCompleteOrWait :
    (∀ c ∈ waitVs, waits 0x61 c) ∧ (∀ c ∈ waitTs, waits 0x62 c) ∧ (∀ c ∈ waitEs ++ waitQs, waits 0x64 c) ∧
    (∀ c ∈ waitVs.drop 1, c.w4 ≠ 0 ∧ c.w4.toNat ≤ (waitState c true).tim.hall) ∧
    (∀ c ∈ waitEs, hedgeOp c = 1 ∧ hedgeOf (waitState c false) (fld c.w1 0 16) = some tHedge) ∧
    ∀ c ∈ waitQs, hedgeOp c = 2 := by
  unfold waits
  refine ⟨?_, ?_, ?_, ?_, ?_, ?_⟩ <;> decide +kernel
/-- Every queue at a step: VQ has reached STEP, TQ its END, CQ has no commands. -/
def stepState : State :=
  { tFront .VQ nopCmd with
    blocks := [(0, { queues := [(0, { state := .endd, stream := [endCmdT] }), (1, { state := .step, stream := [nopCmd] })]
                     ctxs := [(2, { peer := 64, own := 64, issued := 64 })] })] }
theorem wit_StepBoundaryRaisesStep : stepState.job.phase = .running ∧ stepState.job.started = true ∧
    stepState.ckpt.cutting = false ∧ stepState.job.risen = false ∧
    (∀ b ∈ liveBlocks stepState, ∀ q, (stepState.q b q).inflight = [] ∧
      ((stepState.q b q).state = .step ∨ (stepState.q b q).state = .endd ∨ (stepState.q b q).stream = [])) ∧
    (∀ e ∈ stepState.blocks, ∀ c ∈ e.2.ev, c.2 = 0) ∧ stateSet stepState = none ∧ twin stepState = none ∧
    stepState.hold.state = .run ∧ (stepState.q tb .VQ).state = .step := by
  have key : ∀ b ∈ liveBlocks stepState, ∀ q ∈ Qc.all, (stepState.q b q).inflight = [] ∧
      ((stepState.q b q).state = .step ∨ (stepState.q b q).state = .endd ∨ (stepState.q b q).stream = []) := by
    decide +kernel
  refine ⟨rfl, rfl, rfl, rfl, fun b hb q => key b hb q ?_, by decide +kernel, rfl, by decide +kernel, rfl, rfl⟩
  cases q <;> decide

/-- A node in a cut, and one that copies, signs or mirrors. -/
def cutState (level depth : Nat) (n : Nat) : State :=
  { stepState with ckpt := { cutting := true, level := level, depth := depth, cutN := n, cutStep := 5, doneN := 1, n := n - 1 } }
def ckState (st : CkptState) (mirrors : List (Nat × Nat)) : State :=
  { stepState with ckpt := { state := st, n := 1, step := 5, mirrors := mirrors }, stk := [(2, { ckPending := [4, 7] })] }
theorem wit_CutAndCheckpointAdvance :
    (∀ p ∈ [(0, 2, 1), (1, 2, 1), (1, 2, 9)], let s := cutState p.1 p.2.1 p.2.2
      s.ckpt.cutting = true ∧ s.ckpt.level < s.ckpt.depth ∧ directPeers s = [] ∧
      (copyMayStart s = false ↔ p.2.2 = 9)) ∧
    ((ckState .copy []).lineFault = [] ∧ ((ckState .copy []).stack (2 : BitVec 4).toNat).ckPending = 4 :: [7] ∧
      (ckState .copy []).ckpt.state = .copy ∧ ([7].filter (· != 4)) ≠ []) ∧
    ((ckState .sign []).ckpt.state = .sign ∧ 4 ∉ (ckState .sign []).pwr.restarting ∧ buddy (ckState .sign []) = none) ∧
    (ckState .mirror [(1, 0), (2, 4)]).ckpt.mirrors = (1, 0) :: [(2, 4)] := by
  refine ⟨?_, ?_, ?_, ?_⟩ <;> decide +kernel

/-! ### Witnesses: fabric and time -/

/-- A plan of 64 slots: line 0 EXPECTs node 5 in slot 3, line 2 a gateway of node 5; both on flow 9, window 2. -/
def tPlan : Plan :=
  { k := 6, entries := [⟨0, 3, 0x0001_0000⟩, ⟨2, 3, 0x0004_0000⟩], tx := []
    rx := [⟨0, 0, 5, 9, 2⟩, ⟨2, 0, 5, 9, 2⟩], pairs := [] }
theorem wit_EspalierRowsComplete :
    (∃ (s : State) (b : Bool) (slot : Nat), s.fab.armed = some (b, slot) ∧ slot ≤ s.tim.hall / 64 ∧
      ¬(s.tim.service = false ∧ s.tim.state = .locked)) ∧
    (∃ s : State, (activePlan s).isSome = true ∧
      (s.tim.hall / 64 - s.fab.since) / 2 ^ s.fab.k.toNat % 2 ^ 32 ≠ s.fab.periods.toNat ∧
      ¬(s.tim.service = false ∧ s.tim.state = .locked)) :=
  ⟨⟨{ fab := { armed := some (true, 128), bank1 := ⟨some tPlan, true⟩ }, tim := { hall := 8192, state := .locked, service := true } },
     true, 128, rfl, by decide, by decide⟩,
   ⟨{ fab := { espState := .running, bank0 := ⟨some tPlan, true⟩, k := 6, since := 64 }
      tim := { hall := 8192, state := .locked, service := true } }, by decide, by decide, by decide⟩⟩
theorem wit_SlotBoundaryMovesTime : ∃ s : State, (s.fab.espState = .none ∨ s.fab.espState = .armed) ∧ s.fab.armed = none ∧
    s.fab.pairs = [] ∧ s.fab.ready = [] ∧ s.tim.state ≠ .holdover ∧ ¬(s.tim.service = false ∧ s.tim.state = .locked) ∧
    (s.tim.state = .locked → s.tim.errPs.natAbs ≤ 8000) ∧ s.tim.state = .locked ∧ s.tim.hall = 63 :=
  ⟨{ tim := { hall := 63, state := .locked, service := true, errPs := -8000 } }, by decide⟩

def tOut : OutFrame := { frame := tFrame 1, quiet := 2, tries := 7 }
def pleachState : State :=
  { tNode { tImage [] [] with pleach := true } .TQ {} with
    job := { phase := .running, image := some { tImage [] [] with pleach := true }, sigAt := some 10
             hedges := [{ tHedge with id := 0, members := [0, 5] }] }
    fab := { pairs := [(5, { empty := 8 })] }, tim := { hall := 64 * 138 } }
theorem wit_LossesAndSilenceAreNoted :
    (∃ s : State, (∀ o ∈ (s.pair 5).unacked, o.tries < 8) ∧ (s.pair 5).unacked = [tOut]) ∧
    (8 ≤ (pleachState.pair 5).empty ∧ (pleachState.pair 5).silent = false ∧ pleachState.job.phase = .running ∧
      pleachState.hold.state = .run) ∧
    (pleachState.job.sigAt = some 10 ∧ twin pleachState = some 5 ∧ 10 + 128 ≤ pleachState.tim.hall / 64 ∧
      pleachState.job.sigLast = false) := by
  refine ⟨⟨{ fab := { pairs := [(5, { unacked := [tOut] })] } }, ?_, ?_⟩, ?_, ?_⟩ <;> decide +kernel

/-- The frame that node 5 sends in slot 67 on a line, and a node that expects it. -/
def inFrame (line : BitVec 4) (type : BitVec 4) (op : Byte) (last : Bool) (len : Nat) (fmt : BitVec 4) (subop : Byte)
    (data : List Byte) : Frame :=
  let d := padLines data
  linkFor {} 6 0 1 { port := line, at_ := 68, fcsOk := true, macsec := .good, link := linkBlank, addend := fmt
                     olds := false, data := d, lchk := lineChecks d
                     hdr := sealHdr { 
                       version := 3, type := type, retry := false, ackValid := false, nak := false, binned := false
                       last := last, opcode := op, reason := 0, jobId := 0, hedgeId := 3, src := 5, dst := 0, flow := 9
                       seq := 0, ackSeq := 0, slot := 67, length := BitVec.ofNat 16 len, offset := 64, fmt := fmt
                       rnd := 0, subop := subop, opArg := 0, check := 0 } }
def inState : State :=
  { host := { node := .ready }
    job := { phase := .running, started := true, hedges := [{ tHedge with access := 0xF }], image := some strImage }
    tim := { hall := 4352, service := true, state := .locked }
    fab := { espState := .running, bank0 := ⟨some tPlan, true⟩, k := 6
             ports := [(0, { assocs := [⟨0, false, 0, 0, [], [], 0, 1⟩] }), (1, { assocs := [⟨2, false, 0, 0, [], [], 0, 1⟩] })] } }
theorem noColl {s : State} (h : ∀ b ∈ gradeBlocks s, ∀ f ∈ (s.q b .OQ).inflight, f.cmd.opcode ≠ 0x56) :
    ∀ g, collUnderWay s g = none := by
  intro g
  unfold collUnderWay
  rw [List.findSome?_eq_none_iff]
  intro b hb
  rw [Option.map_eq_none_iff, List.find?_eq_none]
  intro f hf
  simp [h b hb f hf]
theorem inState_noColl : ∀ g, collUnderWay inState g = none := noColl (by decide +kernel)
def bulkSub : Frame := { inFrame 0 0 oPut true 4 0 0 [1, 2, 3, 4] with
  hdr := sealHdr { (inFrame 0 0 oPut true 4 0 0 [1, 2, 3, 4]).hdr with dst := 6, binned := true } }
def bulkFrame : Frame := inFrame 2 tBulk 0 true 112 0 0 (subRecord bulkSub)
def inFrames : List Frame :=
  [inFrame 0 0 oPut true 4 0 0 [1, 2, 3, 4], inFrame 0 0 oPut false 4 0 0 [1, 2, 3, 4],
   inFrame 0 0 oMcast true 4 0 0 [1, 2, 3, 4], inFrame 0 0 oGetReq true 4096 0 0 [],
   inFrame 0 0 oAtomic true 8 11 0x81 [1, 0, 0, 0, 2, 0, 0, 0], inFrame 0 0 oAtomic true 8 11 0x08 [1, 0, 0, 0, 2, 0, 0, 0],
   inFrame 0 0 oReduce true 4 11 0x30 [1, 0, 0, 0], inFrame 0 0 oColl true 0 0 0 []]
def arrivesBool (s : State) (f : Frame) : Bool :=
  s.host.node != .halted && s.tim.service && f.fcsOk && macGood s f && linkOk s f &&
  !(s.pair f.hdr.src).quarantined && frontChecks s f == none && !f.hdr.ackValid && !f.hdr.nak
theorem arrives_of_bool {s : State} {f : Frame} (h : arrivesBool s f = true) (c : ∀ g, collUnderWay s g = none) :
    Safety.Arrives s f := by
  simp only [arrivesBool, Bool.and_eq_true, Bool.not_eq_true', bne_iff_ne, beq_iff_eq] at h
  exact ⟨h.1.1.1.1.1.1.1.1, h.1.1.1.1.1.1.1.2, h.1.1.1.1.1.1.2, h.1.1.1.1.1.2, h.1.1.1.1.2, h.1.1.1.2, h.1.1.2,
    ⟨h.1.2, h.2⟩, c⟩
theorem inOrder_of_fresh {s : State} {f : Frame} (h : s.fab.pairs = []) (q : f.hdr.seq = 0) : Safety.InOrder s f := by
  have e : ∀ n, s.pair n = {} := fun n => by unfold State.pair; rw [h]; rfl
  exact ⟨by rw [e, q], by rw [e], by rw [e], by rw [e]⟩
theorem wit_FramesTakeEffectInOrder : Safety.Clean inState ∧
    (∀ f ∈ inFrames, Safety.Arrives inState f ∧ Safety.InOrder inState f ∧ f.hdr.type = tData ∧
      jobChecks inState f = none ∧ isCtrl f.hdr = false) ∧
    (∀ f ∈ [inFrame 0 tFiller 0 true 0 0 0 [], inFrame 0 tSignature 0 true 8 0 0 (leBytes 8 7)],
      Safety.Arrives inState f ∧ Safety.InOrder inState f ∧ f.hdr.opcode = 0) ∧
    jobChecks inState (inFrame 0 tSignature 0 true 8 0 0 (leBytes 8 7)) = none ∧
    (Safety.Arrives inState bulkFrame ∧ Safety.InOrder inState bulkFrame ∧ bulkFrame.hdr.type = tBulk ∧ linesOk bulkFrame = true ∧
      padLines ([bulkSub].flatMap subRecord) = bulkFrame.data ∧
      (subsOf bulkFrame (bulkFrame.data.length / 48) bulkFrame.data).length = 1 ∧
      ∀ g ∈ subsOf bulkFrame (bulkFrame.data.length / 48) bulkFrame.data,
        malformed inState g = false ∧ g.hdr.dst ≠ nodeId inState) ∧
    (panAtomic 1 = true ∧ panTarget 1 (Fmt.ofCode 11) = true ∧ panTarget 0x30 (Fmt.ofCode 11) = true ∧
      (Fmt.ofCode 11).isInt = true ∧ inState.brine = [] ∧ inWork tHedge 64 = false) := by
  have a1 : ∀ f ∈ inFrames, arrivesBool inState f = true ∧ f.hdr.seq = 0 ∧ f.hdr.type = tData ∧
      jobChecks inState f = none ∧ isCtrl f.hdr = false := by decide +kernel
  have a2 : ∀ f ∈ [inFrame 0 tFiller 0 true 0 0 0 [], inFrame 0 tSignature 0 true 8 0 0 (leBytes 8 7)],
      arrivesBool inState f = true ∧ f.hdr.seq = 0 ∧ f.hdr.opcode = 0 := by decide +kernel
  refine ⟨⟨rfl, fun _ => rfl⟩, fun f hf => ?_, fun f hf => ?_, by decide +kernel, ⟨?_, ?_, ?_⟩, by decide +kernel⟩
  · obtain ⟨h1, h2, h3⟩ := a1 f hf
    exact ⟨arrives_of_bool h1 inState_noColl, inOrder_of_fresh rfl h2, h3⟩
  · obtain ⟨h1, h2, h3⟩ := a2 f hf
    exact ⟨arrives_of_bool h1 inState_noColl, inOrder_of_fresh rfl h2, h3⟩
  · exact arrives_of_bool (by decide +kernel) inState_noColl
  · exact inOrder_of_fresh rfl (by decide +kernel)
  · decide +kernel

/-- A node whose GET (or RATOM) awaits the response of request 2 to frame 64 of node 5. -/
def respFrame (op : Byte) : Frame := inFrame 0 0 op true 8 11 0 [1, 2, 3, 4, 5, 6, 7, 8]
def getFly : InFl := { strFly 0x43 with started := true }
def ratomFly (waiting : Nat) : InFl :=
  { tFly (tCmd 0x53 .OQ 0 0 1 0 1 0 0 0) with started := true, waiting := waiting }
def remoteActive (todo : List SReq) : Active := { tActive false todo [tReq 2] with remote := true, hedge := 3 }
def getState (todo : List SReq) : State :=
  { inState with
    fab := { inState.fab with awaiting := [⟨5, 64, .cmd tb .IQ 0 2, 3⟩] }
    blocks := [(0, { queues := [(3, { state := .run, pc := 1, inflight := [getFly] })]
                     ctxs := [(14, { state := .finishing, active := some (remoteActive todo) })] })] }
def ratomBack (waiting : Nat) : State :=
  { inState with
    fab := { inState.fab with awaiting := [⟨5, 64, .cmd tb .OQ 0 2, 3⟩] }
    blocks := [(0, { queues := [(4, { state := .run, pc := 1, inflight := [ratomFly waiting] })] })] }
def respOk (s : State) (f : Frame) : Prop :=
  arrivesBool s f = true ∧ f.hdr.seq = 0 ∧ f.hdr.type = tData ∧ jobChecks s f = none ∧ f.hdr.subop = 0 ∧
    (∀ b ∈ gradeBlocks s, ∀ g ∈ (s.q b .OQ).inflight, g.cmd.opcode ≠ 0x56)
theorem wit_ResponsesReachTheirRequests :
    (∀ todo ∈ [[], [tReq 3]], let s := getState todo
      let f := respFrame oGetResp
      Safety.Clean s ∧ Safety.Arrives s f ∧ Safety.InOrder s f ∧ f.hdr.type = tData ∧ jobChecks s f = none ∧
      f.hdr.subop = 0 ∧ f.hdr.opcode = oGetResp ∧
      s.fab.awaiting = [⟨f.hdr.src, f.hdr.offset.setWidth 32, .cmd tb .IQ 0 2, 3⟩] ∧
      orgCmd s tb .IQ 0 = some getFly ∧ orgCtx s tb getFly = some 14 ∧
      (s.ctx tb 14).active = some (remoteActive todo) ∧ (s.ctx tb 14).ring = false ∧ (s.ctx tb 14).oq = false ∧
      (remoteActive todo).coll = false ∧ (remoteActive todo).fail = none ∧ (remoteActive todo).sent.find? (fun r => r.no == 2) = some (tReq 2)) ∧
    (∀ n ∈ [1, 2], let s := ratomBack n
      let f := respFrame oAtomicResp
      Safety.Clean s ∧ Safety.Arrives s f ∧ Safety.InOrder s f ∧ f.hdr.type = tData ∧ jobChecks s f = none ∧
      f.hdr.subop = 0 ∧ f.hdr.opcode = oAtomicResp ∧
      s.fab.awaiting = [⟨f.hdr.src, f.hdr.offset.setWidth 32, .cmd tb .OQ 0 2, 3⟩] ∧
      orgCmd s tb .OQ 0 = some (ratomFly n) ∧ (ratomFly n).failed = none ∧ (ratomFly n).waiting = n ∧
      (opnd s (ratomFly n) 3).isSome = true) := by
  have k1 : ∀ todo ∈ [[], [tReq 3]], respOk (getState todo) (respFrame oGetResp) := by unfold respOk; decide +kernel
  have k2 : ∀ n ∈ [1, 2], respOk (ratomBack n) (respFrame oAtomicResp) := by unfold respOk; decide +kernel
  constructor
  · intro todo ht
    obtain ⟨h1, h2, h3, h4, h5, h6⟩ := k1 todo ht
    refine ⟨⟨rfl, fun _ => rfl⟩, arrives_of_bool h1 (noColl h6), inOrder_of_fresh rfl h2, h3, h4, h5, ?_⟩
    revert todo
    decide +kernel
  · intro n hn
    obtain ⟨h1, h2, h3, h4, h5, h6⟩ := k2 n hn
    refine ⟨⟨rfl, fun _ => rfl⟩, arrives_of_bool h1 (noColl h6), inOrder_of_fresh rfl h2, h3, h4, h5, ?_⟩
    revert n
    decide +kernel

def upState (t : Timing) (role : TimeRole) : State :=
  { host := { node := .ready, linkUp := true }, tim := t, ncr := { timeRole := role, udpPort := 47000 } }
theorem wit_TimeUnitChangesState :
    (∃ s : State, s.tim.state = .locked ∧ s.ncr.timeRole ≠ .reference ∧ s.tim.lastSync + 62_500_000 ≤ s.tim.now ∧
      s.tim.errPs.natAbs ≤ 8000) ∧
    (∀ lost ∈ [false, true], ∃ (s : State) (g : Nat), s.tim.state ≠ .locked ∧ s.ncr.timeRole ≠ .reference ∧
      s.tim.master.isSome = true ∧ s.tim.goodSince = some g ∧ g + 1_000_000_000 ≤ s.tim.now ∧ s.tim.errPs.natAbs ≤ 2000 ∧
      s.tim.lost = lost ∧ s.tim.service = false ∧ activePlan s = none ∧ s.ncr.udpPort ≠ 0) ∧
    (∃ s : State, s.tim.unit = false ∧ s.err.coal = []) ∧
    (∃ (s : State) (x : Nat), s.ncr.timeRole = .reference ∧ s.tim.ppsSecond = some x) ∧
    (∃ s : State, (s.tim.state = .locked ∨ s.tim.state = .holdover) ∧ s.tim.hall % 1_000_000_000 = 0 ∧ s.tim.hall ≠ 0) ∧
    (∃ s : State, Safety.Mailbox s ∧ s.ncr.timeRole = .reference) ∧
    (∃ s : State, Safety.Mailbox s ∧ s.ncr.timeRole ≠ .reference) := by
  refine ⟨⟨upState { state := .locked, now := 62_500_000, errPs := -8000 } .member, by decide⟩, fun lost hl => ?_,
    ⟨{}, rfl, rfl⟩, ⟨upState { ppsSecond := some 5 } .reference, 5, by decide⟩,
    ⟨upState { state := .holdover, hall := 1_000_000_000 } .member, by decide⟩,
    ⟨upState {} .reference, mailbox_ready _ rfl rfl rfl rfl, rfl⟩, ⟨upState {} .member, mailbox_ready _ rfl rfl rfl rfl, by decide⟩⟩
  exact ⟨upState { state := .acquiring, master := some 9, goodSince := some 0, now := 1_000_000_000, errPs := 2000
                   lost := lost } .member, 0, by revert lost; decide⟩

def tPtp (sync announce bad : Bool) (off : Int) : PtpMsg :=
  ⟨false, false, 0x12, false, sync, announce, 2, 9, 0, bad, true, 0, off⟩
theorem wit_MastersAndPortsComeAndGo :
    (ptpUnlisted { tPtp true false false 0 with tagged := true } = true ∧ ptpUnlisted (tPtp true false true 0) = false ∧
      ptpUnlisted (tPtp false true false 0) = false) ∧
    (∀ n ∈ [1, 2], let s := upState { master := some 9, badSyncs := n, state := .locked } .member
      ptpBad s (tPtp true false true 0) = true ∧ ptpBad s (tPtp true false false 8001) = true ∧
      s.tim.master = some (tPtp true false true 0).master ∧ s.tim.badSyncs = n) ∧
    (∀ e ∈ [(2000 : Int), -2001], let s := upState { master := some 9, state := .holdover } .member
      ptpBad s (tPtp true false false e) = false ∧ s.ncr.timeRole ≠ .reference ∧
      (tPtp true false false e).isAnnounce = false ∧ (tPtp true false false e).isSync = true ∧
      s.tim.master = some (tPtp true false false e).master ∧ s.tim.state = .holdover) ∧
    (ptpBad (upState {} .member) (tPtp false true false 0) = false ∧ (tPtp false true false 0).isAnnounce = true) ∧
    (∃ (s : State) (w : W64), s.tim.master = some w ∧ s.tim.lastAnnounce + 375_000_000 ≤ s.tim.now) ∧
    (∃ (s : State) (w : W64) (x : Nat), (w.toNat, x) ∈ s.tim.excluded ∧ x ≤ s.tim.now) ∧
    ((7 : BitVec 4).toNat < 8) ∧
    (∃ (s : State) (port : BitVec 3), (s.ncr.ports.getD port.toNat {}).enabled = true) ∧
    (∃ (s : State) (port : BitVec 3), (s.port port.toNat).link ≠ .down ∧ s.err.coal = []) :=
  ⟨by decide, by decide, by decide, by decide, ⟨upState { master := some 9, now := 375_000_000 } .member, 9, by decide⟩,
    ⟨upState { excluded := [(9, 5)], now := 5 } .member, 9, 5, by decide⟩, by decide,
    ⟨{ ncr := { ports := [{ enabled := true }] } }, 0, rfl⟩,
    ⟨{ fab := { ports := [(7, { link := .up })] } }, 7, by decide, rfl⟩⟩

/-! ### Witnesses: launch, holds and orders -/

/-- A node 0 with an image loaded whose hedge 0 has the given members, holding a PREPARE or none. -/
def launchImage (ms : List NodeId) : Image :=
  { tImage [⟨0, 8192, 0, 0, 3, 0⟩] [] with hedges := [⟨0, 2, 7, ms, 0, 9, 0, 0⟩], starts := [⟨1, 2, 0x1000, 9⟩] }
def launchState (ms : List NodeId) (h : Option Held) (now : Nat) : State :=
  { host := { node := .ready, linkUp := true }
    job := { phase := .loaded, image := some (launchImage ms), prep := h, hedges := [⟨0, 1, 0, 0, ms, 2, 7, 0, 0, 8192, 9, 0, 0, [], []⟩] }
    tim := { now := now, hall := now, service := true, state := .locked }
    fab := { espState := .running, bank0 := ⟨some tPlan, true⟩, k := 6
             ports := [(0, { assocs := [⟨0, false, 0, 0, [], [], 0, 1⟩] })] } }
def heardFrom (s : State) (n : NodeId) : Bool := mayDecrypt s (lineTo s n) && !(s.pair n).quarantined
def tPrep (root : NodeId) (purpose : Byte) : PrepMsg :=
  { launchId := 77, tGo := 10_000_000, commitDeadline := 1_000_000, expiry := 2_000_000, root := root, arity := 2
    purpose := purpose, epoch := 0, digest := if purpose = 1 then leBytes 4 6 ++ List.replicate 60 0 else [] }
def tHeld (root : NodeId) (purpose : Byte) : Held := { msg := tPrep root purpose, parentA := some 5, parentB := some 5 }

theorem wit_LaunchIsPreparedAndCommitted :
    ([5, 6].all (heardFrom (launchState [0, 5, 6] none 0)) &&
      [5, 7, 8].all (heardFrom (launchState [5, 0, 6, 7, 8] none 0))) = true ∧
    (let s := launchState [0, 5, 6] none 0
     Safety.Mailbox s ∧ timesOk 10000 100 6000 2 = true ∧ (0 : W32).toNat = (nodeId s).toNat ∧ hostAssisted s 7 = true ∧
      s.job.phase = .loaded ∧ s.hold.state = .run ∧ (∀ i, i < 12 → (s.stack i).state ≠ .failed) ∧
      2 ≤ (declared0 s).length ∧ takesCtl s = true ∧ s.job.prep = none ∧ launchReady s (tPrep 5 0) = true ∧
      kids s (tPrep 0 0) .A = [5, 6]) ∧
    (let s := launchState [5, 0, 6, 7, 8] (some (tHeld 5 0)) 20_000
     takesCtl s = true ∧ (tHeld 5 0).lastSend + 20_000 ≤ s.tim.now ∧ s.tim.hall ≤ (tHeld 5 0).msg.expiry.toNat ∧
      (tHeld 5 0).committed = false ∧ kids s (tPrep 5 0) .A = [7, 8] ∧ (tPrep 5 0).root ≠ nodeId s ∧
      ownAck s (tHeld 5 0) = .ok ∧ (tHeld 5 0).acked .A = false ∧ (tHeld 5 0).parent .A = some 5 ∧
      kidsAcked s { tHeld 5 0 with acks := [(true, 7, 0, 1)] } .A = false ∧
      kidsAcked s { tHeld 5 0 with acks := [(true, 7, 0, 1), (true, 8, 0, 1)] } .A = true) ∧
    (let s := launchState [0, 5, 6] (some (tHeld 0 0)) 20_000
     takesCtl s = true ∧ (5 : NodeId) ∈ kids s (tPrep 0 0) .A ∧ (tPrep 0 0).root = nodeId s ∧ (tHeld 0 0).copies = 0 ∧
      s.tim.hall ≤ (tPrep 0 0).commitDeadline.toNat ∧ (tPrep 0 0).purpose = 0 ∧
      fullyAcked s { tHeld 0 0 with acks := [(true, 5, 0, 1)] } = false ∧
      fullyAcked s { tHeld 0 0 with acks := [(true, 6, 0, 1), (true, 5, 0, 1)] } = true) ∧
    (let h := { tHeld 0 0 with committed := true, copies := 2, lastCopy := 18_000 }
     let s := launchState [0, 5, 6] (some h) 20_000
     takesCtl s = true ∧ s.job.prep = some h ∧ h.msg.root = nodeId s ∧ h.copies < 3 ∧ h.lastCopy + 2000 ≤ s.tim.now) ∧
    (let s := { launchState [0, 5, 6] (some (tHeld 5 1)) 2_000_000 with
        job := { (launchState [0, 5, 6] (some (tHeld 5 1)) 0).job with hedges := [{ tHedge with state := 2, members := [0, 5, 6] }] } }
     takesCtl s = true ∧ s.job.prep = some (tHeld 5 1) ∧ (tPrep 5 1).purpose = 1 ∧ failedOf (tPrep 5 1) = [6] ∧
      nodeId s ∉ failedOf (tPrep 5 1) ∧ s.fab.ready = [] ∧ s.fab.pairs = [] ∧ s.fab.awaiting = [] ∧
      (∀ b q, (s.q b q).inflight = []) ∧ (s.job.hedges.map Hedge.id).Nodup ∧
      (∀ g ∈ s.job.hedges, g.id < 4096 ∧ g.state ≠ 1)) ∧
    (let s := launchState [0, 5, 6] (some (tHeld 0 0)) 2_000_000
     s.job.prep = some (tHeld 0 0) ∧ (tHeld 0 0).committed = false ∧ (tPrep 0 0).root = nodeId s ∧
      (tPrep 0 0).commitDeadline.toNat ≤ s.tim.hall ∧ fullyAcked s (tHeld 0 0) = false ∧
      (tPrep 0 0).expiry.toNat ≤ s.tim.hall) := by
  refine ⟨by decide +kernel, ⟨mailbox_ready _ rfl rfl rfl rfl, ?_⟩, ?_, ?_, ?_, ⟨?_, ?_, ?_, ?_, ?_, ?_, ?_, ?_, fun _ _ => rfl, ?_, ?_⟩, ?_⟩ <;>
    decide +kernel

theorem wit_TGoStartsTheJob :
    (let h := { tHeld 5 0 with committed := true }
     let s := launchState [0, 5, 6] (some h) 10_000_000
     s.job.prep = some h ∧ h.committed = true ∧ h.msg.tGo.toNat ≤ s.tim.hall ∧ s.host.node ≠ .halted ∧ h.msg.purpose = 0 ∧
      (∀ e ∈ (s.job.image.map Image.starts).getD [], ∀ x ∈ (s.job.image.map Image.starts).getD [],
        (BitVec.ofNat 6 (x.core * 4 + x.thread) : BitVec 6) = BitVec.ofNat 6 (e.core * 4 + e.thread) → x = e)) ∧
    (let h := { tHeld 5 1 with committed := true }
     let s := launchState [0, 5, 6] (some h) 10_000_000
     s.job.prep = some h ∧ h.msg.tGo.toNat ≤ s.tim.hall ∧ h.msg.purpose ≠ 0 ∧ s.hold.restored = false) ∧
    (∃ (s : State), (s.q tb .VQ).stream ≠ [] ∧ s.host.node ≠ .halted) := by
  refine ⟨?_, ?_, ⟨tFront .VQ nopCmd, ?_⟩⟩ <;> decide +kernel

/-- Holds: members 0, 5 and 6, coordinator 5 or this node, in hardware mode. -/
def holdBase (h : Hold) (now : Nat) : State :=
  { launchState [0, 5, 6] none now with
    hold := h, host := { node := .ready, linkUp := true, mode := 0 }
    job := { (launchState [0, 5, 6] none 0).job with phase := .running, started := true } }
def tNotice (orphan : Bool) : Notice := ⟨1, 5, 3, orphan, false, []⟩
def tCoal (n : Nat) : Coal :=
  { code := .residueRetry, unitKind := 0, unit := 4, ends := 5, count := n
    last := ⟨.C, 0, 0, 4, .residueRetry, .ok, false, none, 0, 1, 0, []⟩ }
theorem wit_HoldsReachTheCoordinator :
    (let s := holdBase { state := .holding, coordinator := some 5 } 10_000_000
     s.hold.state = .holding ∧ holdReached s = true ∧ s.hold.firstHalt + s.ncr.holdLimitMs * 1_000_000 ≤ s.tim.hall ∧
      s.err.coal = [] ∧ hostAssisted s 4 = false ∧ coordinatorOf s ≠ nodeId s) ∧
    (∀ e ∈ [none, some 9], let s := { holdBase { settleEnds := e } 0 with fab := { control := [(5, noticeBytes (tNotice false))] } }
      s.fab.control = [(5, noticeBytes (tNotice false))] ∧ hostAssisted s 4 = false ∧ (tNotice false).orphan = false ∧
      ([] : List (NodeId × List Byte)).length + (members0 s).length ≤ 4096 ∧ (s.hold.settleEnds.isSome = true ↔ e ≠ none)) ∧
    (∀ k ∈ [0, 4], let s0 := holdBase { settleEnds := some 5, notices := [(5, tNotice false)] } 5
      let s := { s0 with job := { s0.job with image := some { launchImage [0, 5, 6] with
                                    stateset := some ⟨k, 1, false, 0xFFFF, [], []⟩ } } }
      s.hold.settleEnds = some 5 ∧ 5 ≤ s.tim.now ∧ hostAssisted s 4 = false ∧ (stateSet s = none ↔ k = 0) ∧
      s.fab.control.length + (members0 s).length ≤ 4096) ∧
    (let s := holdBase { noticeAt := some 0, state := .held, tried := [0] } 40_000_000
     s.hold.noticeAt = some 0 ∧ s.hold.state = .held ∧ 0 + 2 * s.ncr.settleMs * 1_000_000 ≤ s.tim.now ∧
      s.hold.tried.length < 16 ∧ (members0 s).find? (fun m => !s.hold.tried.contains m) = some 5 ∧ (5 : NodeId) ≠ nodeId s) ∧
    (∀ n ∈ [0, 3], let s : State := { err := { coal := [tCoal n] }, tim := { now := 5 } }
      s.err.coal.find? (fun w => w.code.info.1 == (BitVec.ofNat 16 ErrCode.residueRetry.info.1).toNat && w.unit == 4 && w.ends ≤ s.tim.now) = some (tCoal n)) := by
  refine ⟨?_, ?_, ?_, ?_, ?_⟩ <;> decide +kernel

def ordState (h : Hold) (control : List (NodeId × List Byte)) : State :=
  { holdBase h 0 with fab := { control := control } }
theorem wit_OrdersMoveTheJob :
    (∀ op ∈ [1, 2, 5, 6], let s := ordState {} [(5, orderBytes op 0 0 0 0 [])]
      ∃ rest, s.fab.control = (5, orderBytes op 0 0 0 0 []) :: rest) ∧
    (let s := ordState {} []
     Safety.Mailbox s ∧ s.job.phase = .running ∧ s.hold.state = .run) ∧
    (∀ r ∈ [false, true], let s := ordState { state := .held, wasReset := r } []
      Safety.Mailbox s ∧ s.job.phase = .running ∧ s.hold.state = .held ∧ s.hold.wasReset = r ∧ s.sec.candidates = []) ∧
    (let s := ordState { state := .held } []
     Safety.Mailbox s ∧ s.hold.state = .held ∧ (∀ b ∈ liveBlocks s, ∀ q, (s.q b q).state ≠ .halt) ∧ s.hold.fatal = false ∧
      s.hold.wasReset = false ∧ s.hold.stepPending = false ∧ s.ckpt.cutting = false ∧ coordinatorOf s = nodeId s ∧ onPeriod s 10000 = true ∧
      timesOk 10000 100 6000 (BitVec.ofNat 8 (((hedgeOf s 0).map Hedge.arity).getD 2)) = true ∧
      2 ≤ (launchMembers s { tPrep 0 1 with digest := slice (([6] : List NodeId).flatMap fun n => leBytes 4 n.toNat) 0 64 }).length) ∧
    (let s := ordState { state := .held, wasReset := true } []
     s.hold.state = .held ∧ Safety.Mailbox s ∧ s.hold.wasReset = true ∧ buddyOf s = none) ∧
    (let s := ordState { state := .resetting } []
     s.hold.state = .resetting ∧ drained s = true ∧ s.host.cbuf.length + resetRecords s ≤ 4096 ∧ s.hold.ending = false ∧
      stateSet s = none ∧ s.hold.want = none) := by
  refine ⟨fun op _ => ⟨[], rfl⟩, ⟨mailbox_ready _ rfl rfl rfl rfl, by decide, by decide⟩,
    fun r _ => ⟨mailbox_ready _ rfl rfl rfl rfl, rfl, rfl, rfl, rfl⟩,
    ⟨mailbox_ready _ rfl rfl rfl rfl, rfl, fun b _ q => ?_, ?_⟩, ⟨rfl, mailbox_ready _ rfl rfl rfl rfl, rfl, ?_⟩, ?_⟩
  · have e : (ordState { state := .held } []).q b q = {} := rfl
    rw [e]
    decide
  all_goals decide +kernel

/-! ### Witnesses: field cores -/

/-- A hart 5 in a mode, with the instruction of a word at its pc 0x1000 in memory, its interrupt compare at 0. -/
def hartMem (w : Nat) : List Host.Cell := (leBytes 4 w).zipIdx.filterMap fun e =>
  if e.1 = 0 then none else some (((place {} (0x1000 + e.2)).key).getD 0, e.1)
def tHart : Hart := { state := .running, pc := 0x1000, tcmp := 0, x := [(5, 0x2000), (6, 7)] }
def hartState (w : Nat) (k : Hart) : State :=
  { mem := hartMem w, harts := [(5, k)], host := { node := .ready }, job := { phase := .running, hedges := [tHedge] }
    apt := [(0, 0x0300_0300_0000_0005)] }
theorem calm_of_mie (s : State) (h : BitVec 6) (e : (s.hart h).csr.mie = 0) : pendingIntr (drew s) h = none := by
  have e' : ((drew s).hart h).csr.mie = 0 := e
  unfold pendingIntr
  simp [e', wbit]
theorem mip_of_tcmp (s : State) (h : BitVec 6) (e : (s.hart h).tcmp = 0) (m : (s.hart h).csr.mip = 0) :
    mipOf s h = BitVec.ofNat 64 (bn (s.hart h).msip <<< 3) ||| 0x80 := by
  unfold mipOf
  simp [e, m, bn]
theorem hartState_ready (w : Nat) (k : Hart) (r : k.state = .running) (m : k.missWait = false) (e : k.csr.mie = 0) :
    Safety.HartReady (hartState w k) 5 := ⟨rfl, m, r, calm_of_mie _ _ e⟩

/-- `add x1, x5, x6`, `addi x1, x5, -1`, `beq x5, x6, 8` and `jal x1, 16`, each of 4 bytes. -/
theorem wit_HartRowsComplete_instruction : ∀ w ∈ [0x006280B3, 0xFFF28093, 0x00628463, 0x010000EF, 0x0FF0000F],
    let s := hartState w tHart
    let f := fetchHalf (drew s) 5 (s.hart 5).pc
    Safety.HartReady s 5 ∧ Safety.Clean s ∧ f.2 = .inl (w % 65536) ∧
    (fetchHalf f.1 5 ((s.hart 5).pc + 2)).2 = .inl (w / 65536) ∧ w % 65536 % 4 = 3 := by
  intro w hw
  refine ⟨hartState_ready _ _ rfl rfl rfl, ⟨rfl, fun _ => rfl⟩, ?_⟩
  revert w
  decide +kernel
theorem wit_HartRowsComplete_words : rvOp (nfld 0x006280B3 25 7) (nfld 0x006280B3 12 3) 0x2000 7 = some 0x2007 ∧
    0x006280B3 % 128 = 0x33 ∧ rvOpImm 0xFFF28093 0x2000 (immI 0xFFF28093) = some 0x1FFF ∧ 0xFFF28093 % 128 = 0x13 ∧
    rvBranch (nfld 0x00628463 12 3) 0x2000 7 = some false ∧ 0x00628463 % 128 = 0x63 ∧ immB 0x00628463 = 8 ∧
    0x010000EF % 128 = 0x6F ∧ immJ 0x010000EF = 16 ∧ 0x0FF0000F % 128 = 0x0F ∧ nfld 0x0FF0000F 12 3 = 0 ∧
    tHart.stFault = none ∧ tHart.apFault = none ∧ nfld 0x0FF0000F 26 2 ≠ 0 ∧ tHart.apStores = [] := by decide +kernel
theorem wit_HartRowsComplete_access :
    (let s := hartState 0 tHart
     Safety.HartReady s 5 ∧ Safety.Clean s ∧ tHart.stFault = none ∧ (tHart.xr 5).toNat % 8 = 0 ∧
      (let u := translate (drainCore (drew s) (coreOf 5)) 5 .store (tHart.xr 5)
       u.2 = .inl 0x2000 ∧ inAperture 0x2000 = false ∧ amoPlace u.1 0x2000 = true)) ∧
    (let s := hartState 0 { tHart with csr := { mstatus := 0x8000 } }
     let addr : W64 := 0x80_0000_0000_0040
     let e := s.apt.get 0 ((addr.toNat - 0x80_0000_0000_0000) / 2 ^ 36)
     Safety.HartReady s 5 ∧ svOn s 5 = true ∧ inAperture addr.toNat = true ∧ apSizeOk .load 8 = true ∧ apSizeOk .store 16 = true ∧ apSizeOk (.amo .add) 4 = true ∧
      tHart.stFault = none ∧ tHart.apFault = none ∧ addr.toNat % 16 = 0 ∧ wbit e 56 = true ∧ wbit e 57 = true ∧
      hedgeMember s (fld e 40 16) (BitVec.ofNat 20 (fld e 0 20)) = true ∧ tHart.apStores.length < 16 ∧
      (apAmo .add).isSome = true ∧ inAperture (0x80_1000_0000_0040 : W64).toNat = true ∧ wbit (s.apt.get 0 1) 56 = false) := by
  refine ⟨⟨hartState_ready _ _ rfl rfl rfl, ⟨rfl, fun _ => rfl⟩, ?_⟩, hartState_ready _ _ rfl rfl rfl, ?_⟩ <;> decide +kernel
theorem wit_HartRowsComplete_waits : tHart.state = .running ∧
    (∀ v ∈ [false, true], ∃ k : Hart, k.ap = some ⟨.load, 8, 0, 1, 5, v, false, false, 4⟩ ∧ k.priv = .M) ∧
    Status.ofCode (2 : Byte).toNat ≠ .ok ∧ (∃ k : Hart, k.ap = some ⟨.load, 8, 0, 1, 5, false, true, true, 4⟩) :=
  ⟨rfl, fun v _ => ⟨{ ap := some ⟨.load, 8, 0, 1, 5, v, false, false, 4⟩ }, rfl, rfl⟩, by decide,
    ⟨{ ap := some ⟨.load, 8, 0, 1, 5, false, true, true, 4⟩ }, rfl⟩⟩
theorem wit_HartRowsComplete_interrupts :
    (let s := hartState 0 { tHart with csr := { mie := 0x80, mstatus := 8 } }
     (s.hart 5).tcmp.toNat ≤ stamp s ∧ (s.hart 5).missWait = false ∧ (s.hart 5).state = .running ∧
      pendingIntr s 5 = some 7 ∧ (s.hart 5).priv = .M) ∧
    (let s := hartState 0 { tHart with state := .wfi, csr := { mie := 0x80 } }
     (s.hart 5).tcmp.toNat ≤ stamp s ∧ (s.hart 5).state = .wfi ∧ wakes s 5 = true ∧ pendingIntr s 5 = none) ∧
    (∀ m ∈ [0, 8], let s := hartState 0 { tHart with csr := { mie := BitVec.ofNat 64 m, mstatus := 8 } }
     let u := s.setHart 5 { s.hart 5 with msip := true }
     hartPresent s 5 = true ∧ (s.hart 5).state = .running ∧ (s.hart 5).missWait = false ∧
      pendingIntr u 5 = (if m = 0 then none else some 3) ∧ (s.hart 5).priv = .M) ∧
    (∃ s : State, (s.hart 5).state = .running ∧ (s.hart 5).priv ≠ .M ∧ wbit (s.hart 5).csr.medeleg 7 = false) := by
  refine ⟨⟨Nat.zero_le _, rfl, rfl, ?_, rfl⟩, ⟨Nat.zero_le _, rfl, ?_, ?_⟩, fun m hm => ⟨rfl, rfl, rfl, ?_, rfl⟩,
    ⟨{ harts := [(5, { state := .running, priv := .U })] }, rfl, by decide, rfl⟩⟩
  · unfold pendingIntr
    rw [mip_of_tcmp _ _ rfl rfl]
    decide +kernel
  · unfold wakes
    rw [mip_of_tcmp _ _ rfl rfl]
    decide +kernel
  · unfold pendingIntr
    rw [mip_of_tcmp _ _ rfl rfl]
    decide +kernel
  · unfold pendingIntr
    rw [mip_of_tcmp _ _ rfl rfl]
    revert m
    decide +kernel

/-! ### Witnesses: SV128, host, mailbox -/

def svHart : Hart := { tHart with csr := { mstatus := 0x8000 }, v := [(1, 0x80FF)] }
theorem wit_SvIntegerRowsComplete : ∀ n ∈ [0, 1], let r : SvRegs := ⟨5, 1, 2, BitVec.ofNat 5 n⟩
    Safety.HartReady (hartState 0 svHart) r.hart ∧ svOn (hartState 0 svHart) r.hart = true ∧ r.vs2.toNat < 16 / 8 ∧
      (r.vs2 = 0 ↔ n = 0) := by
  intro n hn
  have on : svOn (hartState 0 svHart) 5 = true := by decide
  refine ⟨hartState_ready _ _ rfl rfl rfl, on, ?_⟩
  revert n
  decide
theorem wit_SvFloatAndMemoryRowsComplete :
    (∀ rm ∈ [Rnd.rne, .rtz, .rdn, .rup, .rmm], ∃ (k : Hart), Safety.HartReady (hartState 0 k) 5 ∧
      svOn (hartState 0 k) 5 = true ∧ rvRnd (nfld k.svcsr.toNat 5 3) = some rm) ∧
    (let s := hartState 0 svHart
     Safety.HartReady s 5 ∧ svOn s 5 = true ∧ Safety.Clean s ∧ svHart.priv = .M ∧ wbit svHart.csr.mstatus 17 = false ∧
      svHart.csr.pmpcfg = [] ∧ svHart.svindex = 0 ∧ (svHart.xr 5).toNat % 8 = 0 ∧ (svHart.xr 5).toNat + 16 ≤ 2 ^ 47 ∧
      svHart.stFault = none ∧ drainFor (drew s) 5 (svHart.xr 5).toNat 16 = drew s ∧
      ∀ i, i < 16 → ∃ st a, place s ((svHart.xr 5).toNat + i) = .mem st a) := by
  constructor
  · intro rm hr
    simp only [List.mem_cons, List.not_mem_nil, or_false] at hr
    rcases hr with rfl | rfl | rfl | rfl | rfl
    · exact ⟨{ svHart with svcsr := 0 }, hartState_ready _ _ rfl rfl rfl, by decide, by decide⟩
    · exact ⟨{ svHart with svcsr := 0x20 }, hartState_ready _ _ rfl rfl rfl, by decide, by decide⟩
    · exact ⟨{ svHart with svcsr := 0x40 }, hartState_ready _ _ rfl rfl rfl, by decide, by decide⟩
    · exact ⟨{ svHart with svcsr := 0x60 }, hartState_ready _ _ rfl rfl rfl, by decide, by decide⟩
    · exact ⟨{ svHart with svcsr := 0x80 }, hartState_ready _ _ rfl rfl rfl, by decide, by decide⟩
  · refine ⟨hartState_ready _ _ rfl rfl rfl, by decide, ⟨rfl, fun _ => rfl⟩, rfl, by decide, rfl, rfl, by decide, by decide,
      rfl, rfl, fun i hi => ⟨0, 0x2000 + i, ?_⟩⟩
    revert i
    decide +kernel

/-! ### Witnesses: the host interface and the mailbox -/

/-- A node that is up, with two stacks ready and what the test sets of its host interface. -/
def hostState (h : HostIf) : State :=
  { host := { h with node := .ready, linkUp := true }, stk := [(0, { state := .ready }), (8, { state := .ready })] }
theorem host_copied (h : HostIf) (n : Nat) : ((hostState h).stack n).ckPending = [] := by
  simp only [hostState, State.stack, SMap.get]
  split
  · rfl
  · split <;> rfl
theorem host_mailbox (h : HostIf) (b : h.bg = none) : Safety.Mailbox (hostState h) := mailbox_ready _ rfl rfl rfl b
def hdmState : State := hostState { hdmSize := 2 ^ 30 }
theorem wit_CxlRowsComplete :
    hdmState.host.linkUp = true ∧ hdmState.host.node ≠ .start ∧ hdmState.lineFault = [] ∧ hdmState.err.coal = [] ∧
    Safety.Clean hdmState ∧
    (∀ a ∈ [0, 2 ^ 30 - 1], hdmState.host.hdmBase ≤ a ∧ a < hdmState.host.hdmBase + hdmState.host.hdmSize ∧
      ∃ st x, place hdmState (0x100_0000_0000 + (a - a % 64)) = .mem st x ∧ (hdmState.stack st).state = .ready) ∧
    (hdmState.host.hdmBase + hdmState.host.hdmSize ≤ (0x4000_0000 : W64).toNat) ∧
    (0 < ([1] : List Byte).length ∧ (63 : W64).toNat % 64 + ([1] : List Byte).length ≤ 64 ∧
      ∃ st x, place hdmState (0x100_0000_0000 + (63 : W64).toNat) = .mem st x ∧ (hdmState.stack st).state = .ready) ∧
    (∃ s : State, s.host.node = .start) ∧
    (∃ s : State, s.host.node ≠ .start ∧ s.host.leaseHeld = true ∧ s.job.phase ≠ .running) ∧
    (∃ s : State, s.host.node ≠ .start ∧ s.host.leaseHeld = false ∧ s.job.phase = .running) ∧
    (∃ s : State, s.host.node ≠ .start ∧ s.host.linkUp = false ∧ s.pwr.perstN = true) := by
  refine ⟨rfl, by decide, rfl, rfl, ⟨rfl, host_copied _⟩, fun a ha => ?_, by decide +kernel, ?_, ⟨{}, rfl⟩,
    ⟨{ host := { node := .ready, leaseHeld := true } }, by decide⟩,
    ⟨{ host := { node := .ready }, job := { phase := .running } }, by decide⟩,
    ⟨{ host := { node := .ready }, pwr := { perstN := true } }, by decide⟩⟩
  · simp only [List.mem_cons, List.not_mem_nil, or_false] at ha
    rcases ha with rfl | rfl
    · exact ⟨by decide, by decide +kernel, 0, 0, by decide +kernel⟩
    · exact ⟨by decide, by decide +kernel, 8, 89481152, by decide +kernel⟩
  · exact ⟨by decide, by decide, 0, 63, by decide +kernel⟩

theorem wit_InterruptCausesSendTheirVectors :
    (∀ i ∈ [0, 7],
      let s := hostState { mask := 0 }
      let m := hostState { mask := 0xFF }
      let c := hostState { cause := 0xFF }
      i < 8 ∧ s.host.linkUp = true ∧ (s.host.cause.getLsbD i = false ∧ s.host.mask.getLsbD i = false) ∧
        c.host.cause.getLsbD i = true ∧ (m.host.cause.getLsbD i = false ∧ m.host.mask.getLsbD i = true) ∧
        (0 : W64).getLsbD i = false) ∧
    Safety.Mailbox (hostState { mask := 0 }) := ⟨by decide, host_mailbox _ rfl⟩

def tRec : ErrRec :=
  { sev := .C, level := 0, unitKind := 0, unit := 0, code := .laneMark, status := .ok, lost := false, npa := none
    hall := 0, count := 1, seq := 0, detail := [] }
theorem wit_EmulatedRegistersRingsAndLeases :
    (∃ h : HostIf, h.linkUp = true ∧ (6 : Byte).toNat < 7 ∧ h.emQueue.length < 64) ∧
    (∃ h : HostIf, h.linkUp = true ∧ 64 ≤ h.emQueue.length) ∧
    (∃ (h : HostIf) (c : ComplRec), h.linkUp = true ∧ h.cring.enable = true ∧
      (h.cring.prod - h.cring.cons).toNat < ringEntries 0 h.cring ∧ h.cbuf = c :: []) ∧
    (∃ (s : State) (r : ErrRec), s.host.linkUp = true ∧ s.host.ering.enable = true ∧
      (s.host.ering.prod - s.host.ering.cons).toNat < ringEntries 1 s.host.ering ∧
      s.err.log.find? (fun e => !e.2) = some (r, false)) ∧
    (∃ (h : HostIf) (x : LogEnt), h.linkUp = true ∧ h.lring.enable = true ∧
      (h.lring.prod - h.lring.cons).toNat < 32768 ∧ h.logq = x :: []) ∧
    (∀ orphan ∈ [false, true], ∃ h : HostIf, h.linkUp = true ∧ h.leaseHeld = false ∧ h.orphan = orphan) ∧
    (∃ s : State, s.host.linkUp = true ∧ s.host.leaseHeld = true ∧ s.host.holder = 5 ∧ s.tim.now < s.host.leaseEnds ∧
      s.err.coal = [] ∧ s.job.phase ≠ .running) ∧
    (∃ s : State, s.host.linkUp = true ∧ s.host.leaseHeld = true ∧ s.host.holder = 5 ∧ s.tim.now < s.host.leaseEnds ∧
      s.err.coal = [] ∧ s.job.phase = .running ∧ s.hold.state = .run ∧ s.host.mode &&& 0x1FF &&& ~~~s.ncr.fallback ≠ 0) ∧
    (∃ s : State, s.host.leaseHeld = true ∧ s.host.leaseEnds ≤ s.tim.now ∧ s.err.coal = []) ∧
    (∀ i ∈ [0, 6], ∃ s : State, s.host.emQueue = (i, 5, 1) :: [] ∧ (∀ p, p ∈ s.pwr.restarting → 4 ≤ p) ∧ i < 7) := by
  refine ⟨⟨{ linkUp := true }, by decide⟩,
    ⟨{ linkUp := true, emQueue := List.replicate 64 (0, 0, 0) }, by decide⟩,
    ⟨{ linkUp := true, cring := { enable := true, prod := 62, cons := 0xFFFF_FFFF }
       cbuf := [⟨.ok, 0, 0, 0, 0, 0, 0, 0, 0⟩] }, ⟨.ok, 0, 0, 0, 0, 0, 0, 0, 0⟩, by decide +kernel⟩,
    ⟨{ host := { linkUp := true, ering := { enable := true, prod := 15 } }, err := { log := [(tRec, true), (tRec, false)] } },
      tRec, by decide +kernel⟩,
    ⟨{ linkUp := true, lring := { enable := true }, logq := [⟨0, 0, 0, 0, 0, []⟩] }, ⟨0, 0, 0, 0, 0, []⟩, by decide +kernel⟩,
    fun orphan _ => ⟨{ linkUp := true, orphan := orphan }, rfl, rfl, rfl⟩,
    ⟨{ host := { linkUp := true, leaseHeld := true, holder := 5, leaseEnds := 1 } }, by decide⟩,
    ⟨{ host := { linkUp := true, leaseHeld := true, holder := 5, leaseEnds := 1 }, job := { phase := .running } }, by decide⟩,
    ⟨{ host := { leaseHeld := true, leaseEnds := 1 }, tim := { now := 1 } }, by decide⟩,
    fun i hi => ⟨{ host := { emQueue := [(i, 5, 1)] } }, rfl, by simp, ?_⟩⟩
  revert i
  decide

theorem wit_MailboxCommandsAnswer :
    (∀ g : Option Bg, Safety.Mailbox { (hostState { bg := g, bgLast := g }) with host := { (hostState {}).host with bg := none } } ∧
      (hostState { bg := g, bgLast := g }).host.bg = g ∧ (hostState { bg := g, bgLast := g }).host.bgLast = g) ∧
    (hostState {}).job.phase ≠ .running ∧
    (∃ s : State, Safety.Mailbox { s with host := { s.host with bg := none } } ∧ s.sec.maint = true ∧ s.sec.staged = false) ∧
    (Safety.Mailbox (hostState {}) ∧ (0x1FF : W32).toNat ≤ 0x1FF ∧ hostAssisted (hostState {}) 5 = true) :=
  ⟨fun _ => ⟨mailbox_ready _ rfl rfl rfl rfl, rfl, rfl⟩, by decide,
    ⟨{ (hostState {}) with sec := { maint := true } }, mailbox_ready _ rfl rfl rfl rfl, rfl, rfl⟩,
    host_mailbox _ rfl, by decide, by decide⟩

/-- The least image: a header and a table of three sections, a buffer of node memory and its remote window, hedge 0 of
node 0 alone on them, and the manifest with the digests of both and of the table (04 Tables 04.1 and 04.2, R97, R239). -/
def leastTable : List Byte :=
  leBytes 4 0x48544E46 ++ leBytes 2 3 ++ [3, 3, 3, 0] ++ leBytes 2 3 ++ List.replicate 52 0 ++
    ([(3, 192, 64, 2), (5, 256, 68, 1), (9, 384, 192, 3)] : List (Byte × Nat × Nat × Nat)).flatMap fun x =>
      [x.1, 0xFF, 0, 0, 0, 0, 0, 0] ++ leBytes 8 x.2.1 ++ leBytes 8 x.2.2.1 ++ leBytes 4 x.2.2.2 ++ [0, 0, 0, 0]
def leastBufs : List Byte :=
  leBytes 8 0 ++ leBytes 8 4096 ++ leBytes 2 0 ++ [0, 3] ++ List.replicate 12 0 ++
    leBytes 8 0 ++ leBytes 8 4096 ++ leBytes 2 1 ++ [4, 3] ++ List.replicate 12 0
def leastHedges : List Byte :=
  leBytes 2 0 ++ [2, 0xF] ++ leBytes 4 1 ++ leBytes 8 64 ++ leBytes 2 0 ++ leBytes 2 1 ++ List.replicate 44 0 ++ leBytes 4 0
def leastImage : List Byte :=
  leastTable ++ List.replicate 32 0 ++ leastBufs ++ leastHedges ++ List.replicate 60 0 ++
    shake256 leastBufs ++ shake256 leastHedges ++ shake256 leastTable
/-- A node with bytes in host memory at 64, and a host buffer there. -/
def hostCells (bs : List Byte) : List Host.Cell := bs.zipIdx.filterMap fun e =>
  if e.1 = 0 then none else some (64 + e.2, e.1)
def bufferState (bs : List Byte) : State := hostState { mem := hostCells bs }
def tBuf (n : Nat) : HostBuf := ⟨64, BitVec.ofNat 64 n⟩
def leastNode : State := substitute (bufferState leastImage)
def leastSects : List Sect := sectsOf leastImage
def leastInits : State := applyInits leastNode (bufsOf leastSects) (imageInits leastImage)
def leastView : State := verifierNode leastInits (imageOf leastInits leastImage)
theorem least_read : rdHostN (bufferState leastImage) (tBuf 576).addr.toNat (tBuf 576).len.toNat = leastImage := by
  decide +kernel
theorem least_checks : imageOffences leastImage = [] ∧ memberOffences leastNode leastImage = [] ∧
    digestOffences leastImage = [] ∧ leastSects.filter (sectAbsent leastNode) = [] ∧ bufferOffences leastNode leastSects = [] ∧
    initOffences leastNode leastSects = [] := by decide +kernel
theorem least_parts : startOffences leastInits leastSects = [] ∧
    hedgeOffences ((le leastImage 9 1).testBit 1) leastSects = [] ∧ stateSetOffences leastView leastSects = [] ∧
    patternOffences leastSects = [] ∧ planOffences leastView leastSects = [] ∧
    (leastSects.flatMap fun x => if x.type = 1 then sectOffences leastView leastSects x else []) = [] ∧
    walkOffences leastView leastSects [] [] = [] := by decide +kernel
theorem least_verifies : verify leastNode leastImage = [] := by
  obtain ⟨a, b, c, d, e, f⟩ := least_checks
  obtain ⟨g, h, i, j, k, l, m⟩ := least_parts
  unfold leastView leastInits leastSects at *
  simp only [verify, a, b, c, d, e, f, g, h, i, j, k, l, m, List.isEmpty_nil, Bool.not_true, Bool.false_eq_true,
    List.filter_nil, List.map_nil, List.append_nil, ite_self, List.eraseDups_nil, List.mergeSort_nil]

/-- An image that awaits its verdict, and a node whose host supplied a plan for an epoch to come. -/
def tDigest : List Byte := List.replicate 64 7
def armState : State :=
  { (hostState {}) with tim := { state := .locked }, fab := { bank1 := { plan := some { tPlan with k := 10 }, valid := true } } }
theorem wit_ImagesPlansAndKeysAreLoaded :
    (let s := bufferState leastImage
     Safety.Mailbox s ∧ hostBufOk (tBuf 576) = true ∧ s.job.phase = .none ∧ (∀ i, i < 12 → (s.stack i).state ≠ .failed) ∧
      verify (substitute s) (rdHostN s (tBuf 576).addr.toNat (tBuf 576).len.toNat) = []) ∧
    (let s := hostState {}
     Safety.Mailbox s ∧ hostBufOk (tBuf 0) = true ∧ s.job.phase = .none ∧ (∀ i, i < 12 → (s.stack i).state ≠ .failed) ∧
      verify (substitute s) (rdHostN s (tBuf 0).addr.toNat (tBuf 0).len.toNat) ≠ []) ∧
    (let s : State := { (hostState {}) with job := { phase := .awaiting, image := some { tImage [] [] with digest := tDigest } } }
     Safety.Mailbox s ∧ tDigest.length = 64 ∧ hostAssisted s 8 = true ∧ s.job.phase = .awaiting ∧
      s.job.image.map Image.digest = some tDigest) ∧
    (∀ bank ∈ [false, true], let s := hostState {}
     Safety.Mailbox s ∧ s.job.phase ≠ .running ∧ hostAssisted s 0 = true ∧
      ((activePlan s).isSome = true → bank ≠ s.fab.activeBank)) ∧
    (Safety.Mailbox armState ∧ (0x10000 : W64).toNat < 2 ^ 48 ∧ armCause armState (0x10000 : W64).toNat true = 0) ∧
    (∀ port ∈ [0, 7], let s : State := { (hostState {}) with sec := { ide := [(0, [])] } }
     Safety.Mailbox s ∧ keyLine s port = some (2 * port) ∧ (3 : Byte).toNat < 4 ∧ (List.replicate 12 (0 : Byte)).length = 12 ∧
      (List.replicate 32 (0 : Byte)).length = 32 ∧ s.sec.ide ≠ []) ∧
    (∀ type ∈ [1, 2, 4], let s : State :=
      { (bufferState [0, 0, 0, 0, BitVec.ofNat 8 type]) with sec := { maint := true } }
     Safety.Mailbox s ∧ hostBufOk (tBuf 5) = true ∧ s.job.image = none ∧ s.sec.maint = true ∧
      le (rdHostN s (tBuf 5).addr.toNat (min (tBuf 5).len.toNat (30 * 2 ^ 20))) 4 1 = type ∧ s.fuses.ownerHash = none) := by
  refine ⟨⟨mailbox_ready _ rfl rfl rfl rfl, by decide, rfl, by decide, ?_⟩,
    ⟨mailbox_ready _ rfl rfl rfl rfl, by decide, rfl, by decide, by decide +kernel⟩,
    ⟨mailbox_ready _ rfl rfl rfl rfl, by decide, by decide, rfl, rfl⟩,
    fun bank _ => ⟨mailbox_ready _ rfl rfl rfl rfl, by decide, by decide, fun h => absurd h (by decide)⟩,
    ⟨mailbox_ready _ rfl rfl rfl rfl, by decide, by decide +kernel⟩,
    fun port hp => ⟨mailbox_ready _ rfl rfl rfl rfl, ?_⟩, fun type ht => ⟨mailbox_ready _ rfl rfl rfl rfl, ?_⟩⟩
  · rw [least_read]
    exact least_verifies
  · revert port
    decide +kernel
  · revert type
    decide +kernel

theorem wit_HostBuffersAndMemoryTests :
    (let s : State := { (hostState {}) with job := { reportDigest := tDigest } }
     Safety.Mailbox s ∧ hostBufOk (tBuf 64) = true ∧ s.job.reportDigest ≠ [] ∧ s.pwr.daily = [] ∧ s.lineFault = [] ∧
      quarterWritten s false = false ∧ quarterWritten s true = false ∧ s.job.phase ≠ .running ∧ s.job.image = none ∧
      s.err.coal = []) ∧
    (let s : State := { (hostState {}) with job := { phase := .running }, hold := { state := .held } }
     Safety.Mailbox s ∧ hostBufOk ⟨0x3FF_FFFF_FFC0, 64⟩ = true ∧ s.hold.state = .held) ∧
    ((0 : BitVec 4).toNat < 12 ∧ (11 : BitVec 4).toNat < 12) ∧
    (∀ marks ∈ [[], [0, 1, 2]], let s : State := { (hostState {}) with stk := [(11, { chans := [(31, { marks := marks })] })] }
     Safety.Mailbox s ∧ (79 : BitVec 7).toNat < 80 ∧ (79 : BitVec 7).toNat ∉ ((s.stack 11).chan 31).marks ∧
      ((s.stack 11).chan 31).marks.length < 4 ∧ s.err.coal = []) ∧
    (∀ hard ∈ [false, true], ∃ n ∈ [0, 4], let s : State :=
      { (hostState {}) with stk := [(11, { repairs := (List.range n).map fun i => ⟨31, 63, i, false⟩ })] }
     Safety.Mailbox s ∧ s.job.phase ≠ .running ∧ s.lineFault = [] ∧ rowFree s 11 ⟨31, 63, 3, hard⟩ = true) ∧
    (∀ spare0 ∈ [none, some 1], let s : State :=
      { (hostState {}) with stk := [(11, { chans := [(31, { marks := [79], spare0 := spare0 })] })] }
     Safety.Mailbox s ∧ s.job.phase ≠ .running ∧ (79 : BitVec 7).toNat ∈ ((s.stack 11).chan 31).marks ∧
      (((s.stack 11).chan 31).spare0 = none ∨ ((s.stack 11).chan 31).spare1 = none)) := by
  refine ⟨⟨mailbox_ready _ rfl rfl rfl rfl, by decide⟩, ⟨mailbox_ready _ rfl rfl rfl rfl, by decide⟩, by decide,
    fun marks hm => ⟨mailbox_ready _ rfl rfl rfl rfl, ?_⟩,
    fun hard _ => ⟨0, by simp, mailbox_ready _ rfl rfl rfl rfl, by decide, rfl, ?_⟩,
    fun spare0 hs => ⟨mailbox_ready _ rfl rfl rfl rfl, ?_⟩⟩
  · revert marks
    decide
  · revert hard
    decide
  · revert spare0
    decide

/-! ### Witnesses: firmware, resets, start, power, debug, SPDM, registers -/

theorem wit_FirmwareRestartsLoseTheirWork :
    (∀ n ∈ [0, 10], let s : State := { (hostState { bg := some { opcode := 1, out := {} } }) with err := {} }
     n ≤ 10 ∧ restarting s n = false ∧ s.host.node ≠ .start ∧ s.err.coal = [] ∧ s.err.log.length < 4000 ∧
      s.host.bg = some { opcode := 1, out := {} }) ∧
    (∀ st ∈ [CkptState.sign, .copy], let s : State := { (hostState {}) with ckpt := { state := st } }
     restarting s 4 = false ∧ s.host.node ≠ .start ∧ s.err.coal = [] ∧ s.ckpt.state = st) ∧
    (let s : State := { (hostState {}) with job := { prep := some (tHeld 0 0) }, ckpt := { cutting := true } }
     restarting s 6 = false ∧ s.job.prep = some (tHeld 0 0) ∧ (tHeld 0 0).committed = false ∧ s.ckpt.cutting = true ∧
      (tHeld 0 0).acked .A = false ∧ (tHeld 0 0).parent .A = some 5) ∧
    (∀ running ∈ [false, true],
      let s : State := { (hostState {}) with job := { phase := if running then .running else .loaded, started := true } }
      restarting s 7 = false ∧ s.hold.state = .run ∧
        ((s.job.phase = .running ∧ s.job.started = true ∧ allAtStep s = true) ↔ running = true)) :=
  ⟨by decide, by decide, by decide +kernel, by decide +kernel⟩

theorem wit_ResetsLeaveFusesFlashAndRetained :
    (∃ s : State, heldInReset s = false ∧ s.pwr.railsUp = true ∧ s.pwr.selfWanted = false) ∧
    (∃ s : State, heldInReset s = true) ∧ (∃ s : State, s.pwr.railsUp = false) ∧ (∃ s : State, s.pwr.selfWanted = true) ∧
    (∃ s : State, s.pwr.selfWanted = false ∧ s.host.node = .halted ∧ s.pwr.fatalAt = some 0 ∧ hostAssisted s 4 = false ∧
      0 + 1_000_000_000 ≤ s.tim.hall) ∧
    (∃ s : State, s.pwr.tamperHold = true) ∧
    (∃ s : State, s.ncr.tripC ≤ 105 ∧ 104 < s.ncr.tripC) ∧
    (∃ s : State, s.pwr.limiterHold = true ∧ 84 < s.pwr.limiterBelow ∧ s.pwr.limiterBelow ≤ 85) :=
  ⟨⟨{}, by decide⟩, ⟨{ pwr := { supplyHold := true } }, rfl⟩, ⟨{ pwr := { railsUp := false } }, rfl⟩,
    ⟨{ pwr := { selfWanted := true } }, rfl⟩,
    ⟨{ host := { node := .halted, mode := 0 }, pwr := { fatalAt := some 0 }, tim := { hall := 1_000_000_000 } }, by decide⟩,
    ⟨{ pwr := { tamperHold := true } }, rfl⟩, ⟨{}, by decide⟩,
    ⟨{ pwr := { limiterHold := true, limiterBelow := 85 } }, by decide⟩⟩

/-- An enrolment container of 441 bytes; only its signature is not settled here, which the opaque verification judges. -/
def enrolKey : List Byte := (List.range 57).map fun i => BitVec.ofNat 8 (i + 1)
def enrolSlot : List Byte :=
  leBytes 4 0x43544854 ++ [4, 1, 3, 0] ++ leBytes 8 0 ++ leBytes 8 57 ++ leBytes 8 0 ++ shake256 enrolKey ++
    shake256 enrolKey ++ enrolKey ++ List.replicate 39 0 ++ List.replicate 128 0 ++ enrolKey
def tStart (burn flash : Bool) (cold : Int) : StartEnv :=
  { stackFails := [3], blockFails := [(0, 5)], portsUp := [0], timeLocks := true, flashOk := flash, readyMs := 900
    laneFails := [], minTempC := cold, burnOk := burn, columnFails := [(2, 1, 32, 31)] }
def startState : State := { sec := { enrol := enrolSlot }, pwr := { startPending := true } }
def enrolBox : Container :=
  { type := 4, svn := 0, seq := 0, length := 57, binding := 0, digest := shake256 enrolKey, signerHash := shake256 enrolKey
    signerKey := enrolKey, signature := List.replicate 114 0, head := enrolSlot.take 256, payload := enrolKey }
theorem enrol_box : containerOf (slotBytes startState .enrol) 4 = some enrolBox := by decide +kernel
theorem enrol_valid (v : Config.ed448Verify enrolKey (shake256 (enrolSlot.take 256)) (List.replicate 114 0) = true) :
    inSlot startState .enrol = some enrolBox := by
  have g : (enrolBox.signerHash == shake256 enrolKey && shake256 enrolBox.payload == enrolBox.digest) = true ∧
      bindOk startState enrolBox = true ∧ svnOk startState enrolBox = true ∧ payloadOk enrolBox = true := by decide +kernel
  obtain ⟨a, b, c, d⟩ := g
  have e : sigOk startState enrolBox = true := by
    simp only [Bool.and_eq_true] at a
    simp only [sigOk, show enrolBox.type = 4 from rfl, show enrolBox.signerKey = enrolKey from rfl,
      show enrolBox.head = enrolSlot.take 256 from rfl, show enrolBox.signature = List.replicate 114 0 from rfl, a.1, a.2, v,
      Bool.and_self]
  simp only [inSlot, validContainer, show Slot.enrol.type = 4 from rfl, enrol_box, Option.filter, b, c, d, e, Bool.and_self,
    if_true]
theorem wit_StartSequenceReachesReadyOrRecovery :
    (∀ owner ∈ [none, some [1]], ∀ flash ∈ [false, true],
      let s : State := { startState with fuses := { ownerHash := owner } }
      let e := tStart true flash 0
      s.host.node = .start ∧ s.pwr.startPending = true ∧ s.pwr.resetN = true ∧ s.pwr.railsUp = true ∧
        s.pwr.tamperHold = false ∧ s.pwr.supplyHold = false ∧ s.pwr.limiterHold = false ∧ 0 ≤ e.minTempC ∧
        e.burnOk = true ∧ e.flashOk = flash ∧ s.fuses.ownerHash = owner) ∧
    (Config.ed448Verify enrolKey (shake256 (enrolSlot.take 256)) (List.replicate 114 0) = true →
      startState.fuses.ownerHash = none ∧ inSlot startState .enrol = some enrolBox) :=
  ⟨by decide, fun v => ⟨rfl, enrol_valid v⟩⟩

/-- A node whose compute dies run at 2 400 MHz but one. -/
def powerState (k : Die) : State :=
  { host := { node := .ready }
    pwr := { domains := 0xFFFFF, dies := [(0, k), (1, { clockMhz := 2400 }), (2, { clockMhz := 2400 }), (3, { clockMhz := 2400 })] } }
/-- One die at 2 300 MHz and the voltage limits those of 2 400 MHz, whatever the fuses give there. -/
def fastState : State :=
  { powerState { clockMhz := 2300 } with
    ncr := { vddMv := Config.fusedMv 0 2400 }, fuses := { vddMv := Config.fusedMv 0 2400 } }
theorem fast_top : topLevel fastState 0 = 2400 := by
  have h : levelOk fastState 0 2400 = true := by simp [levelOk, fastState]
  unfold topLevel
  rw [show (List.range 13).map (fun i => topMhz fastState - 100 * i) = 2400 ::
    ((List.range 12).map fun i => 2300 - 100 * i) from by decide, List.find?_cons_of_pos (by simp [h])]
  rfl
theorem wit_PowerCoreStepsClocksAndRecordsHealth :
    (∀ k ∈ [({ clockMhz := 2400 } : Die), { clockMhz := 2300, tempMhz := 2300, coolMs := 9 },
        { clockMhz := 1200, regFault := true, target := some 1300 }, { clockMhz := 1200, halved := true }],
      let s := powerState k
      restarting s 5 = false ∧ s.pwr.clocksStopped = false ∧ s.pwr.domains.getLsbD 0 = true ∧ s.die 0 = k) ∧
    (let s := powerState { clockMhz := 2400 }
     (s.die 0).regFault = false ∧ (s.die 0).halved = false ∧ s.ncr.throttleC ≤ 95 ∧ capW s < 2401 ∧
      s.ncr.throttleC ≤ 92 + 3) ∧
    (let s := powerState { clockMhz := 2300, tempMhz := 2300, coolMs := 9 }
     92 + 3 ≤ s.ncr.throttleC ∧ (s.die 0).tempMhz ≠ 0 ∧ 9 ≤ (s.die 0).coolMs) ∧
    (let s := fastState
     94 < s.ncr.throttleC ∧ ¬ capW s < 2400 ∧ ¬ (s.ncr.throttleC ≤ 94 ∨ 92 ≤ 91) ∧ (s.die 0).tempMhz = 0 ∧ s.pwr.capMhz = 0 ∧
      s.pwr.otherMhz = 0 ∧ (s.die 0).clockMhz ≠ 0 ∧ (s.die 0).clockMhz < topLevel s 0) ∧
    (let s := powerState { clockMhz := 1200, target := some 2400 }
     (s.die (0 : BitVec 2).toNat).target = some 2400 ∧ (s.die (3 : BitVec 2).toNat).target = none ∧ s.err.coal = []) :=
  ⟨by decide, by decide, by decide, ⟨by decide, by decide, by decide, rfl, rfl, rfl, by decide, fast_top ▸ by decide⟩, by decide⟩

theorem wit_PowerAndInterruptRowsComplete :
    (hostState {}).host.linkUp = true ∧
    (let s := powerState { clockMhz := 2400 }
     restarting s 5 = false ∧ s.pwr.clocksStopped = false ∧ s.pwr.domains.getLsbD 0 = true ∧
      (s.die (0 : BitVec 2).toNat).clockMhz ≠ 0) ∧
    ((powerState { clockMhz := 1200, target := some 1300 }).die (0 : BitVec 2).toNat).target = some 1300 ∧
    ∃ s : State, s.pwr.daily.length = 90 :=
  ⟨rfl, by decide, by decide, { pwr := { daily := List.replicate 90 (dailyOf []) } }, List.length_replicate⟩

theorem wit_JtagAndI3cRowsAnswer :
    (∃ s : State, s.pwr.railsUp = true ∧ s.pwr.resetN = true ∧ s.pwr.i3cAddr = none ∧ s.fuses.ownerHash = none) ∧
    (∃ s : State, s.pwr.railsUp = true ∧ s.pwr.resetN = false ∧ s.pwr.i3cAddr.isSome = true ∧ s.host.node = .start ∧
      s.pwr.i3cImage.length = 32 ∧ s.fuses.ownerHash.isSome = true) ∧
    (∃ s : State, s.pwr.railsUp = true ∧ s.pwr.i3cAddr.isSome = true ∧ s.host.node ≠ .start) ∧
    (∃ s : State, s.pwr.railsUp = false) :=
  ⟨⟨{}, by decide⟩,
    ⟨{ pwr := { resetN := false, i3cAddr := some 8, i3cImage := List.replicate 32 0 }, fuses := { ownerHash := some [] } },
      by decide⟩,
    ⟨{ pwr := { i3cAddr := some 8 }, host := { node := .ready } }, by decide⟩, ⟨{ pwr := { railsUp := false } }, rfl⟩⟩

/-- A node in an SPDM connection, with sessions. -/
def spdmState (l : List Spdm) (algs : Bool) : State :=
  { host := { node := .ready, linkUp := true }
    sec := { spdmVersion := true, spdmCaps := true, spdmAlgs := algs, sessions := l, nextSession := l.length + 1 } }
theorem wit_SpdmRequestsAreAnswered :
    (∃ s : State, s.host.linkUp = true ∧ s.host.node ≠ .start ∧ restarting s 4 = true) ∧
    (∃ s : State, s.host.linkUp = true ∧ s.host.node ≠ .start ∧ restarting s 4 = false ∧ s.sec.spdmVersion = false ∧
      s.sec.spdmCaps = false) ∧
    (∀ algs ∈ [false, true], let s := spdmState [] algs
     s.host.linkUp = true ∧ s.host.node ≠ .start ∧ restarting s 4 = false ∧ s.sec.spdmVersion = true ∧
      s.sec.spdmCaps = true ∧ s.sec.spdmAlgs = algs ∧ s.sec.sessions.length < 4) ∧
    (let s := spdmState [⟨1, true, 0⟩, ⟨2, false, 0⟩, ⟨3, false, 0⟩, ⟨4, false, 0⟩] true
     restarting s 4 = false ∧ 4 ≤ s.sec.sessions.length ∧
      (s.sec.sessions.find? fun x => x.id == 1).any Spdm.up = true ∧
      ((s.sec.sessions.find? fun x => x.id == 2).any fun x => !x.up) = true ∧
      (s.sec.sessions.find? fun x => x.id == 9).any Spdm.up = false ∧
      ((s.sec.sessions.find? fun x => x.id == 9).any fun x => !x.up) = false) ∧
    ((7 : Byte).toNat ≤ 7 ∧ 7 < (8 : Byte).toNat ∧ (8 : Byte) ≠ 0xFF) :=
  ⟨⟨{ host := { node := .ready, linkUp := true }, pwr := { restarting := [4] } }, by decide⟩,
    ⟨{ host := { node := .ready, linkUp := true } }, by decide⟩, by decide, by decide, by decide⟩

theorem wit_RegistersAreReadAndWritten :
    (∀ g ∈ [Grade.A, .B], (BitVec.ofNat 6 (g.blocksPerRegion - 1)).toNat < g.blocksPerRegion) ∧
    (∃ s : State, s.host.linkUp = false) ∧
    (∀ verb ∈ [1, 2, 3], (BitVec.ofNat 64 (5 + verb * 2 ^ 32)).toNat / 2 ^ 32 % 32 = verb) ∧
    (let s := hostState {}
     s.host.linkUp = true ∧ (2 : BitVec 2).toNat < 3 ∧ 0x80_0000 ≤ 0xFF_FFF8 ∧ 0xFF_FFF8 + 8 ≤ 0x100_0000 ∧ 0xFF_FFF8 % 8 = 0 ∧
      0x100_0000 < 0xFF_FFFC + 8 ∧ 0xFF_FFF8 + 2 ≤ 0x100_0000 ∧ 0xFF_FFFC % 8 ≠ 0) ∧
    ((0 : W64).getLsbD 49 = false ∧ (0 : W64).getLsbD 50 = false ∧ (11 : BitVec 4).toNat < 12) ∧
    (∀ p ∈ [Priv.M, .U], let s := hartState 0 { tHart with priv := p }
     (s.hart 5).state = .running ∧ (s.hart 5).priv = p ∧ hartPresent s 5 = true) ∧
    (∀ line ∈ [0, 2 ^ 30 - 1], ∀ bad ∈ [false, true], let s : State :=
      { stk := [(11, { state := .ready, rakeLine := line })]
        lineFault := if bad then [(11 * 2 ^ 30 + line, { syms := (List.range 7).map fun i => (i, 1) })] else [] }
     (11 : BitVec 4).toNat < 12 ∧ (s.stack 11).state = .ready ∧ (s.stack 11).rakeLine < 2 ^ 30 ∧
      decodeLine s (11 * 2 ^ 30 + (s.stack 11).rakeLine) true true = (if bad then .uncorr else .good) ∧
      s.err.coal = [] ∧ s.err.log.length < 4000) :=
  ⟨by decide, ⟨{}, rfl⟩, by decide, by decide, by decide, by decide, by decide +kernel⟩

theorem wit_IntegerResultsRoundAndSaturate : ∀ f ∈ [Fmt.int4, .int8, .int32, .int64, .uint8], ∀ r ∈ [Rnd.rne, .rtz, .rdn, .rup, .rsd],
    f.isInt = true ∧ r ≠ .rmm := by decide

/-! ### The spec's worked examples -/

-- 03, decoding E4M3
theorem test_e4m3_decode : Fmt.e4m3.decode 0x5C = .fin false 12 1 ∧ Fmt.e4m3.decode 0xFF = .nan ∧
    Fmt.e4m3.decode 0x7E = .fin false 14 5 := by decide
-- 03 R86: three values beyond, and not beyond, the largest of E4M3
theorem test_e4m3_overflow : Fmt.e4m3.round .rne 0 (.fin false 450 0) = (0x7E, Fl.nx) ∧
    Fmt.e4m3.round .rtz 0 (.fin false 470 0) = (0x7E, Fl.nx) ∧
    Fmt.e4m3.round .rne 0 (.fin false 470 0) = (0x7E, Fl.of ||| Fl.nx) := by decide
-- 03, stochastic rounding to FP16
theorem test_fp16_stochastic : (Fmt.fp16.round .rsd 0x8A31_0F22 (.fin false 4099 (-12))).1 = 0x3C01 ∧
    (Fmt.fp16.round .rsd 0xD004_7E19 (.fin false 4099 (-12))).1 = 0x3C00 := by decide
-- 07, one line, two addresses
theorem test_line_two_addresses : place {} 0x0040_0003_1240 = .mem 3 0x1_1240 ∧
    place {} 0x0100_000D_6240 = .mem 3 0x1_1240 ∧ chanOf 0x1_1240 = 18 := by decide
-- 01, a grade B region after two retirements
theorem test_two_retirements :
    let r := (substitute { fuses := { grade := .B }, regions := [(2, { dead := 0x8_0080, pending := 0x8_0080 })] }).region 2
    rgnSubst r = 0x1853_1807 ∧ r.dead = 0 ∧ r.coppiceFree = 0 ∧ r.pending = 0 := by decide
-- 06, a zero pivot column, without and with the floor, and an overflowing multiplier
def tSolve (kind : Nat) (floor : Bool) : SJob :=
  { ctl := { kind := kind, unitDiag := false, refine := false, f32 := false, floorEn := floor, cap := 5, tol := 0
             usePat := false, slot := 0, keep := true }
    n := if kind = 0 then 3 else 2, data := .fp64, w := .fp64, floor := .two (-20), pat := none }
def tInts (l : List (List Int)) : Mat := l.map fun r => r.map Val.ofInt
def luItem : Mat := tInts [[2, 4, 1], [1, 2, 3], [4, 8, 5]]
theorem test_lu_zero_pivot : (itemWork (tSolve 0 false) 1 luItem (tInts [[1], [1], [1]]) fun _ => false).word =
    [9, 8, 1, 0, 0, 0, 0, 0x80, 0, 0, 0, 0, 0, 0, 0, 0] := by decide +kernel
theorem test_lu_floor : (itemWork (tSolve 0 true) 1 luItem (tInts [[1], [1], [1]]) fun _ => false).word.take 4 =
    [0x0B, 0x19, 1, 0] := by decide +kernel
theorem test_ldl_overflow :
    let r := itemWork (tSolve 2 false) 1 [[.two (-1020), .zero], [.two 10, .two 0]] (tInts [[1], [1]]) (fun _ => false)
    r.status = .overflow ∧ r.step = 0 ∧ r.word.drop 8 = leBytes 8 0x0030_0000_0000_0000 ∧ r.fl = (Fl.of ||| Fl.nx) ∧
      r.x = none := by
  decide +kernel
-- FIPS 202: the SHAKE256 of no bytes begins 46 b9 dd 2b
theorem test_shake256 : (shake256 []).take 4 = [0x46, 0xB9, 0xDD, 0x2B] := by decide +kernel

end Sys2Proof
end

section
/-!
O23: the brine commands of the pan engines (07 R197 to R200). A row of PANOP runs on the next command of OQ; with no line in
error its reads only count lines, so what it writes is what the same writes leave on the state as it was.
-/
namespace Sys2Proof.Laws

open Sys2Proof.Machine

/-! ### The row of a PANOP -/

/-- The row whose code the next PANOP carries runs on it. -/
theorem panEngine_run {s : State} {b : Blk} {f : InFl} (h : nextStart s b .OQ = some f) (ho : f.cmd.opcode = 0x57)
    {n : Nat} (hc : panCode f.cmd = n) (run : State → InFl → State) : panEngine s b (· == n) run = run s f := by
  rw [panEngine, engine_run h ho, if_pos (beq_iff_eq.2 hc)]

/-- A PANOP that changes no byte and no flag finishes: only the brine array table may have changed. -/
theorem panOnly_of_finish {s : State} {b : Blk} {f : InFl} (hm : f ∈ (s.q b .OQ).inflight) (hd : f.done = none)
    (br : List BrineEnt) (bs : List Byte) :
    let t := finishOut { s with brine := br } b .OQ f.idx .ok bs
    Safety.Finished b .OQ f .ok t ∧ t.mem = s.mem ∧ t.stk = s.stk ∧ t.brine = br ∧ Safety.PanOnly b .OQ [] s t :=
  pan_ends hm hd (OnlyPan.refl s) br s.free .ok bs [] fun _ _ => rfl

/-- Finishing without output bytes. -/
theorem finish_eq_finishOut (s : State) (b : Blk) (q : Qc) (i : Nat) (st : Status) :
    finish s b q i st = finishOut s b q i st [] := by
  simp [finish, finishOut]

/-! ### BOPEN at its issue (R197) -/

/-- Runs zeroed one after the other. -/
def zeroRuns (s : State) (l : List Run) : State := l.foldl (fun u r => wrN u r.npa (List.replicate r.len 0)) s

/-- One more run of a tensor zeroed, unless a line has failed before. -/
def zeroStep (acc : State × Option (Status × ErrCode × Nat)) (r : Run) : State × Option (Status × ErrCode × Nat) :=
  match acc.2 with
  | some _ => acc
  | none =>
    match touch acc.1 (partialRuns [r]) with
    | (u, some e) => (u, some e)
    | (u, none) => (wrN u r.npa (List.replicate r.len 0), none)

theorem zeroTensor_eq_foldl (s : State) (d : Desc) : zeroTensor s d = d.runs.foldl zeroStep (s, none) := rfl

/-- With no line in error, a run is zeroed; merging only counts lines. -/
theorem zeroStep_clean {u : State} (hl : u.lineFault = []) (c : ∀ n, (u.stack n).ckPending = []) (r : Run) (x : SMap Nat)
    (n : Nat) : ∃ y, zeroStep (withCounts u x n, none) r = (withCounts (wrN u r.npa (List.replicate r.len 0)) y n, none) := by
  have ht := touch_clean (s := withCounts u x n) hl (partialRuns [r])
  refine ⟨(countReads (withCounts u x n) (partialRuns [r])).decoded, ?_⟩
  unfold zeroStep
  dsimp only
  rw [ht, ← wrN_counts c]
  rfl

/-- With no line in error, runs are zeroed one after the other. -/
theorem zeroRuns_clean (l : List Run) {u : State} (hl : u.lineFault = []) (c : ∀ n, (u.stack n).ckPending = [])
    (x : SMap Nat) (n : Nat) :
    ∃ y, l.foldl zeroStep (withCounts u x n, none) = (withCounts (zeroRuns u l) y n, none) := by
  induction l generalizing u x with
  | nil => exact ⟨x, rfl⟩
  | cons r l ih =>
    obtain ⟨y, hy⟩ := zeroStep_clean hl c r x n
    obtain ⟨z, hz⟩ := ih (wrN_clean hl c r.npa (List.replicate r.len 0)) ((onlyMem_wrN c _ _ _).copied c) y
    exact ⟨z, by rw [List.foldl_cons, hy, hz]; rfl⟩

/-- The brine array table after an array has been opened: its entry in place of one of the same extent. -/
def openedTable (s : State) (d : Desc) (coll : Option (Nat × Nat)) : List BrineEnt :=
  (s.brine.filter fun e => !e.same d) ++ [entFor s d coll]

theorem openArray_empty {d : Desc} (h : d.empty = true) (s : State) (coll : Option (Nat × Nat)) :
    openArray s d coll = (s, none) := by
  simp [openArray, h]

/-- With no line in error, an array that has elements is entered in the table and zeroed run by run. -/
theorem openArray_clean {s : State} (cl : Safety.Clean s) {d : Desc} (h : d.empty = false) (coll : Option (Nat × Nat)) :
    ∃ y, openArray s d coll = (withCounts (zeroRuns { s with brine := openedTable s d coll } d.runs) y s.free, none) := by
  let s1 : State := { s with brine := openedTable s d coll }
  let anchors := ((entFor s d coll).anchorDesc.map Desc.runs).getD []
  obtain ⟨y, hy⟩ := zeroRuns_clean d.runs (u := s1) cl.lines cl.copied (countReads s1 anchors).decoded s.free
  have e : openArray s d coll = zeroTensor (countReads s1 anchors) d := by
    simp only [openArray, h, Bool.false_eq_true, if_false]
    rw [touch_clean (s := { s with brine := (s.brine.filter fun e => !e.same d) ++ [entFor s d coll] }) cl.lines]
    rfl
  exact ⟨y, by rw [e, zeroTensor_eq_foldl, ← hy]; rfl⟩

/-- Zeroing runs leaves the brine array table. -/
theorem brine_zeroRuns {s : State} (c : ∀ n, (s.stack n).ckPending = []) (l : List Run) :
    (zeroRuns s l).brine = s.brine := by
  induction l generalizing s with
  | nil => rfl
  | cons r l ih =>
    have h := onlyMem_wrN c r.npa (List.replicate r.len 0) none
    rw [zeroRuns, List.foldl_cons, ← zeroRuns, ih (h.copied c), h]

/-- What BOPEN does at its issue (R8, R197). -/
theorem panAtIssue_bopen {s : State} (cl : Safety.Clean s) {g : InFl} (hg : panCode g.cmd = 0x20) :
    let a := opnd! s g 1
    (a.empty = true → panAtIssue s g = (s, g)) ∧
    (a.empty = false → (panAtIssue s g).1.brine = openedTable s a none ∧
      (panAtIssue s g).1.mem = (zeroRuns { s with brine := (panAtIssue s g).1.brine } a.runs).mem ∧
      (panAtIssue s g).2 = g) := by
  intro a
  refine ⟨fun h => ?_, fun h => ?_⟩
  · simp [panAtIssue, hg, openArray_empty (d := opnd! s g 1) h]
  · obtain ⟨y, hy⟩ := openArray_clean cl h none
    have e : panAtIssue s g = (withCounts (zeroRuns { s with brine := openedTable s a none } a.runs) y s.free, g) := by
      rw [panAtIssue, if_pos hg, hy]
    have hb : (panAtIssue s g).1.brine = openedTable s a none := by
      rw [e]
      exact brine_zeroRuns (s := { s with brine := openedTable s a none }) cl.copied a.runs
    refine ⟨hb, ?_, by rw [e]⟩
    rw [hb, e]

/-! ### Addends into a brine array (R80, R198, R200) -/

/-- The write of one addend: element `k` of the target takes the addend `x k`, of format `xf`, under its entry. -/
def writeAddend (e : BrineEnt) (d : Desc) (xf : Fmt) (x : Nat → Nat) (u : State) (k : Nat) : State :=
  wrW u (d.elemNpa k) e.fmt.bytes (e.fmt.packBrine
    (if xf.isBrine then Brine.add (e.fmt.unpackBrine (rdW u (d.elemNpa k) e.fmt.bytes)) (e.fmt.unpackBrine (x k))
     else Brine.addVal e.fmt (e.anchorOfElem u ((e.index (d.elemNpa k)).getD 0))
      (e.fmt.unpackBrine (rdW u (d.elemNpa k) e.fmt.bytes)) (xf.decode (x k))))

theorem onlyMem_writeAddend {u : State} (c : ∀ n, (u.stack n).ckPending = []) (e : BrineEnt) (d : Desc) (xf : Fmt)
    (x : Nat → Nat) (k : Nat) : OnlyMem u (writeAddend e d xf x u k) :=
  onlyMem_wrN c _ _ _

/-- An addend changes no byte outside its element. -/
theorem rd_writeAddend {u : State} (c : ∀ n, (u.stack n).ckPending = []) (e : BrineEnt) (d : Desc) (xf : Fmt)
    (x : Nat → Nat) (k : Nat) {a : Nat} (h : Safety.Outside u [⟨d.elemNpa k, e.fmt.bytes⟩] a) :
    rd (writeAddend e d xf x u k) a = rd u a := by
  refine rd_wrN_of_ne c fun i hi => h _ (List.mem_singleton.2 rfl) i ?_
  rwa [leBytes_length] at hi

/-- With no line in error, one addend is its write; reading its element and anchor only counts lines. -/
theorem brineAt_clean {u : State} (hl : u.lineFault = []) (c : ∀ n, (u.stack n).ckPending = []) (e : BrineEnt) (d : Desc)
    (xf : Fmt) (x : Nat → Nat) (k : Nat) (y : SMap Nat) (n : Nat) :
    ∃ z, brineAt (withCounts u y n) e (d.elemNpa k) xf (x k) = (withCounts (writeAddend e d xf x u k) z n, none) := by
  let i := (e.index (d.elemNpa k)).getD 0
  have ht := touch_clean (s := withCounts u y n) hl (⟨d.elemNpa k, e.fmt.bytes⟩ :: e.anchorRun xf i)
  refine ⟨(countReads (withCounts u y n) (⟨d.elemNpa k, e.fmt.bytes⟩ :: e.anchorRun xf i)).decoded, ?_⟩
  unfold brineAt
  dsimp only
  rw [ht]
  dsimp only
  rw [writeAddend, wrW, wrW, ← wrN_counts c]
  rfl

/-- One more addend of a command, unless a line has failed before. -/
def addendStep (e : BrineEnt) (d : Desc) (xf : Fmt) (x : Nat → Nat) (acc : State × Option (Status × ErrCode × Nat))
    (i : Nat) : State × Option (Status × ErrCode × Nat) :=
  match acc.2 with
  | some _ => acc
  | none => brineAt acc.1 e (d.elemNpa i) xf (x i)

/-- A walk over a brine is its addends one after the other. -/
theorem brineWalk_eq_foldl (s : State) (e : BrineEnt) (d : Desc) (xf : Fmt) (x : Nat → Nat) :
    brineWalk s e d xf x = (List.range d.size).foldl (addendStep e d xf x) (s, none) := rfl

/-- With no line in error, addends are written one after the other. -/
theorem addendSteps_clean (e : BrineEnt) (d : Desc) (xf : Fmt) (x : Nat → Nat) (l : List Nat) {u : State}
    (hl : u.lineFault = []) (c : ∀ n, (u.stack n).ckPending = []) (y : SMap Nat) (n : Nat) :
    ∃ z, l.foldl (addendStep e d xf x) (withCounts u y n, none) =
      (withCounts (l.foldl (writeAddend e d xf x) u) z n, none) := by
  induction l generalizing u y with
  | nil => exact ⟨y, rfl⟩
  | cons k l ih =>
    obtain ⟨z, hz⟩ := brineAt_clean hl c e d xf x k y n
    obtain ⟨w, hw⟩ := ih (u := writeAddend e d xf x u k) (wrN_clean hl c _ _) ((onlyMem_writeAddend c e d xf x k).copied c) z
    exact ⟨w, by rw [List.foldl_cons, List.foldl_cons, ← hw, ← hz]; rfl⟩

/-- The addends change the elements of their target and nothing else. -/
theorem addends_frame {s : State} (cl : Safety.Clean s) (e : BrineEnt) (d : Desc) (xf : Fmt) (x : Nat → Nat) :
    let w := (List.range d.size).foldl (writeAddend e d xf x) s
    OnlyPan s w ∧ ∀ a, Safety.Outside s ((List.range d.size).map fun k => ⟨d.elemNpa k, e.fmt.bytes⟩) a → rd w a = rd s a :=
  steps_frame cl.copied _ _ (fun k => ⟨d.elemNpa k, e.fmt.bytes⟩) fun _ k _ c =>
    ⟨(onlyMem_writeAddend c e d xf x k).pan, fun _ h => rd_writeAddend c e d xf x k h⟩

/-- An empty target lies in no entry (R8). -/
theorem entHolding_empty {d : Desc} (h : d.empty = true) (s : State) : entHolding s d = none := by
  simp [entHolding, h]

/-- Writes of memory one after the other change memory alone. -/
theorem foldl_onlyMem {α : Type} (g : State → α → State)
    (hg : ∀ u x, (∀ n, (u.stack n).ckPending = []) → OnlyMem u (g u x)) (l : List α) {s : State}
    (c : ∀ n, (s.stack n).ckPending = []) : OnlyMem s (l.foldl g s) := by
  induction l generalizing s with
  | nil => exact OnlyMem.refl s
  | cons x l ih => exact (hg s x c).trans (ih ((hg s x c).copied c))

/-- What only writes memory leaves the stacks. -/
theorem OnlyMem.stk_eq {s t : State} (h : OnlyMem s t) : t.stk = s.stk := by rw [h]

theorem OnlyMem.brine_eq {s t : State} (h : OnlyMem s t) : t.brine = s.brine := by rw [h]

theorem OnlyMem.free_eq {s t : State} (h : OnlyMem s t) : t.free = s.free := by rw [h]

/-- Nor does it matter what has been counted beside. -/
theorem OnlyMem.counts {s t : State} (h : OnlyMem s t) (y : SMap Nat) : OnlyMem s (withCounts t y s.free) := by
  have k : OnlyMem s (withCounts t y t.free) := h.trans rfl
  rwa [h.free_eq] at k

/-- An addend command on an empty target finishes with nothing changed but the lines counted (R8). -/
theorem baddRun_empty {s : State} (cl : Safety.Clean s) {b : Blk} {f : InFl} (hm : f ∈ (s.q b .OQ).inflight)
    (hd : f.done = none) (h : (opnd! s f 1).empty = true) :
    let t := baddRun s b f
    Safety.Finished b .OQ f .ok t ∧ t.mem = s.mem ∧ t.stk = s.stk ∧ t.brine = s.brine ∧ Safety.PanOnly b .OQ [] s t := by
  let s1 := countReads s (opnd! s f 2).runs
  have e : baddRun s b f = finishOut s1 b .OQ f.idx .ok [] := by
    unfold baddRun
    dsimp only
    rw [withTouch_clean cl.lines, entHolding_empty h]
    rfl
  rw [e]
  exact pan_ends hm hd (onlyMem_countReads s _).pan s.brine s.free .ok [] [] fun _ _ => rfl

/-- An addend command on a target within an entry adds to each of its elements (R80, R198, R200). -/
theorem baddRun_adds {s : State} (cl : Safety.Clean s) {b : Blk} {f : InFl} (hm : f ∈ (s.q b .OQ).inflight)
    (hd : f.done = none) {e : BrineEnt} (he : entHolding s (opnd! s f 1) = some e) :
    let d := opnd! s f 1
    let x := opnd! s f 2
    let w := (List.range d.size).foldl (writeAddend e d x.fmt fun k => (x.raws s).getD k 0) s
    let t := baddRun s b f
    Safety.Finished b .OQ f .ok t ∧ t.mem = w.mem ∧ t.stk = s.stk ∧ t.brine = s.brine ∧
      Safety.PanOnly b .OQ ((List.range d.size).map fun k => ⟨d.elemNpa k, e.fmt.bytes⟩) s t := by
  intro d x w t
  obtain ⟨z, hz⟩ := addendSteps_clean e d x.fmt (fun k => (x.raws s).getD k 0) (List.range d.size) cl.lines cl.copied
    (countReads s x.runs).decoded s.free
  have hw : OnlyMem s w := foldl_onlyMem _ (fun u k c => onlyMem_writeAddend c e d x.fmt _ k) _ cl.copied
  have et : t = finishOut (withCounts w z s.free) b .OQ f.idx .ok (packRow d.fmt (d.raws (withCounts w z s.free))) := by
    show baddRun s b f = _
    unfold baddRun
    dsimp only
    rw [withTouch_clean cl.lines, show entHolding (countReads s (opnd! s f 2).runs) (opnd! s f 1) = some e from he]
    dsimp only
    rw [show brineWalk (countReads s (opnd! s f 2).runs) e (opnd! s f 1) (opnd! s f 2).fmt
      (fun i => ((opnd! s f 2).raws (countReads s (opnd! s f 2).runs)).getD i 0) = _ from
      (brineWalk_eq_foldl ..).trans hz]
    rfl
  have h := pan_ends hm hd (hw.counts z).pan s.brine s.free .ok (packRow d.fmt (d.raws (withCounts w z s.free)))
    ((List.range d.size).map fun k => ⟨d.elemNpa k, e.fmt.bytes⟩) (addends_frame cl e d x.fmt _).2
  rw [show ({ withCounts w z s.free with free := s.free, brine := s.brine } : State) = withCounts w z s.free by
    rw [← hw.brine_eq], ← et] at h
  obtain ⟨h1, h2, h3, h4, h5⟩ := h
  exact ⟨h1, h2, h3.trans hw.stk_eq, h4, h5⟩

/-! ### BCRYST (R199, log 60) -/

/-- The flags of a list of elements set in PAN_FLAGS: element `i` sets `g i` in stack `k i`. -/
def flagAll (k : Nat → Nat) (g : Nat → Fl) (l : List Nat) (u : State) : State :=
  l.foldl (fun u i => setPanFlags u (k i) (g i)) u

/-- Flags change the stacks alone, and only by what the stacks were. -/
theorem flagAll_eq (k : Nat → Nat) (g : Nat → Fl) (l : List Nat) {u v : State} (h : u.stk = v.stk) :
    flagAll k g l u = { u with stk := (flagAll k g l v).stk } := by
  unfold flagAll
  induction l generalizing u v with
  | nil => rw [List.foldl_nil, List.foldl_nil, ← h]
  | cons i l ih =>
    have hs : (setPanFlags u (k i) (g i)).stk = (setPanFlags v (k i) (g i)).stk := by
      simp only [setPanFlags, State.setStack, State.stack, h]
    rw [List.foldl_cons, List.foldl_cons, ih hs]
    rfl

theorem onlyPan_flagAll (k : Nat → Nat) (g : Nat → Fl) (l : List Nat) (u : State) : OnlyPan u (flagAll k g l u) := by
  unfold flagAll
  induction l generalizing u with
  | nil => exact OnlyPan.refl u
  | cons i l ih => exact (onlyPan_setPanFlags u (k i) (g i)).trans (ih _)

/-- The elements of a registered array crystallised under the entry's anchors and the target's format and rounding. -/
def crystal (s : State) (e : BrineEnt) (d : Desc) (i : Nat) : Nat × Fl :=
  crystallise d.fmt d.ncw.mode (drawOf s d.ncw i)
    (e.desc.fmt.brineVal (e.anchorOfElem s i) (e.desc.fmt.unpackBrine (e.desc.raw s i)))
    (e.desc.fmt.unpackBrine (e.desc.raw s i)).fl (Val.two 0) .zero

/-- Its flags set in the stacks of the array's elements. -/
def flagCrystals (s : State) (e : BrineEnt) (d : Desc) (u : State) : State :=
  flagAll (fun i => stackOf s (e.desc.elemNpa i)) (fun i => (crystal s e d i).2) (List.range e.desc.size) u

/-- The elements of `m` results, read from the list of them. -/
theorem results_getElem? (r : Nat → Nat × Fl) (m : Nat) :
    (fun i => (((List.range m).map r)[i]?).map Prod.fst) = fun i => if i < m then some (r i).1 else none := by
  funext i
  by_cases h : i < m <;> simp [h]

/-- The flags of `m` results, read from the list of them. -/
theorem foldl_results_getD (k : Nat → Nat) (r : Nat → Nat × Fl) (m : Nat) (u : State) :
    (List.range m).foldl (fun t i => setPanFlags t (k i) ((((List.range m).map r).getD i (0, 0)).2)) u =
      flagAll k (fun i => (r i).2) (List.range m) u := by
  refine List.foldl_ext _ _ _ fun t i hi => ?_
  simp [List.mem_range.1 hi]

/-- Rounding draws change the count of free values alone. -/
theorem drewN_eq (s : State) (n : Ncw) (k : Nat) : drewN s n k = { s with free := (drewN s n k).free } := by
  unfold drewN
  split <;> rfl

/-- BCRYST of a source with a count of 0 finishes with nothing changed (R8). -/
theorem bcrystRun_empty {s : State} {b : Blk} {f : InFl} (hm : f ∈ (s.q b .OQ).inflight) (hd : f.done = none)
    (h : (opnd! s f 2).empty = true) :
    let t := bcrystRun s b f
    Safety.Finished b .OQ f .ok t ∧ t.mem = s.mem ∧ t.stk = s.stk ∧ t.brine = s.brine ∧ Safety.PanOnly b .OQ [] s t := by
  have e : bcrystRun s b f = finishOut s b .OQ f.idx .ok [] := by
    unfold bcrystRun
    simp only [h, if_true]
    rfl
  rw [e]
  exact panOnly_of_finish hm hd s.brine []

/-- The crystals of an entry's array written to a target, with the bytes written. -/
def writeCrystals (s : State) (e : BrineEnt) (d : Desc) : State × List Byte :=
  wrT s d fun i => if i < e.desc.size then some (crystal s e d i).1 else none

/-- With no line in error, BCRYST writes its crystals, sets their flags and finishes. -/
theorem bcrystRun_clean {s : State} (cl : Safety.Clean s) (b : Blk) {f : InFl} (h : (opnd! s f 2).empty = false)
    {e : BrineEnt} (he : entOf s (opnd! s f 2) = some e) :
    let d := opnd! s f 1
    ∃ y, bcrystRun s b f = finishOut (drewN (flagCrystals s e d (withCounts (writeCrystals s e d).1 y s.free)) d.ncw d.size)
      b .OQ f.idx .ok (writeCrystals s e d).2 := by
  intro d
  let s1 := countReads s (e.desc.runs ++ (e.anchorDesc.map Desc.runs).getD [] ++ partialRuns d.runs)
  refine ⟨s1.decoded, ?_⟩
  unfold bcrystRun
  simp only [h, Bool.false_eq_true, if_false, he]
  rw [withTouch_clean cl.lines, results_getElem?, foldl_results_getD]
  show panEnd (drewN (flagCrystals s e d (writeCrystals s1 e d).1) d.ncw d.size) b f (writeCrystals s1 e d).2 none = _
  rw [show writeCrystals s1 e d = (withCounts (writeCrystals s e d).1 s1.decoded s.free, (writeCrystals s e d).2) from
    wrT_counts cl.copied s1.decoded s.free d _]
  rfl

/-- BCRYST leaves the crystals of its source's array in its target, with their flags in the stacks of the brine elements
(R199). -/
theorem bcrystRun_writes {s : State} (cl : Safety.Clean s) {b : Blk} {f : InFl} (hm : f ∈ (s.q b .OQ).inflight)
    (hd : f.done = none) (h : (opnd! s f 2).empty = false) {e : BrineEnt} (he : entOf s (opnd! s f 2) = some e) :
    let d := opnd! s f 1
    let t := bcrystRun s b f
    Safety.Finished b .OQ f .ok t ∧ t.mem = (writeCrystals s e d).1.mem ∧ t.stk = (flagCrystals s e d s).stk ∧
      t.brine = s.brine ∧ Safety.PanOnly b .OQ d.runs s t := by
  intro d t
  obtain ⟨y, hy⟩ := bcrystRun_clean cl b h he
  let w := withCounts (writeCrystals s e d).1 y s.free
  let v := flagCrystals s e d w
  obtain ⟨hw, hout⟩ := wrT_frame cl.copied d fun i => if i < e.desc.size then some (crystal s e d i).1 else none
  have hv : v = { w with stk := (flagCrystals s e d s).stk } := flagAll_eq _ _ _ (u := w) hw.stk_eq
  have hk : OnlyPan s v := (hw.counts y).pan.trans (onlyPan_flagAll _ _ _ w)
  have hr : ∀ a, Safety.Outside s d.runs a → rd v a = rd s a := fun a ha => by rw [hv]; exact hout a ha
  have et : t = finishOut { v with free := (drewN v d.ncw d.size).free, brine := s.brine } b .OQ f.idx .ok
      (writeCrystals s e d).2 := by
    rw [show s.brine = v.brine by rw [hv]; exact hw.brine_eq.symm]
    exact hy.trans (congrArg (fun u => finishOut u b .OQ f.idx .ok (writeCrystals s e d).2) (drewN_eq v d.ncw d.size))
  obtain ⟨h1, h2, h3, h4, h5⟩ := pan_ends hm hd hk s.brine (drewN v d.ncw d.size).free .ok (writeCrystals s e d).2 d.runs hr
  rw [← et] at h1 h2 h3 h4 h5
  exact ⟨h1, h2.trans (by rw [hv]), h3.trans (by rw [hv]), h4, h5⟩

/-! ### The rows -/

/-- BOPEN at its row: the array, registered and zeroed at issue, is reported finished (R197). -/
theorem exec_bopen {s : State} {b : Blk} {f : InFl} (h : nextStart s b .OQ = some f) (ho : f.cmd.opcode = 0x57)
    (hop : panCode f.cmd = 0x20) : exec (.bopen b) s = .next (finishOut s b .OQ f.idx (f.failed.getD .ok)
      (packRow (opnd! s f 1).fmt ((opnd! s f 1).raws s))) :=
  congrArg Host.Outcome.next (panEngine_run h ho hop _)

theorem exec_badd {s : State} {b : Blk} {f : InFl} (h : nextStart s b .OQ = some f) (ho : f.cmd.opcode = 0x57)
    (hop : panCode f.cmd = 0x21) : exec (.badd b) s = .next (baddRun s b f) :=
  congrArg Host.Outcome.next (panEngine_run h ho hop _)

theorem exec_bcryst {s : State} {b : Blk} {f : InFl} (h : nextStart s b .OQ = some f) (ho : f.cmd.opcode = 0x57)
    (hop : panCode f.cmd = 0x22) : exec (.bcryst b) s = .next (bcrystRun s b f) :=
  congrArg Host.Outcome.next (panEngine_run h ho hop _)

/-- BCLOSE takes the entry of its target's extent out of the table (R199). -/
theorem exec_bclose {s : State} {b : Blk} {f : InFl} (h : nextStart s b .OQ = some f) (ho : f.cmd.opcode = 0x57)
    (hop : panCode f.cmd = 0x23) : exec (.bclose b) s = .next (finishOut
      { s with brine := s.brine.filter fun e => (opnd! s f 1).empty || !e.same (opnd! s f 1) } b .OQ f.idx .ok []) := by
  rw [← finish_eq_finishOut]
  exact congrArg Host.Outcome.next (panEngine_run h ho hop _)

/-- REDINTO into a brine target is an addend command (R200). -/
theorem exec_redinto_brine {s : State} {b : Blk} {f : InFl} (h : nextStart s b .OQ = some f) (ho : f.cmd.opcode = 0x57)
    (hop : panCode f.cmd = 0x30) (hb : (opnd! s f 1).fmt.isBrine = true) :
    exec (.redinto b) s = .next (baddRun s b f) :=
  congrArg Host.Outcome.next ((panEngine_run h ho hop _).trans (if_pos hb))

/-- Settles O23: each row runs on its command, and the lemmas above say what that leaves. -/
theorem brineCommandsComplete : Obligations.BrineCommandsComplete := by
  unfold Obligations.BrineCommandsComplete
  intro s b f cl hn hd ho op d x idle adds
  have hm := nextStart_mem hn
  have add : ∀ i : Instr, exec i s = .next (baddRun s b f) → adds i := fun i hi =>
    ⟨fun h => ⟨_, hi, baddRun_empty cl hm hd h⟩, fun e he => ⟨_, hi, baddRun_adds cl hm hd he⟩⟩
  refine ⟨fun g hg => panAtIssue_bopen cl hg, ?bopen, fun hop => add _ (exec_badd hn ho hop),
    fun hop hb => add _ (exec_redinto_brine hn ho hop hb),
    fun hop h => ⟨_, exec_bcryst hn ho hop, bcrystRun_empty hm hd h⟩, ?bcryst, ?bclose⟩
  case bopen =>
    intro hop hf
    refine ⟨_, exec_bopen hn ho hop, ?_⟩
    rw [hf]
    exact panOnly_of_finish hm hd s.brine _
  case bcryst =>
    intro hop h e he
    obtain ⟨h1, h2, h3, h4, h5⟩ := bcrystRun_writes cl hm hd h he
    refine ⟨_, exec_bcryst hn ho hop, h1, h2, fun k => ?_, h4, h5⟩
    rw [State.stack, h3]
    rfl
  case bclose =>
    intro hop
    obtain ⟨h1, h2, h3, h4, h5⟩ := panOnly_of_finish hm hd (s.brine.filter fun e => d.empty || !e.same d) []
    exact ⟨_, exec_bclose hn ho hop, h1, h2, h4, h3, h5⟩

end Sys2Proof.Laws
end

section
/-!
O58: registers read and written (00 R10, 01 R34, 03 R92, 10 R271, 13 R326), and the rake's line (07 R207).
-/
namespace Sys2Proof.Laws

open Sys2Proof.Machine

/-! ### Words -/

theorem wbit_eq_getLsbD (w : W64) (i : Nat) : wbit w i = w.getLsbD i := rfl

theorem toNat_ofNat64 {o : Nat} (h : o < 2 ^ 64) : (BitVec.ofNat 64 o).toNat = o := by
  rw [BitVec.toNat_ofNat, Nat.mod_eq_of_lt h]

theorem and_ones64 (v : W64) : v &&& 0xFFFF_FFFF_FFFF_FFFF = v := BitVec.and_allOnes

/-! ### The internal register space (01 Table 01.5) -/

/-- The NPA of a register of the internal register space. -/
abbrev regNpa (o : Nat) : W64 := BitVec.ofNat 64 (0x300_0000_0000 + o)

theorem toNat_regNpa {o : Nat} (h : o < 0x200_0000) : (regNpa o).toNat = 0x300_0000_0000 + o :=
  toNat_ofNat64 (by omega)

theorem place_reg (s : State) {o : Nat} (h : o < 0x200_0000) : place s (0x300_0000_0000 + o) = .reg o := by
  unfold place placeOf
  simp (disch := omega) only [if_neg, if_pos, Nat.add_sub_cancel_left]

theorem key_lt (b : Blk) : b.key < 256 := by
  have := b.region.isLt
  have := b.block.isLt
  unfold Blk.key
  omega

/-- The offset of a register of a block. -/
abbrev blockOff (b : Blk) (k : Nat) : Nat := 0x100_0000 + 0x1000 * b.key + k

theorem blockReg_blockOff (b : Blk) {k : Nat} (h : k < 0x1000) : blockReg (blockOff b k) = some (b, k) := by
  have hk := key_lt b
  have e : (blockOff b k - blockRegs) >>> 12 = b.key := by
    rw [Nat.shiftRight_eq_div_pow]
    simp only [blockOff, blockRegs]
    omega
  have hr : b.key / 64 = b.region.toNat := by have := b.block.isLt; unfold Blk.key; omega
  have hb : b.key % 64 = b.block.toNat := by have := b.block.isLt; unfold Blk.key; omega
  have hm : blockOff b k % 4096 = k := by simp only [blockOff]; omega
  unfold blockReg
  rw [if_pos (by simp only [blockOff, blockRegs]; omega)]
  dsimp only
  rw [e, hr, hb, hm, BitVec.ofNat_toNat, BitVec.ofNat_toNat, BitVec.setWidth_eq, BitVec.setWidth_eq]

theorem blockReg_below {o : Nat} (h : o < 0x100_0000) : blockReg o = none := by
  unfold blockReg blockRegs
  rw [if_neg (by omega)]

/-- A read of a block's register. -/
theorem regRead_blockOff (s : State) (b : Blk) {k : Nat} (h : k < 0x1000)
    (hb : b.block.toNat < s.fuses.grade.blocksPerRegion) : regRead s (blockOff b k) = blockRegRead s b k := by
  have hk := key_lt b
  have hl : 0x100_0000 ≤ blockOff b k := by simp only [blockOff]; omega
  have hr := blockReg_blockOff b h
  generalize blockOff b k = o at *
  unfold regRead
  simp (disch := omega) only [if_neg, hr, if_pos hb]

/-! ### SAT_COUNTER_READ (01 R34; log 70) -/

/-- A counter is answered and cleared. -/
theorem exec_satCounterRead (s : State) {o : Nat} (h : o < 0x200_0000) (hs : isSat o = true) :
    exec (.satCounterRead (regNpa o)) s = .next (hostAnswer (regRead s o).2 (leBytes 8 (regRead s o).1) false) := by
  show execSatCounterRead _ s = _
  unfold execSatCounterRead
  rw [toNat_regNpa h, if_neg (by omega), place_reg s h]
  simp only [hs, if_true]

/-- A saturation counter of value `v` is answered to a read at an NPA, which leaves `u` (R34). -/
def Answered (s : State) (npa : Nat) (u : State) (v : W64) : Prop :=
  exec (.satCounterRead (BitVec.ofNat 64 npa)) s = .next { u with
    host := { s.host with answer := leBytes 8 v.toNat, poison := false, ur := 0 } }

theorem answered_satUzl (s : State) : Answered s 0x300_0000_0100 { s with satUzl := 0 } s.satUzl :=
  exec_satCounterRead s (o := 0x100) (by decide) rfl

theorem answered_satCxl (s : State) : Answered s 0x300_0000_0108 { s with satCxl := 0 } s.satCxl :=
  exec_satCounterRead s (o := 0x108) (by decide) rfl

theorem regRead_satMesh (s : State) {n : Nat} (hn : n < 4) : regRead s (0x10_0100 + 0x1_0000 * n) =
    ((s.region n).satMesh.toNat, s.setRegion n { s.region n with satMesh := 0 }) := by
  unfold regRead
  simp (disch := omega) only [if_neg, if_pos]
  rw [show (0x10_0100 + 0x1_0000 * n - 0x10_0000) / 0x1_0000 = n by omega]

theorem regRead_satMc (s : State) {n : Nat} (hn : n < 4) : regRead s (0x10_0108 + 0x1_0000 * n) =
    ((s.region n).satMc.toNat, s.setRegion n { s.region n with satMc := 0 }) := by
  unfold regRead
  simp (disch := omega) only [if_neg, if_pos]
  rw [show (0x10_0108 + 0x1_0000 * n - 0x10_0000) / 0x1_0000 = n by omega]

theorem isSat_region {n k : Nat} (hn : n < 4) (hk : k = 0x100 ∨ k = 0x108) :
    isSat (0x10_0000 + k + 0x1_0000 * n) = true := by
  have hr : 0x10_0000 ≤ 0x10_0000 + k + 0x1_0000 * n ∧ 0x10_0000 + k + 0x1_0000 * n < 0x14_0000 := by omega
  have hm : (0x10_0000 + k + 0x1_0000 * n) % 0x1_0000 = k := by omega
  unfold isSat
  rw [hm, decide_eq_true hr]
  rcases hk with rfl | rfl <;> simp

theorem answered_satMesh (s : State) {n : Nat} (hn : n < 4) : Answered s (0x300_0010_0100 + 0x1_0000 * n)
    (s.setRegion n { s.region n with satMesh := 0 }) (s.region n).satMesh := by
  have h := exec_satCounterRead s (by omega) (isSat_region hn (.inl rfl))
  rw [regRead_satMesh s hn, regNpa, show 0x300_0000_0000 + (0x10_0000 + 0x100 + 0x1_0000 * n) =
    0x300_0010_0100 + 0x1_0000 * n by omega] at h
  exact h

theorem answered_satMc (s : State) {n : Nat} (hn : n < 4) : Answered s (0x300_0010_0108 + 0x1_0000 * n)
    (s.setRegion n { s.region n with satMc := 0 }) (s.region n).satMc := by
  have h := exec_satCounterRead s (by omega) (isSat_region hn (.inr rfl))
  rw [regRead_satMc s hn, regNpa, show 0x300_0000_0000 + (0x10_0000 + 0x108 + 0x1_0000 * n) =
    0x300_0010_0108 + 0x1_0000 * n by omega] at h
  exact h

theorem isSat_blockOff (b : Blk) {k : Nat} (h : k = 0x100 ∨ k = 0x108 ∨ k = 0x110) : isSat (blockOff b k) = true := by
  unfold isSat
  rw [blockReg_blockOff b (by omega)]
  rcases h with rfl | rfl | rfl <;> simp

/-- The counters of a block: banks, streams and events. -/
theorem answered_block {s : State} {b : Blk} (hb : b.block.toNat < s.fuses.grade.blocksPerRegion) :
    let base := 0x300_0100_0000 + 0x1000 * b.key
    Answered s (base + 0x100) (s.setBlk b { s.blk b with satBank := 0 }) (s.blk b).satBank ∧
    Answered s (base + 0x108) (s.setBlk b { s.blk b with satStm := 0 }) (s.blk b).satStm ∧
    Answered s (base + 0x110) (s.setBlk b { s.blk b with satEvt := 0 }) (s.blk b).satEvt := by
  intro base
  have read : ∀ k (_ : k = 0x100 ∨ k = 0x108 ∨ k = 0x110), exec (.satCounterRead (BitVec.ofNat 64 (base + k))) s =
      .next (hostAnswer (blockRegRead s b k).2 (leBytes 8 (blockRegRead s b k).1) false) := by
    intro k h
    have hk := key_lt b
    rw [← regRead_blockOff s b (by omega) hb, ← exec_satCounterRead s (by simp only [blockOff]; omega) (isSat_blockOff b h)]
    rw [regNpa, show 0x300_0000_0000 + blockOff b k = base + k by simp only [base, blockOff]; omega]
  exact ⟨read 0x100 (.inl rfl), read 0x108 (.inr (.inl rfl)), read 0x110 (.inr (.inr rfl))⟩

/-- Below 16 MiB the row is the host's read of the HRW. -/
theorem exec_hrwRead {s : State} (hl : s.host.linkUp = true) {o : Nat} (ho : o < 0x100_0000) (h8 : o % 8 = 0) :
    exec (.satCounterRead (BitVec.ofNat 64 o)) s = .next (hostAnswer (hrwRead s o).2 (leBytes 8 (hrwRead s o).1) false) := by
  show execSatCounterRead _ s = _
  unfold execSatCounterRead overLink
  rw [toNat_ofNat64 (by omega), if_pos ho, if_pos hl]
  simp only [h8, Nat.sub_zero, if_true]
  rw [if_neg (by omega)]

/-! ### BLK_FLAGS and PAN_FLAGS (03 R92) -/

theorem clearBlkFlags_eq (s : State) (b : Blk) (v : W64) :
    clearBlkFlags s b v = s.setBlk b { s.blk b with flags := (s.blk b).flags &&& ~~~ v.setWidth 16 } := by
  rw [clearBlkFlags, BitVec.ofNat_toNat]
  rfl

theorem clearPanFlags_eq (s : State) (n : Nat) (v : W64) :
    clearPanFlags s n v = s.setStack n { s.stack n with flags := (s.stack n).flags &&& ~~~ v.setWidth 4 } := by
  rw [clearPanFlags, BitVec.ofNat_toNat]

theorem exec_blkFlags (s : State) (b : Blk) (v : W64) : exec (.blkFlags b v) s = .next
    (if b.block.toNat < s.fuses.grade.blocksPerRegion then clearBlkFlags s b v else s) := rfl

theorem exec_panFlags (s : State) (n : BitVec 4) (v : W64) : exec (.panFlags n v) s = .next
    (if n.toNat < 12 then clearPanFlags s n.toNat v else s) := rfl

/-! ### Writes of the HRW by the host (13 R326) -/

/-- A REGISTER_WRITE of the host at an offset of the HRW. -/
abbrev byHost (s : State) (o size : Nat) (v : W64) (p : Bool) : Host.Outcome State Fault Refusal :=
  execRegisterWrite .host (BitVec.ofNat 64 o) size v p s

/-- A REGISTER_WRITE of 8 bytes by firmware at an offset of the internal register space. -/
abbrev byFirmware (s : State) (o : Nat) (v : W64) : Host.Outcome State Fault Refusal :=
  execRegisterWrite .firmware (regNpa o) 8 v false s

/-- A store by a hart at an offset of the internal register space. -/
abbrev byHart (s : State) (h : BitVec 6) (o size : Nat) (v : W64) : Host.Outcome State Fault Refusal :=
  execRegisterWrite (.hart h) (regNpa o) size v false s

/-- A row that the host reaches over its link, which is up. -/
theorem overLink_up {s : State} (h : s.host.linkUp = true) (f : State → State) : overLink s f = f s := if_pos h

/-- With the link down a write of the host reaches nothing. -/
theorem byHost_linkDown {s : State} (hl : s.host.linkUp = false) (o size : Nat) (v : W64) (p : Bool) :
    byHost s o size v p = .next s := by
  show Host.Outcome.next (overLink s _) = _
  rw [overLink, if_neg (by simp [hl])]

theorem byHost_eq {s : State} (hl : s.host.linkUp = true) {o : Nat} (ho : o < 2 ^ 64) (size : Nat) (v : W64) (p : Bool) :
    byHost s o size v p = .next (hostWrite s o size v p) := by
  show Host.Outcome.next (overLink s fun s => hostWrite s (BitVec.ofNat 64 o).toNat size v p) = _
  rw [overLink_up hl, toNat_ofNat64 ho]

section link
variable {s : State} (hl : s.host.linkUp = true)
include hl

theorem exec_cxlProtocol (k : CxlKind) (hdr : Bytes) : exec (.cxlProtocol k hdr) s = .next (violation s k hdr) :=
  congrArg Host.Outcome.next (overLink_up hl _)

theorem exec_hrwIntCause (v : W64) : exec (.hrwIntCause v) s = .next (intCause s (BitVec.ofNat 8 v.toNat)) :=
  congrArg Host.Outcome.next (overLink_up hl _)

theorem exec_hrwIntMask (v : W64) : exec (.hrwIntMask v) s = .next (intMask s (BitVec.ofNat 8 v.toNat)) :=
  congrArg Host.Outcome.next (overLink_up hl _)

theorem exec_ringCons (r : BitVec 2) (v : W32) : exec (.ringCons r v) s = .next (ringCons s r.toNat v) :=
  congrArg Host.Outcome.next (overLink_up hl _)

theorem exec_emWrite (i : Byte) (v : W64) :
    exec (.emWrite i v) s = .next (emWrite s i.toNat v 0xFFFF_FFFF_FFFF_FFFF) :=
  congrArg Host.Outcome.next (overLink_up hl _)

theorem exec_leaseTake (who : W32) : exec (.leaseTake who) s = .next (leaseTake s who) :=
  congrArg Host.Outcome.next (overLink_up hl _)

theorem exec_leaseRenew (who : W32) : exec (.leaseRenew who) s = .next (leaseRenew s who) :=
  congrArg Host.Outcome.next (overLink_up hl _)

theorem exec_leaseRelease (who : W32) : exec (.leaseRelease who) s = .next (leaseRelease s who) :=
  congrArg Host.Outcome.next (overLink_up hl _)

/-- An aligned write of 8 bytes in the window reaches its register. -/
theorem byHost_hrwWrite {o : Nat} (ho : o + 8 ≤ 0x100_0000) (h8 : o % 8 = 0) (v : W64) :
    byHost s o 8 v false = .next (hrwWrite s o v 0xFFFF_FFFF_FFFF_FFFF) := by
  rw [byHost_eq hl (by omega), hostWrite]
  simp (disch := omega) only [if_neg, Bool.false_eq_true, if_false, if_true]

/-- A write that ends beyond the window is kind 2 of Table 11.7. -/
theorem byHost_outside {o size : Nat} (ho : o < 2 ^ 64) (h : 0x100_0000 < o + size) (v : W64) (p : Bool) :
    byHost s o size v p = exec (.cxlProtocol (.badFunctionOrBar false) []) s := by
  rw [byHost_eq hl ho, exec_cxlProtocol hl, hostWrite, if_pos h]

/-- A size or an alignment that is not allowed is kind 3. -/
theorem byHost_badAccess {o size : Nat} (ho : o + size ≤ 0x100_0000) (h : (size ≠ 4 ∧ size ≠ 8) ∨ o % size ≠ 0) (v : W64)
    (p : Bool) : byHost s o size v p = exec (.cxlProtocol (.badHrwAccess false) []) s := by
  rw [byHost_eq hl (by omega), exec_cxlProtocol hl, hostWrite, if_neg (by omega), if_pos h]

/-- Poison is kind 4. -/
theorem byHost_poison {o : Nat} (ho : o + 8 ≤ 0x100_0000) (h8 : o % 8 = 0) (v : W64) :
    byHost s o 8 v true = exec (.cxlProtocol .poisonedTlp []) s := by
  rw [byHost_eq hl (by omega), exec_cxlProtocol hl, hostWrite]
  simp (disch := omega) only [if_neg, if_true]

/-- The view of the internal registers ignores writes. -/
theorem byHost_view {o : Nat} (h : 0x80_0000 ≤ o) (ho : o + 8 ≤ 0x100_0000) (h8 : o % 8 = 0) (v : W64) :
    byHost s o 8 v false = .next s := by
  rw [byHost_hrwWrite hl ho h8, hrwWrite]
  simp (disch := omega) only [if_neg]

theorem byHost_intCause (v : W64) : byHost s 0x30_0010 8 v false = exec (.hrwIntCause v) s := by
  rw [byHost_hrwWrite hl (by decide) (by decide), exec_hrwIntCause hl, hrwWrite, and_ones64]
  rfl

theorem byHost_intMask (v : W64) : byHost s 0x30_0018 8 v false = exec (.hrwIntMask v) s := by
  rw [byHost_hrwWrite hl (by decide) (by decide), exec_hrwIntMask hl, hrwWrite, and_ones64]
  rfl

/-- HRW_STATUS: a 1 clears em_overflow alone. -/
theorem byHost_status (v : W64) : byHost s 0x30_0000 8 v false =
    .next { s with host := { s.host with emOverflow := s.host.emOverflow && !v.getLsbD 6 } } := by
  rw [byHost_hrwWrite hl (by decide) (by decide)]
  show Host.Outcome.next (if wbit (v &&& 0xFFFF_FFFF_FFFF_FFFF) 6 then _ else s) = _
  rw [and_ones64, wbit_eq_getLsbD]
  cases v.getLsbD 6 <;> simp

/-- A ring's index register: cons is the upper half (R329). -/
theorem byHost_cons {r : BitVec 2} (hr : r.toNat < 3) (v : W64) :
    byHost s (0x30_0020 + 8 * r.toNat) 8 v false = exec (.ringCons r ((v >>> 32).setWidth 32)) s := by
  have e : BitVec.ofNat 32 (v.toNat >>> 32) = (v >>> 32).setWidth 32 := by
    rw [← BitVec.toNat_ushiftRight, BitVec.ofNat_toNat]
  have c : ∀ n, consWrite s n (v &&& 0xFFFF_FFFF_FFFF_FFFF) 0xFFFF_FFFF_FFFF_FFFF =
      ringCons s n ((v >>> 32).setWidth 32) := fun n => by rw [and_ones64, ← e]; rfl
  rw [byHost_hrwWrite hl (by omega) (by omega), exec_ringCons hl]
  refine congrArg Host.Outcome.next ?_
  obtain h | h | h : r.toNat = 0 ∨ r.toNat = 1 ∨ r.toNat = 2 := by omega
  · rw [h]; exact c 0
  · rw [h]; exact c 1
  · rw [h]; exact c 2

theorem byHost_em {i : Nat} (hi : i < 7) (v : W64) :
    byHost s (0x40_0000 + 8 * i) 8 v false = exec (.emWrite (BitVec.ofNat 8 i) v) s := by
  have e : (BitVec.ofNat 8 i).toNat = i := by rw [BitVec.toNat_ofNat, Nat.mod_eq_of_lt (by omega)]
  rw [byHost_hrwWrite hl (by omega) (by omega), exec_emWrite hl, e, hrwWrite, if_pos (by omega), and_ones64,
    show (0x40_0000 + 8 * i - 0x40_0000) / 8 = i by omega]

/-- HRW_LEASE: the operation in bits 33:32 acts, with the holder written; late is left where bit 36 is 0 (R340). -/
theorem byHost_lease {v : W64} (h : v.toNat / 2 ^ 32 % 32 < 16) :
    byHost s 0x30_0008 8 v false = .next (match v.toNat / 2 ^ 32 % 4 with
      | 1 => leaseTake s (v.setWidth 32)
      | 2 => leaseRenew s (v.setWidth 32)
      | 3 => leaseRelease s (v.setWidth 32)
      | _ => s) := by
  have hm : v ||| (BitVec.zeroExtend 64 s.host.holder &&& ~~~ (0xFFFF_FFFF_FFFF_FFFF : W64)) = v := by
    rw [show ~~~ (0xFFFF_FFFF_FFFF_FFFF : W64) = 0#64 by decide, BitVec.and_zero, BitVec.or_zero]
  have h36 : wbit v 36 = false := by
    rw [wbit, Nat.testBit_eq_decide_div_mod_eq]
    simp only [decide_eq_false_iff_not]
    omega
  have hf : fld v 32 2 = v.toNat / 2 ^ 32 % 4 := by rw [fld, nfld, Nat.shiftRight_eq_div_pow]; rfl
  rw [byHost_hrwWrite hl (by decide) (by decide)]
  show Host.Outcome.next (leaseWrite s ((v &&& 0xFFFF_FFFF_FFFF_FFFF) |||
    (BitVec.zeroExtend 64 s.host.holder &&& ~~~ (0xFFFF_FFFF_FFFF_FFFF : W64)))) = _
  rw [and_ones64, hm]
  unfold leaseWrite
  rw [h36, hf, BitVec.ofNat_toNat]
  rfl

theorem byHost_leaseTake {v : W64} (h : v.toNat / 2 ^ 32 % 32 = 1) :
    byHost s 0x30_0008 8 v false = exec (.leaseTake (v.setWidth 32)) s := by
  rw [byHost_lease hl (by omega), exec_leaseTake hl, show v.toNat / 2 ^ 32 % 4 = 1 by omega]
  rfl

theorem byHost_leaseRenew {v : W64} (h : v.toNat / 2 ^ 32 % 32 = 2) :
    byHost s 0x30_0008 8 v false = exec (.leaseRenew (v.setWidth 32)) s := by
  rw [byHost_lease hl (by omega), exec_leaseRenew hl, show v.toNat / 2 ^ 32 % 4 = 2 by omega]
  rfl

theorem byHost_leaseRelease {v : W64} (h : v.toNat / 2 ^ 32 % 32 = 3) :
    byHost s 0x30_0008 8 v false = exec (.leaseRelease (v.setWidth 32)) s := by
  rw [byHost_lease hl (by omega), exec_leaseRelease hl, show v.toNat / 2 ^ 32 % 4 = 3 by omega]
  rfl

end link

/-! ### Writes by firmware (00 R10) -/

theorem byFirmware_eq (s : State) {o : Nat} (h : o < 0x200_0000) (h8 : o % 8 = 0) (v : W64) :
    byFirmware s o v = .next (regWrite s o v) := by
  unfold byFirmware execRegisterWrite
  rw [toNat_regNpa h]
  have hi : 0x300_0000_0000 + o < 0x300_0200_0000 := by omega
  simp [h8, hi]

theorem byFirmware_apt (s : State) {i : Nat} (hi : i < 4096) (v : W64) :
    byFirmware s (0x5_0000 + 8 * i) v = .next { s with apt := s.apt.set 0 i (v &&& 0x03FF_FFFF_FFFF_FFFF) } := by
  rw [byFirmware_eq s (by omega) (by omega), regWrite, if_neg (by omega), if_pos (by omega),
    show (0x5_0000 + 8 * i - 0x5_0000) / 8 = i by omega]

/-- ESP_CTRL with neither an arm nor a cancel. -/
theorem byFirmware_esp (s : State) {v : W64} (ha : v.getLsbD 49 = false) (hc : v.getLsbD 50 = false) :
    byFirmware s 0x2_0000 v =
      .next { s with fab := { s.fab with epochSlot := v.setWidth 48, ctrlBank := v.getLsbD 48 } } := by
  rw [byFirmware_eq s (by decide) (by decide), regWrite, if_pos rfl, writeEsp]
  simp only [wbit_eq_getLsbD, ha, hc, BitVec.ofNat_toNat, Bool.false_eq_true, if_false]

theorem byFirmware_throttle (s : State) (v : W64) : byFirmware s 0x9_0000 v =
    .next { s with pwr := { s.pwr with hwThrottle := s.pwr.hwThrottle && !v.getLsbD 44 } } := by
  rw [byFirmware_eq s (by decide) (by decide)]
  show Host.Outcome.next (if wbit v 44 then _ else s) = _
  rw [wbit_eq_getLsbD]
  cases v.getLsbD 44 <;> simp

theorem byFirmware_panFlags (s : State) {st : BitVec 4} (h : st.toNat < 12) (v : W64) :
    byFirmware s (0x4_0008 + 0x1000 * st.toNat) v = exec (.panFlags st v) s := by
  rw [byFirmware_eq s (by omega) (by omega), exec_panFlags, if_pos h, regWrite]
  simp (disch := omega) only [if_neg, if_pos]
  rw [show (0x4_0008 + 0x1000 * st.toNat - 0x4_0000) / 0x1000 = st.toNat by omega]

/-- PAN_RAKE: the period in hours, 1 to 168 (07). -/
theorem byFirmware_panRake (s : State) {n : Nat} (h : n < 12) (v : W64) :
    byFirmware s (0x4_0018 + 0x1000 * n) v = .next (if 1 ≤ v.toNat % 256 ∧ v.toNat % 256 ≤ 168
      then s.setStack n { s.stack n with rakePeriod := v.setWidth 8 } else s) := by
  have hf : fld v 0 8 = v.toNat % 256 := rfl
  have hw : BitVec.ofNat 8 (v.toNat % 256) = v.setWidth 8 := by
    apply BitVec.eq_of_toNat_eq
    simp
  rw [byFirmware_eq s (by omega) (by omega), regWrite]
  simp (disch := omega) only [if_neg, if_pos]
  rw [show (0x4_0018 + 0x1000 * n - 0x4_0000) / 0x1000 = n by omega, hf, hw]
  simp only [show (0x4_0018 + 0x1000 * n) % 0x1000 = 0x018 by omega, true_and]

theorem byFirmware_blkFlags (s : State) (b : Blk) (v : W64) :
    byFirmware s (0x100_0040 + 0x1000 * b.key) v = exec (.blkFlags b v) s := by
  have hk := key_lt b
  have e : 0x100_0040 + 0x1000 * b.key = blockOff b 0x40 := by simp only [blockOff]; omega
  have hr := blockReg_blockOff b (k := 0x40) (by omega)
  have hl : 0x100_0000 ≤ blockOff b 0x40 := by omega
  rw [byFirmware_eq s (by omega) (by omega), exec_blkFlags, e]
  generalize blockOff b 0x40 = o at *
  unfold regWrite
  simp (disch := omega) only [if_neg, hr, true_and]

/-- The registers of the node, time and ports of Table 01.5 below 0x2_0000 take no write. -/
theorem byFirmware_readOnly (s : State) {o : Nat} (h : o < 0x2_0000) (h8 : o % 8 = 0) (v : W64) :
    byFirmware s o v = .next s := by
  rw [byFirmware_eq s (by omega) h8, regWrite]
  simp (disch := omega) only [if_neg, blockReg_below (show o < 0x100_0000 by omega)]

/-! ### Stores by a hart (10 R271) -/

/-- An aligned store of 8 bytes to a register by a hart that runs: performed, or an access fault. -/
theorem byHart_eq {s : State} {h : BitVec 6} (hr : (s.hart h).state = .running) {o : Nat} (ho : o < 0x200_0000)
    (h8 : o % 8 = 0) (v : W64) : byHart s h o 8 v =
      .next ((hartRegWrite s h o v).getD (takeTrap s h false 7 (regNpa o))) := by
  unfold byHart execRegisterWrite physStore
  rw [toNat_regNpa ho, place_reg s ho]
  simp only [Nat.add_sub_cancel_left, BitVec.ofNat_toNat, BitVec.setWidth_eq]
  rw [if_neg (by simp [hr]; omega), if_neg (by omega)]
  cases hartRegWrite s h o v <;> rfl

/-- A misaligned store takes the alignment fault. -/
theorem byHart_misaligned {s : State} {h : BitVec 6} (hr : (s.hart h).state = .running) {o : Nat}
    (ho : o < 0x200_0000) (h8 : o % 8 ≠ 0) (v : W64) : byHart s h o 8 v =
      .next (takeTrap s h false 6 (regNpa o)) := by
  unfold byHart execRegisterWrite
  rw [toNat_regNpa ho]
  simp only [Nat.add_sub_cancel_left]
  rw [if_neg (by simp [hr]; omega), if_pos (.inr h8)]

/-- A store of another size than 8 bytes takes the access fault. -/
theorem byHart_narrow {s : State} {h : BitVec 6} (hr : (s.hart h).state = .running) {o : Nat} (ho : o < 0x200_0000)
    (h4 : o % 4 = 0) (v : W64) : byHart s h o 4 v =
      .next (takeTrap s h false 7 (regNpa o)) := by
  unfold byHart execRegisterWrite physStore
  rw [toNat_regNpa ho, place_reg s ho]
  simp only [Nat.add_sub_cancel_left]
  rw [if_neg (by simp [hr]; omega), if_neg (by omega)]
  rfl

section hart
variable {s : State} {h : BitVec 6} (hr : (s.hart h).state = .running)
include hr

/-- FCO_APT is a hart's to write in M alone. -/
theorem byHart_apt {i : Nat} (hi : i < 4096) (v : W64) : byHart s h (0x5_0000 + 8 * i) 8 v =
    if (s.hart h).priv = .M then .next { s with apt := s.apt.set 0 i (v &&& 0x03FF_FFFF_FFFF_FFFF) }
    else .next (takeTrap s h false 7 (regNpa (0x5_0000 + 8 * i))) := by
  rw [byHart_eq hr (by omega) (by omega), hartRegWrite, if_pos (by omega),
    show (0x5_0000 + 8 * i - 0x5_0000) / 8 = i by omega]
  split <;> rfl

theorem byHart_msip {g : BitVec 6} (hg : hartPresent s g = true) (v : W64) :
    byHart s h (0x5_9000 + 16 * g.toNat) 8 v = .next (s.updHart g fun t => { t with msip := v.getLsbD 6 }) := by
  have hlt := g.isLt
  rw [byHart_eq hr (by omega) (by omega), hartRegWrite, if_neg (by omega), if_pos (by omega),
    show (0x5_9000 + 16 * g.toNat - 0x5_9000) / 16 = g.toNat by omega, BitVec.ofNat_toNat, BitVec.setWidth_eq,
    if_neg (by simp [hg]), if_pos (by omega)]
  rfl

theorem byHart_tcmp {g : BitVec 6} (hg : hartPresent s g = true) (v : W64) :
    byHart s h (0x5_9008 + 16 * g.toNat) 8 v = .next (s.updHart g fun t => { t with tcmp := v }) := by
  have hlt := g.isLt
  rw [byHart_eq hr (by omega) (by omega), hartRegWrite, if_neg (by omega), if_pos (by omega),
    show (0x5_9008 + 16 * g.toNat - 0x5_9000) / 16 = g.toNat by omega, BitVec.ofNat_toNat, BitVec.setWidth_eq,
    if_neg (by simp [hg]), if_neg (by omega)]
  rfl

/-- Every register but FCO_APT, FCO_HART_STATUS and FCO_HART_TCMP takes no store of a hart. -/
theorem byHart_other {o : Nat} (ho : o < 0x5_0000 ∨ 0x5_9400 ≤ o ∧ o < 0x200_0000) (h8 : o % 8 = 0) (v : W64) :
    byHart s h o 8 v = .next (takeTrap s h false 7 (regNpa o)) := by
  rw [byHart_eq hr (by omega) h8, hartRegWrite, if_neg (by omega), if_neg (by omega)]
  rfl

end hart

/-! ### What recording events changes (11 R288) -/

/-- `t` is `s` but for its log, the hold's worst severity, the free values drawn and the candidates for repair. -/
def OnlyNoted (s t : State) : Prop :=
  t = { s with
    err := t.err, hold := { s.hold with worst := t.hold.worst, fatal := t.hold.fatal }, free := t.free
    sec := { s.sec with candidates := t.sec.candidates } }

theorem OnlyNoted.refl (s : State) : OnlyNoted s s := rfl

theorem OnlyNoted.trans {s t u : State} (a : OnlyNoted s t) (b : OnlyNoted t u) : OnlyNoted s u := by
  unfold OnlyNoted at *
  rw [b, a]

theorem OnlyNoted.stk_eq {s t : State} (h : OnlyNoted s t) : t.stk = s.stk := by rw [h]

theorem onlyNoted_worsen (s : State) (v : Sev) : OnlyNoted s (worsen s v) := by
  unfold worsen
  split <;> rfl

theorem onlyNoted_record (s : State) (c : ErrCode) (a : EvArgs) : OnlyNoted s (record s c a) := by
  have h0 : OnlyNoted s (worsen (drew { s with err := countSev s.err c.info.2.2 }) c.info.2.2) :=
    OnlyNoted.trans (t := drew { s with err := countSev s.err c.info.2.2 }) rfl (onlyNoted_worsen _ _)
  unfold record recordSev
  dsimp only
  split
  · split
    · exact h0.trans rfl
    · exact h0.trans rfl
  · exact h0.trans rfl

theorem countSev_coal (e : Errs) (v : Sev) : (countSev e v).coal = e.coal := by cases v <;> rfl

theorem countSev_seq (e : Errs) (v : Sev) : (countSev e v).seq = e.seq := by cases v <;> rfl

/-- The state in which an event of severity C is about to be recorded. -/
def countedC (s : State) : State := worsen (drew { s with err := countSev s.err .C }) .C

theorem countedC_coal (s : State) : (countedC s).err.coal = s.err.coal := by
  rw [countedC, worsen_err]
  exact countSev_coal _ _

theorem countedC_seq (s : State) : (countedC s).err.seq = s.err.seq := by
  rw [countedC, worsen_err]
  exact countSev_seq _ _

/-- A stack set after events have been recorded on a state with other stacks and counts of decoded lines. -/
theorem OnlyNoted.setStack {s u : State} {d : SMap Nat} {x : SMap Stack} (h : OnlyNoted { s with decoded := d, stk := x } u)
    (n : Nat) (v : Stack) : let t := u.setStack n v
    t = { s with stk := t.stk, err := t.err, hold := { s.hold with worst := t.hold.worst, fatal := t.hold.fatal }
                 free := t.free, sec := { s.sec with candidates := t.sec.candidates }, decoded := d } := by
  obtain ⟨e, w, f, m, c, rfl⟩ : ∃ e w f m c, u = { s with
      decoded := d, stk := x, err := e, hold := { s.hold with worst := w, fatal := f }, free := m
      sec := { s.sec with candidates := c } } := ⟨_, _, _, _, _, h⟩
  rfl

/-- A C event that no open window of its code takes in enters the log with the next record_seq and opens a window. -/
theorem record_new {s : State} {c : ErrCode} (hc : c.info.2.2 = .C) (h : ∀ w ∈ s.err.coal, w.code ≠ c) (a : EvArgs) :
    (∃ r ∈ (record s c a).err.log, r.1.code = c ∧ r.1.seq = s.err.seq) ∧ (record s c a).err.seq = s.err.seq + 1 ∧
      ∀ w ∈ (record s c a).err.coal, w ∈ s.err.coal ∨ w.code = c := by
  have hn : s.err.coal.find? (fun w => w.code == c && w.unitKind == a.unitKind && w.unit == a.unit) = none :=
    List.find?_eq_none.2 fun w hw => by simp [h w hw]
  let r := mkRec s c .C a
  let s1 := pushRec (countedC s) r
  have e : record s c a = { s1 with err := { s1.err with coal := s1.err.coal ++
      [{ code := c, unitKind := a.unitKind, unit := a.unit, ends := s.tim.now + 1000000000, count := 0, last := r }] } } := by
    unfold record recordSev
    rw [hc]
    simp only [if_true, hn]
    rfl
  rw [e]
  refine ⟨⟨({ r with seq := (countedC s).err.seq, lost := (countedC s).err.lostNext }, false),
    List.mem_append_right _ (List.mem_singleton.2 rfl), rfl, countedC_seq s⟩, congrArg (· + 1) (countedC_seq s),
    fun w hw => ?_⟩
  rcases List.mem_append.1 hw with hw | hw
  · exact .inl (by rw [← countedC_coal s]; exact hw)
  · rw [List.mem_singleton.1 hw]
    exact .inr rfl

/-! ### The rake's line (07 R207) -/

/-- A new candidate for repair: it is listed, or, with the store full, logged; nothing else changes. -/
theorem addCandidate_noted {s : State} (hc : s.err.coal = []) (st : Nat) (r : RowRepair) :
    OnlyNoted s (addCandidate s st r) ∧ s.err.seq ≤ (addCandidate s st r).err.seq ∧
      ∀ w ∈ (addCandidate s st r).err.coal, w.code = .rowRepair := by
  have none : ∀ w ∈ s.err.coal, w.code = .rowRepair := by simp [hc]
  unfold addCandidate
  split
  · exact ⟨OnlyNoted.refl s, le_refl _, none⟩
  · split
    · have new := record_new (s := s) (c := .rowRepair) rfl (by simp [hc])
      exact ⟨onlyNoted_record _ _ _, (Nat.le_succ _).trans_eq (new _).2.1.symm,
        fun w hw => ((new _).2.2 w hw).elim (none w) id⟩
    · exact ⟨rfl, le_refl _, none⟩

/-- A stack's counters after an uncorrectable line of a channel. -/
def uncorrStack (k : Stack) (ch : Nat) : Stack :=
  { k.setChan ch { k.chan ch with uncorr := (k.chan ch).uncorr + 1 } with uncorr := satAdd k.uncorr 1 }

/-- The line `l` of stack `st` by its number among the node's. -/
theorem stackLine_facts {st l : Nat} (hl : l < 2 ^ 30) (hst : st < 12) :
    (st * 2 ^ 30 + l) * 64 < 12 <<< 36 ∧ ((st * 2 ^ 30 + l) * 64) >>> 36 = st := by
  rw [Nat.shiftLeft_eq, Nat.shiftRight_eq_div_pow]
  omega

/-- An uncorrectable line of a stack is counted, and its row a candidate (R182, R209). -/
theorem readLine_uncorr {s : State} {st line : Nat} (h1 : line * 64 < 12 <<< 36) (h2 : (line * 64) >>> 36 = st)
    (h : decodeLine s line true true = .uncorr) :
    ∃ r ch e, readLine s line = (addCandidate (({ s with decoded := bumpDecoded s.decoded line } : State).setStack st
      (uncorrStack (s.stack st) ch)) st r, some (.uncorr, e)) := by
  have hd : decodeLine { s with decoded := bumpDecoded s.decoded line } line true true = .uncorr := h
  refine ⟨rowAt (line * 64 % 2 ^ 36), chanOf (line * 64 % 2 ^ 36),
    (.memUncorr, (npasOf s.ncr.cellarGib (line * 64)).headD (line * 64)), ?_⟩
  unfold readLine touchLine
  simp only [if_pos h1, h2, hd]
  rfl

/-- A line that decodes clean is counted as decoded alone. -/
theorem readLine_good {s : State} {line : Nat} (h : decodeLine s line true true = .good) :
    readLine s line = ({ s with decoded := bumpDecoded s.decoded line }, none) := by
  have hd : decodeLine { s with decoded := bumpDecoded s.decoded line } line true true = .good := h
  unfold readLine touchLine
  simp only [hd, ite_self]

/-- The rake of a stack moves on from its line `l`; after the last the next pass begins, with the period as written. -/
def rakeOn (l : Nat) (k : Stack) : Stack :=
  if l + 1 = 2 ^ 30 then { k with rakeLine := 0, rakePasses := k.rakePasses + 1, rakePeriodNow := k.rakePeriod }
  else { k with rakeLine := l + 1 }

theorem rakeOn_chans (l : Nat) (k : Stack) : (rakeOn l k).chans = k.chans := by
  unfold rakeOn
  split <;> rfl

section rake
variable {s : State} {st line : Nat} (hr : (s.stack st).state = .ready)
  (hline : st <<< 30 + (s.stack st).rakeLine = line)
include hr hline

/-- The rake of a line that decodes clean. -/
theorem rake_good (h : decodeLine s line true true = .good) :
    rake s st = { s.setStack st (rakeOn (s.stack st).rakeLine (s.stack st)) with
      decoded := bumpDecoded s.decoded line } := by
  unfold rake
  simp only [hr, ne_eq, not_true_eq_false, if_false, hline]
  rw [readLine_good h, h]
  rfl

/-- The rake of an uncorrectable line: after the line has been met, it is recorded and left, and the rake moves on. -/
theorem rake_uncorr (h1 : line * 64 < 12 <<< 36) (h2 : (line * 64) >>> 36 = st)
    (h : decodeLine s line true true = .uncorr) : ∃ r ch a,
      let s1 : State := { s with decoded := bumpDecoded s.decoded line }
      let u := record (addCandidate (s1.setStack st (uncorrStack (s.stack st) ch)) st r) .rakeUncorr a
      rake s st = u.setStack st (rakeOn (s.stack st).rakeLine (u.stack st)) := by
  obtain ⟨r, ch, ⟨code, npa⟩, e⟩ := readLine_uncorr h1 h2 h
  unfold rake
  simp only [hr, ne_eq, not_true_eq_false, if_false, hline]
  rw [e, h]
  exact ⟨r, ch, _, rfl⟩

/-- What the rake leaves after an uncorrectable line, with no coalescing window open (R207). -/
theorem rake_uncorr_leaves (h1 : line * 64 < 12 <<< 36) (h2 : (line * 64) >>> 36 = st)
    (h : decodeLine s line true true = .uncorr) (hc : s.err.coal = []) :
    let t := rake s st
    (∃ r ∈ t.err.log, r.1.code = .rakeUncorr ∧ s.err.seq ≤ r.1.seq) ∧
    t.stack st = rakeOn (s.stack st).rakeLine
      { s.stack st with uncorr := satAdd (s.stack st).uncorr 1, chans := (t.stack st).chans } ∧
    (∀ n, n ≠ st → t.stack n = s.stack n) ∧
    t = { s with stk := t.stk, err := t.err, hold := { s.hold with worst := t.hold.worst, fatal := t.hold.fatal }
                 free := t.free, sec := { s.sec with candidates := t.sec.candidates }
                 decoded := bumpDecoded s.decoded line } := by
  obtain ⟨r, ch, a, e⟩ := rake_uncorr hr hline h1 h2 h
  let k' := uncorrStack (s.stack st) ch
  let s2 := ({ s with decoded := bumpDecoded s.decoded line } : State).setStack st k'
  let u := record (addCandidate s2 st r) .rakeUncorr a
  obtain ⟨n1, n2, n3⟩ := addCandidate_noted (s := s2) hc st r
  have hn : OnlyNoted s2 u := n1.trans (onlyNoted_record _ _ _)
  have hstk : ∀ n, u.stack n = s2.stack n := fun n => by rw [State.stack, State.stack, hn.stk_eq]
  have hk : u.stack st = k' := (hstk st).trans (stack_setStack ..)
  have ht : (rake s st).stack st = rakeOn (s.stack st).rakeLine k' := by
    rw [e]
    exact (stack_setStack ..).trans (congrArg _ hk)
  have new := record_new (s := addCandidate s2 st r) (c := .rakeUncorr) rfl
    (fun w hw => by rw [n3 w hw]; decide) a
  refine ⟨?log, ?stack, fun n hn => ?others, ?frame⟩
  case log =>
    obtain ⟨x, hx, hcode, hseq⟩ := new.1
    exact ⟨x, by rw [e]; exact hx, hcode, by rw [hseq]; exact n2⟩
  case stack =>
    rw [ht, rakeOn_chans]
    rfl
  case others =>
    rw [e]
    exact (stack_setStack_of_ne _ hn).trans ((hstk n).trans (stack_setStack_of_ne _ hn))
  case frame =>
    rw [e]
    exact hn.setStack st (rakeOn (s.stack st).rakeLine (u.stack st))

end rake

/-! ### The statement -/

/-- Settles O58: each access is followed to its register by the lemmas above. -/
theorem registersAreReadAndWritten : Obligations.RegistersAreReadAndWritten := by
  unfold Obligations.RegistersAreReadAndWritten
  intro s answered
  refine ⟨⟨answered_satUzl s, answered_satCxl s⟩, fun o ho h8 hl => exec_hrwRead hl ho h8,
    fun n hn => ⟨answered_satMesh s hn, answered_satMc s hn⟩, fun b hb => answered_block hb,
    fun b v => ?blkFlags, fun st v => ?panFlags, ⟨fun hl o size v p => byHost_linkDown hl o size v p, fun hl v => ?host⟩,
    fun v => ?firmware, fun h hr => ?hart, fun st hst hr => ?rake, fun st ch => rfl⟩
  case blkFlags => rw [exec_blkFlags, clearBlkFlags_eq]
  case panFlags => rw [exec_panFlags, clearPanFlags_eq]
  case host =>
    exact ⟨byHost_intCause hl v, byHost_intMask hl v, byHost_status hl v, fun r h3 => byHost_cons hl h3 v,
      fun i hi => byHost_em hl hi v, byHost_leaseTake hl, byHost_leaseRenew hl, byHost_leaseRelease hl,
      fun o h ho h8 => byHost_view hl h ho h8 v, fun o size p ho h => byHost_outside hl ho h v p,
      fun o size p ho h => byHost_badAccess hl ho h v p, fun o ho h8 => byHost_poison hl ho h8 v⟩
  case firmware =>
    refine ⟨byFirmware_esp s, fun i hi => byFirmware_apt s hi v, byFirmware_throttle s v,
      fun st h => ⟨byFirmware_panFlags s h v, byFirmware_panRake s h v⟩, fun b => byFirmware_blkFlags s b v, fun o ho => ?_⟩
    have h : o < 0x2_0000 ∧ o % 8 = 0 := by
      simp only [List.mem_cons, List.not_mem_nil, or_false] at ho
      omega
    exact byFirmware_readOnly s h.1 h.2 v
  case hart =>
    intro w traps v
    refine ⟨fun i hi => byHart_apt hr hi v, fun g hg => ⟨byHart_msip hr hg v, byHart_tcmp hr hg v⟩, fun o ho => ?_,
      byHart_misaligned hr (by decide) (by decide) v, byHart_narrow hr (by decide) (by decide) v⟩
    have h : (o < 0x5_0000 ∨ 0x5_9400 ≤ o ∧ o < 0x200_0000) ∧ o % 8 = 0 := by
      simp only [List.mem_cons, List.not_mem_nil, or_false] at ho
      omega
    exact byHart_other hr h.1 h.2 v
  case rake =>
    intro k line moved hl
    obtain ⟨h1, h2⟩ := stackLine_facts hl hst
    have hline : st.toNat <<< 30 + (s.stack st.toNat).rakeLine = line := by rw [Nat.shiftLeft_eq]
    have e : exec (.rakeRead st) s = .next (rake s st.toNat) := congrArg Host.Outcome.next (if_pos hst)
    exact ⟨fun hg => by rw [e, rake_good hr hline hg]; rfl,
      fun hu hc _ => ⟨_, e, rake_uncorr_leaves hr hline h1 h2 hu hc⟩⟩

end Sys2Proof.Laws
end

section
/-!
O12 and O13: the oldest command of a queue completes (04 R99, R102, R103; 11 R289; 13 R330).
-/
namespace Sys2Proof.Laws

open Sys2Proof.Machine

/-! ### The oldest command -/

theorem exec_commandComplete (s : State) (b : Blk) (q : Qc) :
    exec (.commandComplete b q) s = .next (completeHead s b q) := rfl

/-- The command has left the flight, and its stream context keeps its status. -/
def leftFlight (s : State) (b : Blk) (q : Qc) (f : InFl) (st : Status) : State :=
  ctxLast (s.updQ b q fun u => { u with inflight := u.inflight.drop 1 }) b f.cmd st

/-- The record of a command of class refused or failed (R22). -/
def failedRec (s : State) (b : Blk) (q : Qc) (f : InFl) (st : Status) : State :=
  record (notifyRec (signOut (leftFlight s b q f st) b q f) b q f.cmd f.pos st)
    (f.err.getD (if st.refused then .cmdRefused else .cmdFailed)) (cmdArgs s b q f st)

/-- The halt of its queue, and its count among the D events of its block (R22). -/
def failedHalt (s : State) (b : Blk) (q : Qc) (f : InFl) (st : Status) : State :=
  countD (haltQueue (failedRec s b q f st) b q st f.pos) b st (cmdArgs s b q f st)

section
variable {s : State} {b : Blk} {q : Qc} {f : InFl} {l : List InFl} {st : Status}
  (hf : (s.q b q).inflight = f :: l) (hd : f.done = some st) (hh : (s.q b q).state ≠ .halt)
  (hn : f.cmd.notify = true → s.host.cbuf.length < 4096)
include hf hd hh hn

/-- A finished command of class done or qualified completes with its posts. -/
theorem completeHead_good (hg : st.good = true) (hp : postOver (s.blk b) q f.cmd = false) : completeHead s b q =
    notifyRec (signOut ((leftFlight s b q f st).updBlk b fun k => post k q f.cmd) b q f) b q f.cmd f.pos st := by
  have hc : ¬(f.cmd.notify && decide (4096 ≤ s.host.cbuf.length)) = true := by simpa using hn
  unfold completeHead
  rw [headCmd, hf]
  simp only [List.head?_cons, hd, hh, hg, hp, hc, if_false, if_true, Bool.and_false, Bool.false_eq_true]
  rfl

/-- A finished command of class refused or failed is recorded, halts its queue, and may retire its block. -/
theorem completeHead_bad (hg : st.good = false) : completeHead s b q =
    if f.retires && blockLive (failedHalt s b q f st) b then
      retireBlock (failedHalt s b q f st) b st .check (cmdArgs s b q f st)
    else failedHalt s b q f st := by
  have hc : ¬(f.cmd.notify && decide (4096 ≤ s.host.cbuf.length)) = true := by simpa using hn
  unfold completeHead
  rw [headCmd, hf]
  simp only [List.head?_cons, hd, hh, hg, hc, if_false, Bool.false_and, Bool.false_eq_true]
  rfl

end

/-! ### What completion leaves -/

theorem q_leftFlight (s : State) (b : Blk) (q : Qc) (f : InFl) (st : Status) :
    (leftFlight s b q f st).q b q = { s.q b q with inflight := (s.q b q).inflight.drop 1 } := by simp [leftFlight]

theorem q_leftFlight_of_ne (s : State) (b : Blk) {q r : Qc} (h : r ≠ q) (f : InFl) (st : Status) :
    (leftFlight s b q f st).q b r = s.q b r := by simp [leftFlight, q_updQ_of_ne _ _ h]

theorem ev_leftFlight (s : State) (b : Blk) (q : Qc) (f : InFl) (st : Status) :
    ((leftFlight s b q f st).blk b).ev = (s.blk b).ev := by simp [leftFlight]

theorem blk_leftFlight_of_ne (s : State) {a b : Blk} (h : a ≠ b) (q : Qc) (f : InFl) (st : Status) :
    (leftFlight s b q f st).blk a = s.blk a := by simp [leftFlight, ctxLast_blk_of_ne _ _ _ h, blk_updQ_of_ne _ _ h]

theorem ctx_leftFlight (s : State) (b : Blk) (q : Qc) (f : InFl) (st : Status) (n : Nat) :
    (leftFlight s b q f st).ctx b n = if f.cmd.ctx = some n then { s.ctx b n with last := st } else s.ctx b n := by
  simp [leftFlight, ctxLast_ctx]

theorem leftFlight_frame (s : State) (b : Blk) (q : Qc) (f : InFl) (st : Status) :
    leftFlight s b q f st = { s with blocks := (leftFlight s b q f st).blocks } := by
  unfold leftFlight ctxLast
  split <;> rfl

/-- Signing a command's output changes its queue's signature alone. -/
theorem q_signOut (s : State) (b : Blk) (q : Qc) (f : InFl) :
    (signOut s b q f).q b q =
      if (s.job.image.map Image.pleach).getD false = true ∧ f.out ≠ [] then
        { s.q b q with
          crc := crc64 (s.q b q).crc (leBytes 4 f.pos ++ f.out)
          crcLog := (s.q b q).crcLog ++ [(f.pos, crc64 0 (leBytes 4 f.pos ++ f.out))] }
      else s.q b q := by
  rw [signOut_eq]
  split
  · rw [q_updQ]
  · rfl

theorem signOut_of (P : State → State → Prop) (s : State) (b : Blk) (q : Qc) (f : InFl) (h0 : P s s)
    (h : ∀ g, P s (s.updQ b q g)) : P s (signOut s b q f) := by
  rw [signOut_eq]
  split
  · exact h _
  · exact h0

theorem q_signOut_of_ne (s : State) (b : Blk) {q r : Qc} (h : r ≠ q) (f : InFl) : (signOut s b q f).q b r = s.q b r :=
  signOut_of (fun s t => t.q b r = s.q b r) s b q f rfl fun _ => q_updQ_of_ne _ _ h

theorem ev_signOut (s : State) (b : Blk) (q : Qc) (f : InFl) : ((signOut s b q f).blk b).ev = (s.blk b).ev :=
  signOut_of (fun s t => (t.blk b).ev = (s.blk b).ev) s b q f rfl fun _ => ev_updQ _ _ _

theorem blk_signOut_of_ne (s : State) {a b : Blk} (h : a ≠ b) (q : Qc) (f : InFl) : (signOut s b q f).blk a = s.blk a :=
  signOut_of (fun s t => t.blk a = s.blk a) s b q f rfl fun _ => blk_updQ_of_ne _ _ h

theorem ctx_signOut (s : State) (b : Blk) (q : Qc) (f : InFl) (n : Nat) : (signOut s b q f).ctx b n = s.ctx b n :=
  signOut_of (fun s t => t.ctx b n = s.ctx b n) s b q f rfl fun _ => ctx_updQ _ _ _ _ _

theorem signOut_frame (s : State) (b : Blk) (q : Qc) (f : InFl) :
    signOut s b q f = { s with blocks := (signOut s b q f).blocks } :=
  signOut_of (fun s t => t = { s with blocks := t.blocks }) s b q f rfl fun _ => rfl

/-- A completion record enters the buffer for a notify command alone. -/
theorem notifyRec_host (s : State) (b : Blk) (q : Qc) (c : Cmd) (i : Nat) (st : Status) :
    (notifyRec s b q c i st).host = { s.host with cbuf := s.host.cbuf ++ (if c.notify then
      [{ status := st, queue := q.code, region := b.region.toNat, block := b.block.toNat, idx := i, label := c.label
         loadGen := c.loadGen, step := s.job.step.toNat, hall := stamp s }] else []) } := by
  unfold notifyRec
  split
  · rfl
  · rw [List.append_nil]

theorem notifyRec_frame (s : State) (b : Blk) (q : Qc) (c : Cmd) (i : Nat) (st : Status) :
    notifyRec s b q c i st =
      { s with host := (notifyRec s b q c i st).host, free := (notifyRec s b q c i st).free } := by
  unfold notifyRec
  split <;> rfl

/-- Settles O12: the command leaves the flight, posts, signs its output and notifies, each by its own lemma. -/
theorem commandCompletePosts : Obligations.CommandCompletePosts := by
  unfold Obligations.CommandCompletePosts
  intro s b q f l st hf hd hh hg hp hn twin bs
  have ht := exec_commandComplete s b q
  rw [completeHead_good hf hd hh hn hg hp] at ht
  set u := leftFlight s b q f st with hu
  set v := u.updBlk b fun k => post k q f.cmd with hv
  have hfr : v = { s with blocks := v.blocks } := congrArg (fun x => x.updBlk b fun k => post k q f.cmd)
    (leftFlight_frame s b q f st)
  have hjob : v.job = s.job := by rw [hfr]
  refine ⟨_, ht, ?queue, fun p r => ?events, fun n => ?ctx, ?host, fun r hr => ?queues, fun a ha => ?blocks, ?frame⟩
  case queue =>
    rw [notifyRec_q, q_signOut, hv, q_post, hu, q_leftFlight, hf, ← hu, ← hv, hjob]
    by_cases h : twin
    · rw [if_pos h, if_pos h, if_pos h]
      rfl
    · rw [if_neg h, if_neg h, if_neg h]
      rfl
  case events =>
    have he : evGet (v.blk b) p.code r.code = _ := (congrArg (evGet · _ _) (blk_updBlk b _)).trans (evGet_post (u.blk b) p r q f.cmd)
    rw [notifyRec_blk, evGet, ev_signOut, ← evGet, he, evGet, ev_leftFlight, evGet]
  case ctx => rw [notifyRec_ctx, ctx_signOut, hv, ctx_post, hu, ctx_leftFlight]
  case host =>
    rw [notifyRec_host, signOut_frame, hfr]
    rfl
  case queues => rw [notifyRec_q, q_signOut_of_ne _ _ hr, hv, q_post, hu, q_leftFlight_of_ne _ _ hr]
  case blocks =>
    rw [notifyRec_blk, blk_signOut_of_ne _ ha, hv, blk_updBlk_of_ne _ ha, hu, blk_leftFlight_of_ne _ ha]
  case frame =>
    rw [notifyRec_frame, signOut_frame, hfr]

/-! ### A command that failed (R22, R102, R289) -/

theorem blk_congr {s t : State} (h : t.blocks = s.blocks) (b : Blk) : t.blk b = s.blk b := by rw [State.blk, h, State.blk]

/-- What the retirement of block `b` leaves of the block and the node: a halted queue, the counters, and a hold. -/
structure KeepsHalt (b : Blk) (q : Qc) (s t : State) : Prop where
  queue : (s.q b q).state = .halt → t.q b q = s.q b q
  ev : (t.blk b).ev = (s.blk b).ev
  dEvents : (t.blk b).dEvents = (s.blk b).dEvents
  hold : s.hold.state ≠ .run → t.hold.state = s.hold.state
  mem : t.mem = s.mem
  harts : t.harts = s.harts

theorem KeepsHalt.refl (b : Blk) (q : Qc) (s : State) : KeepsHalt b q s s := ⟨fun _ => rfl, rfl, rfl, fun _ => rfl, rfl, rfl⟩

/-- A hold that has begun is not entered again (R289). -/
theorem enterHolding_of_hold {s : State} (h : s.hold.state ≠ .run) (v : Sev) (r : Option ErrRec) :
    enterHolding s v r = s := if_neg fun e => h e.2

/-- The first halt of a running job takes the node to HOLDING (R289). -/
theorem hold_enterHolding {s : State} (hj : s.job.phase = .running) (hr : s.hold.state = .run) (v : Sev)
    (r : Option ErrRec) : (enterHolding s v r).hold.state = .holding := by
  rw [enterHolding, if_pos ⟨hj, hr⟩, traceHw_hold]
  rfl

@[simp] theorem holdAtBoundary_hold_state (s : State) : (holdAtBoundary s).hold.state = s.hold.state := by
  unfold holdAtBoundary
  split <;> rfl

theorem holdAtBoundary_frame (s : State) : holdAtBoundary s = { s with hold := (holdAtBoundary s).hold } := by
  unfold holdAtBoundary
  split <;> rfl

/-- Halting the queues of a block in turn leaves one that has halted. -/
theorem haltQueues_keeps (st : Status) (q : Qc) (l : List Qc) (k : Block) (h : (k.queue q).state = .halt) :
    (l.foldl (fun k p => k.setQueue p ((k.queue p).halted st)) k).queue q = k.queue q := by
  induction l generalizing k with
  | nil => rfl
  | cons p l ih =>
    have hq : (k.setQueue p ((k.queue p).halted st)).queue q = k.queue q := by
      by_cases e : q = p
      · subst e
        rw [queue_setQueue, Queue.halted, h]
        rfl
      · exact queue_setQueue_of_ne _ _ e
    exact (ih (k.setQueue p ((k.queue p).halted st)) (by rw [hq]; exact h)).trans hq

theorem haltQueues_frame (st : Status) (l : List Qc) (k : Block) :
    let k' := l.foldl (fun k p => k.setQueue p ((k.queue p).halted st)) k
    k' = { k with queues := k'.queues } := by
  induction l generalizing k with
  | nil => rfl
  | cons p l ih => exact ih (k.setQueue p ((k.queue p).halted st))

theorem haltBlock_keepsHalt (s : State) (b : Blk) (q : Qc) (st : Status) : KeepsHalt b q s (haltBlock s b st) := by
  have hfr := haltQueues_frame st Qc.all (s.blk b)
  have hb : (haltBlock s b st).blk b = _ := blk_updBlk b _
  refine ⟨fun h => ?_, ?_, ?_, fun _ => by simp, by simp, by simp⟩
  · rw [State.q, hb]
    exact haltQueues_keeps st q Qc.all (s.blk b) h
  · rw [hb, hfr]
  · rw [hb, hfr]

theorem KeepsHalt.trans {b : Blk} {q : Qc} {s t u : State} (h : KeepsHalt b q s t) (k : KeepsHalt b q t u) :
    KeepsHalt b q s u where
  queue hs := (k.queue (by rw [h.queue hs]; exact hs)).trans (h.queue hs)
  ev := k.ev.trans h.ev
  dEvents := k.dEvents.trans h.dEvents
  hold hs := (k.hold (by rw [h.hold hs]; exact hs)).trans (h.hold hs)
  mem := k.mem.trans h.mem
  harts := k.harts.trans h.harts

/-- A change that leaves the blocks, the memory, the harts and a hold keeps them. -/
theorem keepsHalt_of_eq {b : Blk} {q : Qc} {s t : State} (hb : t.blocks = s.blocks) (hm : t.mem = s.mem)
    (hh : t.harts = s.harts) (hold : s.hold.state ≠ .run → t.hold.state = s.hold.state) : KeepsHalt b q s t := by
  have hk := blk_congr hb b
  exact ⟨fun _ => by rw [State.q, hk, State.q], by rw [hk], by rw [hk], hold, hm, hh⟩

theorem retireBlock_keepsHalt (s : State) (b : Blk) (q : Qc) (st rec_ : Status) (a : EvArgs) :
    KeepsHalt b q s (retireBlock s b st rec_ a) := by
  have hrec (u : State) (a : EvArgs) : KeepsHalt b q u (record u .blockRetire a) :=
    keepsHalt_of_eq (by simp) (by simp) (by simp) fun _ => by simp
  have hent (u : State) (r : Option ErrRec) : KeepsHalt b q u (enterHolding u .F1 r) :=
    keepsHalt_of_eq (by simp) (by simp) (by simp) fun h => by rw [enterHolding_of_hold h]
  have hbnd (u : State) : KeepsHalt b q u (holdAtBoundary u) :=
    keepsHalt_of_eq (by rw [holdAtBoundary_frame]) (by rw [holdAtBoundary_frame]) (by rw [holdAtBoundary_frame])
      fun _ => by simp
  unfold retireBlock
  dsimp only
  refine .trans ?_ (hbnd _)
  refine .trans ?_ (hent _ _)
  refine .trans ?_ (hrec _ _)
  refine .trans ?_ (haltBlock_keepsHalt _ b q st)
  exact keepsHalt_of_eq rfl rfl rfl fun _ => rfl

/-- A D event is counted; the fourth retires the block (R22). -/
theorem countD_keepsHalt (s : State) (b : Blk) (q : Qc) (st : Status) (a : EvArgs) :
    KeepsHalt b q (s.updBlk b fun k => { k with dEvents := k.dEvents + 1 }) (countD s b st a) := by
  unfold countD
  dsimp only
  split
  · exact retireBlock_keepsHalt _ b q st .ok a
  · exact .refl ..

theorem q_haltQueue (s : State) (b : Blk) (q : Qc) (st : Status) (i : Nat) :
    (haltQueue s b q st i).q b q = { s.q b q with state := .halt, haltStatus := st, haltIdx := i } := by
  rw [haltQueue, State.q, blk_congr (enterHolding_blocks _ _ _), ← State.q, q_updQ]

theorem blk_haltQueue (s : State) (b : Blk) (q : Qc) (st : Status) (i : Nat) :
    (haltQueue s b q st i).blk b = { s.blk b with queues := ((haltQueue s b q st i).blk b).queues } := by
  rw [haltQueue, blk_congr (enterHolding_blocks _ _ _), State.updQ, State.setQ, blk_updBlk]
  rfl

theorem hold_haltQueue {s : State} (hj : s.job.phase = .running) (hr : s.hold.state = .run) (b : Blk) (q : Qc)
    (st : Status) (i : Nat) : (haltQueue s b q st i).hold.state = .holding := by
  rw [haltQueue]
  exact hold_enterHolding (by rw [updQ_job, hj]) (by rw [updQ_hold, hr]) _ _

/-- The record of the failure leaves the queue without its command, and the block's counters, the job and the hold. -/
theorem failedRec_keeps (s : State) (b : Blk) (q : Qc) (f : InFl) (st : Status) :
    let t := failedRec s b q f st
    (t.q b q).inflight = (s.q b q).inflight.drop 1 ∧ (t.blk b).ev = (s.blk b).ev ∧
    (t.blk b).dEvents = (s.blk b).dEvents ∧ t.job = s.job ∧ t.hold.state = s.hold.state ∧ t.mem = s.mem ∧
    t.harts = s.harts := by
  intro t
  have hb : t.blk b = (signOut (leftFlight s b q f st) b q f).blk b  :=
    blk_congr ((record_blocks ..).trans (notifyRec_blocks ..)) b
  have hd1 (u : State) : ((signOut u b q f).blk b).dEvents = (u.blk b).dEvents :=
    signOut_of (fun s t => (t.blk b).dEvents = (s.blk b).dEvents) u b q f rfl fun g => by
      rw [State.updQ, State.setQ, blk_updBlk]; rfl
  have hd2 : ((leftFlight s b q f st).blk b).dEvents = (s.blk b).dEvents := by
    unfold leftFlight ctxLast
    split <;> simp [State.setCtx, State.updQ, State.setQ, Block.setQueue]
  refine ⟨?_, ?_, ?_, ?_, ?_, ?_, ?_⟩
  · rw [State.q, hb, ← State.q, q_signOut, apply_ite Queue.inflight, ite_self, q_leftFlight]
  · rw [hb, ev_signOut, ev_leftFlight]
  · rw [hb, hd1, hd2]
  all_goals simp [t, failedRec, leftFlight]

/-- The command has failed: its queue stands halted with its status, and a running job holds. -/
structure FailedHere (s : State) (b : Blk) (q : Qc) (f : InFl) (st : Status) (t : State) : Prop where
  queue : ∃ u : Queue, t.q b q = u ∧ u.inflight = (s.q b q).inflight.drop 1 ∧ u.state = .halt ∧ u.haltStatus = st ∧
    u.haltIdx = f.pos
  ev : (t.blk b).ev = (s.blk b).ev
  dEvents : (t.blk b).dEvents = (s.blk b).dEvents + 1
  hold : s.job.phase = .running → s.hold.state = .run → t.hold.state = .holding
  mem : t.mem = s.mem
  harts : t.harts = s.harts

theorem FailedHere.keeps {s t u : State} {b : Blk} {q : Qc} {f : InFl} {st : Status} (h : FailedHere s b q f st t)
    (k : KeepsHalt b q t u) : FailedHere s b q f st u where
  queue := by
    obtain ⟨v, e, hi, hs, hr⟩ := h.queue
    exact ⟨v, (k.queue (by rw [e]; exact hs)).trans e, hi, hs, hr⟩
  ev := k.ev.trans h.ev
  dEvents := k.dEvents.trans h.dEvents
  hold hj hr := by
    have e := h.hold hj hr
    rw [k.hold (by rw [e]; decide), e]
  mem := k.mem.trans h.mem
  harts := k.harts.trans h.harts

theorem failedHalt_failedHere (s : State) (b : Blk) (q : Qc) (f : InFl) (st : Status) :
    FailedHere s b q f st (failedHalt s b q f st) := by
  obtain ⟨hi, he, hd, hj, hh, hm, hx⟩ := failedRec_keeps s b q f st
  set r := failedRec s b q f st with hr
  let h := haltQueue r b q st f.pos
  have hb := blk_haltQueue r b q st f.pos
  refine FailedHere.keeps (t := h.updBlk b fun k => { k with dEvents := k.dEvents + 1 }) ?_ (countD_keepsHalt ..)
  have hq : (h.updBlk b fun k => { k with dEvents := k.dEvents + 1 }).q b q = h.q b q := by
    rw [State.q, blk_updBlk]
    rfl
  refine ⟨⟨_, hq.trans (q_haltQueue ..), hi, rfl, rfl, rfl⟩, ?_, ?_, fun hp hs => ?_, ?_, ?_⟩
  · rw [blk_updBlk]
    exact (congrArg Block.ev hb).trans he
  · rw [blk_updBlk]
    exact congrArg (· + 1) ((congrArg Block.dEvents hb).trans hd)
  · exact hold_haltQueue (by rw [hj]; exact hp) (by rw [hh]; exact hs) b q st f.pos
  · rw [updBlk_mem, haltQueue_mem, hm]
  · rw [updBlk_harts, haltQueue_harts, hx]

/-- Settles O13: the queue halts at the failed command, and a retirement of its block leaves that as it is. -/
theorem commandFailedHaltsQueue : Obligations.CommandFailedHaltsQueue := by
  unfold Obligations.CommandFailedHaltsQueue
  intro s b q f l st hf hd hh hg hn
  have h : FailedHere s b q f st (completeHead s b q) := by
    rw [completeHead_bad hf hd hh hn hg]
    split
    · exact (failedHalt_failedHere s b q f st).keeps (retireBlock_keepsHalt ..)
    · exact failedHalt_failedHere s b q f st
  obtain ⟨u, e, hi, hs, hst, hx⟩ := h.queue
  rw [hf] at hi
  refine ⟨_, exec_commandComplete s b q, ?_, ?_, ?_, ?_, fun p r => ?_, h.dEvents, h.hold, h.mem, h.harts⟩
  · rw [e, hi]; rfl
  · rw [e, hs]
  · rw [e, hst]
  · rw [e, hx]
  · rw [evGet, h.ev, evGet]

end Sys2Proof.Laws
end

section
/-!
O32: SLOT_BOUNDARY on a node that has nothing to send and no plan (02 R52).
-/
namespace Sys2Proof.Laws

open Sys2Proof.Machine

/-! ### A slot in which nothing is due -/

/-- Nothing is due at a slot boundary: no plan is active or armed, no pair has a state, no frame waits, and scheduled
service neither returns nor ends. -/
structure Quiet (s : State) : Prop where
  plan : activePlan s = none
  armed : s.fab.armed = none
  pairs : s.fab.pairs = []
  ready : s.fab.ready = []
  steady : s.tim.state ≠ .holdover
  stays : ¬(s.tim.service = false ∧ s.tim.state = .locked)
  near : s.tim.state = .locked → s.tim.errPs.natAbs ≤ 8000

theorem activePlan_none {s : State} (h : s.fab.espState = .none ∨ s.fab.espState = .armed) : activePlan s = none := by
  unfold activePlan
  rcases h with h | h <;> simp [h]

theorem mayReturn_false {s : State} (h : ¬(s.tim.service = false ∧ s.tim.state = .locked)) : mayReturn s = false := by
  unfold mayReturn
  cases hs : s.tim.service <;> simp_all

theorem slotEnds_planless {s : State} (h : activePlan s = none) (n : Nat) : slotEnds s n = s := by
  rw [slotEnds, h, ite_self]

theorem quarantineDue_nil {s : State} (h : s.fab.pairs = []) : quarantineDue s = s := by
  rw [quarantineDue, h, List.foldl_nil]

theorem activate_unarmed {s : State} (h : s.fab.armed = none) : activate s = s := by rw [activate, h]

theorem periodBoundary_planless {s : State} (h : activePlan s = none) : periodBoundary s = s := by
  rw [periodBoundary, periodDue, h]
  rfl

theorem drift_steady {t : Timing} (h : t.state ≠ .holdover) (p : Nat) : drift t p = t := by
  unfold drift
  split
  · next e _ => exact absurd e h
  · rfl

theorem selfFrames_nil {s : State} (h : s.fab.ready = []) : selfFrames s = s := by
  rw [selfFrames, h, List.foldl_nil]

theorem slotIdle_nil {s : State} (h : s.fab.ready = []) (line : BitVec 4) (slot : Nat) : slotIdle s line slot = s := by
  rw [slotIdle, takeReady, h]
  rfl

/-- With no frame waiting the lines send nothing. -/
theorem planless_nil {s : State} (h : s.fab.ready = []) (slot : Nat) : planless s slot = s := by
  unfold planless
  generalize List.range 16 = l
  induction l with
  | nil => rfl
  | cons a l ih => rw [List.foldl_cons, slotIdle_nil h, ite_self, ih]

/-- The time error ends no service: a unit in service is within 8 ns. -/
theorem Quiet.serves {s : State} (h : Quiet s) : ¬(givesService s.tim.state = true ∧ 8000 < s.tim.errPs.natAbs) := by
  rintro ⟨hg, he⟩
  cases hs : s.tim.state with
  | locked => exact absurd (h.near hs) (by omega)
  | holdover => exact h.steady hs
  | free | acquiring | out => simp [hs, givesService] at hg

/-- On a quiet node a slot boundary moves time and empties the wire. -/
theorem slotBoundary_quiet {s : State} (h : Quiet s) : slotBoundary s =
    tick { s with fab := { s.fab with wire := [], nextSlot := hallSlot s + 2 } } ((hallSlot s + 1) * 64 - s.tim.hall) := by
  set u := tick { s with fab := { s.fab with wire := [], nextSlot := hallSlot s + 2 } }
    ((hallSlot s + 1) * 64 - s.tim.hall) with hu
  have q : Quiet u := ⟨h.plan, h.armed, h.pairs, h.ready, h.steady, h.stays, h.near⟩
  have hd : ({ u with tim := drift u.tim u.ncr.holdoverPs } : State) = u := by rw [drift_steady q.steady]
  unfold slotBoundary
  rw [slotEnds_planless h.plan, quarantineDue_nil h.pairs]
  simp only [show hallSlot s + 1 + 1 = hallSlot s + 2 from rfl]
  rw [← hu, hd, activate_unarmed q.armed, periodBoundary_planless q.plan]
  simp only [mayReturn_false q.stays, Bool.false_eq_true, and_false, if_false, if_neg q.serves]
  rw [selfFrames_nil q.ready, q.plan]
  simp only [planless_nil q.ready, ite_self]

/-- Settles O32: nothing is due, and the next slot boundary is where the clocks come to. -/
theorem slotBoundaryMovesTime : Obligations.SlotBoundaryMovesTime := by
  unfold Obligations.SlotBoundaryMovesTime
  intro s he ha hp hr hh hs hn next
  have h : Quiet s := ⟨activePlan_none he, ha, hp, hr, hh, hs, hn⟩
  have hb : s.tim.hall + ((hallSlot s + 1) * 64 - s.tim.hall) = next := by
    simp only [hallSlot, next]
    omega
  have e : exec .slotBoundary s = .next (slotBoundary s) := rfl
  rw [e, slotBoundary_quiet h, tick, hb]
  rfl

end Sys2Proof.Laws
end

section
/-!
O48: the mailbox (13 R332) takes a command and answers it, and its commands that only read or set a register.
-/
namespace Sys2Proof.Laws

open Sys2Proof.Machine

/-! ### Taking and answering a command (R332) -/

/-- The mailbox takes a command: no background command is under way, or the command is marked A. -/
theorem mbx_run {s : State} (h : Safety.Mailbox { s with host := { s.host with bg := none } }) {a : Bool}
    (ha : a = true ∨ s.host.bg = none) (r : Bool) (run : State → State) : mbx s a r run = run s := by
  obtain ⟨⟨hstart, hrec⟩, hlink, hfw, -⟩ := h
  have h1 : ¬(s.host.node = .start ∨ s.host.linkUp = false) := by
    rintro (e | e)
    · exact hstart e
    · exact absurd (hlink.symm.trans e) (by decide)
  have h2 : ¬[0, 1, 2, 3].any (restarting s) = true := by
    simp only [List.any_eq_true, restarting, List.contains_iff_mem, not_exists, not_and]
    intro p hp hm
    have := hfw p hm
    simp only [List.mem_cons, List.not_mem_nil, or_false] at hp
    omega
  have h4 : ¬(s.host.bg.isSome ∧ a = false) := by
    rintro ⟨hb, hf⟩
    rcases ha with ha | ha
    · exact absurd (ha.symm.trans hf) (by decide)
    · rw [ha] at hb
      exact absurd hb (by decide)
  unfold mbx
  rw [if_neg h1, if_neg h2, if_neg fun e => hrec e.1, if_neg h4]

/-- A mailbox with no background command under way takes every command. -/
theorem mbx_taken {s : State} (h : Safety.Mailbox s) (a r : Bool) (run : State → State) : mbx s a r run = run s :=
  mbx_run ⟨h.node, h.link, h.fw, rfl⟩ (.inr h.free) r run

/-- A command answered with OK raises cause 7. -/
theorem done_eq_raise (s : State) (out : List Byte) : done s .ok out =
    raise { s with host := { s.host with mbx := ⟨.success, .ok, 0, out⟩ } } 7 := rfl

/-! ### Commands that read or set a register -/

section
variable {s : State} (h : Safety.Mailbox { s with host := { s.host with bg := none } })
include h

theorem exec_identify : exec .identify s = .next (done s .ok (identityBytes s ++
    leBytes 4 (2 ^ s.fuses.bundleSvn - 1) ++ leBytes 4 (2 ^ s.fuses.ncrSvn - 1))) :=
  congrArg Host.Outcome.next (mbx_run h (.inl rfl) _ _)

theorem exec_crashRecord : exec .crashRecord s = .next (done { s with sec := { s.sec with crashValid := false } } .ok
    ((s.sec.crash.map ErrRec.bytes).getD (List.replicate 64 0) ++ leBytes 1 (bn s.sec.crashValid))) :=
  congrArg Host.Outcome.next (mbx_run h (.inl rfl) _ _)

theorem exec_fwInfo : exec .fwInfo s = .next (done s .ok
    (leBytes 8 s.sec.fwVersion.toNat ++ leBytes 8 s.sec.stagedVersion.toNat)) :=
  congrArg Host.Outcome.next (mbx_run h (.inl rfl) _ _)

theorem exec_placementGet : exec .placementGet s = .next (done s .ok
    (leBytes 4 s.host.mode.toNat ++ leBytes 4 s.ncr.fallback.toNat)) :=
  congrArg Host.Outcome.next (mbx_run h (.inl rfl) _ _)

theorem exec_holdStatus : exec .holdStatus s = .next (done s .ok (leBytes 8 (nodeHold s) ++ leBytes 8 s.hold.firstHalt ++
    (s.hold.firstCause.map ErrRec.bytes).getD (List.replicate 64 0))) :=
  congrArg Host.Outcome.next (mbx_run h (.inl rfl) _ _)

theorem exec_orphanLog : exec .orphanLog s = .next (done s .ok (leBytes 8 s.host.orphanHall ++
    leBytes 4 s.host.fellBack.toNat ++ leBytes 1 (bn s.host.orphanHeld) ++ leBytes 4 s.host.orphanFirst ++
    leBytes 4 (if s.host.orphan then s.err.seq - 1 else s.host.orphanLast))) :=
  congrArg Host.Outcome.next (mbx_run h (.inl rfl) _ _)

theorem exec_restoreReport : exec .restoreReport s = .next (done s .ok (reportBytes s)) :=
  congrArg Host.Outcome.next (mbx_run h (.inl rfl) _ _)

theorem exec_bgResult : exec .bgResult s = .next (done s .ok (match s.host.bgLast with
    | some g => leBytes 2 g.opcode ++ g.out.bytes
    | none => leBytes 2 0)) :=
  (congrArg Host.Outcome.next (mbx_run h (.inl rfl) _ _)).trans (by rfl)

theorem exec_bgAbort {g : Bg} (hg : s.host.bg = some g) : exec .bgAbort s =
    .next (done (bgEnds s { g with out := ⟨.success, .aborted, 0, []⟩ }) .ok) := by
  refine congrArg Host.Outcome.next ((mbx_run h (.inl rfl) _ _).trans ?_)
  rw [hg]

theorem exec_maintBegin (hj : s.job.phase ≠ .running) : exec .maintBegin s =
    .next (done { s with sec := { s.sec with maint := true, maintReset := false } } .ok) :=
  congrArg Host.Outcome.next ((mbx_run h (.inl rfl) _ _).trans (if_neg hj))

theorem exec_maintEnd (hm : s.sec.maint = true) (hs : s.sec.staged = false) : exec .maintEnd s =
    .next (done { s with sec := { s.sec with maint := false, maintReset := false } } .ok) :=
  congrArg Host.Outcome.next ((mbx_run h (.inl rfl) _ _).trans (if_neg (by simp [hm, hs])))

end

theorem exec_backgroundComplete {s : State} {g : Bg} (h : s.host.bg = some g) :
    exec .backgroundComplete s = .next (raise (bgEnds s g) 7) := by
  have e : exec .backgroundComplete s = execBackgroundComplete s := rfl
  rw [e, execBackgroundComplete, h]

theorem exec_placementSet {s : State} (h : Safety.Mailbox s) {m : W32} (hm : m.toNat ≤ 0x1FF)
    (hj : s.job.phase ≠ .running) :
    exec (.placementSet m) s = .next (done { s with host := { s.host with mode := m } } .ok) :=
  congrArg Host.Outcome.next ((mbx_taken h _ _ _).trans ((if_neg (Nat.not_lt.2 hm)).trans (if_neg hj)))

theorem exec_powerCap {s : State} (h : Safety.Mailbox s) (ha : hostAssisted s 5 = true) (w : W16) :
    let cap := max 600 (if w = 0 ∨ s.fuses.powerW < w.toNat then s.fuses.powerW else w.toNat)
    exec (.powerCap w) s = .next (done { s with pwr := { s.pwr with capHost := some cap } } .ok (leBytes 2 cap)) :=
  congrArg Host.Outcome.next ((mbx_taken h _ _ _).trans (if_pos ha))

/-- Settles O48: each command is taken, and its row's own lemma gives the answer. -/
theorem mailboxCommandsAnswer : Obligations.MailboxCommandsAnswer := by
  unfold Obligations.MailboxCommandsAnswer
  intro s ok ends
  refine ⟨fun h => ?read, fun g hg => exec_backgroundComplete hg, fun h => ?set⟩
  case read =>
    refine ⟨exec_identify h, exec_crashRecord h, exec_fwInfo h, exec_placementGet h, exec_holdStatus h, exec_orphanLog h,
      exec_restoreReport h, fun g hg => ?_, fun hn => ?_, fun g hg => exec_bgAbort h hg, fun hj => exec_maintBegin h hj,
      fun hm hs => exec_maintEnd h hm hs⟩
    · have e := exec_bgResult h
      rw [hg] at e
      exact e
    · have e := exec_bgResult h
      rw [hn] at e
      exact e
  case set => exact ⟨fun m hm hj => exec_placementSet h hm hj, fun w ha => exec_powerCap h ha w⟩

end Sys2Proof.Laws
end

section
/-!
O60: the state after reset (log 4).
-/
namespace Sys2Proof.Laws

open Sys2Proof.Machine

/-- After reset every byte of memory and of the stores reads zero (log 6). -/
theorem rd_reset (n : Nat) : rd .reset n = 0 := by
  unfold rd
  split
  · rfl
  · split <;> rfl

theorem regRead_reset_rake : ∀ n, n < 12 → (regRead .reset (0x4_0018 + 0x1000 * n)).1 = 24 := by decide

theorem regRead_reset_die : ∀ n, n < 4 → (regRead .reset (0x9_0100 + 8 * n)).1 = 750 * 2 ^ 16 := by decide

theorem regRead_reset_regions : ∀ n, n < 4 →
    (regRead .reset (0x10_0000 + 0x1_0000 * n)).1 = 2 ^ State.reset.fuses.grade.blocksPerRegion - 1 + 3 * 2 ^ 32 ∧
    (regRead .reset (0x10_0008 + 0x1_0000 * n)).1 = 0 ∧ (regRead .reset (0x10_0010 + 0x1_0000 * n)).1 = 0 ∧
    (regRead .reset (0x10_0100 + 0x1_0000 * n)).1 = 0 ∧ (regRead .reset (0x10_0108 + 0x1_0000 * n)).1 = 0 := by decide

theorem regRead_reset_zero :
    ∀ o ∈ [0x100, 0x108, 0x200, 0x300, 0x310, 0x400, 0x2_0000], (regRead .reset o).1 = 0 := by decide

theorem hrwRead_reset_zero : ∀ o ∈ [0x30_0008, 0x30_0010, 0x30_0020, 0x30_0028, 0x30_0030, 0x30_0038, 0x20_1000],
    (hrwRead .reset o).1 = 0 := by decide

/-- Settles O60: the tables are empty, so each unit is at its default, and the registers are read off. -/
theorem resetLeavesTheStatedValues : Obligations.ResetLeavesTheStatedValues := by
  unfold Obligations.ResetLeavesTheStatedValues
  exact ⟨rfl, rfl, fun n _ => rd_reset n, rfl, rfl, rfl, rfl, rfl, fun _ => ⟨rfl, rfl⟩, fun _ => rfl,
    fun _ => show HartState.stopped ≠ .running by decide, regRead_reset_rake, regRead_reset_die, by decide, regRead_reset_regions, regRead_reset_zero,
    by decide, hrwRead_reset_zero⟩

end Sys2Proof.Laws
end

section
/-!
O36: the time unit's states and its seconds (02 R43, R45; 16 R395, R396).
-/
namespace Sys2Proof.Laws

open Sys2Proof.Machine

/-! ### Trace points of the hardware -/

/-- A trace point changes the log queue and the free values alone. -/
theorem traceHw_frame (s : State) (k : Nat) :
    traceHw s k = { s with host := (traceHw s k).host, free := (traceHw s k).free } := by
  unfold traceHw tracePoint logEntry
  dsimp only
  (repeat' split) <;> rfl

/-- Of the time unit a trace point reads hall time alone. -/
theorem traceHw_tim_of_hall {s : State} {t : Timing} (h : t.hall = s.tim.hall) (k : Nat) :
    traceHw { s with tim := t } k = { traceHw s k with tim := t } := by
  have hs : stamp { s with tim := t } = stamp s := by rw [stamp, stamp, h]
  unfold traceHw tracePoint logEntry
  dsimp only
  rw [hs]
  (repeat' split) <;> rfl

/-! ### Entering scheduled service (R45) -/

/-- Entries of a table set one after the other by a function of their own value. -/
theorem get_foldl_set {V : Type} [DecidableEq V] (d : V) (g : Nat → V → V) (l : List Nat) (nd : l.Nodup) (m : SMap V)
    (j : Nat) : SMap.get d (l.foldl (fun m p => SMap.set d m p (g p (SMap.get d m p))) m) j =
      if j ∈ l then g j (SMap.get d m j) else SMap.get d m j := by
  induction l generalizing m with
  | nil => rfl
  | cons a l ih =>
    obtain ⟨na, nd⟩ := List.nodup_cons.1 nd
    rw [List.foldl_cons, ih nd]
    by_cases e : j = a
    · subst e
      simp [na]
    · simp [e, get_set_other _ _ _ e]

/-- The ports of a list, each showing whether it is in scheduled service (R43). Irreducible, so that the table of eight ports
is never evaluated. -/
@[irreducible] def shown (s : State) (l : List Nat) : SMap Port :=
  l.foldl (fun m p => SMap.set ({} : Port) m p { SMap.get ({} : Port) m p with
    scheduled := s.tim.service && (SMap.get ({} : Port) m p).link == .up && s.ncr.udpPort != 0 }) s.fab.ports

theorem showService_eq (s : State) :
    showService s = { s with fab := { s.fab with ports := shown s (List.range 8) } } := by
  unfold shown
  rfl

theorem get_shown (s : State) {l : List Nat} (nd : l.Nodup) {p : Nat} (hp : p ∈ l) : SMap.get {} (shown s l) p =
    { s.port p with scheduled := s.tim.service && (s.port p).link == .up && s.ncr.udpPort != 0 } := by
  unfold shown
  exact (get_foldl_set ({} : Port) (fun _ k => { k with
    scheduled := s.tim.service && k.link == .up && s.ncr.udpPort != 0 }) l nd s.fab.ports p).trans (if_pos hp)

/-- The scheduled bit of a port that is up shows the node's service (R43). -/
theorem port_showService (s : State) {p : Nat} (hp : p < 8) : (showService s).port p =
    { s.port p with scheduled := s.tim.service && (s.port p).link == .up && s.ncr.udpPort != 0 } := by
  rw [showService_eq]
  exact get_shown s List.nodup_range (List.mem_range.2 hp)

theorem enterService_frame (s : State) : let t := enterService s
    t = { s with tim := { s.tim with service := t.tim.service }
                 fab := { s.fab with espState := t.fab.espState, ports := t.fab.ports }, pwr := t.pwr, sec := t.sec } := by
  intro t
  by_cases h : (s.tim.service || s.ncr.udpPort == 0) = true
  · have e : t = s := if_pos h
    rw [e]
  · have e : t = _ := if_neg h
    rw [e, showService_eq]

/-- Service entered from a state that differs in its time unit, its host interface and the values drawn. -/
theorem enterService_frame_of {s u : State} (h : u = { s with tim := u.tim, host := u.host, free := u.free }) :
    let t := enterService u
    t = { s with tim := t.tim, fab := { s.fab with espState := t.fab.espState, ports := t.fab.ports }, pwr := t.pwr
                 sec := t.sec, host := t.host, free := t.free } := by
  intro t
  have ht : t = _ := enterService_frame u
  generalize t = t at ht
  rw [ht, h]

/-- A node with a UDP port that is out of service enters it, and every port that is up shows it. -/
theorem enterService_serves {s : State} (hs : s.tim.service = false) (hu : s.ncr.udpPort ≠ 0) :
    (enterService s).tim.service = true ∧
    ∀ p, p < 8 → (enterService s).port p = { s.port p with scheduled := (s.port p).link == .up } := by
  have hn : ¬(s.tim.service || s.ncr.udpPort == 0) = true := by simpa [hs] using hu
  have e : enterService s = _ := if_neg hn
  rw [e]
  refine ⟨by rw [showService_eq], fun p hp => (port_showService _ hp).trans ?_⟩
  have hb : (s.ncr.udpPort != 0) = true := by simpa using hu
  simp only [Bool.true_and, hb, Bool.and_true]
  rfl

/-! ### Recording a C event -/

/-- A record changes the log, the hold and the free values alone. -/
theorem record_frame (s : State) (c : ErrCode) (a : EvArgs) : record s c a =
    { s with err := (record s c a).err, hold := (record s c a).hold, free := (record s c a).free } := by
  unfold record recordSev worsen
  dsimp only
  (repeat' split) <;> rfl

/-- With no coalescing window open, the record of a C event is the newest of the log. -/
theorem recorded_record {s : State} {c : ErrCode} (hc : c.info.2.2 = .C) (h : s.err.coal = []) (a : EvArgs) :
    Safety.recorded (record s c a) c := by
  have e : ∃ x, record s c a = { pushRec (countedC s) (mkRec s c .C a) with
      err := { (pushRec (countedC s) (mkRec s c .C a)).err with coal := x } } := by
    unfold record recordSev
    rw [hc, h]
    exact ⟨_, rfl⟩
  obtain ⟨x, e⟩ := e
  rw [e]
  exact ⟨_, by rw [lastRec]; exact congrArg (Option.map Prod.fst) List.getLast?_concat, rfl⟩

/-! ### The rows -/

section
variable {s : State}

theorem isReference_iff : isReference s = true ↔ s.ncr.timeRole = .reference := beq_iff_eq

theorem isReference_false (h : s.ncr.timeRole ≠ .reference) : isReference s = false :=
  Bool.eq_false_iff.2 fun e => h (isReference_iff.1 e)

theorem exec_holdover (h : mayHoldover s = true) : exec .holdover s = .next (traceHw { s with tim := { s.tim with
    state := .holdover, holdFrom := some (s.tim.hall, s.tim.errPs), goodSince := none } } 0) :=
  congrArg Host.Outcome.next (if_pos h)

theorem exec_locked (h : mayLock s = true) : exec .locked s = .next (lock s) := congrArg Host.Outcome.next (if_pos h)

/-- The state LOCKED with its trace point, before service. -/
def lockedTraced (s : State) : State :=
  { traceHw s 0 with tim := { s.tim with state := .locked, lockedSince := some s.tim.now, holdFrom := none } }

/-- Service begins at LOCKED where it was never lost and no plan runs (R45; log 35). -/
theorem lock_eq (s : State) : lock s =
    if s.tim.lost = false ∧ activePlan s = none then enterService (lockedTraced s) else lockedTraced s := by
  have e : traceHw { s with tim := { s.tim with state := .locked, lockedSince := some s.tim.now, holdFrom := none } } 0 =
      lockedTraced s := traceHw_tim_of_hall (s := s) (t := (lockedTraced s).tim) rfl 0
  have ha : activePlan (lockedTraced s) = activePlan s := by
    have hf : (lockedTraced s).fab = s.fab := traceHw_fab s 0
    rw [activePlan, hf, activePlan]
  unfold lock
  rw [e]
  simp only [ha, Option.isNone_iff_eq_none]
  rfl

theorem lockedTraced_frame (s : State) : lockedTraced s = { s with
    tim := (lockedTraced s).tim, host := (traceHw s 0).host, free := (lockedTraced s).free } := by
  unfold lockedTraced
  rw [traceHw_frame]

theorem exec_timeTakeover (h : s.tim.unit = false) : exec .timeTakeover s =
    .next (record (drew { s with tim := { s.tim with
      unit := true, errPs := s.tim.errPs + ((((Config.freeWord s.free).toNat % 1001 : Nat) : Int) - 500) } }) .timeTakeover
      { unitKind := 7, unit := 1, detail := detailF 1 0 0 }) := by
  refine congrArg Host.Outcome.next (if_neg ?_)
  rw [h]
  decide

theorem exec_ppsIn (hr : s.ncr.timeRole = .reference) {x : Nat} (hx : s.tim.ppsSecond = some x) :
    let hall := x * 1_000_000_000 % 2 ^ 64
    exec .ppsIn s = .next { (if s.tim.state = .free then traceHw s 0 else s) with
      tim := { s.tim with
        refSince := some (s.tim.refSince.getD s.tim.now), state := if s.tim.state = .free then .acquiring else s.tim.state
        hall := hall, errPs := 0, goodSince := some (s.tim.goodSince.getD s.tim.now), ppsSecond := some (x + 1) }
      fab := { s.fab with nextSlot := hall / 64 + 1 } } := by
  have hf : (if s.tim.state = .free then traceHw s 0 else s).fab = s.fab := by
    split
    · exact traceHw_fab s 0
    · rfl
  refine congrArg Host.Outcome.next ((if_pos (isReference_iff.2 hr)).trans ?_)
  simp only [hx, hf]

theorem exec_ppsOut (h : s.tim.state = .locked ∨ s.tim.state = .holdover) (hh : s.tim.hall % 1_000_000_000 = 0) :
    exec .ppsOut s = .next { s with pwr := { s.pwr with ppsOut := true, ppsFalls := s.tim.hall + 100_000_000 } } := by
  refine congrArg Host.Outcome.next (if_pos ⟨?_, hh⟩)
  rcases h with h | h <;> rw [h] <;> rfl

theorem exec_ppsSecond (h : Safety.Mailbox s) (x : W64) : exec (.ppsSecond x) s =
    .next (if isReference s then done { s with tim := { s.tim with ppsSecond := some x.toNat } } .ok else done s .state) :=
  congrArg Host.Outcome.next (mbx_taken h _ _ _)

theorem exec_timNowNs (s : State) : exec .timNowNs s = .next { s with
    tim := { s.tim with fracLatch := s.tim.frac }
    host := { s.host with answer := leBytes 8 s.tim.hall, poison := false } } := rfl

end

/-- A command refused for the node's state is answered with STATE. -/
theorem done_state_mbx (s : State) : (done s .state).host.mbx = ⟨.success, .state, 0, []⟩ := by
  unfold done answer
  simp only [reduceCtorEq, if_false, if_true, mbxRefused_host]
  rfl

/-- Settles O36: each row runs on its condition, and the lemmas above say what that leaves. -/
theorem timeUnitChangesState : Obligations.TimeUnitChangesState := by
  unfold Obligations.TimeUnitChangesState
  intro s
  refine ⟨fun hs hr hl he => ?holdover, fun g hs hr hm hg hn he => ?locked, fun hu hc => ?takeover, fun x hr hx => ?ppsIn,
    exec_ppsOut, fun x h hr => ?second, fun x h hr => ?notReference, exec_timNowNs s⟩
  case holdover => exact exec_holdover (by simp [mayHoldover, hs, isReference_false hr, hl, he])
  case locked =>
    refine ⟨_, exec_locked (by simp [mayLock, hs, isReference_false hr, hm, hg, hn, he]), ?_⟩
    have hfr := lockedTraced_frame s
    have hse := enterService_frame (lockedTraced s)
    by_cases h : s.tim.lost = false ∧ activePlan s = none
    · rw [lock_eq, if_pos h]
      refine ⟨?_, ?_, fun hl => absurd (h.1.symm.trans hl) (by decide), fun _ hv _ hu => ?_⟩
      · rw [hse]; rfl
      · rw [hse]; rfl
      · have hn : (lockedTraced s).ncr.udpPort ≠ 0 := by rw [hfr]; exact hu
        have hp : ∀ p, (lockedTraced s).port p = s.port p := fun p => by rw [hfr]; rfl
        obtain ⟨hserves, hports⟩ := enterService_serves (s := lockedTraced s) hv hn
        refine ⟨hserves, fun p hlt => (hports p hlt).trans (by rw [hp]), enterService_frame_of hfr⟩
    · rw [lock_eq, if_neg h]
      exact ⟨rfl, rfl, fun _ => hfr, fun hl _ ha _ => absurd ⟨hl, ha⟩ h⟩
  case takeover =>
    let u := drew { s with tim := { s.tim with
      unit := true, errPs := s.tim.errPs + ((((Config.freeWord s.free).toNat % 1001 : Nat) : Int) - 500) } }
    refine ⟨_, exec_timeTakeover hu, ?_, ?_, ?_, recorded_record (s := u) rfl hc _, ?_⟩
    · rw [record_tim]; rfl
    · rw [record_tim]
      simp only [drew]
      omega
    · rw [record_tim]; rfl
    · rw [record_frame]; rfl
  case ppsIn =>
    refine ⟨_, exec_ppsIn hr hx, rfl, rfl, rfl, rfl, rfl, ?_, ?_⟩
    · split <;> rfl
    · split
      · rw [traceHw_frame]
      · rfl
  case second => rw [exec_ppsSecond h, if_pos (isReference_iff.2 hr), done_eq_raise]
  case notReference =>
    refine ⟨_, exec_ppsSecond h x, ?_⟩
    rw [isReference_false hr, if_neg Bool.false_ne_true]
    exact ⟨done_state_mbx s, answer_tim ..⟩

end Sys2Proof.Laws
end


-- ==== Resets ====
section
/-!
O52. A whole-node reset does not leave every flash slot: the slot that FW_STAGE is writing holds no container after it
(14 R352).
-/
namespace Sys2Proof.Laws
open Sys2Proof.Machine

/-- A reset that cuts the write of the first NCR slot short leaves that slot empty (14 R352). -/
theorem wholeReset_empties_slot_being_written (s : State) (tamper : Bool) (g : Bg) (hwriting : s.sec.writing = some 0)
    (hbg : s.host.bg = some g) (hop : g.opcode = 0xC002) : slotBytes (wholeReset s tamper) .ncr0 = [] := by
  simp [slotBytes, wholeReset, coldSec, hwriting, hbg, hop]

/-- A node whose FW_STAGE is under way: it writes the slot of the first NCR. -/
def stagingNode : State :=
  { host := { node := .ready, bg := some { opcode := 0xC002, out := {} } }, sec := { ncr0 := [1], writing := some 0 } }

/-- Refutes O52: a reset by RESET_N while FW_STAGE writes the first NCR slot cuts that write short, and the slot that held
a byte is empty after it, while the statement keeps the bytes of every slot. -/
theorem not_resetsLeaveFusesFlashAndRetained : ¬ Obligations.ResetsLeaveFusesFlashAndRetained := by
  unfold Obligations.ResetsLeaveFusesFlashAndRetained
  intro h
  obtain ⟨resetFalls, -⟩ := h stagingNode
  obtain ⟨t, hexec, -, -, -, -, -, -, -, -, hslots, -⟩ := resetFalls rfl rfl
  have reset : exec (.resetN true) stagingNode =
      .next (wholeReset { stagingNode with pwr := { stagingNode.pwr with resetN := false } } false) := rfl
  have ht : wholeReset { stagingNode with pwr := { stagingNode.pwr with resetN := false } } false = t :=
    Host.Outcome.next.inj (reset.symm.trans hexec)
  have empty := wholeReset_empties_slot_being_written
    { stagingNode with pwr := { stagingNode.pwr with resetN := false } } false _ rfl rfl rfl
  have same := hslots .ncr0
  rw [← ht, empty] at same
  exact absurd same (by decide)

end Sys2Proof.Laws
end


-- ==== ImageLoad ====
section
/-!
O49, what a load keeps. Writing INIT entries, giving substitutes and laying streams keep the job and the fuses; the
streams of the grade's blocks are those of the image.
-/
namespace Sys2Proof.Laws
open Sys2Proof.Machine

/-! ### Writes to memory keep the job and the fuses -/

/-- The job and the fuses are the same. -/
structure SameLoad (s t : State) : Prop where
  job : t.job = s.job
  fuses : t.fuses = s.fuses

namespace SameLoad
variable {s t : State}

theorem refl (s : State) : SameLoad s s := ⟨rfl, rfl⟩

theorem trans {u : State} (h : SameLoad s t) (h' : SameLoad t u) : SameLoad s u :=
  ⟨h'.job.trans h.job, h'.fuses.trans h.fuses⟩

theorem ite {c : Prop} [Decidable c] {u : State} (ht : SameLoad s t) (hu : SameLoad s u) :
    SameLoad s (if c then t else u) := by split <;> assumption

theorem foldl {α : Type} {f : State → α → State} (hf : ∀ t a, SameLoad t (f t a)) (h : SameLoad s t) (l : List α) :
    SameLoad s (l.foldl f t) := by
  induction l generalizing t with
  | nil => exact h
  | cons a l ih => exact ih (h.trans (hf t a))

theorem record (h : SameLoad s t) (c : ErrCode) (a : EvArgs) : SameLoad s (record t c a) :=
  h.trans ⟨by simp, by simp⟩

theorem setStack (h : SameLoad s t) (n : Nat) (k : Stack) : SameLoad s (t.setStack n k) := ⟨h.job, h.fuses⟩

theorem markLane (h : SameLoad s t) (st ch lane : Nat) : SameLoad s (markLane t st ch lane) :=
  .ite h (.ite ((h.setStack ..).record ..) (.ite h ((h.setStack ..).record ..)))

theorem noteLanes (h : SameLoad s t) (st ch : Nat) (lanes : List Nat) : SameLoad s (noteLanes t st ch lanes) :=
  .foldl (fun t _ => .ite ((refl t).markLane ..) (refl t)) (h.setStack ..) _

theorem addCandidate (h : SameLoad s t) (st : Nat) (r : RowRepair) : SameLoad s (addCandidate t st r) :=
  .ite h (.ite (h.record ..) ⟨h.job, h.fuses⟩)

theorem corrected (h : SameLoad s t) (line : Nat) (lanes : List Nat) : SameLoad s (corrected t line lanes) :=
  ((h.setStack ..).noteLanes ..).record ..

theorem lines (h : SameLoad s t) (f : SMap LineFault) (d : SMap Nat) :
    SameLoad s { t with lineFault := f, decoded := d } := ⟨h.job, h.fuses⟩

theorem storeCorrected (h : SameLoad s t) (line : Nat) (n0 n1 : Bool) : SameLoad s (storeCorrected t line n0 n1) :=
  (h.lines _ t.decoded).record ..

theorem touchLine (h : SameLoad s t) (line : Nat) (n0 n1 : Bool) : SameLoad s (touchLine t line n0 n1).1 := by
  unfold Machine.touchLine
  dsimp only
  split
  · split
    · exact h
    · exact h.corrected ..
    · exact (h.setStack ..).addCandidate ..
    · exact (h.setStack ..).addCandidate ..
    · exact h
    · exact h.corrected ..
  · split
    · exact h
    · exact h.storeCorrected ..
    · exact h
    · exact h.storeCorrected ..
    · exact h

theorem touchStep {acc : State × List Nat × Option (Status × ErrCode × Nat)} (h : SameLoad s acc.1) (runs : List Run)
    (line : Nat) : SameLoad s (touchStep runs acc line).1 := by
  unfold Machine.touchStep
  split
  · exact h
  · dsimp only
    split
    · exact h.lines _ _
    · exact (h.lines _ _).touchLine ..

theorem touchSteps {acc : State × List Nat × Option (Status × ErrCode × Nat)} (h : SameLoad s acc.1) (runs : List Run)
    (l : List Nat) : SameLoad s (l.foldl (Machine.touchStep runs) acc).1 := by
  induction l generalizing acc with
  | nil => exact h
  | cons a l ih => exact ih (h.touchStep runs a)

theorem touch (h : SameLoad s t) (runs : List Run) : SameLoad s (touch t runs).1 := by
  unfold Machine.touch
  split
  · exact h.lines _ _
  · exact touchSteps (acc := (t, [], none)) h runs _

theorem wrKey (h : SameLoad s t) (k : Nat) (v : Byte) : SameLoad s (wrKey t k v) := ⟨h.job, h.fuses⟩

theorem copyLine (h : SameLoad s t) (src dst : Nat) : SameLoad s (copyLine t src dst) := by
  unfold Machine.copyLine
  exact foldl (fun t _ => (refl t).wrKey ..) h _

theorem drew (h : SameLoad s t) : SameLoad s (drew t) := ⟨h.job, h.fuses⟩

theorem failCkpt (h : SameLoad s t) : SameLoad s (failCkpt t) :=
  h.trans ⟨by simp [Machine.failCkpt], by simp [Machine.failCkpt]⟩

theorem copyGranule (h : SameLoad s t) (st gran : Nat) : SameLoad s (copyGranule t st gran) := by
  have read := h.touch (((packedLines t st).zipIdx.filter fun e => e.1 >>> 21 == gran).map fun e =>
    ⟨windowNpa st e.1, 64⟩)
  unfold Machine.copyGranule
  dsimp only
  split
  case h_1 u e hu =>
    rw [hu] at read
    exact read.failCkpt
  case h_2 u hu =>
    rw [hu] at read
    exact (foldl (fun t _ => (refl t).copyLine ..) (read.lines _ u.decoded) _).setStack ..

theorem stallCopy (h : SameLoad s t) (lines : List Nat) : SameLoad s (stallCopy t lines) := by
  refine foldl (fun t l => ?_) h lines
  dsimp only
  split
  · exact (((refl t).copyGranule ..).setStack ..).drew
  · exact refl t

theorem wrN (h : SameLoad s t) (npa : Nat) (bs : List Byte) : SameLoad s (wrN t npa bs) :=
  (h.stallCopy (linesOf t npa bs.length)).trans ⟨by simp [Machine.wrN], by simp [Machine.wrN]⟩

theorem applyInits (h : SameLoad s t) (bufs : List Buf) (l : List InitEnt) : SameLoad s (applyInits t bufs l) := by
  refine foldl (fun t e => ?_) h l
  split
  · exact .ite ((refl t).wrN ..) (refl t)
  · exact refl t

end SameLoad

/-! ### Substitutes -/

/-- The job, the fuses and the host interface are the same. -/
structure SameNode (s t : State) : Prop extends SameLoad s t where
  host : t.host = s.host

theorem SameNode.trans {s t u : State} (h : SameNode s t) (h' : SameNode t u) : SameNode s u :=
  ⟨h.toSameLoad.trans h'.toSameLoad, h'.host.trans h.host⟩

theorem SameNode.foldl {α : Type} {f : State → α → State} (hf : ∀ t a, SameNode t (f t a)) (l : List α) (s : State) :
    SameNode s (l.foldl f s) := by
  induction l generalizing s with
  | nil => exact ⟨.refl s, rfl⟩
  | cons a l ih => exact (hf s a).trans (ih (f s a))

theorem sameNode_substOne (n : Nat) (s : State) (b : Nat) : SameNode s (substOne n s b) := by
  unfold substOne
  dsimp only
  generalize List.find? _ _ = free
  cases free <;> exact ⟨⟨rfl, rfl⟩, rfl⟩

theorem sameNode_substitute (s : State) : SameNode s (substitute s) :=
  .foldl (fun _ _ => .foldl (sameNode_substOne _) _ _) _ s

/-! ### Streams laid in every block -/

section
variable (f : Blk → Qc → Queue)

/-- Each of a list of queues of a block is set. -/
def layQueues (b : Blk) (qs : List Qc) (s : State) : State := qs.foldl (fun u q => u.updQ b q fun _ => f b q) s

/-- Every queue of each of a list of blocks is set. -/
def layBlocks (bs : List Blk) (s : State) : State := bs.foldl (fun t b => layQueues f b Qc.all t) s

theorem q_updQ_const (s : State) (b c : Blk) (q p : Qc) (v : Queue) :
    (s.updQ b q fun _ => v).q c p = if c = b ∧ p = q then v else s.q c p := by
  split
  case isTrue h =>
    obtain ⟨rfl, rfl⟩ := h
    exact q_updQ ..
  case isFalse h =>
    by_cases hc : c = b
    · subst hc
      exact q_updQ_of_ne _ _ fun hp => h ⟨rfl, hp⟩
    · exact congrArg (Block.queue · p) (blk_updQ_of_ne q _ hc)

theorem q_layQueues (b c : Blk) (p : Qc) (qs : List Qc) (s : State) :
    (layQueues f b qs s).q c p = if c = b ∧ p ∈ qs then f c p else s.q c p := by
  induction qs generalizing s with
  | nil => simp [layQueues]
  | cons q qs ih =>
    refine (ih (s.updQ b q fun _ => f b q)).trans ?_
    rw [q_updQ_const]
    grind

theorem layBlocks_cons (b : Blk) (bs : List Blk) (s : State) :
    layBlocks f (b :: bs) s = layBlocks f bs (layQueues f b Qc.all s) := List.foldl_cons ..

theorem q_layBlocks (c : Blk) (p : Qc) (bs : List Blk) (s : State) :
    (layBlocks f bs s).q c p = if c ∈ bs then f c p else s.q c p := by
  have hp : p ∈ Qc.all := by cases p <;> decide
  induction bs generalizing s with
  | nil => simp [layBlocks]
  | cons b bs ih =>
    rw [layBlocks_cons, ih, q_layQueues]
    grind

/-- A fold whose every step changes blocks only does so. -/
theorem foldl_blocks {α : Type} {g : State → α → State} (hg : ∀ t a, ∃ k, g t a = { t with blocks := k }) (l : List α)
    (s : State) : ∃ k, l.foldl g s = { s with blocks := k } := by
  induction l generalizing s with
  | nil => exact ⟨s.blocks, rfl⟩
  | cons a l ih =>
    obtain ⟨k, hk⟩ := hg s a
    obtain ⟨k', hk'⟩ := ih (g s a)
    exact ⟨k', by rw [List.foldl_cons, hk', hk]⟩

/-- Laying streams changes blocks only. -/
theorem layBlocks_frame (bs : List Blk) (s : State) : layBlocks f bs s = { s with blocks := (layBlocks f bs s).blocks } := by
  obtain ⟨k, hk⟩ := foldl_blocks (fun t b => foldl_blocks (fun u q => ⟨_, rfl⟩) Qc.all t) bs s
  rw [show layBlocks f bs s = { s with blocks := k } from hk]

end

theorem layStreams_eq (s : State) (l : List Sect) (gen : Byte) :
    layStreams s l gen = layBlocks (fun b q => { stream := streamOf l gen b q }) (gradeBlocks s) s := rfl

/-- An unload empties every queue of the grade's blocks and clears the image's entries of the job. -/
theorem unloadImage_eq (s : State) : unloadImage s =
    { s with
      blocks := (layBlocks (fun _ _ => {}) (gradeBlocks s) s).blocks
      job := { s.job with image := none, loadGen := 0, det := false, hostVerified := false, phase := .none }
      sec := { s.sec with meas := s.sec.meas.set [] 5 (List.replicate 64 0) } } := by
  have streams := layBlocks_frame (fun _ _ => {}) (gradeBlocks s) s
  calc unloadImage s
      = let u := layBlocks (fun _ _ => {}) (gradeBlocks s) s
        { u with
          job := { u.job with image := none, loadGen := 0, det := false, hostVerified := false, phase := .none }
          sec := { u.sec with meas := u.sec.meas.set [] 5 (List.replicate 64 0) } } := rfl
    _ = _ := by rw [streams]

/-! ### The placed image -/

theorem gradeBlocks_of_fuses {s t : State} (h : t.fuses = s.fuses) : gradeBlocks t = gradeBlocks s := by
  simp only [gradeBlocks, h]

theorem loadPlan_job (s : State) (img : Image) : (loadPlan s img).job = s.job := by
  unfold loadPlan
  cases img.plan with
  | none => rfl
  | some p => exact (apply_ite State.job ..).trans (ite_self ..)

theorem loadPlan_blocks (s : State) (img : Image) : (loadPlan s img).blocks = s.blocks := by
  unfold loadPlan
  cases img.plan with
  | none => rfl
  | some p => exact (apply_ite State.blocks ..).trans (ite_self ..)

/-- What an accepted image makes of the job (R105, R120). -/
theorem acceptImage_job (s : State) (bs : List Byte) : ∃ img : Image, (acceptImage s bs).job = { s.job with
    image := some img, loadGen := nextGen s.job.lastGen, lastGen := nextGen s.job.lastGen, det := img.det
    hostVerified := hostAssisted s 8, phase := if hostAssisted s 8 then .awaiting else .loaded } := by
  have inits := (SameLoad.refl s).applyInits (bufsOf (sectsOf bs)) (imageInits bs)
  have streams := layBlocks_frame
    (fun b q => { stream := streamOf (sectsOf bs) (nextGen s.job.lastGen) b q })
    (gradeBlocks (applyInits s (bufsOf (sectsOf bs)) (imageInits bs))) (applyInits s (bufsOf (sectsOf bs)) (imageInits bs))
  refine ⟨imageOf (applyInits s (bufsOf (sectsOf bs)) (imageInits bs)) bs, ?_⟩
  unfold acceptImage
  dsimp only
  rw [loadPlan_job, layStreams_eq, streams]
  dsimp only
  rw [inits.job]

/-- Each queue's stream is its COMMANDS section, tagged (R98, R105). -/
theorem acceptImage_q (s : State) (bs : List Byte) {b : Blk} (hb : b ∈ gradeBlocks s) (q : Qc) :
    (acceptImage s bs).q b q = { stream := streamOf (sectsOf bs) (nextGen s.job.lastGen) b q } := by
  have inits := (SameLoad.refl s).applyInits (bufsOf (sectsOf bs)) (imageInits bs)
  have laid := q_layBlocks (fun b q => { stream := streamOf (sectsOf bs) (nextGen s.job.lastGen) b q }) b q
    (gradeBlocks (applyInits s (bufsOf (sectsOf bs)) (imageInits bs))) (applyInits s (bufsOf (sectsOf bs)) (imageInits bs))
  rw [if_pos (gradeBlocks_of_fuses inits.fuses ▸ hb)] at laid
  refine Eq.trans ?_ laid
  unfold acceptImage
  dsimp only
  simp only [State.q, State.blk, loadPlan_blocks, layStreams_eq]

/-! ### IMAGE_LOAD -/

/-- A background command that does not answer STATE leaves all but the mailbox's answer and its own result. -/
theorem background_eq (s : State) (op : Nat) {st : Status} (hst : st ≠ .state) (out : List Byte) (detail : Nat) :
    background s op st out detail = { s with host := { s.host with
      mbx := ⟨.bgStarted, .ok, 0, []⟩, bg := some { opcode := op, out := ⟨.success, st, detail, out⟩ } } } := by
  unfold background mbxRefused
  rw [if_neg hst]
  rfl

/-- The state that IMAGE_LOAD verifies an image in, its report noted (R117, R120). -/
def verified (s : State) (bs : List Byte) : State :=
  { substitute s with
    job := { s.job with report := verify (substitute s) bs, reportDigest := imageDigest bs } }

theorem loadImage_eq (s : State) (bs : List Byte) : loadImage s bs =
    if (verify (substitute s) bs).isEmpty then
      (acceptImage (verified s bs) bs, .ok, imageDigest bs ++ leBytes 1 (acceptImage (verified s bs) bs).job.loadGen.toNat)
    else (verified s bs, .verify, imageDigest bs ++ [0]) := by
  unfold loadImage verified
  rw [← (sameNode_substitute s).job]
  rfl

theorem exec_imageLoad {s : State} (h : Safety.Mailbox s) {buf : HostBuf} (hbuf : hostBufOk buf = true)
    (hphase : s.job.phase = .none) (hstacks : ∀ i, i < 12 → (s.stack i).state ≠ .failed) :
    exec (.imageLoad buf) s =
      .next (let r := loadImage s (rdHostN s buf.addr.toNat buf.len.toNat)
        background r.1 0xC010 r.2.1 r.2.2 r.1.job.report.length) := by
  have free : ¬(s.job.phase ≠ .none ∨ (List.range 12).any (fun k => (s.stack k).state == .failed) = true) := by
    rintro (e | e)
    · exact e hphase
    · obtain ⟨k, hk, hf⟩ := List.any_eq_true.1 e
      exact hstacks k (List.mem_range.1 hk) (beq_iff_eq.1 hf)
  exact congrArg Host.Outcome.next ((mbx_taken h ..).trans ((if_pos hbuf).trans (if_neg free)))

section
variable {s : State} (h : Safety.Mailbox s) {buf : HostBuf} (hbuf : hostBufOk buf = true) (hphase : s.job.phase = .none)
  (hstacks : ∀ i, i < 12 → (s.stack i).state ≠ .failed)
include h hbuf hphase hstacks

/-- With no offence the image is placed, and the result gives its digest and generation. -/
theorem exec_imageLoad_accepted (hv : verify (substitute s) (rdHostN s buf.addr.toNat buf.len.toNat) = []) :
    let bs := rdHostN s buf.addr.toNat buf.len.toNat
    let t := acceptImage (verified s bs) bs
    exec (.imageLoad buf) s = .next { t with host := { t.host with
      mbx := ⟨.bgStarted, .ok, 0, []⟩
      bg := some { opcode := 0xC010
                   out := ⟨.success, .ok, 0, imageDigest bs ++ leBytes 1 (nextGen s.job.lastGen).toNat⟩ } } } := by
  intro bs t
  obtain ⟨img, hjob⟩ := acceptImage_job (verified s bs) bs
  have report : (acceptImage (verified s bs) bs).job.report.length = 0 := by rw [hjob]; exact congrArg List.length hv
  have gen : (acceptImage (verified s bs) bs).job.loadGen = nextGen s.job.lastGen := by rw [hjob]; rfl
  rw [exec_imageLoad h hbuf hphase hstacks, loadImage_eq, if_pos (by rw [hv]; rfl)]
  dsimp only
  rw [background_eq _ _ (by decide), report, gen]

/-- With offences no image is placed, and the result gives their number. -/
theorem exec_imageLoad_refused (hv : verify (substitute s) (rdHostN s buf.addr.toNat buf.len.toNat) ≠ []) :
    let bs := rdHostN s buf.addr.toNat buf.len.toNat
    let t := verified s bs
    exec (.imageLoad buf) s = .next { t with host := { t.host with
      mbx := ⟨.bgStarted, .ok, 0, []⟩
      bg := some { opcode := 0xC010
                   out := ⟨.success, .verify, (verify (substitute s) bs).length, imageDigest bs ++ [0]⟩ } } } := by
  intro bs t
  rw [exec_imageLoad h hbuf hphase hstacks, loadImage_eq, if_neg (by simpa using hv)]
  dsimp only
  rw [background_eq _ _ (by decide)]
  rfl

end

/-! ### HOST_VERDICT and IMAGE_UNLOAD -/

theorem exec_hostVerdict {s : State} (h : Safety.Mailbox s) {digest : Bytes} (hlen : digest.length = 64)
    (hhost : hostAssisted s 8 = true) (hphase : s.job.phase = .awaiting)
    (himage : s.job.image.map Image.digest = some digest) (accept : Bool) :
    exec (.hostVerdict digest accept) s =
      .next (if accept then done { s with job := { s.job with phase := .loaded } } .ok else done (unloadImage s) .ok) := by
  have awaits : ¬((!hostAssisted s 8 || s.job.phase != .awaiting || (s.job.image.map Image.digest) != some digest) = true) := by
    simp [hhost, hphase, himage]
  exact congrArg Host.Outcome.next ((mbx_taken h ..).trans ((if_neg (not_not.2 hlen)).trans (if_neg awaits)))

theorem exec_imageUnload {s : State} (h : Safety.Mailbox s) (hphase : s.job.phase ≠ .running) :
    exec .imageUnload s = .next (done (unloadImage s) .ok) :=
  congrArg Host.Outcome.next ((mbx_taken h ..).trans (if_neg hphase))

/-! ### PLAN_WRITE and PLAN_ARM -/

theorem bank_putPlan (s : State) (b : Bool) (p : Plan) :
    (putPlan s b p).bank b = { plan := some p, valid := planOk p && planCuts s p } := by
  cases b <;> rfl

theorem exec_planWrite {s : State} (h : Safety.Mailbox s) (bank : Bool) (k : Byte) (plan : Plan)
    (hhost : hostAssisted s 0 = true) (hbank : (activePlan s).isSome = true → bank ≠ s.fab.activeBank) :
    let p := { plan with k := k.toNat }
    exec (.planWrite bank k plan) s = .next (background (putPlan s bank p) 0xC030
      (if planOk p && planCuts s p then .ok else .verify) (leBytes 1 s.fab.refusal.toNat)) := by
  intro p
  have open_ : ¬((!hostAssisted s 0 || ((activePlan s).isSome && bank == s.fab.activeBank)) = true) := by
    simpa [hhost] using hbank
  have valid : ((putPlan s bank p).bank bank).valid = (planOk p && planCuts s p) := by rw [bank_putPlan]
  refine congrArg Host.Outcome.next ((mbx_taken h ..).trans ((if_neg open_).trans ?_))
  dsimp only
  rw [valid]

theorem exec_planArm {s : State} (h : Safety.Mailbox s) {epoch : W64} {bank : Bool} (hepoch : epoch.toNat < 2 ^ 48)
    (hcause : armCause s epoch.toNat bank = 0) :
    exec (.planArm epoch bank) s = .next (done { s with fab := { s.fab with
      epochSlot := epoch.setWidth 48, ctrlBank := bank, ctrlArm := true, armed := some (bank, epoch.toNat)
      espState := if s.fab.espState = .none then .armed else s.fab.espState } } .ok (leBytes 1 s.fab.refusal.toNat)) := by
  have slot : (BitVec.ofNat 48 epoch.toNat).toNat = epoch.toNat := Nat.mod_eq_of_lt hepoch
  have armed : arm { s with fab := { s.fab with epochSlot := BitVec.ofNat 48 epoch.toNat, ctrlBank := bank } } =
      { s with fab := { s.fab with
        epochSlot := epoch.setWidth 48, ctrlBank := bank, ctrlArm := true, armed := some (bank, epoch.toNat)
        espState := if s.fab.espState = .none then .armed else s.fab.espState } } := by
    unfold arm
    dsimp only
    rw [slot]
    exact (if_pos hcause).trans (by rw [BitVec.ofNat_toNat])
  refine congrArg Host.Outcome.next ((mbx_taken h ..).trans ((if_neg (Nat.not_le.2 hepoch)).trans ?_))
  dsimp only
  rw [if_pos hcause, if_pos hcause, armed]

/-! ### MACSEC_KEY -/

theorem exec_macsecKey {s : State} (h : Safety.Mailbox s) {port : Byte} (dir : Dir) {an : Byte} (ssci : W32)
    {salt key : Bytes} (first : W64) {line : Nat} (hline : keyLine s port.toNat = some line) (han : an.toNat < 4)
    (hsalt : salt.length = 12) (hkey : key.length = 32) (hide : s.sec.ide ≠ []) :
    exec (.macsecKey true port dir an ssci salt key first) s = .next (done (s.setPort (line / 2) { s.port (line / 2) with
      assocs := ((s.port (line / 2)).assocs.filter fun x => !(x.line == line && x.tx == (dir == .tx) && x.an == an.toNat)) ++
        [{ line := line, tx := dir == .tx, an := an.toNat, ssci := ssci, salt := salt, key := key
           firstPeriod := first.toNat }] }) .ok) := by
  have formed : ¬(4 ≤ an.toNat ∨ salt.length ≠ 12 ∨ key.length ≠ 32) := by
    simp [hsalt, hkey, Nat.not_le.2 han]
  have secured : ¬(true = false ∨ s.sec.ide.isEmpty = true) := by simpa using hide
  refine congrArg Host.Outcome.next ((mbx_taken h ..).trans ?_)
  rw [hline]
  exact (if_neg formed).trans (if_neg secured)

/-! ### FW_STAGE -/

theorem slotBytes_putSlot_of_ne (s : State) {l m : Slot} (bs : List Byte) (h : m ≠ l) :
    slotBytes (putSlot s l bs) m = slotBytes s m := by
  cases l <;> cases m <;> simp_all [slotBytes, putSlot]

/-- A valid container that is newer than the valid slots of its type (R351). -/
def newContainer (s : State) (bs : List Byte) : Option Container :=
  (validContainer s bs (le bs 4 1)).filter fun c => (seqsOf s (le bs 4 1)).all fun q => decide (q < c.seq)

/-- The state in which a container stands in the slot not in use; one that reads back wrong leaves it empty (R352). -/
def staged (s : State) (bs : List Byte) (c : Container) : State :=
  let t := putSlot s (stageSlot s (le bs 4 1)) (if s.sec.flashBad then [] else bs.take (384 + c.length))
  { t with sec := { t.sec with
      staged := t.sec.staged || (t.sec.maint && !s.sec.flashBad)
      stagedVersion := if le bs 4 1 = 1 ∧ s.sec.flashBad = false then Config.bundleVersion c.payload else t.sec.stagedVersion
      erases := t.sec.erases.set 0 (stageSlot s (le bs 4 1)).no (t.sec.erases.get 0 (stageSlot s (le bs 4 1)).no + 1)
      writing := some (stageSlot s (le bs 4 1)).no, flashBad := false } }

theorem stage_eq {s : State} {bs : List Byte} (himage : s.job.image = none) (hmaint : s.sec.maint = true)
    (htype : le bs 4 1 = 1 ∨ le bs 4 1 = 2 ∨ le bs 4 1 = 4 ∧ s.fuses.ownerHash = none) : stage s bs =
      match newContainer s bs with
      | some c => (staged s bs c, if s.sec.flashBad then .check else .ok)
      | none => (s, .verify) := by
  have stop : ¬(s.job.image.isSome = true ∨ (s.sec.maint = false ∧ s.host.node ≠ .recovery)) := by simp [himage, hmaint]
  have owner : ¬(le bs 4 1 = 4 ∧ s.fuses.ownerHash.isSome = true) := by
    rintro ⟨h4, ho⟩
    rcases htype with e | e | ⟨-, e⟩
    · omega
    · omega
    · simp [e] at ho
  have known : ¬(le bs 4 1 ≠ 1 ∧ le bs 4 1 ≠ 2 ∧ le bs 4 1 ≠ 4) := by omega
  refine (if_neg stop).trans ((if_neg owner).trans ((if_neg known).trans ?_))
  unfold newContainer
  cases validContainer s bs (le bs 4 1) with
  | none => rfl
  | some c =>
    dsimp only [Option.filter]
    by_cases hnew : ((seqsOf s (le bs 4 1)).all fun q => decide (q < c.seq)) = true
    · have newer : ¬((seqsOf s (le bs 4 1)).any fun q => decide (c.seq ≤ q)) = true := by simpa using hnew
      rw [if_pos hnew]
      exact if_neg newer
    · have older : ((seqsOf s (le bs 4 1)).any fun q => decide (c.seq ≤ q)) = true := by simpa using hnew
      rw [if_neg hnew]
      exact if_pos older

/-- FW_STAGE begins with no slot being written. -/
def unwritten (s : State) : State := { s with sec := { s.sec with writing := none } }

theorem exec_fwStage {s : State} (h : Safety.Mailbox s) {buf : HostBuf} (hbuf : hostBufOk buf = true) :
    let r := stage (unwritten s) (rdHostN s buf.addr.toNat (min buf.len.toNat (30 * 2 ^ 20)))
    exec (.fwStage buf) s = .next (background r.1 0xC002 r.2 []) :=
  congrArg Host.Outcome.next ((mbx_taken h ..).trans (if_pos hbuf))

theorem newContainer_unwritten (s : State) (bs : List Byte) : newContainer (unwritten s) bs = newContainer s bs := rfl

theorem staged_frame (s : State) (bs : List Byte) (c : Container) :
    staged s bs c = { s with sec := (staged s bs c).sec } := rfl

theorem staged_staged (s : State) (bs : List Byte) (c : Container) : (staged s bs c).sec.staged =
    (s.sec.staged || (s.sec.maint && !s.sec.flashBad)) := by
  unfold staged
  cases stageSlot s (le bs 4 1) <;> rfl

theorem slotBytes_staged_same (s : State) (bs : List Byte) (c : Container) :
    slotBytes (staged s bs c) (stageSlot s (le bs 4 1)) =
      if s.sec.flashBad then [] else bs.take (384 + c.length) := by
  unfold staged
  cases stageSlot s (le bs 4 1) <;> rfl

theorem slotBytes_staged_of_ne (s : State) (bs : List Byte) (c : Container) {l : Slot} (h : l ≠ stageSlot s (le bs 4 1)) :
    slotBytes (staged s bs c) l = slotBytes s l := by
  refine Eq.trans ?_ (slotBytes_putSlot_of_ne s (if s.sec.flashBad then [] else bs.take (384 + c.length)) h)
  cases l <;> rfl

section
variable {s : State} (h : Safety.Mailbox s) {buf : HostBuf} (hbuf : hostBufOk buf = true) (himage : s.job.image = none)
  (hmaint : s.sec.maint = true)
include h hbuf himage hmaint

/-- With no newer valid container FW_STAGE answers VERIFY and stages nothing. -/
theorem exec_fwStage_refused {bs : List Byte} (hbs : bs = rdHostN s buf.addr.toNat (min buf.len.toNat (30 * 2 ^ 20)))
    (htype : le bs 4 1 = 1 ∨ le bs 4 1 = 2 ∨ le bs 4 1 = 4 ∧ s.fuses.ownerHash = none)
    (hnew : newContainer s bs = none) :
    exec (.fwStage buf) s = .next { unwritten s with host := { s.host with
      mbx := ⟨.bgStarted, .ok, 0, []⟩, bg := some { opcode := 0xC002, out := ⟨.success, .verify, 0, []⟩ } } } := by
  have outcome := stage_eq (s := unwritten s) himage hmaint htype
  rw [newContainer_unwritten, hnew] at outcome
  subst hbs
  refine (exec_fwStage h hbuf).trans (congrArg _ ?_)
  rw [outcome]
  exact background_eq _ _ (by decide : Status.verify ≠ .state) _ _

/-- A newer valid container is staged; the status says whether it reads back (R352). -/
theorem exec_fwStage_staged {bs : List Byte} (hbs : bs = rdHostN s buf.addr.toNat (min buf.len.toNat (30 * 2 ^ 20)))
    (htype : le bs 4 1 = 1 ∨ le bs 4 1 = 2 ∨ le bs 4 1 = 4 ∧ s.fuses.ownerHash = none) {c : Container}
    (hnew : newContainer s bs = some c) :
    exec (.fwStage buf) s = .next { staged (unwritten s) bs c with host := { s.host with
      mbx := ⟨.bgStarted, .ok, 0, []⟩
      bg := some { opcode := 0xC002, out := ⟨.success, if s.sec.flashBad then .check else .ok, 0, []⟩ } } } := by
  have outcome := stage_eq (s := unwritten s) himage hmaint htype
  have hne : (if s.sec.flashBad then Status.check else Status.ok) ≠ .state := by cases s.sec.flashBad <;> decide
  rw [newContainer_unwritten, hnew] at outcome
  subst hbs
  refine (exec_fwStage h hbuf).trans (congrArg _ ?_)
  rw [outcome]
  exact background_eq _ _ hne _ _

end

/-! ### The statement -/

theorem slotBytes_withHost (s : State) (i : HostIf) (l : Slot) : slotBytes { s with host := i } l = slotBytes s l := rfl

theorem q_withHost (s : State) (i : HostIf) (b : Blk) (q : Qc) : { s with host := i }.q b q = s.q b q := rfl

/-- Settles O49: each row answers at its own equation; a load keeps the job and the fuses up to the image's tables, so the
new generation is the next one and the streams laid are those of every block of the grade. -/
theorem imagesPlansAndKeysAreLoaded : Obligations.ImagesPlansAndKeysAreLoaded := by
  unfold Obligations.ImagesPlansAndKeysAreLoaded
  intro s h ok started
  refine ⟨?imageLoad, ?hostVerdict, ?imageUnload, ?planWrite, ?planArm, ?macsecKey, ?fwStage⟩
  case imageLoad =>
    intro buf hbuf hphase hstacks bs offences gen
    have kept := sameNode_substitute s
    by_cases hv : offences = []
    · obtain ⟨img, hjob⟩ := acceptImage_job (verified s bs) bs
      have host : hostAssisted (verified s bs) 8 = hostAssisted s 8 := by
        simp only [hostAssisted, verified, kept.host]
      rw [host] at hjob
      refine ⟨_, exec_imageLoad_accepted h hbuf hphase hstacks hv, ?_, ?_, fun _ => ⟨⟨rfl, rfl⟩, ?_, ?_, ?_, ?_⟩,
        fun hne => absurd hv hne⟩
      · exact congrArg Job.report hjob
      · exact congrArg Job.reportDigest hjob
      · exact congrArg Job.phase hjob
      · exact congrArg (fun j => j.image.isSome) hjob
      · exact congrArg Job.loadGen hjob
      · intro b hb q
        have hb' : b ∈ gradeBlocks (verified s bs) := gradeBlocks_of_fuses (t := verified s bs) kept.fuses ▸ hb
        exact (q_withHost ..).trans (acceptImage_q (verified s bs) bs hb' q)
    · exact ⟨_, exec_imageLoad_refused h hbuf hphase hstacks hv, rfl, rfl, fun he => absurd he hv,
        fun _ => ⟨⟨rfl, rfl⟩, hphase, rfl, rfl, rfl⟩⟩
  case hostVerdict =>
    intro digest hlen hhost hphase himage
    exact ⟨exec_hostVerdict h hlen hhost hphase himage true, exec_hostVerdict h hlen hhost hphase himage false⟩
  case imageUnload =>
    intro hphase
    refine ⟨_, exec_imageUnload h hphase, rfl, ?_, ?_, ?_, ?_⟩
    · rw [unloadImage_eq]; rfl
    · intro b hb q
      exact (q_layBlocks (fun _ _ => {}) b q (gradeBlocks s) s).trans (if_pos hb)
    · rw [unloadImage_eq]; rfl
    · rw [unloadImage_eq]; rfl
  case planWrite =>
    intro bank k plan hhost hbank p v
    have hne : (if v then Status.ok else Status.verify) ≠ .state := by cases v <;> decide
    refine ⟨_, (exec_planWrite h bank k plan hhost hbank).trans (congrArg _ (background_eq _ _ hne _ _)), ⟨rfl, rfl⟩, rfl, rfl⟩
  case planArm =>
    intro epoch bank hepoch hcause
    exact exec_planArm h hepoch hcause
  case macsecKey =>
    intro port dir an ssci salt key first line hline han hsalt hkey hide
    refine ⟨_, exec_macsecKey h dir ssci first hline han hsalt hkey hide, rfl, ?_, fun p hp => ?_, rfl⟩
    · exact congrArg Port.assocs (port_setPort ..)
    · exact port_setPort_of_ne _ hp
  case fwStage =>
    intro buf hbuf himage hmaint bs type htype
    cases hnew : newContainer s bs with
    | none =>
      refine ⟨_, exec_fwStage_refused h hbuf himage hmaint rfl htype hnew, rfl, rfl, rfl, ?_⟩
      rw [show Option.filter _ _ = none from hnew]
      exact ⟨⟨rfl, rfl⟩, fun l => by cases l <;> rfl⟩
    | some c =>
      have frame := staged_frame (unwritten s) bs c
      refine ⟨_, exec_fwStage_staged h hbuf himage hmaint rfl htype hnew, ?_, ?_, ?_, ?_⟩
      · rw [frame]; rfl
      · rw [frame]; rfl
      · rw [frame]; rfl
      rw [show Option.filter _ _ = some c from hnew]
      refine ⟨⟨rfl, rfl⟩, ?_, ?_, fun l hl => ?_⟩
      · exact (staged_staged (unwritten s) bs c).trans (by simp only [unwritten, hmaint, Bool.true_and])
      · exact (slotBytes_withHost ..).trans (slotBytes_staged_same (unwritten s) bs c)
      · exact (slotBytes_withHost ..).trans ((slotBytes_staged_of_ne (unwritten s) bs c hl).trans (by cases l <;> rfl))

end Sys2Proof.Laws
end


-- ==== Start ====
section
/-!
O53. The statement burns a pending enrolment whether or not the flash is readable, while step 1 reads the slot only from a
readable flash (14 R347, R351). The model leaves open which signatures verify, so the statement is not settled here: it
fails as soon as the signature of one enrolment verifies.
-/
namespace Sys2Proof.Laws
open Sys2Proof.Machine

/-- A start whose flash cannot be read burns nothing. -/
theorem startSequence_unreadable_burns_nothing {t : State}
    (h : exec (.startSequence (tStart true false 0)) startState = .next t) : t.fuses.ownerHash = none := by
  obtain rfl := Host.Outcome.next.inj h
  rfl

/-- With its flash unreadable the node keeps no owner key hash, where the statement of the start sequence burns the one
that the enrolment slot holds. -/
theorem startSequence_statement_fails_of_verified_enrolment
    (v : Config.ed448Verify enrolKey (shake256 (enrolSlot.take 256)) (List.replicate 114 0) = true) :
    ¬ Obligations.StartSequenceReachesReadyOrRecovery := by
  unfold Obligations.StartSequenceReachesReadyOrRecovery
  intro h
  obtain ⟨t, hexec, burnt, -⟩ := h startState (tStart true false 0) rfl rfl rfl rfl rfl rfl rfl (by decide)
  obtain ⟨owner, -⟩ := burnt enrolBox rfl (enrol_valid v) rfl
  rw [startSequence_unreadable_burns_nothing hexec] at owner
  exact absurd owner (by simp)

end Sys2Proof.Laws
end


-- ==== Plans ====
section
/-!
O31: arming, cancelling and taking a plan, and the boundaries of its periods (02 R45, R54, R55, R68, R69).
-/
namespace Sys2Proof.Laws

open Sys2Proof.Machine

variable {s : State}

/-! ### ARM (R54; log 64) -/

/-- A hall slot is a whole period of every plan that is asked: the test of the model and its negation as the spec says it. -/
theorem notWhole_iff (p : Option Plan) (active : Bool) (k slot : Nat) :
    (!((p.map fun p => slot % 2 ^ p.k == 0).getD true) || (active && !(slot % 2 ^ k == 0))) = true ↔
      (∃ q, p = some q ∧ slot % 2 ^ q.k ≠ 0) ∨ (active = true ∧ slot % 2 ^ k ≠ 0) := by
  cases p <;> simp

theorem exec_arm (s : State) :
    let f := s.fab
    let slot := f.epochSlot.toNat
    let bank := if f.ctrlBank then f.bank1 else f.bank0
    let cause : Nat :=
      if s.tim.state ≠ .locked ∧ s.tim.state ≠ .holdover then 1
      else if slot < s.tim.hall / 64 + 15625 then 2
      else if (∃ p, bank.plan = some p ∧ slot % 2 ^ p.k ≠ 0) ∨ ((activePlan s).isSome ∧ slot % 2 ^ f.k.toNat ≠ 0) then 3
      else if (activePlan s).isSome ∧ f.ctrlBank = f.activeBank then 4
      else if bank.valid = false then 5 else 0
    exec .arm s = .next { s with fab :=
      if cause = 0 then { f with ctrlArm := true, armed := some (f.ctrlBank, slot)
                                 espState := if f.espState = .none then .armed else f.espState }
      else { f with refusal := BitVec.ofNat 4 cause } } := by
  intro f slot bank cause
  have hc : armCause s slot f.ctrlBank = cause := by
    simp only [armCause, cause, notWhole_iff, Bool.not_eq_true']
    rfl
  show Host.Outcome.next (arm s) = _
  unfold arm
  dsimp only
  rw [hc]
  split <;> rfl

/-! ### The end of a plan period (R45, R68, R69) -/

/-- The fabric after a plan period whose end brings no return to service. -/
def periodEnded (f : Fabric) : Fabric :=
  { f with
    pairs := f.pairs.mapV {} fun _ k => pairPeriod k
    binLeft := []
    espState := if f.stopping then (if f.armed.isSome then .armed else .none) else f.espState
    stopping := false }

theorem periodEnds_eq (h : ¬(s.tim.service = false ∧ s.tim.state = .locked)) :
    periodEnds s = { s with fab := periodEnded s.fab } := if_neg <| Bool.eq_false_iff.1 (mayReturn_false h)

/-- Every pair counts violations anew, in quarantine no more (R68, R69). -/
theorem pair_periodEnded {t : State} (h : t.fab.pairs = s.fab.pairs.mapV {} fun _ k => pairPeriod k) (n : NodeId) :
    t.pair n = pairPeriod (s.pair n) := by
  rw [State.pair, h]
  exact get_mapV (fun _ => rfl) _ _

/-! ### PLAN_ACTIVATION and PLAN_PERIOD_BOUNDARY (R55, R68; 14 R359) -/

/-- A node whose bank `b` with plan `p` has become active from a slot on, before measurement 6 is taken (R55). -/
def activeFrom (s : State) (b : Bool) (slot : Nat) (p : Option Plan) : State :=
  { s with fab := { s.fab with
      activeBank := b, espState := if s.tim.service then .running else .suspended
      k := BitVec.ofNat 5 ((p.map Plan.k).getD 0), periods := 0, since := slot, armed := none } }

/-- The measurements with the digest of the active plan taken (14 R359). -/
def measured (s : State) : Sec := { s.sec with meas := SMap.set [] s.sec.meas 6 (planDigest s) }

/-- An armed bank whose epoch has come ends the period, becomes active, and is measured and traced. -/
theorem activate_due {b : Bool} {slot : Nat} (ha : s.fab.armed = some (b, slot)) (hd : slot ≤ hallSlot s) :
    let u := activeFrom (periodEnds { s with fab := { s.fab with stopping := false } }) b slot (s.bank b).plan
    activate s = traceHw { u with sec := measured u } 1 := by
  unfold activate
  split
  case h_1 b' slot' ha' =>
    obtain ⟨rfl, rfl⟩ := Prod.mk.inj (Option.some.inj (ha.symm.trans ha'))
    exact if_neg (Nat.not_lt.2 hd)
  case h_2 ha' => exact absurd (ha.symm.trans ha') (Option.some_ne_none _)

theorem periodBoundary_due (h : periodDue s = true) :
    periodBoundary s = periodEnds { s with fab := { s.fab with periods := BitVec.ofNat 32 (periodsBy s) } } := if_pos h

/-- A trace point reads neither the fabric nor the security core. -/
theorem traceHw_withFab (s : State) (f : Fabric) (c : Sec) (k : Nat) :
    traceHw { s with fab := f, sec := c } k = { traceHw s k with fab := f, sec := c } := by
  unfold traceHw tracePoint logEntry
  dsimp only
  (repeat' split) <;> rfl

/-- What PLAN_ACTIVATION leaves once the armed epoch slot has come. -/
theorem activate_leaves {b : Bool} {slot : Nat} (ha : s.fab.armed = some (b, slot)) (hd : slot ≤ s.tim.hall / 64)
    (h : ¬(s.tim.service = false ∧ s.tim.state = .locked)) :
    let u := activeFrom { s with fab := periodEnded { s.fab with stopping := false } } b slot (s.bank b).plan
    activate s = { traceHw s 1 with fab := u.fab, sec := measured u } := by
  rw [activate_due ha hd, periodEnds_eq (by exact h)]
  exact traceHw_withFab s _ _ 1

/-- What PLAN_PERIOD_BOUNDARY leaves when a period of the active plan has ended. -/
theorem periodBoundary_leaves (ha : (activePlan s).isSome = true) (hp : periodsBy s % 2 ^ 32 ≠ s.fab.periods.toNat)
    (h : ¬(s.tim.service = false ∧ s.tim.state = .locked)) :
    periodBoundary s = { s with fab := periodEnded { s.fab with periods := BitVec.ofNat 32 (periodsBy s) } } := by
  have due : periodDue s = true := by
    rw [periodDue, ha, Bool.true_and]
    exact bne_iff_ne.2 hp
  rw [periodBoundary_due due, periodEnds_eq (by exact h)]

/-- Settles O31: arming and cancelling by their definitions, the two boundaries by what the lemmas above say they leave. -/
theorem espalierRowsComplete : Obligations.EspalierRowsComplete := by
  unfold Obligations.EspalierRowsComplete
  intro s
  refine ⟨exec_arm s, rfl, fun b slot ha hd h => ?activation, fun ha hp h => ?boundary⟩
  case activation =>
    refine ⟨_, congrArg Host.Outcome.next (activate_leaves ha hd h), ?_⟩
    rw [traceHw_frame s 1]
    exact ⟨rfl, pair_periodEnded rfl, rfl, get_set_same .., rfl, rfl⟩
  case boundary =>
    exact ⟨_, congrArg Host.Outcome.next (periodBoundary_leaves ha hp h), rfl, pair_periodEnded rfl, rfl⟩

end Sys2Proof.Laws
end


-- ==== Silence ====
section
/-!
O33: frames that are lost and peers that fall silent (02 R57, R60; 09 R257, R265; 11 R289).
-/
namespace Sys2Proof.Laws

open Sys2Proof.Machine

/-! ### The state of one pair changes -/

/-- From `s` to `t` nothing but the pair state toward one peer has changed. -/
structure OnlyPair (n : NodeId) (s t : State) : Prop where
  others : ∀ m, m ≠ n → t.pair m = s.pair m
  rest : t = { s with fab := { s.fab with pairs := t.fab.pairs } }

theorem OnlyPair.refl (n : NodeId) (s : State) : OnlyPair n s s := ⟨fun _ _ => rfl, rfl⟩

theorem OnlyPair.trans {n : NodeId} {s t u : State} (a : OnlyPair n s t) (b : OnlyPair n t u) : OnlyPair n s u :=
  ⟨fun m hm => (b.others m hm).trans (a.others m hm), by rw [b.rest, a.rest]⟩

theorem onlyPair_setPair (s : State) (n : NodeId) (k : Pair) : OnlyPair n s (s.setPair n k) :=
  ⟨fun _ hm => pair_setPair_of_ne _ hm, rfl⟩

/-! ### LOSS_DETECTED (R60) -/

/-- A frame of one of the sequence numbers of a list is to be sent again (R60). -/
def markLost (l : List OutFrame) (x : OutFrame) : OutFrame :=
  if l.any fun o => o.frame.hdr.seq == x.frame.hdr.seq then { x with lost := true, quiet := 0 } else x

theorem markLost_nil : markLost [] = id := rfl

theorem markLost_singleton (o : OutFrame) : markLost [o] =
    fun x => if x.frame.hdr.seq == o.frame.hdr.seq then { x with lost := true, quiet := 0 } else x := by
  funext x
  simp [markLost, BEq.comm (a := x.frame.hdr.seq)]

theorem markLost_seq (l : List OutFrame) (x : OutFrame) : (markLost l x).frame.hdr.seq = x.frame.hdr.seq := by
  unfold markLost
  split <;> rfl

theorem markLost_tries (l : List OutFrame) (x : OutFrame) : (markLost l x).tries = x.tries := by
  unfold markLost
  split <;> rfl

/-- Marking the frames of one number and then those of others marks them all. -/
theorem markLost_markLost (o : OutFrame) (l : List OutFrame) (x : OutFrame) :
    markLost l (markLost [o] x) = markLost (o :: l) x := by
  by_cases h : o.frame.hdr.seq = x.frame.hdr.seq <;> simp [markLost, h]

/-- A lost frame that has been sent again less than eight times is marked. -/
theorem frameLost_marks {s : State} {n : NodeId} (h8 : ∀ x ∈ (s.pair n).unacked, x.tries < 8) {o : OutFrame}
    (ho : ∃ x ∈ (s.pair n).unacked, x.frame.hdr.seq = o.frame.hdr.seq) :
    frameLost s n o.frame.hdr.seq =
      s.setPair n { s.pair n with unacked := (s.pair n).unacked.map (markLost [o]) } := by
  obtain ⟨x, hx, hq⟩ := ho
  unfold frameLost
  dsimp only
  split
  case h_1 hnone => exact absurd (beq_iff_eq.2 hq) (List.find?_eq_none.1 hnone x hx)
  case h_2 y hy =>
    rw [if_neg (Nat.not_le.2 (h8 y (List.mem_of_find?_eq_some hy)))]
    rw [markLost_singleton]

/-- Frames lost one after the other are marked, and nothing else changes. -/
theorem framesLost_mark (n : NodeId) (l : List OutFrame) {s : State} (h8 : ∀ x ∈ (s.pair n).unacked, x.tries < 8)
    (hl : ∀ o ∈ l, ∃ x ∈ (s.pair n).unacked, x.frame.hdr.seq = o.frame.hdr.seq) :
    let t := l.foldl (fun t o => frameLost t n o.frame.hdr.seq) s
    t.pair n = { s.pair n with unacked := (s.pair n).unacked.map (markLost l) } ∧ OnlyPair n s t := by
  induction l generalizing s with
  | nil => exact ⟨by simp [markLost_nil], OnlyPair.refl n s⟩
  | cons o l ih =>
    let k : Pair := { s.pair n with unacked := (s.pair n).unacked.map (markLost [o]) }
    have hk : (s.setPair n k).pair n = k := pair_setPair ..
    have step := frameLost_marks h8 (hl o List.mem_cons_self)
    obtain ⟨marked, only⟩ := ih (s := s.setPair n k)
      (by
        rw [hk]
        intro x hx
        obtain ⟨y, hy, rfl⟩ := List.mem_map.1 hx
        exact (markLost_tries ..).trans_lt (h8 y hy))
      (by
        rw [hk]
        intro p hp
        obtain ⟨y, hy, hq⟩ := hl p (List.mem_cons_of_mem _ hp)
        exact ⟨_, List.mem_map_of_mem hy, (markLost_seq ..).trans hq⟩)
    rw [List.foldl_cons, step]
    refine ⟨marked.trans ?_, (onlyPair_setPair s n k).trans only⟩
    rw [hk, List.map_map, show markLost l ∘ markLost [o] = markLost (o :: l) from funext (markLost_markLost o l)]

/-- The frames past which two return slots have gone without an acknowledgement (R60). -/
def overdue (k : Pair) : List OutFrame := k.unacked.filter fun o => 2 ≤ o.quiet && !o.lost

theorem exec_lossDetected {s : State} {n : NodeId} (h8 : ∀ o ∈ (s.pair n).unacked, o.tries < 8) :
    ∃ t, exec (.lossDetected n) s = .next t ∧
      t.pair n = { s.pair n with unacked := (s.pair n).unacked.map (markLost (overdue (s.pair n))) } ∧
      OnlyPair n s t :=
  ⟨_, rfl, framesLost_mark n _ h8 fun o ho => ⟨o, List.mem_of_mem_filter ho, rfl⟩⟩

/-! ### A silent peer (R57, R257, R289) -/

/-- The record of an event above C is the newest of the log. -/
theorem recorded_record_above {s : State} {c : ErrCode} (hc : c.info.2.2 ≠ .C) (a : EvArgs) :
    Safety.recorded (record s c a) c := by
  have e : ∃ u, record s c a = pushRec u (mkRec s c c.info.2.2 a) := ⟨_, by
    unfold record recordSev
    exact if_neg hc⟩
  obtain ⟨u, e⟩ := e
  rw [e]
  exact ⟨_, by rw [lastRec]; exact congrArg (Option.map Prod.fst) List.getLast?_concat, rfl⟩

theorem cause_traceHw (s : State) (k : Nat) : (traceHw s k).host.cause = s.host.cause := by
  unfold traceHw tracePoint logEntry
  dsimp only
  (repeat' split) <;> rfl

theorem cause_raise (s : State) {i : Nat} (h : i < 8) : (raise s i).host.cause.toNat.testBit i = true := by
  simp only [raise, BitVec.toNat_or, BitVec.toNat_ofNat, Nat.testBit_or, Nat.testBit_mod_two_pow, h, decide_true,
    Nat.testBit_two_pow_self, Bool.and_self, Bool.or_true]

/-- A job that begins to hold raises cause 3 (R289). -/
theorem cause_enterHolding {s : State} (hj : s.job.phase = .running) (hr : s.hold.state = .run) (v : Sev)
    (r : Option ErrRec) : (enterHolding s v r).host.cause.toNat.testBit 3 = true := by
  rw [enterHolding, if_pos ⟨hj, hr⟩, cause_traceHw]
  exact cause_raise _ (by decide)

theorem enterHolding_frame (s : State) (v : Sev) (r : Option ErrRec) : enterHolding s v r =
    { s with hold := (enterHolding s v r).hold, host := (enterHolding s v r).host, free := (enterHolding s v r).free } := by
  unfold enterHolding
  split
  · rw [traceHw_frame]
    rfl
  · rfl

/-- What a peer that has fallen silent leaves in a running job without a hold: the job holds at its next boundary. -/
structure HoldsFor (n : NodeId) (s t : State) : Prop where
  marked : t.pair n = { s.pair n with silent := true }
  others : ∀ m, m ≠ n → t.pair m = s.pair m
  recorded : Safety.recorded t .peerSilent
  holding : t.hold.state = .holding
  atBoundary : t.hold.atBoundary = true
  named : n ∈ t.hold.silentPeers
  cause : t.host.cause.toNat.testBit 3 = true
  frame : t = { s with
    fab := { s.fab with pairs := t.fab.pairs }, err := t.err, hold := t.hold, host := t.host, free := t.free }

/-- A peer is among those a list of silent ones names, once it has been added where it was missing. -/
theorem mem_noted (l : List NodeId) (n : NodeId) : n ∈ if l.contains n then l else l ++ [n] := by
  split
  case isTrue h => exact List.contains_iff_mem.1 h
  case isFalse => exact List.mem_append_right _ (List.mem_singleton_self n)

theorem peerSilent_holds {s : State} (hj : s.job.phase = .running) (hr : s.hold.state = .run) (port : Nat) (n : NodeId) :
    HoldsFor n s (peerSilent s port n) := by
  unfold peerSilent
  dsimp only
  generalize hm : s.setPair n _ = u
  generalize hw : record u .peerSilent _ = w
  have hf : w = { u with err := w.err, hold := w.hold, free := w.free } := by rw [← hw]; exact record_frame ..
  have hwj : w.job.phase = .running := by rw [hf, ← hm]; exact hj
  have hwr : w.hold.state = .run := by rw [← hw, record_hold_state, ← hm]; exact hr
  have hwp (m : NodeId) : (enterHolding w .D (lastRec w)).pair m = u.pair m := by
    rw [enterHolding_frame, hf]
    rfl
  rw [if_neg (by rw [hold_enterHolding hwj hwr]; decide)]
  exact {
    marked := by
      refine (hwp n).trans ?_
      rw [← hm, pair_setPair]
    others := fun m h => by
      refine (hwp m).trans ?_
      rw [← hm, pair_setPair_of_ne _ h]
    recorded := by
      rw [enterHolding_frame]
      rw [← hw]
      exact recorded_record_above (by decide) _
    holding := hold_enterHolding hwj hwr ..
    atBoundary := rfl
    named := mem_noted ..
    cause := cause_enterHolding hwj hwr ..
    frame := by
      rw [enterHolding_frame, hf, ← hm]
      rfl }

theorem execPeerSilent_due {s : State} {n : NodeId} (h8 : 8 ≤ (s.pair n).empty) (hs : (s.pair n).silent = false)
    (port : BitVec 3) : exec (.peerSilent port n) s = .next (peerSilent s port.toNat n) :=
  congrArg Host.Outcome.next <| if_pos <| by simp [h8, hs]

theorem execSignatureTimeout_due {s : State} {n : NodeId} {slot : Nat} (ha : s.job.sigAt = some slot)
    (ht : twin s = some n) (hd : slot + 128 ≤ s.tim.hall / 64) (hl : s.job.sigLast = false)
    (hs : (s.pair n).silent = false) :
    exec .signatureTimeout s = .next (peerSilent s ((portsOf s n).headD 0) n) := by
  refine congrArg Host.Outcome.next ?_
  rw [ha, ht]
  exact if_pos ⟨hd, hl, hs⟩

/-- Settles O33: lost frames one after the other, a silent peer by what it leaves in a running job. -/
theorem lossesAndSilenceAreNoted : Obligations.LossesAndSilenceAreNoted := by
  unfold Obligations.LossesAndSilenceAreNoted
  intro s
  refine ⟨fun n h8 => ?loss, fun port n h8 hs hj hr => ?silent, fun slot n ha ht hd hl hs hj hr => ?signature⟩
  case loss =>
    obtain ⟨t, he, marked, only⟩ := exec_lossDetected h8
    exact ⟨t, he, marked, only.others, only.rest⟩
  case silent =>
    obtain ⟨a, b, c, d, e, f, g, h⟩ := peerSilent_holds hj hr port.toNat n
    exact ⟨_, execPeerSilent_due h8 hs port, a, b, c, d, e, f, g, h⟩
  case signature =>
    obtain ⟨a, b, c, d, e, f, g, h⟩ := peerSilent_holds hj hr ((portsOf s n).headD 0) n
    exact ⟨_, execSignatureTimeout_due ha ht hd hl hs, a, b, c, d, e, f, g, h⟩

end Sys2Proof.Laws
end


-- ==== Masters ====
section
/-!
O37: PTP messages, the node's master, and the ports' links (02 R42, R43, R47; log 35).
-/
namespace Sys2Proof.Laws

open Sys2Proof.Machine

variable {s : State}

/-! ### PTP messages (R42, R47) -/

theorem ptpMessage_unlisted {m : PtpMsg} (hu : ptpUnlisted m = true) :
    ptpMessage s m = if m.port.toNat < 8 then dropOther s m.port.toNat else s := if_pos hu

/-- A message of the profile that R47 discards. -/
theorem ptpMessage_bad {m : PtpMsg} (hu : ptpUnlisted m = false) (hb : ptpBad s m = true) :
    ptpMessage s m = ptpDiscard s m := by
  rw [ptpMessage, if_neg (Bool.eq_false_iff.1 hu), if_pos hb]

/-- A message that a node with a master takes. -/
theorem ptpMessage_taken {m : PtpMsg} (hu : ptpUnlisted m = false) (hb : ptpBad s m = false)
    (hr : s.ncr.timeRole ≠ .reference) : ptpMessage s m =
      let u := if m.isAnnounce then announce s m else s
      if m.isSync then sync u m else u := by
  rw [ptpMessage, if_neg (Bool.eq_false_iff.1 hu), if_neg (Bool.eq_false_iff.1 hb),
    if_neg (Bool.eq_false_iff.1 (isReference_false hr))]

/-- A discarded message counts; a bad Sync of the selected master that is not the third in a row counts for it as well. -/
theorem ptpDiscard_counts {m : PtpMsg} (h : m.isSync = true → s.tim.master = some m.master → s.tim.badSyncs < 2) :
    ptpDiscard s m = { s with tim := { s.tim with
      ptpBad := satAdd s.tim.ptpBad 1
      badSyncs := if m.isSync = true ∧ s.tim.master = some m.master then s.tim.badSyncs + 1 else s.tim.badSyncs } } := by
  unfold ptpDiscard
  by_cases hm : m.isSync = true ∧ s.tim.master = some m.master
  · have few : ¬3 ≤ s.tim.badSyncs + 1 := by have := h hm.1 hm.2; omega
    rw [if_pos hm, if_pos hm, if_neg few]
  · rw [if_neg hm, if_neg hm]

/-- The third bad Sync in a row of the selected master excludes it for 60 s (R47). -/
theorem ptpDiscard_excludes {m : PtpMsg} (hs : m.isSync = true) (hm : s.tim.master = some m.master)
    (h2 : 2 ≤ s.tim.badSyncs) :
    ptpDiscard s m = selectMaster { s with tim := { s.tim with
      ptpBad := satAdd s.tim.ptpBad 1, badSyncs := 0
      excluded := s.tim.excluded ++ [(m.master.toNat, s.tim.now + 60_000_000_000)] } } := by
  unfold ptpDiscard
  rw [if_pos ⟨hs, hm⟩, if_pos (by omega)]

/-- A Sync of the selected master gives a unit in service its new time_err. -/
theorem sync_inService {m : PtpMsg} (hm : s.tim.master = some m.master)
    (hg : s.tim.state = .locked ∨ s.tim.state = .holdover) :
    sync s m = { s with tim := { s.tim with
      errPs := m.offsetPs, lastSync := s.tim.now, badSyncs := 0, goodSince := goodFrom s.tim m.offsetPs
      holdFrom := s.tim.holdFrom.map fun _ => (s.tim.hall, m.offsetPs) } } := by
  have serves : givesService s.tim.state = true := by rcases hg with h | h <;> rw [h] <;> rfl
  rw [sync, if_pos hm, if_pos serves]

/-! ### The selected master is silent, and exclusions end (log 35) -/

/-- A master that has announced nothing for 3 intervals is no longer heard. -/
theorem exec_announceReceiptTimeout {w : W64} (hm : s.tim.master = some w)
    (hl : s.tim.lastAnnounce + 375_000_000 ≤ s.tim.now) :
    exec .announceReceiptTimeout s = .next (selectMaster { s with tim := { s.tim with
      masters := s.tim.masters.filter fun m => BitVec.ofNat 64 m.1 != w } }) := by
  have late : announceLate s = true := by simp [announceLate, hm, hl]
  have others : (s.tim.masters.filter fun m => some (BitVec.ofNat 64 m.1) != s.tim.master) =
      s.tim.masters.filter fun m => BitVec.ofNat 64 m.1 != w := by
    rw [hm]
    rfl
  exact congrArg Host.Outcome.next ((if_pos late).trans
    (congrArg (fun l => selectMaster { s with tim := { s.tim with masters := l } }) others))

theorem exec_bmcaExclusionEnd {w : W64} {x : Nat} (hx : (w.toNat, x) ∈ s.tim.excluded) (hn : x ≤ s.tim.now) :
    exec (.bmcaExclusionEnd w) s = .next (selectMaster { s with tim := { s.tim with
      excluded := s.tim.excluded.filter fun x => !(x.1 == w.toNat && decide (x.2 ≤ s.tim.now)) } }) :=
  congrArg Host.Outcome.next <| if_pos <| List.any_eq_true.2 ⟨_, hx, by simp [hn]⟩

/-! ### The ports' links (R42, R43) -/

/-- Showing the ports' service leaves every link. -/
theorem link_showService (s : State) (p : Nat) : ((showService s).port p).link = (s.port p).link := by
  rw [showService_eq]
  unfold State.port shown
  rw [get_foldl_set ({} : Port) (fun _ k => { k with
    scheduled := s.tim.service && k.link == .up && s.ncr.udpPort != 0 }) _ List.nodup_range]
  split <;> rfl

/-- A port in a new state of its link: the service of all ports is shown and the SyncE port chosen anew. -/
def relinked (s : State) (n : Nat) (k : Port) : State := resyntonise (showService (s.setPort n k))

section
variable (s : State) (n : Nat) (k : Port)

/-- Of the ports that have been shown, the one in a new state has its link and the others theirs. -/
theorem link_relinked (p : Nat) : ((relinked s n k).port p).link = if p = n then k.link else (s.port p).link := by
  refine (link_showService (s.setPort n k) p).trans ?_
  split
  case isTrue h => rw [h, port_setPort]
  case isFalse h => rw [port_setPort_of_ne _ h]

theorem port_relinked {p : Nat} (hp : p < 8) : (relinked s n k).port p =
    { (s.setPort n k).port p with
      scheduled := s.tim.service && ((s.setPort n k).port p).link == .up && s.ncr.udpPort != 0 } :=
  port_showService (s.setPort n k) hp

theorem syncePort_relinked : (relinked s n k).tim.syncePort = syncePort (relinked s n k) := by
  unfold relinked
  rw [showService_eq]
  rfl

theorem relinked_frame : let t := relinked s n k
    t = { s with tim := { s.tim with syncePort := t.tim.syncePort }, fab := { s.fab with ports := t.fab.ports } } := by
  unfold relinked
  rw [showService_eq]
  rfl

end

theorem exec_portUp {port : BitVec 3} (h : (s.ncr.ports.getD port.toNat {}).enabled = true) :
    exec (.portUp port) s = .next (relinked s port.toNat { s.port port.toNat with link := .up }) :=
  congrArg Host.Outcome.next (if_pos h)

/-- A port as it stands with a new link and nothing else, with the service shown. -/
theorem port_relinked_link (v : Link) {p : Nat} (hp : p < 8) :
    let t := relinked s n { s.port n with link := v }
    t.port p = { s.port p with
      link := (t.port p).link
      scheduled := s.tim.service && (t.port p).link == .up && s.ncr.udpPort != 0 } := by
  intro t
  have hl : (t.port p).link = _ := link_relinked ..
  have ht : t.port p = _ := port_relinked _ _ _ hp
  by_cases e : p = n
  · rw [ht, e, port_setPort]
  · rw [ht, port_setPort_of_ne _ e]

/-- A port that has lost its link. -/
def portLost (k : Port) : Port := { k with link := .down, esmc := none }

theorem exec_portDown {port : BitVec 3} (h : (s.port port.toNat).link ≠ .down) :
    exec (.portDown port) s = .next (record (relinked s port.toNat (portLost (s.port port.toNat))) .portDown
      { unitKind := 6, unit := port.toNat, detail := detailD port.toNat 0 0xFFFF 0 0 0 [] }) :=
  congrArg Host.Outcome.next (if_neg h)

/-- Settles O37: each row by the branch its premises choose. -/
theorem mastersAndPortsComeAndGo : Obligations.MastersAndPortsComeAndGo := by
  unfold Obligations.MastersAndPortsComeAndGo
  intro s
  refine ⟨fun m hu => congrArg Host.Outcome.next (ptpMessage_unlisted hu),
    fun m hu hb h => congrArg Host.Outcome.next ((ptpMessage_bad hu hb).trans (ptpDiscard_counts h)),
    fun m hu hb hs hm h2 => congrArg Host.Outcome.next ((ptpMessage_bad hu hb).trans (ptpDiscard_excludes hs hm h2)),
    fun m hu hb hr ha hs hm hg => ?sync, fun m hu hb hr ha hs => ?announce, fun w => exec_announceReceiptTimeout,
    fun w x => exec_bmcaExclusionEnd, fun port ql hp => ?esmc, fun port he => ?up, fun port hl hc => ?down⟩
  case sync =>
    have e : exec (.ptpMessage m) s = .next (sync s m) := congrArg Host.Outcome.next <| by
      rw [ptpMessage_taken hu hb hr, if_neg (Bool.eq_false_iff.1 ha), if_pos hs]
    exact ⟨_, e.trans (congrArg Host.Outcome.next (sync_inService hm hg)), rfl,
      fun h => if_neg (Nat.not_le.2 h), fun h => if_pos h, rfl⟩
  case announce =>
    refine congrArg Host.Outcome.next ((ptpMessage_taken hu hb hr).trans ?_)
    rw [if_pos ha, if_neg (Bool.eq_false_iff.1 hs)]
    rfl
  case esmc =>
    exact ⟨_, congrArg Host.Outcome.next (if_pos hp), port_setPort .., rfl,
      fun p h => port_setPort_of_ne _ h, rfl⟩
  case up =>
    let k : Port := { s.port port.toNat with link := .up }
    exact ⟨_, exec_portUp he, (link_relinked s _ k _).trans (if_pos rfl), syncePort_relinked ..,
      fun p => port_relinked_link _, fun p h => (link_relinked s _ k p).trans (if_neg h), relinked_frame ..⟩
  case down =>
    let k := portLost (s.port port.toNat)
    generalize hv : relinked s port.toNat k = v
    have link (p : Nat) : (v.port p).link = _ := hv ▸ link_relinked s port.toNat k p
    have shut : (v.port port.toNat).scheduled = false := by
      have down : ((s.setPort port.toNat k).port port.toNat).link = .down := by rw [port_setPort]; rfl
      rw [← hv, port_relinked _ _ _ port.isLt, down]
      simp
    have sp : v.tim.syncePort = syncePort v := hv ▸ syncePort_relinked s port.toNat k
    have fr := relinked_frame s port.toNat k
    rw [hv] at fr
    have he := exec_portDown hl
    rw [hv] at he
    refine ⟨_, he, ?_⟩
    have recorded := recorded_record (s := v) (c := .portDown) rfl (by rw [fr]; exact hc)
      { unitKind := 6, unit := port.toNat, detail := detailD port.toNat 0 0xFFFF 0 0 0 [] }
    rw [record_frame] at recorded ⊢
    exact ⟨(link _).trans (if_pos rfl), shut, sp, fun p h => (link p).trans (if_neg h), recorded, by rw [fr]⟩

end Sys2Proof.Laws
end


-- ==== Waits ====
section
/-!
O28: the waits of CQ: WAITV, WAITT, EPOCHWAIT and QUIESCE (04 R111, 02 R48, 09 R252; log 61).
-/
namespace Sys2Proof.Laws

open Sys2Proof.Machine

/-! ### A command in flight changes, in a state where lines have been decoded -/

section
variable {s : State} {b : Blk} {q : Qc} {f : InFl}

theorem onlyInFlight_updInFl (s : State) (d : SMap Nat) (b : Blk) (q : Qc) (i : Nat) (g : InFl → InFl) :
    Safety.OnlyInFlight b q s (updInFl { s with decoded := d } b q i g) where
  rest := rfl
  others _ ha := blk_updQ_of_ne _ _ ha
  block := by simp only [updInFl, State.updQ, State.setQ, Block.setQueue, blk_updBlk]; rfl
  queues _ hr := q_updQ_of_ne _ _ hr
  queue := by simp only [updInFl, q_updQ]; rfl

/-- A command in flight that is not done stands in flight changed. -/
theorem mem_updInFl (hm : f ∈ (s.q b q).inflight) (hd : f.done = none) (d : SMap Nat) (g : InFl → InFl) :
    g f ∈ ((updInFl { s with decoded := d } b q f.idx g).q b q).inflight := by
  rw [updInFl, q_updQ]
  exact List.mem_map.2 ⟨f, hm, if_pos ⟨rfl, hd⟩⟩

theorem finished_finish (hm : f ∈ (s.q b q).inflight) (hd : f.done = none) (d : SMap Nat) (st : Status) :
    Safety.Finished b q f st (finish { s with decoded := d } b q f.idx st) :=
  ⟨_, mem_updInFl hm hd d _, rfl, rfl, rfl⟩

theorem waiting_taken (hm : f ∈ (s.q b q).inflight) (hd : f.done = none) (d : SMap Nat) :
    Safety.Waiting b q f (taken { s with decoded := d } b q f) :=
  ⟨_, mem_updInFl hm hd d _, rfl, rfl, rfl, hd⟩

/-- A command finishes where a condition holds, and else waits: nothing else changes. -/
structure EndsOrWaits (b : Blk) (q : Qc) (f : InFl) (p : Prop) (s t : State) : Prop where
  ends : p → Safety.Finished b q f .ok t
  waits : ¬p → Safety.Waiting b q f t
  only : Safety.OnlyInFlight b q s t

theorem endsOrWaits_ite (hm : f ∈ (s.q b q).inflight) (hd : f.done = none) (d : SMap Nat) (p : Prop) [Decidable p] :
    EndsOrWaits b q f p s
      (if p then finish { s with decoded := d } b q f.idx .ok else taken { s with decoded := d } b q f) := by
  split
  case isTrue h =>
    exact ⟨fun _ => finished_finish hm hd d .ok, fun hn => absurd h hn, onlyInFlight_updInFl ..⟩
  case isFalse h => exact ⟨fun hp => absurd hp h, fun _ => waiting_taken hm hd d, onlyInFlight_updInFl ..⟩

theorem EndsOrWaits.congr {p p' : Prop} {t : State} (h : EndsOrWaits b q f p s t) (e : p ↔ p') :
    EndsOrWaits b q f p' s t :=
  ⟨fun hp => h.ends (e.2 hp), fun hp => h.waits fun x => hp (e.1 x), h.only⟩

/-- A command that waits is in flight, taken up and not done. -/
theorem waitingCmd_spec {op : Nat} (h : waitingCmd s b op = some f) :
    f ∈ (s.q b .CQ).inflight ∧ f.started = true ∧ f.done = none := by
  have hp := List.find?_some h
  simp only [Bool.and_eq_true, Option.isNone_iff_eq_none] at hp
  exact ⟨List.mem_of_find?_eq_some h, hp.1.2, hp.2⟩

/-! ### WAITV (R111; log 61) -/

/-- The word that a WAITV at an address tests: OWN of a stream context, or 8 bytes. -/
def wordAt (s : State) (npa : Nat) : Nat :=
  match ctxReg s npa with
  | some (k, n, _) => (s.ctx k n).own.toNat
  | none => rdW s npa 8

theorem waitWord_clean (hl : s.lineFault = []) (npa : Nat) :
    ∃ d, waitWord s npa = ({ s with decoded := d }, wordAt s npa, none) := by
  unfold waitWord wordAt
  cases ctxReg s npa with
  | some c => exact ⟨s.decoded, rfl⟩
  | none =>
    dsimp only
    rw [touch_clean hl]
    exact ⟨_, rfl⟩

/-- The test of a WAITV as Table 04.7 gives it. -/
def TestHolds (c : Cmd) (v : Nat) : Prop :=
  match c.w3.toNat with
  | 0 => c.w2.toNat ≤ v
  | 1 => v = c.w2.toNat
  | _ => v ≠ c.w2.toNat

theorem waitTest_iff (c : Cmd) (v : Nat) : waitTest c v = true ↔ TestHolds c v := by
  unfold waitTest TestHolds
  generalize c.w3.toNat = k
  match k with
  | 0 => exact decide_eq_true_iff
  | 1 => exact beq_iff_eq
  | _ + 2 => exact bne_iff_ne

theorem waitvLate_iff : waitvLate s f = true ↔ f.cmd.w4 ≠ 0 ∧ f.cmd.w4.toNat ≤ s.tim.hall := by
  simp [waitvLate]

/-- Before its timeout a WAITV reads its word and ends where its test holds. -/
theorem waitvRead_early (hl : s.lineFault = []) (hm : f ∈ (s.q b .CQ).inflight) (hd : f.done = none)
    (h : ¬(f.cmd.w4 ≠ 0 ∧ f.cmd.w4.toNat ≤ s.tim.hall)) :
    EndsOrWaits b .CQ f (TestHolds f.cmd (wordAt s (fld f.cmd.w1 0 56))) s (waitvRead s b f) := by
  obtain ⟨d, hw⟩ := waitWord_clean hl (fld f.cmd.w1 0 56)
  rw [waitvRead, if_neg (mt waitvLate_iff.1 h), hw]
  exact (endsOrWaits_ite hm hd d _).congr (waitTest_iff ..)

/-- Once hall time has reached its timeout a WAITV ends with TIMEOUT. -/
theorem waitvRead_late (h : f.cmd.w4 ≠ 0 ∧ f.cmd.w4.toNat ≤ s.tim.hall) :
    waitvRead s b f = finish s b .CQ f.idx .timeout := if_pos (waitvLate_iff.2 h)

/-! ### WAITT (R48, R111) -/

/-- A waiting WAITT whose strobe is not due yet stays as it is. -/
theorem waittStrobe_endsOrWaits (h : waitingCmd s b 0x62 = some f) :
    EndsOrWaits b .CQ f (f.cmd.w1.toNat ≤ s.tim.hall + eventBound s) s (waittStrobe s b) := by
  obtain ⟨hm, hs, hd⟩ := waitingCmd_spec h
  unfold waittStrobe
  rw [h]
  dsimp only
  split
  case isTrue hp =>
    exact ⟨fun _ => finished_finish hm hd s.decoded .ok, fun hn => absurd hp hn, onlyInFlight_updInFl s s.decoded ..⟩
  case isFalse hp =>
    exact ⟨fun h => absurd h hp, fun _ => ⟨f, hm, rfl, rfl, hs, hd⟩, ⟨rfl, fun _ _ => rfl, rfl, fun _ _ => rfl, rfl⟩⟩

/-! ### EPOCHWAIT and QUIESCE (R252) -/

/-- The command that a HEDGE row takes: the next one where none waits, or the one that waits. -/
theorem hedgeEngine_run {op : Nat} (ho : hedgeOp f.cmd = op) (run : State → InFl → State)
    (h : (nextStart s b .CQ = some f ∧ f.cmd.opcode = 0x64) ∧ waitingCmd s b 0x64 = none ∨
      waitingCmd s b 0x64 = some f) :
    f ∈ (s.q b .CQ).inflight ∧ hedgeEngine s b op run = run s f := by
  rcases h with ⟨⟨hn, hc⟩, hw⟩ | hw
  · refine ⟨nextStart_mem hn, ?_⟩
    rw [hedgeEngine, hw]
    exact (engine_run hn hc _).trans (if_pos ho)
  · refine ⟨(waitingCmd_spec hw).1, ?_⟩
    rw [hedgeEngine, hw]
    exact if_pos ho

theorem epochRun_eq {h : Hedge} (hh : hedgeOf s (fld f.cmd.w1 0 16) = some h) :
    epochRun s b f = if f.cmd.w2.toNat ≤ h.epoch.toNat then finish s b .CQ f.idx .ok else taken s b .CQ f := by
  rw [epochRun, hh]
  rfl

theorem hedgeBusy_false_iff (s : State) (id : Nat) : hedgeBusy s id = false ↔
    (∀ p ∈ s.fab.pairs, ∀ o ∈ p.2.unacked, o.frame.hdr.hedgeId.toNat ≠ id) ∧ ∀ a ∈ s.fab.awaiting, a.hedge ≠ id := by
  simp [hedgeBusy]

theorem quiesceRun_eq (s : State) (b : Blk) (f : InFl) : quiesceRun s b f =
    if hedgeBusy s (fld f.cmd.w1 0 16) = false then finish s b .CQ f.idx .ok else taken s b .CQ f := by
  unfold quiesceRun
  cases hedgeBusy s (fld f.cmd.w1 0 16) <;> rfl

end

/-- Settles O28: each row takes the command up or finds it waiting, and ends it where its condition holds. -/
theorem waitsCompleteOrWait : Obligations.WaitsCompleteOrWait := by
  unfold Obligations.WaitsCompleteOrWait
  intro s b f hl hd fresh again ends word test hedge late expires
  have ended {i : Instr} {p : Prop} {t : State} (e : exec i s = .next t) (h : EndsOrWaits b .CQ f p s t) : ends i p :=
    ⟨t, e, h.ends, h.waits, h.only⟩
  have expired {i : Instr} (hm : f ∈ (s.q b .CQ).inflight) (e : exec i s = .next (finish s b .CQ f.idx .timeout)) :
      expires i := ⟨_, e, finished_finish hm hd s.decoded .timeout, onlyInFlight_updInFl s s.decoded ..⟩
  refine ⟨fun hf => ?waitv, fun ha => ?reread, fun hf => ?waitt, fun ha => ended rfl (waittStrobe_endsOrWaits ha),
    fun hw => ?hedge⟩
  case waitv =>
    obtain ⟨hn, ho⟩ := hf
    have hm := nextStart_mem hn
    have e : exec (.waitv b) s = .next (waitvRead s b f) := congrArg Host.Outcome.next (engine_run hn ho _)
    exact ⟨fun h => ended e (waitvRead_early hl hm hd h),
      fun h => expired hm (e.trans (congrArg Host.Outcome.next (waitvRead_late h)))⟩
  case reread =>
    have hm := (waitingCmd_spec ha).1
    have e : exec (.waitvReread b) s = .next (waitvRead s b f) := congrArg Host.Outcome.next <| by
      rw [waitvAgain, ha]
    have x (h : late) : exec (.waitvTimeout b) s = .next (finish s b .CQ f.idx .timeout) := congrArg Host.Outcome.next <| by
      rw [waitvExpire, ha]
      exact if_pos (waitvLate_iff.2 h)
    exact ⟨fun h => ended e (waitvRead_early hl hm hd h),
      fun h => ⟨expired hm (e.trans (congrArg Host.Outcome.next (waitvRead_late h))), expired hm (x h)⟩⟩
  case waitt =>
    obtain ⟨hn, ho⟩ := hf
    exact ended (congrArg Host.Outcome.next (engine_run hn ho _)) (endsOrWaits_ite (nextStart_mem hn) hd s.decoded _)
  case hedge =>
    refine ⟨fun ho h hh => ?epoch, fun ho => ?quiesce⟩
    case epoch =>
      obtain ⟨hm, e⟩ := hedgeEngine_run ho (fun s f => epochRun s b f) hw
      exact ended (congrArg Host.Outcome.next (e.trans (epochRun_eq hh))) (endsOrWaits_ite hm hd s.decoded _)
    case quiesce =>
      obtain ⟨hm, e⟩ := hedgeEngine_run ho (fun s f => quiesceRun s b f) hw
      exact ended (congrArg Host.Outcome.next (e.trans (quiesceRun_eq ..)))
        ((endsOrWaits_ite hm hd s.decoded _).congr (hedgeBusy_false_iff s _))

end Sys2Proof.Laws
end


-- ==== Ratom ====
section
/-!
O25: RATOM sends its requests as ATOMIC frames (09 R244, 02 R49; log 57).
-/
namespace Sys2Proof.Laws

open Sys2Proof.Machine

/-! ### DATA frames join the end of those that wait for a slot -/

/-- A DATA frame as it waits for its slot. -/
def dataOut (s : State) (org : Origin) (pri : Nat) (a : FrameArgs) : OutFrame :=
  { frame := mkFrame s { a with opArg := epochArg s a.hedge }, org := org, pri := pri }

/-- A node with more frames that wait for a slot. -/
def withReady (s : State) (l : List OutFrame) : State := { s with fab := { s.fab with ready := s.fab.ready ++ l } }

theorem withReady_nil (s : State) : withReady s [] = s := by
  unfold withReady
  rw [List.append_nil]

theorem withReady_withReady (s : State) (l k : List OutFrame) : withReady (withReady s l) k = withReady s (l ++ k) := by
  unfold withReady
  rw [List.append_assoc]

/-- Frames that do not depend on those that wait, sent one after the other, wait in that order. -/
theorem foldl_enqueue {α : Type} (o : State → α → OutFrame) (h : ∀ s l r, o (withReady s l) r = o s r) (l : List α)
    (s : State) : l.foldl (fun u r => enqueue u (o u r)) s = withReady s (l.map (o s)) := by
  induction l generalizing s with
  | nil => exact (withReady_nil s).symm
  | cons r l ih =>
    have same : o (withReady s [o s r]) = o s := funext (h s _)
    rw [List.foldl_cons, show enqueue s (o s r) = withReady s [o s r] from rfl, ih, same, withReady_withReady,
      List.map_cons, List.singleton_append]

/-- DATA frames sent one after the other wait in that order. -/
theorem foldl_sendData {α : Type} (org : α → Origin) (pri : Nat) (a : α → FrameArgs) (l : List α) (s : State) :
    l.foldl (fun u r => sendData u (org r) pri (a r)) s = withReady s (l.map fun r => dataOut s (org r) pri (a r)) :=
  foldl_enqueue (fun u r => dataOut u (org r) pri (a r)) (fun _ _ _ => rfl) l s

/-! ### RATOM -/

variable {s : State} {b : Blk} {f : InFl}

/-- The requests that a RATOM sends. -/
def ratomSends (s : State) (f : InFl) : List SReq :=
  if (opnd! s f 1).empty then [] else ratomReqs s f ((opnd! s f 2).raws s)

/-- What the ATOMIC frame of a request carries. -/
def atomicArgs (s : State) (f : InFl) (r : SReq) : FrameArgs :=
  let d := opnd! s f 1
  { opcode := oAtomic, dst := r.node, hedge := remoteHedge s d, offset := r.far, subop := fld f.cmd.w4 0 8
    fmt := fmtCode s f.cmd.w1, rnd := d.ncw.rnd, last := r.last, olds := (refIdx f.cmd.w3).isSome, data := r.data }

/-- The state after a RATOM's frames have joined those that wait, the lines of its operands decoded. -/
def ratomSent (s : State) (b : Blk) (f : InFl) : State :=
  withReady (countReads s (opnd! s f 2).runs)
    ((ratomSends s f).map fun r => dataOut s (.cmd b .OQ f.idx r.no) 6 (atomicArgs s f r))

/-- A RATOM with its requests sent: it waits for as many responses, or is finished where it has none. -/
def ratomWaits (l : List SReq) (y : InFl) : InFl :=
  if l.isEmpty then { y with started := true, done := some .ok } else { y with started := true, waiting := l.length }

theorem ratomRun_clean (hl : s.lineFault = []) :
    ratomRun s b f = updInFl (ratomSent s b f) b .OQ f.idx (ratomWaits (ratomSends s f)) := by
  unfold ratomRun ratomWaits
  dsimp only
  rw [withTouch_clean hl, foldl_sendData]
  show (if (ratomSends s f).isEmpty then finish (ratomSent s b f) b .OQ f.idx .ok else _) = _
  split <;> rfl

/-- Changing a command in flight leaves every stream context. -/
theorem ctx_of_onlyInFlight {q : Qc} {t : State} (h : Safety.OnlyInFlight b q s t) (a : Blk) (n : Nat) :
    t.ctx a n = s.ctx a n := by
  by_cases e : a = b
  · subst e
    rw [State.ctx, h.block, State.ctx]
    rfl
  · rw [State.ctx, h.others a e, State.ctx]

/-- Settles O25: the frames join those that wait, and the command in flight waits or is finished. -/
theorem ratomSendsItsRequests : Obligations.RatomSendsItsRequests := by
  unfold Obligations.RatomSendsItsRequests
  intro s b f hl hn hd ho d reqs frame
  have e : exec (.ratom b) s = .next (ratomRun s b f) := congrArg Host.Outcome.next (engine_run hn ho _)
  rw [ratomRun_clean hl] at e
  let u := withReady s ((ratomSends s f).map fun r => dataOut s (.cmd b .OQ f.idx r.no) 6 (atomicArgs s f r))
  let lines := (countReads s (opnd! s f 2).runs).decoded
  have only := onlyInFlight_updInFl u lines b .OQ f.idx (ratomWaits reqs)
  have mem : ratomWaits reqs f ∈ _ := mem_updInFl (s := u) (nextStart_mem hn) hd lines (ratomWaits reqs)
  refine ⟨_, e, fun hr => ?none, fun hr => ?some, only.queues, only.others, fun n => ctx_of_onlyInFlight only b n, rfl⟩
  case none =>
    have finished : ratomWaits reqs f = { f with started := true, done := some .ok } := if_pos (List.isEmpty_iff.2 hr)
    refine ⟨⟨_, mem, ?_⟩, ?_⟩
    · rw [finished]
      exact ⟨rfl, rfl, rfl⟩
    · show (withReady s (reqs.map _)).fab = s.fab
      rw [hr, List.map_nil, withReady_nil]
  case some =>
    have waits : ratomWaits reqs f = { f with started := true, waiting := reqs.length } :=
      if_neg (mt List.isEmpty_iff.1 hr)
    refine ⟨⟨_, mem, ?_⟩, rfl⟩
    rw [waits]
    exact ⟨rfl, rfl, rfl, hd, rfl⟩

end Sys2Proof.Laws
end


-- ==== Launch ====
section
/-!
O38: the two-phase launch and the COMMIT of a lay (09 R258 to R262; logs 9, 33).
-/
namespace Sys2Proof.Laws

open Sys2Proof.Machine

variable {s : State}

/-! ### CONTROL frames and the PREPARE held -/

/-- A CONTROL frame as it waits for its slot. -/
def ctlOut (s : State) (dst : NodeId) (op : Byte) (subop arg off : Nat) (bs : List Byte) : OutFrame :=
  { frame := mkFrame s { type := tControl, opcode := op, dst := dst, subop := subop, opArg := arg, offset := off
                         last := true, data := bs }
    pri := 5 }

/-- PREPARE to some nodes in a tree. -/
def prepareOuts (s : State) (m : PrepMsg) (tree : Tree) (l : List NodeId) : List OutFrame :=
  l.map fun n => ctlOut s n oPrepare (treeBit tree) 0 0 (prepBytes m)

/-- COMMIT to this node's children in both trees. -/
def commitOuts (s : State) (m : PrepMsg) : List OutFrame :=
  (kids s m .A ++ kids s m .B).map fun n => ctlOut s n oCommit 0 0 0 (leBytes 8 m.launchId.toNat)

/-- The acknowledgement of this node's subtree to a parent. -/
def ackOut (s : State) (h : Held) (tree : Tree) (own : Status) (p : NodeId) : OutFrame :=
  ctlOut s p oPrepareAck (treeBit tree) (subtreeAck s h tree own).1.toNat (subtreeAck s h tree own).2
    (leBytes 8 h.msg.launchId.toNat)

/-- A node that holds a PREPARE, with more frames that wait for a slot. -/
def holding (s : State) (h : Held) (l : List OutFrame) : State :=
  { s with job := { s.job with prep := some h }, fab := { s.fab with ready := s.fab.ready ++ l } }

theorem holding_self {h : Held} (hp : s.job.prep = some h) : holding s h [] = s := by
  unfold holding
  rw [List.append_nil, ← hp]

theorem sendCtl_holding (h : Held) (l : List OutFrame) (dst : NodeId) (op : Byte) (subop arg off : Nat) (bs : List Byte) :
    sendCtl (holding s h l) dst op subop arg off bs = holding s h (l ++ [ctlOut s dst op subop arg off bs]) := by
  unfold holding
  rw [← List.append_assoc]
  rfl

theorem withReady_holding (h : Held) (l k : List OutFrame) : withReady (holding s h l) k = holding s h (l ++ k) := by
  unfold withReady holding
  rw [← List.append_assoc]

theorem sendPrepare_holding (h : Held) (l : List OutFrame) (m : PrepMsg) (tree : Tree) (k : List NodeId) :
    sendPrepare (holding s h l) m tree k = holding s h (l ++ prepareOuts s m tree k) :=
  (foldl_enqueue (fun u n => ctlOut u n oPrepare (treeBit tree) 0 0 (prepBytes m)) (fun _ _ _ => rfl) k _).trans
    (withReady_holding ..)

theorem sendCommit_holding (h : Held) (l : List OutFrame) (m : PrepMsg) :
    sendCommit (holding s h l) m = holding s h (l ++ commitOuts s m) :=
  (foldl_enqueue (fun u n => ctlOut u n oCommit 0 0 0 (leBytes 8 m.launchId.toNat)) (fun _ _ _ => rfl) _ _).trans
    (withReady_holding ..)

theorem updPrep_holding (h : Held) (l : List OutFrame) (f : Held → Held) :
    updPrep (holding s h l) f = holding s (f h) l := rfl

/-! What a node reads of a launch depends neither on the PREPARE it holds nor on the frames that wait. -/

theorem kids_holding (h : Held) (l : List OutFrame) : kids (holding s h l) = kids s := rfl
theorem kidsAcked_holding (h : Held) (l : List OutFrame) : kidsAcked (holding s h l) = kidsAcked s := rfl
theorem ownAck_holding (h : Held) (l : List OutFrame) : ownAck (holding s h l) = ownAck s := rfl

/-! ### Acknowledging (R260) -/

/-- A PREPARE that this node has acknowledged in a tree. -/
def acknowledged (h : Held) : Tree → Held
  | .A => { h with ackedA := true }
  | .B => { h with ackedB := true }

theorem sendAck_holding {h : Held} {tree : Tree} {p : NodeId} (hp : h.parent tree = some p) (l : List OutFrame)
    (own : Status) : sendAck (holding s h l) tree own = holding s (acknowledged h tree) (l ++ [ackOut s h tree own p]) := by
  have bound : ((holding s h l).job.prep.bind fun h => (h.parent tree).map fun p => (h, p)) = some (h, p) := by
    show (h.parent tree).map _ = _
    rw [hp]
    rfl
  unfold sendAck
  rw [bound]
  dsimp only
  rw [sendCtl_holding]
  cases tree <;> rfl

/-- A ready node with children that have not all answered waits. -/
theorem tryAck_waits {h : Held} {tree : Tree} (ho : ownAck s h = .ok) (hk : kidsAcked s h tree = false)
    (l : List OutFrame) : tryAck (holding s h l) tree = holding s h l := by
  unfold tryAck
  show ite _ _ _ = _
  split
  case isTrue => rfl
  case isFalse => 
    rw [ownAck_holding, if_neg (not_not.2 ho), kidsAcked_holding, if_neg (Bool.eq_false_iff.1 hk)]

/-- A node acknowledges at once when it is not ready, and else when its children have. -/
theorem tryAck_sends {h : Held} {tree : Tree} {p : NodeId} (ha : h.acked tree = false) (hp : h.parent tree = some p)
    (ho : ownAck s h ≠ .ok ∨ kidsAcked s h tree = true) (l : List OutFrame) :
    tryAck (holding s h l) tree = holding s (acknowledged h tree) (l ++ [ackOut s h tree (ownAck s h) p]) := by
  have may : ¬(h.acked tree = true ∨ (h.parent tree).isNone = true) := by simp [ha, hp]
  unfold tryAck
  refine (if_neg may).trans ?_
  rw [ownAck_holding, kidsAcked_holding]
  by_cases e : ownAck s h = .ok
  · rw [if_neg (not_not.2 e), if_pos (ho.resolve_left (not_not.2 e)), sendAck_holding hp, e]
  · rw [if_pos e, sendAck_holding hp]

/-! ### Receipt (02 R64, R68) -/

/-- A CONTROL frame that a node takes from a source on a line it decrypts, not in quarantine. -/
theorem fromNode_heard (hc : takesCtl s = true) {src : NodeId}
    (hs : mayDecrypt s (lineTo s src) = true ∧ (s.pair src).quarantined = false) (run : State → State) :
    fromNode s src run = run s := by
  simp [fromNode, hc, hs.1, hs.2]

/-- A PREPARE as it is first held, from its parent in a tree. -/
def firstHeld (s : State) (p : PrepMsg) (tree : Tree) (src : NodeId) : Held :=
  { msg := p, lastSend := s.tim.now
    parentA := if tree = .A then some src else none, parentB := if tree = .B then some src else none }

theorem firstHeld_acked (s : State) (p : PrepMsg) (tree : Tree) (src : NodeId) :
    (firstHeld s p tree src).acked tree = false := by
  cases tree <;> rfl

theorem firstHeld_parent (s : State) (p : PrepMsg) (tree : Tree) (src : NodeId) :
    (firstHeld s p tree src).parent tree = some src := by
  cases tree <;> rfl

/-- Of a PREPARE that has just come the node acknowledges what it is ready for. -/
theorem ownAck_firstHeld (s : State) (p : PrepMsg) (tree : Tree) (src : NodeId) :
    ownAck s (firstHeld s p tree src) = if launchReady s p then .ok else .state := rfl

theorem kidsAcked_firstHeld (s : State) (p : PrepMsg) (tree : Tree) (src : NodeId) :
    kidsAcked s (firstHeld s p tree src) tree = true ↔ kids s p tree = [] := by
  have none_acks (n : NodeId) : (firstHeld s p tree src).ackOf tree n = none := rfl
  unfold kidsAcked
  show (kids s p tree).all _ = true ↔ _
  cases kids s p tree <;> simp [none_acks]

/-- With no child heard the acknowledgement counts this node alone. -/
theorem subtreeAck_firstHeld (s : State) (p : PrepMsg) (tree : Tree) (src : NodeId) :
    subtreeAck s (firstHeld s p tree src) tree (if launchReady s p then .ok else .state) =
      (BitVec.ofNat 8 (if launchReady s p then 0 else Status.state.code), 1) := by
  have none_acks (n : NodeId) : (firstHeld s p tree src).ackOf tree n = none := rfl
  have unheard : ((kids s p tree).filterMap fun n => (firstHeld s p tree src).ackOf tree n) = [] := by
    simp [none_acks]
  unfold subtreeAck
  show (_, _) = _
  rw [show (firstHeld s p tree src).msg = p from rfl, unheard]
  cases launchReady s p <;> rfl

/-- The first PREPARE of a launch is held and forwarded before it is acknowledged. -/
theorem exec_prepare_first (hc : takesCtl s = true) {src : NodeId}
    (hs : mayDecrypt s (lineTo s src) = true ∧ (s.pair src).quarantined = false) (hp : s.job.prep = none) (tree : Tree)
    (p : PrepMsg) : exec (.prepare src tree p) s =
      .next (tryAck (holding s (firstHeld s p tree src) (prepareOuts s p tree (kids s p tree))) tree) := by
  let u : State := { s with job := { s.job with prep := some { msg := p, lastSend := s.tim.now } } }
  have held : updPrep u (fun x => match tree with
      | .A => { x with parentA := some src }
      | .B => { x with parentB := some src }) = holding s (firstHeld s p tree src) [] := by
    unfold holding
    rw [List.append_nil]
    cases tree <;> rfl
  have forwarded := congrArg (fun u => tryAck (sendPrepare u p tree (kids u p tree)) tree) held
  rw [kids_holding, sendPrepare_holding, List.nil_append] at forwarded
  refine congrArg Host.Outcome.next ((fromNode_heard hc hs _).trans (Eq.trans ?_ forwarded))
  dsimp only
  rw [hp]
  cases tree <;> rfl

/-- What the first PREPARE of a launch leaves: acknowledged at once where the node is not ready or has no children. -/
theorem exec_prepare_sends (hc : takesCtl s = true) {src : NodeId}
    (hs : mayDecrypt s (lineTo s src) = true ∧ (s.pair src).quarantined = false) (hp : s.job.prep = none) (tree : Tree)
    (p : PrepMsg) :
    let now := launchReady s p = false ∨ kids s p tree = []
    exec (.prepare src tree p) s = .next (holding s
      { firstHeld s p tree src with ackedA := decide (now ∧ tree = .A), ackedB := decide (now ∧ tree = .B) }
      (prepareOuts s p tree (kids s p tree) ++ if now then [ctlOut s src oPrepareAck (treeBit tree)
        (if launchReady s p then 0 else Status.state.code) 1 (leBytes 8 p.launchId.toNat)] else [])) := by
  intro now
  refine (exec_prepare_first hc hs hp tree p).trans (congrArg Host.Outcome.next ?_)
  have own_ok : ownAck s (firstHeld s p tree src) = .ok ↔ launchReady s p = true := by
    rw [ownAck_firstHeld]
    cases launchReady s p <;> simp
  by_cases hn : now
  · have due : ownAck s (firstHeld s p tree src) ≠ .ok ∨ kidsAcked s (firstHeld s p tree src) tree = true :=
      hn.imp (fun h e => absurd (own_ok.1 e) (Bool.eq_false_iff.1 h)) (kidsAcked_firstHeld ..).2
    rw [tryAck_sends (firstHeld_acked ..) (firstHeld_parent ..) due, if_pos hn]
    have ack : ackOut s (firstHeld s p tree src) tree (ownAck s (firstHeld s p tree src)) src =
        ctlOut s src oPrepareAck (treeBit tree) (if launchReady s p then 0 else Status.state.code) 1
          (leBytes 8 p.launchId.toNat) := by
      unfold ackOut
      rw [ownAck_firstHeld, subtreeAck_firstHeld]
      cases launchReady s p <;> rfl
    rw [ack]
    cases tree <;> simp [hn, acknowledged, firstHeld]
  · have wait : ownAck s (firstHeld s p tree src) = .ok ∧ kidsAcked s (firstHeld s p tree src) tree = false := by
      obtain ⟨hr, hk⟩ := not_or.1 hn
      exact ⟨own_ok.2 (by simpa using hr), Bool.eq_false_iff.2 (mt (kidsAcked_firstHeld ..).1 hk)⟩
    rw [tryAck_waits wait.1 wait.2, if_neg hn, List.append_nil]
    simp [hn, firstHeld]

/-! ### The rows of a PREPARE that is held (R260, R261) -/

section
variable {h : Held} (hp : s.job.prep = some h)
include hp

theorem updPrep_eq (f : Held → Held) : updPrep s f = holding s (f h) [] := by
  unfold updPrep holding
  rw [hp, List.append_nil]
  rfl

theorem sendPrepare_eq (m : PrepMsg) (tree : Tree) (k : List NodeId) :
    sendPrepare s m tree k = holding s h (prepareOuts s m tree k) := by
  have e := sendPrepare_holding (s := s) h [] m tree k
  rwa [holding_self hp, List.nil_append] at e

theorem sendCommit_eq (m : PrepMsg) : sendCommit s m = holding s h (commitOuts s m) := by
  have e := sendCommit_holding (s := s) h [] m
  rwa [holding_self hp, List.nil_append] at e

/-- PREPARE goes again to the silent children of each tree by which it came. -/
theorem exec_prepareResend_due (hc : takesCtl s = true) (ht : h.lastSend + 20_000 ≤ s.tim.now)
    (hx : s.tim.hall ≤ h.msg.expiry.toNat) (hn : h.committed = false) :
    exec .prepareResend s = .next (holding s { h with lastSend := s.tim.now } ([Tree.A, .B].flatMap fun tree =>
      if h.msg.root = nodeId s ∨ (h.parent tree).isSome = true
      then prepareOuts s h.msg tree ((kids s h.msg tree).filter fun n => (h.ackOf tree n).isNone) else [])) := by
  have step (l : List OutFrame) (tree : Tree) :
      (if h.msg.root == nodeId s || (h.parent tree).isSome then
        sendPrepare (holding s h l) h.msg tree ((kids s h.msg tree).filter fun n => (h.ackOf tree n).isNone)
      else holding s h l) = holding s h (l ++ if h.msg.root = nodeId s ∨ (h.parent tree).isSome = true
        then prepareOuts s h.msg tree ((kids s h.msg tree).filter fun n => (h.ackOf tree n).isNone) else []) := by
    simp only [Bool.or_eq_true, beq_iff_eq]
    split
    · exact sendPrepare_holding ..
    · rw [List.append_nil]
  have due : ¬(!takesCtl s || decide (s.tim.now < h.lastSend + 20_000) || decide (h.msg.expiry.toNat < s.tim.hall) ||
      h.committed) = true := by
    simp [hc, hn, Nat.not_lt.2 ht, Nat.not_lt.2 hx]
  refine congrArg Host.Outcome.next ?_
  rw [hp]
  refine (if_neg due).trans ?_
  dsimp only
  rw [List.foldl_cons, List.foldl_cons, List.foldl_nil]
  have sentA := step [] .A
  rw [holding_self hp] at sentA
  rw [sentA, step, updPrep_holding, List.nil_append]
  simp only [List.flatMap_cons, List.flatMap_nil, List.append_nil]

/-- A child's acknowledgement noted, in place of an earlier one. -/
def noted (h : Held) (tree : Tree) (src : NodeId) (st : Byte) (n : Nat) : Held :=
  { h with acks := (h.acks.filter fun a => !(a.1 == (treeBit tree == 0) && a.2.1 == src)) ++
             [(treeBit tree == 0, src, st, n)] }

/-- A child's acknowledgement is noted; the root then commits as soon as it may, and another node acknowledges. -/
theorem exec_prepareAck (hc : takesCtl s = true) {src : NodeId}
    (hs : mayDecrypt s (lineTo s src) = true ∧ (s.pair src).quarantined = false) {tree : Tree}
    (hk : src ∈ kids s h.msg tree) (st : Byte) (n : Nat) :
    exec (.prepareAck src tree h.msg.launchId st n) s = .next (if h.msg.root = nodeId s
      then tryCommit (holding s (noted h tree src st n) []) else tryAck (holding s (noted h tree src st n) []) tree) := by
  have mine : ¬(h.msg.launchId != h.msg.launchId || !(kids s h.msg tree).contains src) = true := by simp [hk]
  refine congrArg Host.Outcome.next ((fromNode_heard hc hs _).trans ?_)
  dsimp only
  rw [hp]
  refine (if_neg mine).trans ?_
  rw [updPrep_eq hp]
  rfl

/-- The last acknowledgement of a tree brings a ready node's own to its parent. -/
theorem exec_prepareAck_last (hc : takesCtl s = true) {src : NodeId}
    (hs : mayDecrypt s (lineTo s src) = true ∧ (s.pair src).quarantined = false) {tree : Tree}
    (hk : src ∈ kids s h.msg tree) {st : Byte} {n : Nat} (hr : h.msg.root ≠ nodeId s) (ho : ownAck s h = .ok)
    (ha : h.acked tree = false) {p : NodeId} (hl : kidsAcked s (noted h tree src st n) tree = true)
    (hpar : h.parent tree = some p) :
    let x := noted h tree src st n
    exec (.prepareAck src tree h.msg.launchId st n) s = .next (holding s
      { x with ackedA := x.ackedA || tree == .A, ackedB := x.ackedB || tree == .B } [ackOut s x tree .ok p]) := by
  intro x
  have own : ownAck s x = .ok := ho
  have both : acknowledged x tree = { x with ackedA := x.ackedA || tree == .A, ackedB := x.ackedB || tree == .B } := by
    cases tree <;> simp [acknowledged]
  have hx : x.acked tree = false ∧ x.parent tree = some p := by cases tree <;> exact ⟨ha, hpar⟩
  refine (exec_prepareAck hp hc hs hk st n).trans (congrArg Host.Outcome.next ((if_neg hr).trans ?_))
  rw [tryAck_sends hx.1 hx.2 (.inr hl), own, both, List.nil_append]

theorem exec_commitResend_due (hc : takesCtl s = true) (hr : h.msg.root = nodeId s) (hd : h.committed = true)
    (h3 : h.copies < 3) (hl : h.lastCopy + 2000 ≤ s.tim.now) :
    exec .commitResend s =
      .next (holding s { h with copies := h.copies + 1, lastCopy := s.tim.now } (commitOuts s h.msg)) := by
  have due : (takesCtl s && h.msg.root == nodeId s && h.committed && decide (h.copies < 3) &&
      decide (h.lastCopy + 2000 ≤ s.tim.now)) = true := by
    simp [hc, hr, hd, h3, hl]
  refine congrArg Host.Outcome.next ?_
  rw [hp]
  refine (if_pos due).trans ?_
  rw [sendCommit_eq hp, updPrep_holding]

/-- The first COMMIT from the root is forwarded and held; that of a lay is acted on. -/
theorem exec_commit_first (hc : takesCtl s = true)
    (hs : mayDecrypt s (lineTo s h.msg.root) = true ∧ (s.pair h.msg.root).quarantined = false)
    (hn : h.committed = false) (hx : s.tim.hall ≤ h.msg.expiry.toNat) :
    exec (.commit h.msg.root h.msg.launchId) s = .next (
      let t := holding s { h with committed := true } (commitOuts s h.msg)
      if h.msg.purpose = 1 then layNow t h.msg else t) := by
  have firstCopy : ¬(!(h.msg.root == h.msg.root || h.parentA == some h.msg.root || h.parentB == some h.msg.root ||
      (launchMembers s h.msg).contains h.msg.root) || h.msg.launchId != h.msg.launchId || h.committed ||
      decide (h.msg.expiry.toNat < s.tim.hall)) = true := by
    simp [hn, Nat.not_lt.2 hx]
  refine congrArg Host.Outcome.next ((fromNode_heard hc hs _).trans ?_)
  dsimp only
  rw [hp]
  refine (if_neg firstCopy).trans ?_
  rw [sendCommit_eq hp, updPrep_holding]

end

/-! ### The root commits (R261) -/

theorem tryCommit_waits {h : Held} (hf : fullyAcked s h = false) (l : List OutFrame) :
    tryCommit (holding s h l) = holding s h l :=
  if_neg fun e => absurd (e.2.2.2.2) (Bool.eq_false_iff.1 hf)

theorem tryCommit_sends {h : Held} (hr : h.msg.root = nodeId s) (hn : h.committed = false) (h0 : h.copies = 0)
    (hd : s.tim.hall ≤ h.msg.commitDeadline.toNat) (hf : fullyAcked s h = true) (hm : h.msg.purpose = 0)
    (l : List OutFrame) : tryCommit (holding s h l) =
      holding s { h with committed := true, copies := 1, lastCopy := s.tim.now } (l ++ commitOuts s h.msg) := by
  have launch : ¬h.msg.purpose = 1 := by rw [hm]; decide
  refine (if_pos ⟨hr, hn, h0, hd, hf⟩).trans ((if_neg launch).trans ?_)
  rw [sendCommit_holding, updPrep_holding]
  rfl

/-- Where hedge 0 has another member, a launch without acknowledgements is not committed. -/
theorem fullyAcked_unheard {h : Held} (ha : h.acks = []) (hm : 2 ≤ (launchMembers s h.msg).length) :
    fullyAcked s h = false := by
  have none_acks (tree : Tree) (n : NodeId) : h.ackOf tree n = none := by rw [Held.ackOf, ha]; rfl
  have count (tree : Tree) : (treeCount s h tree).1 = 0 := by
    unfold treeCount
    simp [none_acks]
  have few (tree : Tree) : treeCount s h tree ≠ ((launchMembers s h.msg).length - 1, true) := fun e => by
    have := (count tree).symm.trans (congrArg Prod.fst e)
    dsimp only at this
    omega
  simp [fullyAcked, few]

/-! ### LAUNCH (R259; log 9) -/

/-- The root of a launch that has begun: it holds the PREPARE and has sent it in both trees. -/
def launched (s : State) (m : PrepMsg) : State :=
  holding { s with job := { s.job with launches := s.job.launches + 1 } } { msg := m, lastSend := s.tim.now }
    (prepareOuts s m .A (kids s m .A) ++ prepareOuts s m .B (kids s m .B))

theorem launched_fab (s : State) (m : PrepMsg) : (launched s m).fab = { s.fab with
    ready := s.fab.ready ++ prepareOuts s m .A (kids s m .A) ++ prepareOuts s m .B (kids s m .B) } := by
  unfold launched holding
  rw [List.append_assoc]

theorem beginLaunch_eq {m : PrepMsg} (hm : 2 ≤ (launchMembers s m).length) : beginLaunch s m = launched s m := by
  let h : Held := { msg := m, lastSend := s.tim.now }
  let u : State := { s with job := { s.job with launches := s.job.launches + 1, prep := some h } }
  show tryCommit (sendPrepare (sendPrepare u m .A (kids s m .A)) m .B (kids s m .B)) = _
  rw [sendPrepare_eq (s := u) (h := h) rfl, sendPrepare_holding, tryCommit_waits (fullyAcked_unheard rfl (by exact hm))]
  rfl

theorem exec_launch (hb : Safety.Mailbox s) {root : W32} {go dl ex : W64} {arity : Byte} (ht : timesOk go dl ex arity = true)
    (hr : root.toNat = (nodeId s).toNat)
    (ha : hostAssisted s 7 = true ∨ ∀ n, s.ncr.launchRoot = some n → n = nodeId s) (hj : s.job.phase = .loaded)
    (hh : s.hold.state = .run) (hk : ∀ i, i < 12 → (s.stack i).state ≠ .failed) (hm : 2 ≤ (declared0 s).length) :
    let id := Config.launchIdOf (nodeId s) s.job.launches
    let m : PrepMsg :=
      { launchId := id, tGo := go, commitDeadline := dl, expiry := ex, root := nodeId s, arity := arity, purpose := 0
        epoch := 0, digest := (s.job.image.map Image.digest).getD [] }
    exec (.launch root go dl ex arity) s = .next (done (launched s m) .ok (leBytes 8 id.toNat)) := by
  intro id m
  have here : (root.toNat == (nodeId s).toNat && (hostAssisted s 7 || s.ncr.launchRoot.all (· == nodeId s))) = true := by
    simp only [hr, beq_self_eq_true, Bool.true_and, Bool.or_eq_true, Option.all_eq_true, beq_iff_eq]
    exact ha
  have whole : ((List.range 12).any fun i => (s.stack i).state == .failed) = false := by
    simpa using hk
  refine congrArg Host.Outcome.next ((mbx_taken hb ..).trans ?_)
  dsimp only
  rw [ht, here, whole, hj, hh]
  exact congrArg (fun t => done t .ok (leBytes 8 id.toNat)) (beginLaunch_eq (by exact hm))

/-! ### The COMMIT of a lay (R258) -/

/-- A hedge without its failed members, of a new epoch; one that has none stays as it is. -/
def laid (me : NodeId) (failed : List NodeId) (g : Hedge) : Hedge :=
  let rest := g.members.filter fun n => !failed.contains n
  if rest = g.members then g else { g with
    members := rest, rank := (rest.findIdx? (· == me)).getD 0, epoch := g.epoch + 1
    ordinal := 0, clears := [], landed := [] }

theorem laid_id (me : NodeId) (failed : List NodeId) (g : Hedge) : (laid me failed g).id = g.id := by
  unfold laid
  dsimp only
  split <;> rfl

/-- A node on which no operation of a hedge is under way: no pair, no response awaited, no command in flight, and
CONTROL frames alone to send. -/
structure HedgesIdle (s : State) : Prop where
  pairs : s.fab.pairs = []
  awaiting : s.fab.awaiting = []
  inflight : ∀ b q, (s.q b q).inflight = []
  control : ∀ o ∈ s.fab.ready, o.frame.hdr.type ≠ tData ∧ o.frame.hdr.hedgeId = 0xFFFF

theorem abortFrames_idle (hi : HedgesIdle s) (id : Nat) : abortFrames s id = s := by
  have ready : s.fab.ready.filter (fun o => !(o.frame.hdr.hedgeId.toNat == id && o.frame.hdr.type == tData &&
      o.frame.hdr.src == nodeId s)) = s.fab.ready :=
    List.filter_eq_self.2 fun o ho => by simp [(hi.control o ho).1]
  have pairs (f : Nat → Pair → Pair) : s.fab.pairs.mapV {} f = s.fab.pairs := by
    rw [hi.pairs]
    rfl
  have awaiting (f : Await → Bool) : s.fab.awaiting.filter f = s.fab.awaiting := by
    rw [hi.awaiting]
    rfl
  unfold abortFrames
  dsimp only
  rw [ready, pairs, awaiting]

/-- With no operation of it under way a hedge loses nothing. -/
theorem abortHedge_idle (hi : HedgesIdle s) {id : Nat} (h : id < 4096) : abortHedge s id = s := by
  have outs : (s.fab.ready ++ s.fab.pairs.flatMap fun e => e.2.unacked).filter
      (fun o => o.frame.hdr.hedgeId.toNat == id && o.frame.hdr.src == nodeId s) = [] := by
    rw [hi.pairs, List.flatMap_nil, List.append_nil]
    refine List.filter_eq_nil_iff.2 fun o ho => ?_
    have hedge : o.frame.hdr.hedgeId.toNat = 65535 := by rw [(hi.control o ho).2]; rfl
    simp only [hedge, Bool.and_eq_true, beq_iff_eq]
    omega
  have awaited : s.fab.awaiting.filter (fun a => a.hedge == id) = [] := by
    rw [hi.awaiting]
    rfl
  have still (t : State) (b : Blk) (ht : t = s) : [Qc.IQ, .OQ, .CQ].foldl (fun u q => (u.q b q).inflight.foldl
      (fun v f => if f.done.isNone && onHedge s f id then abortInFl b q v f else v) u) t = s := by
    rw [ht]
    simp only [List.foldl_cons, List.foldl_nil, hi.inflight]
  have none_aborted (l : List Blk) : l.foldl (fun t b => [Qc.IQ, .OQ, .CQ].foldl (fun u q => (u.q b q).inflight.foldl
      (fun v f => if f.done.isNone && onHedge s f id then abortInFl b q v f else v) u) t) s = s := by
    induction l with
    | nil => rfl
    | cons b l ih => rw [List.foldl_cons, still s b rfl, ih]
  unfold abortHedge
  dsimp only
  rw [outs, awaited, abortFrames_idle hi, none_aborted]
  rfl

/-- The hedge table of a node changes. -/
def withHedges (s : State) (l : List Hedge) : State := { s with job := { s.job with hedges := l } }

/-- One hedge of an idle node loses its failed members. -/
theorem layHedge_idle (hi : HedgesIdle s) (failed : List NodeId) (nd : (s.job.hedges.map Hedge.id).Nodup) {g : Hedge}
    (hg : g ∈ s.job.hedges) (hid : g.id < 4096) (hs : g.state ≠ 1) :
    layHedge failed s g =
      withHedges s (s.job.hedges.map fun h => if h.id = g.id then laid (nodeId s) failed h else h) := by
  have same {h : Hedge} (hh : h ∈ s.job.hedges) (e : h.id = g.id) : h = g := List.inj_on_of_nodup_map nd hh hg e
  have whole : (g.members.all fun n => !failed.contains n) = true ↔
      (g.members.filter fun n => !failed.contains n) = g.members := by
    rw [List.all_eq_true, List.filter_eq_self]
  unfold layHedge
  dsimp only
  split
  case isTrue h =>
    have stays : (s.job.hedges.map fun h => if h.id = g.id then laid (nodeId s) failed h else h) = s.job.hedges := by
      refine (List.map_congr_left fun x hx => ?_).trans (List.map_id _)
      split
      case isTrue e =>
        rw [same hx e]
        exact if_pos (whole.1 h)
      case isFalse => rfl
    rw [stays]
    rfl
  case isFalse h =>
    rw [abortHedge_idle hi hid]
    refine congrArg (withHedges s) (List.map_congr_left fun x hx => ?_)
    by_cases e : x.id = g.id
    · rw [same hx e, if_pos (beq_self_eq_true _), if_pos rfl]
      exact (if_neg (mt whole.2 h)).symm
    · rw [if_neg (by simpa using e), if_neg e]

theorem HedgesIdle.withHedges (hi : HedgesIdle s) (l : List Hedge) : HedgesIdle (withHedges s l) :=
  ⟨hi.pairs, hi.awaiting, hi.inflight, hi.control⟩

/-- The hedges of a list lose their failed members one after the other. -/
theorem layHedges_idle (failed : List NodeId) (l : List Hedge) (hi : HedgesIdle s)
    (nd : (s.job.hedges.map Hedge.id).Nodup) (hl : ∀ g ∈ l, g ∈ s.job.hedges ∧ g.id < 4096 ∧ g.state ≠ 1)
    (ndl : (l.map Hedge.id).Nodup) :
    l.foldl (layHedge failed) s = withHedges s (s.job.hedges.map fun h =>
      if h.id ∈ l.map Hedge.id then laid (nodeId s) failed h else h) := by
  induction l generalizing s with
  | nil => simp [withHedges]
  | cons g l ih =>
    obtain ⟨hg, hid, hs⟩ := hl g List.mem_cons_self
    obtain ⟨ng, ndl⟩ := List.nodup_cons.1 ndl
    rw [List.foldl_cons, layHedge_idle hi failed nd hg hid hs, ih (hi.withHedges _)]
    · refine congrArg (withHedges s) ?_
      show (s.job.hedges.map _).map _ = _
      rw [List.map_map]
      refine List.map_congr_left fun x _ => ?_
      by_cases e : x.id = g.id
      · have out : (laid (nodeId s) failed x).id ∉ l.map Hedge.id := by rwa [laid_id, e]
        simp only [Function.comp, if_pos e]
        rw [if_neg out, if_pos (by rw [e]; exact List.mem_cons_self)]
      · simp only [Function.comp, List.map_cons, List.mem_cons, e, false_or]
        rfl
    · show ((s.job.hedges.map _).map _).Nodup
      rwa [List.map_map, show Hedge.id ∘ (fun h => if h.id = g.id then laid (nodeId s) failed h else h) = Hedge.id from
        funext fun x => by simp only [Function.comp]; split <;> simp only [laid_id]]
    · intro x hx
      obtain ⟨hm, hw⟩ := hl x (List.mem_cons_of_mem _ hx)
      have e : x.id ≠ g.id := fun e => ng (e ▸ List.mem_map_of_mem hx)
      exact ⟨List.mem_map.2 ⟨x, hm, if_neg e⟩, hw⟩
    · exact ndl

/-- The state of a survivor that has acted on the COMMIT of a lay. -/
theorem layNow_idle {m : PrepMsg} (hi : HedgesIdle s) (hf : nodeId s ∉ failedOf m)
    (nd : (s.job.hedges.map Hedge.id).Nodup) (hl : ∀ g ∈ s.job.hedges, g.id < 4096 ∧ g.state ≠ 1) :
    layNow s m = { s with job := { s.job with
      failedSet := (s.job.failedSet ++ failedOf m).eraseDups
      hedges := s.job.hedges.map (laid (nodeId s) (failedOf m)) } } := by
  have all : (s.job.hedges.map fun h => if h.id ∈ s.job.hedges.map Hedge.id then laid (nodeId s) (failedOf m) h else h) =
      s.job.hedges.map (laid (nodeId s) (failedOf m)) :=
    List.map_congr_left fun x hx => if_pos (List.mem_map_of_mem hx)
  have survivor : ¬(failedOf m).contains (nodeId s) = true := by simpa using hf
  refine (if_neg survivor).trans ?_
  dsimp only
  rw [layHedges_idle (failedOf m) s.job.hedges hi nd (fun g hg => ⟨hg, hl g hg⟩) nd, all]
  rfl

/-- A survivor's COMMIT of a lay, with nothing under way on its hedges. -/
theorem exec_commit_lay (hc : takesCtl s = true) {h : Held} (hp : s.job.prep = some h)
    (hs : mayDecrypt s (lineTo s h.msg.root) = true ∧ (s.pair h.msg.root).quarantined = false)
    (hn : h.committed = false) (hx : s.tim.hall ≤ h.msg.expiry.toNat) (hm : h.msg.purpose = 1)
    (hf : nodeId s ∉ failedOf h.msg) (hr : s.fab.ready = []) (pairs : s.fab.pairs = []) (awaiting : s.fab.awaiting = [])
    (inflight : ∀ b q, (s.q b q).inflight = []) (nd : (s.job.hedges.map Hedge.id).Nodup)
    (hl : ∀ g ∈ s.job.hedges, g.id < 4096 ∧ g.state ≠ 1) :
    exec (.commit h.msg.root h.msg.launchId) s = .next { s with
      fab := { s.fab with ready := commitOuts s h.msg }
      job := { s.job with
        prep := some { h with committed := true }
        failedSet := (s.job.failedSet ++ failedOf h.msg).eraseDups
        hedges := s.job.hedges.map (laid (nodeId s) (failedOf h.msg)) } } := by
  let t : State := holding s { h with committed := true } (commitOuts s h.msg)
  have idle : HedgesIdle t := by
    refine ⟨pairs, awaiting, inflight, fun o ho => ?_⟩
    rcases List.mem_append.1 ho with ho | ho
    · rw [hr] at ho
      exact absurd ho List.not_mem_nil
    · obtain ⟨n, -, rfl⟩ := List.mem_map.1 ho
      exact ⟨show tControl ≠ tData by decide, rfl⟩
  refine (exec_commit_first hp hc hs hn hx).trans (congrArg Host.Outcome.next ((if_pos hm).trans ?_))
  rw [layNow_idle (s := t) idle hf nd hl]
  show { t with job := _ } = _
  rw [← List.nil_append (commitOuts s h.msg), ← hr]
  rfl

/-! ### COMMIT_DEADLINE and EXPIRY (R261, R262; log 33) -/

theorem exec_commitDeadline_failed {h : Held} (hp : s.job.prep = some h) (hr : h.msg.root = nodeId s)
    (hn : h.committed = false) (h0 : h.copies = 0) (hd : h.msg.commitDeadline.toNat ≤ s.tim.hall)
    (hf : fullyAcked s h = false) :
    exec .commitDeadline s =
      .next (reportMissing { s with job := { s.job with prep := some { h with copies := 3 } } } (missing s h)) := by
  have waits : tryCommit s = s := by
    have e := tryCommit_waits hf (s := s) []
    rwa [holding_self hp] at e
  refine congrArg Host.Outcome.next ?_
  rw [hp]
  refine (if_pos ⟨hr, hn, h0, hd⟩).trans ?_
  dsimp only
  rw [waits, hp]
  refine (if_neg (Bool.eq_false_iff.1 hn)).trans ?_
  rw [updPrep_eq hp, holding, List.append_nil]

theorem exec_expiry_void {h : Held} (hp : s.job.prep = some h) (hn : h.committed = false)
    (hx : h.msg.expiry.toNat ≤ s.tim.hall) :
    exec .expiry s = .next (record { s with job := { s.job with prep := none } } .launchNocommit
      { unitKind := 9, unit := 6, detail := detailD 0 0 0 h.msg.root.toNat (nodeId s).toNat 0 [] }) := by
  refine congrArg Host.Outcome.next ?_
  rw [hp]
  exact if_pos ⟨hn, hx⟩

/-- Settles O38: each row by the branch its premises choose. -/
theorem launchIsPreparedAndCommitted : Obligations.LaunchIsPreparedAndCommitted := by
  unfold Obligations.LaunchIsPreparedAndCommitted
  intro s ctl prepares commits sends
  refine ⟨fun root go dl ex arity hb ht hr ha hj hh hk hm => ?launch, ?_⟩
  case launch =>
    exact ⟨_, exec_launch hb ht hr ha hj hh hk hm, rfl, launched_fab .., rfl, rfl⟩
  intro heard
  refine ⟨fun hc => ⟨fun src tree p hs hp => ?prepare, fun h hp => ⟨fun ht hx hn => ?resend,
    fun src tree st n hs hk => ⟨fun hr ho ha => ?ack, fun hr hn h0 hd => ?ackRoot⟩, fun hr hd h3 hl => ?commits,
    fun hs hn hx => ?commit⟩⟩, fun h hp hn => ⟨fun hr h0 hd hf => ?deadline, fun hx => ?expiry⟩⟩
  case prepare => exact exec_prepare_sends hc hs hp tree p
  case resend => exact exec_prepareResend_due hp hc ht hx hn
  case ack =>
    have e := (exec_prepareAck hp hc hs hk st n).trans (congrArg Host.Outcome.next (if_neg hr))
    exact ⟨fun hw => e.trans (congrArg Host.Outcome.next (tryAck_waits (by exact ho) hw [])),
      fun p hl hpar => exec_prepareAck_last hp hc hs hk hr ho ha hl hpar⟩
  case ackRoot =>
    have e := (exec_prepareAck hp hc hs hk st n).trans (congrArg Host.Outcome.next (if_pos hr))
    exact ⟨fun hf => e.trans (congrArg Host.Outcome.next (tryCommit_waits hf [])),
      fun hf hm => e.trans (congrArg Host.Outcome.next
        (tryCommit_sends (h := noted h tree src st n) hr hn h0 hd hf hm []))⟩
  case commits => exact exec_commitResend_due hp hc hr hd h3 hl
  case commit =>
    refine ⟨fun hm => ?_, fun hm hf hr pairs awaiting inflight nd hl => ?_⟩
    · have launch : ¬h.msg.purpose = 1 := by rw [hm]; decide
      exact (exec_commit_first hp hc hs hn hx).trans (congrArg Host.Outcome.next (if_neg launch))
    · exact exec_commit_lay hc hp hs hn hx hm hf hr pairs awaiting inflight nd hl
  case deadline => exact exec_commitDeadline_failed hp hr hn h0 hd hf
  case expiry =>
    refine ⟨_, exec_expiry_void hp hn hx, ?_, recorded_record_above (by decide) _, ?_⟩
    · rw [record_job]
    · rw [record_frame]

end Sys2Proof.Laws
end


-- ==== Arrival ====
section
/-!
SUPPORT for O34 and O35. A frame that arrives and is the next of its pair: what is noted of it, and how it comes to take
effect (02 R57 to R64, 09 Table 09.3).
-/
namespace Sys2Proof.Laws

open Sys2Proof.Machine

variable {s : State} {f : Frame}

/-! ### The node hears a frame (R57, R64) -/

/-- A node whose notes of the fabric alone have changed: the slots heard, the pairs and the ports' associations. -/
def fabWith (s : State) (heard : List Nat) (pairs : SMap Pair) (ports : SMap Port) : State :=
  { s with fab := { s.fab with heard := heard, pairs := pairs, ports := ports } }

/-- The node once a frame's slot is heard, its source not silent, and its packet number noted. -/
def noticed (s : State) (f : Frame) : State := notePn (hearFrame s f) f

theorem hear_frame (s : State) (slot : Nat) (line : BitVec 4) :
    hear s slot line = fabWith s (hear s slot line).fab.heard s.fab.pairs s.fab.ports := by
  unfold hear
  split <;> rfl

theorem macGood_fabWith (s : State) (f : Frame) (h : List Nat) (p : SMap Pair) :
    macGood (fabWith s h p s.fab.ports) f = macGood s f := rfl

theorem linkOk_fabWith (s : State) (f : Frame) (h : List Nat) (p : SMap Pair) (r : SMap Port) :
    linkOk (fabWith s h p r) f = linkOk s f := rfl

theorem notePn_fabWith (s : State) (f : Frame) (h : List Nat) (p : SMap Pair) :
    notePn (fabWith s h p s.fab.ports) f = fabWith s h p (notePn s f).fab.ports := by
  unfold notePn
  rw [show rxAssoc (fabWith s h p s.fab.ports) f = rxAssoc s f from rfl]
  split <;> rfl

/-- What the checks of orders 1 to 4 leave of a frame: its header is whole, it is for this node, and its slot expects it. -/
theorem frontChecks_passed (h : frontChecks s f = none) :
    malformed s f = false ∧ f.hdr.dst = nodeId s ∧ slotOk s f = true := by
  unfold frontChecks at h
  split at h
  case isTrue => cases h
  case isFalse hm =>
    split at h
    case isTrue => cases h
    case isFalse =>
      split at h
      case isTrue => cases h
      case isFalse hd =>
        split at h
        case isTrue => cases h
        case isFalse hs => exact ⟨by simpa using hm, not_not.1 hd, by simpa using hs⟩

theorem check_of_passed (h : frontChecks s f = none) : f.hdr.check = headCheck f.hdr := by
  have hm := (frontChecks_passed h).1
  simp only [malformed, Bool.or_eq_false_iff, bne_eq_false_iff_eq] at hm
  exact hm.1.1.1.1

/-- Hearing a frame that arrives notes its slot, and that its source is not silent. -/
theorem hearFrame_eq (ha : Safety.Arrives s f) : hearFrame s f =
    fabWith s (hear s f.hdr.slot.toNat f.port).fab.heard
      (s.setPair f.hdr.src { s.pair f.hdr.src with empty := 0 }).fab.pairs s.fab.ports := by
  obtain ⟨-, -, hslot⟩ := frontChecks_passed ha.passes
  have trusted : (f.fcsOk && macGood s f && linkOk s f && f.hdr.check == headCheck f.hdr) = true := by
    simp [ha.fcs, ha.secured, ha.headers, check_of_passed ha.passes]
  unfold hearFrame
  dsimp only
  rw [trusted, hslot]
  show (hear s _ _).setPair _ { (hear s _ _).pair _ with empty := 0 } = _
  rw [hear_frame]
  rfl

/-- What is noted of a frame that arrives. -/
theorem noticed_eq (ha : Safety.Arrives s f) : ∃ heard pairs,
    noticed s f = fabWith s heard pairs (notePn s f).fab.ports ∧
    (noticed s f).pair f.hdr.src = { s.pair f.hdr.src with empty := 0 } ∧
    ∀ m, m ≠ f.hdr.src → (noticed s f).pair m = s.pair m := by
  let k : Pair := { s.pair f.hdr.src with empty := 0 }
  have noted : noticed s f = fabWith s (hear s f.hdr.slot.toNat f.port).fab.heard (s.setPair f.hdr.src k).fab.pairs
      (notePn s f).fab.ports := by
    unfold noticed
    rw [hearFrame_eq ha]
    exact notePn_fabWith s f _ _
  have get (m : NodeId) : (noticed s f).pair m = (s.setPair f.hdr.src k).pair m := by
    rw [noted]
    rfl
  exact ⟨_, _, noted, (get _).trans (pair_setPair ..), fun m hm => (get m).trans (pair_setPair_of_ne _ hm)⟩

/-! ### Collectives that are not under way wait for nothing -/

theorem collUnderWay_setPair (s : State) (n : NodeId) (k : Pair) (g : Nat) :
    collUnderWay (s.setPair n k) g = collUnderWay s g := rfl

theorem collAdvance_idle {hedge : Nat} (h : collUnderWay s hedge = none) : collAdvance collFuel s hedge = s := by
  rw [collFuel, collAdvance, h]

theorem collsAdvance_idle (h : ∀ g, collUnderWay s g = none) : collsAdvance s = s := by
  unfold collsAdvance
  generalize s.job.hedges = l
  induction l with
  | nil => rfl
  | cons g l ih => rw [List.foldl_cons, collAdvance_idle (h g.id), ih]

/-! ### The frame is judged (Table 09.3) -/

theorem etherType_of_linkOk (h : linkOk s f = true) : f.link.etherType = 0x86DD := by
  simp only [linkOk, Bool.and_eq_true, beq_iff_eq] at h
  exact h.1.1.1.1.1.1

/-- A frame of a source without quarantine that passes orders 1 to 4 at the node it is for is passed on. -/
theorem judgeFrame_passes (hp : frontChecks s f = none) (hq : (s.pair f.hdr.src).quarantined = false) :
    judgeFrame s f = collsAdvance (takeAck (passOn s f) f.hdr) := by
  have blame : blameOf s f = some f.hdr.src := if_pos (check_of_passed hp)
  have welcome : ((blameOf s f).filter fun n => (s.pair n).quarantined) = none := by
    rw [blame, Option.filter_some, if_neg (Bool.eq_false_iff.1 hq)]
  have here : forBin s f = none := if_neg fun h => h.2.1 (frontChecks_passed hp).2.1
  unfold judgeFrame
  dsimp only
  rw [welcome, here, hp]

/-- A frame that arrives is passed on; it carries no acknowledgement. -/
theorem receive_arrives (ha : Safety.Arrives s f) : receive s f = collsAdvance (passOn (noticed s f) f) := by
  obtain ⟨heard, pairs, noted, hsrc, -⟩ := noticed_eq ha
  have passes : frontChecks (noticed s f) f = none := by
    rw [noted]
    exact ha.passes
  have welcome : ((noticed s f).pair f.hdr.src).quarantined = false := by
    rw [hsrc]
    exact ha.welcome
  have ip : ¬(f.fcsOk && f.link.etherType != 0x86DD) = true := by
    simp [etherType_of_linkOk ha.headers]
  have serves : ¬(!s.tim.service && !inBest s f) = true := by simp [ha.service]
  have vouched : ¬(!f.fcsOk || !macGood (hearFrame s f) f) = true := by
    rw [hearFrame_eq ha, macGood_fabWith, ha.fcs, ha.secured]
    decide
  have headers : ¬(!linkOk (noticed s f) f) = true := by
    rw [noted, linkOk_fabWith, ha.headers]
    decide
  have bare : takeAck (passOn (noticed s f) f) f.hdr = passOn (noticed s f) f := by
    unfold takeAck
    rw [ha.bare.1, ha.bare.2]
    rfl
  refine (if_neg ip).trans ((if_neg serves).trans ((if_neg vouched).trans ((if_neg headers).trans ?_)))
  rw [← bare]
  exact judgeFrame_passes passes welcome

/-- The row of a frame's kind receives it on a node that is not halted. -/
theorem frameRow_arrives (ha : Safety.Arrives s f) {type : BitVec 4} {op : Byte} (ht : f.hdr.type = type)
    (ho : f.hdr.opcode = op) : frameRow type op f s = .next (collsAdvance (passOn (noticed s f) f)) := by
  have mine : (ofRow s f type op && s.host.node != .halted) = true := by
    simp [ofRow, ht, ho, ha.runs]
  exact congrArg Host.Outcome.next ((if_pos mine).trans (receive_arrives ha))

/-! ### Delivery of the next frame of a pair (R58, R59) -/

/-- With nothing held or passed over, delivery stops. -/
theorem drain_empty (apply : State → Frame → State) (n : Nat) {s : State} {src : NodeId} (hv : (s.pair src).void = [])
    (hh : (s.pair src).held = []) : drain apply n s src = s := by
  cases n with
  | zero => rfl
  | succ n =>
    unfold drain
    dsimp only
    rw [hv, hh]
    rfl

theorem dropStale_none {k : Pair} (h : k.naks = []) : dropStale k = k := by
  unfold dropStale
  rw [h, List.filter_nil, ← h]

theorem seqLt_self (q : W32) : seqLt q q = false := by simp [seqLt]

/-- A pair with its next number consumed, and nothing held. -/
def consumedPair (k : Pair) : Pair := { k with rxNext := k.rxNext + 1, held := [] }

/-- The node with the number of a frame consumed: the pair's next frame is awaited. -/
def consumed (s : State) (n : NodeId) (f : Frame) : State :=
  let u := s.setPair n { s.pair n with held := [f] }
  u.setPair n (consumedPair (u.pair n))

theorem pair_consumed (s : State) (n : NodeId) (f : Frame) : (consumed s n f).pair n = consumedPair (s.pair n) := by
  unfold consumed
  rw [pair_setPair, pair_setPair]
  rfl

theorem pair_consumed_of_ne {s : State} {m n : NodeId} (h : m ≠ n) (f : Frame) : (consumed s n f).pair m = s.pair m := by
  unfold consumed
  rw [pair_setPair_of_ne _ h, pair_setPair_of_ne _ h]

/-- A held frame that is the next takes effect, after which nothing more is held. -/
theorem drain_next (apply : State → Frame → State) (ho : Safety.InOrder s f)
    (he : collEarly (s.setPair f.hdr.src { s.pair f.hdr.src with held := [f] }) f.hdr = false)
    (hw : (apply (consumed s f.hdr.src f) f).pair f.hdr.src = consumedPair (s.pair f.hdr.src)) :
    drain apply 2 (s.setPair f.hdr.src { s.pair f.hdr.src with held := [f] }) f.hdr.src =
      apply (consumed s f.hdr.src f) f := by
  generalize hu : s.setPair f.hdr.src { s.pair f.hdr.src with held := [f] } = u at he
  have hk : u.pair f.hdr.src = { s.pair f.hdr.src with held := [f] } := by rw [← hu, pair_setPair]
  have void : (u.pair f.hdr.src).void = [] := by rw [hk]; exact ho.void
  have held : (u.pair f.hdr.src).held = [f] := by rw [hk]
  have next : f.hdr.seq = (u.pair f.hdr.src).rxNext := by rw [hk]; exact ho.next
  have find : (u.pair f.hdr.src).held.find? (fun x => x.hdr.seq == (u.pair f.hdr.src).rxNext) = some f := by
    simp [held, ← next]
  have rest : ((u.pair f.hdr.src).held.filter fun x => x.hdr.seq != (u.pair f.hdr.src).rxNext) = [] := by
    simp [held, ← next]
  have after : u.setPair f.hdr.src { u.pair f.hdr.src with
      rxNext := (u.pair f.hdr.src).rxNext + 1, held := (u.pair f.hdr.src).held.filter fun x =>
        x.hdr.seq != (u.pair f.hdr.src).rxNext } = consumed s f.hdr.src f := by
    rw [rest, consumed, hu]
    rfl
  have stop := drain_empty apply 1 (s := apply (consumed s f.hdr.src f) f) (src := f.hdr.src)
    (by rw [hw]; exact ho.void) (by rw [hw]; rfl)
  unfold drain
  dsimp only
  rw [find]
  dsimp only
  rw [he, after, stop, void]
  rfl

/-- The next frame of a pair takes effect on the node with its number consumed. -/
theorem deliver_next (apply : State → Frame → State) (ho : Safety.InOrder s f)
    (he : collEarly (s.setPair f.hdr.src { s.pair f.hdr.src with held := [f] }) f.hdr = false)
    (hw : (apply (consumed s f.hdr.src f) f).pair f.hdr.src = consumedPair (s.pair f.hdr.src)) :
    deliver apply s f = (apply (consumed s f.hdr.src f) f).setPair f.hdr.src (consumedPair (s.pair f.hdr.src)) := by
  have fresh : ¬(seqOld (s.pair f.hdr.src) f.hdr.seq || (s.pair f.hdr.src).void.contains f.hdr.seq ||
      ((s.pair f.hdr.src).held.any fun x => x.hdr.seq == f.hdr.seq)) = true := by
    simp [seqOld, ho.next, seqLt_self, ho.void, ho.held]
  have naks : (consumedPair (s.pair f.hdr.src)).naks = [] := ho.naks
  have fuel : ((s.setPair f.hdr.src { s.pair f.hdr.src with held := [f] }).pair f.hdr.src).held.length +
      ((s.setPair f.hdr.src { s.pair f.hdr.src with held := [f] }).pair f.hdr.src).void.length + 1 = 2 := by
    rw [pair_setPair, show ({ s.pair f.hdr.src with held := [f] } : Pair).void = [] from ho.void]
    rfl
  refine (if_neg fresh).trans ?_
  rw [ho.held, List.nil_append]
  unfold settlePair
  dsimp only
  rw [fuel, drain_next apply ho he hw, hw, dropStale_none naks]

/-! ### A row whose frame is the next of its pair -/

/-- Orders 5 to 9 let the next frame of a pair through where its job checks do. -/
theorem sequenced_next (apply : State → Frame → State) (ho : Safety.InOrder s f) (hj : jobChecks s f = none) :
    sequenced apply s f = deliver apply s f := by
  have fresh : ¬seqOld (s.pair f.hdr.src) f.hdr.seq = true := by simp [seqOld, ho.next, seqLt_self]
  have near : ¬(!seqIn (s.pair f.hdr.src) f.hdr.seq) = true := by simp [seqIn, ho.next]
  refine (if_neg fresh).trans ((if_neg near).trans ?_)
  rw [hj]

theorem passOn_sequenced (hf : f.hdr.type ≠ tFiller) (hb : f.hdr.type ≠ tBulk) :
    passOn s f = sequenced applyAny s f := (if_neg hf).trans (if_neg hb)

/-- The next BULK frame of a pair is delivered where its line checks hold. -/
theorem passOn_bulk (ho : Safety.InOrder s f) (ht : f.hdr.type = tBulk) (hl : linesOk f = true) :
    passOn s f = deliver applyAny s f := by
  have filler : ¬f.hdr.type = tFiller := by rw [ht]; decide
  have fresh : ¬seqOld (s.pair f.hdr.src) f.hdr.seq = true := by simp [seqOld, ho.next, seqLt_self]
  have near : ¬(!seqIn (s.pair f.hdr.src) f.hdr.seq) = true := by simp [seqIn, ho.next]
  have whole : ¬(!linesOk f) = true := by simp [hl]
  exact (if_neg filler).trans ((if_pos ht).trans ((if_neg fresh).trans ((if_neg near).trans (if_neg whole))))

/-- What stands of a node when the next frame of a pair comes to take effect: its number is consumed, its source not
silent, its slot and packet number noted. -/
structure Ready (s : State) (f : Frame) (u : State) : Prop where
  notes : ∃ heard pairs, u = fabWith s heard pairs (notePn s f).fab.ports
  pair : u.pair f.hdr.src = { s.pair f.hdr.src with rxNext := f.hdr.seq + 1, empty := 0 }
  others : ∀ m, m ≠ f.hdr.src → u.pair m = s.pair m

/-- The next frame of a pair, once passed on, takes effect on the node made ready for it. -/
theorem frameRow_next (ha : Safety.Arrives s f) (ho : Safety.InOrder s f) {type : BitVec 4} {op : Byte}
    (ht : f.hdr.type = type) (hop : f.hdr.opcode = op) (he : collEarly s f.hdr = false)
    (hp : ∀ heard pairs ports, Safety.InOrder (fabWith s heard pairs ports) f →
      passOn (fabWith s heard pairs ports) f = deliver applyAny (fabWith s heard pairs ports) f) :
    ∃ u, Ready s f u ∧
      ((applyAny u f).fab.pairs = u.fab.pairs → (∀ g, collUnderWay (applyAny u f) g = none) →
        frameRow type op f s = .next ((applyAny u f).setPair f.hdr.src (u.pair f.hdr.src))) := by
  obtain ⟨heard, pairs, noted, hsrc, others⟩ := noticed_eq ha
  let v := noticed s f
  have order : Safety.InOrder v f := by
    refine ⟨?_, ?_, ?_, ?_⟩ <;> rw [hsrc]
    exacts [ho.next, ho.held, ho.void, ho.naks]
  let u := consumed v f.hdr.src f
  have hu : u.pair f.hdr.src = consumedPair (v.pair f.hdr.src) := pair_consumed ..
  have unheld (k : Pair) (hk : k.held = []) (hq : f.hdr.seq = k.rxNext) :
      consumedPair { k with empty := 0 } = { k with rxNext := f.hdr.seq + 1, empty := 0 } := by
    unfold consumedPair
    rw [hq, ← hk]
  refine ⟨u, ⟨⟨heard, u.fab.pairs, ?_⟩, ?_, fun m hm => (pair_consumed_of_ne hm f).trans (others m hm)⟩, fun same idle => ?_⟩
  · show consumed (noticed s f) f.hdr.src f = fabWith s heard (consumed (noticed s f) f.hdr.src f).fab.pairs _
    rw [noted]
    rfl
  · rw [hu, hsrc]
    exact unheld _ ho.held ho.next
  · have delivered : passOn v f = deliver applyAny v f := by
      have hv : v = _ := noted
      rw [hv] at order ⊢
      exact hp _ _ _ order
    have early : collEarly (v.setPair f.hdr.src { v.pair f.hdr.src with held := [f] }) f.hdr = false := by
      have hv : v = _ := noted
      rw [hv]
      exact he
    have kept : (applyAny u f).pair f.hdr.src = consumedPair (v.pair f.hdr.src) := by
      rw [State.pair, same]
      exact hu
    rw [frameRow_arrives ha ht hop, show passOn (noticed s f) f = _ from delivered,
      deliver_next applyAny order early kept, ← hu, collsAdvance_idle fun g => (collUnderWay_setPair ..).trans (idle g)]

end Sys2Proof.Laws
end


-- ==== FrameMemory ====
section
/-!
SUPPORT for O34 and O35. What a frame reads and writes in memory does not depend on the fabric and the blocks.
-/
namespace Sys2Proof.Laws

open Sys2Proof.Machine

/-! ### A node with another fabric and other blocks -/

/-- `u` is `s` but for its fabric, its blocks and the count of decoded lines. -/
def Beside (F : Fabric) (B : SMap Block) (s u : State) : Prop := u = { s with fab := F, blocks := B, decoded := u.decoded }

section
variable {F : Fabric} {B : SMap Block} {s u : State}

theorem Beside.clean (h : Beside F B s u) (cl : Safety.Clean s) : Safety.Clean u := by
  rw [h]
  exact ⟨cl.lines, cl.copied⟩

theorem Beside.rdN (h : Beside F B s u) (a n : Nat) : Machine.rdN u a n = Machine.rdN s a n := by
  rw [h]
  rfl

theorem Beside.rdW (h : Beside F B s u) (a n : Nat) : Machine.rdW u a n = Machine.rdW s a n := congrArg leNat (h.rdN a n)

theorem Beside.countReads (h : Beside F B s u) (runs : List Run) : Beside F B s (countReads u runs) := by
  unfold Beside
  rw [h]
  rfl

theorem wrRawN_beside (s : State) (D : SMap Nat) (a : Nat) (l : List Byte) :
    wrRawN { s with fab := F, blocks := B, decoded := D } a l = { wrRawN s a l with fab := F, blocks := B, decoded := D } := by
  induction l generalizing s a with
  | nil => rfl
  | cons b l ih =>
    have byte : wrRaw { s with fab := F, blocks := B, decoded := D } a b =
        { wrRaw s a b with fab := F, blocks := B, decoded := D } := by
      unfold wrRaw
      rw [show place { s with fab := F, blocks := B, decoded := D } a = place s a from rfl]
      split
      · rfl
      · split <;> rfl
    rw [wrRawN, wrRawN, byte, ih]

/-- Bytes written are the same, whatever the fabric and the blocks. -/
theorem Beside.wrN (h : Beside F B s u) (cl : Safety.Clean s) (a : Nat) (l : List Byte) :
    Beside F B (wrN s a l) (wrN u a l) := by
  have clu := h.clean cl
  unfold Beside
  rw [Machine.wrN, stallCopy_none clu.copied, Machine.wrN, stallCopy_none cl.copied]
  generalize u.decoded = D at h
  rw [h, wrRawN_beside]
  rfl

theorem clean_wrN (cl : Safety.Clean s) (a : Nat) (l : List Byte) : Safety.Clean (wrN s a l) :=
  ⟨wrN_clean cl.lines cl.copied a l, (onlyMem_wrN cl.copied a l none).copied cl.copied⟩

/-! ### Element operations on integers (07 R193) -/

/-- With no line in error an element operation on an integer reads, computes and writes. -/
theorem Beside.panAt (h : Beside F B s u) (cl : Safety.Clean s) {fmt : Fmt} (hf : fmt.isFloat = false) (op : Nat) (r : Rnd)
    (a x y : Nat) : ∃ v, Machine.panAt u op fmt r a x y = (v, Machine.rdW s a fmt.bytes, none) ∧
      Beside F B (wrW s a fmt.bytes (panElem op fmt r (Machine.rdW s a fmt.bytes) x y).1) v := by
  have c := h.countReads (partialRuns [⟨a, fmt.bytes⟩])
  unfold Machine.panAt
  rw [touch_clean (h.clean cl).lines]
  dsimp only
  rw [hf, c.rdW]
  exact ⟨_, rfl, c.wrN cl a _⟩

/-- A node beside one that differs in memory alone. -/
theorem Beside.over {v : State} (h : Beside F B u v) (o : OnlyMem s u) : v = { s with
    mem := v.mem, host := v.host, lineFault := v.lineFault, harts := v.harts, fab := F, blocks := B, decoded := v.decoded } := by
  rw [h, o]

/-! ### Bytes land in a window, and exchange buffers count arrivals (09 R242, R246) -/

/-- Adding 1 in 64-bit two's complement. -/
theorem panElem_increment (v : Nat) : (panElem 0x01 .int64 .rne v 1 0).1 = (v + 1) % 2 ^ 64 := by
  show tc 64 (sx 64 v + sx 64 1) = _
  have one : sx 64 1 = 1 := rfl
  rw [one]
  unfold tc sx
  split <;> omega

/-- The exchange buffer whose window part an address lies in. -/
def exchangeAt (s : State) (a : Nat) : Option Buf :=
  ((s.job.image.map Image.bufs).getD []).find? fun b =>
    b.kind == 0 && b.access.testBit 2 && b.base ≤ a && a < b.base + b.size

/-- A buffer's arrival counter raised by 1. -/
def bumped (s : State) : Option Buf → State
  | some b => wrW s b.arrival 8 ((rdW s b.arrival 8 + 1) % 2 ^ 64)
  | none => s

theorem Beside.arrived (h : Beside F B s u) (cl : Safety.Clean s) (a : Nat) :
    Beside F B (bumped s (exchangeAt s a)) (arrived u a) := by
  have buf : exchangeAt u a = exchangeAt s a := by
    rw [h]
    rfl
  unfold Machine.arrived
  show Beside F B _ (match exchangeAt u a with
    | some b => (Machine.panAt u 0x01 .int64 .rne b.arrival 1 0).1
    | none => u)
  rw [buf]
  cases exchangeAt s a with
  | none => exact h
  | some b =>
    obtain ⟨v, hv, hb⟩ := h.panAt cl (fmt := .int64) rfl 0x01 .rne b.arrival 1 0
    rw [panElem_increment] at hb
    dsimp only
    rw [hv]
    exact hb

/-- Memory once a frame's bytes have landed; with the last frame of a transfer the arrival is counted. -/
def landedAt (s : State) (last : Bool) (a : Nat) (bs : List Byte) : State :=
  if last then bumped (wrN s a bs) (exchangeAt s a) else wrN s a bs

theorem Beside.landBytes (h : Beside F B s u) (cl : Safety.Clean s) (hd : NgHdr) (a : Nat) (bs : List Byte) :
    Beside F B (landedAt s hd.last a bs) (landBytes u hd a bs) := by
  have w := (h.countReads (partialRuns [⟨a, bs.length⟩])).wrN cl a bs
  have buf : exchangeAt (Machine.wrN s a bs) a = exchangeAt s a := by
    rw [wrN_frame cl.copied]
    rfl
  unfold Machine.landBytes landedAt
  rw [touch_clean (h.clean cl).lines]
  dsimp only
  split
  · rw [← buf]
    exact w.arrived (clean_wrN cl a bs) a
  · exact w

theorem onlyMem_bumped (cl : Safety.Clean s) (o : Option Buf) : OnlyMem s (bumped s o) := by
  cases o with
  | none => exact OnlyMem.refl s
  | some b => exact onlyMem_wrN cl.copied ..

theorem onlyMem_landedAt (cl : Safety.Clean s) (last : Bool) (a : Nat) (bs : List Byte) :
    OnlyMem s (landedAt s last a bs) := by
  have w : OnlyMem s (wrN s a bs) := onlyMem_wrN cl.copied ..
  unfold landedAt
  split
  · exact w.trans (onlyMem_bumped (clean_wrN cl a bs) _)
  · exact w

/-! ### Elements of a frame (07 R193, R200) -/

/-- One element of a frame applied: memory, and the old values so far. -/
def elemStep (op : Nat) (fmt : Fmt) (mode : Rnd) (a per : Nat) (bs : List Byte) (acc : State × List Byte) (i : Nat) :
    State × List Byte :=
  let n := fmt.bytes
  let old := rdW acc.1 (a + n * i) n
  (wrW acc.1 (a + n * i) n (panElem op fmt mode old (le bs (n * per * i) n) (le bs (n * per * i + n) n)).1,
    acc.2 ++ leBytes n old)

/-- The elements of a frame applied one after the other. -/
def elemsApplied (s : State) (op : Nat) (fmt : Fmt) (mode : Rnd) (a cnt per : Nat) (bs : List Byte) : State × List Byte :=
  (List.range cnt).foldl (elemStep op fmt mode a per bs) (s, [])

/-- Folds whose steps keep a relation end related. -/
theorem foldl_related {α β γ : Type} (R : α → β → Prop) (g : α → γ → α) (k : β → γ → β)
    (step : ∀ x y c, R x y → R (g x c) (k y c)) (l : List γ) {x : α} {y : β} (h : R x y) : R (l.foldl g x) (l.foldl k y) := by
  induction l generalizing x y with
  | nil => exact h
  | cons c l ih => exact ih (step x y c h)

/-- One element of a frame applied as the pan engine does it. -/
def panStep (op : Nat) (fmt : Fmt) (mode : Rnd) (a per : Nat) (bs : List Byte) (acc : State × List Byte) (i : Nat) :
    State × List Byte :=
  let n := fmt.bytes
  let r := panAt acc.1 op fmt mode (a + n * i) (le bs (n * per * i) n) (le bs (n * per * i + n) n)
  (r.1, acc.2 ++ leBytes n r.2.1)

/-- Elements applied so far, on a node beside one that has applied the same. -/
structure ElemsBeside (F : Fabric) (B : SMap Block) (s : State) (x y : State × List Byte) : Prop where
  beside : Beside F B x.1 y.1
  olds : y.2 = x.2
  clean : Safety.Clean x.1
  mem : OnlyMem s x.1

theorem elemsBeside_step {fmt : Fmt} (hf : fmt.isFloat = false) (op : Nat) (mode : Rnd) (a per : Nat) (bs : List Byte)
    (x y : State × List Byte) (i : Nat) (h : ElemsBeside F B s x y) :
    ElemsBeside F B s (elemStep op fmt mode a per bs x i) (panStep op fmt mode a per bs y i) := by
  obtain ⟨v, hv, hb⟩ := h.beside.panAt h.clean hf op mode (a + fmt.bytes * i) (le bs (fmt.bytes * per * i) fmt.bytes)
    (le bs (fmt.bytes * per * i + fmt.bytes) fmt.bytes)
  unfold panStep
  dsimp only
  rw [hv, h.olds]
  exact ⟨hb, rfl, clean_wrN h.clean _ _, h.mem.trans (onlyMem_wrN h.clean.copied ..)⟩

/-- The pan engine applies the elements of a frame on a node beside `s` as on `s`. -/
theorem elemsBeside_run {fmt : Fmt} (hf : fmt.isFloat = false) (h : Beside F B s u) (cl : Safety.Clean s) (op : Nat)
    (mode : Rnd) (a cnt per : Nat) (bs : List Byte) :
    ElemsBeside F B s (elemsApplied s op fmt mode a cnt per bs)
      ((List.range cnt).foldl (panStep op fmt mode a per bs) (u, [])) :=
  foldl_related _ _ _ (elemsBeside_step hf op mode a per bs) _ ⟨h, rfl, cl, OnlyMem.refl s⟩

/-- An addition takes no third operand. -/
theorem panElem_reduce {fmt : Fmt} (hf : fmt.isFloat = false) (mode : Rnd) (v x y z : Nat) :
    panElem 0x30 fmt mode v x y = panElem 0x30 fmt mode v x z := by
  unfold panElem
  rw [hf]
  rfl

/-- Addends added so far, without their old values, on a node beside one that has added the same. -/
theorem reduceBeside_run {fmt : Fmt} (hf : fmt.isFloat = false) (h : Beside F B s u) (cl : Safety.Clean s) (mode : Rnd)
    (a cnt : Nat) (bs : List Byte) :
    let x := elemsApplied s 0x30 fmt mode a cnt 1 bs
    let y := (List.range cnt).foldl (fun (u : State) i =>
      (Machine.panAt u 0x30 fmt mode (a + fmt.bytes * i) (le bs (fmt.bytes * i) fmt.bytes) 0).1) u
    Beside F B x.1 y ∧ Safety.Clean x.1 ∧ OnlyMem s x.1 := by
  refine foldl_related (fun (x : State × List Byte) y => Beside F B x.1 y ∧ Safety.Clean x.1 ∧ OnlyMem s x.1) _ _
    (fun x y i hxy => ?_) _ ⟨h, cl, OnlyMem.refl s⟩
  obtain ⟨hb, hc, hm⟩ := hxy
  obtain ⟨v, hv, hvb⟩ := hb.panAt hc hf 0x30 mode (a + fmt.bytes * i) (le bs (fmt.bytes * i) fmt.bytes) 0
  rw [hv]
  unfold elemStep
  dsimp only
  rw [Nat.mul_one, panElem_reduce hf mode _ _ _ 0]
  exact ⟨hvb, clean_wrN hc _ _, hm.trans (onlyMem_wrN hc.copied ..)⟩

end

end Sys2Proof.Laws
end


-- ==== Frames ====
section
/-!
O34: what the next frame of a pair does, by its kind (09 R242 to R246, R256; 02 R63, R265).
-/
namespace Sys2Proof.Laws

open Sys2Proof.Machine

variable {s : State} {f : Frame}

/-! ### The effect of a frame, and the row that it makes -/

/-- What a frame's effect leaves on a node made ready for it: memory, frames that wait, the job, and nothing else but
reservations and counts. -/
structure Effect (u mem : State) (ready : List OutFrame) (job : Job) (w : State) : Prop where
  mem : w.mem = mem.mem
  ready : w.fab.ready = u.fab.ready ++ ready
  job : w.job = job
  rest : w = { u with
    mem := w.mem, host := w.host, lineFault := w.lineFault, harts := w.harts, decoded := w.decoded, job := w.job
    fab := { u.fab with ready := w.fab.ready } }

/-- What the row of a frame that is the next of its pair leaves of the node. -/
structure FrameTaken (s : State) (f : Frame) (mem : State) (ready : List OutFrame) (job : Job) (t : State) : Prop where
  pair : t.pair f.hdr.src = { s.pair f.hdr.src with rxNext := f.hdr.seq + 1, empty := 0 }
  mem : t.mem = mem.mem
  ready : t.fab.ready = s.fab.ready ++ ready
  job : t.job = job
  fab : ∃ heard, t.fab = { s.fab with
      pairs := t.fab.pairs, heard := heard, ready := t.fab.ready, ports := (notePn s f).fab.ports } ∧
    ∀ m, m ≠ f.hdr.src → t.pair m = s.pair m
  rest : t = { s with
    mem := t.mem, host := t.host, lineFault := t.lineFault, harts := t.harts, stk := t.stk, fab := t.fab, job := t.job
    decoded := t.decoded }

/-- A row whose frame has an effect takes it. -/
theorem frameRow_effect (ha : Safety.Arrives s f) (ho : Safety.InOrder s f) {type : BitVec 4} {op : Byte}
    (ht : f.hdr.type = type) (hop : f.hdr.opcode = op) (he : collEarly s f.hdr = false)
    (hp : ∀ heard pairs ports, Safety.InOrder (fabWith s heard pairs ports) f →
      passOn (fabWith s heard pairs ports) f = deliver applyAny (fabWith s heard pairs ports) f)
    {mem : State} {ready : List OutFrame} {job : Job}
    (eff : ∀ heard pairs ports, let u := fabWith s heard pairs ports
      Effect u mem ready job (applyAny u f)) :
    ∃ t, frameRow type op f s = .next t ∧ FrameTaken s f mem ready job t := by
  obtain ⟨u, hu, next⟩ := frameRow_next ha ho ht hop he hp
  obtain ⟨heard, pairs, notes⟩ := hu.notes
  have e : Effect u mem ready job (applyAny u f) := by
    rw [notes]
    exact eff ..
  generalize applyAny u f = w at e next
  have same : w.fab.pairs = u.fab.pairs := by rw [e.rest]
  have idle (g : Nat) : collUnderWay w g = none := by
    rw [e.rest, notes]
    exact ha.colls g
  refine ⟨_, next same idle, (pair_setPair ..).trans hu.pair, e.mem, ?_, e.job, ⟨heard, ?_, fun m hm => ?_⟩, ?_⟩
  · refine e.ready.trans ?_
    rw [notes]
    rfl
  · rw [e.rest, notes]
    rfl
  · refine (pair_setPair_of_ne _ hm).trans (Eq.trans ?_ (hu.others m hm))
    rw [State.pair, same, State.pair]
  · rw [e.rest, notes]
    rfl

/-! ### Effects on memory -/

section
variable {heard : List Nat} {pairs : SMap Pair} {ports : SMap Port}

/-- The node with other notes of the fabric stands beside itself. -/
theorem beside_fabWith (s : State) (heard : List Nat) (pairs : SMap Pair) (ports : SMap Port) :
    Beside (fabWith s heard pairs ports).fab s.blocks s (fabWith s heard pairs ports) := rfl

/-- A frame whose effect is on memory, with frames in answer. -/
theorem effect_of_beside {m v : State} (o : OnlyMem s m) (h : Beside (fabWith s heard pairs ports).fab s.blocks m v)
    (l : List OutFrame) : Effect (fabWith s heard pairs ports) m l s.job (withReady v l) := by
  have whole := h.over o
  refine ⟨?_, ?_, ?_, ?_⟩
  · show v.mem = m.mem
    rw [h]
  · show v.fab.ready ++ l = _
    rw [whole]
  · show v.job = _
    rw [whole]
  · show { v with fab := { v.fab with ready := v.fab.ready ++ l } } = _
    rw [whole]
    rfl

theorem applyAny_of_ne_bulk (u : State) (hb : f.hdr.type ≠ tBulk) : applyAny u f = applyFrame u f := if_neg hb

end

/-- An answer to a request, as it waits for its slot (R242, R244). -/
def answerOut (s : State) (h : NgHdr) (op : Byte) (fmt : Nat) (data : List Byte) : OutFrame :=
  let x : FrameArgs := { opcode := op, dst := h.src, hedge := h.hedgeId.toNat, offset := h.seq.toNat, subop := 0
                         last := h.last, fmt := fmt, data := data, opArg := epochArg s h.hedgeId.toNat }
  { frame := mkFrame s x, org := .nobody, pri := respPri s h.src }

section
variable {heard : List Nat} {pairs : SMap Pair} {ports : SMap Port} {m v : State} (o : OnlyMem s m)
  (hv : Beside (fabWith s heard pairs ports).fab s.blocks m v)
include o hv

theorem respond_getReq {h : NgHdr} (ho : h.opcode = oGetReq) (data : List Byte) :
    respond v h .ok data = withReady v [answerOut s h oGetResp 0 data] := by
  have same : answerOut v h oGetResp 0 data = answerOut s h oGetResp 0 data := by
    rw [hv.over o]
    rfl
  unfold respond
  rw [if_pos ho, if_pos ho, ← same]
  rfl

theorem respond_atomic {h : NgHdr} (ho : h.opcode = oAtomic) (data : List Byte) :
    respond v h .ok data = withReady v [answerOut s h oAtomicResp h.fmt.toNat data] := by
  have same : answerOut v h oAtomicResp h.fmt.toNat data = answerOut s h oAtomicResp h.fmt.toNat data := by
    rw [hv.over o]
    rfl
  have other : ¬h.opcode = oGetReq := by rw [ho]; decide
  unfold respond
  rw [if_neg other, if_neg other, ← same]
  rfl

end

/-! ### What a DATA frame does, by its opcode -/

/-- The address that a frame names in its hedge's window. -/
def windowAt (s : State) (h : NgHdr) : Nat := ((hedgeOf s h.hedgeId.toNat).map Hedge.winBase).getD 0 + h.offset.toNat

section
variable (u : State)

theorem applyFrame_signature (ht : f.hdr.type = tSignature) :
    applyFrame u f = sigApply u f.hdr (f.data.take f.hdr.length.toNat) := if_pos ht

variable (ht : f.hdr.type = tData)
include ht

theorem ne_signature : ¬f.hdr.type = tSignature := by rw [ht]; decide

theorem applyFrame_land (ho : f.hdr.opcode = oPut ∨ f.hdr.opcode = oMcast) (hc : isCtrl f.hdr = false) :
    applyFrame u f = landBytes u f.hdr (windowAt u f.hdr) (f.data.take f.hdr.length.toNat) :=
  (if_neg (ne_signature ht)).trans ((if_pos ho).trans (if_neg (Bool.eq_false_iff.1 hc)))

theorem applyFrame_getReq (ho : f.hdr.opcode = oGetReq) : applyFrame u f =
    getApply u f.hdr (((hedgeOf u f.hdr.hedgeId.toNat).map Hedge.winBase).getD 0) := by
  have put : ¬(f.hdr.opcode = oPut ∨ f.hdr.opcode = oMcast) := by rw [ho]; decide
  exact (if_neg (ne_signature ht)).trans ((if_neg put).trans (if_pos ho))

theorem applyFrame_atomic (ho : f.hdr.opcode = oAtomic) : applyFrame u f =
    atomicApply u f.hdr f.olds (((hedgeOf u f.hdr.hedgeId.toNat).map Hedge.winBase).getD 0)
      (f.data.take f.hdr.length.toNat) := by
  have put : ¬(f.hdr.opcode = oPut ∨ f.hdr.opcode = oMcast) := by rw [ho]; decide
  have get : ¬f.hdr.opcode = oGetReq := by rw [ho]; decide
  exact (if_neg (ne_signature ht)).trans ((if_neg put).trans ((if_neg get).trans (if_pos ho)))

theorem applyFrame_reduce (ho : f.hdr.opcode = oReduce) (hc : collData u f.hdr = false) : applyFrame u f =
    reduceApply u f.hdr (Fmt.ofCode f.addend.toNat) (((hedgeOf u f.hdr.hedgeId.toNat).map Hedge.winBase).getD 0)
      (f.data.take f.hdr.length.toNat) := by
  have put : ¬(f.hdr.opcode = oPut ∨ f.hdr.opcode = oMcast) := by rw [ho]; decide
  have get : ¬f.hdr.opcode = oGetReq := by rw [ho]; decide
  have atomic : ¬f.hdr.opcode = oAtomic := by rw [ho]; decide
  exact (if_neg (ne_signature ht)).trans ((if_neg put).trans ((if_neg get).trans ((if_neg atomic).trans
    ((if_pos ho).trans (if_neg (Bool.eq_false_iff.1 hc))))))

/-- A COLL frame without data notes a clear token (R256). -/
theorem applyFrame_clear (ho : f.hdr.opcode = oColl) (hl : f.hdr.length = 0) : applyFrame u f =
    updHedge u f.hdr.hedgeId.toNat fun g => { g with clears := g.clears ++ [(f.hdr.src, f.hdr.subop.toNat)] } := by
  have put : ¬(f.hdr.opcode = oPut ∨ f.hdr.opcode = oMcast) := by rw [ho]; decide
  have get : ¬f.hdr.opcode = oGetReq := by rw [ho]; decide
  have atomic : ¬f.hdr.opcode = oAtomic := by rw [ho]; decide
  have reduce : ¬f.hdr.opcode = oReduce := by rw [ho]; decide
  exact (if_neg (ne_signature ht)).trans ((if_neg put).trans ((if_neg get).trans ((if_neg atomic).trans
    ((if_neg reduce).trans ((if_pos ho).trans (if_pos ⟨hl, ho⟩))))))

theorem applyFrame_response (ho : f.hdr.opcode = oGetResp ∨ f.hdr.opcode = oAtomicResp) :
    applyFrame u f = respApply u f.hdr (f.data.take f.hdr.length.toNat) := by
  have other (op : Byte) (h : op ≠ oGetResp ∧ op ≠ oAtomicResp) : ¬f.hdr.opcode = op := by
    rcases ho with ho | ho <;> rw [ho]
    exacts [h.1.symm, h.2.symm]
  have put : ¬(f.hdr.opcode = oPut ∨ f.hdr.opcode = oMcast) := by
    rintro (h | h)
    exacts [other oPut (by decide) h, other oMcast (by decide) h]
  exact (if_neg (ne_signature ht)).trans ((if_neg put).trans ((if_neg (other oGetReq (by decide))).trans
    ((if_neg (other oAtomic (by decide))).trans ((if_neg (other oReduce (by decide))).trans
      (if_neg (other oColl (by decide)))))))

end

/-! ### The effect of each kind -/

section
variable (cl : Safety.Clean s) (heard : List Nat) (pairs : SMap Pair) (ports : SMap Port)
include cl

theorem effect_land (ht : f.hdr.type = tData) (ho : f.hdr.opcode = oPut ∨ f.hdr.opcode = oMcast)
    (hc : isCtrl f.hdr = false) :
    let u := fabWith s heard pairs ports
    Effect u (landedAt s f.hdr.last (windowAt s f.hdr) (f.data.take f.hdr.length.toNat)) [] s.job (applyAny u f) := by
  intro u
  have bulk : f.hdr.type ≠ tBulk := by rw [ht]; decide
  rw [applyAny_of_ne_bulk u bulk, applyFrame_land u ht ho hc, ← withReady_nil (landBytes ..)]
  exact effect_of_beside (onlyMem_landedAt cl ..) ((beside_fabWith s heard pairs ports).landBytes cl ..) []

theorem effect_getReq (ht : f.hdr.type = tData) (ho : f.hdr.opcode = oGetReq) (hc : isCtrl f.hdr = false) :
    let u := fabWith s heard pairs ports
    Effect u s [answerOut s f.hdr oGetResp 0 (rdN s (windowAt s f.hdr) f.hdr.length.toNat)] s.job (applyAny u f) := by
  intro u
  have bulk : f.hdr.type ≠ tBulk := by rw [ht]; decide
  have b := (beside_fabWith s heard pairs ports).countReads [⟨windowAt s f.hdr, f.hdr.length.toNat⟩]
  have read : applyFrame u f = respond (countReads u [⟨windowAt s f.hdr, f.hdr.length.toNat⟩]) f.hdr .ok
      (rdN s (windowAt s f.hdr) f.hdr.length.toNat) := by
    rw [applyFrame_getReq u ht ho, getApply, if_neg (Bool.eq_false_iff.1 hc)]
    dsimp only
    rw [touch_clean (s := u) cl.lines]
    dsimp only
    rw [← b.rdN]
    rfl
  rw [applyAny_of_ne_bulk u bulk, read, respond_getReq (OnlyMem.refl s) b ho]
  exact effect_of_beside (OnlyMem.refl s) b _

omit cl in
theorem effect_signature (ht : f.hdr.type = tSignature) :
    let u := fabWith s heard pairs ports
    let bs := f.data.take f.hdr.length.toNat
    Effect u s [] { s.job with
      sigs := s.job.sigs ++ (List.range (bs.length / 8)).map fun i =>
        (f.hdr.offset.toNat + i, BitVec.ofNat 64 (le bs (8 * i) 8))
      sigLast := s.job.sigLast || f.hdr.last } (applyAny u f) := by
  intro u bs
  have bulk : f.hdr.type ≠ tBulk := by rw [ht]; decide
  rw [applyAny_of_ne_bulk u bulk, applyFrame_signature u ht]
  exact ⟨rfl, (List.append_nil _).symm, rfl, rfl⟩

omit cl in
theorem effect_clear (ht : f.hdr.type = tData) (ho : f.hdr.opcode = oColl) (hl : f.hdr.length = 0) :
    let u := fabWith s heard pairs ports
    Effect u s [] { s.job with hedges := s.job.hedges.map fun g =>
      if g.id = f.hdr.hedgeId.toNat then { g with clears := g.clears ++ [(f.hdr.src, f.hdr.subop.toNat)] } else g }
      (applyAny u f) := by
  intro u
  have bulk : f.hdr.type ≠ tBulk := by rw [ht]; decide
  have tokens : (u.job.hedges.map fun h => if h.id == f.hdr.hedgeId.toNat
      then { h with clears := h.clears ++ [(f.hdr.src, f.hdr.subop.toNat)] } else h) = s.job.hedges.map fun g =>
      if g.id = f.hdr.hedgeId.toNat then { g with clears := g.clears ++ [(f.hdr.src, f.hdr.subop.toNat)] } else g :=
    List.map_congr_left fun g _ => by simp only [beq_iff_eq]
  rw [applyAny_of_ne_bulk u bulk, applyFrame_clear u ht ho hl, updHedge, tokens]
  exact ⟨rfl, (List.append_nil _).symm, rfl, rfl⟩

omit cl in
/-- An element operation on memory of RATOM's codes but FADD works on integers. -/
theorem integer_of_panTarget {op : Nat} {fmt : Fmt} (hp : panAtomic op = true) (h10 : op ≠ 0x10)
    (ht : panTarget op fmt = true) : fmt.isFloat = false := by
  have code : 0x01 ≤ op ∧ op ≤ 0x08 := by
    simp only [panAtomic, Bool.or_eq_true, Bool.and_eq_true, decide_eq_true_eq, beq_iff_eq] at hp
    exact hp.resolve_right h10
  unfold panTarget at ht
  rw [if_pos code] at ht
  simp only [Bool.or_eq_true, beq_iff_eq] at ht
  rcases ht with rfl | rfl <;> rfl

theorem effect_atomic (ht : f.hdr.type = tData) (ho : f.hdr.opcode = oAtomic) {op : Nat} (hop : op = f.hdr.subop.toNat)
    (hp : panAtomic op = true) (h10 : op ≠ 0x10) (htgt : panTarget op (Fmt.ofCode f.hdr.fmt.toNat) = true) :
    let u := fabWith s heard pairs ports
    let bs := f.data.take f.hdr.length.toNat
    let fmt := Fmt.ofCode f.hdr.fmt.toNat
    let per := if op = 0x08 then 2 else 1
    let w := elemsApplied s op fmt (Rnd.ofCode f.hdr.rnd.toNat) (windowAt s f.hdr) (bs.length / (fmt.bytes * per)) per bs
    Effect u w.1 [answerOut s f.hdr oAtomicResp f.hdr.fmt.toNat (if f.olds then w.2 else [])] s.job (applyAny u f) := by
  intro u bs fmt per w
  subst hop
  have bulk : f.hdr.type ≠ tBulk := by rw [ht]; decide
  have legal : ¬(!panAtomic f.hdr.subop.toNat || !panTarget f.hdr.subop.toNat fmt ||
      (f.hdr.subop.toNat == 0x10 && decide (3 < f.hdr.rnd.toNat))) = true := by
    simp [hp, fmt, htgt, h10]
  let cnt := bs.length / (fmt.bytes * per)
  let v := countReads u [⟨windowAt s f.hdr, fmt.bytes * cnt⟩]
  let y := (List.range cnt).foldl (panStep f.hdr.subop.toNat fmt (Rnd.ofCode f.hdr.rnd.toNat) (windowAt s f.hdr) per bs) (v, [])
  have e : ElemsBeside u.fab s.blocks s w y := elemsBeside_run (integer_of_panTarget hp h10 htgt)
    ((beside_fabWith s heard pairs ports).countReads _) cl ..
  have run : applyFrame u f = respond y.1 f.hdr .ok (if f.olds then y.2 else []) := by
    rw [applyFrame_atomic u ht ho]
    refine (if_neg legal).trans ?_
    dsimp only
    rw [touch_clean (s := u) cl.lines]
    rfl
  rw [applyAny_of_ne_bulk u bulk, run, respond_atomic e.mem e.beside ho, e.olds]
  exact effect_of_beside e.mem e.beside _

omit cl in
/-- An element that a REDUCE takes fills whole bytes. -/
theorem one_le_bytes_of_panTarget (fmt : Fmt) : panTarget 0x30 fmt = true → 1 ≤ fmt.bytes := by
  cases fmt <;> decide

theorem effect_reduce (ht : f.hdr.type = tData) (ho : f.hdr.opcode = oReduce) (hx : f.addend = f.hdr.fmt)
    (hint : (Fmt.ofCode f.hdr.fmt.toNat).isInt = true) (htgt : panTarget 0x30 (Fmt.ofCode f.hdr.fmt.toNat) = true)
    (hw : collData s f.hdr = false) :
    let u := fabWith s heard pairs ports
    let bs := f.data.take f.hdr.length.toNat
    let fmt := Fmt.ofCode f.hdr.fmt.toNat
    Effect u (elemsApplied s 0x30 fmt (Rnd.ofCode f.hdr.rnd.toNat) (windowAt s f.hdr) (bs.length / fmt.bytes) 1 bs).1 []
      s.job (applyAny u f) := by
  intro u bs fmt
  have bulk : f.hdr.type ≠ tBulk := by rw [ht]; decide
  obtain ⟨float, brine⟩ : fmt.isFloat = false ∧ fmt.isBrine = false := by
    simpa [Fmt.isInt] using hint
  have wide : max 1 fmt.bytes = fmt.bytes := Nat.max_eq_right (one_le_bytes_of_panTarget fmt htgt)
  have legal : ¬(Fmt.ofCode f.addend.toNat ≠ fmt ∨ panTarget 0x30 fmt = false ∨
      (fmt.isFloat && decide (3 < f.hdr.rnd.toNat)) = true) := by
    rw [hx, float, show panTarget 0x30 fmt = true from htgt]
    simp [fmt]
  let v := countReads u [⟨windowAt s f.hdr, fmt.bytes * (bs.length / fmt.bytes)⟩]
  obtain ⟨hb, -, hm⟩ := reduceBeside_run float ((beside_fabWith s heard pairs ports).countReads
    [⟨windowAt s f.hdr, fmt.bytes * (bs.length / fmt.bytes)⟩]) cl (Rnd.ofCode f.hdr.rnd.toNat) (windowAt s f.hdr)
    (bs.length / fmt.bytes) bs
  rw [applyAny_of_ne_bulk u bulk, applyFrame_reduce u ht ho hw]
  have run : reduceApply u f.hdr (Fmt.ofCode f.addend.toNat)
      (((hedgeOf u f.hdr.hedgeId.toNat).map Hedge.winBase).getD 0) bs =
      (List.range (bs.length / fmt.bytes)).foldl (fun (u : State) i => (panAt u 0x30 fmt (Rnd.ofCode f.hdr.rnd.toNat)
        (windowAt s f.hdr + fmt.bytes * i) (le bs (fmt.bytes * i) fmt.bytes) 0).1) v := by
    refine (if_neg (Bool.eq_false_iff.1 brine)).trans ((if_neg legal).trans ?_)
    dsimp only
    rw [touch_clean (s := u) cl.lines]
    dsimp only
    rw [show max 1 (Fmt.ofCode f.hdr.fmt.toNat).bytes = fmt.bytes from wide]
    rfl
  rw [run, ← withReady_nil (List.foldl _ v _)]
  exact effect_of_beside hm hb []

omit cl in
/-- The sub-records of a BULK frame for other nodes go on (R63). -/
theorem effect_bulk (ht : f.hdr.type = tBulk)
    (hg : ∀ g ∈ subsOf f (f.data.length / 48) f.data, malformed s g = false ∧ g.hdr.dst ≠ nodeId s) :
    let u := fabWith s heard pairs ports
    Effect u s ((subsOf f (f.data.length / 48) f.data).map fun g => { frame := g }) s.job (applyAny u f) := by
  intro u
  have on (l : List Frame) (hl : ∀ g ∈ l, malformed s g = false ∧ g.hdr.dst ≠ nodeId s) (k : List OutFrame) :
      l.foldl (fun (t : State) (g : Frame) =>
        if malformed t g then t
        else if g.hdr.dst = nodeId t then takeAck (sequenced (applyN 1) t g) g.hdr
        else enqueue t { frame := g }) (withReady u k) = withReady u (k ++ l.map fun g => { frame := g }) := by
    induction l generalizing k with
    | nil => rw [List.foldl_nil, List.map_nil, List.append_nil]
    | cons g l ih =>
      obtain ⟨hm, hd⟩ := hl g List.mem_cons_self
      have whole : ¬malformed (withReady u k) g = true := Bool.eq_false_iff.1 hm
      have goes : ¬g.hdr.dst = nodeId (withReady u k) := hd
      rw [List.foldl_cons, if_neg whole, if_neg goes, show enqueue (withReady u k) { frame := g } = _ from
        withReady_withReady u k [{ frame := g }], ih fun x hx => hl x (List.mem_cons_of_mem _ hx)]
      rw [List.append_assoc, List.map_cons, List.singleton_append]
  have run : applyAny u f = withReady u ((subsOf f (f.data.length / 48) f.data).map fun g => { frame := g }) := by
    refine (if_pos ht).trans ?_
    have e := on _ hg []
    rwa [withReady_nil, List.nil_append] at e
  rw [run]
  exact effect_of_beside (OnlyMem.refl s) (beside_fabWith s heard pairs ports) _

end

/-! ### FILLER (12 R305) -/

theorem nfld_level (x : Nat) : nfld x 48 4 = x / 2 ^ 48 % 16 := by
  rw [nfld, Nat.shiftRight_eq_div_pow, show 2 ^ 4 = 16 from rfl]

/-- A FILLER tells the peer's step and cut level. -/
theorem passOn_filler (ht : f.hdr.type = tFiller) : passOn s f = s.setPair f.hdr.src { s.pair f.hdr.src with
    peerStep := f.hdr.offset.setWidth 48, peerLevel := nfld f.hdr.offset.toNat 48 4 } := if_pos ht

theorem exec_filler (ha : Safety.Arrives s f) (ht : f.hdr.type = tFiller) (ho : f.hdr.opcode = 0) :
    ∃ t, exec (.filler f) s = .next t ∧
      t.pair f.hdr.src = { s.pair f.hdr.src with
        peerStep := f.hdr.offset.setWidth 48, peerLevel := f.hdr.offset.toNat / 2 ^ 48 % 16, empty := 0 } ∧
      t.fab.ready = s.fab.ready ∧
      (∃ heard, t.fab = { s.fab with
          pairs := t.fab.pairs, heard := heard, ready := t.fab.ready, ports := (notePn s f).fab.ports } ∧
        ∀ m, m ≠ f.hdr.src → t.pair m = s.pair m) ∧ t = { s with fab := t.fab } := by
  obtain ⟨heard, pairs, noted, hsrc, others⟩ := noticed_eq ha
  have idle (g : Nat) : collUnderWay (passOn (noticed s f) f) g = none := by
    rw [passOn_filler ht, collUnderWay_setPair, noted]
    exact ha.colls g
  have e : exec (.filler f) s = .next (passOn (noticed s f) f) := by
    rw [← collsAdvance_idle idle]
    exact frameRow_arrives ha ht ho
  rw [passOn_filler ht] at e
  refine ⟨_, e, (pair_setPair ..).trans ?_, ?_, ⟨heard, ?_, fun m hm => (pair_setPair_of_ne _ hm).trans (others m hm)⟩, ?_⟩
  · rw [hsrc, nfld_level]
  · rw [noted]
    rfl
  · rw [noted]
    rfl
  · rw [noted]
    rfl

/-! ### Frames that wait for no collective (R243, R245) -/

theorem collEarly_of_collData {h : NgHdr} (hc : collData s h = false) : collEarly s h = false := by
  rw [collEarly, hc]
  rfl

theorem collData_of_ne_data {h : NgHdr} (ht : h.type ≠ tData) : collData s h = false := by
  simp [collData, ht]

theorem collData_of_opcode {h : NgHdr} (hc : h.opcode ≠ oColl) (hr : h.opcode ≠ oReduce) : collData s h = false := by
  unfold collData
  cases hedgeOf s h.hedgeId.toNat <;> simp [hc, hr]

theorem collData_of_length_zero {h : NgHdr} (hl : h.length = 0) : collData s h = false := by
  simp [collData, hl]

/-- A REDUCE outside the work area of its hedge is of no collective. -/
theorem collData_reduce {h : NgHdr} (ho : h.opcode = oReduce)
    (hw : ∀ g, hedgeOf s h.hedgeId.toNat = some g → inWork g h.offset.toNat = false) : collData s h = false := by
  have coll : (h.opcode == oColl) = false := by rw [ho]; rfl
  unfold collData
  cases hg : hedgeOf s h.hedgeId.toNat with
  | none => simp
  | some g => simp [coll, hw g hg]

/-! ### The rows -/

/-- The next DATA or SIGNATURE frame of a pair, its job checks passed, is delivered. -/
theorem passOn_next (hf : f.hdr.type ≠ tFiller) (hb : f.hdr.type ≠ tBulk) (hj : jobChecks s f = none) (heard : List Nat)
    (pairs : SMap Pair) (ports : SMap Port) (ho : Safety.InOrder (fabWith s heard pairs ports) f) :
    passOn (fabWith s heard pairs ports) f = deliver applyAny (fabWith s heard pairs ports) f :=
  (passOn_sequenced hf hb).trans (sequenced_next applyAny ho hj)

/-- The row of a DATA frame that is the next of its pair, its job checks passed, takes the frame's effect. -/
theorem dataRow_effect (ha : Safety.Arrives s f) (ho : Safety.InOrder s f) (ht : f.hdr.type = tData)
    (hj : jobChecks s f = none) {op : Byte} (hop : f.hdr.opcode = op) (hc : collData s f.hdr = false) {mem : State}
    {ready : List OutFrame} {job : Job}
    (eff : ∀ heard pairs ports, let u := fabWith s heard pairs ports
      Effect u mem ready job (applyAny u f)) :
    ∃ t, frameRow tData op f s = .next t ∧ FrameTaken s f mem ready job t :=
  frameRow_effect ha ho ht hop (collEarly_of_collData hc)
    (passOn_next (by rw [ht]; decide) (by rw [ht]; decide) hj) eff

/-- The row of a BULK frame whose data spell its sub-records. -/
theorem execBulk_spelt {subs : List Frame} (h : padLines (subs.flatMap subRecord) = f.data) :
    exec (.bulk f subs) s = frameRow tBulk 0 f s := by
  have spelt : (padLines (subs.flatMap subRecord) == f.data) = true := beq_iff_eq.2 h
  show execBulk f subs s = _
  unfold execBulk
  dsimp only
  rw [spelt]
  rfl

/-- Settles O34: each kind of frame by its effect, which the delivery of the next frame of a pair lets happen. -/
theorem framesTakeEffectInOrder : Obligations.FramesTakeEffectInOrder := by
  unfold Obligations.FramesTakeEffectInOrder
  intro s f cl ha h bs a fmt n mode frame takes answer landed elems
  have taken {i : Instr} {mem : State} {ready : List OutFrame} {job : Job}
      (e : ∃ t, exec i s = .next t ∧ FrameTaken s f mem ready job t) : takes i mem ready job := by
    obtain ⟨t, he, ht⟩ := e
    exact ⟨t, he, ht.pair, ht.mem, ht.ready, ht.job, ht.fab, ht.rest⟩
  refine ⟨exec_filler ha, fun ho ht hop hj => taken ?signature, fun ho ht hop hl subs hs hg => taken ?bulk, fun ho ht hj =>
    ⟨fun hop hc => taken ?put, fun hop hc => taken ?mcast, fun hop hc => taken ?getReq,
      fun hop op hsub hp h10 htgt => taken ?atomic, fun hop hx hint htgt hw => taken ?reduce,
      fun hop hl => taken ?clear⟩⟩
  case signature =>
    exact frameRow_effect ha ho ht hop (collEarly_of_collData (collData_of_ne_data (by rw [ht]; decide)))
      (passOn_next (by rw [ht]; decide) (by rw [ht]; decide) hj) fun _ _ _ => effect_signature _ _ _ ht
  case bulk =>
    rw [execBulk_spelt hs]
    exact frameRow_effect ha ho ht hop (collEarly_of_collData (collData_of_ne_data (by rw [ht]; decide)))
      (fun _ _ _ ho => passOn_bulk ho ht hl) fun _ _ _ => effect_bulk _ _ _ ht hg
  case put =>
    exact dataRow_effect ha ho ht hj hop (collData_of_opcode (by rw [hop]; decide) (by rw [hop]; decide))
      fun _ _ _ => effect_land cl _ _ _ ht (.inl hop) hc
  case mcast =>
    exact dataRow_effect ha ho ht hj hop (collData_of_opcode (by rw [hop]; decide) (by rw [hop]; decide))
      fun _ _ _ => effect_land cl _ _ _ ht (.inr hop) hc
  case getReq =>
    exact dataRow_effect ha ho ht hj hop (collData_of_opcode (by rw [hop]; decide) (by rw [hop]; decide))
      fun _ _ _ => effect_getReq cl _ _ _ ht hop hc
  case atomic =>
    exact dataRow_effect ha ho ht hj hop (collData_of_opcode (by rw [hop]; decide) (by rw [hop]; decide))
      fun _ _ _ => effect_atomic cl _ _ _ ht hop hsub hp h10 htgt
  case reduce =>
    exact dataRow_effect ha ho ht hj hop (collData_reduce hop hw)
      fun _ _ _ => effect_reduce cl _ _ _ ht hop hx hint htgt (collData_reduce hop hw)
  case clear =>
    exact dataRow_effect ha ho ht hj hop (collData_of_length_zero hl) fun _ _ _ => effect_clear _ _ _ ht hop hl

end Sys2Proof.Laws
end


-- ==== Responses ====
section
/-!
O35: responses reach the requests that await them (08 R222; 09 R243, R244).
-/
namespace Sys2Proof.Laws

open Sys2Proof.Machine

/-! ### The response is taken from those awaited -/

/-- A node that awaits other responses. -/
def awaiting (u : State) (l : List Await) : State := { u with fab := { u.fab with awaiting := l } }

theorem takeAwait_head {u : State} {n : NodeId} {q : W32} {org : Origin} {hedge : Nat} {l : List Await}
    (h : u.fab.awaiting = ⟨n, q, org, hedge⟩ :: l) :
    takeAwait u n q = some (⟨n, q, org, hedge⟩, awaiting u l) := by
  let p := fun (a : Await) => a.peer == n && a.seq == q
  have head : p ⟨n, q, org, hedge⟩ = true := by simp [p]
  have found : u.fab.awaiting.find? p = some ⟨n, q, org, hedge⟩ := by
    rw [h]
    exact List.find?_cons_of_pos head
  have left : dropFirst p u.fab.awaiting = l := by
    rw [h]
    exact if_pos head
  show (u.fab.awaiting.find? p).map (fun a => (a, awaiting u (dropFirst p u.fab.awaiting))) = _
  rw [found, left]
  rfl

/-- A response of status OK to a request that a command awaits reaches that command. -/
theorem respApply_reaches {u : State} {h : NgHdr} {b : Blk} {q : Qc} {idx no hedge : Nat} {l : List Await} {g : InFl}
    (hs : h.subop = 0) (ha : u.fab.awaiting = ⟨h.src, h.offset.setWidth 32, .cmd b q idx no, hedge⟩ :: l)
    (hg : orgCmd u b q idx = some g) (bs : List Byte) :
    respApply u h bs = if h.opcode = oGetResp then
        match orgCtx (awaiting u l) b g with
        | some n => getLanded (awaiting u l) b g n no bs
        | none => awaiting u l
      else ratomOlds (awaiting u l) b g no bs := by
  have ok : Status.ofCode h.subop.toNat = .ok := by rw [hs]; rfl
  have mine : orgCmd (awaiting u l) b q idx = some g := hg
  unfold respApply
  dsimp only
  rw [takeAwait_head ha, ok]
  dsimp only
  rw [if_pos rfl, mine] <;> rfl

theorem orgCmd_spec {u : State} {b : Blk} {q : Qc} {idx : Nat} {g : InFl} (h : orgCmd u b q idx = some g) :
    g ∈ (u.q b q).inflight ∧ g.idx = idx ∧ g.started = true ∧ g.done = none := by
  have hp := List.find?_some h
  simp only [Bool.and_eq_true, beq_iff_eq, Option.isNone_iff_eq_none] at hp
  exact ⟨List.mem_of_find?_eq_some h, hp.1.1, hp.1.2, hp.2⟩

/-- The stream on the context of a command is that command's. -/
theorem orgCtx_idx {u : State} {b : Blk} {g : InFl} {n : Nat} {a : Active} (h : orgCtx u b g = some n)
    (ha : (u.ctx b n).active = some a) : a.idx = g.idx := by
  obtain ⟨m, -, hm⟩ := Option.bind_eq_some_iff.1 h
  obtain ⟨x, hx, rfl⟩ := Option.map_eq_some_iff.1 hm
  obtain ⟨hxa, hi⟩ := Option.filter_eq_some_iff.1 hx
  rw [ha] at hxa
  obtain rfl := Option.some.inj hxa
  exact beq_iff_eq.1 hi

/-! ### A GET's data land (R222, R244) -/

/-- A stream with one of the requests it has sent answered. -/
def answered (a : Active) (no : Nat) : Active := { a with sent := a.sent.filter fun r => r.no != no }

/-- A context whose stream has one of its requests answered. -/
def answeredCtx (c : Ctx) (a : Active) (no : Nat) : Ctx := { c with active := some (answered a no) }

/-- A context with `k` more bytes landed for a request of its stream. -/
def landedCtx (c : Ctx) (a : Active) (no k : Nat) : Ctx :=
  sluice { answeredCtx c a no with own := c.own + BitVec.ofNat 64 k }

/-- A node whose GET has landed a request's bytes, before its context is settled. -/
def getWritten (u : State) (b : Blk) (g : InFl) (n no : Nat) (a : Active) (r : SReq) (bs : List Byte) : State :=
  noteOut (wrN (countReads (u.setCtx b n (answeredCtx (u.ctx b n) a no)) (partialRuns [⟨r.near, r.nb⟩]))
    r.near (bs.take r.nb)) b .IQ g.idx (bs.take r.nb)

section
variable {u : State} {b : Blk} {g : InFl} {n no : Nat} {a : Active} {r : SReq}

theorem ctx_getWritten (cl : Safety.Clean u) (bs : List Byte) (m : Nat) : (getWritten u b g n no a r bs).ctx b m =
    (u.setCtx b n (answeredCtx (u.ctx b n) a no)).ctx b m := by
  unfold getWritten noteOut updInFl
  rw [ctx_updQ, wrN_frame (s := countReads (u.setCtx b n _) _) cl.copied]
  rfl

/-- OWN of a stream without a failure counts the bytes that have landed, before its context is settled. -/
theorem settle_landed {t : State} {c : Ctx} (hc : t.ctx b n = c) (hs : c.active.bind Active.fail = none) (k : Nat) :
    settle (t.setCtx b n (sluice (if ((t.ctx b n).active.bind Active.fail).isSome then t.ctx b n
      else { t.ctx b n with own := (t.ctx b n).own + BitVec.ofNat 64 k }))) b n =
    settle (t.setCtx b n (sluice { c with own := c.own + BitVec.ofNat 64 k })) b n := by
  rw [hc, hs]
  rfl

theorem getLanded_clean (cl : Safety.Clean u) (ha : (u.ctx b n).active = some a) (hf : a.fail = none)
    (hr : a.sent.find? (fun r => r.no == no) = some r) (bs : List Byte) :
    getLanded u b g n no bs =
      settle ((getWritten u b g n no a r bs).setCtx b n (landedCtx (u.ctx b n) a no r.nb)) b n := by
  have request : ((u.ctx b n).active.bind fun a => a.sent.find? fun r => r.no == no) = some r := by
    rw [ha]
    exact hr
  have dropped : dropReq u b n no = u.setCtx b n (answeredCtx (u.ctx b n) a no) := by
    unfold dropReq
    dsimp only
    rw [ha]
    rfl
  have written : (getWritten u b g n no a r bs).ctx b n = answeredCtx (u.ctx b n) a no := by
    rw [ctx_getWritten cl, ctx_setCtx, if_pos rfl]
  unfold getLanded
  dsimp only
  rw [request, dropped]
  dsimp only
  rw [touch_clean (s := u.setCtx b n (answeredCtx (u.ctx b n) a no)) cl.lines]
  dsimp only
  exact settle_landed written hf r.nb

/-- `w` is `u` but for memory, the blocks, and what writes to memory undo. -/
def MemAndBlocks (u w : State) : Prop := w = { u with
  mem := w.mem, host := w.host, lineFault := w.lineFault, harts := w.harts, blocks := w.blocks, decoded := w.decoded }

theorem MemAndBlocks.withBlocks {w : State} (h : MemAndBlocks u w) (k : SMap Block) (d : SMap Nat) :
    MemAndBlocks u { w with blocks := k, decoded := d } := by
  obtain ⟨m, x, l, r, y, d, rfl⟩ : ∃ m x l r y d, w = { u with
      mem := m, host := x, lineFault := l, harts := r, blocks := y, decoded := d } := ⟨_, _, _, _, _, _, h⟩
  rfl

/-- A write beside a node with other blocks. -/
theorem memAndBlocks_of_onlyMem {k : SMap Block} {w : State} (h : OnlyMem { u with blocks := k } w) : MemAndBlocks u w := by
  obtain ⟨m, x, l, r, d, rfl⟩ : ∃ m x l r d, w = { u with
      mem := m, host := x, lineFault := l, harts := r, blocks := k, decoded := d } := ⟨_, _, _, _, _, h⟩
  rfl

/-- What a GET's landed bytes leave of a node: memory, its context, and commands in flight of IQ. -/
structure GetLands (u m : State) (b : Blk) (n : Nat) (c : Ctx) (w : State) : Prop where
  mem : w.mem = m.mem
  ctx : w.ctx b n = c
  ctxs : ∀ k, k ≠ n → w.ctx b k = u.ctx b k
  queues : ∀ q, q ≠ .IQ → w.q b q = u.q b q
  others : ∀ k, k ≠ b → w.blk k = u.blk k
  rest : MemAndBlocks u w

theorem Beside.setCtx {s : State} {F : Fabric} {B : SMap Block} (hu : Beside F B s u) (b : Blk) (n : Nat) (c : Ctx) :
    Beside F (u.setCtx b n c).blocks s (u.setCtx b n c) := by
  obtain ⟨D, e⟩ : ∃ D, u = { s with fab := F, blocks := B, decoded := D } := ⟨_, hu⟩
  rw [e]
  rfl

theorem mem_noteOut {t : State} {q : Qc} (hg : g ∈ (t.q b q).inflight) (hd : g.done = none) (bs : List Byte) :
    { g with out := g.out ++ bs } ∈ ((noteOut t b q g.idx bs).q b q).inflight := by
  rw [noteOut, updInFl, q_updQ]
  exact List.mem_map.2 ⟨g, hg, if_pos ⟨rfl, hd⟩⟩

/-- Before its context is settled. -/
theorem getWritten_lands {s : State} {F : Fabric} {B : SMap Block} (cl : Safety.Clean s) (hu : Beside F B s u)
    (hg : g ∈ (u.q b .IQ).inflight) (hd : g.done = none) (bs : List Byte) (c : Ctx) :
    let w := (getWritten u b g n no a r bs).setCtx b n c
    GetLands u (wrN s r.near (bs.take r.nb)) b n c w ∧
      ∃ x, x ∈ (w.q b .IQ).inflight ∧ x.idx = g.idx ∧ x.cmd = g.cmd ∧ x.done = none := by
  intro w
  let s0 := u.setCtx b n (answeredCtx (u.ctx b n) a no)
  let v := wrN (countReads s0 (partialRuns [⟨r.near, r.nb⟩])) r.near (bs.take r.nb)
  have hv : Beside F s0.blocks (wrN s r.near (bs.take r.nb)) v := ((hu.setCtx b n _).countReads _).wrN cl _ _
  have whole : OnlyMem s0 v := (onlyMem_countReads s0 _).trans (onlyMem_wrN (s := countReads s0 _) (hu.clean cl).copied ..)
  have blk (k : Blk) : v.blk k = s0.blk k := blk_congr (by rw [whole]) k
  have queue (q : Qc) : v.q b q = u.q b q := by
    rw [State.q, blk]
    exact q_setCtx ..
  refine ⟨⟨?_, ?_, fun k hk => ?_, fun q hq => ?_, fun k hk => ?_, ?_⟩, ?_⟩
  · show v.mem = _
    rw [hv]
  · exact (ctx_setCtx ..).trans (if_pos rfl)
  · refine (ctx_setCtx ..).trans ((if_neg (Ne.symm hk)).trans ?_)
    rw [ctx_getWritten (hu.clean cl), ctx_setCtx, if_neg (Ne.symm hk)]
  · exact (q_setCtx ..).trans ((q_updQ_of_ne _ _ hq).trans (queue q))
  · exact (blk_setCtx_of_ne _ hk ..).trans <| (blk_updQ_of_ne _ _ hk).trans ((blk k).trans (blk_setCtx_of_ne _ hk ..))
  · exact (memAndBlocks_of_onlyMem (u := u) (k := s0.blocks) whole).withBlocks _ _
  · refine ⟨{ g with out := g.out ++ bs.take r.nb }, ?_, rfl, rfl, hd⟩
    rw [show w.q b .IQ = _ from q_setCtx ..]
    exact mem_noteOut (by rw [queue]; exact hg) hd _

/-- A context whose stream still has requests out stays as it is. -/
theorem settle_out {w : State} {x : Active} (h : (w.ctx b n).active = some x) (hl : ¬(x.todo = [] ∧ x.sent = [])) :
    settle w b n = w := by
  have out : (!x.todo.isEmpty || !x.sent.isEmpty || (x.coll && x.fail.isNone)) = true := by
    simp only [not_and_or] at hl
    rcases hl with hl | hl <;> simp [hl]
  unfold settle
  dsimp only
  rw [h]
  exact if_pos out

/-- A GET whose last request has landed finishes, and its context is idle. -/
theorem getLands_finish {m w : State} {c : Ctx} (L : GetLands u m b n c w) {x : InFl} (hx : x ∈ (w.q b .IQ).inflight)
    (hi : x.idx = g.idx) (hc : x.cmd = g.cmd) (hd : x.done = none) (c' : Ctx) :
    let t := finish (w.setCtx b n c') b .IQ g.idx .ok
    GetLands u m b n c' t ∧ Safety.Finished b .IQ g .ok t := by
  intro t
  refine ⟨⟨L.mem, ?_, fun k hk => ?_, fun q hq => ?_, fun k hk => ?_, L.rest.withBlocks _ _⟩,
    { x with started := true, done := some .ok }, ?_, hi, hc, rfl⟩
  · exact (ctx_updQ ..).trans ((ctx_setCtx ..).trans (if_pos rfl))
  · exact (ctx_updQ ..).trans ((ctx_setCtx ..).trans ((if_neg (Ne.symm hk)).trans (L.ctxs k hk)))
  · exact (q_updQ_of_ne _ _ hq).trans ((q_setCtx ..).trans (L.queues q hq))
  · exact (blk_updQ_of_ne _ _ hk).trans ((blk_setCtx_of_ne _ hk ..).trans (L.others k hk))
  · show _ ∈ (State.q (updInFl _ _ _ _ _) b .IQ).inflight
    rw [updInFl, q_updQ, q_setCtx]
    exact List.mem_map.2 ⟨x, hx, if_pos ⟨hi, hd⟩⟩

/-- The landed bytes of a GET's request, with its context settled: with the last request the GET finishes. -/
theorem getLanded_lands {s : State} {F : Fabric} {B : SMap Block} (cl : Safety.Clean s) (hu : Beside F B s u)
    (hg : g ∈ (u.q b .IQ).inflight) (hd : g.done = none) (ha : (u.ctx b n).active = some a) (hi : a.idx = g.idx)
    (hq : (u.ctx b n).oq = false) (hc : a.coll = false) (hf : a.fail = none)
    (hr : a.sent.find? (fun r => r.no == no) = some r) (bs : List Byte) :
    let t := getLanded u b g n no bs
    let last := a.todo = [] ∧ a.sent.filter (fun r => r.no != no) = []
    ∃ c, GetLands u (wrN s r.near (bs.take r.nb)) b n c t ∧ c.own = (u.ctx b n).own + BitVec.ofNat 64 r.nb ∧
      (last → Safety.Finished b .IQ g .ok t ∧ c.state = .idle ∧ c.active = none) ∧
      (¬last → c.active = some (answered a no)) := by
  intro t last
  let c := landedCtx (u.ctx b n) a no r.nb
  obtain ⟨L, x, hx, hxi, hxc, hxd⟩ := getWritten_lands (a := a) (no := no) (r := r) cl hu hg hd bs c
  have e : t = _ := getLanded_clean (g := g) (hu.clean cl) ha hf hr bs
  have own : c.own = (u.ctx b n).own + BitVec.ofNat 64 r.nb := sluice_own _
  have act : c.active = some (answered a no) := sluice_active _
  have inbound : ctxQ c = .IQ := by
    rw [ctxQ, show c.oq = (u.ctx b n).oq from sluice_oq _, hq]
    rfl
  rw [show landedCtx (u.ctx b n) a no r.nb = c from rfl] at e
  generalize (getWritten u b g n no a r bs).setCtx b n c = w at L e hx
  have hact : (w.ctx b n).active = some (answered a no) := by rw [L.ctx, act]
  by_cases h : last
  · rw [settle_done hact h.1 h.2 hf hc, L.ctx, inbound, show (answered a no).idx = g.idx from hi] at e
    obtain ⟨L', finished⟩ := getLands_finish L hx hxi hxc hxd
      { c with active := none, state := .idle, aged := false, losses := 0, rush := false, ring := false }
    rw [e]
    exact ⟨_, L', own, fun _ => ⟨finished, rfl, rfl⟩, fun x => absurd h x⟩
  · rw [settle_out hact h] at e
    rw [e]
    exact ⟨c, L, own, fun x => absurd x h, fun _ => act⟩

end

/-! ### A RATOM's old values come back (R244) -/

/-- A RATOM with one more of its responses come, of status OK: with the last it is done. -/
def ratomCounted (f : InFl) : InFl :=
  { f with waiting := f.waiting - 1, done := if f.waiting ≤ 1 then some (f.failed.getD .ok) else none }

theorem ratomAnswer_counts (t : State) (b : Blk) (idx : Nat) :
    ratomAnswer t b idx .ok none = updInFl t b .OQ idx ratomCounted := rfl

theorem onlyInFlight_trans {b : Blk} {q : Qc} {s t u : State} (x : Safety.OnlyInFlight b q s t)
    (y : Safety.OnlyInFlight b q t u) : Safety.OnlyInFlight b q s u where
  rest := by rw [y.rest, x.rest]
  others a ha := (y.others a ha).trans (x.others a ha)
  block := by rw [y.block, x.block]
  queues r hr := (y.queues r hr).trans (x.queues r hr)
  queue := by rw [y.queue, x.queue]

/-- The commands in flight of one queue are those of another, changed in what does not make a COLL under way. -/
def SameUnder (l k : List InFl) : Prop :=
  ∀ y ∈ l, ∃ x ∈ k, y.cmd = x.cmd ∧ y.started = x.started ∧ (y.done = none → x.done = none)

theorem SameUnder.refl (l : List InFl) : SameUnder l l := fun y hy => ⟨y, hy, rfl, rfl, id⟩

theorem SameUnder.trans {l k j : List InFl} (a : SameUnder l k) (b : SameUnder k j) : SameUnder l j := by
  intro z hz
  obtain ⟨y, hy, hc, hs, hd⟩ := a z hz
  obtain ⟨x, hx, hc', hs', hd'⟩ := b y hy
  exact ⟨x, hx, hc.trans hc', hs.trans hs', fun h => hd' (hd h)⟩

theorem sameUnder_updInFl (t : State) (b : Blk) (q : Qc) (i : Nat) {k : InFl → InFl}
    (hk : ∀ x, (k x).cmd = x.cmd ∧ (k x).started = x.started) :
    SameUnder ((updInFl t b q i k).q b q).inflight (t.q b q).inflight := by
  intro y hy
  rw [updInFl, q_updQ] at hy
  obtain ⟨x, hx, rfl⟩ := List.mem_map.1 hy
  refine ⟨x, hx, ?_⟩
  split
  case isTrue h => exact ⟨(hk x).1, (hk x).2, fun _ => h.2⟩
  case isFalse => exact ⟨rfl, rfl, id⟩

theorem collUnderWay_none_iff (s : State) (hedge : Nat) : collUnderWay s hedge = none ↔
    ∀ b ∈ gradeBlocks s, ∀ f ∈ (s.q b .OQ).inflight,
      ¬(f.cmd.opcode == 0x56 && fld f.cmd.w3 0 16 == hedge && f.started && f.done.isNone) = true := by
  simp only [collUnderWay, List.findSome?_eq_none_iff, Option.map_eq_none_iff, List.find?_eq_none]

/-- No COLL comes under way where commands in flight change in nothing that makes one so. -/
theorem collUnderWay_keeps {s w : State} (hg : w.fuses = s.fuses)
    (h : ∀ b, SameUnder (w.q b .OQ).inflight (s.q b .OQ).inflight) {hedge : Nat} (hs : collUnderWay s hedge = none) :
    collUnderWay w hedge = none := by
  rw [collUnderWay_none_iff] at hs ⊢
  intro b hb y hy
  obtain ⟨x, hx, hc, hst, hd⟩ := h b y hy
  have grade : gradeBlocks w = gradeBlocks s := by unfold gradeBlocks; rw [hg]
  have none_x := hs b (grade ▸ hb) x hx
  simp only [Bool.and_eq_true, Option.isNone_iff_eq_none] at none_x ⊢
  rintro ⟨⟨hcmd, hstart⟩, hdone⟩
  exact none_x ⟨⟨hc ▸ hcmd, hst ▸ hstart⟩, hd hdone⟩

/-- What a RATOM's response leaves of a node: memory, and its place among the commands in flight of OQ. -/
structure RatomLands (u m : State) (b : Blk) (g : InFl) (w : State) : Prop where
  mem : w.mem = m.mem
  ends : g.waiting = 1 → Safety.Finished b .OQ g .ok w
  waits : 1 < g.waiting → ∃ x, x ∈ (w.q b .OQ).inflight ∧ x.idx = g.idx ∧ x.cmd = g.cmd ∧ x.done = none ∧
    x.waiting = g.waiting - 1
  under : SameUnder (w.q b .OQ).inflight (u.q b .OQ).inflight
  ctxs : ∀ k, w.ctx b k = u.ctx b k
  queues : ∀ q, q ≠ .OQ → w.q b q = u.q b q
  others : ∀ k, k ≠ b → w.blk k = u.blk k
  rest : MemAndBlocks u w

/-- The response counts for the command, which stands in flight as `x` and waits for as many as before. -/
theorem ratomAnswer_lands {u v : State} {b : Blk} {g x : InFl} (hv : OnlyMem u v) {y : State}
    (hy : Safety.OnlyInFlight b .OQ v y) (hu : SameUnder (y.q b .OQ).inflight (v.q b .OQ).inflight)
    (hx : x ∈ (y.q b .OQ).inflight) (hi : x.idx = g.idx) (hc : x.cmd = g.cmd) (hd : x.done = none)
    (hf : x.failed = none) (hw : x.waiting = g.waiting) : RatomLands u v b g (ratomAnswer y b g.idx .ok none) := by
  rw [ratomAnswer_counts]
  have only : Safety.OnlyInFlight b .OQ v (updInFl y b .OQ g.idx ratomCounted) :=
    onlyInFlight_trans hy (onlyInFlight_updInFl y y.decoded b .OQ g.idx ratomCounted)
  have blk (k : Blk) : v.blk k = u.blk k := blk_congr (by rw [hv]) k
  have queue (q : Qc) : v.q b q = u.q b q := by rw [State.q, blk, State.q]
  have flight : ratomCounted x ∈ ((updInFl y b .OQ g.idx ratomCounted).q b .OQ).inflight := by
    rw [updInFl, q_updQ]
    exact List.mem_map.2 ⟨x, hx, if_pos ⟨hi, hd⟩⟩
  refine ⟨by rw [only.rest], fun h => ⟨_, flight, hi, hc, ?_⟩, fun h => ⟨_, flight, hi, hc, ?_, ?_⟩, ?_, fun k => ?_,
    fun q hq => (only.queues q hq).trans (queue q), fun k hk => (only.others k hk).trans (blk k), ?_⟩
  · show (if x.waiting ≤ 1 then some (x.failed.getD .ok) else none) = _
    rw [if_pos (by omega), hf]
    rfl
  · exact if_neg (by omega)
  · show x.waiting - 1 = _
    rw [hw]
  · rw [← queue]
    exact (sameUnder_updInFl y b .OQ g.idx (k := ratomCounted) fun _ => ⟨rfl, rfl⟩).trans hu
  · rw [ctx_of_onlyInFlight only, State.ctx, blk, State.ctx]
  · have whole := memAndBlocks_of_onlyMem (u := u) (k := u.blocks) hv
    rw [only.rest]
    exact whole.withBlocks _ _

/-- The old values of a response written to a tensor, from element `no` on. -/
def oldsWritten (s : State) (d : Desc) (no : Nat) (bs : List Byte) : State :=
  (List.range (bs.length / d.fmt.bytes)).foldl (fun u i =>
    wrN u (d.elemNpa (no + i)) (slice bs (d.fmt.bytes * i) d.fmt.bytes)) s

/-- They are written beside a node as on it. -/
theorem oldsWritten_beside {F : Fabric} {B : SMap Block} {s u : State} (cl : Safety.Clean s) (hu : Beside F B s u) (d : Desc)
    (no : Nat) (bs : List Byte) :
    Beside F B (oldsWritten s d no bs) (oldsWritten u d no bs) ∧ OnlyMem u (oldsWritten u d no bs) := by
  obtain ⟨hb, -, hm⟩ := foldl_related (fun x y => Beside F B x y ∧ Safety.Clean x ∧ OnlyMem u y) _ _
    (fun x y i (h : Beside F B x y ∧ Safety.Clean x ∧ OnlyMem u y) =>
      ⟨h.1.wrN h.2.1 (d.elemNpa (no + i)) (slice bs (d.fmt.bytes * i) d.fmt.bytes), clean_wrN h.2.1 .., h.2.2.trans
        (onlyMem_wrN (h.1.clean h.2.1).copied ..)⟩)
    (List.range (bs.length / d.fmt.bytes)) ⟨hu, cl, OnlyMem.refl u⟩
  exact ⟨hb, hm⟩

/-- A response of status OK brings a RATOM its old values where W3 names a tensor. -/
theorem ratomOlds_lands {F : Fabric} {B : SMap Block} {s u : State} {b : Blk} {g : InFl} (cl : Safety.Clean s)
    (hu : Beside F B s u) (hg : g ∈ (u.q b .OQ).inflight) (hd : g.done = none) (hf : g.failed = none) (no : Nat)
    (bs : List Byte) :
    RatomLands u (match opnd u g 3 with
      | some d => oldsWritten s d no bs
      | none => s) b g (ratomOlds u b g no bs) := by
  unfold ratomOlds
  cases opnd u g 3 with
  | none =>
    have stays : Safety.OnlyInFlight b .OQ u u := ⟨rfl, fun _ _ => rfl, rfl, fun _ _ => rfl, rfl⟩
    have L := ratomAnswer_lands (OnlyMem.refl u) stays (SameUnder.refl _) hg rfl rfl hd hf rfl
    have mem : u.mem = s.mem := by rw [hu]
    exact { L with mem := L.mem.trans mem }
  | some d =>
    let runs := partialRuns ((List.range (bs.length / d.fmt.bytes)).map fun i => Run.mk (d.elemNpa (no + i)) d.fmt.bytes)
    let v := oldsWritten (countReads u runs) d no bs
    obtain ⟨hb, hm⟩ := oldsWritten_beside cl (hu.countReads runs) d no bs
    have hv : OnlyMem u v := (onlyMem_countReads u runs).trans hm
    have queue : (v.q b .OQ).inflight = (u.q b .OQ).inflight := by
      rw [State.q, blk_congr (s := u) (by rw [hv]), State.q]
    have noted := mem_noteOut (t := v) (by rw [queue]; exact hg) hd bs
    have L := ratomAnswer_lands (g := g) hv (onlyInFlight_updInFl v v.decoded b .OQ g.idx fun f => { f with out := f.out ++ bs })
      (sameUnder_updInFl v b .OQ g.idx fun _ => ⟨rfl, rfl⟩) noted rfl rfl hd hf rfl
    have mem : v.mem = (oldsWritten s d no bs).mem := by rw [show v = _ from hb]
    dsimp only
    rw [touch_clean (s := u) (hu.clean cl).lines]
    exact { L with mem := L.mem.trans mem }

/-! ### The rows -/

/-- What the row of a response leaves of the node besides its effect: its number is consumed, it is no longer awaited, and
one block alone may have changed. -/
structure ResponseTaken (s : State) (f : Frame) (b : Blk) (l : List Await) (t : State) : Prop where
  pair : t.pair f.hdr.src = { s.pair f.hdr.src with rxNext := f.hdr.seq + 1, empty := 0 }
  awaiting : t.fab.awaiting = l
  pairs : ∀ m, m ≠ f.hdr.src → t.pair m = s.pair m
  others : ∀ k, k ≠ b → t.blk k = s.blk k
  rest : t = { s with
    mem := t.mem, host := t.host, lineFault := t.lineFault, harts := t.harts, blocks := t.blocks, decoded := t.decoded
    fab := { s.fab with
      pairs := t.fab.pairs, heard := t.fab.heard, awaiting := t.fab.awaiting, ports := (notePn s f).fab.ports } }

/-- What a response's effect leaves of a node made ready for it. -/
structure ResponseLands (s u : State) (b : Blk) (l : List Await) (w : State) : Prop where
  others : ∀ k, k ≠ b → w.blk k = s.blk k
  under : SameUnder (w.q b .OQ).inflight (s.q b .OQ).inflight
  rest : MemAndBlocks (awaiting u l) w

/-- The row of a response that is the next of its pair takes the response's effect, of which `P` tells. -/
theorem responseRow_takes {s : State} {f : Frame} (ha : Safety.Arrives s f) (ho : Safety.InOrder s f) (ht : f.hdr.type = tData)
    (hj : jobChecks s f = none) {op : Byte} (hop : f.hdr.opcode = op) (hr : op = oGetResp ∨ op = oAtomicResp) (b : Blk)
    (l : List Await) {P : State → Prop} (hP : ∀ w n k, P w → P (w.setPair n k))
    (eff : ∀ heard pairs ports, let u := fabWith s heard pairs ports
      ResponseLands s u b l (applyAny u f) ∧ P (applyAny u f)) :
    ∃ t, frameRow tData op f s = .next t ∧ P t ∧ ResponseTaken s f b l t := by
  have early : collEarly s f.hdr = false := collEarly_of_collData <| by
    refine collData_of_opcode ?_ ?_ <;> rw [hop] <;> rcases hr with rfl | rfl <;> decide
  obtain ⟨u, hu, next⟩ := frameRow_next ha ho ht hop early
    (passOn_next (by rw [ht]; decide) (by rw [ht]; decide) hj)
  obtain ⟨heard, pairs, notes⟩ := hu.notes
  have e : ResponseLands s u b l (applyAny u f) ∧ P (applyAny u f) := by
    rw [notes]
    exact eff ..
  generalize applyAny u f = w at e next
  obtain ⟨E, p⟩ := e
  have same : w.fab.pairs = u.fab.pairs := by rw [E.rest]; rfl
  have under (k : Blk) : SameUnder (w.q k .OQ).inflight (s.q k .OQ).inflight := by
    by_cases h : k = b
    · exact h ▸ E.under
    · rw [State.q, E.others k h, ← State.q]
      exact SameUnder.refl _
  have idle (g : Nat) : collUnderWay w g = none :=
    collUnderWay_keeps (by rw [E.rest, notes]; rfl) under (ha.colls g)
  refine ⟨_, next same idle, hP _ _ _ p, (pair_setPair ..).trans hu.pair, ?_, fun m hm => ?_, E.others, ?_⟩
  · show w.fab.awaiting = l
    rw [E.rest]
    rfl
  · refine (pair_setPair_of_ne _ hm).trans (Eq.trans ?_ (hu.others m hm))
    rw [State.pair, same, State.pair]
  · rw [E.rest, notes]
    rfl

/-- What a GET's row shows of the request that its response answers. -/
structure GetReached (s : State) (b : Blk) (g : InFl) (n no : Nat) (a : Active) (r : SReq) (bs : List Byte) (t : State) :
    Prop where
  mem : t.mem = (wrN s r.near (bs.take r.nb)).mem
  own : (t.ctx b n).own = (s.ctx b n).own + BitVec.ofNat 64 r.nb
  ends : a.todo = [] ∧ a.sent.filter (fun r => r.no != no) = [] →
    Safety.Finished b .IQ g .ok t ∧ (t.ctx b n).state = .idle ∧ (t.ctx b n).active = none
  stays : ¬(a.todo = [] ∧ a.sent.filter (fun r => r.no != no) = []) → (t.ctx b n).active = some (answered a no)
  ctxs : ∀ m, m ≠ n → t.ctx b m = s.ctx b m
  queues : ∀ q, q ≠ .IQ → t.q b q = s.q b q

/-- What a RATOM's row shows of the command that its response reaches. -/
structure RatomReached (s m : State) (b : Blk) (g : InFl) (t : State) : Prop where
  mem : t.mem = m.mem
  ends : g.waiting = 1 → Safety.Finished b .OQ g .ok t
  waits : 1 < g.waiting → ∃ x, x ∈ (t.q b .OQ).inflight ∧ x.idx = g.idx ∧ x.cmd = g.cmd ∧ x.done = none ∧
    x.waiting = g.waiting - 1
  ctxs : ∀ k, t.ctx b k = s.ctx b k
  queues : ∀ q, q ≠ .OQ → t.q b q = s.q b q

section
variable {s : State} {f : Frame} {b : Blk} {idx no hedge : Nat} {l : List Await} {g : InFl} (cl : Safety.Clean s)
  (ht : f.hdr.type = tData) (hs : f.hdr.subop = 0) (heard : List Nat) (pairs : SMap Pair) (ports : SMap Port)
include cl ht hs

/-- The effect of a GET_RESP of status OK. -/
theorem effect_getResp (hop : f.hdr.opcode = oGetResp)
    (haw : s.fab.awaiting = ⟨f.hdr.src, f.hdr.offset.setWidth 32, .cmd b .IQ idx no, hedge⟩ :: l)
    (hg : orgCmd s b .IQ idx = some g) {n : Nat} {a : Active} {r : SReq} (hn : orgCtx s b g = some n)
    (hact : (s.ctx b n).active = some a) (hoq : (s.ctx b n).oq = false) (hcoll : a.coll = false) (hfail : a.fail = none)
    (hfind : a.sent.find? (fun r => r.no == no) = some r) :
    let u := fabWith s heard pairs ports
    ResponseLands s u b l (applyAny u f) ∧
      GetReached s b g n no a r (f.data.take f.hdr.length.toNat) (applyAny u f) := by
  intro u
  let v := awaiting u l
  obtain ⟨hm, -, -, hd⟩ := orgCmd_spec hg
  have run : applyAny u f = getLanded v b g n no (f.data.take f.hdr.length.toNat) := by
    have same : orgCtx v b g = some n := hn
    rw [applyAny_of_ne_bulk u (by rw [ht]; decide), applyFrame_response u ht (.inl hop),
      respApply_reaches (u := u) hs haw hg, if_pos hop, same]
  obtain ⟨c, L, own, done, more⟩ := getLanded_lands (u := v) (g := g) (F := v.fab) (B := s.blocks) cl rfl hm hd hact
    (orgCtx_idx hn hact) hoq hcoll hfail hfind (f.data.take f.hdr.length.toNat)
  rw [run]
  refine ⟨⟨L.others, ?_, L.rest⟩, L.mem, ?_, fun h => ?_, fun h => ?_, L.ctxs, L.queues⟩
  · rw [L.queues .OQ (by decide)]
    exact SameUnder.refl _
  · rw [L.ctx, own]
    rfl
  · rw [L.ctx]
    exact done h
  · rw [L.ctx]
    exact more h

/-- The effect of an ATOMIC_RESP of status OK. -/
theorem effect_atomicResp (hop : f.hdr.opcode = oAtomicResp)
    (haw : s.fab.awaiting = ⟨f.hdr.src, f.hdr.offset.setWidth 32, .cmd b .OQ idx no, hedge⟩ :: l)
    (hg : orgCmd s b .OQ idx = some g) (hf : g.failed = none) :
    let u := fabWith s heard pairs ports
    let bs := f.data.take f.hdr.length.toNat
    ResponseLands s u b l (applyAny u f) ∧ RatomReached s (match opnd s g 3 with
      | some d => oldsWritten s d no bs
      | none => s) b g (applyAny u f) := by
  intro u bs
  let v := awaiting u l
  obtain ⟨hm, -, -, hd⟩ := orgCmd_spec hg
  have other : ¬f.hdr.opcode = oGetResp := by rw [hop]; decide
  have run : applyAny u f = ratomOlds v b g no bs := by
    rw [applyAny_of_ne_bulk u (by rw [ht]; decide), applyFrame_response u ht (.inr hop),
      respApply_reaches (u := u) hs haw hg, if_neg other]
  have L := ratomOlds_lands (u := v) (F := v.fab) (B := s.blocks) cl rfl hm hd hf no bs
  rw [run]
  exact ⟨⟨L.others, L.under, L.rest⟩, L.mem, L.ends, L.waits, L.ctxs, L.queues⟩

end

/-- Settles O35: the response's effect on the stream or the command that awaits it, let happen by the delivery of the next
frame of a pair. -/
theorem responsesReachTheirRequests : Obligations.ResponsesReachTheirRequests := by
  unfold Obligations.ResponsesReachTheirRequests
  intro s f b idx no hedge l g cl ha ho ht hj hs h bs back
  have returned {t : State} (r : ResponseTaken s f b l t) : back t := ⟨r.pair, r.awaiting, r.pairs, r.others, r.rest⟩
  refine ⟨fun hop haw hg n a r hn hact _ hoq hcoll hfail hfind => ?get, fun hop haw hg hf _ => ?ratom⟩
  case get =>
    obtain ⟨t, he, p, taken⟩ := responseRow_takes (P := GetReached s b g n no a r bs) ha ho ht hj hop (.inl rfl) b l
      (fun _ _ _ p => ⟨p.mem, p.own, p.ends, p.stays, p.ctxs, p.queues⟩)
      (fun heard pairs ports => effect_getResp cl ht hs heard pairs ports hop haw hg hn hact hoq hcoll hfail hfind)
    exact ⟨t, he, p.mem, p.own, p.ends, p.stays, p.ctxs, p.queues, returned taken⟩
  case ratom =>
    obtain ⟨t, he, p, taken⟩ := responseRow_takes ha ho ht hj hop (.inr rfl) b l
      (fun _ _ _ p => ⟨p.mem, p.ends, p.waits, p.ctxs, p.queues⟩)
      (fun heard pairs ports => effect_atomicResp (no := no) cl ht hs heard pairs ports hop haw hg hf)
    exact ⟨t, he, p.mem, p.ends, p.waits, p.ctxs, p.queues, returned taken⟩

end Sys2Proof.Laws
end

-- ==== VectorRows ====
section
/-!
O14: the vector engine and the reduction unit (05 R137 to R150). Each row writes its results over a mask, so it completes with
what `maskedWrite_clean` says of them; the reduction's results are told from its active elements, taken by their numbers.
-/
namespace Sys2Proof.Laws

open Sys2Proof.Machine

/-! ### The active elements of a reduction (R147) -/

/-- The elements as the reduction unit collects them: none where the mask is off. -/
def activeElems (n : Nat) (on : Nat → Bool) (v : Nat → Nat × Fl) : List (Option (Nat × Fl)) :=
  (List.range n).map fun e => if on e then some (v e) else none

theorem activeElems_getD (n : Nat) (on : Nat → Bool) (v : Nat → Nat × Fl) (e : Nat) :
    (((activeElems n on v).getD e none).map Prod.fst).getD 0 = if e < n ∧ on e = true then (v e).1 else 0 := by
  by_cases h : e < n <;> by_cases k : on e = true <;> simp [activeElems, List.getD_eq_getElem?_getD, h, k]

theorem activeElems_flags (n : Nat) (on : Nat → Bool) (v : Nat → Nat × Fl) :
    (activeElems n on v).foldl (fun a x => a ||| ((x.map Prod.snd).getD 0)) (0 : Fl) =
      (List.range n).foldl (fun a e => if on e then a ||| (v e).2 else a) (0 : Fl) := by
  rw [activeElems, List.foldl_map]
  congr 1
  funext a e
  split <;> simp

/-- The active elements whose number satisfies `p`, each with its number. -/
theorem activeElems_pick {α : Type} (n : Nat) (on : Nat → Bool) (v : Nat → Nat × Fl) (p : Nat → Prop) [DecidablePred p]
    (g : Nat → Nat → α) :
    ((activeElems n on v).zipIdx.filterMap fun x => match x.1 with
      | some y => if p x.2 then some (g x.2 y.1) else none
      | none => none) =
    (List.range n).filterMap fun e => if on e = true ∧ p e then some (g e (v e).1) else none := by
  have numbered : (activeElems n on v).zipIdx = (List.range n).map fun e => (if on e then some (v e) else none, e) := by
    apply List.ext_getElem <;> simp [activeElems]
  rw [numbered, List.filterMap_map]
  congr 1
  funext e
  by_cases k : on e = true <;> simp [k]

/-! ### The rows -/

/-- Settles O14: each row is one masked write of its results. -/
theorem vectorCommandsComplete : Obligations.VectorCommandsComplete := by
  unfold Obligations.VectorCommandsComplete
  intro s b f cl h hd s0 completes x
  have hm := nextStart_mem h
  have row {i : Instr} {op eng : Nat} {run : State → InFl → State} (outs : List (Desc × Option Desc × (Nat → Nat × Fl)))
      (he : exec i s = .next (engine s b .VQ op run)) (ho : f.cmd.opcode = op)
      (hr : ∃ reads masked free, run s f = maskedWrite s b f.idx eng reads masked outs free) :
      completes i eng outs := by
    obtain ⟨reads, masked, free, hr⟩ := hr
    exact ⟨_, by rw [he, engine_run h ho, hr], maskedWrite_clean cl b f hm hd eng reads masked outs free⟩
  refine ⟨?vop, ?vred, ?vcomp, ?vexp, ?vconv⟩
  case vop => exact fun ho => row _ rfl ho ⟨_, _, _, rfl⟩
  case vred =>
    intro ho w r m vf wn lap use elem fl slice
    have valued := activeElems_getD x.size (maskOn s m) elem
    have flagged : fl = _ := (activeElems_flags x.size (maskOn s m) elem).symm
    have picked (k : Nat) : slice k = _ := (activeElems_pick x.size (maskOn s m) elem
      (fun e => sliceOf (vredAxis f.cmd) x.counts e = k) fun e y => (sliceIndex (vredAxis f.cmd) x.counts e, y)).symm
    refine row _ rfl ho ?_
    simp only [flagged, picked, ← valued]
    exact ⟨_, _, _, rfl⟩
  case vcomp => exact fun ho => row _ rfl ho ⟨_, _, _, rfl⟩
  case vexp => exact fun ho => row _ rfl ho ⟨_, _, _, rfl⟩
  case vconv => exact fun ho => row _ rfl ho ⟨_, _, _, rfl⟩

end Sys2Proof.Laws
end

-- ==== TensorRows ====
section
/-!
O15: the tensor engine (05 R126 to R136). With no line in error and no residue mismatch every tile passes on its first run, so
a TMUL is the rows of its tiles written one after the other, their elements those of the operands as the command found them;
a TSCAN is one tensor written.
-/
namespace Sys2Proof.Laws

open Sys2Proof.Machine

/-! ### Rows of a result written one after the other -/

/-- Rows of elements with their flags, each written at its place. -/
def putRows (fmt : Fmt) (l : List (Run × List (Nat × Fl))) (u : State) : State :=
  l.foldl (fun u r => (wrRow u fmt r.1.npa (r.2.map fun e => some e.1)).1) u

/-- The flags of rows of elements, ORed to `a`. -/
def rowsFlags (l : List (Run × List (Nat × Fl))) (a : Fl) : Fl :=
  l.foldl (fun a r => r.2.foldl (fun a e => a ||| e.2) a) a

theorem putRows_append (fmt : Fmt) (l m : List (Run × List (Nat × Fl))) (u : State) :
    putRows fmt (l ++ m) u = putRows fmt m (putRows fmt l u) := List.foldl_append

theorem rowsFlags_append (l m : List (Run × List (Nat × Fl))) (a : Fl) :
    rowsFlags (l ++ m) a = rowsFlags m (rowsFlags l a) := List.foldl_append

/-- Lines stay good and granules copied when a row is written. -/
theorem clean_wrRow {s : State} (cl : Safety.Clean s) (f : Fmt) (row : Nat) (raws : List (Option Nat)) :
    Safety.Clean (wrRow s f row raws).1 := by
  unfold wrRow
  split
  case isTrue =>
    split
    case isTrue => exact clean_wrN cl _ _
    case isFalse =>
      generalize f.group = m
      refine List.foldlRecOn (motive := fun acc : State × List Byte => Safety.Clean acc.1) _ _ cl fun acc h g _ => ?_
      dsimp only
      split
      · exact clean_wrN h _ _
      · exact h
  case isFalse =>
    refine List.foldlRecOn (motive := fun acc : State × List Byte => Safety.Clean acc.1) _ _ cl fun acc h e _ => ?_
    split
    · exact h
    · exact clean_wrN h _ _

theorem clean_putRows (fmt : Fmt) (l : List (Run × List (Nat × Fl))) {u : State} (cl : Safety.Clean u) :
    Safety.Clean (putRows fmt l u) :=
  List.foldlRecOn (motive := Safety.Clean) _ _ cl fun _ h _ _ => clean_wrRow h _ _ _

/-- Rows written are the same whatever lines have been counted and free values drawn. -/
theorem putRows_counts (fmt : Fmt) (l : List (Run × List (Nat × Fl))) {u : State} (cl : Safety.Clean u) (x : SMap Nat)
    (n : Nat) : putRows fmt l (withCounts u x n) = withCounts (putRows fmt l u) x n := by
  induction l generalizing u with
  | nil => rfl
  | cons r l ih =>
    have h := wrRow_counts cl.copied x n fmt r.1.npa (r.2.map fun e => some e.1)
    rw [putRows, List.foldl_cons, h]
    exact ih (clean_wrRow cl _ _ _)

/-- Rows written after lines have been counted change their own bytes and nothing else. -/
theorem putRows_frame {s v : State} (cl : Safety.Clean v) (h : OnlyMem s v) (same : ∀ a, rd v a = rd s a) (fmt : Fmt)
    (l : List (Run × List (Nat × Fl))) (fits : ∀ r ∈ l, fmt.bytesOf r.2.length = r.1.len) :
    OnlyMem s (putRows fmt l v) ∧
      ∀ a, Safety.Outside s (l.map Prod.fst) a → rd (putRows fmt l v) a = rd s a := by
  refine ⟨h.trans (foldl_onlyMem _ (fun u r c => (wrRow_frame c _ _ _).1) l cl.copied), fun a ha => ?_⟩
  refine Eq.trans ((steps_frame cl.copied l _ Prod.fst fun u r hr c => ?_).2 a fun r hr i hi => ?_) (same a)
  · obtain ⟨only, outside⟩ := wrRow_frame c fmt r.1.npa (r.2.map fun e => some e.1)
    refine ⟨only.pan, fun a ha => outside a fun i hi => ha r.1 (List.mem_singleton_self _) i ?_⟩
    rwa [List.length_map, fits r hr] at hi
  · rw [h.place, h.place]
    exact ha r hr i hi

theorem putRows_map (fmt : Fmt) (l : List Nat) (place : Nat → Run) (cells : Nat → List (Nat × Fl)) (u : State) :
    putRows fmt (l.map fun i => (place i, cells i)) u =
      l.foldl (fun u i => (wrRow u fmt (place i).npa ((cells i).map fun e => some e.1)).1) u := List.foldl_map

theorem rowsFlags_map (l : List Nat) (place : Nat → Run) (cells : Nat → List (Nat × Fl)) (a : Fl) :
    rowsFlags (l.map fun i => (place i, cells i)) a = l.foldl (fun a i => (cells i).foldl (fun a e => a ||| e.2) a) a :=
  List.foldl_map

/-! ### The rows of a tile (R126 to R131, R136) -/

/-- The bytes of part of a row that begins at a multiple of 32 elements. -/
theorem runAt_len (d : Desc) (ix : List Nat) (j n : Nat) : (d.runAt ix (32 * j) n).len = d.fmt.bytesOf n := by
  unfold Desc.runAt Fmt.bytesOf
  by_cases hn : n = 0
  · subst hn
    cases d.fmt <;> rfl
  · cases d.fmt <;> simp only [Fmt.bits, cdiv, if_neg hn] <;> omega

/-- An element of a TMUL's result: free bits where the result overlaps what it reads (R125). -/
def tmulCell (v : State) (p : TP) (lap : Bool) (n i j : Nat) : Nat × Fl :=
  let x := tmulElem v p (batchIx p.r.counts n) n i j
  if lap then (freeRaw (drewN v p.r.ncw p.r.size) p.r.fmt (n * p.m * p.n + i * p.n + j), x.2) else x

/-- The rows of the tile `x.2` of batch element `x.1`. -/
def tileRows (v : State) (p : TP) (lap : Bool) (x : Nat × Nat × Nat) : List (Run × List (Nat × Fl)) :=
  let wide := min 32 (p.n - 32 * x.2.2)
  ((List.range (min 32 (p.m - 32 * x.2.1))).map fun i => 32 * x.2.1 + i).map fun i =>
    (p.r.runAt (i :: batchIx p.r.counts x.1) (32 * x.2.2) wide,
      (List.range wide).map fun j => tmulCell v p lap x.1 i (32 * x.2.2 + j))

theorem tileRows_fit (v : State) (p : TP) (lap : Bool) (x : Nat × Nat × Nat) :
    ∀ r ∈ tileRows v p lap x, p.r.fmt.bytesOf r.2.length = r.1.len := by
  intro r hr
  obtain ⟨i, -, rfl⟩ := List.mem_map.1 hr
  simp [runAt_len]

/-- With no line in error a tile that has passed is its rows, written; merging only counts lines. -/
theorem tileWrite_clean (v : State) (w : TWalk) (hl : w.s.lineFault = []) (p : TP) (x : Nat × Nat × Nat) (lap : Bool) :
    ∃ y, tileWrite v w p (batchIx p.r.counts x.1) x.1 x.2.1 x.2.2 lap =
      { w with s := putRows p.r.fmt (tileRows v p lap x) (withCounts w.s y w.s.free)
               fl := rowsFlags (tileRows v p lap x) w.fl } := by
  let place := fun i => p.r.runAt ((32 * x.2.1 + i) :: batchIx p.r.counts x.1) (32 * x.2.2) (min 32 (p.n - 32 * x.2.2))
  let cells := fun i => (List.range (min 32 (p.n - 32 * x.2.2))).map fun j =>
    tmulCell v p lap x.1 (32 * x.2.1 + i) (32 * x.2.2 + j)
  have rows : tileRows v p lap x = (List.range (min 32 (p.m - 32 * x.2.1))).map fun i => (place i, cells i) :=
    List.map_map
  refine ⟨(countReads w.s (partialRuns ((tileRows v p lap x).map Prod.fst))).decoded, ?_⟩
  unfold tileWrite
  dsimp only
  rw [touch_clean hl]
  dsimp only
  rw [List.zip_map', List.foldl_map, List.foldl_map, rows, putRows, rowsFlags, List.foldl_map, List.foldl_map, List.map_map]
  simp only [place, cells, tmulCell, Nat.add_assoc, Function.comp_def]
  rfl

/-- With no line in error and no residue mismatch a tile passes on its first run (R135). -/
theorem tileGo_clean (v : State) (b : Blk) (w : TWalk) (hl : w.s.lineFault = []) (p : TP) (x : Nat × Nat × Nat)
    (tile : Nat) (lap : Bool) :
    ∃ y, tileGo v p b [] lap (batchIx p.r.counts x.1) x.1 tile x.2.1 x.2.2 3 1 w =
      { w with s := putRows p.r.fmt (tileRows v p lap x) (withCounts w.s y w.s.free)
               fl := rowsFlags (tileRows v p lap x) w.fl } := by
  unfold tileGo
  dsimp only
  rw [touch_clean hl]
  exact tileWrite_clean v { w with s := countReads w.s _ } hl p x lap

/-- One more tile of a walk that has not ended. -/
def tileStep (v : State) (b : Blk) (p : TP) (lap : Bool) (w : TWalk) (x : (Nat × Nat × Nat) × Nat) : TWalk :=
  match w.stop with
  | some _ => w
  | none => tileGo v p b [] lap (batchIx p.r.counts x.1.1) x.1.1 x.2 x.1.2.1 x.1.2.2 3 1 w

/-- With no line in error and no residue mismatch, tiles are their rows written one after the other. -/
theorem tileSteps_clean (v : State) (b : Blk) (p : TP) (lap : Bool) (l : List ((Nat × Nat × Nat) × Nat)) {u : State}
    (cl : Safety.Clean u) (y : SMap Nat) (n : Nat) (fl : Fl) :
    let rows := (l.map Prod.fst).flatMap (tileRows v p lap)
    ∃ z, l.foldl (tileStep v b p lap) { s := withCounts u y n, fl := fl } =
      { s := withCounts (putRows p.r.fmt rows u) z n, fl := rowsFlags rows fl } := by
  induction l generalizing u y fl with
  | nil => exact ⟨y, rfl⟩
  | cons x l ih =>
    obtain ⟨y', hy⟩ := tileGo_clean v b { s := withCounts u y n, fl := fl } cl.lines p x.1 x.2 lap
    obtain ⟨z, hz⟩ := ih (clean_putRows p.r.fmt (tileRows v p lap x.1) cl) y' (rowsFlags (tileRows v p lap x.1) fl)
    refine ⟨z, ?_⟩
    rw [List.foldl_cons, List.map_cons, List.flatMap_cons, putRows_append, rowsFlags_append, ← hz]
    refine congrArg (l.foldl (tileStep v b p lap)) (hy.trans ?_)
    rw [← putRows_counts p.r.fmt _ cl]

/-! ### The rows TMUL and TSCAN -/

/-- The tiles of a TMUL with their batch elements, in the order of their walk (R136). -/
def tmulTileList (p : TP) : List (Nat × Nat × Nat) :=
  (List.range (batches p.r)).flatMap fun n => (tileWalk p.m p.n).map fun t => (n, t)

/-- All rows that a TMUL writes. -/
def tmulRows (v : State) (p : TP) (lap : Bool) : List (Run × List (Nat × Fl)) :=
  (tmulTileList p).flatMap (tileRows v p lap)

theorem tmulTiles_clean {v : State} (cl : Safety.Clean v) (b : Blk) (p : TP) (lap : Bool) :
    ∃ y n, tmulTiles v b p [] lap =
      { s := withCounts (putRows p.r.fmt (tmulRows v p lap) v) y n, fl := rowsFlags (tmulRows v p lap) 0 } := by
  let n := if lap then (drewN v p.r.ncw p.r.size).free + 4 * p.r.size else (drewN v p.r.ncw p.r.size).free
  obtain ⟨y, hy⟩ := tileSteps_clean v b p lap (tmulTileList p).zipIdx cl v.decoded n 0
  refine ⟨y, n, ?_⟩
  rw [List.zipIdx_map_fst] at hy
  refine Eq.trans ?_ hy
  have start : (if lap then { drewN v p.r.ncw p.r.size with free := (drewN v p.r.ncw p.r.size).free + 4 * p.r.size }
      else drewN v p.r.ncw p.r.size) = withCounts v v.decoded n := by
    simp only [n]
    rw [drewN_eq]
    split <;> rfl
  unfold tmulTiles
  dsimp only
  rw [start]
  rfl

/-- The same as `engine_ends`, whatever lines have been counted and free values drawn on the way. -/
theorem engine_ends_counts {s u : State} {b : Blk} {q : Qc} {f : InFl} (hm : f ∈ (s.q b q).inflight) (hd : f.done = none)
    (K : OnlyMem (taken s b q f) u) (y : SMap Nat) (n eng : Nat) (fl : Fl) (st : Status) (bs : List Byte) (runs : List Run)
    (hr : ∀ a, Safety.Outside s runs a → rd u a = rd s a) :
    let t := finishOut (setFlags (withCounts u y n) b eng fl) b q f.idx st bs
    Safety.Finished b q f st t ∧ t.mem = u.mem ∧
      (t.blk b).flags = (s.blk b).flags ||| (fl.setWidth 16 <<< (4 * eng)) ∧ Safety.EngineOnly b q runs s t :=
  engine_ends hm hd (K.counts y) eng fl n st bs runs hr

/-- A TMUL without a residue mismatch is its rows written, its flags set, and its finish. -/
theorem tmulRun_eq {s : State} (cl : Safety.Clean s) (b : Blk) (f : InFl) :
    let p := tpOf s f
    let v := countReads (taken s b .TQ f) (tmulPre s p)
    let rows := tmulRows v p (tmulOverlap s p)
    ∃ y n bs, tmulRun s b f [] =
      finishOut (setFlags (withCounts (putRows p.r.fmt rows v) y n) b 0 (rowsFlags rows 0)) b .TQ f.idx .ok bs := by
  intro p v rows
  obtain ⟨y, n, tiles⟩ := tmulTiles_clean (v := v) ⟨cl.lines, cl.copied⟩ b p (tmulOverlap s p)
  refine ⟨y, n, p.r.runs.flatMap fun r => rdN (setFlags (withCounts (putRows p.r.fmt rows v) y n) b 0
    (rowsFlags rows 0)) r.npa r.len, ?_⟩
  unfold tmulRun
  dsimp only
  rw [withTouch_clean (s := taken s b .TQ f) cl.lines, tiles]

/-- What a TMUL without a residue mismatch leaves: its rows written, and their flags. -/
theorem tmulRun_clean {s : State} (cl : Safety.Clean s) {b : Blk} {f : InFl} (hm : f ∈ (s.q b .TQ).inflight)
    (hd : f.done = none) :
    let p := tpOf s f
    let v := countReads (taken s b .TQ f) (tmulPre s p)
    let rows := tmulRows v p (tmulOverlap s p)
    let t := tmulRun s b f []
    Safety.Finished b .TQ f .ok t ∧ t.mem = (putRows p.r.fmt rows v).mem ∧
      (t.blk b).flags = (s.blk b).flags ||| (rowsFlags rows 0).setWidth 16 ∧
      Safety.EngineOnly b .TQ (rows.map Prod.fst) s t := by
  intro p v rows t
  obtain ⟨y, n, bs, run⟩ := tmulRun_eq cl b f
  have fits : ∀ r ∈ rows, p.r.fmt.bytesOf r.2.length = r.1.len := fun r hr => by
    obtain ⟨x, -, hx⟩ := List.mem_flatMap.1 hr
    exact tileRows_fit _ _ _ _ r hx
  obtain ⟨only, outside⟩ := putRows_frame (s := taken s b .TQ f) (v := v) ⟨cl.lines, cl.copied⟩ (onlyMem_countReads _ _)
    (fun _ => rfl) p.r.fmt rows fits
  obtain ⟨finished, mem, flags, frame⟩ := engine_ends_counts hm hd only y n 0 (rowsFlags rows 0) .ok bs (rows.map Prod.fst)
    outside
  rw [show t = _ from run]
  exact ⟨finished, mem, by simpa using flags, frame⟩

/-- What a TSCAN leaves: the tensor of its anchors, and no flag (R132). -/
theorem tscanRun_clean {s : State} (cl : Safety.Clean s) {b : Blk} {f : InFl} (hm : f ∈ (s.q b .TQ).inflight)
    (hd : f.done = none) :
    let p := tpOf s f
    let v := countReads s (prescanRuns s p ++ partialRuns p.r.runs)
    let lap := ([p.a, p.b] ++ (if p.floatC then p.c.toList else []) ++ scanAux s p).any (extentsMeet p.r)
    let t := tscanRun s b f
    Safety.Finished b .TQ f .ok t ∧
      t.mem = (wrT v p.r fun e => some (if lap then freeRaw v .int32 e
        else tc 32 (prescan v p (batchIx p.r.counts (e / (p.m * p.n))) (e % (p.m * p.n) / p.n) (e % p.n)))).1.mem ∧
      (t.blk b).flags = (s.blk b).flags ∧ Safety.EngineOnly b .TQ p.r.runs s t := by
  intro p v lap t
  let w := wrT v p.r fun e => some (if lap then freeRaw v .int32 e
        else tc 32 (prescan v p (batchIx p.r.counts (e / (p.m * p.n))) (e % (p.m * p.n) / p.n) (e % p.n)))
  obtain ⟨only, outside⟩ : OnlyMem v w.1 ∧ ∀ a, Safety.Outside v p.r.runs a → rd w.1 a = rd v a :=
    wrT_frame (s := v) cl.copied p.r _
  have run : t = finishOut (if lap then { w.1 with free := w.1.free + 4 * p.r.size } else w.1) b .TQ f.idx .ok w.2 := by
    show tscanRun s b f = _
    unfold tscanRun
    dsimp only
    rw [withTouch_clean cl.lines]
  have drawn : (if lap then { w.1 with free := w.1.free + 4 * p.r.size } else w.1) =
      { w.1 with free := if lap then w.1.free + 4 * p.r.size else w.1.free } := by
    split <;> rfl
  rw [run, drawn]
  exact engine_ends_plain hm hd (OnlyMem.trans (onlyMem_countReads s _) only) _ .ok w.2 p.r.runs outside

/-- Settles O15: a TMUL is its tiles' rows one after the other, a TSCAN the tensor of its anchors. -/
theorem tensorCommandsComplete : Obligations.TensorCommandsComplete := by
  unfold Obligations.TensorCommandsComplete
  intro s b f cl h hd p
  have hm := nextStart_mem h
  refine ⟨?tmul, ?tscan⟩
  case tmul =>
    intro ho v elem tiles wide rows run row
    obtain ⟨finished, mem, flags, frame⟩ := tmulRun_clean cl hm hd
    refine ⟨_, congrArg Host.Outcome.next (engine_run h ho _), finished, mem.trans ?_, flags.trans ?_, ?_⟩
    · rw [putRows, tmulRows, List.foldl_flatMap]
      congr 2
      funext u x
      exact putRows_map _ (rows x) (run x) (row x) u
    · rw [rowsFlags, tmulRows, List.foldl_flatMap]
      congr 3
      funext a x
      exact rowsFlags_map (rows x) (run x) (row x) a
    · have runs : (tmulRows v p (tmulOverlap s p)).map Prod.fst = tiles.flatMap fun x => (rows x).map (run x) := by
        rw [tmulRows, List.map_flatMap]
        congr 1
        funext x
        exact List.map_map
      rw [← runs]
      exact frame
  case tscan =>
    intro ho v lap
    exact ⟨_, congrArg Host.Outcome.next (engine_run h ho _), tscanRun_clean cl hm hd⟩

end Sys2Proof.Laws
end

-- ==== Signals ====
section
/-!
O27: SIGNAL, FLAGS and READ of CQ (03 R92, 07 R193, 08 R222, 09 R252).
-/
namespace Sys2Proof.Laws

open Sys2Proof.Machine

section
variable {s : State} {b : Blk} {f : InFl}

/-! ### SIGNAL to a context's PEER (R222) -/

theorem q_setCtx_all (s : State) (k a : Blk) (n : Nat) (c : Ctx) (q : Qc) : (s.setCtx k n c).q a q = s.q a q := by
  by_cases h : a = k
  · rw [h, q_setCtx]
  · rw [State.q, blk_setCtx_of_ne s h, State.q]

theorem ctx_setCtx_of_ne {k x : Blk} {n m : Nat} (h : x ≠ k ∨ m ≠ n) (c : Ctx) : (s.setCtx k n c).ctx x m = s.ctx x m := by
  by_cases e : x = k
  · subst e
    rw [ctx_setCtx, if_neg (Ne.symm (h.resolve_left fun h => h rfl))]
  · rw [State.ctx, blk_setCtx_of_ne s e, State.ctx]

/-- A PEER that does not stand above its clamp is neither counted nor recorded (R224). -/
theorem clampCheck_within {k : Blk} {n : Nat}
    (h : ∀ a, (s.ctx k n).active = some a → (s.ctx k n).ring = true → (s.ctx k n).peer.toNat ≤ peerClamp (s.ctx k n) a) :
    clampCheck s k n = s := by
  unfold clampCheck
  dsimp only
  split
  next a ha =>
    rw [if_neg]
    simp only [Bool.and_eq_true, decide_eq_true_eq, not_and, not_lt]
    exact h a ha
  next => rfl

/-- An add that does not take PEER above its clamp changes PEER alone. -/
theorem addPeer_within {k : Blk} {n : Nat} {v : W64} :
    let c := { s.ctx k n with peer := (s.ctx k n).peer + v }
    (∀ a, c.active = some a → c.ring = true → c.peer.toNat ≤ peerClamp c a) → addPeer s k n v = s.setCtx k n c := by
  intro c h
  have same : (s.setCtx k n c).ctx k n = c := by rw [ctx_setCtx, if_pos rfl]
  exact clampCheck_within (by rw [same]; exact h)

/-! ### SIGNAL to an 8-byte word (R193) -/

theorem sx_emod (n v : Nat) : sx n v % ((2 ^ n : Nat) : Int) = (v : Int) % ((2 ^ n : Nat) : Int) := by
  unfold sx
  split <;> simp

/-- ADD of INT64 is the sum modulo 2^64. -/
theorem panElem_add_int64 (r : Rnd) (x y z : Nat) : (panElem 0x01 .int64 r x y z).1 = (x + y) % 2 ^ 64 := by
  have sum : (sx 64 x + sx 64 y) % ((2 ^ 64 : Nat) : Int) = (((x + y) % 2 ^ 64 : Nat) : Int) := by
    rw [Int.add_emod, sx_emod, sx_emod, ← Int.add_emod]
    push_cast
    rfl
  show ((sx 64 x + sx 64 y) % ((2 ^ 64 : Nat) : Int)).toNat = _
  rw [sum, Int.toNat_natCast]

/-! ### Bytes written by a command of CQ -/

/-- Bytes written, after lines have been counted, are the bytes of the write alone. -/
theorem wrN_counted (cl : Safety.Clean s) (reads : List Run) (a : Nat) (bs : List Byte) :
    let w := wrN (countReads s reads) a bs
    OnlyMem s w ∧ w.mem = (wrN s a bs).mem ∧ ∀ x, Safety.Outside s [⟨a, bs.length⟩] x → rd w x = rd s x := by
  intro w
  have counted : w = withCounts (wrN s a bs) (countReads s reads).decoded s.free :=
    wrN_counts cl.copied (countReads s reads).decoded s.free a bs none
  refine ⟨(onlyMem_countReads s reads).trans (onlyMem_wrN (s := countReads s reads) cl.copied a bs none),
    by rw [counted], fun x hx => ?_⟩
  exact rd_wrN_of_ne (s := countReads s reads) cl.copied fun i hi => hx _ (List.mem_singleton_self _) i hi

/-- The same as `engine_ends_plain` for a command that sets the flags of its block to `g` of them. -/
theorem engine_ends_flags {w : State} {q : Qc} (hm : f ∈ (s.q b q).inflight) (hd : f.done = none) (K : OnlyMem s w)
    (g : W16 → W16) (st : Status) (bs : List Byte) (runs : List Run)
    (hr : ∀ a, Safety.Outside s runs a → rd w a = rd s a) :
    let t := finishOut (w.updBlk b fun k => { k with flags := g k.flags }) b q f.idx st bs
    Safety.Finished b q f st t ∧ t.mem = w.mem ∧ (t.blk b).flags = g (s.blk b).flags ∧ Safety.EngineOnly b q runs s t := by
  intro t
  have hb : ∀ a, w.blk a = s.blk a := by intro a; rw [K]; rfl
  have hk : (w.updBlk b fun k => { k with flags := g k.flags }).blk b =
      { s.blk b with flags := g (s.blk b).flags } := by rw [blk_updBlk, hb]
  have hq : ∀ r, (w.updBlk b fun k => { k with flags := g k.flags }).q b r = s.q b r := by
    intro r
    rw [State.q, hk]
    rfl
  refine ⟨⟨{ f with started := true, done := some st, out := f.out ++ bs }, ?_, rfl, rfl, rfl⟩, rfl, ?_,
    ⟨?rest, fun a ha => ?others, ?block, fun r hr => ?queues, ?queue, hr⟩⟩
  case rest =>
    obtain ⟨m, h, l, r, d, e⟩ : ∃ m h l r d, w = { s with mem := m, host := h, lineFault := l, harts := r, decoded := d } :=
      ⟨_, _, _, _, _, K⟩
    subst e
    rfl
  case others =>
    simp only [t, finishOut, updInFl]
    rw [blk_updQ_of_ne _ _ ha, blk_updBlk_of_ne _ ha, hb]
  case block => simp only [t, finishOut, updInFl, State.updQ, State.setQ, Block.setQueue, blk_updBlk, hb]
  case queues =>
    simp only [t, finishOut, updInFl]
    rw [q_updQ_of_ne _ _ hr, hq]
  case queue => simp only [t, finishOut, updInFl, q_updQ, hq]
  · simp only [t, finishOut, updInFl, q_updQ, hq]
    exact List.mem_map.2 ⟨f, hm, by simp [hd]⟩
  · simp only [t, finishOut, updInFl, State.updQ, State.setQ, Block.setQueue, blk_updBlk, hb]

/-! ### The rows -/

/-- SIGNAL to an 8-byte word: the sum is written, and the command finishes. -/
theorem signalRun_word (cl : Safety.Clean s) (h : ctxReg s (fld f.cmd.w1 0 56) = none) (b : Blk) :
    let npa := fld f.cmd.w1 0 56
    ∃ reads bs, signalRun s b f = finishOut
      (wrN (countReads s reads) npa (leBytes 8 ((rdW s npa 8 + f.cmd.w2.toNat) % 2 ^ 64))) b .CQ f.idx .ok bs := by
  intro npa
  unfold signalRun panAt
  dsimp only
  rw [h, touch_clean cl.lines, ← panElem_add_int64 .rne _ _ 0]
  exact ⟨partialRuns [⟨npa, 8⟩], _, rfl⟩

/-- Block flags with those of a FLAGS command's mask cleared (R92). -/
def maskCleared (f : InFl) (fl : W16) : W16 := fl &&& ~~~(BitVec.ofNat 16 f.cmd.w2.toNat)

/-- FLAGS that names a tensor: its flags are written there, those of the mask cleared, and the command finishes. -/
theorem flagsRun_stores (cl : Safety.Clean s) {d : Desc} (hd : opnd s f 1 = some d) (he : d.empty = false) (b : Blk) :
    ∃ reads bs, flagsRun s b f = finishOut ((wrN (countReads s reads) d.base (leBytes 8 (s.blk b).flags.toNat)).updBlk b
      fun k => { k with flags := maskCleared f k.flags }) b .CQ f.idx .ok bs := by
  unfold flagsRun
  simp only [hd, he, Bool.false_eq_true, if_false]
  rw [withTouch_clean cl.lines]
  exact ⟨partialRuns d.runs, _, rfl⟩

/-- FLAGS that names no tensor, or an empty one, clears the flags of its mask and finishes. -/
theorem flagsRun_clears (h : ∀ d, opnd s f 1 = some d → d.empty = true) (b : Blk) :
    flagsRun s b f = finishOut (s.updBlk b
      fun k => { k with flags := maskCleared f k.flags }) b .CQ f.idx .ok [] := by
  rw [← finish_eq_finishOut]
  unfold flagsRun
  cases hd : opnd s f 1 with
  | none => rfl
  | some d => simp only [h d hd, if_true, maskCleared]

/-- READ of a hedge: its rank, size and epoch are written, and the command finishes. -/
theorem hedgeRead_stores (cl : Safety.Clean s) {h : Hedge} (hh : hedgeOf s (fld f.cmd.w1 0 16) = some h) (b : Blk) :
    ∃ reads bs, hedgeRead s b f = finishOut (wrN (countReads s reads) f.cmd.w2.toNat
      (leBytes 8 h.rank ++ leBytes 8 h.members.length ++ leBytes 8 h.epoch.toNat)) b .CQ f.idx .ok bs := by
  unfold hedgeRead
  simp only [hh]
  rw [withTouch_clean cl.lines]
  exact ⟨partialRuns [⟨f.cmd.w2.toNat, 24⟩], _, rfl⟩

/-- A command of CQ that writes bytes and finishes: the bytes are there, and nothing else has changed. -/
theorem cqWrite_ends (cl : Safety.Clean s) {q : Qc} (hm : f ∈ (s.q b q).inflight) (hd : f.done = none) (reads : List Run)
    (a : Nat) (l bs : List Byte) :
    let t := finishOut (wrN (countReads s reads) a l) b q f.idx .ok bs
    Safety.Finished b q f .ok t ∧ t.mem = (wrN s a l).mem ∧ (t.blk b).flags = (s.blk b).flags ∧
      Safety.EngineOnly b q [⟨a, l.length⟩] s t := by
  obtain ⟨only, mem, outside⟩ := wrN_counted cl reads a l
  obtain ⟨finished, kept, flags, frame⟩ := engine_ends_plain hm hd only (wrN (countReads s reads) a l).free .ok bs _ outside
  exact ⟨finished, kept.trans mem, flags, frame⟩

end

/-- Settles O27: SIGNAL, FLAGS and READ each write one place, by the lemmas above. -/
theorem signalFlagsAndReadComplete : Obligations.SignalFlagsAndReadComplete := by
  unfold Obligations.SignalFlagsAndReadComplete
  intro s b f cl h hd npa
  have hm := nextStart_mem h
  refine ⟨?peer, fun ho hc => ?word, ?flags, fun ho hop hw g hg => ?read⟩
  case peer =>
    intro ho k n r hc c within
    let u := s.setCtx k n c
    have run : signalRun s b f = finish u b .CQ f.idx .ok := by
      unfold signalRun
      dsimp only
      rw [show ctxReg s (fld f.cmd.w1 0 56) = some (k, n, r) from hc]
      dsimp only
      rw [addPeer_within within]
    have qs : ∀ x q, u.q x q = s.q x q := fun x q => q_setCtx_all s k x n c q
    have only : Safety.OnlyInFlight b .CQ u (finish u b .CQ f.idx .ok) := onlyInFlight_updInFl u u.decoded b .CQ f.idx _
    refine ⟨_, congrArg Host.Outcome.next ((engine_run h ho _).trans run), ?_, ?_, fun x m hx => ?_, fun x q hx => ?_, ?_, rfl⟩
    · exact finished_finish (s := u) (by rw [qs]; exact hm) hd u.decoded .ok
    · rw [ctx_of_onlyInFlight only, ctx_setCtx, if_pos rfl]
    · rw [ctx_of_onlyInFlight only, ctx_setCtx_of_ne hx]
    · by_cases e : x = b
      · rw [e, only.queues q (hx.resolve_left fun h => h e), qs]
      · rw [State.q, only.others x e, ← State.q, qs]
    · rw [only.queue, qs]
  case word =>
    obtain ⟨reads, bs, run⟩ := signalRun_word cl hc b
    refine ⟨_, congrArg Host.Outcome.next ((engine_run h ho _).trans run), ?_⟩
    have := cqWrite_ends cl hm hd reads npa (leBytes 8 ((rdW s npa 8 + f.cmd.w2.toNat) % 2 ^ 64)) bs
    rwa [leBytes_length] at this
  case flags =>
    intro ho
    dsimp only
    cases stored : (opnd s f 1).filter fun d => !d.empty with
    | none =>
      have run := flagsRun_clears (b := b) fun d hd => by simpa using Option.filter_eq_none_iff.1 stored d hd
      refine ⟨_, congrArg Host.Outcome.next ((engine_run h ho _).trans run), ?_⟩
      exact engine_ends_flags hm hd (OnlyMem.refl s) (maskCleared f) .ok [] [] fun _ _ => rfl
    | some d =>
      obtain ⟨named, held⟩ := Option.filter_eq_some_iff.1 stored
      obtain ⟨reads, bs, run⟩ := flagsRun_stores cl named (by simpa using held) b
      obtain ⟨only, mem, outside⟩ := wrN_counted cl reads d.base (leBytes 8 (s.blk b).flags.toNat)
      rw [leBytes_length] at outside
      refine ⟨_, congrArg Host.Outcome.next ((engine_run h ho _).trans run), ?_⟩
      obtain ⟨finished, kept, flags, frame⟩ := engine_ends_flags hm hd only (maskCleared f) .ok bs _ outside
      exact ⟨finished, kept.trans mem, flags, frame⟩
  case read =>
    obtain ⟨reads, bs, run⟩ := hedgeRead_stores cl hg b
    refine ⟨_, congrArg Host.Outcome.next ((hedgeEngine_run hop _ (.inl ⟨⟨h, ho⟩, hw⟩)).2.trans run), ?_⟩
    have := cqWrite_ends cl hm hd reads f.cmd.w2.toNat
      (leBytes 8 g.rank ++ leBytes 8 g.members.length ++ leBytes 8 g.epoch.toNat) bs
    simpa only [List.length_append, leBytes_length] using this

end Sys2Proof.Laws
end

-- ==== PanOps ====
section
/-!
O22: the element operations of the pan engines (07 R193 to R195, R200). With no line in error a walk over the target is its
elements' operations one after the other: reading and merging their lines only counts them.
-/
namespace Sys2Proof.Laws

open Sys2Proof.Machine

/-! ### One element -/

/-- The operation on element `e` of a target, its operands `x e` and `y e`: the element read, the result written, and a
float operation's flags set in the element's stack. -/
def panOpAt (op : Nat) (d : Desc) (x y : Nat → Nat) (u : State) (e : Nat) : State :=
  let v := panElem op d.fmt d.ncw.mode (rdW u (d.elemNpa e) d.fmt.bytes) (x e) (y e)
  let w := wrW u (d.elemNpa e) d.fmt.bytes v.1
  if d.fmt.isFloat then setPanFlags w (stackOf u (d.elemNpa e)) v.2 else w

/-- An element operation changes the bytes of its element and a stack's flags. -/
theorem panOpAt_frame {u : State} (c : ∀ n, (u.stack n).ckPending = []) (op : Nat) (d : Desc) (x y : Nat → Nat) (e : Nat) :
    OnlyPan u (panOpAt op d x y u e) ∧
      ∀ a, Safety.Outside u [⟨d.elemNpa e, d.fmt.bytes⟩] a → rd (panOpAt op d x y u e) a = rd u a := by
  have written (v : Nat) : OnlyPan u (wrW u (d.elemNpa e) d.fmt.bytes v) := (onlyMem_wrN c _ _ none).pan
  have outside (v a : Nat) (h : Safety.Outside u [⟨d.elemNpa e, d.fmt.bytes⟩] a) :
      rd (wrW u (d.elemNpa e) d.fmt.bytes v) a = rd u a :=
    rd_wrN_of_ne c fun i hi => h _ (List.mem_singleton_self _) i (by rwa [leBytes_length] at hi)
  unfold panOpAt
  dsimp only
  split
  · exact ⟨(written _).trans (onlyPan_setPanFlags _ _ _), fun a h => (rd_setPanFlags ..).trans (outside _ a h)⟩
  · exact ⟨written _, outside _⟩

theorem clean_panOpAt {u : State} (cl : Safety.Clean u) (op : Nat) (d : Desc) (x y : Nat → Nat) (e : Nat) :
    Safety.Clean (panOpAt op d x y u e) := by
  refine ⟨?_, (panOpAt_frame cl.copied op d x y e).1.copied cl.copied⟩
  unfold panOpAt
  dsimp only
  split <;> exact wrN_clean cl.lines cl.copied _ _

/-- With no line in error an element operation gives the old bits and no fault. -/
theorem panAt_clean {u : State} (cl : Safety.Clean u) (op : Nat) (d : Desc) (x y : Nat → Nat) (e : Nat) (c : SMap Nat)
    (n : Nat) : ∃ c', panAt (withCounts u c n) op d.fmt d.ncw.mode (d.elemNpa e) (x e) (y e) =
      (withCounts (panOpAt op d x y u e) c' n, rdW u (d.elemNpa e) d.fmt.bytes, none) := by
  let reads := partialRuns [⟨d.elemNpa e, d.fmt.bytes⟩]
  let c' := (countReads (withCounts u c n) reads).decoded
  have written (v : Nat) : wrW (countReads (withCounts u c n) reads) (d.elemNpa e) d.fmt.bytes v =
      withCounts (wrW u (d.elemNpa e) d.fmt.bytes v) c' n := wrN_counts cl.copied c' n _ _ none
  refine ⟨c', ?_⟩
  unfold panAt panOpAt
  rw [touch_clean (s := withCounts u c n) cl.lines]
  dsimp only
  rw [written]
  split <;> rfl

/-! ### The walk over a target -/

/-- One more element of a walk: its operation, and its old bits behind those before. -/
def panOpStep (op : Nat) (d : Desc) (x y : Nat → Nat) (u : State × List Nat) (e : Nat) : State × List Nat :=
  (panOpAt op d x y u.1 e, u.2 ++ [rdW u.1 (d.elemNpa e) d.fmt.bytes])

theorem panOpSteps_fst (op : Nat) (d : Desc) (x y : Nat → Nat) (l : List Nat) (u : State × List Nat) :
    (l.foldl (panOpStep op d x y) u).1 = l.foldl (panOpAt op d x y) u.1 := by
  induction l generalizing u with
  | nil => rfl
  | cons e l ih => exact ih _

/-- One more element of the model's walk, unless a line has failed before. -/
def panWalkStep (op : Nat) (d : Desc) (x y : Nat → Nat) (acc : State × List Nat × Option (Status × ErrCode × Nat)) (e : Nat) :
    State × List Nat × Option (Status × ErrCode × Nat) :=
  match acc.2.2 with
  | some _ => acc
  | none =>
    let (u, old, err) := panAt acc.1 op d.fmt d.ncw.mode (d.elemNpa e) (x e) (y e)
    match err with
    | some _ => (u, acc.2.1, err)
    | none => (u, acc.2.1 ++ [old], none)

/-- With no line in error the walk is its elements' operations, with the old values in order. -/
theorem panWalkSteps_clean (op : Nat) (d : Desc) (x y : Nat → Nat) (l : List Nat) {u : State} (cl : Safety.Clean u)
    (olds : List Nat) (c : SMap Nat) (n : Nat) :
    let w := l.foldl (panOpStep op d x y) (u, olds)
    ∃ c', l.foldl (panWalkStep op d x y) (withCounts u c n, olds, none) = (withCounts w.1 c' n, w.2, none) := by
  induction l generalizing u olds c with
  | nil => exact ⟨c, rfl⟩
  | cons e l ih =>
    obtain ⟨c1, step⟩ := panAt_clean cl op d x y e c n
    obtain ⟨c2, rest⟩ := ih (clean_panOpAt cl op d x y e) (olds ++ [rdW u (d.elemNpa e) d.fmt.bytes]) c1
    refine ⟨c2, ?_⟩
    rw [List.foldl_cons, List.foldl_cons]
    refine Eq.trans (congrArg (l.foldl (panWalkStep op d x y)) ?_) rest
    simp only [panWalkStep, step]

/-- The walk changes the target's elements and the flags of stacks. -/
theorem panOps_frame {s : State} (cl : Safety.Clean s) (op : Nat) (d : Desc) (x y : Nat → Nat) :
    let w := (List.range d.size).foldl (panOpAt op d x y) s
    OnlyPan s w ∧
      ∀ a, Safety.Outside s ((List.range d.size).map fun e => ⟨d.elemNpa e, d.fmt.bytes⟩) a → rd w a = rd s a :=
  steps_frame cl.copied _ _ (fun e => ⟨d.elemNpa e, d.fmt.bytes⟩) fun _ e _ c => panOpAt_frame c op d x y e

/-! ### The row -/

theorem OnlyPan.brine_eq {s t : State} (h : OnlyPan s t) : t.brine = s.brine := by rw [h.1]

theorem OnlyPan.counts {s t : State} (h : OnlyPan s t) (y : SMap Nat) : OnlyPan s (withCounts t y s.free) :=
  ⟨by rw [h.1], h.2⟩

/-- The old values of a walk put where W3 names a tensor (R195). -/
def oldsStored (w : State × List Nat) (r : Option Desc) : State :=
  match r with
  | some r => (wrT w.1 r fun e => w.2[e]?).1
  | none => w.1

/-- The old values stored change the bytes of their tensor. -/
theorem oldsStored_frame {s : State} {w : State × List Nat} (c : ∀ n, (s.stack n).ckPending = []) (h : OnlyPan s w.1)
    (r : Option Desc) : OnlyMem w.1 (oldsStored w r) ∧
      ∀ a, Safety.Outside s ((r.map Desc.runs).getD []) a → rd (oldsStored w r) a = rd w.1 a := by
  cases r with
  | none => exact ⟨OnlyMem.refl _, fun _ _ => rfl⟩
  | some r =>
    obtain ⟨only, outside⟩ := wrT_frame (h.copied c) r fun e => w.2[e]?
    refine ⟨only, fun a ha => outside a fun x hx i hi => ?_⟩
    rw [h.place, h.place]
    exact ha x hx i hi

theorem oldsStored_counts {w : State × List Nat} (c : ∀ n, (w.1.stack n).ckPending = []) (r : Option Desc) (x : SMap Nat)
    (n : Nat) : oldsStored (withCounts w.1 x n, w.2) r = withCounts (oldsStored w r) x n := by
  cases r with
  | none => rfl
  | some r => exact congrArg Prod.fst (wrT_counts c x n r fun e => w.2[e]?)

/-- The first operand of element `e`: for CAS the compare value (R193). -/
def panArg1 (s : State) (f : InFl) (e : Nat) : Nat :=
  if panCode f.cmd = 0x08 then ((opnd! s f 2).raws s).getD (2 * e) 0 else ((opnd! s f 2).raws s).getD e 0

/-- The second operand of element `e`: for CAS the new value (R193). -/
def panArg2 (s : State) (f : InFl) (e : Nat) : Nat :=
  if panCode f.cmd = 0x08 then ((opnd! s f 2).raws s).getD (2 * e + 1) 0 else 0

/-- The walk of a PANOP over its target. -/
def panOps (s : State) (f : InFl) : State × List Nat :=
  (List.range (opnd! s f 1).size).foldl (panOpStep (panCode f.cmd) (opnd! s f 1) (panArg1 s f) (panArg2 s f)) (s, [])

/-- With no line in error the row of an element operation is its walk, its old values stored, and its finish. -/
theorem panAtomicRun_clean {s : State} (cl : Safety.Clean s) (b : Blk) (f : InFl) :
    ∃ c bs, panAtomicRun s b f =
      finishOut (withCounts (oldsStored (panOps s f) (opnd s f 3)) c s.free) b .OQ f.idx .ok bs := by
  let d := opnd! s f 1
  let reads := (opnd! s f 2).runs ++ ((opnd s f 3).map fun d => partialRuns d.runs).getD []
  obtain ⟨c, walked⟩ := panWalkSteps_clean (panCode f.cmd) d (panArg1 s f) (panArg2 s f) (List.range d.size) cl []
    (countReads s reads).decoded s.free
  have walk : panWalk (countReads s reads) (panCode f.cmd) d (panArg1 s f) (panArg2 s f) =
      (withCounts (panOps s f).1 c s.free, (panOps s f).2, none) := walked
  have copied : ∀ n, ((panOps s f).1.stack n).ckPending = [] := by
    rw [panOps, panOpSteps_fst]
    exact (panOps_frame cl _ d _ _).1.copied cl.copied
  refine ⟨c, ?_⟩
  rw [← oldsStored_counts copied]
  unfold panAtomicRun
  dsimp only
  rw [withTouch_clean cl.lines]
  generalize hw : panWalk (countReads s _) _ _ _ _ = w
  obtain rfl := hw.symm.trans walk
  cases opnd s f 3 <;> exact ⟨_, rfl⟩

/-- What an element operation leaves: its walk, with its old values where W3 names a tensor. -/
theorem panAtomicRun_ends {s : State} (cl : Safety.Clean s) {b : Blk} {f : InFl} (hm : f ∈ (s.q b .OQ).inflight)
    (hd : f.done = none) :
    let w := panOps s f
    let d := opnd! s f 1
    let t := panAtomicRun s b f
    Safety.Finished b .OQ f .ok t ∧ t.mem = (oldsStored w (opnd s f 3)).mem ∧ t.stk = w.1.stk ∧ t.brine = s.brine ∧
      Safety.PanOnly b .OQ ((List.range d.size).map (fun e => ⟨d.elemNpa e, d.fmt.bytes⟩) ++
        ((opnd s f 3).map Desc.runs).getD []) s t := by
  intro w d t
  obtain ⟨c, bs, run⟩ := panAtomicRun_clean cl b f
  obtain ⟨only, outside⟩ := panOps_frame cl (panCode f.cmd) d (panArg1 s f) (panArg2 s f)
  rw [← panOpSteps_fst _ _ _ _ _ (s, [])] at only outside
  obtain ⟨stored, beside⟩ := oldsStored_frame (w := w) cl.copied only (opnd s f 3)
  have K := (only.trans stored.pan).counts c
  obtain ⟨finished, mem, stk, brine, frame⟩ := pan_ends hm hd K s.brine s.free .ok bs
    ((List.range d.size).map (fun e => ⟨d.elemNpa e, d.fmt.bytes⟩) ++ ((opnd s f 3).map Desc.runs).getD []) fun a ha =>
      (beside a fun r hr => ha r (List.mem_append_right _ hr)).trans
        (outside a fun r hr => ha r (List.mem_append_left _ hr))
  rw [show ({ withCounts (oldsStored w (opnd s f 3)) c s.free with free := s.free, brine := s.brine } : State) =
    withCounts (oldsStored w (opnd s f 3)) c s.free by rw [← K.brine_eq], ← run] at finished mem stk brine frame
  exact ⟨finished, mem, stk.trans stored.stk_eq, brine, frame⟩

/-- Settles O22: the row of an element operation runs on its command, and the lemmas above say what that leaves. -/
theorem panElementOperationsComplete : Obligations.PanElementOperationsComplete := by
  unfold Obligations.PanElementOperationsComplete
  intro s b f cl h hd ho op d x n x1 x2 one all ends
  have hm := nextStart_mem h
  have row {i : Instr} (hi : exec i s = .next (panAtomicRun s b f)) : ends i := by
    obtain ⟨finished, mem, stk, brine, frame⟩ := panAtomicRun_ends cl hm hd
    refine ⟨_, hi, finished, mem, fun k => ?_, brine, frame⟩
    rw [State.stack, stk]
    rfl
  refine ⟨fun hop => row ?_, fun hop hb => row ?_⟩
  · exact congrArg Host.Outcome.next ((engine_run h ho _).trans (if_pos hop))
  · exact congrArg Host.Outcome.next ((panEngine_run h ho hop _).trans (if_neg (Bool.eq_false_iff.1 hb)))

end Sys2Proof.Laws
end

-- ==== IntegerResults ====
section
/-!
O59: results of an integer format (03 R85, R87, R89, R91; log 43). A magnitude is split into its integer and a proper fraction,
`lo + rem / d`, by which both the model's `roundMag` and the floors and ceilings of the statement are told.
-/
namespace Sys2Proof.Laws

open Sys2Proof.Machine

/-! ### A magnitude and its fraction -/

/-- The magnitude of a finite value. -/
def magnitude (m : Nat) (e : Int) : ℚ := (m : ℚ) * (2 : ℚ) ^ e

/-- A magnitude as an integer and a proper fraction. -/
structure Parts (mag : ℚ) (lo rem d : Nat) : Prop where
  proper : rem < d
  sum : mag = lo + rem / d

section
variable {mag : ℚ} {lo rem d : Nat}

theorem Parts.pos (h : Parts mag lo rem d) : (0 : ℚ) < d := by
  have := h.proper
  exact_mod_cast (show 0 < d by omega)

theorem Parts.fraction_lt (h : Parts mag lo rem d) : (rem : ℚ) / d < 1 := by
  rw [div_lt_one h.pos]
  exact_mod_cast h.proper

theorem Parts.floor (h : Parts mag lo rem d) : ⌊mag⌋ = (lo : Int) := by
  have nonneg : (0 : ℚ) ≤ rem / d := div_nonneg (Nat.cast_nonneg _) h.pos.le
  have lt := h.fraction_lt
  rw [Int.floor_eq_iff, h.sum]
  push_cast
  exact ⟨by linarith, by linarith⟩

theorem Parts.fract (h : Parts mag lo rem d) : mag - ⌊mag⌋ = rem / d := by
  rw [h.floor, h.sum]
  push_cast
  ring

/-- The magnitude is an integer exactly when its fraction is 0. -/
theorem Parts.isInt_iff (h : Parts mag lo rem d) : (∃ i : Int, (i : ℚ) = mag) ↔ rem = 0 := by
  constructor
  · rintro ⟨i, hi⟩
    have zero : (rem : ℚ) / d = 0 := by rw [← h.fract, ← hi, Int.floor_intCast, sub_self]
    exact_mod_cast (div_eq_zero_iff.1 zero).resolve_right h.pos.ne'
  · rintro rfl
    exact ⟨lo, by rw [h.sum]; simp⟩

theorem Parts.ceil (h : Parts mag lo rem d) : ⌈mag⌉ = (if rem = 0 then lo else lo + 1 : Nat) := by
  have lt := h.fraction_lt
  have sum := h.sum
  split
  case isTrue hr =>
    rw [sum, hr]
    simp
  case isFalse hr =>
    have pos : (0 : ℚ) < rem / d := div_pos (by exact_mod_cast Nat.pos_of_ne_zero hr) h.pos
    rw [Int.ceil_eq_iff, sum]
    push_cast
    exact ⟨by linarith, by linarith⟩

end

/-! ### The integer to which a value rounds (R89) -/

/-- Whether a magnitude `lo + rem / d` that is no integer rounds away from zero (Table 03.7). -/
def roundsUp (r : Rnd) (u : Nat) (neg : Bool) (lo rem d : Nat) : Bool :=
  match r with
  | .rne => 2 * rem > d || (2 * rem == d && lo % 2 == 1)
  | .rtz => false
  | .rup => !neg
  | .rdn => neg
  | .rsd => u < rem * 2 ^ 32 / d
  | .rmm => 2 * rem ≥ d

/-- The magnitude of the integer to which `lo + rem / d` rounds. -/
def roundedMag (r : Rnd) (u : Nat) (neg : Bool) (lo rem d : Nat) : Nat :=
  if rem = 0 then lo else if roundsUp r u neg lo rem d then lo + 1 else lo

/-- Rounding a dyadic magnitude to an integer, by its parts. -/
theorem roundMag_parts (m : Nat) (e : Int) : ∃ lo rem d, Parts (magnitude m e) lo rem d ∧
    ∀ r u neg, roundMag r u neg m e 0 = (roundedMag r u neg lo rem d, decide (rem ≠ 0)) := by
  by_cases he : 0 ≤ e
  case pos =>
    refine ⟨scaleTo m e 0, 0, 1, ⟨one_pos, ?_⟩, fun r u neg => ?_⟩
    · obtain ⟨n, rfl⟩ := Int.eq_ofNat_of_zero_le he
      simp [magnitude, scaleTo]
    · simp [roundMag, he, roundedMag]
  case neg =>
    let d := 2 ^ (0 - e).toNat
    have pos : 0 < d := Nat.two_pow_pos _
    refine ⟨m / d, m % d, d, ⟨Nat.mod_lt _ pos, ?_⟩, fun r u neg => ?_⟩
    · have whole : (m : ℚ) = d * (m / d : Nat) + (m % d : Nat) := by exact_mod_cast (Nat.div_add_mod m d).symm
      have scale : (2 : ℚ) ^ e = (d : ℚ)⁻¹ := by
        rw [show e = -((0 - e).toNat : Int) by omega, zpow_neg, zpow_natCast]
        simp [d]
      have ne : (d : ℚ) ≠ 0 := by exact_mod_cast pos.ne'
      rw [magnitude, scale, whole]
      field_simp
    · unfold roundMag
      rw [if_neg he]
      show (if m % d = 0 then (m / d, false) else _) = _
      by_cases hr : m % d = 0
      · simp [roundedMag, hr]
      · rw [if_neg hr, roundedMag, if_neg hr, decide_eq_true hr]
        rfl

/-- The nearest integer, ties to even. -/
def nearestInt (v : ℚ) : Int :=
  if v - ⌊v⌋ < 1 / 2 then ⌊v⌋ else if 1 / 2 < v - ⌊v⌋ then ⌊v⌋ + 1 else if ⌊v⌋ % 2 = 0 then ⌊v⌋ else ⌊v⌋ + 1

theorem nearestInt_of_fract {v : ℚ} {z : Int} {a d : Nat} (hd : (0 : ℚ) < d) (hz : ⌊v⌋ = z) (hf : v - z = a / d) :
    nearestInt v = if 2 * a < d then z else if d < 2 * a then z + 1 else if z % 2 = 0 then z else z + 1 := by
  have below : (a : ℚ) / d < 1 / 2 ↔ 2 * a < d := by
    rw [div_lt_div_iff₀ hd two_pos, one_mul, mul_comm]
    exact_mod_cast Iff.rfl
  have above : 1 / 2 < (a : ℚ) / d ↔ d < 2 * a := by
    rw [div_lt_div_iff₀ two_pos hd, one_mul, mul_comm]
    exact_mod_cast Iff.rfl
  simp only [nearestInt, hz, hf, below, above]

/-- An integer with a sign. -/
def signed (neg : Bool) (k : Nat) : Int := if neg then -(k : Int) else k

/-- The value of a magnitude with a sign. -/
def signedVal (neg : Bool) (mag : ℚ) : ℚ := if neg then -mag else mag

section
variable {mag : ℚ} {lo rem d : Nat}

theorem roundsUp_rne (u : Nat) (neg : Bool) :
    roundsUp .rne u neg lo rem d = true ↔ d < 2 * rem ∨ 2 * rem = d ∧ lo % 2 = 1 := by
  simp [roundsUp]

theorem Parts.ceil_of_fraction (h : Parts mag lo rem d) (hr : rem ≠ 0) : ⌈mag⌉ = lo + 1 := by
  rw [h.ceil, if_neg hr]
  push_cast
  rfl

/-- Rounding to nearest treats both signs alike. -/
theorem Parts.nearest (h : Parts mag lo rem d) (u : Nat) (neg : Bool) :
    nearestInt (signedVal neg mag) = signed neg (roundedMag .rne u neg lo rem d) := by
  have proper := h.proper
  have up := roundsUp_rne (lo := lo) (rem := rem) (d := d) u neg
  by_cases hr : rem = 0
  case pos =>
    have whole : signedVal neg mag = (signed neg lo : Int) := by
      rw [h.sum, hr]
      cases neg <;> simp [signedVal, signed]
    rw [whole, roundedMag, if_pos hr]
    simp [nearestInt]
  case neg =>
    rw [roundedMag, if_neg hr]
    cases neg with
    | false =>
      have fraction : mag - (lo : Int) = rem / d := by rw [← h.floor]; exact h.fract
      rw [signedVal, if_neg (by decide), nearestInt_of_fract h.pos h.floor fraction]
      simp only [signed, Bool.false_eq_true, if_false, up]
      split_ifs <;> omega
    | true =>
      have floor : ⌊-mag⌋ = -((lo : Int) + 1) := by rw [Int.floor_neg, h.ceil_of_fraction hr]
      have fraction : -mag - (-((lo : Int) + 1) : Int) = ((d - rem : Nat) : ℚ) / d := by
        rw [h.sum, Nat.cast_sub proper.le, sub_div, div_self h.pos.ne']
        push_cast
        ring
      rw [signedVal, if_pos rfl, nearestInt_of_fract h.pos floor fraction]
      simp only [signed, if_true, up]
      split_ifs <;> omega

/-- Stochastic rounding goes away from zero exactly when the draw is below the fraction's first 32 bits (R89). -/
theorem Parts.away (h : Parts mag lo rem d) (u : Nat) (neg : Bool) :
    (lo : Int) + (if (u : Int) < ⌊(mag - ⌊mag⌋) * 2 ^ 32⌋ then 1 else 0) = roundedMag .rsd u neg lo rem d := by
  have bits : ⌊(mag - ⌊mag⌋) * 2 ^ 32⌋ = ((rem * 2 ^ 32 / d : Nat) : Int) := by
    rw [h.fract, div_mul_eq_mul_div]
    exact_mod_cast Rat.floor_natCast_div_natCast (rem * 2 ^ 32) d
  rw [bits, roundedMag]
  simp only [roundsUp, Nat.cast_lt, decide_eq_true_eq]
  by_cases hr : rem = 0
  · simp [hr]
  · simp only [if_neg hr]
    split <;> simp

/-- The integer to which a value of magnitude `mag` rounds, as the statement has it: by the floors and ceilings of the
value. Beyond the limit `lim` stochastic rounding is to nearest. -/
def roundedInt (r : Rnd) (u : Nat) (lim : Nat) (neg : Bool) (mag : ℚ) : Int :=
  let away : Int := if (u : Int) < ⌊(mag - ⌊mag⌋) * 2 ^ 32⌋ then 1 else 0
  match r with
  | .rtz => if neg then -⌊mag⌋ else ⌊mag⌋
  | .rup => ⌈signedVal neg mag⌉
  | .rdn => ⌊signedVal neg mag⌋
  | .rsd => if (lim : ℚ) < mag then nearestInt (signedVal neg mag)
      else if neg then -(⌊mag⌋ + away) else ⌊mag⌋ + away
  | _ => nearestInt (signedVal neg mag)

/-- The mode in which a magnitude is rounded: to nearest where stochastic rounding is beyond the limit (R89). -/
def effectiveMode (r : Rnd) (beyond : Bool) : Rnd := if r == .rsd && beyond then .rne else r

theorem Parts.rounded (h : Parts mag lo rem d) {r : Rnd} (hr : r ≠ .rmm) (u lim : Nat) (neg : Bool) :
    roundedInt r u lim neg mag = signed neg (roundedMag (effectiveMode r (decide ((lim : ℚ) < mag))) u neg lo rem d) := by
  cases r with
  | rne => exact h.nearest u neg
  | rtz =>
    have mode : roundedMag .rtz u neg lo rem d = lo := by simp [roundedMag, roundsUp]
    show (if neg then -⌊mag⌋ else ⌊mag⌋) = signed neg (roundedMag .rtz u neg lo rem d)
    rw [mode, h.floor, signed]
  | rup =>
    show ⌈signedVal neg mag⌉ = signed neg (roundedMag .rup u neg lo rem d)
    cases neg with
    | false => simp [signedVal, signed, h.ceil, roundedMag, roundsUp]
    | true => simp [signedVal, signed, Int.ceil_neg, h.floor, roundedMag, roundsUp]
  | rdn =>
    show ⌊signedVal neg mag⌋ = signed neg (roundedMag .rdn u neg lo rem d)
    cases neg with
    | false => simp [signedVal, signed, h.floor, roundedMag, roundsUp]
    | true => simp [signedVal, signed, Int.floor_neg, h.ceil, roundedMag, roundsUp]
  | rsd =>
    by_cases beyond : (lim : ℚ) < mag
    · simp only [roundedInt, if_pos beyond, decide_eq_true beyond]
      exact h.nearest u neg
    · simp only [roundedInt, if_neg beyond, decide_eq_false beyond]
      show _ = signed neg (roundedMag .rsd u neg lo rem d)
      rw [signed, ← h.away u neg, h.floor]
  | rmm => exact absurd rfl hr

/-- The integer to which a value rounds is the value exactly when nothing is lost. -/
theorem Parts.exact_iff (h : Parts mag lo rem d) (r : Rnd) (u : Nat) (neg : Bool) :
    ((signed neg (roundedMag r u neg lo rem d) : Int) : ℚ) = signedVal neg mag ↔ rem = 0 := by
  have sign : ((signed neg (roundedMag r u neg lo rem d) : Int) : ℚ) = signedVal neg (roundedMag r u neg lo rem d) := by
    cases neg <;> simp [signed, signedVal]
  rw [sign]
  constructor
  · intro same
    refine h.isInt_iff.1 ⟨roundedMag r u neg lo rem d, ?_⟩
    cases neg with
    | false => exact same
    | true => exact neg_injective same
  · intro zero
    rw [roundedMag, if_pos zero, h.sum, zero]
    simp

end

/-! ### The result (R87, R91; log 43) -/

theorem scaleTo_cast (m : Nat) {e q : Int} (h : q ≤ e) : (scaleTo m e q : ℚ) = magnitude m e * 2 ^ (-q) := by
  rw [scaleTo, magnitude, mul_assoc, ← zpow_add₀ two_ne_zero, ← sub_eq_add_neg]
  push_cast
  rw [← zpow_natCast, Int.toNat_of_nonneg (by omega)]

/-- A magnitude is beyond an integer limit. -/
theorem magGt_iff (m : Nat) (e : Int) (k : Nat) : magGt m e k 0 = decide ((k : ℚ) < magnitude m e) := by
  have scale : (0 : ℚ) < 2 ^ (-min e 0) := zpow_pos two_pos _
  have limit : magnitude k 0 = k := by simp [magnitude]
  rw [magGt, decide_eq_decide, ← Nat.cast_lt (α := ℚ), scaleTo_cast k (min_le_right _ _), scaleTo_cast m (min_le_left _ _),
    mul_lt_mul_iff_left₀ scale, limit]

/-- A finite value rounded to an integer is the statement's integer, and inexact where that is not the value. -/
theorem roundMag_signed {r : Rnd} (hr : r ≠ .rmm) (u : Nat) (neg : Bool) (m : Nat) (e : Int) (lim : Nat) :
    let x := roundMag (effectiveMode r (magGt m e lim 0)) u neg m e 0
    let i := roundedInt r u lim neg (magnitude m e)
    signed neg x.1 = i ∧ (x.2 = true ↔ (i : ℚ) ≠ signedVal neg (magnitude m e)) := by
  intro x i
  obtain ⟨lo, rem, d, parts, rounds⟩ := roundMag_parts m e
  have rounded : i = _ := parts.rounded hr u lim neg
  have hx : x = _ := rounds _ u neg
  rw [rounded, hx, magGt_iff]
  exact ⟨rfl, decide_eq_true_iff.trans (not_congr (parts.exact_iff _ u neg).symm)⟩

/-- An integer coded in two's complement (R87). -/
def intCode (f : Fmt) (i : Int) : Nat := (i % ((2 ^ f.bits : Nat) : Int)).toNat

theorem intCode_cast (f : Fmt) (i : Int) : (intCode f i : Int) = i % ((2 ^ f.bits : Nat) : Int) :=
  Int.toNat_of_nonneg (Int.emod_nonneg _ (by exact_mod_cast (Nat.two_pow_pos f.bits).ne'))

section
variable {f : Fmt}

theorem isFloat_of_isInt (h : f.isInt = true) : f.isFloat = false := by
  simp only [Fmt.isInt, Bool.and_eq_true, Bool.not_eq_true'] at h
  exact h.1

theorem round_int_nan (h : f.isInt = true) (r : Rnd) (u : Nat) : f.round r u .nan = (0, Fl.nv) := by
  simp [Fmt.round, isFloat_of_isInt h]

theorem round_int_inf (h : f.isInt = true) (r : Rnd) (u : Nat) (neg : Bool) :
    f.round r u (.inf neg) = (intCode f (if neg then f.range.1 else f.range.2), Fl.nv) := by
  simp [Fmt.round, isFloat_of_isInt h, intCode]

end

/-- The flags of an integer in range: NX where it is not the value, and UF beside it where it is 0 (R91). -/
theorem int_flags {k : Nat} {inexact neg : Bool} {v : ℚ} (h : inexact = true ↔ ((signed neg k : Int) : ℚ) ≠ v) :
    Fl.when inexact Fl.nx ||| Fl.when (inexact && k == 0) Fl.uf =
      if ((signed neg k : Int) : ℚ) = v then 0 else if signed neg k = 0 then Fl.uf ||| Fl.nx else Fl.nx := by
  have zero : signed neg k = 0 ↔ k = 0 := by cases neg <;> simp [signed]
  by_cases same : ((signed neg k : Int) : ℚ) = v
  · have kept : inexact = false := by simpa [same] using h
    simp [same, kept, Fl.when]
  · rw [if_neg same, h.2 same]
    by_cases hk : k = 0
    · rw [if_pos (zero.2 hk), BitVec.or_comm]
      simp [hk, Fl.when]
    · rw [if_neg (mt zero.1 hk)]
      simp [hk, Fl.when]

/-- A finite value in an integer format: its integer, saturated with NV alone (R87, R91). -/
theorem round_int_fin {f : Fmt} (h : f.isInt = true) {r : Rnd} (hr : r ≠ .rmm) (u : Nat) (neg : Bool) (m : Nat) (e : Int) :
    let lim := if neg then f.range.1.natAbs else f.range.2.natAbs
    let i := roundedInt r u lim neg (magnitude m e)
    f.round r u (.fin neg m e) = if i < f.range.1 then (intCode f f.range.1, Fl.nv)
      else if f.range.2 < i then (intCode f f.range.2, Fl.nv)
      else (intCode f i, if (i : ℚ) = signedVal neg (magnitude m e) then 0
        else if i = 0 then Fl.uf ||| Fl.nx else Fl.nx) := by
  intro lim i
  let x := roundMag (effectiveMode r (magGt m e lim 0)) u neg m e 0
  have model : f.round r u (.fin neg m e) = if signed neg x.1 < f.range.1 then (intCode f f.range.1, Fl.nv)
      else if f.range.2 < signed neg x.1 then (intCode f f.range.2, Fl.nv)
      else (intCode f (signed neg x.1), Fl.when x.2 Fl.nx ||| Fl.when (x.2 && x.1 == 0) Fl.uf) := by
    unfold Fmt.round
    rw [isFloat_of_isInt h]
    rfl
  obtain ⟨rounded, inexact⟩ : signed neg x.1 = i ∧ _ := roundMag_signed hr u neg m e lim
  have flags := int_flags (k := x.1) (neg := neg) (inexact.trans (by rw [rounded]))
  rw [model, flags, rounded]

/-- Settles O59: the model's integer is the statement's by `roundMag_signed`, its saturation and flags those of R87 and
R91. -/
theorem integerResultsRoundAndSaturate : Obligations.IntegerResultsRoundAndSaturate := by
  unfold Obligations.IntegerResultsRoundAndSaturate
  intro f r u hf hr lo hi gives
  refine ⟨?nan, fun neg => ?inf, fun neg m e => ?fin⟩
  case nan =>
    rw [round_int_nan hf]
    exact ⟨by simp, rfl⟩
  case inf =>
    rw [round_int_inf hf]
    exact ⟨intCode_cast f _, rfl⟩
  case fin =>
    intro mag v nearest away i y
    have result : y = if i < lo then (intCode f lo, Fl.nv) else if hi < i then (intCode f hi, Fl.nv)
      else (intCode f i, if (i : ℚ) = v then 0 else if i = 0 then Fl.uf ||| Fl.nx else Fl.nx) :=
      round_int_fin hf hr u neg m e
    rw [result]
    split
    case isTrue => exact ⟨intCode_cast f lo, rfl⟩
    case isFalse =>
      split
      case isTrue => exact ⟨intCode_cast f hi, rfl⟩
      case isFalse => exact ⟨intCode_cast f i, rfl⟩

end Sys2Proof.Laws
end

-- ==== FrontEnd ====
section
/-!
O8, O9: the commands that the front end of a queue carries out by itself, NOP, STEP, END and LOOP (04 R99, R100, R102,
R114 to R116; log 44). Each runs on the state with its wait consumed, and changes its own queue there.
-/
namespace Sys2Proof.Laws

open Sys2Proof.Machine

variable {s t : State} {b : Blk} {q : Qc} {c : Cmd}

/-! ### The command at the front runs -/

/-- A command at the front runs on the state with its wait consumed. -/
theorem frontEnd_runs {op : Nat} (h : Safety.AtFront s b q c op) {mine busy : Cmd → Bool} (hm : mine c = true)
    (hb : busy c = false) (run : State → Cmd → State) :
    frontEnd s b q mine busy run = run (Machine.consumed s b q c) c := by
  simp [frontEnd, h.next, h.takes, hm, h.tag, h.met, h.passes, h.live, hb]

/-- The same for a row that takes every command of its opcode as soon as its wait is met. -/
theorem frontEnd_freely {op : Nat} (h : Safety.AtFront s b q c op) (run : State → Cmd → State) :
    frontEnd s b q (fun c => c.opcode == op) freely run = run (Machine.consumed s b q c) c :=
  frontEnd_runs h (mine := fun c => c.opcode == op) (beq_iff_eq.2 h.opcode) rfl run

/-- LOOP, AOP and END that pass R407's checks wait on nothing (R115). -/
theorem waitCount_of_front {op : Nat} (h : Safety.AtFront s b q c op) (ho : op = 0x01 ∨ op = 0x03 ∨ op = 0x04) :
    c.waitCount = 0 := by
  have quiet : quietBad c = false := by
    have passes := h.passes
    rcases ho with rfl | rfl | rfl <;> simp only [decodeBad, loopBad, h.opcode, Bool.or_eq_false_iff] at passes
    · obtain ⟨-, -, quiet⟩ := passes
      exact quiet
    · obtain ⟨-, ⟨quiet, -⟩, -⟩ := passes
      exact quiet
    · obtain ⟨-, quiet, -⟩ := passes
      exact quiet
  simp only [quietBad, Bool.or_eq_false_iff, bne_eq_false_iff_eq] at quiet
  obtain ⟨⟨⟨⟨count, -⟩, -⟩, -⟩, -⟩ := quiet
  exact count

/-! ### Nothing but the queue changes -/

theorem onlyQueue_consumed : Safety.OnlyQueue b q s (Machine.consumed s b q c) where
  rest := rfl
  others _ h := blk_consumed_of_ne s h q c
  block := by
    rw [Machine.consumed, blk_updBlk, consume_frame]
  queues _ _ := q_consumed ..

theorem onlyQueue_updQ (h : Safety.OnlyQueue b q s t) (g : Queue → Queue) : Safety.OnlyQueue b q s (t.updQ b q g) where
  rest := by
    rw [h.rest]
    rfl
  others a ha := (blk_updQ_of_ne q g ha).trans (h.others a ha)
  block := by
    simp only [State.updQ, State.setQ, Block.setQueue, blk_updBlk]
    rw [h.block]
  queues r hr := (q_updQ_of_ne b g hr).trans (h.queues r hr)

/-- A queue changed leaves the event counters of its block. -/
theorem evGet_updQ (s : State) (b : Blk) (q : Qc) (g : Queue → Queue) (i j : Nat) :
    evGet ((s.updQ b q g).blk b) i j = evGet (s.blk b) i j := by
  unfold evGet
  rw [ev_updQ]

/-- The wait of a command at the front is consumed, and its queue then changed. -/
theorem waitConsumed_updQ (s : State) (b : Blk) (q : Qc) (c : Cmd) (g : Queue → Queue) :
    Safety.waitConsumed b q c s ((Machine.consumed s b q c).updQ b q g) := fun p r => by
  rw [evGet_updQ, waitConsumed_consumed]

/-- A wait on nothing leaves every event counter. -/
theorem sameEvents_of_quiet (hc : c.waitCount = 0) (h : Safety.waitConsumed b q c s t) : Safety.sameEvents b s t :=
  fun p r => by rw [h p r, hc, ite_self, Nat.sub_zero]

/-- A queue with its next command ended at once: it stands in flight, finished, behind the earlier ones. -/
def withEnded (f : InFl) (st : Status) (u : Queue) : Queue := { u.past with
  serial := u.serial + 1, inflight := u.inflight ++ [{ f with started := true, done := some st }] }

theorem endNext_consumed (s : State) (b : Blk) (q : Qc) (c d : Cmd) (st : Status) :
    endNext (Machine.consumed s b q d) b q c st =
      (Machine.consumed s b q d).updQ b q (withEnded (mkInFl s b q c) st) := by
  rw [endNext, mkInFl_consumed]
  rfl

/-- A queue changed once the wait of its next command is consumed. -/
theorem q_updQ_consumed (s : State) (b : Blk) (q : Qc) (c : Cmd) (g : Queue → Queue) :
    ((Machine.consumed s b q c).updQ b q g).q b q = g (s.q b q) := by
  rw [q_updQ, q_consumed]

/-! ### NOP, STEP and END -/

/-- Settles O8: each command runs on the state with its wait consumed and changes its queue alone. -/
theorem nopStepAndEndComplete : Obligations.NopStepAndEndComplete := by
  unfold Obligations.NopStepAndEndComplete
  intro s b q c ended
  refine ⟨fun h => ?nop, fun h => ?step, fun h => ?endd⟩
  case nop =>
    have run : exec (.nop b q) s = .next (endNext (Machine.consumed s b q c) b q c .ok) :=
      congrArg Host.Outcome.next (frontEnd_freely h _)
    rw [endNext_consumed] at run
    exact ⟨_, run, q_updQ_consumed .., waitConsumed_updQ s b q c _, onlyQueue_updQ onlyQueue_consumed _⟩
  case step =>
    have run : exec (.stepCmd b q) s = .next ((endNext (Machine.consumed s b q c) b q c .ok).updQ b q fun u =>
        { u with state := .step }) := congrArg Host.Outcome.next (frontEnd_freely h _)
    rw [endNext_consumed] at run
    refine ⟨_, run, ?_, fun p r => ?_, onlyQueue_updQ (onlyQueue_updQ onlyQueue_consumed _) _⟩
    · rw [q_updQ, q_updQ_consumed]
      rfl
    · rw [evGet_updQ]
      exact waitConsumed_updQ s b q c _ p r
  case endd =>
    have run : exec (.endCmd b q) s = .next ((Machine.consumed s b q c).updQ b q fun u => { u with state := .endd }) :=
      congrArg Host.Outcome.next (frontEnd_freely h _)
    exact ⟨_, run, q_updQ_consumed .., sameEvents_of_quiet (waitCount_of_front h (.inl rfl)) (waitConsumed_updQ s b q c _),
      onlyQueue_updQ onlyQueue_consumed _⟩

/-! ### LOOP -/

/-- LOOP with a count and a body opens a level (R114). -/
theorem openLoop_opens {u : Queue} (hn : 1 ≤ loopCount u c) (hl : 1 ≤ fld c.w3 0 16) : openLoop u c = { u with
    loops := ⟨u.pc + 1, fld c.w3 0 16, loopCount u c, 0⟩ :: u.loops, pc := u.pc + 1 } :=
  if_neg (by omega)

/-- LOOP without a count or a body skips its body (R115). -/
theorem openLoop_skips {u : Queue} (h : loopCount u c = 0 ∨ fld c.w3 0 16 = 0) : openLoop u c = { u with
    loops := (advance u.loops (u.pc + 1 + fld c.w3 0 16)).1
    pc := (advance u.loops (u.pc + 1 + fld c.w3 0 16)).2 } :=
  if_pos h

/-- Settles O9: a count above 32 bits ends the LOOP, any other opens its level or skips its body. -/
theorem loopOpensOrSkips : Obligations.LoopOpensOrSkips := by
  unfold Obligations.LoopOpensOrSkips
  intro s b q c h n len
  have quiet := waitCount_of_front h (.inr (.inl rfl))
  have run : exec (.loop b q) s = .next (if 0xFFFF_FFFF < n then endNext (Machine.consumed s b q c) b q c .bounds
      else (Machine.consumed s b q c).updQ b q fun u => openLoop u c) := by
    have e := frontEnd_freely h fun t c =>
      if 0xFFFF_FFFF < loopCount (t.q b q) c then endNext t b q c .bounds else t.updQ b q fun u => openLoop u c
    rw [q_consumed] at e
    exact congrArg Host.Outcome.next e
  by_cases big : 0xFFFF_FFFF < n
  case pos =>
    rw [if_pos big, endNext_consumed] at run
    exact ⟨_, run, fun small => absurd big (Nat.not_lt.2 small), fun small => absurd big (Nat.not_lt.2 small),
      fun _ => q_updQ_consumed .., sameEvents_of_quiet quiet (waitConsumed_updQ s b q c _),
      onlyQueue_updQ onlyQueue_consumed _⟩
  case neg =>
    rw [if_neg big] at run
    refine ⟨_, run, fun _ hn hl => ?opens, fun _ h0 => ?skips, fun hb => absurd hb big,
      sameEvents_of_quiet quiet (waitConsumed_updQ s b q c _), onlyQueue_updQ onlyQueue_consumed _⟩
    case opens => rw [q_updQ_consumed, openLoop_opens hn hl]; rfl
    case skips => rw [q_updQ_consumed, openLoop_skips h0]

end Sys2Proof.Laws
end

-- ==== AddressUnit ====
section
/-!
O10: AOP and LDA (04 R112, R113, Tables 04.8, 04.9). Each word is one change of the address registers; the lines that its
LDAs read change the count of lines decoded alone.
-/
namespace Sys2Proof.Laws

open Sys2Proof.Machine

variable {s : State} {b : Blk} {q : Qc} {c : Cmd} {u : Queue}

/-- The address registers after one word (Table 04.9). -/
def aopStep (s : State) (u : Queue) (a : SMap W64) (w : W64) : SMap W64 :=
  if aopCode w = 0 then a
  else if aopCode w = 0x0C then SMap.set 0 a (aopRd w) (BitVec.ofNat 64 (rdW s (ldaAddr u a w) 8))
  else if aopCode w = 0x0B then SMap.set 0 a (aopRd w) (aopImm w)
  else SMap.set 0 a (aopRd w)
    (aopAlu (aopCode w) (aopSrc u a (aopRs1 w)) (if wbit w 23 then aopImm w else aopSrc u a (aopRs2 w)))

/-- Every LDA among the words, run in order from `a`, reads 8 bytes that it may read (R113). -/
def LdasRead (s : State) (b : Blk) (u : Queue) (ws : List W64) (a : SMap W64) : Prop :=
  ∀ i w, ws[i]? = some w → aopCode w = 0x0C →
    let npa := ldaAddr u ((ws.take i).foldl (aopStep s u) a) w
    npa % 8 = 0 ∧ ldaOk s b npa = true

theorem LdasRead.tail {w : W64} {ws : List W64} {a : SMap W64} (h : LdasRead s b u (w :: ws) a) :
    LdasRead s b u ws (aopStep s u a w) := fun i v hv => h (i + 1) v hv

/-- The state with another count of lines decoded. -/
def withDecoded (s : State) (d : SMap Nat) : State := { s with decoded := d }

/-- A word without an LDA changes the registers alone. -/
theorem aopWords_cons {w : W64} (ws : List W64) (t : State) (a : SMap W64) (hw : aopCode w ≠ 0x0C) :
    aopWords b u (w :: ws) t a = aopWords b u ws t (aopStep s u a w) := by
  rw [aopWords, aopStep]
  split
  · rfl
  · split <;> rfl

/-- An LDA that may read changes the registers and the count of lines decoded. -/
theorem aopWords_lda {w : W64} (ws : List W64) (d : SMap Nat) (a : SMap W64) (hw : aopCode w = 0x0C)
    (hl : s.lineFault = []) (aligned : ldaAddr u a w % 8 = 0) (inside : ldaOk s b (ldaAddr u a w) = true) :
    ∃ d', aopWords b u (w :: ws) (withDecoded s d) a = aopWords b u ws (withDecoded s d') (aopStep s u a w) := by
  have read : touch (withDecoded s d) [⟨ldaAddr u a w, 8⟩] =
      (countReads (withDecoded s d) [⟨ldaAddr u a w, 8⟩], none) := touch_clean (s := withDecoded s d) hl _
  have may : ldaOk (withDecoded s d) b (ldaAddr u a w) = true := inside
  have step : aopStep s u a w = SMap.set 0 a (aopRd w) (BitVec.ofNat 64 (rdW s (ldaAddr u a w) 8)) := by
    simp [aopStep, hw]
  refine ⟨(countReads (withDecoded s d) [⟨ldaAddr u a w, 8⟩]).decoded, ?_⟩
  rw [step, aopWords]
  simp only [hw, aligned, may, read]
  rfl

/-- Words without an LDA change the registers alone. -/
theorem aopWords_plain (ws : List W64) (t : State) (a : SMap W64) (h : ∀ w ∈ ws, aopCode w ≠ 0x0C) :
    aopWords b u ws t a = (t, .inl (ws.foldl (aopStep s u) a)) := by
  induction ws generalizing a with
  | nil => rfl
  | cons w ws ih =>
    rw [aopWords_cons (s := s) ws t a (h w List.mem_cons_self), List.foldl_cons]
    exact ih _ fun v hv => h v (List.mem_cons_of_mem _ hv)

/-- Words whose LDAs may read change the registers and the count of lines decoded. -/
theorem aopWords_reads (hl : s.lineFault = []) (ws : List W64) (d : SMap Nat) (a : SMap W64)
    (h : LdasRead s b u ws a) :
    ∃ d', aopWords b u ws (withDecoded s d) a = (withDecoded s d', .inl (ws.foldl (aopStep s u) a)) := by
  induction ws generalizing d a with
  | nil => exact ⟨d, rfl⟩
  | cons w ws ih =>
    rw [List.foldl_cons]
    by_cases hw : aopCode w = 0x0C
    · obtain ⟨aligned, inside⟩ := h 0 w rfl hw
      obtain ⟨d', e⟩ := aopWords_lda ws d a hw hl aligned inside
      rw [e]
      exact ih d' _ h.tail
    · rw [aopWords_cons (s := s) ws _ a hw]
      exact ih d _ h.tail

/-! ### The rows -/

/-- A queue past its AOP, with the registers that the words have made. -/
def withAregs (a : SMap W64) (v : Queue) : Queue := { v.past with aregs := a }

/-- An AOP at the front whose words run to their end: the registers are theirs, and nothing else changes but the count of
lines decoded. -/
theorem aop_ends (h : Safety.AtFront s b q c 0x04) {i : Instr} {d : SMap Nat} {a : SMap W64}
    (run : exec i s = .next (runAop (Machine.consumed s b q c) b q c))
    (words : aopWords b (s.q b q) c.words (Machine.consumed s b q c) (s.q b q).aregs =
      (withDecoded (Machine.consumed s b q c) d, .inl a)) :
    ∃ t, exec i s = .next t ∧ t.q b q = { (s.q b q).past with aregs := a } ∧ Safety.sameEvents b s t ∧
      Safety.OnlyQueue b q { s with decoded := t.decoded } t ∧ t.decoded = d := by
  have ends : runAop (Machine.consumed s b q c) b q c =
      (Machine.consumed (withDecoded s d) b q c).updQ b q (withAregs a) := by
    rw [runAop, q_consumed, words]
    rfl
  rw [ends] at run
  exact ⟨_, run, q_updQ_consumed .., sameEvents_of_quiet (s := withDecoded s d) (waitCount_of_front h (.inr (.inr rfl)))
    (waitConsumed_updQ (withDecoded s d) b q c _), onlyQueue_updQ (s := withDecoded s d) onlyQueue_consumed _, rfl⟩

/-- Settles O10: the words run in order on the state with the command's wait consumed, where they read what they read on
the state itself. -/
theorem addressUnitWordsRunInOrder : Obligations.AddressUnitWordsRunInOrder := by
  unfold Obligations.AddressUnitWordsRunInOrder
  intro s b q c h u word after
  refine ⟨fun plain => ?aop, fun lda empty hl reads => ?lda⟩
  case aop =>
    have run : exec (.aop b q) s = .next (runAop (Machine.consumed s b q c) b q c) :=
      congrArg Host.Outcome.next
        (frontEnd_runs h (mine := fun c => c.opcode == 0x04 && !hasLda c) (by simp [h.opcode, plain]) (busy := freely)
          rfl fun t c => runAop t b q c)
    have noLda : ∀ w ∈ c.words, aopCode w ≠ 0x0C := by simpa [hasLda] using plain
    obtain ⟨t, et, regs, events, only, decoded⟩ := aop_ends h run (d := s.decoded) (aopWords_plain (s := s) _ _ _ noLda)
    exact ⟨t, et, regs, events, only, fun _ => decoded⟩
  case lda =>
    have idle : (s.q b q).inflight = [] := empty
    have run : exec (.lda b q) s = .next (runAop (Machine.consumed s b q c) b q c) :=
      congrArg Host.Outcome.next
        (frontEnd_runs h (mine := fun c => c.opcode == 0x04 && hasLda c) (by simp [h.opcode, lda])
          (busy := fun _ => !(s.q b q).inflight.isEmpty) (by simp [idle]) fun t c => runAop t b q c)
    obtain ⟨d, words⟩ := aopWords_reads (s := Machine.consumed s b q c) hl c.words s.decoded u.aregs reads
    obtain ⟨t, et, regs, events, only, -⟩ := aop_ends h run words
    exact ⟨t, et, regs, events, only, fun no => absurd (lda.symm.trans no) (by decide)⟩

end Sys2Proof.Laws
end

-- ==== Issue ====
section
/-!
O11: COMMAND_ISSUE of a command that passes every check (04 R99, R121, R122; log 49).
-/
namespace Sys2Proof.Laws

open Sys2Proof.Machine

variable {s : State} {b : Blk} {q : Qc} {c : Cmd}

/-! ### The context of a stream command takes its queue and its label -/

/-- The context of a stream command carries its queue and label, and no other context changes. -/
theorem ctx_ctxTake (s : State) (b : Blk) (q : Qc) (c : Cmd) (n : Nat) : (ctxTake s b q c).ctx b n =
    if c.ctx = some n then { s.ctx b n with oq := q == .OQ, label := BitVec.ofNat 10 c.label } else s.ctx b n := by
  unfold ctxTake
  cases h : c.ctx with
  | none => simp
  | some m =>
    simp only [ctx_setCtx, Option.some.injEq]
    split
    case isTrue e => rw [e]
    case isFalse => rfl

/-- What setting any context of the block keeps, the context that a command takes keeps. -/
theorem ctxTake_of (P : State → State → Prop) (s : State) (b : Blk) (q : Qc) (c : Cmd) (h0 : P s s)
    (h : ∀ n x, P s (s.setCtx b n x)) : P s (ctxTake s b q c) := by
  unfold ctxTake
  split
  · exact h _ _
  · exact h0

theorem q_ctxTake (s : State) (b : Blk) (q r : Qc) (c : Cmd) : (ctxTake s b q c).q b r = s.q b r :=
  ctxTake_of (fun s t => t.q b r = s.q b r) s b q c rfl fun n x => q_setCtx s b n x r

theorem ev_ctxTake (s : State) (b : Blk) (q : Qc) (c : Cmd) : ((ctxTake s b q c).blk b).ev = (s.blk b).ev :=
  ctxTake_of (fun s t => (t.blk b).ev = (s.blk b).ev) s b q c rfl fun _ _ => by simp [State.setCtx]

theorem blk_ctxTake_of_ne (s : State) {a b : Blk} (h : a ≠ b) (q : Qc) (c : Cmd) : (ctxTake s b q c).blk a = s.blk a :=
  ctxTake_of (fun s t => t.blk a = s.blk a) s b q c rfl fun n x => blk_setCtx_of_ne s h n x

theorem ctxTake_frame (s : State) (b : Blk) (q : Qc) (c : Cmd) :
    ctxTake s b q c = { s with blocks := (ctxTake s b q c).blocks } :=
  ctxTake_of (fun s t => t = { s with blocks := t.blocks }) s b q c rfl fun _ _ => rfl

/-- A PANOP has no stream context. -/
theorem ctxTake_pan (s : State) (b : Blk) (q : Qc) (h : c.opcode = 0x57) : ctxTake s b q c = s := by
  simp [ctxTake, Cmd.ctx, h]

/-- The wait of a command consumed leaves every stream context. -/
theorem ctx_consumed_wait (s : State) (b : Blk) (q : Qc) (c : Cmd) (n : Nat) :
    (Machine.consumed s b q c).ctx b n = s.ctx b n := by
  rw [State.ctx, Machine.consumed, blk_updBlk, consume_frame]
  rfl

/-! ### Issue -/

/-- A command against which no check stands enters the flight (R121). -/
theorem issueCmd_clear (h : cmdIssue s b (mkInFl s b q c) = []) {e : State × InFl}
    (he : enterTables s b (mkInFl s b q c) = e) : issueCmd s b q c = pushNext (ctxTake e.1 b q c) b q e.2 := by
  unfold issueCmd
  dsimp only
  rw [h, he]
  rfl

/-- COMMAND_ISSUE of a command at the front that nothing holds at issue and no check refuses. -/
theorem commandIssue_clear {op : Nat} (h : Safety.AtFront s b q c op) (ho : 0x05 ≤ c.opcode)
    (hc : ctxBusy s b c = false) (hu : unitBusy s b q (mkInFl s b q c) = false)
    (hi : cmdIssue (Machine.consumed s b q c) b (mkInFl s b q c) = []) {e : State × InFl}
    (he : enterTables (Machine.consumed s b q c) b (mkInFl s b q c) = e) :
    exec (.commandIssue b q) s = .next (pushNext (ctxTake e.1 b q c) b q e.2) := by
  have front := frontEnd_runs h (mine := fun c => 0x05 ≤ c.opcode) (decide_eq_true ho)
    (busy := fun c => ctxBusy s b c || unitBusy s b q (mkInFl s b q c)) (by simp [hc, hu]) fun t c => issueCmd t b q c
  have there : ¬((fetched s b q).isNone && canTake s b q) = true := by simp [h.next]
  rw [← mkInFl_consumed s b q c c] at hi he
  show Host.Outcome.next (takeCmd s b q) = _
  rw [takeCmd, if_neg there, front, issueCmd_clear hi he]

/-- Only a COLL and a PANOP enter anything in the tables of the node. -/
theorem enterTables_none {f : InFl} (h1 : f.cmd.opcode ≠ 0x57) (h2 : f.cmd.opcode ≠ 0x56) :
    enterTables s b f = (s, f) := by
  unfold enterTables
  split
  case h_1 e => exact absurd e h2
  case h_2 e => exact absurd e h1
  case h_3 => rfl

/-- A PANOP enters the stacks it works in. -/
theorem enterTables_pan {f : InFl} (h : f.cmd.opcode = 0x57) : enterTables s b f = panAtIssue s f := by
  simp [enterTables, h]

/-- A COLL enters its brine areas. -/
theorem enterTables_coll {f : InFl} (h : f.cmd.opcode = 0x56) : enterTables s b f = (collRegister s b f, f) := by
  simp [enterTables, h]

/-- Settles O11: the command issues; beside its flight, its context takes its queue and label, and a PANOP or a COLL
enters its tables. -/
theorem commandIssueEntersFlight : Obligations.CommandIssueEntersFlight := by
  unfold Obligations.CommandIssueEntersFlight
  intro s b q c h ho f hc hu s1 hi
  have run {e : State × InFl} (he : enterTables s1 b f = e) := commandIssue_clear h ho hc hu hi he
  refine ⟨fun notPan notColl => ?other, fun pan => ?pan, fun coll => ?coll⟩
  case pan =>
    have issued := run (enterTables_pan (f := f) pan)
    rwa [ctxTake_pan _ _ _ pan] at issued
  case coll => exact run (enterTables_coll (f := f) coll)
  case other =>
    refine ⟨_, run (enterTables_none (f := f) notPan notColl), ?flight, rfl, rfl, rfl, rfl, ?waited, fun n => ?context,
      fun r hr => ?queues, fun a ha => ?others, ?rest⟩
    case flight =>
      rw [pushNext, q_updQ, q_ctxTake, q_consumed]
    case waited =>
      intro p r
      rw [pushNext, evGet_updQ, evGet, ev_ctxTake]
      exact waitConsumed_consumed s b q c p r
    case context =>
      rw [pushNext, ctx_updQ, ctx_ctxTake, ctx_consumed_wait]
    case queues =>
      rw [pushNext, q_updQ_of_ne _ _ hr, q_ctxTake, q_consumed]
    case others =>
      rw [pushNext, blk_updQ_of_ne _ _ ha, blk_ctxTake_of_ne _ ha, blk_consumed_of_ne _ ha]
    case rest =>
      rw [ctxTake_frame]
      rfl

end Sys2Proof.Laws
end

-- ==== SolverRows ====
section
/-!
O16: SFACT and SPAT (06 R151, R155, R168, R171).
-/
namespace Sys2Proof.Laws

open Sys2Proof.Machine

variable {s : State} {b : Blk} {f : InFl}

/-! ### SFACT -/

/-- The items of an SFACT worked in order. -/
def sfactWalk (s : State) (b : Blk) (f : InFl) : SWalk :=
  let k := SCtl.of f.cmd.w6
  let bt := batchOf s f
  let t := stensOf s f
  let g : SJob := { ctl := k, n := bt.n, data := t.mat.fmt, w := if k.f32 then .fp32 else t.mat.fmt,
                    floor := Fmt.fp64.decode bt.floor, pat := if k.usePat then patOf s b k.slot else none }
  (List.range t.mat.items).foldl (itemStep g t b bt.nrhs f.cmd.w7.toNat) { s := taken s b .XQ f }

/-- An SFACT whose items end, none with a fault and none with NOTRUN: it sets its flags and finishes (R151). -/
def sfactDone (b : Blk) (f : InFl) (items : Nat) (w : SWalk) : State :=
  finishOut (setFlags { w.s with free := w.s.free + (if f.cmd.w7 = 0 then 0 else w.cyc + 1) } b 3 w.fl)
    b .XQ f.idx .ok (w.out.bytes items)

theorem sfactRun_done (hf : (sfactWalk s b f).fault = none) (hl : (sfactWalk s b f).late = []) :
    sfactRun s b f = sfactDone b f (stensOf s f).mat.items (sfactWalk s b f) := by
  unfold sfactWalk at hf hl
  unfold sfactRun sfactDone sfactWalk
  simp only [hf, hl, List.foldl_nil]

/-- With no item the solver works none. -/
theorem sfactWalk_none (h : (stensOf s f).mat.items = 0) : sfactWalk s b f = { s := taken s b .XQ f } := by
  simp [sfactWalk, h]

/-- An SFACT without items changes its own entry alone (R155). -/
theorem sfact_none (hm : f ∈ (s.q b .XQ).inflight) (hd : f.done = none) (h : (stensOf s f).mat.items = 0) :
    let u := sfactRun s b f
    Safety.Finished b .XQ f .ok u ∧ (u.blk b).flags = (s.blk b).flags ∧ Safety.EngineOnly b .XQ [] s u := by
  intro u
  have walk := sfactWalk_none (b := b) h
  have run : u = sfactDone b f 0 { s := taken s b .XQ f } := by
    have done := sfactRun_done (s := s) (b := b) (f := f) (by rw [walk]) (by rw [walk])
    rwa [walk, h] at done
  obtain ⟨finished, -, flags, only⟩ := engine_ends hm hd (OnlyMem.refl _) 3 0
    (s.free + if f.cmd.w7 = 0 then 0 else 65) .ok (SOut.bytes [] 0) [] fun _ _ => rfl
  rw [run]
  exact ⟨finished, flags.trans (by simp), only⟩

/-! ### Pattern slots -/

theorem find_erase {V : Type} (m : SMap V) (k j : Nat) : (SMap.erase m k).find? (fun p => p.1 == j) =
    if j = k then none else m.find? fun p => p.1 == j := by
  rw [erase_eq_filter, List.find?_filter]
  split
  case isTrue e => simp [e]
  case isFalse e =>
    congr 1
    funext p
    by_cases h : p.1 = j <;> simp [h, e]

theorem find_ins {V : Type} {m : SMap V} {k : Nat} (v : V) (h : ∀ e ∈ m, e.1 ≠ k) (j : Nat) :
    (SMap.ins m k v).find? (fun p => p.1 == j) = if j = k then some (k, v) else m.find? fun p => p.1 == j := by
  induction m with
  | nil =>
    by_cases e : k = j
    · simp [SMap.ins, e]
    · simp [SMap.ins, e, Ne.symm e]
  | cons x m ih =>
    obtain ⟨a, w⟩ := x
    have ha : a ≠ k := h (a, w) List.mem_cons_self
    have rest := ih fun e he => h e (List.mem_cons_of_mem _ he)
    rw [SMap.ins]
    split
    case isTrue =>
      by_cases e : k = j
      · simp [e]
      · simp [e, Ne.symm e]
    case isFalse =>
      by_cases e : a = j
      · have hj : j ≠ k := e ▸ ha
        simp [e, hj]
      · rw [List.find?_cons_of_neg (by simpa using e), List.find?_cons_of_neg (by simpa using e), rest]

theorem not_mem_erase {V : Type} (m : SMap V) (k : Nat) : ∀ e ∈ SMap.erase m k, e.1 ≠ k := by
  intro e he
  rw [erase_eq_filter] at he
  simpa using (List.mem_filter.1 he).2

/-! ### SPAT -/

/-- A block with other pattern slots. -/
def withPats (g : SMap Pat → SMap Pat) (k : Block) : Block := { k with slv := { k.slv with pats := g k.slv.pats } }

/-- The pattern that an SPAT makes (R171). -/
def spatPat (s : State) (f : InFl) : Pat :=
  let x := patDesc (((refIdx f.cmd.w1).bind (descBytes s)).getD [])
  mkPat x.1 (x.2.1 == 1) ((List.range x.1).map fun i => BitVec.ofNat 64 ((spatTensor s f).raw s i))

/-- An SPAT with its lines read and its pattern in its slot, before it finishes. -/
def spatFilled (s : State) (b : Blk) (f : InFl) : State :=
  let slot := fld f.cmd.w2 0 6
  (countReads (s.updBlk b (withPats fun m => SMap.erase m slot)) (spatTensor s f).runs).updBlk b
    (withPats fun m => (SMap.erase m slot).ins slot (spatPat s f))

theorem spatRun_clean (hl : s.lineFault = []) : spatRun s b f = finish (spatFilled s b f) b .XQ f.idx .ok := by
  unfold spatRun
  dsimp only
  rw [withTouch_clean (s := s.updBlk b _) hl]
  rfl

theorem blk_spatFilled : (spatFilled s b f).blk b = withPats (fun m =>
    (SMap.erase (SMap.erase m (fld f.cmd.w2 0 6)) (fld f.cmd.w2 0 6)).ins (fld f.cmd.w2 0 6) (spatPat s f)) (s.blk b) := by
  rw [spatFilled, blk_updBlk, blk_countReads, blk_updBlk]
  rfl

theorem blk_spatFilled_of_ne {a : Blk} (h : a ≠ b) : (spatFilled s b f).blk a = s.blk a := by
  rw [spatFilled, blk_updBlk_of_ne _ h, blk_countReads, blk_updBlk_of_ne _ h]

/-- The filled slot holds the pattern, every other slot what it held. -/
theorem patOf_spatRun (hl : s.lineFault = []) (j : Nat) : patOf (spatRun s b f) b j =
    if j = fld f.cmd.w2 0 6 then some (spatPat s f) else patOf s b j := by
  have slots : ((spatRun s b f).blk b).slv.pats = ((spatFilled s b f).blk b).slv.pats := by
    rw [spatRun_clean hl, finish, updInFl, State.updQ, State.setQ, blk_updBlk]
    rfl
  rw [patOf, slots, blk_spatFilled, withPats, find_ins _ (not_mem_erase _ _), find_erase, find_erase]
  split <;> rfl

/-- Settles O16: SFACT is its items' walk and one finish, SPAT one slot filled. -/
theorem solverCommandsComplete : Obligations.SolverCommandsComplete := by
  unfold Obligations.SolverCommandsComplete
  intro s b f clean hd
  refine ⟨fun hn ho => ?sfact, fun hn ho => ?spat⟩
  case sfact =>
    intro k bt t g w
    have run : exec (.sfact b) s = .next (sfactRun s b f) := congrArg Host.Outcome.next (engine_run hn ho _)
    exact ⟨fun hf hl => run.trans (congrArg Host.Outcome.next (sfactRun_done hf hl)),
      fun h => ⟨_, run, sfact_none (nextStart_mem hn) hd h⟩⟩
  case spat =>
    intro n kind slot
    have run : exec (.spat b) s = .next (spatRun s b f) := congrArg Host.Outcome.next (engine_run hn ho _)
    have pats := patOf_spatRun (b := b) (f := f) clean.lines
    have filled : patOf (spatRun s b f) b slot = some (spatPat s f) := (pats slot).trans (if_pos rfl)
    have qs : ∀ r, (spatFilled s b f).q b r = s.q b r := fun r => by
      rw [State.q, blk_spatFilled]
      rfl
    have taken : f ∈ ((spatFilled s b f).q b .XQ).inflight := by
      rw [qs]
      exact nextStart_mem hn
    have done := spatRun_clean (b := b) (f := f) clean.lines
    refine ⟨_, run, ?finished, filled, fun j hj => (pats j).trans (if_neg hj), fun a ha => ?others, fun r hr => ?queues,
      ?rest⟩
    case finished =>
      rw [done]
      exact finished_finish taken hd (spatFilled s b f).decoded .ok
    case others => rw [done, finish, updInFl, blk_updQ_of_ne _ _ ha, blk_spatFilled_of_ne ha]
    case queues => rw [done, finish, updInFl, q_updQ_of_ne _ _ hr, qs]
    case rest =>
      rw [done]
      rfl

end Sys2Proof.Laws
end

-- ==== RowStreams ====
section
/-!
O21: GATHER, SCATTER and DELTA start a stream on context 14 or 15 (06 R174, 07 R188 to R190, 08 R214; log 74).
-/
namespace Sys2Proof.Laws

open Sys2Proof.Machine

variable {s : State} {b : Blk} {f : InFl}

/-! ### GATHER and SCATTER -/

/-- A function of elements and their places is one of places. -/
theorem zipIdx_map_range {α β : Type} (n : Nat) (g : Nat → α) (h : α × Nat → β) :
    ((List.range n).map g).zipIdx.map h = (List.range n).map fun j => h (g j, j) := by
  apply List.ext_getElem
  · simp
  · intro i _ _
    simp

/-- The stream of a GATHER or SCATTER. -/
def rowsStream (s : State) (f : InFl) (gather : Bool) : Active :=
  let x := rowsOf s f gather
  { idx := f.idx, remote := false, outbound := !gather, narrow := true, lc := gather && x.2.1.lc, high := 0, low := 0
    rush := 0, rate := ((stCtl s f.cmd.w4).getD {}).rate, ringBase := 0, ringSize := 0
    todo := rowsReqs (x.1.raws s) x.2.1 x.2.2, sent := [] }

/-- Some index of a GATHER's or SCATTER's list is at or above the table's row count (R189). -/
def rowsAbove (s : State) (f : InFl) (gather : Bool) : Bool :=
  ((rowsOf s f gather).1.raws s).any fun i => (rowsOf s f gather).2.1.c 1 ≤ i

theorem rowsAbove_iff {gather : Bool} : rowsAbove s f gather = true ↔
    ∃ j, j < (rowsOf s f gather).1.size ∧ (rowsOf s f gather).2.1.c 1 ≤ (rowsOf s f gather).1.raw s j := by
  simp [rowsAbove, Desc.raws]

/-- The requests of a GATHER or SCATTER, row by row of its list (R190). -/
theorem rowsReqs_raws (ix tab den : Desc) : rowsReqs (ix.raws s) tab den =
    number ((joinRows ((List.range ix.size).map fun j =>
      { far := tab.rowNpa (ix.raw s j), near := den.base + j * tab.rowBytes, bytes := tab.rowBytes
        nb := tab.rowBytes })).flatMap fun r => cutRun 512 4096 1 1 (r.bytes / 8 + 2) r) := by
  rw [rowsReqs, Desc.raws, zipIdx_map_range]

/-- With no line in error the whole list is checked before the stream starts (R189). -/
theorem rowsRun_clean (hl : s.lineFault = []) (gather : Bool) : rowsRun s b f gather =
    if rowsAbove s f gather then finish (countReads s (rowsOf s f gather).1.runs) b (dirQ gather) f.idx .bounds
    else startStream (countReads s (rowsOf s f gather).1.runs) b (if gather then 14 else 15) (dirQ gather) f false
      (rowsStream s f gather) := by
  unfold rowsRun
  dsimp only
  rw [withTouch_clean hl]
  rfl

/-- A command whose list names a row that the table has not ends with BOUNDS, its lines counted. -/
theorem bounds_ends {q : Qc} (hm : f ∈ (s.q b q).inflight) (hd : f.done = none) (runs : List Run) :
    let t := finish (countReads s runs) b q f.idx .bounds
    Safety.Finished b q f .bounds t ∧ (t.blk b).flags = (s.blk b).flags ∧ Safety.EngineOnly b q [] s t := by
  intro t
  obtain ⟨finished, -, flags, only⟩ :=
    engine_ends_plain hm hd (onlyMem_countReads s runs) s.free .bounds [] [] fun _ _ => rfl
  have ended : t = finishOut { countReads s runs with free := s.free } b q f.idx .bounds [] := finish_eq_finishOut ..
  rw [ended]
  exact ⟨finished, flags, only⟩

/-- A stream of no ring, its list's lines counted, starts on its context. -/
theorem startStream_counted {q : Qc} (hm : f ∈ (s.q b q).inflight) (hd : f.done = none) (hq : q = .IQ ∨ q = .OQ) (n : Nat)
    (runs : List Run) (a : Active) (hi : a.idx = f.idx) (hc : a.coll = false) (hf : a.fail = none) (hs : a.sent = []) :
    Safety.StreamStarts b q f n false a (countReads s runs) (startStream (countReads s runs) b n q f false a) :=
  startStream_starts (s := countReads s runs) hm hd hq n false a hi hc hf hs fun h => Bool.false_ne_true h.1

/-- GATHER and SCATTER by the direction that tells them apart. -/
theorem rows_end (hl : s.lineFault = []) (hd : f.done = none) {gather : Bool}
    (hm : f ∈ (s.q b (dirQ gather)).inflight) :
    let t := rowsRun s b f gather
    (rowsAbove s f gather = false → Safety.StreamStarts b (dirQ gather) f (if gather then 14 else 15) false
      (rowsStream s f gather) (countReads s (rowsOf s f gather).1.runs) t) ∧
    (rowsAbove s f gather = true → Safety.Finished b (dirQ gather) f .bounds t ∧
      (t.blk b).flags = (s.blk b).flags ∧ Safety.EngineOnly b (dirQ gather) [] s t) := by
  intro t
  have run : t = _ := rowsRun_clean hl gather
  rw [run]
  refine ⟨fun inside => ?_, fun above => ?_⟩
  · have queue : dirQ gather = .IQ ∨ dirQ gather = .OQ := by cases gather <;> simp [dirQ]
    rw [inside, if_neg Bool.false_ne_true]
    exact startStream_counted hm hd queue _ _ (rowsStream s f gather) rfl rfl rfl rfl
  · rw [if_pos above]
    exact bounds_ends hm hd _

/-! ### DELTA -/

/-- The stream of a DELTA (R174). -/
def deltaStream (s : State) (f : InFl) : Active :=
  { idx := f.idx, remote := false, outbound := false, narrow := false, lc := (opnd! s f 1).lc, high := 0, low := 0
    rush := 0, rate := 0, ringBase := 0, ringSize := 0, todo := deltaReqs s (opnd! s f 1) (opnd! s f 2), sent := [] }

theorem deltaRun_clean (hl : s.lineFault = []) : deltaRun s b f =
    startStream (countReads s (opnd! s f 1).runs) b 14 .IQ f false (deltaStream s f) := by
  unfold deltaRun
  dsimp only
  rw [withTouch_clean hl]
  rfl

/-- Settles O21: each row starts its stream with the lines of its list counted, or ends with BOUNDS. -/
theorem rowCommandsMoveRows : Obligations.RowCommandsMoveRows := by
  unfold Obligations.RowCommandsMoveRows
  intro s b f hl hd rows
  have moves (gather : Bool) (i : Instr) (run : exec i s = .next (rowsRun s b f gather))
      (hm : f ∈ (s.q b (dirQ gather)).inflight) : rows i (dirQ gather) (if gather then 14 else 15) gather := by
    dsimp only [rows]
    obtain ⟨starts, ends⟩ := rows_end hl hd hm
    refine ⟨fun inside => ⟨_, run, ?_⟩, fun above => ⟨_, run, ends (rowsAbove_iff.2 above)⟩⟩
    have none : rowsAbove s f gather = false := Bool.eq_false_iff.2 fun h => by
      obtain ⟨j, hj, hc⟩ := rowsAbove_iff.1 h
      exact absurd (inside j hj) (by omega)
    have stream := starts none
    rw [rowsStream, rowsReqs_raws] at stream
    exact stream
  refine ⟨fun hn ho => ?gatherRow, fun hn ho => ?scatterRow, fun hn ho => ?deltaRow⟩
  case gatherRow => exact moves true _ (congrArg Host.Outcome.next (engine_run hn ho _)) (nextStart_mem hn)
  case scatterRow => exact moves false _ (congrArg Host.Outcome.next (engine_run hn ho _)) (nextStart_mem hn)
  case deltaRow =>
    intro l m n entry
    have run : exec (.delta b) s = .next (deltaRun s b f) := congrArg Host.Outcome.next (engine_run hn ho _)
    rw [deltaRun_clean hl] at run
    exact ⟨_, run, startStream_counted (nextStart_mem hn) hd (.inl rfl) 14 l.runs (deltaStream s f) rfl rfl rfl rfl⟩

end Sys2Proof.Laws
end

-- ==== StepBoundary ====
section
/-!
O29: STEP_BOUNDARY without a checkpoint, a hold or a twin (04 R116, 08 R223, 09 R264, 13 R342). A boundary changes every
queue and context of every block alike, so what it does is said once for a table whose entries are changed.
-/
namespace Sys2Proof.Laws

open Sys2Proof.Machine

/-! ### Every block changed alike -/

variable {s : State}

/-- A block of a node whose blocks are changed by a function that keeps the block at reset. -/
theorem blk_mapV {t : State} {F : Nat → Block → Block} (h : t.blocks = s.blocks.mapV {} F) (hF : ∀ k, F k {} = {})
    (b : Blk) : t.blk b = F b.key (s.blk b) := by
  rw [State.blk, h]
  exact get_mapV hF _ _

/-! ### Queues go on past STEP -/

/-- A queue that stood at STEP runs. -/
def released (u : Queue) : Queue := if u.state = .step then { u with state := .run } else u

theorem released_eq (u : Queue) : released u = { u with state := if u.state = .step then .run else u.state } := by
  unfold released
  split <;> rfl

theorem blk_releaseQueues (b : Blk) : (releaseQueues s).blk b =
    { s.blk b with queues := (s.blk b).queues.mapV {} fun _ => released } :=
  blk_mapV (t := releaseQueues s) rfl (fun _ => rfl) b

theorem q_releaseQueues (b : Blk) (q : Qc) : (releaseQueues s).q b q = released (s.q b q) := by
  rw [State.q, blk_releaseQueues]
  exact get_mapV (fun _ => rfl) _ _

theorem ctx_releaseQueues (b : Blk) (n : Nat) : (releaseQueues s).ctx b n = s.ctx b n := by
  rw [State.ctx, blk_releaseQueues]
  rfl

/-! ### Stream counts and signatures are cleared -/

theorem blk_clearStep (b : Blk) : (clearStep s).blk b = { s.blk b with
    ctxs := (s.blk b).ctxs.mapV {} fun _ c => { c with peer := 0, own := 0, issued := 0 }
    queues := (s.blk b).queues.mapV {} fun _ u => { u with crc := 0, crcLog := [] } } :=
  blk_mapV (t := clearStep s) rfl (fun _ => rfl) b

theorem q_clearStep (b : Blk) (q : Qc) : (clearStep s).q b q = { s.q b q with crc := 0, crcLog := [] } := by
  rw [State.q, blk_clearStep]
  exact get_mapV (fun _ => rfl) _ _

theorem ctx_clearStep (b : Blk) (n : Nat) : (clearStep s).ctx b n = { s.ctx b n with peer := 0, own := 0, issued := 0 } := by
  rw [State.ctx, blk_clearStep]
  exact get_mapV (fun _ => rfl) _ _

/-! ### The boundary -/

/-- The node with its step counter raised and the functions that waited returned (13 R342). -/
def stepRaised (s : State) : State := { s with
  job := { s.job with step := s.job.step + 1, risen := true }
  host := { s.host with fallback := s.host.fallback &&& ~~~ s.host.returning, returning := 0 } }

/-- A boundary that is reached with no checkpoint, hold or twin is taken at once. -/
theorem stepBoundary_taken (hb : boundaryReached s = true) (hh : s.hold.state = .run) (hc : ckptDue s = none)
    (ht : twin s = none) : stepBoundary s = releaseQueues (clearStep (stepRaised s)) := by
  have now : ¬(!boundaryReached s || !(s.hold.state == .run ||
      (s.hold.state == .holding && s.hold.atBoundary && !s.hold.stepPending))) = true := by simp [hb, hh]
  have taken : takeBoundary s = releaseQueues (clearStep (stepRaised s)) := by
    unfold takeBoundary
    rw [hc]
    exact if_pos hh
  unfold stepBoundary
  rw [if_neg now, ht]
  exact (if_neg (by simp [hh])).trans taken

/-- A boundary is reached once every queue has come to its STEP or END and every event is consumed (R116). -/
theorem boundaryReached_of (hp : s.job.phase = .running) (hs : s.job.started = true) (hc : s.ckpt.cutting = false)
    (hr : s.job.risen = false) (hq : ∀ b ∈ liveBlocks s, ∀ q, (s.q b q).inflight = [] ∧
      ((s.q b q).state = .step ∨ (s.q b q).state = .endd ∨ (s.q b q).stream = []))
    (he : ∀ e ∈ s.blocks, ∀ c ∈ e.2.ev, c.2 = 0) (hd : ckptDue s = none) : boundaryReached s = true := by
  have queues : allAtStep s = true := by
    simp only [allAtStep, queueAtStep, List.all_eq_true, Bool.and_eq_true, Bool.or_eq_true, beq_iff_eq, List.isEmpty_iff]
    exact fun b hb q _ => ⟨(hq b hb q).1, or_assoc.2 (hq b hb q).2⟩
  have events : countersZero s = true := by
    simp only [countersZero, List.all_eq_true, beq_iff_eq]
    exact he
  simp [boundaryReached, hp, hs, hc, hr, hd, queues, events]

/-- Settles O29: the boundary is taken at once, and what it changes is each queue's and each context's own change. -/
theorem stepBoundaryRaisesStep : Obligations.StepBoundaryRaisesStep := by
  unfold Obligations.StepBoundaryRaisesStep
  intro s hp hs hc hr hq he hss ht hh
  have due : ckptDue s = none := by rw [ckptDue, hss, Option.bind_none]
  have reached := boundaryReached_of hp hs hc hr hq he due
  have run : exec .stepBoundary s = .next (releaseQueues (clearStep (stepRaised s))) :=
    congrArg Host.Outcome.next (stepBoundary_taken reached hh due ht)
  refine ⟨_, run, rfl, fun b q => ?queue, fun b n => ?context, fun b => ?block, rfl, rfl, rfl⟩
  case queue =>
    rw [q_releaseQueues, q_clearStep, released_eq]
    rfl
  case context =>
    rw [ctx_releaseQueues, ctx_clearStep]
    rfl
  case block =>
    rw [blk_releaseQueues, blk_clearStep]
    rfl

end Sys2Proof.Laws
end

-- ==== JobStart ====
section
/-!
O39: T_GO of a launch and of a lay (09 R262, 04 R98, R102, R112, 08 R223, 10 R270, 13 R337; log 9).
-/
namespace Sys2Proof.Laws

open Sys2Proof.Machine

/-- An entry of a changed table is the entry changed, or one that was not listed. -/
theorem get_mapV_or {V : Type} [DecidableEq V] (d : V) (f : Nat → V → V) (m : SMap V) (k : Nat) :
    SMap.get d (SMap.mapV d f m) k = f k (SMap.get d m k) ∨
      SMap.get d m k = d ∧ SMap.get d (SMap.mapV d f m) k = d := by
  induction m with
  | nil => exact .inr ⟨rfl, rfl⟩
  | cons e m ih =>
    obtain ⟨a, v⟩ := e
    rw [SMap.mapV, get_set, SMap.get]
    by_cases h : k = a
    · subst h
      simp
    · rwa [if_neg h, if_neg (Ne.symm h)]

variable {s : State}

/-! ### Step 0 begins -/

/-- A queue at its first command, nothing of it in flight. -/
def firstQueue (u : Queue) : Queue := { u with
  pc := 0, loops := [], inflight := [], aregs := [], haltStatus := .ok, haltIdx := 0, crc := 0, crcLog := []
  state := if u.stream.isEmpty then .endd else .run }

/-- A context at rest, its counts zero. -/
def firstCtx (c : Ctx) : Ctx := { c with peer := 0, own := 0, issued := 0, active := none, state := .idle }

/-- Every block begins with no event counted, its contexts at rest, and its queues at their first commands. -/
theorem blk_firstStep (m : PrepMsg) (b : Blk) : ∃ v, (firstStep s m).blk b = { s.blk b with
    ev := [], dEvents := 0, slv := v, ctxs := (s.blk b).ctxs.mapV {} fun _ => firstCtx
    queues := (s.blk b).queues.mapV {} fun _ => firstQueue } := by
  unfold firstStep State.blk
  rcases get_mapV_or ({} : Block) _ s.blocks b.key with listed | ⟨unlisted, stays⟩
  · exact ⟨_, listed⟩
  · rw [unlisted]
    exact ⟨{}, stays⟩

theorem q_firstStep (m : PrepMsg) (b : Blk) {q : Qc} (h : (s.q b q).stream ≠ []) :
    (firstStep s m).q b q = firstQueue (s.q b q) := by
  obtain ⟨v, block⟩ := blk_firstStep (s := s) m b
  rw [State.q, block]
  rcases get_mapV_or ({} : Queue) (fun _ => firstQueue) (s.blk b).queues q.code with listed | ⟨unlisted, -⟩
  · exact listed
  · exact absurd (congrArg Queue.stream unlisted) h

theorem ctx_firstStep (m : PrepMsg) (b : Blk) (n : Nat) : (firstStep s m).ctx b n = firstCtx (s.ctx b n) := by
  obtain ⟨v, block⟩ := blk_firstStep (s := s) m b
  rw [State.ctx, block]
  exact get_mapV (fun _ => rfl) _ _

/-! ### The harts of the start table (10 R270) -/

/-- The hart that an entry of the start table names. -/
def startAt (e : StartEnt) : BitVec 6 := BitVec.ofNat 6 (e.core * 4 + e.thread)

/-- A hart as an entry of the start table starts it. -/
def startedHart (node : NodeId) (step : Nat) (e : StartEnt) (old : Hart) : Hart :=
  let h : Hart := { state := .running, pc := e.entry, tcmp := old.tcmp, msip := old.msip, rstat := old.rstat }
  let h1 := ((h.setX 10 e.arg).setX 11 (BitVec.ofNat 64 node.toNat)).setX 12 (BitVec.ofNat 64 step)
  { h1 with csr := { h1.csr with mstatus := 1 <<< 15 } }

/-- The harts that entries of a start table name, started one after the other. -/
def startAll (node : NodeId) (step : Nat) (l : List StartEnt) (t : State) : State :=
  l.foldl (fun t e => t.setHart (startAt e) (startedHart node step e (t.hart (startAt e)))) t

theorem startHarts_eq (s : State) (step : Nat) :
    startHarts s step = startAll (nodeId s) step ((s.job.image.map Image.starts).getD []) s := rfl

theorem startedHart_runs (node : NodeId) (step : Nat) (e : StartEnt) (old : Hart) :
    let h := startedHart node step e old
    h.state = .running ∧ h.pc = e.entry ∧ h.xr 10 = e.arg ∧ h.xr 11 = BitVec.ofNat 64 node.toNat ∧
      h.xr 12 = BitVec.ofNat 64 step := by
  simp [startedHart, Hart.setX, Hart.xr, get_set]

variable {node : NodeId} {step : Nat}

theorem startAll_frame (l : List StartEnt) (t : State) :
    startAll node step l t = { t with harts := (startAll node step l t).harts } := by
  induction l generalizing t with
  | nil => rfl
  | cons e l ih => exact ih _

theorem blk_startAll (l : List StartEnt) (t : State) (b : Blk) : (startAll node step l t).blk b = t.blk b := by
  rw [startAll_frame]
  rfl

/-- A hart that no entry names stays as it is. -/
theorem hart_startAll_of_ne (l : List StartEnt) (t : State) {i : BitVec 6} (h : ∀ e ∈ l, startAt e ≠ i) :
    (startAll node step l t).hart i = t.hart i := by
  induction l generalizing t with
  | nil => rfl
  | cons e l ih =>
    have rest := ih (t.setHart (startAt e) (startedHart node step e (t.hart (startAt e))))
      fun x hx => h x (List.mem_cons_of_mem _ hx)
    exact rest.trans (hart_setHart_of_ne _ (Ne.symm (h e List.mem_cons_self)))

/-- The hart of an entry that no other entry names starts by it. -/
theorem hart_startAll (l : List StartEnt) (t : State) {e : StartEnt} (he : e ∈ l)
    (only : ∀ x ∈ l, startAt x = startAt e → x = e) :
    ∃ old, (startAll node step l t).hart (startAt e) = startedHart node step e old := by
  induction l generalizing t with
  | nil => exact absurd he List.not_mem_nil
  | cons x l ih =>
    by_cases later : e ∈ l
    · exact ih _ later fun y hy => only y (List.mem_cons_of_mem _ hy)
    · have first : x = e := ((List.mem_cons.1 he).resolve_right later).symm
      subst first
      have none : ∀ y ∈ l, startAt y ≠ startAt x := fun y hy same =>
        later (only y (List.mem_cons_of_mem _ hy) same ▸ hy)
      exact ⟨_, (hart_startAll_of_ne l _ none).trans (hart_setHart ..)⟩

/-! ### T_GO -/

/-- T_GO of a COMMIT whose t_go has come. -/
theorem tGo_run {h : Held} (hp : s.job.prep = some h) (hc : h.committed = true) (ht : h.msg.tGo.toNat ≤ s.tim.hall)
    (hn : s.host.node ≠ .halted) : exec .tGo s = .next (
      if h.msg.purpose = 0 then startHarts (firstStep s h.msg) 0
      else if s.hold.restored then startHarts (goOn s h.msg) s.job.step.toNat else goOn s h.msg) := by
  show execTGo s = _
  unfold execTGo
  rw [hp]
  exact congrArg Host.Outcome.next (if_pos ⟨hc, ht, hn⟩)

/-- Settles O39: a launch is step 0 with the harts of the start table started, a lay the release of the queues. -/
theorem tGoStartsTheJob : Obligations.TGoStartsTheJob := by
  unfold Obligations.TGoStartsTheJob
  intro s h hp hc ht hn
  have run := tGo_run hp hc ht hn
  refine ⟨fun launch => ?launch, fun lay fresh => ?lay⟩
  case launch =>
    intro at_ starts
    have run : exec .tGo s = .next (startAll (nodeId s) 0 starts (firstStep s h.msg)) :=
      run.trans (congrArg Host.Outcome.next ((if_pos launch).trans (startHarts_eq _ 0)))
    have blocks (b : Blk) : (startAll (nodeId s) 0 starts (firstStep s h.msg)).blk b = (firstStep s h.msg).blk b :=
      blk_startAll starts _ b
    refine ⟨_, run, ?job, ?hold, fun b => ?events, fun b q hq => ?queue, fun b n => ?context, fun i hi => ?stays,
      fun e he only => ?starts, ?rest⟩
    case job =>
      rw [startAll_frame]
      rfl
    case hold =>
      rw [startAll_frame]
      rfl
    case events =>
      obtain ⟨v, block⟩ := blk_firstStep (s := s) h.msg b
      exact ⟨congrArg Block.ev ((blocks b).trans block), congrArg Block.dEvents ((blocks b).trans block)⟩
    case queue =>
      rw [State.q, blocks]
      refine (q_firstStep h.msg b hq).trans ?_
      simp [firstQueue, hq]
    case context =>
      rw [State.ctx, blocks]
      exact ctx_firstStep h.msg b n
    case stays => exact hart_startAll_of_ne starts _ hi
    case starts =>
      obtain ⟨old, started⟩ := hart_startAll (node := nodeId s) (step := 0) starts (firstStep s h.msg) he only
      have runs := startedHart_runs (nodeId s) 0 e old
      rw [← started] at runs
      exact runs
    case rest =>
      rw [startAll_frame]
      rfl
  case lay =>
    rw [if_neg lay, if_neg (by simp [fresh])] at run
    refine ⟨_, run, rfl, rfl, rfl, fun b q => ?queue, fun b => ?block, rfl⟩
    case queue => exact (q_releaseQueues b q).trans (released_eq _)
    case block =>
      rw [goOn, blk_releaseQueues]
      rfl

end Sys2Proof.Laws
end

-- ==== CopyDigest ====
section
/-!
O24: COPY and DIGEST of the pan engines (07 R201, R202). With no line in error a COPY is its rows' moves one after the other:
checking the source's lines only counts them.
-/
namespace Sys2Proof.Laws

open Sys2Proof.Machine

/-! ### A pan command that writes memory alone -/

/-- Whatever lines it has counted, such a command leaves what it wrote and finishes. -/
theorem pan_ends_of_onlyMem {s w : State} {b : Blk} {f : InFl} (hm : f ∈ (s.q b .OQ).inflight) (hd : f.done = none)
    (K : OnlyMem s w) (z : SMap Nat) (bs : List Byte) (runs : List Run)
    (hr : ∀ a, Safety.Outside s runs a → rd w a = rd s a) :
    let t := finishOut (withCounts w z s.free) b .OQ f.idx .ok bs
    Safety.Finished b .OQ f .ok t ∧ t.mem = w.mem ∧ t.stk = s.stk ∧ t.brine = s.brine ∧ Safety.PanOnly b .OQ runs s t := by
  obtain ⟨finished, mem, stk, brine, frame⟩ := pan_ends hm hd (K.counts z).pan s.brine s.free .ok bs runs hr
  rw [show ({ withCounts w z s.free with free := s.free, brine := s.brine } : State) = withCounts w z s.free by
    rw [← K.brine_eq]] at finished mem stk brine frame
  exact ⟨finished, mem, stk.trans K.stk_eq, brine, frame⟩

/-! ### COPY (R201) -/

/-- One row moved: `n` bytes from the first NPA of a pair to the second. -/
def moveRow (n : Nat) (u : State) (p : Nat × Nat) : State := wrN u p.2 (rdN u p.1 n)

/-- A row moved changes the bytes of the target's row. -/
theorem moveRow_frame {u : State} (c : ∀ n, (u.stack n).ckPending = []) (n : Nat) (p : Nat × Nat) :
    OnlyMem u (moveRow n u p) ∧ ∀ a, Safety.Outside u [⟨p.2, n⟩] a → rd (moveRow n u p) a = rd u a :=
  ⟨onlyMem_wrN c _ _ _, fun _ h => rd_wrN_of_ne c fun i hi => h _ (List.mem_singleton_self _) i (by simpa [rdN] using hi)⟩

theorem moveRow_counts {u : State} (c : ∀ n, (u.stack n).ckPending = []) (n : Nat) (p : Nat × Nat) (y : SMap Nat) (k : Nat) :
    moveRow n (withCounts u y k) p = withCounts (moveRow n u p) y k :=
  wrN_counts c y k _ _ none

/-- One more row of the model's COPY, unless a line has failed before. -/
def moveStep (n : Nat) (acc : State × List Byte × Option (Status × ErrCode × Nat)) (p : Nat × Nat) :
    State × List Byte × Option (Status × ErrCode × Nat) :=
  match acc.2.2 with
  | some _ => acc
  | none =>
    match touch acc.1 [⟨p.1, n⟩] with
    | (u, some e) => (u, acc.2.1, some e)
    | (u, none) => (wrN u p.2 (rdN u p.1 n), acc.2.1 ++ rdN u p.1 n, none)

/-- With no line in error one more row is moved; checking the source's lines only counts them. -/
theorem moveStep_clean {u : State} (cl : Safety.Clean u) (n : Nat) (p : Nat × Nat) (out : List Byte) (y : SMap Nat)
    (k : Nat) : ∃ z, moveStep n (withCounts u y k, out, none) p =
      (withCounts (moveRow n u p) z k, out ++ rdN u p.1 n, none) := by
  refine ⟨(countReads (withCounts u y k) [⟨p.1, n⟩]).decoded, ?_⟩
  rw [← moveRow_counts cl.copied]
  simp only [moveStep, touch_clean (s := withCounts u y k) cl.lines]
  rfl

/-- With no line in error the rows are moved one after the other. -/
theorem moveSteps_clean (n : Nat) (l : List (Nat × Nat)) {u : State} (cl : Safety.Clean u) (out : List Byte) (y : SMap Nat)
    (k : Nat) : ∃ z bs, l.foldl (moveStep n) (withCounts u y k, out, none) =
      (withCounts (l.foldl (moveRow n) u) z k, bs, none) := by
  induction l generalizing u out y with
  | nil => exact ⟨y, out, rfl⟩
  | cons p l ih =>
    obtain ⟨z1, moved⟩ := moveStep_clean cl n p out y k
    have clean : Safety.Clean (moveRow n u p) :=
      ⟨wrN_clean cl.lines cl.copied _ _, (moveRow_frame cl.copied n p).1.copied cl.copied⟩
    obtain ⟨z, bs, rest⟩ := ih clean (out ++ rdN u p.1 n) z1
    exact ⟨z, bs, by rw [List.foldl_cons, List.foldl_cons, moved, rest]⟩

/-- The rows that a COPY moves: from the source's row to the target's, in order; none where the target is empty (R8). -/
def copyPairs (d x : Desc) : List (Nat × Nat) :=
  if d.empty then [] else (List.range d.rows).map fun r => (x.rowNpa r, d.rowNpa r)

/-- The rows moved are written to the target's runs. -/
theorem copyPairs_targets (d x : Desc) : (copyPairs d x).map (fun p => (⟨p.2, d.rowBytes⟩ : Run)) = d.runs := by
  unfold copyPairs Desc.runs
  split
  · rfl
  · rw [List.map_map]
    rfl

/-- The rows of a COPY moved, said over the rows' numbers. -/
theorem foldl_copyPairs (d x : Desc) (s : State) : (copyPairs d x).foldl (moveRow d.rowBytes) s =
    if d.empty then s else (List.range d.rows).foldl (fun u r => wrN u (d.rowNpa r) (rdN u (x.rowNpa r) d.rowBytes)) s := by
  unfold copyPairs
  split
  · rfl
  · exact List.foldl_map

theorem copyRun_eq_foldl (s : State) (b : Blk) (f : InFl) : copyRun s b f =
    let w := (copyPairs (opnd! s f 1) (opnd! s f 2)).foldl (moveStep (opnd! s f 1).rowBytes) (s, [], none)
    panEnd w.1 b f w.2.1 w.2.2 := rfl

/-- With no line in error COPY is its rows' moves and its finish. -/
theorem copyRun_clean {s : State} (cl : Safety.Clean s) (b : Blk) (f : InFl) :
    let d := opnd! s f 1
    ∃ z bs, copyRun s b f = finishOut (withCounts ((copyPairs d (opnd! s f 2)).foldl (moveRow d.rowBytes) s) z s.free)
      b .OQ f.idx .ok bs := by
  intro d
  obtain ⟨z, bs, moved⟩ := moveSteps_clean d.rowBytes (copyPairs d (opnd! s f 2)) cl [] s.decoded s.free
  refine ⟨z, bs, ?_⟩
  rw [copyRun_eq_foldl, moved]
  rfl

/-- What COPY leaves: the target's rows with the bytes of the source's (R201). -/
theorem copyRun_ends {s : State} (cl : Safety.Clean s) {b : Blk} {f : InFl} (hm : f ∈ (s.q b .OQ).inflight)
    (hd : f.done = none) :
    let d := opnd! s f 1
    let t := copyRun s b f
    Safety.Finished b .OQ f .ok t ∧ t.mem = ((copyPairs d (opnd! s f 2)).foldl (moveRow d.rowBytes) s).mem ∧
      t.stk = s.stk ∧ t.brine = s.brine ∧ Safety.PanOnly b .OQ d.runs s t := by
  intro d t
  obtain ⟨z, bs, run⟩ := copyRun_clean cl b f
  have only := foldl_onlyMem (moveRow d.rowBytes) (fun u p c => (moveRow_frame c d.rowBytes p).1)
    (copyPairs d (opnd! s f 2)) cl.copied
  have outside := (steps_frame cl.copied (copyPairs d (opnd! s f 2)) (moveRow d.rowBytes) (fun p => ⟨p.2, d.rowBytes⟩)
    fun u p _ c => ⟨(moveRow_frame c d.rowBytes p).1.pan, (moveRow_frame c d.rowBytes p).2⟩).2
  rw [copyPairs_targets] at outside
  have ends := pan_ends_of_onlyMem hm hd only z bs d.runs outside
  rwa [← run] at ends

/-! ### DIGEST (R202) -/

/-- What DIGEST leaves: SHAKE256 of the source's bytes in its target (R202). -/
theorem digestRun_ends {s : State} (cl : Safety.Clean s) {b : Blk} {f : InFl} (hm : f ∈ (s.q b .OQ).inflight)
    (hd : f.done = none) :
    let d := opnd! s f 1
    let bs := shake256 ((opnd! s f 2).runs.flatMap fun r => rdN s r.npa r.len)
    let t := digestRun s b f
    Safety.Finished b .OQ f .ok t ∧ t.mem = (wrT s d fun e => (bs[e]?).map BitVec.toNat).1.mem ∧ t.stk = s.stk ∧
      t.brine = s.brine ∧ Safety.PanOnly b .OQ d.runs s t := by
  intro d bs t
  let s1 := countReads s (opnd! s f 2).runs
  let el := fun e : Nat => (bs[e]?).map BitVec.toNat
  obtain ⟨only, outside⟩ := wrT_frame cl.copied d el
  have written : wrT s1 d el = (withCounts (wrT s d el).1 s1.decoded s.free, (wrT s d el).2) :=
    wrT_counts cl.copied s1.decoded s.free d el
  have run : digestRun s b f = finishOut (withCounts (wrT s d el).1 s1.decoded s.free) b .OQ f.idx .ok (wrT s d el).2 := by
    unfold digestRun
    dsimp only
    rw [withTouch_clean cl.lines]
    show panEnd (wrT s1 d el).1 b f (wrT s1 d el).2 none = _
    rw [written]
    rfl
  have ends := pan_ends_of_onlyMem hm hd only s1.decoded (wrT s d el).2 d.runs outside
  rwa [← run] at ends

/-- Settles O24: each row runs on its command, and the lemmas above say what that leaves. -/
theorem copyAndDigestComplete : Obligations.CopyAndDigestComplete := by
  unfold Obligations.CopyAndDigestComplete
  intro s b f cl h hd ho d x
  have hm := nextStart_mem h
  refine ⟨fun hop => ⟨copyRun s b f, congrArg Host.Outcome.next (panEngine_run h ho hop _), ?copied⟩,
    fun hop => ⟨digestRun s b f, congrArg Host.Outcome.next (panEngine_run h ho hop _), digestRun_ends cl hm hd⟩⟩
  case copied =>
    rw [← foldl_copyPairs d x s]
    exact copyRun_ends cl hm hd

end Sys2Proof.Laws
end

-- ==== CxlRows ====
section
/-!
O45: CXL.mem, host violations, configuration reads, the resets of PD15, link training and snoops (11 R297, R298; 13 R322 to
R325; 14 R353, R356; 16 R399).
-/
namespace Sys2Proof.Laws

open Sys2Proof.Machine

/-! ### The record of a host violation (R288, R298) -/

/-- With no coalescing window open, the newest record of the log is that of a C event just recorded, its detail cut to 32
bytes. -/
theorem lastRec_record {s : State} {c : ErrCode} (hc : c.info.2.2 = .C) (h : s.err.coal = []) (a : EvArgs) :
    ∃ r, lastRec (record s c a) = some r ∧ r.code = c ∧ r.detail = slice a.detail 0 32 := by
  have e : ∃ x, record s c a = { pushRec (countedC s) (mkRec s c .C a) with
      err := { (pushRec (countedC s) (mkRec s c .C a)).err with coal := x } } := by
    unfold record recordSev
    rw [hc, h]
    exact ⟨_, rfl⟩
  obtain ⟨x, e⟩ := e
  rw [e]
  exact ⟨_, congrArg (Option.map Prod.fst) List.getLast?_concat, rfl, rfl⟩

/-- The entry of the AER log that a violation makes: the status bit, that of a cache mismatch in the second word; 0xFF makes
none (log 21). -/
def aerEntry (kind aer : Nat) : List Nat := if aer = 0xFF then [] else if kind = 6 then [64 + aer] else [aer]

/-- A violation is recorded with its kind and AER status (R298). -/
theorem protocol_ends {s : State} (h : s.err.coal = []) (kind aer : Nat) (hdr : List Byte) :
    let t := protocol s kind aer hdr
    (∃ r, lastRec t = some r ∧ r.code = .cxlProtocol ∧ r.detail = slice (detailE hdr aer kind) 0 32) ∧
      t.host = { s.host with aer := s.host.aer ++ aerEntry kind aer } ∧
      t = { s with host := t.host, err := t.err, hold := t.hold, free := t.free } := by
  intro t
  let s1 : State := { s with host := { s.host with aer := s.host.aer ++ aerEntry kind aer } }
  have e : t = record s1 .cxlProtocol { unitKind := 8, unit := 0, detail := detailE hdr aer kind } := by
    refine congrArg (fun u => record u _ _) ?_
    by_cases ha : aer = 0xFF
    · simp [s1, aerEntry, ha]
    · by_cases hk : kind = 6 <;> simp [s1, aerEntry, ha, hk]
  rw [e]
  refine ⟨lastRec_record (s := s1) rfl h _, record_host .., ?_⟩
  rw [record_frame]

/-- A violation that leaves no AER entry changes what its record changes (R288). -/
theorem protocol_unlogged {s : State} (h : s.err.coal = []) (kind : Nat) (hdr : List Byte) :
    let t := protocol s kind 0xFF hdr
    Safety.recorded t .cxlProtocol ∧ t = { s with err := t.err, hold := t.hold, free := t.free } := by
  intro t
  obtain ⟨⟨r, hr, hcode, -⟩, host, frame⟩ := protocol_ends h kind 0xFF hdr
  refine ⟨⟨r, hr, hcode⟩, frame.trans ?_⟩
  rw [show t.host = s.host from host.trans (by simp [aerEntry])]

/-! ### CXL.mem (R297, R323) -/

theorem hdmOffset_within {s : State} {a : Nat} (h1 : s.host.hdmBase ≤ a) (h2 : a < s.host.hdmBase + s.host.hdmSize) :
    hdmOffset s a = some (a - s.host.hdmBase) := if_pos ⟨h1, h2⟩

theorem hdmOffset_outside {s : State} {a : Nat} (h : a < s.host.hdmBase ∨ s.host.hdmBase + s.host.hdmSize ≤ a) :
    hdmOffset s a = none := if_neg (by omega)

theorem hdmNpa_ready {s : State} {o st x : Nat} (hp : place s (0x100_0000_0000 + o) = .mem st x)
    (hr : (s.stack st).state = .ready) : hdmNpa s o = some (0x100_0000_0000 + o) := by
  simp [hdmNpa, hp, hr]

/-- The read of a clean line is answered with its bytes (R297). -/
theorem cxlRead_clean {s : State} (hl : s.lineFault = []) {a o : Nat} (ho : hdmOffset s a = some o) {npa : Nat}
    (hn : hdmNpa s (o - o % 64) = some npa) :
    cxlRead s a = hostAnswer (countReads s [⟨npa, 64⟩]) (rdN s npa 64) false := by
  unfold cxlRead
  rw [ho]
  dsimp only
  rw [hn]
  dsimp only
  rw [touch_clean hl]
  rfl

/-- The write of bytes within a line, with no line in error, puts them (R297). -/
theorem cxlWrite_clean {s : State} (hl : s.lineFault = []) {a o : Nat} {data : List Byte} (h0 : 0 < data.length)
    (h64 : a % 64 + data.length ≤ 64) (ho : hdmOffset s a = some o) {npa : Nat} (hn : hdmNpa s o = some npa) :
    cxlWrite s a data false = wrN (countReads s (partialRuns [⟨npa, data.length⟩])) npa data := by
  unfold cxlWrite
  rw [if_neg (by omega), if_neg Bool.false_ne_true, ho]
  dsimp only
  rw [hn]
  dsimp only
  rw [touch_clean hl]

theorem cxlWrite_poisoned {s : State} {a : Nat} {data : List Byte} (h0 : 0 < data.length)
    (h64 : a % 64 + data.length ≤ 64) : cxlWrite s a data true = protocol s 7 0xFF [] := by
  unfold cxlWrite
  rw [if_neg (by omega), if_pos rfl]

/-! ### Host violations (R298) -/

/-- The kind and the AER status bit of a violation, Table 11.7. -/
def violationKind : CxlKind → Nat × Nat
  | .malformedTlp => (1, 18)
  | .badFunctionOrBar _ => (2, 20)
  | .badHrwAccess _ => (3, 20)
  | .poisonedTlp => (4, 12)
  | .unexpectedCompletion => (5, 16)
  | .cacheMismatch => (6, 14)
  | .memWritePoison => (7, 0xFF)
  | .memOutside _ => (8, 0xFF)
  | .mbxOpcode => (9, 0xFF)
  | .mbxPayload => (10, 0xFF)

/-- The answer that a violation is given, before its record. -/
def violationAnswered (s : State) : CxlKind → State
  | .badFunctionOrBar r | .badHrwAccess r => unsupported s r
  | .memOutside r => if r then hostAnswer s (List.replicate 64 0) true else s
  | .mbxOpcode => answer s .unsupported .ok 0 []
  | .mbxPayload => answer s .invalidInput .ok 0 []
  | _ => s

/-- A violation is its answer and its record. -/
theorem violation_eq_protocol (s : State) (k : CxlKind) (hdr : List Byte) :
    violation s k hdr = protocol (violationAnswered s k) (violationKind k).1 (violationKind k).2 hdr := by
  cases k <;> rfl

/-- The answer changes the host interface alone, and not its AER log. -/
theorem violationAnswered_frame (s : State) (k : CxlKind) :
    violationAnswered s k = { s with host := (violationAnswered s k).host } ∧
      (violationAnswered s k).host.aer = s.host.aer := by
  cases k with
  | badFunctionOrBar r | badHrwAccess r | memOutside r => cases r <;> exact ⟨rfl, rfl⟩
  | _ => exact ⟨rfl, rfl⟩

/-- What a violation leaves: its record, its AER entry and its answer. -/
theorem violation_ends {s : State} (h : s.err.coal = []) (k : CxlKind) (hdr : List Byte) :
    let t := violation s k hdr
    (∃ r, lastRec t = some r ∧ r.code = .cxlProtocol ∧
        r.detail = slice (detailE hdr (violationKind k).2 (violationKind k).1) 0 32) ∧
      t.host = { (violationAnswered s k).host with aer := s.host.aer ++ aerEntry (violationKind k).1 (violationKind k).2 } ∧
      t = { s with host := t.host, err := t.err, hold := t.hold, free := t.free } := by
  intro t
  obtain ⟨only, aer⟩ := violationAnswered_frame s k
  have coal : (violationAnswered s k).err.coal = [] := by
    rw [only]
    exact h
  obtain ⟨recorded, host, frame⟩ := protocol_ends coal (violationKind k).1 (violationKind k).2 hdr
  rw [aer] at host
  rw [← violation_eq_protocol] at recorded host frame
  exact ⟨recorded, host, frame.trans (by rw [only])⟩

/-! ### Configuration space (R325) -/

/-- The first four bytes: the vendor ID and the device ID of the grade. -/
theorem configBytes_ids (s : State) : (List.range 4).map (fun i => configByte s (0 + i)) =
    [0x6A, 0x1F, if s.fuses.grade = .A then 0x50 else 0x51, 0x3A] := by
  cases hg : s.fuses.grade <;> simp [List.range_succ, configByte, hg]

/-! ### Resets of PD15 (R324, R399) -/

/-- Where no job runs, orphan mode begins without a hold: what it leaves of the host interface. -/
theorem enterOrphan_host {s : State} (h : s.job.phase ≠ .running) : (enterOrphan s).host = { (raise s 4).host with
    leaseHeld := false, orphan := true, fallback := assisted s &&& s.ncr.fallback, returning := 0
    fellBack := assisted s &&& s.ncr.fallback, orphanHall := s.tim.hall, orphanHeld := false, orphanFirst := s.err.seq
    ibi := s.host.ibi ++ [1] } := by
  unfold enterOrphan
  simp only [beq_eq_false_iff_ne.2 h, Bool.and_false, Bool.false_eq_true, if_false, ibi, record_host]
  rfl

/-- Nor does it then change anything but the host interface, the log and the hold. -/
theorem enterOrphan_frame {s : State} (h : s.job.phase ≠ .running) : enterOrphan s = { s with
    host := (enterOrphan s).host, err := (enterOrphan s).err, hold := (enterOrphan s).hold
    free := (enterOrphan s).free } := by
  unfold enterOrphan
  simp only [beq_eq_false_iff_ne.2 h, Bool.and_false, Bool.false_eq_true, if_false]
  rw [record_frame]
  rfl

/-- The node after PD15's registers are at their reset values, before orphan mode (R324). -/
def pd15Cleared (s : State) : State := { s with
  host := { s.host with
    emOverflow := false, cause := 0, mask := 0xFF, msixPend := 0, emQueue := [], trace := [], cring := {}, ering := {}
    lring := {}, holder := 0, leaseHeld := false, orphan := false, late := false, linkUp := false, hdmBase := 0
    hdmSize := 0, cache := [] }
  sec := { s.sec with ide := [] } }

theorem resetPd15_of_held {s : State} (h : s.host.leaseHeld = true) : resetPd15 s = enterOrphan (pd15Cleared s) :=
  if_pos h

theorem resetPd15_of_free {s : State} (h : s.host.leaseHeld = false) : resetPd15 s = { pd15Cleared s with
    host := { (pd15Cleared s).host with orphan := s.host.orphan } } := if_neg (Bool.eq_false_iff.1 h)

/-- What a reset of PD15 leaves, where it ends no lease of a running job. -/
theorem resetPd15_ends (s : State) (hj : s.job.phase ≠ .running ∨ s.host.leaseHeld = false) :
    let t := resetPd15 s
    t.host.cause = (if s.host.leaseHeld then 16 else 0) ∧ t.host.mask = 0xFF ∧ t.host.emQueue = [] ∧
      t.host.trace = [] ∧ t.host.cring = {} ∧ t.host.ering = {} ∧ t.host.lring = {} ∧ t.host.linkUp = false ∧
      t.host.leaseHeld = false ∧ t.host.holder = 0 ∧ (s.host.leaseHeld = true → t.host.orphan = true) ∧
      t.host.cbuf = s.host.cbuf ∧ t.sec.ide = [] ∧ t.pwr = s.pwr ∧
      (s.host.leaseHeld = false → t = { s with host := t.host, sec := t.sec, pwr := t.pwr }) ∧
      t.job = s.job ∧ t.mem = s.mem ∧ t.blocks = s.blocks := by
  cases hl : s.host.leaseHeld with
  | false =>
    rw [resetPd15_of_free hl]
    exact ⟨rfl, rfl, rfl, rfl, rfl, rfl, rfl, rfl, rfl, rfl, fun h => absurd h Bool.false_ne_true, rfl, rfl, rfl,
      fun _ => rfl, rfl, rfl, rfl⟩
  | true =>
    have hp : (pd15Cleared s).job.phase ≠ .running := hj.resolve_right (by simp [hl])
    have sec : (enterOrphan (pd15Cleared s)).sec = (pd15Cleared s).sec := by rw [enterOrphan_frame hp]
    have cause : (raise (pd15Cleared s) 4).host.cause = 16 := by
      show (0 : BitVec 8) ||| BitVec.ofNat 8 (2 ^ 4) = 16
      decide
    rw [resetPd15_of_held hl]
    dsimp only
    rw [enterOrphan_host hp, sec]
    refine ⟨cause, rfl, rfl, rfl, rfl, rfl, rfl, rfl, rfl, rfl, fun _ => rfl, rfl, rfl, ?_,
      fun h => absurd h.symm Bool.false_ne_true, ?_, ?_, ?_⟩ <;> rw [enterOrphan_frame hp] <;> rfl

/-! ### The rows -/

section
variable {s : State} (hl : s.host.linkUp = true)
include hl

theorem exec_cxlMemRead (a : W64) : exec (.cxlMemRead a) s = .next (cxlRead s a.toNat) :=
  congrArg Host.Outcome.next (overLink_up hl _)

theorem exec_cxlMemWrite (a : W64) (data : Bytes) (poison : Bool) :
    exec (.cxlMemWrite a data poison) s = .next (cxlWrite s a.toNat data poison) :=
  congrArg Host.Outcome.next (overLink_up hl _)

theorem exec_cxlReset : exec .cxlReset s = .next (wholeReset s false) :=
  congrArg Host.Outcome.next (overLink_up hl _)

theorem exec_configRead_ids (hn : s.host.node ≠ .start) : exec (.configRead 0) s = .next (hostAnswer s
    [0x6A, 0x1F, if s.fuses.grade = .A then 0x50 else 0x51, 0x3A] false) := by
  have h : ¬(s.host.node = .start ∨ s.host.linkUp = false) := not_or.2 ⟨hn, by simp [hl]⟩
  rw [← configBytes_ids]
  exact congrArg Host.Outcome.next (if_neg h)

/-- A read outside the HDM range is answered with zeros and poison, and recorded (R297, R323). -/
theorem exec_cxlMemRead_outside {a : W64}
    (ha : a.toNat < s.host.hdmBase ∨ s.host.hdmBase + s.host.hdmSize ≤ a.toNat) (hc : s.err.coal = []) :
    ∃ t, exec (.cxlMemRead a) s = .next t ∧ t.host.answer = List.replicate 64 0 ∧ t.host.poison = true ∧
      Safety.recorded t .cxlProtocol ∧ t = { s with
        host := { s.host with answer := t.host.answer, poison := true, ur := 0 }, err := t.err, hold := t.hold
        free := t.free } := by
  let u := hostAnswer s (List.replicate 64 0) true
  obtain ⟨recorded, frame⟩ := protocol_unlogged (s := u) hc 8 []
  have host : (protocol u 8 0xFF []).host = u.host := by rw [frame]
  refine ⟨protocol u 8 0xFF [], ?_, ?_, ?_, recorded, ?_⟩
  · rw [exec_cxlMemRead hl, cxlRead, hdmOffset_outside ha]
  · rw [host]
    rfl
  · rw [host]
    rfl
  · rw [host]
    exact frame

/-- A write within a clean line changes its bytes in node memory (R297). -/
theorem exec_cxlMemWrite_clean (cl : Safety.Clean s) {a : W64} {data : Bytes} (h0 : 0 < data.length)
    (h64 : a.toNat % 64 + data.length ≤ 64) {o npa : Nat} (ho : hdmOffset s a.toNat = some o)
    (hn : hdmNpa s o = some npa) :
    ∃ t, exec (.cxlMemWrite a data false) s = .next t ∧ t.mem = (wrN s npa data).mem ∧
      (∀ n, Safety.Outside s [⟨npa, data.length⟩] n → rd t n = rd s n) ∧
      (∀ h, t.hart h = { s.hart h with resv := (t.hart h).resv }) ∧
      t = { s with mem := t.mem, host := t.host, harts := t.harts, lineFault := t.lineFault, decoded := t.decoded } := by
  let u := countReads s (partialRuns [⟨npa, data.length⟩])
  refine ⟨wrN u npa data, ?_, ?_, fun n out => ?_, fun h => hart_wrN (s := u) cl.copied npa data none h, ?_⟩
  · rw [exec_cxlMemWrite hl, cxlWrite_clean cl.lines h0 h64 ho hn]
  · rw [show wrN u npa data = withCounts (wrN s npa data) u.decoded s.free from wrN_counts cl.copied ..]
  · exact rd_wrN_of_ne (s := u) cl.copied (out _ (List.mem_singleton_self _))
  · exact (onlyMem_countReads s _).trans (onlyMem_wrN (s := u) cl.copied npa data none)

end

/-- The link trains with its HDM decoder over the whole window of node memory, at a base on a boundary of 256 MiB (R323; log 21). -/
theorem exec_hostLinkUp {s : State} (hn : s.host.node ≠ .start) (hl : s.host.linkUp = false) (hp : s.pwr.perstN = true) :
    exec .hostLinkUp s = .next (linkUp s) :=
  congrArg Host.Outcome.next (if_neg (by simp [hn, hl, hp]))

/-- Settles O45: each row by the branch its premises choose. -/
theorem cxlRowsComplete : Obligations.CxlRowsComplete := by
  unfold Obligations.CxlRowsComplete
  intro s
  refine ⟨fun hl => ⟨fun a h1 h2 hf st x hp hr => ?read, fun a ha hc => exec_cxlMemRead_outside hl ha hc,
    fun a data h1 h2 h0 h64 => ⟨fun st x hp hr cl => ?write, fun hc => ?poisoned⟩, fun k header hc => ?violation,
    fun hn => exec_configRead_ids hl hn, ⟨_, exec_cxlReset hl, rfl, rfl, rfl, rfl, rfl, rfl, rfl, rfl, rfl⟩,
    fun l => ⟨congrArg Host.Outcome.next (overLink_up hl _), congrArg Host.Outcome.next (overLink_up hl _)⟩⟩,
    fun o hn => congrArg Host.Outcome.next (if_pos (.inl hn)), fun hn => ⟨fun hj => ?down, fun hl hp => ?train⟩, rfl⟩
  case read =>
    rw [exec_cxlMemRead hl, cxlRead_clean hf (hdmOffset_within h1 h2) (hdmNpa_ready hp hr)]
    rfl
  case write => exact exec_cxlMemWrite_clean hl cl h0 h64 (hdmOffset_within h1 h2) (hdmNpa_ready hp hr)
  case poisoned =>
    exact ⟨_, (exec_cxlMemWrite hl a data true).trans (congrArg _ (cxlWrite_poisoned h0 h64)), protocol_unlogged hc 7 []⟩
  case violation =>
    obtain ⟨recorded, host, frame⟩ := violation_ends hc k header
    intro kind
    have hkind : kind = violationKind k := by cases k <;> rfl
    rw [hkind]
    refine ⟨_, exec_cxlProtocol hl k header, recorded, ?_, ?_, ?_, ?_, ?_, frame⟩ <;> rw [host]
    · rfl
    · rintro (rfl | rfl) <;> exact ⟨rfl, rfl⟩
    · rintro rfl
      exact ⟨rfl, rfl⟩
    · rintro rfl
      rfl
    · rintro rfl
      rfl
  case down =>
    refine ⟨⟨_, congrArg Host.Outcome.next (if_neg hn), resetPd15_ends s hj⟩, ⟨_, congrArg Host.Outcome.next
      (if_pos (by simp [hn])), resetPd15_ends { s with pwr := { s.pwr with perstN := false } } hj⟩⟩
  case train => exact ⟨_, exec_hostLinkUp hn hl hp, rfl, rfl, Nat.mul_mod_left _ _, rfl⟩

end Sys2Proof.Laws
end

-- ==== HostBuffers ====
section
/-!
O50: mailbox commands with a host buffer (12 R308, R313; 13 R332, R333; 15 R386; log 38) and the memory tests of 07 Table 07.6
(R209, R210; logs 19, 23).
-/
namespace Sys2Proof.Laws

open Sys2Proof.Machine

/-! ### Host memory written -/

/-- Bytes written to host memory change host memory alone. -/
theorem wrHostN_frame (l : List Byte) (s : State) (a : Nat) :
    wrHostN s a l = { s with host := { s.host with mem := (wrHostN s a l).host.mem } } := by
  induction l generalizing s a with
  | nil => rfl
  | cons b l ih =>
    rw [wrHostN, ih]
    rfl

/-- What they leave there depends on what was there alone. -/
theorem wrHostN_host_mem_congr {s u : State} (h : s.host.mem = u.host.mem) (a : Nat) (l : List Byte) :
    (wrHostN s a l).host.mem = (wrHostN u a l).host.mem := by
  induction l generalizing s u a with
  | nil => exact h
  | cons b l ih => exact ih (s := wrHost s a b) (u := wrHost u a b) (by simp [wrHost, h]) _

/-! ### Commands with a host buffer (R333) -/

/-- A mailbox command whose host buffer is accepted is carried out. -/
theorem mbx_withBuf {s : State} (h : Safety.Mailbox s) (a r : Bool) {buf : HostBuf} (hb : hostBufOk buf = true)
    (run : State → State) : mbx s a r (fun s => withBuf s buf run) = run s :=
  (mbx_taken h ..).trans (if_pos hb)

section
variable {s : State} (h : Safety.Mailbox s) {buf : HostBuf} (hb : hostBufOk buf = true)
include h hb

/-- VERIFY_REPORT after a load (04 R120). -/
theorem exec_verifyReport (hr : s.job.reportDigest ≠ []) : exec (.verifyReport buf) s =
    .next (done (wrHostN s buf.addr.toNat ((reportOf s).take buf.len.toNat)) .ok
      (leBytes 4 (min buf.len.toNat (reportOf s).length))) := by
  rw [← List.length_take]
  exact congrArg Host.Outcome.next ((mbx_withBuf h _ _ hb _).trans (if_neg (by simp [hr])))

theorem exec_healthReport : exec (.healthReport buf) s =
    .next (done (wrHostN s buf.addr.toNat ((leBytes 8 (pwrStatus s) ++ leBytes 8 (hltEol s) ++ leBytes 8 (hltAvail s) ++
      s.pwr.daily.flatMap Daily.bytes).take buf.len.toNat)) .ok []) :=
  congrArg Host.Outcome.next (mbx_withBuf h _ _ hb _)

/-- HEALTH_LOAD before any record is made since reset (R386). -/
theorem exec_healthLoad (hd : s.pwr.daily = []) : exec (.healthLoad buf) s =
    .next (done { s with pwr := { s.pwr with
      loaded := (List.range (min 90 (buf.len.toNat / 64))).map fun i =>
        dailyOf (rdHostN s (buf.addr.toNat + 64 * i) 64) } } .ok (leBytes 1 (min 90 (buf.len.toNat / 64)))) :=
  congrArg Host.Outcome.next ((mbx_withBuf h _ _ hb _).trans (if_neg (by simp [hd])))

end

/-! ### Drains and loads (R308, R313) -/

/-- A drain or a load uses the quarter of its parity. -/
theorem useQuarter_eq (s : State) (g : Bool) : useQuarter s g =
    { s with ckpt := { s.ckpt with busy0 := s.ckpt.busy0 || !g, busy1 := s.ckpt.busy1 || g } } := by
  cases g <;> simp [useQuarter]

/-- With no line in error a drain copies its bytes to the host. -/
theorem drainQuarter_clean {s : State} (hl : s.lineFault = []) (base n host : Nat) : drainQuarter s base n host =
    (wrHostN (countReads s [⟨base, n⟩]) host (rdN s base n), .ok, n) := by
  unfold drainQuarter
  rw [touch_clean hl]
  rfl

/-- With no line in error a load writes the host's bytes. -/
theorem loadQuarter_clean {s : State} (hl : s.lineFault = []) (base : Nat) (bs : List Byte) : loadQuarter s base bs =
    (wrN (countReads s (partialRuns [⟨base, bs.length⟩])) base bs, .ok) := by
  unfold loadQuarter
  rw [touch_clean hl]

section
variable {s : State} (h : Safety.Mailbox s) {buf : HostBuf} (hb : hostBufOk buf = true) {k : BitVec 4} (hk : k.toNat < 12)
  (hl : s.lineFault = [])
include h hb hk hl

theorem exec_ckptDrain (held g : Bool) (hq : held = true ∨ quarterWritten s g = false) :
    let n := min buf.len.toNat (quarterBytes s)
    let base := quarterNpa s k.toNat (2 * bn held + bn g) 0
    let v := wrHostN (countReads s [⟨base, n⟩]) buf.addr.toNat (rdN s base n)
    exec (.ckptDrain held g k buf) s =
      .next (background (if held then v else useQuarter v g) 0xC050 .ok (leBytes 8 n)) := by
  have use : ¬(!held && quarterWritten s g) = true := by rcases hq with e | e <;> simp [e]
  refine congrArg Host.Outcome.next ((mbx_taken h ..).trans ((if_neg (Nat.not_le.2 hk)).trans ((if_pos hb).trans
    ((if_neg use).trans ?_))))
  dsimp only
  rw [drainQuarter_clean hl]

theorem exec_ckptLoad (g : Bool) (hj : s.job.phase ≠ .running ∨ s.hold.state = .held) :
    let base := quarterNpa s k.toNat (bn g) 0
    let bs := rdHostN s buf.addr.toNat (min buf.len.toNat (quarterBytes s))
    exec (.ckptLoad g k buf) s = .next (background
      (useQuarter (wrN (countReads s (partialRuns [⟨base, bs.length⟩])) base bs) g) 0xC051 .ok []) := by
  have allowed : ¬(s.job.phase = .running ∧ s.hold.state ≠ .held) := fun ⟨e1, e2⟩ => hj.elim (· e1) e2
  refine congrArg Host.Outcome.next ((mbx_taken h ..).trans ((if_neg (Nat.not_le.2 hk)).trans ((if_pos hb).trans
    ((if_neg allowed).trans ?_))))
  dsimp only
  rw [loadQuarter_clean hl]

end

/-! ### The memory tests (Table 07.6) -/

/-- A test's output is its bytes cut to the buffer's length, and how many they are. -/
theorem toBuffer_up {s : State} (hl : s.host.linkUp = true) (buf : HostBuf) (bs : List Byte) : toBuffer s buf bs =
    (wrHostN s buf.addr.toNat (bs.take buf.len.toNat), .ok, leBytes 4 (min buf.len.toNat bs.length)) := by
  rw [← List.length_take]
  exact if_pos hl

/-- Every line of a channel zeroed: the bytes and line faults of the channel's lines are no more listed. -/
theorem zeroChannel_eq (s : State) (st ch : Nat) : zeroChannel s st ch = { s with
    mem := s.mem.filter fun e => !decide (e.1 / 2 ^ 36 = st ∧ chanOf (e.1 % 2 ^ 36) = ch)
    lineFault := s.lineFault.filter fun e =>
      !decide (e.1 * 64 / 2 ^ 36 = st ∧ chanOf (e.1 * 64 % 2 ^ 36) = ch) } := by
  have of (x : Nat) : (x >>> 36 == st && chanOf (x % 2 ^ 36) == ch) =
      decide (x / 2 ^ 36 = st ∧ chanOf (x % 2 ^ 36) = ch) := by
    rw [Nat.shiftRight_eq_div_pow, Bool.decide_and]
    rfl
  simp only [zeroChannel, of]

section
variable {s : State} (h : Safety.Mailbox s) {k : BitVec 4} (hk : k.toNat < 12)
include h hk

/-- A memory test that the mailbox takes runs in the background (log 19). -/
theorem memTest_taken (op : Nat) (run : State → State × Status × List Byte) {buf : HostBuf}
    (hb : hostBufOk buf = true) :
    memTest s op k run buf = background (run s).1 op (run s).2.1 (run s).2.2 := by
  have link : ¬(!s.host.linkUp && jtagRepair s) = true := by simp [h.link]
  have accepted : ¬(12 ≤ k.toNat ∨ hostBufOk buf = false) := by
    rintro (e | e)
    · omega
    · simp [hb] at e
  exact (if_neg link).trans ((mbx_taken h ..).trans (if_neg accepted))

/-- A test that reads writes its bytes to its host buffer. -/
theorem memTest_toBuffer (op : Nat) (out : State → List Byte) {buf : HostBuf} (hb : hostBufOk buf = true) :
    memTest s op k (fun s => toBuffer s buf (out s)) buf =
      background (wrHostN s buf.addr.toNat ((out s).take buf.len.toNat)) op .ok
        (leBytes 4 (min buf.len.toNat (out s).length)) := by
  rw [memTest_taken h hk op _ hb, toBuffer_up h.link]

/-- MARGIN_TEST and PATTERN_TEST, with no image loaded: the channel is zeroed and what was measured written. -/
theorem channelTest_run (op : Nat) (ch : BitVec 5) {buf : HostBuf} (hb : hostBufOk buf = true)
    (hi : s.job.image = none) : channelTest s op k ch buf =
      background (wrHostN (drew (zeroChannel s k.toNat ch.toNat)) buf.addr.toNat
        ((Config.testBytes op s.free).take buf.len.toNat)) op .ok
        (leBytes 4 (min buf.len.toNat (Config.testBytes op s.free).length)) := by
  have free : ¬s.job.image.isSome = true := by simp [hi]
  unfold channelTest
  rw [memTest_taken h hk op _ hb]
  simp only [if_neg free]
  rw [toBuffer_up (s := drew (zeroChannel s k.toNat ch.toNat)) h.link]

/-- What they leave: the channel's lines zeroed, the buffer written, a free value drawn, the result awaited. -/
theorem channelTest_leaves (op : Nat) (ch : BitVec 5) {buf : HostBuf} (hb : hostBufOk buf = true)
    (hi : s.job.image = none) :
    let t := channelTest s op k ch buf
    t.mem = (zeroChannel s k.toNat ch.toNat).mem ∧ t.lineFault = (zeroChannel s k.toNat ch.toNat).lineFault ∧
      t.host.mem = (wrHostN s buf.addr.toNat ((Config.testBytes op s.free).take buf.len.toNat)).host.mem ∧
      (t.host.bg.map fun g => (g.opcode, g.out.status)) = some (op, .ok) ∧
      t = { s with mem := t.mem, lineFault := t.lineFault, free := s.free + 1
                   host := { s.host with mem := t.host.mem, mbx := t.host.mbx, bg := t.host.bg } } := by
  intro t
  let z := drew (zeroChannel s k.toNat ch.toNat)
  let bs := (Config.testBytes op s.free).take buf.len.toNat
  have e : t = _ := channelTest_run h hk op ch hb hi
  rw [background_eq _ _ (by decide), wrHostN_frame] at e
  have mem : t.host.mem = (wrHostN s buf.addr.toNat bs).host.mem := by
    rw [e]
    exact wrHostN_host_mem_congr (s := z) (u := s) rfl buf.addr.toNat bs
  exact ⟨by rw [e]; rfl, by rw [e]; rfl, mem, by rw [e]; rfl, by rw [e]; rfl⟩

end

/-! ### Rows repaired (R209) -/

/-- A line with no fault decodes clean. -/
theorem decodeLine_good {s : State} (hl : s.lineFault = []) (line : Nat) : decodeLine s line true true = .good := by
  simp [decodeLine, hl, SMap.get, decodeSyms]

/-- With no line in error, reading lines counts them. -/
theorem readLines_clean (l : List Nat) {s : State} (hl : s.lineFault = []) :
    ∃ y, l.foldl (fun t l => (readLine t l).1) s = { s with decoded := y } := by
  induction l generalizing s with
  | nil => exact ⟨s.decoded, rfl⟩
  | cons a l ih =>
    rw [List.foldl_cons, readLine_good (decodeLine_good hl a)]
    exact ih (s := { s with decoded := bumpDecoded s.decoded a }) hl

/-- A clean line is carried over as it is. -/
theorem carryLine_clean {s : State} (hl : s.lineFault = []) (line : Nat) : carryLine s line = s := by
  have unlisted : SMap.set {} s.lineFault line { SMap.get {} s.lineFault line with syms := [] } = s.lineFault := by
    simp [hl, SMap.get, SMap.set, SMap.erase]
  unfold carryLine
  dsimp only
  rw [unlisted]

theorem carryLines_clean (l : List Nat) {s : State} (hl : s.lineFault = []) : l.foldl carryLine s = s := by
  induction l with
  | nil => rfl
  | cons a l ih => rw [List.foldl_cons, carryLine_clean hl, ih]

/-- Two repairs are of the same row. -/
def sameRow (r x : RowRepair) : Bool := x.channel == r.channel && x.bank == r.bank && x.row == r.row

/-- A stack with a row repaired: the repair in place of one of the same row, which needs no further spare. -/
def repairedStack (m : Stack) (r : RowRepair) : Stack := { m with
  repairs := (m.repairs.filter fun x => !sameRow r x) ++ [r]
  spareRows := if m.repairs.any (sameRow r) then m.spareRows else m.spareRows - 1
  hardRows := if r.hard then m.hardRows + 1 else m.hardRows }

/-- A list keeps its length through a filter only where nothing is taken out. -/
theorem length_filter_not_beq {α : Type} (p : α → Bool) (l : List α) :
    ((l.filter fun x => !p x).length == l.length) = !l.any p := by
  by_cases h : l.any p = true
  · obtain ⟨x, hx, hp⟩ := List.any_eq_true.1 h
    have : (l.filter fun x => !p x).length < l.length := by
      refine lt_of_le_of_ne (List.length_filter_le ..) fun e => ?_
      have := List.length_filter_eq_length_iff.1 e x hx
      simp [hp] at this
    simp [h, this.ne]
  · have keep : ∀ x ∈ l, (!p x) = true := fun x hx => by
      have := List.any_eq_false.1 (Bool.eq_false_iff.2 h) x hx
      simpa using this
    simp [Bool.eq_false_iff.2 h, List.filter_eq_self.2 keep]

/-- The second part of a repair: the row's repair is entered in its stack, and it is a candidate no longer. -/
def enterRepair (st : Nat) (r : RowRepair) (s : State) : State :=
  let k := s.stack st
  let others := k.repairs.filter fun x => !sameRow r x
  let t := s.setStack st { k with
    repairs := others ++ [r]
    spareRows := if others.length == k.repairs.length then k.spareRows - 1 else k.spareRows
    hardRows := if r.hard then k.hardRows + 1 else k.hardRows }
  { t with sec := { t.sec with candidates := t.sec.candidates.filter fun e =>
      !(e.1 == st && e.2.channel == r.channel && e.2.bank == r.bank && e.2.row == r.row) } }

theorem enterRepair_eq (st : Nat) (r : RowRepair) (s : State) : enterRepair st r s =
    { s.setStack st (repairedStack (s.stack st) r) with
      sec := { s.sec with candidates := s.sec.candidates.filter fun e => !(e.1 == st && sameRow r e.2) } } := by
  have spare (m : Stack) : (if (m.repairs.filter fun x => !sameRow r x).length == m.repairs.length then m.spareRows - 1
      else m.spareRows) = if m.repairs.any (sameRow r) then m.spareRows else m.spareRows - 1 := by
    rw [length_filter_not_beq]
    cases m.repairs.any (sameRow r) <;> rfl
  have candidate : (fun e : Nat × RowRepair => !(e.1 == st && e.2.channel == r.channel && e.2.bank == r.bank &&
      e.2.row == r.row)) = fun e => !(e.1 == st && sameRow r e.2) := by
    simp only [sameRow, Bool.and_assoc]
  simp only [enterRepair, spare, candidate]
  rfl

/-- With no line in error, a row repaired keeps its contents; reading its lines counts them (R209). -/
theorem repairRow_clean {s : State} (hl : s.lineFault = []) (st : Nat) (r : RowRepair) :
    ∃ y, repairRow s st r = enterRepair st r { s with decoded := y } := by
  let lines := rowLines st r.channel r.bank r.row
  obtain ⟨y, read⟩ := readLines_clean lines hl
  have good : ¬(lines.any fun l => decodeLine s l true true == .uncorr || decodeLine s l true true == .addrErr) = true := by
    simp [decodeLine_good hl]
  refine ⟨y, congrArg (enterRepair st r) ((if_neg good).trans ?_)⟩
  rw [read]
  exact carryLines_clean lines hl

/-! ### Lanes moved (R209) -/

/-- A channel with a marked lane moved to its first free spare lane. -/
def remappedChan (c : Chan) (lane : Nat) : Chan := { c with
  marks := c.marks.filter (· != lane)
  spare0 := if c.spare0 = none then some lane else c.spare0
  spare1 := if c.spare0 = none then c.spare1 else some lane }

/-- A marked lane moves where a spare lane is free (R209). -/
theorem remap_marked {s : State} {st ch lane : Nat} (hm : lane ∈ ((s.stack st).chan ch).marks)
    (hs : ((s.stack st).chan ch).spare0 = none ∨ ((s.stack st).chan ch).spare1 = none) :
    remap s st ch lane false = some (s.setStack st
      ((s.stack st).setChan ch (remappedChan ((s.stack st).chan ch) lane))) := by
  have free : ¬(!((s.stack st).chan ch).marks.contains lane ||
      ((s.stack st).chan ch).spare0.isSome && ((s.stack st).chan ch).spare1.isSome) = true := by
    rcases hs with e | e <;> simp [hm, e]
  refine (if_neg free).trans (congrArg some ?_)
  cases h0 : ((s.stack st).chan ch).spare0 <;> simp [h0, remappedChan, Stack.setChan]

/-! ### The rows of repairs (R210) -/

section
variable {s : State} (h : Safety.Mailbox s) {k : BitVec 4} (hk : k.toNat < 12)
include h hk

/-- REPAIR_ROW with a spare row, while no job runs. -/
theorem exec_repairRow (ch : BitVec 5) (bank : BitVec 6) (row : BitVec 15) (hard : Bool) (hj : s.job.phase ≠ .running) :
    let r : RowRepair := { channel := ch.toNat, bank := bank.toNat, row := row.toNat, hard := hard }
    let u := repairRow s k.toNat r
    rowFree s k.toNat r = true → exec (.repairRow k ch bank row hard) s = .next (background
      (if !hard && !hostAssisted s 6 then { u with sec := { u.sec with awaitBurn := u.sec.awaitBurn ++ [(k.toNat, r)] } }
       else u) 0xC064 .ok []) := by
  intro r u hf
  have free : ¬(s.job.phase = .running ∨ rowFree s k.toNat r = false) := not_or.2 ⟨hj, by simp [hf]⟩
  refine congrArg Host.Outcome.next ((memTest_taken h hk _ _ (by decide)).trans ?_)
  dsimp only
  rw [if_neg free]

/-- What a row's repair leaves (R209, R210). -/
theorem exec_repairRow_leaves (ch : BitVec 5) (bank : BitVec 6) (row : BitVec 15) (hard : Bool) (hl : s.lineFault = [])
    (hj : s.job.phase ≠ .running) :
    let r : RowRepair := { channel := ch.toNat, bank := bank.toNat, row := row.toNat, hard := hard }
    rowFree s k.toNat r = true → ∃ t, exec (.repairRow k ch bank row hard) s = .next t ∧
      t.host.bg = some { opcode := 0xC064, out := ⟨.success, .ok, 0, []⟩ } ∧
      (∀ n, n ≠ k.toNat → t.stack n = s.stack n) ∧ t.stack k.toNat = repairedStack (s.stack k.toNat) r ∧
      t.sec.candidates = (s.sec.candidates.filter fun e => !(e.1 == k.toNat && sameRow r e.2)) ∧
      t.sec.awaitBurn = s.sec.awaitBurn ++ (if hard = false ∧ hostAssisted s 6 = false then [(k.toNat, r)] else []) ∧
      t.mem = s.mem ∧ t.job = s.job ∧ t.err = s.err := by
  intro r hf
  obtain ⟨y, e⟩ := repairRow_clean hl k.toNat r
  rw [enterRepair_eq] at e
  refine ⟨_, exec_repairRow h hk ch bank row hard hj hf, ?_⟩
  rw [background_eq _ _ (by decide), e]
  have burn : (if hard = false ∧ hostAssisted s 6 = false then [(k.toNat, r)] else []) =
      if !hard && !hostAssisted s 6 then [(k.toNat, r)] else [] := by
    cases hard <;> cases hostAssisted s 6 <;> rfl
  rw [burn]
  cases !hard && !hostAssisted s 6 with
  | false => exact ⟨rfl, fun _ hn => stack_setStack_of_ne _ hn, stack_setStack .., rfl, (List.append_nil _).symm, rfl, rfl, rfl⟩
  | true => exact ⟨rfl, fun _ hn => stack_setStack_of_ne _ hn, stack_setStack .., rfl, rfl, rfl, rfl, rfl⟩

/-- MARK_LANE of a lane not marked, with a mark free: the lane is marked and recorded (R183). -/
theorem exec_markLane_leaves (ch : BitVec 5) (lane : BitVec 7) (h80 : lane.toNat < 80)
    (hm : lane.toNat ∉ ((s.stack k.toNat).chan ch.toNat).marks)
    (h4 : ((s.stack k.toNat).chan ch.toNat).marks.length < 4) (hc : s.err.coal = []) :
    let c := (s.stack k.toNat).chan ch.toNat
    ∃ t, exec (.markLane k ch lane) s = .next t ∧
      t.host.bg = some { opcode := 0xC063, out := ⟨.success, .ok, 0, []⟩ } ∧
      t.stk = (s.setStack k.toNat ((s.stack k.toNat).setChan ch.toNat { c with marks := c.marks ++ [lane.toNat] })).stk ∧
      Safety.recorded t .laneMark ∧
      t = { s with stk := t.stk, err := t.err, hold := t.hold, free := t.free, host := t.host } := by
  intro c
  let u := s.setStack k.toNat ((s.stack k.toNat).setChan ch.toNat { c with marks := c.marks ++ [lane.toNat] })
  let a : EvArgs := { unitKind := 4, unit := k.toNat
                      detail := leBytes 1 k.toNat ++ leBytes 1 ch.toNat ++ leBytes 1 0 ++ leBytes 1 lane.toNat }
  have marked : markLane s k.toNat ch.toNat lane.toNat = record u .laneMark a := (if_neg hm).trans (if_pos h4)
  have run : exec (.markLane k ch lane) s = .next (background (record u .laneMark a) 0xC063 .ok []) := by
    rw [← marked]
    exact congrArg Host.Outcome.next ((if_neg (Nat.not_le.2 h80)).trans (memTest_taken h hk _ _ (by decide)))
  refine ⟨_, run, ?_⟩
  rw [background_eq _ _ (by decide)]
  refine ⟨rfl, record_stk u .laneMark a, recorded_record (s := u) rfl hc a, ?_⟩
  rw [record_frame u]
  rfl

/-- What a lane's remap leaves (R209, R210). -/
theorem exec_remapLane_leaves (ch : BitVec 5) (lane : BitVec 7) (hj : s.job.phase ≠ .running)
    (hm : lane.toNat ∈ ((s.stack k.toNat).chan ch.toNat).marks)
    (hs : ((s.stack k.toNat).chan ch.toNat).spare0 = none ∨ ((s.stack k.toNat).chan ch.toNat).spare1 = none) :
    let m := s.stack k.toNat
    ∃ t, exec (.remapLane k ch lane) s = .next t ∧
      t.host.bg = some { opcode := 0xC065, out := ⟨.success, .ok, 0, []⟩ } ∧
      t.stk = (s.setStack k.toNat (m.setChan ch.toNat (remappedChan (m.chan ch.toNat) lane.toNat))).stk ∧
      t.sec.awaitLanes = s.sec.awaitLanes ++ (if hostAssisted s 6 then [] else [(k.toNat, ch.toNat, lane.toNat)]) ∧
      t.mem = s.mem ∧ t.job = s.job ∧ t.err = s.err := by
  intro m
  let u := s.setStack k.toNat (m.setChan ch.toNat (remappedChan (m.chan ch.toNat) lane.toNat))
  have run : exec (.remapLane k ch lane) s = .next (background (if hostAssisted s 6 then u else
      { u with sec := { u.sec with awaitLanes := u.sec.awaitLanes ++ [(k.toNat, ch.toNat, lane.toNat)] } })
      0xC065 .ok []) := by
    refine congrArg Host.Outcome.next ((memTest_taken h hk _ _ (by decide)).trans ?_)
    dsimp only
    rw [if_neg hj, remap_marked hm hs]
  refine ⟨_, run, ?_⟩
  rw [background_eq _ _ (by decide)]
  cases hostAssisted s 6 with
  | false => exact ⟨rfl, rfl, rfl, rfl, rfl, rfl⟩
  | true => exact ⟨rfl, rfl, (List.append_nil _).symm, rfl, rfl, rfl⟩

end

/-- A stack's channel set changes that channel of that stack. -/
theorem stacks_of_setChan {s t : State} {st ch : Nat} {c : Chan}
    (h : t.stk = (s.setStack st ((s.stack st).setChan ch c)).stk) :
    (∀ n, n ≠ st → t.stack n = s.stack n) ∧ (∀ n, n ≠ ch → (t.stack st).chan n = (s.stack st).chan n) ∧
      (t.stack st).chan ch = c := by
  have stack (n : Nat) : t.stack n = (s.setStack st ((s.stack st).setChan ch c)).stack n := by
    rw [State.stack, h]
    rfl
  have same : t.stack st = (s.stack st).setChan ch c := (stack st).trans (stack_setStack ..)
  refine ⟨fun n hn => (stack n).trans (stack_setStack_of_ne _ hn), fun n hn => ?_, ?_⟩
  · rw [same]
    exact get_set_other _ _ _ hn
  · rw [same]
    exact get_set_same ..

/-- Settles O50: each command is taken, and its row's own lemma gives what it leaves. -/
theorem hostBuffersAndMemoryTests : Obligations.HostBuffersAndMemoryTests := by
  unfold Obligations.HostBuffersAndMemoryTests
  intro s h started ok
  have starts {i : Instr} {v : State} {op : Nat} {out : List Byte}
      (e : exec i s = .next (background v op .ok out)) : started i v op out :=
    e.trans (congrArg Host.Outcome.next (background_eq v op (by decide) out 0))
  refine ⟨fun buf hb => ?buffers, fun k ch hk => ?repairs⟩
  case buffers =>
    intro put tells n busy
    refine ⟨fun hr => exec_verifyReport h hb hr, exec_healthReport h hb, fun hd => exec_healthLoad h hb hd,
      fun g k hk => ⟨fun held hl hq => ?drain, fun hl hj => ?load, ?reads, fun ch hi => ?tests⟩⟩
    case drain =>
      intro base v
      have e := starts (exec_ckptDrain h hb hk hl held g hq)
      rwa [useQuarter_eq] at e
    case load =>
      intro base bs
      have e := starts (exec_ckptLoad h hb hk hl g hj)
      rwa [useQuarter_eq] at e
    case reads =>
      exact ⟨starts (congrArg Host.Outcome.next (memTest_toBuffer h hk 0xC060 _ hb)),
        starts (congrArg Host.Outcome.next (memTest_toBuffer h hk 0xC061 _ hb)),
        starts (congrArg Host.Outcome.next (memTest_toBuffer h hk 0xC062 _ hb))⟩
    case tests =>
      intro of test
      have zeroed (op : Nat) := channelTest_leaves h hk op ch hb hi
      simp only [zeroChannel_eq] at zeroed
      exact ⟨⟨_, rfl, zeroed 0xC066⟩, ⟨_, rfl, zeroed 0xC067⟩⟩
  case repairs =>
    intro m c result chans
    refine ⟨fun lane h80 hm h4 hc => ?mark, fun hj => ⟨fun bank row hard hl => ?repair, fun lane hm hs => ?remap⟩⟩
    case mark =>
      obtain ⟨t, run, bg, stk, recorded, frame⟩ := exec_markLane_leaves h hk ch lane h80 hm h4 hc
      obtain ⟨others, rest, chan⟩ := stacks_of_setChan stk
      exact ⟨t, run, ⟨bg, others⟩, rest, chan, recorded, frame⟩
    case repair =>
      intro r same hf
      obtain ⟨t, run, bg, others, stack, candidates, burn, kept⟩ := exec_repairRow_leaves h hk ch bank row hard hl hj hf
      exact ⟨t, run, ⟨bg, others⟩, by rw [stack]; rfl, by rw [stack]; rfl, candidates, burn, kept⟩
    case remap =>
      obtain ⟨t, run, bg, stk, lanes, kept⟩ := exec_remapLane_leaves h hk ch lane hj hm hs
      obtain ⟨others, rest, chan⟩ := stacks_of_setChan stk
      exact ⟨t, run, ⟨bg, others⟩, rest, chan, lanes, kept⟩

end Sys2Proof.Laws
end

-- ==== StreamStarts ====
section
/-!
O17: SIN, SOUT, GET, PUT, RRED and MCAST take their stream context (08 R214, R222, R225, R227, R234; 09 R244).
-/
namespace Sys2Proof.Laws

open Sys2Proof.Machine

variable {s : State} {b : Blk} {f : InFl}

/-- The stream of a GET, PUT, RRED or MCAST under a stream control, before its first request is sent. -/
def rmtStream (s : State) (f : InFl) (inbound : Bool) (k : StCtl) (hedge : Nat) (lc : Bool) : Active :=
  let near := if inbound then opnd! s f 2 else opnd! s f 1
  { idx := f.idx, remote := true, hedge := hedge, outbound := !inbound, narrow := false, lc := lc, high := k.high
    low := k.low, rush := k.rush, rate := k.rate, ringBase := near.base, ringSize := if k.ring then near.c 0 else 0
    todo := rmtReqs s f, sent := [] }

theorem rmtRun_get (ho : f.cmd.opcode = 0x43) : rmtRun s b f =
    let k := (stCtl s f.cmd.w3).getD {}
    startStream s b 14 .IQ f k.ring (rmtStream s f true k (remoteHedge s (opnd! s f 1)) (opnd! s f 1).lc) := by
  simp [rmtRun, rmtStream, Cmd.ctx, dirQ, ho]

theorem rmtRun_put (ho : f.cmd.opcode = 0x52) : rmtRun s b f =
    let k := (stCtl s f.cmd.w3).getD {}
    startStream s b 15 .OQ f k.ring (rmtStream s f false k (remoteHedge s (opnd! s f 2)) (wbit f.cmd.w4 0)) := by
  simp [rmtRun, rmtStream, Cmd.ctx, dirQ, ho]

theorem rmtRun_rred (ho : f.cmd.opcode = 0x54) : rmtRun s b f =
    let k := (stCtl s f.cmd.w3).getD {}
    startStream s b 15 .OQ f k.ring (rmtStream s f false k (remoteHedge s (opnd! s f 2)) false) := by
  simp [rmtRun, rmtStream, Cmd.ctx, dirQ, ho]

theorem rmtRun_mcast (ho : f.cmd.opcode = 0x55) : rmtRun s b f =
    startStream s b 15 .OQ f false (rmtStream s f false {} (fld f.cmd.w3 0 16) false) := by
  simp [rmtRun, rmtStream, Cmd.ctx, dirQ, ho]

/-- Settles O17: each row starts its own stream, and a start carries the stream to its context or finishes at once. -/
theorem streamCommandsTakeContext : Obligations.StreamCommandsTakeContext := by
  unfold Obligations.StreamCommandsTakeContext
  intro s b f hd starts stream remote
  have carried {i : Instr} {inbound ring : Bool} {n : Nat} {a : Active} (hn : nextStart s b (dirQ inbound) = some f)
      (run : exec i s = .next (startStream s b n (dirQ inbound) f ring a)) (hi : a.idx = f.idx) (hc : a.coll = false)
      (hf : a.fail = none) (hs : a.sent = []) : starts i (dirQ inbound) n ring a := by
    have queue : dirQ inbound = .IQ ∨ dirQ inbound = .OQ := by cases inbound <;> simp [dirQ]
    exact fun below => ⟨_, run, startStream_starts (nextStart_mem hn) hd queue n ring a hi hc hf hs below⟩
  have row {i : Instr} {q : Qc} {op : Nat} {run : State → InFl → State} {t : State}
      (e : exec i s = .next (engine s b q op run)) (hn : nextStart s b q = some f) (ho : f.cmd.opcode = op)
      (et : run s f = t) : exec i s = .next t :=
    e.trans (congrArg Host.Outcome.next ((engine_run hn ho run).trans et))
  refine ⟨fun hn ho => ?sin, fun hn ho => ?sout, fun hn ho => ?get, fun hn ho => ?put, fun hn ho => ?rred,
    fun hn ho => ?mcast⟩
  case sin => exact carried (inbound := true) hn (row rfl hn ho rfl) rfl rfl rfl rfl
  case sout => exact carried (inbound := false) hn (row rfl hn ho rfl) rfl rfl rfl rfl
  case get => exact carried (inbound := true) hn (row rfl hn ho (rmtRun_get ho)) rfl rfl rfl rfl
  case put => exact carried (inbound := false) hn (row rfl hn ho (rmtRun_put ho)) rfl rfl rfl rfl
  case rred => exact carried (inbound := false) hn (row rfl hn ho (rmtRun_rred ho)) rfl rfl rfl rfl
  case mcast => exact carried (inbound := false) hn (row rfl hn ho (rmtRun_mcast ho)) rfl rfl rfl rfl

end Sys2Proof.Laws
end

-- ==== StreamTimeouts ====
section
/-!
O19: the oldest request of a local stream is given up after 1 ms (08 R235, R236; 11 R298; logs 14, 21), and SUPPORT for
O18: how a context's stream ends.
-/
namespace Sys2Proof.Laws

open Sys2Proof.Machine

/-! ### A stream of a block goes on, and the others stay -/

/-- From `s` to `t` every other context, queue and block than those of a stream stands as it was. -/
structure OtherStreams (b : Blk) (n : Nat) (q : Qc) (s t : State) : Prop where
  ctxs : ∀ m, m ≠ n → t.ctx b m = s.ctx b m
  queues : ∀ r, r ≠ q → t.q b r = s.q b r
  others : ∀ k, k ≠ b → t.blk k = s.blk k

section
variable {s t u : State} {b : Blk} {n : Nat} {q : Qc}

theorem OtherStreams.trans (x : OtherStreams b n q s t) (y : OtherStreams b n q t u) : OtherStreams b n q s u where
  ctxs m hm := (y.ctxs m hm).trans (x.ctxs m hm)
  queues r hr := (y.queues r hr).trans (x.queues r hr)
  others k hk := (y.others k hk).trans (x.others k hk)

theorem otherStreams_of_blocks (h : t.blocks = s.blocks) : OtherStreams b n q s t where
  ctxs _ _ := by rw [State.ctx, blk_congr h, State.ctx]
  queues _ _ := by rw [State.q, blk_congr h, State.q]
  others _ _ := blk_congr h _

theorem otherStreams_setCtx (s : State) (b : Blk) (n : Nat) (q : Qc) (c : Ctx) : OtherStreams b n q s (s.setCtx b n c) where
  ctxs _ hm := (ctx_setCtx ..).trans (if_neg (Ne.symm hm))
  queues _ _ := q_setCtx ..
  others _ hk := blk_setCtx_of_ne _ hk ..

theorem otherStreams_updInFl (s : State) (b : Blk) (n : Nat) (q : Qc) (i : Nat) (g : InFl → InFl) :
    OtherStreams b n q s (updInFl s b q i g) where
  ctxs _ _ := ctx_updQ ..
  queues _ hr := q_updQ_of_ne _ _ hr
  others _ hk := blk_updQ_of_ne _ _ hk

theorem flags_setCtx (s : State) (b : Blk) (n : Nat) (c : Ctx) : ((s.setCtx b n c).blk b).flags = (s.blk b).flags := by
  simp [State.setCtx]

theorem flags_updInFl (s : State) (b : Blk) (q : Qc) (i : Nat) (g : InFl → InFl) :
    ((updInFl s b q i g).blk b).flags = (s.blk b).flags := by
  simp [updInFl, State.updQ, State.setQ, Block.setQueue]

/-- A context whose stream has ended. -/
def idled (c : Ctx) : Ctx :=
  { c with active := none, state := .idle, aged := false, losses := 0, rush := false, ring := false }

/-- A context whose stream has failed with nothing left to do becomes idle, and its command finishes with that status. -/
theorem settle_failed {a : Active} (h : (s.ctx b n).active = some a) (ht : a.todo = []) (hs : a.sent = [])
    {no : Nat} {st : Status} (hf : a.fail = some (no, st, none)) (hc : a.coll = false) :
    settle s b n = finish (s.setCtx b n (idled (s.ctx b n))) b (ctxQ (s.ctx b n)) a.idx st := by
  unfold settle idled
  simp [h, ht, hs, hf, hc]

/-- A stream's command `g` finishes, `x` its entry in flight, and its context becomes idle. -/
theorem finish_idled {g x : InFl} (hx : x ∈ (s.q b q).inflight) (hi : x.idx = g.idx) (hc : x.cmd = g.cmd)
    (hd : x.done = none) (st : Status) (c : Ctx) :
    let t := finish (s.setCtx b n c) b q g.idx st
    Safety.Finished b q g st t ∧ t.ctx b n = c ∧ (t.blk b).flags = (s.blk b).flags ∧ OtherStreams b n q s t := by
  intro t
  have flight : x ∈ ((s.setCtx b n c).q b q).inflight := by rwa [q_setCtx]
  obtain ⟨y, hy, hyi, hyc, hyd⟩ := finished_finish flight hd s.decoded st
  rw [hi] at hy
  exact ⟨⟨y, hy, hyi.trans hi, hyc.trans hc, hyd⟩, (ctx_updQ ..).trans ((ctx_setCtx ..).trans (if_pos rfl)),
    (flags_updInFl ..).trans (flags_setCtx ..),
    (otherStreams_setCtx s b n q c).trans (otherStreams_updInFl ..)⟩

/-- The command that a context carries is in flight, taken up and not done. -/
theorem ctxCmd_spec {c : Ctx} {a : Active} {f : InFl} (h : ctxCmd s b c a = some f) :
    f ∈ (s.q b (ctxQ c)).inflight ∧ f.idx = a.idx ∧ f.done = none := by
  obtain ⟨hm, hi, -, hd⟩ := orgCmd_spec (show orgCmd s b (ctxQ c) a.idx = some f from h)
  exact ⟨hm, hi, hd⟩

/-- A context whose oldest request sent is taken off. -/
def poppedCtx (c : Ctx) (a : Active) (l : List SReq) : Ctx := { c with active := some { a with sent := l } }

theorem popSent_eq {a : Active} {r : SReq} {l : List SReq} (ha : (s.ctx b n).active = some a) (hs : a.sent = r :: l) :
    popSent s b n = s.setCtx b n (poppedCtx (s.ctx b n) a l) := by
  unfold popSent poppedCtx
  dsimp only
  rw [ha, Option.map_some, hs, List.drop_one, List.tail_cons]

/-- The first failure of a stream stands, and nothing more of the stream is sent. -/
theorem failReq_first {a : Active} (ha : (s.ctx b n).active = some a) (hf : a.fail = none) (no : Nat) (st : Status)
    (e : Option (ErrCode × Nat)) : failReq s b n no st e =
      s.setCtx b n { s.ctx b n with state := .waiting, active := some { a with todo := [], fail := some (no, st, e) } } := by
  unfold failReq
  dsimp only
  rw [ha]
  dsimp only
  rw [hf]
  dsimp only
  rw [if_pos rfl]

end

/-! ### A request is given up (R235, R236) -/

section
variable {s : State} {b : Blk} {n : Nat} {a : Active} {r : SReq} {l : List SReq} {f : InFl}

/-- A context whose oldest request sent is given up: nothing more of its stream is sent. -/
def givenUpCtx (c : Ctx) (a : Active) (r : SReq) (l : List SReq) : Ctx :=
  { c with state := .waiting, active := some { a with todo := [], sent := l, fail := some (r.no, .timeout, none) } }

/-- The node with a request of a context given up, before the context is settled. -/
def givenUp (s : State) (b : Blk) (n : Nat) (a : Active) (r : SReq) (l : List SReq) : State :=
  ((timeoutAer s r.far).setCtx b n (poppedCtx (s.ctx b n) a l)).setCtx b n (givenUpCtx (s.ctx b n) a r l)

theorem timeoutAer_frame (s : State) (npa : Nat) : timeoutAer s npa = { s with host := (timeoutAer s npa).host } := by
  unfold timeoutAer
  split <;> rfl

theorem reqTimeout_due (ha : (s.ctx b n).active = some a) (hr : a.remote = false) (hs : a.sent = r :: l)
    (hf : a.fail = none) (due : r.sent + 1_000_000 ≤ s.tim.now) : reqTimeout s b n = settle (givenUp s b n a r l) b n := by
  have same : (timeoutAer s r.far).ctx b n = s.ctx b n := by rw [timeoutAer_frame]; rfl
  have popped : popSent (timeoutAer s r.far) b n = (timeoutAer s r.far).setCtx b n (poppedCtx (s.ctx b n) a l) := by
    rw [popSent_eq (by rw [same]; exact ha) hs, same]
  have failed : failReq (popSent (timeoutAer s r.far) b n) b n r.no .timeout none = givenUp s b n a r l := by
    have ctx : ((timeoutAer s r.far).setCtx b n (poppedCtx (s.ctx b n) a l)).ctx b n = poppedCtx (s.ctx b n) a l :=
      (ctx_setCtx ..).trans (if_pos rfl)
    rw [popped, failReq_first (a := { a with sent := l }) (by rw [ctx]; rfl) hf, ctx]
    rfl
  have now : (!a.remote && decide (r.sent + reqLimit ≤ s.tim.now)) = true := by simp [hr, reqLimit, due]
  unfold reqTimeout
  dsimp only
  rw [ha]
  dsimp only
  rw [hs]
  dsimp only
  rw [if_pos now, failed]

theorem givenUp_leaves (q : Qc) : let t := givenUp s b n a r l
    t.ctx b n = givenUpCtx (s.ctx b n) a r l ∧ t.q b q = s.q b q ∧ OtherStreams b n q s t ∧
      t.host = (timeoutAer s r.far).host ∧ t = { s with blocks := t.blocks, host := t.host } := by
  intro t
  have aer := timeoutAer_frame s r.far
  refine ⟨(ctx_setCtx ..).trans (if_pos rfl), (q_setCtx ..).trans ((q_setCtx ..).trans ?_), ?_, rfl, ?_⟩
  · rw [aer]
    rfl
  · exact ((otherStreams_of_blocks (by rw [aer])).trans (otherStreams_setCtx ..)).trans (otherStreams_setCtx ..)
  · calc t = { timeoutAer s r.far with blocks := t.blocks } := rfl
      _ = { s with blocks := t.blocks, host := t.host } := by
        rw [aer]
        rfl

/-- Settles O19: the request given up leaves a failed stream, which ends where nothing else of it is out. -/
theorem streamRequestTimesOut : Obligations.StreamRequestTimesOut := by
  unfold Obligations.StreamRequestTimesOut
  intro s b n a r l f c ha hr hc hs hf hcmd due
  obtain ⟨hm, hi, hd⟩ := ctxCmd_spec hcmd
  have run : exec (.streamRequestTimeout b n) s = .next (settle (givenUp s b n.toNat a r l) b n.toNat) :=
    congrArg Host.Outcome.next (reqTimeout_due ha hr hs hf due)
  obtain ⟨ctx, queue, kept, host, rest⟩ := givenUp_leaves (s := s) (b := b) (n := n.toNat) (a := a) (r := r) (l := l) (ctxQ c)
  generalize givenUp s b n.toNat a r l = w at run ctx queue kept host rest
  have act : (w.ctx b n.toNat).active = some { a with todo := [], sent := l, fail := some (r.no, .timeout, none) } := by
    rw [ctx]
    rfl
  by_cases hl : l = []
  case pos =>
    have mine : ctxQ (w.ctx b n.toNat) = ctxQ c := by rw [ctx]; rfl
    rw [settle_failed act rfl hl rfl hc, mine, ← hi] at run
    obtain ⟨finished, idle, -, only⟩ := finish_idled (n := n.toNat) (g := f) (by rw [queue]; exact hm) rfl rfl hd .timeout
      (idled (w.ctx b n.toNat))
    obtain ⟨ctxs, queues, others⟩ := kept.trans only
    refine ⟨_, run, fun _ => ⟨finished, by rw [idle]; rfl, by rw [idle]; rfl⟩, fun h => absurd hl h, ctxs, queues, others,
      host, ?_⟩
    rw [rest]
    rfl
  case neg =>
    rw [settle_out act fun h => hl h.2] at run
    exact ⟨_, run, fun h => absurd h hl, fun _ => ctx, kept.ctxs, kept.queues, kept.others, host, rest⟩

end

end Sys2Proof.Laws
end

-- ==== StreamMoves ====
section
/-!
O18: the bytes of the oldest request of a local stream reach their target (08 R216, R217, R222, R234; log 14).
-/
namespace Sys2Proof.Laws

open Sys2Proof.Machine

/-! ### What bytes are read and written depends on -/

section
variable {s u : State}

theorem rd_congr (hn : u.ncr = s.ncr) (hm : u.mem = s.mem) (hh : u.host.mem = s.host.mem) (a : Nat) : rd u a = rd s a := by
  have located : place u a = place s a := by rw [place, hn, place]
  unfold rd
  rw [located]
  split
  · rw [rdHost, hh, rdHost]
  · split
    · rw [rdKey, hm, rdKey]
    · rfl

theorem rdN_congr (hn : u.ncr = s.ncr) (hm : u.mem = s.mem) (hh : u.host.mem = s.host.mem) (a k : Nat) :
    rdN u a k = rdN s a k := by
  simp only [rdN, rd_congr hn hm hh]

theorem mem_wrRaw_congr (hn : u.ncr = s.ncr) (hm : u.mem = s.mem) (a : Nat) (v : Byte) :
    (wrRaw u a v).mem = (wrRaw s a v).mem := by
  have located : place u a = place s a := by rw [place, hn, place]
  unfold wrRaw
  rw [located]
  split
  · exact hm
  · split
    · rw [wrKey, hm, wrKey]
    · exact hm

/-- Writes to node memory and the stores do not depend on host memory. -/
theorem mem_wrRawN_congr (hn : u.ncr = s.ncr) (hm : u.mem = s.mem) (a : Nat) (l : List Byte) :
    (wrRawN u a l).mem = (wrRawN s a l).mem := by
  induction l generalizing s u a with
  | nil => exact hm
  | cons v l ih => exact ih (by simpa using hn) (mem_wrRaw_congr hn hm a v) (a + 1)

theorem mem_wrN_congr (hn : u.ncr = s.ncr) (hm : u.mem = s.mem) (hu : ∀ n, (u.stack n).ckPending = [])
    (hs : ∀ n, (s.stack n).ckPending = []) (a : Nat) (l : List Byte) : (wrN u a l).mem = (wrN s a l).mem := by
  rw [wrN, stallCopy_none hu, wrN, stallCopy_none hs]
  exact mem_wrRawN_congr hn hm a l

/-! ### The device cache takes lines in (R216) -/

/-- `t` is `s` but for the lines that the device cache holds. -/
def OnlyCache (s t : State) : Prop := t = { s with host := { s.host with cache := t.host.cache } }

theorem onlyCache_cacheLine (s : State) (a : Nat) : OnlyCache s (cacheLine s a) := by
  unfold cacheLine OnlyCache
  dsimp only
  split <;> rfl

theorem onlyCache_cacheRun (s : State) (a k : Nat) : OnlyCache s (cacheRun s a k) := by
  unfold cacheRun
  split
  next o _ =>
    refine List.foldlRecOn (motive := OnlyCache s) _ _ rfl fun t h i _ => ?_
    have line := onlyCache_cacheLine t (o + 64 * i)
    unfold OnlyCache at *
    rw [line, h]
  next => rfl

end

/-! ### A request's data are converted (R217) -/

section
variable {s u : State} {b : Blk} {n : Nat} {q : Qc} {f : InFl}

/-- A node after a SIN's or SOUT's conversion: flags of its block, and free values drawn. -/
structure Flagged (b : Blk) (s t : State) : Prop where
  block : t.blk b = { s.blk b with flags := (t.blk b).flags }
  others : ∀ k, k ≠ b → t.blk k = s.blk k
  rest : t = { s with blocks := t.blocks, free := t.free }

theorem Flagged.context (h : Flagged b s u) (m : Nat) : u.ctx b m = s.ctx b m := by rw [State.ctx, h.block]; rfl

theorem Flagged.queue (h : Flagged b s u) (r : Qc) : u.q b r = s.q b r := by rw [State.q, h.block]; rfl

theorem Flagged.kept (h : Flagged b s u) : OtherStreams b n q s u := ⟨fun m _ => h.context m, fun r _ => h.queue r, h.others⟩

/-- A stream moves its bytes as they are (R217). -/
def movesAsIs (s : State) (f : InFl) (ring : Bool) : Bool :=
  ring || (opnd! s f 1).fmt == (opnd! s f 2).fmt || !(f.cmd.opcode == 0x40 || f.cmd.opcode == 0x50)

theorem reqData_asIs {ring : Bool} (h : movesAsIs s f ring = true) (b : Blk) (r : SReq) (bs : List Byte) :
    reqData s b f ring r bs = (s, bs) := if_pos h

theorem reqData_converted {ring : Bool} (h : movesAsIs s f ring = false) (b : Blk) (r : SReq) (bs : List Byte) :
    reqData s b f ring r bs =
      let x := convBytes s (opnd! s f 1) (opnd! s f 2) r.elem bs
      (drewN (setFlags s b 1 x.2) (opnd! s f 2).ncw (bs.length / ((opnd! s f 1).fmt.bits / 8)), x.1) :=
  if_neg (Bool.eq_false_iff.1 h)

theorem blk_drewN (s : State) (w : Ncw) (k : Nat) (b : Blk) : (drewN s w k).blk b = s.blk b := by
  rw [drewN_eq]
  rfl

theorem flagged_reqData (s : State) (b : Blk) (f : InFl) (ring : Bool) (r : SReq) (bs : List Byte) :
    Flagged b s (reqData s b f ring r bs).1 := by
  cases h : movesAsIs s f ring with
  | true =>
    rw [reqData_asIs h]
    exact ⟨rfl, fun _ _ => rfl, rfl⟩
  | false =>
    rw [reqData_converted h]
    refine ⟨?_, fun k hk => (blk_drewN ..).trans (blk_updBlk_of_ne _ hk), ?_⟩
    · dsimp only
      rw [blk_drewN, setFlags, blk_updBlk]
    · dsimp only
      rw [drewN_eq]
      rfl

/-- The converted bytes and their flags do not depend on memory, nor on a block but for the flags it had. -/
theorem reqData_congr (hu : MemAndBlocks s u) (hf : (u.blk b).flags = (s.blk b).flags) (f : InFl) (ring : Bool) (r : SReq)
    (bs : List Byte) : (reqData u b f ring r bs).2 = (reqData s b f ring r bs).2 ∧
      ((reqData u b f ring r bs).1.blk b).flags = ((reqData s b f ring r bs).1.blk b).flags := by
  have same : movesAsIs u f ring = movesAsIs s f ring := by
    rw [hu]
    rfl
  cases h : movesAsIs s f ring with
  | true =>
    rw [reqData_asIs h, reqData_asIs (same.trans h)]
    exact ⟨rfl, hf⟩
  | false =>
    have conv : convBytes u (opnd! u f 1) (opnd! u f 2) r.elem bs = convBytes s (opnd! s f 1) (opnd! s f 2) r.elem bs := by
      rw [hu]
      rfl
    rw [reqData_converted h, reqData_converted (same.trans h), conv]
    refine ⟨rfl, ?_⟩
    dsimp only
    rw [blk_drewN, blk_drewN, setFlags, blk_updBlk, setFlags, blk_updBlk]
    dsimp only
    rw [hf]

end

/-! ### A request's bytes reach their target -/

section
variable {s : State} {b : Blk} {n : Nat} {a : Active} {r : SReq} {l : List SReq} {f : InFl}

/-- A context's oldest request taken off, its far end's lines cached and the lines of its runs decoded. -/
def answering (s : State) (b : Blk) (n : Nat) (a : Active) (r : SReq) (l : List SReq) (runs : List Run) : State :=
  countReads (cacheRun (s.setCtx b n (poppedCtx (s.ctx b n) a l)) r.far r.bytes) runs

/-- The bytes of a context's oldest request written at their target, before its context is settled. -/
def moved (s : State) (b : Blk) (n : Nat) (a : Active) (r : SReq) (l : List SReq) (f : InFl) (runs : List Run)
    (target : Nat) (data : List Byte) (out : List Byte → List Byte) : State :=
  let d := reqData (answering s b n a r l runs) b f (s.ctx b n).ring r data
  noteOut (wrN d.1 target d.2) b (ctxQ (s.ctx b n)) a.idx (out d.2)

theorem answering_frame (runs : List Run) : let t := answering s b n a r l runs
    t = { s with blocks := (s.setCtx b n (poppedCtx (s.ctx b n) a l)).blocks
                 host := { s.host with cache := t.host.cache }, decoded := t.decoded } := by
  intro t
  have cache := onlyCache_cacheRun (s.setCtx b n (poppedCtx (s.ctx b n) a l)) r.far r.bytes
  generalize hv : cacheRun (s.setCtx b n (poppedCtx (s.ctx b n) a l)) r.far r.bytes = v at cache
  have e : t = countReads v runs := by rw [← hv]; rfl
  rw [e, countReads_frame, cache]
  rfl

theorem touch_answering (cl : Safety.Clean s) (ha : (s.ctx b n).active = some a) (hs : a.sent = r :: l) (runs : List Run) :
    touch (cacheRun (popSent s b n) r.far r.bytes) runs = (answering s b n a r l runs, none) := by
  rw [popSent_eq ha hs]
  refine touch_clean ?_ runs
  rw [onlyCache_cacheRun (s.setCtx b n _) r.far r.bytes]
  exact cl.lines

/-- Reading a request's far end finds what was there before it was answered. -/
theorem rdN_answering (runs : List Run) (x k : Nat) : rdN (answering s b n a r l runs) x k = rdN s x k := by
  have same := answering_frame (s := s) (b := b) (n := n) (a := a) (r := r) (l := l) runs
  exact rdN_congr (by rw [same]) (by rw [same]) (by rw [same]) x k

/-- With no line in error, an inbound request's bytes are those of its far end (R222). -/
theorem landed_clean (cl : Safety.Clean s) (ha : (s.ctx b n).active = some a) (hr : a.remote = false)
    (ho : a.outbound = false) (hs : a.sent = r :: l) (hf : a.fail = none) (hc : ctxCmd s b (s.ctx b n) a = some f) :
    let w := moved s b n a r l f ([⟨r.far, r.bytes⟩] ++ partialRuns [⟨r.near, r.nb⟩]) r.near (rdN s r.far r.bytes) id
    landed s b n = settle (w.setCtx b n (sluice { w.ctx b n with own := (w.ctx b n).own + BitVec.ofNat 64 r.nb })) b n := by
  unfold landed
  dsimp only
  rw [ha]
  dsimp only
  rw [hr, ho, if_neg (by simp), hs, hc]
  dsimp only
  rw [touch_answering cl ha hs]
  dsimp only
  rw [hf, rdN_answering]
  rfl

/-- With no line in error, an outbound request's bytes are those it read when it left (R222). -/
theorem wrote_clean (cl : Safety.Clean s) (ha : (s.ctx b n).active = some a) (hr : a.remote = false)
    (ho : a.outbound = true) (hs : a.sent = r :: l) (hc : ctxCmd s b (s.ctx b n) a = some f) :
    wrote s b n = settle (moved s b n a r l f (partialRuns [⟨r.far, r.bytes⟩]) r.far r.data
      fun bs => if inHost s r.far then [] else bs) b n := by
  unfold wrote
  dsimp only
  rw [ha]
  dsimp only
  rw [hr, ho, if_neg (by simp), hs, hc]
  dsimp only
  rw [touch_answering cl ha hs]
  rfl

/-- From `s` to `t` nothing of the node has changed but its blocks, memory and what writes to it undo, and what is counted. -/
def MovesOnly (s t : State) : Prop := t = { s with
  blocks := t.blocks, mem := t.mem, host := t.host, lineFault := t.lineFault, harts := t.harts, decoded := t.decoded
  free := t.free }

theorem MovesOnly.trans {t u : State} (x : MovesOnly s t) (y : MovesOnly t u) : MovesOnly s u := by
  unfold MovesOnly at *
  rw [y, x]

/-- What the bytes `d` of a request, converted, leave of a node at their target, where a stream of queue `q` moves them. -/
structure BytesMoved (s : State) (b : Blk) (n : Nat) (q : Qc) (d : State × List Byte) (target : Nat) (t : State) : Prop where
  mem : t.mem = (wrN s target d.2).mem
  flags : (t.blk b).flags = (d.1.blk b).flags
  kept : OtherStreams b n q s t
  bytes : ∀ npa, Safety.Outside s [⟨target, d.2.length⟩] npa → rd t npa = rd s npa
  rest : MovesOnly s t

theorem BytesMoved.withBlocks {q : Qc} {d : State × List Byte} {target : Nat} {w : State} {B : SMap Block}
    (M : BytesMoved s b n q d target w) (flags : (State.blk { w with blocks := B } b).flags = (w.blk b).flags)
    (kept : OtherStreams b n q w { w with blocks := B }) : BytesMoved s b n q d target { w with blocks := B } where
  mem := M.mem
  flags := flags.trans M.flags
  kept := M.kept.trans kept
  bytes := M.bytes
  rest := M.rest.trans rfl

/-- The bytes converted and written, the request taken off its context. -/
theorem written_leaves (cl : Safety.Clean s) (q : Qc) (runs : List Run) (target : Nat) (data : List Byte) :
    let c := poppedCtx (s.ctx b n) a l
    let d := reqData (answering s b n a r l runs) b f (s.ctx b n).ring r data
    let t := wrN d.1 target d.2
    BytesMoved s b n q (reqData s b f (s.ctx b n).ring r data) target t ∧ t.ctx b n = c ∧ ∀ p, t.q b p = s.q b p := by
  intro c d t
  have read : answering s b n a r l runs = _ := answering_frame runs
  have flagged : Flagged b (answering s b n a r l runs) d.1 := flagged_reqData ..
  obtain ⟨converted, flags⟩ : d.2 = (reqData s b f (s.ctx b n).ring r data).2 ∧ (d.1.blk b).flags = _ :=
    reqData_congr (by unfold MemAndBlocks; rw [read]) (by rw [read]; exact flags_setCtx s b n c) f (s.ctx b n).ring r data
  clear_value d
  generalize answering s b n a r l runs = v at read flagged
  have popped : v.blocks = (s.setCtx b n c).blocks := by rw [read]
  have copied : ∀ k, (d.1.stack k).ckPending = [] := by
    rw [flagged.rest, read]
    exact cl.copied
  have ncr : d.1.ncr = s.ncr := by rw [flagged.rest, read]
  have mem : d.1.mem = s.mem := by rw [flagged.rest, read]
  have host : d.1.host.mem = s.host.mem := by rw [flagged.rest, read]
  have written : t = _ := wrN_frame copied target d.2 none
  have stored : t.blocks = d.1.blocks := by rw [written]
  refine ⟨⟨?mem, ?flags, ?kept, fun npa out => ?bytes, ?rest⟩, ?ctx, fun p => ?queue⟩
  case mem => exact (mem_wrN_congr ncr mem copied cl.copied target d.2).trans (by rw [converted])
  case flags => exact (congrArg Block.flags (blk_congr stored b)).trans flags
  case kept =>
    exact (((otherStreams_setCtx s b n q c).trans (otherStreams_of_blocks popped)).trans flagged.kept).trans
      (otherStreams_of_blocks stored)
  case bytes =>
    have place (k : Nat) : place d.1 k = place s k := by rw [Machine.place, ncr, Machine.place]
    rw [← converted] at out
    refine (rd_wrN_of_ne (w := none) copied fun i h => ?_).trans (rd_congr ncr mem host npa)
    rw [place, place]
    exact out _ (List.mem_singleton_self _) i h
  case rest =>
    have fetched : MovesOnly s v := by
      unfold MovesOnly
      rw [read]
    have drawn : MovesOnly v d.1 := by
      unfold MovesOnly
      rw [flagged.rest]
    have put : MovesOnly d.1 t := by
      unfold MovesOnly
      rw [written]
    exact (fetched.trans drawn).trans put
  case ctx =>
    rw [State.ctx, blk_congr stored, ← State.ctx, flagged.context, State.ctx, blk_congr popped, ← State.ctx, ctx_setCtx,
      if_pos rfl]
  case queue =>
    rw [State.q, blk_congr stored, ← State.q, flagged.queue, State.q, blk_congr popped, ← State.q, q_setCtx]

/-- The same with the output noted: the command stands in flight and not done. -/
theorem moved_leaves (cl : Safety.Clean s) (hc : ctxCmd s b (s.ctx b n) a = some f) (runs : List Run) (target : Nat)
    (data : List Byte) (out : List Byte → List Byte) :
    let w := moved s b n a r l f runs target data out
    let q := ctxQ (s.ctx b n)
    BytesMoved s b n q (reqData s b f (s.ctx b n).ring r data) target w ∧ w.ctx b n = poppedCtx (s.ctx b n) a l ∧
      ∃ x, x ∈ (w.q b q).inflight ∧ x.idx = f.idx ∧ x.cmd = f.cmd ∧ x.done = none := by
  intro w q
  obtain ⟨hm, hi, hd⟩ := ctxCmd_spec hc
  obtain ⟨M, ctx, queue⟩ := written_leaves (a := a) (r := r) (l := l) (f := f) cl q runs target data
  have flight (bs : List Byte) := mem_noteOut (by rw [queue]; exact hm) hd bs
  rw [hi] at flight
  exact ⟨M.withBlocks (flags_updInFl ..) (otherStreams_updInFl ..), (ctx_updQ ..).trans ctx, _, flight _, hi.symm, rfl, hd⟩

/-- The context settled: the stream ends with its last request. -/
theorem BytesMoved.settled {q : Qc} {d : State × List Byte} {target : Nat} {w : State}
    (M : BytesMoved s b n q d target w) {c : Ctx} (hw : w.ctx b n = c) (ha : c.active = some { a with sent := l })
    (hq : ctxQ c = q) (hc : a.coll = false) (hf : a.fail = none) (hi : f.idx = a.idx)
    (flight : ∃ x, x ∈ (w.q b q).inflight ∧ x.idx = f.idx ∧ x.cmd = f.cmd ∧ x.done = none) :
    let t := settle w b n
    BytesMoved s b n q d target t ∧ (t.ctx b n).own = c.own ∧
      (a.todo = [] ∧ l = [] → Safety.Finished b q f .ok t ∧ (t.ctx b n).state = .idle ∧ (t.ctx b n).active = none) ∧
      (¬(a.todo = [] ∧ l = []) → (t.ctx b n).active = some { a with sent := l }) := by
  intro t
  have act : (w.ctx b n).active = some { a with sent := l } := by rw [hw, ha]
  by_cases last : a.todo = [] ∧ l = []
  case pos =>
    obtain ⟨x, hx, hxi, hxc, hxd⟩ := flight
    have ended : t = finish (w.setCtx b n (idled c)) b q f.idx .ok := by
      rw [← hw, ← hq, ← hw, hi]
      exact settle_done (a := { a with sent := l }) act last.1 last.2 hf hc
    obtain ⟨finished, idle, flags, only⟩ := finish_idled (n := n) hx hxi hxc hxd .ok (idled c)
    rw [ended]
    exact ⟨M.withBlocks flags only, by rw [idle]; rfl, fun _ => ⟨finished, by rw [idle]; rfl, by rw [idle]; rfl⟩,
      fun h => absurd last h⟩
  case neg =>
    rw [show t = w from settle_out act last]
    exact ⟨M, by rw [hw], fun h => absurd h last, fun _ => act⟩

/-- Settles O18: the bytes reach their target, and the context settles. -/
theorem streamRequestsMoveTheirBytes : Obligations.StreamRequestsMoveTheirBytes := by
  unfold Obligations.StreamRequestsMoveTheirBytes
  intro s b n a r l f c cl ha hr hc hs hf hcmd moves
  obtain ⟨-, hi, -⟩ := ctxCmd_spec hcmd
  have settles {i : Instr} {target : Nat} {data : List Byte} {own : W64} {w : State}
      (run : exec i s = .next (settle w b n.toNat))
      (M : BytesMoved s b n.toNat (ctxQ c) (reqData s b f c.ring r data) target w) {x : Ctx}
      (hw : w.ctx b n.toNat = x) (hx : x.active = some { a with sent := l }) (hq : ctxQ x = ctxQ c) (hown : x.own = own)
      (flight : ∃ x, x ∈ (w.q b (ctxQ c)).inflight ∧ x.idx = f.idx ∧ x.cmd = f.cmd ∧ x.done = none) :
      moves i target data own := by
    obtain ⟨⟨mem, flags, kept, bytes, rest⟩, counted, ends, stays⟩ := M.settled hw hx hq hc hf hi flight
    exact ⟨_, run, mem, counted.trans hown, ends, fun h => stays (not_and_or.2 h), flags, kept.ctxs, kept.queues,
      kept.others, bytes, rest⟩
  refine ⟨fun ho => ?inbound, fun ho => ?outbound⟩
  case inbound =>
    have run : exec (.streamDataLanded b n) s = .next _ := congrArg Host.Outcome.next (landed_clean cl ha hr ho hs hf hcmd)
    obtain ⟨M, ctx, flight⟩ := moved_leaves (r := r) (l := l) cl hcmd ([⟨r.far, r.bytes⟩] ++ partialRuns [⟨r.near, r.nb⟩])
      r.near (rdN s r.far r.bytes) id
    rw [ctx] at run
    refine settles run (M.withBlocks (flags_setCtx ..) (otherStreams_setCtx ..)) ((ctx_setCtx ..).trans (if_pos rfl))
      (sluice_active _) ?_ (sluice_own _) ?_
    · rw [ctxQ, sluice_oq]
      rfl
    · rwa [q_setCtx]
  case outbound =>
    obtain ⟨M, ctx, flight⟩ := moved_leaves (r := r) (l := l) cl hcmd (partialRuns [⟨r.far, r.bytes⟩]) r.far r.data
      fun bs => if inHost s r.far then [] else bs
    exact settles (congrArg Host.Outcome.next (wrote_clean cl ha hr ho hs hcmd)) M ctx rfl rfl rfl flight

end

end Sys2Proof.Laws
end

-- ==== StreamGrants ====
section
/-!
O20: STREAM_GRANT sends the next request of the context that wins its block's arbitration (08 R222, R225, R226, R228, R231,
R232; log 14).
-/
namespace Sys2Proof.Laws

open Sys2Proof.Machine

variable {s : State} {b : Blk} {n : Nat} {a : Active} {r : SReq} {rest : List SReq}

/-- A node whose sluices have decided and whose ready contexts have lost to the winner. -/
def granted (s : State) (b : Blk) (n : Nat) : State :=
  (s.setBlk b (gateColl s (s.blk b))).setBlk b (lose (gateColl s (s.blk b)) n)

theorem blk_granted : (granted s b n).blk b = lose (gateColl s (s.blk b)) n := blk_setBlk ..

theorem ctx_granted (m : Nat) : (granted s b n).ctx b m = (lose (gateColl s (s.blk b)) n).ctx m := by
  rw [State.ctx, blk_granted]

/-- Arbitration changes contexts alone. -/
theorem q_granted (q : Qc) : (granted s b n).q b q = s.q b q := by
  rw [State.q, blk_granted]
  rfl

theorem blk_granted_of_ne {x : Blk} (h : x ≠ b) : (granted s b n).blk x = s.blk x :=
  (blk_setBlk_of_ne _ h).trans (blk_setBlk_of_ne _ h)

/-- The winner of the arbitration, its stream local, sends its next request. -/
theorem grant_sends (hh : s.hold.state ≠ .resetting) (hw : winner (gateColl s (s.blk b)) = some n)
    (ha : ((granted s b n).ctx b n).active = some a) (hr : a.remote = false)
    (hn : nextReq ((granted s b n).ctx b n) a = some (r, rest)) :
    grant s b = sendLocal (granted s b n) b n ((granted s b n).ctx b n) a r rest := by
  have gated : (s.setBlk b (gateColl s (s.blk b))).blk b = gateColl s (s.blk b) := blk_setBlk ..
  unfold grant
  rw [if_neg hh]
  dsimp only
  rw [gated, hw]
  dsimp only
  rw [show (s.setBlk b (gateColl s (s.blk b))).setBlk b (lose (gateColl s (s.blk b)) n) = granted s b n from rfl, ha]
  dsimp only
  rw [hn]
  dsimp only
  rw [hr]
  rfl

/-- The context once its request has been sent: an outbound one has read its bytes in the store, and OWN counts them. -/
def sentLocal (s : State) (c : Ctx) (a : Active) (r : SReq) (rest : List SReq) : Ctx :=
  let sent := sentCtx s c a (if a.outbound then { r with data := rdN s r.near r.nb } else r) rest
  if a.outbound then { sent with own := sent.own + BitVec.ofNat 64 r.nb } else sent

/-- With no line in error where the request reads one, sending changes its context alone, and counts the lines read. -/
theorem sendLocal_clean (hl : a.outbound = true → s.lineFault = []) (c : Ctx) :
    ∃ d, sendLocal s b n c a r rest =
      { s with blocks := (s.setCtx b n (sentLocal s c a r rest)).blocks, decoded := d } := by
  unfold sendLocal sentLocal
  cases ho : a.outbound with
  | false => exact ⟨s.decoded, rfl⟩
  | true =>
    dsimp only
    rw [touch_clean (hl ho)]
    exact ⟨_, rfl⟩

/-- Settles O20: the winner of the arbitration sends its request, which changes its context alone. -/
theorem streamGrantSendsOneRequest : Obligations.StreamGrantSendsOneRequest := by
  unfold Obligations.StreamGrantSendsOneRequest
  intro s b n a r rest k c hh hw ha hr hn hl sent
  have won : (granted s b n).ctx b n = c := ctx_granted n
  obtain ⟨d, sends⟩ := sendLocal_clean (s := granted s b n) (b := b) (n := n) (r := r) (rest := rest) hl c
  have run : exec (.streamGrant b) s = .next _ :=
    congrArg Host.Outcome.next (grant_sends hh hw (by rw [won]; exact ha) hr (by rw [won]; exact hn))
  let x := sentLocal s c a r rest
  let B := ((granted s b n).setCtx b n x).blocks
  have steps : exec (.streamGrant b) s = .next { s with blocks := B, decoded := d } := by
    rw [run, won, sends]
    rfl
  obtain ⟨ctxs, -, others⟩ := otherStreams_setCtx (granted s b n) b n .IQ x
  have ctx : ((granted s b n).setCtx b n x).ctx b n = x := (ctx_setCtx ..).trans (if_pos rfl)
  exact ⟨_, steps, ctx, fun m hm => (ctxs m hm).trans (ctx_granted m), fun q => (q_setCtx ..).trans (q_granted q),
    fun y hy => (others y hy).trans (blk_granted_of_ne hy), rfl⟩

end Sys2Proof.Laws
end

-- ==== EarlyBcast ====
section
/-!
O26. A member's COLL of a BCAST need not wait: the parent's transfer that came early takes effect in the same row (09
R243, R256).
-/
namespace Sys2Proof.Laws
open Sys2Proof.Machine

/-- Hedge 3: node 5 as rank 0, this node as rank 1, its window the first 8 KiB of region 0, without a work area. -/
def earlyHedge : Hedge :=
  { id := 3, rank := 1, members := [5, 0], arity := 2, access := 2, state := 1, winBase := 0, winSize := 8192, remote := 9
    workOff := 0, workLen := 0 }

/-- The BCAST of descriptor 0 from rank 0 of hedge 3, in flight and not taken up. -/
def earlyBcast : InFl :=
  { idx := 0, addends := [], loops := [0, 0, 0, 0]
    cmd := ⟨0x56, 0, 0, 3 + 1 * 2 ^ 16, 0xFFFFF, 0xFFFFF, 0xFFFFF, 0xFFFFF⟩ }

/-- The whole transfer of rank 0 for the receive buffer: one byte, marked as the last. -/
def earlyFrame : Frame :=
  { port := 0, at_ := 0, fcsOk := true, macsec := .good, link := linkBlank, addend := 0, olds := false
    data := List.replicate 64 7, lchk := []
    hdr := ⟨3, tData, false, false, false, false, true, oColl, 0, 0, 3, 5, 0, 0, 0, 0, 0, 1, 0, 0, 0, 0, 0, 0⟩ }

/-- Descriptor 0: one element of format code 1 at NPA 0. -/
def earlyDesc : List Byte :=
  leBytes 8 0 ++ leBytes 8 1 ++ [1, 1, 1, 1, 1].flatMap (leBytes 4) ++ leBytes 2 0 ++ [1, 0] ++ List.replicate 88 0

/-- The image whose one descriptor that is. -/
def earlyImage : Image :=
  { det := false, pleach := false, digest := [], bufs := [], descs := [earlyDesc], hedges := [], stateset := none
    starts := [], pats := [], plan := none }

/-- A node whose BCAST has issued while the pair of node 5 holds the parent's transfer, which came early. -/
def earlyNode : State :=
  { job := { phase := .running, hedges := [earlyHedge], image := some earlyImage }
    blocks := [(0, { queues := [(Qc.OQ.code, { inflight := [earlyBcast] })] })]
    fab := { pairs := [(5, { held := [earlyFrame] })] } }

/-- What the BCAST works on. -/
def earlyColl : Coll := (collOf earlyNode earlyBcast).get (by decide +kernel)

/-- The node after the row of its COLL. -/
def afterBcast : State := match exec (.coll ⟨0, 0⟩) earlyNode with
  | .next t => t
  | _ => {}

theorem exec_coll_earlyNode : exec (.coll ⟨0, 0⟩) earlyNode = .next afterBcast := rfl

/-- The row delivers the parent's transfer, which ends the BCAST. -/
theorem afterBcast_idle : (afterBcast.ctx ⟨0, 0⟩ 15).active = none := by decide +kernel

/-- Refutes O26: the parent's transfer, which came before this member began its BCAST, takes effect in the row of the COLL,
so that the command has ended there and its context is idle, while the statement has every member but the root wait. -/
theorem not_bcastTakesUpItsTree : ¬ Obligations.BcastTakesUpItsTree := by
  unfold Obligations.BcastTakesUpItsTree
  intro h
  obtain ⟨t, runs, others, -⟩ := h earlyNode ⟨0, 0⟩ earlyBcast earlyColl ⟨rfl, fun _ => rfl⟩ (by decide +kernel) rfl
    (by decide +kernel) (Option.some_get _).symm (by decide +kernel) (by decide +kernel) (by decide +kernel)
    (by decide +kernel) rfl (by decide +kernel) (by decide +kernel)
  have after : afterBcast = t := Host.Outcome.next.inj (exec_coll_earlyNode.symm.trans runs)
  obtain ⟨-, waits, -⟩ := others (by decide +kernel)
  rw [← after] at waits
  exact absurd ((congrArg Ctx.active waits).symm.trans afterBcast_idle) (Option.some_ne_none _)

end Sys2Proof.Laws
end

-- ==== HartSteps ====
section
/-!
SUPPORT for O42. What a hart is after one instruction: retired, trapped, or waiting (10 R266, R268, R276).
-/
namespace Sys2Proof.Laws

open Sys2Proof.Machine

/-! ### A hart set twice -/

theorem erase_ins {V : Type} {m : SMap V} {k : Nat} (h : ∀ e ∈ m, e.1 ≠ k) (v : V) :
    SMap.erase (SMap.ins m k v) k = m := by
  induction m with
  | nil => simp [SMap.ins, SMap.erase]
  | cons e m ih =>
    obtain ⟨a, w⟩ := e
    have ha : a ≠ k := h (a, w) List.mem_cons_self
    have rest := ih fun e he => h e (List.mem_cons_of_mem _ he)
    have gone : SMap.erase m k = m := by
      rw [erase_eq_filter, List.filter_eq_self]
      exact fun e he => decide_eq_true (h e (List.mem_cons_of_mem _ he))
    by_cases hlt : k < a
    · simp [SMap.ins, hlt, SMap.erase, ha, gone]
    · simp [SMap.ins, hlt, SMap.erase, ha, rest]

/-- The later of two values set at a key is what the table holds. -/
theorem set_set {V : Type} [DecidableEq V] (d : V) (m : SMap V) (k : Nat) (v w : V) :
    SMap.set d (SMap.set d m k v) k w = SMap.set d m k w := by
  have e : SMap.erase (SMap.set d m k v) k = SMap.erase m k := by
    unfold SMap.set
    split
    · rw [erase_eq_filter, erase_eq_filter, List.filter_filter]
      simp
    · exact erase_ins (not_mem_erase m k) v
  rw [SMap.set, e, SMap.set]

theorem setHart_setHart (s : State) (h : BitVec 6) (v w : Hart) : (s.setHart h v).setHart h w = s.setHart h w := by
  simp only [State.setHart, set_set]

theorem updHart_setHart (s : State) (h : BitVec 6) (v : Hart) (f : Hart → Hart) :
    (s.setHart h v).updHart h f = s.setHart h (f v) := by
  rw [State.updHart, hart_setHart, setHart_setHart]

/-! ### Retired -/

/-- A hart with its instruction counted, unless counting is inhibited. -/
def counted (t : Hart) : Hart :=
  { t with csr := { t.csr with minstret := if wbit t.csr.mcountinhibit 2 then t.csr.minstret else t.csr.minstret + 1 } }

theorem retired_eq_counted (n : Nat) (t : Hart) :
    Safety.retired n t = counted { t with pc := t.pc + BitVec.ofNat 64 n } := rfl

theorem counted_eq_ite (t : Hart) : counted t =
    if wbit t.csr.mcountinhibit 2 then t else { t with csr := { t.csr with minstret := t.csr.minstret + 1 } } := by
  unfold counted
  split <;> rfl

theorem countRetired_eq (s : State) (h : BitVec 6) : countRetired s h = s.setHart h (counted (s.hart h)) :=
  congrArg (s.setHart h) (counted_eq_ite _).symm

theorem countRetired_setHart (s : State) (h : BitVec 6) (v : Hart) :
    countRetired (s.setHart h v) h = s.setHart h (counted v) := by
  rw [countRetired_eq, hart_setHart, setHart_setHart]

theorem settle_retire (s : State) (h : BitVec 6) (n : Nat) (f : Hart → Hart) :
    (retire s h n f).settle h = s.setHart h (Safety.retired n (f (s.hart h))) :=
  countRetired_setHart ..

theorem settle_done_updHart (s : State) (h : BitVec 6) (f : Hart → Hart) :
    (HRes.done (s.updHart h f)).settle h = s.setHart h (counted (f (s.hart h))) :=
  countRetired_setHart ..

/-! ### Trapped into machine mode -/

/-- A hart after a trap that it takes in machine mode. -/
def machineTrapped (t : Hart) (intr : Bool) (code : Nat) (tval : W64) : Hart :=
  { t with
    lastCode := BitVec.ofNat 7 code, lastIntr := intr, state := .running, priv := .M, pc := vector t.csr.mtvec intr code
    csr := { t.csr with
      mepc := t.pc, mcause := causeWord intr code, mtval := tval
      mstatus := setFld (setFld (setFld t.csr.mstatus 7 1 (fld t.csr.mstatus 3 1)) 3 1 0) 11 2 t.priv.num } }

theorem trap_eq_machineTrapped {t : Hart} {intr : Bool} {code : Nat}
    (h : t.priv = .M ∨ wbit (if intr then t.csr.mideleg else t.csr.medeleg) code = false) (tval : W64) :
    t.trap intr code tval = machineTrapped t intr code tval := by
  have stays : (t.priv != .M && wbit (if intr then t.csr.mideleg else t.csr.medeleg) code) = false := by
    rcases h with h | h <;> simp [h]
  unfold Hart.trap
  dsimp only
  rw [if_neg (by rw [stays]; decide)]
  rfl

theorem hart_takeTrap {u : State} {h : BitVec 6} {k : Hart} {intr : Bool} {code : Nat} (hk : u.hart h = k)
    (hm : k.priv = .M ∨ wbit (if intr then k.csr.mideleg else k.csr.medeleg) code = false) (tval : W64) :
    (takeTrap u h intr code tval).hart h = machineTrapped k intr code tval := by
  rw [← trap_eq_machineTrapped hm, ← hk]
  exact hart_updHart (s := u) h fun x => x.trap intr code tval

/-! ### Run -/

/-- A ready hart runs its instruction. -/
theorem hartRun_ready {s : State} {h : BitVec 6} (r : Safety.HartReady s h) (f : State → HRes) :
    hartRun s h f = (f (drew s)).settle h := by
  unfold hartRun
  simp only [r.present, r.ready, r.runs, r.calm, Bool.not_true, Bool.or_self]
  rfl

end Sys2Proof.Laws
end

-- ==== HartRows ====
section
/-!
O42: the rows of the harts (09 R247 to R250; 10 R266, R268, R271, R272, R274, R276; logs 48, 67).
-/
namespace Sys2Proof.Laws

open Sys2Proof.Machine

/-! ### The instruction at the pc (R266) -/

section
variable {s s2 : State} {h : BitVec 6}

/-- What a hart's own instruction leaves when its fetch counted lines alone and it then set the hart. -/
theorem onlyHart_of_count (c : OnlyCount (drew s) s2) (u : Hart) {i : Instr} (run : exec i s = .next (s2.setHart h u)) :
    ∃ t, exec i s = .next t ∧ t.hart h = u ∧ Safety.OnlyHart h { s with decoded := t.decoded } t := by
  refine ⟨_, run, hart_setHart h u, ?_, fun g n => (hart_setHart_of_ne u n).trans (by rw [c]; rfl)⟩
  rw [c]
  rfl

theorem rvInstr_of_fetch {s1 s2 : State} {lo hi : Nat} (f1 : fetchHalf s h (s.hart h).pc = (s1, .inl lo))
    (f2 : fetchHalf s1 h ((s.hart h).pc + 2) = (s2, .inl hi)) (h3 : lo % 4 = 3) :
    rvInstr s h = rvExec s2 h (lo + hi * 65536) 4 (lo + hi * 65536) := by
  simp only [rvInstr, f1, f2, h3, if_true]

theorem rvExec_op {w : Nat} {v : W64} (hw : w % 128 = 0x33)
    (hv : rvOp (nfld w 25 7) (nfld w 12 3) ((s.hart h).xr (nfld w 15 5)) ((s.hart h).xr (nfld w 20 5)) = some v)
    (o : Nat) :
    rvExec s h w 4 o = retire s h 4 fun t => t.setX (nfld w 7 5) v := by
  simp only [rvExec, hw, hv]

theorem rvExec_opImm {w : Nat} {v : W64} (hw : w % 128 = 0x13)
    (hv : rvOpImm w ((s.hart h).xr (nfld w 15 5)) (immI w) = some v) (o : Nat) :
    rvExec s h w 4 o = retire s h 4 fun t => t.setX (nfld w 7 5) v := by
  simp only [rvExec, hw, hv]

theorem rvExec_jal {w : Nat} (hw : w % 128 = 0x6F) (o : Nat) :
    rvExec s h w 4 o = .done (s.updHart h fun t =>
      { t.setX (nfld w 7 5) (t.pc + BitVec.ofNat 64 4) with pc := (s.hart h).pc + immJ w }) := by
  simp only [rvExec, hw]

theorem rvExec_branch {w : Nat} {c : Bool} (hw : w % 128 = 0x63)
    (hc : rvBranch (nfld w 12 3) ((s.hart h).xr (nfld w 15 5)) ((s.hart h).xr (nfld w 20 5)) = some c) (o : Nat) :
    rvExec s h w 4 o = .done (s.updHart h fun t => { t with pc := t.pc + if c then immB w else 4 }) := by
  cases c <;> simp only [rvExec, hw, hc] <;> rfl

theorem rvExec_fence {w : Nat} (hw : w % 128 = 0x0F) (h3 : nfld w 12 3 = 0) (o : Nat) :
    rvExec s h w 4 o = rvFence s h w := by
  simp only [rvExec, hw, h3, if_true]

theorem storeFault_none (h0 : (s.hart h).stFault = none) : storeFault s h = none := by
  rw [storeFault, h0]
  rfl

/-- A FENCE with nothing to report and nothing to wait for retires once the buffer is empty (R249, R272). -/
theorem rvFence_retires {w : Nat} {sd : State} (hd : drainCore s (coreOf h) = sd) (hs : (sd.hart h).stFault = none)
    (ha : (sd.hart h).apFault = none) (hw : nfld w 26 2 = 0 ∨ (sd.hart h).apStores = []) :
    rvFence s h w = retire sd h 4 id := by
  have free : (nfld w 26 2 != 0 && !(sd.hart h).apStores.isEmpty) = false := by
    rcases hw with hw | hw <;> simp [hw]
  simp only [rvFence, hd, storeFault_none hs, ha, free]
  rfl

end

/-! ### The aperture (R247 to R249) -/

section
variable {s : State} {h : BitVec 6} {a : ApReq}

/-- The slot of the aperture map that an access goes through, and the node that it names. -/
def apEntry (s : State) (a : ApReq) : W64 := s.apt.get 0 ((a.pa - apBase) >>> 36)
def apNode (s : State) (a : ApReq) : NodeId := BitVec.ofNat 20 (fld (apEntry s a) 0 20)

/-- A slot allows an access: it is valid, it may be written where the access writes, its node is a member of its hedge,
and the access has a pan operation. -/
structure ApAllows (s : State) (a : ApReq) : Prop where
  valid : wbit (apEntry s a) 56 = true
  member : hedgeMember s (fld (apEntry s a) 40 16) (apNode s a) = true
  writes : a.kind ≠ .load → wbit (apEntry s a) 57 = true
  plain : a.kind ≠ .lrsc
  pan : ∀ o, a.kind = .amo o → (apAmo o).isSome = true

/-- The frame of an access with its own number, opcode and data. -/
def apFrame (s : State) (h : BitVec 6) (a : ApReq) (no : Nat) (op : Byte) (sub fmt : Nat) (length : Option Nat)
    (olds : Bool) (bs : List Byte) : OutFrame :=
  { frame := mkFrame s { opcode := op, dst := apNode s a, hedge := fld (apEntry s a) 40 16
                         offset := fld (apEntry s a) 20 20 * 2 ^ 36 + (a.pa - apBase) % 2 ^ 36, subop := sub, fmt := fmt
                         length := length, last := true, data := bs, olds := olds
                         opArg := epochArg s (fld (apEntry s a) 40 16) }
    org := .hart h no, pri := apPri s (apNode s a) }

/-- The hart that waits on an access. -/
def apWaits (s : State) (h : BitVec 6) (a : ApReq) : Hart :=
  { s.hart h with
    state := .switched
    ap := some { kind := a.kind, size := a.size, addr := a.va, rd := a.rd, node := apNode s a, vec := a.vec, fp := a.fp
                 uns := a.uns, len := a.len } }

variable (ha : (s.hart h).apFault = none) (h0 : a.size ≠ 0) (hm : a.pa % a.size = 0)
include ha h0 hm

theorem apAccess_store (ok : ApAllows s a) (hk : a.kind = .store) (room : (s.hart h).apStores.length < 16) :
    apAccess s h a =
    retire (enqueue (s.setHart h { (s.hart h).svEnd a.vec with
        apStores := (s.hart h).apStores ++ [((s.hart h).apNext, a.va, apNode s a)], apNext := (s.hart h).apNext + 1 })
      (apFrame s h a (s.hart h).apNext oPut 0 0 none false (leBytes a.size a.data.toNat))) h a.len id := by
  obtain ⟨valid, member, writes, -, -⟩ := ok
  have write := writes (by simp [hk])
  simp only [apEntry, apNode] at valid member write
  have hz : ¬(a.size = 0 ∨ a.pa % a.size ≠ 0) := by simp [h0, hm]
  simp only [apAccess, hk, ha, hz, valid, member, write, not_le.2 room, if_true, if_false]
  rfl

variable (hs : (s.hart h).stFault = none)
include hs

theorem apAccess_load (ok : ApAllows s a) (hk : a.kind = .load) : apAccess s h a =
    .wait (enqueue (s.setHart h (apWaits s h a)) (apFrame s h a 0 oGetReq 0 0 (some a.size) false [])) := by
  obtain ⟨valid, member, -, -, -⟩ := ok
  simp only [apEntry, apNode] at valid member
  have hz : ¬(a.size = 0 ∨ a.pa % a.size ≠ 0) := by simp [h0, hm]
  simp only [apAccess, apWaits, hk, storeFault_none hs, ha, hz, valid, member, if_false, reduceCtorEq]
  rfl

theorem apAccess_amo (ok : ApAllows s a) {o : AmoOp} {op : Nat} (hk : a.kind = .amo o) (ho : apAmo o = some op) :
    apAccess s h a = .wait (enqueue (s.setHart h (apWaits s h a)) (apFrame s h a 0 oAtomic op
      (if a.size = 8 then 12 else 11) none true (leBytes a.size a.data.toNat))) := by
  obtain ⟨valid, member, writes, -, -⟩ := ok
  have write := writes (by simp [hk])
  simp only [apEntry, apNode] at valid member write
  have hz : ¬(a.size = 0 ∨ a.pa % a.size ≠ 0) := by simp [h0, hm]
  simp only [apAccess, apWaits, hk, storeFault_none hs, ha, hz, valid, member, write, ho, if_false, reduceCtorEq]
  rfl

theorem apAccess_refused (no : ¬ApAllows s a) : apAccess s h a = .trap s (if a.kind = .load then 5 else 7) a.va := by
  have hz : ¬(a.size = 0 ∨ a.pa % a.size ≠ 0) := by simp [h0, hm]
  have refuses : (!wbit (apEntry s a) 56 || (a.kind != .load && !wbit (apEntry s a) 57) ||
      !hedgeMember s (fld (apEntry s a) 40 16) (apNode s a) ||
      (match a.kind with | .amo o => apAmo o | _ => some 0).isNone || a.kind == .lrsc) = true := by
    by_contra hn
    simp only [Bool.or_eq_true, not_or, Bool.not_eq_true, Bool.not_eq_false', Bool.and_eq_false_iff,
      bne_eq_false_iff_eq, beq_eq_false_iff_ne] at hn
    obtain ⟨⟨⟨⟨valid, writes⟩, member⟩, pan⟩, plain⟩ := hn
    refine no ⟨valid, member, fun hl => writes.resolve_left hl, plain, fun o ho => ?_⟩
    simpa [ho] using pan
  simp only [apEntry, apNode] at refuses
  cases hk : a.kind <;> simp only [hk] at refuses <;>
    simp only [apAccess, hk, storeFault_none hs, ha, hz, if_false, reduceCtorEq, if_true, if_pos refuses]

end

section
variable {s : State} {h : BitVec 6}

/-- The request that the row of an aperture access makes. -/
def apReq (kind : ApKind) (size : Nat) (addr : W64) (data : W128) (rd : BitVec 5) : ApReq :=
  { kind := kind, size := size, va := addr, pa := addr.toNat, data := data, rd := rd, vec := size == 16 }

theorem apSizeOk_pos {kind : ApKind} {size : Nat} (ok : apSizeOk kind size = true) : size ≠ 0 := by
  rintro rfl
  cases kind <;> simp [apSizeOk] at ok

theorem exec_apertureAccess (r : Safety.HartReady s h) {kind : ApKind} {size : Nat} {addr : W64}
    (inside : inAperture addr.toNat = true) (ok : apSizeOk kind size = true) (sv : size = 16 → svOn s h = true)
    (data : W128) (rd : BitVec 5) : exec (.apertureAccess h kind size addr data rd) s =
    .next ((apAccess (drew s) h (apReq kind size addr data rd)).settle h) := by
  have vec : ¬(size == 16 && !svOn (drew s) h) = true := by
    by_cases e : size = 16
    · have on : svOn (drew s) h = true := sv e
      simp [on]
    · simp [e]
  refine (congrArg Host.Outcome.next (if_pos (by rw [inside, ok]; rfl))).trans ?_
  rw [hartRun_ready r, if_neg vec]
  rfl

/-- An access that waits has sent its frame. -/
theorem sends_waiting {i : Instr} {u : Hart} {o : OutFrame} 
    (run : exec i s = .next (enqueue ((drew s).setHart h u) o)) :
    ∃ t, exec i s = .next t ∧ t.fab = { s.fab with ready := s.fab.ready ++ [o] } ∧ t.hart h = u ∧
      (∀ g, g ≠ h → t.hart g = s.hart g) ∧ t = { s with fab := t.fab, harts := t.harts, free := s.free + 1 } :=
  ⟨_, run, rfl, hart_setHart (s := drew s) h u, fun _ n => hart_setHart_of_ne (s := drew s) u n, rfl⟩

/-- An access that retires has sent its frame too. -/
theorem settle_sent (s : State) (h : BitVec 6) (n : Nat) (u : Hart) (o : OutFrame) :
    (retire (enqueue (s.setHart h u) o) h n id).settle h = enqueue (s.setHart h (Safety.retired n u)) o := by
  have hart : (enqueue (s.setHart h u) o).hart h = u := hart_setHart h u
  rw [settle_retire, hart]
  exact congrArg (fun t => enqueue t o) (setHart_setHart s h u _)

end

/-! ### AMOs (R272, R274) -/

section
variable {s : State} {h : BitVec 6}

theorem drained_wrN (c : Safety.Clean s) (a : Nat) (l : List Byte) (w : Option (BitVec 6)) :
    Drained s (wrN s a l w) ∧ (wrN s a l w).wcb = s.wcb := by
  have f := wrN_frame c.copied a l w
  have clean := lineFault_wrN c.lines c.copied a l w
  refine ⟨⟨?_, fun g => hart_wrN c.copied a l w g⟩, by rw [f]⟩
  rw [f, clean]
  simp only [c.lines]

theorem OnlyCount.hart {t : State} (k : OnlyCount s t) (h : BitVec 6) : t.hart h = s.hart h := by
  rw [k]
  rfl

theorem OnlyCount.clean {t : State} (k : OnlyCount s t) (c : Safety.Clean s) : Safety.Clean t := by
  rw [k]
  exact ⟨c.lines, c.copied⟩

theorem OnlyCount.drained {t : State} (k : OnlyCount s t) : Drained s t := by
  obtain ⟨d, rfl⟩ : ∃ d, t = { s with decoded := d } := ⟨_, k⟩
  exact ⟨rfl, fun _ => rfl⟩

theorem setX_resv (t : Hart) (r : Nat) (v : W64) (l : Option Nat) :
    ({ t with resv := l } : Hart).setX r v = { t.setX r v with resv := l } := by
  unfold Hart.setX
  split <;> rfl

/-- An AMO that meets no fault writes the new value and loads the old one. -/
theorem hartAmo_retires {o : AmoOp} {n rd rs1 rs2 pa : Nat} {sd u : State} (hd : drainCore s (coreOf h) = sd)
    (hs : (sd.hart h).stFault = none) (hm : ((s.hart h).xr rs1).toNat % n = 0)
    (ht : Machine.translate sd h .store ((s.hart h).xr rs1) = (u, .inl pa)) (hi : inAperture pa = false)
    (hp : amoPlace u pa = true) (hl : u.lineFault = []) :
    hartAmo s h o n rd rs1 rs2 = retire
      (wrW (countReads u (partialRuns [⟨pa, n⟩])) pa n
        (amoNew o n (rdW u pa n) (((s.hart h).xr rs2).toNat % 2 ^ (8 * n))) (some h)) h 4
      fun t => t.putLoad n rd false false (rdW u pa n) := by
  simp only [hartAmo, hd, storeFault_none hs, hm, ht, hi, hp, touch_clean hl]
  rfl

end

/-! ### The response to an access (R249, R250) -/

section
variable {s : State} {h : BitVec 6} {w : ApWait}

theorem hartAnswer_answered (hw : (s.hart h).ap = some w) (v : W128) : hartAnswer s h .ok v =
    let k0 : Hart := { s.hart h with ap := none, state := .running }
    s.setHart h (Safety.retired w.len (if w.vec then (k0.setV w.rd.toNat v).setIndex 0
      else k0.putLoad w.size w.rd.toNat w.fp w.uns (v.toNat % 2 ^ (8 * w.size)))) := by
  simp only [hartAnswer, hw]
  exact countRetired_setHart ..

/-- A hart told of an access that failed. -/
def toldFailed (k : Hart) (w : ApWait) (st : Status) : Hart :=
  { ({ k with ap := none, state := .running } : Hart).svEnd w.vec with rstat := rstatus st (apOpcode w.kind) w.node }

theorem hartAnswer_failed (hw : (s.hart h).ap = some w) {st : Status} (hst : st ≠ .ok) (v : W128) :
    hartAnswer s h st v = takeTrap (hartRecord (s.setHart h (toldFailed (s.hart h) w st)) h st (apCode w.kind) w.addr) h
      false (apCode w.kind) w.addr := by
  simp only [hartAnswer, hw, if_neg hst]
  rfl

theorem svEnd_frame (t : Hart) (vec : Bool) : t.svEnd vec =
    { t with svindex := (t.svEnd vec).svindex, csr := { t.csr with mstatus := (t.svEnd vec).csr.mstatus } } := by
  unfold Hart.svEnd Hart.setIndex
  split
  · split <;> rfl
  · rfl

theorem recorded_takeTrap {i : Bool} {n : Nat} {v : W64} {c : ErrCode} :
    Safety.recorded (takeTrap s h i n v) c ↔ Safety.recorded s c := Iff.rfl

theorem hart_hartRecord (s : State) (h g : BitVec 6) (st : Status) (c : Nat) (va : W64) :
    (hartRecord s h st c va).hart g = s.hart g := by
  simp [hartRecord, State.hart]

end

/-! ### Interrupts (R276) -/

section
variable {s : State} {h : BitVec 6}

theorem serveIntr_taken (hr : (s.hart h).state = .running) (hm : (s.hart h).missWait = false) {i : Nat}
    (hi : pendingIntr s h = some i) : serveIntr s h = takeTrap s h true i 0 := by
  simp [serveIntr, hr, hm, hi]

theorem serveIntr_none (hr : (s.hart h).state = .running) (hi : pendingIntr s h = none) : serveIntr s h = s := by
  simp [serveIntr, hr, hi]

theorem pendingIntr_setState (s : State) (h : BitVec 6) (x : HartState) :
    pendingIntr (s.setHart h { s.hart h with state := x }) h = pendingIntr s h := by
  simp only [pendingIntr, mipOf, hart_setHart]
  rfl

theorem serveIntr_woken (hr : (s.hart h).state = .wfi) (hw : wakes s h = true) (hi : pendingIntr s h = none) :
    serveIntr s h = s.setHart h { s.hart h with state := .running } := by
  have calm := (pendingIntr_setState s h .running).trans hi
  simp only [serveIntr, hr, hw, State.updHart, calm, true_and, if_true]
  split <;> rfl

/-- An interrupt that is not delegated goes to machine mode. -/
theorem takeTrap_interrupt {u : State} {k : Hart} (hk : u.hart h = k) {n : Nat}
    (hm : k.priv = .M ∨ wbit k.csr.mideleg n = false) : let t := takeTrap u h true n 0
    (t.hart h).priv = .M ∧ (t.hart h).csr.mepc = k.pc ∧ (t.hart h).csr.mcause = BitVec.ofNat 64 (n + 2 ^ 63) ∧
    (t.hart h).csr.mtval = 0 ∧
    (t.hart h).pc = (k.csr.mtvec &&& ~~~3#64) + (if k.csr.mtvec &&& 3 = 1 then BitVec.ofNat 64 (4 * n) else 0) ∧
    (t.hart h).x = k.x ∧ t = u.setHart h (t.hart h) := by
  intro t
  have hart : t.hart h = machineTrapped k true n 0 := hart_takeTrap (intr := true) hk hm 0
  refine ⟨by rw [hart]; rfl, by rw [hart]; rfl, by rw [hart]; rfl, by rw [hart]; rfl, ?_, by rw [hart]; rfl, ?_⟩
  · rw [hart]
    simp [machineTrapped, vector]
  · exact congrArg (u.setHart h) (hart_updHart (s := u) h fun x => x.trap true n 0).symm

end

/-! ### The rows -/

section
variable {s : State} {h : BitVec 6}

theorem exec_hartInstruction (r : Safety.HartReady s h) :
    exec (.hartInstruction h false) s = .next ((rvInstr (drew s) h).settle h) :=
  congrArg Host.Outcome.next (hartRun_ready r fun s => rvInstr s h)

/-- An instruction of four bytes whose fetch meets no fault is executed on a state in which lines alone have been
counted. -/
theorem exec_fetched (r : Safety.HartReady s h) (cl : Safety.Clean s) {lo hi : Nat}
    (f1 : (fetchHalf (drew s) h (s.hart h).pc).2 = .inl lo)
    (f2 : (fetchHalf (fetchHalf (drew s) h (s.hart h).pc).1 h ((s.hart h).pc + 2)).2 = .inl hi) (h3 : lo % 4 = 3) :
    let s2 := (fetchHalf (fetchHalf (drew s) h (s.hart h).pc).1 h ((s.hart h).pc + 2)).1
    OnlyCount (drew s) s2 ∧ exec (.hartInstruction h false) s =
      .next ((rvExec s2 h (lo + hi * 65536) 4 (lo + hi * 65536)).settle h) := by
  intro s2
  have c1 := onlyCount_fetchHalf (s := drew s) cl.lines h _ f1
  refine ⟨c1.trans (onlyCount_fetchHalf (c1.clean ⟨cl.lines, cl.copied⟩).lines h _ f2), ?_⟩
  rw [exec_hartInstruction r, rvInstr_of_fetch (s := drew s) (Prod.ext rfl f1) (Prod.ext rfl f2) h3]
  rfl

/-- What the row of an AMO leaves (R272, R274). -/
theorem exec_hartAmo_leaves (r : Safety.HartReady s h) (cl : Safety.Clean s) (hs : (s.hart h).stFault = none)
    (op : AmoOp) (dbl : Bool) (rd rs1 rs2 : BitVec 5) {pa n : Nat} (hn : n = if dbl then 8 else 4)
    (hm : ((s.hart h).xr rs1.toNat).toNat % n = 0) :
    let sd := drainCore (drew s) (coreOf h)
    let u := (Machine.translate sd h .store ((s.hart h).xr rs1.toNat)).1
    (Machine.translate sd h .store ((s.hart h).xr rs1.toNat)).2 = .inl pa → inAperture pa = false →
      amoPlace u pa = true →
    let old := rdW u pa n
    let z := wrW u pa n (amoNew op n old (((s.hart h).xr rs2.toNat).toNat % 2 ^ (8 * n))) (some h)
    ∃ t, exec (.hartAmo h op dbl rd rs1 rs2) s = .next t ∧ t.mem = z.mem ∧ t.host = z.host ∧
      t.hart h = { Safety.retired 4 ((s.hart h).setX rd.toNat (BitVec.ofInt 64 (sx (8 * n) old))) with
        resv := (t.hart h).resv } ∧
      (∀ g, g ≠ h → t.hart g = { s.hart g with resv := (t.hart g).resv }) ∧ t.wcb = sd.wcb ∧
      t = { s with mem := t.mem, host := t.host, harts := t.harts, wcb := t.wcb, decoded := t.decoded
                   free := s.free + 1 } := by
  intro sd u ht hi hp old z
  have cd : Safety.Clean (drew s) := ⟨cl.lines, cl.copied⟩
  obtain ⟨D, -⟩ := drained_drainCore cd (coreOf h)
  have clean := D.clean cd
  have C : OnlyCount sd u := onlyCount_translate clean.lines h .store _
  let v := countReads u (partialRuns [⟨pa, n⟩])
  have toU : Drained (drew s) u := D.trans C.drained
  have toV : Drained (drew s) v := toU.trans (onlyCount_reads u _).drained
  have cv := toV.clean cd
  let new := amoNew op n old (((s.hart h).xr rs2.toNat).toNat % 2 ^ (8 * n))
  let x := wrW v pa n new (some h)
  obtain ⟨W, wcb⟩ := drained_wrN cv pa (leBytes n new) (some h)
  have toX : Drained (drew s) x := toV.trans W
  have same : x = withCounts z v.decoded u.free := wrN_counts (toU.clean cd).copied v.decoded u.free pa _ (some h)
  have sdFault : (sd.hart h).stFault = none := by
    rw [D.harts h]
    exact hs
  have run : exec (.hartAmo h op dbl rd rs1 rs2) s =
      .next (x.setHart h (Safety.retired 4 ((x.hart h).putLoad n rd.toNat false false old))) := by
    refine congrArg Host.Outcome.next ((hartRun_ready r _).trans ?_)
    rw [← hn, hartAmo_retires (s := drew s) rfl sdFault hm (Prod.ext rfl ht) hi hp cv.lines]
    exact settle_retire x h 4 fun t => t.putLoad n rd.toNat false false old
  have hart : (x.setHart h (Safety.retired 4 ((x.hart h).putLoad n rd.toNat false false old))).hart h =
      { Safety.retired 4 ((s.hart h).setX rd.toNat (BitVec.ofInt 64 (sx (8 * n) old))) with
        resv := (x.hart h).resv } := by
    rw [hart_setHart, toX.harts h]
    exact congrArg (Safety.retired 4) (setX_resv _ _ _ _)
  refine ⟨_, run, ?_, ?_, ?_, fun g hg => ?_, ?_, ?_⟩
  · rw [setHart_mem, same]
  · rw [setHart_host, same]
  · rw [hart]
  · rw [hart_setHart_of_ne _ hg]
    exact toX.harts g
  · refine wcb.trans ?_
    show u.wcb = sd.wcb
    rw [C]
  · obtain ⟨m, ho, ha, wc, d, e⟩ : ∃ m ho ha wc d, x = { drew s with
        mem := m, host := ho, harts := ha, wcb := wc, decoded := d } := ⟨_, _, _, _, _, toX.rest⟩
    rw [e]
    rfl

/-- What the word of an instruction that is no memory access leaves, once it has been fetched (R266, R272). -/
theorem exec_word_leaves (cl : Safety.Clean s) {s2 : State} {w : Nat} (c : OnlyCount (drew s) s2)
    (run : exec (.hartInstruction h false) s = .next ((rvExec s2 h w 4 w).settle h)) :
    let k := s.hart h
    let only := fun (u : Hart) => ∃ t, exec (.hartInstruction h false) s = .next t ∧ t.hart h = u ∧
      Safety.OnlyHart h { s with decoded := t.decoded } t
    let x := k.xr (nfld w 15 5)
    let y := k.xr (nfld w 20 5)
    (∀ v, (w % 128 = 0x33 ∧ rvOp (nfld w 25 7) (nfld w 12 3) x y = some v ∨
        w % 128 = 0x13 ∧ rvOpImm w x (immI w) = some v) → only (Safety.retired 4 (k.setX (nfld w 7 5) v))) ∧
    (∀ c, w % 128 = 0x63 → rvBranch (nfld w 12 3) x y = some c →
      only { Safety.retired 4 k with pc := k.pc + if c then immB w else 4 }) ∧
    (w % 128 = 0x6F → only { Safety.retired 4 (k.setX (nfld w 7 5) (k.pc + 4)) with pc := k.pc + immJ w }) ∧
    (w % 128 = 0x0F → nfld w 12 3 = 0 → k.stFault = none → k.apFault = none → nfld w 26 2 = 0 ∨ k.apStores = [] →
      let sd := drainCore s2 (coreOf h)
      sd.wcb.get [] (coreOf h) = [] ∧
        exec (.hartInstruction h false) s = .next (sd.setHart h (Safety.retired 4 (sd.hart h)))) := by
  intro k only x y
  have hart : s2.hart h = k := c.hart h
  have done : ∀ f : Hart → Hart, rvExec s2 h w 4 w = .done (s2.updHart h f) → only (counted (f k)) := by
    intro f hf
    refine onlyHart_of_count c _ (run.trans ?_)
    rw [hf, settle_done_updHart, hart]
  refine ⟨fun v hv => ?op, fun t hw ht => ?branch, fun hw => ?jal, fun hw hf hs ha hb => ?fence⟩
  case op =>
    refine done (fun t => { t.setX (nfld w 7 5) v with pc := (t.setX (nfld w 7 5) v).pc + BitVec.ofNat 64 4 }) ?_
    rcases hv with ⟨hw, hv⟩ | ⟨hw, hv⟩
    · exact rvExec_op hw (by rw [hart]; exact hv) w
    · exact rvExec_opImm hw (by rw [hart]; exact hv) w
  case branch => exact done _ (rvExec_branch hw (by rw [hart]; exact ht) w)
  case jal =>
    have jump := done _ (rvExec_jal hw w)
    rw [hart] at jump
    exact jump
  case fence =>
    intro sd
    obtain ⟨D, empty⟩ := drained_drainCore (s := s2) (c.clean ⟨cl.lines, cl.copied⟩) (coreOf h)
    have kept : sd.hart h = { k with resv := (sd.hart h).resv } := by
      rw [← hart]
      exact D.harts h
    have step : (rvExec s2 h w 4 w).settle h = sd.setHart h (Safety.retired 4 (sd.hart h)) := by
      rw [rvExec_fence hw hf, rvFence_retires (sd := sd) rfl (by rw [kept]; exact hs) (by rw [kept]; exact ha)
        (by rw [kept]; exact hb), settle_retire, id_eq]
    exact ⟨empty, run.trans (congrArg Host.Outcome.next step)⟩

theorem exec_timerInterrupt (due : (s.hart h).tcmp.toNat ≤ stamp s) :
    exec (.timerInterrupt h) s = .next (serveIntr s h) := congrArg Host.Outcome.next (if_pos due)

theorem exec_msip (present : hartPresent s h = true) (v : Bool) : exec (.msip h v) s =
    .next (if v then serveIntr (s.setHart h { s.hart h with msip := v }) h
      else s.setHart h { s.hart h with msip := v }) :=
  congrArg Host.Outcome.next (if_pos present)

theorem exec_fcoHartTcmp (present : hartPresent s h = true) (v : W64) :
    exec (.fcoHartTcmp h v) s = .next (s.setHart h { s.hart h with tcmp := v }) :=
  congrArg Host.Outcome.next (if_pos present)

/-- An access to the aperture under a slot that does not allow it takes an access fault. -/
theorem exec_apertureAccess_refused (r : Safety.HartReady s h) {kind : ApKind} {size : Nat} {addr : W64}
    (inside : inAperture addr.toNat = true) (ok : apSizeOk kind size = true) (sv : size = 16 → svOn s h = true)
    (hs : (s.hart h).stFault = none) (ha : (s.hart h).apFault = none) (hm : addr.toNat % size = 0) (data : W128)
    (rd : BitVec 5) (no : ¬ApAllows (drew s) (apReq kind size addr data rd)) :
    exec (.apertureAccess h kind size addr data rd) s =
      .next (takeTrap (drew s) h false (if kind = .load then 5 else 7) addr) := by
  rw [exec_apertureAccess r inside ok sv, apAccess_refused (s := drew s) ha (apSizeOk_pos ok) hm hs no]
  rfl

/-- The answer to an access that waits: with OK the hart goes on with the value, with another status it takes the fault
(R249, R250). -/
theorem exec_apertureResponse_leaves {w : ApWait} (hw : (s.hart h).ap = some w) (data : W128) :
    let k := s.hart h
    (∃ t, exec (.apertureResponse h 0 data) s = .next t ∧ (∀ g, g ≠ h → t.hart g = s.hart g) ∧
      t = { s with harts := t.harts } ∧
      let k0 : Hart := { k with ap := none, state := .running }
      (w.vec = false → w.fp = false →
        t.hart h = Safety.retired w.len (k0.setX w.rd.toNat
          (extend w.size false w.uns (data.toNat % 2 ^ (8 * w.size))))) ∧
      (w.vec = true → t.hart h = Safety.retired w.len ((k0.setV w.rd.toNat data).setIndex 0)) ∧
      (w.vec = false → w.fp = true →
        t.hart h = Safety.retired w.len (k0.setF w.rd.toNat
          (extend w.size true w.uns (data.toNat % 2 ^ (8 * w.size)))))) ∧
    (∀ st : Byte, Status.ofCode st.toNat ≠ .ok → k.priv = .M → ∃ t, exec (.apertureResponse h st data) s = .next t ∧
      Safety.recorded t .fcoAccess ∧ (t.hart h).ap = none ∧ (t.hart h).csr.mepc = k.pc ∧
      (t.hart h).csr.mcause = (if w.kind = .load then 5 else 7) ∧ (t.hart h).csr.mtval = w.addr ∧
      (t.hart h).rstat = rstatus (Status.ofCode st.toNat) (apOpcode w.kind) w.node ∧
      (t.hart h).pc = k.csr.mtvec &&& ~~~3#64 ∧ (∀ g, g ≠ h → t.hart g = s.hart g) ∧
      t = { s with harts := t.harts, err := t.err, hold := t.hold, free := t.free }) := by
  intro k
  refine ⟨⟨_, congrArg Host.Outcome.next (hartAnswer_answered hw data), fun g n => hart_setHart_of_ne _ n, rfl,
    fun hv hf => ?_, fun hv => ?_, fun hv hf => ?_⟩, fun st hst hp => ?failed⟩
  · rw [hart_setHart, hv, hf]
    rfl
  · rw [hart_setHart, hv]
    rfl
  · rw [hart_setHart, hv, hf]
    rfl
  case failed =>
    let told := toldFailed k w (Status.ofCode st.toNat)
    let u := hartRecord (s.setHart h told) h (Status.ofCode st.toNat) (apCode w.kind) w.addr
    have e : told = { k with
        ap := none, state := .running, svindex := told.svindex, csr := { k.csr with mstatus := told.csr.mstatus }
        rstat := rstatus (Status.ofCode st.toNat) (apOpcode w.kind) w.node } := by
      simp only [told, toldFailed]
      rw [svEnd_frame]
    have mach : told.priv = .M := by
      rw [e]
      exact hp
    have hart : (takeTrap u h false (apCode w.kind) w.addr).hart h = machineTrapped told false (apCode w.kind) w.addr :=
      hart_takeTrap ((hart_hartRecord ..).trans (hart_setHart ..)) (.inl mach) w.addr
    have noted : Safety.recorded u .fcoAccess := recorded_record_above (by decide) _
    refine ⟨takeTrap u h false (apCode w.kind) w.addr, congrArg Host.Outcome.next (hartAnswer_failed hw hst data), ?_,
      ?_, ?_, ?_, ?_, ?_, ?_, fun g n => ?_, ?_⟩
    · exact recorded_takeTrap.2 noted
    · rw [hart, e]
      rfl
    · rw [hart, e]
      rfl
    · rw [hart]
      cases w.kind <;> rfl
    · rw [hart]
      rfl
    · rw [hart, e]
      rfl
    · rw [hart, e]
      simp [machineTrapped, vector]
    · exact (hart_updHart_of_ne (s := u) _ n).trans ((hart_hartRecord ..).trans (hart_setHart_of_ne _ n))
    · have f : u = { s.setHart h told with err := u.err, hold := u.hold, free := u.free } := record_frame _ _ _
      show u.updHart h _ = _
      rw [f]
      rfl

/-- Settles O42: each row is a use of the lemma about what it leaves. -/
theorem hartRowsComplete : Obligations.HartRowsComplete := by
  unfold Obligations.HartRowsComplete
  intro s h k only
  refine ⟨fun r => ⟨?word, ?amo, ?aperture⟩, ?miss, rfl, fun w data hw => exec_apertureResponse_leaves hw data,
    ?interrupts, ?map⟩
  case word =>
    intro lo hi cl s1 s2 f1 f2 h3
    obtain ⟨c, run⟩ := exec_fetched r cl f1 f2 h3
    exact exec_word_leaves cl c run
  case amo =>
    intro op dbl rd rs1 rs2 pa cl hs n va sd u hm ht hi hp
    exact exec_hartAmo_leaves r cl hs op dbl rd rs1 rs2 rfl hm ht hi hp
  case aperture =>
    intro kind size addr data rd inside ok sv hs ha hm off e node hedge allowed
    let a := apReq kind size addr data rd
    have entry : apEntry (drew s) a = e := congrArg (s.apt.get 0) (Nat.shiftRight_eq_div_pow _ _)
    have target : apNode (drew s) a = node := congrArg (fun x => BitVec.ofNat 20 (fld x 0 20)) entry
    have allows : allowed ↔ ApAllows (drew s) a :=
      ⟨fun ⟨valid, member, writes, plain, pan⟩ => ⟨by rw [entry]; exact valid, by rw [entry, target]; exact member,
          by rw [entry]; exact writes, plain, pan⟩,
        fun ⟨valid, member, writes, plain, pan⟩ => ⟨by rw [← entry]; exact valid, by
          rw [entry, target] at member
          exact member, by rw [← entry]; exact writes, plain, pan⟩⟩
    refine ⟨fun no => exec_apertureAccess_refused r inside ok sv hs ha hm data rd (mt allows.2 no), fun ok' => ?_⟩
    intro frame sends waits
    have ap := allows.1 ok'
    have size0 := apSizeOk_pos ok
    have run : ∀ res, apAccess (drew s) h a = res →
        exec (.apertureAccess h kind size addr data rd) s = .next (res.settle h) := fun res e =>
      (exec_apertureAccess r inside ok sv data rd).trans (by rw [← e])
    have framed : ∀ no op sub fmt length olds bs,
        frame no op sub fmt length olds bs = apFrame (drew s) h a no op sub fmt length olds bs := by
      intros
      simp only [apFrame, entry, target]
      rfl
    have waiting : waits = apWaits (drew s) h a := by
      simp only [apWaits, target]
      rfl
    refine ⟨fun hk => ?_, fun hk room => ?_, fun o op hk ho => ?_⟩
    · rw [framed, waiting]
      exact sends_waiting (run _ (apAccess_load (s := drew s) ha size0 hm hs ap hk))
    · rw [framed, ← target]
      have sent := run _ (apAccess_store (s := drew s) ha size0 hm ap hk room)
      rw [settle_sent] at sent
      exact sends_waiting sent
    · rw [framed, waiting]
      exact sends_waiting (run _ (apAccess_amo (s := drew s) ha size0 hm hs ap hk ho))
  case miss =>
    intro hr
    exact congrArg Host.Outcome.next (if_pos hr)
  case interrupts =>
    intro trapped
    refine ⟨?timer, ?software⟩
    case timer =>
      intro due hm
      refine ⟨fun hr hi hd => ⟨_,
        (exec_timerInterrupt due).trans (congrArg Host.Outcome.next (serveIntr_taken hr hm hi)),
        takeTrap_interrupt (u := s) rfl hd⟩, fun hw wk hi => ?_⟩
      exact (exec_timerInterrupt due).trans (congrArg Host.Outcome.next (serveIntr_woken hw wk hi))
    case software =>
      intro present
      refine ⟨by rw [exec_msip present, if_neg Bool.false_ne_true], ?_, exec_fcoHartTcmp present⟩
      intro u hr hm
      have hart : u.hart h = { k with msip := true } := hart_setHart ..
      have run : exec (.msip h true) s = .next (serveIntr u h) := by rw [exec_msip present, if_pos rfl]
      have runs : (u.hart h).state = .running := by rw [hart]; exact hr
      exact ⟨fun hi => run.trans (congrArg Host.Outcome.next (serveIntr_none runs hi)), fun hi hd =>
        ⟨_, run.trans (congrArg Host.Outcome.next (serveIntr_taken runs (by rw [hart]; exact hm) hi)),
          takeTrap_interrupt hart hd⟩⟩
  case map =>
    intro slot v
    refine ⟨fun who hw => ?_, fun hr hp hd => ?_⟩
    · have run : exec (.fcoApt who slot v) s =
          .next { s with apt := s.apt.set 0 slot.toNat (v &&& 0x03FF_FFFF_FFFF_FFFF) } := by
        rcases hw with rfl | ⟨rfl, hr, hp⟩
        · rfl
        · exact congrArg Host.Outcome.next ((if_neg (by simp [hr, k])).trans (if_pos hp))
      exact ⟨_, run, get_set_same .., fun n hn => get_set_other _ _ _ hn, rfl⟩
    · have run : exec (.fcoApt (.hart h) slot v) s = .next (takeTrap s h false 7 _) :=
        congrArg Host.Outcome.next ((if_neg (by simp [hr, k])).trans (if_neg hp))
      have hart := hart_takeTrap (u := s) (h := h) (intr := false) (code := 7) rfl (.inr hd)
        (BitVec.ofNat 64 (0x300_0000_0000 + (0x5_0000 + 8 * slot.toNat)))
      exact ⟨_, run, by rw [hart]; rfl, by rw [hart]; rfl, by rw [hart]; rfl, rfl⟩

end

end Sys2Proof.Laws
end

-- ==== FirmwareRestarts ====
section
/-!
O51: WATCHDOG_EXPIRY and RESTART_END (09 R261; 12 R311; 13 R334, R335; 14 R360; logs 19, 41).
-/
namespace Sys2Proof.Laws

open Sys2Proof.Machine

/-! ### The record of a C event in a log with room (R288) -/

theorem dropFirst_length_le {α : Type} (q : α → Bool) (l : List α) : (dropFirst q l).length ≤ l.length := by
  induction l with
  | nil => rfl
  | cons a l ih =>
    rw [dropFirst]
    split
    · exact Nat.le_succ _
    · exact Nat.succ_le_succ ih

/-- Trimming the log adds no record. -/
theorem trimC_length_le (l : List (ErrRec × Bool)) (r : ErrRec) : (trimC l r).1.length ≤ l.length := by
  have drop : (dropC l).length ≤ l.length := by
    unfold dropC
    split <;> exact dropFirst_length_le _ _
  unfold trimC makeRoom
  split
  · exact drop
  split
  · exact Nat.le_refl _
  split
  · exact drop
  split
  · exact dropFirst_length_le _ _
  · exact (List.length_drop ..).trans_le (Nat.sub_le ..)

theorem countedC_log (s : State) : (countedC s).err.log = s.err.log := by
  rw [countedC, worsen_err]
  rfl

theorem countSev_log (e : Errs) (v : Sev) : (countSev e v).log = e.log := by
  cases v <;> rfl

/-- With no coalescing window open, a C event enters the log and opens one. -/
theorem record_opens_window {s : State} {c : ErrCode} (hc : c.info.2.2 = .C) (h : s.err.coal = []) (a : EvArgs) :
    (record s c a).err.log = (pushRec (countedC s) (mkRec s c .C a)).err.log := by
  unfold record recordSev
  rw [hc, h]
  rfl

/-- A record above C leaves every other in a log with room. -/
theorem mem_log_pushRec {s : State} {r : ErrRec} (hr : (r.sev == .C) = false) (hl : s.err.log.length < logCap) :
    ∀ e ∈ s.err.log, e ∈ (pushRec s r).err.log := by
  have room : (trimC s.err.log r).1 = s.err.log := by
    unfold trimC makeRoom
    rw [hr, Bool.false_and, if_neg Bool.false_ne_true, if_pos hl]
  intro e he
  exact List.mem_append_left _ (room.symm ▸ he)

/-- An event above C enters a log with room, and no record leaves it. -/
theorem mem_log_record {s : State} {c : ErrCode} (hc : (c.info.2.2 == .C) = false) (hl : s.err.log.length < logCap)
    (a : EvArgs) : ∀ e ∈ s.err.log, e ∈ (record s c a).err.log := by
  let u := worsen (drew { s with err := countSev s.err c.info.2.2 }) c.info.2.2
  have log : u.err.log = s.err.log := (congrArg Errs.log (worsen_err ..)).trans (countSev_log ..)
  have pushed : record s c a = pushRec u (mkRec s c c.info.2.2 a) := by
    unfold record recordSev
    exact if_neg fun h => Bool.false_ne_true (hc.symm.trans (beq_iff_eq.2 h))
  intro e he
  rw [pushed]
  exact mem_log_pushRec (s := u) hc (log ▸ hl) e (log ▸ he)

/-! ### A processor begins its restart (R334) -/

/-- What a processor leaves that has begun its restart: it stands among those that restart, its record is in a log with
room for another, and cause 5 is set. -/
structure Restarts (n : Nat) (s u : State) : Prop where
  rest : u = { s with
    pwr := { s.pwr with restarting := n :: s.pwr.restarting }, err := u.err
    hold := { s.hold with worst := u.hold.worst, fatal := u.hold.fatal }, free := u.free
    host := { s.host with cause := u.host.cause, msix := u.host.msix, msixPend := u.host.msixPend } }
  cause : u.host.cause.toNat.testBit 5 = true
  noted : ∃ r ∈ u.err.log, r.1.code = .wdgRestart ∧ r.1.unit = n ∧ r.1.seq = s.err.seq
  room : u.err.log.length < 4096

/-- An event is noted in the log, the worst severity and the choices. -/
theorem record_notes (s : State) (c : ErrCode) (a : EvArgs) : ∃ e w x m,
    record s c a = { s with err := e, hold := { s.hold with worst := w, fatal := x }, free := m } := by
  have h := onlyNoted_record s c a
  unfold OnlyNoted at h
  rw [record_sec] at h
  exact ⟨_, _, _, _, h⟩

theorem beginRestart_restarts {s : State} (hc : s.err.coal = []) (hl : s.err.log.length < 4000) (n : Nat) :
    Restarts n s (beginRestart s n) := by
  let s0 : State := { s with pwr := { s.pwr with restarting := n :: s.pwr.restarting } }
  let a : EvArgs := { unitKind := 9, unit := n, detail := detailF n 0 0 }
  have log : (beginRestart s n).err.log = (pushRec (countedC s0) (mkRec s0 .wdgRestart .C a)).err.log :=
    record_opens_window (s := s0) rfl hc a
  refine ⟨?rest, cause_raise _ (by decide), ?noted, ?room⟩
  case rest =>
    obtain ⟨e, w, x, m, h⟩ := record_notes s0 .wdgRestart a
    have b : beginRestart s n = raise _ 5 := congrArg (raise · 5) h
    rw [b]
    rfl
  case noted =>
    rw [log]
    exact ⟨_, List.mem_append_right _ (List.mem_singleton.2 rfl), rfl, rfl, countedC_seq s0⟩
  case room =>
    rw [log]
    have le := trimC_length_le (countedC s0).err.log (mkRec s0 .wdgRestart .C a)
    rw [countedC_log] at le
    have one : (pushRec (countedC s0) (mkRec s0 .wdgRestart .C a)).err.log.length =
        (trimC (countedC s0).err.log (mkRec s0 .wdgRestart .C a)).1.length + 1 := List.length_append
    rw [one, countedC_log]
    have : s0.err.log.length < 4000 := hl
    omega

/-! ### An abandoned operation of the running job (R335) -/

theorem cause_raise_of (s : State) {i j : Nat} (h : s.host.cause.toNat.testBit i = true) :
    (raise s j).host.cause.toNat.testBit i = true := by
  simp only [raise, BitVec.toNat_or, Nat.testBit_or, h, Bool.true_or]

theorem cause_enterHolding_of {s : State} {i : Nat} (h : s.host.cause.toNat.testBit i = true) (v : Sev)
    (r : Option ErrRec) : (enterHolding s v r).host.cause.toNat.testBit i = true := by
  unfold enterHolding
  split
  · rw [cause_traceHw]
    exact cause_raise_of _ h
  · exact h

/-- What the loss of a processor's work leaves as it was: the cause bits that stand, the records of the log, and all but
some parts of the state. -/
structure Loses (u t : State) : Prop where
  cause : ∀ i, u.host.cause.toNat.testBit i = true → t.host.cause.toNat.testBit i = true
  log : ∀ e ∈ u.err.log, e ∈ t.err.log
  rest : t = { u with err := t.err, hold := t.hold, host := t.host, free := t.free, sec := t.sec, stk := t.stk
                      ckpt := t.ckpt, job := t.job, fab := t.fab }

theorem Loses.refl (u : State) : Loses u u := ⟨fun _ h => h, fun _ h => h, rfl⟩

/-- What an abandoned operation of the running job leaves: FW_STEP_TIMEOUT in the log, and the node in HOLDING at the
present boundary with cause 3 (R335). -/
structure TimesOut (u t : State) : Prop extends Loses u t where
  recorded : Safety.recorded t .fwStepTimeout
  holds : u.job.phase = .running → u.hold.state = .run →
    t.hold.state = .holding ∧ t.hold.atBoundary = true ∧ t.host.cause.toNat.testBit 3 = true
  others : t = { u with err := t.err, hold := t.hold, host := t.host, free := t.free }

/-- The record and the hold, and the boundary at which the node holds. -/
theorem stepTimeout_eq (u : State) (p : Nat) : ∃ a v h,
    let w := enterHolding (record u .fwStepTimeout a) .D v
    stepTimeout u p = { w with hold := h } ∧
      (w.hold.state = .holding → h.state = .holding ∧ h.atBoundary = true) := by
  let a : EvArgs := { unitKind := 9, unit := p, status := .timeout, detail := detailF p 0 0 }
  let v := record u .fwStepTimeout a
  let w := enterHolding v .D (lastRec v)
  by_cases hw : w.hold.state = .holding
  · exact ⟨a, lastRec v, { w.hold with atBoundary := true, stepPending := !w.job.risen }, if_pos hw, fun _ => ⟨hw, rfl⟩⟩
  · exact ⟨a, lastRec v, w.hold, if_neg hw, fun h => absurd h hw⟩

theorem stepTimeout_timesOut {u : State} (hl : u.err.log.length < logCap) (p : Nat) : TimesOut u (stepTimeout u p) := by
  obtain ⟨a, r, h, eq, bound⟩ := stepTimeout_eq u p
  have err : (stepTimeout u p).err = (record u .fwStepTimeout a).err := by
    rw [eq]
    exact enterHolding_err ..
  have host : (stepTimeout u p).host = (enterHolding (record u .fwStepTimeout a) .D r).host := by rw [eq]
  have others : ∃ e h o m, stepTimeout u p = { u with err := e, hold := h, host := o, free := m } := by
    obtain ⟨e, x, y, m, v⟩ := record_notes u .fwStepTimeout a
    rw [eq, enterHolding_frame, v]
    exact ⟨_, _, _, _, rfl⟩
  obtain ⟨e, h', o, m, others⟩ := others
  refine { cause := ?cause, log := ?log, rest := ?rest, recorded := ?recorded, holds := ?holds, others := ?others }
  case cause =>
    intro i b
    rw [host]
    exact cause_enterHolding_of (by rwa [record_host]) ..
  case log =>
    rw [err]
    exact mem_log_record rfl hl a
  case rest => rw [others]
  case recorded =>
    unfold Safety.recorded lastRec
    rw [err]
    exact recorded_record_above (by decide) a
  case holds =>
    intro hj hr
    have hj' : (record u .fwStepTimeout a).job.phase = .running := by rwa [record_job]
    have hr' : (record u .fwStepTimeout a).hold.state = .run := by rwa [record_hold_state]
    obtain ⟨hs, hb⟩ := bound (hold_enterHolding hj' hr' ..)
    rw [host]
    refine ⟨?_, ?_, cause_enterHolding hj' hr' ..⟩
    · rw [eq]; exact hs
    · rw [eq]; exact hb
  case others => rw [others]

/-! ### What each processor loses -/

/-- A warden processor ends its background command with Internal Error and cause 7 (log 19). -/
theorem loseWarden_bg {u : State} {g : Bg} (h : u.host.bg = some g) :
    loseWarden u = raise (bgEnds u { g with out := { ret := .internalError } }) 7 := by
  unfold loseWarden
  rw [h]

theorem loseWarden_idle {u : State} (h : u.host.bg = none) : loseWarden u = u := by
  unfold loseWarden
  rw [h]

theorem loseWarden_loses (u : State) : Loses u (loseWarden u) := by
  cases h : u.host.bg with
  | none => rw [loseWarden_idle h]; exact .refl u
  | some g => rw [loseWarden_bg h]; exact ⟨fun _ b => cause_raise_of _ b, fun _ e => e, rfl⟩

/-- The security core fails a checkpoint being signed (R311). -/
theorem loseSecurity_signing {u : State} (h : u.ckpt.state = .sign) :
    loseSecurity u = { failCkpt u with sec := { u.sec with sessions := [] } } := by
  unfold loseSecurity
  rw [if_pos h]
  rfl

/-- The security core loses its sessions alone when it signs nothing (R360). -/
theorem loseSecurity_sessions {u : State} (h : u.ckpt.state ≠ .sign) :
    loseSecurity u = { u with sec := { u.sec with sessions := [] } } := by
  unfold loseSecurity
  rw [if_neg h]

theorem loseSecurity_loses (u : State) : Loses u (loseSecurity u) := by
  by_cases h : u.ckpt.state = .sign
  · rw [loseSecurity_signing h]
    exact ⟨fun _ b => cause_raise_of _ b, fun _ e => e, rfl⟩
  · rw [loseSecurity_sessions h]
    exact ⟨fun _ b => b, fun _ e => e, rfl⟩

/-! ### The launch that the scheduler core abandons (R261, R335) -/

/-- The TIMEOUT that goes to a parent not yet answered. -/
def abandonAck (s : State) (h : Held) (tree : Tree) : List OutFrame :=
  if h.acked tree = true then [] else ((h.parent tree).map (ackOut s h tree .timeout)).toList

/-- A PREPARE whose acknowledgement to a parent, where there is one, stands. -/
def abandoned (h : Held) : Tree → Held
  | .A => { h with ackedA := h.ackedA || h.parentA.isSome }
  | .B => { h with ackedB := h.ackedB || h.parentB.isSome }

theorem abandoned_self {h : Held} {tree : Tree} (hs : (h.acked tree || (h.parent tree).isSome) = h.acked tree) :
    abandoned h tree = h := by
  cases tree with
  | A => exact congrArg (fun b => { h with ackedA := b }) hs
  | B => exact congrArg (fun b => { h with ackedB := b }) hs

theorem abandonAck_holding (s : State) (h : Held) (l : List OutFrame) (tree : Tree) :
    (if h.acked tree then holding s h l else sendAck (holding s h l) tree .timeout) =
      holding s (abandoned h tree) (l ++ abandonAck s h tree) := by
  unfold abandonAck
  cases ha : h.acked tree with
  | true =>
    rw [abandoned_self (by rw [ha, Bool.true_or]), if_pos rfl, if_pos rfl, List.append_nil]
  | false =>
    rw [if_neg Bool.false_ne_true, if_neg Bool.false_ne_true]
    cases hp : h.parent tree with
    | none =>
      have mute : sendAck (holding s h l) tree .timeout = holding s h l := by
        have unbound : ((holding s h l).job.prep.bind fun h => (h.parent tree).map fun p => (h, p)) = none := by
          show (h.parent tree).map _ = _
          rw [hp]
          rfl
        unfold sendAck
        rw [unbound]
      rw [abandoned_self (by rw [hp, Option.isSome_none, Bool.or_false]), mute]
      exact congrArg (holding s h) (List.append_nil l).symm
    | some p =>
      have told : abandoned h tree = acknowledged h tree := by
        cases tree <;> simp_all [abandoned, acknowledged, Held.parent]
      rw [told, sendAck_holding hp]
      rfl

/-- The scheduler core gives up a launch not committed with TIMEOUT to each parent not answered, and PREPARE goes to no
child again (R261, R335). -/
theorem loseLaunch_prep {u : State} {h : Held} (hp : u.job.prep = some h) (hc : h.committed = false) :
    loseLaunch u = holding u { h with copies := 3, ackedA := h.ackedA || h.parentA.isSome
                                      ackedB := h.ackedB || h.parentB.isSome }
      ([Tree.A, .B].flatMap (abandonAck u h)) := by
  have two : loseLaunch u = [Tree.A, .B].foldl (fun t tree => if h.acked tree then t else sendAck t tree .timeout)
      (updPrep u fun x => { x with copies := 3 }) := by
    unfold loseLaunch
    rw [hp]
    exact if_neg (Bool.eq_false_iff.1 hc)
  rw [two, updPrep_eq hp]
  let h3 : Held := { h with copies := 3 }
  have first : (if h.acked .A then holding u h3 [] else sendAck (holding u h3 []) .A .timeout) =
      holding u (abandoned h3 .A) (abandonAck u h3 .A) := abandonAck_holding u h3 [] .A
  have second : (if h.acked .B then holding u (abandoned h3 .A) (abandonAck u h3 .A)
      else sendAck (holding u (abandoned h3 .A) (abandonAck u h3 .A)) .B .timeout) =
      holding u (abandoned (abandoned h3 .A) .B) (abandonAck u h3 .A ++ abandonAck u (abandoned h3 .A) .B) :=
    abandonAck_holding u (abandoned h3 .A) (abandonAck u h3 .A) .B
  show (if h.acked .B then (if h.acked .A then holding u h3 [] else sendAck (holding u h3 []) .A .timeout)
    else sendAck (if h.acked .A then holding u h3 [] else sendAck (holding u h3 []) .A .timeout) .B .timeout) = _
  rw [first, second, List.flatMap_cons, List.flatMap_cons, List.flatMap_nil, List.append_nil]
  rfl

/-- A launch that this node does not hold, or that is committed, stands. -/
theorem loseLaunch_stands {u : State} (h : ∀ x, u.job.prep = some x → x.committed = true) : loseLaunch u = u := by
  unfold loseLaunch
  cases hp : u.job.prep with
  | none => rfl
  | some x => exact if_pos (h x hp)

/-- The launch given up changes what the node holds of it and the frames that wait, and no more. -/
theorem loseLaunch_frame (u : State) : loseLaunch u = { u with
    job := { u.job with prep := (loseLaunch u).job.prep }
    fab := { u.fab with ready := (loseLaunch u).fab.ready } } := by
  by_cases h : ∀ x, u.job.prep = some x → x.committed = true
  · rw [loseLaunch_stands h]
  · obtain ⟨x, hp, hc⟩ : ∃ x, u.job.prep = some x ∧ x.committed = false := by simpa using h
    rw [loseLaunch_prep hp hc]
    rfl

/-- The scheduler core abandons a cut, whose checkpoint counts as skipped (log 41), after the launch. -/
def cutAbandoned (u : State) : State :=
  let v := loseLaunch u
  { v with ckpt := { v.ckpt with cutting := false, skipped := satAdd v.ckpt.skipped 1 } }

theorem loseLaunch_ckpt (u : State) : (loseLaunch u).ckpt = u.ckpt := by rw [loseLaunch_frame]
theorem loseLaunch_err (u : State) : (loseLaunch u).err = u.err := by rw [loseLaunch_frame]
theorem loseLaunch_hold (u : State) : (loseLaunch u).hold = u.hold := by rw [loseLaunch_frame]

theorem cutAbandoned_ckpt (u : State) :
    (cutAbandoned u).ckpt = { u.ckpt with cutting := false, skipped := satAdd u.ckpt.skipped 1 } :=
  congrArg (fun k => { k with cutting := false, skipped := satAdd k.skipped 1 }) (loseLaunch_ckpt u)

theorem loseScheduler_cut {u : State} (h : u.ckpt.cutting = true) :
    loseScheduler u = stepTimeout (cutAbandoned u) 6 := if_pos h

theorem loseScheduler_launch {u : State} (h : u.ckpt.cutting = false) : loseScheduler u = loseLaunch u := by
  exact if_neg (Bool.eq_false_iff.1 h)

theorem loseLaunch_loses (u : State) : Loses u (loseLaunch u) := by
  rw [loseLaunch_frame u]
  exact ⟨fun _ b => b, fun _ e => e, rfl⟩

section
variable {u : State} (hl : u.err.log.length < logCap)
include hl

theorem cutAbandoned_timesOut : TimesOut (cutAbandoned u) (stepTimeout (cutAbandoned u) 6) :=
  stepTimeout_timesOut (by rwa [show (cutAbandoned u).err = u.err from loseLaunch_err u]) 6

theorem loseScheduler_loses : Loses u (loseScheduler u) := by
  cases h : u.ckpt.cutting with
  | false =>
    rw [loseScheduler_launch h]
    exact loseLaunch_loses u
  | true =>
    rw [loseScheduler_cut h]
    obtain ⟨hb, hr, rest⟩ := (cutAbandoned_timesOut hl).toLoses
    obtain ⟨lb, lr, lrest⟩ := loseLaunch_loses u
    refine ⟨fun i b => hb i (lb i b), fun e m => hr e (lr e m), ?_⟩
    rw [rest]
    unfold cutAbandoned
    rw [lrest]

/-- The launch is given up with a cut and without one. -/
theorem loseScheduler_job :
    (loseScheduler u).job = (loseLaunch u).job ∧ (loseScheduler u).fab = (loseLaunch u).fab := by
  cases h : u.ckpt.cutting with
  | false => rw [loseScheduler_launch h]; exact ⟨rfl, rfl⟩
  | true =>
    rw [loseScheduler_cut h]
    have others := (cutAbandoned_timesOut hl).others
    rw [others]
    exact ⟨rfl, rfl⟩

theorem loseScheduler_keys : (loseScheduler u).sec = u.sec ∧ (loseScheduler u).stk = u.stk := by
  have launch : (loseLaunch u).sec = u.sec ∧ (loseLaunch u).stk = u.stk := by
    rw [loseLaunch_frame]
    exact ⟨rfl, rfl⟩
  cases h : u.ckpt.cutting with
  | false => rwa [loseScheduler_launch h]
  | true =>
    rw [loseScheduler_cut h, (cutAbandoned_timesOut hl).others]
    exact launch

theorem loseRegion_loses (n : Nat) : Loses u (loseRegion u n) := by
  unfold loseRegion
  split
  · exact (stepTimeout_timesOut hl n).toLoses
  · exact .refl u

end

/-! ### The row of a watchdog (R334) -/

/-- What a processor's restart takes from its work. -/
def loseWork (n : Nat) (u : State) : State :=
  if n < 4 then loseWarden u
  else if n = 4 then loseSecurity u
  else if n = 5 then u
  else if n = 6 then loseScheduler u
  else loseRegion u n

theorem exec_watchdogExpiry {s : State} {p : BitVec 4} (hn : p.toNat ≤ 10) (hr : restarting s p.toNat = false)
    (hs : s.host.node ≠ .start) :
    exec (.watchdogExpiry p) s = .next (loseWork p.toNat (beginRestart s p.toNat)) := by
  have runs : ¬(10 < p.toNat ∨ restarting s p.toNat = true ∨ s.host.node = .start) := by
    rw [hr]
    simp [hn, hs]
  exact congrArg Host.Outcome.next (if_neg runs)

section
variable {n : Nat} {u : State}

theorem loseWork_warden (h : n < 4) : loseWork n u = loseWarden u := if_pos h
theorem loseWork_security : loseWork 4 u = loseSecurity u := rfl
theorem loseWork_scheduler : loseWork 6 u = loseScheduler u := rfl

theorem loseWork_region (h : 7 ≤ n) : loseWork n u = loseRegion u n := by
  unfold loseWork
  rw [if_neg (by omega), if_neg (by omega), if_neg (by omega), if_neg (by omega)]

/-- The processors by what they lose. -/
theorem processor_cases (n : Nat) : n < 4 ∨ n = 4 ∨ n = 5 ∨ n = 6 ∨ 7 ≤ n := by omega

theorem loseWork_loses (hl : u.err.log.length < logCap) : Loses u (loseWork n u) := by
  rcases processor_cases n with h | rfl | rfl | rfl | h
  · rw [loseWork_warden h]; exact loseWarden_loses u
  · exact loseSecurity_loses u
  · exact .refl u
  · exact loseScheduler_loses hl
  · rw [loseWork_region h]; exact loseRegion_loses hl n

/-- Without an abandoned operation of the running job the node's hold stands. -/
theorem loseWork_hold (hcut : n = 6 → u.ckpt.cutting = false)
    (hreg : 7 ≤ n → ¬(u.job.phase = .running ∧ u.job.started = true ∧ allAtStep u = true)) :
    (loseWork n u).hold = u.hold := by
  rcases processor_cases n with h | rfl | rfl | rfl | h
  · rw [loseWork_warden h]
    unfold loseWarden
    split <;> rfl
  · rw [loseWork_security]
    unfold loseSecurity
    dsimp only
    split <;> rfl
  · rfl
  · rw [loseWork_scheduler, loseScheduler_launch (hcut rfl), loseLaunch_hold]
  · rw [loseWork_region h]
    exact congrArg State.hold (if_neg (hreg h))

/-- Only the security core loses sessions and the keys of a checkpoint being signed. -/
theorem loseWork_keys (hl : u.err.log.length < logCap) (hn : n ≠ 4) :
    (loseWork n u).sec = u.sec ∧ (loseWork n u).stk = u.stk := by
  rcases processor_cases n with h | rfl | rfl | rfl | h
  · rw [loseWork_warden h]
    unfold loseWarden
    split <;> exact ⟨rfl, rfl⟩
  · exact absurd rfl hn
  · exact ⟨rfl, rfl⟩
  · rw [loseWork_scheduler]
    exact loseScheduler_keys hl
  · rw [loseWork_region h]
    unfold loseRegion
    split
    · rw [(stepTimeout_timesOut hl n).others]
      exact ⟨rfl, rfl⟩
    · exact ⟨rfl, rfl⟩

/-- Only the scheduler core loses a launch, frames' order and a cut. -/
theorem loseWork_job (hl : u.err.log.length < logCap) (hn : n ≠ 6) :
    (loseWork n u).job = u.job ∧ (loseWork n u).fab = u.fab ∧ (loseWork n u).ckpt.cutting = u.ckpt.cutting := by
  rcases processor_cases n with h | rfl | rfl | rfl | h
  · rw [loseWork_warden h]
    unfold loseWarden
    split <;> exact ⟨rfl, rfl, rfl⟩
  · rw [loseWork_security]
    unfold loseSecurity
    dsimp only
    split <;> exact ⟨rfl, rfl, rfl⟩
  · exact ⟨rfl, rfl, rfl⟩
  · exact absurd rfl hn
  · rw [loseWork_region h]
    unfold loseRegion
    split
    · rw [(stepTimeout_timesOut hl n).others]
      exact ⟨rfl, rfl, rfl⟩
    · exact ⟨rfl, rfl, rfl⟩

end

/-! ### What the work lost was before the restart -/

section
variable {n : Nat} {s u : State} (hr : Restarts n s u)
include hr

theorem Restarts.job : u.job = s.job := by rw [hr.rest]
theorem Restarts.ckpt : u.ckpt = s.ckpt := by rw [hr.rest]
theorem Restarts.fab : u.fab = s.fab := by rw [hr.rest]
theorem Restarts.sec : u.sec = s.sec := by rw [hr.rest]
theorem Restarts.stk : u.stk = s.stk := by rw [hr.rest]
theorem Restarts.bg : u.host.bg = s.host.bg := by rw [hr.rest]
theorem Restarts.hold_state : u.hold.state = s.hold.state := by rw [hr.rest]
theorem Restarts.hold : u.hold = { s.hold with worst := u.hold.worst, fatal := u.hold.fatal } :=
  congrArg State.hold hr.rest

theorem Restarts.allAtStep : allAtStep u = allAtStep s := by
  rw [hr.rest]
  rfl

theorem Restarts.acks (h : Held) : abandonAck u h = abandonAck s h := by
  rw [hr.rest]
  rfl

/-- The restart's own notes and the work lost leave the rest of the state. -/
theorem Restarts.frame {t : State} (h : Loses u t) : t = { s with
    pwr := t.pwr, err := t.err, hold := t.hold, host := t.host, free := t.free, sec := t.sec, stk := t.stk
    ckpt := t.ckpt, job := t.job, fab := t.fab } := by
  rw [h.rest, hr.rest]

theorem Restarts.pwr {t : State} (h : Loses u t) :
    t.pwr = { s.pwr with restarting := n :: s.pwr.restarting } := by
  rw [h.rest, hr.rest]

theorem Restarts.noted_of {t : State} (h : Loses u t) :
    ∃ r ∈ t.err.log, r.1.code = .wdgRestart ∧ r.1.unit = n ∧ r.1.seq = s.err.seq := by
  obtain ⟨r, hm, hn⟩ := hr.noted
  exact ⟨r, h.log r hm, hn⟩

/-- What a warden processor's background command comes to (log 19). -/
theorem Restarts.warden : (loseWarden u).host.bg = none ∧ ∀ g, s.host.bg = some g →
    (loseWarden u).host.bgLast = some { g with out := { ret := .internalError } } ∧
    (loseWarden u).host.cause.toNat.testBit 7 = true := by
  rw [← hr.bg]
  cases h : u.host.bg with
  | none =>
    rw [loseWarden_idle h]
    exact ⟨h, fun g e => absurd e (by simp)⟩
  | some g =>
    rw [loseWarden_bg h]
    refine ⟨rfl, fun g' e => ⟨?_, cause_raise _ (by decide)⟩⟩
    obtain rfl := Option.some.inj e
    rfl

/-- What the sessions and a checkpoint being signed come to (R311, R360). -/
theorem Restarts.security : (loseSecurity u).sec = { s.sec with sessions := [] } ∧
    (if s.ckpt.state = .sign then
      (loseSecurity u).ckpt.state = .failed ∧ (loseSecurity u).host.cause.toNat.testBit 6 = true
    else (loseSecurity u).ckpt = s.ckpt) := by
  rw [← hr.ckpt, ← hr.sec]
  split
  case isTrue h =>
    rw [loseSecurity_signing h]
    exact ⟨rfl, rfl, cause_raise _ (by decide)⟩
  case isFalse h =>
    rw [loseSecurity_sessions h]
    exact ⟨rfl, rfl⟩

/-- What a launch not committed comes to (R261, R335). -/
theorem Restarts.launch {h : Held} (hp : s.job.prep = some h) (hc : h.committed = false) :
    (loseScheduler u).job.prep = some { h with copies := 3, ackedA := h.ackedA || h.parentA.isSome
                                               ackedB := h.ackedB || h.parentB.isSome } ∧
    (loseScheduler u).fab.ready = s.fab.ready ++ [Tree.A, .B].flatMap (abandonAck s h) := by
  obtain ⟨job, fab⟩ := loseScheduler_job hr.room
  rw [job, fab, loseLaunch_prep (by rw [hr.job, hp]) hc, hr.acks, ← hr.fab]
  exact ⟨rfl, rfl⟩

/-- An operation abandoned on a state with the job and the hold that the restart leaves. -/
theorem Restarts.timesOut {v t : State} (h : TimesOut v t) (hj : v.job.phase = u.job.phase) (hh : v.hold = u.hold) :
    Safety.recorded t .fwStepTimeout ∧ (s.job.phase = .running → s.hold.state = .run →
      t.hold.state = .holding ∧ t.hold.atBoundary = true ∧ t.host.cause.toNat.testBit 3 = true) := by
  refine ⟨h.recorded, fun running run => h.holds ?_ ?_⟩
  · rw [hj, hr.job, running]
  · rw [hh, hr.hold_state, run]

end

/-- Settles O51: the restart's own record and cause stand through what each processor then loses, and each loss is the
model's operation on a state with the job, the checkpoint and the keys from before the restart. -/
theorem firmwareRestartsLoseTheirWork : Obligations.FirmwareRestartsLoseTheirWork := by
  unfold Obligations.FirmwareRestartsLoseTheirWork
  intro s p n boundary timedOut ack
  refine ⟨rfl, fun hn hr hs hc hl => ?_⟩
  let u := beginRestart s n
  have re : Restarts n s u := beginRestart_restarts hc hl n
  have lost : Loses u (loseWork n u) := loseWork_loses re.room
  have boundary_iff : (u.job.phase = .running ∧ u.job.started = true ∧ allAtStep u = true) ↔ boundary := by
    rw [re.job, re.allAtStep]
  refine ⟨loseWork n u, exec_watchdogExpiry hn hr hs, re.pwr lost, lost.cause 5 re.cause, re.noted_of lost,
    fun h => ?warden, fun h => ?security, fun h => ⟨fun x hp hx => ?launch, fun cut => ?cut⟩, fun h at_step => ?region,
    fun no_cut no_step => ?hold, fun h => ?keys, fun h => ?job, re.frame lost⟩
  case warden => rw [loseWork_warden h]; exact re.warden
  case security => rw [h]; exact re.security
  case launch =>
    rw [h]
    exact re.launch hp hx
  case cut =>
    have cut' : u.ckpt.cutting = true := by rw [re.ckpt, cut]
    have out := cutAbandoned_timesOut (u := u) re.room
    have work : loseWork n u = stepTimeout (cutAbandoned u) 6 := by
      rw [h, loseWork_scheduler, loseScheduler_cut cut']
    rw [work]
    refine ⟨re.timesOut out ?_ (loseLaunch_hold u), ?_⟩
    · show (loseLaunch u).job.phase = _
      rw [loseLaunch_frame]
    · rw [out.others, ← re.ckpt]
      exact cutAbandoned_ckpt u
  case region =>
    have work : loseWork n u = stepTimeout u n := (loseWork_region h).trans (if_pos (boundary_iff.2 at_step))
    rw [work]
    exact re.timesOut (stepTimeout_timesOut re.room n) rfl rfl
  case hold =>
    rw [loseWork_hold (fun h => by rw [re.ckpt, no_cut h]) (fun h => mt boundary_iff.1 (no_step h))]
    exact re.hold
  case keys =>
    obtain ⟨sec, stk⟩ := loseWork_keys re.room h
    exact ⟨sec.trans re.sec, stk.trans re.stk⟩
  case job =>
    obtain ⟨job, fab, cut⟩ := loseWork_job re.room h
    exact ⟨job.trans re.job, fab.trans re.fab, cut.trans (by rw [re.ckpt])⟩

end Sys2Proof.Laws
end

-- ==== LogBounds ====
section
/-!
O6: every step keeps the node's logs and queues within their capacities (11 R288; 12 R312; 13 R327, R331; 14 R360).
-/
namespace Sys2Proof.Laws

open Sys2Proof.Machine

variable {s t : State}

/-- A good view holds the logs and queues within their capacities. -/
theorem Ok.bounded {p : List Instr} {g : Grade × W64} (h : Ok p g (view s)) : Safety.Bounded s :=
  ⟨h.log, h.logq, h.em, h.sess, h.ctl⟩

theorem step_of_idle (h : s.pending = []) : step s = .next (unprompted s) := by
  unfold step
  rw [h]

theorem step_of_front {c : Instr} {rest : List Instr} (h : s.pending = c :: rest) :
    step s = exec c { s with pending := rest } := by
  unfold step
  rw [h]

/-- A step keeps the view good: what the node does unprompted does, and so does every command, which meets the queue
without itself. -/
theorem step_ok (m : Safety.Memories s) (b : Safety.Bounded s) (h : step s = .next t) :
    ∃ p, Ok p (s.fuses.grade, s.fuses.serial) (view t) := by
  have good := ok_of_safety m b
  cases hp : s.pending with
  | nil =>
    have e : unprompted s = t := Host.Outcome.next.inj ((step_of_idle hp).symm.trans h)
    exact ⟨_, e ▸ unprompted_ok good⟩
  | cons c rest =>
    have behind : Ok rest (s.fuses.grade, s.fuses.serial) (view { s with pending := rest }) := { good with pending := rfl }
    exact ⟨rest, exec_ok behind t ((step_of_front hp).symm.trans h)⟩

/-- Settles O6: the good view that a step keeps holds the logs and queues within their capacities. -/
theorem stepKeepsLogsBounded : Obligations.StepKeepsLogsBounded := by
  unfold Obligations.StepKeepsLogsBounded
  intro s t m b h
  obtain ⟨_, good⟩ := step_ok m b h
  exact good.bounded

end Sys2Proof.Laws
end

-- ==== Holds ====
section
/-!
O40: a hold, and who hears of it (11 R288, R289; 12 R312; 13 R337 to R339; log 33).
-/
namespace Sys2Proof.Laws

open Sys2Proof.Machine

variable {s : State}

/-! ### The newest record of the log (R288) -/

theorem lastRec_pushRec (s : State) (r : ErrRec) :
    lastRec (pushRec s r) = some { r with seq := s.err.seq, lost := s.err.lostNext } :=
  congrArg (Option.map Prod.fst) List.getLast?_concat

/-- With no coalescing window open, an event recorded with a severity is the newest record of the log. -/
theorem lastRec_recordSev (h : s.err.coal = []) (c : ErrCode) (v : Sev) (a : EvArgs) :
    ∃ r, lastRec (recordSev s c v a) = some r ∧ r.code = c ∧ r.sev = v := by
  unfold recordSev
  dsimp only
  rw [h]
  split <;> exact ⟨_, lastRec_pushRec _ (mkRec s c v a), rfl, rfl⟩

/-- An event is noted in the log, the hold's worst severity and the free values. -/
theorem recordSev_notes (s : State) (c : ErrCode) (v : Sev) (a : EvArgs) : ∃ e w x m,
    recordSev s c v a = { s with err := e, hold := { s.hold with worst := w, fatal := x }, free := m } := by
  unfold recordSev worsen
  dsimp only
  (repeat' split) <;> exact ⟨_, _, _, _, rfl⟩

/-! ### Frames to the control space (R312) -/

/-- A PUT to a member's control space as it waits for its slot. -/
def controlOut (s : State) (dst : NodeId) (off : Nat) (bs : List Byte) : OutFrame :=
  dataOut s .nobody 3 { opcode := oPut, dst := dst, hedge := 0, offset := off, last := true, data := bs }

theorem sendControlPut_eq (s : State) (dst : NodeId) (off : Nat) (bs : List Byte) :
    sendControlPut s .nobody 3 dst off bs = withReady s [controlOut s dst off bs] := rfl

/-- The entry at the front of the receive queue is taken. -/
theorem takeControl_front {n : NodeId} {bs : List Byte} {rest : List (NodeId × List Byte)}
    (h : s.fab.control = (n, bs) :: rest) :
    takeControl s n bs = some { s with fab := { s.fab with control := rest } } := by
  unfold takeControl
  rw [h]
  exact if_pos ⟨rfl, rfl⟩

/-! ### The notice of a hold (R337) -/

/-- A hold whose notice has gone to a coordinator. -/
def holdNoticed (s : State) (c : NodeId) : Hold :=
  { s.hold with
    noticeAt := some s.tim.now, coordinator := some c
    tried := if s.hold.tried.contains c then s.hold.tried else s.hold.tried ++ [c] }

/-- The frame that takes a notice to a coordinator. -/
def noticeOut (s : State) (c : NodeId) (n : Notice) : OutFrame :=
  controlOut s c (0xC0_0000_0010_0000 + rank0 s * 64) (noticeBytes n)

theorem sendNotice_away {c : NodeId} (h : c ≠ nodeId s) :
    sendNotice s c = withReady { s with hold := holdNoticed s c } [noticeOut s c (noticeOf s)] := by
  unfold sendNotice
  exact if_neg h

/-! ### A node enters HELD (R289) -/

/-- A node with HELD entered and recorded with the worst severity of the hold. -/
def heldRecorded (s : State) (byLimit : Bool) : State :=
  recordSev { s with hold := { s.hold with state := .held, byLimit := byLimit } } .jobHeld s.hold.worst
    { unitKind := 2, unit := 0, detail := (s.hold.firstCause.map ErrRec.detail).getD []
      npa := s.hold.firstCause.bind ErrRec.npa }

/-- A node that is HELD and has told its host, before its notice goes out. -/
def heldNow (s : State) (byLimit : Bool) : State := traceHw (raise (heldRecorded s byLimit) 3) 3

theorem hostAssisted_traceHw (s : State) (k i : Nat) : hostAssisted (traceHw s k) i = hostAssisted s i := by
  unfold traceHw tracePoint logEntry
  dsimp only
  (repeat' split) <;> rfl

/-- What entering HELD leaves of a state, beside the log, the host interface and the free values. -/
theorem heldNow_rest (s : State) (l : Bool) : ∃ e w x m o, heldNow s l = { s with
    hold := { s.hold with state := .held, byLimit := l, worst := w, fatal := x }, err := e, host := o, free := m } := by
  obtain ⟨e, w, x, m, r⟩ : ∃ e w x m, heldRecorded s l = { s with
    err := e, hold := { s.hold with state := .held, byLimit := l, worst := w, fatal := x }, free := m } :=
    recordSev_notes ..
  rw [heldNow, r, traceHw_frame]
  exact ⟨_, _, _, _, _, rfl⟩

theorem hostAssisted_heldNow (s : State) (l : Bool) (i : Nat) : hostAssisted (heldNow s l) i = hostAssisted s i := by
  rw [heldNow, hostAssisted_traceHw]
  unfold hostAssisted raise heldRecorded
  rw [recordSev_host]

theorem lastRec_heldNow (h : s.err.coal = []) (l : Bool) :
    ∃ r, lastRec (heldNow s l) = some r ∧ r.code = .jobHeld ∧ r.sev = s.hold.worst := by
  unfold heldNow lastRec
  rw [traceHw_err, raise_err]
  exact lastRec_recordSev (s := { s with hold := { s.hold with state := .held, byLimit := l } }) h ..

theorem cause_heldNow (s : State) (l : Bool) : (heldNow s l).host.cause.toNat.testBit 3 = true := by
  rw [heldNow, cause_traceHw]
  exact cause_raise _ (by decide)

/-- What a node leaves that has entered HELD under hardware policy, its coordinator another node: JOB_HELD recorded, cause
3 raised, its notice on its way (R289, R337). -/
structure EntersHeld (byLimit : Bool) (s t : State) : Prop where
  state : t.hold.state = .held
  limit : t.hold.byLimit = byLimit
  stepPending : t.hold.stepPending = s.hold.stepPending
  recorded : ∃ r, lastRec t = some r ∧ r.code = .jobHeld ∧ r.sev = s.hold.worst
  cause : t.host.cause.toNat.testBit 3 = true
  coordinator : t.hold.coordinator = some (coordinatorOf s)
  noticeAt : t.hold.noticeAt = some s.tim.now
  told : t.fab = (withReady s [noticeOut s (coordinatorOf s) (noticeOf t)]).fab
  rest : t = { s with hold := t.hold, err := t.err, host := t.host, free := t.free, fab := t.fab }

theorem enterHeld_entersHeld (hc : s.err.coal = []) (ha : hostAssisted s 4 = false) (hn : coordinatorOf s ≠ nodeId s)
    (l : Bool) : EntersHeld l s (enterHeld s l) := by
  have sends : enterHeld s l = sendNotice (heldNow s l) (coordinatorOf (heldNow s l)) := if_pos (by
    show (!hostAssisted (heldNow s l) 4 || _) = true
    rw [hostAssisted_heldNow, ha]
    rfl)
  have recorded := lastRec_heldNow hc l
  have cause := cause_heldNow s l
  obtain ⟨e, w, x, m, o, rest⟩ := heldNow_rest s l
  have away : coordinatorOf (heldNow s l) ≠ nodeId (heldNow s l) := by
    rw [rest]
    exact hn
  rw [sends, sendNotice_away away]
  generalize heldNow s l = v at recorded cause rest
  subst rest
  exact ⟨rfl, rfl, rfl, recorded, cause, rfl, rfl, rfl, rfl⟩

/-! ### Orders to members (R337, R338) -/

/-- A node with an order given to members: to itself in its own receive queue, to the others by frames that wait. -/
def ordered (s : State) (l : List NodeId) (bs : List Byte) : State :=
  { s with fab := { s.fab with
      control := s.fab.control ++ (l.filter (· == nodeId s)).map fun n => (n, bs)
      ready := s.fab.ready ++ (l.filter (· != nodeId s)).map fun n => controlOut s n 0xC0_0000_0008_0000 bs } }

theorem ordered_nil (s : State) (bs : List Byte) : ordered s [] bs = s := by
  simp [ordered]

theorem ordered_ordered (s : State) (l k : List NodeId) (bs : List Byte) :
    ordered (ordered s l bs) k bs = ordered s (l ++ k) bs := by
  unfold ordered
  rw [List.filter_append, List.filter_append, List.map_append, List.map_append, ← List.append_assoc, ← List.append_assoc]
  rfl

/-- An order finds its place while the receive queue has room. -/
theorem orderTo_eq (room : s.fab.control.length < 4096) (bs : List Byte) (n : NodeId) :
    orderTo s bs n = ordered s [n] bs := by
  unfold orderTo ordered
  by_cases h : n = nodeId s
  · rw [if_pos h, if_pos room]
    simp [h]
  · rw [if_neg h, sendControlPut_eq]
    simp [h, withReady]

/-- An order leaves no more in the receive queue than there are members. -/
theorem length_control_ordered (s : State) (l : List NodeId) (bs : List Byte) :
    (ordered s l bs).fab.control.length ≤ s.fab.control.length + l.length := by
  unfold ordered
  rw [List.length_append, List.length_map]
  exact Nat.add_le_add_left (List.length_filter_le ..) _

theorem orderAll_eq {l : List NodeId} (room : s.fab.control.length + l.length ≤ 4096) (op step : Nat)
    (failed : List NodeId) :
    orderAll s l op step failed = ordered s l (orderBytes op 0 0 0 step failed) := by
  unfold orderAll
  induction l generalizing s with
  | nil => exact (ordered_nil ..).symm
  | cons n l ih =>
    rw [List.length_cons] at room
    have left := length_control_ordered s [n] (orderBytes op 0 0 0 step failed)
    rw [List.length_singleton] at left
    rw [List.foldl_cons, orderTo_eq (by omega), ih (by omega), ordered_ordered, List.singleton_append]

/-! ### The rows -/

theorem exec_held (h : s.hold.state = .holding) (hr : holdReached s = true) : exec .held s = .next
    (enterHeld { s with hold := { s.hold with stepPending := allAtStep s && !s.job.risen } } false) :=
  congrArg Host.Outcome.next (if_pos ⟨h, hr⟩)

theorem exec_holdLimit (h : s.hold.state = .holding)
    (hl : s.hold.firstHalt + s.ncr.holdLimitMs * 1_000_000 ≤ s.tim.hall) : exec .holdLimit s = .next
    (enterHeld { s with hold := { s.hold with stepPending := allAtStep s && !s.job.risen } } true) :=
  congrArg Host.Outcome.next (if_pos ⟨h, hl⟩)

/-- A notice taken from the front of the receive queue: its sender's only one, this node the coordinator (R338). -/
def noticeTaken (s : State) (src : NodeId) (n : Notice) (rest : List (NodeId × List Byte)) : State :=
  { s with
    hold := { s.hold with
      notices := (s.hold.notices.filter fun e => e.1 != src) ++ [(src, n)], coordinator := some (nodeId s) }
    fab := { s.fab with control := rest } }

section notice
variable {src : NodeId} {n : Notice} {rest : List (NodeId × List Byte)}
  (hf : s.fab.control = (src, noticeBytes n) :: rest)
include hf

/-- A notice with the orphan flag, or one within a settle window, is noted. -/
theorem exec_holdNotice_noted (h : n.orphan = true ∨ s.hold.settleEnds.isSome = true) :
    exec (.holdNotice src n) s = .next (noticeTaken s src n rest) := by
  show execHoldNotice src n s = _
  unfold execHoldNotice
  rw [takeControl_front hf]
  refine congrArg Host.Outcome.next (if_pos ?_)
  obtain h | h := h <;> simp [h]

/-- The first notice without the orphan flag opens a settle window, and HOLD goes to every member. -/
theorem exec_holdNotice_opens (ha : hostAssisted s 4 = false) (ho : n.orphan = false) (hs : s.hold.settleEnds = none) :
    let u := noticeTaken s src n rest
    exec (.holdNotice src n) s = .next (orderAll { u with hold := { u.hold with
      settleEnds := some (s.tim.now + s.ncr.settleMs * 1_000_000) } } (members0 s) 1 0 []) := by
  intro u
  have ha' : hostAssisted u 4 = false := ha
  show execHoldNotice src n s = _
  unfold execHoldNotice
  rw [takeControl_front hf]
  refine congrArg Host.Outcome.next (if_neg ?_)
  show ¬(hostAssisted u 4 || n.orphan || s.hold.settleEnds.isSome) = true
  simp [ha', ho, hs]

end notice

/-- The members to which the orders at the end of a settle window go (R338). -/
def survivors (s : State) : List NodeId := (members0 s).filter fun n => !(failedSet s).contains n

section settle
variable {e : Nat} (he : s.hold.settleEnds = some e) (hn : e ≤ s.tim.now) (ha : hostAssisted s 4 = false)
include he hn ha

/-- Without a state set the survivors are ordered to end the job. -/
theorem exec_settleWindowEnd_terminates (hs : stateSet s = none) : exec .settleWindowEnd s = .next
    (orderAll { s with hold := { s.hold with settleEnds := none, notices := [] } } (survivors s) 5 0 []) := by
  show execSettleWindowEnd s = _
  unfold execSettleWindowEnd
  simp [he, ha, hs, Nat.not_lt.2 hn, survivors]

/-- With a state set the survivors are ordered to reset, and the failed set is wanted where it can be laid (log 33). -/
theorem exec_settleWindowEnd_resets (hs : stateSet s ≠ none) :
    let f := failedSet s
    exec .settleWindowEnd s = .next (orderAll { s with hold := { s.hold with
      settleEnds := none, notices := [], reports := []
      want := if f = [] ∨ (f.length ≤ 16 ∧ hostAssisted s 2 = false) then some f else none } } (survivors s) 2 0 []) := by
  intro f
  show execSettleWindowEnd s = _
  unfold execSettleWindowEnd
  simp [he, ha, hs, Nat.not_lt.2 hn, survivors, f]

end settle

/-- A held member without an order tries the next one (R339). -/
theorem exec_noticeResend {a : Nat} {n : NodeId} (hat : s.hold.noticeAt = some a) (hh : s.hold.state = .held)
    (due : a + 2 * s.ncr.settleMs * 1_000_000 ≤ s.tim.now) (few : s.hold.tried.length < 16)
    (next : (members0 s).find? (fun m => !s.hold.tried.contains m) = some n) :
    exec .noticeResend s = .next (sendNotice s n) := by
  show execNoticeResend s = _
  unfold execNoticeResend
  rw [hat]
  dsimp only
  rw [if_neg (not_or.2 ⟨not_not.2 hh, not_or.2 ⟨Nat.not_lt.2 due, Nat.not_le.2 few⟩⟩), next]

/-- A member not tried before joins those tried. -/
theorem tried_holdNoticed {n : NodeId} (h : (members0 s).find? (fun m => !s.hold.tried.contains m) = some n) :
    (holdNoticed s n).tried = s.hold.tried ++ [n] := by
  have new := List.find?_some h
  exact if_neg (by simpa using new)

/-- A coalescing window that ends (R288). -/
theorem exec_coalesceExpiry {code : W16} {unit : Nat} {w : Coal}
    (h : s.err.coal.find? (fun w => w.code.info.1 == code.toNat && w.unit == unit && w.ends ≤ s.tim.now) = some w) :
    let u := { s with err := { s.err with coal := s.err.coal.filter fun x => x != w } }
    exec (.coalesceExpiry code unit) s = .next (if w.count = 0 then u else pushRec u { w.last with count := w.count }) := by
  intro u
  show execCoalesceExpiry code unit s = _
  unfold execCoalesceExpiry
  rw [h]

/-- Settles O40: each row runs on its condition, and the lemmas above say what it leaves. -/
theorem holdsReachTheCoordinator : Obligations.HoldsReachTheCoordinator := by
  unfold Obligations.HoldsReachTheCoordinator
  intro s put notice to_ held orders
  have enters : ∀ (i : Instr) (l : Bool), exec i s = .next
      (enterHeld { s with hold := { s.hold with stepPending := allAtStep s && !s.job.risen } } l) → held i l := by
    intro i l run hc ha hn
    have h := enterHeld_entersHeld
      (s := { s with hold := { s.hold with stepPending := allAtStep s && !s.job.risen } }) hc ha hn l
    exact ⟨_, run, h.state, h.limit, h.stepPending, h.recorded, h.cause, ⟨h.coordinator, h.noticeAt, h.told⟩, h.rest⟩
  have gives : ∀ (i : Instr) (l : List NodeId) (op : Nat) (control : List (NodeId × List Byte)) (h : Hold),
      exec i s = .next (orderAll { s with hold := h, fab := { s.fab with control := control } } l op 0 []) →
      orders i l op control h := by
    intro i l op control h run room
    rw [orderAll_eq room] at run
    exact ⟨_, run, rfl, rfl, rfl⟩
  refine ⟨fun hold => ⟨fun reached => enters _ _ (exec_held hold reached),
      fun passed => enters _ _ (exec_holdLimit hold passed)⟩,
    fun src n rest front ha => ⟨fun ho hs => gives _ _ _ _ _ (exec_holdNotice_opens front ha ho hs),
      exec_holdNotice_noted front⟩,
    fun e he hn ha => ⟨fun hs => gives _ _ _ _ _ (exec_settleWindowEnd_terminates he hn ha hs),
      fun hs => gives _ _ _ _ _ (exec_settleWindowEnd_resets he hn ha hs)⟩,
    fun a n hat hh due few next away => ?resend, fun code unit w found => ?expiry⟩
  case resend =>
    rw [exec_noticeResend hat hh due few next, sendNotice_away away]
    exact ⟨_, rfl, ⟨rfl, rfl, rfl⟩, tried_holdNoticed next, rfl⟩
  case expiry =>
    refine ⟨_, exec_coalesceExpiry found, ?_⟩
    by_cases zero : w.count = 0
    · rw [if_pos zero]
      exact ⟨rfl, fun _ => rfl, fun h => absurd zero h, rfl⟩
    · rw [if_neg zero]
      exact ⟨rfl, fun h => absurd h zero, fun _ => ⟨_, lastRec_pushRec .., rfl, rfl, rfl⟩, rfl⟩

end Sys2Proof.Laws
end

-- ==== Checkpoints ====
section
/-!
O30: a checkpoint from its cut to secured (12 R303 to R315; logs 18, 72). What writes memory alone is said once as a
change of the byte map; the rows then follow field by field.
-/
namespace Sys2Proof.Laws

open Sys2Proof.Machine

variable {s u : State}

/-! ### Steps that change memory alone -/

/-- Steps that each change memory alone change it one after the other, and nothing else. -/
theorem foldl_mem {α : Type} {f : State → α → State} {g : SMap Byte → α → SMap Byte}
    (h : ∀ u a, f u a = { u with mem := g u.mem a }) (l : List α) (u : State) :
    l.foldl f u = { u with mem := l.foldl g u.mem } := by
  induction l generalizing u with
  | nil => rfl
  | cons a l ih => rw [List.foldl_cons, ih, h, List.foldl_cons]

/-- A memory with one 64-byte line copied between physical keys. -/
def lineCopied (m : SMap Byte) (src dst : Nat) : SMap Byte :=
  (List.range 64).foldl (fun x i => SMap.set 0 x (dst + i) (SMap.get 0 m (src + i))) m

theorem copyLine_eq (u : State) (src dst : Nat) : copyLine u src dst = { u with mem := lineCopied u.mem src dst } :=
  foldl_mem (f := fun t i => wrKey t (dst + i) (rdKey u (src + i))) (fun _ _ => rfl) _ _

theorem copyLines_eq {α : Type} (src dst : α → Nat) (l : List α) (u : State) :
    l.foldl (fun t e => copyLine t (src e) (dst e)) u =
      { u with mem := l.foldl (fun m e => lineCopied m (src e) (dst e)) u.mem } :=
  foldl_mem (fun t e => copyLine_eq t (src e) (dst e)) l u

/-- Bytes written one after the other at physical keys. -/
theorem wrKeys_eq (a : Nat) (l : List (Byte × Nat)) (u : State) : l.foldl (fun t e => wrKey t (a + e.2) e.1) u =
    { u with mem := l.foldl (fun m e => SMap.set 0 m (a + e.2) e.1) u.mem } :=
  foldl_mem (f := fun t e => wrKey t (a + e.2) e.1) (fun _ _ => rfl) l u

/-- With no line in error there is none to clear. -/
theorem clearFaults_clean (h : s.lineFault = []) (l : List Nat) : clearFaults s l = s := by
  rw [clearFaults, h, List.filter_nil, ← h]

/-! ### The cellar written -/

/-- `t` is `s` but for memory, line faults, reservations and the shard list. -/
def CellarWritten (s t : State) : Prop := t = { s with
  mem := t.mem, lineFault := t.lineFault, harts := t.harts, ckpt := { s.ckpt with shards := t.ckpt.shards } }

theorem CellarWritten.trans {t : State} (h : CellarWritten s t) (h' : CellarWritten t u) : CellarWritten s u := by
  unfold CellarWritten at *
  rw [h', h]

/-- Bytes written to a quarter encode their lines afresh and end the reservations on them. -/
theorem wrQuarter_frame (s : State) (st i o : Nat) (bs : List Byte) : wrQuarter s st i o bs = { s with
    mem := (wrQuarter s st i o bs).mem, lineFault := (wrQuarter s st i o bs).lineFault
    harts := (wrQuarter s st i o bs).harts } := by
  unfold wrQuarter
  dsimp only
  rw [wrKeys_eq]
  rfl

theorem cellarWritten_wrQuarter (s : State) (st i o : Nat) (bs : List Byte) :
    CellarWritten s (wrQuarter s st i o bs) := by
  rw [CellarWritten, wrQuarter_frame]

/-- A shard's trailer is written and joins the shard list. -/
theorem cellarWritten_putTrailer (s : State) (st index : Nat) (bs : List Byte) :
    CellarWritten s (putTrailer s st index bs) := by
  unfold CellarWritten putTrailer
  dsimp only
  rw [wrQuarter_frame]

/-! ### The start of a copy (R308, Table 12.4) -/

/-- A stack with the granules of the state set pending and none done. -/
def markPending (t : State) (i : Nat) : State := t.setStack i { t.stack i with ckPending := setGranules t i, ckDone := [] }

/-- The granules of a stack of `t` are those of the state set in `s`, all pending. -/
def AllPending (s t : State) (i : Nat) : Prop := (t.stack i).ckPending = setGranules s i ∧ (t.stack i).ckDone = []

theorem allPending_markPending (t : State) (i : Nat) : AllPending t (markPending t i) i :=
  ⟨by rw [markPending, stack_setStack], by rw [markPending, stack_setStack]⟩

theorem AllPending.mark {i : Nat} (h : AllPending s s i) (j : Nat) : AllPending s (markPending s j) i := by
  by_cases e : i = j
  · exact e ▸ allPending_markPending s i
  · rwa [AllPending, markPending, stack_setStack_of_ne _ e]

/-- Marking stacks in turn changes the stacks alone; the granules of each one marked are pending. -/
theorem foldl_markPending (l : List Nat) (s : State) :
    l.foldl markPending s = { s with stk := (l.foldl markPending s).stk } ∧
      ∀ i, i ∈ l ∨ AllPending s s i → AllPending s (l.foldl markPending s) i := by
  induction l generalizing s with
  | nil => exact ⟨rfl, fun i h => h.resolve_left List.not_mem_nil⟩
  | cons j l ih =>
    obtain ⟨frame, pending⟩ := ih (markPending s j)
    refine ⟨frame, fun i h => pending i ?_⟩
    rw [List.mem_cons] at h
    rcases h with (rfl | h) | h
    · exact .inr (allPending_markPending s i)
    · exact .inl h
    · exact .inr (h.mark j)

/-- The node with its cut's checkpoint taken up (Table 12.4). -/
def copyBegun (s : State) : State := { s with ckpt := { s.ckpt with
  state := .copy, gen := s.ckpt.cutN % 2 == 1, n := s.ckpt.cutN, step := s.ckpt.cutStep
  record := (nodeRec s).bytes, plan := planDigest s, shards := [] } }

/-- The copy of the cut's checkpoint has started: its number, step and generation are taken, and the granules of the
state set are pending on every stack. -/
structure CopyStarted (s t : State) : Prop where
  ckpt : t.ckpt = { (copyBegun s).ckpt with state := t.ckpt.state, shards := t.ckpt.shards }
  pending : ∀ i, i < 12 → AllPending s t i
  rest : t = { s with mem := t.mem, lineFault := t.lineFault, harts := t.harts, stk := t.stk, ckpt := t.ckpt }

/-- With the cellar written and the granules pending, the copy has started. -/
theorem CellarWritten.started {t : State} (h : CellarWritten (copyBegun s) u) (frame : t = { u with stk := t.stk })
    (pending : ∀ i, i < 12 → AllPending u t i) : CopyStarted s t := by
  have ckpt : t.ckpt = u.ckpt := by rw [frame]
  have granules (i : Nat) : setGranules u i = setGranules s i := by
    rw [h]
    rfl
  refine ⟨?_, fun i hi => ?_, ?_⟩
  · rw [ckpt, h]
  · obtain ⟨all, none⟩ := pending i hi
    exact ⟨all.trans (granules i), none⟩
  · rw [frame, h, copyBegun]

theorem CellarWritten.started_marked (h : CellarWritten (copyBegun s) u) :
    CopyStarted s ((List.range 12).foldl markPending u) := by
  obtain ⟨frame, pending⟩ := foldl_markPending (List.range 12) u
  exact h.started frame fun i hi => pending i (.inl (List.mem_range.2 hi))

/-- A copy that has nothing to copy goes on to its manifest at once. -/
theorem CopyStarted.withState {t : State} (h : CopyStarted s t) (x : CkptState) :
    CopyStarted s { t with ckpt := { t.ckpt with state := x } } := by
  obtain ⟨ckpt, pending, rest⟩ := h
  refine ⟨?_, pending, ?_⟩
  · dsimp only
    rw [ckpt]
  · rw [rest]

theorem startCopy_started (s : State) : CopyStarted s (startCopy s) := by
  unfold startCopy
  extract_lets c g record begun void sealed marked
  have written : CellarWritten (copyBegun s) sealed :=
    ((cellarWritten_wrQuarter begun ..).trans (cellarWritten_wrQuarter void ..)).trans (cellarWritten_putTrailer ..)
  clear_value sealed
  have started : CopyStarted s marked := written.started_marked
  clear_value marked
  split
  · exact started.withState .sign
  · exact started

/-! ### The cut (R306) -/

/-- The queues issue past STEP unless the job holds. -/
def passStep (u : State) : State := if u.hold.state = .run then releaseQueues u else u

theorem passStep_frame (u : State) : passStep u = { u with job := (passStep u).job, blocks := (passStep u).blocks } := by
  unfold passStep
  split <;> rfl

@[simp] theorem passStep_ckpt (u : State) : (passStep u).ckpt = u.ckpt := by rw [passStep_frame]
@[simp] theorem passStep_mem (u : State) : (passStep u).mem = u.mem := by rw [passStep_frame]
@[simp] theorem passStep_stk (u : State) : (passStep u).stk = u.stk := by rw [passStep_frame]

theorem AllPending.passStep {i : Nat} (h : AllPending s u i) : AllPending s (passStep u) i := by
  rwa [AllPending, State.stack, passStep_stk]

theorem q_passStep (u : State) (b : Blk) (q : Qc) : (passStep u).q b q =
    if u.hold.state = .run ∧ (u.q b q).state = .step then { u.q b q with state := .run } else u.q b q := by
  unfold passStep
  by_cases h : u.hold.state = .run
  · rw [if_pos h, q_releaseQueues, released]
    simp only [h, true_and]
  · simp only [h, if_false, false_and]

/-- What a cut leaves when it falls: a copy started, or a checkpoint skipped, and queues that issue on. -/
structure CutFallen (s t : State) : Prop where
  level : t.ckpt.level = s.ckpt.level
  cutting : t.ckpt.cutting = false
  skips : copyMayStart s = false → t.ckpt.skipped = satAdd s.ckpt.skipped 1 ∧ t.mem = s.mem ∧ t.stk = s.stk
  copies : copyMayStart s = true → t.ckpt.n = s.ckpt.cutN ∧ t.ckpt.step = s.ckpt.cutStep ∧
    t.ckpt.gen = (s.ckpt.cutN % 2 == 1) ∧ ∀ i, i < 12 → AllPending s t i
  queues : ∀ b q, t.q b q =
    if s.hold.state = .run ∧ (s.q b q).state = .step then { s.q b q with state := .run } else s.q b q

/-- The cut of a checkpoint whose copy may start begins the copy. -/
theorem cutFalls_copies (h : copyMayStart s = true) :
    cutFalls s = passStep (startCopy { s with ckpt := { s.ckpt with cutting := false } }) :=
  congrArg passStep (if_pos (c := copyMayStart s = true) h)

/-- The cut of any other checkpoint counts it as skipped. -/
theorem cutFalls_skips (h : copyMayStart s = false) : cutFalls s =
    passStep { s with ckpt := { s.ckpt with cutting := false, skipped := satAdd s.ckpt.skipped 1 } } :=
  congrArg passStep (if_neg (c := copyMayStart s = true) (Bool.eq_false_iff.1 h))

/-- A copy started leaves what the cut took up and every granule as they were when the queues issue on. -/
theorem CopyStarted.fallen {t : State} (h : CopyStarted { s with ckpt := { s.ckpt with cutting := false } } t)
    (may : copyMayStart s = true) : CutFallen s (passStep t) := by
  obtain ⟨ckpt, pending, rest⟩ := h
  have queue (b : Blk) (q : Qc) : t.q b q = s.q b q := by rw [rest]; rfl
  have hold : t.hold = s.hold := by rw [rest]
  have taken := (passStep_ckpt t).trans ckpt
  exact {
    level := (congrArg Ckpt.level taken :)
    cutting := (congrArg Ckpt.cutting taken :)
    skips := fun no => absurd (no.symm.trans may) Bool.false_ne_true
    copies := fun _ => ⟨(congrArg Ckpt.n taken :), (congrArg Ckpt.step taken :), (congrArg Ckpt.gen taken :),
      fun i hi => (pending i hi).passStep⟩
    queues := fun b q => by rw [q_passStep, hold, queue] }

theorem cutFalls_fallen (s : State) : CutFallen s (cutFalls s) := by
  cases may : copyMayStart s with
  | true =>
    rw [cutFalls_copies may]
    exact (startCopy_started _).fallen may
  | false =>
    rw [cutFalls_skips may]
    exact {
      level := by rw [passStep_ckpt]
      cutting := by rw [passStep_ckpt]
      skips := fun _ => ⟨by rw [passStep_ckpt], passStep_mem _, passStep_stk _⟩
      copies := fun yes => absurd (may.symm.trans yes) Bool.false_ne_true
      queues := q_passStep _ }

/-- Every direct peer is at the cut's step and the present level, or past it. -/
theorem all_peerAt (h : ∀ p ∈ directPeers s, s.ckpt.cutStep < (s.pair p).peerStep ∨
    (s.pair p).peerStep = s.ckpt.cutStep ∧ s.ckpt.level ≤ (s.pair p).peerLevel) :
    (directPeers s).all (peerAt s s.ckpt.level) = true := by
  simpa [peerAt] using h

/-- The node at the next level of its cut. -/
def levelRaised (s : State) : State := { s with ckpt := { s.ckpt with level := s.ckpt.level + 1 } }

theorem exec_cutLevelRaise (hc : s.ckpt.cutting = true) (hl : s.ckpt.level < s.ckpt.depth)
    (hp : (directPeers s).all (peerAt s s.ckpt.level) = true) : exec .cutLevelRaise s =
      .next (if s.ckpt.depth ≤ s.ckpt.level + 1 then cutFalls (levelRaised s) else levelRaised s) :=
  congrArg Host.Outcome.next (if_pos ⟨hc, hl, hp⟩)

/-! ### The copy (R309) -/

/-- The lines of a granule that the state set covers, each with its place among the stack's packed lines. -/
def granuleLines (s : State) (st g : Nat) : List (Nat × Nat) :=
  (packedLines s st).zipIdx.filter fun e => e.1 >>> 21 == g

/-- A granule's lines copied into own[g], one after the other. -/
def granuleCopied (s : State) (st g : Nat) : State := (granuleLines s st g).foldl (fun u e =>
  copyLine u (st <<< 36 + e.1) (quarterKey s st (bn s.ckpt.gen) (dataBase st + 64 * e.2))) s

/-- With no line in error a granule's lines are counted and copied, and its mark moves from pending to done. -/
theorem copyGranule_clean (h : s.lineFault = []) (st g : Nat) : ∃ d, copyGranule s st g =
    ({ s with decoded := d, mem := (granuleCopied s st g).mem } : State).setStack st { s.stack st with
      ckPending := (s.stack st).ckPending.filter (· != g), ckDone := g :: (s.stack st).ckDone } := by
  refine ⟨(countReads s ((granuleLines s st g).map fun e => ⟨windowNpa st e.1, 64⟩)).decoded, ?_⟩
  unfold copyGranule granuleCopied
  dsimp only
  rw [touch_clean h]
  dsimp only
  rw [clearFaults_clean (s := countReads s _) h, copyLines_eq, copyLines_eq]
  rfl

/-- A stack with granules still pending goes on copying. -/
theorem stackCopied_pending {st : Nat} (h : (s.stack st).ckPending ≠ []) : stackCopied s st = s :=
  if_neg fun ⟨_, done, _⟩ => h (List.isEmpty_iff.1 done)

/-- A granule copied without a fault, with others still pending, is all that the row does. -/
theorem exec_granuleCopy {k : BitVec 4} {g : Nat} {l : List Nat} (hg : (s.stack k.toNat).ckPending = g :: l)
    (copied : copyGranule s k.toNat g = u) (sound : u.ckpt.state ≠ .failed)
    (more : (u.stack k.toNat).ckPending ≠ []) : exec (.granuleCopy k) s = .next u := by
  show execGranuleCopy k s = _
  unfold execGranuleCopy
  simp only [hg]
  rw [copied, if_neg sound, stackCopied_pending more]

/-! ### The manifest and the mirror (R314, R315) -/

/-- Without a buddy the mirror has no frame. -/
theorem startMirror_alone (h : buddy s = none) : startMirror s =
    { s with ckpt := { s.ckpt with state := .mirror, mirrors := s.ckpt.mirrors ++ [(s.ckpt.n, 0)] } } := by
  unfold startMirror
  rw [h]

/-- With the manifest written the checkpoint is complete locally, and its mirror starts. -/
def mirrorBegun (u : State) : State := startMirror { u with ckpt := { u.ckpt with doneN := max u.ckpt.doneN u.ckpt.n } }

theorem exec_manifestSign (hs : s.ckpt.state = .sign) (hw : 4 ∉ s.pwr.restarting) : exec .manifestSign s =
    .next (mirrorBegun (wrQuarter s 0 (bn s.ckpt.gen) 0 (slice (manifestBytes s) 0 recordAt))) :=
  congrArg Host.Outcome.next (if_pos ⟨hs, hw⟩)

/-- On a node without a buddy, once `u` has its manifest in memory, the mirror starts with no frame. -/
theorem mirrorBegun_alone (h : u = { s with mem := u.mem, lineFault := u.lineFault, harts := u.harts })
    (hb : buddy s = none) : mirrorBegun u = { u with ckpt := { s.ckpt with
      state := .mirror, doneN := max s.ckpt.doneN s.ckpt.n, mirrors := s.ckpt.mirrors ++ [(s.ckpt.n, 0)] } } := by
  rw [mirrorBegun, h, startMirror_alone]
  exact hb

/-- With no frame of the oldest mirror outstanding its checkpoint is secured. -/
theorem exec_mirrorAcknowledged {n : Nat} {l : List (Nat × Nat)} (h : s.ckpt.mirrors = (n, 0) :: l) :
    exec .mirrorAcknowledged s = .next (raise { s with ckpt := { s.ckpt with
      mirrors := l, mirroredN := max s.ckpt.mirroredN n
      mirroredStep := BitVec.ofNat 48 (n * ((stateSet s).map StateSet.k).getD 0)
      state := if n = s.ckpt.n ∧ s.ckpt.state = .mirror then .secured else s.ckpt.state } } 6) := by
  show execMirrorAcknowledged s = _
  unfold execMirrorAcknowledged
  simp only [h]

/-- Settles O30: each row runs on its condition, and the lemmas above say what it leaves. -/
theorem cutAndCheckpointAdvance : Obligations.CutAndCheckpointAdvance := by
  unfold Obligations.CutAndCheckpointAdvance
  intro s
  refine ⟨fun hc hl hp => ⟨_, exec_cutLevelRaise hc hl (all_peerAt hp), ?raise⟩, fun k g l hf hg hs more => ?copy,
    fun hs hw hb => ⟨_, exec_manifestSign hs hw, ?sign⟩, fun n l hm => ?secure⟩
  case raise =>
    by_cases last : s.ckpt.depth ≤ s.ckpt.level + 1
    · rw [if_pos last]
      have fallen := cutFalls_fallen (levelRaised s)
      exact ⟨fallen.level, fun more => absurd more last.not_gt,
        fun _ => ⟨fallen.cutting, fallen.skips, fallen.copies, fallen.queues⟩⟩
    · rw [if_neg last]
      exact ⟨rfl, fun _ => rfl, fun h => absurd h.ge last⟩
  case copy =>
    obtain ⟨d, copied⟩ := copyGranule_clean hf k.toNat g
    have left : (s.stack k.toNat).ckPending.filter (· != g) = l.filter (· != g) := by
      rw [hg, List.filter_cons_of_neg (by simp)]
    rw [left] at copied
    refine ⟨_, exec_granuleCopy hg copied ?_ ?_, rfl, stack_setStack .., fun n hn => stack_setStack_of_ne _ hn, rfl⟩
    · rw [setStack_ckpt, hs]
      decide
    · rwa [stack_setStack]
  case sign =>
    have written := wrQuarter_frame s 0 (bn s.ckpt.gen) 0 (slice (manifestBytes s) 0 recordAt)
    generalize wrQuarter s 0 (bn s.ckpt.gen) 0 (slice (manifestBytes s) 0 recordAt) = u at written ⊢
    rw [mirrorBegun_alone written hb]
    exact ⟨rfl, rfl, by rw [written]⟩
  case secure => exact ⟨_, exec_mirrorAcknowledged hm, rfl, rfl, rfl⟩

end Sys2Proof.Laws
end

-- ==== StepInvariants ====
section
/-!
O1 to O5 and O7: what a step is (logs 1, 50, 67), that every command answers a next state, and that the node's memories
stay canonical (log 6).
-/
namespace Sys2Proof.Laws

open Sys2Proof.Machine

/-- A good view holds the memories in their canonical form. -/
theorem Ok.memories {s : State} {p : List Instr} {g : Grade × W64} (h : Ok p g (view s)) : Safety.Memories s :=
  ⟨h.mem, h.hostMem⟩

/-- Settles O5: the good view that a step keeps holds the memories in their canonical form. -/
theorem stepKeepsMemoriesCanonical : Obligations.StepKeepsMemoriesCanonical := by
  unfold Obligations.StepKeepsMemoriesCanonical
  intro s t m b h
  obtain ⟨_, good⟩ := step_ok m b h
  exact good.memories

/-- Settles O7: the good view of a state names its queue and its fuses, and every command keeps it. -/
theorem commandKeepsQueueAndFuses : Obligations.CommandKeepsQueueAndFuses := by
  unfold Obligations.CommandKeepsQueueAndFuses
  intro c s t m b h
  have good := exec_ok (ok_of_safety m b) t h
  exact ⟨good.pending, good.grade, good.serial⟩

/-- Settles O1, by the branch of a step for a queue that is not empty. -/
theorem stepRunsFrontCommand : Obligations.StepRunsFrontCommand := by
  unfold Obligations.StepRunsFrontCommand
  intro s c rest h
  exact step_of_front h

/-- With empty buffers and no fault of a part to meet, the clocks and PPS_OUT alone change. -/
theorem unprompted_quiet {s : State} (hw : s.wcb = []) (hp : s.partFaults = []) : unprompted s = tick s 1 := by
  have drained : drainAll (idle s) = tick s 1 := by
    unfold drainAll
    rw [show (idle s).wcb = [] from hw]
    rfl
  unfold unprompted
  dsimp only
  rw [drained, show (tick s 1).partFaults = [] from hp]

/-- Settles O2: what the node does unprompted is the step's own branch for an empty queue. -/
theorem stepIdlesOnEmptyQueue : Obligations.StepIdlesOnEmptyQueue := by
  unfold Obligations.StepIdlesOnEmptyQueue
  intro s h
  refine ⟨unprompted s, step_of_idle h, rfl, fun hw hp => ?_⟩
  rw [unprompted_quiet hw hp]
  exact ⟨rfl, rfl, rfl⟩

/-- Settles O3: the meaning of each row is the next state of a function of its operands and the state. -/
theorem everyCommandAnswersNextState : Obligations.EveryCommandAnswersNextState := by
  unfold Obligations.EveryCommandAnswersNextState
  intro c s
  cases c <;> exact ⟨_, rfl⟩

/-- Settles O4: at reset the memories are empty and nothing waits in a log or a queue. -/
theorem resetIsGood : Obligations.ResetIsGood := by
  unfold Obligations.ResetIsGood
  have memories : Safety.Memories .reset := ⟨by decide, by decide⟩
  have bounded : Safety.Bounded .reset := ⟨by decide, by decide, by decide, by decide, by decide⟩
  exact ⟨rfl, memories, bounded⟩

end Sys2Proof.Laws
end

-- ==== Interrupts ====
section
/-!
O46: interrupt causes, their mask and the MSI-X vectors (13 R328).
-/
namespace Sys2Proof.Laws

open Sys2Proof.Machine

variable {s : State} {i : Nat}

/-! ### A cause is raised -/

/-- A cause that rises unmasked sends its vector. -/
theorem raise_msix_unmasked (hc : s.host.cause.getLsbD i = false) (hm : s.host.mask.getLsbD i = false) :
    (raise s i).host.msix = s.host.msix ++ [i] := by
  have h : (!s.host.cause.getLsbD i && !s.host.mask.getLsbD i) = true := by rw [hc, hm]; rfl
  exact if_pos h

/-- A cause that is set already sends nothing, nor does a masked one. -/
theorem raise_msix_quiet (h : s.host.cause.getLsbD i = true ∨ s.host.mask.getLsbD i = true) :
    (raise s i).host.msix = s.host.msix := by
  have h : ¬(!s.host.cause.getLsbD i && !s.host.mask.getLsbD i) = true := by
    rcases h with h | h <;> rw [h] <;> simp
  exact if_neg h

/-- A cause that rises masked waits for its bit of the mask. -/
theorem raise_msixPend_masked (hi : i < 8) (hc : s.host.cause.getLsbD i = false) (hm : s.host.mask.getLsbD i = true) :
    (raise s i).host.msixPend.getLsbD i = true := by
  have h : (!s.host.cause.getLsbD i && s.host.mask.getLsbD i) = true := by rw [hc, hm]; rfl
  have e : (raise s i).host.msixPend = s.host.msixPend ||| BitVec.ofNat 8 (2 ^ i) := if_pos h
  rw [e, BitVec.getLsbD_or, BitVec.getLsbD_ofNat, Nat.testBit_two_pow_self, decide_eq_true hi, Bool.true_and,
    Bool.or_true]

/-! ### The mask and the causes are written -/

/-- The vectors that a write of the mask sends. -/
def unmasked (s : State) (v : Byte) : List Nat := (List.range 8).filter fun i =>
  s.host.msixPend.toNat.testBit i && s.host.cause.toNat.testBit i && !v.toNat.testBit i

/-- They are those of the causes that rose while masked, are still set, and are masked no more. -/
theorem mem_unmasked {v : W64} : i ∈ unmasked s (v.setWidth 8) ↔
    i < 8 ∧ s.host.msixPend.getLsbD i = true ∧ s.host.cause.getLsbD i = true ∧ v.getLsbD i = false := by
  have low : i < 8 → (v.setWidth 8).getLsbD i = v.getLsbD i := fun h => by
    rw [BitVec.getLsbD_setWidth, decide_eq_true h, Bool.true_and]
  rw [unmasked, List.mem_filter, List.mem_range]
  refine and_congr_right fun h => ?_
  rw [← low h, Bool.and_eq_true, Bool.and_eq_true, Bool.not_eq_true', and_assoc]
  rfl

theorem exec_hrwIntMask_sends (hl : s.host.linkUp = true) (v : W64) : exec (.hrwIntMask v) s = .next { s with
    host := { s.host with
      mask := v.setWidth 8, msix := s.host.msix ++ unmasked s (v.setWidth 8)
      msixPend := s.host.msixPend &&& v.setWidth 8 } } := by
  rw [exec_hrwIntMask hl, BitVec.ofNat_toNat]
  rfl

theorem exec_hrwIntCause_clears (hl : s.host.linkUp = true) (v : W64) : exec (.hrwIntCause v) s = .next { s with
    host := { s.host with
      cause := s.host.cause &&& ~~~(v.setWidth 8), msixPend := s.host.msixPend &&& ~~~(v.setWidth 8) } } := by
  rw [exec_hrwIntCause hl, BitVec.ofNat_toNat]
  rfl

/-- Settles O46: a cause that rises sends its vector or waits for the mask, and a write of the mask sends those that
wait for it. -/
theorem interruptCausesSendTheirVectors : Obligations.InterruptCausesSendTheirVectors := by
  unfold Obligations.InterruptCausesSendTheirVectors
  intro s i hi
  refine ⟨rfl, raise_msix_unmasked, fun hc => raise_msix_quiet (.inl hc),
    fun hc hm => ⟨raise_msix_quiet (.inr hm), ?late⟩, fun hl => ⟨fun v => ?mask, fun v => ?cause⟩,
    fun hb hc hm => ?mailbox⟩
  case late =>
    intro v hl hv
    refine ⟨_, unmasked (raise s i) (v.setWidth 8), exec_hrwIntMask_sends (s := raise s i) hl v, ?_, ?_⟩
    · rw [raise_msix_quiet (.inr hm)]
    · exact mem_unmasked.2 ⟨hi, raise_msixPend_masked hi hc hm, cause_raise s hi, hv⟩
  case mask => exact ⟨_, _, exec_hrwIntMask_sends hl v, rfl, rfl, rfl, fun j => mem_unmasked, rfl⟩
  case cause => exact ⟨_, exec_hrwIntCause_clears hl v, rfl, rfl, rfl⟩
  case mailbox =>
    have e := exec_placementGet (s := s) ⟨hb.node, hb.link, hb.fw, rfl⟩
    exact ⟨_, e, cause_raise _ (by decide), raise_msix_unmasked hc hm⟩

end Sys2Proof.Laws
end

-- ==== PowerRows ====
section
/-!
O55: the rows of the power core, of the limiter and of the health record, under conditions on the state and the operands
alone (15 R371, R376, R378, R381).
-/
namespace Sys2Proof.Laws

open Sys2Proof.Machine

variable {s : State}

/-! ### THROTTLE: each die is sampled in turn (R376) -/

/-- From `u` to `v` the power core has gone over die `d` with a sample: the die shows its junction's temperature, the
other dies are as they were, and the power shown stands. -/
structure DieSampled (x : ThermalSample) (d : Nat) (u v : State) : Prop where
  power : v.pwr.powerW = u.pwr.powerW
  shown : (v.die d).tjC = x.tjCd.getD d 0
  others : ∀ n, n ≠ d → v.die n = u.die n

/-- A fold that goes over one die at a time leaves each of its dies sampled, and the power shown as it was. -/
theorem foldl_dieSampled {x : ThermalSample} {f : State → Nat → State} (h : ∀ u d, DieSampled x d u (f u d))
    (l : List Nat) (s : State) : (l.foldl f s).pwr.powerW = s.pwr.powerW ∧
      ∀ d ∈ l, ((l.foldl f s).die d).tjC = x.tjCd.getD d 0 := by
  induction l using List.reverseRecOn with
  | nil => exact ⟨rfl, fun d hd => absurd hd List.not_mem_nil⟩
  | append_singleton l a ih =>
    obtain ⟨power, shown, others⟩ := h (l.foldl f s) a
    rw [List.foldl_append]
    refine ⟨power.trans ih.1, fun d hd => ?_⟩
    by_cases e : d = a
    · rw [e]
      exact shown
    · exact (congrArg Die.tjC (others d e)).trans (ih.2 d ((List.mem_append.1 hd).resolve_right (by simpa using e)))

theorem DieSampled.trans {x : ThermalSample} {d : Nat} {u v w : State} (h : DieSampled x d u v)
    (k : w.pwr.powerW = v.pwr.powerW ∧ (w.die d).tjC = (v.die d).tjC ∧ ∀ n, n ≠ d → w.die n = v.die n) :
    DieSampled x d u w :=
  ⟨k.1.trans h.power, k.2.1.trans h.shown, fun n hn => (k.2.2 n hn).trans (h.others n hn)⟩

/-- A die set to a value with the same temperature shown. -/
theorem setDie_same_tj (u : State) (d : Nat) {k : Die} (h : k.tjC = (u.die d).tjC) :
    (u.setDie d k).pwr.powerW = u.pwr.powerW ∧ ((u.setDie d k).die d).tjC = (u.die d).tjC ∧
      ∀ n, n ≠ d → (u.setDie d k).die n = u.die n :=
  ⟨rfl, (congrArg Die.tjC (die_setDie ..)).trans h, fun _ => die_setDie_of_ne _⟩

/-- A change of a die's level (R371). -/
theorem setLevel_same_tj (u : State) (d m : Nat) : (setLevel u d m).pwr.powerW = u.pwr.powerW ∧
    ((setLevel u d m).die d).tjC = (u.die d).tjC ∧ ∀ n, n ≠ d → (setLevel u d m).die n = u.die n := by
  unfold setLevel
  dsimp only
  (repeat' split)
  · exact ⟨rfl, rfl, fun _ _ => rfl⟩
  all_goals exact setDie_same_tj u d rfl

/-- The record of a change of level leaves every die. -/
theorem throttleRec_pwr (u : State) (d c v : Nat) : (throttleRec u d c v).pwr = u.pwr := record_pwr ..

theorem throttleRec_die (u : State) (d c v n : Nat) : (throttleRec u d c v).die n = u.die n :=
  congrArg (fun p => p.dies.get {} n) (throttleRec_pwr u d c v)

/-- An alert to the host, where one is due, leaves the power unit. -/
theorem ite_ibi_pwr (c : Prop) [Decidable c] (u : State) (v : Byte) : (if c then ibi u v else u).pwr = u.pwr := by
  split <;> rfl

/-- A millisecond of the power core is a fold over the dies, from a state that shows the sample's power. -/
theorem throttle_pwr (s : State) (x : ThermalSample) : ∃ (f : State → Nat → State) (u : State),
    (∀ v d, DieSampled x d v (f v d)) ∧ u.pwr.powerW = x.powerW ∧
      (throttle s x).pwr = ((List.range 4).foldl f u).pwr := by
  unfold throttle
  extract_lets thr p top present hot was
  split
  split
  extract_lets s1 s2 is
  refine ⟨_, s1, ?dies, rfl, ite_ibi_pwr ..⟩
  case dies =>
    intro u d
    extract_lets k tj tl still
    split
    extract_lets k1 m v _ v1
    have sampled : DieSampled x d u (u.setDie d k1) :=
      ⟨rfl, congrArg Die.tjC (die_setDie ..), fun _ => die_setDie_of_ne _⟩
    have levelled : DieSampled x d u v := sampled.trans (setLevel_same_tj (u.setDie d k1) d m)
    have ends : DieSampled x d u v1 := levelled.trans (setDie_same_tj v d rfl)
    split
    · exact ends.trans ⟨congrArg Power.powerW (throttleRec_pwr ..), congrArg Die.tjC (throttleRec_die ..),
        fun _ _ => throttleRec_die ..⟩
    · exact ends

theorem throttle_samples (s : State) (x : ThermalSample) :
    (throttle s x).pwr.powerW = x.powerW ∧ ∀ d, d < 4 → ((throttle s x).die d).tjC = x.tjCd.getD d 0 := by
  obtain ⟨f, u, dies, power, e⟩ := throttle_pwr s x
  obtain ⟨kept, shown⟩ := foldl_dieSampled dies (List.range 4) u
  have die (d : Nat) : (throttle s x).die d = ((List.range 4).foldl f u).die d := congrArg (fun p => p.dies.get {} d) e
  exact ⟨(congrArg Power.powerW e).trans (kept.trans power), fun d hd =>
    (congrArg Die.tjC (die d)).trans (shown d (List.mem_range.2 hd))⟩

/-! ### The limiter and the regulators (R371, R378) -/

theorem exec_throttle (hr : restarting s 5 = false) (hc : s.pwr.clocksStopped = false)
    (hp : s.pwr.domains.getLsbD 0 = true) (x : ThermalSample) : exec (.throttle x) s = .next (throttle s x) := by
  have runs : ¬(s.pwr.restarting.contains 5 ∨ s.pwr.clocksStopped ∨ s.pwr.domains.toNat.testBit 0 = false) := by
    have hp : s.pwr.domains.toNat.testBit 0 = true := hp
    have hr : s.pwr.restarting.contains 5 = false := hr
    rw [hr, hc, hp]
    decide
  exact congrArg Host.Outcome.next (if_neg runs)

/-- The state with the limiter's throttle shown. -/
def limiterShown (s : State) : State := { s with pwr := { s.pwr with hwThrottle := true } }

theorem exec_hwThrottle {d : BitVec 2} (h : (s.die d.toNat).clockMhz ≠ 0) :
    let m := max 1200 ((s.die d.toNat).clockMhz / 2)
    exec (.hwThrottle (some d)) s = .next ((limiterShown s).setDie d.toNat { s.die d.toNat with
      clockMhz := m, vddMv := levelMv (limiterShown s) d.toNat m, target := none, cause := 4, tempMhz := m
      halved := true, coolMs := 0 }) :=
  congrArg Host.Outcome.next (if_neg h)

section
variable {d : BitVec 2} {m : Nat} (h : (s.die d.toNat).target = some m)
include h

theorem exec_avsSettled : exec (.avsSettled d) s = .next (s.setDie d.toNat { s.die d.toNat with
    clockMhz := m, vddMv := levelMv s d.toNat m, target := none, regFault := false
    cause := if (s.die d.toNat).cause = 7 then 0 else (s.die d.toNat).cause }) := by
  show execAvsSettled d s = _
  unfold execAvsSettled
  dsimp only
  rw [h]

theorem exec_avsRetry : exec (.avsRetry d) s = .next (throttleRec (s.setDie d.toNat { s.die d.toNat with
    regFault := true, cause := 7, vddMv := levelMv s d.toNat (s.die d.toNat).clockMhz }) d.toNat 7
    (s.die d.toNat).vddMv) := by
  show execAvsRetry d s = _
  unfold execAvsRetry
  dsimp only
  rw [h]
  rfl

end

/-! ### DAILY_RECORD (R381) -/

/-- The record of the day joins the others, of which the newest 90 stay. -/
theorem exec_dailyRecord (s : State) (h : HealthSample) : ∃ t, exec (.dailyRecord h) s = .next t ∧
    t.pwr.daily = (s.pwr.daily ++ [dailyNow s h]).drop (s.pwr.daily.length + 1 - 90) := by
  exact ⟨_, rfl, congrArg Power.daily (ite_ibi_pwr ..)⟩

theorem length_newest {α : Type} (l : List α) (a : α) :
    ((l ++ [a]).drop (l.length + 1 - 90)).length = min 90 (l.length + 1) := by
  rw [List.length_drop, List.length_append, List.length_singleton]
  omega

/-- Settles O55: each row's own lemma gives the state it answers. -/
theorem powerAndInterruptRowsComplete : Obligations.PowerAndInterruptRowsComplete := by
  unfold Obligations.PowerAndInterruptRowsComplete
  intro s
  refine ⟨fun hl v => ⟨⟨_, exec_hrwIntMask_sends hl v, rfl⟩, _, exec_hrwIntCause_clears hl v, rfl⟩,
    fun hr hc hp x => ⟨_, exec_throttle hr hc hp x, throttle_samples s x⟩, fun d h => ?limiter,
    fun d m h => ⟨?settled, ?retry⟩, fun h => ?daily⟩
  case limiter => exact ⟨_, exec_hwThrottle h, rfl, congrArg Die.clockMhz (die_setDie ..)⟩
  case settled => exact ⟨_, exec_avsSettled h, by rw [die_setDie], by rw [die_setDie]⟩
  case retry => exact ⟨_, exec_avsRetry h, by rw [throttleRec_die, die_setDie], by rw [throttleRec_die, die_setDie]⟩
  case daily =>
    obtain ⟨t, e, daily⟩ := exec_dailyRecord s h
    have length := (congrArg List.length daily).trans (length_newest ..)
    exact ⟨t, e, List.ne_nil_of_length_pos (by omega), fun _ => length⟩

end Sys2Proof.Laws
end

-- ==== JtagRows ====
section
/-!
O56: the JTAG instructions and the I3C target (14 R362, R363; 15 R387; 16 R397; log 22).
-/
namespace Sys2Proof.Laws

open Sys2Proof.Machine

variable {s : State}

/-! ### Slices -/

theorem length_slice (l : List Byte) (o n : Nat) : (slice l o n).length = n := by
  have : ((l.drop o).take n).length ≤ n := List.length_take_le ..
  rw [slice, List.length_append, List.length_replicate]
  omega

/-- A slice from the front of a list that is long enough. -/
theorem slice_zero {l : List Byte} {n : Nat} (h : n ≤ l.length) : slice l 0 n = l.take n := by
  rw [slice, List.drop_zero, List.length_take_of_le h, Nat.sub_self, List.replicate_zero, List.append_nil]

/-! ### A debug token (R346, R363) -/

/-- A valid token has a payload of 64 bytes. -/
theorem length_token {bs : List Byte} {c : Container} (h : validContainer s bs 3 = some c) : c.payload.length = 64 := by
  obtain ⟨form, valid⟩ := Option.filter_eq_some_iff.1 h
  unfold containerOf at form
  dsimp only at form
  split at form
  · cases form
    simp only [payloadOk, Bool.and_eq_true, beq_iff_eq] at valid
    rw [length_slice]
    exact valid.2.1
  · exact absurd form (by simp)

/-- What an owner's token comes to. -/
theorem tokenStatus_owner (h : s.fuses.ownerHash.isSome = true) (token : List Byte) :
    tokenStatus s token = match validContainer s token 3 with
      | none => 2
      | some c => if c.payload.take 32 = s.sec.nonce then 1 else 3 := by
  rw [tokenStatus, if_neg (by simp [Option.isSome_iff_ne_none.1 h])]
  cases e : validContainer s token 3 with
  | none => rfl
  | some c =>
    have long : 32 ≤ c.payload.length := by rw [length_token e]; decide
    simp only [slice_zero long]

/-! ### The port, while the rails stand and without them -/

theorem jtag_up (h : s.pwr.railsUp = true) (n : Nat) (out : List Byte) : jtag s n out =
    { s with pwr := { s.pwr with jtag := n }, host := { s.host with answer := out, poison := false } } := if_pos h

theorem jtag_down (h : s.pwr.railsUp = false) (n : Nat) (out : List Byte) : jtag s n out = s :=
  if_neg (by rw [h]; exact Bool.false_ne_true)

theorem boundary_bypass (hr : s.pwr.resetN = true) (n : Nat) : boundary s n = jtag s 1 [0] := if_pos hr

theorem boundary_scan (hr : s.pwr.resetN = false) (n : Nat) :
    boundary s n = drew (jtag s n (Config.boundaryScan s.free)) :=
  if_neg (by rw [hr]; exact Bool.false_ne_true)

/-- What a token comes to does not depend on what the port shifts out. -/
theorem tokenStatus_jtag (n : Nat) (out token : List Byte) :
    tokenStatus (jtag s n out) token = tokenStatus s token := by
  unfold jtag
  split <;> rfl

/-- A token is taken: the nonce is drawn afresh, and the token's status says whether it arms unlock. -/
theorem exec_dbgToken (h : s.pwr.railsUp = true) (token : Bytes) :
    let st := tokenStatus s token
    exec (.dbgToken token) s = .next { s with
      free := s.free + 32, pwr := { s.pwr with jtag := 5 }, host := { s.host with answer := [], poison := false }
      sec := { s.sec with
        nonce := entropy s.free 32, dbgStatus := st, armed := s.sec.armed || st == 1
        armMask := if st = 1 then BitVec.ofNat 32 (le token 416 4) else s.sec.armMask } } := by
  have e : exec (.dbgToken token) s = .next (takeToken (jtag s 5 []) token) := congrArg Host.Outcome.next (if_pos h)
  rw [e, takeToken, tokenStatus_jtag, jtag_up h]

/-! ### The I3C target -/

theorem length_i3cHeld (s : State) : (i3cHeld s).length = 32 := by
  unfold i3cHeld
  split
  · exact length_slice ..
  · simp only [List.length_append, leBytes_length]

/-- The target answers and takes an address while the rails stand. -/
theorem exec_i3cPrivateRead (h : s.pwr.railsUp = true) (ha : s.pwr.i3cAddr.isSome = true) : exec .i3cPrivateRead s =
    .next { s with host := { s.host with answer := i3cHeld s, poison := false } } :=
  congrArg Host.Outcome.next (if_pos ⟨h, ha⟩)

/-- ENTDAA and SETDASA give an address to a target without one; one that has an address keeps it, and without rails
neither is heard. -/
theorem exec_takeAddress {i : Instr} {a : BitVec 7} (hi : i ∈ [Instr.entdaa a, .setdasa a]) : exec i s = .next
    (if s.pwr.railsUp ∧ s.pwr.i3cAddr.isNone then { s with pwr := { s.pwr with i3cAddr := some a } } else s) := by
  simp only [List.mem_cons, List.not_mem_nil, or_false] at hi
  rcases hi with rfl | rfl <;> rfl

/-- Settles O56: each instruction shifts out what its row names, and a token's status is that of its container. -/
theorem jtagAndI3cRowsAnswer : Obligations.JtagAndI3cRowsAnswer := by
  unfold Obligations.JtagAndI3cRowsAnswer
  intro s shifts
  have shift (up : s.pwr.railsUp = true) {i : Instr} {n : Nat} {out : List Byte} (e : exec i s = .next (jtag s n out)) :
      shifts i n out := e.trans (congrArg _ (jtag_up up n out))
  refine ⟨fun up => ⟨shift up rfl, shift up rfl, shift up rfl, shift up rfl, fun hr => ?bypass, fun hr i n hi => ?scan,
    fun token => ?token, fun a => ⟨fun ha i hi => ?taken, fun ha => ?kept⟩, fun ha => ?read⟩,
    fun down a token i hi => ?down⟩
  case bypass =>
    exact ⟨shift up (congrArg Host.Outcome.next (boundary_bypass hr 2)),
      shift up (congrArg Host.Outcome.next (boundary_bypass hr 3))⟩
  case scan =>
    have e : exec i s = .next (boundary s n) := by
      simp only [List.mem_cons, Prod.mk.injEq, List.not_mem_nil, or_false] at hi
      rcases hi with ⟨rfl, rfl⟩ | ⟨rfl, rfl⟩ <;> rfl
    rw [e, boundary_scan hr, jtag_up up]
    rfl
  case token =>
    have unowned : s.fuses.ownerHash = none → tokenStatus s token = 4 := fun h => if_pos (by rw [h]; rfl)
    exact ⟨_, exec_dbgToken up token, rfl, rfl, unowned, fun h => tokenStatus_owner h token, rfl, rfl, rfl⟩
  case taken => rw [exec_takeAddress hi, if_pos ⟨up, by rw [ha]; rfl⟩]
  case kept =>
    have keeps : ¬(s.pwr.railsUp = true ∧ s.pwr.i3cAddr.isNone = true) := by
      rw [Option.isNone_eq_false_iff.2 ha]
      exact fun h => Bool.false_ne_true h.2
    exact ⟨congrArg Host.Outcome.next (if_neg keeps), congrArg Host.Outcome.next (if_neg keeps)⟩
  case read =>
    refine ⟨_, exec_i3cPrivateRead up ha, length_i3cHeld s, fun hn => if_neg hn, fun hn hl => ?_⟩
    rw [i3cHeld, if_pos hn, slice_zero hl.ge, List.take_of_length_le hl.le]
  case down =>
    have off : ¬s.pwr.railsUp = true := by
      rw [down]
      exact Bool.false_ne_true
    have quiet {i : Instr} {n : Nat} {out : List Byte} (e : exec i s = .next (jtag s n out)) : exec i s = .next s :=
      e.trans (congrArg _ (jtag_down down n out))
    simp only [List.mem_cons, List.not_mem_nil, or_false] at hi
    rcases hi with rfl | rfl | rfl | rfl | rfl | rfl | hi
    · exact quiet rfl
    · exact quiet rfl
    · exact quiet rfl
    · exact congrArg Host.Outcome.next (if_neg off)
    · exact quiet rfl
    · exact congrArg Host.Outcome.next (if_neg fun h => off h.1)
    · rw [exec_takeAddress (a := a) (by simpa using hi), if_neg fun h => off h.1]

end Sys2Proof.Laws
end

-- ==== SpdmRows ====
section
/-!
O57: the SPDM requests over DOE, and IDE_KM (14 R357 to R360; log 22).
-/
namespace Sys2Proof.Laws

open Sys2Proof.Machine

variable {s : State}

/-! ### A request reaches the responder, and is in its order (R360) -/

/-- The responder is reached: the link is up and the node is past start. -/
structure Reached (s : State) : Prop where
  link : s.host.linkUp = true
  node : s.host.node ≠ .start

theorem Reached.doe (h : Reached s) (run : State → State) :
    doe s run = if restarting s 4 then spdmError s 0x03 else run s :=
  (if_pos h.link).trans (if_neg h.node)

/-- While the security core restarts, a request is answered busy. -/
theorem Reached.busy (h : Reached s) (hr : restarting s 4 = true) {i : Instr} {run : State → State}
    (e : exec i s = .next (Machine.doe s run)) : exec i s = .next (spdmError s 0x03) := by
  rw [e, h.doe, if_pos hr]

section
variable (h : Reached s) (hr : restarting s 4 = false) {i : Instr} {ok : State → Bool} {run : State → State} {t : State}
include h hr

theorem Reached.runs (e : exec i s = .next (Machine.doe s run)) (ht : run s = t) : exec i s = .next t := by
  rw [e, h.doe, hr, ← ht]
  rfl

/-- A request out of its order is unexpected. -/
theorem Reached.unexpected (e : exec i s = .next (Machine.doe s fun s => after s (ok s) run)) (hk : ok s = false) :
    exec i s = .next (spdmError s 0x04) :=
  h.runs hr e (if_neg (by rw [hk]; exact Bool.false_ne_true))

/-- One in its order is carried out. -/
theorem Reached.answered (e : exec i s = .next (Machine.doe s fun s => after s (ok s) run)) (hk : ok s = true)
    (ht : run s = t) : exec i s = .next t :=
  h.runs hr e ((if_pos hk).trans ht)

end

/-! ### Measurements and sessions -/

theorem toNat_eq_iff_byte {i : Byte} {n : Nat} (h : n < 256) : i.toNat = n ↔ i = BitVec.ofNat 8 n := by
  rw [← BitVec.toNat_inj, BitVec.toNat_ofNat, Nat.mod_eq_of_lt h]

/-- A session ends: the others stay. -/
theorem filterMap_ended (l : List Spdm) (id : W32) :
    (l.filterMap fun x => if x.id = id then none else some x) = l.filter fun x => x.id != id := by
  rw [← List.filterMap_eq_filter]
  congr 1
  funext x
  by_cases h : x.id = id <;> simp [h, Option.guard]

/-- A session changes: the others stay. -/
theorem mapSessions_some (s : State) (f : Spdm → Spdm) :
    mapSessions s (fun x => some (f x)) = { s with sec := { s.sec with sessions := s.sec.sessions.map f } } := by
  rw [mapSessions, show s.sec.sessions.filterMap (fun x => some (f x)) = s.sec.sessions.map f from
    congrFun List.filterMap_eq_map _]

theorem mapSessions_ended (s : State) (id : W32) : mapSessions s (fun x => if x.id = id then none else some x) =
    { s with sec := { s.sec with sessions := s.sec.sessions.filter fun x => x.id != id } } := by
  rw [mapSessions, filterMap_ended]

/-- Settles O57: a request in its order is answered as its row says, and every other with the error of its place. -/
theorem spdmRequestsAreAnswered : Obligations.SpdmRequestsAreAnswered := by
  unfold Obligations.SpdmRequestsAreAnswered
  intro s hl hn replies sec refused cert block summary signedBy up opened
  have reached : Reached s := ⟨hl, hn⟩
  refine ⟨fun hr => ?busy, fun hr => ⟨reached.runs hr rfl rfl, fun v => ?capabilities, fun a b c d => ?algorithms,
    fun hk => ?early, fun hk => ⟨reached.answered hr rfl hk rfl, fun slot off len => ?certificate,
      fun slot nonce => ?challenge, fun i nonce hi => ?measured, fun i nonce hi hf => ?unmeasured,
      fun slot half x => ?exchange⟩,
    fun id => ⟨fun ho => ?finish, fun ho v => reached.unexpected hr rfl ho, fun hu => ?down, fun hu => ?session⟩⟩⟩
  case busy =>
    exact ⟨reached.busy hr rfl, reached.busy hr rfl, fun _ => reached.busy hr rfl, fun _ _ _ => reached.busy hr rfl⟩
  case capabilities =>
    refine ⟨fun hk => reached.unexpected hr rfl hk, fun hk => ?_⟩
    split
    case isTrue hv => exact reached.answered hr rfl hk (if_pos hv)
    case isFalse hv => exact reached.answered hr rfl hk (if_neg hv)
  case algorithms => exact ⟨fun hk => reached.unexpected hr rfl hk, fun hk => reached.answered hr rfl hk rfl⟩
  case early =>
    exact ⟨reached.unexpected hr rfl hk, fun _ _ _ => reached.unexpected hr rfl hk,
      fun _ _ => reached.unexpected hr rfl hk⟩
  case certificate =>
    split
    case isTrue hs => exact reached.answered hr rfl hk (if_neg fun h => h.elim (absurd hs.1) hs.2.not_gt)
    case isFalse hs =>
      refine reached.answered hr rfl hk (if_pos ?_)
      exact (not_and_or.1 hs).imp_right Nat.lt_of_not_le
  case challenge =>
    split
    case isTrue hs => exact reached.answered hr rfl hk (if_neg (not_not_intro hs))
    case isFalse hs => exact reached.answered hr rfl hk (if_pos hs)
  case measured =>
    have known : ¬(7 < i.toNat ∧ i.toNat ≠ 0xFF) := fun h => hi.elim h.1.not_ge fun e => h.2 (by rw [e]; rfl)
    refine reached.answered hr rfl hk ((if_neg known).trans ?_)
    have number : i.toNat = 0 ↔ i = 0 := toNat_eq_iff_byte (by decide)
    have every : i.toNat = 0xFF ↔ i = 0xFF := toNat_eq_iff_byte (by decide)
    simp only [number, every]
    cases nonce <;> rfl
  case unmeasured =>
    exact reached.answered hr rfl hk (if_pos ⟨hi, fun h => hf (BitVec.eq_of_toNat_eq h)⟩)
  case exchange =>
    refine ⟨fun hs => reached.answered hr rfl hk (if_pos hs),
      fun hs hf => reached.answered hr rfl hk ((if_neg (not_not_intro hs)).trans (if_pos hf)),
      fun hs hf => reached.answered hr rfl hk ((if_neg (not_not_intro hs)).trans ((if_neg hf.not_ge).trans ?_))⟩
    simp only [Nat.shiftLeft_eq]
    rfl
  case finish =>
    exact ⟨reached.answered hr rfl ho (congrArg (spdm · []) (mapSessions_some ..)),
      reached.answered hr rfl ho (congrArg (spdmError · 0x06) (mapSessions_ended ..))⟩
  case down =>
    exact ⟨reached.unexpected hr rfl hu, reached.unexpected hr rfl hu, reached.unexpected hr rfl hu,
      fun _ _ => reached.unexpected hr rfl hu⟩
  case session =>
    exact ⟨reached.answered hr rfl hu rfl,
      reached.answered hr rfl hu (congrArg (spdm · []) (mapSessions_some ..)),
      reached.answered hr rfl hu (congrArg (spdm · []) (mapSessions_ended ..)),
      fun _ _ => reached.answered hr rfl hu rfl⟩

end Sys2Proof.Laws
end

-- ==== RingsAndLeases ====
section
/-!
O47: emulated registers, the rings in host memory and the lease (13 R327, R329 to R331, R340 to R342).
-/
namespace Sys2Proof.Laws

open Sys2Proof.Machine

variable {s : State}

/-! ### Emulated registers (R327, R329) -/

section
variable (hl : s.host.linkUp = true) {i : Byte} (hi : i.toNat < 7) (v : W64)
include hl hi

theorem exec_emWrite_queued (h : s.host.emQueue.length < 64) : exec (.emWrite i v) s = .next { s with
    host := { s.host with emQueue := s.host.emQueue ++ [(i.toNat, v, BitVec.allOnes 64)] } } :=
  (exec_emWrite hl i v).trans (congrArg _ ((if_neg hi.not_ge).trans (if_neg h.not_ge)))

theorem exec_emWrite_overflow (h : 64 ≤ s.host.emQueue.length) : exec (.emWrite i v) s = .next { s with
    host := { s.host with emOverflow := true } } :=
  (exec_emWrite hl i v).trans (congrArg _ ((if_neg hi.not_ge).trans (if_pos h)))

end

/-- The warden complex runs where none of its four processors restarts. -/
theorem warden_runs (h : ∀ p, p ∈ s.pwr.restarting → 4 ≤ p) : ¬[0, 1, 2, 3].any (restarting s) = true := by
  intro e
  obtain ⟨p, hp, hr⟩ := List.any_eq_true.1 e
  have late := h p (List.contains_iff_mem.1 hr)
  simp only [List.mem_cons, List.not_mem_nil, or_false] at hp
  omega

/-- The oldest queued write takes effect: the base of a ring or a trace register, by its index. -/
theorem exec_emWriteApplied (hw : ∀ p, p ∈ s.pwr.restarting → 4 ≤ p) {i : Nat} {v m : W64} {l : List (Nat × W64 × W64)}
    (h : s.host.emQueue = (i, v, m) :: l) :
    let w := (emValue s i &&& ~~~m) ||| (v &&& m)
    exec .emWriteApplied s = .next { s with host := { s.host with
      emQueue := l
      cring := if i = 0 then ringOf w else s.host.cring
      ering := if i = 1 then ringOf w else s.host.ering
      lring := if i = 2 then { ringOf w with log2 := 0 } else s.host.lring
      trace := if 3 ≤ i then s.host.trace.set 0 (i - 3) w else s.host.trace } } := by
  show Host.Outcome.next (emApply s) = _
  rw [emApply, if_neg (warden_runs hw), h]
  dsimp only
  generalize (emValue s i &&& ~~~m) ||| (v &&& m) = w
  match i with
  | 0 => rfl
  | 1 => rfl
  | 2 => rfl
  | i + 3 =>
    have beyond (k : Nat) (hk : k < 3) : i + 3 ≠ k := by omega
    rw [if_neg (beyond 0 (by decide)), if_neg (beyond 1 (by decide)), if_neg (beyond 2 (by decide)),
      if_pos (Nat.le_add_left 3 i)]
    rfl

/-! ### Rings (R329 to R331) -/

theorem ringOpen_iff {ring : Nat} {r : Ring} : ringOpen s ring r = true ↔
    s.host.linkUp = true ∧ r.enable = true ∧ (r.prod - r.cons).toNat < ringEntries ring r := by
  rw [ringOpen, Bool.and_eq_true, Bool.and_eq_true, decide_eq_true_iff, and_assoc]

/-- Marking a record delivered changes no record. -/
theorem markSent_records (l : List (ErrRec × Bool)) : (markSent l).map Prod.fst = l.map Prod.fst := by
  induction l with
  | nil => rfl
  | cons e l ih =>
    obtain ⟨r, b⟩ := e
    cases b with
    | true => exact congrArg (r :: ·) ih
    | false => rfl

/-- One record fewer waits. -/
theorem markSent_waiting {l : List (ErrRec × Bool)} {e : ErrRec × Bool} (h : l.find? (fun e => !e.2) = some e) :
    ((markSent l).filter fun e => !e.2).length + 1 = (l.filter fun e => !e.2).length := by
  induction l with
  | nil => exact absurd h (by simp)
  | cons x l ih =>
    obtain ⟨r, b⟩ := x
    cases b with
    | true => exact ih h
    | false => rfl

section
variable (hl : s.host.linkUp = true)
include hl

/-- The oldest waiting completion record goes to the completion ring. -/
theorem exec_ringRecordWrite_completion {c : ComplRec} {l : List ComplRec} (he : s.host.cring.enable = true)
    (hn : (s.host.cring.prod - s.host.cring.cons).toNat < ringEntries 0 s.host.cring) (hc : s.host.cbuf = c :: l) :
    let r := s.host.cring
    let e := ringEntries 0 r
    let w := wrHostN s (r.base * 4096 + r.prod.toNat % e * 32) (c.bytes r.prod.toNat e)
    exec (.ringRecordWrite 0) s = .next (raise { s with host := { s.host with
      mem := w.host.mem, cring := { r with prod := r.prod + 1 }, cbuf := l, cbufStall := false } } 0) := by
  show Host.Outcome.next (ringWrite s 0) = _
  unfold ringWrite
  dsimp only
  rw [if_pos (ringOpen_iff.2 ⟨hl, he, hn⟩), hc]
  dsimp only [ringPut]
  rw [wrHostN_frame]
  rfl

/-- The oldest record of the node log not yet delivered goes to the error ring, and is marked delivered. -/
theorem exec_ringRecordWrite_error {r : ErrRec} {b : Bool} (he : s.host.ering.enable = true)
    (hn : (s.host.ering.prod - s.host.ering.cons).toNat < ringEntries 1 s.host.ering)
    (hr : s.err.log.find? (fun e => !e.2) = some (r, b)) :
    let g := s.host.ering
    let w := wrHostN s (g.base * 4096 + g.prod.toNat % ringEntries 1 g * 64) r.bytes
    exec (.ringRecordWrite 1) s = .next (raise { s with
      host := { s.host with mem := w.host.mem, ering := { g with prod := g.prod + 1 } }
      err := { s.err with log := markSent s.err.log } } 1) := by
  show Host.Outcome.next (ringWrite s 1) = _
  unfold ringWrite
  dsimp only
  rw [if_pos (ringOpen_iff.2 ⟨hl, he, hn⟩), hr]
  dsimp only [ringPut]
  rw [wrHostN_frame]
  rfl

/-- The oldest waiting log entry goes to the log ring. -/
theorem exec_ringRecordWrite_log {x : LogEnt} {l : List LogEnt} (he : s.host.lring.enable = true)
    (hn : (s.host.lring.prod - s.host.lring.cons).toNat < 32768) (hx : s.host.logq = x :: l) :
    let r := s.host.lring
    let w := wrHostN s (r.base * 4096 + r.prod.toNat % 32768 * 32) x.bytes
    exec (.ringRecordWrite 2) s = .next (raise { s with host := { s.host with
      mem := w.host.mem, lring := { r with prod := r.prod + 1 }, logq := l } } 2) := by
  show Host.Outcome.next (ringWrite s 2) = _
  unfold ringWrite
  dsimp only
  rw [if_pos (ringOpen_iff (ring := 2).2 ⟨hl, he, hn⟩), hx]
  dsimp only [ringPut]
  rw [wrHostN_frame]
  rfl

end

/-! ### The lease (R340 to R342) -/

/-- A node held or without a running job is not taken to HOLDING by HOLD. -/
theorem holdOrder_of_still (h : s.hold.state ≠ .run ∨ s.job.phase ≠ .running) : (holdOrder s).1 = s := by
  unfold holdOrder
  split
  · rfl
  · next hj => rw [if_pos (h.resolve_right hj)]

/-- HOLD on a running job: HOLDING begins, at the present boundary (R337). -/
theorem holdOrder_of_running (hj : s.job.phase = .running) (hr : s.hold.state = .run) :
    (holdOrder s).1 = { enterHolding s .C none with
      hold := { (enterHolding s .C none).hold with atBoundary := true, stepPending := true } } := by
  unfold holdOrder
  rw [if_neg (not_not_intro hj), if_neg (not_not_intro hr)]

/-- HOLDING's cause and trace point change of the host interface the causes, the vectors and the log entries alone. -/
theorem enterHolding_host (s : State) (v : Sev) (r : Option ErrRec) :
    let h := (enterHolding s v r).host
    h = { s.host with cause := h.cause, msix := h.msix, msixPend := h.msixPend, logq := h.logq, logLost := h.logLost
                      logSeq := h.logSeq } := by
  unfold enterHolding traceHw tracePoint logEntry
  dsimp only
  (repeat' split) <;> rfl

/-- What orphan mode leaves: no lease, the functions that may fall back fallen back, cause 4, the in-band interrupt 0x01
and LEASE_EXPIRED in the log (R340, R341). -/
structure Orphaned (s t : State) : Prop where
  lease : t.host.leaseHeld = false
  orphan : t.host.orphan = true
  fallback : t.host.fallback = s.host.mode &&& 0x1FF &&& s.ncr.fallback
  cause : t.host.cause.toNat.testBit 4 = true
  ibi : t.host.ibi = s.host.ibi ++ [1]
  recorded : Safety.recorded t .leaseExpired
  rest : t = { s with host := t.host, err := t.err, hold := t.hold, free := t.free }

/-- HOLD on a node in orphan mode leaves orphan mode as it is. -/
theorem Orphaned.held {u : State} (h : Orphaned s u) : Orphaned s (holdOrder u).1 := by
  by_cases run : u.job.phase = .running ∧ u.hold.state = .run
  · have host := enterHolding_host u .C none
    have cause := cause_enterHolding_of h.cause .C none
    have frame := enterHolding_frame u .C none
    rw [holdOrder_of_running run.1 run.2]
    generalize enterHolding u .C none = t at host cause frame ⊢
    refine ⟨?_, ?_, ?_, cause, ?_, ?_, ?_⟩
    · exact (congrArg HostIf.leaseHeld host).trans h.lease
    · exact (congrArg HostIf.orphan host).trans h.orphan
    · exact (congrArg HostIf.fallback host).trans h.fallback
    · exact (congrArg HostIf.ibi host).trans h.ibi
    · obtain ⟨r, newest, code⟩ := h.recorded
      refine ⟨r, ?_, code⟩
      rw [frame]
      exact newest
    · rw [frame, h.rest]
  · rw [holdOrder_of_still (by tauto)]
    exact h

/-- An in-band interrupt leaves the log. -/
theorem recorded_ibi {c : ErrCode} (h : Safety.recorded s c) {v : Byte} : Safety.recorded (ibi s v) c := h

/-- Orphan mode begins: where a function may not fall back the node performs HOLD on itself. -/
theorem enterOrphan_holds (h : s.err.coal = []) : ∃ u, Orphaned s u ∧ u.job = s.job ∧ u.hold.state = s.hold.state ∧
    enterOrphan s =
      if (assisted s &&& ~~~s.ncr.fallback) != 0 && s.job.phase == .running then (holdOrder u).1 else u := by
  refine ⟨_, ⟨?lease, ?orphan, ?fallback, ?cause, ?ibi, ?recorded, ?rest⟩, ?job, ?state, rfl⟩
  case lease => exact congrArg HostIf.leaseHeld (record_host ..)
  case orphan => exact congrArg HostIf.orphan (record_host ..)
  case fallback => exact congrArg HostIf.fallback (record_host ..)
  case cause => exact (congrArg (fun h => h.cause.toNat.testBit 4) (record_host ..)).trans (cause_raise _ (by decide))
  case ibi => exact congrArg (fun h => h.ibi ++ [1]) (record_host ..)
  case recorded =>
    refine recorded_ibi (recorded_record (c := .leaseExpired) rfl ?_ _)
    exact h
  case rest =>
    rw [record_frame]
    rfl
  case job => exact record_job ..
  case state => exact record_hold_state ..

theorem enterOrphan_orphaned (h : s.err.coal = []) : Orphaned s (enterOrphan s) := by
  obtain ⟨u, orphaned, -, -, e⟩ := enterOrphan_holds h
  rw [e]
  split
  · exact orphaned.held
  · exact orphaned

/-- Where a function of a running job may not fall back, the node holds at its present boundary (R341). -/
theorem enterOrphan_holding (h : s.err.coal = []) (hj : s.job.phase = .running) (hr : s.hold.state = .run)
    (stays : s.host.mode &&& 0x1FF &&& ~~~s.ncr.fallback ≠ 0) :
    (enterOrphan s).hold.state = .holding ∧ (enterOrphan s).hold.atBoundary = true := by
  obtain ⟨u, -, job, state, e⟩ := enterOrphan_holds h
  have holds : ((assisted s &&& ~~~s.ncr.fallback) != 0 && s.job.phase == .running) = true := by
    rw [Bool.and_eq_true, bne_iff_ne, beq_iff_eq]
    exact ⟨stays, hj⟩
  have uj : u.job.phase = .running := by rw [job, hj]
  have ur : u.hold.state = .run := state.trans hr
  rw [e, if_pos holds, holdOrder_of_running uj ur]
  exact ⟨hold_enterHolding uj ur .C none, rfl⟩

/-- The functions return at once where the node is held or no job runs (R342). -/
theorem returnsNow_iff (s : State) : (s.hold.state == .held || s.job.phase != .running) = true ↔
    s.hold.state = .held ∨ s.job.phase ≠ .running := by
  rw [Bool.or_eq_true, beq_iff_eq, bne_iff_ne]

/-- A lease is looked at: one whose period has ended expires, and no other. -/
theorem leaseDue_of_late (hh : s.host.leaseHeld = true) (he : s.host.leaseEnds ≤ s.tim.now) :
    leaseDue s = enterOrphan s :=
  if_pos (by rw [hh, decide_eq_true he]; rfl)

theorem leaseDue_of_not {s : State} (h : s.host.leaseHeld = false ∨ s.tim.now < s.host.leaseEnds) : leaseDue s = s := by
  refine if_neg fun e => ?_
  obtain ⟨held, ends⟩ := Bool.and_eq_true_iff.1 e
  rcases h with h | h
  · exact Bool.false_ne_true (h.symm.trans held)
  · exact h.not_ge (of_decide_eq_true ends)

section
variable {who : W32} (hl : s.host.linkUp = true)
include hl

/-- A free lease is taken: orphan mode ends, and the functions that fell back return, at once where no job runs on. -/
theorem exec_leaseTake_free (hf : s.host.leaseHeld = false) : exec (.leaseTake who) s = .next
    (let u := if s.host.orphan then endOrphan s else s
     { u with host := { u.host with
        holder := who, leaseHeld := true, leaseEnds := s.tim.now + s.ncr.leaseMs * 1000000 } }) := by
  rw [exec_leaseTake hl, leaseTake, leaseDue_of_not (.inl hf)]
  exact congrArg Host.Outcome.next (if_neg (by rw [hf]; exact Bool.false_ne_true))

variable (hh : s.host.leaseHeld = true) (hw : s.host.holder = who) (he : s.tim.now < s.host.leaseEnds)
include hh hw he

theorem exec_leaseRenew_held : exec (.leaseRenew who) s = .next { s with host := { s.host with
    leaseEnds := s.tim.now + s.ncr.leaseMs * 1000000 } } := by
  rw [exec_leaseRenew hl, leaseRenew, leaseDue_of_not (.inr he)]
  exact congrArg Host.Outcome.next (if_pos ⟨hh, hw⟩)

theorem exec_leaseRelease_held : exec (.leaseRelease who) s = .next (enterOrphan s) := by
  rw [exec_leaseRelease hl, leaseRelease, leaseDue_of_not (.inr he)]
  exact congrArg Host.Outcome.next (if_pos ⟨hh, hw⟩)

end

/-- Settles O47: each row's own lemma gives what it leaves, and orphan mode is entered by the same operation from a
release and from an expiry. -/
theorem emulatedRegistersRingsAndLeases : Obligations.EmulatedRegistersRingsAndLeases := by
  unfold Obligations.EmulatedRegistersRingsAndLeases
  intro s h host orphan
  have orphaned {i : Instr} (e : exec i s = .next (enterOrphan s)) : orphan i := fun hc => by
    have o := enterOrphan_orphaned hc
    exact ⟨_, e, o.lease, o.orphan, o.fallback, o.cause, o.ibi, fun _ => o.recorded,
      fun hj hr => enterOrphan_holding hc hj hr, o.rest⟩
  refine ⟨fun hl => ⟨fun i v hi => ⟨exec_emWrite_queued hl hi v, exec_emWrite_overflow hl hi v⟩, fun v => ?cons,
    fun c l he hn hc => ?completion, fun r b he hn hr => ?error, fun x l he hn hx => ?log,
    fun who => ⟨fun hf => ?take, fun hh hw he => ?held⟩⟩,
    fun hh he => orphaned (congrArg Host.Outcome.next (leaseDue_of_late hh he)), fun i v m l hq hw hi => ?applied⟩
  case cons => exact ⟨exec_ringCons hl 0 v, exec_ringCons hl 1 v, exec_ringCons hl 2 v⟩
  case completion =>
    exact ⟨_, exec_ringRecordWrite_completion hl he hn hc, raise_mem' _ 0, rfl, rfl, rfl, cause_raise _ (by decide),
      rfl⟩
  case error =>
    exact ⟨_, exec_ringRecordWrite_error hl he hn hr, raise_mem' _ 1, rfl, markSent_records _, markSent_waiting hr,
      cause_raise _ (by decide), rfl⟩
  case log => exact ⟨_, exec_ringRecordWrite_log hl he hn hx, raise_mem' _ 2, rfl, rfl, cause_raise _ (by decide), rfl⟩
  case take =>
    have e := exec_leaseTake_free (who := who) hl hf
    cases ho : s.host.orphan with
    | false =>
      rw [ho, if_neg Bool.false_ne_true] at e
      exact ⟨_, e, rfl, rfl, rfl, ho, fun h => absurd h Bool.false_ne_true, rfl⟩
    | true =>
      rw [ho, if_pos rfl] at e
      have returns := returnsNow_iff s
      exact ⟨_, e, rfl, rfl, rfl, rfl, fun _ => ⟨fun h => ⟨if_pos (returns.2 h), if_pos (returns.2 h)⟩,
        fun h => ⟨if_neg (mt returns.1 h), if_neg (mt returns.1 h)⟩⟩, rfl⟩
  case held => exact ⟨exec_leaseRenew_held hl hh hw he, orphaned (exec_leaseRelease_held hl hh hw he)⟩
  case applied => exact exec_emWriteApplied hw hq

end Sys2Proof.Laws
end
